-- ==== Sys2Proof/Word.lean ====
section
/-! DEFINITION. The word types of the engine's interfaces: bytes, register halves and 64-bit registers. -/

namespace Sys2Proof

/-- One byte of memory, of a descriptor or of a record (R3). -/
abbrev Byte := BitVec 8

/-- A 64-bit register or parameter register (R10, R148). -/
abbrev Word := BitVec 64

/-- A 32-bit counter or field. -/
abbrev Half := BitVec 32

end Sys2Proof
end

