-- ==== Sys2Proof/Syntax.lean ====
section
/-! DEFINITION. The commands of the block: one constructor per row of the table of operations and events. The table
gives a row no operand fields; the operands below are the ones the row's rule speaks of (log entry 1). -/

namespace Sys2Proof

/-- The command a step is about: a command of a station program of a resident section (R182), or the command in
progress of the EXEC buffer of a submission ring (R331). -/
inductive CmdRef where
  | station (sec st idx : Nat)
  | ring (slot : Nat)
deriving DecidableEq, Repr

/-- A unit of a core that has a queue (R112, R113). -/
inductive UnitKind where
  | pan0 | pan1 | vector | transfer | statistics
deriving DecidableEq, Repr

/-- The sluices of a partition (R361): one register for each kind of resource. -/
inductive SluiceRes where
  | hbm | res | hzn | host | hub
deriving DecidableEq, Repr

/-- An instruction code of the TAP (R52): the public set, and every other code by number. -/
inductive TapCode where
  | bypass | idcode | samplePreload | extest | clamp | highz | other (code : Nat)
deriving DecidableEq, Repr

/-- What the failing host read was for (R358, R466). -/
inductive HostReader where
  | ring (slot : Nat) | admin (func : Nat) | funcEvents (func : Nat) | ctxEvents (ctx : Nat) | imageLoad
  | service (svc : Nat)
deriving DecidableEq, Repr

/-- What R311 fixes of a function's configuration space without an offset: the sizes of its BARs, the MSI-X table size, the capabilities
beyond the PCIe capability, and the SR-IOV fields. -/
inductive CfgField where
  | bar0Size | bar2Size | msixSize | hasMsix | hasSriov | hasAer | hasAts | totalVfs | firstVfOffset | vfStride
deriving DecidableEq, Repr

/-- A PCIe configuration request (R311, R518): a read of a configuration offset, a read of what R311 fixes, and the writes whose effect
the manual gives (SR-IOV and MSI-X control). Function 256 is the companion on link 1. -/
inductive ConfigOp where
  | read (offset : Nat) | field (g : CfgField) | setVfs (enable : Bool) (num : Nat) | setMsix (enable masked : Bool)
deriving DecidableEq, Repr

/-- What a stack reports of its organisation (R274): its height in dies and a die's density in Gb. -/
structure StackOrg where
  height : Nat
  gbits : Nat
deriving DecidableEq, Repr

/-- An event ring (R346): a context's, or a function's. -/
inductive EvRing where
  | ctx (c : Nat) | func (f : Nat)
deriving DecidableEq, Repr

/-- The commands. Each docstring gives the row's mnemonic, its rule and what its operands are. -/
inductive Instr where
  /-- PORST_N_ASSERT (R49). -/
  | porstNAssert
  /-- PORST_N_RELEASE (R517): outcomes of the ROM check and the fuse sensing of stage 1. -/
  | porstNRelease (romOk fuseOk : Bool)
  /-- RAIL_OUT_OF_RANGE (R32): rail 0-9 VDD_CL, 10 VDD_SRAM, 11 VDD_HUB, 12 VDD_HPHY, 13 VDDQ_HBM, 14 VDD_SDS, 15 VDDA_SDS, 16 VDDIO. -/
  | railOutOfRange (rail : Nat)
  /-- TIMEREF_LOST (R38). -/
  | timerefLost
  /-- TIMEREF_RETURN (R38). -/
  | timerefReturn
  /-- TIME_DEGRADED_CLEAR (R38). -/
  | timeDegradedClear
  /-- SDS_REFCLK_LOST (R39). -/
  | sdsRefclkLost (group : Nat)
  /-- HBM_REFCLK_LOST (R40). -/
  | hbmRefclkLost (cluster : Nat)
  /-- CLOCK_TREE_STOP (R454): tree 2p + k is tree k of part p. -/
  | clockTreeStop (tree : Nat)
  /-- PART_REJOIN (R454). -/
  | partRejoin (part : Nat)
  /-- CLOCK_SWITCH (R444). -/
  | clockSwitch (tree : Nat)
  /-- PLL_LOSS_OF_LOCK (R445). -/
  | pllLossOfLock (region : Nat)
  /-- DIE_TO_DIE_LINK_FAILURE (R526). -/
  | dieToDieLinkFailure (link : Nat)
  /-- THERMAL_WARN_CROSSING (R501): the reading in 1/16 degree. -/
  | thermalWarnCrossing (sensor : Nat) (t16 : Int)
  /-- HARDWARE_THROTTLE (R501). -/
  | hardwareThrottle (sensor : Nat) (t16 : Int)
  /-- THROTTLE_RELEASE (R501): cluster 0-9, or 10 for the hub; the readings of its sensors. -/
  | throttleRelease (domain : Nat) (t16s : List Int)
  /-- THERMAL_SHUTDOWN (R502). -/
  | thermalShutdown (sensor : Nat) (t16 : Int)
  /-- GOVERNOR_TRIP (R497). -/
  | governorTrip (rail : Nat)
  /-- FIRMWARE_ASSERTION (R526): processor numbered as its HUB_WDOG bit. -/
  | firmwareAssertion (proc : Nat)
  /-- RAIL_SENSOR_READ (R487): monitor readings in mV, rail currents in 1/4 A. -/
  | railSensorRead (volts currents : List Nat) (estimated : Bool)
  /-- PACE_CHECK (R488): slowest ring in M steps/s. -/
  | paceCheck (cluster pace : Nat)
  /-- POINT_CHANGE (R490). -/
  | pointChange (cluster point : Nat)
  /-- POINT_CHANGE_SETTLED (R490). -/
  | pointChangeSettled (cluster : Nat)
  /-- POINT_CHANGE_TIMEOUT (R490). -/
  | pointChangeTimeout (cluster : Nat)
  /-- POWER_WINDOW_END (R499): power of the window that ends. -/
  | powerWindowEnd (watts : Nat)
  /-- POWER_PROJECTION (R500): time stamp, energy so far in W ns, present power in W. -/
  | powerProjection (t energy power : Nat)
  /-- PAN_START_ADMISSION (R492). -/
  | panStartAdmission (pan t : Nat)
  /-- PAN_RAMP_DOWN (R108). -/
  | panRampDown (pan t : Nat)
  /-- TAP_INSTRUCTION (R52). -/
  | tapInstruction (code : TapCode)
  /-- MANAGEMENT_STAGE (R517): die-to-die link that fails training; pages that fail their test. -/
  | managementStage (linkFault : Option Nat) (cmFailed rsFailed : List Nat)
  /-- STACK_TRAINING (R276): identification read (height in dies, density in Gb), rated rate, best rate whose eyes have margin (0 none), metadata lanes. -/
  | stackTraining (stack : Nat) (org : StackOrg) (rated margin : Nat) (lanes : Bool)
  /-- MEMORY_READY (R276). -/
  | memoryReady
  /-- BOOT_IMAGE_WAIT_EXPIRY (R481). -/
  | bootImageWaitExpiry
  /-- FIRMWARE_START (R517). -/
  | firmwareStart
  /-- BOOT_READY (R519). -/
  | bootReady
  /-- ENGINE_RESET_REQUEST (R522): the write to HUB_RESET. -/
  | engineResetRequest (width value : Nat)
  /-- ENGINE_RESET_HOLD_END (R522): outcomes of the ROM check and the fuse sensing of stage 1. -/
  | engineResetHoldEnd (romOk fuseOk : Bool)
  /-- WATCHDOG_HEARTBEAT (R524). -/
  | watchdogHeartbeat (proc t : Nat)
  /-- WATCHDOG_EXPIRY (R524). -/
  | watchdogExpiry (proc : Nat)
  /-- CONFIG_REQUEST (R518). -/
  | configRequest (func : Nat) (op : ConfigOp)
  /-- FUNCTION_LEVEL_RESET (R338). -/
  | functionLevelReset (func : Nat)
  /-- HOT_RESET (R338). -/
  | hotReset
  /-- LINK0_DOWN (R338). -/
  | link0Down
  /-- LINK1_DOWN (R47). -/
  | link1Down
  /-- LINK1_UP (R47). -/
  | link1Up
  /-- HOST_READ_ERROR (R358). -/
  | hostReadError (reader : HostReader)
  /-- ATS_INVALIDATION (R327). -/
  | atsInvalidation (func : Nat)
  /-- REGISTER_WRITE (R8). -/
  | registerWrite (func bar offset width value : Nat)
  /-- NEGOTIATE (R318). -/
  | negotiate (func : Nat)
  /-- ENABLE (R320). -/
  | enable (func : Nat)
  /-- FUNCTION_DISABLE (R321). -/
  | functionDisable (func : Nat)
  /-- HIF_PART_CFG_WRITE (R322). -/
  | hifPartCfgWrite (part value : Nat)
  /-- HIF_VF_CFG_WRITE (R322). -/
  | hifVfCfgWrite (vf value : Nat)
  /-- HOST_WINDOW_ENABLE (R324): value written to HIF_HWIN_A, with EN 1. -/
  | hostWindowEnable (win value : Nat)
  /-- HOST_WINDOW_DISABLE (R325). -/
  | hostWindowDisable (win : Nat)
  /-- HOST_WINDOW_DRAINED (R325). -/
  | hostWindowDrained (win : Nat)
  /-- HIF_PART_REGIONS_WRITE (R362). -/
  | hifPartRegionsWrite (part value : Nat)
  /-- HIF_PART_RT_WRITE (R362). -/
  | hifPartRtWrite (part value : Nat)
  /-- SLUICE_WRITE (R377). -/
  | sluiceWrite (part : Nat) (res : SluiceRes) (value : Nat)
  /-- HORIZON_ENABLE (R405): value written to HZN_CTRL, with ENABLE 1. -/
  | horizonEnable (value : Nat)
  /-- HORIZON_DISABLE (R315). -/
  | horizonDisable
  /-- HZN_DOMAIN_WRITE (R405). -/
  | hznDomainWrite (reg value : Nat)
  /-- SERVICE_LOAD (R423). -/
  | serviceLoad (svc : Nat)
  /-- SERVICE_UNLOAD (R424). -/
  | serviceUnload (svc : Nat)
  /-- CFG_LOAD_START (R466). -/
  | cfgLoadStart
  /-- CFG_LOAD_ABORT (R468). -/
  | cfgLoadAbort
  /-- MGT_PWR_LIMIT_WRITE (R498). -/
  | mgtPwrLimitWrite (value : Nat)
  /-- CLEAR_FF (R511). -/
  | clearFf
  /-- TELEMETRY_ENABLE (R515): value written to MGT_TELEM_CFG, with EN 1. -/
  | telemetryEnable (value : Nat)
  /-- SUBMISSION_DOORBELL (R334). -/
  | submissionDoorbell (func ring tail : Nat)
  /-- ADMIN_DOORBELL (R336). -/
  | adminDoorbell (func tail : Nat)
  /-- NOP (R330). -/
  | nop (ring : Nat)
  /-- EXEC (R331). -/
  | execBuffer (ring : Nat)
  /-- LAUNCH (R260). -/
  | launch (ring : Nat)
  /-- UNLOAD (R356). -/
  | unload (ring : Nat)
  /-- CTX_CREATE (R338). -/
  | ctxCreate (func : Nat)
  /-- CTX_DESTROY (R354). -/
  | ctxDestroy (func : Nat)
  /-- RING_CREATE (R337). -/
  | ringCreate (func : Nat)
  /-- RING_DESTROY (R355). -/
  | ringDestroy (func : Nat)
  /-- FENCE_CREATE (R337). -/
  | fenceCreate (func : Nat)
  /-- FENCE_SHARE (R337). -/
  | fenceShare (func : Nat)
  /-- FENCE_RELEASE (R345). -/
  | fenceRelease (func : Nat)
  /-- FENCE_SIGNAL (R341). -/
  | fenceSignal (func : Nat)
  /-- OBJ_CREATE (R300). -/
  | objCreate (func : Nat)
  /-- OBJ_MAP_HOST (R337). -/
  | objMapHost (func : Nat)
  /-- OBJ_UNMAP (R303). -/
  | objUnmap (func : Nat)
  /-- OBJ_EXPORT (R301). -/
  | objExport (func : Nat)
  /-- OBJ_IMPORT (R301). -/
  | objImport (func : Nat)
  /-- OBJ_WITHDRAW (R301). -/
  | objWithdraw (func : Nat)
  /-- EVENT_RING_FULL_RECHECK (R348). -/
  | eventRingFullRecheck (ctx : Nat)
  /-- EVENT_RING_FULL_TIMEOUT (R348). -/
  | eventRingFullTimeout (ctx : Nat)
  /-- FUNCTION_EVENT_RING_RECHECK (R349). -/
  | functionEventRingRecheck (func : Nat)
  /-- MODERATION_EXPIRY (R350). -/
  | moderationExpiry (ring : EvRing)
  /-- QUEUE_ADMISSION (R269). -/
  | queueAdmission (core : Nat) (unit : UnitKind)
  /-- MATMUL (R212). -/
  | matmul (ref : CmdRef)
  /-- ATTEND (R214). -/
  | attend (ref : CmdRef)
  /-- VOP (R218). -/
  | vop (ref : CmdRef)
  /-- REDUCE (R219). -/
  | reduce (ref : CmdRef)
  /-- SOFTMAX (R219). -/
  | softmax (ref : CmdRef)
  /-- NORM (R219). -/
  | norm (ref : CmdRef)
  /-- ACTIVATE (R219). -/
  | activate (ref : CmdRef)
  /-- ROPE (R219). -/
  | rope (ref : CmdRef)
  /-- TOPK (R219). -/
  | topk (ref : CmdRef)
  /-- SAMPLE (R222). -/
  | sample (ref : CmdRef)
  /-- STATS (R153). -/
  | stats (ref : CmdRef)
  /-- QUANT (R155). -/
  | quant (ref : CmdRef)
  /-- REQUANT (R159). -/
  | requant (ref : CmdRef)
  /-- DEQUANT (R156). -/
  | dequant (ref : CmdRef)
  /-- MASK (R180). -/
  | mask (ref : CmdRef)
  /-- RNDFILL (R181). -/
  | rndfill (ref : CmdRef)
  /-- COPY (R224). -/
  | copy (ref : CmdRef)
  /-- GATHER (R224). -/
  | gather (ref : CmdRef)
  /-- SCATTER (R224). -/
  | scatter (ref : CmdRef)
  /-- MCAST (R224). -/
  | mcast (ref : CmdRef)
  /-- MULTICAST_RESERVATION_GRANT (R138). -/
  | multicastReservationGrant (cluster : Nat)
  /-- PREFETCH (R224). -/
  | prefetch (ref : CmdRef)
  /-- SAVE_RES (R387). -/
  | saveRes (ref : CmdRef)
  /-- RESTORE_RES (R388). -/
  | restoreRes (ref : CmdRef)
  /-- WAIT (R226). -/
  | wait (ref : CmdRef)
  /-- SIGNAL (R227). -/
  | signal (ref : CmdRef)
  /-- EVENT (R227). -/
  | event (ref : CmdRef)
  /-- BARRIER (R227). -/
  | barrier (ref : CmdRef)
  /-- WAIT_TIMEOUT_EXPIRY (R226). -/
  | waitTimeoutExpiry (ref : CmdRef)
  /-- WAIT_CYCLE_SCAN (R392). -/
  | waitCycleScan
  /-- SEND (R408). -/
  | send (ref : CmdRef)
  /-- RECV (R408). -/
  | recv (ref : CmdRef)
  /-- ALLREDUCE (R412). -/
  | allreduce (ref : CmdRef)
  /-- ALLGATHER (R412). -/
  | allgather (ref : CmdRef)
  /-- RSCATTER (R412). -/
  | rscatter (ref : CmdRef)
  /-- RINGPASS (R412). -/
  | ringpass (ref : CmdRef)
  /-- PATCH (R231). -/
  | patch (ref : CmdRef)
  /-- REPLAY (R233). -/
  | replay (ref : CmdRef)
  /-- RUN_START (R233). -/
  | runStart (sec : Nat)
  /-- CHAIN (R235). -/
  | chain (ref : CmdRef)
  /-- SOFT_CALL (R236). -/
  | softCall (ref : CmdRef)
  /-- CORE_CALL (R428). -/
  | coreCall (ref : CmdRef)
  /-- CALL_TIMEOUT (R236). -/
  | callTimeout (ref : CmdRef)
  /-- PAN_OPERATION_ISSUE (R100). -/
  | panOperationIssue (pan : Nat)
  /-- WEIGHT_SET_LOAD (R270). -/
  | weightSetLoad (pan : Nat)
  /-- WEIGHT_SET_COMPLETE (R103). -/
  | weightSetComplete (pan : Nat)
  /-- FRAME_EMIT (R254). -/
  | frameEmit (sec route : Nat)
  /-- ROUTE_STALL_TIMEOUT (R256): any member of the stalled group. -/
  | routeStallTimeout (ref : CmdRef)
  /-- COMMAND_COMMIT (R208). -/
  | commandCommit (ref : CmdRef)
  /-- STREAM_GROUP_COMMIT (R257): any member of the group. -/
  | streamGroupCommit (ref : CmdRef)
  /-- PREEMPT_WAIT_EXPIRY (R369). -/
  | preemptWaitExpiry (core : Nat) (unit : UnitKind)
  /-- KILL_COMPLETE (R370). -/
  | killComplete (ref : CmdRef)
  /-- PARITY_ERROR (R123): store coded as in CLS_PAR_LAST; again: the second read of the word also mismatches. -/
  | parityError (store cluster core pan addr : Nat) (ref : CmdRef) (again : Bool)
  /-- PAGE_ZEROING_COMPLETE (R120): res: a reservoir page, 1024 per cluster; otherwise a core-memory page, 32 per core. -/
  | pageZeroingComplete (res : Bool) (page : Nat) (passed : Bool)
  /-- SUBPAGE_ZEROING_COMPLETE (R302). -/
  | subpageZeroingComplete (stack sub : Nat) (passed : Bool)
  /-- TRANSLATION_INVALIDATION_COMPLETE (R145). -/
  | translationInvalidationComplete (ctx va : Nat)
  /-- SLUICE_WINDOW (R374). -/
  | sluiceWindow
  /-- REFRESH (R278). -/
  | refresh (stack : Nat)
  /-- RETRAINING (R278). -/
  | retraining (stack pc : Nat) (passed : Bool)
  /-- SCRUB_READ (R304). -/
  | scrubRead (stack line : Nat)
  /-- TRAIN (R398). -/
  | train (port : Nat) (frame : List Byte)
  /-- TRAINING_TIMEOUT (R398). -/
  | trainingTimeout (port : Nat)
  /-- PORT_DOWN (R399). -/
  | portDown (port : Nat)
  /-- LINK_ACK_TIMEOUT (R399). -/
  | linkAckTimeout (port : Nat)
  /-- DATA (R401). -/
  | data (port : Nat) (frame : List Byte)
  /-- ACK (R401). -/
  | ack (port : Nat) (frame : List Byte)
  /-- NAK (R401). -/
  | nak (port : Nat) (frame : List Byte)
  /-- RETRANSMIT_TIMEOUT (R401). -/
  | retransmitTimeout (port : Nat)
  /-- ACK_KEEPALIVE (R401). -/
  | ackKeepalive (port : Nat)
  /-- RTS (R408). -/
  | rts (port : Nat) (frame : List Byte)
  /-- CTS (R408). -/
  | cts (port : Nat) (frame : List Byte)
  /-- REFUSE (R408). -/
  | refuse (port : Nat) (frame : List Byte)
  /-- BUSY (R408). -/
  | busy (port : Nat) (frame : List Byte)
  /-- RTS_RETRY (R408). -/
  | rtsRetry (msg : Nat)
  /-- SEG_DONE (R408). -/
  | segDone (port : Nat) (frame : List Byte)
  /-- SEGMENT_TIMEOUT (R408). -/
  | segmentTimeout (msg seg : Nat)
  /-- DONE (R408). -/
  | done (port : Nat) (frame : List Byte)
  /-- ABORT (R410). -/
  | abort (port : Nat) (frame : List Byte)
  /-- GROUP_ABORT (R410). -/
  | groupAbort (port : Nat) (frame : List Byte)
  /-- HORIZON_INACTIVITY_TIMEOUT (R410). -/
  | horizonInactivityTimeout (ref : CmdRef)
  /-- REMOTE_SIGNAL (R344). -/
  | remoteSignal (port : Nat) (frame : List Byte)
  /-- REMOTE_SIGNAL_DROP (R413): the oldest held signal. -/
  | remoteSignalDrop
  /-- TIME_SYNC_WINDOW (R414). -/
  | timeSyncWindow
  /-- SYNC (R414): stamp: arrival on the device time base. -/
  | sync (port : Nat) (frame : List Byte) (stamp : Nat)
  /-- FOLLOW (R414). -/
  | follow (port : Nat) (frame : List Byte)
  /-- REQ (R414). -/
  | req (port : Nat) (frame : List Byte) (stamp : Nat)
  /-- RESP (R414). -/
  | resp (port : Nat) (frame : List Byte)
  /-- TIME_SYNC_FAULT (R414). -/
  | timeSyncFault
  /-- LOAD (R465). -/
  | load (word : Nat)
  /-- READBACK (R479). -/
  | readback (word : Nat)
  /-- END (R465). -/
  | endWord (word : Nat)
  /-- CHAIN_FORWARD (R477): bytes after the engine's own sub-image. -/
  | chainForward (bytes : List Byte)
  /-- SUB_IMAGE_HEADER (R470): bytes on the configuration port; a host-port load reads host memory. -/
  | subImageHeader (bytes : List Byte)
  /-- SUB_IMAGE_RECEIVED (R469): the bytes after the header on the configuration port. -/
  | subImageReceived (bytes : List Byte)
  /-- LOAD_COMMIT (R469): time at which every call on the named parts has drained. -/
  | loadCommit (t : Nat)
  /-- APPLY_COMPLETE (R469). -/
  | applyComplete
  /-- JOIN (R473). -/
  | join (part : Nat)
  /-- JOIN_TIMEOUT (R473). -/
  | joinTimeout (part : Nat)
  /-- REPLY_HEADER (R449). -/
  | replyHeader (part : Nat) (beat : List Byte) (last : Bool)
  /-- REPLY_FRAME (R449). -/
  | replyFrame (part : Nat) (frame : List Byte) (last : Bool)
  /-- UNSOLICITED (R452). -/
  | unsolicited (part : Nat)
  /-- SVC_WAIT (R426). -/
  | svcWait (svc : Nat)
  /-- SVC_DONE (R429): window: the bytes the program left in its output window. -/
  | svcDone (svc entry callId count : Nat) (window : List Byte)
  /-- SVC_TIME (R426). -/
  | svcTime (svc : Nat)
  /-- SVC_LOG (R426). -/
  | svcLog (svc : Nat) (bytes : List Byte)
  /-- SVC_YIELD (R426). -/
  | svcYield (svc : Nat)
  /-- SERVICE_PROGRAM_END (R426). -/
  | serviceProgramEnd (svc t : Nat)
  /-- OPEN (R430): posted call entry of service 0. -/
  | crysOpen (entry : Nat)
  /-- CLOSE (R431). -/
  | crysClose (entry : Nat)
  /-- STATUS (R430). -/
  | crysStatus (entry : Nat)
  /-- SERVING_STEP (R435). -/
  | servingStep (ctx : Nat)
  /-- CRYSTALLIZER_SAMPLING (R436). -/
  | crystallizerSampling (ctx : Nat)
  /-- SET_ENDPOINT_ID (R503). -/
  | setEndpointId (eid : Nat)
  /-- GET_ENDPOINT_ID (R503). -/
  | getEndpointId
  /-- GET_MCTP_VERSION_SUPPORT (R503). -/
  | getMctpVersionSupport
  /-- GET_MESSAGE_TYPE_SUPPORT (R503). -/
  | getMessageTypeSupport
  /-- GET_STATUS (R504). -/
  | getStatus
  /-- READ_SENSORS (R504). -/
  | readSensors (kind first count : Nat)
  /-- READ_CT (R504). -/
  | readCt (offset length : Nat)
  /-- SET_PWR_LIMIT (R504). -/
  | setPwrLimit (watts : Nat)
  /-- READ_LOG (R504). -/
  | readLog (region index : Nat)
  /-- LOG_STATUS (R504). -/
  | logStatus
  /-- LOG_WRITE (R508). -/
  | logWrite
  /-- COALESCING_WINDOW_END (R510). -/
  | coalescingWindowEnd
  /-- TELEMETRY_SAMPLE (R514). -/
  | telemetrySample
  /-- SUBPAGE_TAGGING_COMPLETE (R300). -/
  | subpageTaggingComplete (stack sub : Nat)
  /-- SAVE_RES_TIMEOUT (R385). -/
  | saveResTimeout (ref : CmdRef)
  /-- TRAIN_FRAME_SEND (R398). -/
  | trainFrameSend (port : Nat)
  /-- WARN_RELEASE (R501): the readings of its five sensors. -/
  | warnRelease (cluster : Nat) (t16s : List Int)
  /-- INVALID_COMMAND_WORD (R465). -/
  | invalidCommandWord (word : Nat)
deriving DecidableEq, Repr

end Sys2Proof
end

