-- ==== Sys2Proof/Decode.lean ====
section
/-! DEFINITION. The table gives its rows no bits: a command is named by its row, not by a word (log entry 8). -/

namespace Sys2Proof

/-- The command that a word of the table spells: none, since no row of the table has bits. -/
def decodeTableWord (_nbits _w : Nat) : Option Instr := none

end Sys2Proof
end

