-- ==== Sys2Proof/Machine/Bits.lean ====
section
/-! DEFINITION. Bit fields, little-endian byte order (R3), sign extension and saturating counters (R72, R535). -/

namespace Sys2Proof.Machine

/-- Bits [lo + len - 1 : lo] of a number (unsigned, R4). -/
def fld (v lo len : Nat) : Nat := (v >>> lo) % 2 ^ len

/-- Bit lo of a number, as a flag. -/
def bit (v lo : Nat) : Bool := fld v lo 1 == 1

/-- The value of one flag. -/
def b2n (b : Bool) : Nat := if b then 1 else 0

/-- Two's complement reading of the low w bits. -/
def sext (w v : Nat) : Int :=
  let u := v % 2 ^ w
  if 2 * u < 2 ^ w then (u : Int) else (u : Int) - (2 ^ w : Nat)

/-- The low w bits of an integer, as an unsigned number. -/
def uwrap (w : Nat) (v : Int) : Nat := (v % ((2 ^ w : Nat) : Int)).toNat

/-- The number that little-endian bytes spell (R3). -/
def leNat : List Byte → Nat
  | [] => 0
  | b :: bs => b.toNat + 256 * leNat bs

/-- The low n bytes of a number, little-endian (R3). -/
def leBytes : Nat → Nat → List Byte
  | 0, _ => []
  | n + 1, v => BitVec.ofNat 8 v :: leBytes n (v / 256)

/-- Bytes off, …, off + n - 1 of a byte list as a little-endian number; bytes beyond its end read 0. -/
def leAt (bs : List Byte) (off n : Nat) : Nat := leNat ((bs.drop off).take n)

/-- Big-endian number (the exception of R461, and the standards it names). -/
def beNat (bs : List Byte) : Nat := leNat bs.reverse

/-- The low n bytes of a number, big-endian. -/
def beBytes (n v : Nat) : List Byte := (leBytes n v).reverse

/-- The bytes of an ASCII string. -/
def ascii (s : String) : List Byte := s.toList.map fun c => BitVec.ofNat 8 c.toNat

/-- satinc of R72 on a w-bit counter: it stops at its maximum (R535). -/
def satinc (w n : Nat) : Nat := if n + 1 < 2 ^ w then n + 1 else 2 ^ w - 1

/-- A saturating counter raised by k (R535). -/
def satadd (w n k : Nat) : Nat := min (n + k) (2 ^ w - 1)

/-- ⌈a ÷ b⌉. -/
def cdiv (a b : Nat) : Nat := a / b + if a % b = 0 then 0 else 1

/-- a rounded up to a multiple of b. -/
def roundUp (a b : Nat) : Nat := cdiv a b * b

/-- Circular distance (a - b) mod 2^w, the only comparison of free-running numbers (R534). -/
def cdist (w a b : Nat) : Nat := (a + 2 ^ w - b % 2 ^ w) % 2 ^ w

/-- The positions, ascending, of the 1 bits of the low n bits. -/
def ones (n v : Nat) : List Nat := (List.range n).filter fun i => bit v i

/-- A list of n values of f. -/
def tab {α : Type} (n : Nat) (f : Nat → α) : List α := (List.range n).map f

/-- l with its i-th element replaced. -/
def upd {α : Type} (l : List α) (i : Nat) (f : α → α) : List α := l.modify i f

/-- Every element at index i satisfies p. -/
def allIdx {α : Type} (l : List α) (p : Nat → α → Bool) : Bool :=
  l.zipIdx.all fun (a, i) => p i a

/-- No two intervals [a, a + n) of the list meet. -/
def disjointAll : List (Nat × Nat) → Bool
  | [] => true
  | (a, n) :: rest =>
    rest.all (fun (b, m) => n == 0 || m == 0 || a + n ≤ b || b + m ≤ a) && disjointAll rest

/-- Two intervals [a, a + n) and [b, b + m) share a byte. -/
def meets (a n b m : Nat) : Bool := 0 < n && 0 < m && a < b + m && b < a + n

end Sys2Proof.Machine
end

