-- ==== Sys2Proof/Machine/Formats.lean ====
section
/-! DEFINITION. Number formats (03_number_formats): the values codes stand for, the cases of zero, infinity, NaN and
subnormals, and the conversion of exact values into output formats. -/

namespace Sys2Proof.Machine

/-- An exact value: a dyadic m × 2^e, an infinity, or NaN with the sign bit its code carried. -/
inductive Val where
  | fin (m e : Int) | inf (neg : Bool) | nan (neg : Bool)
deriving DecidableEq, Repr

/-- Format codes of R56. -/
def fI4 : Nat := 0x01
def fU4 : Nat := 0x02
def fCB4 : Nat := 0x03
def fE2M1 : Nat := 0x04
def fE2M3 : Nat := 0x05
def fE3M2 : Nat := 0x06
def fE4M3 : Nat := 0x07
def fE5M2 : Nat := 0x08
def fI8 : Nat := 0x09
def fU8 : Nat := 0x0A
def fMXINT8 : Nat := 0x0B
def fI16 : Nat := 0x0C
def fBF16 : Nat := 0x0D
def fFP16 : Nat := 0x0E
def fI32 : Nat := 0x0F
def fFP32 : Nat := 0x10
def fPAIR : Nat := 0x11
def fE8M0 : Nat := 0x12

/-- Bits per element (R56); 0 for the invalid code and the reserved ones. -/
def fmtBits (f : Nat) : Nat :=
  [0, 4, 4, 4, 4, 6, 6, 8, 8, 8, 8, 8, 16, 16, 16, 32, 32, 64, 8].getD f 0

/-- The role columns of R56: weight, activation, output, vector. -/
inductive Role where
  | weight | activation | output | vector | scale
deriving DecidableEq, Repr

/-- R56: the roles in which a format is accepted. -/
def roleOk (f : Nat) : Role → Bool
  | .weight => 0x01 ≤ f && f ≤ 0x10 && f != fI32
  | .activation => 0x01 ≤ f && f ≤ 0x10 && f != fI32 && f != fCB4
  | .output => 0x01 ≤ f && f ≤ 0x11
  | .vector => 0x01 ≤ f && f ≤ 0x10 && f != fCB4
  | .scale => f == fE8M0

/-- R58: what an innermost extent must be a multiple of. -/
def fmtMultiple (f : Nat) : Nat := if fmtBits f == 4 then 2 else if fmtBits f == 6 then 4 else 1

/-- Exponent bits, mantissa bits and bias of a floating format (R61). -/
def floatParams (f : Nat) : Option (Nat × Nat × Int) :=
  if f == fE2M1 then some (2, 1, 1) else if f == fE2M3 then some (2, 3, 1)
  else if f == fE3M2 then some (3, 2, 3) else if f == fE4M3 then some (4, 3, 7)
  else if f == fE5M2 then some (5, 2, 15) else if f == fBF16 then some (8, 7, 127)
  else if f == fFP16 then some (5, 10, 15) else if f == fFP32 then some (8, 23, 127) else none

/-- BF16, FP16 and FP32: the formats whose subnormals are flushed (R61, R63). -/
def isWide (f : Nat) : Bool := f == fBF16 || f == fFP16 || f == fFP32

/-- A floating format. -/
def isFloat (f : Nat) : Bool := (floatParams f).isSome

/-- The range of an integer format (R59); MXINT8 by its code. -/
def intRange (f : Nat) : Option (Int × Int) :=
  if f == fI4 then some (-8, 7) else if f == fU4 then some (0, 15)
  else if f == fI8 || f == fMXINT8 then some (-128, 127) else if f == fU8 then some (0, 255)
  else if f == fI16 then some (-32768, 32767)
  else if f == fI32 then some (-2147483648, 2147483647) else none

/-- Largest finite magnitude of a floating format, as m × 2^e (R61). -/
def floatMax (f : Nat) : Nat × Int :=
  match floatParams f with
  | none => (0, 0)
  | some (eb, mb, bias) =>
    if f == fE4M3 then (14, 5)
    else if f == fE2M1 || f == fE2M3 || f == fE3M2 then
      (2 ^ (mb + 1) - 1, (2 ^ eb : Nat) - 1 - bias - mb)
    else (2 ^ (mb + 1) - 1, (2 ^ eb : Nat) - 2 - bias - mb)

/-- The value a floating code stands for, before R62 and R63 (R61). -/
def floatDecode (f code : Nat) : Val :=
  match floatParams f with
  | none => .fin 0 0
  | some (eb, mb, bias) =>
    let s := bit code (eb + mb)
    let ex := fld code mb eb
    let m := fld code 0 mb
    let sg : Int := if s then -1 else 1
    let top := 2 ^ eb - 1
    if f == fE4M3 && ex == top && m == 7 then .nan s
    else if (f == fE5M2 || isWide f) && ex == top then (if m == 0 then .inf s else .nan s)
    else if ex == 0 then .fin (sg * m) (1 - bias - mb)
    else .fin (sg * ((2 ^ mb + m : Nat) : Int)) (ex - bias - mb)

/-- The value of a code of a non-codebook format, before R62 and R63. -/
def rawVal (f code : Nat) : Val :=
  if f == fMXINT8 then .fin (sext 8 code) (-6)
  else match intRange f with
  | some (lo, _) => if lo < 0 then .fin (sext (fmtBits f) code) 0 else .fin (code % 2 ^ fmtBits f : Nat) 0
  | none => floatDecode f code

/-- ± the largest finite magnitude of a floating format. -/
def maxVal (f : Nat) (neg : Bool) : Val :=
  let (m, e) := floatMax f
  .fin (if neg then -(m : Int) else m) e

/-- An element as the vector unit (pan = false) or the pan path (pan = true) reads it (R62, R63), with NONFINITE. -/
def readVal (pan : Bool) (f code : Nat) : Val × Bool :=
  let v := rawVal f code
  if isWide f then
    match floatParams f with
    | some (_, mb, _) =>
      if pan then
        match v with
        | .inf n => (maxVal f n, true)
        | .nan n => (maxVal f n, true)
        | .fin m e => if m.natAbs < 2 ^ mb then (.fin 0 0, false) else (.fin m e, false)
      else
        match v with
        | .fin m e => if m.natAbs < 2 ^ mb then (.fin 0 0, false) else (.fin m e, false)
        | v => (v, false)
    | none => (v, false)
  else
    match v with
    | .inf n => (maxVal f n, true)
    | .nan n => (maxVal f n, true)
    | v => (v, false)

/-- The exponent of an E8M0 scale code, read under R62. -/
def scaleExp (code : Nat) : Int := (min (code % 256) 254 : Nat) - 127

/-- An E8M0 code of a scale exponent; the nearest end outside the range (R67). -/
def scaleCode (s : Int) : Nat := (min (max (s + 127) 0) 254).toNat

/-- rna of R72: v × 2^(-s) to nearest, ties away from zero. -/
def rna (v : Int) (s : Nat) : Int :=
  if s = 0 then v
  else
    let m := v.natAbs
    let r : Int := ((m >>> s) + ((m >>> (s - 1)) % 2) : Nat)
    if v < 0 then -r else r

/-- satq of R72: the clamped value and whether it clamped. -/
def satq (v lo hi : Int) : Int × Bool := if v > hi then (hi, true) else if v < lo then (lo, true) else (v, false)

/-- sat40 of R72. -/
def sat40 (v : Int) : Int × Bool := satq v (-(2 ^ 39)) (2 ^ 39 - 1)

/-- v × 2^k with ties away when k is negative. -/
def shiftRna (v k : Int) : Int := if 0 ≤ k then v * 2 ^ k.toNat else rna v (-k).toNat

/-- ⌊log₂ (m × 2^e)⌋ of a positive dyadic. -/
def dyLog2 (m : Nat) (e : Int) : Int := (Nat.log2 m : Int) + e

/-- m × 2^e ≤ m' × 2^e' for magnitudes. -/
def dyLe (m : Nat) (e : Int) (m' : Nat) (e' : Int) : Bool :=
  if e ≤ e' then decide (m ≤ m' * 2 ^ (e' - e).toNat) else decide (m * 2 ^ (e - e').toNat ≤ m')

/-- m × 2^e < m' × 2^e' for magnitudes. -/
def dyLt (m : Nat) (e : Int) (m' : Nat) (e' : Int) : Bool := !dyLe m' e' m e

/-- Comparison of exact signed dyadics. -/
def dyCmp (m e m' e' : Int) : Ordering :=
  let k := min e e'
  compare (m * 2 ^ (e - k).toNat) (m' * 2 ^ (e' - k).toNat)

/-- A conversion's code, whether it counts as a saturation, and NONFINITE (R65). -/
structure Conv where
  code : Nat
  sat : Bool := false
  nonfinite : Bool := false
deriving DecidableEq, Repr

/-- The code of a magnitude r × 2^q on a floating grid, within range; zero is positive (R64). -/
def packFloat (f : Nat) (neg : Bool) (r : Nat) (q : Int) : Nat :=
  match floatParams f with
  | none => 0
  | some (eb, mb, bias) =>
    if r = 0 then 0
    else
      let ex := dyLog2 r q
      let sg := if neg then 2 ^ (eb + mb) else 0
      if ex < 1 - bias then sg + (r * 2 ^ (q - (1 - bias - mb)).toNat)
      else
        let m := if q ≤ ex - mb then r >>> (ex - mb - q).toNat else r * 2 ^ (q - (ex - mb)).toNat
        sg + (ex + bias).toNat * 2 ^ mb + (m - 2 ^ mb)

/-- The code of ± the largest finite magnitude. -/
def maxCode (f : Nat) (neg : Bool) : Nat := let (m, e) := floatMax f; packFloat f neg m e

/-- The code of ± infinity of BF16, FP16, FP32. -/
def infCode (f : Nat) (neg : Bool) : Nat :=
  match floatParams f with
  | none => 0
  | some (eb, mb, _) => (if neg then 2 ^ (eb + mb) else 0) + (2 ^ eb - 1) * 2 ^ mb

/-- The canonical quiet NaN (R65). -/
def nanCode (f : Nat) : Nat :=
  match floatParams f with
  | none => 0
  | some (eb, mb, _) => (2 ^ eb - 1) * 2 ^ mb + 2 ^ (mb - 1)

/-- The grid step at a magnitude m × 2^e: with the subnormal grid for formats of 8 bits or fewer, without bound for
the others (R65). -/
def gridExp (f : Nat) (m : Nat) (e : Int) : Int :=
  match floatParams f with
  | none => 0
  | some (_, mb, bias) => if isWide f then dyLog2 m e - mb else max (dyLog2 m e) (1 - bias) - mb

/-- The conversion of a magnitude that has been rounded onto a floating target's grid (R65). -/
def finishFloat (f : Nat) (neg : Bool) (r : Nat) (q : Int) : Conv :=
  let (mm, me) := floatMax f
  if dyLt mm me r q then { code := if isWide f then infCode f neg else maxCode f neg, sat := true }
  else
    match floatParams f with
    | none => { code := 0 }
    | some (_, _, bias) =>
      if r = 0 || (isWide f && dyLog2 r q < 1 - bias) then { code := 0 } else { code := packFloat f neg r q }

/-- The code of an integer value of a format. -/
def intCode (f : Nat) (v : Int) : Nat := uwrap (fmtBits f) v

/-- Conversion under R65 of an exact value into an output format; the integer formats take the value times
2^6 for MXINT8 (its implied factor, R59). -/
def convert (f : Nat) : Val → Conv
  | .nan neg =>
    if isWide f then { code := nanCode f }
    else if isFloat f then { code := maxCode f neg, nonfinite := true }
    else { code := 0, nonfinite := true }
  | .inf neg =>
    if isWide f then { code := infCode f neg }
    else if isFloat f then { code := maxCode f neg, nonfinite := true }
    else match intRange f with
      | some (lo, hi) => { code := intCode f (if neg then lo else hi), nonfinite := true }
      | none => { code := 0 }
  | .fin m e =>
    if isFloat f then
      if m = 0 then { code := 0 }
      else
        let q := gridExp f m.natAbs e
        finishFloat f (decide (m < 0)) (shiftRna m.natAbs (e - q)).toNat q
    else match intRange f with
      | some (lo, hi) =>
        let (v, c) := satq (shiftRna m (if f == fMXINT8 then e + 6 else e)) lo hi
        { code := intCode f v, sat := c }
      | none => { code := 0 }

/-- The largest code value of a target for the scale rule (R150), as m × 2^e. -/
def codeMax (f : Nat) : Nat × Int :=
  if f == fMXINT8 then (127, -6)
  else match intRange f with
  | some (_, hi) => (hi.toNat, 0)
  | none => floatMax f

/-- The scale rule of R151: the smallest s with m × 2^(e - s) ≤ cm × 2^ce, held within -127 … 127. -/
def chooseScale (m : Nat) (e : Int) (cm : Nat) (ce : Int) : Int :=
  if m = 0 then 0
  else if cm = 0 then 127
  else
    let s0 := dyLog2 m e - dyLog2 cm ce
    let s := if dyLe m (e - s0) cm ce then s0 else s0 + 1
    min (max s (-127)) 127

/-- FP32PAIR of an exact value (R80): the eight bytes as a number, hi below lo, and the overflow count. -/
def convertPair (m e : Int) : Conv :=
  let hi := convert fFP32 (.fin m e)
  if hi.sat then { code := hi.code, sat := true }
  else
    match floatDecode fFP32 hi.code with
    | .fin hm he =>
      let k := min e he
      let d := m * 2 ^ (e - k).toNat - hm * 2 ^ (he - k).toNat
      { code := hi.code + 2 ^ 32 * (convert fFP32 (.fin d k)).code }
    | _ => { code := hi.code }

/-- The next wider format of a destination (R168). -/
def widerFmt (f : Nat) : Option Nat :=
  if f == fI4 then some fI8 else if f == fU4 then some fU8 else if f == fCB4 then some fI8
  else if f == fI8 || f == fU8 || f == fMXINT8 then some fI16
  else if f == fE2M1 || f == fE2M3 || f == fE3M2 then some fE4M3
  else if f == fE4M3 || f == fE5M2 then some fBF16 else none

/-- Every format a destination can reach by widening, itself first (R168, R170). -/
def reachFmts (f : Nat) : List Nat :=
  match widerFmt f with
  | none => [f]
  | some g => match widerFmt g with
    | none => [f, g]
    | some h => [f, g, h]

/-- One byte line of packed elements (R58): codes of a row to bytes. -/
def packRow (f : Nat) (codes : List Nat) : List Byte :=
  let w := fmtBits f
  leBytes (cdiv (codes.length * w) 8) (codes.foldr (fun c acc => c % 2 ^ w + 2 ^ w * acc) 0)

/-- The codes of n elements packed in a row of bytes (R58). -/
def unpackRow (f n : Nat) (bs : List Byte) : List Nat :=
  let v := leNat bs
  let w := fmtBits f
  tab n fun i => fld v (i * w) w

end Sys2Proof.Machine
end

