-- ==== Sys2Proof/Config.lean ====
section
/-! DEFINITION. What the manual leaves open: constants without a body, so that nothing proves what they are. -/

namespace Sys2Proof

/-- The value that a step takes where the manual fixes none; the argument is the counter State.free (log entry 4). -/
opaque Config.freeWord : Nat → Word

/-- A value that a command's result takes where the manual fixes none, for the words or the descriptor of the command (as a number)
and the place in the result: the same in every run on the same operands (R18; log entry 4). -/
opaque Config.openCode : Nat → Nat → Word

/-- The flip-flops' initial values that LOGIC frames (as a number) give a part, 64 at a time: their places are the frame map's
(R440, R442; log entry 84). -/
opaque Config.ffInit : Nat → Nat → Word

/-- The log code of an uncontained fault or boot halt for which R507 lists none, by CAUSE (log entry 12). -/
opaque Config.lossCode : Nat → BitVec 16

/-- Virtual addresses of the key page and the value page of a page of a Crystallizer session's pool, by POOL_VA and page
number (log entry 51). -/
opaque Config.kvPage : Nat → Nat → Nat × Nat

/-- The vector unit's functions at the arguments whose results the manual does not give to the bit (R216, R217):
FP32 codes in, FP32 codes out (log entry 20). -/
opaque Config.exp2 : BitVec 32 → BitVec 32
opaque Config.log2 : BitVec 32 → BitVec 32
opaque Config.rsqrt : BitVec 32 → BitVec 32
opaque Config.rcp : BitVec 32 → BitVec 32
opaque Config.sin : BitVec 32 → BitVec 32
opaque Config.cos : BitVec 32 → BitVec 32
opaque Config.tanh : BitVec 32 → BitVec 32
opaque Config.sigmoid : BitVec 32 → BitVec 32
opaque Config.erf : BitVec 32 → BitVec 32

end Sys2Proof
end

