-- ==== Sys2Proof/Machine/Table.lean ====
section
/-! DEFINITION. Sparse tables: plain data for everything the engine holds in numbered places. A table lists, at
strictly rising keys, the entries that differ from the value an unlisted place holds (its reset value). -/

namespace Sys2Proof.Machine

/-- A sparse table: (key, entry) pairs. -/
abbrev Tbl (α : Type) := List (Nat × α)

/-- The entry at key k; d is what an unlisted place holds. -/
def Tbl.get {α : Type} (d : α) : Tbl α → Nat → α
  | [], _ => d
  | (j, a) :: t, k => if j = k then a else Tbl.get d t k

/-- The table with the entry a at key k, without regard to the unlisted value. -/
def Tbl.put {α : Type} : Tbl α → Nat → α → Tbl α
  | [], k, a => [(k, a)]
  | (j, b) :: t, k, a =>
    if j = k then (k, a) :: t else if k < j then (k, a) :: (j, b) :: t else (j, b) :: Tbl.put t k a

/-- The table with no entry at key k. -/
def Tbl.del {α : Type} (t : Tbl α) (k : Nat) : Tbl α := t.filter fun e => e.1 != k

/-- The table with a at key k, in canonical form: writing the unlisted value removes the entry. -/
def Tbl.set {α : Type} [DecidableEq α] (d : α) (t : Tbl α) (k : Nat) (a : α) : Tbl α :=
  if a = d then t.del k else t.put k a

/-- The table with the entry at k changed by f. -/
def Tbl.upd {α : Type} [DecidableEq α] (d : α) (t : Tbl α) (k : Nat) (f : α → α) : Tbl α :=
  t.set d k (f (t.get d k))

/-- Keys from k upwards are strictly rising. -/
def Tbl.rising {α : Type} : Nat → Tbl α → Bool
  | _, [] => true
  | k, (j, _) :: t => decide (k ≤ j) && Tbl.rising (j + 1) t

/-- The canonical form: strictly rising keys and no entry equal to the unlisted value. -/
def Tbl.wf {α : Type} [DecidableEq α] (d : α) (t : Tbl α) : Bool :=
  Tbl.rising 0 t && t.all fun e => !decide (e.2 = d)

/-- Keys of the listed entries that satisfy p. -/
def Tbl.keysWhere {α : Type} (t : Tbl α) (p : Nat → α → Bool) : List Nat :=
  (t.filter fun e => p e.1 e.2).map Prod.fst

/-- Every listed entry changed by f, in canonical form. -/
def Tbl.mapAll {α : Type} [DecidableEq α] (d : α) (t : Tbl α) (f : Nat → α → α) : Tbl α :=
  (t.map fun e => (e.1, f e.1 e.2)).filter fun e => !decide (e.2 = d)

/-- Memory: byte cells; a byte nothing has written reads 0 (DESIGN CHOICE, log entry 3). -/
abbrev Mem := Tbl Byte

/-- One byte. -/
def Mem.rd (m : Mem) (a : Nat) : Byte := Tbl.get 0 m a

/-- One byte written. -/
def Mem.wr (m : Mem) (a : Nat) (b : Byte) : Mem := Tbl.set 0 m a b

/-- n bytes from address a. -/
def Mem.rdN (m : Mem) (a n : Nat) : List Byte := (List.range n).map fun i => m.rd (a + i)

/-- Bytes written from address a upwards. -/
def Mem.wrN (m : Mem) (a : Nat) : List Byte → Mem
  | [] => m
  | b :: bs => Mem.wrN (m.wr a b) (a + 1) bs

/-- The little-endian number of n bytes at address a. -/
def Mem.rdLE (m : Mem) (a n : Nat) : Nat := leNat (m.rdN a n)

/-- Memory's canonical form. -/
def Memory.wf (m : Mem) : Bool := Tbl.wf (0 : Byte) m

end Sys2Proof.Machine
end

