-- ==== Sys2Proof/Machine/State.lean ====
section
/-! DEFINITION. The state of the engine as plain data. Every default value is the field's value at power-on reset
(PORST_N asserted, R49, R516); State.reset is the state of those values. -/

namespace Sys2Proof.Machine

/-- Why the block stops. Safe: the manual gives no unit of that number, so no command of hardware names one. -/
inductive Fault where
  /-- Raised by every meaning whose operand numbers a unit beyond the full layout (Identifiers of 00_scope). -/
  | noSuchUnit (what : String)
deriving DecidableEq, Repr

/-- Why the model declines. Safe: the run ends. -/
inductive Refusal where
  /-- Raised by exec for a command that has no meaning yet. -/
  | notModelled (mnemonic : String)
deriving DecidableEq, Repr

/-- What leaves the block: the outputs of a step, oldest first. A field of the model's own (log entry 5). -/
inductive OutEvent where
  /-- An MSI-X message of a function's vector (R350). -/
  | msix (func vector : Nat)
  /-- A posted host write of a block of bytes (R208, R335, R347): link, requester (a function's number, or 256 for the
  companion function of link 1, R47), address, bytes. -/
  | hostWrite (link req addr : Nat) (bytes : List Byte)
  /-- A completed read on a link, which flushes posted writes (R47, R342). -/
  | flushRead (link : Nat)
  /-- A PCIe configuration completion: Retry Status, or a value (R518). -/
  | cfgRetry (func : Nat)
  | cfgData (func offset value : Nat)
  | cfgField (func : Nat) (g : CfgField) (value : Nat)
  /-- An AVSBus 0 voltage write, in mV (R490). -/
  | avsWrite (rail mV : Nat)
  /-- A frame sent on a horizon port (R400). -/
  | frame (port : Nat) (bytes : List Byte)
  /-- Beats sent to a part's rim port (R449), and PORT_RST (R451). -/
  | beats (part : Nat) (bytes : List Byte)
  | portRst (part : Nat)
  /-- Bytes on the chain port (R477) and on the configuration port (R479). -/
  | chain (bytes : List Byte)
  | cfgPort (bytes : List Byte)
  /-- An MCTP response (R503, R504). -/
  | mctp (bytes : List Byte)
  /-- The value an ecall returns in a0 to a service program (R426). -/
  | ecallRet (svc value : Nat)
  /-- The instruction the TAP executes (R52, R53). -/
  | tap (code : TapCode)
  /-- An ATS invalidation completion (R327). -/
  | atsDone (func : Nat)
deriving DecidableEq, Repr

/-- Fuses and build of the part (R21, R24, R275, R284, R463, R464, R481, R498). -/
structure PartFuses where
  clusters : Nat := 10
  twoStacks : Bool := true
  ports : Nat := 36
  extFabric : Bool := true
  clusterMask : BitVec 10 := BitVec.allOnes 10
  coreMask : BitVec 480 := BitVec.allOnes 480
  stackMask : BitVec 20 := BitVec.allOnes 20
  portMask : BitVec 36 := BitVec.allOnes 36
  regionMask : BitVec 40 := BitVec.allOnes 40
  link1 : Bool := true
  ats : Bool := false
  hbmMaxRate : Nat := 128
  eccInlineIntact : Bool := true
  pwrMax : Nat := 3200
  bootWait : Nat := 0
  encRequired : Bool := false
  deviceKey : Option (List Byte) := none
  keyHash : List (Option (List Byte)) := [none, none, none, none]
  keyRevoked : List Bool := [false, false, false, false]
  rollback : Nat := 0
  tapLockIntact : Bool := false
  dieRev : Nat := 0
  manuf : Nat := 0
  romVersion : Nat := 0
  grade : Word := 0x582D395744
  vendorId : Nat := 0
  deviceId : Nat := 0
  subsystemId : Nat := 0
deriving DecidableEq, Repr

/-- Pins, rails' consequences and reference clocks (R32, R37, R42, R49, R50, R505). A clock is listed when absent. -/
structure Pins where
  porstN : Bool := false
  thermtrip : Bool := false
  smbAlert : Bool := false
  timeref : Bool := true
  sdsAbsent : Tbl Bool := []
  hbmRefAbsent : Tbl Bool := []
  link1 : Bool := true
deriving DecidableEq, Repr

/-- The device time base and its synchronisation (R38, R414). Times are in ns. -/
structure TimeBase where
  now : Nat := 0
  onOsc : Bool := false
  degraded : Bool := false
  lostAt : Nat := 0
  returnedAt : Option Nat := none
  sync : Nat := 0
  offset : Int := 0
  inLock : Nat := 0
  t1 : Nat := 0
  c1 : Int := 0
  t2 : Nat := 0
  t3 : Nat := 0
  gotFollow : Bool := false
  exchanges : Nat := 0
  lastExchange : Nat := 0
  unnoted : Bool := false
deriving DecidableEq, Repr

/-- Boot, reset and device-loss registers of the hub (R517, R520, R524, R530). -/
structure Hub where
  stage : Nat := 1
  haltCause : Nat := 0
  bootImage : Bool := false
  patched : Bool := false
  bootCount : Nat := 0
  mgmtMs : Nat := 0
  memMs : Nat := 0
  readyMs : Nat := 0
  bootE : Nat := 0
  booting : Bool := false
  configReady : Bool := false
  holdReset : Bool := false
  resetAsked : Bool := false
  memReadyAt : Nat := 0
  lost : Bool := false
  cause : Nat := 0
  unit : Nat := 0
  faultTime : Nat := 0
  wdog : BitVec 23 := 0
  watched : BitVec 23 := 0
  beats : Tbl Nat := []
  emergency : Bool := false
deriving DecidableEq, Repr

/-- The event record of R346; IRQ is the descriptor's request (R350). SEQ is given when the record is written.
wake and wakeRing: the commit or the completion that waits at step 6 of R208 for the record's room (R348). -/
structure EvRec where
  status : Nat := 0
  kind : Nat := 0
  abandoned : Bool := false
  skipped : Bool := false
  lower : Bool := false
  deferred : Bool := false
  ring : Nat := 0xFFFF
  ctx : Nat := 0
  user : Nat := 0
  value : Nat := 0
  pos : Nat := 0
  irq : Bool := false
  wake : Option CmdRef := none
  wakeRing : Option Nat := none
deriving DecidableEq, Repr

/-- The message state of an event ring under moderation (R350). -/
structure Moder where
  last : Option Nat := none
  pending : Bool := false
deriving DecidableEq, Repr

/-- An admin operation that has started and not completed (R300, R336, R354). -/
structure AdminOp where
  op : Nat := 0
  pos : Nat := 0
  user : Nat := 0
  irq : Bool := false
  ctx : Nat := 0
  obj : Nat := 0
deriving DecidableEq, Repr

/-- The registers of one function and the rings they set up (R320, R336, R349). -/
structure Func where
  ahiRange : Word := 0
  chosen : Nat := 0
  agree : Nat := 0
  heldNeg : Bool := false
  enable : Bool := false
  evOn : Bool := false
  adminBase : Word := 0
  adminCfg : Word := 0
  adminHeadwb : Word := 0
  fevtBase : Word := 0
  fevtCfg : Word := 0
  fevtConsumed : Word := 0
  violCount : Nat := 0
  violKind : Nat := 0
  adminHead : Nat := 0
  adminTail : Nat := 0
  adminCur : Option AdminOp := none
  evSeq : Nat := 0
  evRead : Nat := 0
  evWait : List EvRec := []
  lostNotices : List EvRec := []
  devNotices : List EvRec := []
  moder : Moder := {}
  vfCfg : Word := 0
deriving DecidableEq, Repr

/-- An MSI-X table entry with its pending bit (R312). At reset it is masked, as PCIe has it (log entry 6). -/
structure MsixEntry where
  addr : Word := 0
  data : Half := 0
  control : Half := 1
  pending : Bool := false
deriving DecidableEq, Repr

/-- A host-window entry (R323, R325). users: the commands for which a window that is being disabled stays in force. -/
structure HostWin where
  a : Word := 0
  b : Word := 0
  draining : Bool := false
  users : List CmdRef := []
deriving DecidableEq, Repr

/-- The registers of a partition (R322, R361, R365). rt holds ADMIT_OP 2 and PREEMPT_WAIT 200 at reset. -/
structure Partition where
  cfg : Word := 0
  rt : Word := 0xC802
  regions : Word := 0
  sluHbm : Word := 0
  sluRes : Word := 0
  sluHzn : Word := 0
  sluHost : Word := 0
  sluHub : Word := 0
  below : Bool := false
  oversub : Bool := false
  preempt : Nat := 0
  lcLate : Nat := 0
  lcRun : Option Nat := none
  lcWait : List Nat := []
deriving DecidableEq, Repr

/-- The life of a context (R338, R339, R354). -/
inductive CtxLife where
  | free | live | lost | destroying
deriving DecidableEq, Repr

/-- A leaf of a context's translation (R296): a 2 MiB page. -/
structure Leaf where
  r : Bool := false
  w : Bool := false
  shared : Bool := false
  tag : Nat := 0
  pa : Nat := 0
  subvalid : BitVec 32 := 0
  obj : Nat := 0
  v : Bool := false
deriving DecidableEq, Repr

/-- A translation (R294, R295): of a context, or of a partition in validated mode. root: the physical address of its level-1 table,
which every cluster's translation unit holds; subs: the sub-pages of the pool that hold its tables, the newest first, of which used
bytes are given out (R281). -/
structure Trans where
  root : Option Nat := none
  subs : List Nat := []
  used : Nat := 0
deriving DecidableEq, Repr

/-- An entry of a cluster's translation unit, tagged by context (R144): one 2 MiB page. -/
structure TlbEntry where
  ctx : Nat
  page : Nat
  leaf : Leaf
deriving DecidableEq, Repr

/-- A context (R338, R339, R346 to R350). settled: the steps of R528 or R354 that follow
the end of its commands in flight are done. -/
structure Ctx where
  life : CtxLife := .free
  func : Nat := 0
  part : Nat := 0
  lossStatus : Nat := 0
  settled : Bool := false
  evBase : Nat := 0
  evLog2 : Nat := 6
  evVector : Nat := 0
  evModer : Nat := 0
  evConsumedAt : Nat := 0
  evSeq : Nat := 0
  evRead : Nat := 0
  evWait : List EvRec := []
  fullSince : Option Nat := none
  silent : Bool := false
  moder : Moder := {}
deriving DecidableEq, Repr

/-- A fence slot (R340 to R345). -/
inductive FenceLife where
  | free | live | abandoned
deriving DecidableEq, Repr

/-- A context's right on a fence (R343). -/
structure FenceShare where
  ctx : Nat
  wait : Bool
  signal : Bool
deriving DecidableEq, Repr

/-- One fence (R340). owned is false once the owner has gone; changedAt: when its value or its life last changed (R226). -/
structure Fence where
  life : FenceLife := .free
  gen : Nat := 1
  owner : Nat := 0
  owned : Bool := false
  value : Nat := 0
  changedAt : Nat := 0
  mirror : Nat := 0
  remote : Bool := false
  base : Nat := 0
  mask : Nat := 0
  shares : List FenceShare := []
deriving DecidableEq, Repr

/-- What a submission ring is doing (R331, R333). -/
inductive RingWork where
  | idle
  /-- EXEC: the copied words, the index of the command in progress, whether some WAIT was abandoned. -/
  | exec (words : List (List Byte)) (idx : Nat) (abandoned : Bool)
  /-- UNLOAD waiting for its section's run to end (R356). -/
  | unload (sec : Nat)
  /-- The descriptor's completion waits for room in its event ring (R348). -/
  | recWait
deriving DecidableEq, Repr

/-- A submission ring (R328, R333, R337). pos, evt, irq and user are those of the descriptor in progress. -/
structure Ring where
  live : Bool := false
  ctx : Nat := 0
  lc : Bool := false
  link : Bool := false
  base : Nat := 0
  log2 : Nat := 4
  headwb : Nat := 0
  head : Nat := 0
  tail : Nat := 0
  work : RingWork := .idle
  pos : Nat := 0
  evt : Bool := false
  irq : Bool := false
  user : Nat := 0
deriving DecidableEq, Repr

/-- A mapping of an object into a context (R301, R303). -/
structure Mapping where
  ctx : Nat
  va : Nat
  w : Bool
  deferred : Bool := false
  removing : Bool := false
deriving DecidableEq, Repr

/-- A memory object (R300 to R303). host: the window and the offset of an object in host memory. -/
structure Obj where
  live : Bool := false
  owner : Nat := 0
  func : Nat := 0
  size : Nat := 0
  host : Option (Nat × Nat) := none
  pages : List Nat := []
  exports : List (Nat × Bool) := []
  maps : List Mapping := []
deriving DecidableEq, Repr

/-- An entry of the tag directory (R290). -/
structure DirEntry where
  tag : Nat := 0
  st : Nat := 0
  obj : Nat := 0
deriving DecidableEq, Repr

/-- One HBM4 stack and its controller's registers (R276, R289, R306). scrub: lines that the present pass has read, by pseudo-channel
(R304). -/
structure Stack where
  st : Nat := 0
  rate : Nat := 0
  gib : Nat := 0
  lanes : Bool := false
  trainedOnce : Bool := false
  ce : Nat := 0
  ue : Nat := 0
  poisonCount : Nat := 0
  lastErr : Word := 0
  passes : Nat := 0
  scrub : Tbl Nat := []
  lastEnd : Nat := 0
  refreshed : Nat := 0
deriving DecidableEq, Repr

/-- xfer: transfer errors that a stack's interface will report on the next reads of a line (R286). staging: the stack whose 512 MiB below the engine-private part are the loader's staging area (log entry 54).
The external memory: data bytes by device physical address, poisoned lines, bytes of stored words that differ
from their codeword (key: line × 72 + symbol), and the tag directory by sub-page (R282, R288, R290). -/
structure Hbm where
  data : Mem := []
  poison : List Nat := []
  flips : Mem := []
  xfer : Tbl Nat := []
  dir : Tbl DirEntry := []
  stks : Tbl Stack := []
  inlineEcc : Bool := false
  ready : Bool := false
  staging : Option Nat := none
deriving DecidableEq, Repr

/-- An owner entry of a core-memory or reservoir page (CLS_CMPG_OWNER, CLS_RSPG_OWNER). fresh: the entry is still as
reset or boot left it, ZEROING before boot zeroing and FREE after it. source: of a page with a refill link, the pieces of its source:
offset in the page, virtual address, bytes (R124). -/
structure Page where
  fresh : Bool := true
  owner : Nat := 0
  st : Nat := 2
  refill : Bool := false
  storedErr : Bool := false
  source : List (Nat × Nat × Nat) := []
deriving DecidableEq, Repr

/-- The on-chip stores of the cluster dies (R115, R118, R141). booted: the pages were zeroed and tested at boot. -/
structure OnChip where
  booted : Bool := false
  cm : Mem := []
  rs : Mem := []
  cmPages : Tbl Page := []
  rsPages : Tbl Page := []
deriving DecidableEq, Repr

/-- The tag of a weight set (R101, R272): context, descriptor (section and handle), tile and piece. -/
structure WTag where
  ctx : Nat
  sec : Nat
  desc : Nat
  kt : Nat
  nt : Nat
  piece : Nat
deriving DecidableEq, Repr

/-- A weight set: its tag, the 8-bit stationary codes of its tile (K fastest) with the format and piece they stand for, the
exponents ω of its junctions with the blocks that take part in the reference exponent, and the codebooks in force for its rows
(R74, R86, R101, R273). -/
structure WSet where
  tag : WTag
  fmt : Nat := 0
  rows : Nat := 256
  codes : List Nat := []
  exps : List Int := []
  part : List Bool := []
  books : List (List Int) := []
  group : Nat := 0
  nonfinite : Bool := false
deriving DecidableEq, Repr

/-- Whether a pan draws step current (R107 to R109); falling: its rows leave, group by group, from event L at a time. -/
inductive PanRun where
  | idle | waiting | running | rampWait
  | falling (t : Nat)
deriving DecidableEq, Repr

/-- A pan: its two sets of stationary registers, the set on its way into the background registers, and its run state. off: its
groups of 16 rows that are disabled, those of a ramp-down in progress not counted (R108, R109); fall: charge in mA and length in ns
of a fall that a reset has left to it; sinceSwap: data steps since its last change of set (R105). -/
structure Pan where
  sinceSwap : Nat := 384
  off : Nat := 16
  fall : Option (Nat × Nat) := none
  active : Option WSet := none
  background : Option WSet := none
  loading : Option WSet := none
  loadingFor : Option CmdRef := none
  run : PanRun := .idle
deriving DecidableEq, Repr

/-- A unit with a queue (R113, R269, R366): its bindings in the order made, its queue, the command it executes. -/
structure CoreUnit where
  binds : List (Nat × Nat) := []
  next : Nat := 0
  queue : List CmdRef := []
  cur : Option CmdRef := none
deriving DecidableEq, Repr

/-- A cluster's management, parity and counter registers (CLS_PAR_*, MGT_OP_CL, CLS_PERF_*). -/
structure Cluster where
  parCount : Nat := 0
  parStored : Nat := 0
  parLast : Word := 0
  point : Nat := 2
  moving : Bool := false
  target : Nat := 2
  movedAt : Nat := 0
  trim : Nat := 0
  paceLow : Bool := false
  throttle : Bool := false
  pace : Nat := 0
  noRaise : Bool := false
  capRate : Nat := 0
  warned : Bool := false
  coolSince : Option Nat := none
  sel0 : Word := 0
  sel1 : Word := 0
  counts : Tbl Nat := []
  ovf : BitVec 16 := 0
  trees : List CmdRef := []
  granted : Option CmdRef := none
deriving DecidableEq, Repr

/-- A charge of the slew governor (R492): time, cluster, rise or fall, amount in mA and length of its ramp in ns. -/
structure Charge where
  t : Nat
  cluster : Nat
  rise : Bool
  mA : Nat
  len : Nat
deriving DecidableEq, Repr

/-- A request to start a cold pan (R493). -/
structure StartReq where
  pan : Nat
  lc : Bool
  t : Nat
deriving DecidableEq, Repr

/-- Power, temperature and the slew governor (R487, R492 to R502). -/
structure Power where
  fastest : Nat := 2
  limit : Nat := 0
  sideband : Nat := 0
  windows : List Nat := []
  last : Nat := 0
  lowRun : Nat := 0
  tight : Bool := false
  hold : Bool := false
  held : Bool := false
  heldCount : Nat := 0
  estimated : Bool := false
  warn : Nat := 95
  hottest : Nat := 0
  sensor : Nat := 0
  hubThrottle : Bool := false
  temps : Tbl Nat := []
  volts : Tbl Nat := []
  currs : Tbl Nat := []
  waiting : List StartReq := []
  charges : List Charge := []
  epoch : Nat := 0
  window : Nat := 0
deriving DecidableEq, Repr

/-- A record of the Bittern log (R507). -/
structure LogRec where
  seq : Nat := 0
  time : Nat := 0
  code : Nat := 0
  cls : Nat := 0
  coalesced : Bool := false
  unlocked : Bool := false
  ctx : Nat := 0
  count : Nat := 1
  unitKind : Nat := 0
  unit : Nat := 0
  data : List Nat := [0, 0, 0, 0]
  boot : Nat := 0
deriving DecidableEq, Repr

/-- A key of the coalescing table with its further occurrences (R510). -/
structure CoalKey where
  code : Nat
  unitKind : Nat
  unit : Nat
  ctx : Nat
  cls : Nat := 0
  further : Nat := 0
  last : Nat := 0
  data : List Nat := [0, 0, 0, 0]
deriving DecidableEq, Repr

/-- The Bittern log (R506 to R512): records of the circular region by ring position, the first-failure region in
slot order, the block map, the hub queue and the coalescing table; window: the number of the present coalescing window. -/
structure BitLog where
  nextSeq : Nat := 0
  circ : Tbl LogRec := []
  wpos : Nat := 0
  ff : List LogRec := []
  ffBlocks : List Nat := List.range 16
  circBlocks : List Nat := (List.range 112).map (· + 16)
  queue : List LogRec := []
  lost : Nat := 0
  dropped : Nat := 0
  table : List CoalKey := []
  region : Bool := false
  index : Nat := 0
  window : Nat := 0
deriving DecidableEq, Repr

/-- Telemetry (R514, R515). -/
structure Telem where
  base : Word := 0
  cfg : Word := 0
  consumed : Word := 0
  sel : Word := 0
  overrun : Nat := 0
  seq : Nat := 0
  pos : Nat := 0
  readPos : Nat := 0
deriving DecidableEq, Repr

/-- A frame of a stream route (R249): its header fields, its packed data and its scale section. -/
structure SFrame where
  run : Nat
  seq : Nat
  t0 : Nat
  t1 : Nat
  outer : Nat
  rows : Nat
  cols : Nat
  empty : Bool
  last : Bool
  scaled : Bool
  fmt : Nat
  tscale : Int
  codes : List Nat
  scales : List Nat
deriving DecidableEq, Repr

/-- Where a staged byte goes: HBM data, host memory, core memory, or the reservoir, by physical byte address. -/
inductive Loc where
  | hbm (pa : Nat) | host (sel : Bool) (func addr : Nat) | cm (a : Nat) | rs (a : Nat)
deriving DecidableEq, Repr

/-- What a command record (R210) or a COMMAND event record (R332) reports of one command. -/
structure RecInfo where
  status : Nat := 0
  opcode : Nat := 0
  nonfinite : Bool := false
  skipped : Bool := false
  abandoned : Bool := false
  refilled : Bool := false
  sat : Nat := 0
  accSat : Nat := 0
  orig : Nat := 0
  final : Nat := 0
  widenings : Nat := 0
  reruns : Nat := 0
  st : Nat := 0
  idx : Nat := 0
  evt : Bool := false
  tag : Nat := 0
  value : Nat := 0
deriving DecidableEq, Repr

/-- How far a command has come (R208, R370). -/
inductive Phase where
  /-- issued: in a unit queue, or taken up by the sequencer, with its values resolved (R200). -/
  | issued
  /-- its unit works on it. -/
  | executing
  /-- its last write is staged: event W of R208. -/
  | written
  /-- past step 5 of R208, with its event record waiting for room (R348). -/
  | recording
  /-- killed; the units have not all reported (R370). -/
  | killed
deriving DecidableEq, Repr

/-- What a SIGNAL does at step 7 of R208: the fence handle, its value, and the engine of a remote signal (R227). -/
structure Sig where
  handle : Nat
  value : Nat
  engine : Option Nat := none
deriving DecidableEq, Repr

/-- A command in flight, from its issue to its commit (R200, R205, R208). word: its 32 bytes; members: the words of a
CHAIN's members (R234); inTime: a WAIT's fence satisfied it within its window (R226); leaves: the translations it has obtained, by page
of its context's addresses (R145); regs: the parameter registers it resolved against; infos: one record each for the command or for
the members of a chain. -/
structure Cmd where
  ref : CmdRef
  ctx : Nat
  lc : Bool := false
  word : List Byte := []
  members : List (List Byte) := []
  phase : Phase := .issued
  skipped : Bool := false
  regs : List Word := []
  bounds : List (Nat × Nat) := []
  pages : List (Nat × Nat) := []
  reached : Nat := 0
  staged : List (Loc × Byte) := []
  regWrites : List (Nat × Word) := []
  descFmt : List (Nat × Nat) := []
  descTs : List (Nat × Int) := []
  infos : List RecInfo := []
  sig : Option Sig := none
  ops : Nat := 0
  totalOps : Nat := 0
  wsets : List WSet := []
  taken : List (Nat × SFrame) := []
  refills : List (Nat × List (Nat × Nat × Nat)) := []
  held : List (Nat × Nat) := []
  reruns : Nat := 0
  rerunMark : Bool := false
  killCause : Nat := 0
  call : Option Nat := none
  step : Nat := 0
  acc : List Byte := []
  lastMove : Nat := 0
  target : Nat := 0
  inTime : Bool := false
  leaves : Tbl Leaf := []
deriving DecidableEq, Repr

/-- Room that a destination's transfer unit has reserved for a multicast tile (R138): the core, the sender, the receiving command, and
the bytes. -/
structure Room where
  core : Nat
  sender : Nat × Nat
  receiver : Nat × Nat
  bytes : Nat
deriving DecidableEq, Repr

/-- A run of a section (R268): the station heads, route frames, collective instances; tiles: what a sending MCAST has delivered, by its
command; rooms: the reservations for them; passed: receivers that were killed while a tile was delivered to them (R139). -/
structure Run where
  ring : Option Nat := none
  started : Nat := 0
  heads : Tbl Nat := []
  heldFrames : List (Nat × SFrame) := []
  buffers : Tbl (List SFrame) := []
  seqs : Tbl Nat := []
  moved : Tbl Nat := []
  instances : Tbl Nat := []
  tiles : List ((Nat × Nat) × SFrame) := []
  rooms : List Room := []
  passed : List (Nat × Nat) := []
deriving DecidableEq, Repr

/-- A resident or swapped section (R239, R387). copySubs: the HBM sub-pages of the section copy (R240, R281). Pages are keyed core × 32 + page, and cluster × 1,024 + page. -/
structure Section where
  ctx : Nat := 0
  part : Nat := 0
  lc : Bool := false
  admitted : Bool := false
  deadline : Nat := 0
  img : List Byte := []
  digest : List Byte := []
  regs : List Word := []
  cores : List Nat := []
  cmPages : List (List Nat) := []
  resPages : List Nat := []
  bufPages : List Nat := []
  softParts : List (Nat × Nat) := []
  objs : List Nat := []
  copySubs : List Nat := []
  fmts : Tbl Nat := []
  tscales : Tbl Int := []
  swapped : Bool := false
  run : Option Run := none
  runNo : Nat := 0
deriving DecidableEq, Repr

/-- A REPLAY in progress (R233, R365): its command, its section, runs left, and the end of its waits. -/
structure Replay where
  ref : CmdRef
  ctx : Nat
  sec : Nat
  left : Nat
  predReg : Option Nat
  stepReg : Option Nat
  stepImm : Nat
deriving DecidableEq, Repr

/-- One horizon port: its link state, sequence numbers, retry buffer and credits (R398 to R402, R405). -/
structure Port where
  st : Nat := 3
  lanes : Nat := 0
  mismatch : Bool := false
  pcsLocked : Bool := false
  since : Nat := 0
  window : Nat := 0
  txSeq : Nat := 0
  expected : Nat := 0
  retry : List (Nat × List Byte) := []
  waitq : List (List Byte) := []
  crBulk : Nat := 0
  crCtrl : Nat := 0
  rxBulk : Nat := 0
  rxCtrl : Nat := 0
  retrans : Nat := 0
  lastAck : Nat := 0
  switch : Bool := false
deriving DecidableEq, Repr

/-- A message this engine sends or receives (R408): the frames' identity, and how far it has come. peer, num: the
other engine, and the number that its SRC chose. group: it belongs to a collective. fmt: the format code, + 256 when SCALED
is set. sent: the segments sent, with the time of the last line of each. got: the lines received. -/
structure Msg where
  num : Nat := 0
  sending : Bool := false
  peer : Nat := 0
  domain : Nat := 0
  key : Nat := 0
  aux : Nat := 0
  cmd : Option CmdRef := none
  group : Bool := false
  lines : List Byte := []
  length : Nat := 0
  fmt : Nat := 0
  extents : List Nat := []
  cts : Bool := false
  sent : Tbl Nat := []
  acked : List Nat := []
  got : List Nat := []
  busyAt : Option Nat := none
  complete : Bool := false
deriving DecidableEq, Repr

/-- A remote signal waiting for a route (R413). -/
structure HeldSig where
  engine : Nat
  domain : Nat
  handle : Nat
  value : Nat
  since : Nat
deriving DecidableEq, Repr

/-- The horizon block (R398 to R416). engineId: ENGINE_ID of HZN_CTRL; ctrl: ENABLE at bit 32, and the capability table's copy
of the ID in [17:0] (R315). held: frames whose engine has no route (R399, R406). -/
structure Horizon where
  ctrl : Word := 0
  engineId : Nat := 0
  timeCtrl : Word := 0
  portCfg : Tbl Word := []
  ports : Tbl Port := []
  retries : Nat := 0
  crcErrs : Nat := 0
  violCount : Nat := 0
  violKind : Nat := 0
  dropDomain : Nat := 0
  dropHeld : Nat := 0
  domains : Tbl Word := []
  rtsHeld : List Msg := []
  msgs : List Msg := []
  nextMsg : Nat := 0
  signals : List HeldSig := []
  held : List (List Byte) := []
deriving DecidableEq, Repr

/-- An entry of a service's call ring, with its windows (R427, R428). -/
structure Call where
  id : Nat := 0
  ctx : Nat := 0
  st : Nat := 0
  func : Nat := 0
  arg : Nat := 0
  input : List Byte := []
  outLen : Nat := 0
  output : List Byte := []
  ref : Option CmdRef := none
deriving DecidableEq, Repr

/-- A service and its registers (R421 to R429). Service 0 is the Crystallizer. recent: the times of restarts; program
and pages: the loaded image and the sandbox's HBM pages. -/
structure Svc where
  image : Word := 0
  cfg : Word := 0
  st : Nat := 0
  cause : Nat := 0
  restarts : Nat := 0
  open0 : Word := 0
  open1 : Word := 0
  open2 : Word := 0
  open3 : Word := 0
  done : Nat := 0
  failed : Nat := 0
  ring : Tbl Call := []
  nextId : Nat := 1
  recent : List Nat := []
  program : List Byte := []
  pages : List Nat := []
deriving DecidableEq, Repr

/-- A request of a Crystallizer session (R432, R435). prompt: its tokens so far, those generated included; fed: how many of
them have keys; gen: it generates; order: the place of its admission; row, chunk: its part of the step that runs. -/
structure Req where
  id : Nat := 0
  prompt : List Nat := []
  maxNew : Nat := 0
  seed : Nat := 0
  invTemp : Nat := 0
  topp : Nat := 0
  ktop : Nat := 1
  stop : List Nat := []
  fed : Nat := 0
  made : Nat := 0
  gen : Bool := false
  pages : List Nat := []
  order : Nat := 0
  row : Option Nat := none
  chunk : Nat := 0
deriving DecidableEq, Repr

/-- A Crystallizer session (R430, R431, R435): its block, the requests taken and the token records written, its requests
in the order of their queue, and whether a step runs. -/
structure Session where
  block : List Byte := []
  number : Nat := 0
  taken : Nat := 0
  written : Nat := 0
  reqs : List Req := []
  nextOrder : Nat := 1
  running : Bool := false
deriving DecidableEq, Repr

/-- A clock tree of a part (R443, R459). -/
structure Tree where
  srcA : Nat := 0
  srcB : Nat := 0
  div : Nat := 1
  en : Bool := false
  useB : Bool := false
  stopped : Bool := false
deriving DecidableEq, Repr

/-- A call in progress on a part's rim port (R449, R450). -/
structure XCall where
  id : Nat
  ref : CmdRef
  header : Bool := false
  frames : Nat := 0
deriving DecidableEq, Repr

/-- A part of an extension-fabric region (R439, R452, R453, R472). st 1 is empty. frames: its configuration memory, by TYPE,
ADDR and payload (R459); rst: PORT_RST; awaiting, joinBy: its reset is released and JOIN is awaited until then (R473). -/
structure XPart where
  st : Nat := 1
  readback : Bool := false
  rev : Nat := 0
  version : Nat := 0
  softIds : List Nat := []
  violCount : Nat := 0
  violKind : Nat := 0
  clamped : Bool := true
  call : Option XCall := none
  waiting : List CmdRef := []
  nextId : Nat := 1
  join : Bool := false
  rst : Bool := true
  trees : List Tree := []
  rimTree : Bool := false
  borderTree : Bool := false
  frames : List (Nat × Nat × List Byte) := []
  joinBy : Nat := 0
  awaiting : Bool := false
deriving DecidableEq, Repr

/-- The configuration port: what its next word or byte is (R465, R477). -/
inductive CfgMode where
  | command | own | tail | forward | discard
deriving DecidableEq, Repr

/-- The image loader (R465 to R472, R481, R482). list, deadline, st, src, bytes, violCount: its registers (R467); start,
window: event S and the deadline of the load in progress (R469); staging: the staging area's contents (plaintext once it
is checked); status, flags: a rejection found in the header, and what the capsule gives LAST_LOAD; mode, pos: the configuration port and the position of its LOAD;
lastStatus, lastFlags, loads: LAST_LOAD (R472); pll: the PLL frame of each region. -/
structure Loader where
  list : Word := 0
  deadline : Nat := 1000
  st : Nat := 0
  src : Bool := false
  bytes : Nat := 0
  violCount : Nat := 0
  start : Nat := 0
  window : Nat := 1000
  staging : List Byte := []
  status : Nat := 0
  mode : CfgMode := .command
  pos : Nat := 0
  commitAt : Nat := 0
  isBoot : Bool := false
  bootWaiting : Bool := false
  flags : Nat := 0
  loads : Nat := 0
  lastStatus : Nat := 0
  lastFlags : Nat := 0
  patchLevel : Nat := 0
  patchRam : List Byte := []
  patchSlots : List (Nat × Nat) := []
  patchLocked : Bool := false
  pll : Tbl (List Byte) := []
deriving DecidableEq, Repr

/-- A translation invalidation that has been announced and not reported complete (R145, R298). -/
structure Inval where
  ctx : Nat
  va : Nat
  size : Nat
  obj : Nat
deriving DecidableEq, Repr

/-- An ATS invalidation request that is not completed yet (R327). -/
structure AtsInval where
  func : Nat
  users : List CmdRef
deriving DecidableEq, Repr

/-- The state of the engine, with the queue of the commands that wait. hostMem is the host's memory as the host port
reaches it. free counts the free values that steps have drawn (log entry 4). sluWindow: the number of the sluices' present window. -/
structure State where
  pending : List Instr := []
  free : Nat := 0
  out : List OutEvent := []
  part : PartFuses := {}
  pins : Pins := {}
  tap : TapCode := .idcode
  time : TimeBase := {}
  hub : Hub := {}
  hostMem : Mem := []
  vfEnable : Bool := false
  numVfs : Nat := 0
  funcs : Tbl Func := []
  msix : Tbl MsixEntry := []
  msixEnable : Tbl Bool := []
  msixMask : Tbl Bool := []
  windows : Tbl HostWin := []
  parts : Tbl Partition := []
  tokens : Tbl Nat := []
  sluWindow : Nat := 0
  ctxs : Tbl Ctx := []
  trans : Tbl Trans := []
  tlb : Tbl (List TlbEntry) := []
  fences : Tbl Fence := []
  fenceFresh : Nat := 0
  fenceFreed : List Nat := []
  fenceLower : Nat := 0
  remoteDrop : Nat := 0
  rings : Tbl Ring := []
  ringTaken : Nat := 0
  ringTakenLc : Nat := 0
  objs : Tbl Obj := []
  nextObj : Nat := 1
  hbm : Hbm := {}
  chip : OnChip := {}
  pans : Tbl Pan := []
  units : Tbl CoreUnit := []
  clusters : Tbl Cluster := []
  power : Power := {}
  log : BitLog := {}
  telem : Telem := {}
  secs : Tbl Section := []
  nextSec : Nat := 1
  cmds : List Cmd := []
  replays : List Replay := []
  scanSet : List (CmdRef × Nat) := []
  hzn : Horizon := {}
  svcs : Tbl Svc := []
  sessions : Tbl Session := []
  nextSession : Nat := 1
  xparts : Tbl XPart := []
  loader : Loader := {}
  invals : List Inval := []
  atsInvals : List AtsInval := []
  eid : Nat := 0
deriving DecidableEq, Repr

/-- The machine at power-on reset: PORST_N asserted, every register at its reset value, every store empty. -/
def State.reset : State := {}

end Sys2Proof.Machine
end

