-- ==== Sys2Proof/Machine/Ops.lean ====
section
/-! DEFINITION. The operations every family shares: updates of one numbered unit, what leaves the block, the Bittern
log, MSI-X messages, event records, capability-table changes, protocol violations and the loss of the device. -/

namespace Sys2Proof.Machine

/-- The outcome of a step of this machine. -/
abbrev Out := Host.Outcome State Fault Refusal

/-- Stop for an operand that numbers a unit beyond the layout; otherwise go on. -/
def within (what : String) (ok : Bool) (k : State) : Out := if ok then .next k else .fault (.noSuchUnit what)

/-- The registers of function f. -/
def State.fn (s : State) (f : Nat) : Func := s.funcs.get {} f
/-- Function f changed. -/
def State.updFn (s : State) (f : Nat) (g : Func → Func) : State := { s with funcs := s.funcs.upd {} f g }
/-- Context c. -/
def State.cx (s : State) (c : Nat) : Ctx := s.ctxs.get {} c
/-- Context c changed. -/
def State.updCx (s : State) (c : Nat) (g : Ctx → Ctx) : State := { s with ctxs := s.ctxs.upd {} c g }
/-- Partition p. -/
def State.pt (s : State) (p : Nat) : Partition := s.parts.get {} p
/-- Partition p changed. -/
def State.updPt (s : State) (p : Nat) (g : Partition → Partition) : State := { s with parts := s.parts.upd {} p g }
/-- Cluster c's registers. -/
def State.cl (s : State) (c : Nat) : Cluster := s.clusters.get {} c
/-- Cluster c changed. -/
def State.updCl (s : State) (c : Nat) (g : Cluster → Cluster) : State := { s with clusters := s.clusters.upd {} c g }
/-- Submission ring r. -/
def State.rg (s : State) (r : Nat) : Ring := s.rings.get {} r
/-- Submission ring r changed. -/
def State.updRg (s : State) (r : Nat) (g : Ring → Ring) : State := { s with rings := s.rings.upd {} r g }
/-- Section h. -/
def State.sec (s : State) (h : Nat) : Section := s.secs.get {} h
/-- Section h changed. -/
def State.updSec (s : State) (h : Nat) (g : Section → Section) : State := { s with secs := s.secs.upd {} h g }
/-- Fence slot i. -/
def State.fe (s : State) (i : Nat) : Fence := s.fences.get {} i
/-- Fence slot i changed. -/
def State.updFe (s : State) (i : Nat) (g : Fence → Fence) : State := { s with fences := s.fences.upd {} i g }
/-- Object h. -/
def State.ob (s : State) (h : Nat) : Obj := s.objs.get {} h
/-- Object h changed. -/
def State.updOb (s : State) (h : Nat) (g : Obj → Obj) : State := { s with objs := s.objs.upd {} h g }
/-- Pan p. -/
def State.pan (s : State) (p : Nat) : Pan := s.pans.get {} p
/-- Pan p changed. -/
def State.updPan (s : State) (p : Nat) (g : Pan → Pan) : State := { s with pans := s.pans.upd {} p g }
/-- Unit u (core × 5 + kind). -/
def State.un (s : State) (u : Nat) : CoreUnit := s.units.get {} u
/-- Unit u changed. -/
def State.updUn (s : State) (u : Nat) (g : CoreUnit → CoreUnit) : State := { s with units := s.units.upd {} u g }
/-- Stack k. -/
def State.stk (s : State) (k : Nat) : Stack := s.hbm.stks.get {} k
/-- Stack k changed. -/
def State.updStk (s : State) (k : Nat) (g : Stack → Stack) : State :=
  { s with hbm := { s.hbm with stks := s.hbm.stks.upd {} k g } }
/-- Horizon port p. -/
def State.port (s : State) (p : Nat) : Port := s.hzn.ports.get {} p
/-- Horizon port p changed. -/
def State.updPort (s : State) (p : Nat) (g : Port → Port) : State :=
  { s with hzn := { s.hzn with ports := s.hzn.ports.upd {} p g } }
/-- Part p of the extension fabric. -/
def State.xp (s : State) (p : Nat) : XPart := s.xparts.get {} p
/-- Part p changed. -/
def State.updXp (s : State) (p : Nat) (g : XPart → XPart) : State := { s with xparts := s.xparts.upd {} p g }
/-- Service v. -/
def State.svc (s : State) (v : Nat) : Svc := s.svcs.get {} v
/-- Service v changed. -/
def State.updSvc (s : State) (v : Nat) (g : Svc → Svc) : State := { s with svcs := s.svcs.upd {} v g }

/-- An output. -/
def State.emit (s : State) (e : OutEvent) : State := { s with out := s.out ++ [e] }

/-- Time moved on to at least t; the time base is monotonic (R38). -/
def State.atTime (s : State) (t : Nat) : State := { s with time := { s.time with now := max s.time.now t } }

/-- The end of the window of a length that is numbered w: the next one's number, with time moved to that end (R7: windows are
half-open; windows that have passed with no end of their own are passed over). -/
def State.endWindow (s : State) (w len : Nat) : State × Nat :=
  let s := s.atTime ((w + 1) * len)
  (s, s.time.now / len)

/-- The requester ID of a request on a link: on link 1 the companion function's, on link 0 the owning function's (R47). -/
def requester (link func : Nat) : Nat := if link = 1 then 256 else func

/-- A posted write to host memory, for a function's ring or window. -/
def State.postHost (s : State) (link func addr : Nat) (bs : List Byte) : State :=
  { s with hostMem := s.hostMem.wrN addr bs }.emit (.hostWrite link (requester link func) addr bs)

/-- Which function numbers exist: PF0, and the VFs that VF Enable and NumVFs cover (R311). -/
def State.funcExists (s : State) (f : Nat) : Bool := f == 0 || (s.vfEnable && decide (f ≤ s.numVfs))

/-- The functions whose ENABLE is 1, ascending. -/
def State.enabledFuncs (s : State) : List Nat := s.funcs.keysWhere fun _ f => f.enable

/-! ### Presence (R13, R21, R315) -/

/-- CLc present. -/
def State.clPresent (s : State) (c : Nat) : Bool := decide (c < s.part.clusters) && s.part.clusterMask.getLsbD c
/-- Global core g present. -/
def State.corePresent (s : State) (g : Nat) : Bool := s.clPresent (g / 48) && s.part.coreMask.getLsbD g
/-- Mk fitted and not fused off. -/
def State.stackFitted (s : State) (k : Nat) : Bool :=
  s.clPresent (k / 2) && (k % 2 == 0 || s.part.twoStacks) && s.part.stackMask.getLsbD k
/-- Horizon port Hp present. -/
def State.portPresent (s : State) (p : Nat) : Bool := decide (p < s.part.ports) && s.part.portMask.getLsbD p
/-- Part p of the extension fabric present. -/
def State.partPresent (s : State) (p : Nat) : Bool :=
  s.part.extFabric && s.clPresent (p / 4) && s.part.regionMask.getLsbD p

/-- The AHI is up: boot is Ready and the engine is not lost (R517, R530). -/
def State.ready (s : State) : Bool := s.pins.porstN && s.hub.stage == 6 && !s.hub.lost

/-- The hub has power and is out of reset, and management firmware runs: step 2 of R517 has begun, there is no hold, and boot
has not halted in its first stage (HALT_CAUSE 1 to 4). -/
def State.hubUp (s : State) : Bool :=
  s.pins.porstN && !s.hub.holdReset && decide (2 ≤ s.hub.stage) && !(s.hub.stage == 7 && decide (1 ≤ s.hub.haltCause ∧ s.hub.haltCause ≤ 4))

/-! ### The Bittern log (R506 to R512) -/

/-- Slots of the circular region and of the first-failure region (R506). -/
def circSlots : Nat := 114688
def ffSlots : Nat := 16384

/-- The record of an event at this moment (R507). -/
def State.logRec (s : State) (code cls kind unit ctx : Nat) (data : List Nat) : LogRec :=
  { time := s.time.now, code, cls, ctx, unitKind := kind, unit, unlocked := s.part.tapLockIntact,
    data := data ++ [s.hub.bootCount], boot := s.hub.bootCount }

/-- A record sealed in its slots (R509). A first-failure record asserts SMB_ALERT_N (R505). -/
def State.seal (s : State) (r : LogRec) : State :=
  let l := s.log
  let r := { r with seq := l.nextSeq }
  let toFf := decide (2 ≤ r.cls) && decide (l.ff.length < ffSlots)
  { s with
    log := { l with
      nextSeq := (l.nextSeq + 1) % 2 ^ 32
      circ := l.circ.put l.wpos r
      wpos := (l.wpos + 1) % circSlots
      ff := if toFf then l.ff ++ [r] else l.ff }
    pins := { s.pins with smbAlert := s.pins.smbAlert || toFf } }

/-- A record handed to the log writer: it waits in the hub queue of 1,024, or is dropped and counted; records of
CLASS 3 bypass the queue (R508). -/
def State.push (s : State) (r : LogRec) : State :=
  if r.cls = 3 then s.seal r
  else if s.log.queue.length < 1024 then { s with log := { s.log with queue := s.log.queue ++ [r] } }
  else { s with log := { s.log with lost := satinc 32 s.log.lost, dropped := s.log.dropped + 1 } }

/-- A log record of an event that is not coalesced. Before step 2 of R517 no record can be written. -/
def State.logEv (s : State) (code cls kind unit ctx : Nat) (data : List Nat) : State :=
  if s.hubUp then s.push (s.logRec code cls kind unit ctx data) else s

/-- A log record of an event that is coalesced per minute (R510). -/
def State.logCo (s : State) (code cls kind unit ctx : Nat) (data : List Nat) : State :=
  if !s.hubUp then s
  else
    let same := fun (k : CoalKey) => k.code == code && k.unitKind == kind && k.unit == unit && k.ctx == ctx
    let isOver := fun (k : CoalKey) => k.code == 0xF0FF
    let more := fun (k : CoalKey) => { k with further := satinc 32 k.further, last := s.time.now }
    let again := fun (k : CoalKey) => { more k with data := data ++ [s.hub.bootCount] }
    let tb := s.log.table
    if tb.any same then
      { s with log := { s.log with table := tb.map fun k => if same k then again k else k } }
    else if (tb.filter fun k => !isOver k).length < 256 then
      let k : CoalKey := { code, unitKind := kind, unit, ctx, cls, last := s.time.now, data := data ++ [s.hub.bootCount] }
      { s with log := { s.log with table := tb ++ [k] } }.push (s.logRec code cls kind unit ctx data)
    else if tb.any isOver then
      { s with log := { s.log with table := tb.map fun k => if isOver k then more k else k } }
    else
      let k : CoalKey := { code := 0xF0FF, unitKind := 0, unit := 0, ctx := 0, cls := 1, further := 1, last := s.time.now, data := [0, 0, 0, s.hub.bootCount] }
      { s with log := { s.log with table := tb ++ [k] } }

/-- The summary records of the window, and an empty table (R510). -/
def State.flushCoalesced (s : State) : State :=
  let sums := (s.log.table.filter fun k => decide (0 < k.further)).map fun k =>
    { s.logRec k.code k.cls k.unitKind k.unit k.ctx [] with
      time := k.last, coalesced := true, count := k.further, data := k.data }
  sums.foldl State.push { s with log := { s.log with table := [] } }

/-! ### MSI-X (R312, R350) -/

/-- VECTORS of VF v (HIF_VF_CFG). -/
def State.vfVectors (s : State) (v : Nat) : Nat := fld (s.fn v).vfCfg.toNat 32 7

/-- The vector slots that a function owns (R312). -/
def State.ownedVectors (s : State) (f : Nat) : Nat :=
  if f = 0 then 2048 - ((s.funcs.filter fun e => !decide (e.1 = 0)).map fun e => fld e.2.vfCfg.toNat 32 7).sum
  else s.vfVectors f

/-- The key of a function's table entry. -/
def msixKey (f v : Nat) : Nat := f * 2048 + v
/-- Entries of a function's MSI-X table (R311). -/
def msixSize (f : Nat) : Nat := if f = 0 then 2048 else 64

/-- The message of a function's vector: sent, or left pending while the function or the entry is masked; entries
above the function's slots never deliver and their pending bits stay 0 (R312, R350). -/
def State.sendMsix (s : State) (f v : Nat) : State :=
  let e := s.msix.get {} (msixKey f v)
  if s.ownedVectors f ≤ v then s
  else if !s.msixEnable.get false f || s.msixMask.get false f || e.control.getLsbD 0 then
    { s with msix := s.msix.set {} (msixKey f v) { e with pending := true } }
  else s.emit (.msix f v)

/-- Entries above the vectors that a function owns act as masked, and their pending bits stay 0 (R312). -/
def State.dropPending (s : State) (f : Nat) : State :=
  let ks := s.msix.keysWhere fun k e => k / 2048 == f && decide (s.ownedVectors f ≤ k % 2048) && e.pending
  { s with msix := ks.foldl (fun t k => t.upd {} k fun e => { e with pending := false }) s.msix }

/-- Pending messages of a function that masking no longer holds back leave now. -/
def State.sendPending (s : State) (f : Nat) : State :=
  if !s.msixEnable.get false f || s.msixMask.get false f then s
  else
    let ks := s.msix.keysWhere fun k e => k / 2048 == f && decide (k % 2048 < s.ownedVectors f) && e.pending && !e.control.getLsbD 0
    ks.foldl (fun s k => { s with msix := s.msix.upd {} k fun e => { e with pending := false } }.emit (.msix f (k % 2048))) s

/-! ### Protocol violations (R358) -/

/-- HIF_VIOL of a function. -/
def Func.violReg (f : Func) : Nat := f.violCount + 2 ^ 32 * f.violKind

/-- One protocol violation of function f: counted, its kind kept, and logged coalesced. -/
def State.viol (s : State) (f kind : Nat) : State :=
  let s := s.updFn f fun g => { g with violCount := satinc 32 g.violCount, violKind := kind }
  s.logCo 0x4001 1 0 f 0 [0, (s.fn f).violReg, 0]

/-! ### Event rings (R346 to R350) -/

/-- The 32 bytes of a record (R346). -/
def EvRec.bytes (r : EvRec) (seq : Nat) : List Byte :=
  leBytes 2 r.status ++ leBytes 1 r.kind
    ++ leBytes 1 (b2n r.abandoned + 2 * b2n r.skipped + 4 * b2n r.lower + 8 * b2n r.deferred)
    ++ leBytes 2 r.ring ++ leBytes 1 r.ctx ++ leBytes 1 0 ++ leBytes 8 r.user ++ leBytes 8 r.value
    ++ leBytes 4 r.pos ++ leBytes 4 seq

/-- The ring's registers: base, log2 of its size, consumed-word address, function and vector, moderation in µs. -/
structure EvGeom where
  base : Nat
  log2 : Nat
  consumed : Nat
  func : Nat
  vector : Nat
  moder : Nat

/-- The event ring of a function (R320). -/
def State.funcGeom (s : State) (f : Nat) : EvGeom :=
  let g := s.fn f
  { base := g.fevtBase.toNat / 2048 * 2048, log2 := fld g.fevtCfg.toNat 0 5, consumed := g.fevtConsumed.toNat / 4 * 4,
    func := f, vector := fld g.adminCfg.toNat 16 11, moder := fld g.fevtCfg.toNat 32 10 }

/-- The event ring of a context (R337). -/
def State.ctxGeom (s : State) (c : Nat) : EvGeom :=
  let g := s.cx c
  { base := g.evBase, log2 := g.evLog2, consumed := g.evConsumedAt, func := g.func, vector := g.evVector, moder := g.evModer }

/-- Whether a ring with next SEQ s and last read consumed value c is full (R348). -/
def evFull (log2 seq consumed : Nat) : Bool := cdist 32 seq consumed == 2 ^ log2

/-- The consumed word read again: the new consumed value, or none where it is out of range (R348). -/
def State.readConsumed (s : State) (g : EvGeom) (seq : Nat) : Option Nat :=
  let v := s.hostMem.rdLE g.consumed 4
  if 2 ^ g.log2 < cdist 32 seq v then none else some v

/-- A record posted to its slot: bytes 0–27, then bytes 28–31 (R347). -/
def State.postRecord (s : State) (g : EvGeom) (seq : Nat) (r : EvRec) : State :=
  let a := g.base + 32 * (seq % 2 ^ g.log2)
  let b := r.bytes seq
  (s.postHost 0 g.func a (b.take 28)).postHost 0 g.func (a + 28) (b.drop 28)

/-- What a record does to the ring's message state: the new state, and whether the message goes now (R350). -/
def Moder.after (m : Moder) (moder now : Nat) (r : EvRec) : Moder × Bool :=
  if r.kind == 3 || r.kind == 5 then ({ last := some now, pending := false }, true)
  else if !r.irq then (m, false)
  else if moder == 0 then ({ last := some now, pending := false }, true)
  else match m.last with
  | some t => if now < t + 1000 * moder then ({ m with pending := true }, false) else ({ last := some now, pending := false }, true)
  | none => ({ last := some now, pending := false }, true)

/-- The function event ring's consumed word read while the ring is full (R348, R349). -/
def State.refreshFunc (s : State) (f : Nat) : State :=
  let g := s.funcGeom f
  let d := s.fn f
  if evFull g.log2 d.evSeq d.evRead then
    match s.readConsumed g d.evSeq with
    | some v => s.updFn f fun d => { d with evRead := v }
    | none => s.viol f 6
  else s

/-- A record written to a function event ring that has room. -/
def State.putFunc (s : State) (f : Nat) (r : EvRec) : State :=
  let g := s.funcGeom f
  let d := s.fn f
  let (m, send) := d.moder.after g.moder s.time.now r
  let s := (s.postRecord g d.evSeq r).updFn f fun d => { d with evSeq := (d.evSeq + 1) % 2 ^ 32, moder := m }
  if send then s.sendMsix f g.vector else s

/-- The function event ring is full, and stays so when its consumed word is read (R348). -/
def State.funcFull (s : State) (f : Nat) : Bool :=
  let d := s.fn f
  evFull (s.funcGeom f).log2 d.evSeq d.evRead

/-- A record for a function event ring: written, or held while the ring is full. A DEVICE record of a field replaces
the one pending for that field, and a LOST notice is held once per context (R349). -/
def State.funcEvent (s : State) (f : Nat) (r : EvRec) : State :=
  if !(if r.kind = 5 then (s.fn f).enable else (s.fn f).evOn) then s
  else
    let s := s.refreshFunc f
    if !s.funcFull f then s.putFunc f r
    else s.updFn f fun d =>
      if r.kind == 5 then { d with devNotices := d.devNotices.filter (fun x => x.value != r.value) ++ [r] }
      else if r.kind == 3 then
        if d.lostNotices.any fun x => x.ctx == r.ctx then d else { d with lostNotices := d.lostNotices ++ [r] }
      else { d with evWait := d.evWait ++ [r] }

/-- A capability-table field at offset off has changed: a DEVICE record to the rings of the functions (R316). -/
def State.devChange (s : State) (off : Nat) (fs : List Nat) : State :=
  fs.foldl (fun s f => s.funcEvent f { kind := 5, value := off }) s

/-- A device-wide field has changed. -/
def State.devChangeAll (s : State) (off : Nat) : State := s.devChange off s.enabledFuncs

/-- A context event ring's consumed word read while the ring is full (R348). -/
def State.refreshCtx (s : State) (c : Nat) : State :=
  let g := s.ctxGeom c
  let d := s.cx c
  if evFull g.log2 d.evSeq d.evRead then
    match s.readConsumed g d.evSeq with
    | some v => s.updCx c fun d => { d with evRead := v }
    | none => s.viol g.func 6
  else s

/-- The context event ring is full. -/
def State.ctxFull (s : State) (c : Nat) : Bool :=
  let d := s.cx c
  evFull d.evLog2 d.evSeq d.evRead

/-- A record written to a context event ring that has room. -/
def State.putCtx (s : State) (c : Nat) (r : EvRec) : State :=
  let g := s.ctxGeom c
  let d := s.cx c
  let (m, send) := d.moder.after g.moder s.time.now r
  let s := (s.postRecord g d.evSeq r).updCx c fun d => { d with evSeq := (d.evSeq + 1) % 2 ^ 32, moder := m, fullSince := none }
  if send then s.sendMsix g.func g.vector else s

/-- A record for a context event ring: written, with true; or held until the ring has room, with false (R348). A ring
that a full ring silenced takes no record (R339), and a context under destruction drops one that finds no room. -/
def State.ctxEvent (s : State) (c : Nat) (r : EvRec) : State × Bool :=
  if (s.cx c).silent then (s, true)
  else
    let s := if (s.cx c).evWait.isEmpty then s.refreshCtx c else s
    if (s.cx c).evWait.isEmpty && !s.ctxFull c then (s.putCtx c r, true)
    else if (s.cx c).life == .destroying then (s, true)
    else (s.updCx c fun d => { d with evWait := d.evWait ++ [r], fullSince := some (d.fullSince.getD s.time.now) }, false)

/-! ### The slew governor's stop and the loss of the device (R496, R530) -/

/-- A pan that stops taking input: one with rows enabled waits to ramp down, a ramp-down goes on (R110, R496). -/
def Pan.stopped (p : Pan) : Pan :=
  { p with run := match p.run with
      | .running | .rampWait => .rampWait
      | .waiting => if p.off < 16 then .rampWait else .idle
      | .falling t => .falling t
      | .idle => .idle }

/-- Every pan stops taking input and the governor admits no further start; running pans wait to ramp down (R496). -/
def State.emergencyStop (s : State) : State :=
  { s with
    pans := s.pans.mapAll {} fun _ p => p.stopped
    power := { s.power with waiting := [] }
    hub := { s.hub with emergency := true } }

/-- ATS invalidations complete once no command of theirs is in flight (R327). -/
def State.flushAts (s : State) : State :=
  let busy := fun (a : AtsInval) => s.cmds.any fun k => a.users.contains k.ref
  let s' := { s with atsInvals := s.atsInvals.filter busy }
  (s.atsInvals.filter fun a => !busy a).foldl (fun (s : State) a => s.emit (.atsDone a.func)) s'

/-- A command newly in flight: whoever waits for an earlier command of the same reference has seen it end. -/
def State.enterCmd (s : State) (k : Cmd) : State :=
  let gone := fun (l : List CmdRef) => l.filter (· != k.ref)
  { s with
    cmds := s.cmds ++ [k]
    atsInvals := s.atsInvals.map fun i => { i with users := gone i.users }
    windows := s.windows.mapAll {} fun _ w => { w with users := gone w.users } }

/-- Horizon links held down and rim and border ports clamped; the host port fetches nothing (step 2 of R530). -/
def State.holdPorts (s : State) : State :=
  { s with
    hzn := { s.hzn with
      ports := s.hzn.ports.mapAll {} fun _ p =>
        { p with st := 3, lanes := 0, retry := [], waitq := [], crBulk := 0, crCtrl := 0 } }
    xparts := s.xparts.mapAll {} fun _ p => { p with clamped := true } }

/-- Every context is lost, and no command begins a commit (R526, R530 step 1). -/
def State.dropContexts (s : State) (st : Nat) : State :=
  State.flushAts { s with
    ctxs := s.ctxs.mapAll {} fun _ c => if c.life == .free then c else { c with life := .lost, lossStatus := if c.life == .lost then c.lossStatus else st, settled := true, evWait := [] }
    cmds := []
    replays := []
    rings := s.rings.mapAll {} fun _ r => { r with work := .idle } }

/-- The loss of the device under R530 for an uncontained fault: cause, the unit of the fault and the log record's code,
with the DATA the record carries. A further fault of a lost device writes its own log record only (R532). -/
def State.deviceLoss (s : State) (cause kind unit code : Nat) (data : List Nat) : State :=
  let r := s.logRec code 3 kind unit 0 data
  if s.hub.lost then if s.hubUp then s.push r else s
  else
    let s := s.emergencyStop
    let s := s.holdPorts
    let s := s.dropContexts 0x0802
    let s := { s with hub := { s.hub with lost := true, cause, unit, faultTime := s.time.now } }
    let s := s.enabledFuncs.foldl (fun s f =>
      let s := s.refreshFunc f
      if s.funcFull f then s else s.putFunc f { status := 0x0802, kind := 5 }) s
    let s := if s.hubUp then s.push r else s
    if cause = 3 then { s with pins := { s.pins with thermtrip := true, smbAlert := true } } else s

/-- An uncontained fault: before Ready boot halts with cause 7; from stage 3 on, the halt reports the loss (R520). -/
def State.uncontained (s : State) (cause kind unit code : Nat) (data : List Nat) : State :=
  if s.hub.stage = 7 then s.deviceLoss cause kind unit code data
  else if s.hub.stage < 6 then
    let st := s.hub.stage
    let s := { s with hub := { s.hub with haltCause := 7, booting := false, holdReset := false, resetAsked := false } }
    let s := if 3 ≤ st then s.deviceLoss cause kind unit code data else (if s.hubUp then s.push (s.logRec code 3 kind unit 0 data) else s).emergencyStop
    { s with hub := { s.hub with stage := 7 } }
  else s.deviceLoss cause kind unit code data

end Sys2Proof.Machine
end

