-- ==== Sys2Proof/Machine/Power.lean ====
section
/-! DEFINITION. Sensors, operating points, the power limit and temperature (R484 to R502). The slew governor's
admissions stand in Pan.lean. -/

namespace Sys2Proof.Machine

/-- Core-rail voltage of a point in mV (R15). -/
def pointMv (p : Nat) : Nat := [850, 800, 750, 700, 650].getD p 650
/-- Typical and floor step rates of a point in M steps/s (R15). -/
def typRate (p : Nat) : Nat := [2000, 1800, 1600, 1350, 1100].getD p 1100
def floorRate (p : Nat) : Nat := [1800, 1620, 1440, 1200, 950].getD p 950

/-- The charge of a pan on a cluster at a point, in mA (R492). -/
def chargeMa (point : Nat) : Nat := [2000, 1750, 1250, 1000, 750].getD point 750

/-- The length of n steps of a cluster in ns for the slew governor (R108, R492). The spec gives the ramp in steps and does not say
which rate turns them into ns: the typical rate of the cluster's point, rounded down, is the model's choice (DESIGN CHOICE, log
entry 77). -/
def stepsNs (n point : Nat) : Nat := n * 1000 / typRate point
/-- The length of a pan's whole ramp of 48 steps (R108). -/
def rampNs (point : Nat) : Nat := stepsNs 48 point

/-- The governor's time in ns: it does not start anew with the time base at power-on reset, so that R33 holds across one. -/
def State.govNow (s : State) : Nat := s.power.epoch + s.time.now

/-- The effective point of a cluster (R15, R488, R490, R501). -/
def Cluster.effective (c : Cluster) : Nat :=
  let p := if c.moving then max c.point c.target else c.point
  if c.throttle then 4 else if c.paceLow then min (p + 1) 4 else p

/-- GROUPS and MODE of a partition (R322). -/
def Partition.groups (p : Partition) : Nat := fld p.cfg.toNat 0 60
def Partition.mode (p : Partition) : Nat := fld p.cfg.toNat 60 2

/-- The partition holds cores of cluster c (R360). -/
def Partition.usesCl (p : Partition) (c : Nat) : Bool := fld p.groups (6 * c) 6 != 0

/-- ADMIT_OP of a partition (R361). -/
def Partition.admitOp (p : Partition) : Nat := fld p.rt.toNat 0 3

/-- BELOW of partition p by its definition (R380). -/
def State.isBelow (s : State) (p : Nat) : Bool :=
  (List.range 10).any fun c => (s.pt p).usesCl c && s.clPresent c && decide ((s.pt p).admitOp < (s.cl c).effective)

/-- PART_BELOW of the capability table (R378). -/
def State.belowMask (s : State) : Nat := ((List.range 16).map fun p => b2n (s.pt p).below * 2 ^ p).sum

/-- BELOW of every partition brought up to date, with DEVICE records when the mask changes (R380, R316). -/
def State.refreshBelow (s : State) : State :=
  let s' := (List.range 16).foldl (fun s p => s.updPt p fun q => { q with below := s.isBelow p }) s
  if s'.belowMask = s.belowMask then s' else s'.devChangeAll 0x105C

/-- The limit in force, in W (R498). -/
def State.limitInForce (s : State) : Nat :=
  let a := s.part.pwrMax
  let b := if s.power.limit = 0 then a else min a s.power.limit
  if s.power.sideband = 0 then b else min b s.power.sideband

/-- The mean over the last ten windows, in W (R499); windows before the first count as 0. -/
def Power.mean (p : Power) : Nat := p.windows.sum / 10

/-- FASTEST of MGT_OP_CTRL, and whether a partition that holds cores on cluster c runs a latency-critical section (R491). -/
def State.lcOn (s : State) (c : Nat) : Bool :=
  (List.range 16).any fun p => (s.pt p).usesCl c && (s.pt p).lcRun.isSome

/-- Firmware starts a change of cluster c's point to b (steps 1, 1′ and 2 of R490); the hardware throttle's cap, the floor
rate of OP4, stays in force (R501). -/
def State.startChange (s : State) (c b : Nat) : State :=
  let k := s.cl c
  let cap := if k.throttle then floorRate 4 else if k.point < b then floorRate b else typRate k.point
  ((s.updCl c fun k => { k with moving := true, target := b, movedAt := s.time.now, capRate := cap }).emit
    (.avsWrite c (pointMv b + k.trim))).refreshBelow

/-- Temperature allows cluster c to rise. -/
def State.coolEnough (s : State) (c : Nat) : Bool := !(s.cl c).warned && !(s.cl c).throttle

/-- The power limit or temperature leaves no choice but to slow down cluster c (R380). -/
def State.mustSlow (s : State) (c : Nat) : Bool := decide (s.limitInForce * 10 < s.power.windows.sum) || !s.coolEnough c

/-- R489, R491: firmware may move cluster c to point b. -/
def State.mayChange (s : State) (c b : Nat) : Bool :=
  let k := s.cl c
  s.hubUp && !s.hub.lost && s.clPresent c && !k.moving && decide (b ≤ 4) && decide (s.power.fastest ≤ b)
    && (b == k.point + 1 || b + 1 == k.point)
    && (if b < k.point then !k.noRaise && !s.mustSlow c && (decide (2 ≤ b) || !s.lcOn c)
        else s.mustSlow c || (List.range 16).all fun p => !(s.pt p).usesCl c || decide (b ≤ (s.pt p).admitOp))

/-- RAIL_SENSOR_READ (R487): the readings fill MGT_VOLT and MGT_CURR; those of absent sensors stay 0x8000. -/
def execRailSensorRead (volts currents : List Nat) (estimated : Bool) (s : State) : Out :=
  if !s.hubUp then .next s
  else
    let here := fun (volt : Bool) (i : Nat) =>
      if volt then (if i < 20 then s.clPresent (i / 2) else if i < 30 then s.clPresent (i - 20) else decide (i < 40))
      else (if i < 10 then s.clPresent i else decide (i < 16))
    let fill := fun (volt : Bool) (t : Tbl Nat) (l : List Nat) =>
      l.zipIdx.foldl (fun t (v, i) => if here volt i then t.set 0x8000 i (v % 65536) else t) t
    .next { s with power := { s.power with volts := fill true s.power.volts volts, currs := fill false s.power.currs currents, estimated } }

/-- PACE_CHECK (R488). While a change of point runs the set point is not trimmed: the rail moves monotonically to its target
(R28; log entry 76). -/
def execPaceCheck (cluster pace : Nat) (s : State) : Out :=
  let k := s.cl cluster
  let fl := floorRate k.point
  if !(s.hubUp && s.clPresent cluster) then .next s
  else
    let s := s.updCl cluster fun k => { k with pace := pace % 65536 }
    if 103 * fl ≤ 100 * pace ∨ k.moving then .next s
    else if k.trim + 5 ≤ 20 ∧ pointMv k.point + k.trim + 5 ≤ 850 then
      .next ((s.updCl cluster fun k => { k with trim := k.trim + 5 }).emit (.avsWrite cluster (pointMv k.point + k.trim + 5)))
    else if pace < fl ∧ !k.paceLow then
      .next (((s.updCl cluster fun k => { k with paceLow := true }).logEv 0x1002 1 1 cluster 0 [0, 0, 0]).refreshBelow)
    else .next s

/-- POINT_CHANGE (R490, R489, R491): event P. -/
def execPointChange (cluster point : Nat) (s : State) : Out :=
  .next (if s.mayChange cluster point then s.startChange cluster point else s)

/-- POINT_CHANGE_SETTLED (step 4 of R490). -/
def execPointChangeSettled (cluster : Nat) (s : State) : Out :=
  if (s.cl cluster).moving then
    .next (s.updCl cluster fun k => { k with point := k.target, moving := false, capRate := if k.throttle then floorRate 4 else 0 }).refreshBelow
  else .next s

/-- POINT_CHANGE_TIMEOUT (step 4′ of R490): not before P + 1 ms. -/
def execPointChangeTimeout (cluster : Nat) (s : State) : Out :=
  let k := s.cl cluster
  if k.moving then
    let s := s.atTime (k.movedAt + 1000000)
    let s := s.updCl cluster fun k => { k with moving := false, target := k.point, noRaise := true, capRate := floorRate (if k.throttle then 4 else k.point) }
    .next ((s.emit (.avsWrite cluster (pointMv k.point + k.trim))).logEv 0x1001 1 1 cluster 0 [0, 0, 0]).refreshBelow
  else .next s

/-- Lower every cluster of a list that can move by one point (R499). -/
def State.lowerAll (s : State) (cs : List Nat) : State :=
  cs.foldl (fun s c => if (s.cl c).moving then s else s.startChange c ((s.cl c).point + 1)) s

/-- The firmware's answer to the mean above the limit (first two bullets of R499). -/
def State.lowerForPower (s : State) : State :=
  let above := (List.range 10).filter fun c => s.clPresent c && decide ((s.cl c).point < 4)
  let free := above.filter fun c => !s.lcOn c
  if !free.isEmpty then s.lowerAll free
  else if !above.isEmpty then s.lowerAll above
  else { s with power := { s.power with tight := true } }

/-- The firmware's answer to ten quiet windows (third bullet of R499). The rule names no cluster: that the lowest-numbered one
that may rise does is the model's choice (DESIGN CHOICE, log entry 76). -/
def State.raiseForPower (s : State) : State :=
  let s := { s with power := { s.power with tight := false, lowRun := 0 } }
  match (List.range 10).find? fun c => decide (0 < (s.cl c).point) && s.mayChange c ((s.cl c).point - 1) with
  | some c => s.startChange c ((s.cl c).point - 1)
  | none => s

/-- POWER_WINDOW_END (R499, R7): the window's power is accounted and power hold ends. -/
def execPowerWindowEnd (watts : Nat) (s : State) : Out :=
  if !s.hubUp then .next s
  else
    let (s, w) := s.endWindow s.power.window 1000000
    let p := { s.power with window := w }
    let ws := (watts :: p.windows).take 10
    let low := decide (10 * ws.sum ≤ 9 * s.limitInForce * 10)
    let s := { s with power := { p with
      windows := ws, last := watts, held := p.hold, hold := false
      heldCount := if p.hold then satinc 32 p.heldCount else p.heldCount
      lowRun := if low then p.lowRun + 1 else 0 } }
    if s.limitInForce * 10 < ws.sum then .next s.lowerForPower
    else if 10 ≤ s.power.lowRun then .next s.raiseForPower
    else .next s

/-- The hold level in tenths of a watt (R499, R500). -/
def State.holdTenths (s : State) : Nat := s.limitInForce * (if s.power.tight then 10 else 12)

/-- POWER_PROJECTION (R500): E + P × (t_end - t) against the hold level. -/
def execPowerProjection (t energy power : Nat) (s : State) : Out :=
  if !s.hubUp then .next s
  else
    let s := s.atTime t
    let left := (t / 1000000 + 1) * 1000000 - t
    if s.holdTenths * 1000000 ≤ 10 * (energy + power * left) ∨ s.holdTenths ≤ 10 * power then
      let was := s.power.hold
      let s := { s with power := { s.power with hold := true, held := true }, pins := { s.pins with smbAlert := true } }
      .next (if was then s else s.logEv 0x1008 1 0 0 0 [0, 0, 0])
    else .next s

/-- MGT_PWR_LIMIT_WRITE (R498). -/
def execMgtPwrLimitWrite (value : Nat) (s : State) : Out :=
  let l := fld value 0 12
  if !s.ready then .next s
  else if l = 0 ∨ (800 ≤ l ∧ l ≤ 3200) then .next { s with power := { s.power with limit := l } }
  else .next (s.viol 0 4)

/-! ### Temperature (R501, R502) -/

/-- A thermal sensor is present (R486). -/
def State.sensorPresent (s : State) (i : Nat) : Bool := if i < 50 then s.clPresent (i / 5) else decide (i < 64)

/-- HOTTEST and SENSOR of MGT_THERM from the readings. -/
def State.refreshHottest (s : State) : State :=
  let vs := s.power.temps.map fun e => (e.1, sext 16 e.2)
  let best := vs.foldl (fun (b : Option (Nat × Int)) v => match b with
    | some w => if w.2 < v.2 then some v else some w
    | none => some v) none
  match best with
  | some (i, v) => { s with power := { s.power with hottest := (max v 0).toNat / 16 % 256, sensor := i } }
  | none => s

/-- A reading in 1/16 °C taken by a sensor (MGT_TEMP). -/
def State.readTemp (s : State) (i : Nat) (t16 : Int) : State :=
  { s with power := { s.power with temps := s.power.temps.set 0x8000 i (uwrap 16 t16) } }.refreshHottest

/-- The readings of consecutive sensors. -/
def State.readTemps (s : State) (first : Nat) (ts : List Int) : State :=
  ts.zipIdx.foldl (fun s (t, i) => s.readTemp (first + i) t) s

/-- Firmware lowers a warm cluster by one point (first row of R501). -/
def State.coolDown (s : State) (c : Nat) : State :=
  if (s.cl c).moving || decide (4 ≤ (s.cl c).point) then s else s.startChange c ((s.cl c).point + 1)

/-- THERMAL_WARN_CROSSING (R501, first row). -/
def execThermalWarnCrossing (sensor : Nat) (t16 : Int) (s : State) : Out :=
  if !(s.hubUp && s.sensorPresent sensor) || decide (t16 < 16 * (s.power.warn : Int)) then .next s
  else
    let s := (s.readTemp sensor t16).logEv 0x1003 1 10 sensor 0 [0, 0, 0]
    let s := { s with pins := { s.pins with smbAlert := true } }
    if sensor < 50 then
      .next ((s.updCl (sensor / 5) fun k => { k with warned := true }).coolDown (sensor / 5))
    else .next s

/-- WARN_RELEASE (R501): every sensor of the cluster has read below WARN - 3 °C for 10 ms; firmware raises it under R489. -/
def execWarnRelease (cluster : Nat) (t16s : List Int) (s : State) : Out :=
  if !(s.hubUp && (s.cl cluster).warned && t16s.length == 5
      && t16s.all fun t => decide (t < 16 * ((s.power.warn : Int) - 3))) then .next s
  else
    let s := (s.readTemps (5 * cluster) t16s).updCl cluster fun k => { k with warned := false }
    let b := (s.cl cluster).point - 1
    .next (if 0 < (s.cl cluster).point ∧ s.mayChange cluster b then s.startChange cluster b else s)

/-- HARDWARE_THROTTLE (R501, second row): hardware acts without firmware; the record needs firmware. -/
def execHardwareThrottle (sensor : Nat) (t16 : Int) (s : State) : Out :=
  if !(s.pins.porstN && s.sensorPresent sensor) || decide (t16 < 16 * 105) then .next s
  else
    let s := (s.readTemp sensor t16).logEv 0x1004 1 10 sensor 0 [0, 0, 0]
    if sensor < 50 then
      .next (s.updCl (sensor / 5) fun k => { k with throttle := true, capRate := floorRate 4 }).refreshBelow
    else .next { s with power := { s.power with hubThrottle := true } }

/-- THROTTLE_RELEASE (R501, second row): every sensor reads below 102 °C. -/
def execThrottleRelease (domain : Nat) (t16s : List Int) (s : State) : Out :=
  let cool := t16s.all fun t => decide (t < 16 * 102)
  if domain < 10 then
    if (s.cl domain).throttle && cool && t16s.length == 5 then
      .next ((s.readTemps (5 * domain) t16s).updCl domain fun k =>
        { k with throttle := false, capRate := if k.moving then k.capRate else 0 }).refreshBelow
    else .next s
  else if s.power.hubThrottle && cool && t16s.length == 14 then
    .next { s.readTemps 50 t16s with power := { (s.readTemps 50 t16s).power with hubThrottle := false } }
  else .next s

/-- THERMAL_SHUTDOWN (R502): emergency stop, THERMTRIP_N, and the loss of the device. -/
def execThermalShutdown (sensor : Nat) (t16 : Int) (s : State) : Out :=
  if !(s.pins.porstN && s.sensorPresent sensor) || decide (t16 < 16 * 115) then .next s
  else
    let s := (s.readTemp sensor t16).uncontained 3 10 sensor 0x1005 [0x0802, 0, 3]
    .next { s with pins := { s.pins with thermtrip := true, smbAlert := true } }

/-- GOVERNOR_TRIP (R497). -/
def execGovernorTrip (rail : Nat) (s : State) : Out :=
  if s.pins.porstN then .next (s.uncontained 2 9 rail 0x1007 [0x0802, 0, 2]) else .next s

/-- RAIL_OUT_OF_RANGE (R32). -/
def execRailOutOfRange (rail : Nat) (s : State) : Out :=
  if s.pins.porstN && (decide (10 ≤ rail ∧ rail ≤ 16) || decide (rail < s.part.clusters)) then
    .next (s.uncontained 1 9 rail 0x1006 [0x0802, 0, 1])
  else .next s

end Sys2Proof.Machine
end

