-- ==== Sys2Proof/Machine/Boot.lean ====
section
/-! DEFINITION. Power-on reset, boot, engine reset, watchdogs, TIMEREF and the TAP (02_block_boundary, 16). -/

namespace Sys2Proof.Machine

/-- The charge in mA and the length in ns of the fall of a pan, with off of its 16 groups disabled already (R108, R492): what a
reset left to it, else what the cluster's point gives. -/
def State.fallOf (s : State) (pan : Nat) : Nat × Nat :=
  let p := s.pan pan
  let c := (s.cl (pan / 96)).point
  p.fall.getD (chargeMa c * (16 - p.off) / 16, stepsNs (3 * (16 - p.off)) c)

/-- What a pan is after a stop at once: one with rows enabled ramps down (R36, R49, R496), with the charge that its cluster's
point gave it before the reset; its weight sets are gone. -/
def rampedPans (s : State) : Tbl Pan :=
  s.pans.mapAll {} fun i p =>
    let q := p.stopped
    { off := q.off, run := q.run, fall := if q.run = .rampWait ∨ q.fall.isSome then some (s.fallOf i) else none }

/-- The log across a reset: records and block map stay; the queue's and the table's pending counts are discarded (R49,
R510); registers return to reset. -/
def BitLog.kept (l : BitLog) : BitLog :=
  { l with queue := [], lost := 0, dropped := 0, table := [], region := false, index := 0 }

/-- Everything that a power-on reset returns to reset (R49, R516): what is kept is fuses, the log, what lies outside the
block, and the ramp-down of the pans, whose charges keep their places in the governor's time. -/
def State.powerOnReset (s : State) : State :=
  { pending := s.pending, free := s.free, out := s.out, part := s.part, tap := s.tap, hostMem := s.hostMem
    pins := { s.pins with porstN := false, thermtrip := false, smbAlert := false }
    hub := { bootCount := s.hub.bootCount }
    log := { s.log.kept with window := 0 }
    pans := rampedPans s
    power := { charges := s.power.charges, epoch := s.power.epoch + s.time.now } }

/-- What an engine reset returns to reset while it holds the units (R516, R522, R523): as power-on, and PCIe
configuration, MSI-X and the time base are kept too. -/
def State.engineReset (s : State) : State :=
  { pending := s.pending, free := s.free, out := s.out, part := s.part, tap := s.tap, hostMem := s.hostMem
    pins := { s.pins with smbAlert := s.pins.thermtrip }
    hub := { bootCount := s.hub.bootCount, configReady := s.hub.configReady, holdReset := true, resetAsked := true, bootE := s.time.now }
    log := { s.log.kept with window := s.time.now / 60000000000 }
    sluWindow := s.time.now / 1000
    vfEnable := s.vfEnable, numVfs := s.numVfs, msix := s.msix, msixEnable := s.msixEnable, msixMask := s.msixMask
    pans := rampedPans s
    power := { charges := s.power.charges, epoch := s.power.epoch, window := s.time.now / 1000000 }
    time := { now := s.time.now, onOsc := s.time.onOsc, degraded := s.time.degraded, lostAt := s.time.lostAt, returnedAt := s.time.returnedAt, unnoted := s.time.unnoted } }

/-- Boot halts (R520): STAGE 7 and its cause; a record when step 2 has begun; the loss from stage 3 on. -/
def State.halt (s : State) (cause kind unit code : Nat) : State :=
  let s' := { s with hub := { s.hub with haltCause := cause, booting := false, resetAsked := false } }
  let s' := if 3 ≤ s.hub.stage then s'.deviceLoss 0 kind unit code [0x0802, 0, cause]
    else if s.hub.stage = 2 then s'.logEv code 3 kind unit 0 [0, 0, cause] else s'
  { s' with hub := { s'.hub with stage := 7 } }

/-- At the start of boot, a reference clock that was lost is there again or still absent: no event says which, so a free
value does, bit by bit (R42, log entry 73). -/
def State.clocksAtBoot (s : State) : State :=
  if s.pins.hbmRefAbsent.isEmpty && s.pins.sdsAbsent.isEmpty then s
  else
    let w := Config.freeWord s.free
    let still := fun (o : Nat) (t : Tbl Bool) => t.filter fun e => w.getLsbD (o + e.1)
    { s with free := s.free + 1, pins := { s.pins with hbmRefAbsent := still 0 s.pins.hbmRefAbsent, sdsAbsent := still 10 s.pins.sdsAbsent } }

/-- Step 1 of R517 at event E: reference clocks, fuses, ROM; then config-ready. -/
def State.bootStep1 (s : State) (romOk fuseOk : Bool) : State :=
  let s := s.clocksAtBoot
  let s := { s with hub := { s.hub with
    stage := 1, booting := true, bootE := s.time.now, bootCount := (s.hub.bootCount + 1) % 2 ^ 32 } }
  let hbmBad := (List.range 10).find? fun c => s.clPresent c && s.pins.hbmRefAbsent.get false c
  if !s.pins.timeref then s.halt 1 0 0 0
  else if hbmBad.isSome then s.halt 2 1 (hbmBad.getD 0) 0
  else if !romOk then s.halt 3 0 0 0
  else if !fuseOk then s.halt 4 0 0 0
  else { s with hub := { s.hub with configReady := true } }

/-- The instruction the TAP executes for a code (R52, R53). -/
def tapExecutes (intact porstN : Bool) : TapCode → TapCode
  | .other c => if intact then .other c else .bypass
  | .extest => if porstN then .bypass else .extest
  | .clamp => if porstN then .bypass else .clamp
  | .highz => if porstN then .bypass else .highz
  | c => c

/-- The instruction that the TAP executes now, for the one it holds. -/
def State.tapRuns (s : State) : TapCode := tapExecutes s.part.tapLockIntact s.pins.porstN s.tap

/-- A change of PORST_N, after which the TAP may execute its instruction otherwise (R53). -/
def State.tapAfter (s t : State) : State := if s.tapRuns = t.tapRuns then t else t.emit (.tap t.tapRuns)

/-- PORST_N_ASSERT (R49). -/
def execPorstNAssert (s : State) : Out := .next (s.tapAfter s.powerOnReset)

/-- PORST_N_RELEASE (R517, R42): the time base starts from 0 (R516). -/
def execPorstNRelease (romOk fuseOk : Bool) (s : State) : Out :=
  if s.pins.porstN then .next s
  else .next ((s.tapAfter { s with pins := { s.pins with porstN := true } }).bootStep1 romOk fuseOk)

/-- The start of a processor's watch (R524). -/
def State.watch (s : State) (procs : List Nat) : State :=
  procs.foldl (fun s p => { s with hub := { s.hub with
    watched := s.hub.watched ||| BitVec.ofNat 23 (2 ^ p), beats := s.hub.beats.put p s.time.now } }) s

/-- A page found bad by the test of R120: RETIRED. -/
def retire (t : Tbl Page) (ps : List Nat) : Tbl Page :=
  ps.foldl (fun t p => t.set {} p { fresh := false, st := 3 }) t

/-- The loss of TIMEREF recorded and reported (R38). -/
def State.noteTimeref (s : State) : State :=
  (({ s with time := { s.time with unnoted := false } } : State).logEv 0x0004 1 0 0 0 [0, 0, 0]).devChangeAll 0x1C

/-- MANAGEMENT_STAGE (step 2 of R517): first AVSBus command with every rail at OP2, links trained, stores zeroed and
tested, log scanned, management watchdog armed; then memory training begins. -/
def execManagementStage (linkFault : Option Nat) (cmFailed rsFailed : List Nat) (s : State) : Out :=
  if !(s.pins.porstN && s.hub.booting && s.hub.stage == 1 && !s.hub.holdReset) then .next s
  else
    let s := { s with hub := { s.hub with stage := 2 } }
    let s := ((List.range 10).filter s.clPresent).foldl (fun s c => s.emit (.avsWrite c 750)) s
    match linkFault with
    | some l => .next (s.halt 5 0 l (Config.lossCode (256 + 5)).toNat)
    | none =>
      let s := (if s.time.unnoted then s.noteTimeref else s).watch [0]
      .next { s with
        chip := { booted := true, cmPages := retire [] cmFailed, rsPages := retire [] rsFailed }
        hub := { s.hub with stage := 3, mgmtMs := (s.time.now - s.hub.bootE) / 1000000 % 65536, memReadyAt := s.time.now } }

/-- FIRMWARE_START (step 5 of R517). -/
def execFirmwareStart (s : State) : Out :=
  if !(s.pins.porstN && s.hub.booting && s.hub.stage == 5) || s.hub.watched.getLsbD 1 then .next s
  else
    let procs := (List.range 8).map (· + 1) ++ ((List.range 10).filter s.clPresent).map (· + 9) ++ [19, 20, 21, 22]
    let s := s.watch procs
    .next { s with loader := { s.loader with patchLocked := true } }

/-- The negotiation of a function (steps 3 and 3′ of R318): the engine implements revision 0x0100 alone. -/
def State.settleAhi (s : State) (f : Nat) : State :=
  s.updFn f fun g =>
    let lo := fld g.ahiRange.toNat 0 16
    let hi := fld g.ahiRange.toNat 16 16
    if lo ≤ 0x0100 ∧ 0x0100 ≤ hi then { g with chosen := 0x0100, agree := 2, heldNeg := false }
    else { g with chosen := 0, agree := 3, heldNeg := false }

/-- BOOT_READY (step 6 of R517; R519: held negotiations run). -/
def execBootReady (s : State) : Out :=
  if !(s.pins.porstN && s.hub.booting && s.hub.stage == 5 && s.hub.watched.getLsbD 1) then .next s
  else
    let s := { s with hub := { s.hub with
      stage := 6, booting := false, resetAsked := false, readyMs := (s.time.now - s.hub.bootE) / 1000000 % 65536
      patched := s.loader.patchLevel != 0 } }
    let held := s.funcs.keysWhere fun _ g => g.heldNeg
    .next ((held.foldl State.settleAhi s).logEv 0x0001 0 0 0 0 [0, 0, 0])

/-- ENGINE_RESET_REQUEST (R521, R522): the loss of the device when it is not lost, the pending records sealed, and the
hold. -/
def execEngineResetRequest (width value : Nat) (s : State) : Out :=
  if !s.pins.porstN then .next s
  else if width != 32 && width != 64 then .next (s.viol 0 3)
  else if fld value 0 16 != 0xD9E5 || s.pins.thermtrip || s.hub.resetAsked then .next (s.viol 0 4)
  else
    let s := if s.hub.lost then s else s.deviceLoss 9 0 0 (Config.lossCode 9).toNat [0x0802, 0, 9]
    let s := s.flushCoalesced
    let s := s.log.queue.foldl State.seal { s with log := { s.log with queue := [] } }
    .next s.engineReset

/-- ENGINE_RESET_HOLD_END (R522 step 3): 1 ms after the hold began, event E. -/
def execEngineResetHoldEnd (romOk fuseOk : Bool) (s : State) : Out :=
  if !s.hub.holdReset then .next s
  else
    let s := s.atTime (s.hub.bootE + 1000000)
    .next ({ s with hub := { s.hub with holdReset := false } }.bootStep1 romOk fuseOk)

/-- The interval after which a processor's watchdog expires, in ns (R524). -/
def wdogInterval (p : Nat) : Nat := if p < 19 then 100000000 else 1000000000

/-- UNIT_KIND and UNIT of a watched processor's records (R507): a cluster sequencer names its cluster, a host-class core
itself. -/
def procUnit (p : Nat) : Nat × Nat := if p < 9 then (0, p) else if p < 19 then (1, p - 9) else (8, p - 19)

/-- WATCHDOG_HEARTBEAT (R524): stamped t on the device time base. -/
def execWatchdogHeartbeat (proc t : Nat) (s : State) : Out :=
  if 23 ≤ proc then .fault (.noSuchUnit "processor")
  else if !s.hub.watched.getLsbD proc then .next s
  else
    let s := s.atTime t
    .next { s with hub := { s.hub with beats := s.hub.beats.put proc t } }

/-- WATCHDOG_EXPIRY (R524). -/
def execWatchdogExpiry (proc : Nat) (s : State) : Out :=
  if 23 ≤ proc then .fault (.noSuchUnit "processor")
  else if !s.hub.watched.getLsbD proc || !s.pins.porstN then .next s
  else
    let s := s.atTime (s.hub.beats.get 0 proc + wdogInterval proc)
    let s := { s with hub := { s.hub with wdog := s.hub.wdog ||| BitVec.ofNat 23 (2 ^ proc) } }
    .next (s.uncontained 8 (procUnit proc).1 (procUnit proc).2 0x0002 [0x0802, 0, 8])

/-- FIRMWARE_ASSERTION (R526, CAUSE 7). -/
def execFirmwareAssertion (proc : Nat) (s : State) : Out :=
  if 23 ≤ proc then .fault (.noSuchUnit "processor")
  else if !s.pins.porstN then .next s
  else .next (s.uncontained 7 (procUnit proc).1 (procUnit proc).2 0x0003 [0x0802, 0, 7])

/-- DIE_TO_DIE_LINK_FAILURE (R526, CAUSE 10): a link that loses training while the engine runs. -/
def execDieToDieLinkFailure (link : Nat) (s : State) : Out :=
  if s.pins.porstN && decide (3 ≤ s.hub.stage) then
    .next (s.uncontained 10 0 link (Config.lossCode 10).toNat [0x0802, 0, 10])
  else .next s

/-- HBM_REFCLK_LOST (R40, R37): an uncontained fault for a present cluster. -/
def execHbmRefclkLost (cluster : Nat) (s : State) : Out :=
  if 10 ≤ cluster then .fault (.noSuchUnit "HBM_REFCLK")
  else
    let s := { s with pins := { s.pins with hbmRefAbsent := s.pins.hbmRefAbsent.put cluster true } }
    if s.pins.porstN && s.clPresent cluster then
      .next (s.uncontained 4 1 cluster (Config.lossCode 4).toNat [0x0802, 0, 4])
    else .next s

/-- TIMEREF_LOST (R38): the time base goes on from the oscillator whenever the engine is out of power-on reset; the record
and the event wait for the management firmware where it does not run yet. -/
def execTimerefLost (s : State) : Out :=
  let s' := { s with pins := { s.pins with timeref := false } }
  if s.pins.porstN && s.pins.timeref then
    let s' := { s' with time := { s'.time with onOsc := true, degraded := true, lostAt := s.time.now, returnedAt := none, unnoted := true } }
    .next (if s.hubUp then s'.noteTimeref else s')
  else .next s'

/-- TIMEREF_RETURN (R38): TIMEREF has returned and been stable for 1 ms; the engine counts from it again, and
synchronisation starts afresh at acquiring. -/
def execTimerefReturn (s : State) : Out :=
  let s' := { s with pins := { s.pins with timeref := true } }
  if s.pins.porstN && s.time.onOsc then
    .next { s' with time := { s'.time with onOsc := false, returnedAt := some s.time.now, sync := 1, inLock := 0 } }
  else .next s'

/-- TIME_DEGRADED_CLEAR (R38): once synchronisation is locked, or with SYNC_EN 0, 1 ms after the return, when the record
carries the length of the outage and the bound on the error. That DATA words 1 and 2 carry them, and that the bound of 2 % is
rounded down, is the model's choice (DESIGN CHOICE, log entry 76): R38 gives no places. -/
def execTimeDegradedClear (s : State) : Out :=
  match s.time.returnedAt with
  | none => .next s
  | some r =>
    let syncEn := s.hzn.timeCtrl.getLsbD 7
    if !s.time.degraded || s.time.onOsc || (syncEn && s.time.sync != 2) || !s.hubUp then .next s
    else
      let out := r - s.time.lostAt
      let s := { s with time := { s.time with degraded := false, returnedAt := none } }
      .next ((s.logEv 0x0005 0 0 0 0 (if syncEn then [0, 0, 0] else [0, out, out * 2 / 100])).devChangeAll 0x1C)

/-- TAP_INSTRUCTION (R52, R53, R54): the instruction is loaded, and executed as the lock and PORST_N allow. -/
def execTapInstruction (code : TapCode) (s : State) : Out :=
  let s := { s with tap := code }
  .next (s.emit (.tap s.tapRuns))

end Sys2Proof.Machine
end

