-- ==== Sys2Proof/Machine/Crc.lean ====
section
/-! DEFINITION. Cyclic redundancy checks: CRC-16 of the HBM code (R283), CRC-32 of horizon frames (R400) and CRC-32C of
log records (R507). -/

namespace Sys2Proof.Machine

/-- One bit of a most-significant-first CRC of width w. -/
def crcMsbBit (w poly crc : Nat) : Nat :=
  if crc.testBit (w - 1) then (2 * crc % 2 ^ w) ^^^ poly else 2 * crc % 2 ^ w

/-- f applied n times. -/
def iter {α : Type} (f : α → α) : Nat → α → α
  | 0, a => a
  | n + 1, a => iter f n (f a)

/-- CRC-16, polynomial 0x1021, initial value 0xFFFF, most significant bit first, not reflected, no final XOR (R283). -/
def crc16 (bs : List Byte) : Nat :=
  bs.foldl (fun c b => iter (crcMsbBit 16 0x1021) 8 (c ^^^ (b.toNat * 256))) 0xFFFF

/-- One bit of a reflected CRC with the reflected polynomial. -/
def crcLsbBit (poly crc : Nat) : Nat := if crc % 2 = 1 then (crc / 2) ^^^ poly else crc / 2

/-- A reflected CRC-32 with all-ones start and final complement. -/
def crcReflected (poly : Nat) (bs : List Byte) : Nat :=
  bs.foldl (fun c b => iter (crcLsbBit poly) 8 (c ^^^ b.toNat)) 0xFFFFFFFF ^^^ 0xFFFFFFFF

/-- CRC-32 with the IEEE 802.3 polynomial (R400), in that standard's bit order (PRESUMED, log entry 13). -/
def crc32 (bs : List Byte) : Nat := crcReflected 0xEDB88320 bs

/-- CRC-32C with the polynomial 0x1EDC6F41 (R507), in the usual bit order (PRESUMED, log entry 13). -/
def crc32c (bs : List Byte) : Nat := crcReflected 0x82F63B78 bs

end Sys2Proof.Machine
end

