-- ==== Sys2Proof/Machine/Ecc.lean ====
section
/-! DEFINITION. The code of an HBM line: 64 data bytes, the spare, CRC-16 and RS(72, 68) over GF(2^8) (R282, R283). -/

namespace Sys2Proof.Machine

/-- Multiplication by α = 2 in GF(2^8) with the polynomial 0x11D. -/
def gfDouble (a : Nat) : Nat := if a < 128 then 2 * a else (2 * a) ^^^ 0x11D

/-- Product in GF(2^8). -/
def gfMul (a b : Nat) : Nat :=
  ((List.range 8).foldl (fun (r : Nat × Nat) i => (if b.testBit i then r.1 ^^^ r.2 else r.1, gfDouble r.2)) (0, a)).1

/-- a^n in GF(2^8). -/
def gfPow (a n : Nat) : Nat := iter (gfMul a) n 1

/-- 1/a in GF(2^8), a ≠ 0. -/
def gfInv (a : Nat) : Nat := gfPow a 254

/-- The coefficients of g(x) = (x - 1)(x - 2)(x - 4)(x - 8), highest first, without the leading 1. -/
def rsGen : List Nat := [15, 54, 120, 64]

/-- The four check symbols of 68 message symbols: x⁴ m(x) mod g(x), highest coefficient first. -/
def rsCheck (m : List Nat) : List Nat :=
  m.foldl (fun r a =>
    let f := a ^^^ r.getD 0 0
    let r' := r.drop 1 ++ [0]
    r'.zipWith (fun x g => x ^^^ gfMul f g) rsGen) [0, 0, 0, 0]

/-- Syndrome j of a codeword, highest coefficient first: c(α^j). -/
def rsSyndrome (c : List Nat) (j : Nat) : Nat :=
  let x := gfPow 2 j
  c.foldl (fun acc a => gfMul acc x ^^^ a) 0

/-- α^(71 - i): the locator of symbol i. -/
def rsLoc (i : Nat) : Nat := gfPow 2 (71 - i)

/-- The decoder of R283: none on failure; otherwise the codeword delivered, and whether a correction was made. It corrects
every pattern of up to two erroneous symbols. -/
def rsDecode (c : List Nat) : Option (List Nat × Bool) :=
  let s0 := rsSyndrome c 0
  let s1 := rsSyndrome c 1
  let s2 := rsSyndrome c 2
  let s3 := rsSyndrome c 3
  if s0 = 0 ∧ s1 = 0 ∧ s2 = 0 ∧ s3 = 0 then some (c, false)
  else
    let one := (List.range 72).find? fun i =>
      let x := rsLoc i
      s0 != 0 && gfMul s0 x == s1 && gfMul s1 x == s2 && gfMul s2 x == s3
    match one with
    | some i => some (c.modify i (· ^^^ s0), true)
    | none =>
      let locs := (List.range 72).map fun i => (i, rsLoc i)
      let two := locs.findSome? fun (i, x) => locs.findSome? fun (j, y) =>
        if j ≤ i then none
        else
          let ej := gfMul (s1 ^^^ gfMul s0 x) (gfInv (x ^^^ y))
          let ei := s0 ^^^ ej
          if ei != 0 && ej != 0
              && gfMul ei (gfMul x x) ^^^ gfMul ej (gfMul y y) == s2
              && gfMul ei (gfMul x (gfMul x x)) ^^^ gfMul ej (gfMul y (gfMul y y)) == s3 then
            some (i, ei, j, ej)
          else none
      match two with
      | some (i, ei, j, ej) => some ((c.modify i (· ^^^ ei)).modify j (· ^^^ ej), true)
      | none => none

/-- The spare's bytes 0 to 3 for a line of 64 data bytes (R282). -/
def spareHead (data : List Byte) (tag : Nat) (poison nonctx : Bool) : List Byte :=
  let h := leBytes 1 tag ++ leBytes 1 (b2n poison + 2 * b2n nonctx)
  h ++ leBytes 2 (crc16 (data ++ h))

/-- The 72 symbols of a line as the controller stores it. -/
def encodeLine (data : List Byte) (tag : Nat) (poison nonctx : Bool) : List Nat :=
  let m := (data ++ spareHead data tag poison nonctx).map BitVec.toNat
  m ++ rsCheck m

/-- A line as the decoder delivers it. -/
structure Line where
  data : List Byte
  tag : Nat
  poison : Bool
  nonctx : Bool
  corrected : Bool

/-- A read of 72 stored symbols: none where the line is uncorrectable (first row of R286). -/
def decodeLine (c : List Nat) : Option Line :=
  match rsDecode c with
  | none => none
  | some (w, corrected) =>
    let bs := w.map (BitVec.ofNat 8)
    let data := bs.take 64
    if crc16 (bs.take 66) = leAt bs 66 2 then
      some { data, tag := leAt bs 64 1, poison := bit (leAt bs 65 1) 0, nonctx := bit (leAt bs 65 1) 1, corrected }
    else none

end Sys2Proof.Machine
end

