-- ==== Sys2Proof/Machine/Log.lean ====
section
/-! DEFINITION. The Bittern log's writer and read-out, telemetry and performance counters (R507 to R515). -/

namespace Sys2Proof.Machine

/-- The 64 bytes of a sealed record (R507). -/
def LogRec.bytes (r : LogRec) : List Byte :=
  let b := leBytes 4 r.seq ++ leBytes 8 r.time ++ leBytes 2 r.code
    ++ leBytes 1 (r.cls % 4 + 4 * b2n r.coalesced + 8 * b2n r.unlocked) ++ leBytes 1 r.ctx ++ leBytes 4 r.count
    ++ leBytes 4 (r.unitKind % 256 + 256 * r.unit) ++ ((r.data ++ [0, 0, 0, 0]).take 4).flatMap (leBytes 8)
    ++ leBytes 4 r.boot
  b ++ leBytes 4 (crc32c b)

/-- The circular region's records by age, the oldest first (R512). -/
def BitLog.byAge (l : BitLog) : List LogRec :=
  ((l.circ.filter fun e => decide (l.wpos ≤ e.1)) ++ (l.circ.filter fun e => decide (e.1 < l.wpos))).map Prod.snd

/-- A record of a region by age (R504, R512). -/
def BitLog.nth (l : BitLog) (ff : Bool) (i : Nat) : Option LogRec := (if ff then l.ff else l.byAge)[i]?

/-- MGT_LOG_STATUS (R512). -/
def BitLog.status (l : BitLog) : Nat :=
  l.nextSeq + 2 ^ 32 * l.ff.length + 2 ^ 47 * b2n (decide (ffSlots ≤ l.ff.length))

/-- LOG_WRITE (R508): the writer drains the queue in order; once there is room, the drops are recorded. -/
def execLogWrite (s : State) : Out :=
  match s.log.queue with
  | [] => .next s
  | r :: q =>
    if !s.hubUp then .next s
    else
      let s := { s with log := { s.log with queue := q } }.seal r
      if 0 < s.log.dropped then
        let d := { s.logRec 0xF0FE 1 0 0 0 [0, 0, 0] with count := s.log.dropped }
        .next { s with log := { s.log with queue := s.log.queue ++ [d], dropped := 0 } }
      else .next s

/-- COALESCING_WINDOW_END (R510): at the end of the minute. -/
def execCoalescingWindowEnd (s : State) : Out :=
  if !s.hubUp then .next s
  else
    let (s, w) := s.endWindow s.log.window 60000000000
    .next ({ s with log := { s.log with window := w } } : State).flushCoalesced

/-- CLEAR_FF (R511): the first-failure region moves to the 16 blocks that follow the write block in writing order; the
previous first-failure blocks take their place in the circular region, with what they hold. -/
def BitLog.clearFf (l : BitLog) : BitLog :=
  let b := l.wpos / 1024
  let at_ := fun i => (b + 1 + i) % 112
  let circ := l.circ.filter fun e => !((List.range 16).any fun i => at_ i == e.1 / 1024)
  let circ := l.ff.zipIdx.foldl (fun c (r, i) => Tbl.put c (at_ (i / 1024) * 1024 + i % 1024) r) circ
  { l with
    circ, ff := []
    ffBlocks := tab 16 fun i => l.circBlocks.getD (at_ i) 0
    circBlocks := (List.range 16).foldl (fun m i => m.set (at_ i) (l.ffBlocks.getD i 0)) l.circBlocks }

/-- CLEAR_FF: the write of 1 to MGT_LOG_CTRL by PF0. -/
def execClearFf (s : State) : Out :=
  if s.hubUp then .next { s with log := s.log.clearFf } else .next s

/-! ### Performance counters (R513) -/

/-- EVENT of counter j of a cluster. -/
def Cluster.event (k : Cluster) (j : Nat) : Nat := fld (if j < 8 then k.sel0 else k.sel1).toNat (8 * (j % 8)) 8

/-- n occurrences of an event on cluster c: every counter that counts it moves; a wrap sets OVF and, with OVF_IRQ,
sends PF0's telemetry vector. -/
def State.perf (s : State) (c ev n : Nat) : State :=
  let k := s.cl c
  let js := (List.range 16).filter fun j => k.event j == ev && ev != 0
  if js.isEmpty || n == 0 then s
  else
    let wraps := js.filter fun j => decide (2 ^ 48 ≤ k.counts.get 0 j + n)
    let s := s.updCl c fun k => { k with
      counts := js.foldl (fun t j => t.upd 0 j fun v => (v + n) % 2 ^ 48) k.counts
      ovf := wraps.foldl (fun o j => o ||| BitVec.ofNat 16 (2 ^ j)) k.ovf }
    if !wraps.isEmpty && s.telem.cfg.getLsbD 30 then s.sendMsix 0 (fld s.telem.cfg.toNat 19 11) else s

/-! ### Telemetry (R514, R515) -/

/-- Fields of MGT_TELEM_CFG. -/
def Telem.log2 (t : Telem) : Nat := fld t.cfg.toNat 0 5
def Telem.period (t : Telem) : Nat := fld t.cfg.toNat 5 14
def Telem.vector (t : Telem) : Nat := fld t.cfg.toNat 19 11
def Telem.en (t : Telem) : Bool := t.cfg.getLsbD 31

/-- TELEMETRY_ENABLE (R515): a write to MGT_TELEM_CFG with EN 1. Fields out of range clear EN and count BAD_SETUP; while
EN is 1 the other fields are locked. -/
def execTelemetryEnable (value : Nat) (s : State) : Out :=
  if !s.ready || s.telem.en then .next s
  else
    let t := { s.telem with cfg := BitVec.ofNat 64 (fld value 0 31 + 2 ^ 31) }
    if 6 ≤ t.log2 ∧ t.log2 ≤ 16 ∧ 1 ≤ t.period ∧ t.period ≤ 10000 ∧ t.vector < s.ownedVectors 0 then
      .next { s with telem := { t with seq := 0, pos := 0, readPos := 0 } }
    else .next ({ s with telem := { t with cfg := BitVec.ofNat 64 (fld value 0 31) } }.viol 0 7)

/-- One cluster's byte of a sample: POINT, PACE_LOW, THROTTLE, CEILING. -/
def Cluster.telemByte (k : Cluster) : Nat :=
  k.point % 8 + 8 * b2n k.paceLow + 16 * b2n k.throttle + 32 * b2n (decide (k.point < 2))

/-- The 64 bytes of a sample (R514). -/
def State.sample (s : State) : List Byte :=
  let hot := if s.power.temps.isEmpty then 0 else s.power.temps.get 0x8000 s.power.sensor
  leBytes 8 s.time.now ++ leBytes 4 s.telem.seq ++ leBytes 2 s.power.mean ++ leBytes 2 hot
    ++ (List.range 10).flatMap (fun c => leBytes 1 (s.cl c).telemByte) ++ leBytes 6 0
    ++ (List.range 4).flatMap (fun k =>
      let f := fld s.telem.sel.toNat (8 * k) 8
      leBytes 8 ((s.cl (f / 16)).counts.get 0 (f % 16)))

/-- TELEMETRY_SAMPLE (R514, R515): written to the ring, or dropped and counted when it is full; SEQ advances. -/
def execTelemetrySample (s : State) : Out :=
  if !(s.hubUp && s.telem.en) || s.hub.lost then .next s
  else
    let t := s.telem
    let again := s.hostMem.rdLE (t.consumed.toNat / 4 * 4) 4
    let readPos := if cdist 32 t.pos t.readPos = 2 ^ t.log2 ∧ cdist 32 t.pos again ≤ 2 ^ t.log2 then again else t.readPos
    let s' := if cdist 32 t.pos t.readPos = 2 ^ t.log2 ∧ 2 ^ t.log2 < cdist 32 t.pos again then s.viol 0 6 else s
    if cdist 32 t.pos readPos = 2 ^ t.log2 then
      .next { s' with telem := { t with seq := (t.seq + 1) % 2 ^ 32, readPos, overrun := satinc 32 t.overrun } }
    else
      let a := t.base.toNat / 4096 * 4096 + 64 * (t.pos % 2 ^ t.log2)
      .next { s'.postHost 0 0 a s.sample with telem := { t with seq := (t.seq + 1) % 2 ^ 32, pos := (t.pos + 1) % 2 ^ 32, readPos } }

end Sys2Proof.Machine
end

