-- ==== Sys2Proof/Machine/Hbm.lean ====
section
/-! DEFINITION. External memory: the device memory map, lines and their checks, the tag directory, translation, object
pages, and the stacks' training and upkeep (09_memory_and_protection). -/

namespace Sys2Proof.Machine

/-! ### The map (R279 to R281) -/

/-- Data capacity of stack k in bytes (R279). -/
def State.dataBytes (s : State) (k : Nat) : Nat :=
  let cap := (s.stk k).gib * 2 ^ 30
  if s.hbm.inlineEcc then cap * 8 / 9 / 2 ^ 21 * 2 ^ 21 else cap

/-- The top 512 MiB of a stack's data range is engine-private (R281). -/
def privateBytes : Nat := 2 ^ 29

/-- Whether pa lies in the data of a trained stack (R279). -/
def State.paData (s : State) (pa : Nat) : Bool :=
  let k := pa / 2 ^ 36
  decide (k < 20) && (s.stk k).st == 1 && decide (pa % 2 ^ 36 < s.dataBytes k)

/-- Pseudo-channel of a data offset (R280). -/
def pseudoChannel (o : Nat) : Nat := let seg := o / 2048; (seg ^^^ (seg / 64) ^^^ (seg / 4096)) % 64

/-- Segment within its pseudo-channel, and line within its segment (R280). -/
def segIdx (o : Nat) : Nat := o / 2048 / 64
def segLine (o : Nat) : Nat := o / 64 % 32

/-- Bytes of a raw segment: 32 data lines, and in inline mode 4 metadata lines after them (R280, R285). -/
def Hbm.rawSegment (h : Hbm) : Nat := if h.inlineEcc then 2304 else 2048

/-- Where inline mode keeps the spare of the data line at an offset: the line of the raw segment, and the byte of that line (R285). -/
def metaPlace (o : Nat) : Nat × Nat := (32 + segLine o / 8, 8 * (segLine o % 8))

/-- pa lies in the engine-private part of its stack's data range (R281). -/
def State.isPrivate (s : State) (pa : Nat) : Bool := decide (s.dataBytes (pa / 2 ^ 36) ≤ pa % 2 ^ 36 + privateBytes)

/-- pa lies in the loader's staging area: 512 MiB that the engine takes at boot, below the engine-private part of one
stack (chapter 14, Loading; log entry 54). -/
def State.isStaging (s : State) (pa : Nat) : Bool :=
  s.hbm.staging == some (pa / 2 ^ 36) && decide (s.dataBytes (pa / 2 ^ 36) ≤ pa % 2 ^ 36 + 2 * privateBytes)

/-- The directory entry of the sub-page of pa (R290); engine-private and staging sub-pages are in state ENGINE. -/
def State.dirAt (s : State) (pa : Nat) : DirEntry :=
  if s.isPrivate pa || s.isStaging pa then { st := 2 } else s.hbm.dir.get {} (pa / 65536)

/-- A directory entry changed; only firmware does (R290). -/
def State.setDir (s : State) (sub : Nat) (e : DirEntry) : State :=
  { s with hbm := { s.hbm with dir := s.hbm.dir.set {} sub e } }

/-! ### Lines (R282 to R289) -/

/-- The 72 symbols stored for line l (pa / 64): the codeword of its data and spare, with the bytes that differ. -/
def State.storedLine (s : State) (l : Nat) : List Nat :=
  let e := s.dirAt (64 * l)
  let p := s.hbm.poison.contains l
  let c := encodeLine (if p then leBytes 64 0 else s.hbm.data.rdN (64 * l) 64) e.tag p (e.st != 1)
  c.zipIdx.map fun (x, i) => x ^^^ (s.hbm.flips.rd (72 * l + i)).toNat

/-- Line l holds no byte that differs from its codeword. -/
def Hbm.cleanLine (h : Hbm) (l : Nat) : Bool := h.flips.all fun e => e.1 / 72 != l

/-- The line as it reads: without differing bytes the decoder delivers what was written (R286). -/
def State.readStored (s : State) (l : Nat) : Option Line :=
  if s.hbm.cleanLine l then
    let e := s.dirAt (64 * l)
    let p := s.hbm.poison.contains l
    some { data := if p then leBytes 64 0 else s.hbm.data.rdN (64 * l) 64, tag := e.tag, poison := p, nonctx := e.st != 1, corrected := false }
  else decodeLine (s.storedLine l)

/-- Fresh check symbols on line l: no byte differs any more. -/
def Hbm.refresh (h : Hbm) (l : Nat) : Hbm := { h with flips := h.flips.filter fun e => e.1 / 72 != l }

/-- Line l poisoned (R288). -/
def State.poisonLine (s : State) (l : Nat) : State :=
  let h := s.hbm.refresh l
  let h := { h with
    poison := if h.poison.contains l then h.poison else h.poison ++ [l]
    data := h.data.filter fun e => e.1 / 64 != l }
  { s with hbm := h }.updStk (l * 64 / 2 ^ 36) fun k => { k with poisonCount := satinc 32 k.poisonCount }

/-- A correction counted and written back (R287, R289). -/
def State.correctLine (s : State) (l : Nat) (data : List Byte) : State :=
  let k := l * 64 / 2 ^ 36
  let s := { s with hbm := { s.hbm.refresh l with data := (s.hbm.refresh l).data.wrN (64 * l) data } }
  (s.updStk k fun x => { x with ce := satinc 32 x.ce }).logCo 0x2001 0 4 k 0 [0, 0, 64 * l]

/-- CLS_HBM_LAST_ERR takes the first uncorrectable error since VALID was cleared (R289). -/
def State.noteUe (s : State) (l : Nat) (scrub : Bool) : State :=
  let k := l * 64 / 2 ^ 36
  let o := l * 64 % 2 ^ 36
  let e := s.dirAt (64 * l)
  let v := o + 2 ^ 36 * pseudoChannel o + 2 ^ 42 * b2n scrub + 2 ^ 43 * b2n (e.st != 1) + 2 ^ 44 * e.tag + 2 ^ 52
  s.updStk k fun x => { x with ue := satinc 32 x.ue, lastErr := if x.lastErr.getLsbD 52 then x.lastErr else BitVec.ofNat 64 v }

/-- pa lies in a translation table (R281, R295). -/
def State.isTable (s : State) (pa : Nat) : Bool := s.trans.any fun e => e.2.subs.contains (pa / 65536)

/-- A line as the controller fetches it: a transfer error that the interface reports is tried again, at most 3 times (R286). -/
def State.fetchLine (s : State) (l : Nat) : Option Line × State :=
  let n := s.hbm.xfer.get 0 l
  ((if 4 ≤ n then none else s.readStored l), { s with hbm := { s.hbm with xfer := s.hbm.xfer.set 0 l (n - 4) } })

/-- An uncorrectable read of line l: counted, poisoned, logged; a line of a translation table, or of the engine's private
structures, is an uncontained fault (R288, R305). -/
def State.uncorrectable (s : State) (l : Nat) (scrub : Bool) (ctx : Nat) : State :=
  let k := l * 64 / 2 ^ 36
  let s := (s.noteUe l scrub).poisonLine l
  let d := [0x0204, (s.stk k).lastErr.toNat, 64 * l]
  if s.isPrivate (64 * l) || s.isTable (64 * l) then s.uncontained 5 4 k 0x2002 d
  else if scrub then s.logEv 0x2003 1 4 k 0 d else s.logEv 0x2002 2 4 k ctx d

/-- A context's read of line l under R286, with the expected tag: its 64 bytes or a status, and what the read does. -/
def State.readLine (s : State) (l tag ctx : Nat) : Except Nat (List Byte) × State :=
  match s.fetchLine l with
  | (none, s) => (.error 0x0204, s.uncorrectable l false ctx)
  | (some x, s) =>
    if x.nonctx || x.tag != tag then (.error 0x0203, s)
    else if x.poison then (.error 0x0205, s)
    else (.ok x.data, if x.corrected then s.correctLine l x.data else s)

/-- The write check of R291 on line l; a write of part of a line reads it first. -/
def State.writeCheck (s : State) (l tag ctx : Nat) (whole : Bool) : Except Nat Unit × State :=
  let e := s.dirAt (64 * l)
  if e.st != 1 || e.tag != tag then (.error 0x0203, s)
  else if whole then (.ok (), s)
  else match s.readLine l tag ctx with
    | (.ok _, s) => (.ok (), s)
    | (.error x, s) => (.error x, s)

/-- HBM bytes written at commit: a line written whole loses its POISON, and every written line has fresh check symbols. -/
def State.putHbm (s : State) (ws : List (Nat × Byte)) : State :=
  let lines := (ws.map fun e => e.1 / 64).dedup
  let full := lines.filter fun l => (List.range 64).all fun i => ws.any fun e => e.1 == 64 * l + i
  let h := s.hbm
  let s := { s with hbm := { h with
    data := ws.foldl (fun m e => m.wr e.1 e.2) h.data
    poison := h.poison.filter fun l => !full.contains l
    flips := h.flips.filter fun e => !lines.contains (e.1 / 72) } }
  lines.foldl (fun s l => s.perf (l * 64 / 2 ^ 36 / 2) 0x07 1) s

/-! ### Object pages (R300, R302) -/

/-- The 2 MiB pages (pa / 2²¹) of stack k that hold a sub-page that is not FREE. -/
def State.takenPages (s : State) (k : Nat) : List Nat :=
  ((s.hbm.dir.filter fun e => e.1 / 2 ^ 20 == k && e.2.st != 0).map fun e => e.1 / 32).dedup

/-- A FREE page of stack k outside a list: the lowest (DESIGN CHOICE, log entry 15). -/
def State.freePage (s : State) (k : Nat) (used : List Nat) : Option Nat :=
  let taken := s.takenPages k ++ used
  let first := k * 2 ^ 15
  let n := (s.dataBytes k - privateBytes - (if s.hbm.staging = some k then privateBytes else 0)) / 2 ^ 21
  if (s.stk k).st != 1 then none
  else ((List.range (min n (taken.length + 1))).map (first + ·)).find? fun p => !taken.contains p

/-- Pages taken round-robin over a set of stacks, each turn at the next stack that has one (R300). -/
def State.takePages (s : State) (set : List Nat) : Nat → Nat → List Nat → Option (List Nat)
  | 0, _, got => some got.reverse
  | n + 1, turn, got =>
    match (List.range set.length).findSome? fun i =>
      (s.freePage (set.getD ((turn + i) % set.length) 0) got).map fun p => (p, turn + i + 1) with
    | some (p, t) => s.takePages set n t (p :: got)
    | none => none

/-- The pages of an object of a size in bytes on a set of stacks (R300). -/
def State.pagesFor (s : State) (set : List Nat) (size : Nat) : Option (List Nat) := s.takePages set (cdiv size (2 ^ 21)) 0 []

/-- The trained stacks of the clusters that hold cores of a partition (R300's default set). -/
def State.defaultStacks (s : State) (p : Nat) : List Nat :=
  (List.range 20).filter fun k => (s.stk k).st == 1 && (s.pt p).usesCl (k / 2)

/-- The sub-pages (pa / 65536) of an object of a number of sub-pages on its pages (R300). -/
def objSubs (pages : List Nat) (subs : Nat) : List Nat :=
  pages.zipIdx.flatMap fun (p, i) => (List.range (min 32 (subs - 32 * i))).map (32 * p + ·)

/-- FREE sub-pages for the engine's own structures, in ascending order over a set of stacks: translation tables and section copies take
them from the pool (R281; which ones is the model's choice: the lowest, DESIGN CHOICE, log entry 15). -/
def State.freeSubs (s : State) (set : List Nat) (want : Nat) : Option (List Nat) :=
  let got := (set.flatMap fun k =>
    let taken := ((s.hbm.dir.filter fun e => e.1 / 2 ^ 20 == k && e.2.st != 0).map Prod.fst)
    let n := if (s.stk k).st = 1 then (s.dataBytes k - privateBytes - (if s.hbm.staging = some k then privateBytes else 0)) / 65536 else 0
    (((List.range (min n (taken.length + want))).map (k * 2 ^ 20 + ·)).filter fun x => !taken.contains x).take want).take want
  if got.length = want then some got else none

/-- Sub-pages moved to a state of the directory. -/
def State.moveSubs (s : State) (subs : List Nat) (e : DirEntry) : State := subs.foldl (fun s x => s.setDir x e) s

/-- The lines of a sub-page written with zero data and fresh check symbols. -/
def State.zeroSub (s : State) (sub : Nat) : State :=
  { s with hbm := { s.hbm with
    data := s.hbm.data.filter fun e => e.1 / 65536 != sub
    poison := s.hbm.poison.filter fun l => l / 1024 != sub
    flips := s.hbm.flips.filter fun e => e.1 / 72 / 1024 != sub } }

/-- An object whose reference count is 0: its leaves are gone and every sub-page goes to ZEROING (R302). -/
def State.freeObj (s : State) (h : Nat) : State :=
  let o := s.ob h
  let named := s.secs.any fun e => !e.2.swapped && e.2.objs.contains h
  if o.live && o.maps.isEmpty && !named then
    let subs := objSubs o.pages (cdiv o.size 65536)
    (if o.host.isSome then s else s.moveSubs subs { st := 3 }).updOb h fun _ => {}
  else s

/-! ### Stacks (R276 to R278, R304 to R306) -/

/-- The organisations of R274: 12-high and 16-high stacks of 32 Gb dies. -/
def stackOk (height gbits : Nat) : Bool := (height == 12 || height == 16) && gbits == 32

/-- The supported pin rates in 100 Mb/s (R274). -/
def pinRates : List Nat := [64, 80, 96, 112, 128]

/-- STACK_TRAINING (R276 steps 1 to 4, R277). -/
def execStackTraining (stack : Nat) (org : StackOrg) (rated margin : Nat) (lanes : Bool) (s : State) : Out :=
  if 20 ≤ stack then .fault (.noSuchUnit "stack")
  else if !(s.pins.porstN && s.hub.booting && s.hub.stage == 3 && s.stackFitted stack && (s.stk stack).st == 0) then .next s
  else
    let top := min s.part.hbmMaxRate (min rated margin)
    let rate := (pinRates.filter fun r => decide (r ≤ top)).getLastD 0
    if !stackOk org.height org.gbits || rate == 0 then
      .next ((s.updStk stack fun k => { k with st := 2 }).logEv 0x2004 1 4 stack 0 [0, 0, 0])
    else .next (s.updStk stack fun k => { k with st := 1, gib := org.height * org.gbits / 8, rate, lanes, trainedOnce := true })

/-- MEMORY_READY (R276 steps 5 to 7, R277): every fitted stack is trained or FAILED; the map is fixed and every line
written. -/
def execMemoryReady (s : State) : Out :=
  let fitted := (List.range 20).filter s.stackFitted
  if !(s.pins.porstN && s.hub.booting && s.hub.stage == 3) || fitted.any (fun k => (s.stk k).st == 0) then .next s
  else
    let ok := fitted.filter fun k => (s.stk k).st == 1
    let every := ((List.range 10).filter s.clPresent).all fun c => ok.any fun k => k / 2 == c
    let one := ok.all fun k => (s.stk k).gib == (s.stk (ok.headD 0)).gib
    if !(every && one) then
      .next (s.halt 6 4 ((fitted.find? fun k => (s.stk k).st == 2).getD 0) 0x2004)
    else
      let inlineEcc := !(s.part.eccInlineIntact && ok.all fun k => (s.stk k).lanes)
      .next { s with
        hbm := { s.hbm with data := [], poison := [], flips := [], xfer := [], dir := [], inlineEcc, ready := true, staging := ok.head? }
        loader := { s.loader with bootWaiting := s.part.bootWait != 0 }
        hub := { s.hub with
          stage := if s.part.bootWait = 0 then 5 else 4
          memMs := (s.time.now - s.hub.bootE) / 1000000 % 65536, memReadyAt := s.time.now } }

/-- G_HBM of a stack (R378). -/
def State.gHbm (s : State) (k : Nat) : Nat := if (s.stk k).st = 1 then 350 * (s.stk k).rate else 0

/-- RATE of a sluice register (layout under R374). -/
def sluRate (w : Word) : Nat := fld w.toNat 0 24
def sluCap (w : Word) : Bool := w.getLsbD 24
def sluDepth (w : Word) : Nat := fld w.toNat 32 24

/-- G_HZN_NOW (R378). -/
def State.gHznNow (s : State) : Nat :=
  1406 * (s.hzn.ports.map fun e => if e.2.st = 2 then e.2.lanes else 0).sum / 4

/-- OVERSUB of a partition by its definition (R378): the sum of RATE exceeds G at an instance its sluices use. -/
def State.isOversub (s : State) (p : Nat) : Bool :=
  let sum := fun (f : Partition → Word) => ((List.range 16).map fun q => sluRate (f (s.pt q))).sum
  (sluRate (s.pt p).sluHbm != 0 && (List.range 20).any fun k => (s.stk k).st == 1 && decide (s.gHbm k < sum Partition.sluHbm))
    || (sluRate (s.pt p).sluHzn != 0 && decide (s.gHznNow < sum Partition.sluHzn))

/-- PART_OVERSUB of the capability table (R378). -/
def State.oversubMask (s : State) : Nat := ((List.range 16).map fun p => b2n (s.pt p).oversub * 2 ^ p).sum

/-- OVERSUB of every partition brought up to date, with DEVICE records when the mask changes (R378). -/
def State.refreshOversub (s : State) : State :=
  let s' := (List.range 16).foldl (fun s p => s.updPt p fun q => { q with oversub := s.isOversub p }) s
  if s'.oversubMask = s.oversubMask then s' else s'.devChangeAll 0x105E

/-- A trained stack of a running engine. -/
def State.stackRuns (s : State) (k : Nat) : Bool := s.pins.porstN && s.hbm.ready && (s.stk k).st == 1

/-- REFRESH (R278): the stack is refreshed; no data changes. -/
def execRefresh (stack : Nat) (s : State) : Out :=
  if 20 ≤ stack then .fault (.noSuchUnit "stack")
  else if s.stackRuns stack then .next (s.updStk stack fun k => { k with refreshed := s.time.now })
  else .next s

/-- RETRAINING (R278): a failure lowers the rate by one step until the next engine reset, with a record; below 6.4 Gb/s
it is uncontained. -/
def execRetraining (stack pc : Nat) (passed : Bool) (s : State) : Out :=
  if 20 ≤ stack ∨ 64 ≤ pc then .fault (.noSuchUnit "pseudo-channel")
  else if !s.stackRuns stack || passed then .next s
  else
    let lower := (pinRates.filter fun r => decide (r < (s.stk stack).rate)).getLastD 0
    if lower = 0 then .next (s.uncontained 6 4 stack 0x2005 [0x0802, (s.stk stack).lastErr.toNat, 6])
    else
      let s := s.updStk stack fun k => { k with rate := lower }
      let s := s.logEv 0x2005 1 4 stack 0 [0, (s.stk stack).lastErr.toNat, 0]
      .next ((s.devChangeAll (0xC0 + 8 * stack)).devChangeAll (0x1000 + 4 * stack)).refreshOversub

/-! ### Scrubbing (R304, R306) -/

/-- Lines of one pseudo-channel of a stack: the segments of its data range are spread evenly. -/
def State.scrubLines (s : State) (k : Nat) : Nat := s.dataBytes k / 2048 / 64 * 32

/-- The place of a data offset in the visits to its pseudo-channel: segments in ascending idx (R304). In inline mode the metadata line
of eight data lines is visited with the last of them (DESIGN CHOICE, log entry 82). -/
def scrubPlace (o : Nat) : Nat := segIdx o * 32 + segLine o

/-- The idx that the present pass has reached on every pseudo-channel: POSITION of CLS_HBM_SCRUB (R306). -/
def Stack.position (k : Stack) : Nat := (List.range 64).foldl (fun m pc => min m (k.scrub.get 0 pc / 32)) (k.scrub.get 0 0 / 32)

/-- A visit counted; the pass ends when every pseudo-channel has had its lines (R304, R306). -/
def State.noteScrub (s : State) (k o : Nat) : State :=
  let t := (s.stk k).scrub.set 0 (pseudoChannel o) (scrubPlace o + 1)
  if (List.range 64).all fun pc => decide (s.scrubLines k ≤ t.get 0 pc) then
    s.updStk k fun x => { x with scrub := [], passes := satinc 32 x.passes, lastEnd := s.time.now }
  else s.updStk k fun x => { x with scrub := t }

/-! ### The controllers' registers (R289, R306). The manual gives them no offset (log entry 75). -/

/-- CLS_HBM_CE_COUNT, CLS_HBM_UE_COUNT, CLS_HBM_POISON_COUNT and CLS_HBM_LAST_ERR as they read. -/
def Stack.errRegs (k : Stack) : List Word := [BitVec.ofNat 64 k.ce, BitVec.ofNat 64 k.ue, BitVec.ofNat 64 k.poisonCount, k.lastErr]

/-- CLS_HBM_SCRUB and CLS_HBM_SCRUB_TIME as they read: PASSES in [31:0], POSITION in [55:32]. -/
def Stack.scrubRegs (k : Stack) : List Word := [BitVec.ofNat 64 (k.passes + 2 ^ 32 * k.position), BitVec.ofNat 64 k.lastEnd]

/-- A write of CLS_HBM_LAST_ERR: a 1 in VALID clears it. -/
def Stack.writeLastErr (k : Stack) (w : Word) : Stack :=
  if w.getLsbD 52 then { k with lastErr := k.lastErr &&& ~~~(BitVec.ofNat 64 (2 ^ 52)) } else k

end Sys2Proof.Machine
end

