-- ==== Sys2Proof/Machine/Translate.lean ====
section
/-! DEFINITION. Translation: the tables in external memory, the clusters' translation units, host windows, and the reads and writes of
context virtual addresses (R144, R145, R281, R291 to R299, R325). -/

namespace Sys2Proof.Machine

/-- Who makes an access: its context, the command, and the cluster whose translation unit serves it (none for the hub's processors). -/
structure Who where
  ctx : Nat
  ref : Option CmdRef := none
  cluster : Option Nat := none

/-- The partition of a context is in validated mode (R351). -/
def State.validated (s : State) (c : Nat) : Bool := (s.pt (s.cx c).part).mode == 1

/-- The contexts that share a context's translation (R294). -/
def State.translationPeers (s : State) (c : Nat) : List Nat :=
  if s.validated c then
    c :: s.ctxs.keysWhere fun d x => d != c && x.life != .free && x.part == (s.cx c).part
  else [c]

/-- The key of a context's translation: its own, or its partition's in validated mode (R294). -/
def State.transOf (s : State) (c : Nat) : Nat := if s.validated c then 256 + (s.cx c).part else c

/-! ### Entries (R296) -/

/-- A non-leaf entry: V, and the next table's physical address. -/
def tableEntry (pa : Nat) : List Byte := leBytes 8 (1 + pa / 4096 * 4096)

/-- The 16 bytes of a leaf. -/
def Leaf.bytes (l : Leaf) : List Byte :=
  leBytes 1 (b2n l.v + 2 * b2n l.r + 4 * b2n l.w + 8 * b2n l.shared) ++ leBytes 1 l.tag
    ++ leBytes 6 (l.pa * 2 ^ 21 % 2 ^ 48) ++ leBytes 4 l.subvalid.toNat ++ leBytes 4 l.obj

/-- The leaf of 16 bytes. -/
def Leaf.ofBytes (b : List Byte) : Leaf :=
  let f := leAt b 0 1
  { v := bit f 0, r := bit f 1, w := bit f 2, shared := bit f 3, tag := leAt b 1 1, pa := leAt b 2 6 / 2 ^ 21
    subvalid := BitVec.ofNat 32 (leAt b 8 4), obj := leAt b 12 4 }

/-! ### The tables, as firmware writes them (R281, R295, R298) -/

/-- Bytes that firmware writes into an engine structure in external memory. -/
def State.putEngine (s : State) (pa : Nat) (bs : List Byte) : State :=
  { s with hbm := { s.hbm.refresh (pa / 64) with data := (s.hbm.refresh (pa / 64)).data.wrN pa bs } }

/-- A table of a size for a translation, from its newest sub-page or from one more of the pool (R281, R295). -/
def State.newTable (s : State) (t set : List Nat) (tid size : Nat) : Option (Nat × State) :=
  let x := s.trans.get {} tid
  let u := cdiv x.used size * size
  match t with
  | p :: _ =>
    if u + size ≤ 65536 then some (65536 * p + u, { s with trans := s.trans.put tid { x with used := u + size } })
    else (s.freeSubs set 1).map fun q => (65536 * q.headD 0,
      (s.moveSubs q { st := 2 }).zeroSub (q.headD 0) |> fun s => { s with trans := s.trans.put tid { x with subs := q ++ x.subs, used := size } })
  | [] => (s.freeSubs set 1).map fun q => (65536 * q.headD 0,
      (s.moveSubs q { st := 2 }).zeroSub (q.headD 0) |> fun s => { s with trans := s.trans.put tid { x with subs := q, used := size } })

/-- The table that an entry of a table names; a new one is made and entered where there is none. -/
def State.subTable (s : State) (set : List Nat) (tid pa size : Nat) : Option (Nat × State) :=
  let e := leNat (s.hbm.data.rdN pa 8)
  if bit e 0 then some (fld e 12 36 * 4096, s)
  else (s.newTable (s.trans.get {} tid).subs set tid size).map fun (q, s) => (q, s.putEngine pa (tableEntry q))

/-- The level-1 table of a translation, made when it has none. -/
def State.rootTable (s : State) (set : List Nat) (tid : Nat) : Option (Nat × State) :=
  match (s.trans.get {} tid).root with
  | some r => some (r, s)
  | none => (s.newTable (s.trans.get {} tid).subs set tid 4096).map fun (q, s) =>
    (q, { s with trans := s.trans.upd {} tid fun x => { x with root := some q } })

/-- The level-3 table of a page of a translation, made with those above it. -/
def State.leafTable (s : State) (set : List Nat) (tid page : Nat) : Option (Nat × State) := do
  let (r, s) ← s.rootTable set tid
  let (q, s) ← s.subTable set tid (r + 8 * (page / 2 ^ 18 % 512)) 4096
  s.subTable set tid (q + 8 * (page / 512 % 512)) 8192

/-- The tables that a context needs for an object of a size mapped at va; none where the pool of its partition's stacks lacks
sub-pages for them. -/
def State.makeTables (s : State) (c va size : Nat) : Option State :=
  (List.range (cdiv (va / 2 ^ 21 + cdiv size (2 ^ 21)) 512 - va / 2 ^ 30)).foldl (fun s i =>
    s.bind fun s => (s.leafTable (s.defaultStacks (s.cx c).part) (s.transOf c) (va / 2 ^ 21 + 512 * i)).map Prod.snd) (some s)

/-- The address of the leaf of a page in a translation whose tables exist. -/
def State.leafPlace (s : State) (tid page : Nat) : Option Nat :=
  let step := fun (t i : Nat) => let e := leNat (s.hbm.data.rdN (t + 8 * i) 8); if bit e 0 then some (fld e 12 36 * 4096) else none
  ((s.trans.get {} tid).root.bind fun r => (step r (page / 2 ^ 18 % 512)).bind fun q => step q (page / 512 % 512)).map fun q => q + 16 * (page % 512)

/-- The leaves of an object of a size in bytes mapped at va (R296, R301). -/
def objLeaves (h tag size : Nat) (w shared : Bool) (ppage : Nat → Nat) (va : Nat) : List (Nat × Leaf) :=
  tab (cdiv size (2 ^ 21)) fun i =>
    (va / 2 ^ 21 + i,
      { r := true, w, shared, tag, pa := ppage i, obj := h, v := true
        subvalid := BitVec.ofNat 32 (2 ^ (min 32 (cdiv size 65536 - 32 * i)) - 1) })

/-- Leaves written into a context's translation. -/
def State.addLeaves (s : State) (c : Nat) (ls : List (Nat × Leaf)) : State :=
  ls.foldl (fun s e => (s.leafPlace (s.transOf c) e.1).elim s fun pa => s.putEngine pa e.2.bytes) s

/-- The leaves of the pages of [va, va + size) cleared in a context's translation. -/
def State.dropLeaves (s : State) (c va size : Nat) : State :=
  (List.range (cdiv size (2 ^ 21))).foldl (fun s i => (s.leafPlace (s.transOf c) (va / 2 ^ 21 + i)).elim s fun pa => s.putEngine pa (leBytes 16 0)) s

/-- The tables of a translation given back to the pool through ZEROING (R302). -/
def State.freeTables (s : State) (tid : Nat) : State :=
  { s.moveSubs (s.trans.get {} tid).subs { st := 3 } with trans := s.trans.del tid }

/-- Entries of the translation units for the pages of a range go, for a context and those that share its translation (R145, R298). -/
def State.flushTlb (s : State) (c va size : Nat) : State :=
  let peers := s.translationPeers c
  { s with tlb := s.tlb.mapAll [] fun _ l => l.filter fun e => !(peers.contains e.ctx && decide (va / 2 ^ 21 ≤ e.page) && decide (e.page < va / 2 ^ 21 + cdiv size (2 ^ 21))) }

/-! ### Walks and the translation units (R144, R295, R297) -/

/-- A translation fault: its status and the OBJ that R297's record carries. -/
structure TFault where
  status : Nat
  obj : Nat := 0xFFFFFFFF

/-- The DATA that R297's record carries of an access: a command of an EXEC buffer has its place in the buffer. -/
def State.faultData (s : State) (w : Who) (f : TFault) (va : Nat) : List Nat :=
  let (h, st, i) := match w.ref with
    | some (.station h st i) => (h, st, i)
    | some (.ring r) => (0xFFFFFFFF, r, match (s.rg r).work with | .exec _ i _ => i | _ => 0)
    | none => (0xFFFFFFFF, 0, 0)
  [f.status + 2 ^ 32 * h, f.obj + 2 ^ 32 * st + 2 ^ 48 * i, va]

/-- The log record of a translation fault (R297). -/
def State.logFault (s : State) (w : Who) (f : TFault) (va : Nat) : State :=
  if f.status = 0x0201 ∨ f.status = 0x0202 then s.logEv 0x2006 2 0 0 w.ctx (s.faultData w f va) else s

/-- An entry read by a walk: its line must be the engine's, and one that cannot be read is an uncontained fault (R288, R295, R297). That
a line with NONCTX 0 counts as one that cannot be read is the model's choice (DESIGN CHOICE, log entry 82). -/
def State.readEntry (s : State) (w : Who) (va pa n : Nat) : Except TFault (List Byte) × State :=
  let lost := fun (s : State) =>
    let l := pa / 64
    let k := pa / 2 ^ 36
    let s := (s.noteUe l false).poisonLine l
    ((.error { status := 0x0802 }, s.uncontained 5 4 k 0x2006 (s.faultData w { status := 0x0802 } va)) : Except TFault (List Byte) × State)
  match s.fetchLine (pa / 64) with
  | (none, s) => lost s
  | (some x, s) =>
    if !x.nonctx then lost s
    else (.ok ((x.data.drop (pa % 64)).take n), if x.corrected then s.correctLine (pa / 64) x.data else s)

/-- A walk: at most three entries (R144, R295). A translation with no table maps nothing. -/
def State.walk (s : State) (w : Who) (va : Nat) : Except TFault Leaf × State :=
  match (s.trans.get {} (s.transOf w.ctx)).root with
  | none => (.error { status := 0x0201 }, s)
  | some r =>
    match s.readEntry w va (r + 8 * fld va 39 9) 8 with
    | (.error f, s) => (.error f, s)
    | (.ok e, s) =>
      if !bit (leNat e) 0 then (.error { status := 0x0201 }, s)
      else match s.readEntry w va (fld (leNat e) 12 36 * 4096 + 8 * fld va 30 9) 8 with
        | (.error f, s) => (.error f, s)
        | (.ok e, s) =>
          if !bit (leNat e) 0 then (.error { status := 0x0201 }, s)
          else match s.readEntry w va (fld (leNat e) 12 36 * 4096 + 16 * fld va 21 9) 16 with
            | (.error f, s) => (.error f, s)
            | (.ok e, s) => ((if (Leaf.ofBytes e).v then .ok (Leaf.ofBytes e) else .error { status := 0x0201 }), s)

/-- The leaf that a command has obtained for a page, or that its cluster's translation unit holds (R144, R145). -/
def State.heldLeaf (s : State) (w : Who) (page : Nat) : Option Leaf :=
  let mine := ((s.cmds.find? fun k => w.ref == some k.ref).bind fun k => (k.leaves.find? fun e => e.1 == page)).map Prod.snd
  mine.orElse fun _ => w.cluster.bind fun c => ((s.tlb.get [] c).find? fun e => e.ctx == w.ctx && e.page == page).map TlbEntry.leaf

/-- A leaf kept by the command that obtained it until it commits or is killed, and by its cluster's translation unit, which holds 4,096
entries; the oldest makes room (DESIGN CHOICE, log entry 82). -/
def State.keepLeaf (s : State) (w : Who) (page : Nat) (l : Leaf) : State :=
  let s : State := { s with cmds := s.cmds.map fun k => if w.ref == some k.ref && !(k.leaves.any fun e => e.1 == page) then { k with leaves := k.leaves ++ [(page, l)] } else k }
  match w.cluster with
  | none => s
  | some c =>
    let t := s.tlb.get [] c
    if t.any fun e => e.ctx == w.ctx && e.page == page then s
    else { s with tlb := s.tlb.put c (t.drop (t.length - 4095) ++ [{ ctx := w.ctx, page, leaf := l }]) }

/-- The leaf of a page for an access (R144, R145, R295); a page that a translation unit had to walk for is a miss (R513). -/
def State.leafFor (s : State) (w : Who) (va : Nat) : Except TFault Leaf × State :=
  match s.heldLeaf w (va / 2 ^ 21) with
  | some l => (.ok l, s.keepLeaf w (va / 2 ^ 21) l)
  | none => match s.walk w va with
    | (.error f, s) => (.error f, s)
    | (.ok l, s) => (.ok l, (w.cluster.elim s fun c => s.perf c 0x0C 1).keepLeaf w (va / 2 ^ 21) l)

/-! ### Host windows (R323 to R326) -/

/-- EN, R, W and LINK of a host window (R323). -/
def HostWin.en (w : HostWin) : Bool := w.a.getLsbD 0 && !w.draining
def HostWin.base (w : HostWin) : Nat := w.a.toNat / 4096 * 4096
def HostWin.page (w : HostWin) : Nat := fld w.b.toNat 0 26
def HostWin.pages (w : HostWin) : Nat := fld w.b.toNat 32 16 + 1
def HostWin.func (w : HostWin) : Nat := fld w.b.toNat 48 8

/-- A page of device addresses (pa / 2²¹) lies in a window's range (R323). -/
def HostWin.holds (w : HostWin) (page : Nat) : Bool := decide (2 ^ 26 + w.page ≤ page) && decide (page < 2 ^ 26 + w.page + w.pages)

/-- The window in force for an access to a device address in window space, with the host address it reaches: an enabled one, or one
that is being disabled, for a command that translated an address through it before (R323, R325). -/
def State.windowAt (s : State) (ref : Option CmdRef) (pa : Nat) : Option (HostWin × Nat) :=
  s.windows.findSome? fun (_, w) =>
    if (w.en || (w.draining && ref.any w.users.contains)) && w.holds (pa / 2 ^ 21) then
      some (w, w.base + (pa - 2 ^ 47 - w.page * 2 ^ 21))
    else none

/-- The commands in flight that have translated an address through a window (R325). -/
def State.windowUsers (s : State) (w : HostWin) : List CmdRef :=
  (s.cmds.filter fun k => k.leaves.any fun e => w.holds e.2.pa).map Cmd.ref

/-- The link that carries a window's requests now (R47, R326). -/
def State.linkOf (s : State) (sel : Bool) : Nat := if sel && s.pins.link1 && s.part.link1 then 1 else 0

/-! ### Accesses (R291, R297, R299) -/

/-- The place that a virtual address reaches through a leaf, and the expected tag (R291, R296 to R299, R325). -/
def State.reach (s : State) (w : Who) (l : Leaf) (va : Nat) (write : Bool) : Except TFault (Loc × Nat) :=
  if !l.subvalid.getLsbD (va / 65536 % 32) then .error { status := 0x0201, obj := l.obj }
  else if (if write then !l.w else !l.r) then .error { status := 0x0202, obj := l.obj }
  else
    let pa := l.pa * 2 ^ 21 + va % 2 ^ 21
    if 2 ^ 47 ≤ pa then
      match s.windowAt w.ref pa with
      | none => .error { status := 0x0201, obj := l.obj }
      | some (x, a) =>
        if x.a.getLsbD (if write then 2 else 1) then .ok (.host (x.a.getLsbD 3) x.func a, 0)
        else .error { status := 0x0202, obj := l.obj }
    else if !s.paData pa then .error { status := 0x0201, obj := l.obj }
    else if !l.shared && l.tag != w.ctx then .error { status := 0x0203, obj := l.obj }
    else .ok (.hbm pa, l.tag)

/-- The place that a context virtual address reaches, and the expected tag (R295 to R299). -/
def State.translate (s : State) (w : Who) (va : Nat) (write : Bool) : Except TFault (Loc × Nat) × State :=
  if 2 ^ 48 ≤ va then (.error { status := 0x0201 }, s)
  else match s.leafFor w va with
    | (.error f, s) => (.error f, s)
    | (.ok l, s) => (s.reach w l va write, s)

/-- The pieces of [a, a + n) that lie in one 64-byte line each: first byte and length. -/
def pieces : Nat → Nat → Nat → List (Nat × Nat)
  | 0, _, _ => []
  | _ + 1, _, 0 => []
  | f + 1, a, n => let k := min n (64 - a % 64); (a, k) :: pieces f (a + k) (n - k)

/-- n bytes at context virtual address va read by a command (R291, R297, R299). -/
def State.readVa (s : State) (w : Who) (va n : Nat) : Except Nat (List Byte) × State :=
  (pieces (n / 64 + 2) va n).foldl (fun (acc : Except Nat (List Byte) × State) (a, k) =>
    match acc with
    | (.error e, s) => (.error e, s)
    | (.ok bs, s) => match s.translate w a false with
      | (.error f, s) => (.error f.status, s.logFault w f a)
      | (.ok (.hbm pa, tag), s) =>
        match s.readLine (pa / 64) tag w.ctx with
        | (.error e, s) => (.error e, s)
        | (.ok line, s) => (.ok (bs ++ (line.drop (pa % 64)).take k), s.perf (pa / 2 ^ 36 / 2) 0x06 1)
      | (.ok (.host _ _ h, _), s) => (.ok (bs ++ s.hostMem.rdN h k), s)
      | (.ok _, s) => (.ok bs, s)) (.ok [], s)

/-- Bytes that a command writes at context virtual address va, checked and located, to be staged (R208, R291). -/
def State.stageVa (s : State) (w : Who) (va : Nat) (bs : List Byte) : Except Nat (List (Loc × Byte)) × State :=
  (pieces (bs.length / 64 + 2) va bs.length).foldl (fun (acc : Except Nat (List (Loc × Byte)) × State) (a, k) =>
    match acc with
    | (.error e, s) => (.error e, s)
    | (.ok out, s) =>
      let part := (bs.drop (a - va)).take k
      match s.translate w a true with
      | (.error f, s) => (.error f.status, s.logFault w f a)
      | (.ok (.hbm pa, tag), s) =>
        match s.writeCheck (pa / 64) tag w.ctx (k == 64) with
        | (.error e, s) => (.error e, s)
        | (.ok _, s) => (.ok (out ++ part.zipIdx.map fun (b, i) => (Loc.hbm (pa + i), b)), s)
      | (.ok (.host l f h, _), s) => (.ok (out ++ part.zipIdx.map fun (b, i) => (Loc.host l f (h + i), b)), s)
      | (.ok _, s) => (.ok out, s)) (.ok [], s)

end Sys2Proof.Machine
end

