-- ==== Sys2Proof/Machine/Sec.lean ====
section
/-! DEFINITION. Command words, tensor descriptors and section images as bytes (R182 to R199, R241 to R257). -/

namespace Sys2Proof.Machine

/-! ### Command words (R182) -/

/-- A field of a command word, a descriptor or an image. -/
def at1 (b : List Byte) (o : Nat) : Nat := leAt b o 1
def at2 (b : List Byte) (o : Nat) : Nat := leAt b o 2
def at4 (b : List Byte) (o : Nat) : Nat := leAt b o 4
def at8 (b : List Byte) (o : Nat) : Nat := leAt b o 8

/-- Header fields of a command word. -/
def cOp (w : List Byte) : Nat := at1 w 0
def cEvt (w : List Byte) : Bool := bit (at1 w 1) 0
def cPredEn (w : List Byte) : Bool := bit (at1 w 1) 1
def cPredNeg (w : List Byte) : Bool := bit (at1 w 1) 2
def cChain (w : List Byte) : Bool := bit (at1 w 1) 3
def cSr (w : List Byte) : Bool := bit (at1 w 1) 4
def cStreamReg (w : List Byte) : Bool := bit (at1 w 1) 5
def cPredReg (w : List Byte) : Nat := fld (at1 w 2) 0 6
def cSatT (w : List Byte) : Nat := fld (at1 w 3) 0 5
def cSatPol (w : List Byte) : Nat := fld (at1 w 3) 5 2
def cLoop0 (w : List Byte) : Nat := at2 w 4
def cLoop1 (w : List Byte) : Nat := at2 w 6

/-- The opcodes of R183. -/
def opcodes : List Nat :=
  [0x00, 0x01] ++ (List.range 8).map (0x20 + ·) ++ (List.range 4).map (0x40 + ·) ++ [0x60, 0x61]
    ++ (List.range 7).map (0x80 + ·) ++ (List.range 4).map (0xA0 + ·) ++ (List.range 6).map (0xC0 + ·)
    ++ (List.range 5).map (0xE0 + ·)

/-- The places of a command word that name operand handles: byte offset, and whether the operand is a destination
(R211 to R230). -/
def handlePlaces (op : Nat) : List (Nat × Bool) :=
  if op == 0x00 then [(8, false), (10, false), (12, true), (14, false), (16, false), (18, false)]
  else if op == 0x01 then [(8, false), (10, false), (12, false), (14, true), (16, false), (18, false)]
  else if op == 0x27 then [(8, false), (10, true)]
  else if op / 32 == 1 then [(8, false), (10, false), (12, false), (14, true), (16, true)]
  else if op == 0x40 then [(8, false), (10, true), (12, true), (14, true), (16, true), (18, true), (28, true)]
  else if op == 0x41 then [(8, false), (10, true), (12, true), (14, true)]
  else if op == 0x42 then [(8, false), (10, true), (12, false), (14, false)]
  else if op == 0x43 || op == 0x60 then [(8, false), (10, true)]
  else if op == 0x61 then [(10, true)]
  else if op == 0x80 || op == 0x83 || op == 0x84 then [(8, false), (10, true)]
  else if op == 0x81 || op == 0x82 then [(8, false), (10, true), (12, false)]
  else if op / 32 == 6 || op == 0xE3 || op == 0xE4 then [(8, false), (10, true)]
  else []

/-- The operands a command names: handle and whether it is a destination. -/
def cHandles (w : List Byte) : List (Nat × Bool) :=
  ((handlePlaces (cOp w)).map fun (o, d) => (at2 w o, d)).filter fun e => e.1 != 0

/-- GROUP of a collective: the descriptor of the member list, and the group number (R228, R411). -/
def gDesc (w : List Byte) : Nat := at2 w 12
def gNum (w : List Byte) : Nat := at2 w 14
/-- A collective or RINGPASS: it reads the member list. -/
def isColl (w : List Byte) : Bool := cOp w / 32 == 6 && decide (0xC2 ≤ cOp w)

/-- Every descriptor that a command names: its operands, and a collective's member list. -/
def cNamed (w : List Byte) : List Nat :=
  ((cHandles w).map fun e => e.1) ++ (if isColl w && gDesc w != 0 then [gDesc w] else [])

/-! ### Descriptors (R189) -/

/-- A descriptor's bytes and its fixed fields. -/
structure Desc where
  b : List Byte

def Desc.fmt (d : Desc) : Nat := at1 d.b 0
def Desc.rank (d : Desc) : Nat := fld (at1 d.b 1) 0 3
def Desc.blocked (d : Desc) : Nat := fld (at1 d.b 1) 3 3
def Desc.space (d : Desc) : Nat := fld (at1 d.b 1) 6 2
def Desc.scaled (d : Desc) : Bool := bit (at1 d.b 2) 0
def Desc.square (d : Desc) : Bool := bit (at1 d.b 2) 1
def Desc.cbGrouped (d : Desc) : Bool := bit (at1 d.b 2) 2
def Desc.cbGroup (d : Desc) : Nat := fld (at1 d.b 2) 3 4
def Desc.tscale (d : Desc) : Nat := at2 d.b 4
def Desc.tileRows (d : Desc) : Nat := at1 d.b 6 + 1
def Desc.tileCols (d : Desc) : Nat := 32 * (at1 d.b 7 + 1)
def Desc.base (d : Desc) : Nat := at8 d.b 8
def Desc.sbase (d : Desc) : Nat := at8 d.b 16
def Desc.ext (d : Desc) (i : Nat) : Nat := at4 d.b (24 + 4 * i)
def Desc.stride (d : Desc) (i : Nat) : Nat := if i = 0 then 0 else at4 d.b (40 + 4 * i)
def Desc.cbOff (d : Desc) : Int := sext 32 (at4 d.b 60)
/-- The route of a stream descriptor (R190). -/
def Desc.route (d : Desc) : Nat := fld d.base 0 16
/-- A chain buffer (R230). -/
def Desc.isChain (d : Desc) : Bool := d.space == 3 && d.route == 0xFFFF

/-! ### Images (R241 to R247) -/

def Section.nStations (s : Section) : Nat := at2 s.img 12
def Section.nSlots (s : Section) : Nat := at2 s.img 14
def Section.nRoutes (s : Section) : Nat := at2 s.img 16
def Section.nSets (s : Section) : Nat := at2 s.img 18
def Section.nDesc (s : Section) : Nat := at2 s.img 20
def Section.recordBase (s : Section) : Nat := fld (at8 s.img 56) 0 48
def Section.resBytes (s : Section) : Nat := at8 s.img 48

/-- The offset of station st's record. -/
def Section.staAt (s : Section) (st : Nat) : Nat := at4 s.img 24 + 32 * st
def Section.kind (s : Section) (st : Nat) : Nat := at1 s.img (s.staAt st)
def Section.sub (s : Section) (st : Nat) : Nat := at1 s.img (s.staAt st + 1)
def Section.slot (s : Section) (st : Nat) : Nat := at2 s.img (s.staAt st + 2)
def Section.progLen (s : Section) (st : Nat) : Nat := at2 s.img (s.staAt st + 8)
def Section.bind (s : Section) (st : Nat) : Nat := at2 s.img (s.staAt st + 10)
def Section.cmBytes (s : Section) (st : Nat) : Nat := at4 s.img (s.staAt st + 12)
def Section.recordIndex (s : Section) (st : Nat) : Nat := at4 s.img (s.staAt st + 16)

/-- Command i of station st's program. -/
def Section.word (s : Section) (st i : Nat) : List Byte :=
  (s.img.drop (at4 s.img 40 + at4 s.img (s.staAt st + 4) + 32 * i)).take 32

/-- Descriptor of a handle (R247). -/
def Section.desc (s : Section) (h : Nat) : Desc := { b := (s.img.drop (at4 s.img 36 + 64 * (h - 1))).take 64 }

/-- Route r: producer, consumers, framing handle, depth, buffer (R245, R246). -/
def Section.routeAt (s : Section) (r : Nat) : Nat := at4 s.img 28 + 16 * r
def Section.producer (s : Section) (r : Nat) : Nat := at2 s.img (s.routeAt r)
def Section.setMembers (s : Section) (n : Nat) : List Nat :=
  let o := at4 s.img 32 + 8 * n
  tab (at2 s.img (o + 4)) fun i => at2 s.img (at4 s.img o + 2 * i)
def Section.consumers (s : Section) (r : Nat) : List Nat :=
  if bit (at1 s.img (s.routeAt r + 7)) 3 then s.setMembers (at2 s.img (s.routeAt r + 2)) else [at2 s.img (s.routeAt r + 2)]
def Section.routeDesc (s : Section) (r : Nat) : Nat := at2 s.img (s.routeAt r + 4)
def Section.depth (s : Section) (r : Nat) : Nat := at1 s.img (s.routeAt r + 6)
def Section.buf (s : Section) (r : Nat) : Nat := fld (at1 s.img (s.routeAt r + 7)) 0 3

/-- Register declaration r: kind, object, limit, initial value (R197). -/
def Section.regKind (s : Section) (r : Nat) : Nat := fld (at1 s.img (128 + 24 * r)) 0 2
def Section.regObj (s : Section) (r : Nat) : Nat := at4 s.img (128 + 24 * r + 4)
def Section.regLimit (s : Section) (r : Nat) : Nat := at8 s.img (128 + 24 * r + 8)
def Section.regInit (s : Section) (r : Nat) : Nat := at8 s.img (128 + 24 * r + 16)

/-- The members of a CHAIN at index i (R234): the words that follow it. -/
def Section.chainWords (s : Section) (st i : Nat) : List (List Byte) :=
  if cOp (s.word st i) == 0xE2 then (List.range (fld (at1 (s.word st i) 8) 0 4)).map fun j => s.word st (i + 1 + j) else []

/-- The index of the command that follows the one at index i: a CHAIN and its members are one (R235). -/
def Section.nextIdx (s : Section) (st i : Nat) : Nat := i + 1 + (s.chainWords st i).length

/-- The words that the command at index i executes: itself, and the members of a chain. -/
def Section.wordsAt (s : Section) (st i : Nat) : List (List Byte) := s.word st i :: s.chainWords st i

/-- The routes that a list of command words reads or writes: route, and whether it is written. -/
def Section.routesOf (s : Section) (ws : List (List Byte)) : List (Nat × Bool) :=
  ws.flatMap fun w => (cHandles w).filterMap fun (h, d) =>
    let x := s.desc h
    if x.space == 3 && !x.isChain then some (x.route, d) else none

/-- The indices at which the commands of station st's program start, chains counting as one. -/
def Section.starts (s : Section) (st : Nat) : List Nat :=
  ((List.range (s.progLen st)).foldl (fun (acc : List Nat × Nat) i =>
    if i = acc.2 then (acc.1 ++ [i], s.nextIdx st i) else acc) ([], 0)).1

/-- The phase of a command in its station program: the BARRIERs that stand before it, each of which ends the stream groups before it
(R259). -/
def Section.phaseOf (s : Section) (st i : Nat) : Nat :=
  ((s.starts st).filter fun j => decide (j < i) && cOp (s.word st j) == 0xA3).length

/-- The commands of station st's program that write, or read, a route, in program order. -/
def Section.usesOf (s : Section) (st r : Nat) (write : Bool) : List Nat :=
  (s.starts st).filter fun i => (s.routesOf (s.wordsAt st i)).any fun e => e.1 == r && e.2 == write

/-- What two commands that write and read the same route share: the route, with the phase of the producer's command; the k-th reader of
a route reads what its k-th writer writes (R252). R257 joins by route within a run; that a BARRIER parts the uses of a route is read
from R259 and from the worked example of 08_sections_and_stations, whose phases share routes (DEDUCED, log entry 79). -/
def Section.useKeys (s : Section) (st i : Nat) : List Nat :=
  ((s.routesOf (s.wordsAt st i)).map fun e =>
    let p := s.producer e.1
    let w := if e.2 then i else ((s.usesOf p e.1 true)[((s.usesOf st e.1 false).findIdx? (· == i)).getD 0]?).getD 0
    e.1 + 65536 * s.phaseOf p w).dedup

/-- Every command of the section that touches a route: station, index, what it shares. -/
def Section.routeUsers (s : Section) : List (Nat × Nat × List Nat) :=
  (List.range s.nStations).flatMap fun st => (s.starts st).filterMap fun i =>
    let ks := s.useKeys st i
    if ks.isEmpty then none else some (st, i, ks)

/-- Keys joined to a set of keys by commands that have both, closed by n rounds. -/
def closeRoutes (us : List (Nat × Nat × List Nat)) : Nat → List Nat → List Nat
  | 0, ks => ks
  | n + 1, ks =>
    let more := (ks ++ (us.filter fun u => u.2.2.any ks.contains).flatMap fun u => u.2.2).dedup
    if more.length = ks.length then ks else closeRoutes us n more

/-- The stream group of the command at (st, i): its members in order of station, then index (R257). -/
def Section.group (s : Section) (st i : Nat) : List (Nat × Nat) :=
  let ks := s.useKeys st i
  if ks.isEmpty then [(st, i)]
  else
    let us := s.routeUsers
    let all := closeRoutes us us.length ks
    (us.filter fun u => u.2.2.any all.contains).map fun u => (u.1, u.2.1)

/-- The core of station st, by its slot; soft and host-core stations have none. -/
def Section.coreOf (s : Section) (st : Nat) : Option Nat := s.cores[s.slot st]?

/-- The unit of a station's own queue (core × 5 + kind): the pan its slot binds it to (R244), the vector unit, or the
transfer unit. -/
def Section.unitOf (s : Section) (st : Nat) : Option Nat :=
  (s.coreOf st).bind fun c =>
    if s.kind st = 0 then
      let lower := (List.range st).any fun t => s.kind t == 0 && s.slot t == s.slot st
      some (5 * c + b2n lower)
    else if s.kind st = 1 then some (5 * c + 2)
    else if s.kind st = 2 ∨ s.kind st = 5 then some (5 * c + 3)
    else none

/-! ### MCAST pairs (R223, R224) -/

/-- MCAST words of a section's programs: station and index. -/
def Section.mcasts (x : Section) : List (Nat × Nat) :=
  (List.range x.nStations).flatMap fun st => (List.range (x.progLen st)).filterMap fun i =>
    if cOp (x.word st i) == 0x83 then some (st, i) else none

/-- A word is the sender's side. -/
def mcSender (w : List Byte) : Bool := at2 w 8 != 0

/-- Senders of a TAG whose set holds a station, and receivers of a TAG at a station, in order of station and index. -/
def Section.mcSenders (x : Section) (tag st : Nat) : List (Nat × Nat) :=
  x.mcasts.filter fun e => let w := x.word e.1 e.2; mcSender w && at4 w 16 == tag && (x.setMembers (at2 w 12)).contains st
def Section.mcReceivers (x : Section) (tag st : Nat) : List (Nat × Nat) :=
  x.mcasts.filter fun e => let w := x.word e.1 e.2; e.1 == st && !mcSender w && at4 w 16 == tag

/-- The sender of a receiver: the k-th receiver of a TAG at a station pairs with the k-th sender (R224). -/
def Section.mcSource (x : Section) (st i : Nat) : Option (Nat × Nat) :=
  let tag := at4 (x.word st i) 16
  ((x.mcReceivers tag st).findIdx? fun e => e == (st, i)).bind fun k => (x.mcSenders tag st)[k]?

/-- The receivers of a sender. -/
def Section.mcTargets (x : Section) (st i : Nat) : List (Nat × Nat) :=
  x.mcasts.filter fun e => !mcSender (x.word e.1 e.2) && x.mcSource e.1 e.2 == some (st, i)

/-- The clusters on which a section has stations with a core. -/
def Section.clusters (s : Section) : List Nat := (s.cores.map (· / 48)).dedup

end Sys2Proof.Machine
end

