-- ==== Sys2Proof/Machine/HznBase.lean ====
section
/-! DEFINITION. Frames, the sender's side of a link, routes and messages of the horizon (R400 to R410). -/

namespace Sys2Proof.Machine

/-- A frame's header and payload (R400). -/
structure Fr where
  typ : Nat
  vc : Nat := 0
  op : Nat := 0
  seq : Nat := 0
  ack : Nat := 0
  len : Nat := 0
  cr0 : Nat := 0
  cr1 : Nat := 0
  dst : Nat := 0
  src : Nat := 0
  domain : Nat := 0
  msg : Nat := 0
  offset : Nat := 0
  key : Nat := 0
  aux : Nat := 0
  payload : List Byte := []
deriving DecidableEq, Repr

/-- A payload padded with zeros to whole lines. -/
def padLines (b : List Byte) : List Byte := b ++ List.replicate (roundUp b.length 64 - b.length) 0

/-- Header and payload as bytes; LEN follows the payload. -/
def Fr.body (f : Fr) : List Byte :=
  let p := padLines f.payload
  leBytes 1 (f.typ % 16 + 16 * (f.vc % 2)) ++ leBytes 1 f.op ++ leBytes 2 f.seq ++ leBytes 2 f.ack
    ++ leBytes 1 (p.length / 64) ++ leBytes 1 (f.cr0 % 16 + 16 * (f.cr1 % 16)) ++ leBytes 3 f.dst ++ leBytes 3 f.src
    ++ leBytes 2 f.domain ++ leBytes 4 f.msg ++ leBytes 4 f.offset ++ leBytes 4 f.key ++ leBytes 4 f.aux ++ p

/-- The frame with its CRC-32. -/
def Fr.bytes (f : Fr) : List Byte := f.body ++ leBytes 4 (crc32 f.body)

/-- The fields of a frame's bytes. -/
def parseFr (b : List Byte) : Fr :=
  { typ := fld (leAt b 0 1) 0 4, vc := fld (leAt b 0 1) 4 1, op := leAt b 1 1, seq := leAt b 2 2, ack := leAt b 4 2
    len := fld (leAt b 6 1) 0 5, cr0 := fld (leAt b 7 1) 0 4, cr1 := fld (leAt b 7 1) 4 4
    dst := leAt b 8 3, src := leAt b 11 3, domain := leAt b 14 2, msg := leAt b 16 4, offset := leAt b 20 4
    key := leAt b 24 4, aux := leAt b 28 4, payload := (b.drop 32).take (64 * fld (leAt b 6 1) 0 5) }

/-- Length and CRC of received bytes are right. -/
def frameOk (b : List Byte) : Bool :=
  let n := 32 + 64 * fld (leAt b 6 1) 0 5
  b.length == n + 4 && leAt b n 4 == crc32 (b.take n)

/-- The configuration of a port (HZN_PORT_CFG). -/
def Horizon.cfg (h : Horizon) (p : Nat) : Nat := fld (h.portCfg.get 0 (p / 2)).toNat (32 * (p % 2)) 32
def Horizon.portEn (h : Horizon) (p : Nat) : Bool := bit (h.cfg p) 0
def Horizon.toSwitch (h : Horizon) (p : Nat) : Bool := bit (h.cfg p) 1
def Horizon.peer (h : Horizon) (p : Nat) : Nat := fld (h.cfg p) 3 18
/-- ENABLE of HZN_CTRL. -/
def Horizon.enabled (h : Horizon) : Bool := h.ctrl.getLsbD 32
/-- The domain of a context (R407). -/
def Horizon.domainOf (h : Horizon) (c : Nat) : Nat := fld (h.domains.get 0 (c / 4)).toNat (16 * (c % 4)) 16

/-- The route to an engine (steps 1 and 2 of R406). -/
def State.route (s : State) (dst : Nat) : List Nat :=
  let up := (List.range 36).filter fun p => (s.port p).st == 2 && !(s.port p).mismatch
  let direct := up.filter fun p => !s.hzn.toSwitch p && s.hzn.peer p == dst
  if direct.isEmpty then up.filter s.hzn.toSwitch else direct

/-- A frame that may leave a port now: window and credit allow it (R401, R402). -/
def Port.maySend (p : Port) (f : Fr) : Bool :=
  decide (p.retry.length < p.window) && decide (0 < if f.vc = 1 then p.crCtrl else p.crBulk)

/-- The next waiting frame that may leave: control frames never wait behind bulk frames (R402). -/
def Port.nextWaiting (p : Port) : Option (Fr × List (List Byte)) :=
  let fs := p.waitq.map parseFr
  let i := (fs.findIdx? fun f => f.vc == 1 && p.maySend f).orElse fun _ => fs.findIdx? fun f => p.maySend f
  i.bind fun i => (fs[i]?).map fun f => (f, p.waitq.eraseIdx i)

/-- A DATA or CTRL frame sent for the first time on a port: numbered, kept for retry, one credit spent. -/
def State.launchFrame (s : State) (p : Nat) (f : Fr) : State :=
  let q := s.port p
  let f := { f with seq := q.txSeq, ack := q.expected, cr0 := min q.rxBulk 15, cr1 := min q.rxCtrl 15 }
  (s.updPort p fun q => { q with
    txSeq := (q.txSeq + 1) % 65536, retry := q.retry ++ [(f.seq, f.body)]
    crBulk := if f.vc = 1 then q.crBulk else q.crBulk - 1, crCtrl := if f.vc = 1 then q.crCtrl - 1 else q.crCtrl
    rxBulk := q.rxBulk - min q.rxBulk 15, rxCtrl := q.rxCtrl - min q.rxCtrl 15
    lastAck := if q.retry.isEmpty then s.time.now else q.lastAck }).emit (.frame p f.bytes)

/-- Waiting frames leave while the window and credits allow it. -/
def State.pumpPort (s : State) (p : Nat) : Nat → State
  | 0 => s
  | n + 1 =>
    match (s.port p).nextWaiting with
    | none => s
    | some (f, rest) => State.pumpPort ((s.updPort p fun q => { q with waitq := rest }).launchFrame p f) p n

/-- A frame handed to a port. -/
def State.sendOn (s : State) (p : Nat) (f : Fr) : State :=
  let s := s.updPort p fun q => { q with waitq := q.waitq ++ [f.body] }
  s.pumpPort p ((s.port p).waitq.length)

/-- A frame to an engine, on the port at position i of its route (R406); without a route it is held. -/
def State.sendTo (s : State) (i : Nat) (f : Fr) : State :=
  let r := s.route f.dst
  let f := { f with src := s.hzn.engineId }
  match r[i % r.length]? with
  | some p => s.sendOn p f
  | none => { s with hzn := { s.hzn with held := s.hzn.held ++ [f.body] } }

/-- The position on its route of a frame that is sent again: that of its segment (R406). -/
def Fr.place (f : Fr) : Nat := f.msg + (if f.typ = 1 then f.offset / 1024 else 0)

/-- Held frames whose engine has a route leave. -/
def State.flushFrames (s : State) : State :=
  let fs := s.hzn.held.map parseFr
  let s := { s with hzn := { s.hzn with held := [] } }
  fs.foldl (fun s f => s.sendTo f.place f) s

/-- Operations of CTRL frames (R400). -/
def opRts : Nat := 1
def opCts : Nat := 2
def opRefuse : Nat := 3
def opSegDone : Nat := 4
def opDone : Nat := 5
def opAbort : Nat := 6
def opGroupAbort : Nat := 7
def opSignal : Nat := 8
def opBusy : Nat := 9

/-- A control frame of a message. -/
def State.sendCtrl (s : State) (m : Msg) (op aux : Nat) : State :=
  s.sendTo m.num { typ := 2, vc := 1, op, dst := m.peer, domain := m.domain, msg := m.num, key := m.key, aux }

/-- The messages of a command end with ABORT, or GROUP_ABORT for a collective in progress (R410). -/
def State.abortMsgs (s : State) (refs : List CmdRef) : State :=
  let mine := s.hzn.msgs.filter fun m => m.cmd.any refs.contains
  let s := mine.foldl (fun s m => if m.complete then s else s.sendCtrl m (if m.group then opGroupAbort else opAbort) 0) s
  { s with hzn := { s.hzn with msgs := s.hzn.msgs.filter fun m => !m.cmd.any refs.contains } }

/-- A remote signal to an engine (R413): sent on a route, or held. -/
def State.sendSignal (s : State) (g : HeldSig) : State :=
  if (s.route g.engine).isEmpty then { s with hzn := { s.hzn with signals := s.hzn.signals ++ [g] } }
  else s.sendTo 0 { typ := 2, vc := 1, op := opSignal, dst := g.engine, domain := g.domain,
                    payload := leBytes 4 g.handle ++ leBytes 4 0 ++ leBytes 8 g.value }

/-- Held signals whose engine has a route again leave. -/
def State.flushSignals (s : State) : State :=
  let go := s.hzn.signals.filter fun g => !(s.route g.engine).isEmpty
  let s := { s with hzn := { s.hzn with signals := s.hzn.signals.filter fun g => (s.route g.engine).isEmpty } }
  go.foldl State.sendSignal s

end Sys2Proof.Machine
end

