-- ==== Sys2Proof/Machine/Sluice.lean ====
section
/-! DEFINITION. Sluices: tokens, charges and windows (R361, R374 to R378). -/

namespace Sys2Proof.Machine

/-- The sluice register of a partition for a resource. -/
def Partition.sluice (p : Partition) : SluiceRes → Word
  | .hbm => p.sluHbm | .res => p.sluRes | .hzn => p.sluHzn | .host => p.sluHost | .hub => p.sluHub

/-- Instances of a resource: stacks, clusters, directions of the horizon, links and directions, clusters and directions. -/
def sluInsts : SluiceRes → Nat
  | .hbm => 20 | .res => 10 | .hzn => 2 | .host => 4 | .hub => 20

/-- The resources in order, and a resource's number. -/
def sluAll : List SluiceRes := [.hbm, .res, .hzn, .host, .hub]
def sluNum : SluiceRes → Nat
  | .hbm => 0 | .res => 1 | .hzn => 2 | .host => 3 | .hub => 4

/-- The key of a partition's tokens at an instance. -/
def sluKey (p : Nat) (r : SluiceRes) (i : Nat) : Nat := (p * 8 + sluNum r) * 32 + i

/-- The register behind a key. -/
def State.sluOfKey (s : State) (k : Nat) : Word :=
  (s.pt (k / 256)).sluice (sluAll.getD (k / 32 % 8) .hbm)

/-- A request of c tokens at an instance from partition p (R375): the tokens it still waits for, and the state. A
demoted request (R368) never takes tokens. -/
def State.charge (s : State) (p : Nat) (lc : Bool) (r : SluiceRes) (i c : Nat) : Nat × State :=
  let k := sluKey p r i
  let t := s.tokens.get 0 k
  let demoted := (s.pt p).lcRun.isSome && !lc
  let s : State := if r = .res then s.perf i 0x08 c else s
  if c = 0 then (0, s)
  else if !demoted && decide (c ≤ t) then (0, { s with tokens := s.tokens.set 0 k (t - c) })
  else if !sluCap ((s.pt p).sluice r) then (0, if r = .hbm then s.perf (i / 2) 0x0D 1 else if r = .res then s.perf i 0x0D 1 else s)
  else (c, s)

/-! ### Traffic past the hub (R149, R375) -/

/-- Clusters c and d of an engine of n clusters have no path but through the hub: they lie on different sides, or on one side so far
apart that the two links by way of the hub are the nearest path. Of two paths of two links the model takes the one past the cluster
between them (DESIGN CHOICE, log entry 83). -/
def viaHub (n c d : Nat) : Bool := c != d && (decide (c < n / 2) != decide (d < n / 2) || decide (c + 2 < d) || decide (d + 2 < c))

/-- Tokens at the hub links of a flow of lines; none is the hub itself, with the host port and the horizon ports. -/
def State.hubTokens (s : State) (p : Nat) (src dst : Option Nat) (lines : Nat) : List (Nat × Nat) :=
  let past := match src, dst with
    | some c, some d => viaHub s.part.clusters c d
    | _, _ => true
  if lines = 0 || !past then []
  else src.toList.map (fun c => (sluKey p .hub (2 * c), lines)) ++ dst.toList.map fun d => (sluKey p .hub (2 * d + 1), lines)

/-- Tokens of a list with the tokens of one key together. -/
def addTokens (l : List (Nat × Nat)) : List (Nat × Nat) :=
  (l.map Prod.fst).dedup.map fun k => (k, ((l.filter fun e => e.1 == k).map Prod.snd).sum)

/-- The resource of a key. -/
def resOfKey (k : Nat) : SluiceRes := sluAll.getD (k / 32 % 8) .hbm

/-- Requests charged at their sluices: what they still wait for, and the state. -/
def State.chargeAll (s : State) (lc : Bool) (cost : List (Nat × Nat)) : List (Nat × Nat) × State :=
  cost.foldl (fun acc e =>
    let (n, s) := acc.2.charge (e.1 / 256) lc (resOfKey e.1) (e.1 % 32) e.2
    (if n = 0 then acc.1 else acc.1 ++ [(e.1, n)], s)) ([], s)

/-- Tokens of HBM lines of one stack in ascending order (R375): each burst within a 2 KiB segment costs lines + 3. -/
def burstTokens (ls : List Nat) : Nat :=
  (ls.foldl (fun (acc : Nat × Option Nat) l =>
    match acc.2 with
    | some p => if l = p + 1 ∧ l % 32 ≠ 0 then (acc.1 + 1, some l) else (acc.1 + 4, some l)
    | none => (acc.1 + 4, some l)) (0, none)).1

/-- One start of a window at one key (R374): tokens = min(DEPTH, tokens + RATE). -/
def State.refill (s : State) (k : Nat) : State :=
  let w := s.sluOfKey k
  { s with tokens := s.tokens.set 0 k (min (sluDepth w) (s.tokens.get 0 k + sluRate w)) }

/-- A held request takes what tokens there are, burst by burst (R375). -/
def State.serveHeld (s : State) (ref : CmdRef) (lc : Bool) (k c : Nat) : State × List (Nat × Nat) :=
  let t := s.tokens.get 0 k
  let demoted := (s.pt (k / 256)).lcRun.isSome && !lc && (match ref with | .station _ _ _ => true | .ring _ => true)
  if !sluCap (s.sluOfKey k) then (s, [])
  else if demoted then (s, [(k, c)])
  else
    let d := min t c
    ({ s with tokens := s.tokens.set 0 k (t - d) }, if d = c then [] else [(k, c - d)])

/-- Every held request of every command is tried again. -/
def State.retryHeld (s : State) : State :=
  s.cmds.foldl (fun s c =>
    let (s, h) := c.held.foldl (fun (acc : State × List (Nat × Nat)) (k, n) =>
      let (s, l) := acc.1.serveHeld c.ref c.lc k n
      (s, acc.2 ++ l)) (s, [])
    { s with cmds := s.cmds.map fun d => if d.ref == c.ref then { d with held := h } else d }) s

/-- SLUICE_WINDOW (R374): the start of the next microsecond. -/
def execSluiceWindow (s : State) : Out :=
  if !s.ready then .next s
  else
    let (s, w) := s.endWindow s.sluWindow 1000
    let s := { s with sluWindow := w }
    let ks := (List.range 16).flatMap fun p => sluAll.flatMap fun r => (List.range (sluInsts r)).map fun i => sluKey p r i
    .next (ks.foldl State.refill s).retryHeld

end Sys2Proof.Machine
end

