-- ==== Sys2Proof/Machine/Contexts.lean ====
section
/-! DEFINITION. Commands in flight, fences, runs, rings' completions, the release of sections, the loss and the
destruction of contexts (R200 to R210, R233, R340 to R345, R354 to R357, R365 to R371, R528, R529). -/

namespace Sys2Proof.Machine

/-! ### Commands in flight -/

/-- The command of a reference, when it is in flight. -/
def State.cmd? (s : State) (ref : CmdRef) : Option Cmd := s.cmds.find? fun c => c.ref == ref
/-- The command of a reference changed. -/
def State.updCmd (s : State) (ref : CmdRef) (f : Cmd → Cmd) : State :=
  { s with cmds := s.cmds.map fun c => if c.ref == ref then f c else c }
/-- The commands of references removed. -/
def State.dropCmds (s : State) (refs : List CmdRef) : State :=
  State.flushAts { s with cmds := s.cmds.filter fun c => !refs.contains c.ref }
/-- The section of a station command. -/
def refSec : CmdRef → Option Nat
  | .station h _ _ => some h
  | .ring _ => none
/-- The commands of a section in flight. -/
def State.secCmds (s : State) (h : Nat) : List Cmd := s.cmds.filter fun c => refSec c.ref == some h

/-- References removed from every unit's queue and from the units themselves. -/
def State.unqueue (s : State) (refs : List CmdRef) : State :=
  { s with units := s.units.mapAll {} fun _ u =>
      { u with queue := u.queue.filter fun r => !refs.contains r, cur := u.cur.filter fun r => !refs.contains r } }

/-- Background weight sets loaded for commands are discarded, and loads for them end (R106, R370 step 6). -/
def State.dropLoads (s : State) (refs : List CmdRef) : State :=
  { s with pans := s.pans.mapAll {} fun _ p =>
      if p.loadingFor.any refs.contains then { p with loading := none, loadingFor := none, background := none } else p }

/-- Frames of a section's routes of a stream group are discarded, and the routes start at SEQ 0 (R258). -/
def State.dropFrames (s : State) (h : Nat) (routes : List Nat) : State :=
  s.updSec h fun x => { x with run := x.run.map fun r => { r with
    heldFrames := r.heldFrames.filter fun e => !routes.contains e.1
    buffers := r.buffers.filter fun e => !routes.contains (e.1 / 512)
    seqs := r.seqs.filter fun e => !routes.contains e.1 } }

/-- The members in flight of the stream group of a command, the command among them (R257). -/
def State.groupRefs (s : State) (ref : CmdRef) : List CmdRef :=
  match ref with
  | .ring _ => [ref]
  | .station h st i =>
    (((s.sec h).group st i).map fun e => CmdRef.station h e.1 e.2).filter fun r => r == ref || (s.cmd? r).isSome

/-- The routes of the stream group of a command. -/
def State.groupRoutes (s : State) (ref : CmdRef) : List Nat :=
  match ref with
  | .ring _ => []
  | .station h st i =>
    ((((s.sec h).group st i).flatMap fun e => (s.sec h).routesOf ((s.sec h).wordsAt e.1 e.2)).map Prod.fst).dedup

/-- The last write of a command is done: event W of R208. -/
def State.markWritten (s : State) (ref : CmdRef) : State := s.updCmd ref fun k => { k with phase := .written }

/-- The multicast tree requests and grants of commands end (R139, R370 step 4). -/
def State.dropTrees (s : State) (refs : List CmdRef) : State :=
  { s with clusters := s.clusters.mapAll {} fun _ k =>
      { k with trees := k.trees.filter fun r => !refs.contains r, granted := k.granted.filter fun r => !refs.contains r } }

/-- The multicast reservations of killed commands end: those at a receiver, whose copy is discarded and which the tree passes over from
then on, and those of a sender, whose tile is gone (R139, R370 step 4). -/
def State.dropRooms (s : State) (refs : List CmdRef) : State :=
  refs.foldl (fun s r => match r with
    | .ring _ => s
    | .station h st i => s.updSec h fun x => { x with run := x.run.map fun r => { r with
        rooms := r.rooms.filter fun e => e.receiver != (st, i) && e.sender != (st, i)
        passed := (r.passed ++ if r.rooms.any (fun e => e.receiver == (st, i)) then [(st, i)] else []).filter fun e => x.mcSource e.1 e.2 != some (st, i)
        tiles := r.tiles.filter fun e => e.1 != (st, i) } }) s

/-- Windows and ATS invalidations wait no longer for killed commands (R325, R327). -/
def State.dropUsers (s : State) (refs : List CmdRef) : State :=
  { s with
    windows := s.windows.mapAll {} fun _ w => { w with users := w.users.filter fun r => !refs.contains r }
    atsInvals := s.atsInvals.map fun a => { a with users := a.users.filter fun r => !refs.contains r } }

/-- Calls of killed commands (R429, R451): an entry that the service has taken is withdrawn, one that it has not is free
(DEDUCED, log entry 49); a part with the call in progress gets PORT_RST. -/
def State.withdrawCalls (s : State) (refs : List CmdRef) : State :=
  let named := fun (r : Option CmdRef) => r.any refs.contains
  let s : State := { s with svcs := s.svcs.mapAll {} fun _ v => { v with
    ring := v.ring.filterMap fun (e : Nat × Call) =>
      if !named e.2.ref then some e
      else if e.2.st = 2 then some (e.1, { e.2 with st := 3, ref := none }) else none } }
  let hit := s.xparts.keysWhere fun _ p => named (p.call.map XCall.ref)
  let s := hit.foldl (fun (s : State) p => s.emit (.portRst p)) s
  { s with xparts := s.xparts.mapAll {} fun _ p => { p with
      call := p.call.filter fun c => !refs.contains c.ref, waiting := p.waiting.filter fun r => !refs.contains r } }

/-- Commands killed (R370 steps 1 to 6): what had only been issued is gone, what executed waits for its units' reports.
cause: 1 pre-emption, 2 loss, 3 destruction, 4 RING_DESTROY, 5 parity re-run, 6 widening. -/
def State.kill (s : State) (refs : List CmdRef) (cause : Nat) : State :=
  let s := (s.dropLoads refs).dropTrees refs
  let s := refs.foldl (fun s r => match r with
    | .station h _ _ => s.dropFrames h (s.groupRoutes r)
    | .ring _ => s) s
  let s := (((s.unqueue refs).withdrawCalls refs).dropRooms refs).dropUsers refs
  let stop := fun (c : Cmd) =>
    if !refs.contains c.ref || c.phase == .recording then some c
    else if c.phase == .issued && (cause == 2 || cause == 3 || cause == 4) then none
    else some { c with phase := .killed, killCause := cause, staged := [], regWrites := [], descTs := [], sig := none, taken := [], held := [], ops := 0, wsets := [], acc := [], leaves := [] }
  State.flushAts { s with cmds := s.cmds.filterMap stop }

/-! ### Windows of WAIT and BARRIER (R226, R227) -/

/-- VALUE of a WAIT or SIGNAL: the register's when VAL_REG_EN is 1 (R225). -/
def Cmd.fenceValue (k : Cmd) : Nat :=
  if bit (at1 k.word 14) 1 then ((k.regs.getD (fld (at1 k.word 15) 0 6) 0).toNat) else at8 k.word 16

/-- TIMEOUT in ns: 0 means 2,000 ms (R225). -/
def timeoutNs (ms : Nat) : Nat := 1000000 * (if ms = 0 then 2000 else ms)

/-- The end of the window of a WAIT or a BARRIER (R226). -/
def Cmd.waitEnd (k : Cmd) : Nat := k.reached + timeoutNs (at2 k.word 12)

/-! ### Fences (R340 to R345) -/

/-- The slot of a handle that names a LIVE or ABANDONED fence of its generation (R340). -/
def State.fenceSlot (s : State) (handle : Nat) : Option Nat :=
  let i := handle % 65536
  let f := s.fe i
  if f.life != .free && f.gen == handle / 65536 then some i else none

/-- A WAIT's fence has the value that it waits for, or is abandoned, since a moment within the WAIT's window (R226). -/
def State.waitMet (s : State) (k : Cmd) (i : Nat) : Bool :=
  let f := s.fe i
  (decide (k.fenceValue ≤ f.value) || f.life == .abandoned) && (k.inTime || decide (f.changedAt < k.waitEnd))

/-- A fence is about to change: the WAITs that it has satisfied in time are noted, and the moment of the change. -/
def State.noteWaits (s : State) (i : Nat) : State :=
  { s.updFe i fun f => { f with changedAt := s.time.now } with
    cmds := s.cmds.map fun k =>
      if cOp k.word = 0xA0 ∧ s.fenceSlot (at4 k.word 8) = some i then { k with inTime := s.waitMet k i } else k }

/-- The handle of a slot. -/
def State.fenceHandle (s : State) (i : Nat) : Nat := i + 65536 * (s.fe i).gen

/-- The engine's write of a fence's mirror (R342); while the engine is lost mirrors are not written (R530). -/
def State.mirrorFence (s : State) (i : Nat) (flush1 : Bool) : State :=
  let f := s.fe i
  if f.mirror = 0 ∨ s.hub.lost then s
  else
    let s := if flush1 then s.emit (.flushRead 1) else s
    s.postHost 0 (s.cx f.owner).func f.mirror (leBytes 8 f.value)

/-- A signal of value v reaches a live fence (R341): with false when v lies below the value. An abandoned fence does not
change (R345). -/
def State.signalFence (s : State) (i v : Nat) (flush1 : Bool) : State × Bool :=
  let f := s.fe i
  if f.life != .live then (s, true)
  else if v < f.value then ({ s with fenceLower := satinc 32 s.fenceLower }, false)
  else if v = f.value then (s, true)
  else (((s.noteWaits i).updFe i fun f => { f with value := v }).mirrorFence i flush1, true)

/-- A slot whose owner has gone and that no sharer holds becomes FREE and raises its generation (R340, R345). -/
def State.reapFence (s : State) (i : Nat) : State :=
  let f := s.fe i
  if f.life == .abandoned && !f.owned && f.shares.isEmpty then
    { s.updFe i fun f => { gen := if f.gen = 0xFFFF then 1 else f.gen + 1 } with fenceFreed := s.fenceFreed ++ [i] }
  else s

/-- The owner of a fence is lost, destroyed or releases it: ABANDONED, its value as it was (R345). -/
def State.abandonFence (s : State) (i : Nat) : State :=
  ((s.noteWaits i).updFe i fun f => { f with life := .abandoned, owned := false }).reapFence i

/-- Every fence that a context owns is abandoned. -/
def State.abandonOwned (s : State) (c : Nat) : State :=
  (s.fences.keysWhere fun _ f => f.life == .live && f.owned && f.owner == c).foldl State.abandonFence s

/-- A context's access to a fence ends. -/
def State.unshareFence (s : State) (c i : Nat) : State :=
  (s.updFe i fun f => { f with shares := f.shares.filter fun x => x.ctx != c }).reapFence i

/-- Every access of a context to fences shared with it ends. -/
def State.unshareAll (s : State) (c : Nat) : State :=
  (s.fences.keysWhere fun _ f => f.shares.any fun x => x.ctx == c).foldl (fun s i => s.unshareFence c i) s

/-- A context may wait on, or signal, a fence (R343). -/
def State.mayFence (s : State) (c i : Nat) (signal : Bool) : Bool :=
  let f := s.fe i
  (f.owned && f.owner == c) || f.shares.any fun x => x.ctx == c && (if signal then x.signal else x.wait)

/-! ### Registers (R198) -/

/-- The check of a value for register r of section h (R198): its status, or 0. -/
def State.regCheck (s : State) (h r v : Nat) : Nat :=
  let x := s.sec h
  if x.regKind r = 1 then (if v ≤ x.regLimit r then 0 else 0x0103)
  else if x.regKind r = 2 then
    if v % 16 ≠ 0 then 0x0104
    else
      let o := s.ob (x.regObj r)
      if o.live && o.maps.any fun m => m.ctx == x.ctx && decide (m.va ≤ v) && decide (v + x.regLimit r ≤ m.va + o.size) then 0
      else 0x0103
  else 0x0102

/-- Registers of a section written. -/
def State.writeRegs (s : State) (h : Nat) (ws : List (Nat × Word)) : State :=
  s.updSec h fun x => { x with regs := ws.foldl (fun l e => l.set e.1 e.2) x.regs }

/-! ### Records (R210, R332) -/

/-- The index of the next command of a station's program. -/
def Section.head (x : Section) (st : Nat) : Nat := (x.run.map fun r => r.heads.get 0 st).getD 0

/-- The format of a descriptor in the present run (R188). -/
def Section.fmtOf (x : Section) (h : Nat) : Nat := x.fmts.get (x.desc h).fmt h

/-- The main destination of a command: the byte offset of its handle, the first that its payload gives (R167). -/
def mainDst? (op : Nat) : Option Nat := ((handlePlaces op).find? fun e => e.2).map (·.1)

def mainDst (op : Nat) : Nat := (mainDst? op).getD 10

/-- The record a command starts with: its formats are those of the first destination it names, at launch and now (R210). -/
def Section.infoOf (x : Section) (st i : Nat) (w : List Byte) : RecInfo :=
  let op := cOp w
  let d := (cHandles w).find? fun e => e.2
  { opcode := op, orig := d.elim 0 fun e => (x.desc e.1).fmt, final := d.elim 0 fun e => x.fmtOf e.1, st, idx := i, evt := cEvt w, tag := if op = 0xA2 then at8 w 8 else 0 }

/-- The 32 bytes of a command record (R210). -/
def RecInfo.bytes (r : RecInfo) (run time : Nat) : List Byte :=
  leBytes 2 r.status ++ leBytes 1 r.opcode
    ++ leBytes 1 (b2n r.nonfinite + 2 * b2n r.skipped + 4 * b2n r.abandoned + 8 * b2n r.refilled)
    ++ leBytes 4 r.sat ++ leBytes 4 r.accSat ++ leBytes 1 r.orig ++ leBytes 1 r.final
    ++ leBytes 1 (r.widenings % 16 + 16 * (r.reruns % 16)) ++ leBytes 1 0 ++ leBytes 2 r.st ++ leBytes 2 r.idx
    ++ leBytes 4 run ++ leBytes 8 time

/-- Staged bytes applied: HBM lines, core memory and reservoir now, host writes posted in ascending address order
(R208). A write to a page clears its refill link (R124). -/
def State.applyStaged (s : State) (ws : List (Loc × Byte)) : State :=
  let s := s.putHbm (ws.filterMap fun e => match e.1 with | .hbm p => some (p, e.2) | _ => none)
  let cm := ws.filterMap fun e => match e.1 with | .cm a => some (a, e.2) | _ => none
  let rs := ws.filterMap fun e => match e.1 with | .rs a => some (a, e.2) | _ => none
  let clear := fun (t : Tbl Page) (ps : List Nat) => ps.foldl (fun t p => t.upd {} p fun x => { x with refill := false, source := [] }) t
  let s := { s with chip := { s.chip with
    cm := cm.foldl (fun m e => m.wr e.1 e.2) s.chip.cm
    rs := rs.foldl (fun m e => m.wr e.1 e.2) s.chip.rs
    cmPages := clear s.chip.cmPages (cm.map fun e => e.1 / 65536).dedup
    rsPages := clear s.chip.rsPages (rs.map fun e => e.1 / 65536).dedup } }
  let host := ws.filterMap fun e => match e.1 with | .host l f a => some (s.linkOf l, f, a, e.2) | _ => none
  (host.mergeSort fun a b => decide (a.2.2.1 ≤ b.2.2.1)).foldl (fun s e => s.postHost e.1 e.2.1 e.2.2.1 [e.2.2.2]) s

/-- The record slot of a station command written with what the command reports (R210). -/
def State.writeRecord (s : State) (h : Nat) (r : RecInfo) : State :=
  let x := s.sec h
  let va := x.recordBase + 32 * (x.recordIndex r.st + r.idx)
  match s.stageVa { ctx := x.ctx, ref := some (.station h r.st r.idx) } va (r.bytes x.runNo s.time.now) with
  | (.ok ws, s) => s.applyStaged ws
  | (.error _, s) => s

/-- The record of a command that fails: its counts and final format are those of a run that committed (R210), and none
did, so that they are free values (log entry 62). -/
def State.writeFailure (s : State) (h status : Nat) (r : RecInfo) : State :=
  let f := fun n => (Config.freeWord (s.free + n)).toNat
  ({ s with free := s.free + 3 } : State).writeRecord h { r with
    status, final := f 0 % 256, sat := f 1 % 2 ^ 32, accSat := f 2 % 2 ^ 32 }

/-- The COMMAND event record of a command (R332, R346). -/
def State.commandEvent (s : State) (ref : CmdRef) (c : Nat) (r : RecInfo) : EvRec :=
  match ref with
  | .station h _ _ => { status := r.status, kind := 2, abandoned := r.abandoned, skipped := r.skipped, ctx := c, user := r.tag,
                        value := h + 2 ^ 32 * r.st + 2 ^ 48 * r.idx }
  | .ring slot => { status := r.status, kind := 2, abandoned := r.abandoned, skipped := r.skipped, ring := slot, ctx := c,
                    user := if r.opcode = 0xA2 then r.tag else (s.rg slot).user, value := r.value, pos := r.idx }

/-! ### Rings (R331 to R333, R339) -/

/-- The descriptor in progress of a ring completes: its record when EVT asks for it, it failed or its context is lost;
the ring is idle once the record has room (R329, R330, R348). -/
def State.completeRing (s : State) (r status value : Nat) (abandoned : Bool) : State :=
  let g := s.rg r
  let abandoned := abandoned || match g.work with
    | .exec _ _ ab => ab
    | _ => false
  if status = 0 ∧ !g.evt then s.updRg r fun g => { g with work := .idle }
  else
    let rec_ : EvRec := { status, kind := 1, abandoned, ring := r, ctx := g.ctx, user := g.user, value, pos := g.pos, irq := g.irq, wakeRing := some r }
    let (s, ok) := s.ctxEvent g.ctx rec_
    s.updRg r fun g => { g with work := if ok then .idle else .recWait }

/-- The command at an index of the EXEC buffer of a ring is reached (R331). -/
def State.reachRing (s : State) (r : Nat) : State :=
  match (s.rg r).work with
  | .exec ws i _ =>
    let w := ws.getD i []
    let g := s.rg r
    s.enterCmd
      { ref := .ring r, ctx := g.ctx, lc := g.lc, word := w, reached := s.time.now
        infos := [{ opcode := cOp w, idx := i, evt := cEvt w, tag := if cOp w = 0xA2 then at8 w 8 else 0 }] }
  | _ => s

/-- A command of an EXEC buffer has committed: the next is reached, or the EXEC completes (R331, R332). -/
def State.advanceRing (s : State) (r : Nat) (aband : Bool) : State :=
  match (s.rg r).work with
  | .exec ws i ab =>
    if i + 1 < ws.length then
      (s.updRg r fun g => { g with work := .exec ws (i + 1) (ab || aband) }).reachRing r
    else s.completeRing r 0 0 (ab || aband)
  | _ => s

/-! ### Latency-critical runs (R365) -/

/-- The latency-critical run of a partition ends. -/
def State.endLc (s : State) (p h : Nat) : State :=
  s.updPt p fun q => if q.lcRun == some h then { q with lcRun := none } else q

/-! ### Release of a section (R121, R354 step 5, R387) -/

/-- Pages moved to ZEROING; the owner stays noted until they are zeroed. -/
def zeroing (t : Tbl Page) (ps : List Nat) : Tbl Page :=
  ps.foldl (fun t p => t.upd {} p fun x => { fresh := false, owner := x.owner, st := 2, storedErr := x.storedErr }) t

/-- The tags of a section's weight sets cleared (R106). -/
def State.clearTags (s : State) (h : Nat) : State :=
  let gone := fun (t : Option WSet) => t.filter fun x => x.tag.sec != h
  { s with pans := s.pans.mapAll {} fun _ p => { p with active := gone p.active, background := gone p.background, loading := gone p.loading } }

/-- What a section holds is freed: pages to ZEROING, tags, unit bindings, parameter slots and descriptor copies. -/
def State.freeHoldings (s : State) (h : Nat) : State :=
  let x := s.sec h
  let s := { s with
    chip := { s.chip with
      cmPages := zeroing s.chip.cmPages (x.cmPages.flatten ++ x.bufPages)
      rsPages := zeroing s.chip.rsPages x.resPages }
    units := s.units.mapAll {} fun _ u => { u with binds := u.binds.filter fun b => b.1 != h } }
  (s.clearTags h).updSec h fun x => { x with cores := [], cmPages := [], resPages := [], bufPages := [], softParts := [], run := none }

/-- A translation invalidation announced for an object's mapping in a context (R145, R298). -/
def State.announce (s : State) (c h : Nat) : State :=
  let o := s.ob h
  match o.maps.find? fun m => m.ctx == c with
  | none => s
  | some m =>
    let s := s.updOb h fun o => { o with maps := o.maps.map fun x => if x.ctx == c then { x with removing := true } else x }
    { s with invals := s.invals ++ [{ ctx := c, va := m.va, size := o.size, obj := h }] }

/-- Resident sections of a context that name an object (R303). -/
def State.namesObj (s : State) (c h : Nat) : Bool :=
  s.secs.any fun e => e.2.ctx == c && !e.2.swapped && e.2.objs.contains h

/-- Objects that an unloaded section named: deferred unmappings go on once no section, resident or swapped out, names them any more, and
counts of 0 free (R302, R303). -/
def State.releaseObjs (s : State) (c : Nat) (objs : List Nat) : State :=
  objs.foldl (fun s h =>
    let named := s.secs.any fun e => e.2.ctx == c && e.2.objs.contains h
    let s := if (s.ob h).maps.any fun m => m.ctx == c && m.deferred && !m.removing && !named then s.announce c h else s
    s.freeObj h) s

/-- A section unloaded: its holdings, its copy and its handle are gone (R356). -/
def State.unloadSec (s : State) (h : Nat) : State :=
  let x := s.sec h
  let s := s.freeHoldings h
  let s := (s.endLc x.part h).moveSubs x.copySubs { st := 3 }
  { s with secs := s.secs.del h }.releaseObjs x.ctx x.objs

/-! ### Loss and destruction (R528, R354) -/

/-- The admin operation in progress of a function completes with its record (R336). -/
def State.adminDone (s : State) (f status value : Nat) (deferred lower : Bool) : State :=
  match (s.fn f).adminCur with
  | none => s
  | some a =>
    (s.updFn f fun g => { g with adminCur := none }).funcEvent f
      { status, kind := 4, deferred, lower, ctx := a.ctx, user := a.user, value, pos := a.pos, irq := a.irq }

/-! ### Token records of a Crystallizer session (R430, R433) -/

/-- Fields of a session block (R430). -/
def Session.ring (x : Session) : Nat := leAt x.block 16 2
def Session.tokVa (x : Session) : Nat := leAt x.block 96 8
def Session.tokLog2 (x : Session) : Nat := leAt x.block 104 1
def Session.tokFence (x : Session) : Nat := leAt x.block 108 4
def Session.tokConsumed (x : Session) : Nat := leAt x.block 112 8

/-- A token record (R433). -/
def tokenRecord (id token pos reason : Nat) : List Byte :=
  leBytes 8 id ++ leBytes 4 token ++ leBytes 4 (pos % 2 ^ 22 + 2 ^ 22 * reason)

/-- Slots of the token ring that hold no unread record: the context reads its consumed count through its translation. -/
def State.tokenRoom (s : State) (c : Nat) (x : Session) : Except Nat Nat × State :=
  match s.readVa { ctx := c, ref := none } x.tokConsumed 8 with
  | (.error e, s) => (.error e, s)
  | (.ok b, s) => (.ok (2 ^ x.tokLog2 - (x.written - leNat b)), s)

/-- Token records written to their slots, then TOK_FENCE signalled with their total (R433). -/
def State.putTokens (s : State) (c : Nat) (rs : List (List Byte)) : State :=
  let x := s.sessions.get {} c
  let s : State := rs.zipIdx.foldl (fun (s : State) (r, i) =>
    match s.stageVa { ctx := c, ref := none } (x.tokVa + 16 * ((x.written + i) % 2 ^ x.tokLog2)) r with
    | (.ok ws, s) => s.applyStaged ws
    | (.error _, s) => s) s
  let n := x.written + rs.length
  let s := { s with sessions := s.sessions.put c { x with written := n } }
  match s.fenceSlot x.tokFence with
  | some i => if s.mayFence c i true && !rs.isEmpty then (s.signalFence i n false).1 else s
  | none => s

/-- A session closed: every open request gets a record with a reason, as far as the ring has room (R431, R435). -/
def State.endSession (s : State) (c reason : Nat) : State :=
  if !s.sessions.any fun e => e.1 == c then s
  else
    let x := s.sessions.get {} c
    let (room, s) := s.tokenRoom c x
    let n := match room with
      | .ok n => n
      | .error _ => 0
    let s := s.putTokens c ((x.reqs.take n).map fun r => tokenRecord r.id 0 r.prompt.length reason)
    { s with sessions := s.sessions.del c }

/-- A destroyed context with nothing left of it is FREE: its DESTROYED record, and the end of its CTX_DESTROY (R354
step 8). -/
def State.finishDestroy (s : State) (c : Nat) : State :=
  let x := s.cx c
  let held := fun (t : Tbl Page) => t.any fun e => e.2.st == 2 && !e.2.fresh && e.2.owner == c
  if x.life != .destroying || !x.settled || held s.chip.cmPages || held s.chip.rsPages
      || s.invals.any (fun i => i.ctx == c) then s
  else
    let s := s.freeTables c
    let s := if s.ctxs.any fun e => e.1 != c && e.2.life != .free && e.2.part == x.part then s else s.freeTables (256 + x.part)
    let s := { s with ctxs := s.ctxs.del c }
    let s := s.logEv 0x4003 0 0 0 c [0, 0, 0]
    let s := s.funcEvent x.func { kind := 6, ctx := c }
    match (s.fn x.func).adminCur with
    | some a => if a.op = 0x11 ∧ a.ctx = c then s.adminDone x.func 0 0 false false else s
    | none => s

/-- Steps 4 to 6 of R528, or 4 to 7 of R354, once no command of the context is in flight. -/
def State.settle (s : State) (c : Nat) : State :=
  let x := s.cx c
  if x.settled || s.cmds.any (fun k => k.ctx == c) then s
  else if x.life == .lost then
    let s := s.updCx c fun x => { x with settled := true }
    let s := (s.abandonOwned c).endSession c 5
    let r : EvRec := { status := x.lossStatus, kind := 3, ctx := c }
    let s := (s.ctxEvent c r).1
    s.funcEvent x.func r
  else if x.life == .destroying then
    let s := s.updCx c fun x => { x with settled := true }
    let s := (s.abandonOwned c).unshareAll c
    let s := { s with sessions := s.sessions.del c }
    let s := (s.secs.keysWhere fun _ y => y.ctx == c).foldl State.unloadSec s
    let s := (s.objs.keysWhere fun _ o => o.live && o.maps.any fun m => m.ctx == c && !m.removing).foldl (fun s h => s.announce c h) s
    let s := { s with
      objs := s.objs.mapAll {} fun _ o => if o.owner == c && o.live then { o with exports := [] } else { o with exports := o.exports.filter fun e => e.1 != c }
      rings := s.rings.filter fun e => e.2.ctx != c }
    s.finishDestroy c
  else s

/-- What ends at once when a context is lost or destroyed: its commands, its runs, its replays and its calls. -/
def State.stopCtx (s : State) (c cause : Nat) : State :=
  let refs := (s.cmds.filter fun k => k.ctx == c).map Cmd.ref
  let s := s.abortMsgs refs
  let s := s.kill refs cause
  let hs := s.secs.keysWhere fun _ x => x.ctx == c
  let s := hs.foldl (fun s h => (s.endLc (s.sec h).part h).updSec h fun x => { x with run := none }) s
  { s with
    replays := s.replays.filter fun r => r.ctx != c
    parts := s.parts.mapAll {} fun _ p => { p with lcWait := p.lcWait.filter fun h => !hs.contains h } }

/-- The loss of a context for its first failure (R528, R529). Its other descriptors in progress complete with
CONTEXT_LOST (R339). -/
def State.loseCtx (s : State) (c status : Nat) : State :=
  if (s.cx c).life != .live then s
  else
    let s := s.updCx c fun x => { x with life := .lost, lossStatus := status, settled := false }
    let s := s.logEv 0x4002 2 0 0 c [status, 0, 0]
    let s := s.stopCtx c 2
    let busy := s.rings.keysWhere fun _ r => r.ctx == c && r.live && r.work != .idle && r.work != .recWait
    let s := busy.foldl (fun s r => s.completeRing r 0x0801 0 false) s
    s.settle c

/-! ### Failure of a command (R209, R258, R529) -/

/-- The COMMAND record of an EXEC command that fails: R332 gives the VALUE of a WAIT at commit and of what a SIGNAL set,
so that it is free for one of these that fails (log entry 62), and 0 for another. -/
def State.eventFailure (s : State) (ref : CmdRef) (c status : Nat) (r : RecInfo) : State :=
  if r.opcode = 0xA0 ∨ r.opcode = 0xA1 then
    let v := (Config.freeWord s.free).toNat
    let s : State := { s with free := s.free + 1 }
    (s.ctxEvent c (s.commandEvent ref c { r with status, value := v })).1
  else (s.ctxEvent c (s.commandEvent ref c { r with status })).1

/-- The failure records of every member of a command's stream group (R258): those in flight, and those that have not issued yet. -/
def State.failRecords (s : State) (h : Nat) (ref : CmdRef) (status : Nat) : State :=
  match ref with
  | .ring _ => s
  | .station _ st i =>
    let x := s.sec h
    (x.group st i).foldl (fun s e => match s.cmd? (.station h e.1 e.2) with
      | some c => c.infos.foldl (fun s i => s.writeFailure h status { i with reruns := c.reruns }) s
      | none =>
        if e.2 < x.head e.1 then s
        else ((x.wordsAt e.1 e.2).mapIdx fun j w => x.infoOf e.1 (e.2 + j) w).foldl (fun s i => s.writeFailure h status i) s) s

/-- A command fails with a status: its group's records, its ring's completion, and the loss of its context. -/
def State.failCmd (s : State) (ref : CmdRef) (status : Nat) : State :=
  match s.cmd? ref with
  | none => s
  | some k =>
    let refs := s.groupRefs ref
    let ks := s.cmds.filter fun c => refs.contains c.ref
    let s : State := match ref with
      | .station h _ _ =>
        let s := s.failRecords h ref status
        match s.replays.find? fun r => r.sec == h with
        | some r => match r.ref with
          | .ring slot =>
            let s := s.eventFailure r.ref k.ctx status (((s.cmd? r.ref).bind fun c => c.infos.head?).getD {})
            s.completeRing slot status 0 false
          | .station _ _ _ => s
        | none => s
      | .ring slot =>
        let s := k.infos.foldl (fun s i => s.eventFailure ref k.ctx status i) s
        s.completeRing slot status 0 false
    let s := if status = 0x0301 then s.logEv 0x7003 2 0 0 k.ctx [status, 0, 0]
      else if status = 0x0302 then s.logEv 0x7002 2 0 0 k.ctx [status, 0, 0] else s
    let s := (s.abortMsgs refs).kill refs 2
    s.loseCtx k.ctx status

/-! ### Runs (R233, R268, R365, R384) -/

/-- Every command of the run of a section has committed. -/
def State.runDone (s : State) (h : Nat) : Bool :=
  let x := s.sec h
  match x.run with
  | none => false
  | some r => (s.secCmds h).isEmpty && (List.range x.nStations).all fun st => decide (x.progLen st ≤ r.heads.get 0 st)

/-- The section is still in a run of its own. -/
def State.inRun (s : State) (h : Nat) : Bool := (s.sec h).run.isSome

/-- The end of a run: R384's comparison, R233's steps, and the next run's turn. -/
def State.endRun (s : State) (h : Nat) : State :=
  let x := s.sec h
  let started := (x.run.map Run.started).getD 0
  let s := s.updSec h fun x => { x with run := none }
  let s := s.endLc x.part h
  let s := if x.admitted && decide (started + x.deadline < s.time.now) then
      (s.updPt x.part fun p => { p with lcLate := satinc 32 p.lcLate }).logEv 0x7001 1 0 0 x.ctx [0, 0, 0]
    else s
  match s.replays.find? fun r => r.sec == h with
  | none => s
  | some r =>
    let stepped : Nat × State := match r.stepReg with
      | none => (0, s)
      | some g =>
        let v := ((s.sec h).regs.getD g 0 + BitVec.ofNat 64 r.stepImm)
        let e := s.regCheck h g v.toNat
        if e = 0 then (0, s.writeRegs h [(g, v)]) else (e, s)
    let s := stepped.2
    if stepped.1 ≠ 0 then s.failCmd r.ref stepped.1
    else
      let stop := r.left ≤ 1 ∨ (r.predReg.any fun g => (s.sec h).regs.getD g 0 == 0)
      if stop then
        { s with replays := s.replays.filter fun q => q.ref != r.ref }.updCmd r.ref fun c => { c with phase := .written }
      else
        let s := { s with replays := s.replays.map fun q => if q.ref == r.ref then { q with left := q.left - 1 } else q }
        if x.lc then s.updPt x.part fun p => { p with lcWait := p.lcWait ++ [h] } else s

/-! ### BARRIER (R227) -/

/-- No earlier command of the same station program is in flight (R227). -/
def State.earlierDone (s : State) (ref : CmdRef) : Bool :=
  match ref with
  | .ring _ => true
  | .station h st i => s.cmds.all fun k => match k.ref with
    | .station g t j => !(g == h && t == st && decide (j < i))
    | .ring _ => true

/-- The BARRIERs with an ID in a station's program, in order. -/
def Section.barriers (x : Section) (st id : Nat) : List Nat :=
  (x.starts st).filter fun i => cOp (x.word st i) == 0xA3 && fld (at1 (x.word st i) 8) 0 4 == id

/-- A station has reached one of its BARRIERs with all earlier commands committed, or is past it. -/
def State.atBarrier (s : State) (h st i : Nat) : Bool :=
  let ref : CmdRef := .station h st i
  match s.cmd? ref with
  | some _ => s.earlierDone ref
  | none => decide (i < (s.sec h).head st)

/-- The BARRIERs of one ID and generation: that of each station program with one of the ID. -/
def State.barrierSet (s : State) (ref : CmdRef) : List CmdRef :=
  match ref, s.cmd? ref with
  | .station h st i, some k =>
    let x := s.sec h
    let id := fld (at1 k.word 8) 0 4
    let gen := ((x.barriers st id).findIdx? (· == i)).getD 0
    (List.range x.nStations).filterMap fun t =>
      let l := x.barriers t id
      if l.isEmpty then none else some (.station h t (l.getD gen 65536))
  | _, _ => []

/-- A BARRIER that waits and its peers are all reached, within the windows of those that wait. -/
def State.barrierMet (s : State) (ref : CmdRef) : Bool :=
  (s.barrierSet ref).all fun r => match r with
    | .station h t i => s.atBarrier h t i && (s.cmd? r).all fun k => k.skipped || decide (s.time.now < k.waitEnd)
    | .ring _ => false

/-- A complete BARRIER passes with its peers. -/
def State.passBarrier (s : State) (ref : CmdRef) : State :=
  if s.barrierMet ref then
    (s.barrierSet ref).foldl (fun s r => if (s.cmd? r).any fun k => k.phase == .issued && !k.skipped then s.markWritten r else s) s
  else s

/-- The BARRIERs of a section that wait pass as soon as they are complete. -/
def State.passBarriers (s : State) (h : Nat) : State :=
  ((s.secCmds h).filter fun k => cOp k.word == 0xA3 && k.phase == .issued && !k.skipped).foldl (fun s k => s.passBarrier k.ref) s

/-- Steps 7 and 8 of R208 for a command that has its records: the fence, and what waited for the commit. -/
def State.finishCmd (s : State) (k : Cmd) : State :=
  let flush1 := k.staged.any fun e => match e.1 with | .host l _ _ => s.linkOf l == 1 | _ => false
  let s : State := match k.sig with
    | none => s
    | some g => match g.engine with
      | some e => s.sendSignal { engine := e, domain := s.hzn.domainOf k.ctx, handle := g.handle, value := g.value, since := s.time.now }
      | none => match s.fenceSlot g.handle with
        | some i => (s.signalFence i g.value flush1).1
        | none => s
  let s := (s.dropCmds [k.ref]).unqueue [k.ref]
  match k.ref with
  | .station h _ _ => let s := s.passBarriers h; if s.runDone h then s.endRun h else s
  | .ring r => s.advanceRing r (k.infos.any RecInfo.abandoned)

/-- A commit or completion whose record has been written, or dropped, goes on (R348). -/
def State.wake (s : State) (r : EvRec) : State :=
  let s : State := match r.wakeRing with
    | some g => s.updRg g fun x => if x.work == .recWait then { x with work := .idle } else x
    | none => s
  match r.wake with
  | some ref => (s.groupRefs ref).foldl (fun s r => match s.cmd? r with
    | some k => if k.phase == .recording then s.finishCmd k else s
    | none => s) s
  | none => s

/-- Records that waited for room in a context's event ring, written in order while there is room (R348). -/
def State.drainCtx (s : State) (c : Nat) : Nat → State
  | 0 => s
  | n + 1 =>
    match (s.cx c).evWait with
    | [] => s.updCx c fun x => { x with fullSince := none }
    | r :: rest =>
      if s.ctxFull c then s
      else
        let s := (s.putCtx c r).updCx c fun x => { x with evWait := rest, fullSince := if rest.isEmpty then none else x.fullSince }
        State.drainCtx (s.wake r) c n

/-- The waiting records of a context dropped; what waited for them goes on without them (R348). -/
def State.dropWaiting (s : State) (c : Nat) : State :=
  let rs := (s.cx c).evWait
  rs.foldl State.wake (s.updCx c fun x => { x with evWait := [], fullSince := none })

/-- The destruction of a context begins (event X of R354). -/
def State.destroyCtx (s : State) (c : Nat) : State :=
  if (s.cx c).life == .free || (s.cx c).life == .destroying then s
  else
    let s := s.updCx c fun x => { x with life := .destroying, settled := false }
    let s := s.dropWaiting c
    let s := { s with rings := s.rings.mapAll {} fun _ r => if r.ctx == c then { r with work := .idle } else r }
    (s.stopCtx c 3).settle c

end Sys2Proof.Machine
end

