-- ==== Sys2Proof/Machine/Admin.lean ====
section
/-! DEFINITION. The administration operations (R300 to R303, R336 to R338, R340 to R345, R354, R355). An operation of the
table acts when it is the descriptor at the head of the function's admin ring. -/

namespace Sys2Proof.Machine

/-- LOG2 of the admin ring. -/
def Func.adminLog2 (f : Func) : Nat := fld f.adminCfg.toNat 0 5

/-- The operations of R337. -/
def adminOps : List Nat :=
  [0x10, 0x11, 0x20, 0x21, 0x30, 0x31, 0x32, 0x33, 0x40, 0x41, 0x42, 0x43, 0x44, 0x45]

/-- The payload fields of an operation: byte offset, bytes, and the bits that are not reserved (R337). -/
def adminFields (op : Nat) : List (Nat × Nat × Nat) :=
  if op = 0x10 then [(16, 1, 0xFF), (17, 1, 0xFF), (18, 2, 0xFFFF), (20, 2, 0xFFFF), (24, 8, 2 ^ 64 - 1), (32, 8, 2 ^ 64 - 1)]
  else if op = 0x20 then [(16, 1, 0xFF), (17, 1, 3), (24, 8, 2 ^ 64 - 1), (32, 8, 2 ^ 64 - 1)]
  else if op = 0x21 then [(16, 2, 0xFFFF)]
  else if op = 0x30 then [(16, 8, 2 ^ 64 - 1), (24, 8, 2 ^ 64 - 1), (32, 1, 1), (36, 4, 2 ^ 18 - 1), (40, 4, 2 ^ 18 - 1)]
  else if op = 0x31 then [(16, 4, 2 ^ 32 - 1), (20, 1, 0xFF), (21, 1, 3)]
  else if op = 0x32 ∨ op = 0x42 then [(16, 4, 2 ^ 32 - 1)]
  else if op = 0x33 then [(16, 4, 2 ^ 32 - 1), (24, 8, 2 ^ 64 - 1)]
  else if op = 0x40 then [(16, 8, 2 ^ 64 - 1), (24, 8, 2 ^ 64 - 1), (32, 4, 2 ^ 32 - 1), (36, 1, 1)]
  else if op = 0x41 then [(16, 8, 2 ^ 64 - 1), (24, 8, 2 ^ 64 - 1), (32, 2, 0xFFFF), (36, 1, 1), (40, 8, 2 ^ 64 - 1)]
  else if op = 0x43 then [(16, 4, 2 ^ 32 - 1), (20, 1, 0xFF), (21, 1, 1)]
  else if op = 0x44 then [(16, 4, 2 ^ 32 - 1), (24, 8, 2 ^ 64 - 1), (32, 1, 1)]
  else if op = 0x45 then [(16, 4, 2 ^ 32 - 1), (20, 1, 0xFF)]
  else []

/-- No reserved bit of a descriptor is 1: header bits of R329 and the fields of its operation. -/
def reservedOk (b : List Byte) (fields : List (Nat × Nat × Nat)) : Bool :=
  let used := [(0, 1, 0xFF), (1, 1, 3), (2, 1, 0xFF), (8, 8, 2 ^ 64 - 1)] ++ fields
  let mask := (used.map fun f => f.2.2 * 2 ^ (8 * f.1)).foldl (· ||| ·) 0
  leNat (b.take 64) &&& mask == leNat (b.take 64)

/-- An admin operation may be taken: the ring runs, nothing is in progress, a descriptor waits and the function event
ring has room (R321, R336, R349). -/
def State.adminReady (s : State) (f : Nat) : Bool :=
  let g := s.fn f
  s.ready && s.funcExists f && g.enable && g.adminCur.isNone && cdist 32 g.adminTail g.adminHead != 0
    && !(s.refreshFunc f).funcFull f && g.evWait.isEmpty

/-- The descriptor at the head of the admin ring (R328). -/
def State.adminDesc (s : State) (f : Nat) : List Byte :=
  let g := s.fn f
  s.hostMem.rdN (g.adminBase.toNat / 1024 * 1024 + 64 * (g.adminHead % 2 ^ g.adminLog2)) 64

/-- The head descriptor taken: the head moves on and is written back (R335). -/
def State.takeAdmin (s : State) (f : Nat) : State :=
  let d := s.adminDesc f
  let g := s.fn f
  let h := (g.adminHead + 1) % 2 ^ 32
  let s := (s.refreshFunc f).updFn f fun g => { g with
    adminHead := h
    adminCur := some { op := at1 d 0, pos := g.adminHead, user := at8 d 8, irq := bit (at1 d 1) 1, ctx := at1 d 2 } }
  s.postHost 0 f (g.adminHeadwb.toNat / 4 * 4) (leBytes 4 h)

/-- A context that a function owns and may operate on (R337). -/
def State.ownsCtx (s : State) (f c : Nat) : Bool :=
  let x := s.cx c
  (x.life == .live || x.life == .lost) && x.func == f

/-- What an operation of the admin ring does: a status with nothing changed, the value of a completed operation, or a
completion that comes later. -/
inductive AdminRes where
  | fail (status : Nat)
  | done (s : State) (value : Nat) (lower : Bool)
  | later (s : State)

/-- One admin operation of function f, run on the descriptor at the head of its ring (R336, R337, R359): not this
operation's turn means nothing happens; a malformed descriptor fails itself alone. -/
def State.runAdmin (s : State) (f op : Nat) (body : List Byte → State → AdminRes) : State :=
  if !s.adminReady f then s
  else
    let d := s.adminDesc f
    let known := adminOps.contains (at1 d 0)
    if known && at1 d 0 != op then s
    else
      let s := s.takeAdmin f
      if !known || !reservedOk d (adminFields op) then s.adminDone f 0x0102 0 false false
      else if op != 0x10 && !s.ownsCtx f (at1 d 2) then s.adminDone f 0x0202 0 false false
      else match body d s with
        | .fail st => s.adminDone f st 0 false false
        | .done s v lower => s.adminDone f 0 v false lower
        | .later s => s

/-- Quota fields of HIF_VF_CFG (R322). -/
def vfMaxCtx (w : Word) : Nat := fld w.toNat 0 9
def vfMaxRings (w : Word) : Nat := fld w.toNat 16 11
def vfParts (w : Word) : Nat := fld w.toNat 48 16

/-- Contexts of a function. -/
def State.ctxsOf (s : State) (f : Nat) : List Nat := s.ctxs.keysWhere fun _ x => x.life != .free && x.func == f

/-- The lowest context ID that R293 allows. -/
def State.freeCtx (s : State) : Option Nat :=
  (List.range 256).find? fun c => (s.cx c).life == .free && s.hbm.dir.all fun e => !(e.2.st == 1 && e.2.tag == c)

/-- CTX_CREATE (R337, R338, R293). -/
def opCtxCreate (f : Nat) (d : List Byte) (s : State) : AdminRes :=
  let p := at1 d 16
  let x := s.pt p
  let inPart := s.ctxs.keysWhere fun _ y => y.life != .free && y.part == p
  if 16 ≤ p ∨ at1 d 17 < 6 ∨ 16 < at1 d 17 ∨ 1023 < at2 d 20 then .fail 0x0102
  else if at8 d 24 % 2048 ≠ 0 ∨ at8 d 32 % 4 ≠ 0 then .fail 0x0104
  else if (x.mode ≠ 1 ∧ x.mode ≠ 2) ∨ (f ≠ 0 ∧ !bit (vfParts (s.fn f).vfCfg) p)
      ∨ (x.mode = 1 ∧ inPart.any fun c => (s.cx c).func != f) then .fail 0x0202
  else if (f ≠ 0 ∧ vfMaxCtx (s.fn f).vfCfg ≤ (s.ctxsOf f).length) ∨ (x.mode = 1 ∧ 8 ≤ inPart.length) then .fail 0x0106
  else match s.freeCtx with
    | none => .fail 0x0106
    | some c =>
      let x : Ctx :=
        { life := .live, func := f, part := p, evBase := at8 d 24, evLog2 := at1 d 17, evVector := at2 d 18, evModer := at2 d 20, evConsumedAt := at8 d 32 }
      let s := { s with ctxs := s.ctxs.put c x }
      .done (s.updFn f fun g => { g with adminCur := g.adminCur.map fun a => { a with ctx := c } }) c false

/-- CTX_CREATE (R338). -/
def execCtxCreate (func : Nat) (s : State) : Out := .next (s.runAdmin func 0x10 (opCtxCreate func))

/-- CTX_DESTROY (R354): the record comes when the context is FREE. -/
def execCtxDestroy (func : Nat) (s : State) : Out :=
  .next (s.runAdmin func 0x11 fun d s => .later (s.destroyCtx (at1 d 2)))

/-- RING_CREATE (R337). -/
def opRingCreate (f : Nat) (d : List Byte) (s : State) : AdminRes :=
  let c := at1 d 2
  let mine := s.rings.keysWhere fun _ r => r.live && r.ctx == c
  let funcs := s.rings.keysWhere fun _ r => r.live && (s.cx r.ctx).func == f
  if at1 d 16 < 4 ∨ 16 < at1 d 16 then .fail 0x0102
  else if at8 d 24 % 1024 ≠ 0 ∨ at8 d 32 % 4 ≠ 0 then .fail 0x0104
  else if 16 ≤ mine.length ∨ (f ≠ 0 ∧ vfMaxRings (s.fn f).vfCfg ≤ funcs.length) then .fail 0x0106
  else match (List.range 1024).find? fun r => !(s.rg r).live with
    | none => .fail 0x0106
    | some r =>
      let g : Ring :=
        { live := true, ctx := c, lc := bit (at1 d 17) 0, link := bit (at1 d 17) 1, log2 := at1 d 16, base := at8 d 24, headwb := at8 d 32 }
      .done { s with rings := s.rings.put r g } r false

/-- RING_CREATE (R337). -/
def execRingCreate (func : Nat) (s : State) : Out := .next (s.runAdmin func 0x20 (opRingCreate func))

/-- The run that a REPLAY of a ring drives ends: its commands are killed and the section stays resident (R355). -/
def State.endReplay (s : State) (r : Nat) : State :=
  match s.replays.find? fun q => q.ref == .ring r with
  | none => s
  | some q =>
    let s := s.kill ((s.secCmds q.sec).map Cmd.ref) 4
    let s := s.endLc (s.sec q.sec).part q.sec
    { (s.updSec q.sec fun x => { x with run := none }) with replays := s.replays.filter fun p => p.ref != q.ref }

/-- RING_DESTROY (R355). -/
def opRingDestroy (d : List Byte) (s : State) : AdminRes :=
  let r := at2 d 16
  let g := s.rg r
  if !(decide (r < 1024) && g.live && g.ctx == at1 d 2) then .fail 0x0202
  else
    let n := cdist 32 g.tail g.head + b2n (g.work != .idle)
    let s := (s.endReplay r).kill [.ring r] 4
    let s := s.dropCmds [.ring r]
    let s := s.updCx g.ctx fun x => { x with evWait := x.evWait.filter fun e => e.wakeRing != some r }
    .done { s with rings := s.rings.del r } n false

/-- RING_DESTROY (R355). -/
def execRingDestroy (func : Nat) (s : State) : Out := .next (s.runAdmin func 0x21 opRingDestroy)

/-- The next fence slot: slots are allocated in the order in which they became FREE (R340). -/
def State.nextFence (s : State) : Option (Nat × State) :=
  if s.fenceFresh < 65536 then some (s.fenceFresh, { s with fenceFresh := s.fenceFresh + 1 })
  else match s.fenceFreed with
    | i :: rest => some (i, { s with fenceFreed := rest })
    | [] => none

/-- FENCE_CREATE (R337, R340, R342). -/
def opFenceCreate (d : List Byte) (s : State) : AdminRes :=
  if at8 d 24 % 8 ≠ 0 then .fail 0x0104
  else match s.nextFence with
    | none => .fail 0x0106
    | some (i, s) =>
      let s := s.updFe i fun f => { life := .live, gen := f.gen, changedAt := s.time.now, owner := at1 d 2, owned := true, value := at8 d 16
                                    mirror := at8 d 24, remote := bit (at1 d 32) 0, base := at4 d 36, mask := at4 d 40 }
      .done (s.mirrorFence i false) (s.fenceHandle i) false

/-- FENCE_CREATE (R337). -/
def execFenceCreate (func : Nat) (s : State) : Out := .next (s.runAdmin func 0x30 opFenceCreate)

/-- FENCE_SHARE (R337, R343). -/
def opFenceShare (d : List Byte) (s : State) : AdminRes :=
  let t := at1 d 20
  match s.fenceSlot (at4 d 16) with
  | none => .fail 0x0202
  | some i =>
    let f := s.fe i
    let others := f.shares.filter fun x => x.ctx != t
    if f.life != .live || !f.owned || f.owner != at1 d 2 || (s.cx t).life != .live then .fail 0x0202
    else if 16 ≤ others.length then .fail 0x0106
    else .done (s.updFe i fun f => { f with
      shares := others ++ [{ ctx := t, wait := bit (at1 d 21) 0, signal := bit (at1 d 21) 1 }] }) 0 false

/-- FENCE_SHARE (R337). -/
def execFenceShare (func : Nat) (s : State) : Out := .next (s.runAdmin func 0x31 opFenceShare)

/-- FENCE_RELEASE (R345): the owner's abandons the fence, a sharer's ends its access. -/
def opFenceRelease (d : List Byte) (s : State) : AdminRes :=
  let c := at1 d 2
  match s.fenceSlot (at4 d 16) with
  | none => .fail 0x0202
  | some i =>
    let f := s.fe i
    if f.owned && f.owner == c then .done (s.abandonFence i) 0 false
    else if f.shares.any fun x => x.ctx == c then .done (s.unshareFence c i) 0 false
    else .fail 0x0202

/-- FENCE_RELEASE (R345). -/
def execFenceRelease (func : Nat) (s : State) : Out := .next (s.runAdmin func 0x32 opFenceRelease)

/-- FENCE_SIGNAL (R341): a lower value changes nothing, sets LOWER and counts as FENCE_LOWER. -/
def opFenceSignal (f : Nat) (d : List Byte) (s : State) : AdminRes :=
  match s.fenceSlot (at4 d 16) with
  | none => .fail 0x0202
  | some i =>
    let x := s.fe i
    if x.life != .live || !x.owned || x.owner != at1 d 2 then .fail 0x0202
    else
      let (s, ok) := s.signalFence i (at8 d 24) false
      .done (if ok then s else s.viol f 5) (s.fe i).value !ok

/-- FENCE_SIGNAL (R341). -/
def execFenceSignal (func : Nat) (s : State) : Out := .next (s.runAdmin func 0x33 (opFenceSignal func))

/-! ### Objects (R300 to R303) -/

/-- A VA range meets a mapping of the contexts that share the translation (R337, R352). -/
def State.vaTaken (s : State) (c va size : Nat) : Bool :=
  let pages := cdiv size (2 ^ 21)
  s.objs.any fun e => e.2.live && e.2.maps.any fun m =>
      (s.translationPeers c).contains m.ctx && meets va (pages * 2 ^ 21) m.va (cdiv e.2.size (2 ^ 21) * 2 ^ 21)

/-- The trained stacks that an object's pages come from: those of STACK_MASK, or the default set (R300). -/
def State.stackSet (s : State) (c mask : Nat) : List Nat :=
  if mask = 0 then s.defaultStacks (s.cx c).part else (ones 20 mask).filter fun k => (s.stk k).st == 1

/-- OBJ_CREATE (R300): its sub-pages go to TAGGING; the completion comes when every one is OWNED. A pool without sub-pages for the
tables that its mapping needs fails it with CAPACITY too (R281; DESIGN CHOICE, log entry 82). -/
def opObjCreate (f : Nat) (d : List Byte) (s : State) : AdminRes :=
  let c := at1 d 2
  let size := at8 d 16
  let va := at8 d 24
  if size = 0 ∨ 2 ^ 48 < va + size then .fail 0x0102
  else if size % 65536 ≠ 0 ∨ va % 2 ^ 21 ≠ 0 then .fail 0x0104
  else if s.vaTaken c va size then .fail 0x0105
  else
    match s.pagesFor (s.stackSet c (at4 d 32)) size with
    | none => .fail 0x0106
    | some ps =>
      let h := s.nextObj
      let s := s.moveSubs (objSubs ps (size / 65536)) { tag := c, st := 4, obj := h }
      match s.makeTables c va size with
      | none => .fail 0x0106
      | some s =>
        let s := { s with nextObj := (h + 1) % 2 ^ 32 }
        let s := s.updOb h fun _ => { live := true, owner := c, func := f, size, pages := ps, maps := [{ ctx := c, va, w := bit (at1 d 36) 0 }] }
        .later (s.updFn f fun g => { g with adminCur := g.adminCur.map fun a => { a with obj := h } })

/-- OBJ_CREATE (R300). -/
def execObjCreate (func : Nat) (s : State) : Out := .next (s.runAdmin func 0x40 (opObjCreate func))

/-- The physical page of an object's i-th page. -/
def State.objPage (s : State) (h i : Nat) : Nat :=
  let o := s.ob h
  match o.host with
  | none => o.pages.getD i 0
  | some (w, off) => 2 ^ 26 + (s.windows.get {} w).page + off / 2 ^ 21 + i

/-- The leaves of an object's mapping written (R296, R301). -/
def State.mapObj (s : State) (h c va : Nat) (w : Bool) : State :=
  let o := s.ob h
  s.addLeaves c (objLeaves h o.owner o.size w (c != o.owner) (s.objPage h) va)

/-- SUBPAGE_TAGGING_COMPLETE (R300): lines written with zero data and the owner's tag; the last one completes the
creation. -/
def execSubpageTaggingComplete (stack sub : Nat) (s : State) : Out :=
  if 20 ≤ stack ∨ 2 ^ 20 ≤ sub then .fault (.noSuchUnit "sub-page")
  else
    let x := stack * 2 ^ 20 + sub
    let e := s.hbm.dir.get {} x
    if e.st ≠ 4 then .next s
    else
      let s := (s.zeroSub x).setDir x { e with st := 1 }
      let o := s.ob e.obj
      if (objSubs o.pages (o.size / 65536)).all fun y => (s.hbm.dir.get {} y).st == 1 then
        let s := o.maps.foldl (fun s m => s.mapObj e.obj m.ctx m.va m.w) s
        match (s.fn o.func).adminCur with
        | some a => .next (if a.op = 0x40 ∧ a.obj = e.obj then s.adminDone o.func 0 e.obj false false else s)
        | none => .next s
      else .next s

/-- SUBPAGE_ZEROING_COMPLETE (R302): FREE, or RETIRED when the lines fail the write. -/
def execSubpageZeroingComplete (stack sub : Nat) (passed : Bool) (s : State) : Out :=
  if 20 ≤ stack ∨ 2 ^ 20 ≤ sub then .fault (.noSuchUnit "sub-page")
  else
    let x := stack * 2 ^ 20 + sub
    if (s.hbm.dir.get {} x).st ≠ 3 then .next s
    else .next ((s.zeroSub x).setDir x { st := if passed then 0 else 5 })

/-- OBJ_MAP_HOST (R337, R326). -/
def opObjMapHost (f : Nat) (d : List Byte) (s : State) : AdminRes :=
  let c := at1 d 2
  let size := at8 d 16
  let va := at8 d 24
  let n := at2 d 32
  let off := at8 d 40
  let w := s.windows.get {} n
  if size = 0 ∨ 2 ^ 48 < va + size ∨ 4096 ≤ n then .fail 0x0102
  else if size % 65536 ≠ 0 ∨ va % 2 ^ 21 ≠ 0 ∨ off % 2 ^ 21 ≠ 0 then .fail 0x0104
  else if !w.en || w.func != f then .fail 0x0202
  else if s.vaTaken c va size ∨ w.pages * 2 ^ 21 < off + size then .fail 0x0105
  else
    let h := s.nextObj
    let wr := bit (at1 d 36) 0
    match s.makeTables c va size with
    | none => .fail 0x0106
    | some s =>
      let s := { s with nextObj := (h + 1) % 2 ^ 32 }
      let s := s.updOb h fun _ => { live := true, owner := c, func := f, size, host := some (n, off), maps := [{ ctx := c, va, w := wr }] }
      .done (s.mapObj h c va wr) h false

/-- OBJ_MAP_HOST (R337). -/
def execObjMapHost (func : Nat) (s : State) : Out := .next (s.runAdmin func 0x41 (opObjMapHost func))

/-- OBJ_UNMAP (R303): deferred while a resident section of the context names the object. -/
def State.objUnmap (s : State) (f : Nat) : State :=
  if !s.adminReady f then s
  else
    let d := s.adminDesc f
    s.runAdmin f 0x42 fun _ s =>
      let c := at1 d 2
      let h := at4 d 16
      let o := s.ob h
      if !(o.live && o.maps.any fun m => m.ctx == c && !m.removing && !m.deferred) then .fail 0x0202
      else if s.namesObj c h then
        let s := s.updOb h fun o => { o with maps := o.maps.map fun m => if m.ctx == c then { m with deferred := true } else m }
        .later (s.adminDone f 0 0 true false)
      else
        let s := s.updFn f fun g => { g with adminCur := g.adminCur.map fun a => { a with obj := h } }
        .later (s.announce c h)

/-- OBJ_UNMAP (R303). -/
def execObjUnmap (func : Nat) (s : State) : Out := .next (s.objUnmap func)

/-- A command in flight holds a translation that an invalidation covers (R145). -/
def State.holdsTranslation (s : State) (i : Inval) (k : Cmd) : Bool :=
  (s.translationPeers i.ctx).contains k.ctx
    && k.leaves.any fun e => decide (i.va / 2 ^ 21 ≤ e.1) && decide (e.1 < i.va / 2 ^ 21 + cdiv i.size (2 ^ 21))

/-- TRANSLATION_INVALIDATION_COMPLETE (R145, R298): every command that obtained the translation has committed or been killed;
the mapping is gone, a count of 0 frees the object, and what waited for the invalidation goes on. -/
def execTranslationInvalidationComplete (ctx va : Nat) (s : State) : Out :=
  match s.invals.find? fun i => i.ctx == ctx && i.va == va with
  | none => .next s
  | some i =>
    if s.cmds.any (s.holdsTranslation i) then .next s
    else
      let peers := s.translationPeers ctx
      let s := { s with invals := s.invals.filter fun j => !(j.ctx == ctx && j.va == va) }
      let s := (s.dropLeaves ctx va i.size).flushTlb ctx va i.size
      let s := s.updOb i.obj fun o => { o with maps := o.maps.filter fun m => m.ctx != ctx }
      let unlink := fun (t : Tbl Page) => t.mapAll {} fun _ p =>
        if p.refill && peers.contains p.owner && p.source.any (fun e => decide (e.2.1 < va + i.size) && decide (va < e.2.1 + e.2.2)) then { p with refill := false, source := [] } else p
      let s := { s with chip := { s.chip with cmPages := unlink s.chip.cmPages, rsPages := unlink s.chip.rsPages } }
      let g := (s.cx ctx).func
      let s := s.freeObj i.obj
      let s : State := match (s.fn g).adminCur with
        | some a => if a.op = 0x42 ∧ a.obj = i.obj ∧ a.ctx = ctx then s.adminDone g 0 0 false false else s
        | none => s
      .next (s.finishDestroy ctx)

/-- OBJ_EXPORT (R301, R337). -/
def opObjExport (f : Nat) (d : List Byte) (s : State) : AdminRes :=
  let h := at4 d 16
  let t := at1 d 20
  let o := s.ob h
  let others := o.exports.filter fun e => e.1 != t
  if !o.live || o.owner != at1 d 2 || (s.cx t).life != .live || (o.host.isSome && (s.cx t).func != f) then .fail 0x0202
  else if 16 ≤ others.length then .fail 0x0106
  else .done (s.updOb h fun o => { o with exports := others ++ [(t, bit (at1 d 21) 0)] }) 0 false

/-- OBJ_EXPORT (R301). -/
def execObjExport (func : Nat) (s : State) : Out := .next (s.runAdmin func 0x43 (opObjExport func))

/-- OBJ_IMPORT (R301, R337). -/
def opObjImport (d : List Byte) (s : State) : AdminRes :=
  let c := at1 d 2
  let h := at4 d 16
  let va := at8 d 24
  let w := bit (at1 d 32) 0
  let o := s.ob h
  if !o.live then .fail 0x0202
  else if 2 ^ 48 < va + o.size then .fail 0x0102
  else if va % 2 ^ 21 ≠ 0 then .fail 0x0104
  else if !(o.exports.any fun e => e.1 == c && (e.2 || !w)) || o.maps.any fun m => m.ctx == c then .fail 0x0202
  else if s.vaTaken c va o.size then .fail 0x0105
  else
    match s.makeTables c va o.size with
    | none => .fail 0x0106
    | some s =>
      let s := s.updOb h fun o => { o with maps := o.maps ++ [{ ctx := c, va, w }] }
      .done (s.mapObj h c va w) 0 false

/-- OBJ_IMPORT (R301). -/
def execObjImport (func : Nat) (s : State) : Out := .next (s.runAdmin func 0x44 opObjImport)

/-- OBJ_WITHDRAW (R301): existing imports stay. -/
def opObjWithdraw (d : List Byte) (s : State) : AdminRes :=
  let h := at4 d 16
  let t := at1 d 20
  let o := s.ob h
  if !o.live || o.owner != at1 d 2 || (s.cx t).life != .live then .fail 0x0202
  else .done (s.updOb h fun o => { o with exports := o.exports.filter fun e => e.1 != t }) 0 false

/-- OBJ_WITHDRAW (R301). -/
def execObjWithdraw (func : Nat) (s : State) : Out := .next (s.runAdmin func 0x45 opObjWithdraw)

/-! ### Scrubbing (R304 to R306) -/

/-- The contexts that an engine structure in a sub-page serves: those of the sections whose copies lie there (R281, R288). -/
def State.servedBy (s : State) (sub : Nat) : List Nat :=
  ((s.secs.filter fun e => e.2.copySubs.contains sub).map fun e => e.2.ctx).dedup

/-- SCRUB_READ (R304 to R306): the line that the scrubber visits next on its pseudo-channel is corrected, poisoned or left; one that it
does not visit next is not read. An uncorrectable line of a section copy loses the context of the section (R288). -/
def execScrubRead (stack line : Nat) (s : State) : Out :=
  if 20 ≤ stack then .fault (.noSuchUnit "stack")
  else if !s.stackRuns stack || decide (s.dataBytes stack ≤ 64 * line) || (s.stk stack).scrub.get 0 (pseudoChannel (64 * line)) != scrubPlace (64 * line) then .next s
  else
    let l := stack * 2 ^ 30 + line
    let s := s.noteScrub stack (64 * line)
    match s.fetchLine l with
    | (none, s) => .next ((s.servedBy (l / 1024)).foldl (fun s c => s.loseCtx c 0x0204) (s.uncorrectable l true 0))
    | (some x, s) => .next (if x.corrected then s.correctLine l x.data else s)

/-- PAGE_ZEROING_COMPLETE (R120): the page reads zero; FREE, or RETIRED when it fails; the last page of a destroyed
context frees it (R354 step 8). -/
def execPageZeroingComplete (res : Bool) (page : Nat) (passed : Bool) (s : State) : Out :=
  if (if res then 10240 else 15360) ≤ page then .fault (.noSuchUnit "page")
  else
    let p := (if res then s.chip.rsPages else s.chip.cmPages).get {} page
    if p.fresh || p.st != 2 then .next s
    else
      let clean := fun (m : Mem) => m.filter fun e => e.1 / 65536 != page
      let q : Page := { fresh := false, st := if passed then 0 else 3, storedErr := p.storedErr }
      let chip := if res then { s.chip with rs := clean s.chip.rs, rsPages := s.chip.rsPages.set {} page q }
        else { s.chip with cm := clean s.chip.cm, cmPages := s.chip.cmPages.set {} page q }
      .next ({ s with chip }.finishDestroy p.owner)

end Sys2Proof.Machine
end

