-- ==== Sys2Proof/Machine/Fp.lean ====
section
/-! DEFINITION. FP32 arithmetic of the vector unit on codes (R66, R128, R131, R132). -/

namespace Sys2Proof.Machine

/-- The canonical quiet NaN (R65). -/
def fNan : Nat := 0x7FC00000
def fInf : Nat := 0x7F800000
def fOne : Nat := 0x3F800000
def fSign (c : Nat) : Bool := bit c 31
def fIsNan (c : Nat) : Bool := fld c 23 8 == 255 && fld c 0 23 != 0
def fIsInf (c : Nat) : Bool := fld c 23 8 == 255 && fld c 0 23 == 0
/-- Zeros, and the subnormals that are read as zero (R66). -/
def fIsZero (c : Nat) : Bool := fld c 23 8 == 0
/-- Zero and infinity of a sign. -/
def fZeroOf (neg : Bool) : Nat := if neg then 2 ^ 31 else 0
def fInfOf (neg : Bool) : Nat := fZeroOf neg + fInf

/-- The value m × 2^e of a finite code. -/
def fVal (c : Nat) : Int × Int :=
  if fIsZero c then (0, 0)
  else
    let m : Int := (2 ^ 23 + fld c 0 23 : Nat)
    (if fSign c then -m else m, (fld c 23 8 : Int) - 150)

/-- A positive magnitude m × 2^e rounded to binary32, ties to even, with no subnormals (R66). -/
def fRound (neg : Bool) (m : Nat) (e : Int) : Nat :=
  if m = 0 then fZeroOf neg
  else
    let q := dyLog2 m e - 23
    let k := (q - e).toNat
    let r := if q ≤ e then m * 2 ^ (e - q).toNat
      else
        let lo := m % 2 ^ k
        let h := m / 2 ^ k
        if 2 ^ k < 2 * lo ∨ (2 * lo = 2 ^ k ∧ h % 2 = 1) then h + 1 else h
    let (r, q) := if r = 2 ^ 24 then (2 ^ 23, q + 1) else (r, q)
    if 104 < q then fInfOf neg
    else if q < -149 then fZeroOf neg
    else fZeroOf neg + (q + 150).toNat * 2 ^ 23 + (r - 2 ^ 23)

/-- A signed value rounded; an exact zero takes the sign given. -/
def fOf (zneg : Bool) (m e : Int) : Nat :=
  if m = 0 then fZeroOf zneg else fRound (decide (m < 0)) m.natAbs e

/-- Fused multiply-add: a × b + c with one rounding (R128). -/
def fFma (a b c : Nat) : Nat :=
  let ps := fSign a != fSign b
  if fIsNan a || fIsNan b || fIsNan c then fNan
  else if fIsInf a || fIsInf b then
    if fIsZero a || fIsZero b then fNan
    else if fIsInf c && fSign c != ps then fNan
    else fInfOf ps
  else if fIsInf c then fInfOf (fSign c)
  else
    let (am, ae) := fVal a
    let (bm, be) := fVal b
    let (cm, ce) := fVal c
    let pm := am * bm
    let pe := ae + be
    let k := min pe ce
    fOf (if pm = 0 ∧ cm = 0 then ps && fSign c else false) (pm * 2 ^ (pe - k).toNat + cm * 2 ^ (ce - k).toNat) k

/-- Product: one rounding; the sign of a zero is the product of the signs. -/
def fMul (a b : Nat) : Nat :=
  let ps := fSign a != fSign b
  if fIsNan a || fIsNan b then fNan
  else if fIsInf a || fIsInf b then (if fIsZero a || fIsZero b then fNan else fInfOf ps)
  else
    let (am, ae) := fVal a
    let (bm, be) := fVal b
    fOf ps (am * bm) (ae + be)

/-- Sum. -/
def fAdd (a b : Nat) : Nat := fFma a fOne b
/-- The other sign. -/
def fNeg (a : Nat) : Nat := if fSign a then a - 2 ^ 31 else a + 2 ^ 31
def fAbs (a : Nat) : Nat := if fSign a then a - 2 ^ 31 else a
/-- Difference. -/
def fSub (a b : Nat) : Nat := fAdd a (fNeg b)

/-- The order that ranks values: NaN below −∞, −0 below +0 (R128). -/
def fKey (c : Nat) : Int :=
  if fIsNan c then -(2 ^ 40)
  else
    let c := if fIsZero c then fZeroOf (fSign c) else c
    if fSign c then -((c % 2 ^ 31 : Nat) : Int) - 1 else (c % 2 ^ 31 : Nat)

/-- maximumNumber and minimumNumber (R128). -/
def fMax (a b : Nat) : Nat :=
  if fIsNan a then (if fIsNan b then fNan else b) else if fIsNan b then a else if fKey a < fKey b then b else a
def fMin (a b : Nat) : Nat :=
  if fIsNan a then (if fIsNan b then fNan else b) else if fIsNan b then a else if fKey b < fKey a then b else a

/-- Quiet comparisons: zeros are equal, NaN compares false (R128). -/
def fLt (a b : Nat) : Bool :=
  !fIsNan a && !fIsNan b && !(fIsZero a && fIsZero b) && decide (fKey a < fKey b)
def fEq (a b : Nat) : Bool :=
  !fIsNan a && !fIsNan b && ((fIsZero a && fIsZero b) || decide (fKey a = fKey b))

/-- A function at a code: its IEEE 754 results at zero, infinity and NaN, and elsewhere the constant of Config whose
bits the manual does not give (R131). -/
def fFun (g : BitVec 32 → BitVec 32) (zero pinf ninf : Nat) (c : Nat) : Nat :=
  if fIsNan c then fNan
  else if fIsZero c then zero
  else if fIsInf c then (if fSign c then ninf else pinf)
  else (g (BitVec.ofNat 32 c)).toNat

def fExp2 (c : Nat) : Nat := fFun Config.exp2 fOne fInf 0 c
def fLog2 (c : Nat) : Nat := fFun Config.log2 (fInfOf true) fInf fNan c
def fRcp (c : Nat) : Nat := fFun Config.rcp (fInfOf (fSign c)) 0 (fZeroOf true) c
def fRsqrt (c : Nat) : Nat := fFun Config.rsqrt (fInfOf (fSign c)) 0 fNan c
def fSin (c : Nat) : Nat := fFun Config.sin (fZeroOf (fSign c)) fNan fNan c
def fCos (c : Nat) : Nat := fFun Config.cos fOne fNan fNan c
def fTanh (c : Nat) : Nat := fFun Config.tanh (fZeroOf (fSign c)) fOne 0xBF800000 c
def fSigmoid (c : Nat) : Nat := fFun Config.sigmoid 0x3F000000 fOne 0 c
def fErf (c : Nat) : Nat := fFun Config.erf (fZeroOf (fSign c)) fOne 0xBF800000 c

/-- One round of R132: neighbours combined. -/
def pairUp (op : Nat → Nat → Nat) : List Nat → List Nat
  | a :: b :: t => op a b :: pairUp op t
  | l => l

/-- Rounds of R132 until one element is left. -/
def treeReduce (op : Nat → Nat → Nat) : Nat → List Nat → List Nat
  | 0, l => l
  | n + 1, l => if l.length ≤ 1 then l else treeReduce op n (pairUp op l)

/-- The smallest power of two at or above n. -/
def pow2ceil (n : Nat) : Nat := if n ≤ 1 then 1 else 2 ^ (Nat.log2 (n - 1) + 1)

/-- The canonical tree of R132. -/
def fReduce (op : Nat → Nat → Nat) (ident : Nat) (l : List Nat) : Nat :=
  let n := pow2ceil l.length
  (treeReduce op n (l ++ List.replicate (n - l.length) ident)).headD ident

def fSum (l : List Nat) : Nat := fReduce fAdd 0 l
def fMaxOf (l : List Nat) : Nat := fReduce fMax (fInfOf true) l
def fMinOf (l : List Nat) : Nat := fReduce fMin fInf l

/-- A conversion into FP32 of an element, with what it counts. -/
structure In32 where
  code : Nat
  sat : Bool := false
  nonfinite : Bool := false

/-- An element of a format with a scale exponent as the vector unit reads it, in FP32 (R62, R63, R65, R68). -/
def toF32 (f code : Nat) (sc : Int) : In32 :=
  let neg := isFloat f && bit code (fmtBits f - 1)
  match readVal false f code with
  | (.nan _, nf) => { code := fNan, nonfinite := nf }
  | (.inf n, nf) => { code := fInfOf n, nonfinite := nf }
  | (.fin m e, nf) =>
    if m = 0 then { code := fZeroOf neg, nonfinite := nf }
    else
      let c := convert fFP32 (.fin m (e + sc))
      { code := c.code, sat := c.sat, nonfinite := nf }

/-- An FP32 result converted into a destination format: the code of v × 2^(-sc) (R65, R217). -/
def fromF32 (f v : Nat) (sc : Int) : Conv :=
  if fIsNan v then convert f (.nan (fSign v))
  else if fIsInf v then convert f (.inf (fSign v))
  else
    let (m, e) := fVal v
    convert f (.fin m (e - sc))

end Sys2Proof.Machine
end

