-- ==== Sys2Proof/Machine/Operands.lean ====
section
/-! DEFINITION. Operands of commands: resolved fields, tensors read from memory and from frames, and tensors written
(R58, R68, R70, R71, R190 to R201, R217, R248 to R251). -/

namespace Sys2Proof.Machine

/-- What runs with a status on failure and changes the state on the way. -/
abbrev Cm (α : Type) := ExceptT Nat (StateM State) α

/-- A state transformer with a status, as an action. -/
def liftR {α : Type} (f : State → Except Nat α × State) : Cm α := fun s => f s
/-- Fail with a status unless a condition holds. -/
def need (ok : Bool) (status : Nat) : Cm Unit := if ok then pure () else throw status
/-- An action run from a state: its result, and the state with it. -/
def Cm.exec {α : Type} (m : Cm α) (s : State) : Except Nat α × State := m s
/-- A free value drawn (log entry 4). -/
def drawFree : Cm Nat := do
  let s ← get
  set { s with free := s.free + 1 }
  pure (Config.freeWord s.free).toNat

/-! ### Fields that name registers (R193 to R196) -/

/-- The command's surroundings: its section, station and context, and the values it resolved at issue (R200); worst: every
register stands for its declared LIMIT (R199). -/
structure Cx where
  ref : CmdRef
  h : Nat
  st : Nat
  x : Section
  ctx : Nat
  regs : List Word
  bounds : List (Nat × Nat)
  pages : List (Nat × Nat) := []
  taken : List (Nat × SFrame)
  wsets : List WSet := []
  worst : Bool := false

/-- Register r as a number. -/
def Cx.reg (c : Cx) (r : Nat) : Nat := (c.regs.getD r 0).toNat

/-- A bound field (R193); key names its memory-kind value. -/
def Cx.bound (c : Cx) (v key : Nat) : Nat :=
  if fld v 30 2 = 0 then fld v 0 30
  else if fld v 30 2 = 1 then
    if c.worst && !bit v 6 then min (c.reg (fld v 0 6)) (2 ^ 32 - 1) else fld (c.reg (fld v 0 6)) (32 * fld v 6 1) 32
  else if c.worst then min (c.reg (fld v 18 6)) (2 ^ 32 - 1)
  else (c.bounds.find? fun e => e.1 == key).elim 0 Prod.snd

/-- An address field (R194). -/
def Cx.addr (c : Cx) (v : Nat) : Nat :=
  if fld v 62 2 = 0 then fld v 0 48 else ((c.reg (fld v 0 6) : Int) + sext 32 (fld v 16 32)).toNat

/-- The predicate of a word holds (R185). -/
def Cx.predOk (c : Cx) (w : List Byte) : Bool := !cPredEn w || ((c.reg (cPredReg w) != 0) != cPredNeg w)

/-- A loop count field (R195). -/
def Cx.loop (c : Cx) (v : Nat) : Nat := if bit v 15 then fld (c.reg (fld v 0 6)) 0 32 else fld v 0 15

/-- A scale exponent read as i8, −128 as −127 (R196). -/
def i8Exp (v : Nat) : Int := max (sext 8 v) (-127)

/-- The tensor scale of a descriptor (R188, R196). -/
def Cx.tscale (c : Cx) (h : Nat) : Int :=
  let v := (c.x.desc h).tscale
  if bit v 15 then i8Exp (c.reg (fld v 0 6)) else c.x.tscales.get (i8Exp v) h

/-- A resolved operand. -/
structure TRef where
  h : Nat
  d : Desc
  fmt : Nat
  ts : Int
  ext : List Nat
  base : Nat
  sbase : Nat

/-- An operand resolved (R200). -/
def Cx.tref (c : Cx) (h : Nat) : TRef :=
  let d := c.x.desc h
  { h, d, fmt := c.x.fmtOf h, ts := c.tscale h, ext := tab d.rank fun i => c.bound (d.ext i) (8 * h + i)
    base := if d.space = 3 then d.route else c.addr d.base, sbase := c.addr d.sbase }

/-- Extent of a dimension; 1 beyond the rank. -/
def TRef.e (t : TRef) (i : Nat) : Nat := t.ext.getD i 1

/-- Number of elements. -/
def prodL (l : List Nat) : Nat := l.foldl (· * ·) 1

/-! ### Index arithmetic -/

/-- Every index vector of the extents, the first dimension fastest. -/
def indices : List Nat → List (List Nat)
  | [] => [[]]
  | e :: es => (indices es).flatMap fun t => (List.range e).map fun i => i :: t

/-- The linear position of an index vector. -/
def flatIdx : List Nat → List Nat → Nat
  | e :: es, i :: is => i + e * flatIdx es is
  | _, _ => 0

/-- The blocks' extents of a tensor (R68, R97). -/
def blockExt (ext : List Nat) (blocked : Nat) (square : Bool) : List Nat :=
  ext.mapIdx fun i e => if (if square then decide (i < 2) else i == blocked) then cdiv e 32 else e

/-- The block that an element lies in (R68, R97). -/
def blockIdx (idx : List Nat) (blocked : Nat) (square : Bool) : List Nat :=
  idx.mapIdx fun i e => if (if square then decide (i < 2) else i == blocked) then e / 32 else e

/-- Blocks of an operand. -/
def TRef.nBlocks (t : TRef) : Nat := prodL (blockExt t.ext t.d.blocked t.d.square)
/-- Position in the scale tensor of an element's block. -/
def TRef.blockOf (t : TRef) (idx : List Nat) : Nat :=
  flatIdx (blockExt t.ext t.d.blocked t.d.square) (blockIdx idx t.d.blocked t.d.square)

/-- Bytes of a row (span₀ of R191). -/
def TRef.rowBytes (t : TRef) : Nat := cdiv (t.e 0 * fmtBits t.fmt) 8
/-- Byte offset of the row at an index of the outer dimensions (R190). -/
def Desc.rowOff (d : Desc) (idx : List Nat) : Nat := (idx.mapIdx fun i k => 16 * d.stride (i + 1) * k).sum

/-- The spans of R191 for extents and a format: span of the outermost dimension. -/
def Desc.span (d : Desc) (f : Nat) (ext : List Nat) : Nat :=
  cdiv (ext.headD 0 * fmtBits f) 8 + ((ext.drop 1).mapIdx fun i e => 16 * d.stride (i + 1) * (e - 1)).sum

/-! ### Spaces (R119, R190) -/

/-- The access check of a page (R119). -/
def State.pageOk (s : State) (p : Page) (c : Nat) : Bool :=
  p.st == 1 && (s.cx p.owner).life == .live && (p.owner == c || s.validated c)

/-- The physical address of an offset in an allocation of pages, with the page's entry. -/
def pageAddr (pages : List Nat) (off : Nat) : Option (Nat × Nat) := (pages[off / 65536]?).map fun p => (p, p * 65536 + off % 65536)

/-- The pages of an allocation: the reservoir's, or core memory's of a station. -/
def Section.pagesOf (x : Section) (space st : Nat) : List Nat := if space = 1 then x.resPages else x.cmPages.getD st []

/-- Bytes of an on-chip allocation. -/
def State.readPages (s : State) (space c : Nat) (pages : List Nat) (off n : Nat) : Except Nat (List Byte) :=
  (List.range n).foldr (fun i acc =>
    match acc, pageAddr pages (off + i) with
    | .error e, _ => .error e
    | .ok _, none => .error 0x0103
    | .ok bs, some (p, a) =>
      let pg := (if space = 1 then s.chip.rsPages else s.chip.cmPages).get {} p
      if s.pageOk pg c then .ok ((if space = 1 then s.chip.rs else s.chip.cm).rd a :: bs) else .error 0x0202) (.ok [])

/-- Who makes a command's accesses: its station's cluster translates them (R144). -/
def Cx.who (c : Cx) : Who := { ctx := c.ctx, ref := some c.ref, cluster := (c.x.coreOf c.st).map (· / 48) }

/-- n bytes at an address of a space. -/
def Cx.read (c : Cx) (space a n : Nat) : Cm (List Byte) :=
  if space = 0 then liftR fun s => s.readVa c.who a n
  else do
    let s ← get
    match s.readPages space c.ctx (c.x.pagesOf space c.st) a n with
    | .ok bs => pure bs
    | .error e => throw e

/-- Bytes to be written at an address of a space, checked and located. -/
def Cx.write (c : Cx) (space a : Nat) (bs : List Byte) : Cm (List (Loc × Byte)) :=
  if space = 0 then liftR fun s => s.stageVa c.who a bs
  else do
    let s ← get
    let pages := c.x.pagesOf space c.st
    bs.zipIdx.mapM fun (b, i) =>
      match pageAddr pages (a + i) with
      | none => throw 0x0103
      | some (p, q) =>
        let pg := (if space = 1 then s.chip.rsPages else s.chip.cmPages).get {} p
        if s.pageOk pg c.ctx then pure (if space = 1 then Loc.rs q else Loc.cm q, b) else throw 0x0202

/-! ### Tensors -/

/-- A codebook (R70): its entries and exponent. -/
structure Book where
  entries : List Int
  exp : Int

/-- A dense tensor: codes with dimension 0 fastest, the scale exponent of each element, and codebooks by group. -/
structure Tens where
  fmt : Nat
  ext : List Nat
  codes : List Nat
  scs : List Int
  books : List Book := []
  group : Nat := 0
  gdim : Nat := 0
  plain : Bool := false
  nonfinite : Bool := false

/-- Extent of a dimension; 1 beyond the rank. -/
def Tens.e (t : Tens) (i : Nat) : Nat := t.ext.getD i 1
/-- Code and scale at an index. -/
def Tens.code (t : Tens) (idx : List Nat) : Nat := t.codes.getD (flatIdx t.ext idx) 0
def Tens.sc (t : Tens) (idx : List Nat) : Int := t.scs.getD (flatIdx t.ext idx) 0
/-- The codebook that an index uses (R71). -/
def Tens.book (t : Tens) (idx : List Nat) : Book :=
  t.books.getD (if t.group = 0 then 0 else idx.getD t.gdim 0 / t.group) { entries := [], exp := 0 }

/-- A codebook from its 32 bytes (R70). -/
def bookOf (b : List Byte) : Book :=
  { entries := tab 16 fun k => sext 12 (fld (leAt b 0 24) (12 * k) 12), exp := sext 8 (leAt b 24 1) }

/-- The scale exponent of each element, from the block scales or the tensor scale, and whether 255 was read (R62, R68). -/
def TRef.scales (t : TRef) (bytes : List Byte) : List Int × Bool :=
  if t.d.scaled then
    ((indices t.ext).map fun i => scaleExp ((bytes.getD (t.blockOf i) 0).toNat), bytes.any fun b => b == 255)
  else (List.replicate (prodL t.ext) t.ts, false)

/-- Plain integer (R217). The path is fixed at launch: TSCALE is the descriptor's constant, whatever a QUANT has measured since. -/
def TRef.isPlain (t : TRef) : Bool :=
  [fI4, fU4, fI8, fU8, fI16, fI32].contains t.fmt && !t.d.scaled && !bit t.d.tscale 15 && i8Exp t.d.tscale == 0

/-- The codebooks of a CB4 tensor whose data begin at an address of a space (R71, R192). -/
def Cx.booksAt (c : Cx) (t : TRef) (space base : Nat) : Cm (List Book) :=
  if t.fmt = fCB4 then
    let n := if t.d.cbGrouped then cdiv (t.e t.d.blocked) (2 ^ (t.d.cbGroup + 5)) else 1
    (List.range n).mapM fun i => do
      let b ← c.read space (((base : Int) + t.d.cbOff).toNat + 32 * i) 32
      pure (bookOf b)
  else pure []
def Cx.books (c : Cx) (t : TRef) : Cm (List Book) := c.booksAt t t.d.space t.base

/-- A tensor in memory read (R190). -/
def Cx.loadMem (c : Cx) (t : TRef) : Cm Tens := do
  let rows ← (indices (t.ext.drop 1)).mapM fun i => c.read t.d.space (t.base + t.d.rowOff i) t.rowBytes
  let sb ← if t.d.scaled then c.read t.d.space t.sbase t.nBlocks else pure []
  let books ← c.books t
  let (scs, nf) := t.scales sb
  pure { fmt := t.fmt, ext := t.ext, codes := rows.flatMap (unpackRow t.fmt (t.e 0)), scs, books
         group := if t.d.cbGrouped then 2 ^ (t.d.cbGroup + 5) else 0, gdim := t.d.blocked, plain := t.isPlain, nonfinite := nf }

/-! ### Frames (R248 to R251) -/

/-- Tile counts of a stream operand along dimensions 0 and 1, and frames outside them. -/
def TRef.tiles0 (t : TRef) : Nat := cdiv (t.e 0) t.d.tileCols
def TRef.tiles1 (t : TRef) : Nat := cdiv (t.e 1) t.d.tileRows
def TRef.outer (t : TRef) : Nat := prodL (t.ext.drop 2)
/-- Frames of one tensor on a route (R250). -/
def TRef.nFrames (t : TRef) : Nat := t.tiles0 * t.tiles1 * t.outer

/-- The blocks of a tile: their number along dimensions 0 and 1. -/
def tileBlocks (d : Desc) (rows cols : Nat) : Nat × Nat :=
  if d.square then (cdiv cols 32, cdiv rows 32) else if d.blocked = 0 then (cdiv cols 32, rows) else (cols, cdiv rows 32)

/-- The frames of a tensor, T0 fastest, then T1, then OUTER; scales are codes by block position (R249, R250). -/
def TRef.frames (t : TRef) (run seq : Nat) (codes scales : List Nat) (empty : Bool) : List SFrame :=
  tab t.nFrames fun i =>
    let t0 := i % t.tiles0
    let t1 := i / t.tiles0 % t.tiles1
    let o := i / (t.tiles0 * t.tiles1)
    let cols := min t.d.tileCols (t.e 0 - t0 * t.d.tileCols)
    let rows := min t.d.tileRows (t.e 1 - t1 * t.d.tileRows)
    let at2 := fun (r k : Nat) => (t.e 0) * ((t1 * t.d.tileRows + r) + (t.e 1) * o) + t0 * t.d.tileCols + k
    let bx := blockExt (t.ext ++ List.replicate (2 - t.ext.length) 1) t.d.blocked t.d.square
    let (b0, b1) := tileBlocks t.d rows cols
    let f0 := if t.d.square || t.d.blocked == 0 then t0 * t.d.tileCols / 32 else t0 * t.d.tileCols
    let f1 := if t.d.square || t.d.blocked == 1 then t1 * t.d.tileRows / 32 else t1 * t.d.tileRows
    { run := run % 2 ^ 32, seq := seq + i, t0, t1, outer := o, rows, cols, empty, last := i + 1 == t.nFrames
      scaled := t.d.scaled, fmt := t.fmt, tscale := t.ts
      codes := if empty then [] else (List.range rows).flatMap fun r => tab cols fun k => codes.getD (at2 r k) 0
      scales := if empty || !t.d.scaled then [] else
        (List.range b1).flatMap fun r => tab b0 fun k => scales.getD ((f0 + k) + (bx.getD 0 1) * ((f1 + r) + (bx.getD 1 1) * o)) 127 }

/-- A tensor assembled from the frames a consumer took: FORMAT and TSCALE are those of the headers (R250, R251). -/
def TRef.ofFrames (t : TRef) (fs : List SFrame) : Tens :=
  let f0 := fs.head?
  let at1 := fun (idx : List Nat) =>
    let i0 := idx.getD 0 0
    let i1 := idx.getD 1 0
    let o := flatIdx (t.ext.drop 2) (idx.drop 2)
    let f := fs.find? fun f => f.t0 == i0 / t.d.tileCols && f.t1 == i1 / t.d.tileRows && f.outer == o
    (f, i1 % t.d.tileRows, i0 % t.d.tileCols)
  let is := indices t.ext
  { fmt := (f0.map SFrame.fmt).getD t.fmt, ext := t.ext
    codes := is.map fun idx => match at1 idx with
      | (some f, r, k) => if f.empty || f.rows ≤ r || f.cols ≤ k then 0 else f.codes.getD (r * f.cols + k) 0
      | (none, _, _) => 0
    scs := is.map fun idx => match at1 idx with
      | (some f, r, k) =>
        if f.scaled then
          let (b0, _) := tileBlocks t.d f.rows f.cols
          let k' := if t.d.square || t.d.blocked == 0 then k / 32 else k
          let r' := if t.d.square || t.d.blocked == 1 then r / 32 else r
          scaleExp (f.scales.getD (r' * b0 + k') 127)
        else f.tscale
      | (none, _, _) => 0
    plain := t.isPlain
    nonfinite := fs.any fun f => f.scales.any fun c => c == 255 }

/-- An operand in the FORMAT in which its data lie: a consumer's, that of the headers of its frames (R250). -/
def Cx.headTref (c : Cx) (h : Nat) : TRef :=
  let t := c.tref h
  if t.d.space = 3 then { t with fmt := ((c.taken.find? fun e => e.1 == t.d.route).map fun e => e.2.fmt).getD t.fmt } else t

/-- An operand read: from memory, from frames, or from the chain buffer (R230). -/
def Cx.load (c : Cx) (chain : Option Tens) (h : Nat) : Cm Tens :=
  let t := c.tref h
  if t.d.isChain then pure (chain.getD { fmt := t.fmt, ext := t.ext, codes := [], scs := [] })
  else if t.d.space = 3 then pure (t.ofFrames ((c.taken.filter fun e => e.1 == t.d.route).map Prod.snd))
  else c.loadMem t

/-! ### What a command writes -/

/-- What the members of a command have produced so far: staged bytes, frames by route, register writes, tensor scales,
and the chain buffer. -/
structure Made where
  staged : List (Loc × Byte) := []
  frames : List (Nat × SFrame) := []
  regs : List (Nat × Word) := []
  ts : List (Nat × Int) := []
  chain : Option Tens := none

/-- Scale codes given for a destination with SCALED set: its scale tensor is a source (R217); a route has none, so that
each is a free value of the descriptor (log entry 4). -/
def Cx.givenScales (c : Cx) (t : TRef) : Cm (List Nat) :=
  if !t.d.scaled then pure []
  else if t.d.space = 3 then pure (tab t.nBlocks fun i => (Config.openCode (leNat t.d.b) i).toNat % 255)
  else do
    let b ← c.read t.d.space t.sbase t.nBlocks
    pure (b.map BitVec.toNat)

/-- The scale exponent of each element of a destination, from codes by block or the tensor scale. -/
def TRef.dstScales (t : TRef) (scales : List Nat) (ts : Int) : List Int :=
  if t.d.scaled then (indices t.ext).map fun i => scaleExp (scales.getD (t.blockOf i) 127)
  else List.replicate (prodL t.ext) ts

/-- A code as the engine writes it: positive zero in place of negative zero (R64), and no scale above 254 (R67). -/
def writtenCode (f code : Nat) : Nat :=
  if f = fPAIR then (if code % 2 ^ 32 = 2 ^ 31 then 0 else code % 2 ^ 32) + 2 ^ 32 * (if code / 2 ^ 32 = 2 ^ 31 then 0 else code / 2 ^ 32)
  else if f = fE8M0 then min code 254
  else if isFloat f ∧ code = 2 ^ (fmtBits f - 1) then 0
  else code

/-- A dense tensor written to its destination; scales are written only where the command measures them. -/
def Cx.store (c : Cx) (p : Made) (t : TRef) (codes scales : List Nat) (writeScales : Bool) : Cm Made :=
  let codes := codes.map (writtenCode t.fmt)
  let scales := scales.map (min 254)
  if t.d.isChain then
    pure { p with chain := some { fmt := t.fmt, ext := t.ext, codes, scs := t.dstScales scales t.ts, plain := t.isPlain } }
  else if t.d.space = 3 then
    let seq := ((c.x.run.map Run.seqs).getD []).get 0 t.d.route
    pure { p with frames := p.frames ++ (t.frames c.x.runNo seq codes scales false).map fun f => (t.d.route, f) }
  else do
    let ws ← (indices (t.ext.drop 1)).zipIdx.mapM fun (i, k) =>
      c.write t.d.space (t.base + t.d.rowOff i) (packRow t.fmt ((codes.drop (k * t.e 0)).take (t.e 0)))
    let ss ← if writeScales && t.d.scaled then c.write t.d.space t.sbase (scales.map fun v => BitVec.ofNat 8 v) else pure []
    pure { p with staged := p.staged ++ ws.flatten ++ ss }

/-! ### Iterations (R201, R202) -/

/-- The loop counts of a command word: none for a field that is the constant 0, and none without LOOP0. -/
def Cx.loops (c : Cx) (w : List Byte) : List Nat :=
  if cLoop0 w = 0 then [] else if cLoop1 w = 0 then [c.loop (cLoop0 w)] else [c.loop (cLoop0 w), c.loop (cLoop1 w)]

/-- The part of a tensor that one iteration reads: its outermost dimensions are the loop dimensions, of the count or 1. -/
def Tens.iter (t : Tens) (loops at_ : List Nat) : Tens :=
  let r := t.ext.length - loops.length
  let inner := t.ext.take r
  let outer := t.ext.drop r
  let n := prodL inner
  let k := flatIdx outer ((outer.zip at_).map fun (e, i) => if e = 1 then 0 else i)
  { t with ext := inner, codes := (t.codes.drop (k * n)).take n, scs := (t.scs.drop (k * n)).take n }

/-- The extents of one iteration of an operand. -/
def innerExt (ext : List Nat) (loops : List Nat) : List Nat := ext.take (ext.length - loops.length)

/-- Every iteration of the loops, i0 fastest. -/
def iterations (loops : List Nat) : List (List Nat) := indices loops

/-- BATCH of an iteration (R202). -/
def batchOf (loops i : List Nat) : Nat := flatIdx loops i

end Sys2Proof.Machine
end

