-- ==== Sys2Proof/Machine/Vector.lean ====
section
/-! DEFINITION. What the vector class computes on tensors (R217 to R219). -/

namespace Sys2Proof.Machine

/-- What a command has produced and what its record says. -/
structure Acc where
  prod : Made := {}
  info : RecInfo := {}

/-- Saturations counted, and NONFINITE set. -/
def Acc.count (a : Acc) (sats : Nat) (nf : Bool) : Acc :=
  { a with info := { a.info with sat := satadd 32 a.info.sat sats, nonfinite := a.info.nonfinite || nf } }

/-- The body of a command: it adds to what the command has produced. -/
abbrev Body := Cx → List Byte → Acc → Cm Acc

/-- Lists cut into pieces of n. -/
def chunks {α : Type} (n : Nat) : Nat → List α → List (List α)
  | 0, _ => []
  | k + 1, l => l.take n :: chunks n k (l.drop n)

/-- Rows along dimension 0. -/
def rowsOf {α : Type} (e0 : Nat) (l : List α) : List (List α) := if e0 = 0 then [] else chunks e0 (l.length / e0) l

/-- A tensor of FP32 values. -/
structure FT where
  ext : List Nat
  vals : List Nat

/-- The position in a tensor of the element that an index of the destination uses: broadcast where the extent is 1 (R217). -/
def bcast (ext idx : List Nat) : Nat := flatIdx ext ((ext.zip (idx ++ List.replicate ext.length 0)).map fun (e, i) => if e = 1 then 0 else i)

/-- The FP32 value at an index of the destination. -/
def FT.at (t : FT) (idx : List Nat) : Nat := t.vals.getD (bcast t.ext idx) 0

/-- A source converted to FP32 (R217), with what the conversion counts. -/
def Tens.toFT (t : Tens) : FT × Nat × Bool :=
  let r := (t.codes.zip t.scs).map fun (c, s) => toF32 t.fmt c s
  ({ ext := t.ext, vals := r.map In32.code }, (r.filter In32.sat).length, t.nonfinite || r.any In32.nonfinite)

/-- One iteration's part. -/
def FT.iter (t : FT) (loops i : List Nat) : FT :=
  let r := t.ext.length - loops.length
  let n := prodL (t.ext.take r)
  let outer := t.ext.drop r
  let k := flatIdx outer ((outer.zip i).map fun (e, j) => if e = 1 then 0 else j)
  { ext := t.ext.take r, vals := (t.vals.drop (k * n)).take n }

/-- The integer that a code of a plain integer format stands for. -/
def intVal (f code : Nat) : Int := match rawVal f code with | .fin m _ => m | _ => 0

/-- Every source and the destination are plain integer. -/
def allPlain (ts : List Tens) (d : TRef) : Bool := ts.all Tens.plain && d.isPlain

/-- FP32 results converted into a destination and stored (R65, R217); a given scale code of 255 sets NONFINITE (R62). -/
def Cx.putF (c : Cx) (a : Acc) (d : TRef) (vals : List Nat) : Cm Acc := do
  let given ← c.givenScales d
  let cs := (vals.zip (d.dstScales given d.ts)).map fun (v, s) => fromF32 d.fmt v s
  let p ← c.store a.prod d (cs.map Conv.code) given false
  pure (({ a with prod := p } : Acc).count ((cs.filter Conv.sat).length) (cs.any Conv.nonfinite || given.contains 255))

/-- Integer results clamped into a destination and stored (R217). -/
def Cx.putI (c : Cx) (a : Acc) (d : TRef) (vals : List Int) : Cm Acc := do
  let given ← c.givenScales d
  let (lo, hi) := (intRange d.fmt).getD (0, 0)
  let cs := vals.map fun v => satq v lo hi
  let p ← c.store a.prod d (cs.map fun v => intCode d.fmt v.1) given false
  pure (({ a with prod := p } : Acc).count ((cs.filter Prod.snd).length) false)

/-- Index results stored in a destination (R219). -/
def Cx.putIdx (c : Cx) (a : Acc) (d : TRef) (vals : List Nat) : Cm Acc := do
  let given ← c.givenScales d
  let cs := vals.map fun (v : Nat) => convert d.fmt (.fin v 0)
  let p ← c.store a.prod d (cs.map Conv.code) given false
  pure (({ a with prod := p } : Acc).count ((cs.filter Conv.sat).length) false)

/-! ### VOP (R218) -/

/-- The floating result of a SUBOP at one element. -/
def vopF (sub imm0 imm1 x y z : Nat) : Nat :=
  match sub with
  | 0x00 => fAdd x y
  | 0x01 => fSub x y
  | 0x02 => fMul x y
  | 0x03 => fFma x y z
  | 0x04 => fMin x y
  | 0x05 => fMax x y
  | 0x06 => if !fIsZero x then y else z
  | 0x07 => if fLt x y then fOne else 0
  | 0x08 => if fEq x y then fOne else 0
  | 0x09 => fAbs x
  | 0x0A => fNeg x
  | 0x0B => x
  | 0x0C => fFma x imm0 imm1
  | 0x0D => fExp2 x
  | 0x0E => fLog2 x
  | 0x0F => fRcp x
  | 0x10 => fRsqrt x
  | 0x11 => fSin x
  | 0x12 => fCos x
  | 0x13 => fTanh x
  | 0x14 => fSigmoid x
  | 0x15 => fErf x
  | _ => 0

/-- A bitwise operation on two's complement values. -/
def bitInt (f : BitVec 64 → BitVec 64 → BitVec 64) (x y : Int) : Int := (f (BitVec.ofInt 64 x) (BitVec.ofInt 64 y)).toInt

/-- v × 2^n, or ⌊v ÷ 2^|n|⌋ for a negative n (R218); beyond 64 places the results are those of the rule. -/
def shiftInt (v n : Int) : Int :=
  if 0 ≤ n then (if n < 64 then v * 2 ^ n.toNat else if v = 0 then 0 else if v < 0 then -(2 ^ 64) else 2 ^ 64)
  else if -n < 64 then v / 2 ^ (-n).toNat else if v < 0 then -1 else 0

/-- The exact integer result of a SUBOP at one element. -/
def vopI (sub : Nat) (x y z : Int) : Int :=
  match sub with
  | 0x00 => x + y
  | 0x01 => x - y
  | 0x02 => x * y
  | 0x03 => x * y + z
  | 0x04 => min x y
  | 0x05 => max x y
  | 0x06 => if x ≠ 0 then y else z
  | 0x07 => if x < y then 1 else 0
  | 0x08 => if x = y then 1 else 0
  | 0x09 => x.natAbs
  | 0x0A => -x
  | 0x0B => x
  | 0x16 => bitInt (· &&& ·) x y
  | 0x17 => bitInt (· ||| ·) x y
  | 0x18 => bitInt (· ^^^ ·) x y
  | 0x19 => shiftInt x y
  | 0x1A => shiftInt x (-y)
  | _ => 0

/-- The sources that are named, loaded. -/
def Cx.loadAll (c : Cx) (a : Acc) (hs : List Nat) : Cm (List (Option Tens)) :=
  hs.mapM fun h => if h = 0 then pure none else do
    let t ← c.load a.prod.chain h
    pure (some t)

/-- Sources converted to FP32, counted. -/
def Acc.convertAll (a : Acc) (ts : List (Option Tens)) : List (Option FT) × Acc :=
  ts.foldl (fun (acc : List (Option FT) × Acc) t => match t with
    | none => (acc.1 ++ [none], acc.2)
    | some t => let (f, n, nf) := t.toFT; (acc.1 ++ [some f], acc.2.count n nf)) ([], a)

/-- The value of an optional source at an index. -/
def optAt (t : Option FT) (loops i idx : List Nat) : Nat := match t with
  | some t => (t.iter loops i).at idx
  | none => 0

/-- The integer value of an optional source at an index. -/
def optInt (t : Option Tens) (loops i idx : List Nat) : Int := match t with
  | some t => let u := t.iter loops i; intVal u.fmt (u.codes.getD (bcast u.ext idx) 0)
  | none => 0

/-- The payload fields of R216. -/
def vSub (w : List Byte) : Nat := at1 w 18
def vDim (w : List Byte) : Nat := fld (at1 w 19) 0 3
def vSrcs (w : List Byte) : List Nat := [at2 w 8, at2 w 10, at2 w 12]

/-- Elementwise results over every iteration of a destination. -/
def overDst {α : Type} (d : TRef) (loops : List Nat) (f : List Nat → List Nat → α) : List α :=
  (iterations loops).flatMap fun i => (indices (innerExt d.ext loops)).map (f i)

/-- VOP (R218). -/
def bodyVop : Body := fun c w a => do
  let d := c.tref (at2 w 14)
  let loops := c.loops w
  let ts ← c.loadAll a (vSrcs w)
  let sub := vSub w
  if allPlain (ts.filterMap id) d && !(decide (0x0C ≤ sub) && decide (sub ≤ 0x15)) then
    c.putI a d (overDst d loops fun i k =>
      vopI sub (optInt (ts.getD 0 none) loops i k) (optInt (ts.getD 1 none) loops i k) (optInt (ts.getD 2 none) loops i k))
  else do
    let (fs, a) := a.convertAll ts
    c.putF a d (overDst d loops fun i k =>
      vopF sub (at4 w 20) (at4 w 24) (optAt (fs.getD 0 none) loops i k) (optAt (fs.getD 1 none) loops i k) (optAt (fs.getD 2 none) loops i k))

/-! ### REDUCE, SOFTMAX, NORM, ACTIVATE, ROPE, TOPK (R219) -/

/-- The elements of an iteration along a dimension at an index of the destination; the other dimensions broadcast (R217). -/
def alongDim {α : Type} (ext : List Nat) (dim : Nat) (idx : List Nat) (f : Nat → α) : List α :=
  tab (ext.getD dim 1) fun j => f (bcast ext ((idx ++ List.replicate ext.length 0).set dim j))

/-- The position of the first greatest key. -/
def argmaxOf (ks : List Int) : Nat :=
  (ks.zipIdx.foldl (fun (acc : Option (Int × Nat)) (k, i) => match acc with
    | none => some (k, i)
    | some (b, j) => if b < k then some (k, i) else some (b, j)) none).elim 0 Prod.snd

/-- REDUCE (R219). -/
def bodyReduce : Body := fun c w a => do
  let d := c.tref (at2 w 14)
  let loops := c.loops w
  let t ← c.load a.prod.chain (at2 w 8)
  let sub := vSub w
  if allPlain [t] d && sub == 3 then
    c.putIdx a d (overDst d loops fun i k =>
      let u := t.iter loops i
      argmaxOf (alongDim u.ext (vDim w) k fun p => intVal u.fmt (u.codes.getD p 0)))
  else if allPlain [t] d then
    let (lo, hi) := (-(2 ^ 31 : Int), (2 ^ 31 - 1 : Int))
    let rs := overDst d loops fun i k =>
      let u := t.iter loops i
      let l := alongDim u.ext (vDim w) k fun p => intVal u.fmt (u.codes.getD p 0)
      if sub = 0 then satq l.sum lo hi
      else (l.foldl (if sub = 1 then max else min) (l.headD 0), false)
    c.putI (a.count (rs.filter Prod.snd).length false) d (rs.map Prod.fst)
  else do
    let (f, n, nf) := t.toFT
    let a := a.count n nf
    let row := fun i k => let u := f.iter loops i; alongDim u.ext (vDim w) k fun p => u.vals.getD p 0
    if sub = 3 then c.putIdx a d (overDst d loops fun i k => argmaxOf ((row i k).map fKey))
    else c.putF a d (overDst d loops fun i k => (if sub = 0 then fSum else if sub = 1 then fMaxOf else fMinOf) (row i k))

/-- SOFTMAX of one row; a mask entry false hides the element. -/
def softmaxRow (scale : Nat) (xs : List Nat) (mask : List Bool) : List Nat :=
  if mask.all (!·) then xs.map fun _ => 0
  else
    let ys := (xs.zip mask).map fun (x, m) => if m then fMul x scale else fInfOf true
    let m := fMaxOf ys
    let ps := ys.map fun y => fExp2 (fSub y m)
    let r := fRcp (fSum ps)
    ps.map fun p => fMul p r

/-- SOFTMAX (R219). -/
def bodySoftmax : Body := fun c w a => do
  let d := c.tref (at2 w 14)
  let loops := c.loops w
  let ts ← c.loadAll a [at2 w 8, at2 w 10]
  let (fs, a) := a.convertAll (ts.take 1)
  let m := ts.getD 1 none
  c.putF a d ((iterations loops).flatMap fun i =>
    let ext := innerExt d.ext loops
    ((indices ext).map fun k => (optAt (fs.getD 0 none) loops i k, m.isNone || optInt m loops i k != 0)) |> rowsOf (ext.headD 1)
      |>.flatMap fun row => softmaxRow (at4 w 20) (row.map fun e => e.1) (row.map fun e => e.2))

/-- The FP32 value nearest 1 ÷ n, ties away (R219). -/
def recipN (n : Nat) : Nat :=
  if n = 0 then fInf
  else
    let k := 24 + Nat.log2 n
    let r := (2 * 2 ^ k / n + 1) / 2
    (convert fFP32 (.fin (r : Int) (-(k : Int)))).code

/-- NORM of one row. -/
def normRow (layer : Bool) (eps : Nat) (xs gs bs : List Nat) : List Nat :=
  let c := recipN xs.length
  if layer then
    let mu := fMul (fSum xs) c
    let ds := xs.map fun x => fSub x mu
    let v := fFma (fSum (ds.map fun x => fMul x x)) c eps
    let r := fRsqrt v
    (ds.zip (gs.zip bs)).map fun (x, g, b) => fFma (fMul x r) g b
  else
    let r := fRsqrt (fFma (fSum (xs.map fun x => fMul x x)) c eps)
    (xs.zip gs).map fun (x, g) => fMul (fMul x r) g

/-- NORM (R219). -/
def bodyNorm : Body := fun c w a => do
  let d := c.tref (at2 w 14)
  let loops := c.loops w
  let ts ← c.loadAll a (vSrcs w)
  let (fs, a) := a.convertAll ts
  let orElse := fun (n v : Nat) (i k : List Nat) => if (fs.getD n none).isNone then v else optAt (fs.getD n none) loops i k
  c.putF a d ((iterations loops).flatMap fun i =>
    let ext := innerExt d.ext loops
    (rowsOf (ext.headD 1) (indices ext)).flatMap fun row =>
      normRow (vSub w == 1) (at4 w 20) (row.map fun k => optAt (fs.getD 0 none) loops i k)
        (row.map fun k => orElse 1 fOne i k) (row.map fun k => orElse 2 0 i k))

/-- The constants of ACTIVATE as FP32. -/
def kHalf : Nat := 0x3F000000
def kRsqrt2 : Nat := 0x3F3504F3
def kGelu : Nat := 0x3F4C422A
def kCubic : Nat := 0x3D372713
def gelu (x : Nat) : Nat := fMul (fMul x kHalf) (fAdd fOne (fErf (fMul x kRsqrt2)))
def geluTanh (x : Nat) : Nat :=
  fMul (fMul x kHalf) (fAdd fOne (fTanh (fMul kGelu (fFma (fMul kCubic (fMul x x)) x x))))
def silu (x : Nat) : Nat := fMul x (fSigmoid x)

/-- ACTIVATE at one element (R219). -/
def activate (sub x y : Nat) : Nat :=
  match sub with
  | 0 => fMax x 0
  | 1 => gelu x
  | 2 => geluTanh x
  | 3 => silu x
  | 4 => fMul (silu x) y
  | _ => fMul (gelu x) y

/-- ACTIVATE (R219). -/
def bodyActivate : Body := fun c w a => do
  let d := c.tref (at2 w 14)
  let loops := c.loops w
  let ts ← c.loadAll a [at2 w 8, at2 w 10]
  if allPlain (ts.filterMap id) d && vSub w == 0 then
    c.putI a d (overDst d loops fun i k => max (optInt (ts.getD 0 none) loops i k) 0)
  else do
    let (fs, a) := a.convertAll ts
    c.putF a d (overDst d loops fun i k => activate (vSub w) (optAt (fs.getD 0 none) loops i k) (optAt (fs.getD 1 none) loops i k))

/-- The angle of ROPE: fp32(u) × C (R219). -/
def ropeAngle (pos : Nat) (theta : Int) : Nat :=
  fMul (convert fFP32 (.fin (((pos : Int) * theta % 2 ^ 32).toNat : Int) 0)).code 0x30C90FDB

/-- ROPE of one row. -/
def ropeRow (split : Bool) (pos : Nat) (xs : List Nat) (th : List Int) : List Nat :=
  let h := xs.length / 2
  tab xs.length fun j =>
    let i := if split then j % h else j / 2
    let second := if split then decide (h ≤ j) else j % 2 == 1
    let x0 := xs.getD (if split then i else 2 * i) 0
    let x1 := xs.getD (if split then i + h else 2 * i + 1) 0
    let a := ropeAngle pos (th.getD i 0)
    if second then fFma x0 (fSin a) (fMul x1 (fCos a)) else fFma x0 (fCos a) (fNeg (fMul x1 (fSin a)))

/-- ROPE (R219). -/
def bodyRope : Body := fun c w a => do
  let d := c.tref (at2 w 14)
  let loops := c.loops w
  let ts ← c.loadAll a [at2 w 8, at2 w 10]
  let (fs, a) := a.convertAll (ts.take 1)
  let pos := fld (c.reg (fld (at4 w 28) 0 6)) 0 32
  c.putF a d ((iterations loops).flatMap fun i =>
    let ext := innerExt d.ext loops
    (rowsOf (ext.headD 1) (indices ext)).flatMap fun row =>
      let m := (row.headD []).getD 1 0
      ropeRow (bit (vSub w) 0) (pos + m) (row.map fun k => optAt (fs.getD 0 none) loops i k)
        (tab (ext.headD 1 / 2) fun j => optInt (ts.getD 1 none) loops i [j]))

/-- Positions of a row in descending order of key, lower index first among equals. -/
def orderDesc (ks : List Int) : List Nat :=
  (ks.zipIdx.mergeSort fun p q => decide (q.1 ≤ p.1)).map fun p => p.2

/-- TOPK (R219). -/
def bodyTopk : Body := fun c w a => do
  let d := c.tref (at2 w 14)
  let d2 := c.tref (at2 w 16)
  let loops := c.loops w
  let k := at4 w 28
  let t ← c.load a.prod.chain (at2 w 8)
  let (f, n, nf) := t.toFT
  let outer := indices ((innerExt d.ext loops).drop 1)
  let rows := (iterations loops).flatMap fun i => let u := f.iter loops i; outer.map fun o => alongDim u.ext 0 (0 :: o) fun p => u.vals.getD p 0
  let ints := (iterations loops).flatMap fun i => let u := t.iter loops i
    outer.map fun o => alongDim u.ext 0 (0 :: o) fun p => intVal u.fmt (u.codes.getD p 0)
  if allPlain [t] d then do
    let a ← c.putI a d (ints.flatMap fun r => ((orderDesc r).take k).map fun p => r.getD p 0)
    c.putIdx a d2 (ints.flatMap fun r => (orderDesc r).take k)
  else do
    let a ← c.putF (a.count n nf) d (rows.flatMap fun r => ((orderDesc (r.map fKey)).take k).map fun p => r.getD p 0)
    c.putIdx a d2 (rows.flatMap fun r => (orderDesc (r.map fKey)).take k)

end Sys2Proof.Machine
end

