-- ==== Sys2Proof/Machine/Haze.lean ====
section
/-! DEFINITION. The haze unit: SipHash-1-3 keying, the automaton, and the draws of a destination (R173 to R181, R222). -/

namespace Sys2Proof.Machine

/-- The four words of SipHash. -/
structure Sip where
  v0 : Word
  v1 : Word
  v2 : Word
  v3 : Word

/-- One SipHash round. -/
def Sip.round (s : Sip) : Sip :=
  let v0 := s.v0 + s.v1
  let v1 := s.v1.rotateLeft 13 ^^^ v0
  let v0 := v0.rotateLeft 32
  let v2 := s.v2 + s.v3
  let v3 := s.v3.rotateLeft 16 ^^^ v2
  let v0 := v0 + v3
  let v3 := v3.rotateLeft 21 ^^^ v0
  let v2 := v2 + v1
  let v1 := v1.rotateLeft 17 ^^^ v2
  let v2 := v2.rotateLeft 32
  { v0, v1, v2, v3 }

/-- One message word absorbed, with one compression round. -/
def Sip.absorb (s : Sip) (m : Word) : Sip :=
  let s := { s with v3 := s.v3 ^^^ m }.round
  { s with v0 := s.v0 ^^^ m }

def Sip.out (s : Sip) : Word := s.v0 ^^^ s.v1 ^^^ s.v2 ^^^ s.v3

/-- SipHash-1-3 with 128-bit output over a message of whole words, as a little-endian number (R176). -/
def sipHash128 (k0 k1 : Word) (ms : List Word) : Nat :=
  let s : Sip := { v0 := k0 ^^^ 0x736F6D6570736575, v1 := k1 ^^^ 0x646F72616E646F6D ^^^ 0xEE, v2 := k0 ^^^ 0x6C7967656E657261, v3 := k1 ^^^ 0x7465646279746573 }
  let s := (ms ++ [BitVec.ofNat 64 (8 * ms.length % 256 * 2 ^ 56)]).foldl Sip.absorb s
  let s := { s with v2 := s.v2 ^^^ 0xEE }.round.round.round
  let lo := s.out
  let s := { s with v1 := s.v1 ^^^ 0xDD }.round.round.round
  lo.toNat + 2 ^ 64 * s.out.toNat

/-- The rule vector of R173. -/
def hazeRule : BitVec 128 := 0x8D3A62F15C0EB9472A6DF08317C59E4B

/-- One update of the automaton (R173). -/
def hazeStep (x : BitVec 128) : BitVec 128 := (x <<< 1) ^^^ (x >>> 1) ^^^ (hazeRule &&& x)

/-- The draw of a state (R174). -/
def hazeDraw (x : BitVec 128) : Nat := ((List.range 8).map fun j => b2n (x.getLsbD (16 * j + 7)) * 2 ^ j).sum

/-- n draws, one after each update. -/
def hazeDraws : Nat → BitVec 128 → List Nat
  | 0, _ => []
  | n + 1, x => let y := hazeStep x; hazeDraw y :: hazeDraws n y

/-- What keys the draws of a command's iteration (R176, R179). -/
structure HazeKey where
  seed : Word
  stream : Nat
  batch : Nat
  rank : Nat

/-- The starting state of the block whose first element has these coordinates (R176). -/
def HazeKey.start (k : HazeKey) (co : List Nat) : BitVec 128 :=
  let msg := leBytes 4 k.stream ++ leBytes 4 k.batch ++ (tab 5 fun i => leBytes 4 (co.getD i 0)).flatten
    ++ leBytes 1 k.rank ++ leBytes 1 1 ++ leBytes 2 0
  let o := sipHash128 k.seed (BitVec.ofNat 64 (leNat (ascii "DW9-haze"))) (tab 4 fun i => BitVec.ofNat 64 (leAt msg (8 * i) 8))
  if o = 0 then 1 else BitVec.ofNat 128 o

/-- The first n draws of a block: 32 updates yield none (R175). -/
def HazeKey.block (k : HazeKey) (co : List Nat) (n : Nat) : List Nat := hazeDraws n (Nat.iterate hazeStep 32 (k.start co))

/-- The draws of every element of a tensor, dimension 0 fastest (R177). -/
def HazeKey.draws (k : HazeKey) (ext : List Nat) : List Nat :=
  (indices (ext.drop 1)).flatMap fun o =>
    (List.range (cdiv (ext.headD 0) 64)).flatMap fun b => k.block ((64 * b) :: o) (min 64 (ext.headD 0 - 64 * b))

/-- Seed and stream of a command that draws (R222). -/
def Cx.hazeKey (c : Cx) (w : List Byte) (rank batch : Nat) : HazeKey :=
  { seed := c.regs.getD (fld (at1 w 28) 0 6) 0
    stream := if cStreamReg w then fld (c.reg (fld (at4 w 24) 0 6)) 0 32 else at4 w 24
    batch, rank }

/-- The draws of a destination over every iteration. -/
def Cx.drawsOf (c : Cx) (w : List Byte) (ext loops : List Nat) : List Nat :=
  let inner := innerExt ext loops
  (iterations loops).flatMap fun i => (c.hazeKey w inner.length (batchOf loops i)).draws inner

/-- MASK (R180). -/
def bodyMask : Body := fun c w a => do
  let d := c.tref (at2 w 10)
  let loops := c.loops w
  let p := fld (at2 w 12) 0 9
  let yes := (c.drawsOf w d.ext loops).map fun v => decide (v < p)
  if at2 w 8 = 0 then do
    let q ← c.store a.prod d (yes.map b2n) [] false
    pure { a with prod := q }
  else do
    let t ← c.load a.prod.chain (at2 w 8)
    let (f, n, nf) := t.toFT
    let xs := overDst d loops fun i k => (f.iter loops i).at k
    c.putF (a.count n nf) d ((xs.zip yes).map fun (x, y) => if y then fMul x (at4 w 16) else 0)

/-- RNDFILL (R181). -/
def bodyRndfill : Body := fun c w a => do
  let d := c.tref (at2 w 10)
  let q ← c.store a.prod d (c.drawsOf w d.ext (c.loops w)) [] false
  pure { a with prod := q }

/-- Running sums in order. -/
def runSums : Nat → List Nat → List Nat
  | _, [] => []
  | s, p :: ps => let t := fAdd s p; t :: runSums t ps

/-- The token that SAMPLE selects in a row (R222). -/
def sampleRow (invTemp ktop topp u : Nat) (logits : List Nat) : Nat :=
  let xs := logits.map fun x => fMul x invTemp
  let order := orderDesc (xs.map fKey)
  let kept := if ktop = 0 then order else order.take ktop
  let x0 := xs.getD (kept.headD 0) 0
  let ps := kept.map fun i => fExp2 (fSub (xs.getD i 0) x0)
  let total := fSum ps
  let sums := runSums 0 ps
  let cut := if fLt topp fOne then (sums.findIdx? fun s => fLt (fMul topp total) s || fEq s (fMul topp total)).map (· + 1) else none
  let n := cut.getD kept.length
  let total := if cut.isSome then sums.getD (n - 1) 0 else total
  let thr := fMul (fOf false u (-24)) total
  let i := ((sums.take n).findIdx? fun s => fLt thr s).getD (n - 1)
  kept.getD i 0

/-- SAMPLE (R222). -/
def bodySample : Body := fun c w a => do
  let d := c.tref (at2 w 10)
  let loops := c.loops w
  let t ← c.load a.prod.chain (at2 w 8)
  let (f, n, nf) := t.toFT
  c.putIdx (a.count n nf) d ((iterations loops).flatMap fun i =>
    let g := f.iter loops i
    let k := c.hazeKey w 2 (batchOf loops i)
    (rowsOf (g.ext.headD 1) g.vals).zipIdx.map fun (row, r) =>
      let u := leNat ((k.block [0, r] 3).map fun v => BitVec.ofNat 8 v)
      sampleRow (at4 w 20) (at2 w 12) (at4 w 16) u row)

end Sys2Proof.Machine
end

