-- ==== Sys2Proof/Machine/Quant.lean ====
section
/-! DEFINITION. What the quantisation class computes: STATS, QUANT, REQUANT, DEQUANT (R150 to R164). -/

namespace Sys2Proof.Machine

/-- An exact dyadic value m × 2^e. -/
abbrev Dy := Int × Int

/-- The value of a signed dyadic as an order: a < b. -/
def dyLtS (a b : Dy) : Bool := dyCmp a.1 a.2 b.1 b.2 == .lt
/-- The greater of two magnitudes. -/
def dyMaxAbs (a b : Dy) : Dy := if dyLt a.1.natAbs a.2 b.1.natAbs b.2 then (b.1.natAbs, b.2) else (a.1.natAbs, a.2)
/-- The greatest magnitude of a list; 0 for none. -/
def dyMaxOf (l : List Dy) : Dy := l.foldl dyMaxAbs (0, 0)
/-- ⌊a ÷ b × 2^n⌋ for magnitudes a, b (b not 0). -/
def dyDivFloor (a b : Dy) (n : Nat) : Nat :=
  let k := min a.2 b.2
  (a.1.natAbs * 2 ^ (a.2 - k).toNat * 2 ^ n) / (b.1.natAbs * 2 ^ (b.2 - k).toNat)
/-- a − b. -/
def dySub (a b : Dy) : Dy :=
  let k := min a.2 b.2
  (a.1 * 2 ^ (a.2 - k).toNat - b.1 * 2 ^ (b.2 - k).toNat, k)

/-- An element as an exact value, its own scale applied; non-finite elements of the wide formats as the pan path reads
them when pan holds, and otherwise as special values (R62, R63, R68, R70). -/
def Tens.exact (t : Tens) (pan : Bool) (idx : List Nat) (p : Nat) : Val × Bool :=
  let c := t.codes.getD p 0
  let s := t.scs.getD p 0
  if t.fmt = fCB4 then
    let b := t.book idx
    (.fin (b.entries.getD c 0) (b.exp + s), false)
  else match readVal pan t.fmt c with
    | (.fin m e, nf) => (.fin m (e + s), nf)
    | r => r

/-- Every element as an exact dyadic after R62 and R63, with NONFINITE. -/
def Tens.dys (t : Tens) : List Dy × Bool :=
  let r := (indices t.ext).zipIdx.map fun (i, p) => t.exact true i p
  (r.map fun v => match v.1 with | .fin m e => (m, e) | _ => (0, 0), t.nonfinite || r.any fun v => v.2)

/-- Greatest magnitude of a codebook: its code maximum (R150). -/
def Book.max (b : Book) : Dy := dyMaxOf (b.entries.map fun n => (n, b.exp))

/-- The scale of a set of elements (R151). -/
def scaleOf (fmt : Nat) (book : Option Book) (l : List Dy) : Int :=
  let m := dyMaxOf l
  match book with
  | some b => chooseScale m.1.natAbs m.2 b.max.1.natAbs b.max.2
  | none => let (cm, ce) := codeMax fmt; chooseScale m.1.natAbs m.2 cm ce

/-- A magnitude strictly above an FP32 threshold, compared exactly (R153). -/
def aboveThr (m : Dy) (thr : Nat) : Bool :=
  if fIsNan thr then false
  else if fIsInf thr then fSign thr
  else
    let t := fVal thr
    if t.1 < 0 then true else dyLt t.1.natAbs t.2 m.1.natAbs m.2

/-! ### Conversion (R155, R157) -/

/-- Stochastic rounding of a magnitude between lo and lo + step (R157 steps 2 to 4), in units of the step. -/
def srPick (m lo step : Dy) (d : Nat) : Bool := decide (d < dyDivFloor (dySub m lo) step 8)

/-- Conversion of an exact value into an integer target with a draw. A magnitude above the code maximum never rounds: it saturates to
the range's limit and is counted, also where a signed range reaches one step further below zero (DEDUCED, log entry 77). -/
def srInt (f : Nat) (v : Dy) (d : Nat) : Conv :=
  let (lo, hi) := (intRange f).getD (0, 0)
  let v : Dy := (v.1, if f == fMXINT8 then v.2 + 6 else v.2)
  let m : Dy := (v.1.natAbs, v.2)
  let fl := dyDivFloor m (1, 0) 0
  let exact := !dyLt fl 0 m.1.natAbs m.2
  let r : Int := if exact then fl else if dyLt hi.toNat 0 m.1.natAbs m.2 || srPick m (fl, 0) (1, 0) d then fl + 1 else fl
  let (q, s) := satq (if v.1 < 0 then -r else r) lo hi
  { code := intCode f q, sat := s || (!exact && dyLt hi.toNat 0 m.1.natAbs m.2) }

/-- Conversion of an exact value into a floating target with a draw. -/
def srFloat (f : Nat) (v : Dy) (d : Nat) : Conv :=
  let neg := decide (v.1 < 0)
  let (mm, me) := floatMax f
  if v.1 = 0 then { code := 0 }
  else if dyLt mm me v.1.natAbs v.2 then
    if isWide f then convert f (.fin v.1 v.2) else { code := maxCode f neg, sat := true }
  else
    let bias := (floatParams f).elim 0 fun p => p.2.2
    let q := gridExp f v.1.natAbs v.2
    let m : Dy := (v.1.natAbs, v.2)
    if isWide f && decide (dyLog2 v.1.natAbs v.2 < 1 - bias) then
      if srPick m (0, 0) (1, 1 - bias) d then finishFloat f neg 1 (1 - bias) else { code := 0 }
    else
      let fl := dyDivFloor m (1, q) 0
      let exact := !dyLt fl q m.1.natAbs m.2
      finishFloat f neg (if exact then fl else if srPick m (fl, q) (1, q) d then fl + 1 else fl) q

/-- The lowest code of a codebook nearest to a value (R155). -/
def nearestEntry (b : Book) (v : Dy) : Nat :=
  let ds := b.entries.map fun n => let x := dySub v (n, b.exp); ((x.1.natAbs : Int), x.2)
  (ds.zipIdx.foldl (fun (acc : Option (Dy × Nat)) (x, i) => match acc with
    | none => some (x, i)
    | some (y, j) => if dyLt x.1.natAbs x.2 y.1.natAbs y.2 then some (x, i) else some (y, j)) none).elim 0 fun e => e.2

/-- Conversion into a codebook: to the nearest entry, or with a draw between neighbouring entries (R155, R157). -/
def toBook (b : Book) (v : Dy) (draw : Option Nat) : Conv :=
  let sat := dyLt b.max.1.natAbs b.max.2 v.1.natAbs v.2
  match draw with
  | none => { code := nearestEntry b v, sat }
  | some d =>
    let lows := b.entries.filter fun n => !dyLtS v (n, b.exp)
    let highs := b.entries.filter fun n => dyLtS v (n, b.exp)
    let pick : Int := match lows.max?, highs.min? with
      | none, some h => h
      | some l, none => l
      | some l, some h =>
        if dyCmp l b.exp v.1 v.2 == .eq then l
        else if srPick (dySub v (l, b.exp)) (0, 0) (h - l, b.exp) d then h else l
      | none, none => 0
    { code := (b.entries.findIdx? fun n => n == pick).getD 0, sat }

/-- One element converted into a target: its scale exponent taken off first (R155, R157). -/
def quantElem (f : Nat) (book : Option Book) (v : Dy) (s : Int) (draw : Option Nat) : Conv :=
  let v : Dy := (v.1, v.2 - s)
  match book with
  | some b => toBook b v draw
  | none => match draw with
    | none => convert f (.fin v.1 v.2)
    | some d => if isFloat f then srFloat f v d else srInt f v d

/-! ### STATS (R153) -/

/-- A maximum written into a max-abs destination (R153). -/
def maxConv (t : TRef) (m : Dy) : Conv := convert t.fmt (.fin m.1 (m.2 - t.ts))

/-- Results stored in an optional destination. -/
def Cx.putMax (c : Cx) (a : Acc) (h : Nat) (ms : List Dy) : Cm Acc :=
  if h = 0 then pure a
  else do
    let d := c.tref h
    let cs := ms.map (maxConv d)
    let p ← c.store a.prod d (cs.map Conv.code) [] false
    pure (({ a with prod := p } : Acc).count (cs.filter Conv.sat).length false)

/-- Elements grouped by a key below n. -/
def groupBy (n : Nat) (keys : List Nat) (l : List Dy) : List (List Dy) :=
  tab n fun k => ((keys.zip l).filter fun e => e.1 == k).map fun e => e.2

/-- The blocks of a tensor of extents, in R68's order, each with its elements. -/
def blocksOf (ext : List Nat) (blocked : Nat) (square : Bool) (l : List Dy) : List (List Dy) :=
  let bx := blockExt ext blocked square
  groupBy (prodL bx) ((indices ext).map fun i => flatIdx bx (blockIdx i blocked square)) l

/-- STATS (R153). -/
def bodyStats : Body := fun c w a => do
  let src := c.tref (at2 w 8)
  let loops := c.loops w
  let t ← c.load a.prod.chain (at2 w 8)
  let a := a.count 0 t.dys.2
  let inner := innerExt t.ext loops
  let its := (iterations loops).map fun i => (t.iter loops i).dys.1
  let dim := fld (at1 w 20) 0 3
  let chans := inner.getD dim 1
  let chanKey := (indices inner).map fun i => i.getD dim 0
  let blocks := its.flatMap (blocksOf inner src.d.blocked src.d.square)
  let a ← c.putMax a (at2 w 10) (blocks.map dyMaxOf)
  let a ← c.putMax a (at2 w 12) (its.flatMap fun l => (groupBy chans chanKey l).map dyMaxOf)
  let a ← c.putMax a (at2 w 14) (its.map dyMaxOf)
  let a ← if at2 w 16 = 0 then pure a else do
    let d := c.tref (at2 w 16)
    let one := prodL (innerExt d.ext loops) == 1
    let hits := fun (l : List Dy) => (l.filter fun v => aboveThr v (at4 w 24)).length
    let counts := its.flatMap fun l => if one then [hits l] else (groupBy chans chanKey l).map hits
    let cs := counts.map fun (k : Nat) => satq k (-(2 ^ 31)) (2 ^ 31 - 1)
    let p ← c.store a.prod d (cs.map fun v => intCode fI32 v.1) [] false
    pure (({ a with prod := p } : Acc).count (cs.filter fun e => e.2).length false)
  let tgt := at1 w 21
  let a ← if at2 w 18 = 0 then pure a else do
    let p ← c.store a.prod (c.tref (at2 w 18)) (blocks.map fun l => scaleCode (scaleOf tgt none l)) [] false
    pure { a with prod := p }
  if at2 w 28 = 0 then pure a else do
    let p ← c.store a.prod (c.tref (at2 w 28)) (its.map fun l => scaleCode (scaleOf tgt none l)) [] false
    pure { a with prod := p }

/-! ### QUANT (R154, R155, R163) -/

/-- The outlier channels of an iteration: at most n, in increasing order (R163). -/
def outliers (e0 n tau : Nat) (rows : List (List Dy)) : List Nat :=
  let mx := tab e0 fun k => dyMaxOf (rows.map fun r => r.getD k (0, 0))
  let cand := (List.range e0).filter fun k => aboveThr (mx.getD k (0, 0)) tau
  let ranked := cand.mergeSort fun i j =>
    let a := mx.getD i (0, 0); let b := mx.getD j (0, 0)
    !dyLt a.1.natAbs a.2 b.1.natAbs b.2
  (ranked.take n).mergeSort fun i j => decide (i ≤ j)

/-- The code whose value is zero, or the entry nearest zero of a codebook (R163). -/
def zeroCode (book : Option Book) : Nat := book.elim 0 fun b => nearestEntry b (0, 0)

/-- A tensor scale that a command measured: to the descriptor's field, or to the register it names (R154), whose value keeps to R198. -/
def Cx.putTscale (c : Cx) (a : Acc) (t : TRef) (s : Int) : Cm Acc :=
  if bit t.d.tscale 15 then do
    let r := fld t.d.tscale 0 6
    let v := (c.regs.getD r 0).toNat / 256 * 256 + uwrap 8 s
    let st ← get
    let e := st.regCheck c.h r v
    need (e == 0) e
    pure { a with prod := { a.prod with regs := a.prod.regs ++ [(r, BitVec.ofNat 64 v)] } }
  else pure { a with prod := { a.prod with ts := a.prod.ts ++ [(t.h, s)] } }

/-- The codebook in force at an index of a destination. -/
def bookAt (t : TRef) (books : List Book) (idx : List Nat) : Option Book :=
  if t.fmt = fCB4 then books[if t.d.cbGrouped then idx.getD t.d.blocked 0 / 2 ^ (t.d.cbGroup + 5) else 0]? else none

/-- QUANT (R154, R155, R163). R151 does not say which codebook gives the code maximum of SCALE_MODE 2 for a CB4 destination with
codebooks by group: that of group 0 does (DESIGN CHOICE, log entry 77). -/
def bodyQuant : Body := fun c w a => do
  let d := c.tref (at2 w 10)
  let loops := c.loops w
  let mode := fld (at1 w 20) 0 2
  let t ← c.load a.prod.chain (at2 w 8)
  let a := a.count 0 t.dys.2
  let inner := innerExt d.ext loops
  let e0 := inner.headD 1
  let its := (iterations loops).map fun i => let u := t.iter loops i; (indices inner).map fun k => u.dys.1.getD (bcast u.ext k) (0, 0)
  let l := c.tref (at2 w 14)
  let nmax := l.e 0
  let sel := its.map fun v => if at2 w 12 = 0 then [] else outliers e0 nmax (at4 w 16) (rowsOf e0 v)
  let hidden := (its.zip sel).flatMap fun (v, o) => v.mapIdx fun p _ => o.contains (p % e0)
  let vals := its.flatten
  let shown := (vals.zip hidden).map fun (v, h) => if h then ((0, 0) : Dy) else v
  let books ← c.books d
  let idxs := indices d.ext
  let given ← if mode = 0 then c.givenScales d else pure []
  let blockBooks := tab d.nBlocks fun b => ((idxs.find? fun i => d.blockOf i == b).map fun i => bookAt d books i).getD none
  let measured := if mode = 1 then
      (groupBy d.nBlocks (idxs.map d.blockOf) shown).zipIdx.map fun (g, b) => scaleCode (scaleOf d.fmt (blockBooks.getD b none) g)
    else []
  let ts := if mode = 2 then scaleOf d.fmt (bookAt d books []) shown else d.ts
  let scs := if mode = 2 then List.replicate vals.length ts else d.dstScales (if mode = 1 then measured else given) ts
  let draws := if cSr w then (c.drawsOf w d.ext loops).map some else vals.map fun _ => none
  let cs := (idxs.zip ((vals.zip hidden).zip (scs.zip draws))).map fun (i, (v, h), s, dr) =>
    let b := bookAt d books i
    if h then { code := zeroCode b } else quantElem d.fmt b v s dr
  let p ← c.store a.prod { d with ts } (cs.map Conv.code) (if mode = 1 then measured else given) (mode == 1)
  let a := ({ a with prod := p } : Acc).count (cs.filter Conv.sat).length (cs.any Conv.nonfinite || given.contains 255)
  let a ← if mode = 2 then c.putTscale a d ts else pure a
  if at2 w 12 = 0 then pure a
  else do
    let o := c.tref (at2 w 12)
    let ovals := (its.zip sel).flatMap fun (v, k) =>
      (rowsOf e0 v).flatMap fun r => tab nmax fun j => (k[j]?).elim ((0, 0) : Dy) fun ch => r.getD ch (0, 0)
    let os := if o.fmt = fI16 then scaleOf fI16 none ovals else o.ts
    let ocs := ovals.map fun v => convert o.fmt (.fin v.1 (v.2 - os))
    let p ← c.store a.prod { o with ts := os } (ocs.map Conv.code) [] false
    let a := ({ a with prod := p } : Acc).count (ocs.filter Conv.sat).length false
    let a ← if o.fmt = fI16 then c.putTscale a o os else pure a
    let p ← c.store a.prod l (sel.flatMap fun k => tab nmax fun j => (k[j]?).getD (2 ^ 32 - 1)) [] false
    pure { a with prod := p }

/-! ### REQUANT and DEQUANT (R156, R159, R160) -/

/-- One element of REQUANT (R159). -/
def requantElem (f : Nat) (x m : Int) (sh : Nat) (draw : Option Nat) : Conv :=
  let (lo, hi) := (intRange f).getD (0, 0)
  match draw with
  | none => let (q, s) := satq (rna (x * m) sh) lo hi; { code := intCode f q, sat := s }
  | some d => srInt f (x * m, -(sh : Int)) d

/-- REQUANT (R159, R160). -/
def bodyRequant : Body := fun c w a => do
  let d := c.tref (at2 w 10)
  let loops := c.loops w
  let t ← c.load a.prod.chain (at2 w 8)
  let mt ← if at2 w 12 = 0 then pure none else do
    let x ← c.load a.prod.chain (at2 w 12)
    pure (some x)
  let st ← if at2 w 14 = 0 then pure none else do
    let x ← c.load a.prod.chain (at2 w 14)
    pure (some x)
  need (st.all fun x : Tens => x.codes.all fun v => decide (v ≤ 62)) 0x0103
  let m0 : Int := if bit (at1 w 20) 6 then sext 16 (c.reg (fld (at1 w 20) 0 6)) else sext 16 (at2 w 16)
  let s0 := if bit (at1 w 21) 6 then c.reg (fld (at1 w 21) 0 6) else at1 w 18
  need (st.isSome || decide (s0 ≤ 62)) 0x0103
  let dim := fld (at1 w 22) 0 3
  let per := fun (x : Option Tens) (i k : List Nat) => x.map fun x =>
    let y := x.iter loops i
    intVal y.fmt (y.codes.getD (if y.codes.length = 1 then 0 else k.getD dim 0) 0)
  let draws := if cSr w then (c.drawsOf w d.ext loops).map some else List.replicate (prodL d.ext) none
  let elems := overDst d loops fun i k =>
    (intVal t.fmt ((t.iter loops i).codes.getD (bcast (innerExt t.ext loops) k) 0), (per mt i k).getD m0, ((per st i k).map Int.toNat).getD s0)
  let cs := (elems.zip draws).map fun ((x, m, sh), dr) => requantElem d.fmt x m sh dr
  let given ← c.givenScales d
  let p ← c.store a.prod d (cs.map Conv.code) given false
  pure (({ a with prod := p } : Acc).count (cs.filter Conv.sat).length false)

/-- DEQUANT (R156). -/
def bodyDequant : Body := fun c w a => do
  let d := c.tref (at2 w 10)
  let loops := c.loops w
  let t ← c.load a.prod.chain (at2 w 8)
  let given ← c.givenScales d
  let vals := overDst d loops fun i k =>
    let y := t.iter loops i
    let p := bcast y.ext k
    y.exact false k p
  let cs := (vals.zip (d.dstScales given d.ts)).map fun (v, s) => match v.1 with
    | .fin m e => convert d.fmt (.fin m (e - s))
    | x => convert d.fmt x
  let p ← c.store a.prod d (cs.map Conv.code) given false
  pure (({ a with prod := p } : Acc).count (cs.filter Conv.sat).length (t.nonfinite || given.contains 255 || vals.any fun e => e.2))

end Sys2Proof.Machine
end

