-- ==== Sys2Proof/Machine/PanArith.lean ====
section
/-! DEFINITION. The arithmetic of the pan: block integers and pieces, junctions, accumulators, outliers, the drain
(R73 to R80, R84 to R93, R164, R212). -/

namespace Sys2Proof.Machine

/-- Weight pieces, or activation pieces, of a format (R76, R79). -/
def fmtPieces (f : Nat) : Nat := if f = fI16 ∨ f = fBF16 ∨ f = fFP16 then 2 else if f = fFP32 then 3 else 1
/-- Steps per weight piece (R73). -/
def fmtSteps (f : Nat) : Nat := if f = fI8 ∨ f = fU8 ∨ f = fMXINT8 ∨ fmtPieces f > 1 then 2 else 1
/-- LSB exponent λ_w of a one-piece weight format; CB4 takes CB_EXP (R73). -/
def lambdaW (f : Nat) : Int :=
  if f = fMXINT8 then -6 else if f = fE2M1 then -1 else if f = fE2M3 then -3 else if f = fE3M2 then -4
  else if f = fE4M3 ∨ f = fE5M2 then -9 else 0
/-- The bound Q of a block integer of p pieces (R76). -/
def blockQ (p : Nat) : Nat := if p = 1 then 255 else if p = 2 then 32767 else 8388607

/-- J of R88. -/
def jOf (w : Nat) (pa : Nat) : Int :=
  let row : List Int :=
    if w = fI4 ∨ w = fU4 ∨ w = fE2M1 ∨ w = fE2M3 then [0, 8, 16] else if w = fE3M2 then [0, 8, 14]
    else if w = fCB4 then [0, 8, 12] else if w = fE4M3 ∨ w = fE5M2 then [0, 5, 5]
    else if w = fI8 ∨ w = fMXINT8 then [0, 8, 16] else if w = fU8 then [0, 8, 15]
    else if w = fFP32 then [15, 16, 16] else [8, 16, 16]
  row.getD (pa - 1) 0

/-- The smallest b with m × 2^(e − b) ≤ Q for a positive magnitude. -/
def smallestExp (m : Nat) (e : Int) (q : Nat) : Int :=
  let b := dyLog2 m e - (Nat.log2 q : Int)
  if dyLe m (e - b) q 0 then b else b + 1

/-- An operand prepared for the pan: per element its integer, the exponent of its block for the lowest piece, and
whether its block takes part in the reference exponent (R86, R87). -/
structure PanT where
  ext : List Nat
  red : Nat
  pieces : Nat
  q : List Int
  be : List Int
  part : List Bool
  nonfinite : Bool := false

/-- The elements of a tensor by block along the reduction, or by square (R77, R97): each element's block. -/
def blockKeys (ext : List Nat) (red : Nat) (square : Bool) : List Nat :=
  let bx := blockExt ext red square
  (indices ext).map fun i => flatIdx bx (blockIdx i red square)

/-- The greatest magnitude of each block. -/
def blockMaxima (n : Nat) (keys : List Nat) (l : List Dy) : List Dy := (groupBy n keys l).map dyMaxOf

/-- Elements of a tensor without their scale, after R62 and R63. -/
def Tens.plainDys (t : Tens) : List Dy × Bool :=
  let r := t.codes.map fun c => readVal true t.fmt c
  (r.map fun v => match v.1 with | .fin m e => (m, e) | _ => (0, 0), r.any fun v => v.2)

/-- Block integers of p pieces (R77). -/
def blockInts (t : Tens) (red : Nat) (square : Bool) (p : Nat) : PanT :=
  let (vs, nf) := t.plainDys
  let keys := blockKeys t.ext red square
  let mx := blockMaxima (prodL (blockExt t.ext red square)) keys vs
  let b := mx.map fun m => if m.1 = 0 then 0 else smallestExp m.1.natAbs m.2 (blockQ p)
  let bs := keys.map fun k => b.getD k 0
  { ext := t.ext, red, pieces := p
    q := (vs.zip bs).map fun (v, b) => if v.1 = 0 then 0 else shiftRna v.1 (v.2 - b)
    be := (bs.zip t.scs).map fun (b, s) => b + s
    part := keys.map fun k => (mx.getD k (0, 0)).1 != 0
    nonfinite := nf || t.nonfinite }

/-- Integers with a fixed exponent; every block takes part. -/
def codeInts (t : Tens) (red p : Nat) (q : List Int) (e : List Int) (nf : Bool) : PanT :=
  { ext := t.ext, red, pieces := p, q, be := (e.zip t.scs).map fun (a, s) => a + s, part := t.codes.map fun _ => true
    nonfinite := nf || t.nonfinite }

/-- An activation operand (R76). -/
def prepA (t : Tens) (red : Nat) (square : Bool) : PanT :=
  if isFloat t.fmt then blockInts t red square (fmtPieces t.fmt)
  else
    let q := t.codes.map fun c => if t.fmt = fMXINT8 then sext 8 c else intVal t.fmt c
    codeInts t red (fmtPieces t.fmt) q (t.codes.map fun _ => if t.fmt = fMXINT8 then -6 else 0) false

/-- E5M2 weights as E4M3 codes with the exponent t of their block (R75). Where the block's scale exponent grown by t passes the
top of the range, only the scale is clamped (R67): R75 fixes the codes at step 3, before the scale grows. That they are not
rescaled then is the model's choice (DESIGN CHOICE, log entry 77). -/
def stageE5M2 (t : Tens) (red : Nat) (square : Bool) : PanT :=
  let (vs, nf) := t.plainDys
  let keys := blockKeys t.ext red square
  let mx := blockMaxima (prodL (blockExt t.ext red square)) keys vs
  let ts := keys.map fun k => let m := mx.getD k (0, 0); if m.1 = 0 then 0 else smallestExp m.1.natAbs m.2 448
  let q := (vs.zip ts).map fun (v, s) =>
    match floatDecode fE4M3 (convert fE4M3 (.fin v.1 (v.2 - s))).code with
    | .fin m e => m * 2 ^ (e + 9).toNat
    | _ => 0
  { ext := t.ext, red, pieces := 1, q
    be := (ts.zip t.scs).map fun (a, s) => -9 + scaleExp (scaleCode (s + a))
    part := t.codes.map fun _ => true, nonfinite := nf || t.nonfinite }

/-- A weight operand (R73 to R78). -/
def prepW (t : Tens) (red : Nat) (square : Bool) : PanT :=
  if t.fmt = fE5M2 then stageE5M2 t red square
  else if t.fmt = fCB4 then
    let bs := (indices t.ext).map t.book
    codeInts t red 1 ((bs.zip t.codes).map fun (b, c) => b.entries.getD c 0) (bs.map Book.exp) false
  else if isWide t.fmt then blockInts t red square (fmtPieces t.fmt)
  else if isFloat t.fmt then
    let l := lambdaW t.fmt
    let (vs, nf) := t.plainDys
    codeInts t red 1 (vs.map fun v => v.1 * 2 ^ (v.2 - l).toNat) (vs.map fun _ => l) nf
  else
    codeInts t red (fmtPieces t.fmt) (t.codes.map fun c => if t.fmt = fMXINT8 then sext 8 c else intVal t.fmt c)
      (t.codes.map fun _ => lambdaW t.fmt) false

/-- Piece j of an integer of p pieces (R78). -/
def pieceOf (p j : Nat) (q : Int) : Int :=
  if p ≤ 1 then q else if j + 1 = p then q / 2 ^ (8 * j) else q / 2 ^ (8 * j) % 256

/-- One piece of a prepared weight: its integers and its exponents ω (R78, R86). -/
def PanT.piece (t : PanT) (j : Nat) : PanT :=
  { t with pieces := 1, q := t.q.map (pieceOf t.pieces j), be := t.be.map (· + 8 * (j : Int)) }

/-- The code that the staging path writes into a stationary register for a weight (R74, R75, R78): a split weight's piece, an
E5M2 weight's E4M3 code, the tensor's own code with NaN replaced otherwise; right-aligned in 8 bits. -/
def regCode (fmt j raw : Nat) (q : Int) : Nat :=
  if fmtPieces fmt > 1 then uwrap 8 (pieceOf (fmtPieces fmt) j q)
  else if fmt = fE5M2 then (convert fE4M3 (.fin q (-9))).code
  else if fmt = fE4M3 ∧ raw % 128 = 127 then raw - 1
  else raw % 256

/-- The integer that a register's code stands for in the cells (R73, R78); CB4 codes index a codebook. -/
def regInt (fmt j code : Nat) (book : List Int) : Int :=
  if fmtPieces fmt > 1 then (if j + 1 = fmtPieces fmt then sext 8 code else code)
  else if fmt = fCB4 then book.getD code 0
  else if isFloat fmt then
    match floatDecode (if fmt = fE5M2 then fE4M3 else fmt) code with
    | .fin m e => m * 2 ^ (e - lambdaW fmt).toNat
    | _ => 0
  else if fmt = fMXINT8 then sext 8 code
  else intVal fmt code

/-- One line of an operand along the reduction: integers, block exponents and flags by element. -/
structure PanL where
  pieces : Nat
  q : List Int
  be : List Int
  part : List Bool

/-- The line of a two-dimensional operand at an index of the other dimension. -/
def PanT.line (t : PanT) (i : Nat) : PanL :=
  let k := t.ext.getD t.red 1
  let pos := fun j => if t.red = 0 then flatIdx t.ext [j, i] else flatIdx t.ext [i, j]
  { pieces := t.pieces, q := tab k fun j => t.q.getD (pos j) 0, be := tab k fun j => t.be.getD (pos j) 0
    part := tab k fun j => t.part.getD (pos j) false }

/-- The greatest exponent of the blocks that take part, with the top piece's offset; 0 when none does (R87). -/
def PanL.top (l : PanL) : Int :=
  let es := (l.be.zip l.part).filterMap fun (e, p) => if p then some e else none
  match es.max? with
  | some e => e + 8 * (l.pieces - 1 : Nat)
  | none => 0

/-- A block sum of one piece of the activation and one of the weight (R84): exact. -/
def blockSum (a w : PanL) (blk ja : Nat) : Int :=
  ((List.range 32).map fun i =>
    let k := 32 * blk + i
    pieceOf a.pieces ja (a.q.getD k 0) * w.q.getD k 0).sum

/-- The junction (R90). -/
def junction (bs d : Int) : Int := if 0 ≤ d then rna bs d.toNat else bs * 2 ^ (-d).toNat

/-- An addition into a 40-bit sum, with the clamps it counts. -/
def add40 (acc : Int × Nat) (v : Int) : Int × Nat :=
  let (x, c) := sat40 (acc.1 + v)
  (x, acc.2 + b2n c)

/-- The groups that R91 runs through, each as a weight piece and a number, in its order: the top piece's first. -/
def sweepOrder (pw nblk g : Nat) : List (Nat × Nat) :=
  (List.range pw).reverse.flatMap fun jw => (List.range (cdiv nblk g)).map fun gi => (jw, gi)

/-- One sweep per activation piece over group gi of nblk blocks in groups of g, top piece first, added to an accumulator
with the clamps so far (R91); w is the weight line of the piece. -/
def sweepGroup (a w : PanL) (nblk g gi : Nat) (eref : Int) (acc : Int × Nat) : Int × Nat :=
  (List.range a.pieces).reverse.foldl (fun acc (ja : Nat) =>
    let t := (List.range (min g (nblk - gi * g))).foldl (fun t (bi : Nat) =>
      let blk := gi * g + bi
      let e := a.be.getD (32 * blk) 0 + 8 * (ja : Int) + w.be.getD (32 * blk) 0
      add40 t (junction (blockSum a w blk ja) (eref - e))) ((0 : Int), 0)
    let r := add40 acc t.1
    (r.1, r.2 + t.2)) acc

/-- Groups run one after the other from an accumulator: 0, or one that a pan handed over at a group boundary (R94, R95). -/
def runGroups (a : PanL) (ws : Nat → PanL) (nblk g : Nat) (eref : Int) (steps : List (Nat × Nat)) (accIn : Int × Nat) : Int × Nat :=
  steps.foldl (fun acc p => sweepGroup a (ws p.1) nblk g p.2 eref acc) accIn

/-- The accumulator of one output element and its clamps, from acc_in (R91, R94); ws gives the weight line of each piece. -/
def outputElement (a : PanL) (ws : Nat → PanL) (pw nblk g : Nat) (eref : Int) (accIn : Int × Nat) : Int × Nat :=
  runGroups a ws nblk g eref (sweepOrder pw nblk g) accIn

/-- The outliers' products merged into an accumulator (R164): exact products with their exponents. -/
def mergeOutliers (acc : Int × Nat) (prods : List Dy) (eref : Int) : Int × Nat :=
  let add := fun (st : Int × Nat) (p : Dy) =>
    let d := (eref - 32) - p.2
    if 0 ≤ d then (st.1 + rna p.1 d.toNat, st.2)
    else
      let (x, c) := satq (p.1 * 2 ^ (min (-d) 100).toNat) (-(2 ^ 100)) (2 ^ 100)
      (st.1 + x, st.2 + b2n c)
  let (s, n) := prods.foldl add ((0 : Int), 0)
  let (c, k) := satq (rna s 32) (-(2 ^ 62)) (2 ^ 62)
  let r := add40 (acc.1, acc.2 + n + b2n k) c
  r

/-- The result of a matrix product: accumulators with their reference exponents, and clamps. -/
structure MatRes where
  accs : List Dy := []
  clamps : Nat := 0
  nonfinite : Bool := false

/-- A product of A (reduction along redA, M rows) with W (reduction along redW, N columns), group of g blocks; D's
dimension 0 is N (R211). ws gives the pieces of W; outl the outlier products of (m, n). -/
def matProduct (a : PanT) (ws : Nat → PanT) (wfmt g : Nat) (outl : Nat → Nat → Option (List Dy)) : MatRes :=
  let w0 := ws ((fmtPieces wfmt) - 1)
  let other := fun (t : PanT) => t.ext.getD (1 - t.red) 1
  let k := a.ext.getD a.red 1
  let lines := tab (other w0) fun n => tab (fmtPieces wfmt) fun j => (ws j).line n
  let rs := (List.range (other a)).flatMap fun m =>
    let la := a.line m
    (List.range (other w0)).map fun n =>
      let wl := lines.getD n []
      let top := wl.getD (fmtPieces wfmt - 1) { pieces := 1, q := [], be := [], part := [] }
      let eref := la.top + top.top - jOf wfmt a.pieces
      let acc := outputElement la (fun j => wl.getD j top) (fmtPieces wfmt) (cdiv k 32) g eref (0, 0)
      let acc := match outl m n with
        | some ps => mergeOutliers acc ps eref
        | none => acc
      (((acc.1, eref) : Dy), acc.2)
  { accs := rs.map fun e => e.1, clamps := (rs.map fun e => e.2).sum, nonfinite := a.nonfinite || w0.nonfinite }

/-- The output scales of the drain (R212): the values of OSCALE's elements with their own scales (R68), and whether each was
not finite. -/
def Tens.oscales (t : Tens) : List (Dy × Bool) :=
  (indices t.ext).zipIdx.map fun (i, p) => match t.exact true i p with
    | (.fin m e, nf) => ((m, e), nf || t.nonfinite)
    | (_, nf) => ((0, 0), nf || t.nonfinite)

/-- A value converted into a matrix command's output format (R65, R80, R93); a CB4 target takes the nearest entry of the
codebook in force (R155). -/
def drainConv (f : Nat) (book : Option Book) (v : Dy) : Conv :=
  match book with
  | some b => toBook b v none
  | none => if f = fPAIR then convertPair v.1 v.2 else convert f (.fin v.1 v.2)

/-- An FP32 value converted into a matrix command's output format: special values as R65 says. An FP32 value's pair is the value
and +0 (R80; log entry 77). -/
def drainF32 (f : Nat) (book : Option Book) (v : Nat) : Conv :=
  if f = fPAIR then fromF32 fFP32 v 0
  else if fIsNan v ∨ fIsInf v then
    match book with
    | some b => { toBook b ((if fSign v then -1 else 1), 2000) none with nonfinite := true }
    | none => fromF32 f v 0
  else let x := fVal v; drainConv f book (x.1, x.2)

end Sys2Proof.Machine
end

