-- ==== Sys2Proof/Machine/Matrix.lean ====
section
/-! DEFINITION. The matrix commands MATMUL and ATTEND (R99, R101, R161 to R164, R211 to R215). -/

namespace Sys2Proof.Machine

/-- The weight operand's K and N extents: MATMUL's W has K on dimension 0, ATTEND's V on dimension 1 (R211, R213). -/
def tileDims (kdim : Nat) (ext : List Nat) : Nat × Nat := (ext.getD kdim 1, ext.getD (1 - kdim) 1)

/-- The weight sets of an operation: K-tile, N-tile (with the iteration of the weight tensor above it) and piece, or none
in output-stationary mode (R99, R101). -/
abbrev SetKey := Nat × Nat × Nat

/-- The operations of a weight-stationary or transposed product, with their sets (R91, R96, R99): for each output tile the groups
of R91 in order. R91 orders the groups of one element alone; that output tiles follow one another with N (K when transposed)
outermost, then M, is the model's choice (DESIGN CHOICE, log entry 77), under which one tile is in the drain at a time. -/
def stationaryOps (k n m pw rows : Nat) (transposed : Bool) (outer : Nat) : List (Option SetKey) :=
  let kts := cdiv k 256
  let nts := cdiv n 128
  (List.range (if transposed then kts else nts)).flatMap fun o =>
    (List.range (cdiv m rows)).flatMap fun _ =>
      (List.range pw).reverse.flatMap fun j =>
        (List.range (if transposed then nts else kts)).map fun g =>
          some (if transposed then (o, g + nts * outer, j) else (g, o + nts * outer, j))

/-- The linear index of an iteration over the weight tensor's own loop extents. -/
def outerOf (ext loops i : List Nat) : Nat :=
  let o := ext.drop (ext.length - loops.length)
  flatIdx o ((o.zip i).map fun (e, j) => if e = 1 then 0 else j)

/-- MODE of a MATMUL: 0 weight-stationary, 1 transposed, 2 output-stationary (R211). -/
def mMode (w : List Byte) : Nat := fld (at1 w 20) 0 2

/-- The pan operations of a matrix command in the order of R91, with the set that each names (R99). -/
def Cx.panOps (c : Cx) (w : List Byte) : List (Option SetKey) :=
  let loops := c.loops w
  if cOp w = 0x00 then
    let a := c.tref (at2 w 8)
    let b := c.tref (at2 w 10)
    (iterations loops).flatMap fun i =>
      let k := b.e 0
      let n := b.e 1
      let m := a.e 1
      let o := outerOf b.ext loops i
      if mMode w = 0 then stationaryOps k n m (fmtPieces b.fmt) 64 false o
      else if mMode w = 1 then stationaryOps k n m (fmtPieces b.fmt) 32 true o
      else List.replicate (cdiv m 64 * cdiv n 128 * cdiv k 256 * fmtPieces b.fmt * fmtPieces a.fmt) none
  else
    let q := c.tref (at2 w 8)
    let kk := c.tref (at2 w 10)
    let v := c.tref (at2 w 12)
    (iterations loops).flatMap fun i =>
      (List.range (cdiv (kk.e 1) 256)).flatMap fun t =>
        List.replicate (cdiv (q.e 1) 64 * 2 * cdiv (q.e 0) 256 * fmtPieces kk.fmt * fmtPieces q.fmt) none
        ++ (stationaryOps 256 (v.e 0) (q.e 1) (fmtPieces v.fmt) 64 false (outerOf v.ext loops i)).map fun s =>
          s.map fun x => (t, x.2.1, x.2.2)

/-- The pan operations of a command's words in order: the word, the number of the operation within it, and its set. Those of a
chain's MATMUL members issue member by member (R235 fuses tile by tile; DESIGN CHOICE, log entry 77). -/
def Cx.allOps (c : Cx) (ws : List (List Byte)) : List (List Byte × Nat × Option SetKey) :=
  (ws.filter fun w => (cOp w == 0x00 || cOp w == 0x01) && c.predOk w).flatMap fun w => (c.panOps w).mapIdx fun i o => (w, i, o)

/-- The operations that make one output tile of a MATMUL, and the drain entries of the tile (R96, R99, R100). -/
def Cx.tileOps (c : Cx) (w : List Byte) : Nat × Nat :=
  let a := c.tref (at2 w 8)
  let b := c.tref (at2 w 10)
  if mMode w = 1 then (fmtPieces b.fmt * cdiv (b.e 1) 128, min 32 (a.e 1) * min 256 (b.e 0))
  else if mMode w = 0 then (fmtPieces b.fmt * cdiv (b.e 0) 256, min 64 (a.e 1) * min 128 (b.e 1))
  else (fmtPieces b.fmt * cdiv (b.e 0) 256 * fmtPieces a.fmt, min 64 (a.e 1) * min 128 (b.e 1))

/-- Drain entries that a MATMUL's tile in progress holds after a number of operations, and those that its next operation needs
beyond them (R100 condition 3): an output-stationary tile needs its entries only for its last operation. -/
def Cx.drainOf (c : Cx) (w : List Byte) (ops : Nat) : Nat × Nat :=
  let (n, e) := c.tileOps w
  let i := ops % max 1 n
  if mMode w = 2 then (0, if i + 1 = n then e else 0) else if i = 0 then (0, e) else (e, 0)

/-- The handle and K dimension of the stationary operand of a matrix command. -/
def stationaryOf (w : List Byte) : Nat × Nat := if cOp w = 0x00 then (at2 w 10, 0) else (at2 w 12, 1)

/-- The positions in a tensor of a tile's elements, K fastest (R102). -/
def tilePos (ext : List Nat) (kdim kt nt : Nat) : List Nat :=
  let (k, n) := tileDims kdim ext
  let nts := cdiv n 128
  let outer := nt / nts
  let nt := nt % nts
  (List.range (min 128 (n - 128 * nt))).flatMap fun j => tab (min 256 (k - 256 * kt)) fun i =>
    let x := 256 * kt + i
    let y := 128 * nt + j
    flatIdx ext (if kdim = 0 then [x, y] else [y, x]) + k * n * outer

/-- The integers that a set's codes stand for; a row of the tile takes the codebook in force for it. -/
def WSet.ints (s : WSet) : List Int :=
  s.codes.mapIdx fun i c => regInt s.fmt s.tag.piece c (s.books.getD (if s.group = 0 then 0 else i % max 1 s.rows / s.group) [])

/-- A piece of a prepared weight with what the loaded sets of that piece hold in place of its own (R273): the pan multiplies by
its registers. -/
def PanT.overlay (t : PanT) (kdim piece : Nat) (sets : List WSet) : PanT :=
  (sets.filter fun s => s.tag.piece == piece).foldl (fun t s =>
    let ps := tilePos t.ext kdim s.tag.kt s.tag.nt
    let put := fun {α : Type} (l : List α) (v : List α) => (ps.zip v).foldl (fun l (e : Nat × α) => l.set e.1 e.2) l
    { t with q := put t.q s.ints, be := put t.be s.exps, part := put t.part s.part, nonfinite := t.nonfinite || s.nonfinite }) t

/-- The bytes of a set (R74, R101, R102): codes, exponents and codebooks of its tile of a weight tensor; nt is the N-tile in the
tensor given, sq its square blocks. -/
def setOf (tag : WTag) (nt : Nat) (t : Tens) (kdim : Nat) (sq : Bool) : WSet :=
  let p := prepW t kdim sq
  let pj := p.piece tag.piece
  let ps := tilePos t.ext kdim tag.kt nt
  let grouped := t.group != 0 && t.gdim == kdim
  let first := if grouped then 256 * tag.kt / t.group else 0
  { tag, fmt := t.fmt, rows := min 256 ((tileDims kdim t.ext).1 - 256 * tag.kt), group := if grouped then t.group else 0
    codes := ps.map fun i => regCode t.fmt tag.piece (t.codes.getD i 0) (p.q.getD i 0)
    exps := ps.map fun i => pj.be.getD i 0, part := ps.map fun i => pj.part.getD i false
    books := ((t.books.drop first).take (if grouped then max 1 (cdiv 256 t.group) else 1)).map Book.entries, nonfinite := p.nonfinite }

/-- The sets that a command loaded for a weight operand at an iteration, with their N-tiles counted within it. -/
def Cx.setsAt (c : Cx) (h ncols outer : Nat) : List WSet :=
  let nts := cdiv ncols 128
  c.wsets.filterMap fun s =>
    if s.tag.desc == h && s.tag.nt / max 1 nts == outer then some { s with tag := { s.tag with nt := s.tag.nt % max 1 nts } } else none

/-- The outlier list's valid entries, or none where it breaks R162. -/
def validList (k : Nat) (l : List Int) : Option (List Nat) :=
  let v := l.takeWhile fun x => x != -1
  if (l.drop v.length).all (· == -1) && v.all (fun x => decide (0 ≤ x) && decide (x < k))
      && (v.zip (v.drop 1)).all (fun p => decide (p.1 < p.2)) then some (v.map Int.toNat)
  else none

/-- Element values of a prepared or plain weight for the side path (R164). -/
def sideWeight (t : Tens) (p : PanT) (kdim k n : Nat) : Dy :=
  let idx := if kdim = 0 then [k, n] else [n, k]
  let pos := flatIdx t.ext idx
  if t.fmt = fE5M2 then (p.q.getD pos 0, p.be.getD pos 0)
  else match (t.exact true idx pos).1 with
    | .fin m e => (m, e)
    | _ => (0, 0)

/-- MATMUL (R211, R212). R93 converts the accumulator's value itself: that the destination's own tensor or block scales do not
divide it first is the model's choice (DESIGN CHOICE, log entry 77). -/
def bodyMatmul : Body := fun c w acc => do
  let d := c.tref (at2 w 12)
  let aT := c.tref (at2 w 8)
  let wT := c.tref (at2 w 10)
  let loops := c.loops w
  let tr := mMode w == 1
  let a ← c.load acc.prod.chain (at2 w 8)
  let b ← c.load acc.prod.chain (at2 w 10)
  let [ol, li, os] ← c.loadAll acc [at2 w 14, at2 w 16, at2 w 18] | throw 0x0102
  let red := if tr then 1 else 0
  let parts ← (iterations loops).mapM fun i => do
    let ai := a.iter loops i
    let bi := b.iter loops i
    let sets := if mMode w = 2 then [] else c.setsAt (at2 w 10) (bi.ext.getD 1 1) (outerOf b.ext loops i)
    let pa := prepA ai 0 aT.d.square
    let w0 := { prepW bi 0 wT.d.square with red }
    let pw := tab (fmtPieces b.fmt) fun j => (w0.piece j).overlay 0 j sets
    let li := li.map fun t => let u := t.iter loops i; u.codes.map (intVal u.fmt)
    let entries ← match li with
      | none => pure []
      | some l => match validList (ai.e 0) l with
        | some v => pure v
        | none => throw 0x0103
    let outl := fun (m n : Nat) => ol.map fun t =>
      let u := t.iter loops i
      entries.mapIdx fun j ch =>
        let p := flatIdx u.ext [j, m]
        let x : Dy := match (u.exact true [j, m] p).1 with | .fin a e => (a, e) | _ => (0, 0)
        let y := sideWeight bi w0 0 ch n
        ((x.1 * y.1, x.2 + y.2) : Dy)
    let r := matProduct pa (fun j => pw.getD j pa) b.fmt (if tr then 4 else 8) outl
    let cols := bi.ext.getD (1 - red) 1
    let sc := os.map fun t => (t.iter loops i).oscales
    let vals := r.accs.mapIdx fun p v => match sc with
      | none => v
      | some l => let s := (l.getD (p % cols) ((0, 0), false)).1; (v.1 * s.1, v.2 + s.2)
    let onf := (ol.map fun t => ((t.iter loops i).codes.any fun x => (readVal true t.fmt x).2)).getD false
    pure (vals, r.clamps, r.nonfinite || onf || (sc.map fun l => l.any fun e => e.2).getD false)
  let books ← c.books d
  let cs := ((indices d.ext).zip (parts.flatMap fun p => p.1)).map fun (i, v) => drainConv d.fmt (bookAt d books i) v
  let p ← c.store acc.prod d (cs.map Conv.code) [] false
  let acc := ({ acc with prod := p } : Acc).count (cs.filter Conv.sat).length (parts.any fun p => p.2.2)
  pure { acc with info := { acc.info with accSat := satadd 32 acc.info.accSat (parts.map fun p => p.2.1).sum } }

/-! ### ATTEND (R213 to R215) -/

/-- A part of a line along the reduction. -/
def PanL.slice (l : PanL) (t n : Nat) : PanL :=
  { l with q := (l.q.drop t).take n, be := (l.be.drop t).take n, part := (l.part.drop t).take n }

/-- The FP32 value of a dot product of two lines, with its clamps and whether it saturated (R91, R93); ws gives the weight's
pieces. -/
def dotF32 (a : PanL) (ws : Nat → PanL) (wfmt g k : Nat) : Conv × Nat :=
  let eref := a.top + (ws (fmtPieces wfmt - 1)).top - jOf wfmt a.pieces
  let r := outputElement a ws (fmtPieces wfmt) (cdiv k 32) g eref (0, 0)
  (convert fFP32 (.fin r.1 eref), r.2)

/-- The state of one query row: maximum, sum, outputs, and what the conversions count. -/
structure AttRow where
  mx : Nat := fInfOf true
  l : Nat := 0
  o : List Nat := []
  sats : Nat := 0
  clamps : Nat := 0
  nonfinite : Bool := false

/-- One tile of 256 keys for one query row (R214); kl and vl give the lines of K and V by piece. -/
def attTile (q : PanL) (kl vl : List (List PanL)) (kfmt vfmt dh len t scale pieces : Nat) (masked : Nat → Bool) (r : AttRow) : AttRow :=
  let dots := tab 256 fun j => if len ≤ t + j ∨ masked (t + j) then none
    else some (dotF32 q (fun p => (kl.getD p []).getD (t + j) q) kfmt 8 dh)
  let cs := dots.filterMap id
  let r := { r with sats := r.sats + (cs.filter fun x => x.1.sat).length, clamps := r.clamps + (cs.map fun x => x.2).sum }
  let s := dots.map fun x => x.elim (fInfOf true) fun y => fMul y.1.code scale
  let mn := fMax r.mx (fMaxOf s)
  if mn = fInfOf true then r
  else
    let c := if r.mx = fInfOf true then 0 else fExp2 (fSub r.mx mn)
    let p := s.map fun x => fExp2 (fSub x mn)
    let n := min 256 (len - t)
    let pt := blockInts { fmt := fFP32, ext := [n], codes := p.take n, scs := List.replicate n 0 } 0 false pieces
    let pl := pt.line 0
    let pv := tab r.o.length fun d => dotF32 pl (fun j => ((vl.getD j []).getD d pl).slice t n) vfmt 8 n
    { mx := mn, l := fFma r.l c (fSum p), o := (r.o.zip pv).map fun (o, x) => fFma o c x.1.code
      sats := r.sats + (pv.filter fun x => x.1.sat).length, clamps := r.clamps + (pv.map fun x => x.2).sum
      nonfinite := r.nonfinite || pt.nonfinite }

/-- A paged tensor of one iteration: key i is row i mod P of page ⌊i ÷ P⌋ (R215). -/
def Cx.loadPaged (c : Cx) (t : TRef) (loops i : List Nat) (pages : List Nat) (perPage : Nat) : Cm Tens := do
  let outer := (t.ext.drop (t.ext.length - loops.length)).zip i |>.map fun (e, j) => if e = 1 then 0 else j
  let inner := innerExt t.ext loops
  let rows ← (List.range (t.e 1)).mapM fun k => do
    need (decide (k / perPage < pages.length)) 0x0103
    let a := pages.getD (k / perPage) 0
    need (a % 16 == 0) 0x0104
    c.read 0 (a + t.d.rowOff ((k % perPage) :: (List.replicate (inner.length - 2) 0 ++ outer))) t.rowBytes
  let sb ← if t.d.scaled then c.read t.d.space t.sbase t.nBlocks else pure []
  let books ← c.booksAt t 0 (pages.headD 0)
  let (scs, nf) := t.scales sb
  let whole : Tens := { fmt := t.fmt, ext := t.ext, codes := [], scs }
  pure { fmt := t.fmt, ext := inner, codes := rows.flatMap (unpackRow t.fmt (t.e 0)), scs := (whole.iter loops i).scs, books
         group := if t.d.cbGrouped then 2 ^ (t.d.cbGroup + 5) else 0, gdim := t.d.blocked, nonfinite := nf }

/-- ATTEND (R213 to R215). -/
def bodyAttend : Body := fun c w acc => do
  let qT := c.tref (at2 w 8)
  let kT := c.tref (at2 w 10)
  let vT := c.tref (at2 w 12)
  let d := c.tref (at2 w 14)
  let loops := c.loops w
  let final := bit (at1 w 24) 7
  let causal := bit (at1 w 24) 6
  let qpos := fld (c.reg (fld (at1 w 24) 0 6)) 0 32
  let kpos := fld (c.reg (fld (at1 w 25) 0 6)) 0 32
  let pieces := fld (at1 w 25) 6 2 + 1
  let perPage := 2 ^ (fld (at1 w 26) 0 4 + 4)
  let len := kT.e 1
  let mrows := qT.e 1
  let dv := vT.e 0
  need (decide (mrows = 0 ∨ qpos + mrows ≤ 2 ^ 22) && decide (len = 0 ∨ kpos + len ≤ 2 ^ 22)) 0x0103
  let q ← c.load acc.prod.chain (at2 w 8)
  let paged := at2 w 18 != 0
  let k0 ← if paged then pure none else do
    let x ← c.load acc.prod.chain (at2 w 10)
    pure (some x)
  let v0 ← if paged then pure none else do
    let x ← c.load acc.prod.chain (at2 w 12)
    pure (some x)
  let [st, pg] ← c.loadAll acc [at2 w 16, at2 w 18] | throw 0x0102
  let parts ← (iterations loops).mapM fun i => do
    let list := pg.elim [] fun t => (t.iter loops i).codes.map fun x => BitVec.ofNat 8 x
    let ki ← match k0 with
      | some t => pure (t.iter loops i)
      | none => c.loadPaged kT loops i (tab (list.length / 16) fun e => at8 list (16 * e)) perPage
    let vi ← match v0 with
      | some t => pure (t.iter loops i)
      | none => c.loadPaged vT loops i (tab (list.length / 16) fun e => at8 list (16 * e + 8)) perPage
    let sets := c.setsAt (at2 w 12) dv (outerOf vT.ext loops i)
    let pq := prepA (q.iter loops i) 0 qT.d.square
    let pk := prepW ki 0 kT.d.square
    let pv := prepW vi 1 vT.d.square
    let kl := tab (fmtPieces ki.fmt) fun j => tab len (pk.piece j).line
    let vl := tab (fmtPieces vi.fmt) fun j => tab dv ((pv.piece j).overlay 1 j sets).line
    let st := st.map fun t => (t.iter loops i)
    let rows := tab mrows fun m =>
      let r0 : AttRow := match st with
        | none => { o := List.replicate dv 0 }
        | some t =>
          let at_ := fun j => (toF32 t.fmt (t.codes.getD (m * (dv + 2) + j) 0) (t.scs.getD (m * (dv + 2) + j) 0)).code
          { mx := at_ 0, l := at_ 1, o := tab dv fun j => at_ (j + 2) }
      let lq := pq.line m
      (List.range (cdiv len 256)).foldl (fun r t =>
        attTile lq kl vl ki.fmt vi.fmt (qT.e 0) len (256 * t) (at4 w 20) pieces
          (fun j => causal && decide (qpos + m < kpos + j)) r) r0
    pure (rows, pq.nonfinite || pk.nonfinite || pv.nonfinite || rows.any AttRow.nonfinite)
  let rows := parts.flatMap fun p => p.1
  let books ← c.books d
  let vals := rows.flatMap fun r =>
    if final then
      let inv := fRcp r.l
      r.o.map fun x => if fIsZero r.l then 0 else fMul x inv
    else [r.mx, r.l] ++ r.o
  let cs := ((indices d.ext).zip vals).map fun (i, x) => drainF32 d.fmt (bookAt d books i) x
  let p ← c.store acc.prod d (cs.map Conv.code) [] false
  let sats := (cs.filter Conv.sat).length + (rows.map AttRow.sats).sum
  let acc := ({ acc with prod := p } : Acc).count sats ((parts.any fun p => p.2) || cs.any Conv.nonfinite)
  pure { acc with info := { acc.info with accSat := satadd 32 acc.info.accSat (rows.map AttRow.clamps).sum } }

end Sys2Proof.Machine
end

