-- ==== Sys2Proof/Machine/Checks.lean ====
section
/-! DEFINITION. The checks of descriptors and commands, at launch with registers at their declared worst case and at
issue with resolved values (R57, R184 to R238). -/

namespace Sys2Proof.Machine

/-- A check: its status when it does not hold. -/
abbrev Chk := Except Nat Unit
/-- A condition with the status of its failure. -/
def chk (ok : Bool) (status : Nat) : Chk := if ok then .ok () else .error status
/-- Every check of a list in turn. -/
def chkAll {α : Type} (l : List α) (f : α → Chk) : Chk := l.forM f

/-- Statuses of R11 used here. -/
def stBad : Nat := 0x0102
def stBounds : Nat := 0x0103
def stAlign : Nat := 0x0104
def stOverlap : Nat := 0x0105
def stCapacity : Nat := 0x0106
def stAbsent : Nat := 0x0101

/-! ### Footprints (R191, R203) -/

/-- A footprint: a space key, the register it is relative to, its first byte and its length. -/
structure Foot where
  space : Nat
  reg : Option Nat
  lo : Int
  n : Nat

/-- Two footprints meet; footprints on different references are compared only when both are resolved. -/
def Foot.meets (a b : Foot) : Bool :=
  a.space == b.space && a.reg == b.reg && a.n != 0 && b.n != 0 && decide (a.lo < b.lo + b.n) && decide (b.lo < a.lo + a.n)

/-- The place of an address field: under worst case a register-relative one stays relative (R199). -/
def Cx.place (c : Cx) (v : Nat) : Option Nat × Int :=
  if c.worst && fld v 62 2 == 1 then (some (fld v 0 6), sext 32 (fld v 16 32)) else (none, c.addr v)

/-- The key of a space: core memory is the station's own. -/
def Cx.spaceKey (c : Cx) (space : Nat) : Nat := if space = 2 then 16 + c.st else space

/-- The footprints of an operand in memory: its data, its codebooks, and its scale tensor. -/
def Cx.dataFeet (c : Cx) (t : TRef) : List Foot :=
  if t.d.space = 3 then []
  else
    let (r, b) := c.place t.d.base
    [{ space := c.spaceKey t.d.space, reg := r, lo := b, n := if t.ext.any (· == 0) then 0 else t.d.span t.fmt t.ext }]
/-- Bytes of a tensor's codebooks (R192). -/
def TRef.bookBytes (t : TRef) : Nat := 32 * (if t.d.cbGrouped then cdiv (t.e t.d.blocked) (2 ^ (t.d.cbGroup + 5)) else 1)
def Cx.bookFeet (c : Cx) (t : TRef) : List Foot :=
  if t.d.space = 3 ∨ t.fmt ≠ fCB4 then []
  else
    let (r, b) := c.place t.d.base
    [{ space := c.spaceKey t.d.space, reg := r, lo := b + t.d.cbOff, n := t.bookBytes }]
def Cx.scaleFeet (c : Cx) (t : TRef) : List Foot :=
  if t.d.space = 3 ∨ !t.d.scaled then []
  else
    let (r, b) := c.place t.d.sbase
    [{ space := c.spaceKey t.d.space, reg := r, lo := b, n := t.nBlocks }]
/-- Data and codebooks, and the scale tensor. -/
def Cx.feet (c : Cx) (t : TRef) : List Foot × List Foot := (c.dataFeet t ++ c.bookFeet t, c.scaleFeet t)

/-- The memory words of a descriptor's memory-kind bounds (R193, R203). -/
def Cx.boundFeet (c : Cx) (h : Nat) : List Foot :=
  let d := c.x.desc h
  (List.range d.rank).filterMap fun i =>
    let v := d.ext i
    let o := 4 * fld v 6 12
    if fld v 30 2 ≠ 2 then none
    else some (if c.worst then { space := 0, reg := some (fld v 0 6), lo := o, n := 4 }
      else { space := 0, reg := none, lo := (c.reg (fld v 0 6) + o : Nat), n := 4 })

/-- The operands of a command whose BASE is not used: K and V of an ATTEND with PAGES (R215). -/
def paged (w : List Byte) (h : Nat) : Bool := cOp w == 0x01 && at2 w 18 != 0 && (h == at2 w 10 || h == at2 w 12)

/-- Whether a command writes the scale tensor of its destination: a QUANT that measures block scales (R154), a
command that moves a tensor as it is (R224, R228, R412), and a call that brings one (R236, R428). -/
def writesScales (w : List Byte) : Bool :=
  (cOp w == 0x41 && fld (at1 w 20) 0 2 == 1) || [0x80, 0x83, 0x84, 0xC1, 0xC3, 0xC5, 0xE3, 0xE4].contains (cOp w)
/-- Whether a command writes its destination's codebooks too: a call, whose output window holds them (R428). -/
def writesBooks (w : List Byte) : Bool := cOp w == 0xE3 || cOp w == 0xE4

/-- Footprints that a command reads and that it writes (R203): its operands with their scale tensors and codebooks, the pages of a
paged ATTEND, the member list of a collective, and the memory words of its bounds. -/
def Cx.cmdFeet (c : Cx) (w : List Byte) : List Foot × List Foot :=
  let pages : List Foot := if cOp w = 0x01 then c.pages.map fun e => { space := 0, reg := none, lo := (e.1 : Int), n := e.2 } else []
  let list := if isColl w && gDesc w != 0 then c.dataFeet (c.tref (gDesc w)) else []
  (cHandles w).foldl (fun acc (h, dst) =>
    let t := c.tref h
    let (d, b, s) := (c.dataFeet t, c.bookFeet t, c.scaleFeet t)
    if paged w h then (acc.1 ++ s, acc.2)
    else if dst then
      (acc.1 ++ (if writesBooks w then [] else b) ++ (if writesScales w then [] else s),
        acc.2 ++ d ++ (if writesBooks w then b else []) ++ if writesScales w then s else [])
    else (acc.1 ++ d ++ b ++ s, acc.2)) (pages ++ list ++ (cNamed w).dedup.flatMap c.boundFeet, [])

/-! ### Registers that fields name (R193 to R199) -/

/-- Registers that a bound field names with the kind each needs. -/
def boundRegs (v : Nat) : List (Nat × Nat) :=
  if fld v 30 2 = 1 then [(fld v 0 6, 1)] else if fld v 30 2 = 2 then [(fld v 0 6, 2), (fld v 18 6, 1)] else []
/-- Registers that an address field names. -/
def addrRegs (v : Nat) : List (Nat × Nat) := if fld v 62 2 = 1 then [(fld v 0 6, 2)] else []

/-- Registers of a descriptor. -/
def Desc.regs (d : Desc) : List (Nat × Nat) :=
  (List.range d.rank).flatMap (fun i => boundRegs (d.ext i)) ++ addrRegs d.base ++ addrRegs d.sbase
    ++ (if bit d.tscale 15 then [(fld d.tscale 0 6, 1)] else [])

/-- Registers that the word of a command names, apart from its descriptors. -/
def wordRegs (w : List Byte) : List (Nat × Nat) :=
  let op := cOp w
  (if cPredEn w then [(cPredReg w, 1)] else [])
    ++ (if bit (cLoop0 w) 15 then [(fld (cLoop0 w) 0 6, 1)] else []) ++ (if bit (cLoop1 w) 15 then [(fld (cLoop1 w) 0 6, 1)] else [])
    ++ (if op = 0x01 then [(fld (at1 w 24) 0 6, 1), (fld (at1 w 25) 0 6, 1)] else [])
    ++ (if op = 0x25 then [(fld (at4 w 28) 0 6, 1)] else [])
    ++ (if op = 0x27 ∨ op = 0x60 ∨ op = 0x61 ∨ (cSr w ∧ (op = 0x41 ∨ op = 0x42)) then [(fld (at1 w 28) 0 6, 1)] else [])
    ++ (if cStreamReg w then [(fld (at4 w 24) 0 6, 1)] else [])
    ++ (if op = 0x42 then (if bit (at1 w 20) 6 then [(fld (at1 w 20) 0 6, 1)] else []) ++ (if bit (at1 w 21) 6 then [(fld (at1 w 21) 0 6, 1)] else []) else [])
    ++ (if (op = 0xA0 ∨ op = 0xA1) ∧ bit (at1 w 14) 1 then [(fld (at1 w 15) 0 6, 1)] else [])
    ++ (if op = 0x85 ∨ op = 0x86 then addrRegs (at8 w 24) else [])

/-- The register whose old value a PATCH ADD adds to (R231). -/
def addReg (w : List Byte) : List Nat := if cOp w = 0xE0 ∧ fld (at1 w 8) 0 2 = 1 then [fld (at1 w 9) 0 6] else []

/-- Registers that a command reads. -/
def Cx.readsRegs (c : Cx) (w : List Byte) : List Nat :=
  addReg w ++ ((wordRegs w) ++ (cNamed w).flatMap fun h => (c.x.desc h).regs).map fun e => e.1

/-- Registers that a command writes: those of a PATCH, and a measured tensor scale's (R154, R231). -/
def writesRegs (x : Section) (w : List Byte) : List Nat :=
  if cOp w = 0xE0 then tab (if fld (at1 w 8) 0 2 = 2 then fld (at1 w 10) 0 7 else 1) fun i => fld (at1 w 9) 0 6 + i
  else if cOp w = 0x41 then
    let f := fun h => if h != 0 && bit (x.desc h).tscale 15 then [fld (x.desc h).tscale 0 6] else []
    (if fld (at1 w 20) 0 2 = 2 then f (at2 w 10) else []) ++ f (at2 w 12)
  else []

/-! ### Command words (R183, R184, R211 to R230, R538) -/

/-- Payload bits that are not reserved, as byte offset, bytes and mask. -/
def payload (op : Nat) : List (Nat × Nat × Nat) :=
  let h := fun (o : Nat) => (o, 2, 0xFFFF)
  if op = 0x00 then [h 8, h 10, h 12, h 14, h 16, h 18, (20, 1, 3)]
  else if op = 0x01 then [h 8, h 10, h 12, h 14, h 16, h 18, (20, 4, 2 ^ 32 - 1), (24, 1, 0xFF), (25, 1, 0xFF), (26, 1, 0x0F)]
  else if op = 0x27 then [h 8, h 10, h 12, (16, 4, 2 ^ 32 - 1), (20, 4, 2 ^ 32 - 1), (24, 4, 2 ^ 32 - 1), (28, 1, 0x3F)]
  else if op / 32 = 1 then [h 8, h 10, h 12, h 14, h 16, (18, 1, 0xFF), (19, 1, 7), (20, 4, 2 ^ 32 - 1), (24, 4, 2 ^ 32 - 1), (28, 4, 2 ^ 32 - 1)]
  else if op = 0x40 then [h 8, h 10, h 12, h 14, h 16, h 18, (20, 1, 7), (21, 1, 0xFF), (24, 4, 2 ^ 32 - 1), h 28]
  else if op = 0x41 then [h 8, h 10, h 12, h 14, (16, 4, 2 ^ 32 - 1), (20, 1, 3), (24, 4, 2 ^ 32 - 1), (28, 1, 0x3F)]
  else if op = 0x42 then [h 8, h 10, h 12, h 14, h 16, (18, 1, 0xFF), (20, 1, 0x7F), (21, 1, 0x7F), (22, 1, 7), (24, 4, 2 ^ 32 - 1), (28, 1, 0x3F)]
  else if op = 0x43 then [h 8, h 10]
  else if op = 0x60 then [h 8, h 10, (12, 2, 0x1FF), (16, 4, 2 ^ 32 - 1), (24, 4, 2 ^ 32 - 1), (28, 1, 0x3F)]
  else if op = 0x61 then [h 10, (24, 4, 2 ^ 32 - 1), (28, 1, 0x3F)]
  else if op = 0x80 then [h 8, h 10]
  else if op = 0x81 ∨ op = 0x82 then [h 8, h 10, h 12]
  else if op = 0x83 then [h 8, h 10, h 12, (16, 4, 2 ^ 32 - 1)]
  else if op = 0x84 then [h 8, h 10, (12, 1, 3), (16, 4, 2 ^ 32 - 1), (20, 1, 3)]
  else if op = 0x85 ∨ op = 0x86 then [(12, 4, 2 ^ 32 - 1), (24, 8, 2 ^ 64 - 1)]
  else if op = 0xA0 then [(8, 4, 2 ^ 32 - 1), h 12, (14, 1, 3), (15, 1, 0x3F), (16, 8, 2 ^ 64 - 1)]
  else if op = 0xA1 then [(8, 4, 2 ^ 32 - 1), (14, 1, 3), (15, 1, 0x3F), (16, 8, 2 ^ 64 - 1), (24, 3, 2 ^ 18 - 1)]
  else if op = 0xA2 then [(8, 8, 2 ^ 64 - 1)]
  else if op = 0xA3 then [(8, 1, 0x0F), h 12]
  else if op / 32 = 6 then [h 8, h 10, (12, 4, 2 ^ 32 - 1), (16, 3, 2 ^ 18 - 1), (20, 4, 2 ^ 32 - 1), (24, 1, 7)]
  else if op = 0xE0 then [(8, 1, 3), (9, 1, 0x3F), (10, 1, 0x7F), (12, 4, 2 ^ 32 - 1), (16, 8, 2 ^ 64 - 1)]
  else if op = 0xE1 then [(12, 4, 2 ^ 32 - 1), (16, 4, 2 ^ 32 - 1), (20, 1, 0x7F), (21, 1, 0x7F), (24, 8, 2 ^ 64 - 1)]
  else if op = 0xE2 then [(8, 1, 0x0F)]
  else [h 8, h 10, (12, 4, 2 ^ 32 - 1), (16, 8, 2 ^ 64 - 1), h 24]

/-- No reserved header or payload bit is 1 (R184). -/
def bitsOk (w : List Byte) : Bool :=
  let used := [(0, 1, 0xFF), (1, 1, 0x3F), (2, 1, 0x3F), (3, 1, 0x7F), (4, 2, 0xFFFF), (6, 2, 0xFFFF)] ++ payload (cOp w)
  let mask := (used.map fun f => f.2.2 * 2 ^ (8 * f.1)).foldl (· ||| ·) 0
  leNat (w.take 32) &&& mask == leNat (w.take 32)

/-- The SUBOPs of R218. -/
def vopArity (sub : Nat) : Option Nat :=
  if [0x00, 0x01, 0x02, 0x04, 0x05, 0x07, 0x08, 0x16, 0x17, 0x18, 0x19, 0x1A].contains sub then some 2
  else if sub = 0x03 ∨ sub = 0x06 then some 3
  else if 0x09 ≤ sub ∧ sub ≤ 0x15 then some 1 else none

/-- The handle places of a command that must be named (1), may be named (0) or must be 0 (2), by byte offset. -/
def handleRules (w : List Byte) : List (Nat × Nat) :=
  let op := cOp w
  let sub := vSub w
  let src := fun (n opt : Nat) => [(8, 1), (10, if 2 ≤ n then 1 else if 2 ≤ opt then 0 else 2), (12, if 3 ≤ n then 1 else if 3 ≤ opt then 0 else 2), (14, 1), (16, 2)]
  if op = 0x00 then [(8, 1), (10, 1), (12, 1), (14, 0), (16, if at2 w 14 = 0 then 2 else 1), (18, 0)]
  else if op = 0x01 then [(8, 1), (10, 1), (12, 1), (14, 1), (16, 0), (18, 0)]
  else if op = 0x20 then src ((vopArity sub).getD 0) 0
  else if op = 0x21 then src 1 0
  else if op = 0x22 then src 1 2
  else if op = 0x23 then src 1 3
  else if op = 0x24 then src (if 4 ≤ sub then 2 else 1) 0
  else if op = 0x25 then src 2 0
  else if op = 0x26 then [(8, 1), (10, 2), (12, 2), (14, 1), (16, 1)]
  else if op = 0x27 then [(8, 1), (10, 1)]
  else if op = 0x40 then [(8, 1), (10, 0), (12, 0), (14, 0), (16, 0), (18, 0), (28, 0)]
  else if op = 0x41 then [(8, 1), (10, 1), (12, 0), (14, if at2 w 12 = 0 then 2 else 1)]
  else if op = 0x42 then [(8, 1), (10, 1), (12, 0), (14, 0)]
  else if op = 0x43 then [(8, 1), (10, 1)]
  else if op = 0x60 then [(8, 0), (10, 1)]
  else if op = 0x61 then [(10, 1)]
  else if op = 0x80 then [(8, 1), (10, 1)]
  else if op = 0x81 ∨ op = 0x82 then [(8, 1), (10, 1), (12, 1)]
  else if op = 0x83 then (if at2 w 8 = 0 then [(10, 1)] else [(8, 1), (10, 2)])
  else if op = 0x84 then [(8, 1), (10, if fld (at1 w 12) 0 2 = 0 then 1 else 2)]
  else if op = 0xC0 then [(8, 1), (10, 2)]
  else if op = 0xC1 then [(8, 2), (10, 1)]
  else if op / 32 = 6 ∨ op = 0xE3 ∨ op = 0xE4 then [(8, 1), (10, 1)]
  else []

/-- Ranges of a command's fields that its class states, apart from handles and formats. -/
def fieldsOk (x : Section) (w : List Byte) : Bool :=
  let op := cOp w
  let sat := op == 0x00 || op == 0x01 || op == 0x41 || op == 0x42
  let rnd := op == 0x41 || op == 0x42
  let regLoop := fun (v : Nat) => !bit v 15 || (fld v 6 9 == 0 && decide (x.regLimit (fld v 0 6) ≤ 32767))
  (sat || (cSatT w == 0 && cSatPol w == 0)) && cSatPol w != 3 && (rnd || !cSr w)
    && (!cStreamReg w || ((rnd || op == 0x60 || op == 0x61 || op == 0x27) && at4 w 24 < 64))
    && regLoop (cLoop0 w) && regLoop (cLoop1 w)
    && (if op = 0x00 then mMode w != 3
        else if op = 0x01 then fld (at1 w 25) 6 2 < 2 && fld (at1 w 26) 0 4 ≤ 8
        else if op = 0x20 then (vopArity (vSub w)).isSome
        else if op = 0x21 then vSub w < 4
        else if op = 0x22 then vSub w == 0
        else if op = 0x23 then vSub w < 2
        else if op = 0x24 then vSub w < 6
        else if op = 0x25 then vSub w < 2
        else if op = 0x26 then vSub w == 0 && 1 ≤ at4 w 28 && at4 w 28 ≤ 1024
        else if op = 0x27 then at2 w 12 ≤ 1024
        else if op = 0x41 then fld (at1 w 20) 0 2 != 3 && (at2 w 12 == 0 || fld (at1 w 20) 0 2 != 0)
        else if op = 0x42 then at1 w 18 ≤ 62
        else if op = 0x60 then fld (at2 w 12) 0 9 ≤ 256
        else if op = 0x84 then fld (at1 w 12) 0 2 < 2
        else if op = 0xA0 ∨ op = 0xA3 then at2 w 12 ≤ 60000
        else if op = 0xE3 ∨ op = 0xE4 then at2 w 24 ≤ 60000
        else if op / 32 = 6 then fld (at1 w 24) 0 2 != 3
        else if op = 0xE0 then fld (at1 w 8) 0 2 != 3 && (if fld (at1 w 8) 0 2 = 2 then 1 ≤ at1 w 10 && at1 w 10 ≤ 64 && fld (at1 w 9) 0 6 + at1 w 10 ≤ 64 else at1 w 10 == 0)
        else if op = 0xE2 then 2 ≤ at1 w 8 && at1 w 8 ≤ 8
        else true)

/-! ### Formats (R57, R153, R155, R159, R161, R211 to R224) -/

/-- A max-abs destination (R153). -/
def maxAbsFmt (d : Desc) : Bool := roleOk d.fmt .output && d.fmt != fCB4 && d.fmt != fPAIR && !d.scaled
/-- The targets of QUANT (R155). -/
def quantFmt (f : Nat) : Bool := roleOk f .output && f != fI32 && f != fPAIR
/-- The targets of REQUANT (R159). -/
def requantFmt (f : Nat) : Bool := [fI4, fU4, fI8, fU8, fI16].contains f

/-- The formats of a command's operands suit their roles, with the format of each handle given. R57 gives CB4, E8M0 and FP32PAIR no
role in a reduction across engines: that such a collective is accepted is the model's choice (DESIGN CHOICE, log entry 77), as is that
an ATTEND's final result may be an FP32PAIR. -/
def formatsOk (x : Section) (fmt : Nat → Nat) (w : List Byte) : Bool :=
  let op := cOp w
  let f := fun (o : Nat) => fmt (at2 w o)
  let none_ := fun (o : Nat) => at2 w o == 0
  let is := fun (o k : Nat) => none_ o || f o == k
  let d := fun (o : Nat) => x.desc (at2 w o)
  if op = 0x00 then roleOk (f 8) .activation && roleOk (f 10) .weight && roleOk (f 12) .output && (none_ 14 || (f 14 == fI16 && !(d 14).scaled) || f 14 == fBF16) && is 16 fI32 && is 18 fFP32
  else if op = 0x01 then
    roleOk (f 8) .activation && roleOk (f 10) .weight && roleOk (f 12) .weight && is 16 fFP32 && is 18 fU8
      && (if bit (at1 w 24) 7 then roleOk (f 14) .output else f 14 == fFP32)
  else if op = 0x27 then (f 8 == fFP32 || f 8 == fBF16) && is 10 fI32
  else if op = 0x26 then roleOk (f 8) .vector && roleOk (f 14) .vector && is 16 fI32
  else if op = 0x25 then roleOk (f 8) .vector && is 10 fI32 && roleOk (f 14) .vector
  else if op = 0x22 then roleOk (f 8) .vector && is 10 fU8 && roleOk (f 14) .vector
  else if op = 0x21 then roleOk (f 8) .vector && (if vSub w = 3 then f 14 == fI32 else roleOk (f 14) .vector)
  else if op / 32 = 1 then [8, 10, 12, 14].all fun o => none_ o || roleOk (f o) .vector
  else if op = 0x40 then
    (roleOk (f 8) .vector || f 8 == fCB4) && [10, 12, 14].all (fun o => none_ o || maxAbsFmt { d o with }) && is 16 fI32 && is 18 fE8M0 && is 28 fE8M0
      && ((none_ 18 && none_ 28) || (quantFmt (at1 w 21) && at1 w 21 != fCB4))
  else if op = 0x41 then
    roleOk (f 8) .vector && quantFmt (f 10) && (none_ 12 || (f 12 == fI16 && !(d 12).scaled) || f 12 == fBF16) && is 14 fI32
      && (fld (at1 w 20) 0 2 != 1 || (d 10).scaled) && (fld (at1 w 20) 0 2 != 2 || !(d 10).scaled)
  else if op = 0x42 then f 8 == fI32 && requantFmt (f 10) && is 12 fI16 && is 14 fU8
  else if op = 0x43 then (roleOk (f 8) .vector || f 8 == fCB4) && (f 10 == fFP32 || f 10 == fBF16 || f 10 == fFP16)
  else if op = 0x60 then (if none_ 8 then f 10 == fU8 else roleOk (f 8) .vector && roleOk (f 10) .vector)
  else if op = 0x61 then f 10 == fU8
  else if op = 0x80 then f 8 == f 10
  else if op = 0x81 ∨ op = 0x82 then f 8 == f 10 && is 12 fI32
  else if op = 0x84 then
    (d 8).space == 0 && (if fld (at1 w 12) 0 2 = 1 then roleOk (f 8) .weight
      else f 8 == f 10 && ((d 10).space == 1 || (d 10).space == 2))
  else if op / 32 = 6 ∧ op ≥ 0xC2 then f 8 == f 10
  else true

/-- Blocked dimensions of MATMUL and ATTEND operands (R97, R212, R213). -/
def blockedOk (x : Section) (w : List Byte) : Bool :=
  let d := fun (o : Nat) => x.desc (at2 w o)
  let along := fun (t : Desc) (dim : Nat) (conv : Bool) => !(t.scaled || conv) || t.square || t.blocked == dim
  let conv := fun (f : Nat) => isWide f || (isFloat f)
  let wconv := fun (f : Nat) => isWide f || f == fE5M2
  let cb := fun (t : Desc) (dim : Nat) => !t.cbGrouped || t.blocked == dim
  if cOp w = 0x00 then
    let tr := mMode w == 1
    let wt := d 10
    along (d 8) 0 (conv (d 8).fmt) && along wt (if tr then 1 else 0) (wconv wt.fmt)
      && (!tr || ((wt.square || !(wt.scaled || wconv wt.fmt)) && !wt.cbGrouped && at2 w 14 == 0)) && cb wt 0
  else if cOp w = 0x01 then
    along (d 8) 0 (conv (d 8).fmt) && along (d 10) 0 (wconv (d 10).fmt) && along (d 12) 1 (wconv (d 12).fmt)
      && cb (d 10) 0 && cb (d 12) 1
  else true

/-- Integer-only SUBOPs take plain integer operands (R217). -/
def plainOk (c : Cx) (w : List Byte) : Bool :=
  !(cOp w == 0x20 && 0x16 ≤ vSub w && vSub w ≤ 0x1A) || [8, 10, 14].all fun o => (c.tref (at2 w o)).isPlain

/-- The kinds of stations that may issue an opcode (R112, R243). -/
def kindOk (kind sub : Nat) (w : List Byte) : Bool :=
  let op := cOp w
  let sync := (op / 32 == 5) || op == 0xE0
  let call := op == 0xE3 || op == 0xE4
  match kind with
  | 0 => op == 0x00 || op == 0x01 || (op == 0x84 && fld (at1 w 12) 0 2 == 1) || sync || op == 0xE2
  | 1 => (op / 32 == 1) || (op / 32 == 2) || (op / 32 == 3) || sync || op == 0xE2 || call
  | 2 => (op / 32 == 4 && !(op == 0x84 && fld (at1 w 12) 0 2 == 1)) || sync || op == 0xE2 || call
  | 5 => (op / 32 == 6 && (op != 0xC0 || sub == 0) && (op != 0xC1 || sub == 1)) || sync
  | _ => false

/-- Handles of a command exist where they must (R186, R538). -/
def handlesOk (x : Section) (w : List Byte) : Bool :=
  (handleRules w).all fun (o, r) =>
    let h := at2 w o
    (if r = 1 then h != 0 else if r = 2 then h == 0 else true) && decide (h ≤ x.nDesc)

/-- The member list of a collective: an I32 descriptor of rank 1 in HBM (R411). -/
def groupOk (x : Section) (w : List Byte) : Bool :=
  let d := x.desc (gDesc w)
  gDesc w != 0 && decide (gDesc w ≤ x.nDesc) && d.space == 0 && d.fmt == fI32 && d.rank == 1

/-- The registers that a list of fields names are of the kinds they need (R199). -/
def regsOk (x : Section) (l : List (Nat × Nat)) : Bool := l.all fun (r, k) => x.regKind r == k

/-! ### Extents (R201, R211 to R224) -/

/-- Extents as far as they are known: in a launch check a constant alone is, at issue every one (R199, R238). Two agree unless both
are known and differ. -/
def kEq (a b : Option Nat) : Bool := match a, b with
  | some a, some b => a == b
  | _, _ => true
def kLe (a b : Option Nat) : Bool := match a, b with
  | some a, some b => decide (a ≤ b)
  | _, _ => true
/-- A source's extent is the destination's or 1 (R217). -/
def kBcast (a d : Option Nat) : Bool := kEq a (some 1) || kEq a d
def kProd (l : List (Option Nat)) : Option Nat := l.foldl (fun a b => a.bind fun x => b.map (x * ·)) (some 1)
/-- Equal extents, an absent dimension counting as 1. -/
def sameExt (a b : List (Option Nat)) : Bool := (List.range (max a.length b.length)).all fun i => kEq (a.getD i (some 1)) (b.getD i (some 1))
/-- Every extent of a source is the destination's, or is broadcast (R217). -/
def bcastOk (src dst : List (Option Nat)) : Bool := allIdx src fun i e => kBcast e (dst.getD i (some 1))

/-- The extents of a descriptor, and the loop counts of a word, as far as they are known. -/
def Cx.knownExt (c : Cx) (h : Nat) : List (Option Nat) :=
  (c.tref h).ext.mapIdx fun i e => if c.worst && fld ((c.x.desc h).ext i) 30 2 != 0 then none else some e
def Cx.knownLoops (c : Cx) (w : List Byte) : List (Option Nat) :=
  ((c.loops w).zip [cLoop0 w, cLoop1 w]).map fun (n, v) => if c.worst && bit v 15 then none else some n

/-- Loop extents of an operand agree with the counts (R201). -/
def loopsOk (ext loops : List (Option Nat)) (dst : Bool) : Bool :=
  decide (loops.length ≤ ext.length)
    && ((ext.drop (ext.length - loops.length)).zip loops).all fun (e, n) => kEq e n || (!dst && kEq e (some 1))

/-- The extents of a command's operands agree (BOUNDS of R238). -/
def Cx.extentsOk (c : Cx) (w : List Byte) : Bool :=
  let op := cOp w
  let loops := c.knownLoops w
  let e := fun (o : Nat) => let x := c.knownExt (at2 w o); x.take (x.length - loops.length)
  let d := fun (o i : Nat) => (e o).getD i (some 1)
  let one := fun (o : Nat) (from_ : Nat) => ((e o).drop from_).all fun x => kEq x (some 1)
  let named := fun (o : Nat) => at2 w o != 0
  let plus2 := fun (x : Option Nat) => x.map (· + 2)
  (cHandles w).all (fun (h, dst) => loops.isEmpty || loopsOk (c.knownExt h) loops dst)
  && (if op = 0x00 then
        let tr := mMode w == 1
        one 8 2 && one 10 2 && one 12 2 && kEq (d 8 0) (d 10 (if tr then 1 else 0)) && kEq (d 12 0) (d 10 (if tr then 0 else 1))
          && kEq (d 12 1) (d 8 1)
          && (!named 14 || (kEq (d 14 0) (d 16 0) && kEq (d 14 1) (d 8 1) && kLe (d 14 0) ((d 8 0).map (· / 32))
            && kLe (d 16 0) ((d 8 0).map (· / 32))))
          && (!named 18 || kEq (kProd (e 18)) (d 12 0))
      else if op = 0x01 then
        one 8 2 && one 10 2 && one 12 2 && kEq (d 8 0) (d 10 0) && kEq (d 12 1) (d 10 1)
          && kEq (d 14 0) (if bit (at1 w 24) 7 then d 12 0 else plus2 (d 12 0)) && kEq (d 14 1) (d 8 1) && one 14 2
          && (!named 16 || (kEq (d 16 0) (plus2 (d 12 0)) && kEq (d 16 1) (d 8 1)))
      else if op = 0x21 then
        decide (vDim w < (e 8).length) && kEq (d 14 (vDim w)) (some 1) && bcastOk ((e 8).set (vDim w) (some 1)) (e 14)
      else if op = 0x25 then
        bcastOk (e 8) (e 14) && kEq ((d 14 0).map (· % 2)) (some 0) && kEq (kProd (e 10)) ((d 14 0).map (· / 2))
      else if op = 0x26 then
        kLe (some (at4 w 28)) (d 8 0) && kEq (d 14 0) (some (at4 w 28)) && bcastOk ((e 8).set 0 (some 1)) (e 14) && sameExt (e 14) (e 16)
      else if op = 0x27 then kEq (kProd (e 10)) (kProd ((e 8).drop 1))
      else if op / 32 = 1 then [8, 10, 12].all fun o => !named o || bcastOk (e o) (e 14)
      else if op = 0x40 then
        let t := c.tref (at2 w 8)
        let nb := kProd ((e 8).mapIdx fun i x => if (if t.d.square then decide (i < 2) else i == t.d.blocked) then x.map (cdiv · 32) else x)
        let ch := fld (at1 w 20) 0 3
        (!named 10 || kEq (kProd (e 10)) nb) && (!named 18 || kEq (kProd (e 18)) nb)
          && (!named 12 || (decide (ch < (e 8).length) && kEq (kProd (e 12)) (d 8 ch)))
          && (!named 14 || kEq (kProd (e 14)) (some 1)) && (!named 28 || kEq (kProd (e 28)) (some 1))
          && (!named 16 || kEq (kProd (e 16)) (some 1) || kEq (kProd (e 16)) (d 8 ch))
      else if op = 0x41 then
        sameExt (e 8) (e 10)
          && (!named 12 || (kEq (d 12 0) (d 14 0) && sameExt ((e 8).set 0 (d 14 0)) (e 12) && kEq (kProd (e 14)) (d 14 0)))
      else if op = 0x42 then
        let ch := fld (at1 w 22) 0 3
        sameExt (e 8) (e 10) && [12, 14].all fun o => !named o || kEq (kProd (e o)) (some 1) || kEq (kProd (e o)) (d 10 ch)
      else if op = 0x43 ∨ op = 0x80 then sameExt (e 8) (e 10)
      else if op = 0x84 then !named 10 || sameExt (e 8) (e 10)
      else if op = 0x60 then !named 8 || bcastOk (e 8) (e 10)
      else if op = 0x81 then kEq (d 10 0) (d 8 0) && kEq (kProd (e 12)) (kProd ((e 10).drop 1))
      else if op = 0x82 then kEq (d 10 0) (d 8 0) && kEq (kProd (e 12)) (kProd ((e 8).drop 1))
      else true)

/-- A command's destinations are disjoint from its sources and from each other (R203). -/
def Cx.disjointOk (c : Cx) (w : List Byte) : Bool :=
  let (src, dst) := c.cmdFeet w
  dst.all (fun a => src.all fun b => !a.meets b) && allIdx dst fun i a => allIdx dst fun j b => i == j || !a.meets b

/-! ### Descriptors (R189 to R192, R248) -/

/-- A bound field's form (R193, R199). -/
def boundOk (x : Section) (v : Nat) : Bool :=
  let k := fld v 30 2
  k != 3 && (k != 1 || fld v 7 23 == 0) && (k != 2 || fld v 24 6 == 0) && regsOk x (boundRegs v)
/-- The word of a memory-kind bound lies within its register's SPAN (R199, R238). -/
def boundIn (x : Section) (v : Nat) : Bool := fld v 30 2 != 2 || decide (4 * fld v 6 12 + 4 ≤ x.regLimit (fld v 0 6))
/-- An address field's form (R194). -/
def addrOk (x : Section) (hbm : Bool) (v : Nat) : Bool :=
  let k := fld v 62 2
  if k = 0 then fld v 48 14 == 0 else k == 1 && hbm && fld v 48 14 == 0 && fld v 6 10 == 0 && regsOk x (addrRegs v)
/-- Alignment of an address field: of the address, or of the offset (R192, R194). -/
def addrAligned (v : Nat) : Bool := if fld v 62 2 = 0 then fld v 0 48 % 16 == 0 else fld v 16 32 % 16 == 0

/-- The launch checks of one descriptor that do not depend on the commands that name it. -/
def descCheck (x : Section) (h : Nat) : Chk := do
  let d := x.desc h
  let cb := d.fmt == fCB4
  chk (0 < fmtBits d.fmt && decide (d.fmt < 0x13)) stBad
  chk (1 ≤ d.rank && d.rank ≤ 5 && d.blocked < d.rank && !bit (at1 d.b 2) 7 && at1 d.b 3 == 0) stBad
  chk ((List.range 5).all fun i => if i < d.rank then boundOk x (d.ext i) else d.ext i == 0 && (i == 0 || d.stride i == 0)) stBad
  chk ((List.range d.rank).all fun i => boundIn x (d.ext i)) stBounds
  chk (if bit d.tscale 15 then fld d.tscale 6 9 == 0 && regsOk x [(fld d.tscale 0 6, 1)] else fld d.tscale 8 7 == 0) stBad
  chk ((cb || (!d.cbGrouped && d.cbGroup == 0 && at4 d.b 60 == 0)) && d.cbGroup ≤ 11) stBad
  chk (!d.square || (2 ≤ d.rank && d.blocked ≤ 1 && (d.scaled || isWide d.fmt || d.fmt == fE5M2))) stBad
  if d.space = 3 then do
    chk (d.base < 65536 && at8 d.b 16 == 0 && (d.isChain || d.route < x.nRoutes)) stBad
    chk (d.isChain || (d.blocked ≤ 1 && !cb && (d.blocked != 1 || d.tileRows % 32 == 0))) stBad
  else do
    chk (addrOk x (d.space == 0) d.base && (if d.scaled then addrOk x (d.space == 0) d.sbase else d.sbase == 0)) stBad
    chk (addrAligned d.base && addrAligned d.sbase && at4 d.b 60 % 32 == 0) stAlign
  chk (fld (d.ext 0) 30 2 != 0 || fld (d.ext 0) 0 30 % fmtMultiple d.fmt == 0) stAlign

/-- A worst-case surrounding: registers at their declared LIMIT (R199). -/
def Section.worst (x : Section) (h st : Nat) : Cx :=
  { ref := .station h st 0, h, st, x, ctx := x.ctx, regs := tab 64 fun r => BitVec.ofNat 64 (x.regLimit r), bounds := [], taken := [], worst := true }

/-- A destination's elements share no byte at the worst case (R191). -/
def destOk (c : Cx) (t : TRef) : Bool :=
  (List.range t.d.rank).all fun i => i == 0 || t.e i ≤ 1 || decide (t.d.span t.fmt (t.ext.take i) ≤ 16 * t.d.stride i)
    || !(c.worst)

/-- A footprint at its worst case lies in its allocation, its register's span, or a mapped object (R199, R238). -/
def State.footOk (s : State) (c : Cx) (f : Foot) : Bool :=
  if f.n = 0 then true
  else match f.reg with
  | some r => decide (0 ≤ f.lo) && decide (f.lo + f.n ≤ c.x.regLimit r)
  | none =>
    decide (0 ≤ f.lo) && (if f.space = 0 then
        s.objs.any fun e => e.2.live && e.2.maps.any fun m =>
          (s.translationPeers c.ctx).contains m.ctx && decide ((m.va : Int) ≤ f.lo) && decide (f.lo + f.n ≤ m.va + e.2.size)
      else if f.space = 1 then decide (f.lo + f.n ≤ c.x.resBytes)
      else decide (f.lo + f.n ≤ c.x.cmBytes c.st))

/-- Whether a footprint is host-bound: it lies in an object mapped to a host window (R207). -/
def State.footHost (s : State) (c : Cx) (f : Foot) : Bool :=
  f.space == 0 && match f.reg with
    | some r => (s.ob (c.x.regObj r)).host.isSome
    | none => s.objs.any fun e => e.2.live && e.2.host.isSome && e.2.maps.any fun m =>
        (s.translationPeers c.ctx).contains m.ctx && decide ((m.va : Int) ≤ f.lo) && decide (f.lo < m.va + e.2.size)

/-- The extents of an operand are all constants. -/
def Desc.constExt (d : Desc) : Bool := (List.range d.rank).all fun i => fld (d.ext i) 30 2 == 0

/-- Bytes of an operand in a call's window: its footprints, or a stream operand's rows and scales (R236, R428). -/
def Cx.windowBytes (c : Cx) (t : TRef) : Nat :=
  if t.d.space = 3 then t.rowBytes * prodL (t.ext.drop 1) + (if t.d.scaled then t.nBlocks else 0)
  else ((c.dataFeet t ++ c.bookFeet t ++ c.scaleFeet t).map Foot.n).sum

/-- The launch checks of one command word of a station (R184 to R238). -/
def State.wordCheck (s : State) (x : Section) (h st : Nat) (w : List Byte) : Chk := do
  let c := x.worst h st
  let op := cOp w
  chk (opcodes.contains op && bitsOk w && fieldsOk x w && (kindOk (x.kind st) (x.sub st) w || cChain w)) stBad
  chk (handlesOk x w) stBad
  chk (regsOk x (wordRegs w)) stBad
  chk (formatsOk x (fun k => (x.desc k).fmt) w && blockedOk x w && plainOk c w) stBad
  chk (!isColl w || groupOk x w) stBad
  chk (op != 0xE1) stBad
  if op = 0xE0 then do
    chk (at4 w 12 == 0 && (writesRegs x w).all (fun r => x.regKind r == 1 || x.regKind r == 2)) stBad
    chk ((List.range x.nStations).all fun t => t == st || (List.range (x.progLen t)).all fun i =>
      let v := x.word t i
      (writesRegs x w).all fun r => !((({ c with st := t } : Cx).readsRegs v).contains r)) stBad
  else pure ()
  if op = 0x85 ∨ op = 0x86 then do
    chk (addrOk x true (at8 w 24)) stBad
    chk (addrAligned (at8 w 24)) stAlign
  else pure ()
  if op = 0x83 then chk (at2 w 12 < x.nSets) stBad else pure ()
  if op = 0xE3 then chk (fld (at4 w 12) 0 16 < x.nStations && x.kind (fld (at4 w 12) 0 16) == 3) stBad else pure ()
  if op / 32 = 6 then chk (s.part.portMask != 0) stAbsent else pure ()
  let hs := cHandles w
  chk (hs.all fun (k, dst) => !dst || (x.desc k).space == 3 || destOk c (c.tref k)) stOverlap
  chk (c.extentsOk w) stBounds
  let (src, dst) := c.cmdFeet w
  chk ((src ++ dst).all (s.footOk c)) stBounds
  chk (c.disjointOk w) stOverlap
  chk (((dst.filter (s.footHost c)).map Foot.n).sum ≤ 4 * 2 ^ 20) stCapacity
  chk (op != 0xE4 || [8, 10].all fun o => c.windowBytes (c.tref (at2 w o)) ≤ 16 * 2 ^ 20) stCapacity

/-- The checks that a command repeats at issue with its resolved values (R199, R201, R203, R238). -/
def Cx.issueCheck (c : Cx) (w : List Byte) : Chk := do
  let hs := cHandles w
  chk (hs.all fun (h, _) => let t := c.tref h; t.e 0 % fmtMultiple t.fmt == 0) stAlign
  chk (c.extentsOk w) stBounds
  chk (c.disjointOk w) stOverlap

/-- Checks of the words of an EXEC buffer (R331, R232, R225): only PATCH, REPLAY, WAIT, SIGNAL and EVENT. -/
def ringWordOk (w : List Byte) : Bool :=
  let op := cOp w
  let x : Section := {}
  [0xE0, 0xE1, 0xA0, 0xA1, 0xA2].contains op && bitsOk w && fieldsOk x w && !cChain w
    && !cPredEn w && !bit (cLoop0 w) 15 && !bit (cLoop1 w) 15 && !((op == 0xA0 || op == 0xA1) && bit (at1 w 14) 1) && (op != 0xE0 && op != 0xE1 || at4 w 12 != 0)

end Sys2Proof.Machine
end

