-- ==== Sys2Proof/Machine/Issue.lean ====
section
/-! DEFINITION. The issue of commands: resolution, dependencies, unit queues, frames, and the run of a unit's command
(R185, R200 to R206, R250 to R254, R269, R366 to R371). -/

namespace Sys2Proof.Machine

/-- The surroundings of a command in flight; a widened destination carries its new format (R169). -/
def State.cxOf (s : State) (k : Cmd) : Cx :=
  match k.ref with
  | .station h st _ =>
    let x := s.sec h
    { ref := k.ref, h, st, x := { x with fmts := k.descFmt.foldl (fun t e => t.put e.1 e.2) x.fmts }, ctx := k.ctx, regs := k.regs
      bounds := k.bounds, pages := k.pages, taken := k.taken, wsets := k.wsets }
  | .ring _ => { ref := k.ref, h := 0, st := 0, x := {}, ctx := k.ctx, regs := [], bounds := [], taken := [] }

/-- The words that a command executes: itself, or the members of its chain. -/
def Cmd.words (k : Cmd) : List (List Byte) := if cOp k.word = 0xE2 then k.members else [k.word]

/-- The unit that executes a station's command by its opcode (core × 5 + kind); none for the sequencer's (R112). -/
def Section.unitFor (x : Section) (st : Nat) (w : List Byte) : Option Nat :=
  let op := cOp w
  (x.coreOf st).bind fun c =>
    if op / 32 = 0 ∨ (op = 0x84 ∧ fld (at1 w 12) 0 2 = 1) then x.unitOf st
    else if op = 0x40 then some (5 * c + 4)
    else if op / 32 = 1 ∨ op / 32 = 2 ∨ op / 32 = 3 then some (5 * c + 2)
    else if op / 32 = 4 then some (5 * c + 3)
    else none

/-- The unit of a chain's member (R235, R243): the core's units, and for a MATMUL the pan of a pan station. That a MATMUL member
of another station's chain runs on PAN0 of the core is the model's choice (DESIGN CHOICE, log entry 77). -/
def Section.memberUnit (x : Section) (st : Nat) (w : List Byte) : Option Nat :=
  if cOp w / 32 = 0 ∧ x.kind st ≠ 0 then (x.coreOf st).map fun c => 5 * c else x.unitFor st w

/-- Every unit that a command holds while it is executed: its own, for ATTEND the core's vector unit too, for a CHAIN those of its
members (R112, R235). -/
def Section.unitsOf (x : Section) (st : Nat) (w : List Byte) (members : List (List Byte)) : List Nat :=
  if cOp w = 0xE2 then (members.filterMap (x.memberUnit st)).dedup
  else (x.unitFor st w).toList ++ (if cOp w = 0x01 then ((x.coreOf st).map fun c => 5 * c + 2).toList else [])

/-- The units that a command in flight holds. -/
def State.unitsOf (s : State) (k : Cmd) : List Nat :=
  match k.ref with
  | .station h st _ => (s.sec h).unitsOf st k.word k.members
  | .ring _ => []

/-- Commands of a station that hold back its later ones: WAIT, BARRIER and PATCH (R113, R148, R227). -/
def holdsBack (op : Nat) : Bool := op == 0xA0 || op == 0xA3 || op == 0xE0 || op == 0x86

/-- Footprints read and written by a command's words. -/
def Cx.feetOf (c : Cx) (ws : List (List Byte)) : List Foot × List Foot :=
  ws.foldl (fun acc w => let f := c.cmdFeet w; (acc.1 ++ f.1, acc.2 ++ f.2)) ([], [])

/-- A candidate command depends on one in flight ahead of it (R205). -/
def Cx.dependsOn (c d : Cx) (mine earlier : List (List Byte)) : Bool :=
  let (src, dst) := c.feetOf mine
  let (src', dst') := d.feetOf earlier
  let regs := mine.flatMap c.readsRegs
  let wr := earlier.flatMap (writesRegs d.x)
  dst'.any (fun a => (src ++ dst).any a.meets) || src'.any (fun a => dst.any a.meets)
    || wr.any (fun r => regs.contains r || (mine.flatMap (writesRegs c.x)).contains r)
    || (mine.flatMap (writesRegs c.x)).any fun r => (earlier.flatMap d.readsRegs).contains r

/-- A memory-kind bound read at issue (R193, R200). -/
def Cx.readBound (c : Cx) (v : Nat) : Cm Nat := do
  let b ← c.read 0 (c.reg (fld v 0 6) + 4 * fld v 6 12) 4
  need (decide (leNat b ≤ c.reg (fld v 18 6))) 0x0103
  pure (leNat b)

/-- Every memory-kind bound of a command's operands, with its key. -/
def Cx.readBounds (c : Cx) (ws : List (List Byte)) : Cm (List (Nat × Nat)) := do
  let keys := (ws.flatMap cNamed).dedup.flatMap fun h => (List.range (c.x.desc h).rank).filterMap fun i =>
    if fld ((c.x.desc h).ext i) 30 2 = 2 then some (8 * h + i, (c.x.desc h).ext i) else none
  keys.mapM fun e => do
    let v ← c.readBound e.2
    pure (e.1, v)

/-- The parts of the pages of a paged ATTEND's K and V that it reads: address and bytes (R203, R215). The list of each iteration gives
the pages; a list that arrives in frames is not known before they do. -/
def Cx.readPages (c : Cx) (w : List Byte) : Cm (List (Nat × Nat)) :=
  let pg := c.tref (at2 w 18)
  if cOp w ≠ 0x01 ∨ at2 w 18 = 0 ∨ pg.d.space = 3 then pure []
  else do
    let loops := c.loops w
    let t ← c.load none (at2 w 18)
    let perPage := 2 ^ (fld (at1 w 26) 0 4 + 4)
    pure ((iterations loops).flatMap fun i =>
      let list := (t.iter loops i).codes.map fun x => BitVec.ofNat 8 x
      [(at2 w 10, 0), (at2 w 12, 8)].flatMap fun (h, o) =>
        let v := c.tref h
        let outer := ((v.ext.drop (v.ext.length - loops.length)).zip i).map fun (e, j) => if e = 1 then 0 else j
        let inner := innerExt v.ext loops
        let base := fun (p : Nat) => at8 list (16 * p + o) + v.d.rowOff (List.replicate (inner.length - 1) 0 ++ outer)
        (if v.fmt = fCB4 then [(((at8 list o : Int) + v.d.cbOff).toNat, v.bookBytes)] else [])
          ++ tab (min (cdiv (v.e 1) perPage) (list.length / 16)) fun p =>
            (base p, v.d.span v.fmt (inner.set 1 (min perPage (v.e 1 - p * perPage)))))

/-- What a command's operands resolve to now, as far as the state alone shows it: memory-kind bounds and pages (R200, R205, R259). -/
def State.resolved (s : State) (c : Cx) (ws : List (List Byte)) : Cx :=
  let get := fun {α : Type} (m : Cm (List α)) => match (m.exec s).1 with
    | .ok l => l
    | .error _ => []
  let c := { c with bounds := get (c.readBounds ws) }
  { c with pages := get (c.readPages (ws.headD [])) }

/-- The surroundings of a station's command, in flight or not yet issued. -/
def State.cxAt (s : State) (h st i : Nat) : Cx :=
  match s.cmd? (.station h st i) with
  | some k => s.cxOf k
  | none =>
    let x := s.sec h
    s.resolved (s.cxOf { ref := .station h st i, ctx := x.ctx, regs := x.regs }) (x.wordsAt st i)

/-- The next command of station st may issue: its program is not at its end, and neither R113, R148 nor R205 holds it. -/
def State.admissible (s : State) (h st : Nat) : Bool :=
  let x := s.sec h
  let i := x.head st
  let mine := x.wordsAt st i
  let c := s.cxAt h st i
  let ahead := s.cmds.filter fun k => match k.ref with | .station g t _ => g == h && t == st | .ring _ => false
  x.run.isSome && !x.swapped && (s.cx x.ctx).life == .live && decide (i < x.progLen st)
    && ahead.all fun k => !holdsBack (cOp k.word) && !c.dependsOn (s.cxOf k) mine (k.word :: k.members)

/-- The rights that an issuing SIGNAL or WAIT needs in an enforced partition (R343, R351). -/
def State.fenceRight (s : State) (ctx : Nat) (w : List Byte) : Bool :=
  let op := cOp w
  if (op = 0xA0 ∨ (op = 0xA1 ∧ !bit (at1 w 14) 0)) ∧ !s.validated ctx then
    match s.fenceSlot (at4 w 8) with
    | some i => s.mayFence ctx i (op == 0xA1)
    | none => false
  else true

/-- The commands that must wait for a member of a stream group under R205, directly or through other commands, a command that waits
for one of a group waiting for all of it (R257, R259): by rounds, over the starts of every program; dep: the first must wait for the
second. -/
def Section.waiters (x : Section) (g : List (Nat × Nat)) (dep : Nat × Nat → Nat × Nat → Bool) : Nat → List (Nat × Nat) → List (Nat × Nat)
  | 0, W => W
  | n + 1, W =>
    let held := (g ++ W ++ W.flatMap fun e => x.group e.1 e.2).dedup
    let more := (List.range x.nStations).flatMap fun st => (x.starts st).filterMap fun i =>
      if !g.contains (st, i) && !W.contains (st, i) && held.any fun f => f.1 == st && decide (f.2 < i) && dep (st, i) f then some (st, i) else none
    if more.isEmpty then W else x.waiters g dep n (W ++ more)

/-- Commands of a section, an upper bound of the rounds. -/
def Section.nCommands (x : Section) : Nat := ((List.range x.nStations).map fun st => (x.starts st).length).sum

/-- The overlap check of a stream group at issue (R259): the sources of each member against the destinations of the others, and of what
must wait for one. -/
def State.groupDisjoint (s : State) (k : Cmd) : Bool :=
  match k.ref with
  | .ring _ => true
  | .station h st i =>
    let x := s.sec h
    if (s.groupRoutes k.ref).isEmpty then true
    else
      let g := x.group st i
      let cx := fun (e : Nat × Nat) => if e == (st, i) then s.cxOf k else s.cxAt h e.1 e.2
      let feet := fun (e : Nat × Nat) => (cx e).feetOf (x.wordsAt e.1 e.2)
      let W := x.waiters g (fun e f => (cx e).dependsOn (cx f) (x.wordsAt e.1 e.2) (x.wordsAt f.1 f.2)) x.nCommands []
      let meets := fun (m d : Nat × Nat) => (feet d).2.any fun a => (feet m).1.any fun b => a.meets b
      (g ++ W).all fun d => d == (st, i) || !meets (st, i) d && g.all fun m => m == (st, i) || !meets m (st, i)

/-- A command whose values are resolved: its predicate and its loops decide whether it runs, and its issue checks are made (R185, R200). -/
def State.checkIssued (s : State) (k : Cmd) : State :=
  let c := s.cxOf k
  if !c.predOk k.word || k.words.any fun v => (c.loops v).contains 0 then
    s.updCmd k.ref fun k => { k with skipped := true, infos := k.infos.map fun r => { r with skipped := true } }
  else
    let s := s.updCmd k.ref fun k => { k with totalOps := (c.allOps k.words).length }
    match (k.words.filter c.predOk).forM c.issueCheck with
    | .error e => s.failCmd k.ref e
    | .ok _ =>
      if !s.groupDisjoint k then s.failCmd k.ref stOverlap
      else if !s.fenceRight k.ctx k.word then s.failCmd k.ref 0x0202
      else s

/-- The next command of a station issued: it leaves its program, its values are resolved, those of a command that is then skipped too
(R251), and its issue checks made (R200). -/
def State.issue (s : State) (h st : Nat) : State :=
  let x := s.sec h
  let i := x.head st
  let w := x.word st i
  let members := x.chainWords st i
  let ref : CmdRef := .station h st i
  let infos := if cOp w = 0xE2 then x.infoOf st i w :: members.mapIdx fun j m => x.infoOf st (i + 1 + j) m else [x.infoOf st i w]
  let k : Cmd := { ref, ctx := x.ctx, lc := x.lc, word := w, members, regs := x.regs, reached := s.time.now, infos }
  let s := s.updSec h fun x => { x with run := x.run.map fun r => { r with heads := r.heads.set 0 st (x.nextIdx st i) } }
  let s := s.enterCmd k
  match ((s.cxOf k).readBounds k.words).exec s with
  | (.error e, s) => s.failCmd ref e
  | (.ok bs, s) =>
    let k := { k with bounds := bs }
    let k := { k with pages := (s.resolved (s.cxOf k) k.words).pages }
    (s.updCmd ref fun c => { c with bounds := k.bounds, pages := k.pages }).checkIssued k

/-! ### What a unit may work on (R112, R235, R366) -/

/-- The frames that a command reads: route and number. -/
def Cx.framesRead (c : Cx) (ws : List (List Byte)) : List (Nat × Nat) :=
  ws.flatMap fun w => (cHandles w).filterMap fun (h, d) =>
    let t := c.tref h
    if t.d.space == 3 && !t.d.isChain && !d then some (t.d.route, t.nFrames) else none

/-- Frames of a route that a command has taken. -/
def Cmd.took (k : Cmd) (r : Nat) : Nat := (k.taken.filter fun e => e.1 == r).length

/-- Every frame that a command reads has been taken. -/
def State.framesIn (s : State) (k : Cmd) : Bool :=
  ((s.cxOf k).framesRead k.words).all fun (r, n) => decide (n ≤ k.took r)

/-- A matrix command has had its operations (R100). -/
def Cmd.opsDone (k : Cmd) : Bool := k.skipped || decide (k.totalOps ≤ k.ops)

/-- A command may be executed now: it has its frames, its operations and its tokens. -/
def State.runnable (s : State) (r : CmdRef) : Bool :=
  match s.cmd? r with
  | some k => k.phase == .issued && s.framesIn k && k.opsDone && k.held.isEmpty
  | none => false

/-- Within its program a command has its turn on a unit: no earlier command in flight of the program still needs the unit. -/
def State.turnOf (s : State) (u : Nat) (r : CmdRef) : Bool :=
  match r with
  | .ring _ => false
  | .station h st i => s.cmds.all fun k => match k.ref with
    | .ring _ => true
    | .station g t n => !(g == h && t == st && decide (n < i) && (k.phase == .issued || k.phase == .killed) && (s.unitsOf k).contains u)

/-- A unit executes a command already, or it is free and may start on it (R366): program order holds, no latency-critical command
that could run waits behind a best-effort one, and no power hold is in force (R500). -/
def State.mayTake (s : State) (u : Nat) (r : CmdRef) : Bool :=
  let q := s.un u
  let lc := fun (x : CmdRef) => (s.cmd? x).any Cmd.lc
  q.cur == some r || (q.cur.isNone && s.turnOf u r && !s.power.hold
    && (lc r || q.queue.all fun x => !(lc x && s.turnOf u x && s.runnable x)))

/-- Every unit that a command holds may work on it. -/
def State.mayUse (s : State) (k : Cmd) : Bool := (s.unitsOf k).all fun u => s.mayTake u k.ref

/-- The command of a unit's queue may be executed next. -/
def State.mayRun (s : State) (u : Nat) (r : CmdRef) : Bool :=
  (s.un u).queue.contains r && s.runnable r && (s.cmd? r).any s.mayUse

/-- The units of a command work on it. -/
def State.holdUnits (s : State) (k : Cmd) : State := (s.unitsOf k).foldl (fun s u => s.updUn u fun q => { q with cur := some k.ref }) s

/-! ### Frames taken by consumers (R250, R251, R254) -/

/-- A command takes what lies in its station's buffer of a route, up to the number that it reads. -/
def State.takeRoute (s : State) (h st : Nat) (ref : CmdRef) (r n : Nat) : State :=
  match (s.sec h).run, s.cmd? ref with
  | some run, some k =>
    let buf := run.buffers.get [] (r * 512 + st)
    let got := buf.take (n - k.took r)
    if got.isEmpty then s
    else
      let s := s.updSec h fun x => { x with run := some { run with buffers := run.buffers.set [] (r * 512 + st) (buf.drop got.length), moved := run.moved.put r s.time.now } }
      (s.updCmd ref fun c => { c with taken := c.taken ++ got.map fun f => (r, f) }).holdUnits k
  | _, _ => s

/-- Buffered frames of a section move to the commands that read them, oldest command first. A unit takes frames for the command it
executes, or for one that it may start on; it then stays with that command. -/
def State.takeFrames (s : State) (h : Nat) : State :=
  (s.secCmds h).foldl (fun s k =>
    match k.ref with
    | .ring _ => s
    | .station _ st _ =>
      if k.phase != .issued || !s.mayUse k then s
      else ((s.cxOf k).framesRead k.words).foldl (fun s (r, n) => s.takeRoute h st k.ref r n) s) s

/-- The EMPTY frames of a skipped command's routes (R251). -/
def Cx.emptyFrames (c : Cx) (ws : List (List Byte)) : List (Nat × SFrame) :=
  ws.flatMap fun w => (cHandles w).flatMap fun (h, d) =>
    let t := c.tref h
    if t.d.space == 3 && !t.d.isChain && d then
      (t.frames c.x.runNo (((c.x.run.map Run.seqs).getD []).get 0 t.d.route) [] [] true).map fun f => (t.d.route, f)
    else []

/-- Frames produced, held at the producer until consumers have room (R254). -/
def State.holdFrames (s : State) (h : Nat) (fs : List (Nat × SFrame)) : State :=
  s.updSec h fun x => { x with run := x.run.map fun r => { r with
    heldFrames := r.heldFrames ++ fs
    seqs := fs.foldl (fun t e => t.upd 0 e.1 (· + 1)) r.seqs } }

/-! ### Unit queues (R113, R269, R366, R367) -/

/-- Station programs bound to a unit, in the order of their bindings. -/
def State.nextFor (s : State) (u : Nat) (b : Nat × Nat) : Option (Option CmdRef) :=
  let x := s.sec b.1
  let back := s.cmds.find? fun k => match k.ref with
    | .station h st i => h == b.1 && st == b.2 && k.phase == .issued && x.unitFor st (x.word st i) == some u
        && !(s.un u).queue.contains k.ref && (s.un u).cur != some k.ref
    | .ring _ => false
  match back with
  | some k => some (some k.ref)
  | none =>
    if s.admissible b.1 b.2 && x.unitFor b.2 (x.word b.2 (x.head b.2)) == some u then some none else none

/-- Entries of a program in a queue. -/
def entriesOf (q : List CmdRef) (b : Nat × Nat) : Nat := (q.filter fun r => match r with | .station h st _ => h == b.1 && st == b.2 | .ring _ => false).length

/-- The bindings of a unit from its round-robin position on. -/
def CoreUnit.turn (u : CoreUnit) : List (Nat × Nat) := let n := u.binds.length; tab n fun i => u.binds.getD ((u.next + i) % n) (0, 0)

/-- The program that gets the next free entry (R269). -/
def State.pickProgram (s : State) (u : Nat) (lcOnly : Bool) : Option (Nat × Nat) :=
  let q := s.un u
  let able := q.turn.filter fun b => (s.nextFor u b).isSome && (!lcOnly || (s.sec b.1).lc)
  (able.find? fun b => decide (entriesOf q.queue b < 4)).orElse fun _ => if able.length = 1 then able.head? else none

/-- A command put into a unit's queue. -/
def State.enqueue (s : State) (u : Nat) (b : Nat × Nat) : State :=
  let i := ((s.un u).binds.findIdx? fun x => x == b).getD 0
  let adv := fun (s : State) (r : CmdRef) => (s.updUn u fun q => { q with queue := q.queue ++ [r], next := (i + 1) % q.binds.length })
  match s.nextFor u b with
  | some (some r) => adv s r
  | some none =>
    let r : CmdRef := .station b.1 b.2 ((s.sec b.1).head b.2)
    let s := (s.issue b.1 b.2).takeFrames b.1
    if (s.cmd? r).isSome then adv s r else s
  | none => s

/-- The best-effort command that R367 removes: of the program with the most entries, admitted most recently. -/
def State.evict (s : State) (u : Nat) : Option CmdRef :=
  let q := s.un u
  let be := q.queue.filter fun r => q.cur != some r && (s.cmd? r).any fun k => !k.lc
  let n := fun (r : CmdRef) => match r with | .station h st _ => entriesOf q.queue (h, st) | .ring _ => 0
  let most := (be.map n).foldl max 0
  (be.filter fun r => n r == most).getLast?

/-- QUEUE_ADMISSION (R269, R367): one entry of a unit's queue is filled. -/
def execQueueAdmission (core : Nat) (unit : UnitKind) (s : State) : Out :=
  if 480 ≤ core then .fault (.noSuchUnit "core")
  else
    let u := 5 * core + (match unit with | .pan0 => 0 | .pan1 => 1 | .vector => 2 | .transfer => 3 | .statistics => 4)
    if (s.un u).queue.length < 8 then
      match s.pickProgram u false with
      | some b => .next (s.enqueue u b)
      | none => .next s
    else match s.pickProgram u true, s.evict u with
      | some b, some r => .next ((s.updUn u fun q => { q with queue := q.queue.filter fun x => x != r }).enqueue u b)
      | _, _ => .next s

/-! ### Execution of one command (R208 up to event W) -/

/-- What an executed command produced is staged, and its last write done: event W of R208. -/
def State.finishWork (s : State) (k : Cmd) (a : Acc) (infos : List RecInfo) : State :=
  let s := s.updCmd k.ref fun c => { c with
    staged := c.staged ++ a.prod.staged, regWrites := c.regWrites ++ a.prod.regs, descTs := c.descTs ++ a.prod.ts
    infos, taken := [], phase := .written }
  match k.ref with
  | .station h _ _ => s.holdFrames h a.prod.frames
  | .ring _ => s

/-- A command that has been executed leaves its units; they stay with it while the producer holds frames (R254). -/
def State.occupy (s : State) (k : Cmd) (hold : Bool) : State :=
  (s.unitsOf k).foldl (fun s u => s.updUn u fun q => { q with queue := q.queue.filter fun x => x != k.ref, cur := if hold then some k.ref else none }) s

/-- The lines that footprints in memory span, as virtual addresses. -/
def footLines (fs : List Foot) : List Nat :=
  (fs.filter fun f => f.space == 0).flatMap fun f => tab (cdiv (f.n + f.lo.toNat % 64) 64) fun i => (f.lo.toNat / 64 + i) * 64

/-- The clusters of the reservoir lines that footprints span. -/
def Section.resLines (x : Section) (fs : List Foot) : List Nat :=
  (fs.filter fun f => f.space == 1).flatMap fun f => tab (cdiv (f.n + f.lo.toNat % 64) 64) fun i => x.resPages.getD ((f.lo.toNat / 64 + i) * 64 / 65536) 0 / 1024

/-- Tokens that a command's requests cost in one direction, by key of its partition's sluices (R146, R375): at the controllers, the
reservoirs and the host link, and at the hub links that the lines pass between there and the command's cluster. -/
def State.feetTokens (s : State) (c : Cx) (write : Bool) (fs : List Foot) : List (Nat × Nat) :=
  let p := c.x.part
  let at_ := (footLines fs).map fun a => (s.translate c.who a write).1
  let hbm := (at_.filterMap fun t => match t with | .ok (.hbm pa, _) => some (pa / 64) | _ => none).dedup
  let host := at_.filterMap fun t => match t with | .ok (.host l _ _, _) => some (s.linkOf l) | _ => none
  let res := c.x.resLines fs
  let hub := fun (far : Option Nat) (n : Nat) =>
    if c.who.cluster.isNone then [] else if write then s.hubTokens p c.who.cluster far n else s.hubTokens p far c.who.cluster n
  ((List.range 20).flatMap fun st =>
      let ls := (hbm.filter fun l => l * 64 / 2 ^ 36 == st).mergeSort fun a b => decide (a ≤ b)
      (sluKey p .hbm st, burstTokens ls) :: hub (some (st / 2)) ls.length)
    ++ ((List.range 2).flatMap fun l => let n := host.count l; (sluKey p .host (2 * l + b2n (!write)), n) :: hub none n)
    ++ (List.range 10).flatMap fun d => let n := res.count d; (sluKey p .res d, n) :: hub (some d) n

/-- Tokens of a sending MCAST at the hub links: once to each cluster that its copies reach past the hub (R149, R255). -/
def State.mcastTokens (s : State) (k : Cmd) : List (Nat × Nat) :=
  match k.ref with
  | .station h st i =>
    let x := s.sec h
    if cOp k.word = 0x83 ∧ mcSender k.word then
      let t := (s.cxOf k).tref (at2 k.word 8)
      let n := cdiv (t.rowBytes * prodL (t.ext.drop 1)) 64
      (((x.mcTargets st i).filterMap fun e => (x.coreOf e.1).map (· / 48)).dedup).flatMap fun d => s.hubTokens x.part ((x.coreOf st).map (· / 48)) (some d) n
    else []
  | .ring _ => []

/-- All tokens of a command's requests. -/
def State.tokenCost (s : State) (k : Cmd) : List (Nat × Nat) :=
  let c := s.cxOf k
  let (src, dst) := c.feetOf k.words
  (addTokens (s.feetTokens c false src ++ s.feetTokens c true dst ++ s.mcastTokens k)).filter fun e => e.2 != 0

/-- A command's requests charged once to the sluices; what has no tokens is held (R375). -/
def State.chargeCmd (s : State) (k : Cmd) : State :=
  if k.step % 2 = 1 then s
  else
    let (held, s) := s.chargeAll k.lc (s.tokenCost k)
    s.updCmd k.ref fun c => { c with step := c.step + 1, held := c.held ++ held }

/-- Half steps that a vector lane spends on an element (R129): the slowest of the table's operations that the command applies to every
element (DEDUCED, log entry 32). -/
def vecHalves (packed plain : Bool) (w : List Byte) : Nat :=
  let op := cOp w
  let sub := at1 w 18
  if op = 0x20 then
    if plain && sub == 2 then 4
    else if 0x0D ≤ sub ∧ sub ≤ 0x10 then 4
    else if 0x11 ≤ sub ∧ sub ≤ 0x15 then 8
    else if packed then 1 else 2
  else if op = 0x22 ∨ op = 0x27 then 4
  else if op = 0x24 then (if sub = 0 then (if packed then 1 else 2) else 8)
  else if op = 0x25 then 8
  else if op = 0x26 then (if at4 w 28 ≤ 64 then 2 else if at4 w 28 ≤ 256 then 4 else 16)
  else 2

/-- Bytes of a command's operands in core memory. -/
def Cx.coreBytes (c : Cx) (w : List Byte) : Nat :=
  let (src, dst) := c.cmdFeet w
  (((src ++ dst).filter fun f => 16 ≤ f.space).map Foot.n).sum

/-- Steps of a vector command: elements over 256 lanes, or its core-memory lines at 2 KiB per step, and 24 (R130). -/
def Cx.vectorSteps (c : Cx) (w : List Byte) : Nat :=
  let ts := (cHandles w).map fun e => c.tref e.1
  let n := (ts.map fun t => prodL t.ext).foldl max 0
  let packed := ts.all fun t => t.fmt == fBF16 || t.fmt == fFP16 || t.fmt == fI16
  max (cdiv (n * vecHalves packed (ts.all TRef.isPlain) w) 512) (cdiv (c.coreBytes w) 2048) + 24

/-- A command of the vector unit (R112). -/
def vecOp (w : List Byte) : Bool := decide (1 ≤ cOp w / 32) && decide (cOp w / 32 ≤ 3) && cOp w != 0x40

/-- The steps that a command's words keep the vector unit of its core busy (R130), counted by its cluster (R513). -/
def State.vectorBusy (s : State) (k : Cmd) : State :=
  let c := s.cxOf k
  match c.who.cluster with
  | none => s
  | some cl => s.perf cl 0x05 ((k.words.filter vecOp).map fun w => c.vectorSteps w).sum

/-- One unit command executed by its body: its frames taken, charged, run, its results staged; a failure fails the command
(R209). A skipped command writes nothing, but emits and takes the frames of its routes (R185, R251). -/
def State.runUnit (s : State) (ref : CmdRef) (op : Nat) (body : Body) : State :=
  let s := (refSec ref).elim s s.takeFrames
  match s.cmd? ref, ref with
  | some k, .station h st _ =>
    match (s.sec h).unitFor st k.word with
    | none => s
    | some u =>
      if cOp k.word != op || !s.mayRun u ref then s
      else if k.skipped then
        let fs := (s.cxOf k).emptyFrames k.words
        (s.finishWork k { prod := { frames := fs } } k.infos).occupy k (!fs.isEmpty)
      else
        let s := s.chargeCmd k
        match s.cmd? ref with
        | none => s
        | some k =>
          if !k.held.isEmpty then s
          else
            let c := s.cxOf k
            match (body c k.word { info := k.infos.headD {} }).exec s with
            | (.error e, s) => s.failCmd ref e
            | (.ok a, s) => ((s.vectorBusy k).finishWork k a [a.info]).occupy k (!a.prod.frames.isEmpty)
  | _, _ => s

/-- A station command that the cluster sequencer takes up itself: issued when it may be (R147). -/
def State.takeUp (s : State) (ref : CmdRef) (op : Nat) : State :=
  match ref with
  | .ring _ => s
  | .station h st i =>
    let x := s.sec h
    if (s.cmd? ref).isSome || x.run.isNone || x.head st != i || cOp (x.word st i) != op || !s.admissible h st
        || (x.unitFor st (x.word st i)).isSome then s
    else (s.issue h st).takeFrames h

/-- The command of a reference when it is in flight as issued with an opcode. -/
def State.issued? (s : State) (ref : CmdRef) (op : Nat) : Option Cmd :=
  match s.cmd? ref with
  | some k => if cOp k.word = op ∧ k.phase = .issued then some k else none
  | none => none

end Sys2Proof.Machine
end

