-- ==== Sys2Proof/Machine/Pan.lean ====
section
/-! DEFINITION. Pans: weight sets, pan operations, and the slew governor's admissions (R99 to R111, R270 to R273,
R492 to R494). -/

namespace Sys2Proof.Machine

/-- The unit (core × 5 + kind) of pan p (core × 2 + pan). -/
def panUnit (p : Nat) : Nat := 5 * (p / 2) + p % 2

/-- The pan that a command's matrix operations issue on. -/
def State.panOf (s : State) (k : Cmd) : Option Nat := ((s.unitsOf k).find? fun u => u % 5 < 2).map fun u => 2 * (u / 5) + u % 5

/-- The commands with pan operations left that a pan serves: those of its queue in order, then the chains that hold it. -/
def State.panQueue (s : State) (p : Nat) : List Cmd :=
  let left := fun (k : Cmd) => k.phase == .issued && !k.skipped && decide (k.ops < k.totalOps)
  ((s.un (panUnit p)).queue.filterMap s.cmd?).filter left
    ++ s.cmds.filter fun k => cOp k.word == 0xE2 && left k && s.panOf k == some p

/-- The tag of a set that a word of a command names (R101). -/
def Cmd.tagOf (k : Cmd) (w : List Byte) (key : SetKey) : WTag :=
  { ctx := k.ctx, sec := (refSec k.ref).getD 0, desc := (stationaryOf w).1, kt := key.1, nt := key.2.1, piece := key.2.2 }

/-- The tags that a command's operations still to be issued name, in order, each with its word. -/
def State.tagsLeft (s : State) (k : Cmd) : List (List Byte × WTag) :=
  (((s.cxOf k).allOps k.words).drop k.ops).filterMap fun o => o.2.2.map fun key => (o.1, k.tagOf o.1 key)

/-- A set of a pan carries a tag. -/
def hasTag (w : Option WSet) (t : WTag) : Bool := w.any fun x => x.tag == t

/-- The next set that a command needs in the background registers: the first that is not active. -/
def State.nextTag (s : State) (p : Nat) (k : Cmd) : Option (List Byte × WTag) :=
  (s.tagsLeft k).find? fun t => !hasTag (s.pan p).active t.2

/-- The background registers are free (R271): the set in them, complete or partly loaded, is named by no issued operation and not
by the oldest queued matrix command. (An issued operation's set is the active one, R103.) -/
def State.backgroundFree (s : State) (p : Nat) : Bool :=
  match s.panQueue p with
  | k :: _ =>
    let unnamed := fun (w : Option WSet) => w.all fun w => !((s.tagsLeft k).map Prod.snd).contains w.tag
    unnamed (s.pan p).background && unnamed (s.pan p).loading
  | [] => true

/-! ### Loads (R102, R270 to R273) -/

/-- The weight tensor of a matrix command at the iteration that a set belongs to. -/
def Cx.weightAt (c : Cx) (w : List Byte) (tag : WTag) : Cm Tens := do
  let loops := c.loops w
  let t := c.tref tag.desc
  let kdim := (stationaryOf w).2
  let nts := cdiv (tileDims kdim (innerExt t.ext loops)).2 128
  let i := ((iterations loops).find? fun i => outerOf t.ext loops i == tag.nt / nts).getD []
  if paged w tag.desc then do
    let pg ← c.load none (at2 w 18)
    let l := (pg.iter loops i).codes.map fun x => BitVec.ofNat 8 x
    c.loadPaged t loops i (tab (l.length / 16) fun e => at8 l (16 * e + 8)) (2 ^ (fld (at1 w 26) 0 4 + 4))
  else do
    let x ← c.load none tag.desc
    pure (x.iter loops i)

/-- A PREFETCH that waits for its weight set has done its work. -/
def State.prefetched (s : State) (ref : Option CmdRef) : State :=
  match ref.bind s.cmd? with
  | some k => if cOp k.word = 0x84 ∧ k.phase = .executing then s.updCmd k.ref fun c => { c with phase := .written } else s
  | none => s

/-- A load into a pan's free background registers starts: the set in them loses its tag (R271). A PREFETCH whose partly loaded set is
replaced has had its load, and is done (DESIGN CHOICE, log entry 77). -/
def State.startLoad (s : State) (pan : Nat) (w : WSet) (ref : CmdRef) : State :=
  (s.prefetched (if (s.pan pan).loading.isSome then (s.pan pan).loadingFor else none)).updPan pan fun p =>
    { p with background := none, loading := some w, loadingFor := some ref }

/-- WEIGHT_SET_LOAD (R102, R270, R271): the pan starts to load the next set that a queued matrix command needs; the set
that was in the registers loses its tag. -/
def execWeightSetLoad (pan : Nat) (s : State) : Out :=
  if 960 ≤ pan then .fault (.noSuchUnit "pan")
  else
    match (s.panQueue pan).findSome? fun k => (s.nextTag pan k).map fun t => (k, t) with
    | none => .next s
    | some (k, w, tag) =>
      if hasTag (s.pan pan).background tag || hasTag (s.pan pan).loading tag || !s.backgroundFree pan then .next s
      else match ((s.cxOf k).weightAt w tag).exec s with
        | (.error e, s) => .next (s.failCmd k.ref e)
        | (.ok t, s) =>
          let kdim := (stationaryOf w).2
          let nts := max 1 (cdiv (tileDims kdim t.ext).2 128)
          .next (s.startLoad pan (setOf tag (tag.nt % nts) t kdim ((s.sec tag.sec).desc tag.desc).square) k.ref)

/-- WEIGHT_SET_COMPLETE (R101, R103): the loaded set's tag is valid; a PREFETCH that asked for it has done its work. -/
def execWeightSetComplete (pan : Nat) (s : State) : Out :=
  if 960 ≤ pan then .fault (.noSuchUnit "pan")
  else
    let p := s.pan pan
    match p.loading with
    | none => .next s
    | some w => .next ((s.updPan pan fun p => { p with background := some w, loading := none }).prefetched p.loadingFor)

/-! ### The slew governor (R33, R492 to R494) -/

/-- Part of a charge that falls in [a, b), in pA, rounded up. -/
def Charge.within (c : Charge) (a b : Nat) : Nat :=
  let lo := max a c.t
  let hi := min b (c.t + c.len)
  cdiv (c.mA * 1000000 * (hi - lo)) c.len

/-- Charges of one direction keep within a slope in mA/ns, with what 250 ns allow at once, in every window (R33): a window
of less than 250 ns allows what one of 250 ns does. -/
def envelopeOk (cs : List Charge) (slope : Nat) : Bool :=
  let ts := cs.flatMap fun c => [c.t, c.t + c.len]
  let sum := fun (a b : Nat) => (cs.map fun c => c.within a b).sum
  ts.all fun a => decide (sum a (a + 250) ≤ slope * 250 * 1000000) && decide (sum (a - 250) a ≤ slope * 250 * 1000000)
    && ts.all fun b => decide (b < a + 250) || decide (sum a b ≤ slope * (b - a) * 1000000)

/-- The governor may admit a charge (R492): R33 holds on the cluster's rail and on the total. -/
def State.chargeOk (s : State) (c : Charge) : Bool :=
  let same := (c :: s.power.charges).filter fun d => d.rise == c.rise
  envelopeOk (same.filter fun d => d.cluster == c.cluster) 120 && envelopeOk same 600

/-- A pan as it stands now: a ramp-down whose last group has left has ended (R108). -/
def State.panNow (s : State) (pan : Nat) : Pan :=
  let p := s.pan pan
  match p.run with
  | .falling t => if t + (s.fallOf pan).2 ≤ s.govNow then { p with run := .idle, off := 16, fall := none } else p
  | _ => p

/-- Groups of a pan that are disabled now: of a ramp-down begun at a time, one more has left every 3 steps (R108). -/
def State.groupsOff (s : State) (pan : Nat) : Nat :=
  let p := s.panNow pan
  match p.run with
  | .falling t => min 16 (p.off + (s.govNow - t) * (16 - p.off) / max 1 (s.fallOf pan).2)
  | .idle => 16
  | _ => p.off

/-- The charge of a pan's start at a time: of the groups that are to be enabled (R108, R109, R492). -/
def State.riseCharge (s : State) (pan t : Nat) : Charge :=
  let c := pan / 96
  let p := s.panNow pan
  { t, cluster := c, rise := true, mA := chargeMa (s.cl c).point * p.off / 16, len := stepsNs (3 * p.off) (s.cl c).point }

/-- The charge of a pan's ramp-down at a time. -/
def State.fallCharge (s : State) (pan t : Nat) : Charge :=
  { t, cluster := pan / 96, rise := false, mA := (s.fallOf pan).1, len := (s.fallOf pan).2 }

/-- A pan has rows enabled, which draw step current. -/
def State.draws (s : State) (pan : Nat) : Bool := (s.panNow pan).run != .idle && decide (s.groupsOff pan < 16)

/-- Pans of a cluster that draw step current. -/
def State.runningPans (s : State) (c : Nat) : List Nat := s.pans.keysWhere fun p _ => p / 96 == c && s.draws p

/-- The ceiling of 120 A at a boost point (R494). -/
def State.boostOk (s : State) (pan : Nat) : Bool :=
  let p := (s.cl (pan / 96)).point
  decide (2 ≤ p) || decide ((((s.runningPans (pan / 96)).filter fun q => q != pan).length + 1) * chargeMa p ≤ 120000)

/-- The request that the governor serves first: of a latency-critical command, then in order of request (R493). -/
def Power.firstReq (p : Power) : Option StartReq := (p.waiting.find? StartReq.lc).orElse fun _ => p.waiting.head?

/-- PAN_START_ADMISSION (R492 to R494, R500, R501): the governor admits the start of the pan that is first in its order
at time t. -/
def execPanStartAdmission (pan t : Nat) (s : State) : Out :=
  if 960 ≤ pan then .fault (.noSuchUnit "pan")
  else
    let c := s.riseCharge pan (s.power.epoch + t)
    let mine := s.power.firstReq.any fun r => r.pan == pan
    if !mine || s.power.hold || s.hub.emergency || (s.cl (pan / 96)).throttle || decide (t < s.time.now) || !s.chargeOk c
        || !s.boostOk pan then .next s
    else
      let s := s.atTime t
      let s := { s with power := { s.power with waiting := s.power.waiting.filter fun r => r.pan != pan, charges := s.power.charges ++ [c] } }
      .next (s.updPan pan fun p => { p with run := .running, off := 0 })

/-- The frames of the activation operand that a MATMUL's operation number i reads (R100 condition 1): those up to the last of its
row tile and its group, in the order in which they come. -/
def Cx.opFrames (c : Cx) (w : List Byte) (i : Nat) (op : Option SetKey) : Nat :=
  let a := c.tref (at2 w 8)
  let b := c.tref (at2 w 10)
  match op with
  | none => a.nFrames
  | some key =>
    let loops := c.loops w
    let tr := mMode w == 1
    let n := max 1 (cdiv (a.e 1) (if tr then 32 else 64))
    let per := (c.tileOps w).1
    let each := max 1 (per * n * cdiv (b.e (if tr then 0 else 1)) (if tr then 256 else 128))
    let g := if tr then key.2.1 % max 1 (cdiv (b.e 1) 128) else key.1
    let t0 := (min (a.e 0) ((if tr then 128 else 256) * (g + 1)) - 1) / a.d.tileCols
    let t1 := (min (a.e 1) ((if tr then 32 else 64) * (i / max 1 per % n + 1)) - 1) / a.d.tileRows
    1 + t0 + a.tiles0 * (t1 + a.tiles1 * outerOf a.ext loops ((iterations loops).getD (i / each) []))

/-- The input tiles of a command's next operation are in: of a MATMUL's activation from a route what the operation reads, of every
other route all of its frames. -/
def State.opReady (s : State) (k : Cmd) : Bool :=
  let c := s.cxOf k
  match (c.allOps k.words)[k.ops]? with
  | none => false
  | some (w, i, op) =>
    let a := c.tref (at2 w 8)
    (c.framesRead k.words).all fun (r, n) =>
      decide ((if cOp w = 0x00 ∧ a.d.space = 3 ∧ a.d.route = r then c.opFrames w i op else n) ≤ k.took r)

/-- The choice of the pan (R100, R366): the command it executes, or, when it may start on one, the first whose next operation has
its input tiles, latency-critical ones first. -/
def State.nextMatrix (s : State) (pan : Nat) : Option Cmd :=
  let able := (s.panQueue pan).filter fun k => s.mayUse k && k.held.isEmpty && s.opReady k
  match (s.un (panUnit pan)).cur with
  | some r => able.find? fun k => k.ref == r
  | none => (able.find? Cmd.lc).orElse fun _ => able.head?

/-- The set that a command's next operation names, if it names one. -/
def State.opTag (s : State) (k : Cmd) : Option WTag := (((s.cxOf k).allOps k.words)[k.ops]?).bind fun o => o.2.2.map (k.tagOf o.1)

/-- The drain has free entries for what the command's next operation needs (R100 condition 3). -/
def State.drainFree (s : State) (k : Cmd) : Bool :=
  match ((s.cxOf k).allOps k.words)[k.ops]? with
  | some (w, i, _) => cOp w != 0x00 || (let d := (s.cxOf k).drainOf w i; decide (d.1 + d.2 ≤ 8192))
  | none => true

/-- An operation is issuable on the pan but for its start: conditions 1 to 4 of R100. -/
def State.issuable (s : State) (pan : Nat) : Bool :=
  !s.hub.emergency && (s.nextMatrix pan).any fun k =>
    s.drainFree k && (s.opTag k).all fun t => hasTag (s.pan pan).active t || hasTag (s.pan pan).background t

/-- PAN_RAMP_DOWN (R108, R492): from event L, when no operation is issuable; the governor admits the fall at time t, or the pan
goes on with ballast steps. A pan that waited to rejoin falls from where it stands. -/
def execPanRampDown (pan t : Nat) (s : State) : Out :=
  if 960 ≤ pan then .fault (.noSuchUnit "pan")
  else
    let p := s.panNow pan
    let c := s.fallCharge pan (s.power.epoch + t)
    if !(p.run == .running || p.run == .rampWait || (p.run == .waiting && decide (p.off < 16))) || decide (t < s.time.now)
        || s.issuable pan then .next s
    else if s.chargeOk c then
      let s := (s.atTime t).updPan pan fun q => { q with run := .falling c.t, fall := some (c.mA, c.len) }
      .next { s with power := { s.power with
        waiting := s.power.waiting.filter (fun r => r.pan != pan), charges := s.power.charges ++ [c] } }
    else .next (s.updPan pan fun q => { q with run := if p.run = .waiting then .waiting else .rampWait })

/-- The charge of a ramp-down that an operation stops: of the groups that left (R109). -/
def cutFall (cs : List Charge) (c : Charge) (left total : Nat) : List Charge :=
  match cs with
  | [] => []
  | d :: ds => if d = c then { d with mA := d.mA * left / max 1 total, len := max 1 (d.len * left / max 1 total) } :: ds else d :: cutFall ds c left total

/-- A pan that is not running asks the governor to start: a cold one for all its groups, one that ramps down for those that have
left, and no further one leaves (R108, R109). -/
def State.askStart (s : State) (pan : Nat) (lc : Bool) : State :=
  let p := s.panNow pan
  let n := s.groupsOff pan
  let s : State := match p.run with
    | .falling t => { s with power := { s.power with
        charges := cutFall s.power.charges (s.fallCharge pan t) (n - p.off) (16 - p.off) } }
    | _ => s
  if n = 0 then s.updPan pan fun _ => { p with run := .running, off := 0, fall := none }
  else
    let s : State := { s with power := { s.power with waiting := s.power.waiting ++ [({ pan, lc, t := s.time.now } : StartReq)] } }
    s.updPan pan fun _ => { p with run := .waiting, off := n, fall := none }

/-! ### Pan operations (R99, R100) -/

/-- The data steps of operation number i of a matrix command (R111): rows × pieces of the activation × steps of the weight code,
or 128 × steps in output-stationary mode. -/
def Cx.opSteps (c : Cx) (w : List Byte) (i : Nat) (op : Option SetKey) : Nat :=
  let f := (c.tref (stationaryOf w).1).fmt
  match op with
  | none => 128 * fmtSteps (if cOp w = 0x00 then f else (c.tref (at2 w 10)).fmt)
  | some _ =>
    let a := c.tref (at2 w 8)
    let rows := if cOp w = 0x00 ∧ mMode w = 1 then 32 else 64
    let at_ := if cOp w = 0x00 then i else (((c.panOps w).take i).reverse.takeWhile Option.isSome).length
    let per := if cOp w = 0x00 then (c.tileOps w).1 else fmtPieces f
    let m := at_ / max 1 per % max 1 (cdiv (a.e 1) rows)
    let pieces := if cOp w = 0x00 then fmtPieces a.fmt else fld (at1 w 25) 6 2 + 1
    min rows (a.e 1 - rows * m) * pieces * fmtSteps f

/-- An operation issues on a running pan (R99, R103, R105): with its set, which becomes the active one; a change of set less than 384
data steps after the one before has cost the steps between. -/
def State.issueOp (s : State) (pan : Nat) (k : Cmd) (w : List Byte) (i : Nat) (op : Option SetKey) : State :=
  let c := s.cxOf k
  let p := s.pan pan
  let n := c.opSteps w i op
  let active := (op.map (k.tagOf w)).all (hasTag p.active)
  let s := s.updPan pan fun p =>
    if active then { p with run := .running, off := 0, fall := none, sinceSwap := p.sinceSwap + n }
    else { p with run := .running, off := 0, fall := none, sinceSwap := n, active := p.background, background := p.active, loadingFor := none }
  let used : Option WSet := if op.isNone then none else (s.pan pan).active
  let more : List WSet := match used with
    | some w => if k.wsets.any fun x => x.tag == w.tag then k.wsets else k.wsets ++ [w]
    | none => k.wsets
  let s := (s.updCmd k.ref fun c => { c with ops := c.ops + 1, wsets := more }).holdUnits k
  let s := if active then s else s.perf (pan / 96) 0x03 (384 - p.sinceSwap)
  s.perf (pan / 96) 0x01 n

/-- PAN_OPERATION_ISSUE (R99 to R105, R109): the pan takes frames for its commands, and its next operation issues when its input
tiles are in, its set is active or complete in the background registers, the drain has room, and the pan runs; a pan that does not
run requests its start. -/
def execPanOperationIssue (pan : Nat) (s : State) : Out :=
  if 960 ≤ pan then .fault (.noSuchUnit "pan")
  else
    let s := ((s.panQueue pan).filterMap fun k => refSec k.ref).dedup.foldl State.takeFrames s
    match s.nextMatrix pan with
    | none => .next s
    | some k =>
      if !s.issuable pan then .next s
      else match (s.panNow pan).run, ((s.cxOf k).allOps k.words)[k.ops]? with
        | .running, some (w, i, op) | .rampWait, some (w, i, op) => .next (s.issueOp pan k w i op)
        | .waiting, _ => .next s
        | _, _ => .next (s.askStart pan k.lc)

/-! ### Runs start (R272) -/

/-- Whether a descriptor's BASE or SCALE_BASE is relative to a register. -/
def Desc.regBased (d : Desc) : Bool := d.space != 3 && (fld d.base 62 2 == 1 || fld d.sbase 62 2 == 1)

/-- At the start of a run the tags of the section's sets with register-relative bases are cleared (R272). -/
def State.clearRegTags (s : State) (h : Nat) : State :=
  let x := s.sec h
  let gone := fun (t : Option WSet) => t.filter fun w => !(w.tag.sec == h && (x.desc w.tag.desc).regBased)
  { s with pans := s.pans.mapAll {} fun _ p => { p with active := gone p.active, background := gone p.background } }

end Sys2Proof.Machine
end

