-- ==== Sys2Proof/Machine/Move.lean ====
section
/-! DEFINITION. Data movement: COPY, GATHER, SCATTER, MCAST and PREFETCH (R124, R138, R139, R223, R224). -/

namespace Sys2Proof.Machine

/-! ### Scale codes that travel with the data -/

/-- The scale code of each element of a source with SCALED set, or none. -/
def Cx.elemScales (c : Cx) (t : TRef) : Cm (Option (List Nat)) :=
  if !t.d.scaled || t.d.isChain then pure none
  else if t.d.space = 3 then
    let fs := (c.taken.filter fun e => e.1 == t.d.route).map Prod.snd
    pure (some ((indices t.ext).map fun i =>
      match fs.find? fun f => f.t0 == i.getD 0 0 / t.d.tileCols && f.t1 == i.getD 1 0 / t.d.tileRows && f.outer == flatIdx (t.ext.drop 2) (i.drop 2) with
      | some f =>
        let k := i.getD 0 0 % t.d.tileCols
        let r := i.getD 1 0 % t.d.tileRows
        let k' := if t.d.square || t.d.blocked == 0 then k / 32 else k
        let r' := if t.d.square || t.d.blocked == 1 then r / 32 else r
        f.scales.getD (r' * (tileBlocks t.d f.rows f.cols).1 + k') 127
      | none => 127))
  else do
    let b ← c.read t.d.space t.sbase t.nBlocks
    pure (some ((indices t.ext).map fun i => (b.getD (t.blockOf i) 0).toNat))

/-- Scale codes of a destination's blocks: that of the source element at the block's first element. -/
def TRef.blockScales (d : TRef) (elem : List Nat → Nat) : List Nat :=
  let is := indices d.ext
  (List.range d.nBlocks).map fun b => ((is.find? fun i => d.blockOf i == b).map elem).getD 127

/-- Codes of a tensor, and its scale codes when it has them, written to a destination of the same extents: scales travel
where the destination carries them (R217, R224). -/
def Cx.put (c : Cx) (a : Acc) (d : TRef) (ext codes : List Nat) (scs : Option (List Nat)) : Cm Acc := do
  let cs := (indices d.ext).map fun i => codes.getD (bcast ext i) 0
  let p ← match scs with
    | some l => c.store a.prod d cs (d.blockScales fun i => l.getD (bcast ext i) 127) d.d.scaled
    | none => do
      let g ← if d.d.space = 3 && d.d.scaled then c.givenScales d else pure []
      c.store a.prod d cs g false
  pure { a with prod := p }

/-! ### COPY and refill links -/

/-- The parts of a copy: offset of the destination in its allocation, source address, bytes; row by row, and the scale codes. -/
def TRef.copyParts (t d : TRef) : List (Nat × Nat × Nat) :=
  ((indices (d.ext.drop 1)).map fun i => (d.base + d.d.rowOff i, t.base + t.d.rowOff i, d.rowBytes))
    ++ (if t.d.scaled && d.d.scaled then [(d.sbase, t.sbase, d.nBlocks)] else [])

/-- Pieces that cover a page from its first byte to its last, in order of offset. -/
def coversPage (ps : List (Nat × Nat × Nat)) : Bool :=
  (ps.mergeSort fun a b => decide (a.1 ≤ b.1)).foldl (fun n e => if e.1 ≤ n then max n (e.1 + e.2.2) else n) 0 == 65536

/-- The refill links of R124: pages of the destination's allocation that the copy writes whole from HBM memory that the translation
maps read-only; page and the pieces of its source. -/
def Cx.refillsOf (c : Cx) (s : State) (t d : TRef) : List (Nat × List (Nat × Nat × Nat)) :=
  if t.d.space != 0 || d.d.space == 0 || d.d.space == 3 || t.ext != d.ext then []
  else
    let readOnly := fun (va : Nat) => match (s.leafFor c.who va).1, (s.translate c.who va false).1 with
      | .ok l, .ok (.hbm _, _) => !l.w
      | _, _ => false
    let parts := t.copyParts d
    (c.x.pagesOf d.d.space c.st).zipIdx.filterMap fun (p, k) =>
      let lo := 65536 * k
      let mine := parts.filterMap fun (o, va, n) =>
        let a := max o lo
        let b := min (o + n) (lo + 65536)
        if a < b then some (a - lo, va + (a - o), b - a) else none
      if coversPage mine && mine.all (fun e => readOnly e.2.1 && readOnly (e.2.1 + e.2.2 - 1)) then some (p, mine) else none

/-- COPY, and PREFETCH with TARGET 0 (R224). -/
def bodyCopy : Body := fun c w a => do
  let t := c.tref (at2 w 8)
  let d := c.tref (at2 w 10)
  let x ← c.load a.prod.chain (at2 w 8)
  need (x.fmt == d.fmt) 0x0102
  let sc ← c.elemScales t
  let a ← c.put a d x.ext x.codes sc
  let s ← get
  let links := c.refillsOf s t d
  modify fun s => s.updCmd c.ref fun k => { k with refills := links }
  pure a

/-- COPY (R224). -/
def execCopy (ref : CmdRef) (s : State) : Out := .next (s.runUnit ref 0x80 bodyCopy)

/-! ### GATHER and SCATTER -/

/-- The scale codes of a tensor's elements beside its codes, for a command that moves rows; a source without scales has none. -/
def Cx.withScales (c : Cx) (chain : Option Tens) (h : Nat) : Cm (Tens × Option Tens) := do
  let t ← c.load chain h
  let sc ← c.elemScales (c.tref h)
  pure (t, sc.map fun l => { t with codes := l })

/-- GATHER: row i of DST is row INDEX[i] of SRC, or zeros for -1 (R224). The block scales of a row travel with it; those of a zero row
are 127 (DESIGN CHOICE, log entry 77: R224 names the row alone). -/
def bodyGather : Body := fun c w a => do
  let d := c.tref (at2 w 10)
  let loops := c.loops w
  let (t, ts) ← c.withScales a.prod.chain (at2 w 8)
  let ix ← c.load a.prod.chain (at2 w 12)
  let rows ← (iterations loops).mapM fun i => do
    let u := t.iter loops i
    let us := ts.map fun x => x.iter loops i
    let v := ix.iter loops i
    let e0 := u.ext.headD 1
    let n := prodL (u.ext.drop 1)
    let dn := prodL ((innerExt d.ext loops).drop 1)
    (v.codes.take dn).mapM fun code => do
      let j := intVal v.fmt code
      need (decide (-1 ≤ j) && decide (j < n)) 0x0103
      let row := fun (x : Tens) (z : Nat) => if j < 0 then List.replicate e0 z else (x.codes.drop (j.toNat * e0)).take e0
      pure (row u 0, us.map fun x => row x 127)
  let rs := rows.flatten
  c.put a d d.ext (rs.flatMap Prod.fst) (ts.map fun _ => rs.flatMap fun r => r.2.getD [])

/-- GATHER (R224). -/
def execGather (ref : CmdRef) (s : State) : Out := .next (s.runUnit ref 0x81 bodyGather)

/-- A row that a SCATTER writes: its number in the destination, its codes, and the scale codes of its elements where SRC has them. -/
structure ScatRow where
  row : Nat
  codes : List Nat
  scales : Option (List Nat)

/-- The rows that a SCATTER writes, later rows last. -/
def Cx.scatterRows (c : Cx) (a : Acc) (w : List Byte) : Cm (List ScatRow) := do
  let d := c.tref (at2 w 10)
  let loops := c.loops w
  let (t, ts) ← c.withScales a.prod.chain (at2 w 8)
  let ix ← c.load a.prod.chain (at2 w 12)
  let rows ← (iterations loops).mapM fun i => do
    let u := t.iter loops i
    let us := ts.map fun x => x.iter loops i
    let v := ix.iter loops i
    let e0 := u.ext.headD 1
    let dn := prodL ((innerExt d.ext loops).drop 1)
    let rs ← v.codes.zipIdx.mapM fun (code, k) => do
      let j := intVal v.fmt code
      need (decide (-1 ≤ j) && decide (j < dn)) 0x0103
      let row := fun (x : Tens) => (x.codes.drop (k * e0)).take e0
      pure (j, row u, us.map row)
    pure (rs.filterMap fun r => if r.1 < 0 then none else some { row := r.1.toNat + dn * batchOf loops i, codes := r.2.1, scales := r.2.2 : ScatRow })
  pure rows.flatten

/-- The index of a row, from its number. -/
def rowIdx : List Nat → Nat → List Nat
  | [], _ => []
  | e :: es, n => n % (max e 1) :: rowIdx es (n / max e 1)

/-- SCATTER: the rows named are written, the last of several for one row wins, the others keep their contents; the other
rows of a stream are free values of the command (R224). Block scales travel with a row into the blocks that its elements lie in
(DESIGN CHOICE, log entry 77: R224 names the row alone). -/
def bodyScatter : Body := fun c w a => do
  let d := c.tref (at2 w 10)
  let rows ← c.scatterRows a w
  let lastOf := fun (r : Nat) => (rows.filter fun e => e.row == r).getLast?
  if d.d.space = 3 then do
    let e0 := d.e 0
    let free := fun (m i : Nat) => (Config.openCode (leNat w) (2 * i + m)).toNat
    let all := tab (prodL (d.ext.drop 1)) fun r => (lastOf r).elim (tab e0 fun i => free 0 (e0 * r + i) % 2 ^ fmtBits d.fmt) ScatRow.codes
    let scs := tab (prodL (d.ext.drop 1)) fun r => ((lastOf r).bind ScatRow.scales).getD (tab e0 fun i => free 1 (e0 * r + i) % 255)
    c.put a d d.ext all.flatten (if d.d.scaled then some scs.flatten else none)
  else do
    let last := (List.range (prodL (d.ext.drop 1))).filterMap lastOf
    let ws ← last.mapM fun e => c.write d.d.space (d.base + d.d.rowOff (rowIdx (d.ext.drop 1) e.row)) (packRow d.fmt (e.codes.map (writtenCode d.fmt)))
    let codes := if d.d.scaled then last.flatMap fun e => (e.scales.getD []).mapIdx fun i v => (d.blockOf (i :: rowIdx (d.ext.drop 1) e.row), min v 254) else []
    let ss ← codes.mapM fun e => c.write d.d.space (d.sbase + e.1) [BitVec.ofNat 8 e.2]
    pure { a with prod := { a.prod with staged := a.prod.staged ++ ws.flatten ++ ss.flatten } }

/-- SCATTER (R224). -/
def execScatter (ref : CmdRef) (s : State) : Out := .next (s.runUnit ref 0x82 bodyScatter)

/-! ### MCAST (R138, R139, R224) -/

/-- The run of a section changed, when there is one. -/
def State.updRun (s : State) (h : Nat) (f : Run → Run) : State := s.updSec h fun x => { x with run := x.run.map f }

/-- A receiver has its copy, or was killed while the tile was delivered to it (R139, R224). -/
def State.mcGot (s : State) (h : Nat) (e : Nat × Nat) : Bool :=
  ((s.sec h).run.any fun r => r.passed.contains e) || match s.cmd? (.station h e.1 e.2) with
  | some k => k.phase == .written || k.phase == .recording
  | none => decide (e.2 < (s.sec h).head e.1)

/-- Every receiver of a sender has its copy. -/
def State.mcAll (s : State) (ref : CmdRef) : Bool :=
  match ref with
  | .station h st i => ((s.sec h).mcTargets st i).all (s.mcGot h)
  | .ring _ => true

/-- The cluster whose sequencer grants a station's trees: that of the station's core. R138 names no cluster for a tree with
destinations on others (DESIGN CHOICE, log entry 81). -/
def Section.treeCluster (x : Section) (st : Nat) : Nat := ((x.coreOf st).getD 0) / 48

/-- Room reserved at the transfer unit of a core. -/
def State.roomsAt (s : State) (core : Nat) : List Room :=
  s.secs.flatMap fun e => ((e.2.run.map Run.rooms).getD []).filter fun r => r.core == core

/-- The bytes of a sender's tile. -/
def TRef.tileBytes (t : TRef) : Nat := t.rowBytes * prodL (t.ext.drop 1) + (if t.d.scaled then t.nBlocks else 0)

/-- The reservations of a sender's tree: one at the transfer unit of each receiver's core (R138). -/
def State.roomsFor (s : State) (k : Cmd) : List Room :=
  match k.ref with
  | .station h st i =>
    let x := s.sec h
    let n := ((s.cxOf k).tref (at2 k.word 8)).tileBytes
    (x.mcTargets st i).filterMap fun e => (x.coreOf e.1).map fun c => { core := c, sender := (st, i), receiver := e, bytes := n }
  | .ring _ => []

/-- A transfer unit has room for a tile in its 32 KiB of buffers (R112); a tile larger than these takes a unit that holds no
other (DESIGN CHOICE, log entry 81: R138 gives no size of a tile). -/
def State.roomFree (s : State) (r : Room) : Bool :=
  let l := s.roomsAt r.core
  l.isEmpty || decide ((l.map Room.bytes).sum + r.bytes ≤ 32768)

/-- MULTICAST_RESERVATION_GRANT (R138): one tree at a time, in order of request; it holds its reservations once every destination's
transfer unit has room for the whole tile. -/
def execMulticastReservationGrant (cluster : Nat) (s : State) : Out :=
  if 10 ≤ cluster then .fault (.noSuchUnit "cluster")
  else match (s.cl cluster).granted, (s.cl cluster).trees with
    | none, r :: rest => match s.cmd? r, refSec r with
      | some k, some h =>
        let rooms := s.roomsFor k
        if rooms.all s.roomFree then
          .next ((s.updCl cluster fun k => { k with trees := rest, granted := some r }).updRun h fun q => { q with rooms := q.rooms ++ rooms })
        else .next s
      | _, _ => .next s
    | _, _ => .next s

/-- A tile that a sender has delivered, in place of an earlier one. -/
def State.putTile (s : State) (ref : CmdRef) (f : SFrame) : State :=
  match ref with
  | .station h st i => s.updRun h fun r => { r with tiles := (r.tiles.filter fun e => e.1 != (st, i)) ++ [((st, i), f)] }
  | .ring _ => s

/-- The sender's body: the tile is in every destination's reserved room. -/
def bodyMcastSend : Body := fun c w a => do
  let t := c.tref (at2 w 8)
  let x ← c.load a.prod.chain (at2 w 8)
  let sc ← c.elemScales t
  modify fun s => s.putTile c.ref
    { run := c.x.runNo, seq := 0, t0 := 0, t1 := 0, outer := 0, rows := 0, cols := 0, empty := false, last := true
      scaled := sc.isSome, fmt := x.fmt, tscale := t.ts, codes := x.codes, scales := sc.getD [] }
  pure a

/-- The receiver's body: its copy goes into its DST, and its reservation ends. -/
def bodyMcastReceive (f : SFrame) : Body := fun c w a => do
  let d := c.tref (at2 w 10)
  let n := prodL d.ext
  let codes := if f.empty then List.replicate n 0 else f.codes
  need (f.empty || f.fmt == d.fmt) 0x0102
  need (f.empty || f.codes.length == n) 0x0103
  modify fun s => match c.ref with
    | .station h st i => s.updRun h fun r => { r with rooms := r.rooms.filter fun e => e.receiver != (st, i) }
    | .ring _ => s
  c.put a d d.ext codes (if f.scaled && !f.empty then some f.scales else none)

/-- The empty copy of a skipped sender, which reads as zeros, as an EMPTY frame does (R251; DEDUCED, log entry 30). -/
def emptyTile (run : Nat) : SFrame :=
  { run, seq := 0, t0 := 0, t1 := 0, outer := 0, rows := 0, cols := 0, empty := true, last := true
    scaled := false, fmt := 0, tscale := 0, codes := [], scales := [] }

/-- The grant of a tree ends once its sender no longer waits to execute. -/
def State.endTree (s : State) (c : Nat) (ref : CmdRef) : State :=
  if (s.cmd? ref).any fun q => q.phase == .issued then s else s.updCl c fun k => { k with granted := none }

/-- The sender's turn: it asks for its tree, and once granted its tile is delivered. -/
def State.mcastSend (s : State) (ref : CmdRef) (h st : Nat) : State :=
  let c := (s.sec h).treeCluster st
  if (s.cmd? ref).any Cmd.skipped then (s.putTile ref (emptyTile (s.sec h).runNo)).runUnit ref 0x83 bodyMcastSend
  else if (s.cl c).granted == some ref then (s.runUnit ref 0x83 bodyMcastSend).endTree c ref
  else if (s.cl c).trees.contains ref then s
  else s.updCl c fun k => { k with trees := k.trees ++ [ref] }

/-- The tile that a receiver takes: its sender's. That a receiver which runs again after a kill takes the tile once more from what its
sender has delivered is the model's choice (R139 is silent; DESIGN CHOICE, log entry 81). -/
def State.tileFor (s : State) (h st i : Nat) : Option SFrame :=
  ((s.sec h).mcSource st i).bind fun e => (((s.sec h).run.map Run.tiles).getD []).findSome? fun f => if f.1 == e then some f.2 else none

/-- MCAST (R138, R139, R223, R224). -/
def execMcast (ref : CmdRef) (s : State) : Out :=
  match ref, s.issued? ref 0x83 with
  | .station h st i, some k =>
    if mcSender k.word then
      .next (if ((s.sec h).unitFor st k.word).any fun u => s.mayRun u ref then s.mcastSend ref h st else s)
    else
      match s.tileFor h st i with
      | some f => .next (s.runUnit ref 0x83 (bodyMcastReceive f))
      | none => if k.skipped then .next (s.runUnit ref 0x83 bodyMcastSend) else .next s
  | _, _ => .next s

/-! ### PREFETCH (R223, R224, R270) -/

/-- The reduction dimension of a weight descriptor that a station's program names: that of V in an ATTEND, else W's. -/
def Section.weightDim (x : Section) (st h : Nat) : Nat :=
  if (List.range (x.progLen st)).any fun i => let w := x.word st i; cOp w == 0x01 && at2 w 12 == h then 1 else 0

/-- The set that a PREFETCH with TARGET 1 names, loaded from SRC. -/
def Cx.prefetchSet (c : Cx) (w : List Byte) : Cm WSet := do
  let h := at2 w 8
  let x ← c.load none h
  let kd := c.x.weightDim c.st h
  let (k, n) := tileDims kd x.ext
  let tag : WTag := { ctx := c.ctx, sec := c.h, desc := h, kt := at2 w 16, nt := at2 w 18, piece := fld (at1 w 20) 0 2 }
  need (decide (256 * tag.kt < k) && decide (128 * tag.nt < n * prodL (x.ext.drop 2)) && decide (tag.piece < fmtPieces x.fmt)) 0x0103
  pure (setOf tag tag.nt x kd (c.x.desc h).square)

/-- PREFETCH with TARGET 1: the load into the background registers of the station's pan starts when they are free; a set
that is already there is used as it is. -/
def State.prefetchSet (s : State) (k : Cmd) (u : Nat) : State :=
  let p := 2 * (u / 5) + u % 5
  if !s.mayRun u k.ref then s
  else if k.skipped then (s.finishWork k {} k.infos).occupy k false
  else match ((s.cxOf k).prefetchSet k.word).exec s with
    | (.error e, s) => s.failCmd k.ref e
    | (.ok w, s) =>
      if hasTag (s.pan p).active w.tag || hasTag (s.pan p).background w.tag then (s.finishWork k {} k.infos).occupy k false
      else if !s.backgroundFree p then s
      else
        ((s.startLoad p w k.ref).updCmd k.ref fun c => { c with phase := .executing }).occupy k false

/-- PREFETCH (R223, R224, R270). -/
def execPrefetch (ref : CmdRef) (s : State) : Out :=
  match ref, s.issued? ref 0x84 with
  | .station h st _, some k =>
    if fld (at1 k.word 12) 0 2 = 0 then .next (s.runUnit ref 0x84 bodyCopy)
    else match (s.sec h).unitFor st k.word with
      | some u => .next (s.prefetchSet k u)
      | none => .next s
  | _, _ => .next s

end Sys2Proof.Machine
end

