-- ==== Sys2Proof/Machine/Loader.lean ====
section
/-! DEFINITION. What the section Loader checks in an image, and where it places a section (R170, R234, R235, R239 to R266,
R372). -/

namespace Sys2Proof.Machine

/-- Bytes of an image all 0. -/
def zeros (b : List Byte) (o n : Nat) : Bool := leAt b o n == 0

/-! ### Steps 2 and 3 of R260: header, tables, stations (R241 to R247) -/

/-- Step 2: MAGIC, VERSION and the reserved header fields. -/
def headerOk (b : List Byte) : Bool :=
  b.take 4 == ascii "DWSC" && at2 b 4 == 1 && decide (at2 b 6 ≤ 1) && zeros b 22 2 && zeros b 44 4 && zeros b 62 2
    && zeros b 68 4 && zeros b 80 48

/-- A station has a program: it is no soft and no host-core station. -/
def Section.runs (x : Section) (st : Nat) : Bool := x.kind st != 3 && x.kind st != 4

/-- The fields of one station record (R242): counts and kinds are BAD_DESCRIPTOR, multiples ALIGN, places outside the
image BOUNDS (DEDUCED, log entry 31). -/
def stationCheck (x : Section) (st : Nat) : Chk := do
  let o := x.staAt st
  let k := x.kind st
  let sub := x.sub st
  chk (k ≤ 5 && zeros x.img (o + 20) 4 && (sub == 0 || (sub == 1 && (k == 2 || k == 5))) && (!x.runs st || x.bind st == 0)) stBad
  chk (if x.runs st then x.slot st < x.nSlots && 1 ≤ x.progLen st
    else x.slot st == 0xFFFF && x.progLen st == 0 && x.cmBytes st == 0) stBad
  chk (at4 x.img (o + 4) % 32 == 0 && x.cmBytes st % 65536 == 0) stAlign
  chk (x.cmBytes st ≤ 2 ^ 21 && at4 x.img 40 + at4 x.img (o + 4) + 32 * x.progLen st ≤ x.img.length) stBounds

/-- Stations of a slot. -/
def Section.slotStations (x : Section) (slot : Nat) : List Nat := (List.range x.nStations).filter fun st => x.slot st == slot

/-- What a slot may hold (R244). -/
def slotCheck (x : Section) (slot : Nat) : Bool :=
  let ks := (x.slotStations slot).map x.kind
  !ks.isEmpty && decide (ks.count 0 ≤ 2) && decide (ks.count 1 ≤ 1) && decide (ks.count 2 + ks.count 5 ≤ 2)

/-- One route record (R245). -/
def routeCheck (x : Section) (r : Nat) : Chk := do
  let o := x.routeAt r
  let multi := bit (at1 x.img (o + 7)) 3
  chk (fld (at1 x.img (o + 7)) 4 4 == 0 && zeros x.img (o + 8) 8 && 2 ≤ x.depth r && x.depth r ≤ 16 && x.buf r ≤ 4) stBad
  chk (x.producer r < x.nStations && (if multi then at2 x.img (o + 2) < x.nSets else at2 x.img (o + 2) < x.nStations)) stBad
  chk ((x.producer r :: x.consumers r).all (fun st => x.runs st) && !(x.consumers r).contains (x.producer r)) stBad
  chk (1 ≤ x.routeDesc r && x.routeDesc r ≤ x.nDesc) stBad

/-- One set record (R246). -/
def setCheck (x : Section) (n : Nat) : Chk := do
  let o := at4 x.img 32 + 8 * n
  let k := at2 x.img (o + 4)
  chk (2 ≤ k && k ≤ 512 && zeros x.img (o + 6) 2) stBad
  chk (at4 x.img o % 2 == 0) stAlign
  chk (at4 x.img o + 2 * k ≤ x.img.length) stBounds
  let m := x.setMembers n
  chk ((m.zip (m.drop 1)).all (fun p => p.1 < p.2) && m.all (· < x.nStations)) stBad

/-- The intervals of the image that its parts take. -/
def Section.parts (x : Section) : List (Nat × Nat) :=
  [(0, 1664), (at4 x.img 24, 32 * x.nStations), (at4 x.img 28, 16 * x.nRoutes), (at4 x.img 32, 8 * x.nSets), (at4 x.img 36, 64 * x.nDesc)]
    ++ (List.range x.nStations).map (fun st => (at4 x.img 40 + at4 x.img (x.staAt st + 4), 32 * x.progLen st))
    ++ (List.range x.nSets).map fun n => (at4 x.img (at4 x.img 32 + 8 * n), 2 * at2 x.img (at4 x.img 32 + 8 * n + 4))

/-- Step 3 of R260; cores: present cores of the partition. -/
def imageCheck (x : Section) (cores : Nat) : Chk := do
  let b := x.img
  chk (1 ≤ x.nStations && x.nStations ≤ 512 && 1 ≤ x.nSlots && x.nSlots ≤ cores && x.nRoutes ≤ 1024 && x.nSets ≤ 256
    && 1 ≤ x.nDesc && x.nDesc ≤ 4095) stBad
  chk (b.length % 64 == 0 && x.resBytes % 65536 == 0 && x.recordBase % 64 == 0
    && [24, 28, 32, 36, 40].all fun o => at4 b o % 64 == 0) stAlign
  chk (b.length ≤ 2 ^ 28) stBounds
  chk ((x.nRoutes != 0 || at4 b 28 == 0) && (x.nSets != 0 || at4 b 32 == 0)) stBad
  chk ((x.parts.take 5).all fun p => p.1 + p.2 ≤ b.length) stBounds
  chkAll (List.range x.nStations) (stationCheck x)
  chk ((List.range x.nSlots).all (slotCheck x)) stBad
  chkAll (List.range x.nSets) (setCheck x)
  chkAll (List.range x.nRoutes) (routeCheck x)
  let recs := (List.range x.nStations).map fun st => (x.recordIndex st, x.progLen st)
  chk (disjointAll x.parts) stOverlap
  chk (recs.all fun r => r.2 == 0 || r.1 + r.2 ≤ at4 b 64) stBounds
  chk (disjointAll recs) stOverlap

/-! ### Step 4: registers (R197, R198) -/

/-- One register declaration and its INIT value. -/
def State.declCheck (s : State) (h : Nat) (x : Section) (r : Nat) : Chk := do
  let o := 128 + 24 * r
  chk (fld (at1 x.img o) 2 6 == 0 && zeros x.img (o + 1) 3 && x.regKind r != 3 && (x.regKind r == 2 || x.regObj r == 0)) stBad
  if x.regKind r = 0 then .ok ()
  else
    let e := (s.updSec h fun _ => x).regCheck h r (x.regInit r)
    chk (e == 0) e

/-! ### Step 5: chains (R234, R235) -/

/-- A handle names a chain buffer. -/
def Section.isChainBuf (x : Section) (h : Nat) : Bool := h != 0 && (x.desc h).isChain

/-- Chain buffers that a word reads, and those it writes. -/
def chainReads (x : Section) (w : List Byte) : List Nat := ((cHandles w).filter fun e => !e.2 && x.isChainBuf e.1).map Prod.fst
def chainWrites (x : Section) (w : List Byte) : List Nat := ((cHandles w).filter fun e => e.2 && x.isChainBuf e.1).map Prod.fst

/-- Vector commands, and the quantisation commands that a chain may hold. -/
def isVectorOp (op : Nat) : Bool := op / 32 == 1
def isQuantOp (op : Nat) : Bool := op == 0x41 || op == 0x42 || op == 0x43

/-- A member may stand at its place: the first, or after a given member (R234). -/
def memberOk (x : Section) (prev : Option (List Byte)) (w : List Byte) : Bool :=
  let op := cOp w
  match prev with
  | none => op == 0x00 || op == 0x80 || (isVectorOp op && op != 0x27) || isQuantOp op
  | some p => isVectorOp op || isQuantOp op || (op == 0x00 && cOp p == 0x41 && (chainWrites x p).contains (at2 w 8))

/-- A member that works along the whole of dimension 0 (R235). -/
def wholeDim0 (w : List Byte) : Bool :=
  (cOp w == 0x21 && vDim w == 0) || [0x22, 0x23, 0x26, 0x27].contains (cOp w)

/-- Bytes of one tile of a chain buffer: its data and its scale section (R235, R249). -/
def tileBytes (d : Desc) (f : Nat) : Nat :=
  d.tileRows * roundUp (cdiv (d.tileCols * fmtBits f) 8) 64 + (if d.scaled then roundUp (d.tileRows * d.tileCols / 32) 64 else 0)

/-- The structure of one chain (R234, R235). -/
def chainCheck (x : Section) (st i : Nat) : Chk := do
  let w := x.word st i
  let ms := x.chainWords st i
  chk (i + at1 w 8 < x.progLen st && ms.all cChain && ms.all fun m => cLoop0 m == cLoop0 (ms.headD []) && cLoop1 m == cLoop1 (ms.headD [])) stBad
  chk (if x.kind st = 0 then cOp (ms.headD []) == 0x00 else if x.kind st = 2 then cOp (ms.headD []) == 0x80 else true) stBad
  chk (allIdx ms fun j m => memberOk x (if j = 0 then none else ms[j - 1]?) m
    && (chainReads x m).all fun h => j != 0 && (chainWrites x (ms.getD (j - 1) [])).contains h) stBad
  chk ((chainWrites x (ms.getLastD [])).isEmpty && ms.all fun m => (chainWrites x m).isEmpty || cSatPol m != 1) stBad
  let c := x.worst 0 st
  chk (ms.all fun m => !wholeDim0 m || (chainReads x m ++ chainWrites x m).all fun h => (c.tref h).e 0 ≤ (x.desc h).tileCols) stBad
  chk (ms.all fun m => (chainReads x m ++ chainWrites x m).all fun h => tileBytes (x.desc h) (x.desc h).fmt ≤ 131072) stCapacity

/-- The chains of a station's program; outside them no command has its CHAIN bit set, and none names a chain buffer. -/
def chainsCheck (x : Section) (st : Nat) : Chk :=
  chkAll (x.starts st) fun i => do
    let w := x.word st i
    chk (!cChain w && (cHandles w).all fun e => !x.isChainBuf e.1) stBad
    if cOp w = 0xE2 then chainCheck x st i else .ok ()

/-! ### Step 5: widening (R170) -/

/-- Every word of a section's programs with its station. -/
def Section.allWords (x : Section) : List (Nat × List Byte) :=
  (List.range x.nStations).flatMap fun st => (List.range (x.progLen st)).map fun i => (st, x.word st i)

/-- Two handles name the same tensor: the same handle, or the same route. -/
def Section.sameTensor (x : Section) (g h : Nat) : Bool :=
  g == h || ((x.desc g).space == 3 && (x.desc h).space == 3 && !(x.desc h).isChain && (x.desc g).route == (x.desc h).route)

/-- The formats that a descriptor can reach in the section (R168, R170). -/
def Section.reach (x : Section) (h : Nat) : List Nat :=
  if x.allWords.any fun e => cSatPol e.2 == 1 && x.sameTensor (at2 e.2 (mainDst (cOp e.2))) h then reachFmts (x.desc h).fmt
  else [(x.desc h).fmt]

/-- A command with policy WIDEN: every wider format fits the destination and suits its readers. -/
def State.widenOk (s : State) (x : Section) (sec st : Nat) (w : List Byte) : Bool :=
  let h := at2 w (mainDst (cOp w))
  let d := x.desc h
  let c := x.worst sec st
  (reachFmts d.fmt).drop 1 |>.all fun f =>
    let t := { c.tref h with fmt := f }
    (d.space == 3 || ((c.feet t).1.all (s.footOk c) && destOk c t && (!d.constExt || t.e 0 % fmtMultiple f == 0)))
      && x.allWords.all fun (_, v) =>
        !((cHandles v).any fun e => !e.2 && x.sameTensor e.1 h)
          || formatsOk x (fun k => if k != 0 && x.sameTensor k h then f else (x.desc k).fmt) v

/-! ### Step 5: multicast (R224) and the record area (R247) -/

/-- Every MCAST is paired, with one of its format (R224). -/
def mcastsOk (x : Section) : Bool :=
  x.mcasts.all fun e =>
    let w := x.word e.1 e.2
    if mcSender w then (x.setMembers (at2 w 12)).all fun st =>
      (x.mcTargets e.1 e.2).any fun t => t.1 == st && (x.desc (at2 (x.word t.1 t.2) 10)).fmt == (x.desc (at2 w 8)).fmt
    else (x.mcSource e.1 e.2).isSome

/-- The record area is mapped writable, sub-page by sub-page. -/
def State.recordMapped (s : State) (ctx base n : Nat) : Bool :=
  n == 0 || (tab ((base + n - 1) / 65536 - base / 65536 + 1) fun i => max base ((base / 65536 + i) * 65536)).all fun va =>
    match (s.translate { ctx } va true).1 with
    | .ok _ => true
    | .error _ => false

/-- The HBM range in which a descriptor's data can lie: its footprint, or the object its register points into. -/
def State.descRange (s : State) (c : Cx) (f : Foot) : Int × Nat :=
  match f.reg with
  | none => (f.lo, f.n)
  | some r =>
    let o := s.ob (c.x.regObj r)
    match o.maps.find? fun m => m.ctx == c.ctx with
    | some m => (m.va, o.size)
    | none => (0, 0)

/-- A descriptor whose BASE some command uses, or that no command names. -/
def Section.placed (x : Section) (h : Nat) : Bool :=
  let us := x.allWords.filter fun e => (cHandles e.2).any fun k => k.1 == h
  us.isEmpty || us.any fun e => !paged e.2 h

/-- Every descriptor whose BASE is used lies in its allocation, and every one apart from the record area. -/
def State.placesOk (s : State) (x : Section) (sec : Nat) : Chk := do
  let c := x.worst sec 0
  let n := 32 * at4 x.img 64
  let hs := (List.range x.nDesc).map (· + 1)
  let feetOf := fun (h : Nat) => if (x.desc h).space < 2 then let f := c.feet (c.tref h); f.1 ++ f.2 else []
  let feet := hs.flatMap feetOf
  chk ((hs.filter x.placed).all fun h => (feetOf h).all (s.footOk c)) stBounds
  chk (s.recordMapped x.ctx x.recordBase n) stBounds
  chk (feet.all fun f => f.space != 0 || f.n == 0 ||
    (let (lo, k) := s.descRange c f; decide (lo + k ≤ x.recordBase) || decide ((x.recordBase + n : Int) ≤ lo))) stOverlap

/-- Step 5 of R260. -/
def State.commandsCheck (s : State) (x : Section) (h : Nat) : Chk := do
  chkAll ((List.range x.nDesc).map (· + 1)) (descCheck x)
  chkAll (List.range x.nStations) (chainsCheck x)
  chkAll x.allWords fun e => s.wordCheck x h e.1 e.2
  chk (x.allWords.all fun e => !(cOp e.2 == 0x85 && at4 e.2 12 == h)) stBad
  chk (mcastsOk x) stBad
  s.placesOk x h
  chkAll x.allWords fun e => chk (cSatPol e.2 != 1 || s.widenOk x h e.1 e.2) stCapacity

/-! ### Step 6: routes and groups (R248, R252, R253, R257, R259, R372) -/

/-- The commands of a station's program that write, or read, a route, in order: their loop fields, and the handles by which they name
it. -/
def Section.routeUses (x : Section) (st r : Nat) (writes : Bool) : List (Nat × Nat × List Nat) :=
  (List.range (x.progLen st)).filterMap fun i =>
    let w := x.word st i
    let hs := (cHandles w).filterMap fun (h, d) =>
      if d == writes && (x.desc h).space == 3 && !(x.desc h).isChain && (x.desc h).route == r then some h else none
    if hs.isEmpty then none else some (cLoop0 w, cLoop1 w, hs)

/-- Descriptors of one route agree (R248): formats differ only by widening. -/
def frameAlike (a b : Desc) : Bool :=
  (a.b.drop 1).take 7 == (b.b.drop 1).take 7 && (a.b.drop 24).take 36 == (b.b.drop 24).take 36
    && ((reachFmts a.fmt).contains b.fmt || (reachFmts b.fmt).contains a.fmt)

/-- One route and the commands that use it (R248, R252). -/
def routeUseCheck (x : Section) (r : Nat) : Chk := do
  let d := x.desc (x.routeDesc r)
  chk (d.space == 3 && d.route == r) stBad
  let ws := x.routeUses (x.producer r) r true
  chk (allIdx (List.replicate x.nStations ()) fun st _ =>
    ((x.routeUses st r true).isEmpty || st == x.producer r) && ((x.routeUses st r false).isEmpty || (x.consumers r).contains st)) stBad
  chk ((x.consumers r).all fun st =>
    let rs := x.routeUses st r false
    rs.length == ws.length && (ws.zip rs).all fun (a, b) => a.1 == b.1 && a.2.1 == b.2.1
      && (a.2.2 ++ b.2.2).all fun h => frameAlike d (x.desc h)) stBad

/-- Buffer kinds of R245: 1 west feeder, 2 north feeder, 3 working store, 4 core memory. -/
def Section.bufFits (x : Section) (r st kind : Nat) : Bool :=
  let reads := (List.range (x.progLen st)).filterMap fun i =>
    let w := x.word st i
    if (cHandles w).any fun (h, d) => !d && (x.desc h).space == 3 && (x.desc h).route == r then some w else none
  let input := fun (w : List Byte) => (x.desc (at2 w 8)).space == 3 && (x.desc (at2 w 8)).route == r && at2 w 8 != 0
  match kind with
  | 1 => x.kind st == 0 && reads.all fun w => (cOp w == 0x00 && mMode w != 1 || cOp w == 0x01) && input w
  | 2 => x.kind st == 0 && reads.all fun w => cOp w == 0x00 && mMode w == 1 && input w
  | 3 => x.kind st == 1
  | _ => true

/-- The buffer of a route at a consumer (R253). -/
def Section.bufKind (x : Section) (r st : Nat) : Nat :=
  if x.buf r != 0 then x.buf r
  else if x.bufFits r st 1 then 1 else if x.bufFits r st 2 then 2 else if x.bufFits r st 3 then 3 else 4

/-- Bytes reserved for a route at each consumer: DEPTH frames of the widest format that it can reach through any descriptor that
names it (R253). -/
def Section.bufBytes (x : Section) (r : Nat) : Nat :=
  let d := x.desc (x.routeDesc r)
  let hs := ((List.range x.nDesc).map (· + 1)).filter fun h => (x.desc h).space == 3 && !(x.desc h).isChain && (x.desc h).route == r
  x.depth r * (((x.routeDesc r :: hs).flatMap x.reach).map fun f => 64 + tileBytes d f).foldl max 0

/-- Buffer bytes of one kind at a station. -/
def Section.bufAt (x : Section) (st kind : Nat) : Nat :=
  ((List.range x.nRoutes).map fun r => if (x.consumers r).contains st && x.bufKind r st == kind then x.bufBytes r else 0).sum

/-- Commands that hold back later ones of a group: synchronisation between its members (R259). -/
def Section.syncInGroup (x : Section) (g : List (Nat × Nat)) : Bool :=
  g.any fun e => (x.starts e.1).any fun i =>
    decide (e.2 < i) && cOp (x.word e.1 i) / 32 == 5 && g.any fun f => f.1 == e.1 && decide (i < f.2)

/-- One group (R257, R259, R372). -/
def groupCheck (x : Section) (h : Nat) (g : List (Nat × Nat)) : Chk := do
  let feet := fun (e : Nat × Nat) => (x.worst h e.1).feetOf (x.wordsAt e.1 e.2)
  let held := x.waiters g (fun e f => (x.worst h e.1).dependsOn (x.worst h f.1) (x.wordsAt e.1 e.2) (x.wordsAt f.1 f.2)) x.nCommands []
  chk (g.all fun m => (g ++ held).all fun d => d == m || (feet d).2.all fun a => (feet m).1.all fun b => !a.meets b) stOverlap
  chk (!x.syncInGroup g) stBad
  chk (g.length ≤ 256) stCapacity

/-- The stream groups of a section. -/
def Section.groups (x : Section) : List (List (Nat × Nat)) := (x.routeUsers.map fun u => x.group u.1 u.2.1).dedup

/-- Step 6 of R260. -/
def routesCheck (x : Section) (h : Nat) : Chk := do
  chkAll (List.range x.nRoutes) (routeUseCheck x)
  chk ((List.range x.nRoutes).all fun r => (x.consumers r).all fun st => x.buf r == 0 || x.bufFits r st (x.buf r)) stBad
  chkAll x.groups (groupCheck x h)

/-! ### Step 8: placement (R263 to R266) -/

/-- The cores present in a partition, ascending (R263). -/
def State.partCores (s : State) (p : Nat) : List Nat :=
  (List.range 480).filter fun g => s.corePresent g && bit (s.pt p).groups (g / 8)

/-- A page is FREE: also one that boot zeroed and nothing has used since (R118, R120). -/
def State.pageFree (s : State) (p : Page) : Bool := p.st == 0 || (p.fresh && s.chip.booted && p.st == 2)

/-- FREE core-memory pages of a core, and reservoir pages of a cluster, ascending. -/
def State.freeCm (s : State) (c : Nat) : List Nat := (tab 32 fun i => 32 * c + i).filter fun k => s.pageFree (s.chip.cmPages.get {} k)
def State.freeRs (s : State) (c : Nat) : List Nat := (tab 1024 fun i => 1024 * c + i).filter fun k => s.pageFree (s.chip.rsPages.get {} k)

/-- Bytes of feeders and working stores lent on a unit to the buffers of resident sections (R253). -/
def State.lent (s : State) (u kind : Nat) : Nat :=
  ((s.un u).binds.map fun b => (s.sec b.1).bufAt b.2 kind).sum

/-- The pan of a pan station within its slot (R244). -/
def Section.panOf (x : Section) (st : Nat) : Nat :=
  b2n ((List.range st).any fun t => x.kind t == 0 && x.slot t == x.slot st)

/-- Pages of core memory that a slot's stations take, and those of its route buffers. -/
def Section.slotPages (x : Section) (slot : Nat) : Nat := ((x.slotStations slot).map fun st => x.cmBytes st / 65536).sum
def Section.slotBufPages (x : Section) (slot : Nat) : Nat := cdiv (((x.slotStations slot).map fun st => x.bufAt st 4).sum) 65536

/-- fits() of R264. -/
def State.fits (s : State) (x : Section) (slot c : Nat) : Bool :=
  let sts := x.slotStations slot
  let bound := fun (u : Nat) => (s.un u).binds.length
  sts.all (fun st =>
    if x.kind st = 0 then
      let u := 5 * c + x.panOf st
      decide (bound u < 8) && decide (s.lent u 1 + x.bufAt st 1 ≤ 49152) && decide (s.lent u 2 + x.bufAt st 2 ≤ 49152)
    else if x.kind st = 1 then decide (bound (5 * c + 2) < 8) && decide (s.lent (5 * c + 2) 3 + x.bufAt st 3 ≤ 98304)
    else true)
  && decide (bound (5 * c + 3) + (sts.filter fun st => x.kind st == 2 || x.kind st == 5).length ≤ 8)
  && decide (x.slotPages slot + x.slotBufPages slot ≤ (s.freeCm c).length)

/-- place() of R263: slots from a slot on, over the cores that are left. -/
def State.place (s : State) (x : Section) : Nat → Nat → List Nat → Option (List Nat)
  | 0, _, _ => some []
  | n + 1, slot, cores =>
    match cores.dropWhile fun c => !s.fits x slot c with
    | [] => none
    | c :: rest => (s.place x n (slot + 1) rest).map (c :: ·)

/-- A part assigned to a partition that exports a SOFT_ID (R265). -/
def State.softPart (s : State) (p id : Nat) : Option Nat :=
  (List.range 40).find? fun q => bit (s.pt p).regions.toNat q && s.partPresent q && (s.xp q).softIds.contains id

/-- Whether a service is open to a context (R422). -/
def Svc.openTo (v : Svc) (c : Nat) : Bool := [v.open0, v.open1, v.open2, v.open3].getD (c / 64) 0 |>.getLsbD (c % 64)

/-- Soft, host-core and horizon stations bind (R265); service 0, the Crystallizer, is always there and open to every context. -/
def State.bindable (s : State) (x : Section) : Bool :=
  (List.range x.nStations).all fun st =>
    if x.kind st = 3 then (s.softPart x.part (x.bind st)).isSome
    else if x.kind st = 4 then x.bind st == 0 || ((s.svc (x.bind st)).st == 2 && (s.svc (x.bind st)).openTo x.ctx)
    else if x.kind st = 5 then (List.range 36).any s.portPresent
    else true

/-- Clusters in the order in which the reservoir's pages are taken (R266). -/
def State.resOrder (s : State) (x : Section) (cores : List Nat) : List Nat :=
  let first := ((List.range x.nStations).find? fun st => x.kind st == 2 && x.sub st == 1).map fun st => cores.getD (x.slot st) 0 / 48
  (first.toList ++ (cores.map (· / 48)).dedup.mergeSort (fun a b => decide (a ≤ b)) ++ (List.range 10).filter s.clPresent).reverse.dedup.reverse

/-- A section with the cores, pages and parts that placement gives it, or the status of what is short (steps 8 and 9). -/
def State.placed (s : State) (x : Section) : Except Nat Section := do
  match s.place x x.nSlots 0 (s.partCores x.part) with
  | none => throw stCapacity
  | some cores =>
    chk (s.bindable x) stAbsent
    let resident := s.secs.filter fun e => !e.2.swapped
    let cls := (cores.map (· / 48)).dedup
    let on := fun (c : Nat) => resident.filter fun e => e.2.clusters.contains c
    chk ((resident.filter fun e => e.2.ctx == x.ctx).length < 64) stCapacity
    chk (cls.all fun c => (on c).length < 64) stCapacity
    chk (cls.all fun c => ((on c).map fun e => e.2.nDesc).sum + x.nDesc ≤ 16384) stCapacity
    let n := x.resBytes / 65536
    let res := ((s.resOrder x cores).flatMap s.freeRs).take n
    chk (res.length == n) stCapacity
    let take := fun (slot : Nat) => (s.freeCm (cores.getD slot 0)).take (x.slotPages slot + x.slotBufPages slot)
    let cm := tab x.nStations fun st =>
      if x.runs st then
        let before := (((x.slotStations (x.slot st)).filter (· < st)).map fun t => x.cmBytes t / 65536).sum
        ((take (x.slot st)).drop before).take (x.cmBytes st / 65536)
      else []
    let soft := (List.range x.nStations).filterMap fun st => if x.kind st = 3 then (s.softPart x.part (x.bind st)).map fun p => (st, p) else none
    pure { x with
      cores, resPages := res, cmPages := cm, softParts := soft
      bufPages := (List.range x.nSlots).flatMap fun slot => (take slot).drop (x.slotPages slot) }

/-- Pages moved from FREE to OWNED (R118). -/
def own (t : Tbl Page) (ps : List Nat) (c : Nat) : Tbl Page :=
  ps.foldl (fun t p => t.upd {} p fun x => { fresh := false, owner := c, st := 1, storedErr := x.storedErr }) t

/-- What a placed section takes: pages, unit bindings, and its place among the sections (step 10 of R260, R388). -/
def State.takeHoldings (s : State) (h : Nat) (x : Section) : State :=
  let s := { s with chip := { s.chip with
    cmPages := own s.chip.cmPages (x.cmPages.flatten ++ x.bufPages) x.ctx
    rsPages := own s.chip.rsPages x.resPages x.ctx } }
  let s := { s with secs := s.secs.put h x }
  (List.range x.nStations).foldl (fun s st =>
    match x.unitOf st with
    | none => s
    | some u =>
      let bind := fun (s : State) (v : Nat) => s.updUn v fun q => { q with binds := q.binds ++ [(h, st)] }
      if x.kind st = 1 then bind (bind s u) (u + 2) else bind s u) s

/-- Objects that a section's register declarations name (R302). -/
def Section.declObjs (x : Section) : List Nat := ((List.range 64).filterMap fun r => if x.regKind r = 2 then some (x.regObj r) else none).dedup

end Sys2Proof.Machine
end

