-- ==== Sys2Proof/Machine/Admission.lean ====
section
/-! DEFINITION. The admission of sections: the WCET of a run as far as R382 gives its terms, and the refusals of R383 (R5, R381 to
R383). Times are in ps; wait is PREEMPT_WAIT in 10 ns, rate the floor rate of ADMIT_OP in M steps/s. -/

namespace Sys2Proof.Machine

/-- Steps in ps (R5). -/
def stepsPs (n rate : Nat) : Nat := n * 1000000 / rate

/-! ### Steps of one command (R105, R111, R129, R130, R133, R165) -/

/-- Steps of back-to-back pan operations, each with its set and its own steps: their sum with the waits of R105, by which two changes of
set are at least 384 steps apart. -/
def runSteps (ops : List (Option SetKey × Nat)) : Nat :=
  (ops.foldl (fun (acc : Nat × Nat × Option SetKey) (o : Option SetKey × Nat) =>
    let (t, d, cur) := acc
    if o.1.isNone ∨ o.1 = cur then (t + o.2, d + o.2, cur)
    else (t + (if cur.isNone then 0 else 384 - d) + o.2, o.2, o.1)) (0, 0, none)).1

/-- Stationary operations with the steps of each: rows of its M-tile, once for each activation piece, at the weight's steps per piece. -/
def stationarySteps (ops : List (Option SetKey)) (perTile rows m steps : Nat) : List (Option SetKey × Nat) :=
  let mts := max 1 (cdiv m rows)
  ops.mapIdx fun i o => (o, min rows (m - rows * (i / max 1 perTile % mts)) * steps)

/-- Steps of a matrix command on a cold pan, with 128 for its first set (R111, R382). -/
def Cx.matrixSteps (c : Cx) (w : List Byte) : Nat :=
  let loops := c.loops w
  if cOp w = 0x00 then
    let a := c.tref (at2 w 8)
    let b := c.tref (at2 w 10)
    let sw := fmtSteps b.fmt
    if mMode w = 2 then 48 + (c.panOps w).length * 128 * sw + 451
    else
      let tr := mMode w == 1
      let per := fmtPieces b.fmt * (if tr then cdiv (b.e 1) 128 else cdiv (b.e 0) 256)
      128 + 48 + runSteps (stationarySteps (c.panOps w) per (if tr then 32 else 64) (a.e 1) (fmtPieces a.fmt * sw)) + 387
  else
    let q := c.tref (at2 w 8)
    let kk := c.tref (at2 w 10)
    let v := c.tref (at2 w 12)
    let scores := cdiv (q.e 1) 64 * 2 * cdiv (q.e 0) 256 * fmtPieces kk.fmt * fmtPieces q.fmt
    let sets := (iterations loops).flatMap fun i => (List.range (cdiv (kk.e 1) 256)).flatMap fun t =>
      (stationaryOps 256 (v.e 0) (q.e 1) (fmtPieces v.fmt) 64 false (outerOf v.ext loops i)).map fun s => s.map fun x => (t, x.2.1, x.2.2)
    let tiles := (iterations loops).length * cdiv (kk.e 1) 256
    128 + 48 + tiles * (scores * 128 * fmtSteps kk.fmt + 451 + 387)
      + runSteps (stationarySteps sets (fmtPieces v.fmt) 64 (q.e 1) ((fld (at1 w 25) 6 2 + 1) * fmtSteps v.fmt))

/-- Steps of the side path of a MATMUL with outliers: tile by tile on the 256 vector lanes (R165). -/
def Cx.sideSteps (c : Cx) (w : List Byte) : Nat :=
  if cOp w != 0x00 || at2 w 14 == 0 then 0
  else
    let d := c.tref (at2 w 12)
    let n := (c.tref (at2 w 14)).e 0
    (iterations (c.loops w)).length * ((List.range (cdiv (d.e 1) 64)).flatMap fun i => tab (cdiv (d.e 0) 128) fun j =>
      cdiv (min 64 (d.e 1 - 64 * i) * min 128 (d.e 0 - 128 * j) * n) 256).sum

/-- Bytes that a transfer moves. -/
def Cx.movedBytes (c : Cx) (w : List Byte) : Nat := ((cHandles w).map fun e => c.windowBytes (c.tref e.1)).foldl max 0

/-- The steps c of one word (R382): once for each format that a command with policy WIDEN can reach (R171). -/
def Cx.wordSteps (c : Cx) (w : List Byte) : Nat :=
  let op := cOp w
  let n :=
    if op / 32 = 0 then c.matrixSteps w + c.sideSteps w
    else if op = 0x40 then cdiv (prodL (c.tref (at2 w 8)).ext) 256
    else if op / 32 < 4 then c.vectorSteps w
    else if op / 32 = 4 ∨ op / 32 = 6 then cdiv (c.movedBytes w) 512
    else 0
  if cSatPol w = 1 then n * (c.x.reach (at2 w (mainDst op))).length else n

/-! ### The graph of R381 and R382 -/

/-- A node's commands: a stream group, or one command. -/
abbrev Node := List (Nat × Nat)

/-- The nodes of a section. -/
def Section.nodes (x : Section) : List Node :=
  ((List.range x.nStations).flatMap fun st => (x.starts st).map fun i => x.group st i).dedup

/-- The time t(n) of a node in ps, without the term a. -/
def Section.nodePs (x : Section) (h wait rate : Nat) (n : Node) : Nat :=
  let words := n.flatMap fun e => (if cOp (x.word e.1 e.2) = 0xE2 then x.chainWords e.1 e.2 else [x.word e.1 e.2]).map fun w => (e.1, w)
  let heads := n.map fun e => x.word e.1 e.2
  let queued := heads.any fun w => cOp w / 32 < 5 || cOp w == 0xE2
  let steps := (words.map fun e => (x.worst h e.1).wordSteps e.2).sum
  let calls := (heads.map fun w => if cOp w = 0xE3 ∨ cOp w = 0xE4 then 1000 * timeoutNs (at2 w 24) else 0).sum
  stepsPs 64 rate + (if queued then 10000 * wait + 1500000 else 0) + steps * 64 * 1000000 / (63 * rate) + calls
    + 2000000 * (words.filter fun e => cOp e.2 / 32 == 0).length + stepsPs (256 + 4 * n.length) rate

/-- The generation of a BARRIER: its ID and its place among those of the ID in its program. -/
def Section.barrierKey (x : Section) (st i : Nat) : Nat × Nat :=
  let id := fld (at1 (x.word st i) 8) 0 4
  (id, (x.barriers st id).findIdx fun j => j == i)

/-- An edge from one command to another (R382): program order, but not back into a group that the program has entered; a BARRIER
generation; MCAST; a SIGNAL and a WAIT that it can satisfy. -/
def Section.edge (x : Section) (e f : Nat × Nat) : Bool :=
  let barriersOf := fun (st : Nat) => (x.starts st).filter fun i => cOp (x.word st i) == 0xA3
  let v := x.word e.1 e.2
  let w := x.word f.1 f.2
  let value := fun (u : List Byte) => if bit (at1 u 14) 1 then none else some (at8 u 16)
  (e.1 == f.1 && decide (e.2 < f.2) && (x.group f.1 f.2).all fun g => g.1 != e.1 || decide (e.2 < g.2))
    || (e.1 != f.1 && (barriersOf e.1).any fun i => decide (e.2 ≤ i) && (barriersOf f.1).any fun j => decide (j < f.2) && x.barrierKey e.1 i == x.barrierKey f.1 j)
    || (cOp v == 0x83 && (x.mcTargets e.1 e.2).contains f)
    || (e.1 != f.1 && cOp v == 0xA1 && !bit (at1 v 14) 0 && cOp w == 0xA0 && at4 v 8 == at4 w 8 && kLe (value w) (value v))

/-- The longest path that ends in each node, by rounds; cost: the nodes with their times. -/
def longest (edge : Node → Node → Bool) (cost : List (Node × Nat)) : Nat → List (Node × Nat)
  | 0 => cost
  | k + 1 =>
    let d := longest edge cost k
    cost.map fun (n, t) => (n, t + ((d.filter fun p => p.1 != n && edge p.1 n).map Prod.snd).foldl max 0)

/-- The longest path of a section's graph in ps. -/
def Section.pathPs (x : Section) (h wait rate : Nat) : Nat :=
  let ns := x.nodes
  let edge := fun (a b : Node) => a.any fun e => b.any fun f => x.edge e f
  ((longest edge (ns.map fun n => (n, x.nodePs h wait rate n)) ns.length).map Prod.snd).foldl max 0

/-! ### Tokens (R375, R382) -/

/-- A worst-case footprint at a place where tokens can be counted: one relative to an address register lies at the start of its object
(DESIGN CHOICE, log entry 32). -/
def State.laid (s : State) (c : Cx) (f : Foot) : Foot :=
  match f.reg with
  | none => f
  | some _ => { f with reg := none, lo := (s.descRange c f).1 + f.lo }

/-- Tokens of the frames that a command writes on routes, at the hub links. -/
def State.routeTokens (s : State) (c : Cx) (w : List Byte) : List (Nat × Nat) :=
  let cl := fun (st : Nat) => (c.x.coreOf st).map (· / 48)
  ((cHandles w).filter fun e => e.2 && (c.x.desc e.1).space == 3 && !(c.x.desc e.1).isChain).flatMap fun e =>
    let t := c.tref e.1
    let lines := ((t.frames 0 0 [] [] true).map fun f => cdiv (cdiv (f.rows * f.cols * fmtBits t.fmt) 8 + (if t.d.scaled then cdiv (f.rows * f.cols) 32 else 0)) 64).sum
    (((c.x.consumers t.d.route).map cl).dedup).flatMap fun d => s.hubTokens c.x.part (cl c.st) d lines

/-- All tokens of a run's requests, by sluice instance. -/
def State.runTokens (s : State) (x : Section) (h : Nat) : List (Nat × Nat) :=
  (addTokens (x.allWords.flatMap fun (st, w) =>
    let c := x.worst h st
    let (src, dst) := c.cmdFeet w
    let lines := fun (o : Nat) => if at2 w o = 0 then 0 else cdiv (c.windowBytes (c.tref (at2 w o))) 64
    s.feetTokens c false (src.map (s.laid c)) ++ s.feetTokens c true (dst.map (s.laid c)) ++ s.routeTokens c w
      ++ (if cOp w / 32 = 6 then [(sluKey x.part .hzn 0, lines 8), (sluKey x.part .hzn 1, lines 10)] else []))).filter fun e => e.2 != 0

/-! ### Step 7 of R260 -/

/-- The WCET of one run in ps without the term a and the parts of c that the placement's paths give (R381, R382; log entry 32). -/
def State.wcetFloor (s : State) (x : Section) (h : Nat) : Nat :=
  let p := s.pt x.part
  let rate := floorRate p.admitOp
  let slu := ((s.runTokens x h).map fun e => 1000000 * e.2 / sluRate (s.sluOfKey e.1) + 1000000).sum
  let t := stepsPs 512 rate + x.pathPs h (fld p.rt.toNat 8 12) rate + slu
  t + 2000000 * (cdiv t 1000000000 + 1)

/-- The refusals of R383 that need no WCET: host-window reads, RATE 0 at an instance used, BELOW, OVERSUB, and the
time-degraded flag. -/
def State.admitRefused (s : State) (x : Section) (h : Nat) : Bool :=
  let p := s.pt x.part
  let srcs := x.allWords.flatMap fun e => ((x.worst h e.1).cmdFeet e.2).1.map fun f => (e.1, f)
  srcs.any (fun e => s.footHost (x.worst h e.1) e.2) || (s.runTokens x h).any (fun e => sluRate (s.sluOfKey e.1) == 0)
    || p.below || p.oversub || s.time.degraded

/-- Step 7 of R260 for an admitted section, on the section as placement would place it; extra: how far the WCET lies above the floor,
in ns (log entry 32). -/
def State.admits (s : State) (x : Section) (h extra : Nat) : Bool :=
  let y := match s.placed x with
    | .ok y => y
    | .error _ => x
  !s.admitRefused y h && decide (s.wcetFloor y h + 1000 * extra ≤ 1000 * x.deadline)

end Sys2Proof.Machine
end

