-- ==== Sys2Proof/Machine/Crypto.lean ====
section
/-! DEFINITION. The public algorithms the manual names by their standards: SHA-384 and HMAC (FIPS 180-4, FIPS 198-1),
AES-256-GCM (FIPS 197, SP 800-38D) and ECDSA over P-384 (FIPS 186-5). -/

namespace Sys2Proof.Machine

/-- Round constants 0 to 19 of SHA-512 (FIPS 180-4). -/
def shaK0 : List Word := [
  0x428A2F98D728AE22, 0x7137449123EF65CD, 0xB5C0FBCFEC4D3B2F, 0xE9B5DBA58189DBBC,
  0x3956C25BF348B538, 0x59F111F1B605D019, 0x923F82A4AF194F9B, 0xAB1C5ED5DA6D8118,
  0xD807AA98A3030242, 0x12835B0145706FBE, 0x243185BE4EE4B28C, 0x550C7DC3D5FFB4E2,
  0x72BE5D74F27B896F, 0x80DEB1FE3B1696B1, 0x9BDC06A725C71235, 0xC19BF174CF692694,
  0xE49B69C19EF14AD2, 0xEFBE4786384F25E3, 0xFC19DC68B8CD5B5, 0x240CA1CC77AC9C65]

/-- Round constants 20 to 39 of SHA-512 (FIPS 180-4). -/
def shaK1 : List Word := [
  0x2DE92C6F592B0275, 0x4A7484AA6EA6E483, 0x5CB0A9DCBD41FBD4, 0x76F988DA831153B5,
  0x983E5152EE66DFAB, 0xA831C66D2DB43210, 0xB00327C898FB213F, 0xBF597FC7BEEF0EE4,
  0xC6E00BF33DA88FC2, 0xD5A79147930AA725, 0x6CA6351E003826F, 0x142929670A0E6E70,
  0x27B70A8546D22FFC, 0x2E1B21385C26C926, 0x4D2C6DFC5AC42AED, 0x53380D139D95B3DF,
  0x650A73548BAF63DE, 0x766A0ABB3C77B2A8, 0x81C2C92E47EDAEE6, 0x92722C851482353B]

/-- Round constants 40 to 59 of SHA-512 (FIPS 180-4). -/
def shaK2 : List Word := [
  0xA2BFE8A14CF10364, 0xA81A664BBC423001, 0xC24B8B70D0F89791, 0xC76C51A30654BE30,
  0xD192E819D6EF5218, 0xD69906245565A910, 0xF40E35855771202A, 0x106AA07032BBD1B8,
  0x19A4C116B8D2D0C8, 0x1E376C085141AB53, 0x2748774CDF8EEB99, 0x34B0BCB5E19B48A8,
  0x391C0CB3C5C95A63, 0x4ED8AA4AE3418ACB, 0x5B9CCA4F7763E373, 0x682E6FF3D6B2B8A3,
  0x748F82EE5DEFB2FC, 0x78A5636F43172F60, 0x84C87814A1F0AB72, 0x8CC702081A6439EC]

/-- Round constants 60 to 79 of SHA-512 (FIPS 180-4). -/
def shaK3 : List Word := [
  0x90BEFFFA23631E28, 0xA4506CEBDE82BDE9, 0xBEF9A3F7B2C67915, 0xC67178F2E372532B,
  0xCA273ECEEA26619C, 0xD186B8C721C0C207, 0xEADA7DD6CDE0EB1E, 0xF57D4F7FEE6ED178,
  0x6F067AA72176FBA, 0xA637DC5A2C898A6, 0x113F9804BEF90DAE, 0x1B710B35131C471B,
  0x28DB77F523047D84, 0x32CAAB7B40C72493, 0x3C9EBE0A15C9BEBC, 0x431D67C49C100D4C,
  0x4CC5D4BECB3E42B6, 0x597F299CFC657E2A, 0x5FCB6FAB3AD6FAEC, 0x6C44198C4A475817]

/-- Every round constant. -/
def shaK : List Word := shaK0 ++ shaK1 ++ shaK2 ++ shaK3

/-- The initial value of SHA-384. -/
def sha384Iv : List Word := [
  0xCBBB9D5DC1059ED8, 0x629A292A367CD507, 0x9159015A3070DD17, 0x152FECD8F70E5939,
  0x67332667FFC00B31, 0x8EB44A8768581511, 0xDB0C2E0D64F98FA7, 0x47B5481DBEFA4FA4]

/-- The message schedule extended by n words; the newest sixteen are at the front. -/
def shaExpand : Nat → List Word → List Word
  | 0, w => w
  | n + 1, w =>
    let x := w.getD 14 0
    let y := w.getD 1 0
    let s0 := x.rotateRight 1 ^^^ x.rotateRight 8 ^^^ (x >>> 7)
    let s1 := y.rotateRight 19 ^^^ y.rotateRight 61 ^^^ (y >>> 6)
    shaExpand n ((w.getD 15 0 + s0 + w.getD 6 0 + s1) :: w)

/-- One round on the eight working words. -/
def shaRound (v : List Word) (kw : Word) : List Word :=
  match v with
  | [a, b, c, d, e, f, g, h] =>
    let s1 := e.rotateRight 14 ^^^ e.rotateRight 18 ^^^ e.rotateRight 41
    let t1 := h + s1 + ((e &&& f) ^^^ (~~~e &&& g)) + kw
    let s0 := a.rotateRight 28 ^^^ a.rotateRight 34 ^^^ a.rotateRight 39
    let t2 := s0 + ((a &&& b) ^^^ (a &&& c) ^^^ (b &&& c))
    [t1 + t2, a, b, c, d + t1, e, f, g]
  | v => v

/-- One block of 128 bytes absorbed. -/
def shaBlock (h : List Word) (b : List Byte) : List Word :=
  let w0 := (tab 16 fun i => BitVec.ofNat 64 (beNat ((b.drop (8 * i)).take 8))).reverse
  let ws := (shaExpand 64 w0).reverse
  let v := (List.zipWith (· + ·) shaK ws).foldl shaRound h
  List.zipWith (· + ·) h v

/-- Blocks absorbed in turn. -/
def shaBlocks : Nat → List Word → List Byte → List Word
  | 0, h, _ => h
  | n + 1, h, m => shaBlocks n (shaBlock h (m.take 128)) (m.drop 128)

/-- SHA-384. -/
def sha384 (m : List Byte) : List Byte :=
  let z := roundUp (m.length + 17) 128 - (m.length + 17)
  let p := m ++ [0x80] ++ List.replicate z 0 ++ beBytes 16 (8 * m.length)
  ((shaBlocks (p.length / 128) sha384Iv p).take 6).flatMap fun w => beBytes 8 w.toNat

/-- HMAC-SHA-384. -/
def hmac384 (key m : List Byte) : List Byte :=
  let k := if 128 < key.length then sha384 key else key
  let k := k ++ List.replicate (128 - k.length) 0
  sha384 ((k.map (· ^^^ 0x5C)) ++ sha384 ((k.map (· ^^^ 0x36)) ++ m))

/-! ### AES-256-GCM -/

/-- The substitution table of AES, first and second half. -/
def aesS0 : List Nat := [
  0x63, 0x7C, 0x77, 0x7B, 0xF2, 0x6B, 0x6F, 0xC5, 0x30, 0x1, 0x67, 0x2B, 0xFE, 0xD7, 0xAB, 0x76,
  0xCA, 0x82, 0xC9, 0x7D, 0xFA, 0x59, 0x47, 0xF0, 0xAD, 0xD4, 0xA2, 0xAF, 0x9C, 0xA4, 0x72, 0xC0,
  0xB7, 0xFD, 0x93, 0x26, 0x36, 0x3F, 0xF7, 0xCC, 0x34, 0xA5, 0xE5, 0xF1, 0x71, 0xD8, 0x31, 0x15,
  0x4, 0xC7, 0x23, 0xC3, 0x18, 0x96, 0x5, 0x9A, 0x7, 0x12, 0x80, 0xE2, 0xEB, 0x27, 0xB2, 0x75,
  0x9, 0x83, 0x2C, 0x1A, 0x1B, 0x6E, 0x5A, 0xA0, 0x52, 0x3B, 0xD6, 0xB3, 0x29, 0xE3, 0x2F, 0x84,
  0x53, 0xD1, 0x0, 0xED, 0x20, 0xFC, 0xB1, 0x5B, 0x6A, 0xCB, 0xBE, 0x39, 0x4A, 0x4C, 0x58, 0xCF,
  0xD0, 0xEF, 0xAA, 0xFB, 0x43, 0x4D, 0x33, 0x85, 0x45, 0xF9, 0x2, 0x7F, 0x50, 0x3C, 0x9F, 0xA8,
  0x51, 0xA3, 0x40, 0x8F, 0x92, 0x9D, 0x38, 0xF5, 0xBC, 0xB6, 0xDA, 0x21, 0x10, 0xFF, 0xF3, 0xD2]
def aesS1 : List Nat := [
  0xCD, 0xC, 0x13, 0xEC, 0x5F, 0x97, 0x44, 0x17, 0xC4, 0xA7, 0x7E, 0x3D, 0x64, 0x5D, 0x19, 0x73,
  0x60, 0x81, 0x4F, 0xDC, 0x22, 0x2A, 0x90, 0x88, 0x46, 0xEE, 0xB8, 0x14, 0xDE, 0x5E, 0xB, 0xDB,
  0xE0, 0x32, 0x3A, 0xA, 0x49, 0x6, 0x24, 0x5C, 0xC2, 0xD3, 0xAC, 0x62, 0x91, 0x95, 0xE4, 0x79,
  0xE7, 0xC8, 0x37, 0x6D, 0x8D, 0xD5, 0x4E, 0xA9, 0x6C, 0x56, 0xF4, 0xEA, 0x65, 0x7A, 0xAE, 0x8,
  0xBA, 0x78, 0x25, 0x2E, 0x1C, 0xA6, 0xB4, 0xC6, 0xE8, 0xDD, 0x74, 0x1F, 0x4B, 0xBD, 0x8B, 0x8A,
  0x70, 0x3E, 0xB5, 0x66, 0x48, 0x3, 0xF6, 0xE, 0x61, 0x35, 0x57, 0xB9, 0x86, 0xC1, 0x1D, 0x9E,
  0xE1, 0xF8, 0x98, 0x11, 0x69, 0xD9, 0x8E, 0x94, 0x9B, 0x1E, 0x87, 0xE9, 0xCE, 0x55, 0x28, 0xDF,
  0x8C, 0xA1, 0x89, 0xD, 0xBF, 0xE6, 0x42, 0x68, 0x41, 0x99, 0x2D, 0xF, 0xB0, 0x54, 0xBB, 0x16]
/-- SubBytes of one byte. -/
def aesSub (b : Byte) : Byte := BitVec.ofNat 8 ((aesS0 ++ aesS1).getD b.toNat 0)
/-- Multiplication by x in the field of AES. -/
def xtime (b : Byte) : Byte := (b <<< 1) ^^^ (if b.getLsbD 7 then 0x1B else 0)
/-- Bytes combined one by one. -/
def xorB (a b : List Byte) : List Byte := List.zipWith (· ^^^ ·) a b

/-- The key schedule of AES-256: words in order, n more. -/
def aesExpand : Nat → List (List Byte) → List (List Byte)
  | 0, w => w
  | n + 1, w =>
    let i := w.length
    let t := w.getD (i - 1) []
    let t := if i % 8 = 0 then xorB ((t.drop 1 ++ t.take 1).map aesSub) [BitVec.ofNat 8 (2 ^ (i / 8 - 1)), 0, 0, 0]
      else if i % 8 = 4 then t.map aesSub else t
    aesExpand n (w ++ [xorB (w.getD (i - 8) []) t])

/-- The fifteen round keys. -/
def aesKeys (key : List Byte) : List (List Byte) :=
  let w := aesExpand 52 (tab 8 fun i => (key.drop (4 * i)).take 4)
  tab 15 fun r => (tab 4 fun i => w.getD (4 * r + i) []).flatten

/-- ShiftRows and MixColumns. -/
def aesShift (s : List Byte) : List Byte := tab 16 fun i => s.getD ((i + 4 * (i % 4)) % 16) 0
def aesMix (s : List Byte) : List Byte :=
  (List.range 4).flatMap fun c => tab 4 fun r =>
    let a := fun (k : Nat) => s.getD (4 * c + (r + k) % 4) 0
    xtime (a 0) ^^^ xtime (a 1) ^^^ a 1 ^^^ a 2 ^^^ a 3

/-- One block encrypted. -/
def aesBlock (ks : List (List Byte)) (b : List Byte) : List Byte :=
  let s := xorB b (ks.getD 0 [])
  let s := (List.range 13).foldl (fun s r => xorB (aesMix (aesShift (s.map aesSub))) (ks.getD (r + 1) [])) s
  xorB (aesShift (s.map aesSub)) (ks.getD 14 [])

/-- Multiplication in the field of GHASH, bit by bit. -/
def ghashMul (x y : BitVec 128) : BitVec 128 :=
  ((List.range 128).foldl (fun (acc : BitVec 128 × BitVec 128) i =>
    let z := if x.getMsbD i then acc.1 ^^^ acc.2 else acc.1
    let v := (acc.2 >>> 1) ^^^ (if acc.2.getLsbD 0 then BitVec.ofNat 128 (0xE1 * 2 ^ 120) else 0)
    (z, v)) (0, y)).1

/-- GHASH over whole blocks. -/
def ghash (h : BitVec 128) : Nat → BitVec 128 → List Byte → BitVec 128
  | 0, y, _ => y
  | n + 1, y, m => ghash h n (ghashMul (y ^^^ BitVec.ofNat 128 (beNat (m.take 16))) h) (m.drop 16)

/-- Bytes padded with zeros to blocks of 16. -/
def pad16 (m : List Byte) : List Byte := m ++ List.replicate (roundUp m.length 16 - m.length) 0

/-- Counter-mode key stream for n blocks from a counter. -/
def gcmStream (ks : List (List Byte)) (nonce : List Byte) : Nat → Nat → List Byte
  | 0, _ => []
  | n + 1, c => aesBlock ks (nonce ++ beBytes 4 c) ++ gcmStream ks nonce n (c + 1)

/-- AES-256-GCM decryption with a 12-byte nonce: the plaintext when the tag is right. -/
def gcmOpen (key nonce aad ct tag : List Byte) : Option (List Byte) :=
  let ks := aesKeys key
  let h := BitVec.ofNat 128 (beNat (aesBlock ks (List.replicate 16 0)))
  let m := pad16 aad ++ pad16 ct ++ beBytes 8 (8 * aad.length) ++ beBytes 8 (8 * ct.length)
  let t := xorB (beBytes 16 (ghash h (m.length / 16) 0 m).toNat) (aesBlock ks (nonce ++ beBytes 4 1))
  if t == tag then some (xorB ct (gcmStream ks nonce (cdiv ct.length 16) 2)) else none

/-! ### ECDSA over P-384 -/

/-- The field prime, order, coefficient and base point of P-384. -/
def p384P : Nat := 2 ^ 384 - 2 ^ 128 - 2 ^ 96 + 2 ^ 32 - 1
def p384N : Nat := 0xFFFFFFFFFFFFFFFFFFFFFFFFFFFFFFFFFFFFFFFFFFFFFFFFC7634D81F4372DDF581A0DB248B0A77AECEC196ACCC52973
def p384B : Nat := 0xB3312FA7E23EE7E4988E056BE3F82D19181D9C6EFE8141120314088F5013875AC656398D8A2ED19D2A85C8EDD3EC2AEF
def p384G : Nat × Nat :=
  (0xAA87CA22BE8B05378EB1C71EF320AD746E1D3B628BA79B9859F741E082542A385502F25DBF55296C3A545E3872760AB7,
   0x3617DE4A96262C6F5D9E98BF9292DC29F8F41DBD289A147CE9DA3113B5F0B8C00A60B1CE1D7E819D7A431D7C90EA0E5F)

/-- b^e modulo m, by n bits of e. -/
def powMod : Nat → Nat → Nat → Nat → Nat
  | 0, _, _, _ => 1
  | n + 1, b, e, m => let r := powMod n (b * b % m) (e / 2) m; if e % 2 = 1 then b * r % m else r

/-- The inverse modulo a prime. -/
def invMod (a m : Nat) : Nat := powMod 384 (a % m) (m - 2) m

/-- Addition on the curve; none is the point at infinity. -/
def ecAdd (p q : Option (Nat × Nat)) : Option (Nat × Nat) :=
  match p, q with
  | none, q => q
  | p, none => p
  | some (x1, y1), some (x2, y2) =>
    let m := p384P
    if x1 = x2 ∧ (y1 + y2) % m = 0 then none
    else
      let l := if x1 = x2 then (3 * x1 * x1 + (m - 3)) * invMod (2 * y1) m % m else (y2 + m - y1) * invMod (x2 + m - x1) m % m
      let x3 := (l * l + 2 * m - x1 - x2) % m
      some (x3, (l * (x1 + m - x3) + m - y1) % m)

/-- Scalar multiplication by the low n bits. -/
def ecMul : Nat → Nat → Option (Nat × Nat) → Option (Nat × Nat)
  | 0, _, _ => none
  | n + 1, k, p => let r := ecMul n (k / 2) (ecAdd p p); if k % 2 = 1 then ecAdd p r else r

/-- ECDSA verification of a message's SHA-384 digest under a public key of two 48-byte big-endian coordinates. -/
def ecdsaOk (pub digest sig : List Byte) : Bool :=
  let x := beNat (pub.take 48)
  let y := beNat (pub.drop 48)
  let r := beNat (sig.take 48)
  let s := beNat (sig.drop 48)
  let m := p384P
  if pub.length ≠ 96 ∨ sig.length ≠ 96 ∨ m ≤ x ∨ m ≤ y ∨ (y * y) % m ≠ (x * x * x + (m - 3) * x + p384B) % m
      ∨ r = 0 ∨ p384N ≤ r ∨ s = 0 ∨ p384N ≤ s then false
  else
    let w := invMod s p384N
    match ecAdd (ecMul 384 (beNat digest * w % p384N) (some p384G)) (ecMul 384 (r * w % p384N) (some (x, y))) with
    | none => false
    | some (u, _) => u % p384N == r

end Sys2Proof.Machine
end

