-- ==== Sys2Proof/Machine/Rings.lean ====
section
/-! DEFINITION. Submission rings and their descriptors: doorbells, NOP, EXEC, LAUNCH, UNLOAD; and the event rings' waits and
messages (R240, R260, R261, R328 to R339, R348 to R350, R356, R364). -/

namespace Sys2Proof.Machine

/-! ### Doorbells (R334, R336, R358) -/

/-- The case of R334 for a new tail: none ignores it as DOORBELL_RANGE. -/
def doorbell (log2 head tail t : Nat) : Option Nat :=
  let a := cdist 32 t head
  let b := cdist 32 tail head
  if a = b then some tail else if b < a ∧ a ≤ 2 ^ log2 then some (t % 2 ^ 32) else none

/-- SUBMISSION_DOORBELL (R334): a new tail for a ring of the function, unless a Crystallizer session has it (R431); that of a context under destruction is ignored
without count (step 1 of R354). -/
def execSubmissionDoorbell (func ring tail : Nat) (s : State) : Out :=
  if 256 ≤ func ∨ 1024 ≤ ring then .fault (.noSuchUnit "ring")
  else if !s.ready || !s.funcExists func then .next s
  else
    let g := s.rg ring
    if !g.live || (s.cx g.ctx).func != func || (s.sessions.any fun e => e.2.ring == ring) then .next (s.viol func 2)
    else if (s.cx g.ctx).life == .destroying then .next s
    else match doorbell g.log2 g.head g.tail tail with
      | some t => .next (s.updRg ring fun g => { g with tail := t })
      | none => .next (s.viol func 1)

/-- ADMIN_DOORBELL (R336): the same for the function's admin ring, which exists while ENABLE is 1. -/
def execAdminDoorbell (func tail : Nat) (s : State) : Out :=
  if 256 ≤ func then .fault (.noSuchUnit "function")
  else if !s.ready || !s.funcExists func then .next s
  else
    let g := s.fn func
    if !g.enable then .next (s.viol func 2)
    else match doorbell g.adminLog2 g.adminHead g.adminTail tail with
      | some t => .next (s.updFn func fun g => { g with adminTail := t })
      | none => .next (s.viol func 1)

/-! ### Taking a descriptor (R328 to R335, R339, R364) -/

/-- A ring has a descriptor that may be taken now. -/
def State.ringReady (s : State) (r : Nat) : Bool :=
  let g := s.rg r
  let l := (s.cx g.ctx).life
  s.ready && g.live && g.work == .idle && cdist 32 g.tail g.head != 0 && (l == .live || l == .lost)

/-- The ring that is served next: latency-critical rings first, round-robin within a class (R364). -/
def State.nextRing (s : State) : Option Nat :=
  let ready := s.rings.keysWhere fun r _ => s.ringReady r
  let turn := fun (l : List Nat) (last : Nat) => (l.find? fun r => decide (last < r)).orElse fun _ => l.head?
  (turn (ready.filter fun r => (s.rg r).lc) s.ringTakenLc).orElse fun _ => turn (ready.filter fun r => !(s.rg r).lc) s.ringTaken

/-- The descriptor at a ring's head. -/
def State.ringDesc (s : State) (r : Nat) : List Byte :=
  let g := s.rg r
  s.hostMem.rdN (g.base + 64 * (g.head % 2 ^ g.log2)) 64

/-- The head descriptor copied: the head moves on and is written back (R335). -/
def State.takeRing (s : State) (r : Nat) : State :=
  let d := s.ringDesc r
  let g := s.rg r
  let h := (g.head + 1) % 2 ^ 32
  let s := s.updRg r fun g => { g with head := h, pos := g.head, evt := bit (at1 d 1) 0, irq := bit (at1 d 1) 1, user := at8 d 8 }
  let s : State := if g.lc then { s with ringTakenLc := r } else { s with ringTaken := r }
  s.postHost (s.linkOf g.link) (s.cx g.ctx).func g.headwb (leBytes 4 h)

/-- The descriptor in progress fails with a status, and its context is lost (R330, R359, R209). -/
def State.failRing (s : State) (r status : Nat) : State :=
  (s.completeRing r status 0 false).loseCtx (s.rg r).ctx status

/-- The payload fields of a descriptor of a submission ring (R330). -/
def ringFields (op : Nat) : List (Nat × Nat × Nat) :=
  if op = 0x01 then [(16, 8, 2 ^ 64 - 1), (24, 2, 0xFFFF)]
  else if op = 0x02 then [(16, 8, 2 ^ 64 - 1)]
  else if op = 0x03 then [(16, 4, 2 ^ 32 - 1)] else []

/-- Header, reserved bits and ranges of a descriptor (R329, R330). -/
def ringDescOk (d : List Byte) : Bool :=
  let op := at1 d 0
  op ≤ 3 && at1 d 2 == 0 && reservedOk d (ringFields op)
    && (op != 1 || (decide (1 ≤ at2 d 24) && decide (at2 d 24 ≤ 4096)))

/-- CMDBUF is a multiple of 32 and IMAGE of 64 (R330); the status of one that is not is ALIGN (R527, log entry 72). -/
def ringDescAligned (d : List Byte) : Bool :=
  (at1 d 0 != 1 || at8 d 16 % 32 == 0) && (at1 d 0 != 2 || at8 d 16 % 64 == 0)

/-- A descriptor of an operation, when it is the one that a dispatch processor takes next: a malformed one fails, one of
a lost context completes with CONTEXT_LOST, and any other runs. -/
def State.runRing (s : State) (r op : Nat) (body : List Byte → State → State) : State :=
  if !s.ringReady r || s.nextRing != some r then s
  else
    let d := s.ringDesc r
    if at1 d 0 != op && at1 d 0 ≤ 3 then s
    else
      let s := s.takeRing r
      if (s.cx (s.rg r).ctx).life == .lost then s.completeRing r 0x0801 0 false
      else if !ringDescOk d then s.failRing r stBad
      else if !ringDescAligned d then s.failRing r stAlign
      else body d s

/-- NOP (R330). -/
def execNop (ring : Nat) (s : State) : Out :=
  if 1024 ≤ ring then .fault (.noSuchUnit "ring") else .next (s.runRing ring 0x00 fun _ s => s.completeRing ring 0 0 false)

/-- EXEC (R331): the whole buffer is copied and checked; then its first command is reached. -/
def execExecBuffer (ring : Nat) (s : State) : Out :=
  if 1024 ≤ ring then .fault (.noSuchUnit "ring")
  else .next (s.runRing ring 0x01 fun d s =>
    let n := at2 d 24
    match s.readVa { ctx := (s.rg ring).ctx, ref := some (.ring ring) } (at8 d 16) (32 * n) with
    | (.error e, s) => s.failRing ring e
    | (.ok b, s) =>
      let ws := tab n fun i => (b.drop (32 * i)).take 32
      if ws.all ringWordOk then (s.updRg ring fun g => { g with work := .exec ws 0 false }).reachRing ring
      else s.failRing ring stBad)

/-! ### LAUNCH (R240, R260, R261) -/

/-- Step 1 of R260: the image copied. -/
def State.copyImage (s : State) (ctx r va : Nat) : Except Nat (List Byte) × State :=
  let w : Who := { ctx, ref := some (.ring r) }
  match s.readVa w va 12 with
  | (.error e, s) => (.error e, s)
  | (.ok b, s) =>
    let n := at4 b 8
    if n < 1664 ∨ 2 ^ 28 < n then (.error stBounds, s) else s.readVa w va n

/-- Steps 2 to 9 of R260 for an image: the section as it is placed, or the status of the first check that fails; the
WCET of an admitted section is at least what its image fixes, and how far above is a free value (log entry 32). -/
def State.launchChecks (s : State) (h : Nat) (x : Section) (extra : Nat) : Except Nat Section := do
  chk (headerOk x.img) stBad
  imageCheck x (s.partCores x.part).length
  chkAll (List.range 64) (s.declCheck h x)
  s.commandsCheck x h
  routesCheck x h
  chk (!x.admitted || s.admits x h extra) stCapacity
  s.placed x

/-- The section of an image in the copy, before its checks (R260, R261). -/
def State.imageSection (s : State) (g : Ring) (img : List Byte) : Section :=
  let x : Section := { ctx := g.ctx, part := (s.cx g.ctx).part, lc := g.lc, img }
  { x with admitted := g.lc && bit (at2 img 6) 0, deadline := at8 img 72, regs := tab 64 fun r => BitVec.ofNat 64 (x.regInit r) }

/-- A section whose checks hold becomes resident. The section copy takes sub-pages of the pool (R281); a pool without them
refuses with CAPACITY (log entry 55). -/
def State.takeSection (s : State) (ring : Nat) (x : Section) : State :=
  match s.freeSubs (s.defaultStacks x.part) (cdiv x.img.length 65536) with
  | none => s.failRing ring stCapacity
  | some ps =>
    let h := s.nextSec
    let x := { x with objs := x.declObjs, digest := (sha384 x.img).take 16, copySubs := ps }
    let s := (s.takeHoldings h x).moveSubs ps { st := 2 }
    ({ s with nextSec := h + 1 } : State).completeRing ring 0 h false

/-- Steps 2 to 9 of R260 on the image in the copy. -/
def State.launchImage (s : State) (ring : Nat) (x : Section) : State :=
  let extra := (Config.freeWord s.free).toNat
  let s := if x.admitted then { s with free := s.free + 1 } else s
  match s.launchChecks s.nextSec x extra with
  | .error e => s.failRing ring e
  | .ok x => s.takeSection ring x

/-- LAUNCH (R260 to R266, R363). -/
def execLaunch (ring : Nat) (s : State) : Out :=
  if 1024 ≤ ring then .fault (.noSuchUnit "ring")
  else .next (s.runRing ring 0x02 fun d s =>
    match s.copyImage (s.rg ring).ctx ring (at8 d 16) with
    | (.error e, s) => s.failRing ring e
    | (.ok img, s) => s.launchImage ring (s.imageSection (s.rg ring) img))

/-! ### UNLOAD (R356, R389) -/

/-- The section has no run in progress, no command whose kill is not complete (R121), and no REPLAY is driving it (R232, R356). -/
def State.restful (s : State) (h : Nat) : Bool := !s.inRun h && (s.secCmds h).isEmpty && !s.replays.any fun r => r.sec == h

/-- The section unloaded, once it rests. -/
def State.unloadFor (s : State) (ring h : Nat) : State :=
  if s.restful h then (s.unloadSec h).completeRing ring 0 0 false else s.updRg ring fun g => { g with work := .unload h }

/-- UNLOAD (R356): it waits for the end of the section's run. -/
def execUnload (ring : Nat) (s : State) : Out :=
  if 1024 ≤ ring then .fault (.noSuchUnit "ring")
  else match (s.rg ring).work with
    | .unload h => .next (if s.secs.any fun e => e.1 == h then s.unloadFor ring h else s.failRing ring stBad)
    | _ => .next (s.runRing ring 0x03 fun d s =>
      let h := at4 d 16
      if !s.secs.any fun e => e.1 == h then s.failRing ring stBad
      else if (s.sec h).ctx != (s.rg ring).ctx then s.failRing ring 0x0202
      else s.unloadFor ring h)

/-! ### Event rings (R348 to R350) -/

/-- EVENT_RING_FULL_RECHECK (R348): every 10 µs while records wait. -/
def execEventRingFullRecheck (ctx : Nat) (s : State) : Out :=
  if 256 ≤ ctx then .fault (.noSuchUnit "context")
  else if (s.cx ctx).evWait.isEmpty || !s.ready then .next s
  else
    let s := (s.atTime (s.time.now + 10000)).refreshCtx ctx
    .next (s.drainCtx ctx (s.cx ctx).evWait.length)

/-- EVENT_RING_FULL_TIMEOUT (R348): full for 2,000 ms; the context is lost with WAIT_TIMEOUT and its ring falls silent. -/
def execEventRingFullTimeout (ctx : Nat) (s : State) : Out :=
  if 256 ≤ ctx then .fault (.noSuchUnit "context")
  else match (s.cx ctx).fullSince with
    | some t =>
      if (s.cx ctx).evWait.isEmpty || !s.ready then .next s
      else
        let s := (s.atTime (t + 2000000000)).updCx ctx fun x => { x with silent := true }
        .next ((s.dropWaiting ctx).loseCtx ctx 0x0301)
    | none => .next s

/-- Records held for a function event ring, written while there is room (R349). -/
def State.drainFunc (s : State) (f : Nat) : Nat → State
  | 0 => s
  | n + 1 =>
    let d := s.fn f
    if s.funcFull f then s
    else match d.evWait, d.lostNotices, d.devNotices with
      | r :: rest, _, _ => State.drainFunc ((s.updFn f fun d => { d with evWait := rest }).putFunc f r) f n
      | [], r :: rest, _ => State.drainFunc ((s.updFn f fun d => { d with lostNotices := rest }).putFunc f r) f n
      | [], [], r :: rest => State.drainFunc ((s.updFn f fun d => { d with devNotices := rest }).putFunc f r) f n
      | [], [], [] => s

/-- FUNCTION_EVENT_RING_RECHECK (R349). -/
def execFunctionEventRingRecheck (func : Nat) (s : State) : Out :=
  if 256 ≤ func then .fault (.noSuchUnit "function")
  else
    let d := s.fn func
    let waiting := s.funcFull func || !(d.evWait.isEmpty && d.lostNotices.isEmpty && d.devNotices.isEmpty)
    if !d.evOn || !s.ready || !waiting then .next s
    else
      let s := (s.atTime (s.time.now + 10000)).refreshFunc func
      .next (s.drainFunc func (d.evWait.length + d.lostNotices.length + d.devNotices.length))

/-- The end of a moderation interval: the message covers every record not yet signalled (R350). -/
def Moder.fired (m : Moder) (now : Nat) : Moder := { m with last := some now, pending := false }

/-- MODERATION_EXPIRY (R350). -/
def execModerationExpiry (ring : EvRing) (s : State) : Out :=
  match ring with
  | .ctx c =>
    let m := (s.cx c).moder
    let g := s.ctxGeom c
    if 256 ≤ c then .fault (.noSuchUnit "context")
    else if !m.pending || !s.ready then .next s
    else
      let s := s.atTime (m.last.getD 0 + 1000 * g.moder)
      .next ((s.updCx c fun x => { x with moder := m.fired s.time.now }).sendMsix g.func g.vector)
  | .func f =>
    let m := (s.fn f).moder
    let g := s.funcGeom f
    if 256 ≤ f then .fault (.noSuchUnit "function")
    else if !m.pending || !s.ready then .next s
    else
      let s := s.atTime (m.last.getD 0 + 1000 * g.moder)
      .next ((s.updFn f fun x => { x with moder := m.fired s.time.now }).sendMsix g.func g.vector)

end Sys2Proof.Machine
end

