-- ==== Sys2Proof/Machine/Sync.lean ====
section
/-! DEFINITION. Synchronisation and control: WAIT, SIGNAL, EVENT, BARRIER, their timeouts and cycles, PATCH, REPLAY, the
start of runs, and CHAIN (R225 to R235, R268, R365, R390 to R394, R491). -/

namespace Sys2Proof.Machine

/-- What a WAIT finds. -/
inductive WaitRes where
  | pending | reached (v : Nat) | abandoned (v : Nat)
deriving DecidableEq, Repr

/-- The state of a WAIT's fence against its VALUE (R226, R345). What happens to the fence from the end of the window on comes too
late. -/
def State.waitOn (s : State) (k : Cmd) : WaitRes :=
  match s.fenceSlot (at4 k.word 8) with
  | none => .pending
  | some i =>
    let f := s.fe i
    if !s.waitMet k i then .pending else if k.fenceValue ≤ f.value then .reached f.value else .abandoned f.value

/-- WAIT (R226, R390). -/
def execWait (ref : CmdRef) (s : State) : Out :=
  let s := s.takeUp ref 0xA0
  match s.issued? ref 0xA0 with
  | none => .next s
  | some k =>
    if k.skipped then .next (s.markWritten ref)
    else if !s.fenceRight k.ctx k.word then .next (s.failCmd ref 0x0202)
    else match s.waitOn k with
      | .pending => .next s
      | .reached v => .next ((s.updCmd ref fun k => { k with infos := k.infos.map fun r => { r with value := v } }).markWritten ref)
      | .abandoned v =>
        if bit (at1 k.word 14) 0 then
          .next ((s.updCmd ref fun k => { k with infos := k.infos.map fun r => { r with abandoned := true, value := v } }).markWritten ref)
        else .next (s.failCmd ref 0x0303)

/-- SIGNAL (R227, R343, R407): the fence itself changes at the commit. -/
def execSignal (ref : CmdRef) (s : State) : Out :=
  let s := s.takeUp ref 0xA1
  match s.issued? ref 0xA1 with
  | none => .next s
  | some k =>
    let remote := bit (at1 k.word 14) 0
    if k.skipped then .next (if s.earlierDone ref then s.markWritten ref else s)
    else if !s.fenceRight k.ctx k.word || (remote && s.hzn.domainOf k.ctx == 0) then .next (s.failCmd ref 0x0202)
    else if !s.earlierDone ref then .next s
    else
      let v := k.fenceValue
      let g : Sig := { handle := at4 k.word 8, value := v, engine := if remote then some (fld (leAt k.word 24 3) 0 18) else none }
      let shown := if remote then v else match s.fenceSlot (at4 k.word 8) with
        | some i => if (s.fe i).life == .abandoned then (s.fe i).value else max v (s.fe i).value
        | none => v
      .next ((s.updCmd ref fun k => { k with sig := some g, infos := k.infos.map fun r => { r with value := shown } }).markWritten ref)

/-- EVENT (R227): it commits after every earlier command of its program. -/
def execEvent (ref : CmdRef) (s : State) : Out :=
  let s := s.takeUp ref 0xA2
  match s.issued? ref 0xA2 with
  | none => .next s
  | some _ => .next (if s.earlierDone ref then s.markWritten ref else s)

/-- BARRIER (R227): every station program with a BARRIER of this ID has reached its BARRIER of the same generation; all of
them then commit together. A skipped one passes alone and counts as reached. -/
def execBarrier (ref : CmdRef) (s : State) : Out :=
  let s := s.takeUp ref 0xA3
  match s.issued? ref 0xA3 with
  | some k => .next (if k.skipped then (if s.earlierDone ref then s.markWritten ref else s) else s.passBarrier ref)
  | none => .next s

/-- WAIT_TIMEOUT_EXPIRY (R226, R227): the window [reached, reached + timeout) has ended, and the WAIT is not satisfied or the BARRIER
not complete. -/
def execWaitTimeoutExpiry (ref : CmdRef) (s : State) : Out :=
  match s.cmd? ref with
  | none => .next s
  | some k =>
    let op := cOp k.word
    if k.phase != .issued || k.skipped || (op != 0xA0 && op != 0xA3) || (op == 0xA0 && s.waitOn k != .pending)
        || (op == 0xA3 && s.barrierMet ref) then .next s
    else .next ((s.atTime k.waitEnd).failCmd ref 0x0301)

/-! ### Wait cycles (R391 to R394) -/

/-- Where a submitted SIGNAL stands: in a ring (descriptors from the one in progress, 0, onwards) or in a station program. -/
inductive SigPlace where
  | ring (r desc idx : Nat) | station (h st i : Nat)
deriving DecidableEq, Repr

/-- A submitted SIGNAL: its context, fence handle, value and place. -/
structure SubSig where
  ctx : Nat
  handle : Nat
  value : Nat
  place : SigPlace

/-- The SIGNAL of a word, when it is a local one. -/
def wordSig (ctx : Nat) (regs : List Word) (w : List Byte) (place : SigPlace) : Option SubSig :=
  if cOp w = 0xA1 ∧ !bit (at1 w 14) 0 then
    some { ctx, handle := at4 w 8, place, value := if bit (at1 w 14) 1 then (regs.getD (fld (at1 w 15) 0 6) 0).toNat else at8 w 16 }
  else none

/-- SIGNALs submitted on a ring: what is left of its EXEC buffer, and the buffers of descriptors between head and tail. -/
def State.ringSigs (s : State) (r : Nat) : List SubSig :=
  let g := s.rg r
  let now := match g.work with
    | .exec ws i _ => (ws.zipIdx.drop i).filterMap fun (w, j) => wordSig g.ctx [] w (.ring r 0 j)
    | _ => []
  let later := (List.range (cdist 32 g.tail g.head)).flatMap fun j =>
    let d := s.hostMem.rdN (g.base + 64 * ((g.head + j) % 2 ^ g.log2)) 64
    if at1 d 0 != 1 then []
    else match (s.readVa { ctx := g.ctx } (at8 d 16) (32 * at2 d 24)).1 with
      | .ok b => (List.range (at2 d 24)).filterMap fun i => wordSig g.ctx [] ((b.drop (32 * i)).take 32) (.ring r (j + 1) i)
      | .error _ => []
  now ++ later

/-- SIGNALs of the resident station programs that are still to commit. -/
def State.secSigs (s : State) : List SubSig :=
  s.secs.flatMap fun (h, x) => if x.swapped then [] else
    (List.range x.nStations).flatMap fun st => (List.range (x.progLen st)).filterMap fun i =>
      if x.run.isSome && decide (i < x.head st) && (s.cmd? (.station h st i)).isNone then none
      else wordSig x.ctx x.regs (x.word st i) (.station h st i)

/-- Every submitted SIGNAL of a live context that has the right on its fence. -/
def State.submitted (s : State) : List SubSig :=
  ((s.rings.keysWhere fun _ g => g.live).flatMap s.ringSigs ++ s.secSigs).filter fun g =>
    (s.cx g.ctx).life == .live && match s.fenceSlot g.handle with
      | some i => s.validated g.ctx || s.mayFence g.ctx i true
      | none => false

/-- The ring whose REPLAY started the run that holds a command, or the ring of an EXEC buffer's command. -/
def State.ringOf (s : State) (ref : CmdRef) : Option Nat :=
  match ref with
  | .ring r => some r
  | .station h _ _ => ((s.sec h).run.bind Run.ring)

/-- A SIGNAL stands behind a wait (R391). -/
def State.behind (s : State) (g : SubSig) (w : CmdRef) : Bool :=
  (match g.place, w with
    | .ring r d i, .ring q => r == q && (decide (0 < d) || (match (s.rg q).work with | .exec _ j _ => decide (j < i) | _ => false))
    | .station h st i, .station k t j => h == k && st == t && decide (j < i)
    | .ring r d _, .station _ _ _ => s.ringOf w == some r && decide (0 < d)
    | .station _ _ _, .ring _ => false)

/-- A wait meets R391 within a set W. -/
def State.cycleWait (s : State) (sigs : List SubSig) (W : List CmdRef) (w : CmdRef) : Bool :=
  match s.cmd? w with
  | none => false
  | some k => match s.fenceSlot (at4 k.word 8) with
    | none => false
    | some i =>
      let f := s.fe i
      let gs := sigs.filter fun g => g.handle == at4 k.word 8 && decide (k.fenceValue ≤ g.value)
      !f.remote && s.waitOn k == .pending && !gs.isEmpty && gs.all fun g => W.any (s.behind g)

/-- The largest set of waits within W that forms a cycle, by n rounds. -/
def State.cycleOf (s : State) (sigs : List SubSig) : Nat → List CmdRef → List CmdRef
  | 0, W => W
  | n + 1, W => s.cycleOf sigs n (W.filter (s.cycleWait sigs W))

/-- The waits in the fence unit's table of 16,384 entries (R390). -/
def State.waitTable (s : State) : List CmdRef :=
  ((s.cmds.filter fun k => cOp k.word == 0xA0 && k.phase == .issued && !k.skipped).map Cmd.ref).take 16384

/-- A ring of a cycle fails with WAIT_CYCLE through the command that waits (R392). -/
def State.failCycle (s : State) (W : List CmdRef) : State := W.foldl (fun s w => s.failCmd w 0x0302) s

/-- WAIT_CYCLE_SCAN (R391 to R394): at the start of a millisecond; a set found at two scans in a row with its fences
unchanged fails. -/
def execWaitCycleScan (s : State) : Out :=
  if !s.ready then .next s
  else
    let s := s.atTime ((s.time.now + 999999) / 1000000 * 1000000)
    let sigs := s.submitted
    let valueAt := fun (w : CmdRef) => ((s.cmd? w).bind fun k => (s.fenceSlot (at4 k.word 8)).map fun i => (s.fe i).value).getD 0
    let W := s.cycleOf sigs s.waitTable.length s.waitTable
    let again := s.cycleOf sigs W.length (W.filter fun w => s.scanSet.contains (w, valueAt w))
    let s : State := { s with scanSet := (W.filter fun w => !again.contains w).map fun w => (w, valueAt w) }
    .next (s.failCycle again)

/-! ### PATCH (R231, R232) -/

/-- The section that a PATCH or REPLAY names: its own, or for a ring the one named; none where it fails, with the status. -/
def State.patchTarget (s : State) (k : Cmd) : Except Nat Nat :=
  match k.ref with
  | .station h _ _ => .ok h
  | .ring _ =>
    let h := at4 k.word 12
    if !(s.secs.any fun e => e.1 == h) || (s.sec h).swapped then .error stBad
    else if (s.sec h).ctx != k.ctx then .error 0x0202 else .ok h

/-- A ring's PATCH or REPLAY may go on: the section rests (R232). -/
def State.targetRests (s : State) (k : Cmd) (h : Nat) : Bool :=
  match k.ref with
  | .station _ _ _ => true
  | .ring _ => s.restful h

/-- The registers and values that a PATCH writes, or its failure. -/
def State.patchValues (s : State) (k : Cmd) (h : Nat) : Except Nat (List (Nat × Word)) × State :=
  let w := k.word
  let x := s.sec h
  let r := fld (at1 w 9) 0 6
  let n := if fld (at1 w 8) 0 2 = 2 then at1 w 10 else 1
  if (List.range n).any fun i => x.regKind (r + i) != 1 && x.regKind (r + i) != 2 then (.error stBad, s)
  else if fld (at1 w 8) 0 2 = 0 then (.ok [(r, BitVec.ofNat 64 (at8 w 16))], s)
  else if fld (at1 w 8) 0 2 = 1 then (.ok [(r, x.regs.getD r 0 + BitVec.ofNat 64 (at8 w 16))], s)
  else match s.readVa (s.cxOf k).who (at8 w 16) (8 * n) with
    | (.error e, s) => (.error e, s)
    | (.ok b, s) => (.ok (tab n fun i => (r + i, BitVec.ofNat 64 (at8 b (8 * i)))), s)

/-- PATCH (R231): every new value is checked before any is written, at the commit. -/
def execPatch (ref : CmdRef) (s : State) : Out :=
  let s := s.takeUp ref 0xE0
  match s.issued? ref 0xE0 with
  | none => .next s
  | some k =>
    if k.skipped then .next (s.markWritten ref)
    else match s.patchTarget k with
      | .error e => .next (s.failCmd ref e)
      | .ok h =>
        if !s.targetRests k h then .next s
        else match s.patchValues k h with
          | (.error e, s) => .next (s.failCmd ref e)
          | (.ok vs, s) =>
            let e := (vs.map fun v => s.regCheck h v.1 v.2.toNat).find? (· != 0)
            match e with
            | some e => .next (s.failCmd ref e)
            | none => .next ((s.updCmd ref fun k => { k with regWrites := vs, target := h }).markWritten ref)

/-! ### REPLAY and runs (R232, R233, R268, R365) -/

/-- REPLAY (R232, R233): its runs start with RUN_START; with COUNT 0 there is none. -/
def execReplay (ref : CmdRef) (s : State) : Out :=
  match s.issued? ref 0xE1 with
  | none => .next s
  | some k =>
    match s.patchTarget k with
    | .error e => .next (s.failCmd ref e)
    | .ok h =>
      if !s.targetRests k h then .next s
      else if at4 k.word 16 = 0 then .next (s.markWritten ref)
      else
        let w := k.word
        let r : Replay :=
          { ref, ctx := k.ctx, sec := h, left := at4 w 16, predReg := if bit (at1 w 20) 6 then some (fld (at1 w 20) 0 6) else none
            stepReg := if bit (at1 w 21) 6 then some (fld (at1 w 21) 0 6) else none, stepImm := at8 w 24 }
        let s := { s with replays := s.replays ++ [r] }
        let s := s.updCmd ref fun k => { k with phase := .executing, target := h }
        let x := s.sec h
        .next (if x.lc then s.updPt x.part fun p => { p with lcWait := p.lcWait ++ [h] } else s)

/-- The clusters of a partition's cores are at OP2 or slower and at rest (R491). -/
def State.lcPoints (s : State) (p : Nat) : Bool :=
  (List.range 10).all fun c => !(s.pt p).usesCl c || !s.clPresent c || (decide (2 ≤ (s.cl c).point) && !(s.cl c).moving)

/-- A residency swap in flight holds the section's runs back (R387, R388). -/
def State.swapping (s : State) (h : Nat) : Bool := s.cmds.any fun k => (cOp k.word == 0x85 || cOp k.word == 0x86) && at4 k.word 12 == h

/-- A run of a REPLAY may begin. -/
def State.mayStart (s : State) (h : Nat) : Bool :=
  let x := s.sec h
  let p := s.pt x.part
  s.ready && (s.replays.any fun r => r.sec == h && decide (0 < r.left)) && (s.cx x.ctx).life == .live && !s.inRun h && !x.swapped
    && (s.secCmds h).isEmpty && !s.swapping h && (!x.lc || (p.lcRun.isNone && p.lcWait.head? == some h && s.lcPoints x.part))

/-- What stands at the start of a run (R188, R268, R272). -/
def State.startRun (s : State) (h : Nat) : State :=
  let ring := (s.replays.find? fun r => r.sec == h).bind fun r => match r.ref with
    | .ring q => some q
    | .station _ _ _ => none
  let p := (s.sec h).part
  let lc := (s.sec h).lc
  let s := s.updSec h fun x => { x with
    run := some { ring, started := s.time.now }, fmts := [], tscales := [], runNo := (x.runNo + 1) % 2 ^ 32 }
  let s := s.clearRegTags h
  if lc then s.updPt p fun q => { q with lcRun := some h, lcWait := q.lcWait.drop 1 } else s

/-- RUN_START (R233, R268, R365, R491). -/
def execRunStart (sec : Nat) (s : State) : Out := .next (if s.mayStart sec then s.startRun sec else s)

/-! ### CHAIN (R234, R235) -/

/-- The body of an opcode that may stand in a chain. -/
def bodyOf (op : Nat) : Option Body :=
  match op with
  | 0x00 => some bodyMatmul
  | 0x20 => some bodyVop
  | 0x21 => some bodyReduce
  | 0x22 => some bodySoftmax
  | 0x23 => some bodyNorm
  | 0x24 => some bodyActivate
  | 0x25 => some bodyRope
  | 0x26 => some bodyTopk
  | 0x27 => some bodySample
  | 0x41 => some bodyQuant
  | 0x42 => some bodyRequant
  | 0x43 => some bodyDequant
  | 0x80 => some bodyCopy
  | _ => none

/-- What a member whose predicate does not hold leaves: EMPTY frames (R251), and zero codes in the chain buffer that it would have
written, as a route's consumers read them (the buffer: DESIGN CHOICE, log entry 77). -/
def Cx.skipMember (c : Cx) (w : List Byte) (p : Made) : Made :=
  let buf := ((cHandles w).find? fun e => e.2 && (c.x.desc e.1).isChain).map fun e =>
    let t := c.tref e.1
    let n := prodL t.ext
    ({ fmt := t.fmt, ext := t.ext, codes := List.replicate n 0, scs := t.dstScales [] t.ts, plain := t.isPlain } : Tens)
  { p with frames := p.frames ++ c.emptyFrames [w], chain := buf.orElse fun _ => p.chain }

/-- The members of a chain in turn, each under its own predicate and with its own record (R185, R235). -/
def Cx.runChain (c : Cx) (ws : List (List Byte)) (infos : List RecInfo) : Cm (Made × List RecInfo) :=
  (ws.zip infos).foldlM (fun acc (w, i) => do
    if !c.predOk w then pure (c.skipMember w acc.1, acc.2 ++ [{ i with skipped := true }])
    else match bodyOf (cOp w) with
    | none => throw stBad
    | some f => do
      let a ← f c w { prod := acc.1, info := i }
      pure (a.prod, acc.2 ++ [a.info])) ({}, [])

/-- CHAIN (R234, R235): its members run on the units of the station's core, which it holds meanwhile, once the frames that they read
are in and the pan operations of its MATMUL members have issued. -/
def execChain (ref : CmdRef) (s : State) : Out :=
  let s := s.takeUp ref 0xE2
  let s := (refSec ref).elim s s.takeFrames
  match s.issued? ref 0xE2 with
  | none => .next s
  | some k =>
    if !s.runnable ref || !s.mayUse k then .next s
    else if k.skipped then
      let fs := (s.cxOf k).emptyFrames k.words
      .next ((s.finishWork k { prod := { frames := fs } } k.infos).occupy k (!fs.isEmpty))
    else
      let s := s.chargeCmd k
      match s.cmd? ref with
      | none => .next s
      | some k =>
        if !k.held.isEmpty then .next s
        else match ((s.cxOf k).runChain k.members (k.infos.drop 1)).exec s with
          | (.error e, s) => .next (s.failCmd ref e)
          | (.ok (p, infos), s) => .next (((s.vectorBusy k).finishWork k { prod := p } (k.infos.headD {} :: infos)).occupy k (!p.frames.isEmpty))

end Sys2Proof.Machine
end

