-- ==== Sys2Proof/Machine/Swap.lean ====
section
/-! DEFINITION. Residency swaps: SAVE_RES and RESTORE_RES (R224, R385 to R389). -/

namespace Sys2Proof.Machine

/-! ### The saved image (R386) -/

/-- Bytes of header, registers and directory. -/
def Section.savedHead (x : Section) : Nat := 640 + roundUp (16 * x.nStations) 64
/-- Offset of a station's core-memory contents: the stations' contents follow the directory in ascending order (log
entry 33). -/
def Section.savedCm (x : Section) (st : Nat) : Nat := x.savedHead + ((List.range st).map x.cmBytes).sum
/-- Offset of the reservoir contents: they follow the stations'. -/
def Section.savedRes (x : Section) : Nat := x.savedCm x.nStations
/-- IMAGE_LEN. -/
def Section.savedLen (x : Section) : Nat := x.savedRes + x.resBytes

/-- The contents of an allocation, in ascending logical offset. -/
def allocBytes (m : Mem) (pages : List Nat) : List Byte := pages.flatMap fun p => m.rdN (65536 * p) 65536

/-- The image of a section's residency. -/
def State.savedImage (s : State) (h : Nat) : List Byte :=
  let x := s.sec h
  let dir := (List.range x.nStations).flatMap fun st =>
    leBytes 4 (x.cmBytes st) ++ leBytes 4 0 ++ leBytes 8 (if x.cmBytes st = 0 then 0 else x.savedCm st)
  let head := ascii "DWRS" ++ leBytes 2 1 ++ leBytes 2 0 ++ leBytes 8 x.savedLen ++ x.digest ++ leBytes 4 x.runNo
    ++ leBytes 2 x.nStations ++ leBytes 2 0 ++ leBytes 8 x.resBytes ++ leBytes 8 x.savedRes ++ leBytes 72 0
  padLines (head ++ ((tab 64 fun r => x.regs.getD r 0).flatMap fun v => leBytes 8 v.toNat) ++ dir)
    ++ (x.cmPages.flatMap fun ps => allocBytes s.chip.cm ps) ++ allocBytes s.chip.rs x.resPages

/-! ### SAVE_RES -/

/-- The section that a swap names, or the status of R385. -/
def State.swapTarget (s : State) (k : Cmd) : Except Nat Nat :=
  let h := at4 k.word 12
  if !(s.secs.any fun e => e.1 == h) then .error stBad
  else if (s.sec h).ctx != k.ctx then .error 0x0202
  else if refSec k.ref == some h then .error stBad else .ok h

/-- The image written at IMAGE. -/
def bodySaveRes (img : List Byte) : Body := fun c w a => do
  let ws ← c.write 0 (c.addr (at8 w 24)) img
  pure { a with prod := { a.prod with staged := a.prod.staged ++ ws } }

/-- SAVE_RES (R385, R387 steps 1 to 3): it waits for the end of the target's run. -/
def execSaveRes (ref : CmdRef) (s : State) : Out :=
  match s.issued? ref 0x85 with
  | none => .next s
  | some k =>
    if k.skipped then .next (s.runUnit ref 0x85 (bodySaveRes []))
    else match s.swapTarget k with
      | .error e => .next (s.failCmd ref e)
      | .ok h =>
        if (s.sec h).swapped then .next (s.failCmd ref stBad)
        else if s.inRun h then .next s
        else .next (s.runUnit ref 0x85 (bodySaveRes (s.savedImage h)))

/-- SAVE_RES_TIMEOUT (R385): the target's run has not ended within 2,000 ms of issue. -/
def execSaveResTimeout (ref : CmdRef) (s : State) : Out :=
  match s.issued? ref 0x85 with
  | none => .next s
  | some k =>
    if !k.skipped && s.inRun (at4 k.word 12) then .next ((s.atTime (k.reached + 2000000000)).failCmd ref 0x0301)
    else .next s

/-! ### RESTORE_RES -/

/-- The header and directory of an image checked against the target (step 1 of R388), and its registers under R198. -/
def Cx.savedOk (c : Cx) (h : Nat) (x : Section) (a : Nat) : Cm (List Byte) := do
  let b ← c.read 0 a 640
  need (b.take 4 == ascii "DWRS" && at2 b 4 == 1 && (b.drop 16).take 16 == x.digest && at2 b 36 == x.nStations && at8 b 40 == x.resBytes) stBad
  need (at8 b 8 == x.savedLen) 0x0103
  let d ← c.read 0 (a + 640) (16 * x.nStations)
  need ((List.range x.nStations).all fun st => at4 d (16 * st) == x.cmBytes st) stBad
  let s ← get
  (List.range 64).forM fun r => do
    let e := if x.regKind r = 1 ∨ x.regKind r = 2 then s.regCheck h r (at8 b (128 + 8 * r)) else 0
    need (e == 0) e
  pure (b ++ d)

/-- Bytes placed into the pages of an allocation. -/
def intoPages (cm : Bool) (pages : List Nat) (b : List Byte) : List (Loc × Byte) :=
  b.zipIdx.map fun (v, i) =>
    let q := 65536 * pages.getD (i / 65536) 0 + i % 65536
    (if cm then Loc.cm q else Loc.rs q, v)

/-- The contents of an image, read and located in the target's allocations (step 3 of R388). -/
def Cx.savedContents (c : Cx) (x : Section) (a : Nat) (b : List Byte) : Cm (List (Loc × Byte)) := do
  let cm ← (List.range x.nStations).mapM fun st =>
    if x.cmBytes st = 0 then pure []
    else do
      let o := at8 b (640 + 16 * st + 8)
      need (decide (o + x.cmBytes st ≤ x.savedLen)) 0x0103
      let v ← c.read 0 (a + o) (x.cmBytes st)
      pure (intoPages true (x.cmPages.getD st []) v)
  let o := at8 b 48
  need (decide (o + x.resBytes ≤ x.savedLen)) 0x0103
  let v ← if x.resBytes = 0 then pure [] else c.read 0 (a + o) x.resBytes
  pure (cm.flatten ++ intoPages false x.resPages v)

/-- RESTORE_RES up to its commit: a SWAPPED target is placed again (step 2 of R388); the registers and the run number are
kept with the command. -/
def bodyRestoreRes (h : Nat) : Body := fun c w acc => do
  let s ← get
  let x := s.sec h
  let a := c.addr (at8 w 24)
  let b ← c.savedOk h x a
  let y ← if !x.swapped then pure x
    else match s.placed x with
      | .ok y => do
        modify fun s => (s.takeHoldings h y).updCmd c.ref fun k => { k with target := h }
        pure y
      | .error _ => throw 0x0601
  let ws ← c.savedContents y a b
  modify fun s => s.updCmd c.ref fun k => { k with acc := b }
  pure { acc with prod := { acc.prod with staged := acc.prod.staged ++ ws } }

/-- RESTORE_RES (R388). -/
def execRestoreRes (ref : CmdRef) (s : State) : Out :=
  match s.issued? ref 0x86 with
  | none => .next s
  | some k =>
    if k.skipped then .next (s.runUnit ref 0x86 (bodyRestoreRes 0))
    else match s.swapTarget k with
      | .error e => .next (s.failCmd ref e)
      | .ok h => if s.inRun h then .next s else .next (s.runUnit ref 0x86 (bodyRestoreRes h))

/-- What a swap does at its commit: step 4 of R387, step 4 of R388. -/
def State.commitSwap (s : State) (k : Cmd) : State :=
  let h := at4 k.word 12
  if k.skipped then s
  else if cOp k.word = 0x85 then
    let x := s.sec h
    ((s.freeHoldings h).updSec h fun x => { x with swapped := true }) |> fun s => x.objs.foldl State.freeObj s
  else if cOp k.word = 0x86 then
    s.updSec h fun x => { x with
      swapped := false, runNo := at4 k.acc 32, regs := tab 64 fun r => BitVec.ofNat 64 (at8 k.acc (128 + 8 * r)) }
  else s

/-- A killed RESTORE_RES gives back what it took for a SWAPPED target. -/
def State.undoSwap (s : State) (k : Cmd) : State :=
  if cOp k.word = 0x86 ∧ k.target ≠ 0 then (s.freeHoldings k.target).updCmd k.ref fun c => { c with target := 0 } else s

end Sys2Proof.Machine
end

