-- ==== Sys2Proof/Machine/Commit.lean ====
section
/-! DEFINITION. The end of commands: commit, widening, pre-emption, the end of kills, parity errors, and the frames of
routes (R123 to R126, R166 to R171, R207 to R210, R254 to R258, R369 to R371). -/

namespace Sys2Proof.Machine

/-! ### The saturation trigger (R166 to R168) -/

/-- Elements that a command writes to its main destination. -/
def Cx.mainElems (c : Cx) (w : List Byte) : Nat := prodL (c.tref (at2 w (mainDst (cOp w)))).ext

/-- A command whose conversions carry a saturation policy. -/
def satOp (w : List Byte) : Bool := cOp w == 0x00 || cOp w == 0x01 || cOp w == 0x41 || cOp w == 0x42

/-- The trigger of R167 holds: t = 16 where the field is 0, never where it is 31. -/
def satTrigger (t sat accSat n : Nat) : Bool := t != 31 && decide (n < (sat + accSat) * 2 ^ (if t = 0 then 16 else t))

/-- The words of a command with their records: the members of a chain have the records after the first. -/
def Cmd.wordInfos (k : Cmd) : List (Nat × List Byte × RecInfo) :=
  if cOp k.word = 0xE2 then (k.members.zip (k.infos.drop 1)).mapIdx fun i e => (i + 1, e) else [(0, k.word, k.infos.headD {})]

/-- The words of a command whose trigger holds, with their places among its records. -/
def State.triggered (s : State) (k : Cmd) : List (Nat × List Byte) :=
  let c := s.cxOf k
  if k.skipped then []
  else (k.wordInfos.filter fun e => satOp e.2.1 && satTrigger (cSatT e.2.1) e.2.2.sat e.2.2.accSat (c.mainElems e.2.1)).map fun e => (e.1, e.2.1)

/-- The destination's present format in a command's run. -/
def State.dstFmt (s : State) (k : Cmd) (w : List Byte) : Nat := (s.cxOf k).x.fmtOf (at2 w (mainDst (cOp w)))

/-- The words that widen: policy WIDEN, and a wider format exists. -/
def State.widening (s : State) (k : Cmd) : List (Nat × List Byte) :=
  (s.triggered k).filter fun e => cSatPol e.2 == 1 && (widerFmt (s.dstFmt k e.2)).isSome

/-- A command set for its widened re-run (steps 2 to 4 of R169). -/
def State.widen (s : State) (k : Cmd) : State :=
  (s.widening k).foldl (fun s e =>
    let f := (widerFmt (s.dstFmt k e.2)).getD 0
    s.updCmd k.ref fun k => { k with
      descFmt := (k.descFmt.filter fun d => d.1 != at2 e.2 (mainDst (cOp e.2))) ++ [(at2 e.2 (mainDst (cOp e.2)), f)]
      infos := k.infos.modify e.1 fun r => { r with final := f, widenings := r.widenings + 1 } }) s

/-! ### Commit (R208) -/

/-- Refill links set on the pages that a command wrote whole (R124). -/
def State.setRefills (s : State) (k : Cmd) : State :=
  match refSec k.ref with
  | none => s
  | some _ =>
    let d := (s.cxOf k).tref (at2 k.word 10)
    let link := fun (t : Tbl Page) => k.refills.foldl (fun t e => t.upd {} e.1 fun p => { p with refill := true, source := e.2 }) t
    if d.d.space = 1 then { s with chip := { s.chip with rsPages := link s.chip.rsPages } }
    else { s with chip := { s.chip with cmPages := link s.chip.cmPages } }

/-- Whether a command's record goes to the event ring (R182, R332). -/
def evtDue (ref : CmdRef) (r : RecInfo) : Bool :=
  r.evt || match ref with
    | .ring _ => r.abandoned || r.skipped
    | .station _ _ _ => false

/-- What a horizon command does after step 2: a RECV sends DONE (step 6 of R408); a collective's instance count rises (R411). -/
def State.commitHorizon (s : State) (k : Cmd) : State :=
  let op := cOp k.word
  if op / 32 ≠ 6 then s
  else
    let ms := s.hzn.msgs.filter fun m => m.cmd == some k.ref
    let s := if op = 0xC1 then ms.foldl (fun s m => s.sendCtrl m opDone 0) s else s
    let s := { s with hzn := { s.hzn with msgs := s.hzn.msgs.filter fun m => m.cmd != some k.ref } }
    match refSec k.ref with
    | some h => if op < 0xC2 ∨ k.skipped then s else s.updSec h fun x => { x with run := x.run.map fun r => { r with instances := r.instances.upd 0 (at2 k.word 14) (· + 1) } }
    | none => s

/-- Step 3 of R208 for one command: its registers and its descriptors' updates. -/
def State.commitRegs (s : State) (k : Cmd) : State :=
  match refSec k.ref with
  | some h => (s.writeRegs h k.regWrites).updSec h fun x => { x with
      tscales := k.descTs.foldl (fun t e => t.put e.1 e.2) x.tscales, fmts := k.descFmt.foldl (fun t e => t.put e.1 e.2) x.fmts }
  | none => s.writeRegs k.target k.regWrites

/-- What a command's record reports at its commit. -/
def Cmd.committed (k : Cmd) : List RecInfo := k.infos.map fun r => { r with reruns := k.reruns, status := if r.widenings = 0 then 0x0000 else 0x0001 }

/-- Step 5 of R208 for one command. -/
def State.commitRecords (s : State) (k : Cmd) : State :=
  match refSec k.ref with
  | some h => k.committed.foldl (fun s r => s.writeRecord h r) s
  | none => s

/-- Step 6 of R208 for the commands of a group: their event records in order; the last one waits for all when the ring is full. True
when all are written. -/
def State.commitEvents (s : State) (ks : List Cmd) : State × Bool :=
  let evs := ks.flatMap fun k => (k.committed.filter (evtDue k.ref)).map fun r => (k, r)
  evs.zipIdx.foldl (fun acc (e, i) =>
    let (s, ok) := acc.1.ctxEvent e.1.ctx { acc.1.commandEvent e.1.ref e.1.ctx e.2 with wake := if i + 1 = evs.length then some e.1.ref else none }
    (s, ok && (acc.2 || i + 1 != evs.length))) (s, true)

/-- Steps 3 to 8 of R208 for the commands of a group, as for one command (R257): registers, writes with those to the host in one
ascending order, records, event records, and then the fences and the ends of the commands. -/
def State.commitAll (s : State) (ks : List Cmd) : State :=
  let s := ks.foldl State.commitRegs s
  let s := s.applyStaged (ks.flatMap Cmd.staged)
  let s := ks.foldl (fun (s : State) k => ((s.setRefills k).commitSwap k).commitHorizon k) s
  let s := ks.foldl State.commitRecords s
  let (s, ok) := s.commitEvents ks
  if ok then ks.foldl State.finishCmd s
  else ks.foldl (fun s k => s.updCmd k.ref fun c => { c with phase := .recording }) s

/-- Step 1 of R208 for the commands of a group, and their commit: FAIL fails, WIDEN re-runs the group (R258), and the
members commit in order of station and index. -/
def State.commitGroup (s : State) (ks : List Cmd) : State :=
  match ks.find? fun k => (s.triggered k).any fun e => cSatPol e.2 == 2 with
  | some k => s.failCmd k.ref 0x0402
  | none =>
    let ws := ks.filter fun k => !(s.widening k).isEmpty
    if ws.isEmpty then s.commitAll ks
    else (ws.foldl State.widen s).kill (ks.map Cmd.ref) 6

/-- The command has done its last write, and a sending MCAST has delivered its copies (R224). -/
def State.readyToCommit (s : State) (k : Cmd) : Bool :=
  k.phase == .written && (cOp k.word != 0x83 || !mcSender k.word || s.mcAll k.ref)

/-- The commands that commit with one: a complete BARRIER's peers (R227), else itself. -/
def State.withPeers (s : State) (k : Cmd) : List Cmd :=
  if cOp k.word = 0xA3 ∧ !k.skipped then ((s.barrierSet k.ref).filterMap s.cmd?).filter fun c => c.phase == .written && !c.skipped else [k]

/-- COMMAND_COMMIT (R208): the commit of a command that forms a group of its own. -/
def execCommandCommit (ref : CmdRef) (s : State) : Out :=
  match s.cmd? ref with
  | none => .next s
  | some k => .next (if s.readyToCommit k && (s.groupRoutes ref).isEmpty then s.commitGroup (s.withPeers k) else s)

/-- Every member of a command's stream group, in order of station and index; none where one is not in flight (R257). -/
def State.wholeGroup (s : State) (ref : CmdRef) : Option (List Cmd) :=
  match ref with
  | .ring _ => none
  | .station h st i => ((s.sec h).group st i).mapM fun e => s.cmd? (.station h e.1 e.2)

/-- STREAM_GROUP_COMMIT (R257): after the last write of the last member, the group commits as one command. -/
def execStreamGroupCommit (ref : CmdRef) (s : State) : Out :=
  match s.wholeGroup ref with
  | none => .next s
  | some ks => .next (if !(s.groupRoutes ref).isEmpty && ks.all s.readyToCommit then s.commitGroup ks else s)

/-! ### Kills (R369 to R371) -/

/-- The members of a command's group that a kill meets: those not past step 2 of R208. -/
def State.killable (s : State) (ref : CmdRef) : List CmdRef :=
  (s.groupRefs ref).filter fun r => (s.cmd? r).any fun k => k.phase != .recording && k.phase != .killed

/-- The unit number of a core's unit. -/
def unitNo (core : Nat) (unit : UnitKind) : Nat :=
  5 * core + (match unit with | .pan0 => 0 | .pan1 => 1 | .vector => 2 | .transfer => 3 | .statistics => 4)

/-- The best-effort command that a unit executes. -/
def State.beRunning (s : State) (u : Nat) : Option Cmd :=
  ((s.un u).cur.bind s.cmd?).filter fun k => !k.lc && k.phase != .recording && k.phase != .killed

/-- The latency-critical command that is issuable on the unit and waits. -/
def State.lcWaiting (s : State) (u : Nat) : Option Cmd :=
  let q := (s.un u).queue
  (q.filterMap s.cmd?).find? fun k => k.lc && k.phase == .issued && s.turnOf u k.ref && s.framesIn k && k.held.isEmpty

/-- PREEMPT_WAIT_EXPIRY (R369, R371): at the end of the wait the best-effort command is killed with its group; the kill
never applies to a horizon command (R409), so a group that holds one goes on (log entry 44). -/
def execPreemptWaitExpiry (core : Nat) (unit : UnitKind) (s : State) : Out :=
  if 480 ≤ core then .fault (.noSuchUnit "core")
  else
    let u := unitNo core unit
    match s.beRunning u, s.lcWaiting u with
    | some be, some lc =>
      let p := (s.sec ((refSec lc.ref).getD 0)).part
      let s := s.atTime (lc.reached + 10 * fld (s.pt p).rt.toNat 8 12)
      let refs := s.killable be.ref
      let refs := if refs.any fun r => (s.cmd? r).any fun k => cOp k.word / 32 == 6 then [] else refs
      let s := s.kill refs 1
      let q := (s.sec ((refSec be.ref).getD 0)).part
      .next ((s.updPt q fun p => { p with preempt := satadd 32 p.preempt refs.length }).perf (core / 48) 0x0A refs.length)
    | _, _ => .next s

/-- A command that is to run again put back into its unit's queue: after a parity error or a widening at the queue's head (R123 step
7), after a pre-emption at the head of its program's place (R371). Where the queue is full, the command admitted last gives its
entry back, as in R367 (R113; DESIGN CHOICE, log entry 78). -/
def State.requeue (s : State) (k : Cmd) : State :=
  match k.ref with
  | .ring _ => s
  | .station h st i =>
    match (s.sec h).unitFor st k.word with
    | none => s
    | some u => s.updUn u fun q =>
      let kept := if q.queue.length < 8 then q.queue
        else match (q.queue.filter fun r => q.cur != some r).getLast? with
          | some r => q.queue.erase r
          | none => q.queue.dropLast
      let j := if k.killCause = 1 then
          (kept.findIdx? fun r => match r with | .station g t n => g == h && t == st && decide (i < n) | .ring _ => false).getD kept.length
        else 0
      { q with queue := kept.take j ++ [k.ref] ++ kept.drop j }

/-- KILL_COMPLETE (step 7 of R370): a command killed to run again is issued again, its resolved values, draws and counts
of re-runs and widenings kept, its other counts afresh (R171, R371); the others are gone. -/
def execKillComplete (ref : CmdRef) (s : State) : Out :=
  match s.cmd? ref with
  | none => .next s
  | some k =>
    if k.phase != .killed then .next s
    else
      let s := s.undoSwap k
      if k.killCause = 2 ∨ k.killCause = 3 ∨ k.killCause = 4 then .next ((s.dropCmds [ref]).settle k.ctx)
      else
        let s := { s with hzn := { s.hzn with msgs := s.hzn.msgs.filter fun m => m.cmd != some ref } }
        let s := s.updCmd ref fun k => { k with
          phase := .issued, killCause := 0, rerunMark := false, step := 0, call := none
          infos := k.infos.map fun r => { r with sat := 0, accSat := 0, nonfinite := false } }
        let s := s.requeue k
        .next ((refSec ref).elim s s.takeFrames)

/-! ### Parity (R122 to R126) -/

/-- CLS_PAR_LAST of an error: the first since VALID was cleared is kept. -/
def parLast (old : Word) (store core pan addr ctx : Nat) (stored refilled : Bool) : Word :=
  if old.getLsbD 39 then old
  else BitVec.ofNat 64 (addr % 2 ^ 26 + 2 ^ 26 * (core % 64) + 2 ^ 32 * store + 2 ^ 36 * pan + 2 ^ 37 * b2n stored + 2 ^ 38 * b2n refilled + 2 ^ 39 + 2 ^ 40 * (ctx % 256))

/-- A page with a stored error refilled from the source of its link, through the present translation of its owner (R124);
false where the read faults. -/
def State.refillPage (s : State) (res : Bool) (page ctx : Nat) (ref : CmdRef) : State × Bool :=
  let p := (if res then s.chip.rsPages else s.chip.cmPages).get {} page
  p.source.foldl (fun (acc : State × Bool) e =>
    if !acc.2 then acc
    else match acc.1.readVa { ctx, ref := some ref } e.2.1 e.2.2 with
      | (.error _, s) => (s, false)
      | (.ok b, s) =>
        let put := fun (m : Mem) => m.wrN (65536 * page + e.1) b
        (if res then { s with chip := { s.chip with rs := put s.chip.rs } } else { s with chip := { s.chip with cm := put s.chip.cm } }, true)) (s, true)

/-- A stored error noted at its page (R124). -/
def State.markPage (s : State) (res : Bool) (page : Nat) : State :=
  let mark := fun (t : Tbl Page) => t.upd {} page fun p => { p with storedErr := true }
  if res then { s with chip := { s.chip with rsPages := mark s.chip.rsPages } }
  else { s with chip := { s.chip with cmPages := mark s.chip.cmPages } }

/-- The counts and the log records of a parity error of command k (R123 to R126): kind and unit as R507 names them. -/
def State.noteParity (s : State) (cluster kind unit addr : Nat) (k : Cmd) (last : Word → Word) (stored refilled fails : Bool) : State :=
  let s := s.updCl cluster fun c => { c with
    parCount := satinc 32 c.parCount, parStored := if stored then satinc 32 c.parStored else c.parStored, parLast := last c.parLast }
  let w := (s.cl cluster).parLast.toNat
  let s := if stored then s.logEv 0x3003 (if fails then 2 else 1) kind unit k.ctx [if fails then 0x0401 else 0, w, addr] else s
  let s := if refilled then s.logEv 0x3002 1 kind unit k.ctx [0, w, addr] else s
  s.updCmd k.ref fun k => { k with infos := k.infos.map fun r => { r with refilled := r.refilled || refilled } }

/-- A write of CLS_PAR_LAST: a 1 in VALID clears it (R127; the manual gives the register no offset, log entry 75). CLS_PAR_COUNT,
CLS_PAR_STORED and CLS_PAR_LAST read as Cluster.parRegs has them. -/
def Cluster.writeParLast (k : Cluster) (w : Word) : Cluster :=
  if w.getLsbD 39 then { k with parLast := k.parLast &&& ~~~(BitVec.ofNat 64 (2 ^ 39)) } else k
def Cluster.parRegs (k : Cluster) : List Word := [BitVec.ofNat 64 k.parCount, BitVec.ofNat 64 k.parStored, k.parLast]

/-- CLS_CMPG_OWNER or CLS_RSPG_OWNER of a page as it reads (R117, R141). -/
def OnChip.pageReg (c : OnChip) (p : Page) : Word :=
  BitVec.ofNat 64 (p.owner % 256 + 2 ^ 8 * ((if p.fresh then (if c.booted then 0 else 2) else p.st) % 4) + 2 ^ 10 * b2n p.refill + 2 ^ 11 * b2n p.storedErr)

/-- What follows for the command: it fails, its horizon work stands, or it is run again (R123, R409). -/
def State.endParity (s : State) (cluster kind unit addr : Nat) (k : Cmd) (fails : Bool) : State :=
  if fails then s.failCmd k.ref 0x0401
  else if cOp k.word / 32 == 6 then s
  else
    let s := (s.logEv 0x3001 1 kind unit k.ctx [0, (s.cl cluster).parLast.toNat, addr]).perf cluster 0x0B 1
    let s := s.updCmd k.ref fun k => { k with reruns := k.reruns + 1, rerunMark := true }
    s.kill (s.killable k.ref) 5

/-- An error of a SEC-DED store, by store number: 9 owner entries, 10 sequencer memory, 11 parameter-register slots, 12 translation
unit of the cluster; 13 hub SRAM, 14 management SRAM. A single error is corrected and counted; a double one is an uncontained fault
(R122, R127, R526; the numbers are the model's, log entry 75). -/
def State.secDed (s : State) (store cluster addr : Nat) (double : Bool) : State :=
  let kind := if store < 13 then 1 else 0
  let unit := if store < 13 then cluster else 0
  if !s.hubUp then s
  else if double then s.uncontained 5 kind unit 0x3005 [0x0802, (s.cl cluster).parLast.toNat, addr]
  else s.logCo 0x3004 0 kind unit 0 [0, (s.cl cluster).parLast.toNat, addr]

/-- PARITY_ERROR (R122 to R126; a horizon command is never run again, R409): store as in CLS_PAR_LAST, core within the cluster; again is the second mismatch of step 3.
Stores 9 to 14 are those with SEC-DED, where again is a double error. -/
def execParityError (store cluster core pan addr : Nat) (ref : CmdRef) (again : Bool) (s : State) : Out :=
  if 10 ≤ cluster ∨ 15 ≤ store ∨ (48 ≤ core ∧ core ≠ 63) ∨ 2 ≤ pan ∨ 2 ^ 26 ≤ addr then .fault (.noSuchUnit "store")
  else if 9 ≤ store then .next (s.secDed store cluster addr again)
  else
    match s.cmd? ref with
    | none => .next s
    | some k =>
      if k.phase == .recording || k.phase == .killed then .next s
      else
        let res := store == 1
        let stored := again && decide (store ≤ 1)
        let page := if res then 1024 * cluster + addr / 65536 else 32 * (48 * cluster + core) + addr / 65536
        let link := (if res then s.chip.rsPages else s.chip.cmPages).get {} page
        let r := if stored && link.refill then s.refillPage res page link.owner ref else (s, false)
        let refilled := r.2
        let fails := (stored && !refilled) || (decide (3 ≤ k.reruns) && cOp k.word / 32 != 6)
        let kind := if res then 1 else 2
        let unit := if res then cluster else 48 * cluster + core
        let s := if stored then r.1.markPage res page else r.1
        let s := s.noteParity cluster kind unit addr k (fun w => parLast w store core pan addr k.ctx stored refilled) stored refilled fails
        .next (s.endParity cluster kind unit addr k fails)

/-! ### Frames (R250 to R256) -/

/-- A consumer of a route has room for one frame. -/
def Section.roomFor (x : Section) (run : Run) (route st : Nat) : Bool :=
  decide ((run.buffers.get [] (512 * route + st)).length < x.depth route)

/-- A unit whose command has emitted the last frame that it held is free (R254). -/
def State.freeUnits (s : State) (h : Nat) : State :=
  let x := s.sec h
  let held := ((x.run.map Run.heldFrames).getD []).map Prod.fst
  { s with units := s.units.mapAll {} fun _ u => { u with cur := u.cur.filter fun r => match r with
      | .station g st i => !(g == h && (s.cmd? r).any (fun k => k.phase == .written) && ((x.routesOf (x.wordsAt st i)).all fun e => !e.2 || !held.contains e.1))
      | .ring _ => true } }

/-- Tokens of a frame at the hub links: once to each cluster that it reaches past the hub (R149, R255, R375). -/
def State.frameTokens (s : State) (x : Section) (route : Nat) (f : SFrame) : List (Nat × Nat) :=
  let cl := fun st => (x.coreOf st).map (· / 48)
  let n := cdiv (cdiv (f.codes.length * fmtBits f.fmt) 8 + f.scales.length) 64
  addTokens (((x.consumers route).map cl).dedup.flatMap fun d => s.hubTokens x.part (cl (x.producer route)) d n)

/-- FRAME_EMIT (R250, R254, R255): the oldest frame that the producer holds for a route leaves when every consumer's buffer
has room for it, and the sluices serve it. -/
def execFrameEmit (sec route : Nat) (s : State) : Out :=
  let x := s.sec sec
  match x.run with
  | none => .next s
  | some run =>
    match run.heldFrames.findIdx? fun e => e.1 == route, (run.heldFrames.find? fun e => e.1 == route) with
    | some i, some e =>
      let paid := s.chargeAll x.lc (s.frameTokens x route e.2)
      if route < x.nRoutes ∧ (x.consumers route).all (x.roomFor run route) ∧ paid.1.isEmpty then
        let s := paid.2
        let bufs := (x.consumers route).foldl (fun b st => b.put (512 * route + st) (Tbl.get [] b (512 * route + st) ++ [e.2])) run.buffers
        let run := { run with heldFrames := run.heldFrames.eraseIdx i, buffers := bufs, moved := run.moved.put route s.time.now }
        let s := s.updSec sec fun x => { x with run := some run }
        .next ((s.takeFrames sec).freeUnits sec)
      else .next s
    | _, _ => .next s

/-- ROUTE_STALL_TIMEOUT (R256): no frame has moved on any route of the group for 2,000 ms. -/
def execRouteStallTimeout (ref : CmdRef) (s : State) : Out :=
  match refSec ref, s.cmd? ref with
  | some h, some k =>
    let rs := s.groupRoutes ref
    let ks := (s.groupRefs ref).filterMap s.cmd?
    if rs.isEmpty || k.phase == .recording || k.phase == .killed || ks.all (fun k => k.phase == .written) then .next s
    else
      let moved := ((s.sec h).run.map Run.moved).getD []
      let t := (rs.map fun r => moved.get 0 r).foldl max (ks.foldl (fun t k => max t k.reached) 0)
      .next ((s.atTime (t + 2000000000)).failCmd ref 0x0301)
  | _, _ => .next s

end Sys2Proof.Machine
end

