-- ==== Sys2Proof/Machine/Compute.lean ====
section
/-! DEFINITION. The matrix, vector, quantisation and random commands (R211 to R223): the execution of a command of a
unit's queue, up to its last write. -/

namespace Sys2Proof.Machine

/-- MATMUL (R211, R212): executed once its pan operations have issued. -/
def execMatmul (ref : CmdRef) (s : State) : Out := .next (s.runUnit ref 0x00 bodyMatmul)

/-- ATTEND (R213 to R215). -/
def execAttend (ref : CmdRef) (s : State) : Out := .next (s.runUnit ref 0x01 bodyAttend)

/-- VOP (R218). -/
def execVop (ref : CmdRef) (s : State) : Out := .next (s.runUnit ref 0x20 bodyVop)

/-- REDUCE (R219). -/
def execReduce (ref : CmdRef) (s : State) : Out := .next (s.runUnit ref 0x21 bodyReduce)

/-- SOFTMAX (R219). -/
def execSoftmax (ref : CmdRef) (s : State) : Out := .next (s.runUnit ref 0x22 bodySoftmax)

/-- NORM (R219). -/
def execNorm (ref : CmdRef) (s : State) : Out := .next (s.runUnit ref 0x23 bodyNorm)

/-- ACTIVATE (R219). -/
def execActivate (ref : CmdRef) (s : State) : Out := .next (s.runUnit ref 0x24 bodyActivate)

/-- ROPE (R219). -/
def execRope (ref : CmdRef) (s : State) : Out := .next (s.runUnit ref 0x25 bodyRope)

/-- TOPK (R219). -/
def execTopk (ref : CmdRef) (s : State) : Out := .next (s.runUnit ref 0x26 bodyTopk)

/-- SAMPLE (R222). -/
def execSample (ref : CmdRef) (s : State) : Out := .next (s.runUnit ref 0x27 bodySample)

/-- STATS (R153, R220). -/
def execStats (ref : CmdRef) (s : State) : Out := .next (s.runUnit ref 0x40 bodyStats)

/-- QUANT (R154, R155). -/
def execQuant (ref : CmdRef) (s : State) : Out := .next (s.runUnit ref 0x41 bodyQuant)

/-- REQUANT (R159). -/
def execRequant (ref : CmdRef) (s : State) : Out := .next (s.runUnit ref 0x42 bodyRequant)

/-- DEQUANT (R156). -/
def execDequant (ref : CmdRef) (s : State) : Out := .next (s.runUnit ref 0x43 bodyDequant)

/-- MASK (R180). -/
def execMask (ref : CmdRef) (s : State) : Out := .next (s.runUnit ref 0x60 bodyMask)

/-- RNDFILL (R181). -/
def execRndfill (ref : CmdRef) (s : State) : Out := .next (s.runUnit ref 0x61 bodyRndfill)

end Sys2Proof.Machine
end

