-- ==== Sys2Proof/Machine/Link.lean ====
section
/-! DEFINITION. The horizon's link layer: training, sequence numbers, retry and credits, HZN_CTRL and domains, and remote
signals (R39, R344, R397 to R407, R413). -/

namespace Sys2Proof.Machine

/-! ### Counters and states -/

/-- HZN_VIOL. -/
def Horizon.violReg (h : Horizon) : Nat := h.violCount + 2 ^ 32 * h.violKind

/-- A link-partner protocol violation on a port (R404). -/
def State.linkViol (s : State) (p kind : Nat) : State :=
  let s := { s with hzn := { s.hzn with violCount := satinc 32 s.hzn.violCount, violKind := kind } }
  s.logCo 0x5002 1 5 p 0 [0, s.hzn.violReg, 0]

/-- What follows a change of the ports that are up: G_HZN_NOW and PART_OVERSUB (R316, R378). -/
def State.widthChanged (s : State) (before : Nat) : State :=
  if s.gHznNow = before then s else (s.devChangeAll 0x1064).refreshOversub

/-- STATE of a port changed, with its log record (R399). -/
def State.portState (s : State) (p st : Nat) : State :=
  if (s.port p).st = st then s
  else
    let g := s.gHznNow
    ((s.updPort p fun q => { q with st }).logEv 0x5001 0 5 p 0 [0, s.hzn.violReg, 0]).widthChanged g

/-- Event U of R398: the port trains, or stays down without its reference clock (R39, R42). -/
def State.startTrain (s : State) (p : Nat) : State :=
  let s := s.updPort p fun q => { st := q.st, since := s.time.now }
  if s.pins.sdsAbsent.get false (p / 12) then s.portState p 0 else s.portState p 1

/-- Ports go down together and train again; what they had not delivered goes to other ports of its routes (R399). -/
def State.loseLinks (s : State) (ps : List Nat) : State :=
  let fs := (ps.flatMap fun p => (s.port p).retry.map Prod.snd ++ (s.port p).waitq).map parseFr
  let s := ps.foldl (fun s p => (s.updPort p fun q => { q with retry := [], waitq := [] }).portState p 0) s
  fs.foldl (fun s f => s.sendTo f.place f) (ps.foldl State.startTrain s)
def State.loseLink (s : State) (p : Nat) : State := s.loseLinks [p]

/-- The horizon runs and the port is present and enabled. -/
def State.portOn (s : State) (p : Nat) : Bool := s.ready && s.hzn.enabled && s.portPresent p && s.hzn.portEn p

/-! ### The legality of a frame (R400, R404) -/

/-- The operations of a TYPE (R400). -/
def opOk (typ op : Nat) : Bool :=
  match typ with
  | 2 => 1 ≤ op && op ≤ 9
  | 5 => 1 ≤ op && op ≤ 4
  | t => (t == 1 || t == 3 || t == 4 || t == 6) && op == 0

/-- Reserved bits of the header are 0, TYPE, OP and LEN are legal (R400, R404). -/
def fieldsLegal (b : List Byte) (f : Fr) : Bool :=
  fld (at1 b 0) 5 3 == 0 && fld (at1 b 6) 5 3 == 0 && fld f.dst 18 6 == 0 && fld f.src 18 6 == 0 && opOk f.typ f.op && f.len ≤ 16

/-- Engine IDs are legal, and a frame for an engine on a peer port is for this one (R404). -/
def State.addressOk (s : State) (p : Nat) (f : Fr) : Bool :=
  !bit f.dst 17 && !bit f.src 17 && (s.hzn.toSwitch p || (f.typ != 1 && f.typ != 2 && f.typ != 5) || f.dst == s.hzn.engineId)

/-! ### Training (R398) -/

/-- PCS lock: how many lanes trained is open, 4, 2 or 1 (R397, R398 step 1; a free value). -/
def State.pcsLock (s : State) (p : Nat) : State :=
  if (s.port p).pcsLocked then s
  else
    let n := [4, 2, 1].getD ((Config.freeWord s.free).toNat % 3) 4
    { s with free := s.free + 1 }.updPort p fun q => { q with pcsLocked := true, lanes := n }

/-- Buffers and window of this engine (R401, R402). -/
def ownWindow : Nat := 512
def ownBulk : Nat := 512
def ownCtrl : Nat := 32

/-- The payload of a TRAIN frame (places: log entry 37). -/
def State.trainPayload (s : State) (p : Nat) : List Byte :=
  leBytes 2 0x0100 ++ leBytes 2 0x0100 ++ leBytes 2 ownWindow ++ leBytes 2 ownBulk ++ leBytes 2 ownCtrl ++ leBytes 1 0
    ++ leBytes 3 s.hzn.engineId ++ leBytes 1 (s.port p).lanes

/-- The SDS_REFCLK of a port whose lanes carry TRAIN frames is present: where it was lost, the ports of its group that it
took down train again (step 1 of R398; the table has no row for the clock's return, log entry 73). -/
def State.sdsReturn (s : State) (p : Nat) : State :=
  if s.portOn p && s.pins.sdsAbsent.get false (p / 12) then
    let s := { s with pins := { s.pins with sdsAbsent := s.pins.sdsAbsent.set false (p / 12) false } }
    ((tab 12 fun i => p / 12 * 12 + i).filter fun q => s.portOn q && (s.port q).st == 0).foldl State.startTrain s
  else s

/-- TRAIN_FRAME_SEND (step 2 of R398): every 10 µs while the port trains. -/
def execTrainFrameSend (port : Nat) (s : State) : Out :=
  let s := s.sdsReturn port
  if 36 ≤ port then .fault (.noSuchUnit "port")
  else if !s.portOn port || (s.port port).st != 1 then .next s
  else
    let s := s.pcsLock port
    .next (s.emit (.frame port ({ typ := 6, dst := s.hzn.peer port, src := s.hzn.engineId, payload := s.trainPayload port : Fr }).bytes))

/-- TRAIN (steps 3 to 6 of R398): a frame whose CRC fails is not taken. -/
def execTrain (port : Nat) (frame : List Byte) (s : State) : Out :=
  let s := s.sdsReturn port
  if 36 ≤ port then .fault (.noSuchUnit "port")
  else if !s.portOn port || (s.port port).st != 1 then .next s
  else if !frameOk frame then .next { s with hzn := { s.hzn with crcErrs := satinc 32 s.hzn.crcErrs } }
  else
    let f := parseFr frame
    let b := f.payload
    if f.typ != 6 then .next s
    else if !fieldsLegal frame f || f.len != 1 then .next (s.linkViol port 3)
    else if !s.addressOk port f then .next (s.linkViol port 4)
    else
      let s := s.pcsLock port
      if 0x0100 < at2 b 0 ∨ at2 b 2 < 0x0100 then .next (s.linkViol port 5)
      else if !s.hzn.toSwitch port && leAt b 11 3 != s.hzn.peer port then .next (s.updPort port fun q => { q with mismatch := true })
      else
        let s := s.updPort port fun q => { q with
          mismatch := false, window := min ownWindow (at2 b 4), crBulk := at2 b 6, crCtrl := at2 b 8
          txSeq := 0, expected := 0, retry := [], retrans := 0, rxBulk := 0, rxCtrl := 0 }
        .next (s.portState port 2).flushFrames.flushSignals

/-- TRAINING_TIMEOUT (R398): step 2 or 3 is not complete by U + 500 ms. -/
def execTrainingTimeout (port : Nat) (s : State) : Out :=
  if 36 ≤ port then .fault (.noSuchUnit "port")
  else if !s.portOn port || (s.port port).st != 1 || (s.port port).mismatch then .next s
  else
    let s := s.atTime ((s.port port).since + 500000000)
    .next (s.updPort port fun q => { st := q.st, since := s.time.now })

/-- PORT_DOWN (R399): PCS lock is lost. -/
def execPortDown (port : Nat) (s : State) : Out :=
  if 36 ≤ port then .fault (.noSuchUnit "port")
  else if !s.portOn port || (s.port port).st != 2 then .next s else .next (s.loseLink port)

/-- SDS_REFCLK_LOST (R39): the ports of the group go down. -/
def execSdsRefclkLost (group : Nat) (s : State) : Out :=
  if 3 ≤ group then .fault (.noSuchUnit "SDS_REFCLK")
  else
    let s := { s with pins := { s.pins with sdsAbsent := s.pins.sdsAbsent.put group true } }
    let ps := (tab 12 fun i => 12 * group + i).filter fun p => s.portOn p && ((s.port p).st == 1 || (s.port p).st == 2)
    .next (s.loseLinks ps)

/-! ### Sequence, window and retry (R401, R402) -/

/-- An acknowledgement: the frames before ACK leave the retry buffer. -/
def State.takeAck (s : State) (p ack : Nat) : State :=
  let q := s.port p
  match q.retry.head? with
  | none => s
  | some (first, _) =>
    let n := cdist 16 ack first
    if n = 0 ∨ q.retry.length < n then s
    else s.updPort p fun q => { q with retry := q.retry.drop n, retrans := 0, lastAck := s.time.now }

/-- Credits that a frame returns, and the frames that may now leave. -/
def State.takeCredits (s : State) (p : Nat) (f : Fr) : State :=
  let s := s.updPort p fun q => { q with crBulk := q.crBulk + f.cr0, crCtrl := q.crCtrl + f.cr1 }
  s.pumpPort p (s.port p).waitq.length

/-- ACK or NAK sent, with the credits that this engine owes (R401, R402; other fields: log entry 36). -/
def State.sendAck (s : State) (p typ : Nat) : State :=
  let q := s.port p
  let f : Fr :=
    { typ, ack := q.expected, cr0 := min q.rxBulk 15, cr1 := min q.rxCtrl 15, dst := s.hzn.peer p, src := s.hzn.engineId }
  (s.updPort p fun q => { q with rxBulk := q.rxBulk - min q.rxBulk 15, rxCtrl := q.rxCtrl - min q.rxCtrl 15 }).emit (.frame p f.bytes)

/-- Every unacknowledged frame sent again in order, without a credit; 64 in a row of the oldest take the port down. -/
def State.resendAll (s : State) (p : Nat) : State :=
  let q := s.port p
  if q.retry.isEmpty then s
  else
    let n := q.retry.length
    let s := q.retry.foldl (fun s e => s.emit (.frame p (e.2 ++ leBytes 4 (crc32 e.2)))) s
    let s := { s with hzn := { s.hzn with retries := satadd 32 s.hzn.retries n } }
    (s.updPort p fun q => { q with retrans := q.retrans + 1 }).logCo 0x5003 0 5 p 0 [0, s.hzn.violReg, 0]

/-- A received frame of a TYPE and OP: its checks (R400, R404), its acknowledgement, its place in the window (R401), and for
an accepted one what the message layer does. A frame for another engine that a switch delivers has no effect there. -/
def State.receive (s : State) (p : Nat) (frame : List Byte) (typ op : Nat) (act : State → Fr → State) : Out :=
  if 36 ≤ p then .fault (.noSuchUnit "port")
  else if !s.portOn p || (s.port p).st != 2 then .next s
  else if !frameOk frame then
    let s := { s with hzn := { s.hzn with crcErrs := satinc 32 s.hzn.crcErrs } }
    .next (if typ = 5 then s else s.sendAck p 4)
  else
    let f := parseFr frame
    if !fieldsLegal frame f then .next (s.linkViol p 3)
    else if !s.addressOk p f then .next (s.linkViol p 4)
    else if f.typ != typ || f.op != op then .next s
    else
      let s := s.takeAck p f.ack
      let mine := fun (s : State) => if f.dst == s.hzn.engineId then act s f else s
      if typ = 1 ∨ typ = 2 then
        let q := s.port p
        let d := cdist 16 f.seq q.expected
        if d = 0 then
          if (if f.vc = 1 then ownCtrl ≤ q.rxCtrl else ownBulk ≤ q.rxBulk) then .next (s.linkViol p 2)
          else
            let s := s.updPort p fun q => { q with
              expected := (q.expected + 1) % 65536
              rxBulk := if f.vc = 1 then q.rxBulk else q.rxBulk + 1, rxCtrl := if f.vc = 1 then q.rxCtrl + 1 else q.rxCtrl }
            .next (mine (s.takeCredits p f))
        else if d < q.window then .next (s.sendAck p 4)
        else if 65536 - q.window ≤ d then .next (s.sendAck p 3)
        else .next (s.linkViol p 1)
      else if typ = 5 then .next (mine (s.takeCredits p f))
      else .next (act (s.takeCredits p f) f)

/-- ACK (R401). -/
def execAck (port : Nat) (frame : List Byte) (s : State) : Out := s.receive port frame 3 0 fun s _ => s

/-- NAK (R401): every frame from ACK onward is sent again. -/
def execNak (port : Nat) (frame : List Byte) (s : State) : Out := s.receive port frame 4 0 fun s _ => s.resendAll port

/-- RETRANSMIT_TIMEOUT (R401): no ACK has advanced for 10 µs. -/
def execRetransmitTimeout (port : Nat) (s : State) : Out :=
  if 36 ≤ port then .fault (.noSuchUnit "port")
  else
    let q := s.port port
    if !s.portOn port || q.st != 2 || q.retry.isEmpty then .next s
    else .next ((s.atTime (q.lastAck + 10000 * (q.retrans + 1))).resendAll port)

/-- LINK_ACK_TIMEOUT (R399): 64 retransmissions in a row of one frame, or 1 ms without an acknowledgement. -/
def execLinkAckTimeout (port : Nat) (s : State) : Out :=
  if 36 ≤ port then .fault (.noSuchUnit "port")
  else
    let q := s.port port
    if !s.portOn port || q.st != 2 || q.retry.isEmpty then .next s
    else .next ((if 64 ≤ q.retrans then s else s.atTime (q.lastAck + 1000000)).loseLink port)

/-- ACK_KEEPALIVE (R401): an ACK of what has been received. -/
def execAckKeepalive (port : Nat) (s : State) : Out :=
  if 36 ≤ port then .fault (.noSuchUnit "port")
  else if !s.portOn port || (s.port port).st != 2 then .next s else .next (s.sendAck port 3)

/-! ### HZN_CTRL and domains (R315, R405, R407) -/

/-- Every field of the horizon's set-up is locked while ENABLE is 1: an ignored write is counted (R405). -/
def State.lockedWrite (s : State) : State := s.viol 0 4

/-- A write of HZN_CTRL. -/
def State.writeHznCtrl (s : State) (v : Nat) : State :=
  let id := fld v 0 18
  let s : State := if id = s.hzn.engineId then s
    else if s.hzn.enabled || bit id 17 then s.lockedWrite
    else { s with hzn := { s.hzn with engineId := id } }
  if bit v 32 == s.hzn.enabled then s
  else if bit v 32 then
    let s := { s with hzn := { s.hzn with ctrl := BitVec.ofNat 64 (2 ^ 32 + s.hzn.engineId) } }
    let ps := (List.range 36).filter fun p => s.portPresent p && s.hzn.portEn p
    (ps.foldl State.startTrain s).devChangeAll 0x20
  else
    let s := { s with hzn := { s.hzn with ctrl := BitVec.ofNat 64 (fld s.hzn.ctrl.toNat 0 18) } }
    let ps := (List.range 36).filter fun p => (s.port p).st != 3
    let s := ps.foldl (fun s p => (s.portState p 3).updPort p fun _ => {}) s
    s.devChangeAll 0x20

/-- HORIZON_ENABLE (R315, R398, R405): value is the write of HZN_CTRL, with ENABLE 1. -/
def execHorizonEnable (value : Nat) (s : State) : Out :=
  if !s.ready || !bit value 32 then .next s else .next (s.writeHznCtrl value)

/-- HORIZON_DISABLE (R315): ENABLE cleared; the ID stays. -/
def execHorizonDisable (s : State) : Out :=
  if !s.ready then .next s else .next (s.writeHznCtrl s.hzn.engineId)

/-- A context has a resident section with a horizon station. -/
def State.horizonResident (s : State) (c : Nat) : Bool :=
  s.secs.any fun e => e.2.ctx == c && !e.2.swapped && (List.range e.2.nStations).any fun st => e.2.kind st == 5

/-- HZN_DOMAIN_WRITE (R405): the domains of contexts 4·reg to 4·reg + 3. -/
def execHznDomainWrite (reg value : Nat) (s : State) : Out :=
  if 64 ≤ reg then .fault (.noSuchUnit "HZN_DOMAIN")
  else if !s.ready then .next s
  else .next ((List.range 4).foldl (fun s k =>
    let d := fld value (16 * k) 16
    if s.hzn.domainOf (4 * reg + k) = d then s
    else if s.horizonResident (4 * reg + k) then s.lockedWrite
    else
      let w := (s.hzn.domains.get 0 reg).toNat
      { s with hzn := { s.hzn with domains := s.hzn.domains.set 0 reg (BitVec.ofNat 64 (w - fld w (16 * k) 16 * 2 ^ (16 * k) + d * 2 ^ (16 * k))) } }) s)

/-! ### Remote signals (R344, R407, R413) -/

/-- A remote signal that the fence unit drops (R344). -/
def State.dropRemote (s : State) : State := { s with remoteDrop := satinc 32 s.remoteDrop }

/-- REMOTE_SIGNAL (R344, R407): the fence's owner must have the sender's domain; the fence's filter then decides. -/
def execRemoteSignal (port : Nat) (frame : List Byte) (s : State) : Out :=
  s.receive port frame 2 opSignal fun s f =>
    let handle := at4 f.payload 0
    match s.fenceSlot handle with
    | none => s.dropRemote
    | some i =>
      let x := s.fe i
      if x.life != .live then s.dropRemote
      else if s.hzn.domainOf x.owner != f.domain || f.domain == 0 then
        { s with hzn := { s.hzn with dropDomain := satinc 32 s.hzn.dropDomain } }
      else if !x.remote || (f.src &&& x.mask) != (x.base &&& x.mask) then s.dropRemote
      else (s.signalFence i (at8 f.payload 8) false).1

/-- REMOTE_SIGNAL_DROP (R413): the oldest held signal has waited 2,000 ms without a route. -/
def execRemoteSignalDrop (s : State) : Out :=
  match s.hzn.signals with
  | [] => .next s
  | g :: rest =>
    let s := s.atTime (g.since + 2000000000)
    .next { s with hzn := { s.hzn with signals := rest, dropHeld := satinc 32 s.hzn.dropHeld } }

end Sys2Proof.Machine
end

