-- ==== Sys2Proof/Machine/Messages.lean ====
section
/-! DEFINITION. The horizon's message layer: SEND and RECV, their rendezvous and segments, collectives, and their aborts
(R228, R229, R406 to R412). -/

namespace Sys2Proof.Machine

/-! ### The data of a message (log entry 38) -/

/-- A tensor as message bytes: its rows packed, then its scale codes by block. -/
def Cx.msgBytes (c : Cx) (acc : Option Tens) (h : Nat) : Cm (List Byte) := do
  let t := c.headTref h
  let x ← c.load acc h
  let rows := (List.range (prodL (t.ext.drop 1))).flatMap fun r => packRow t.fmt ((x.codes.drop (r * t.e 0)).take (t.e 0))
  let sc ← if !t.d.scaled || t.d.isChain then pure []
    else if t.d.space = 3 then do
      let e ← c.elemScales t
      pure (t.blockScales fun i => (e.getD []).getD (flatIdx t.ext i) 127)
    else do
      let b ← c.read t.d.space t.sbase t.nBlocks
      pure (b.map BitVec.toNat)
  pure (rows ++ sc.map fun v => BitVec.ofNat 8 v)

/-- Bytes of a tensor's rows. -/
def TRef.rowsLen (t : TRef) : Nat := t.rowBytes * prodL (t.ext.drop 1)

/-- The codes of a message's rows, in element order. -/
def TRef.msgCodes (t : TRef) (b : List Byte) : List Nat :=
  (List.range (prodL (t.ext.drop 1))).flatMap fun r => unpackRow t.fmt (t.e 0) ((b.drop (r * t.rowBytes)).take t.rowBytes)

/-- The scale code of each element of a message, when it carries scales. -/
def TRef.msgScales (t : TRef) (b : List Byte) : List Nat :=
  (indices t.ext).map fun i => ((b.drop t.rowsLen).getD (t.blockOf i) 0).toNat

/-- Lines of a message, and its segments of 1,024 lines (R406). -/
def lineCount (b : List Byte) : Nat := cdiv b.length 64
def segCount (lines : Nat) : Nat := cdiv lines 1024

/-! ### Messages held -/

/-- A message of a number and a direction with an engine. -/
def State.msg? (s : State) (sending : Bool) (peer num : Nat) : Option Msg :=
  s.hzn.msgs.find? fun m => m.sending == sending && m.peer == peer && m.num == num

/-- A message changed. -/
def State.updMsg (s : State) (m : Msg) (f : Msg → Msg) : State :=
  { s with hzn := { s.hzn with msgs := s.hzn.msgs.map fun x => if x.sending == m.sending && x.peer == m.peer && x.num == m.num then f x else x } }

/-- A message no longer held. -/
def State.dropMsg (s : State) (m : Msg) : State :=
  { s with hzn := { s.hzn with msgs := s.hzn.msgs.filter fun x => !(x.sending == m.sending && x.peer == m.peer && x.num == m.num) } }

/-- The messages of a command. -/
def State.msgsOf (s : State) (ref : CmdRef) : List Msg := s.hzn.msgs.filter fun m => m.cmd == some ref

/-- The command of a message has moved a line or a rendezvous frame (R410). -/
def State.moved (s : State) (m : Msg) : State :=
  match m.cmd with
  | some r => s.updCmd r fun k => { k with lastMove := s.time.now }
  | none => s

/-- A frame's payload that describes a message in an RTS (places: log entry 37). -/
def Msg.rtsPayload (m : Msg) : List Byte :=
  leBytes 1 (m.fmt % 256) ++ leBytes 1 m.extents.length ++ leBytes 1 (m.fmt / 256) ++ leBytes 1 0
    ++ (tab 5 fun i => m.extents.getD i 0).flatMap (leBytes 4) ++ leBytes 4 m.length

/-- The message that an RTS announces. -/
def rtsMsg (f : Fr) : Msg :=
  let b := f.payload
  { num := f.msg, sending := false, peer := f.src, domain := f.domain, key := f.key, aux := f.aux, length := at4 b 24
    fmt := at1 b 0 + 256 * (at1 b 2 % 2), extents := tab (min 5 (at1 b 1)) fun i => at4 b (4 + 4 * i) }

/-- An RTS sent (step 1 of R408). -/
def State.sendRts (s : State) (m : Msg) : State :=
  s.sendTo m.num { typ := 2, vc := 1, op := opRts, dst := m.peer, domain := m.domain, msg := m.num, key := m.key, aux := m.aux, payload := m.rtsPayload }

/-- REFUSE with the status that the sender's command takes (its place in the payload: log entry 37). -/
def State.sendRefuse (s : State) (m : Msg) (status : Nat) : State :=
  s.sendTo m.num { typ := 2, vc := 1, op := opRefuse, dst := m.peer, domain := m.domain, msg := m.num, key := m.key, payload := leBytes 2 status }

/-- One segment sent: frames of at most 16 lines (step 4 of R408, step 3 of R406). -/
def State.sendSegment (s : State) (m : Msg) (seg : Nat) : State :=
  let lo := 1024 * seg
  let n := min 1024 (m.length - lo)
  let s := (List.range (cdiv n 16)).foldl (fun s j =>
    let o := lo + 16 * j
    s.sendTo (m.num + seg) { typ := 1, dst := m.peer, domain := m.domain, msg := m.num, offset := o, key := m.key, aux := m.aux
                             payload := (m.lines.drop (64 * o)).take (64 * min 16 (lo + n - o)) }) s
  s.updMsg m fun m => { m with sent := m.sent.put seg s.time.now }

/-- A message begun by a command: numbered, and its RTS sent. -/
def State.openMsg (s : State) (k : Cmd) (peer key aux : Nat) (group : Bool) (bytes : List Byte) (fmt : Nat) (ext : List Nat) : State :=
  let m : Msg :=
    { num := s.hzn.nextMsg, sending := true, peer, domain := s.hzn.domainOf k.ctx, key, aux, cmd := some k.ref, group
      lines := padLines bytes, length := lineCount bytes, fmt, extents := ext }
  let s := { s with hzn := { s.hzn with nextMsg := (s.hzn.nextMsg + 1) % 2 ^ 32, msgs := s.hzn.msgs ++ [m] } }
  s.sendRts m

/-! ### Starting a horizon command (R407, R409) -/

/-- FMT of a message: the format, + 256 for scales. -/
def TRef.msgFmt (t : TRef) : Nat := t.fmt + 256 * b2n t.d.scaled

/-- The horizon sluices, and the hub link of the cluster whose transfer unit moves the lines, charged for a command's lines out and in
(R375, R407, R409). -/
def State.chargeHzn (s : State) (k : Cmd) : State :=
  let c := s.cxOf k
  let x := match refSec k.ref with | some h => s.sec h | none => {}
  let lines := fun (o : Nat) => if at2 k.word o = 0 then 0 else cdiv (let t := c.headTref (at2 k.word o); t.rowsLen + (if t.d.scaled then t.nBlocks else 0)) 64
  let cl := c.who.cluster
  let hub := if cl.isNone then [] else s.hubTokens x.part cl none (lines 8) ++ s.hubTokens x.part none cl (lines 10)
  let (held, s) := s.chargeAll k.lc ([(sluKey x.part .hzn 0, lines 8), (sluKey x.part .hzn 1, lines 10)] ++ hub)
  s.updCmd k.ref fun c => { c with held := c.held ++ held }

/-- A horizon command that is ready to start: taken up, permitted (R407), with its frames in and its requests charged. -/
def State.hznStart (s : State) (ref : CmdRef) (op : Nat) (go : State → Cmd → State) : Out :=
  let s := s.takeUp ref op
  match s.issued? ref op with
  | none => .next s
  | some k =>
    if k.skipped then .next (if s.framesIn k then s.finishWork k { prod := { frames := (s.cxOf k).emptyFrames k.words } } k.infos else s)
    else if s.hzn.domainOf k.ctx = 0 then .next (s.failCmd ref 0x0202)
    else if !s.framesIn k || !k.held.isEmpty then .next s
    else
      let s := if k.step % 2 = 1 then s else (s.chargeHzn k).chargeCmd k
      match s.cmd? ref with
      | none => .next s
      | some k =>
        if !k.held.isEmpty then .next s
        else
          let s := s.updCmd ref fun k => { k with phase := .executing, lastMove := s.time.now }
          .next (go s k)

/-- A command's last write: what its body stages (event W of R208), or its failure. -/
def State.hznFinish (s : State) (k : Cmd) (body : Body) : State :=
  match (body (s.cxOf k) k.word { info := k.infos.headD {} }).exec s with
  | (.error e, s) => s.failCmd k.ref e
  | (.ok a, s) => s.finishWork k a [a.info]

/-! ### SEND and RECV (R408) -/

/-- SEND: the source is read and its RTS leaves. -/
def State.startSend (s : State) (k : Cmd) : State :=
  let c := s.cxOf k
  match (c.msgBytes none (at2 k.word 8)).exec s with
  | (.error e, s) => s.failCmd k.ref e
  | (.ok b, s) =>
    let t := c.headTref (at2 k.word 8)
    s.openMsg k (fld (leAt k.word 16 3) 0 18) (at4 k.word 20) 0 false b t.msgFmt t.ext

/-- SEND (R408). -/
def execSend (ref : CmdRef) (s : State) : Out := s.hznStart ref 0xC0 State.startSend

/-- What a RECV does with the data: into DST. -/
def bodyRecv (m : Msg) : Body := fun c w a => do
  let d := c.tref (at2 w 10)
  c.put a d d.ext (d.msgCodes m.lines) (if m.fmt / 256 = 1 ∧ d.d.scaled then some (d.msgScales m.lines) else none)

/-- Every line of a message has been received. -/
def Msg.whole (m : Msg) : Bool := decide (m.length ≤ m.got.length)

/-- An RTS meets its RECV (steps 3 and 3′ of R408). -/
def State.meetRecv (s : State) (k : Cmd) (m : Msg) : State :=
  let d := (s.cxOf k).tref (at2 k.word 10)
  let s := s.updCmd k.ref fun k => { k with lastMove := s.time.now }
  if m.fmt % 256 = d.fmt ∧ m.extents = d.ext then
    let m := { m with cmd := some k.ref }
    let s := ({ s with hzn := { s.hzn with msgs := s.hzn.msgs ++ [m] } } : State).sendCtrl m opCts 0
    if m.whole then s.hznFinish k (bodyRecv m) else s
  else (s.sendRefuse m 0x0103).failCmd k.ref 0x0103

/-- RECV: the first held RTS that matches, or a wait for one. -/
def State.startRecv (s : State) (k : Cmd) : State :=
  let is := fun (m : Msg) => m.peer == fld (leAt k.word 16 3) 0 18 && m.key == at4 k.word 20 && m.domain == s.hzn.domainOf k.ctx
  match s.hzn.rtsHeld.find? is, s.hzn.rtsHeld.findIdx? is with
  | some m, some i => ({ s with hzn := { s.hzn with rtsHeld := s.hzn.rtsHeld.eraseIdx i } } : State).meetRecv k m
  | _, _ => s

/-- RECV (R408). -/
def execRecv (ref : CmdRef) (s : State) : Out := s.hznStart ref 0xC1 State.startRecv

/-! ### Collectives (R229, R411, R412) -/

/-- Payload fields of a collective. -/
def gOp (w : List Byte) : Nat := fld (at1 w 24) 0 2
def gDir (w : List Byte) : Bool := bit (at1 w 24) 2

/-- The smallest power of two that is at least n, as its exponent. -/
def log2ceil (n : Nat) : Nat := ((List.range 18).find? fun l => decide (n ≤ 2 ^ l)).getD 18

/-- A collective in progress: its members in rank order, the local rank, the bytes of one chunk, and its steps. -/
structure Coll where
  ids : List Nat
  rank : Nat
  chunk : Nat
  op : Nat

def Coll.n (c : Coll) : Nat := c.ids.length
def Coll.l (c : Coll) : Nat := log2ceil c.n
/-- Chunks, and ranks with the absent ones. -/
def Coll.big (c : Coll) : Nat := 2 ^ c.l
/-- The ranks whose part this engine runs: its own, and the absent one that it hosts (R412). -/
def Coll.locals (c : Coll) : List Nat :=
  if 0 < c.l ∧ c.rank < c.big / 2 ∧ c.n ≤ c.rank + c.big / 2 then [c.rank, c.rank + c.big / 2] else [c.rank]
/-- The engine that runs a rank's part. -/
def Coll.engine (c : Coll) (v : Nat) : Nat := c.ids.getD (if v < c.n then v else v - c.big / 2) 0
/-- Number of steps. -/
def Coll.steps (c : Coll) : Nat := if c.op = 0xC2 then 2 * c.l else if c.op = 0xC5 then 1 else c.l
/-- Step t: whether it halves, and its distance's exponent. -/
def Coll.stepAt (c : Coll) (t : Nat) : Bool × Nat :=
  if c.op = 0xC2 then (if t < c.l then (true, t) else (false, 2 * c.l - 1 - t)) else if c.op = 0xC4 then (true, t) else (false, c.l - 1 - t)
/-- The chunks congruent to v modulo 2^(e+1), ascending. -/
def Coll.classOf (c : Coll) (v e : Nat) : List Nat := (List.range c.big).filter fun i => i % 2 ^ (e + 1) == v % 2 ^ (e + 1)
/-- The partner of a rank at a step. -/
def partner (v e : Nat) : Nat := v ^^^ 2 ^ e
/-- The chunks that rank v sends to its partner at step t, and those it receives. -/
def Coll.sends (c : Coll) (v t : Nat) : List Nat := let (h, e) := c.stepAt t; c.classOf (if h then partner v e else v) e
def Coll.gets (c : Coll) (v t : Nat) : List Nat := let (h, e) := c.stepAt t; c.classOf (if h then v else partner v e) e
/-- AUX of a message from rank v at step t; bit 16 marks a hosted rank's (log entry 39). -/
def Coll.aux (c : Coll) (v t : Nat) : Nat := t + 65536 * b2n (decide (c.n ≤ v))

/-- The chunk i of the array of the local rank at position j. -/
def Coll.at (c : Coll) (j i : Nat) : Nat := (j * c.big + i) * c.chunk
/-- Bytes of chunks of a local rank's array. -/
def Coll.take (c : Coll) (acc : List Byte) (j : Nat) (is : List Nat) : List Byte := is.flatMap fun i => (acc.drop (c.at j i)).take c.chunk
/-- Bytes put over part of a list. -/
def overlayAt (l : List Byte) (o : Nat) (b : List Byte) : List Byte := l.take o ++ b ++ l.drop (o + b.length)

/-- Two partial results combined, the lower-numbered rank's first: integers as two's complement numbers of 8 bytes, floating
values as FP32 codes (R128, R132, R229; log entry 40). -/
def combineVal (plain : Bool) (op x y : Nat) : Nat :=
  if plain then
    let a := sext 64 x
    let b := sext 64 y
    uwrap 64 (if op = 0 then a + b else if op = 1 then max a b else min a b)
  else if op = 0 then fAdd x y else if op = 1 then fMax x y else fMin x y

/-- The identity of an operation (R132). -/
def identVal (plain : Bool) (op : Nat) : Nat :=
  if op = 0 then 0 else if plain then (if op = 1 then 2 ^ 63 else 2 ^ 63 - 1) else if op = 1 then infCode fFP32 true else infCode fFP32 false

/-- Chunks combined value by value. -/
def combineBytes (plain : Bool) (op : Nat) (x y : List Byte) : List Byte :=
  (List.range (x.length / 8)).flatMap fun i => leBytes 8 (combineVal plain op (at8 x (8 * i)) (at8 y (8 * i)))

/-- What the local rank at position j has after it received b from rank u at step t. -/
def Coll.merge (c : Coll) (plain : Bool) (op : Nat) (acc : List Byte) (j v t : Nat) (b : List Byte) : List Byte :=
  let (h, e) := c.stepAt t
  let lower := decide (v < partner v e)
  (c.gets v t).zipIdx.foldl (fun acc (i, k) =>
    let x := (b.drop (k * c.chunk)).take c.chunk
    let own := (acc.drop (c.at j i)).take c.chunk
    overlayAt acc (c.at j i) (if !h then x else if lower then combineBytes plain op own x else combineBytes plain op x own)) acc

/-- The group list of a command: member engine IDs in rank order (R411). -/
def Cx.groupIds (c : Cx) (w : List Byte) : Cm (List Nat) := do
  let t := c.tref (gDesc w)
  need (groupOk c.x w) 0x0102
  need (decide (t.e 0 ≤ 131072)) 0x0103
  let x ← c.load none (gDesc w)
  pure x.codes

/-- Reduction in exact integers: both operands are plain integer (R229). -/
def collPlain (a b : TRef) : Bool := a.isPlain && b.isPlain

/-- Bytes of one chunk: of partial results of ⌈size ÷ N⌉ elements, or a whole contribution (R412). -/
def collChunk (op size big msg : Nat) : Nat := if op = 0xC2 ∨ op = 0xC4 then 8 * cdiv size big else msg

/-- Elements that DST of a collective must have. -/
def collDstOk (op size n big rank dst : Nat) : Bool :=
  if op = 0xC3 then dst == n * size
  else if op = 0xC4 then dst == cdiv size big || dst == min (cdiv size big) (size - rank * cdiv size big)
  else dst == size

/-- The collective of a command, with its arrays' first contents. -/
def Cx.collOpen (c : Cx) (w : List Byte) (me : Nat) (a : Acc) : Cm (Coll × List Byte × RecInfo) := do
  let op := cOp w
  let ids ← c.groupIds w
  need (ids.contains me && decide (ids.dedup.length = ids.length)) 0x0103
  let t := c.headTref (at2 w 8)
  let d := c.tref (at2 w 10)
  let size := prodL t.ext
  let rank := (ids.findIdx? (· == me)).getD 0
  let big := 2 ^ log2ceil ids.length
  need (collDstOk op size ids.length big rank (prodL d.ext)) 0x0103
  let plain := collPlain t d
  if op = 0xC2 ∨ op = 0xC4 then do
    let x ← c.load none (at2 w 8)
    let (f, n, nf) := x.toFT
    let vals := if plain then x.codes.map fun v => uwrap 64 (intVal x.fmt v) else f.vals
    let a := if plain then a else a.count n nf
    let q := cdiv size big
    let co : Coll := { ids, rank, chunk := 8 * q, op }
    let ident := List.replicate (q * big) (identVal plain (gOp w))
    let arr := fun (v : Nat) => ((if v < co.n then vals ++ ident.drop vals.length else ident).flatMap (leBytes 8))
    pure (co, co.locals.flatMap arr, a.info)
  else do
    let b ← c.msgBytes none (at2 w 8)
    let b := padLines b
    let co : Coll := { ids, rank, chunk := b.length, op }
    if op = 0xC5 then pure (co, b, a.info)
    else
      let arr := fun (v : Nat) => List.replicate (v * b.length) 0 ++ (if v < co.n then b else List.replicate b.length 0) ++ List.replicate ((big - 1 - v) * b.length) 0
      pure (co, co.locals.flatMap arr, a.info)

/-- KEY of a collective's frames: group number and instance (R411). -/
def State.collKey (s : State) (k : Cmd) : Nat :=
  let inst := match refSec k.ref with
    | some h => (((s.sec h).run.map Run.instances).getD []).get 0 (gNum k.word)
    | none => 0
  gNum k.word + 65536 * (inst % 65536)

/-- The collective that a command has in progress, read again from its group list. -/
def State.collOf (s : State) (k : Cmd) : Option Coll :=
  let c := s.cxOf k
  match ((c.groupIds k.word).exec s).1 with
  | .ok ids =>
    let t := c.headTref (at2 k.word 8)
    let big := 2 ^ log2ceil ids.length
    let msg := roundUp (t.rowsLen + (if t.d.scaled && !t.d.isChain then t.nBlocks else 0)) 64
    some { ids, rank := (ids.findIdx? (· == s.hzn.engineId)).getD 0, chunk := collChunk (cOp k.word) (prodL t.ext) big msg, op := cOp k.word }
  | .error _ => none

/-- The messages from other engines that step t waits for: engine, AUX, and the local rank that takes each. -/
def Coll.awaits (c : Coll) (t : Nat) : List (Nat × Nat × Nat) :=
  if c.op = 0xC5 then []
  else c.locals.filterMap fun v =>
    let u := partner v (c.stepAt t).2
    if c.locals.contains u then none else some (c.engine u, c.aux u t, v)

/-- The engines of a RINGPASS: that which takes this one's data, and that whose data it takes (R412). -/
def Coll.ring (c : Coll) (back : Bool) : Nat × Nat :=
  let n := c.n
  let up := c.ids.getD ((c.rank + 1) % n) 0
  let down := c.ids.getD ((c.rank + n - 1) % n) 0
  if back then (down, up) else (up, down)

/-- The engines and AUX values that a command in progress waits for at its step. -/
def Coll.expected (c : Coll) (w : List Byte) (t : Nat) : List (Nat × Nat × Nat) :=
  if c.op = 0xC5 then (if c.n = 1 then [] else [((c.ring (gDir w)).2, 0, c.rank)]) else c.awaits t

/-- A collective's message that has arrived in full is answered with DONE at once (R412; log entry 41). -/
def State.endCollMsg (s : State) (m : Msg) : State := (s.updMsg m fun m => { m with complete := true }).sendCtrl m opDone 0

/-- An RTS meets a collective in progress (R411). -/
def State.meetColl (s : State) (k : Cmd) (m : Msg) : State :=
  let t := (s.cxOf k).headTref (at2 k.word 8)
  let s := s.updCmd k.ref fun k => { k with lastMove := s.time.now }
  if m.fmt % 256 = t.fmt ∧ m.extents = t.ext then
    let m := { m with cmd := some k.ref, group := true }
    let s := ({ s with hzn := { s.hzn with msgs := s.hzn.msgs ++ [m] } } : State).sendCtrl m opCts 0
    if m.whole then s.endCollMsg m else s
  else (s.sendRefuse m 0x0103).failCmd k.ref 0x0103

/-- Held RTS frames of the present step meet the collective. -/
def State.meetHeld (s : State) (k : Cmd) (co : Coll) : State :=
  (co.expected k.word k.ops).foldl (fun s e =>
    let is := fun (m : Msg) => m.peer == e.1 && m.aux == e.2.1 && m.key == s.collKey k && m.domain == s.hzn.domainOf k.ctx
    match s.hzn.rtsHeld.find? is, s.hzn.rtsHeld.findIdx? is with
    | some m, some i => ({ s with hzn := { s.hzn with rtsHeld := s.hzn.rtsHeld.eraseIdx i } } : State).meetColl k m
    | _, _ => s) s

/-- A step begins: pairs that are both local exchange at once, the others send their chunks. -/
def State.stepBegin (s : State) (k : Cmd) (co : Coll) : State :=
  let t := k.ops
  let d := (s.cxOf k).headTref (at2 k.word 8)
  let key := s.collKey k
  if co.op = 0xC5 then
    if co.n = 1 then s
    else (s.openMsg k (co.ring (gDir k.word)).1 key 0 true k.acc d.msgFmt d.ext).meetHeld k co
  else
    let e := (co.stepAt t).2
    let s := co.locals.zipIdx.foldl (fun s (v, j) =>
      let u := partner v e
      if co.locals.contains u then s
      else s.openMsg k (co.engine u) key (co.aux v t) true (co.take k.acc j (co.sends v t)) d.msgFmt d.ext) s
    let plain := collPlain d ((s.cxOf k).tref (at2 k.word 10))
    let acc := match co.locals with
      | [v, u] => if partner v e = u then
          let a := co.merge plain (gOp k.word) k.acc 0 v t (co.take k.acc 1 (co.sends u t))
          co.merge plain (gOp k.word) a 1 u t (co.take k.acc 0 (co.sends v t))
        else k.acc
      | _ => k.acc
    (s.updCmd k.ref fun k => { k with acc }).meetHeld k co

/-- What a collective writes when its last step is done; beyond the elements that R412 gives a rank, DST takes free values
(log entry 4). -/
def bodyColl (co : Coll) (acc : List Byte) : Body := fun c w a => do
  let t := c.headTref (at2 w 8)
  let d := c.tref (at2 w 10)
  let size := prodL t.ext
  if co.op = 0xC2 ∨ co.op = 0xC4 then do
    let lo := if co.op = 0xC2 then 0 else co.rank * (co.chunk / 8)
    let n := if co.op = 0xC2 then size else min (co.chunk / 8) (size - lo)
    let v := tab n fun i => at8 acc (8 * (lo + i))
    let more := tab (prodL d.ext - n) fun i => (Config.openCode (leNat w) i).toNat
    if collPlain t d then c.putI a d ((v.map fun x => sext 64 x) ++ more.map fun x => sext 32 x)
    else c.putF a d (v ++ more.map fun x => x % 2 ^ 32)
  else
    let parts := if co.op = 0xC5 then [acc] else tab co.n fun i => (acc.drop (i * co.chunk)).take co.chunk
    c.put a d d.ext (parts.flatMap t.msgCodes) (if t.d.scaled ∧ d.d.scaled then some (parts.flatMap t.msgScales) else none)

/-- The step of a collective is over: every message of it is done. -/
def State.stepOver (s : State) (k : Cmd) (co : Coll) : Bool :=
  let ms := s.msgsOf k.ref
  ms.all Msg.complete && decide ((co.expected k.word k.ops).length ≤ (ms.filter fun m => !m.sending).length)

/-- Received chunks taken into the arrays. -/
def State.stepTake (s : State) (k : Cmd) (co : Coll) : List Byte :=
  let c := s.cxOf k
  let plain := collPlain (c.headTref (at2 k.word 8)) (c.tref (at2 k.word 10))
  (co.expected k.word k.ops).foldl (fun acc e =>
    match (s.msgsOf k.ref).find? fun m => !m.sending && m.peer == e.1 && m.aux == e.2.1 with
    | none => acc
    | some m => if co.op = 0xC5 then m.lines.take co.chunk
      else co.merge plain (gOp k.word) acc ((co.locals.findIdx? (· == e.2.2)).getD 0) e.2.2 k.ops m.lines) k.acc

/-- A collective goes on while its steps are over: the next step begins, or its result is written. -/
def State.collAdvance (s : State) (ref : CmdRef) : Nat → State
  | 0 => s
  | n + 1 =>
    match s.cmd? ref with
    | none => s
    | some k =>
      if k.phase != .executing then s
      else match s.collOf k with
      | none => s.failCmd ref 0x0103
      | some co =>
        if !s.stepOver k co then s
        else
          let acc := s.stepTake k co
          let s := { s with hzn := { s.hzn with msgs := s.hzn.msgs.filter fun m => m.cmd != some ref } }
          let s := s.updCmd ref fun k => { k with acc, ops := k.ops + 1 }
          match s.cmd? ref with
          | none => s
          | some k =>
            if co.steps ≤ k.ops then s.hznFinish k (bodyColl co k.acc)
            else State.collAdvance (s.stepBegin k co) ref n

/-- A held RTS of the same group, domain and member whose instance has passed: this member and that one have issued
different sequences (R411). -/
def State.staleRts (s : State) (k : Cmd) (co : Coll) (m : Msg) : Bool :=
  m.domain == s.hzn.domainOf k.ctx && co.ids.contains m.peer && m.key % 65536 == gNum k.word
    && m.key != s.collKey k && decide (32768 ≤ cdist 16 (m.key / 65536) (s.collKey k / 65536))

/-- A collective starts: its group is read, its arrays filled, and its first step begins. -/
def State.startColl (s : State) (k : Cmd) : State :=
  match ((s.cxOf k).collOpen k.word s.hzn.engineId { info := k.infos.headD {} }).exec s with
  | (.error e, s) => s.failCmd k.ref e
  | (.ok (co, acc, info), s) =>
    match s.hzn.rtsHeld.find? (s.staleRts k co) with
    | some m =>
      (({ s with hzn := { s.hzn with rtsHeld := s.hzn.rtsHeld.filter fun x => x != m } } : State).sendRefuse m 0x0103).failCmd k.ref 0x0103
    | none =>
      let s := s.updCmd k.ref fun k => { k with acc, ops := 0, infos := [info] }
      match s.cmd? k.ref with
      | none => s
      | some k =>
        if co.steps = 0 then s.hznFinish k (bodyColl co k.acc)
        else (s.stepBegin k co).collAdvance k.ref (co.steps + 1)

/-- ALLREDUCE (R412). -/
def execAllreduce (ref : CmdRef) (s : State) : Out := s.hznStart ref 0xC2 State.startColl
/-- ALLGATHER (R412). -/
def execAllgather (ref : CmdRef) (s : State) : Out := s.hznStart ref 0xC3 State.startColl
/-- RSCATTER (R412). -/
def execRscatter (ref : CmdRef) (s : State) : Out := s.hznStart ref 0xC4 State.startColl
/-- RINGPASS (R412). -/
def execRingpass (ref : CmdRef) (s : State) : Out := s.hznStart ref 0xC5 State.startColl

/-! ### Received frames (R404, R407, R408, R410, R411) -/

/-- The horizon commands in progress. -/
def State.hznCmds (s : State) : List Cmd := s.cmds.filter fun k => cOp k.word / 32 == 6 && k.phase == .executing

/-- The RECV in progress that a message matches and that has none yet. -/
def State.recvFor (s : State) (m : Msg) : Option Cmd :=
  s.hznCmds.find? fun k => cOp k.word == 0xC1 && fld (leAt k.word 16 3) 0 18 == m.peer && at4 k.word 20 == m.key
    && s.hzn.domainOf k.ctx == m.domain && (s.msgsOf k.ref).isEmpty

/-- The collective in progress whose present step waits for a message. -/
def State.collFor (s : State) (m : Msg) : Option Cmd :=
  s.hznCmds.find? fun k => decide (0xC2 ≤ cOp k.word) && s.hzn.domainOf k.ctx == m.domain && s.collKey k == m.key
    && (match s.collOf k with | some co => (co.expected k.word k.ops).any (fun e => e.1 == m.peer && e.2.1 == m.aux) | none => false)
    && !((s.msgsOf k.ref).any fun x => !x.sending && x.peer == m.peer && x.aux == m.aux)

/-- The collective in progress that a message's instance has fallen behind. -/
def State.behindFor (s : State) (m : Msg) : Option Cmd :=
  s.hznCmds.find? fun k => decide (0xC2 ≤ cOp k.word) && (match s.collOf k with | some co => s.staleRts k co m | none => false)

/-- What becomes of an RTS: its RECV, its collective, a refusal (R407, R411), the table of 4,096, or BUSY. -/
def State.takeRts (s : State) (m : Msg) : State :=
  if m.domain = 0 ∨ !(s.ctxs.any fun e => e.2.life == .live && s.hzn.domainOf e.1 == m.domain) then
    ({ s with hzn := { s.hzn with dropDomain := satinc 32 s.hzn.dropDomain } } : State).sendRefuse m 0x0202
  else match s.recvFor m with
  | some k => s.meetRecv k m
  | none => match s.collFor m with
    | some k => (s.meetColl k m).collAdvance k.ref 64
    | none => match s.behindFor m with
      | some k => (s.sendRefuse m 0x0103).failCmd k.ref 0x0103
      | none =>
        if s.hzn.rtsHeld.length < 4096 then { s with hzn := { s.hzn with rtsHeld := s.hzn.rtsHeld ++ [m] } }
        else s.sendCtrl m opBusy 0

/-- RTS (steps 2 and 3 of R408). -/
def execRts (port : Nat) (frame : List Byte) (s : State) : Out :=
  s.receive port frame 2 opRts fun s f => s.takeRts (rtsMsg f)

/-- A frame of a message that this engine does not hold (R404). -/
def State.unmatched (s : State) (p : Nat) : State := s.linkViol p 6

/-- CTS (step 4 of R408): every segment leaves. -/
def execCts (port : Nat) (frame : List Byte) (s : State) : Out :=
  s.receive port frame 2 opCts fun s f =>
    match s.msg? true f.src f.msg with
    | none => s.unmatched port
    | some m =>
      if m.cts then s
      else
        let s := (s.updMsg m fun m => { m with cts := true }).moved m
        (List.range (segCount m.length)).foldl (fun s i => match s.msg? true m.peer m.num with
          | some m => s.sendSegment m i
          | none => s) s

/-- REFUSE (step 3′ of R408, R407): the command fails with the status that the frame carries, or BOUNDS. -/
def execRefuse (port : Nat) (frame : List Byte) (s : State) : Out :=
  s.receive port frame 2 opRefuse fun s f =>
    match s.msg? true f.src f.msg with
    | none => s
    | some m =>
      let s := s.dropMsg m
      match m.cmd with
      | some r => s.failCmd r (if at2 f.payload 0 = 0x0202 then 0x0202 else 0x0103)
      | none => s

/-- BUSY (step 2 of R408). -/
def execBusy (port : Nat) (frame : List Byte) (s : State) : Out :=
  s.receive port frame 2 opBusy fun s f =>
    match s.msg? true f.src f.msg with
    | none => s
    | some m => (s.updMsg m fun m => { m with busyAt := some s.time.now }).moved m

/-- RTS_RETRY (step 2 of R408): 100 µs after a BUSY. -/
def execRtsRetry (msg : Nat) (s : State) : Out :=
  match s.hzn.msgs.find? fun m => m.sending && m.num == msg with
  | none => .next s
  | some m => match m.busyAt with
    | none => .next s
    | some t => .next (((s.atTime (t + 100000)).updMsg m fun m => { m with busyAt := none }).sendRts m)

/-- DATA (step 4 of R408): lines written by OFFSET; a segment that is whole is reported, also when it was sent again; when
every line is in, the command goes on. -/
def execData (port : Nat) (frame : List Byte) (s : State) : Out :=
  s.receive port frame 1 0 fun s f =>
    match s.msg? false f.src f.msg with
    | none => s.unmatched port
    | some m =>
      let n := min f.len (m.length - f.offset)
      let base := m.lines ++ List.replicate (64 * m.length - m.lines.length) 0
      let m' := { m with
        lines := overlayAt base (64 * f.offset) (f.payload.take (64 * n))
        got := (m.got ++ (tab n fun i => f.offset + i)).dedup }
      let s := (s.updMsg m fun _ => m').moved m
      let seg := f.offset / 1024
      let inSeg := min 1024 (m.length - 1024 * seg)
      let whole := decide (inSeg ≤ (m'.got.filter fun i => i / 1024 == seg).length)
      let s := if whole && decide (0 < n) then s.sendTo m.num { typ := 2, vc := 1, op := opSegDone, dst := m.peer, domain := m.domain, msg := m.num, key := m.key, aux := seg } else s
      if !m'.whole || m.whole then s
      else match m.cmd.bind s.cmd? with
        | none => s
        | some k => if m.group then (s.endCollMsg m').collAdvance k.ref 64 else s.hznFinish k (bodyRecv m')

/-- SEG_DONE (steps 4 and 5 of R408). -/
def execSegDone (port : Nat) (frame : List Byte) (s : State) : Out :=
  s.receive port frame 2 opSegDone fun s f =>
    match s.msg? true f.src f.msg with
    | none => s.unmatched port
    | some m => (s.updMsg m fun m => { m with acked := (m.acked ++ [f.aux]).dedup }).moved m

/-- SEGMENT_TIMEOUT (step 5 of R408): SEG_DONE has not come within 1 ms of the segment's last line. -/
def execSegmentTimeout (msg seg : Nat) (s : State) : Out :=
  match s.hzn.msgs.find? fun m => m.sending && m.num == msg with
  | none => .next s
  | some m =>
    match m.sent.find? fun e => e.1 == seg with
    | none => .next s
    | some (_, t) => if !m.cts || m.complete || m.acked.contains seg then .next s else .next ((s.atTime (t + 1000000)).sendSegment m seg)

/-- DONE (step 7 of R408, R412): a SEND has done its work, a collective's message is over. -/
def execDone (port : Nat) (frame : List Byte) (s : State) : Out :=
  s.receive port frame 2 opDone fun s f =>
    match s.msg? true f.src f.msg with
    | none => s.unmatched port
    | some m =>
      let s := s.moved m
      if m.group then
        let s := s.updMsg m fun m => { m with complete := true }
        match m.cmd with
        | some r => s.collAdvance r 64
        | none => s
      else
        let s := s.dropMsg m
        match m.cmd.bind s.cmd? with
        | some k => s.finishWork k {} k.infos
        | none => s

/-- ABORT (R410): the peer's command fails with WAIT_TIMEOUT; a held RTS of the message is gone. -/
def execAbort (port : Nat) (frame : List Byte) (s : State) : Out :=
  s.receive port frame 2 opAbort fun s f =>
    let s := { s with hzn := { s.hzn with rtsHeld := s.hzn.rtsHeld.filter fun m => !(m.peer == f.src && m.num == f.msg) } }
    let ms := s.hzn.msgs.filter fun m => m.peer == f.src && m.num == f.msg && m.key == f.key && !m.group
    let s := ms.foldl State.dropMsg s
    (ms.filterMap Msg.cmd).foldl (fun s r => s.failCmd r 0x0301) s

/-- GROUP_ABORT (R410): the collective of the group number and instance fails with WAIT_TIMEOUT. -/
def execGroupAbort (port : Nat) (frame : List Byte) (s : State) : Out :=
  s.receive port frame 2 opGroupAbort fun s f =>
    let s := { s with hzn := { s.hzn with rtsHeld := s.hzn.rtsHeld.filter fun m => !(m.peer == f.src && m.key == f.key && m.domain == f.domain) } }
    match s.hznCmds.find? fun k => decide (0xC2 ≤ cOp k.word) && s.hzn.domainOf k.ctx == f.domain && s.collKey k == f.key with
    | none => s
    | some k => s.failCmd k.ref 0x0301

/-- HORIZON_INACTIVITY_TIMEOUT (R410): 2,000 ms without a line or a rendezvous frame. -/
def execHorizonInactivityTimeout (ref : CmdRef) (s : State) : Out :=
  match s.cmd? ref with
  | none => .next s
  | some k =>
    if cOp k.word / 32 != 6 || k.phase != .executing then .next s
    else .next ((s.atTime (k.lastMove + 2000000000)).failCmd ref 0x0301)

end Sys2Proof.Machine
end

