-- ==== Sys2Proof/Machine/Service.lean ====
section
/-! DEFINITION. Service programs: their loading, the sandbox, the service ring, CORE_CALL, and the calls a program makes
(R236, R421 to R429). -/

namespace Sys2Proof.Machine

/-! ### Loading (R421 to R424) -/

/-- Fields of a service's registers (R421) and of its image's header (R422). -/
def Svc.len (v : Svc) : Nat := fld v.cfg.toNat 0 28
def Svc.cores (v : Svc) : Nat := fld v.cfg.toNat 32 12
def Svc.memLog2 (v : Svc) : Nat := fld v.cfg.toNat 48 4
/-- The lock bit of a service's registers: STATE is 1 or 2 (R424). -/
def Svc.locked (v : Svc) : Bool := v.st == 1 || v.st == 2

/-- The checks of a service image, but for host memory: its header, its size, its sandbox (steps 2 and 3 of R423). -/
def serviceImageOk (b : List Byte) (memLog2 : Nat) : Bool :=
  b.take 4 == ascii "DWSV" && decide (64 ≤ b.length) && decide (b.length ≤ 2 ^ 26) && decide (4 ≤ memLog2) && decide (memLog2 ≤ 10)
    && decide (at2 b 4 ≤ 0x0100) && decide (0x0100 ≤ at2 b 6) && ((b.drop 32).take 32).all (· == 0)
    && decide (b.length + at8 b 16 + at8 b 24 ≤ 2 ^ (memLog2 + 20))

/-- A load that fails: STATE 3 and its cause; nothing is taken. -/
def State.failLoad (s : State) (svc cause : Nat) : State :=
  s.updSvc svc fun v => { v with st := 3, cause, restarts := 0, program := [], pages := [] }

/-- The stacks that are trained. -/
def State.trainedStacks (s : State) : List Nat := (List.range 20).filter fun k => (s.stk k).st == 1

/-- SERVICE_LOAD (R423): the image is copied and checked, its memory taken, and its cores started; ignored and counted while
the block is locked (R424). -/
def execServiceLoad (svc : Nat) (s : State) : Out :=
  if svc < 1 ∨ 12 < svc then .fault (.noSuchUnit "service")
  else if !s.ready then .next s
  else if (s.svc svc).locked then .next s.lockedWrite
  else
    let v := s.svc svc
    let b := s.hostMem.rdN (fld v.image.toNat 12 52 * 4096) v.len
    let busy := s.svcs.any fun e => e.1 != svc && 1 ≤ e.1 && e.2.st == 2 && e.2.cores &&& v.cores != 0
    if !serviceImageOk b v.memLog2 then .next (s.failLoad svc 1)
    else if busy then .next (s.failLoad svc 4)
    else match s.takePages s.trainedStacks (2 ^ v.memLog2 / 2) 0 [] with
      | none => .next (s.failLoad svc 3)
      | some ps =>
        .next ((s.moveSubs (objSubs ps (32 * ps.length)) { st := 2 }).updSvc svc fun v =>
          { v with st := 2, cause := 0, restarts := 0, ring := [], nextId := 1, recent := [], program := b, pages := ps })

/-- A resident section binds a host-core station to the service (R265). -/
def State.svcBound (s : State) (svc : Nat) : Bool :=
  s.secs.any fun e => !e.2.swapped && (List.range e.2.nStations).any fun st => e.2.kind st == 4 && e.2.bind st == svc

/-- The commands whose calls a service has, and those calls failing with WAIT_TIMEOUT (R236, R426). -/
def State.failCalls (s : State) (svc : Nat) : State :=
  let refs := (s.svc svc).ring.filterMap fun e => e.2.ref
  let s := s.updSvc svc fun v => { v with ring := [], failed := satadd 32 v.failed refs.length }
  refs.foldl (fun s r => s.failCmd r 0x0301) s

/-- The sandbox's memory goes to ZEROING. -/
def State.dropSandbox (s : State) (svc : Nat) : State :=
  let ps := (s.svc svc).pages
  (s.moveSubs (objSubs ps (32 * ps.length)) { st := 3 }).updSvc svc fun v => { v with program := [], pages := [] }

/-- SERVICE_UNLOAD (R424): ignored and counted while a resident section is bound to the service. -/
def execServiceUnload (svc : Nat) (s : State) : Out :=
  if svc < 1 ∨ 12 < svc then .fault (.noSuchUnit "service")
  else if !s.ready then .next s
  else if s.svcBound svc then .next s.lockedWrite
  else .next (((s.failCalls svc).dropSandbox svc).updSvc svc fun v => { v with st := 0, cause := 0, restarts := 0 })

/-! ### The windows of a call (R428; log entry 45) -/

/-- Bytes of an operand's input window: its data interval, its codebooks and its scale tensor; of a stream operand, its rows
and scale codes. -/
def Cx.callInput (c : Cx) (h : Nat) : Cm (List Byte) :=
  let t := c.tref h
  if t.d.space = 3 then c.msgBytes none h
  else do
    let (a, b) := c.feet t
    let parts ← (a ++ b).mapM fun f => c.read t.d.space f.lo.toNat f.n
    pure parts.flatten

/-- Length of the output window: the footprint of DST. -/
def Cx.callOutput (c : Cx) (h : Nat) : Nat :=
  let t := c.tref h
  if t.d.space = 3 then t.rowsLen + (if t.d.scaled then t.nBlocks else 0)
  else
    let (a, b) := c.feet t
    ((a ++ b).map Foot.n).sum

/-- What a call's output window gives DST. -/
def Cx.putOutput (c : Cx) (h : Nat) (b : List Byte) : Cm Made := do
  let t := c.tref h
  if t.d.space = 3 then
    let sc := (b.drop t.rowsLen).map BitVec.toNat
    c.store {} t (t.msgCodes b) sc true
  else do
    let (data, scs) := c.feet t
    let n := (data.map Foot.n).headD 0
    let rows ← (indices (t.ext.drop 1)).mapM fun i =>
      c.write t.d.space (t.base + t.d.rowOff i) ((b.drop (t.d.rowOff i)).take t.rowBytes)
    let rest ← ((data.drop 1 ++ scs).foldl (fun (acc : Nat × List (Nat × Nat × Nat)) f => (acc.1 + f.n, acc.2 ++ [(acc.1, f.lo.toNat, f.n)])) (n, [])).2.mapM
      fun (off, lo, k) => c.write t.d.space lo ((b.drop off).take k)
    pure { staged := rows.flatten ++ rest.flatten }

/-! ### CORE_CALL (R236, R428) -/

/-- A service admits calls of a context: the Crystallizer of every context, another while it runs and its OPEN bit is set. -/
def State.svcAdmits (s : State) (svc ctx : Nat) : Bool :=
  svc == 0 || (decide (svc ≤ 12) && (s.svc svc).st == 2 && (s.svc svc).openTo ctx)

/-- CORE_CALL (R428): the input copied, the output window zeroed, the entry posted; it waits while no entry is free. -/
def execCoreCall (ref : CmdRef) (s : State) : Out :=
  let s := s.takeUp ref 0xE4
  match s.issued? ref 0xE4 with
  | none => .next s
  | some k =>
    let c := s.cxOf k
    let svc := at2 k.word 12
    if !s.framesIn k then .next s
    else if k.skipped then .next (s.finishWork k { prod := { frames := c.emptyFrames k.words } } k.infos)
    else if !s.svcAdmits svc k.ctx then .next (s.failCmd ref 0x0202)
    else match (List.range 64).find? fun e => ((s.svc svc).ring.get {} e).st == 0 with
      | none => .next s
      | some e => match (c.callInput (at2 k.word 8)).exec s with
        | (.error x, s) => .next (s.failCmd ref x)
        | (.ok b, s) =>
          let n := c.callOutput (at2 k.word 10)
          let q : Call :=
            { id := (s.svc svc).nextId, ctx := k.ctx, st := 1, func := at2 k.word 14, arg := at8 k.word 16
              input := b, outLen := n, output := List.replicate n 0, ref := some ref }
          let s := s.updSvc svc fun v => { v with ring := v.ring.put e q, nextId := if v.nextId + 1 < 2 ^ 32 then v.nextId + 1 else 1 }
          .next (s.updCmd ref fun k => { k with phase := .executing, call := some e })

/-- A call completes with its output: its bytes are staged for DST, the entry is free, and the command has done its last
write; a command that cannot write fails (R236, R428). -/
def State.finishCall (s : State) (svc entry : Nat) (out : List Byte) : State :=
  let q := (s.svc svc).ring.get {} entry
  let s := s.updSvc svc fun v => { v with ring := v.ring.del entry }
  match q.ref.bind s.cmd? with
  | none => s
  | some k =>
    match ((s.cxOf k).putOutput (at2 k.word 10) (out ++ List.replicate (q.outLen - out.length) 0)).exec s with
    | (.error x, s) => (s.updSvc svc fun v => { v with failed := satinc 32 v.failed }).failCmd k.ref x
    | (.ok p, s) => (s.updSvc svc fun v => { v with done := satinc 32 v.done }).finishWork k { prod := p } k.infos

/-- A call ends as a broken handshake: the command fails with WAIT_TIMEOUT and the entry is free (R236, R429). -/
def State.breakCall (s : State) (svc entry : Nat) : State :=
  let q := (s.svc svc).ring.get {} entry
  let s := s.updSvc svc fun v => { v with ring := v.ring.del entry, failed := satinc 32 v.failed }
  match q.ref with
  | some r => s.failCmd r 0x0301
  | none => s

/-! ### The calls of a service program (R426) -/

/-- A row of a running service program. -/
def State.running (s : State) (svc : Nat) : Bool := s.ready && (s.svc svc).st == 2

/-- SVC_WAIT (R426): a posted entry is taken; which one is the lowest (DESIGN CHOICE, log entry 53). It waits while there is
none. -/
def execSvcWait (svc : Nat) (s : State) : Out :=
  if svc < 1 ∨ 12 < svc then .fault (.noSuchUnit "service")
  else if !s.running svc then .next s
  else match (s.svc svc).ring.keysWhere fun _ e => e.st == 1 with
    | [] => .next s
    | e :: _ => .next ((s.updSvc svc fun v => { v with ring := v.ring.upd {} e fun q => { q with st := 2 } }).emit (.ecallRet svc e))

/-- SVC_DONE (R426, R428, R429); window: what the program left in the output window. -/
def execSvcDone (svc entry callId count : Nat) (window : List Byte) (s : State) : Out :=
  if svc < 1 ∨ 12 < svc then .fault (.noSuchUnit "service")
  else if !s.running svc then .next s
  else
    let q := (s.svc svc).ring.get {} entry
    if 64 ≤ entry ∨ q.id ≠ callId ∨ (q.st ≠ 2 ∧ q.st ≠ 3) then .next (s.emit (.ecallRet svc 2))
    else if q.st = 3 then .next ((s.updSvc svc fun v => { v with ring := v.ring.del entry }).emit (.ecallRet svc 1))
    else if q.outLen < count then .next ((s.breakCall svc entry).emit (.ecallRet svc 0))
    else .next ((s.finishCall svc entry (window.take count)).emit (.ecallRet svc 0))

/-- SVC_TIME (R426): the device time base in ns. -/
def execSvcTime (svc : Nat) (s : State) : Out :=
  if svc < 1 ∨ 12 < svc then .fault (.noSuchUnit "service")
  else .next (if s.running svc then s.emit (.ecallRet svc (s.time.now % 2 ^ 64)) else s)

/-- SVC_LOG (R426, R507): of the 48 bytes, DATA holds the first 24, and UNIT the service (DESIGN CHOICE, log entry 46). -/
def execSvcLog (svc : Nat) (bytes : List Byte) (s : State) : Out :=
  if svc < 1 ∨ 12 < svc then .fault (.noSuchUnit "service")
  else .next (if s.running svc then (s.logCo 0x9001 0 0 svc 0 [at8 bytes 0, at8 bytes 8, at8 bytes 16]).emit (.ecallRet svc 0) else s)

/-- SVC_YIELD (R426). -/
def execSvcYield (svc : Nat) (s : State) : Out :=
  if svc < 1 ∨ 12 < svc then .fault (.noSuchUnit "service")
  else .next (if s.running svc then s.emit (.ecallRet svc 0) else s)

/-- SERVICE_PROGRAM_END (R426): every call in progress fails, and the program restarts; after more than 3 restarts within
1 s the service has failed. -/
def execServiceProgramEnd (svc t : Nat) (s : State) : Out :=
  if svc < 1 ∨ 12 < svc then .fault (.noSuchUnit "service")
  else
    let s := s.atTime t
    if !s.running svc then .next s
    else
      let s := s.failCalls svc
      let recent := ((s.svc svc).recent.filter fun r => decide (s.time.now < r + 1000000000)) ++ [s.time.now]
      let s := s.logEv 0x9002 1 0 svc 0 [0, 0, 0]
      if 3 < recent.length then .next ((s.dropSandbox svc).updSvc svc fun v => { v with st := 3, cause := 5, recent := [] })
      else .next (s.updSvc svc fun v => { v with recent, restarts := satinc 16 v.restarts })

end Sys2Proof.Machine
end

