-- ==== Sys2Proof/Machine/Crystallizer.lean ====
section
/-! DEFINITION. The Crystallizer: sessions, requests, the serving step and sampling (R430 to R436). -/

namespace Sys2Proof.Machine

/-! ### Sessions (R430, R431) -/

/-- Fields of the session block (R430). -/
def Session.decode (x : Session) : Nat := at4 x.block 4
def Session.prefill (x : Session) : Nat := at4 x.block 8
def Session.mixed (x : Session) : Nat := at4 x.block 12
def Session.slots (x : Session) : Nat := at1 x.block 18
def Session.slotReg (x : Session) : Nat := at1 x.block 19
def Session.mixRows (x : Session) : Nat := at2 x.block 20
def Session.chunkReg (x : Session) : Nat := at1 x.block 22
def Session.pageTokens (x : Session) : Nat := 2 ^ (at1 x.block 23 + 4)
def Session.poolVa (x : Session) : Nat := at8 x.block 24
def Session.poolPages (x : Session) : Nat := at4 x.block 32
def Session.listStride (x : Session) : Nat := at4 x.block 36
def Session.listVa (x : Session) : Nat := at8 x.block 40
def Session.tokensVa (x : Session) : Nat := at8 x.block 48
def Session.topkVa (x : Session) : Nat := at8 x.block 56
def Session.ktopMax (x : Session) : Nat := at2 x.block 64
def Session.reqVa (x : Session) : Nat := at8 x.block 72
def Session.reqLog2 (x : Session) : Nat := at1 x.block 80
def Session.reqFence (x : Session) : Nat := at4 x.block 84
def Session.reqHead (x : Session) : Nat := at8 x.block 88

/-- Reserved bytes of the session block. -/
def sessionReserved : List Nat := (List.range 6).map (· + 66) ++ (List.range 3).map (· + 81) ++ (List.range 3).map (· + 105) ++ (List.range 8).map (· + 120)

/-- A section handle of a block: absent, where it may be, or a section of the context. -/
def State.blockSec (s : State) (c h : Nat) (need : Bool) : Bool :=
  if h = 0 then !need else s.secs.any fun e => e.1 == h && e.2.ctx == c

/-- A fence of a block: the context may wait on it, or signal it. -/
def State.blockFence (s : State) (c handle : Nat) (signal : Bool) : Bool :=
  match s.fenceSlot handle with
  | some i => s.mayFence c i signal
  | none => false

/-- The ranges and names of a session block of context c (R430). -/
def State.blockOk (s : State) (c : Nat) (x : Session) : Bool :=
  let b := x.block
  x.block.length == 128 && sessionReserved.all (fun i => at1 b i == 0)
    && s.blockSec c x.decode true && s.blockSec c x.prefill false && s.blockSec c x.mixed false
    && (s.rg x.ring).live && (s.rg x.ring).ctx == c
    && decide (1 ≤ x.slots) && decide (x.slots ≤ 64) && decide (x.slotReg + x.slots ≤ 64) && decide (x.chunkReg < 64) && decide (at1 b 23 ≤ 8)
    && decide (1 ≤ x.ktopMax) && decide (x.ktopMax ≤ 1024) && decide (4 ≤ x.reqLog2) && decide (x.reqLog2 ≤ 16)
    && decide (6 ≤ x.tokLog2) && decide (x.tokLog2 ≤ 20) && s.blockFence c x.reqFence false && s.blockFence c x.tokFence true

/-- A posted call of the Crystallizer with a FUNC. -/
def State.crysCall (s : State) (entry func : Nat) : Option Call :=
  let q := (s.svc 0).ring.get {} entry
  if s.ready && q.st == 1 && q.func == func then some q else none

/-- The reply of a Crystallizer call: what does not fit DST breaks the call, as R429 has it of a service program (DEDUCED, log
entry 50). -/
def State.crysReply (s : State) (entry : Nat) (b : List Byte) : State :=
  if ((s.svc 0).ring.get {} entry).outLen < b.length then s.breakCall 0 entry else s.finishCall 0 entry b

/-- The 16 bytes of OPEN's reply (R430); the bytes it leaves are 0. -/
def openReply (revision status number : Nat) : List Byte := leBytes 2 revision ++ leBytes 2 status ++ leBytes 4 number ++ leBytes 8 0

/-- OPEN (R430, R431). The open session is looked for first, then the revision, then the block (DESIGN CHOICE, log entry
50). -/
def execCrysOpen (entry : Nat) (s : State) : Out :=
  match s.crysCall entry 1 with
  | none => .next s
  | some q =>
    let x : Session := { block := q.input, number := s.nextSession }
    if s.sessions.any fun e => e.1 == q.ctx then
      let y := s.sessions.get {} q.ctx
      .next (if y.block = q.input then s.crysReply entry (openReply 0x0100 0 y.number) else s.crysReply entry (openReply 0 3 0))
    else if !(decide (at2 q.input 0 ≤ 0x0100) && decide (0x0100 ≤ at2 q.input 2)) then .next (s.crysReply entry (openReply 0 1 0))
    else if !s.blockOk q.ctx x then .next (s.crysReply entry (openReply 0x0100 2 0))
    else
      let s := { s with sessions := s.sessions.put q.ctx x, nextSession := (s.nextSession + 1) % 2 ^ 32 }
      .next (s.crysReply entry (openReply 0x0100 0 x.number))

/-- The reply of CLOSE and STATUS, which the manual does not lay out: free values (log entry 47). -/
def State.freeReply (s : State) (entry : Nat) : State :=
  let n := min 16 ((s.svc 0).ring.get {} entry).outLen
  let b := leBytes 8 (Config.freeWord s.free).toNat ++ leBytes 8 (Config.freeWord (s.free + 1)).toNat
  ({ s with free := s.free + 2 } : State).crysReply entry (b.take n)

/-- CLOSE (R431): every open request ends with REASON 6, and the ring returns to the driver. -/
def execCrysClose (entry : Nat) (s : State) : Out :=
  match s.crysCall entry 2 with
  | none => .next s
  | some q => .next ((s.endSession q.ctx 6).freeReply entry)

/-- STATUS (R430). -/
def execCrysStatus (entry : Nat) (s : State) : Out :=
  match s.crysCall entry 3 with
  | none => .next s
  | some _ => .next (s.freeReply entry)

/-! ### Requests (R432 to R434) -/

/-- A session's own access to its context's memory; a failing access loses the context with its status (DESIGN CHOICE, log
entry 52). -/
def crysRead (c va n : Nat) : Cm (List Byte) := liftR fun s => s.readVa { ctx := c } va n
/-- Bytes of a session written at once. -/
def crysWrite (c va : Nat) (b : List Byte) : Cm Unit := do
  let ws ← liftR fun s => s.stageVa { ctx := c } va b
  modify fun s => s.applyStaged ws

/-- The session of a context. -/
def sessionOf (c : Nat) : Cm Session := do pure ((← get).sessions.get {} c)
/-- The session of a context changed. -/
def updSession (c : Nat) (f : Session → Session) : Cm Unit :=
  modify fun s => { s with sessions := s.sessions.put c (f (s.sessions.get {} c)) }

/-- Whether a request is taken, or rejected with REASON 4 (R434). -/
def Session.takes (x : Session) (e : List Byte) : Bool :=
  let n := at4 e 16
  let m := at4 e 20
  decide (1 ≤ n) && decide (1 ≤ m) && decide (1 ≤ at2 e 40) && decide (at2 e 40 ≤ x.ktopMax) && at2 e 42 == 0 && at4 e 60 == 0
    && decide (n + m ≤ 2 ^ 22) && decide (cdiv (n + m) x.pageTokens ≤ x.poolPages)

/-- One request entry taken from the request ring: queued, or rejected; none is taken while a rejection finds no slot. -/
def takeRequest (c : Nat) : Cm Unit := do
  let x ← sessionOf c
  let room ← liftR fun s => s.tokenRoom c x
  let e ← crysRead c (x.reqVa + 64 * (x.taken % 2 ^ x.reqLog2)) 64
  if x.takes e then
    let b ← crysRead c (at8 e 8) (4 * at4 e 16)
    let r : Req :=
      { id := at8 e 0, prompt := tab (at4 e 16) fun i => at4 b (4 * i), maxNew := at4 e 20, seed := at8 e 24, invTemp := at4 e 32
        topp := at4 e 36, ktop := at2 e 40, stop := (tab 4 fun i => at4 e (44 + 4 * i)).filter (· != 0xFFFFFFFF) }
    updSession c fun x => { x with taken := x.taken + 1, reqs := x.reqs ++ [r] }
  else if room = 0 then pure ()
  else do
    modify fun s => s.putTokens c [tokenRecord (at8 e 0) 0 0 4]
    updSession c fun x => { x with taken := x.taken + 1 }

/-- Every entry up to REQ_FENCE's value taken in ring order, then REQ_HEAD_VA written (R432). -/
def takeRequests (c : Nat) : Cm Unit := do
  let x ← sessionOf c
  let s ← get
  let v := match s.fenceSlot x.reqFence with
    | some i => (s.fe i).value
    | none => 0
  (List.range (min (v - x.taken) (2 ^ x.reqLog2))).forM fun _ => takeRequest c
  let y ← sessionOf c
  if y.taken != x.taken then crysWrite c y.reqHead (leBytes 8 y.taken) else pure ()

/-! ### The serving step (R435) -/

/-- Pages of the pool that no request holds. -/
def Session.freePages (x : Session) : Nat := x.poolPages - (x.reqs.map fun r => r.pages.length).sum
/-- The lowest free page of the pool. -/
def Session.lowestPage (x : Session) : Nat :=
  let used := x.reqs.flatMap Req.pages
  ((List.range (used.length + 1)).find? fun p => !used.contains p).getD 0

/-- A request by its number among those of the session. -/
def Session.updReq (x : Session) (i : Nat) (f : Req → Req) : Session := { x with reqs := x.reqs.modify i f }

/-- Indices of the generating requests, oldest admitted first, that have room for a record; at most SLOTS. -/
def Session.decodeRows (x : Session) (room : Nat) : List Nat :=
  let g := (x.reqs.zipIdx.filter fun e => e.1.gen).mergeSort fun a b => decide (a.1.order ≤ b.1.order)
  (g.map Prod.snd).take (min x.slots room)

/-- Whether the new position of a request needs another page. -/
def Req.needsPage (r : Req) (p : Nat) : Bool := decide (r.pages.length * p ≤ r.fed)

/-- The generating request admitted last gives its pages up and returns to the head of the queue (step 3). -/
def Session.evict (x : Session) : Session :=
  let g := (x.reqs.zipIdx.filter fun e => e.1.gen).mergeSort fun a b => decide (b.1.order ≤ a.1.order)
  match g.head? with
  | none => x
  | some (r, i) => { x with reqs := { r with gen := false, fed := 0, pages := [], order := 0, row := none, chunk := 0 } :: x.reqs.eraseIdx i }

/-- Evictions until the pages for the rows suffice (step 3). -/
def Session.fit (x : Session) (room : Nat) : Nat → Session
  | 0 => x
  | n + 1 =>
    let need := ((x.decodeRows room).filter fun i => ((x.reqs.getD i {}).needsPage x.pageTokens)).length
    if need ≤ x.freePages then x else Session.fit x.evict room n

/-- Pages given to a request until it has n. -/
def Session.grow (x : Session) (i n : Nat) : Nat → Session
  | 0 => x
  | k + 1 =>
    if n ≤ (x.reqs.getD i {}).pages.length then x
    else Session.grow (x.updReq i fun r => { r with pages := r.pages ++ [x.lowestPage] }) i n k

/-- The oldest request still in prefill: one that is admitted, or else the head of the queue. -/
def Session.prefilling (x : Session) : Option Nat :=
  let w := x.reqs.zipIdx.filter fun e => !e.1.gen
  let started := (w.filter fun e => 0 < e.1.order).mergeSort fun a b => decide (a.1.order ≤ b.1.order)
  ((started ++ w).head?).map Prod.snd

/-- The chunk of a request (step 4): reduced to the pages free; a chunk that would complete the prompt needs a slot for its
record. -/
def Session.chunkOf (x : Session) (i rows room : Nat) : Nat :=
  let r := x.reqs.getD i {}
  let c := min (min (r.prompt.length - r.fed) (x.mixRows - rows)) ((r.pages.length + x.freePages) * x.pageTokens - r.fed)
  if r.fed + c = r.prompt.length ∧ room ≤ rows then 0 else c

/-- The batch of a step: every row's request gets its row number and its page, and the chunk its rows (steps 2 to 4). -/
def Session.batch (x : Session) (room : Nat) : Session :=
  let x := x.fit room x.reqs.length
  let rows := x.decodeRows room
  let x := rows.zipIdx.foldl (fun x (i, n) => (x.grow i (cdiv ((x.reqs.getD i {}).fed + 1) x.pageTokens) 1).updReq i fun r => { r with row := some n, chunk := 1 }) x
  match x.prefilling with
  | none => x
  | some i =>
    let c := if rows.isEmpty then (if x.prefill = 0 then 0 else x.chunkOf i 0 room) else if x.mixed = 0 then 0 else x.chunkOf i rows.length room
    if c = 0 then x
    else
      let n := cdiv ((x.reqs.getD i {}).fed + c) x.pageTokens
      let ord := if (x.reqs.getD i {}).order = 0 then x.nextOrder else (x.reqs.getD i {}).order
      { (x.grow i n n).updReq i fun r => { r with row := some rows.length, chunk := c, order := ord } with nextOrder := x.nextOrder + 1 }

/-- A PATCH with OP SET of a register of a section (R230). -/
def patchSet (sec reg v : Nat) : List Byte :=
  leBytes 8 0xE0 ++ leBytes 1 0 ++ leBytes 1 reg ++ leBytes 2 0 ++ leBytes 4 sec ++ leBytes 8 v ++ leBytes 8 0
/-- A REPLAY with COUNT 1 (R230). -/
def replayOne (sec : Nat) : List Byte := leBytes 8 0xE1 ++ leBytes 4 0 ++ leBytes 4 sec ++ leBytes 8 1 ++ leBytes 8 0

/-- The section of a step (step 5). -/
def Session.stepSection (x : Session) : Nat :=
  let dec := x.reqs.any fun r => r.gen && r.row.isSome
  let pre := x.reqs.any fun r => !r.gen && r.row.isSome
  if dec && pre then x.mixed else if dec then x.decode else x.prefill

/-- The registers of a step: the positions and key counts of the decode rows when it has any, and its chunk's length and start
when it has one (R430; log entry 48). -/
def Session.stepWords (x : Session) : List (List Byte) :=
  let h := x.stepSection
  let rows := tab x.slots fun j =>
    match x.reqs.find? fun r => r.gen && r.row == some j with
    | some r => r.fed + 2 ^ 32 * (r.fed + 1)
    | none => 0
  let dec := if x.reqs.any fun r => r.gen && r.row.isSome then rows.mapIdx fun j v => patchSet h (x.slotReg + j) v else []
  let chunk := (x.reqs.filter fun r => !r.gen && r.row.isSome).map fun r => patchSet h x.chunkReg (r.chunk + 2 ^ 32 * r.fed)
  dec ++ chunk ++ [replayOne h]

/-- The input tokens and page lists of a step written (step 5). The list of the chunk stands at its first row (DESIGN CHOICE,
log entry 51). -/
def writeBatch (c : Nat) : Cm Unit := do
  let x ← sessionOf c
  (x.reqs.filter fun r => r.row.isSome).forM fun r => do
    let n := r.row.getD 0
    crysWrite c (x.tokensVa + 4 * n) ((tab r.chunk fun i => leBytes 4 (r.prompt.getD (r.fed + i) 0)).flatten)
    crysWrite c (x.listVa + n * x.listStride) ((r.pages.map fun p => let (k, v) := Config.kvPage x.poolVa p; leBytes 8 k ++ leBytes 8 v).flatten)

/-- What a Crystallizer step does with its context, when the context's session may go on. -/
def State.crysRun (s : State) (c : Nat) (m : Cm Unit) : State :=
  match m.exec s with
  | (.ok _, s) => s
  | (.error e, s) => s.loseCtx c e

/-- Steps 1 to 5 of R435; the PATCH words carry the register table's values as SETs (DESIGN CHOICE, log entry 48). -/
def servingStep (c : Nat) : Cm Unit := do
  takeRequests c
  let x ← sessionOf c
  let room ← liftR fun s => s.tokenRoom c x
  updSession c fun x => x.batch room
  let y ← sessionOf c
  if y.reqs.any fun r => r.row.isSome then do
    writeBatch c
    updSession c fun x => { x with running := true }
    modify fun s => (s.updRg y.ring fun g => { g with work := .exec y.stepWords 0 false, evt := false, irq := false, user := 0 }).reachRing y.ring
  else pure ()

/-- SERVING_STEP (R435). -/
def execServingStep (ctx : Nat) (s : State) : Out :=
  if 256 ≤ ctx then .fault (.noSuchUnit "context")
  else if !s.ready || !(s.sessions.any fun e => e.1 == ctx) || (s.sessions.get {} ctx).running || (s.cx ctx).life != .live
      || (s.rg (s.sessions.get {} ctx).ring).work != .idle then .next s
  else .next (s.crysRun ctx (servingStep ctx))

/-! ### Sampling (R436) -/

/-- SipHash-1-3 with 64-bit output over a message of 12 bytes. -/
def sipHash64 (k0 k1 : Word) (m : List Byte) : Nat :=
  let s : Sip := { v0 := k0 ^^^ 0x736F6D6570736575, v1 := k1 ^^^ 0x646F72616E646F6D, v2 := k0 ^^^ 0x6C7967656E657261, v3 := k1 ^^^ 0x7465646279746573 }
  let last := leNat ((m.drop 8).take 7) + m.length % 256 * 2 ^ 56
  let s := [BitVec.ofNat 64 (leNat (m.take 8)), BitVec.ofNat 64 last].foldl Sip.absorb s
  let s := { s with v2 := s.v2 ^^^ 0xFF }.round.round.round
  s.out.toNat

/-- The draw of a request at a position (R436). -/
def crysDraw (seed pos id : Nat) : Nat :=
  sipHash64 (BitVec.ofNat 64 seed) (BitVec.ofNat 64 (leNat (ascii "DW9-crys"))) (leBytes 4 pos ++ leBytes 8 id) % 2 ^ 24

/-- REASON after a token (R433). -/
def Req.reason (r : Req) (token : Nat) : Nat :=
  if r.stop.contains token then 1 else if r.maxNew ≤ r.made + 1 then 2 else if 2 ^ 22 ≤ r.prompt.length + 1 then 3 else 0

/-- One request's part of a finished run: its keys are in; a row that samples yields a token and its record. -/
def sampleReq (c : Nat) (x : Session) (r : Req) : Cm (Option Req × List (List Byte)) := do
  let fed := r.fed + r.chunk
  if fed < r.prompt.length then pure (some { r with fed, row := none, chunk := 0 }, [])
  else do
    let a := x.topkVa + (r.row.getD 0 + r.chunk - 1) * 8 * x.ktopMax
    let v ← crysRead c a (4 * x.ktopMax)
    let n ← crysRead c (a + 4 * x.ktopMax) (4 * x.ktopMax)
    let pos := r.prompt.length
    let t := at4 n (4 * sampleRow r.invTemp r.ktop r.topp (crysDraw r.seed pos r.id) (tab x.ktopMax fun i => at4 v (4 * i)))
    let why := r.reason t
    let next : Req := { r with fed, row := none, chunk := 0, gen := true, made := r.made + 1, prompt := r.prompt ++ [t] }
    pure (if why = 0 then some next else none, [tokenRecord r.id t pos why])

/-- Step 6 of R435: rows sampled in row order, their records written, the pages of finished requests free. -/
def sampleStep (c : Nat) : Cm Unit := do
  let x ← sessionOf c
  let out ← x.reqs.mapM fun r => if r.row.isSome then do pure (r.row, ← sampleReq c x r) else pure (none, some r, [])
  let recs := (out.mergeSort fun a b => decide (a.1.getD 0 ≤ b.1.getD 0)).flatMap fun o => o.2.2
  updSession c fun x => { x with running := false, reqs := out.filterMap fun o => o.2.1 }
  modify fun s => s.putTokens c recs

/-- CRYSTALLIZER_SAMPLING (R435 step 6, R436): once the run of the step has completed. -/
def execCrystallizerSampling (ctx : Nat) (s : State) : Out :=
  if 256 ≤ ctx then .fault (.noSuchUnit "context")
  else if !s.ready || !(s.sessions.get {} ctx).running || (s.cx ctx).life != .live || (s.rg (s.sessions.get {} ctx).ring).work != .idle then .next s
  else .next (s.crysRun ctx (sampleStep ctx))

end Sys2Proof.Machine
end

