-- ==== Sys2Proof/Machine/Fabric.lean ====
section
/-! DEFINITION. The extension fabric's rim ports: SOFT_CALL, the part's reply, breaches, clock loss and the join of parts
(R236, R443 to R455, R473 to R475). -/

namespace Sys2Proof.Machine

/-! ### Parts -/

/-- The places of a part: PART_p in the capability table (R472). -/
def partOff (p : Nat) : Nat := 0x1120 + 32 * p

/-- The applied state of a part: loaded, whether or not it is joined (R452, R454). -/
def XPart.loaded (p : XPart) : Bool := p.st == 3 || p.st == 4 || p.st == 5

/-- EXT_PORT_STAT of a part (R453). -/
def XPart.portStat (p : XPart) : Nat := p.violCount + 2 ^ 32 * p.violKind + 2 ^ 40 * b2n p.clamped + 2 ^ 41 * b2n p.call.isSome

/-- Loaded parts may be at work: from the load of the boot image on, until the engine is lost. -/
def State.fabricUp (s : State) : Bool := s.pins.porstN && decide (4 ≤ s.hub.stage) && decide (s.hub.stage ≤ 6) && !s.hub.lost

/-- The load in progress names part p, and its calls drain or its frames are applied (steps 4 and 5 of R469). -/
def State.loadNames (s : State) (p : Nat) : Bool := decide (3 ≤ s.loader.st) && bit (leAt s.loader.staging 32 5) p

/-- A breach of the handshake by part p (R452): counted, logged, PORT_RST raised; the call in progress fails with WAIT_TIMEOUT,
but for kind 5. -/
def State.breach (s : State) (p kind : Nat) : State :=
  let call := (s.xp p).call
  let s := s.updXp p fun x => { x with violCount := satinc 32 x.violCount, violKind := kind, call := if kind = 5 then x.call else none }
  let s := (s.logCo 0x8001 1 7 p 0 [0, (s.xp p).portStat, 0]).emit (.portRst p)
  match call with
  | some c => if kind = 5 then s else s.failCmd c.ref 0x0301
  | none => s

/-! ### Frames on the rim port (R249, R449) -/

/-- A framing descriptor with its tile fields replaced. -/
def Desc.withTile (d : Desc) (rows cols : Nat) : Desc := { b := (d.b.set 6 (BitVec.ofNat 8 rows)).set 7 (BitVec.ofNat 8 cols) }

/-- The tile fields of a call's operand: those of the descriptor, or the engine's own choice for a memory operand that leaves
them 0 (R189, R449): a free value that keeps R248. -/
def TRef.tileFor (t : TRef) : Cm TRef :=
  if t.d.space = 3 ∨ at1 t.d.b 6 ≠ 0 ∨ at1 t.d.b 7 ≠ 0 then pure t
  else do
    let v ← drawFree
    let rows := if t.d.blocked = 1 ∨ t.d.square then 32 * (v % 8) + 31 else v % 256
    pure { t with d := t.d.withTile rows (v / 256 % 256) }

/-- Bytes of a row of a tile on a route, rounded to 64 (R249). -/
def rowPitch (fmt cols : Nat) : Nat := roundUp (cdiv (cols * fmtBits fmt) 8) 64

/-- The bytes of a frame on the rim port. -/
def SFrame.bytes (f : SFrame) (tileRows tileCols : Nat) : List Byte :=
  let head := leBytes 4 f.run ++ leBytes 4 f.seq ++ leBytes 2 f.t0 ++ leBytes 2 f.t1 ++ leBytes 4 f.outer ++ leBytes 2 f.rows ++ leBytes 2 f.cols
    ++ leBytes 1 (b2n f.empty + 2 * b2n f.last + 4 * b2n f.scaled) ++ leBytes 1 f.fmt ++ leBytes 1 (uwrap 8 f.tscale) ++ leBytes 41 0
  let pitch := rowPitch f.fmt tileCols
  let row := fun i => let b := if i < f.rows && !f.empty then packRow f.fmt ((f.codes.drop (i * f.cols)).take f.cols) else []
    b ++ List.replicate (pitch - b.length) 0
  let n := roundUp (cdiv (tileRows * tileCols) 32) 64
  let sc := f.scales.map fun v => BitVec.ofNat 8 v
  head ++ (List.range tileRows).flatMap row ++ (if f.scaled then sc ++ List.replicate (n - sc.length) 0 else [])

/-- Bytes of a whole frame (R249). -/
def frameLen (fmt tileRows tileCols : Nat) (scaled : Bool) : Nat :=
  64 + tileRows * rowPitch fmt tileCols + (if scaled then roundUp (cdiv (tileRows * tileCols) 32) 64 else 0)

/-- A frame of the reply, read by the framing of DST. -/
def readFrame (b : List Byte) (t : TRef) : SFrame :=
  let rows := at2 b 16
  let cols := at2 b 18
  let fl := at1 b 20
  let pitch := rowPitch t.fmt t.d.tileCols
  let (b0, b1) := tileBlocks t.d rows cols
  { run := at4 b 0, seq := at4 b 4, t0 := at2 b 8, t1 := at2 b 10, outer := at4 b 12, rows, cols
    empty := bit fl 0, last := bit fl 1, scaled := bit fl 2, fmt := at1 b 21, tscale := sext 8 (at1 b 22)
    codes := if bit fl 0 then [] else (List.range rows).flatMap fun i => unpackRow t.fmt cols ((b.drop (64 + i * pitch)).take pitch)
    scales := if t.d.scaled && !bit fl 0 then ((b.drop (64 + t.d.tileRows * pitch)).take (b0 * b1)).map BitVec.toNat else [] }

/-! ### SOFT_CALL (R236, R449, R450, R475) -/

/-- The soft part a station's call goes to: the part that its soft station bound to (R265, R475). -/
def State.callPart (s : State) (k : Cmd) : Option Nat :=
  match refSec k.ref with
  | some h => ((s.sec h).softParts.find? fun e => e.1 == at2 k.word 12).map Prod.snd
  | none => none

/-- SRC as frames of a call: those taken from its route, or the tensor's own. -/
def Cx.callFrames (c : Cx) (t : TRef) (id : Nat) : Cm (List SFrame) :=
  if t.d.space = 3 then
    pure (((c.taken.filter fun e => e.1 == t.d.route).map Prod.snd).mapIdx fun i f => { f with run := id, seq := i })
  else do
    let x ← c.loadMem t
    let sc ← if t.d.scaled then c.read t.d.space t.sbase t.nBlocks else pure []
    pure (t.frames id 0 x.codes (sc.map BitVec.toNat) false)

/-- The header of a call (R449). -/
def callHeader (k : Cmd) (id soft : Nat) (src dst : TRef) (fmt nSrc : Nat) : List Byte :=
  leBytes 4 id ++ leBytes 1 k.ctx ++ leBytes 1 1 ++ leBytes 2 soft ++ leBytes 2 (at2 k.word 14) ++ leBytes 6 0 ++ leBytes 8 (at8 k.word 16)
    ++ leBytes 4 nSrc ++ leBytes 4 dst.nFrames ++ leBytes 1 fmt ++ (src.d.b.drop 6).take 2 ++ leBytes 1 dst.fmt ++ (dst.d.b.drop 6).take 2
    ++ leBytes 2 0 ++ (tab 5 fun i => leBytes 4 (dst.ext.getD i 0)).flatten ++ leBytes 4 0

/-- The call's beats, and its header. -/
def Cx.callBeats (c : Cx) (k : Cmd) (id soft : Nat) : Cm (List Byte × List Byte) := do
  let src ← (c.tref (at2 k.word 8)).tileFor
  let dst ← (c.tref (at2 k.word 10)).tileFor
  let fs ← c.callFrames src id
  let fmt := (fs.head?.map SFrame.fmt).getD src.fmt
  let h := callHeader k id soft src dst fmt fs.length
  pure (h, fs.flatMap fun f => f.bytes src.d.tileRows src.d.tileCols)

/-- A call sent to part p, whose port is free (R449). -/
def State.sendCall (s : State) (k : Cmd) (p soft : Nat) : State :=
  let id := (s.xp p).nextId
  match ((s.cxOf k).callBeats k id soft).exec s with
  | (.error e, s) => s.failCmd k.ref e
  | (.ok (h, b), s) =>
    let s := s.updXp p fun x => { x with
      call := some { id, ref := k.ref }, nextId := if id + 1 < 2 ^ 32 then id + 1 else 1, waiting := x.waiting.filter fun r => r != k.ref }
    (s.updCmd k.ref fun k => { k with phase := .executing, call := some id, target := p, acc := h, taken := [] }).emit (.beats p (h ++ b))

/-- SOFT_CALL (R236): sent once the part is free, joined and not being loaded; it waits meanwhile. -/
def execSoftCall (ref : CmdRef) (s : State) : Out :=
  let s := s.takeUp ref 0xE3
  match s.issued? ref 0xE3 with
  | none => .next s
  | some k =>
    if !s.framesIn k then .next s
    else if k.skipped then .next (s.finishWork k { prod := { frames := (s.cxOf k).emptyFrames k.words } } k.infos)
    else match s.callPart k with
      | none => .next (s.failCmd ref stAbsent)
      | some p =>
        let x := s.xp p
        let soft := (s.sec ((refSec ref).getD 0)).bind (at2 k.word 12)
        if s.loadNames p || x.st == 2 then .next s
        else if !x.softIds.contains soft then .next (s.failCmd ref stAbsent)
        else if x.st != 3 || x.clamped then .next s
        else if x.call.isSome || (x.waiting.head?.any fun r => r != ref) then
          .next (if x.waiting.contains ref then s else s.updXp p fun x => { x with waiting := x.waiting ++ [ref] })
        else .next (s.sendCall k p soft)

/-- CALL_TIMEOUT (R236, R428, R450, R452): the window from the call's issue has ended. -/
def execCallTimeout (ref : CmdRef) (s : State) : Out :=
  match s.cmd? ref with
  | none => .next s
  | some k =>
    let op := cOp k.word
    if (op != 0xE3 && op != 0xE4) || (k.phase != .issued && k.phase != .executing) || k.skipped then .next s
    else
      let s := s.atTime (k.reached + timeoutNs (at2 k.word 24))
      if op = 0xE3 then
        if k.phase == .executing then .next (s.breach k.target 6) else .next (s.failCmd ref 0x0301)
      else
        let v := at2 k.word 12
        .next ((s.updSvc v fun v => { v with failed := if k.phase == .executing then satinc 32 v.failed else v.failed }).failCmd ref 0x0301)

/-! ### The part's reply (R449, R452) -/

/-- The call in progress of a part with its command. -/
def State.inCall (s : State) (p : Nat) : Option (XCall × Cmd) :=
  (s.xp p).call.bind fun c => (s.cmd? c.ref).map fun k => (c, k)

/-- DST of a call with the framing the call header carries. -/
def State.callDst (s : State) (k : Cmd) : TRef :=
  let t := (s.cxOf k).tref (at2 k.word 10)
  { t with d := t.d.withTile (at1 k.acc 36) (at1 k.acc 37) }

/-- The call has ended with DST complete: frames of a stream destination are emitted. -/
def State.endCall (s : State) (p : Nat) (k : Cmd) : State :=
  let t := s.callDst k
  let s := s.updXp p fun x => { x with call := none }
  let x := (s.cxOf k).x
  let seq := ((x.run.map Run.seqs).getD []).get 0 t.d.route
  let fs := if t.d.space = 3 then ((s.cmd? k.ref).map Cmd.taken).getD [] else []
  let out := fs.mapIdx fun i e => (e.1, { e.2 with run := x.runNo % 2 ^ 32, seq := seq + i, last := i + 1 == fs.length })
  match s.cmd? k.ref with
  | some k => s.finishWork k { prod := { frames := out } } k.infos
  | none => s

/-- REPLY_HEADER (R449): KIND, CALL_ID, SOFT_ID and DST_FRAMES are the call's. -/
def execReplyHeader (part : Nat) (beat : List Byte) (last : Bool) (s : State) : Out :=
  if 40 ≤ part then .fault (.noSuchUnit "part")
  else match s.inCall part with
    | none => .next s
    | some (c, k) =>
      let n := (s.callDst k).nFrames
      let soft := at2 k.acc 6
      if c.header then .next (s.breach part 3)
      else if at1 beat 5 != 2 || at4 beat 0 != c.id || at2 beat 6 != soft || at4 beat 28 != n then .next (s.breach part 2)
      else if last != (n == 0) then .next (s.breach part 4)
      else
        let s := s.updXp part fun x => { x with call := some { c with header := true } }
        .next (if n = 0 then s.endCall part k else s)

/-- Frame n of DST's order, and the valid rows and columns of its tile (R250). -/
def TRef.frameAt (t : TRef) (n : Nat) : Nat × Nat × Nat × Nat × Nat :=
  let t0 := n % t.tiles0
  let t1 := n / t.tiles0 % t.tiles1
  (t0, t1, n / (t.tiles0 * t.tiles1), min t.d.tileRows (t.e 1 - t1 * t.d.tileRows), min t.d.tileCols (t.e 0 - t0 * t.d.tileCols))

/-- A reply frame agrees with frame n of a call (kind 3 of R452). -/
def TRef.frameFits (t : TRef) (f : SFrame) (id n : Nat) : Bool :=
  let (t0, t1, o, rows, cols) := t.frameAt n
  f.run == id && f.seq == n && f.t0 == t0 && f.t1 == t1 && f.outer == o && f.fmt == t.fmt
    && decide (1 ≤ f.rows) && decide (f.rows ≤ rows) && decide (1 ≤ f.cols) && decide (f.cols ≤ cols)

/-- A reply frame staged for DST: elements outside ROWS and COLS are zero codes (R250). -/
def Cx.stageFrame (c : Cx) (t : TRef) (f : SFrame) (n : Nat) : Cm (List (Loc × Byte)) := do
  let (t0, t1, o, rows, cols) := t.frameAt n
  let outer := (indices (t.ext.drop 2)).getD o []
  let code := fun r k => if f.empty || f.rows ≤ r || f.cols ≤ k then 0 else f.codes.getD (r * f.cols + k) 0
  let ws ← (List.range rows).mapM fun r =>
    c.write t.d.space (t.base + t.d.rowOff ((t1 * t.d.tileRows + r) :: outer) + t0 * t.d.tileCols * fmtBits t.fmt / 8) (packRow t.fmt (tab cols (code r)))
  let bx := blockExt (t.ext ++ List.replicate (2 - t.ext.length) 1) t.d.blocked t.d.square
  let (b0, b1) := tileBlocks t.d f.rows f.cols
  let f0 := if t.d.square || t.d.blocked == 0 then t0 * t.d.tileCols / 32 else t0 * t.d.tileCols
  let f1 := if t.d.square || t.d.blocked == 1 then t1 * t.d.tileRows / 32 else t1 * t.d.tileRows
  let put := fun i => c.write t.d.space (t.sbase + (f0 + i % b0) + bx.getD 0 1 * ((f1 + i / b0) + bx.getD 1 1 * o)) [BitVec.ofNat 8 (f.scales.getD i 0)]
  let ss ← (List.range (if t.d.scaled && !f.empty then b0 * b1 else 0)).mapM put
  pure (ws.flatten ++ ss.flatten)

/-- REPLY_FRAME (R449): checked, and written into DST; after the last the call has ended. -/
def execReplyFrame (part : Nat) (frame : List Byte) (last : Bool) (s : State) : Out :=
  if 40 ≤ part then .fault (.noSuchUnit "part")
  else match s.inCall part with
    | none => .next s
    | some (c, k) =>
      let t := s.callDst k
      let f := readFrame frame t
      if !c.header then .next (s.breach part 2)
      else if !t.frameFits f c.id c.frames then .next (s.breach part 3)
      else if frame.length != frameLen t.fmt t.d.tileRows t.d.tileCols t.d.scaled || last != (c.frames + 1 == t.nFrames) then .next (s.breach part 4)
      else
        let s := s.updXp part fun x => { x with call := some { c with frames := c.frames + 1 } }
        let fin := fun (s : State) => if last then s.endCall part k else s
        if t.d.space = 3 then .next (fin (s.updCmd k.ref fun k => { k with taken := k.taken ++ [(t.d.route, f)] }))
        else match ((s.cxOf k).stageFrame t f c.frames).exec s with
          | (.error e, s) => .next ((s.updXp part fun x => { x with call := none }).emit (.portRst part) |>.failCmd k.ref e)
          | (.ok ws, s) => .next (fin (s.updCmd k.ref fun k => { k with staged := k.staged ++ ws }))

/-- UNSOLICITED (R452): beats with no call in progress are discarded and counted. -/
def execUnsolicited (part : Nat) (s : State) : Out :=
  if 40 ≤ part then .fault (.noSuchUnit "part")
  else
    let x := s.xp part
    .next (if s.fabricUp && x.loaded && !x.clamped && x.call.isNone then s.breach part 5 else s)

/-! ### Clocks (R444, R445, R454) -/

/-- The tree of a number: 8 per region, two per part. -/
def XPart.tree (x : XPart) (i : Nat) : Tree := x.trees.getD i {}

/-- The source code a tree runs from. -/
def Tree.src (t : Tree) : Nat := if t.useB then t.srcB else t.srcA

/-- A tree of a loaded part has stopped, or runs above 816 MHz (R454). -/
def State.stopTree (s : State) (tree : Nat) : State :=
  let p := tree / 2
  let x := s.xp p
  if !x.loaded || !(x.tree (tree % 2)).en || (x.tree (tree % 2)).stopped then s
  else
    let s := s.updXp p fun x => { x with trees := x.trees.modify (tree % 2) fun t => { t with stopped := true } }
    let s := s.breach p 7
    let s := s.logEv 0x8002 1 7 p 0 [0, (s.xp p).portStat, 0]
    (s.updXp p fun x => { x with clamped := true, st := 5 }).devChangeAll (partOff p)

/-- CLOCK_TREE_STOP (R454, R41). -/
def execClockTreeStop (tree : Nat) (s : State) : Out :=
  if 80 ≤ tree then .fault (.noSuchUnit "tree") else .next (if s.fabricUp then s.stopTree tree else s)

/-- CLOCK_SWITCH (R444): a tree of a loaded part runs from its other input. -/
def execClockSwitch (tree : Nat) (s : State) : Out :=
  if 80 ≤ tree then .fault (.noSuchUnit "tree")
  else if !s.fabricUp || !(s.xp (tree / 2)).loaded || !((s.xp (tree / 2)).tree (tree % 2)).en then .next s
  else .next (s.updXp (tree / 2) fun x => { x with trees := x.trees.modify (tree % 2) fun t => { t with useB := !t.useB } })

/-- PLL_LOSS_OF_LOCK (R445): every tree that the region's PLL feeds has lost its clock. -/
def execPllLossOfLock (region : Nat) (s : State) : Out :=
  if 10 ≤ region then .fault (.noSuchUnit "region")
  else if !s.fabricUp then .next s
  else .next (((List.range 8).map (8 * region + ·)).foldl (fun s t =>
    if 4 ≤ ((s.xp (t / 2)).tree (t % 2)).src then s.stopTree t else s) s)

/-- A part's ports open: PORT_RST released, clamps released, STATE 3 (step 7 of R473, R454). -/
def State.joinPart (s : State) (p : Nat) : State :=
  (s.updXp p fun x => { x with st := 3, clamped := false, rst := false, awaiting := false, trees := x.trees.map fun t => { t with stopped := false } }).devChangeAll (partOff p)

/-- PART_REJOIN (R454): every tree has run within limits for 1 ms, and JOIN is 1; PORT_RST is raised first. -/
def execPartRejoin (part : Nat) (s : State) : Out :=
  if 40 ≤ part then .fault (.noSuchUnit "part")
  else if !s.fabricUp || (s.xp part).st != 5 || !(s.xp part).join then .next s
  else .next (((s.atTime (s.time.now + 1000000)).emit (.portRst part)).joinPart part)

/-- JOIN (R473 steps 6 and 7): ignored while the part's reset is held. -/
def execJoin (part : Nat) (s : State) : Out :=
  if 40 ≤ part then .fault (.noSuchUnit "part")
  else
    let x := s.xp part
    if !s.fabricUp then .next s
    else if x.st = 1 ∨ (x.st = 2 ∧ !x.awaiting) then .next s
    else
      let s := s.updXp part fun x => { x with join := true }
      .next (if x.st = 2 ∨ x.st = 4 then s.joinPart part else s)

/-- JOIN_TIMEOUT (R473 step 7′): the part stays clamped in STATE 4. -/
def execJoinTimeout (part : Nat) (s : State) : Out :=
  if 40 ≤ part then .fault (.noSuchUnit "part")
  else
    let x := s.xp part
    if x.st != 2 || !x.awaiting || x.join then .next s
    else
      let s := s.atTime x.joinBy
      let s := s.updXp part fun x => { x with st := 4, awaiting := false }
      let s := { s with loader := { s.loader with lastFlags := s.loader.lastFlags ||| 2 ^ 20 } }
      .next (((s.logEv 0x6003 1 7 part 0 [0, (s.xp part).portStat, 0]).devChangeAll (partOff part)).devChangeAll 0x1108)

end Sys2Proof.Machine
end

