-- ==== Sys2Proof/Machine/Image.lean ====
section
/-! DEFINITION. Ohmos images: the configuration port, the checks of a sub-image, its application, the patch capsule, readback
(R456 to R482). -/

namespace Sys2Proof.Machine

/-! ### The sub-image (R456 to R463) -/

/-- Fields of a sub-image's header (R457). -/
def imgTotal (b : List Byte) : Nat := at4 b 16
def imgFlag (b : List Byte) (i : Nat) : Bool := bit (at1 b 7) i
def imgKey (b : List Byte) : Nat := fld (at1 b 11) 0 2
def imgMap (b : List Byte) : Nat := leAt b 32 5
/-- The parts of REGION_MAP, ascending. -/
def imgParts (b : List Byte) : List Nat := ones 40 (imgMap b)
/-- JOIN_TIMEOUT in ms. -/
def imgJoin (b : List Byte) : Nat := if at2 b 14 = 0 then 1000 else at2 b 14
/-- Where the body starts, and where it ends. -/
def imgBody (b : List Byte) : Nat := 128 + 32 * (imgParts b).length
def imgEnd (b : List Byte) : Nat := imgTotal b - 192 - (if imgFlag b 0 then 16 else 0)

/-- MAGIC and TOTAL_LEN are valid: the sub-image is consumed to its end (R469, R477). -/
def imgSized (b : List Byte) : Bool := b.take 4 == ascii "OHMS" && imgTotal b % 16 == 0 && decide (imgTotal b ≤ 2 ^ 29) && decide (320 ≤ imgTotal b)

/-- The reserved bits of a header are 0 (R457). -/
def imgReserved (b : List Byte) : Bool :=
  fld (at1 b 7) 4 4 == 0 && fld (at1 b 11) 2 6 == 0 && fld (at1 b 13) 4 4 == 0 && (List.range 3).all (fun i => at1 b (37 + i) == 0)
    && (List.range 72).all fun i => at1 b (56 + i) == 0

/-- CONFIG of the capability table (R315). -/
def PartFuses.config (p : PartFuses) : Nat := p.clusters % 16 + 16 * b2n p.twoStacks + 32 * (p.ports / 12 % 4) + 128 * b2n p.extFabric

/-- The header's checks at step 2, in the order of R470: the status of the first that fails, or 0. -/
def State.headerStatus (s : State) (b : List Byte) (pos : Nat) : Nat :=
  let n := imgKey b
  if !imgSized b || at2 b 4 != 0x0001 || at2 b 8 != 0xD909 || at1 b 10 != s.part.config % 256 || !imgReserved b || at1 b 6 != pos
      || (imgParts b).any (fun p => !s.partPresent p) || !(decide (at2 b 40 ≤ 0x0100) && decide (0x0100 ≤ at2 b 42)) || bit (at1 b 13) n
      || decide (10000 < at2 b 14) then 0x0502
  else if (s.part.keyHash.getD n none).isNone || s.part.keyRevoked.getD n true || decide (at1 b 12 < s.part.rollback) then 0x0505
  else 0

/-- The key that encrypts a sub-image (R462). -/
def PartFuses.imageKey (p : PartFuses) (n : Nat) : Option (List Byte) :=
  p.deviceKey.map fun k => (hmac384 k (ascii "Ohmos-enc" ++ leBytes 1 n)).take 32

/-- The sub-image in the clear: the body decrypted where ENCRYPTED is 1 (R462). -/
def State.openImage (s : State) (b : List Byte) : Option (List Byte) :=
  if imgFlag b 0 then
    match s.part.imageKey (imgKey b) with
    | none => none
    | some k =>
      (gcmOpen k ((b.drop 44).take 12) (b.take (imgBody b)) ((b.take (imgEnd b)).drop (imgBody b)) ((b.drop (imgEnd b)).take 16)).map fun m =>
        b.take (imgBody b) ++ m ++ b.drop (imgEnd b)
  else if s.part.encRequired then none else some b

/-- The signature and the key of a sub-image (R461, R463). -/
def State.imageSigned (s : State) (b : List Byte) : Bool :=
  let t := imgTotal b
  let pub := (b.drop (t - 192)).take 96
  s.part.keyHash.getD (imgKey b) none == some (sha384 (0x04 :: pub)) && ecdsaOk pub (sha384 (b.take (t - 96))) ((b.drop (t - 96)).take 96)

/-! ### Directory and frames (R458, R459) -/

/-- The frames of a part: TYPE, ADDR and LEN in order. -/
def frameList (pll : Bool) : List (Nat × Nat × Nat) :=
  (tab 48 fun i => (1, i, 98304)) ++ (tab 16 fun i => (2, i, 4608)) ++ [(3, 0, 16)] ++ (if pll then [(4, 0, 32)] else [])

/-- Bytes of a part's frames, headers and payloads. -/
def framesLen (pll : Bool) : Nat := ((frameList pll).map fun f => 16 + f.2.2).sum

/-- The directory record of the n-th part. -/
def dirAtOf (b : List Byte) (n : Nat) : List Byte := (b.drop (128 + 32 * n)).take 32
/-- A directory record names a PLL frame. -/
def dirPll (d : List Byte) : Bool := at1 d 1 == 66
/-- SOFT_ID0 to SOFT_ID7 of a directory record. -/
def dirSoft (d : List Byte) : List Nat := (tab 8 fun i => at2 d (8 + 2 * i)).filter (· != 0)

/-- The offsets of each part's frames, and where the last ends. -/
def frameOffs (b : List Byte) : List Nat :=
  (List.range ((imgParts b).length + 1)).map fun n => imgBody b + (((List.range n).map fun i => framesLen (dirPll (dirAtOf b i)))).sum

/-- The frames of the n-th part with their offsets in the image. -/
def partFrames (b : List Byte) (n : Nat) : List ((Nat × Nat × Nat) × Nat) :=
  ((frameList (dirPll (dirAtOf b n))).foldl (fun (acc : Nat × List ((Nat × Nat × Nat) × Nat)) f => (acc.1 + 16 + f.2.2, acc.2 ++ [(f, acc.1)])) ((frameOffs b).getD n 0, [])).2

/-- Directory and frames keep R456 to R459: offsets, counts, types, order, lengths. -/
def imageShape (b : List Byte) : Bool :=
  let ps := imgParts b
  let offs := frameOffs b
  let last := offs.getLastD 0
  (ps.mapIdx fun n p =>
    let d := dirAtOf b n
    at1 d 0 == p && (at1 d 1 == 65 || at1 d 1 == 66) && at4 d 4 == offs.getD n 0
      && (partFrames b n).all fun (f, o) => at1 b o == f.1 && at1 b (o + 1) == p && at4 b (o + 4) == f.2.1 && at4 b (o + 8) == f.2.2).all id
    && (if imgFlag b 2 then at4 b 20 == last && at4 b 20 + at4 b 24 == imgEnd b && decide (64 ≤ at4 b 24)
          && at4 b 24 == roundUp (64 + 16 * at2 b (at4 b 20 + 12)) 64 + at4 b (at4 b 20 + 16)
        else at4 b 20 == 0 && at4 b 24 == 0 && last == imgEnd b)

/-- The fields of one tree of a CLOCK frame are in range. -/
def treeOk (b : List Byte) (o : Nat) : Bool := at1 b o < 8 && at1 b (o + 1) < 8 && 1 ≤ at1 b (o + 2) && at1 b (o + 2) ≤ 16 && at1 b (o + 3) < 2

/-- A PLL frame's fields are in range (R445, R459). -/
def pllOk (b : List Byte) : Bool :=
  at1 b 0 < 4 && 16 ≤ at1 b 1 && (List.range 4).all (fun i => 4 ≤ at1 b (6 + i) && at1 b (6 + i) ≤ 128) && at1 b 10 < 16
    && at1 b 5 == 0 && (List.range 21).all fun i => at1 b (11 + i) == 0

/-- The ranges of fields, and the place of PLL frames (R458, R459; log entry 58). -/
def State.imageFields (s : State) (b : List Byte) : Bool :=
  ((imgParts b).mapIdx fun n p =>
    let d := dirAtOf b n
    let soft := dirSoft d
    let region := ((List.range 4).map (4 * (p / 4) + ·)).filter s.partPresent
    soft.dedup.length == soft.length && at2 d 2 == 0 && at8 d 24 == 0
      && (!dirPll d || (region.head? == some p && region.all fun q => bit (imgMap b) q))
      && (partFrames b n).all fun (f, o) =>
        let v := (b.drop (o + 16)).take f.2.2
        at2 b (o + 2) == 0 && at4 b (o + 12) == 0
          && (f.1 != 3 || (treeOk v 0 && treeOk v 4 && at1 v 8 < 4 && (List.range 7).all fun i => at1 v (9 + i) == 0))
          && (f.1 != 4 || pllOk v)).all id

/-- The checks of step 3 in the order of R470, on the whole sub-image: its plaintext, or the status of the rejection. -/
def State.imageStatus (s : State) (b : List Byte) : Except Nat (List Byte) :=
  if !s.imageSigned b then .error 0x0503
  else match s.openImage b with
    | none => .error 0x0503
    | some m => if !imageShape m then .error 0x0501 else if !s.imageFields m then .error 0x0502 else .ok m

/-! ### The end of a load (R471, R472) -/

/-- LAST_LOAD's source and boot flags (R472). -/
def Loader.baseFlags (l : Loader) : Nat := 2 ^ 16 * b2n l.src + 2 ^ 17 * b2n l.isBoot

/-- The boot-image stage ends with its load (step 4 of R517). -/
def State.bootImageDone (s : State) : State :=
  if s.hub.booting && s.hub.stage == 4 then { s with hub := { s.hub with stage := 5 }, loader := { s.loader with bootWaiting := false } } else s

/-- The load ends: staging zeroed, LAST_LOAD with its status and flags, a record, STATE 0. -/
def State.endLoad (s : State) (status flags : Nat) : State :=
  let s := { s with loader := { s.loader with
    st := 0, staging := [], status := 0, lastStatus := status, lastFlags := s.loader.baseFlags ||| flags, loads := (s.loader.loads + 1) % 2 ^ 32 } }
  let s := if status = 0 then s.logEv 0x6001 0 0 0 0 [0, 0, 0] else s.logEv 0x6002 1 0 0 0 [status, 0, 0]
  let s := s.devChangeAll 0x1108
  if s.loader.isBoot then s.bootImageDone else s

/-! ### The configuration port (R465, R468, R477) -/

/-- The configuration port takes words: the management code that loads images runs (R481, R482). -/
def State.portUp (s : State) : Bool := s.pins.porstN && (s.hub.stage == 4 || s.hub.stage == 6) && !s.hub.lost

/-- The forms of a command word (R465). -/
def isLoad (w : Nat) : Bool := fld w 24 8 == 0x01 && fld w 16 8 == 0x0C && fld w 8 8 == 0 && decide (fld w 0 8 < 64)
def isReadback (w : Nat) : Bool := fld w 24 8 == 0x02 && fld w 16 8 == 0x0C && fld w 8 8 == 0 && decide (fld w 0 8 < 40)
def isEnd (w : Nat) : Bool := w % 2 ^ 32 == 0x030C0000

/-- CFG_PORT_VIOL counts (R467). -/
def State.portViol (s : State) : State := { s with loader := { s.loader with violCount := satinc 32 s.loader.violCount } }

/-- LOAD (R465, R468, R481): event S; in the boot wait the load is the boot image under the default deadline. -/
def execLoad (word : Nat) (s : State) : Out :=
  let l := s.loader
  if !s.portUp || l.mode != .command || l.st != 0 || !isLoad word || (s.hub.stage == 4 && !l.bootWaiting) then .next s
  else
    let boot := s.hub.stage == 4
    .next { s with loader := { l with
      st := 1, src := true, bytes := 0, start := s.time.now, window := if boot then 1000 else l.deadline, staging := [], status := 0
      mode := .own, pos := fld word 0 8, isBoot := boot, bootWaiting := false } }

/-- INVALID_COMMAND_WORD (R465): ignored and counted. -/
def execInvalidCommandWord (word : Nat) (s : State) : Out :=
  if s.portUp && s.loader.mode == .command && !isLoad word && !isReadback word && !isEnd word then .next s.portViol else .next s

/-- END (R465, R470, R477). -/
def execEndWord (word : Nat) (s : State) : Out :=
  if !s.portUp || !isEnd word then .next s
  else
    let done := { s with loader := { s.loader with mode := .command } }
    match s.loader.mode with
    | .own => .next (if s.loader.st = 0 then done else done.endLoad (if s.loader.status = 0 then 0x0501 else s.loader.status) 0)
    | .forward => .next (done.emit (.chain (leBytes 4 word)))
    | .command | .tail | .discard => .next done

/-- CHAIN_FORWARD (R477): the bytes after the own sub-image. -/
def execChainForward (bytes : List Byte) (s : State) : Out :=
  if !s.portUp || bytes.isEmpty then .next s
  else match s.loader.mode with
    | .tail =>
      if s.loader.pos = 63 then .next { s with loader := { s.loader with mode := .discard } }.portViol
      else
        let word := 0x010C0000 + (s.loader.pos + 1)
        .next ({ s with loader := { s.loader with mode := .forward } }.emit (.chain (leBytes 4 word ++ bytes)))
    | .forward => .next (s.emit (.chain bytes))
    | .command | .own | .discard => .next s

/-! ### Host-port loads (R466) -/

/-- The image bytes of a list: entry i of a page, until the list ends or n bytes are there. -/
def listBytes (m : Mem) : Nat → Nat → Nat → Nat → List Byte
  | 0, _, _, _ => []
  | k + 1, page, i, n =>
    let a := m.rdLE (page + 16 * i) 8
    let len := m.rdLE (page + 16 * i + 8) 4
    if n = 0 ∨ 256 ≤ i then []
    else if len = 0 then (if a = 0 then [] else listBytes m k a 0 n)
    else let b := m.rdN a (min len n); b ++ listBytes m k page (i + 1) (n - b.length)

/-- The first n bytes that a host-port load receives. -/
def State.hostImage (s : State) (n : Nat) : List Byte := listBytes s.hostMem (2 ^ 20) (fld s.loader.list.toNat 12 52 * 4096) 0 n

/-- CFG_LOAD_START (R466, R468). -/
def execCfgLoadStart (s : State) : Out :=
  if !s.ready then .next s
  else if s.loader.st != 0 then .next s.lockedWrite
  else .next { s with loader := { s.loader with
    st := 1, src := false, bytes := 0, start := s.time.now, window := s.loader.deadline, staging := [], status := 0, isBoot := false } }

/-- CFG_LOAD_ABORT (R468). -/
def execCfgLoadAbort (s : State) : Out :=
  if !s.ready || s.loader.st == 0 then .next s
  else if s.loader.st = 4 then .next s.lockedWrite
  else .next (s.endLoad 0x0501 0)

/-! ### Verification (R469, R470) -/

/-- SUB_IMAGE_HEADER (R470): step 2. The bytes are those of the configuration port; a host-port load reads its list. -/
def execSubImageHeader (bytes : List Byte) (s : State) : Out :=
  let l := s.loader
  if l.st != 1 || !l.staging.isEmpty || !s.portUp then .next s
  else
    let b := if l.src then bytes else s.hostImage 128
    if l.src && b.length != 128 then .next s
    else if b.length < 128 then .next (s.endLoad 0x0501 0)
    else
      let e := s.headerStatus b (if l.src then l.pos else 0xFF)
      let s := { s with loader := { l with staging := b, bytes := 128, status := e } }
      if e = 0 then .next s
      else if !l.src then .next (s.endLoad e 0)
      else if imgSized b then .next s
      else .next ({ s with loader := { s.loader with mode := .discard } }.endLoad e 0)

/-- SUB_IMAGE_RECEIVED (R469 step 3): TOTAL_LEN bytes are there. -/
def execSubImageReceived (bytes : List Byte) (s : State) : Out :=
  let l := s.loader
  if !s.portUp then .next s
  else if l.st = 0 ∧ l.mode = .own then .next { s with loader := { l with mode := .tail } }
  else if l.st != 1 || l.staging.isEmpty then .next s
  else
    let n := imgTotal l.staging
    let b := if l.src then bytes else s.hostImage n
    if l.src && (b.length != n || b.take 128 != l.staging) then .next s
    else
      let s := { s with loader := { l with bytes := b.length, mode := if l.src then .tail else l.mode } }
      if b.length < n then .next (s.endLoad 0x0501 0)
      else if l.status ≠ 0 then .next (s.endLoad l.status 0)
      else match s.imageStatus b with
        | .error e => .next (s.endLoad e 0)
        | .ok m => .next { s with loader := { s.loader with st := 3, staging := m } }

/-! ### The commit point (R469, R473, R482) -/

/-- The apply bound A in ns (R469). -/
def applyBound (b : List Byte) : Nat :=
  cdiv ((imgParts b).mapIdx fun n _ => framesLen (dirPll (dirAtOf b n))).sum 2 + 500000 * (imgParts b).length

/-- The capsule of a sub-image (R460). -/
def capsuleOf (b : List Byte) : List Byte := (b.drop (at4 b 20)).take (at4 b 24)
/-- Slots of a capsule: ROM_ADDR and PATCH_OFF. -/
def capsuleSlots (c : List Byte) : List (Nat × Nat) := tab (at2 c 12) fun i => (at4 c (64 + 16 * i), at4 c (68 + 16 * i))

/-- The capsule keeps its ranges and is for this ROM (R460, R482). -/
def State.capsuleOk (s : State) (c : List Byte) : Bool :=
  let ss := capsuleSlots c
  c.take 4 == ascii "OPCH" && at4 c 4 == s.part.romVersion && at4 c 8 != 0 && decide (1 ≤ at2 c 12) && decide (at2 c 12 ≤ 64)
    && at4 c 16 % 64 == 0 && decide (at4 c 16 ≤ 2 ^ 18) && at2 c 14 == 0 && (List.range 44).all (fun i => at1 c (20 + i) == 0)
    && (ss.map Prod.fst).dedup.length == ss.length && ss.all (fun e => e.1 % 64 == 0 && e.2 % 64 == 0 && decide (e.2 < at4 c 16))
    && (List.range ss.length).all fun i => at8 c (72 + 16 * i) == 0

/-- The capsule at the commit point: that of the boot image is applied, or rejected alone; any other is ignored (R482). -/
def State.applyCapsule (s : State) (b : List Byte) : State :=
  let flag := fun (s : State) i => { s with loader := { s.loader with flags := 2 ^ i } }
  if !imgFlag b 2 then s
  else if !s.loader.isBoot then flag s 18
  else
    let c := capsuleOf b
    if s.loader.patchLocked || !s.capsuleOk c then flag s 19
    else
      let code := c.drop (c.length - at4 c 16)
      let s := { s with loader := { s.loader with patchRam := code, patchSlots := capsuleSlots c, patchLevel := at4 c 8, patchLocked := true } }
      (s.logEv 0x0006 0 0 0 0 [0, 0, 0]).devChangeAll 0x18

/-- Step 1 of R473 for a part: clamps, PORT_RST, reset; its exports withdrawn. -/
def State.clampPart (s : State) (p : Nat) : State :=
  ((s.updXp p fun x => { x with st := 2, clamped := true, rst := true, join := false, awaiting := false, softIds := [], readback := false }).emit (.portRst p)).devChangeAll (partOff p)

/-- LOAD_COMMIT at time t (steps 5 and 5′ of R469): once no call is in progress on a named part. -/
def execLoadCommit (t : Nat) (s : State) : Out :=
  let l := s.loader
  let ps := imgParts l.staging
  if !s.portUp || l.st != 3 || ps.any (fun p => (s.xp p).call.isSome) then .next s
  else
    let s := s.atTime t
    if l.start + 1000000 * l.window ≤ s.time.now + applyBound l.staging then .next (s.endLoad 0x0504 0)
    else
      let s := { s with loader := { l with st := 4, commitAt := s.time.now, flags := 0 } }
      .next (ps.foldl State.clampPart (s.applyCapsule l.staging))

/-! ### Application (R464, R469 step 6, R473) -/

/-- A tree programmed by a CLOCK frame (R459). -/
def treeOf (v : List Byte) (o : Nat) : Tree := { srcA := at1 v o, srcB := at1 v (o + 1), div := at1 v (o + 2), en := at1 v (o + 3) == 1 }

/-- Steps 2 to 5 of R473 for the n-th part of a sub-image. -/
def State.applyPart (s : State) (b : List Byte) (n p : Nat) : State :=
  let fs := (partFrames b n).map fun (f, o) => (f.1, f.2.1, (b.drop (o + 16)).take f.2.2)
  let clock := ((fs.find? fun f => f.1 == 3).map fun f => f.2.2).getD []
  let s : State := match fs.find? fun f => f.1 == 4 with
    | some f => { s with loader := { s.loader with pll := s.loader.pll.put (p / 4) f.2.2 } }
    | none => s
  (s.updXp p fun x => { x with
    readback := imgFlag b 1, rev := 0x0100, version := at4 b 28, softIds := dirSoft (dirAtOf b n), frames := fs
    trees := [treeOf clock 0, treeOf clock 4], rimTree := bit (at1 clock 8) 0, borderTree := bit (at1 clock 8) 1
    awaiting := true, joinBy := s.time.now + 1000000 * imgJoin b }).devChangeAll (partOff p)

/-- The key-hash slots of a mask revoked (R463). -/
def State.revokeKeys (s : State) (m : Nat) : State :=
  if m = 0 then s
  else ({ s with part := { s.part with keyRevoked := s.part.keyRevoked.mapIdx fun i r => r || bit m i } } : State).devChangeAll 0x1104

/-- The rollback counter raised to a version (R464). -/
def State.raiseRollback (s : State) (n : Nat) : State :=
  if s.part.rollback < n then ({ s with part := { s.part with rollback := min 64 n } } : State).devChangeAll 0x1105 else s

/-- Fuses blown by an applied sub-image (R464). -/
def State.blowFuses (s : State) (b : List Byte) : State :=
  let s := s.revokeKeys (fld (at1 b 13) 0 4)
  if imgFlag b 3 then s.raiseRollback (at1 b 12) else s

/-- APPLY_COMPLETE (R469 step 6). -/
def execApplyComplete (s : State) : Out :=
  let l := s.loader
  if l.st != 4 then .next s
  else
    let b := l.staging
    let s := (imgParts b).zipIdx.foldl (fun s (p, n) => s.applyPart b n p) s
    let s := s.blowFuses b
    .next ({ s with hub := { s.hub with bootImage := s.hub.bootImage || l.isBoot } }.endLoad 0 l.flags)

/-- BOOT_IMAGE_WAIT_EXPIRY (R481): no LOAD came within the wait, and the ROM runs unpatched. -/
def execBootImageWaitExpiry (s : State) : Out :=
  if !(s.pins.porstN && s.hub.booting && s.hub.stage == 4 && s.loader.bootWaiting) then .next s
  else .next (s.atTime (s.hub.memReadyAt + 100000000 * s.part.bootWait)).bootImageDone

/-! ### Readback (R479, R480) -/

/-- STATE of PART_p (R472). -/
def State.partState (s : State) (p : Nat) : Nat := if s.partPresent p then (s.xp p).st else 0

/-- n 64-bit free values (log entry 4). -/
def freeWords : Nat → Nat → List Byte
  | 0, _ => []
  | k + 1, i => leBytes 8 (Config.freeWord i).toNat ++ freeWords k (i + 1)

/-- The flip-flops of a part whose trees are all off: the initial values that its LOGIC frames give (R440). -/
def XPart.ffInit (x : XPart) : List Byte :=
  let cfg := leNat ((x.frames.filter fun f => f.1 == 1).flatMap fun f => f.2.2)
  (List.range 192).flatMap fun i => leBytes 8 (Config.ffInit cfg i).toNat

/-- READBACK (R479): the header, and the flip-flops of a joined part that permits it: as the image left them where no tree clocks the
part, else what the soft design made of them, free values. -/
def execReadback (word : Nat) (s : State) : Out :=
  if !s.portUp || s.loader.mode != .command || !isReadback word then .next s
  else
    let p := fld word 0 8
    let x := s.xp p
    let refused := !s.partPresent p || !x.loaded || !x.readback
    let h := ascii "OHRB" ++ leBytes 1 p ++ leBytes 1 (s.partState p) ++ leBytes 1 (b2n refused) ++ leBytes 1 0
      ++ leBytes 8 s.time.now ++ leBytes 4 x.version ++ leBytes 44 0
    if refused then .next (s.emit (.cfgPort h))
    else if !x.trees.any Tree.en then .next (s.emit (.cfgPort (h ++ x.ffInit)))
    else .next (({ s with free := s.free + 192 } : State).emit (.cfgPort (h ++ freeWords 192 s.free)))

end Sys2Proof.Machine
end

