-- ==== Sys2Proof/Machine/Functions.lean ====
section
/-! DEFINITION. PCIe functions and their set-up: configuration requests, resets of functions, the links, negotiation, and the
registers that have a row of their own (R47, R311 to R327, R338, R358, R362, R377, R516, R518, R519, R532). -/

namespace Sys2Proof.Machine

/-! ### Negotiation and ENABLE (R318 to R321, R519) -/

/-- NEGOTIATE (R318, R519): before Ready it is held, while the engine is lost nothing runs it. -/
def execNegotiate (func : Nat) (s : State) : Out :=
  if 256 ≤ func then .fault (.noSuchUnit "function")
  else if !(s.pins.porstN && s.hub.configReady) || !s.funcExists func || s.hub.lost then .next s
  else if (s.fn func).enable || !(s.ctxsOf func).isEmpty then .next (s.viol func 7)
  else if s.ready then .next (s.settleAhi func)
  else .next (s.updFn func fun g => { g with agree := 1, heldNeg := true })

/-- The registers keep the ranges that ENABLE needs (R320); STATE is 2 (step 4 of R318; DEDUCED, log entry 59). -/
def State.enableOk (s : State) (f : Nat) : Bool :=
  let g := s.fn f
  let e := fld g.fevtCfg.toNat 0 5
  g.agree == 2 && decide (4 ≤ g.adminLog2) && decide (g.adminLog2 ≤ 16) && decide (6 ≤ e) && decide (e ≤ 16)
    && decide (fld g.adminCfg.toNat 16 11 < s.ownedVectors f)

/-- ENABLE set (R320, R519): both rings start from position 0 (log entry 60). -/
def execEnable (func : Nat) (s : State) : Out :=
  if 256 ≤ func then .fault (.noSuchUnit "function")
  else if !s.ready || !s.funcExists func || (s.fn func).enable then .next s
  else if s.enableOk func then
    .next (s.updFn func fun g => { g with enable := true, evOn := true, adminHead := 0, adminTail := 0, evSeq := 0, evRead := 0, moder := {} })
  else .next (s.viol func 7)

/-- ENABLE cleared (R321): the operation in progress still completes; contexts and rings are not affected. -/
def execFunctionDisable (func : Nat) (s : State) : Out :=
  if 256 ≤ func then .fault (.noSuchUnit "function")
  else if !s.ready || !s.funcExists func then .next s
  else .next (s.updFn func fun g => { g with enable := false })

/-! ### Partitions and quotas (R322, R362, R377) -/

/-- HIF_PART_CFG_WRITE (R322). -/
def execHifPartCfgWrite (part value : Nat) (s : State) : Out :=
  if 16 ≤ part then .fault (.noSuchUnit "partition")
  else if !s.ready then .next s
  else
    let v := fld value 0 62
    let held := s.ctxs.any fun e => e.2.life != .free && e.2.part == part
    let taken := (List.range 16).any fun p => p != part && fld v 0 60 &&& (s.pt p).groups != 0
    if held || taken then .next s.lockedWrite
    else .next (s.updPt part fun p => { p with cfg := BitVec.ofNat 64 v }).refreshBelow

/-- The bits of HIF_VF_CFG that are not reserved (R322). -/
def vfCfgMask (v : Nat) : Nat := fld v 0 9 + 2 ^ 16 * fld v 16 11 + 2 ^ 32 * fld v 32 7 + 2 ^ 48 * fld v 48 16

/-- HIF_VF_CFG_WRITE (R322): FUNC_QUOTA of the VF, and PF0's when its vectors change (R316). -/
def execHifVfCfgWrite (vf value : Nat) (s : State) : Out :=
  if vf < 1 ∨ 256 ≤ vf then .fault (.noSuchUnit "VF")
  else if !s.ready then .next s
  else
    let v := vfCfgMask value
    let old := (s.fn vf).vfCfg.toNat
    let rings := s.rings.any fun e => e.2.live && (s.cx e.2.ctx).func == vf
    let others := 2048 - s.ownedVectors 0 - s.vfVectors vf
    if !(s.ctxsOf vf).isEmpty || rings || decide (2048 < others + fld v 32 7) then .next s.lockedWrite
    else
      let s := ((s.updFn vf fun g => { g with vfCfg := BitVec.ofNat 64 v }).dropPending vf).dropPending 0
      let s := if old = v then s else s.devChange 0x200 [vf]
      .next (if fld old 32 7 = fld v 32 7 then s else s.devChange 0x200 [0])

/-- HIF_PART_REGIONS_WRITE (R362). -/
def execHifPartRegionsWrite (part value : Nat) (s : State) : Out :=
  if 16 ≤ part then .fault (.noSuchUnit "partition")
  else if !s.ready then .next s
  else
    let v := fld value 0 40
    let held := s.ctxs.any fun e => e.2.life != .free && e.2.part == part
    let taken := (List.range 16).any fun p => p != part && v &&& (s.pt p).regions.toNat != 0
    if held || taken then .next s.lockedWrite else .next (s.updPt part fun p => { p with regions := BitVec.ofNat 64 v })

/-- A partition holds a resident section admitted with a deadline (R362, R377). -/
def State.holdsAdmitted (s : State) (p : Nat) : Bool := s.secs.any fun e => e.2.part == p && e.2.admitted && !e.2.swapped

/-- HIF_PART_RT_WRITE (R362; ADMIT_OP is 2, 3 or 4, R380). -/
def execHifPartRtWrite (part value : Nat) (s : State) : Out :=
  if 16 ≤ part then .fault (.noSuchUnit "partition")
  else if !s.ready then .next s
  else
    let op := fld value 0 3
    if s.holdsAdmitted part || decide (op < 2) || decide (4 < op) then .next s.lockedWrite
    else .next (s.updPt part fun p => { p with rt := BitVec.ofNat 64 (op + 2 ^ 8 * fld value 8 12) }).refreshBelow

/-- The capacity against which a write of a sluice is checked (R377, R378): the lowest of the trained stacks for HBM (log
entry 61). -/
def State.sluiceG (s : State) : SluiceRes → Nat
  | .hbm => (s.trainedStacks.map s.gHbm).foldl min (2 ^ 24)
  | .res => 119700
  | .hzn => 1406 * ((List.range 36).filter s.portPresent).length
  | .host => 1600
  | .hub => 19000

/-- A partition with the sluice register of a resource replaced. -/
def Partition.setSluice (p : Partition) (w : Word) : SluiceRes → Partition
  | .hbm => { p with sluHbm := w }
  | .res => { p with sluRes := w }
  | .hzn => { p with sluHzn := w }
  | .host => { p with sluHost := w }
  | .hub => { p with sluHub := w }

/-- SLUICE_WRITE (R361, R374, R377). -/
def execSluiceWrite (part : Nat) (res : SluiceRes) (value : Nat) (s : State) : Out :=
  if 16 ≤ part then .fault (.noSuchUnit "partition")
  else if !s.ready then .next s
  else
    let w := BitVec.ofNat 64 (fld value 0 25 + 2 ^ 32 * fld value 32 24)
    let old := (s.pt part).sluice res
    let others := (((List.range 16).filter (· != part)).map fun p => sluRate ((s.pt p).sluice res)).sum
    let shape := sluDepth w < sluRate w ∨ 16 * sluRate w < sluDepth w
    let tight := sluRate w < sluRate old ∨ sluDepth w < sluDepth old ∨ (sluCap w ∧ !sluCap old)
    if shape ∨ s.sluiceG res < others + sluRate w ∨ (tight ∧ s.holdsAdmitted part) then .next s.lockedWrite
    else .next (s.updPt part fun p => p.setSluice w res).refreshOversub

/-! ### Host windows (R323 to R325) -/

/-- The fields of HIF_HWIN_A and HIF_HWIN_B (R323). -/
def hwinA (v : Nat) : Nat := fld v 0 4 + 2 ^ 12 * fld v 12 52
def hwinB (v : Nat) : Nat := fld v 0 26 + 2 ^ 32 * fld v 32 24

/-- HOST_WINDOW_ENABLE (R324): the write of HIF_HWIN_A with EN 1. -/
def execHostWindowEnable (win value : Nat) (s : State) : Out :=
  if 4096 ≤ win then .fault (.noSuchUnit "host window")
  else if !s.ready then .next s
  else
    let v := BitVec.ofNat 64 (hwinA (value ||| 1))
    let w := s.windows.get {} win
    let clash := s.windows.any fun e => e.1 != win && e.2.a.getLsbD 0 && meets e.2.page e.2.pages w.page w.pages
    if w.a.getLsbD 0 then .next (if w.a = v then s else s.lockedWrite)
    else if w.draining || clash || decide (2 ^ 26 < w.page + w.pages) then .next s.lockedWrite
    else .next { s with windows := s.windows.upd {} win fun w => { w with a := v } }

/-- A window disabled: it stays in force for the commands in flight that have translated an address through it (R325). -/
def State.closeWindow (s : State) (win : Nat) : State :=
  let users := s.windowUsers (s.windows.get {} win)
  { s with windows := s.windows.upd {} win fun w =>
      if w.a.getLsbD 0 then { w with a := w.a &&& ~~~(1 : Word), draining := true, users } else w }

/-- HOST_WINDOW_DISABLE (R325): BUSY is set until the window has drained. -/
def execHostWindowDisable (win : Nat) (s : State) : Out :=
  if 4096 ≤ win then .fault (.noSuchUnit "host window")
  else if !s.ready then .next s
  else .next (s.closeWindow win)

/-- HOST_WINDOW_DRAINED (R325). -/
def execHostWindowDrained (win : Nat) (s : State) : Out :=
  if 4096 ≤ win then .fault (.noSuchUnit "host window")
  else
    let w := s.windows.get {} win
    if !w.draining || s.cmds.any (fun k => w.users.contains k.ref) then .next s
    else .next { s with windows := s.windows.upd {} win fun w => { w with draining := false, users := [] } }

/-! ### Resets of functions and the links (R47, R338, R516, R532) -/

/-- The registers of a function at reset: HIF_VF_CFG is PF0's. -/
def State.resetFunc (s : State) (f : Nat) : State := { s with funcs := s.funcs.upd {} f fun g => { vfCfg := g.vfCfg } }

/-- A function-level reset of one function (R338); while the engine is lost its registers alone are reset (R532). The
registers go first, so that no record of the contexts' end reaches its event ring (log entry 65). -/
def State.flr (s : State) (f : Nat) : State :=
  let s' := s.resetFunc f
  if s.hub.lost then s' else (s'.ctxsOf f).foldl State.destroyCtx s'

/-- A function-level reset of PF0, a hot reset or link-down of link 0 (R338). -/
def State.resetAll (s : State) : State :=
  let s' := { s with funcs := s.funcs.mapAll {} fun _ g => { vfCfg := g.vfCfg } }
  if s.hub.lost then s'
  else
    let cs := s'.ctxs.keysWhere fun _ x => x.life != .free
    let s' := (s'.windows.keysWhere fun _ w => w.a.getLsbD 0).foldl State.closeWindow s'
    let s' := cs.foldl State.destroyCtx s'
    { s' with funcs := [], parts := s'.parts.mapAll {} fun _ p => { p with cfg := 0 } }.refreshBelow

/-- FUNCTION_LEVEL_RESET (R338, R516). -/
def execFunctionLevelReset (func : Nat) (s : State) : Out :=
  if 256 ≤ func then .fault (.noSuchUnit "function")
  else if !(s.pins.porstN && s.hub.configReady) || !s.funcExists func then .next s
  else if func = 0 then .next s.resetAll else .next (s.flr func)

/-- HOT_RESET (R338). -/
def execHotReset (s : State) : Out := if s.pins.porstN && s.hub.configReady then .next s.resetAll else .next s

/-- LINK0_DOWN (R338): as a hot reset. -/
def execLink0Down (s : State) : Out := if s.pins.porstN && s.hub.configReady then .next s.resetAll else .next s

/-- LINK1_DOWN (R47): rings and windows of link 1 use link 0 from the next request on. -/
def execLink1Down (s : State) : Out := .next { s with pins := { s.pins with link1 := false } }

/-- LINK1_UP (R47): before the first request on link 1 a read on link 0 completes. -/
def execLink1Up (s : State) : Out :=
  if s.pins.link1 then .next s
  else
    let s := { s with pins := { s.pins with link1 := true } }
    if s.ready && s.part.link1 then .next (s.emit (.flushRead 0)) else .next s

/-! ### Host reads that fail, and ATS (R327, R358, R466) -/

/-- HOST_READ_ERROR (R358; of an image load R466; of a service image R423). -/
def execHostReadError (reader : HostReader) (s : State) : Out :=
  if !s.ready then .next s
  else match reader with
  | .ring r =>
    let g := s.rg r
    if g.live then .next ((s.viol (s.cx g.ctx).func 8).loseCtx g.ctx 0x0201) else .next s
  | .admin f => if (s.fn f).enable then .next ((s.viol f 8).updFn f fun g => { g with enable := false }) else .next s
  | .funcEvents f => if (s.fn f).enable then .next ((s.viol f 8).updFn f fun g => { g with enable := false }) else .next s
  | .ctxEvents c => if (s.cx c).life == .live then .next ((s.viol (s.cx c).func 8).loseCtx c 0x0201) else .next s
  | .imageLoad => if s.loader.st = 1 ∧ !s.loader.src then .next ((s.viol 0 8).endLoad 0x0501 0) else .next s
  | .service v =>
    if v < 1 ∨ 12 < v then .fault (.noSuchUnit "service")
    else if (s.svc v).locked then .next s.lockedWrite else .next (s.failLoad v 2)

/-- The commands in flight that used host translations of a function: those that reached a window of its own, and those of its contexts'
rings (R327). -/
def State.atsUsers (s : State) (f : Nat) : List CmdRef :=
  (s.cmds.filter fun k => (s.cx k.ctx).func == f && (refSec k.ref).isNone
    || s.windows.any fun e => e.2.func == f && k.leaves.any fun l => e.2.holds l.2.pa).map Cmd.ref

/-- ATS_INVALIDATION (R327): it completes once the commands in flight that used the function's translations have ended. -/
def execAtsInvalidation (func : Nat) (s : State) : Out :=
  if 256 ≤ func then .fault (.noSuchUnit "function")
  else if !(s.pins.porstN && s.hub.configReady && s.part.ats) || !s.funcExists func then .next s
  else .next (State.flushAts { s with atsInvals := s.atsInvals ++ [{ func, users := s.atsUsers func }] })

/-! ### Configuration requests (R311, R312, R518) -/

/-- What R311 fixes of a function: PF0, a VF, or the companion, which has none of it. BAR0 and BAR2 are 64-bit and
non-prefetchable. -/
def State.cfgField (s : State) (f : Nat) (g : CfgField) : Nat :=
  if 256 ≤ f then 0
  else match g with
    | .bar0Size => if f = 0 then 2 ^ 20 else 2 ^ 17
    | .bar2Size => 2 ^ 23
    | .msixSize => msixSize f
    | .hasMsix => 1
    | .hasSriov => b2n (f == 0)
    | .hasAer => 1
    | .hasAts => b2n s.part.ats
    | .totalVfs => if f = 0 then 255 else 0
    | .firstVfOffset => if f = 0 then 1 else 0
    | .vfStride => if f = 0 then 1 else 0

/-- The low word of a 64-bit, non-prefetchable BAR of a size, at an address that the host has set (the place of its bits: the PCIe
header's; PRESUMED, log entry 63). -/
def barLow (size x : Nat) : Nat := x % 2 ^ 32 / size * size + 4

/-- A read of the configuration space (R311): identification, class code and the BARs' type and size bits; where the manual gives no
layout, a free value. -/
def State.cfgRead (s : State) (f off : Nat) : Nat :=
  let x := (Config.freeWord s.free).toNat
  if off = 0 then s.part.vendorId % 65536 + 2 ^ 16 * (s.part.deviceId % 65536)
  else if off = 8 then x % 256 + 2 ^ 8 * 0x120000
  else if off = 0x2C then s.part.subsystemId % 2 ^ 32
  else if off = 0x10 ∧ f < 256 then barLow (s.cfgField f .bar0Size) x
  else if off = 0x18 ∧ f < 256 then barLow (s.cfgField f .bar2Size) x
  else if f = 256 ∧ 0x10 ≤ off ∧ off < 0x28 then 0
  else x % 2 ^ 32

/-- VF Enable and NumVFs written (R311): a VF that ceases to exist is reset as by a function-level reset (log entry 63). -/
def State.setVfs (s : State) (enable : Bool) (num : Nat) : State :=
  let gone := (s.funcs.map Prod.fst ++ (s.ctxs.map fun e => e.2.func)).dedup.filter fun f => s.funcExists f && !(f == 0 || (enable && decide (f ≤ num)))
  let s := gone.foldl State.flr s
  { s with vfEnable := enable, numVfs := num }

/-- A function that answers configuration requests: PF0, a VF that exists, and on link 1, where it is fitted and up, the companion
(R47, R311). -/
def State.cfgAnswers (s : State) (f : Nat) : Bool := if f = 256 then s.part.link1 && s.pins.link1 else s.funcExists f

/-- CONFIG_REQUEST (R518, R311, R312). -/
def execConfigRequest (func : Nat) (op : ConfigOp) (s : State) : Out :=
  if 256 < func then .fault (.noSuchUnit "function")
  else if !s.pins.porstN || !s.cfgAnswers func then .next s
  else if !s.hub.configReady then .next (s.emit (.cfgRetry func))
  else match op with
  | .read off => .next ({ s with free := s.free + 1 }.emit (.cfgData func off (s.cfgRead func off)))
  | .field g => .next (s.emit (.cfgField func g (s.cfgField func g)))
  | .setVfs en num => if func = 0 ∧ num ≤ 255 then .next (s.setVfs en num) else .next s
  | .setMsix en masked =>
    if func = 256 then .next s
    else .next ({ s with msixEnable := s.msixEnable.set false func en, msixMask := s.msixMask.set false func masked }.sendPending func)

end Sys2Proof.Machine
end

