-- ==== Sys2Proof/Machine/CapTable.lean ====
section
/-! DEFINITION. The capability table as a function reads it (R315, R316, R378, R472, R518). -/

namespace Sys2Proof.Machine

/-- A mask of the numbers below n that satisfy p. -/
def maskOf (n : Nat) (p : Nat → Bool) : Nat := ((List.range n).map fun i => b2n (p i) * 2 ^ i).sum

/-- The TAP's IDCODE register (chapter 2, Test access). -/
def PartFuses.idcode (p : PartFuses) : Nat := 1 + 2 * (p.manuf % 2 ^ 11) + 2 ^ 12 * 0xD909 + 2 ^ 28 * (p.dieRev % 16)

/-- FLAGS of the capability table. -/
def State.ctFlags (s : State) : Nat :=
  b2n s.time.degraded + 2 * b2n s.part.tapLockIntact + 4 * b2n s.part.link1 + 8 * b2n s.part.ats + 16 * b2n s.hbm.inlineEcc
    + 32 * b2n ((List.range 40).any s.partPresent)

/-- ENGINE_ID: the ID that the last ENABLE copied, and its valid bit. -/
def State.ctEngineId (s : State) : Nat := fld s.hzn.ctrl.toNat 0 18 + 2 ^ 31 * b2n s.hzn.enabled

/-- An entry of STACKS. -/
def State.ctStack (s : State) (k : Nat) : Nat :=
  let x := s.stk k
  if x.st = 1 then 1 + 2 ^ 16 * x.rate + 2 ^ 32 * x.gib else x.st

/-- FUNC_QUOTA of a function: PF0 has the device totals (R322). -/
def State.ctQuota (s : State) (f : Nat) : Nat :=
  if f = 0 then 256 + 2 ^ 16 * 1024 + 2 ^ 32 * s.ownedVectors 0 + 2 ^ 48 * 0xFFFF
  else
    let w := (s.fn f).vfCfg
    vfMaxCtx w + 2 ^ 16 * vfMaxRings w + 2 ^ 32 * s.vfVectors f + 2 ^ 48 * vfParts w

/-- KEYS and CFG_FUSES (R472). -/
def PartFuses.ctKeys (p : PartFuses) : Nat :=
  maskOf 4 (fun i => (p.keyHash.getD i none).isSome) + 16 * maskOf 4 fun i => p.keyRevoked.getD i false
def PartFuses.ctCfgFuses (p : PartFuses) : Nat := b2n p.encRequired + 2 * b2n p.deviceKey.isSome + 4 * (p.bootWait % 16)

/-- LAST_LOAD (R472). -/
def Loader.ctLast (l : Loader) : Nat := l.lastStatus + l.lastFlags % 2 ^ 21 / 2 ^ 16 * 2 ^ 16 + 2 ^ 32 * l.loads

/-- PART_p (R472). -/
def State.ctPart (s : State) (p : Nat) : List Byte :=
  let x := s.xp p
  if !s.partPresent p then leBytes 32 0
  else leBytes 1 x.st ++ leBytes 1 (b2n x.readback) ++ leBytes 2 x.rev ++ leBytes 4 x.version
    ++ (tab 8 fun i => x.softIds.getD i 0).flatMap (leBytes 2) ++ leBytes 8 0

/-- The fields of the table in function f's view: offset and bytes (R315, R378, R472). CT_LEN ends with the last PART_p. -/
def State.ctFields (s : State) (f : Nat) : List (Nat × List Byte) :=
  [(0x00, ascii "DWCT"), (0x04, leBytes 2 0x0100), (0x06, leBytes 2 0x0100), (0x08, leBytes 2 0x0100), (0x0A, leBytes 2 f)
  , (0x0C, leBytes 4 0x1620), (0x10, leBytes 4 s.part.idcode), (0x14, leBytes 4 s.part.romVersion), (0x18, leBytes 4 s.loader.patchLevel)
  , (0x1C, leBytes 4 s.ctFlags), (0x20, leBytes 4 s.ctEngineId), (0x24, leBytes 4 s.part.config), (0x28, leBytes 8 s.part.grade.toNat)
  , (0x30, leBytes 2 256), (0x32, leBytes 2 1024), (0x34, leBytes 4 65536), (0x38, leBytes 2 2048), (0x3A, leBytes 1 16)
  , (0x40, leBytes 2 (maskOf 10 s.clPresent)), (0x48, leBytes 4 (maskOf 20 s.stackFitted)), (0x50, leBytes 8 (maskOf 36 s.portPresent))
  , (0x58, leBytes 8 (maskOf 40 s.partPresent)), (0x60, leBytes 64 (maskOf 480 s.corePresent))
  , (0xA0, (List.range 5).flatMap fun p => leBytes 2 (typRate p) ++ leBytes 2 (floorRate p))
  , (0xC0, (List.range 20).flatMap fun k => leBytes 8 (s.ctStack k)), (0x200, leBytes 8 (s.ctQuota f))
  , (0x1000, (List.range 20).flatMap fun k => leBytes 4 (s.gHbm k)), (0x1050, leBytes 4 (s.sluiceG .res))
  , (0x1054, leBytes 4 (s.sluiceG .hzn)), (0x1058, leBytes 4 (s.sluiceG .host)), (0x105C, leBytes 2 s.belowMask)
  , (0x105E, leBytes 2 (maskOf 16 fun p => (s.pt p).oversub)), (0x1060, leBytes 4 (s.sluiceG .hub)), (0x1064, leBytes 4 s.gHznNow)
  , (0x1100, leBytes 4 0x01000100), (0x1104, leBytes 1 s.part.ctKeys), (0x1105, leBytes 1 s.part.rollback)
  , (0x1106, leBytes 1 s.part.ctCfgFuses), (0x1108, leBytes 8 s.loader.ctLast), (0x1110, leBytes 4 536870912)]
  ++ tab 40 fun p => (0x1120 + 32 * p, s.ctPart p)

/-- One byte of the table; reserved bytes, and before Ready every byte, read 0 (R313, R518). -/
def State.ctByte (s : State) (f off : Nat) : Byte :=
  if s.hub.stage ≠ 6 then 0
  else match (s.ctFields f).find? fun e => decide (e.1 ≤ off) && decide (off < e.1 + e.2.length) with
    | some e => e.2.getD (off - e.1) 0
    | none => 0

/-- Bytes of the table. -/
def State.ctRead (s : State) (f off n : Nat) : List Byte := tab n fun i => s.ctByte f (off + i)

end Sys2Proof.Machine
end

