-- ==== Sys2Proof/Machine/TimeSync.lean ====
section
/-! DEFINITION. Time across engines (R38, R403, R414). -/

namespace Sys2Proof.Machine

/-- Fields of HZN_TIME_CTRL. -/
def Horizon.isRoot (h : Horizon) : Bool := h.timeCtrl.getLsbD 0
def Horizon.parent (h : Horizon) : Nat := fld h.timeCtrl.toNat 1 6
def Horizon.syncEn (h : Horizon) : Bool := h.timeCtrl.getLsbD 7

/-- A TIME frame sent on a port. -/
def State.sendTime (s : State) (p op dst : Nat) (payload : List Byte) : State :=
  let q := s.port p
  s.emit (.frame p ({ typ := 5, vc := 1, op, ack := q.expected, dst, src := s.hzn.engineId, payload : Fr }).bytes)

/-- The engine takes part in synchronisation as a child. -/
def State.isChild (s : State) : Bool := s.ready && s.hzn.enabled && s.hzn.syncEn && !s.hzn.isRoot

/-- TIME_SYNC_WINDOW (R414): at the start of a millisecond an engine that runs synchronisation sends SYNC and FOLLOW to its
children: on every port to a peer that is up, but for the PARENT port of an engine that is not ROOT (log entry 43). -/
def execTimeSyncWindow (s : State) : Out :=
  if !s.ready || !s.hzn.enabled || !s.hzn.syncEn then .next s
  else
    let s := s.atTime ((s.time.now + 999999) / 1000000 * 1000000)
    let ps := (List.range 36).filter fun p => (s.port p).st == 2 && !s.hzn.toSwitch p && (s.hzn.isRoot || p != s.hzn.parent)
    .next (ps.foldl (fun s p => (s.sendTime p 1 (s.hzn.peer p) []).sendTime p 2 (s.hzn.peer p) (leBytes 8 s.time.now)) s)

/-- SYNC (R414): stamped t₂ on arrival; c₁ is the correction of switches. -/
def execSync (port : Nat) (frame : List Byte) (stamp : Nat) (s : State) : Out :=
  s.receive port frame 5 1 fun s f =>
    if !s.isChild || port != s.hzn.parent then s
    else
      let s := s.atTime stamp
      { s with time := { s.time with t2 := stamp, c1 := sext 32 f.offset, gotFollow := false } }

/-- FOLLOW (R414): t₁; the engine sends REQ, stamped t₃. -/
def execFollow (port : Nat) (frame : List Byte) (s : State) : Out :=
  s.receive port frame 5 2 fun s f =>
    if !s.isChild || port != s.hzn.parent then s
    else
      let s := { s with time := { s.time with t1 := at8 f.payload 0, gotFollow := true, t3 := s.time.now } }
      s.sendTime port 3 f.src []

/-- REQ (R414): answered with t₄, and with the correction that switches added to REQ (places: log entry 37). -/
def execReq (port : Nat) (frame : List Byte) (stamp : Nat) (s : State) : Out :=
  s.receive port frame 5 3 fun s f =>
    if !s.hzn.syncEn then s
    else
      let s := s.atTime stamp
      s.sendTime port 4 f.src (leBytes 8 stamp ++ leBytes 4 f.offset)

/-- Synchronisation enters fault: free-running, with a log record (R414; its code: log entry 12). -/
def State.syncFault (s : State) : State :=
  { s with time := { s.time with sync := 3, inLock := 0, exchanges := 0, lastExchange := s.time.now } }.logEv (Config.lossCode 512).toNat 1 0 0 0 [0, 0, uwrap 64 s.time.offset]

/-- RESP (R414): the offset is computed, and the time base steered: a step forward at the first exchange after reset or
fault when local time is behind; locked after 16 exchanges in a row within 100 ns. -/
def execResp (port : Nat) (frame : List Byte) (s : State) : Out :=
  s.receive port frame 5 4 fun s f =>
    let t := s.time
    if !s.isChild || port != s.hzn.parent || !t.gotFollow then s
    else
      let t4 : Int := at8 f.payload 0
      let c2 := sext 32 (at4 f.payload 8)
      let off := (((t.t2 : Int) - t.t1 - t.c1) - (t4 - t.t3 - c2)) / 2
      let near := decide (off.natAbs ≤ 100)
      let lock := if near then t.inLock + 1 else 0
      let first := t.exchanges == 0
      let s := { s with time := { t with
        offset := sext 32 (uwrap 32 off), gotFollow := false, exchanges := t.exchanges + 1, lastExchange := t.now, inLock := min lock 16
        sync := if 16 ≤ lock then 2 else if near && t.sync == 2 then 2 else 1
        now := if first && decide (off < 0) then t.now + off.natAbs else t.now } }
      if 10000000 < off then s.syncFault else s

/-- TIME_SYNC_FAULT (R414): no exchange for 100 ms. -/
def execTimeSyncFault (s : State) : Out :=
  if !s.isChild || s.time.sync == 3 then .next s
  else .next (s.atTime (s.time.lastExchange + 100000000)).syncFault

end Sys2Proof.Machine
end

