-- ==== Sys2Proof/Machine/Regs.lean ====
section
/-! DEFINITION. The registers of BAR0 and the doorbells of BAR2: what each 64-bit register holds, and what a write does to
it under its access code (R8 to R10, R313, R314, R358, R518, R530). -/

namespace Sys2Proof.Machine

/-- A meaning run inside another: its next state, or the state as it was where it stops. -/
def State.run (s : State) (f : State → Out) : State :=
  match f s with
  | .next t => t
  | .fault _ => s
  | .refused _ => s

/-! ### What the registers hold -/

/-- Function registers at BAR0 0x1_0000 + o (R320). -/
def State.funcReg (s : State) (f o : Nat) : Nat :=
  let g := s.fn f
  if o = 0x00 then g.ahiRange.toNat
  else if o = 0x08 then g.chosen + 2 ^ 16 * g.agree
  else if o = 0x10 then 2 * b2n g.enable
  else if o = 0x18 then g.adminBase.toNat
  else if o = 0x20 then g.adminCfg.toNat
  else if o = 0x28 then g.adminHeadwb.toNat
  else if o = 0x30 then g.fevtBase.toNat
  else if o = 0x38 then g.fevtCfg.toNat
  else if o = 0x40 then g.fevtConsumed.toNat
  else g.violReg

/-- A partition's block (R361). -/
def Partition.reg (p : Partition) (o : Nat) : Nat :=
  if o = 0x00 then p.rt.toNat
  else if o = 0x08 then p.regions.toNat
  else if o = 0x10 then p.sluHbm.toNat
  else if o = 0x18 then p.sluRes.toNat
  else if o = 0x20 then p.sluHzn.toNat
  else if o = 0x28 then p.sluHost.toNat
  else if o = 0x30 then b2n p.lcRun.isSome + 2 * b2n p.below
  else p.preempt + 2 ^ 32 * p.lcLate

/-- A port's byte of HZN_PORT_STAT (R405). -/
def State.portStatus (s : State) (p : Nat) : Nat :=
  let q := s.port p
  q.st + 4 * q.lanes + 32 * b2n (q.st == 2 && decide (q.lanes < 4)) + 64 * b2n q.mismatch

/-- Numbers packed in fields of w bits, the first lowest. -/
def packed (w n : Nat) (f : Nat → Nat) : Nat := ((List.range n).map fun i => f i % 2 ^ w * 2 ^ (w * i)).sum

/-- The horizon's registers at area offsets 0x500 to 0x7FF (R405). -/
def State.hznReg (s : State) (o : Nat) : Option Nat :=
  let h := s.hzn
  if o = 0x500 then some (h.engineId + 2 ^ 32 * b2n h.enabled)
  else if o = 0x508 then some h.timeCtrl.toNat
  else if o < 0x5A0 then some (h.portCfg.get 0 ((o - 0x510) / 8)).toNat
  else if o < 0x5C8 then some (packed 8 8 fun j => s.portStatus (o - 0x5A0 + j))
  else if o = 0x5C8 then some (h.retries + 2 ^ 32 * h.crcErrs)
  else if o = 0x5D0 then some (h.violCount + 2 ^ 32 * h.violKind)
  else if o = 0x5D8 then some (h.dropDomain + 2 ^ 32 * h.dropHeld)
  else if o = 0x5E0 then some (s.time.sync + 2 ^ 32 * uwrap 32 s.time.offset)
  else if o < 0x600 then none
  else some (h.domains.get 0 ((o - 0x600) / 8)).toNat

/-- A service's block (R421). -/
def Svc.reg (v : Svc) (o : Nat) : Nat :=
  if o = 0x00 then v.image.toNat
  else if o = 0x08 then v.cfg.toNat
  else if o = 0x10 then 4 * v.st + 16 * v.cause + 2 ^ 16 * v.restarts
  else if o = 0x18 then v.open0.toNat
  else if o = 0x20 then v.open1.toNat
  else if o = 0x28 then v.open2.toNat
  else if o = 0x30 then v.open3.toNat
  else v.done + 2 ^ 32 * v.failed

/-- The loader's registers at 0x1400 (R467). -/
def Loader.reg (l : Loader) (o : Nat) : Nat :=
  if o = 0x00 then l.list.toNat
  else if o = 0x08 then 0
  else if o = 0x10 then l.deadline
  else if o = 0x18 then l.st + 8 * b2n l.src + 2 ^ 32 * l.bytes
  else l.violCount

/-- MGT_OP_CL (R489). CEILING: the point is a boost point, to which R494's ceiling applies. -/
def Cluster.opReg (k : Cluster) : Nat :=
  k.point + 8 * b2n k.moving + 16 * k.trim + 2 ^ 9 * b2n k.paceLow + 2 ^ 10 * b2n (decide (k.point < 2)) + 2 ^ 11 * b2n k.throttle
    + 2 ^ 16 * k.pace

/-- MGT_PWR_STATUS and MGT_THERM (R498, R501). -/
def State.pwrStatus (s : State) : Nat :=
  let p := s.power
  s.limitInForce + 2 ^ 12 * (p.mean % 4096) + 2 ^ 24 * (p.last % 4096) + 2 ^ 36 * b2n p.held + 2 ^ 37 * b2n p.estimated + 2 ^ 38 * b2n p.tight
def State.thermReg (s : State) : Nat :=
  s.power.warn + 2 ^ 8 * s.power.hottest + 2 ^ 16 * s.power.sensor
    + 2 ^ 22 * b2n (s.power.hubThrottle || (List.range 10).any fun c => (s.cl c).throttle)

/-- The record that MGT_LOG_READ selects (R512). -/
def BitLog.selected (l : BitLog) : Option LogRec := l.nth l.region l.index

/-- The management block at area offsets 0x1800 to 0x1AA7. -/
def State.mgtReg (s : State) (o : Nat) : Option Nat :=
  let t := s.telem
  if o < 0x1850 then some (if s.clPresent ((o - 0x1800) / 8) then (s.cl ((o - 0x1800) / 8)).opReg else 0)
  else if o = 0x1850 then some s.power.fastest
  else if o = 0x1860 then some s.power.limit
  else if o = 0x1868 then some s.pwrStatus
  else if o = 0x1870 then some s.power.heldCount
  else if o = 0x1878 then some s.thermReg
  else if o < 0x1900 then none
  else if o < 0x1980 then some (packed 16 4 fun k => s.power.temps.get 0x8000 ((o - 0x1900) / 2 + k))
  else if o < 0x19D0 then some (packed 16 4 fun k => s.power.volts.get 0x8000 ((o - 0x1980) / 2 + k))
  else if o < 0x19F0 then some (packed 16 4 fun k => s.power.currs.get 0x8000 ((o - 0x19D0) / 2 + k))
  else if o < 0x1A00 then none
  else if o = 0x1A00 then some s.log.status
  else if o = 0x1A08 then some s.log.lost
  else if o = 0x1A10 then some 0
  else if o = 0x1A18 then some (b2n s.log.region + 2 * s.log.index + 2 ^ 63 * b2n s.log.selected.isSome)
  else if o < 0x1A60 then some (match s.log.selected with
    | some r => leAt r.bytes (o - 0x1A20) 8
    | none => 0)
  else if o < 0x1A80 then none
  else if o = 0x1A80 then some t.base.toNat
  else if o = 0x1A88 then some t.cfg.toNat
  else if o = 0x1A90 then some t.consumed.toNat
  else if o = 0x1A98 then some t.sel.toNat
  else if o = 0x1AA0 then some t.overrun
  else none

/-- The hub's boot and device registers (R520). -/
def State.hubReg (s : State) (o : Nat) : Nat :=
  let h := s.hub
  if o = 0x1C00 then h.stage + 2 ^ 4 * h.haltCause + 2 ^ 12 * b2n h.bootImage + 2 ^ 13 * b2n h.patched + 2 ^ 32 * h.bootCount
  else if o = 0x1C08 then h.mgmtMs + 2 ^ 16 * h.memMs + 2 ^ 32 * h.readyMs
  else if o = 0x1C10 then b2n h.lost + 2 * b2n s.pins.thermtrip + 4 * h.cause + 2 ^ 16 * h.unit
  else if o = 0x1C18 then h.faultTime
  else if o = 0x1C20 then 0
  else h.wdog.toNat

/-- A cluster's counter block (R513). -/
def Cluster.perfReg (k : Cluster) (o : Nat) : Option Nat :=
  if o = 0 then some k.sel0.toNat
  else if o = 8 then some k.sel1.toNat
  else if o < 0x90 then some (k.counts.get 0 ((o - 0x10) / 8))
  else if o = 0x90 then some k.ovf.toNat
  else none

/-- PF0's register area: the register at offset o, a multiple of 8, or none at a reserved offset (R314). -/
def State.areaReg (s : State) (o : Nat) : Option Nat :=
  if o < 0x80 then some (s.pt (o / 8)).cfg.toNat
  else if o < 0x100 then none
  else if o < 0x500 then some ((s.pt ((o - 0x100) / 64)).reg ((o - 0x100) % 64))
  else if o < 0x800 then s.hznReg o
  else if o < 0x808 then none
  else if o < 0x1000 then some (s.fn ((o - 0x800) / 8)).vfCfg.toNat
  else if o = 0x1000 then some (b2n (s.windows.any fun e => e.2.draining))
  else if o < 0x1040 then none
  else if o < 0x10C0 then some (s.pt ((o - 0x1040) / 8)).sluHub.toNat
  else if o < 0x1100 then none
  else if o < 0x1400 then some ((s.svc ((o - 0x1100) / 64 + 1)).reg ((o - 0x1100) % 64))
  else if o < 0x1428 then some (s.loader.reg (o - 0x1400))
  else if o < 0x1600 then none
  else if o < 0x1740 then some (s.xp ((o - 0x1600) / 8)).portStat
  else if o < 0x1800 then none
  else if o < 0x1AA8 then s.mgtReg o
  else if o < 0x1C00 then none
  else if o < 0x1C30 then some (s.hubReg o)
  else if o < 0x2000 then none
  else if o < 0x2A00 then (if s.clPresent ((o - 0x2000) / 256) then (s.cl ((o - 0x2000) / 256)).perfReg ((o - 0x2000) % 256) else none)
  else none

/-- Base, entries and pending-bit array of a function's MSI-X table (R313). -/
def msixBase (f : Nat) : Nat := if f = 0 then 0x80000 else 0x18000
def msixPba (f : Nat) : Nat := if f = 0 then 0x88000 else 0x18400

/-- The register of BAR0 that function f has at offset o, a multiple of 8: its value, or none at a reserved offset (R313). -/
def State.reg (s : State) (f o : Nat) : Option Nat :=
  if o < 0x10000 then some (leNat (s.ctRead f o 8))
  else if o < 0x10050 then some (s.funcReg f (o - 0x10000))
  else if msixBase f ≤ o ∧ o < msixBase f + 16 * msixSize f then
    let e := s.msix.get {} (msixKey f ((o - msixBase f) / 16))
    some (if o % 16 = 0 then e.addr.toNat else e.data.toNat + 2 ^ 32 * e.control.toNat)
  else if msixPba f ≤ o ∧ o < msixPba f + msixSize f / 8 then
    some (packed 1 64 fun i => b2n ((s.msix.get {} (msixKey f (8 * (o - msixPba f) + i))).pending && decide (8 * (o - msixPba f) + i < s.ownedVectors f)))
  else if f ≠ 0 then none
  else if 0x20000 ≤ o ∧ o < 0x23000 then s.areaReg (o - 0x20000)
  else if 0x40000 ≤ o ∧ o < 0x50000 then
    let w := s.windows.get {} ((o - 0x40000) / 16)
    some (if o % 16 = 0 then w.a.toNat else w.b.toNat)
  else none

/-- The offset answers: every one when the engine is Ready; before that the registers of R518, and while it is lost those,
MSI-X and HUB_WDOG, which R533 has the driver read then (DEDUCED, log entry 69). -/
def State.answers (s : State) (f o : Nat) : Bool :=
  let o := o / 8 * 8
  s.ready || (decide (0x10000 ≤ o) && decide (o < 0x10018))
    || (f == 0 && ((decide (0x21C00 ≤ o) && decide (o < 0x21C28)) || (decide (0x21A00 ≤ o) && decide (o < 0x21A60))))
    || (f == 0 && s.hub.lost && s.hub.stage == 6 && o == 0x21C28)
    || (s.hub.lost && decide (msixBase f ≤ o) && decide (o < msixBase f + 16 * msixSize f))

/-! ### Reads

The table has no row for a read of a register. These operations are what one answers and changes (R8 to R10, R313, R358, R518; log entry
85). -/

/-- A width and alignment that R10 allows. -/
def accessOk (width o : Nat) : Bool := (width == 32 || width == 64) && o % (width / 8) == 0

/-- A read of BAR0: 0 at a reserved offset and where the offset does not answer; 0, and a violation counted, for another width or
alignment. No register of the layout changes by being read. -/
def State.readBar0 (s : State) (f o width : Nat) : Nat × State :=
  if !s.answers f o then (0, s)
  else if !accessOk width o then (0, s.viol f 3)
  else match s.reg f (o / 8 * 8) with
    | none => (0, s)
    | some v => (if width = 64 then v % 2 ^ 64 else fld v (8 * (o % 8)) 32, s)

/-- A read of BAR2: doorbells are written only, so that it answers 0. -/
def State.readBar2 (s : State) (f o width : Nat) : Nat × State :=
  if s.ready && !accessOk width o then (0, s.viol f 3) else (0, s)

/-! ### Writes -/

/-- A write as it reaches a 64-bit register: the old value with the written bits replaced, and which halves are written. -/
structure RegWrite where
  v : Nat
  low : Bool
  high : Bool

/-- A write of a function's RWL register (R320, R321): ignored and counted while ENABLE is 1. -/
def State.putRwl (s : State) (f : Nat) (g : Func → Func) : State := if (s.fn f).enable then s.viol f 4 else s.updFn f g

/-- Function registers (R318 to R321, R519). -/
def State.writeFunc (s : State) (f o : Nat) (w : RegWrite) : State :=
  let word := fun (n : Nat) => BitVec.ofNat 64 n
  if o = 0x00 then (if w.low then s.updFn f fun g => { g with ahiRange := word (fld w.v 0 32) } else s)
  else if o = 0x10 then
    if !w.low then s
    else
      let s := if bit w.v 0 then s.run (execNegotiate f) else s
      if bit w.v 1 then s.run (execEnable f) else s.run (execFunctionDisable f)
  else if o = 0x18 then s.putRwl f fun g => { g with adminBase := word (fld w.v 10 54 * 2 ^ 10) }
  else if o = 0x20 then (if w.low then s.putRwl f fun g => { g with adminCfg := word (fld w.v 0 5 + 2 ^ 16 * fld w.v 16 11) } else s)
  else if o = 0x28 then s.putRwl f fun g => { g with adminHeadwb := word (fld w.v 2 62 * 4) }
  else if o = 0x30 then s.putRwl f fun g => { g with fevtBase := word (fld w.v 11 53 * 2 ^ 11) }
  else if o = 0x38 then s.putRwl f fun g => { g with fevtCfg := word (fld w.v 0 5 + 2 ^ 32 * fld w.v 32 10) }
  else if o = 0x40 then s.putRwl f fun g => { g with fevtConsumed := word (fld w.v 2 62 * 4) }
  else s

/-- An MSI-X table entry (R312): a message that its mask held back leaves when it is unmasked. -/
def State.writeMsix (s : State) (f o : Nat) (w : RegWrite) : State :=
  let k := msixKey f ((o - msixBase f) / 16)
  let e := s.msix.get {} k
  let e : MsixEntry := if o % 16 = 0 then { e with addr := BitVec.ofNat 64 (fld w.v 2 62 * 4) }
    else { e with data := BitVec.ofNat 32 w.v, control := BitVec.ofNat 32 (fld w.v 32 1) }
  { s with msix := s.msix.set {} k e }.sendPending f

/-- A host-window register (R323 to R325). -/
def State.writeWindow (s : State) (o : Nat) (w : RegWrite) : State :=
  let n := (o - 0x40000) / 16
  let x := s.windows.get {} n
  if o % 16 = 0 then
    if bit w.v 0 then s.run (execHostWindowEnable n w.v)
    else if x.a.getLsbD 0 then
      if BitVec.ofNat 64 (hwinA w.v) = x.a &&& ~~~(1 : Word) then s.run (execHostWindowDisable n) else s.lockedWrite
    else if x.draining then s.lockedWrite
    else { s with windows := s.windows.upd {} n fun x => { x with a := BitVec.ofNat 64 (hwinA w.v) } }
  else
    let b := BitVec.ofNat 64 (hwinB w.v)
    if x.draining || (x.a.getLsbD 0 && b != x.b) then s.lockedWrite
    else { s with windows := s.windows.upd {} n fun x => { x with b } }

/-- A partition's block (R361, R362, R377). -/
def State.writePart (s : State) (p o : Nat) (w : RegWrite) : State :=
  if o = 0x00 then (if w.low then s.run (execHifPartRtWrite p w.v) else s)
  else if o = 0x08 then s.run (execHifPartRegionsWrite p w.v)
  else if o = 0x10 then s.run (execSluiceWrite p .hbm w.v)
  else if o = 0x18 then s.run (execSluiceWrite p .res w.v)
  else if o = 0x20 then s.run (execSluiceWrite p .hzn w.v)
  else if o = 0x28 then s.run (execSluiceWrite p .host w.v)
  else s

/-- HZN_TIME_CTRL (R405, R414): setting SYNC_EN starts to acquire, unless this engine is the root; clearing it leaves the time
base free-running. -/
def State.writeTimeCtrl (s : State) (v : Nat) : State :=
  if s.hzn.enabled then s.lockedWrite
  else
    let was := s.hzn.syncEn
    let s := { s with hzn := { s.hzn with timeCtrl := BitVec.ofNat 64 (fld v 0 8) } }
    if s.hzn.syncEn == was then s
    else { s with time := { s.time with
      sync := if s.hzn.syncEn && !s.hzn.isRoot then 1 else 0, inLock := 0, exchanges := 0, lastExchange := s.time.now } }

/-- One port's half of HZN_PORT_CFG (R405; DEDUCED, log entry 68): a PEER beside ROLE 1 is refused; a port beyond the
configuration ignores EN. -/
def State.portCfgOf (s : State) (p v : Nat) : Option Nat :=
  if fld v 1 1 = 1 ∧ fld v 3 18 ≠ 0 then none
  else some ((if s.part.ports ≤ p then 0 else fld v 0 1) + 2 * fld v 1 1 + 8 * fld v 3 18)

/-- HZN_PORT_CFG i: ports 2i and 2i + 1. -/
def State.writePortCfg (s : State) (i : Nat) (w : RegWrite) : State :=
  if s.hzn.enabled then s.lockedWrite
  else
    let old := (s.hzn.portCfg.get 0 i).toNat
    let half := fun (k : Nat) (on : Bool) => if on then s.portCfgOf (2 * i + k) (fld w.v (32 * k) 32) else some (fld old (32 * k) 32)
    let lo := half 0 w.low
    let hi := half 1 w.high
    let v := lo.getD (fld old 0 32) + 2 ^ 32 * hi.getD (fld old 32 32)
    let s := if lo.isNone || hi.isNone then s.lockedWrite else s
    { s with hzn := { s.hzn with portCfg := s.hzn.portCfg.set 0 i (BitVec.ofNat 64 v) } }

/-- The horizon's registers (R405). -/
def State.writeHzn (s : State) (o : Nat) (w : RegWrite) : State :=
  if o = 0x500 then s.writeHznCtrl (fld w.v 0 18 + 2 ^ 32 * fld w.v 32 1)
  else if o = 0x508 then (if w.low then s.writeTimeCtrl w.v else s)
  else if o < 0x5A0 then s.writePortCfg ((o - 0x510) / 8) w
  else if o < 0x600 then s
  else s.run (execHznDomainWrite ((o - 0x600) / 8) w.v)

/-- A service's block (R421 to R424). -/
def State.writeSvc (s : State) (svc o : Nat) (w : RegWrite) : State :=
  let v := s.svc svc
  let word := fun (n : Nat) => BitVec.ofNat 64 n
  if o = 0x00 then
    if v.locked then s.lockedWrite else s.updSvc svc fun v => { v with image := word (fld w.v 12 52 * 2 ^ 12) }
  else if o = 0x08 then
    if v.locked then s.lockedWrite
    else s.updSvc svc fun v => { v with cfg := word (fld w.v 0 28 + 2 ^ 32 * fld w.v 32 12 + 2 ^ 48 * fld w.v 48 4) }
  else if o = 0x10 then
    if !w.low then s
    else
      let s := if bit w.v 0 then s.run (execServiceLoad svc) else s
      if bit w.v 1 then s.run (execServiceUnload svc) else s
  else if o = 0x18 then s.updSvc svc fun v => { v with open0 := word w.v }
  else if o = 0x20 then s.updSvc svc fun v => { v with open1 := word w.v }
  else if o = 0x28 then s.updSvc svc fun v => { v with open2 := word w.v }
  else if o = 0x30 then s.updSvc svc fun v => { v with open3 := word w.v }
  else s

/-- The loader's registers (R467, R468). -/
def State.writeLoader (s : State) (o : Nat) (w : RegWrite) : State :=
  if o = 0x00 then
    if s.loader.st ≠ 0 then s.lockedWrite
    else { s with loader := { s.loader with list := BitVec.ofNat 64 (fld w.v 12 52 * 2 ^ 12) } }
  else if o = 0x08 then
    if !w.low then s
    else
      let s := if bit w.v 0 then s.run execCfgLoadStart else s
      if bit w.v 1 then s.run execCfgLoadAbort else s
  else if o = 0x10 then
    let ms := fld w.v 0 16
    if !w.low then s
    else if 1 ≤ ms ∧ ms ≤ 60000 then { s with loader := { s.loader with deadline := ms } } else s.lockedWrite
  else s

/-- MGT_TELEM_CFG (R515): while EN is 1 its other fields are locked, and EN may be cleared. -/
def State.writeTelemCfg (s : State) (v : Nat) : State :=
  let t := s.telem
  if t.en then
    let s := if fld v 0 31 = fld t.cfg.toNat 0 31 then s else s.lockedWrite
    if bit v 31 then s else { s with telem := { t with cfg := BitVec.ofNat 64 (fld t.cfg.toNat 0 31) } }
  else if bit v 31 then s.run (execTelemetryEnable v)
  else { s with telem := { t with cfg := BitVec.ofNat 64 (fld v 0 31) } }

/-- The management block (R489, R498, R501, R511, R512, R515). -/
def State.writeMgt (s : State) (o : Nat) (w : RegWrite) : State :=
  let word := fun (n : Nat) => BitVec.ofNat 64 n
  if o = 0x1850 then
    if !w.low then s
    else if fld w.v 0 3 ≤ 2 then { s with power := { s.power with fastest := fld w.v 0 3 } } else s.lockedWrite
  else if o = 0x1860 then (if w.low then s.run (execMgtPwrLimitWrite w.v) else s)
  else if o = 0x1878 then
    let c := fld w.v 0 8
    if !w.low then s
    else if 60 ≤ c ∧ c ≤ 100 then { s with power := { s.power with warn := c } } else s.lockedWrite
  else if o = 0x1A10 then (if w.low && bit w.v 0 then s.run execClearFf else s)
  else if o = 0x1A18 then
    if w.low then { s with log := { s.log with region := bit w.v 0, index := fld w.v 1 17 } } else s
  else if o = 0x1A80 then
    if s.telem.en then s.lockedWrite else { s with telem := { s.telem with base := word (fld w.v 12 52 * 2 ^ 12) } }
  else if o = 0x1A88 then (if w.low then s.writeTelemCfg w.v else s)
  else if o = 0x1A90 then
    if s.telem.en then s.lockedWrite else { s with telem := { s.telem with consumed := word (fld w.v 2 62 * 4) } }
  else if o = 0x1A98 then { s with telem := { s.telem with sel := word (fld w.v 0 32) } }
  else s

/-- A cluster's counters (R513): OVF is W1C, of the bits that were written. -/
def State.writePerf (s : State) (c o : Nat) (w : RegWrite) : State :=
  if o = 0 then s.updCl c fun k => { k with sel0 := BitVec.ofNat 64 w.v }
  else if o = 8 then s.updCl c fun k => { k with sel1 := BitVec.ofNat 64 w.v }
  else if o < 0x90 then s.updCl c fun k => { k with counts := k.counts.set 0 ((o - 0x10) / 8) (fld w.v 0 48) }
  else if o = 0x90 ∧ w.low then s.updCl c fun k => { k with ovf := k.ovf &&& ~~~(BitVec.ofNat 16 w.v) }
  else s

/-- PF0's register area (R314); a write of a read-only register is ignored (R8). -/
def State.writeArea (s : State) (o width value : Nat) (w : RegWrite) : State :=
  if o < 0x80 then s.run (execHifPartCfgWrite (o / 8) w.v)
  else if o < 0x500 then s.writePart ((o - 0x100) / 64) ((o - 0x100) % 64) w
  else if o < 0x800 then s.writeHzn o w
  else if o < 0x1000 then s.run (execHifVfCfgWrite ((o - 0x800) / 8) w.v)
  else if o < 0x1040 then s
  else if o < 0x10C0 then s.run (execSluiceWrite ((o - 0x1040) / 8) .hub w.v)
  else if o < 0x1400 then s.writeSvc ((o - 0x1100) / 64 + 1) ((o - 0x1100) % 64) w
  else if o < 0x1428 then s.writeLoader (o - 0x1400) w
  else if o < 0x1800 then s
  else if o < 0x1AA8 then s.writeMgt o w
  else if o = 0x1C20 then (if w.low then s.run (execEngineResetRequest width value) else s)
  else if o < 0x2000 then s
  else s.writePerf ((o - 0x2000) / 256) ((o - 0x2000) % 256) w

/-- A write of BAR0. -/
def State.writeBar0 (s : State) (f o width value : Nat) : State :=
  let base := o / 8 * 8
  if !s.answers f o then s
  else if !accessOk width o then s.viol f 3
  else match s.reg f base with
    | none => s.viol f 4
    | some old =>
      let high := width == 64 || o % 8 == 4
      let low := width == 64 || o % 8 == 0
      let v := if width = 64 then value % 2 ^ 64
        else if low then value % 2 ^ 32 + 2 ^ 32 * fld old 32 32 else fld old 0 32 + 2 ^ 32 * (value % 2 ^ 32)
      let w : RegWrite := { v, low, high }
      if base < 0x10000 then s
      else if base < 0x10050 then s.writeFunc f (base - 0x10000) w
      else if msixBase f ≤ base ∧ base < msixBase f + 16 * msixSize f then s.writeMsix f base w
      else if msixPba f ≤ base ∧ base < msixPba f + msixSize f / 8 then s
      else if base < 0x40000 then s.writeArea (base - 0x20000) width value w
      else s.writeWindow base w

/-- A write of BAR2 (R313, R334, R336, R358): doorbells. -/
def State.writeBar2 (s : State) (f o width value : Nat) : State :=
  if !s.ready then s
  else if width != 32 || o % 4 != 0 then s.viol f 3
  else if o % 4096 ≠ 0 ∨ 1024 < o / 4096 then s.viol f 2
  else if o / 4096 = 1024 then s.run (execAdminDoorbell f (value % 2 ^ 32)) else s.run (execSubmissionDoorbell f (o / 4096) (value % 2 ^ 32))

/-- REGISTER_WRITE (R8 to R10, R313): a write that reaches a BAR of a function. -/
def execRegisterWrite (func bar offset width value : Nat) (s : State) : Out :=
  if 256 ≤ func ∨ (bar ≠ 0 ∧ bar ≠ 2) then .fault (.noSuchUnit "BAR")
  else if !s.pins.porstN || !s.funcExists func then .next s
  else if bar = 0 then .next (s.writeBar0 func offset width value) else .next (s.writeBar2 func offset width value)

end Sys2Proof.Machine
end

