-- ==== Sys2Proof/Machine/Sideband.lean ====
section
/-! DEFINITION. The sideband: MCTP control messages and the vendor-defined commands (R503 to R505). -/

namespace Sys2Proof.Machine

/-- An MCTP control response (DSP0236; PRESUMED, log entry 70): message type, instance byte, command, completion code, data. -/
def controlReply (cmd code : Nat) (data : List Byte) : OutEvent :=
  .mctp (leBytes 1 0 ++ leBytes 1 0 ++ leBytes 1 cmd ++ leBytes 1 code ++ data)

/-- A vendor-defined response (R503, R504): type 0x7E, the Vendor ID, the completion code, and what follows it. -/
def State.vendorReply (s : State) (code : Nat) (data : List Byte) : OutEvent :=
  .mctp (leBytes 1 0x7E ++ beBytes 2 s.part.vendorId ++ leBytes 1 code ++ data)

/-- The sideband answers: the management processor, which drives it (R484), runs while PORST_N is high (R503). -/
def State.sidebandUp (s : State) : Bool := s.hubUp

/-- A response, and what else the request does. -/
def State.answer (s : State) (e : OutEvent) (f : State → State) : Out := if s.sidebandUp then .next ((f s).emit e) else .next s

/-- SET_ENDPOINT_ID (R503): 0 and 0xFF are no assignable IDs. -/
def execSetEndpointId (eid : Nat) (s : State) : Out :=
  if 256 ≤ eid then .fault (.noSuchUnit "endpoint ID")
  else if eid = 0 ∨ eid = 255 then s.answer (controlReply 1 2 []) id
  else s.answer (controlReply 1 0 (leBytes 1 0 ++ leBytes 1 eid ++ leBytes 1 0)) fun s => { s with eid }

/-- GET_ENDPOINT_ID (R503). -/
def execGetEndpointId (s : State) : Out := s.answer (controlReply 2 0 (leBytes 1 s.eid ++ leBytes 2 0)) id

/-- GET_MCTP_VERSION_SUPPORT (R503): one version, 1.3. -/
def execGetMctpVersionSupport (s : State) : Out := s.answer (controlReply 4 0 (leBytes 1 1 ++ beBytes 4 0xF1F3FF00)) id

/-- GET_MESSAGE_TYPE_SUPPORT (R503): the vendor-defined PCI type alone. -/
def execGetMessageTypeSupport (s : State) : Out := s.answer (controlReply 5 0 (leBytes 1 1 ++ leBytes 1 0x7E)) id

/-- GET_STATUS (R504): IN_FORCE, MEAN, HOTTEST and SENSOR, the low 16 bits of each MGT_OP_CL, and the two flags, in the order of
R504 (widths: log entry 71). It releases SMB_ALERT_N, which THERMTRIP_N keeps asserted (R505). -/
def execGetStatus (s : State) : Out :=
  let point := fun (c : Nat) => fld (if s.clPresent c then (s.cl c).opReg else 0) 0 16
  s.answer (s.vendorReply 0 (leBytes 2 s.limitInForce ++ leBytes 2 s.power.mean ++ leBytes 1 s.power.hottest ++ leBytes 1 s.power.sensor
    ++ (List.range 10).flatMap (fun c => leBytes 2 (point c)) ++ leBytes 1 (b2n s.hub.lost + 2 * b2n s.pins.thermtrip)))
    fun s => { s with pins := { s.pins with smbAlert := s.pins.thermtrip } }

/-- READ_SENSORS (R504): values as in MGT_TEMP, MGT_VOLT and MGT_CURR. -/
def execReadSensors (kind first count : Nat) (s : State) : Out :=
  let n := if kind = 0 then 64 else if kind = 1 then 40 else 16
  let v := fun (i : Nat) => (if kind = 0 then s.power.temps else if kind = 1 then s.power.volts else s.power.currs).get 0x8000 i
  if kind ≤ 2 ∧ 1 ≤ count ∧ count ≤ 16 ∧ first + count ≤ n then
    s.answer (s.vendorReply 0 ((List.range count).flatMap fun i => leBytes 2 (v (first + i)))) id
  else s.answer (s.vendorReply 1 []) id

/-- READ_CT (R504): PF0's view of the capability table. -/
def execReadCt (offset length : Nat) (s : State) : Out :=
  if offset % 4 = 0 ∧ 4 ≤ length ∧ length ≤ 48 ∧ offset + length ≤ 65536 then s.answer (s.vendorReply 0 (s.ctRead 0 offset length)) id
  else s.answer (s.vendorReply 1 []) id

/-- SET_PWR_LIMIT (R504, R498): answered with the limit in force. -/
def execSetPwrLimit (watts : Nat) (s : State) : Out :=
  if watts = 0 ∨ (800 ≤ watts ∧ watts ≤ 3200) then
    let set := fun (s : State) => { s with power := { s.power with sideband := watts } }
    s.answer (s.vendorReply 0 (leBytes 2 (set s).limitInForce)) set
  else s.answer (s.vendorReply 1 []) id

/-- READ_LOG (R504): one record by age, or code 1 beyond the last. -/
def execReadLog (region index : Nat) (s : State) : Out :=
  match if region ≤ 1 then s.log.nth (region == 1) index else none with
  | some r => s.answer (s.vendorReply 0 r.bytes) id
  | none => s.answer (s.vendorReply 1 []) id

/-- LOG_STATUS (R504): MGT_LOG_STATUS. -/
def execLogStatus (s : State) : Out := s.answer (s.vendorReply 0 (leBytes 8 s.log.status)) id

end Sys2Proof.Machine
end

