-- ==== Sys2Proof/Machine/Dispatch.lean ====
section
/-! DEFINITION. The dispatch: one arm per command. -/

namespace Sys2Proof.Machine

/-- The effect of a command on everything but the queue. -/
def exec (i : Instr) (s : State) : Host.Outcome State Fault Refusal :=
  match i with
  | .porstNAssert => Sys2Proof.Machine.execPorstNAssert s
  | .porstNRelease romOk fuseOk => Sys2Proof.Machine.execPorstNRelease romOk fuseOk s
  | .railOutOfRange rail => Sys2Proof.Machine.execRailOutOfRange rail s
  | .timerefLost => Sys2Proof.Machine.execTimerefLost s
  | .timerefReturn => Sys2Proof.Machine.execTimerefReturn s
  | .timeDegradedClear => Sys2Proof.Machine.execTimeDegradedClear s
  | .sdsRefclkLost group => Sys2Proof.Machine.execSdsRefclkLost group s
  | .hbmRefclkLost cluster => Sys2Proof.Machine.execHbmRefclkLost cluster s
  | .clockTreeStop tree => Sys2Proof.Machine.execClockTreeStop tree s
  | .partRejoin part => Sys2Proof.Machine.execPartRejoin part s
  | .clockSwitch tree => Sys2Proof.Machine.execClockSwitch tree s
  | .pllLossOfLock region => Sys2Proof.Machine.execPllLossOfLock region s
  | .dieToDieLinkFailure link => Sys2Proof.Machine.execDieToDieLinkFailure link s
  | .thermalWarnCrossing sensor t16 => Sys2Proof.Machine.execThermalWarnCrossing sensor t16 s
  | .hardwareThrottle sensor t16 => Sys2Proof.Machine.execHardwareThrottle sensor t16 s
  | .throttleRelease domain t16s => Sys2Proof.Machine.execThrottleRelease domain t16s s
  | .thermalShutdown sensor t16 => Sys2Proof.Machine.execThermalShutdown sensor t16 s
  | .governorTrip rail => Sys2Proof.Machine.execGovernorTrip rail s
  | .firmwareAssertion proc => Sys2Proof.Machine.execFirmwareAssertion proc s
  | .railSensorRead volts currents estimated => Sys2Proof.Machine.execRailSensorRead volts currents estimated s
  | .paceCheck cluster pace => Sys2Proof.Machine.execPaceCheck cluster pace s
  | .pointChange cluster point => Sys2Proof.Machine.execPointChange cluster point s
  | .pointChangeSettled cluster => Sys2Proof.Machine.execPointChangeSettled cluster s
  | .pointChangeTimeout cluster => Sys2Proof.Machine.execPointChangeTimeout cluster s
  | .powerWindowEnd watts => Sys2Proof.Machine.execPowerWindowEnd watts s
  | .powerProjection t energy power => Sys2Proof.Machine.execPowerProjection t energy power s
  | .panStartAdmission pan t => Sys2Proof.Machine.execPanStartAdmission pan t s
  | .panRampDown pan t => Sys2Proof.Machine.execPanRampDown pan t s
  | .tapInstruction code => Sys2Proof.Machine.execTapInstruction code s
  | .managementStage linkFault cmFailed rsFailed => Sys2Proof.Machine.execManagementStage linkFault cmFailed rsFailed s
  | .stackTraining stack org rated margin lanes => Sys2Proof.Machine.execStackTraining stack org rated margin lanes s
  | .memoryReady => Sys2Proof.Machine.execMemoryReady s
  | .bootImageWaitExpiry => Sys2Proof.Machine.execBootImageWaitExpiry s
  | .firmwareStart => Sys2Proof.Machine.execFirmwareStart s
  | .bootReady => Sys2Proof.Machine.execBootReady s
  | .engineResetRequest width value => Sys2Proof.Machine.execEngineResetRequest width value s
  | .engineResetHoldEnd romOk fuseOk => Sys2Proof.Machine.execEngineResetHoldEnd romOk fuseOk s
  | .watchdogHeartbeat proc t => Sys2Proof.Machine.execWatchdogHeartbeat proc t s
  | .watchdogExpiry proc => Sys2Proof.Machine.execWatchdogExpiry proc s
  | .configRequest func op => Sys2Proof.Machine.execConfigRequest func op s
  | .functionLevelReset func => Sys2Proof.Machine.execFunctionLevelReset func s
  | .hotReset => Sys2Proof.Machine.execHotReset s
  | .link0Down => Sys2Proof.Machine.execLink0Down s
  | .link1Down => Sys2Proof.Machine.execLink1Down s
  | .link1Up => Sys2Proof.Machine.execLink1Up s
  | .hostReadError reader => Sys2Proof.Machine.execHostReadError reader s
  | .atsInvalidation func => Sys2Proof.Machine.execAtsInvalidation func s
  | .registerWrite func bar offset width value => Sys2Proof.Machine.execRegisterWrite func bar offset width value s
  | .negotiate func => Sys2Proof.Machine.execNegotiate func s
  | .enable func => Sys2Proof.Machine.execEnable func s
  | .functionDisable func => Sys2Proof.Machine.execFunctionDisable func s
  | .hifPartCfgWrite part value => Sys2Proof.Machine.execHifPartCfgWrite part value s
  | .hifVfCfgWrite vf value => Sys2Proof.Machine.execHifVfCfgWrite vf value s
  | .hostWindowEnable win value => Sys2Proof.Machine.execHostWindowEnable win value s
  | .hostWindowDisable win => Sys2Proof.Machine.execHostWindowDisable win s
  | .hostWindowDrained win => Sys2Proof.Machine.execHostWindowDrained win s
  | .hifPartRegionsWrite part value => Sys2Proof.Machine.execHifPartRegionsWrite part value s
  | .hifPartRtWrite part value => Sys2Proof.Machine.execHifPartRtWrite part value s
  | .sluiceWrite part res value => Sys2Proof.Machine.execSluiceWrite part res value s
  | .horizonEnable value => Sys2Proof.Machine.execHorizonEnable value s
  | .horizonDisable => Sys2Proof.Machine.execHorizonDisable s
  | .hznDomainWrite reg value => Sys2Proof.Machine.execHznDomainWrite reg value s
  | .serviceLoad svc => Sys2Proof.Machine.execServiceLoad svc s
  | .serviceUnload svc => Sys2Proof.Machine.execServiceUnload svc s
  | .cfgLoadStart => Sys2Proof.Machine.execCfgLoadStart s
  | .cfgLoadAbort => Sys2Proof.Machine.execCfgLoadAbort s
  | .mgtPwrLimitWrite value => Sys2Proof.Machine.execMgtPwrLimitWrite value s
  | .clearFf => Sys2Proof.Machine.execClearFf s
  | .telemetryEnable value => Sys2Proof.Machine.execTelemetryEnable value s
  | .submissionDoorbell func ring tail => Sys2Proof.Machine.execSubmissionDoorbell func ring tail s
  | .adminDoorbell func tail => Sys2Proof.Machine.execAdminDoorbell func tail s
  | .nop ring => Sys2Proof.Machine.execNop ring s
  | .execBuffer ring => Sys2Proof.Machine.execExecBuffer ring s
  | .launch ring => Sys2Proof.Machine.execLaunch ring s
  | .unload ring => Sys2Proof.Machine.execUnload ring s
  | .ctxCreate func => Sys2Proof.Machine.execCtxCreate func s
  | .ctxDestroy func => Sys2Proof.Machine.execCtxDestroy func s
  | .ringCreate func => Sys2Proof.Machine.execRingCreate func s
  | .ringDestroy func => Sys2Proof.Machine.execRingDestroy func s
  | .fenceCreate func => Sys2Proof.Machine.execFenceCreate func s
  | .fenceShare func => Sys2Proof.Machine.execFenceShare func s
  | .fenceRelease func => Sys2Proof.Machine.execFenceRelease func s
  | .fenceSignal func => Sys2Proof.Machine.execFenceSignal func s
  | .objCreate func => Sys2Proof.Machine.execObjCreate func s
  | .objMapHost func => Sys2Proof.Machine.execObjMapHost func s
  | .objUnmap func => Sys2Proof.Machine.execObjUnmap func s
  | .objExport func => Sys2Proof.Machine.execObjExport func s
  | .objImport func => Sys2Proof.Machine.execObjImport func s
  | .objWithdraw func => Sys2Proof.Machine.execObjWithdraw func s
  | .eventRingFullRecheck ctx => Sys2Proof.Machine.execEventRingFullRecheck ctx s
  | .eventRingFullTimeout ctx => Sys2Proof.Machine.execEventRingFullTimeout ctx s
  | .functionEventRingRecheck func => Sys2Proof.Machine.execFunctionEventRingRecheck func s
  | .moderationExpiry ring => Sys2Proof.Machine.execModerationExpiry ring s
  | .queueAdmission core unit => Sys2Proof.Machine.execQueueAdmission core unit s
  | .matmul ref => Sys2Proof.Machine.execMatmul ref s
  | .attend ref => Sys2Proof.Machine.execAttend ref s
  | .vop ref => Sys2Proof.Machine.execVop ref s
  | .reduce ref => Sys2Proof.Machine.execReduce ref s
  | .softmax ref => Sys2Proof.Machine.execSoftmax ref s
  | .norm ref => Sys2Proof.Machine.execNorm ref s
  | .activate ref => Sys2Proof.Machine.execActivate ref s
  | .rope ref => Sys2Proof.Machine.execRope ref s
  | .topk ref => Sys2Proof.Machine.execTopk ref s
  | .sample ref => Sys2Proof.Machine.execSample ref s
  | .stats ref => Sys2Proof.Machine.execStats ref s
  | .quant ref => Sys2Proof.Machine.execQuant ref s
  | .requant ref => Sys2Proof.Machine.execRequant ref s
  | .dequant ref => Sys2Proof.Machine.execDequant ref s
  | .mask ref => Sys2Proof.Machine.execMask ref s
  | .rndfill ref => Sys2Proof.Machine.execRndfill ref s
  | .copy ref => Sys2Proof.Machine.execCopy ref s
  | .gather ref => Sys2Proof.Machine.execGather ref s
  | .scatter ref => Sys2Proof.Machine.execScatter ref s
  | .mcast ref => Sys2Proof.Machine.execMcast ref s
  | .multicastReservationGrant cluster => Sys2Proof.Machine.execMulticastReservationGrant cluster s
  | .prefetch ref => Sys2Proof.Machine.execPrefetch ref s
  | .saveRes ref => Sys2Proof.Machine.execSaveRes ref s
  | .restoreRes ref => Sys2Proof.Machine.execRestoreRes ref s
  | .wait ref => Sys2Proof.Machine.execWait ref s
  | .signal ref => Sys2Proof.Machine.execSignal ref s
  | .event ref => Sys2Proof.Machine.execEvent ref s
  | .barrier ref => Sys2Proof.Machine.execBarrier ref s
  | .waitTimeoutExpiry ref => Sys2Proof.Machine.execWaitTimeoutExpiry ref s
  | .waitCycleScan => Sys2Proof.Machine.execWaitCycleScan s
  | .send ref => Sys2Proof.Machine.execSend ref s
  | .recv ref => Sys2Proof.Machine.execRecv ref s
  | .allreduce ref => Sys2Proof.Machine.execAllreduce ref s
  | .allgather ref => Sys2Proof.Machine.execAllgather ref s
  | .rscatter ref => Sys2Proof.Machine.execRscatter ref s
  | .ringpass ref => Sys2Proof.Machine.execRingpass ref s
  | .patch ref => Sys2Proof.Machine.execPatch ref s
  | .replay ref => Sys2Proof.Machine.execReplay ref s
  | .runStart sec => Sys2Proof.Machine.execRunStart sec s
  | .chain ref => Sys2Proof.Machine.execChain ref s
  | .softCall ref => Sys2Proof.Machine.execSoftCall ref s
  | .coreCall ref => Sys2Proof.Machine.execCoreCall ref s
  | .callTimeout ref => Sys2Proof.Machine.execCallTimeout ref s
  | .panOperationIssue pan => Sys2Proof.Machine.execPanOperationIssue pan s
  | .weightSetLoad pan => Sys2Proof.Machine.execWeightSetLoad pan s
  | .weightSetComplete pan => Sys2Proof.Machine.execWeightSetComplete pan s
  | .frameEmit sec route => Sys2Proof.Machine.execFrameEmit sec route s
  | .routeStallTimeout ref => Sys2Proof.Machine.execRouteStallTimeout ref s
  | .commandCommit ref => Sys2Proof.Machine.execCommandCommit ref s
  | .streamGroupCommit ref => Sys2Proof.Machine.execStreamGroupCommit ref s
  | .preemptWaitExpiry core unit => Sys2Proof.Machine.execPreemptWaitExpiry core unit s
  | .killComplete ref => Sys2Proof.Machine.execKillComplete ref s
  | .parityError store cluster core pan addr ref again => Sys2Proof.Machine.execParityError store cluster core pan addr ref again s
  | .pageZeroingComplete res page passed => Sys2Proof.Machine.execPageZeroingComplete res page passed s
  | .subpageZeroingComplete stack sub passed => Sys2Proof.Machine.execSubpageZeroingComplete stack sub passed s
  | .translationInvalidationComplete ctx va => Sys2Proof.Machine.execTranslationInvalidationComplete ctx va s
  | .sluiceWindow => Sys2Proof.Machine.execSluiceWindow s
  | .refresh stack => Sys2Proof.Machine.execRefresh stack s
  | .retraining stack pc passed => Sys2Proof.Machine.execRetraining stack pc passed s
  | .scrubRead stack line => Sys2Proof.Machine.execScrubRead stack line s
  | .train port frame => Sys2Proof.Machine.execTrain port frame s
  | .trainingTimeout port => Sys2Proof.Machine.execTrainingTimeout port s
  | .portDown port => Sys2Proof.Machine.execPortDown port s
  | .linkAckTimeout port => Sys2Proof.Machine.execLinkAckTimeout port s
  | .data port frame => Sys2Proof.Machine.execData port frame s
  | .ack port frame => Sys2Proof.Machine.execAck port frame s
  | .nak port frame => Sys2Proof.Machine.execNak port frame s
  | .retransmitTimeout port => Sys2Proof.Machine.execRetransmitTimeout port s
  | .ackKeepalive port => Sys2Proof.Machine.execAckKeepalive port s
  | .rts port frame => Sys2Proof.Machine.execRts port frame s
  | .cts port frame => Sys2Proof.Machine.execCts port frame s
  | .refuse port frame => Sys2Proof.Machine.execRefuse port frame s
  | .busy port frame => Sys2Proof.Machine.execBusy port frame s
  | .rtsRetry msg => Sys2Proof.Machine.execRtsRetry msg s
  | .segDone port frame => Sys2Proof.Machine.execSegDone port frame s
  | .segmentTimeout msg seg => Sys2Proof.Machine.execSegmentTimeout msg seg s
  | .done port frame => Sys2Proof.Machine.execDone port frame s
  | .abort port frame => Sys2Proof.Machine.execAbort port frame s
  | .groupAbort port frame => Sys2Proof.Machine.execGroupAbort port frame s
  | .horizonInactivityTimeout ref => Sys2Proof.Machine.execHorizonInactivityTimeout ref s
  | .remoteSignal port frame => Sys2Proof.Machine.execRemoteSignal port frame s
  | .remoteSignalDrop => Sys2Proof.Machine.execRemoteSignalDrop s
  | .timeSyncWindow => Sys2Proof.Machine.execTimeSyncWindow s
  | .sync port frame stamp => Sys2Proof.Machine.execSync port frame stamp s
  | .follow port frame => Sys2Proof.Machine.execFollow port frame s
  | .req port frame stamp => Sys2Proof.Machine.execReq port frame stamp s
  | .resp port frame => Sys2Proof.Machine.execResp port frame s
  | .timeSyncFault => Sys2Proof.Machine.execTimeSyncFault s
  | .load word => Sys2Proof.Machine.execLoad word s
  | .readback word => Sys2Proof.Machine.execReadback word s
  | .endWord word => Sys2Proof.Machine.execEndWord word s
  | .chainForward bytes => Sys2Proof.Machine.execChainForward bytes s
  | .subImageHeader bytes => Sys2Proof.Machine.execSubImageHeader bytes s
  | .subImageReceived bytes => Sys2Proof.Machine.execSubImageReceived bytes s
  | .loadCommit t => Sys2Proof.Machine.execLoadCommit t s
  | .applyComplete => Sys2Proof.Machine.execApplyComplete s
  | .join part => Sys2Proof.Machine.execJoin part s
  | .joinTimeout part => Sys2Proof.Machine.execJoinTimeout part s
  | .replyHeader part beat last => Sys2Proof.Machine.execReplyHeader part beat last s
  | .replyFrame part frame last => Sys2Proof.Machine.execReplyFrame part frame last s
  | .unsolicited part => Sys2Proof.Machine.execUnsolicited part s
  | .svcWait svc => Sys2Proof.Machine.execSvcWait svc s
  | .svcDone svc entry callId count window => Sys2Proof.Machine.execSvcDone svc entry callId count window s
  | .svcTime svc => Sys2Proof.Machine.execSvcTime svc s
  | .svcLog svc bytes => Sys2Proof.Machine.execSvcLog svc bytes s
  | .svcYield svc => Sys2Proof.Machine.execSvcYield svc s
  | .serviceProgramEnd svc t => Sys2Proof.Machine.execServiceProgramEnd svc t s
  | .crysOpen entry => Sys2Proof.Machine.execCrysOpen entry s
  | .crysClose entry => Sys2Proof.Machine.execCrysClose entry s
  | .crysStatus entry => Sys2Proof.Machine.execCrysStatus entry s
  | .servingStep ctx => Sys2Proof.Machine.execServingStep ctx s
  | .crystallizerSampling ctx => Sys2Proof.Machine.execCrystallizerSampling ctx s
  | .setEndpointId eid => Sys2Proof.Machine.execSetEndpointId eid s
  | .getEndpointId => Sys2Proof.Machine.execGetEndpointId s
  | .getMctpVersionSupport => Sys2Proof.Machine.execGetMctpVersionSupport s
  | .getMessageTypeSupport => Sys2Proof.Machine.execGetMessageTypeSupport s
  | .getStatus => Sys2Proof.Machine.execGetStatus s
  | .readSensors kind first count => Sys2Proof.Machine.execReadSensors kind first count s
  | .readCt offset length => Sys2Proof.Machine.execReadCt offset length s
  | .setPwrLimit watts => Sys2Proof.Machine.execSetPwrLimit watts s
  | .readLog region index => Sys2Proof.Machine.execReadLog region index s
  | .logStatus => Sys2Proof.Machine.execLogStatus s
  | .logWrite => Sys2Proof.Machine.execLogWrite s
  | .coalescingWindowEnd => Sys2Proof.Machine.execCoalescingWindowEnd s
  | .telemetrySample => Sys2Proof.Machine.execTelemetrySample s
  | .subpageTaggingComplete stack sub => Sys2Proof.Machine.execSubpageTaggingComplete stack sub s
  | .saveResTimeout ref => Sys2Proof.Machine.execSaveResTimeout ref s
  | .trainFrameSend port => Sys2Proof.Machine.execTrainFrameSend port s
  | .warnRelease cluster t16s => Sys2Proof.Machine.execWarnRelease cluster t16s s
  | .invalidCommandWord word => Sys2Proof.Machine.execInvalidCommandWord word s

end Sys2Proof.Machine
end

