-- ==== Sys2Proof/Machine/Step.lean ====
section
/-! DEFINITION. The step: the command at the front of the queue, or one tick of the time base when none waits. -/

namespace Sys2Proof.Machine

/-- With nothing waiting, the device time base counts one nanosecond while the part is powered and out of power-on
reset (R38, R45; DESIGN CHOICE, log entry 7). -/
def State.tick (s : State) : State :=
  if s.pins.porstN then { s with time := { s.time with now := s.time.now + 1 } } else s

/-- One step. -/
def step (s : State) : Host.Outcome State Fault Refusal :=
  match s.pending with
  | [] => .next s.tick
  | c :: rest => exec c { s with pending := rest }

/-- The table gives no row a word, so no word spells a command and the state is as it was (log entry 8). -/
def State.withFetchWord (s : State) (nbits w : Nat) : State :=
  match decodeTableWord nbits w with
  | some c => { s with pending := c :: s.pending }
  | none => s

end Sys2Proof.Machine
end

