-- ==== Sys2Proof/WellFormed.lean ====
section
/-! DEFINITION. Well-formed commands: every operand that numbers a unit names one of the full layout (Identifiers of
00_scope; log entry 1). A well-formed command always has an outcome with a next state; an ill-formed one stops. -/

namespace Sys2Proof

/-- The operands of a command number units that the full layout has: 10 clusters of 48 cores and 2 pans each, 20 stacks,
36 horizon ports, 40 parts of 2 clock trees, 256 functions, 256 contexts, 16 partitions, 1,024 submission rings,
4,096 host windows, 12 firmware services (00_scope). -/
def Instr.wf : Instr → Bool
  | .porstNAssert => true
  | .porstNRelease _ _ => true
  | .railOutOfRange _ => true
  | .timerefLost => true
  | .timerefReturn => true
  | .timeDegradedClear => true
  | .sdsRefclkLost group => decide (group < 3)
  | .hbmRefclkLost cluster => decide (cluster < 10)
  | .clockTreeStop tree => decide (tree < 80)
  | .partRejoin part => decide (part < 40)
  | .clockSwitch tree => decide (tree < 80)
  | .pllLossOfLock region => decide (region < 10)
  | .dieToDieLinkFailure _ => true
  | .thermalWarnCrossing _ _ => true
  | .hardwareThrottle _ _ => true
  | .throttleRelease _ _ => true
  | .thermalShutdown _ _ => true
  | .governorTrip _ => true
  | .firmwareAssertion proc => decide (proc < 23)
  | .railSensorRead _ _ _ => true
  | .paceCheck _ _ => true
  | .pointChange _ _ => true
  | .pointChangeSettled _ => true
  | .pointChangeTimeout _ => true
  | .powerWindowEnd _ => true
  | .powerProjection _ _ _ => true
  | .panStartAdmission pan _ => decide (pan < 960)
  | .panRampDown pan _ => decide (pan < 960)
  | .tapInstruction _ => true
  | .managementStage _ _ _ => true
  | .stackTraining stack _ _ _ _ => decide (stack < 20)
  | .memoryReady => true
  | .bootImageWaitExpiry => true
  | .firmwareStart => true
  | .bootReady => true
  | .engineResetRequest _ _ => true
  | .engineResetHoldEnd _ _ => true
  | .watchdogHeartbeat proc _ => decide (proc < 23)
  | .watchdogExpiry proc => decide (proc < 23)
  | .configRequest func _ => decide (func ≤ 256)
  | .functionLevelReset func => decide (func < 256)
  | .hotReset => true
  | .link0Down => true
  | .link1Down => true
  | .link1Up => true
  | .hostReadError reader => match reader with
    | .service svc => decide (1 ≤ svc ∧ svc ≤ 12)
    | .ring _ => true
    | .admin _ => true
    | .funcEvents _ => true
    | .ctxEvents _ => true
    | .imageLoad => true
  | .atsInvalidation func => decide (func < 256)
  | .registerWrite func bar _ _ _ => decide (func < 256 ∧ (bar = 0 ∨ bar = 2))
  | .negotiate func => decide (func < 256)
  | .enable func => decide (func < 256)
  | .functionDisable func => decide (func < 256)
  | .hifPartCfgWrite part _ => decide (part < 16)
  | .hifVfCfgWrite vf _ => decide (1 ≤ vf ∧ vf < 256)
  | .hostWindowEnable win _ => decide (win < 4096)
  | .hostWindowDisable win => decide (win < 4096)
  | .hostWindowDrained win => decide (win < 4096)
  | .hifPartRegionsWrite part _ => decide (part < 16)
  | .hifPartRtWrite part _ => decide (part < 16)
  | .sluiceWrite part _ _ => decide (part < 16)
  | .horizonEnable _ => true
  | .horizonDisable => true
  | .hznDomainWrite reg _ => decide (reg < 64)
  | .serviceLoad svc => decide (1 ≤ svc ∧ svc ≤ 12)
  | .serviceUnload svc => decide (1 ≤ svc ∧ svc ≤ 12)
  | .cfgLoadStart => true
  | .cfgLoadAbort => true
  | .mgtPwrLimitWrite _ => true
  | .clearFf => true
  | .telemetryEnable _ => true
  | .submissionDoorbell func ring _ => decide (func < 256 ∧ ring < 1024)
  | .adminDoorbell func _ => decide (func < 256)
  | .nop ring => decide (ring < 1024)
  | .execBuffer ring => decide (ring < 1024)
  | .launch ring => decide (ring < 1024)
  | .unload ring => decide (ring < 1024)
  | .ctxCreate _ => true
  | .ctxDestroy _ => true
  | .ringCreate _ => true
  | .ringDestroy _ => true
  | .fenceCreate _ => true
  | .fenceShare _ => true
  | .fenceRelease _ => true
  | .fenceSignal _ => true
  | .objCreate _ => true
  | .objMapHost _ => true
  | .objUnmap _ => true
  | .objExport _ => true
  | .objImport _ => true
  | .objWithdraw _ => true
  | .eventRingFullRecheck ctx => decide (ctx < 256)
  | .eventRingFullTimeout ctx => decide (ctx < 256)
  | .functionEventRingRecheck func => decide (func < 256)
  | .moderationExpiry ring => match ring with
    | .ctx c => decide (c < 256)
    | .func f => decide (f < 256)
  | .queueAdmission core _ => decide (core < 480)
  | .matmul _ => true
  | .attend _ => true
  | .vop _ => true
  | .reduce _ => true
  | .softmax _ => true
  | .norm _ => true
  | .activate _ => true
  | .rope _ => true
  | .topk _ => true
  | .sample _ => true
  | .stats _ => true
  | .quant _ => true
  | .requant _ => true
  | .dequant _ => true
  | .mask _ => true
  | .rndfill _ => true
  | .copy _ => true
  | .gather _ => true
  | .scatter _ => true
  | .mcast _ => true
  | .multicastReservationGrant cluster => decide (cluster < 10)
  | .prefetch _ => true
  | .saveRes _ => true
  | .restoreRes _ => true
  | .wait _ => true
  | .signal _ => true
  | .event _ => true
  | .barrier _ => true
  | .waitTimeoutExpiry _ => true
  | .waitCycleScan => true
  | .send _ => true
  | .recv _ => true
  | .allreduce _ => true
  | .allgather _ => true
  | .rscatter _ => true
  | .ringpass _ => true
  | .patch _ => true
  | .replay _ => true
  | .runStart _ => true
  | .chain _ => true
  | .softCall _ => true
  | .coreCall _ => true
  | .callTimeout _ => true
  | .panOperationIssue pan => decide (pan < 960)
  | .weightSetLoad pan => decide (pan < 960)
  | .weightSetComplete pan => decide (pan < 960)
  | .frameEmit _ _ => true
  | .routeStallTimeout _ => true
  | .commandCommit _ => true
  | .streamGroupCommit _ => true
  | .preemptWaitExpiry core _ => decide (core < 480)
  | .killComplete _ => true
  | .parityError store cluster core pan addr _ _ => decide (cluster < 10 ∧ store < 15 ∧ (core < 48 ∨ core = 63) ∧ pan < 2 ∧ addr < 2 ^ 26)
  | .pageZeroingComplete res page _ => decide (page < if res then 10240 else 15360)
  | .subpageZeroingComplete stack sub _ => decide (stack < 20 ∧ sub < 2 ^ 20)
  | .translationInvalidationComplete _ _ => true
  | .sluiceWindow => true
  | .refresh stack => decide (stack < 20)
  | .retraining stack pc _ => decide (stack < 20 ∧ pc < 64)
  | .scrubRead stack _ => decide (stack < 20)
  | .train port _ => decide (port < 36)
  | .trainingTimeout port => decide (port < 36)
  | .portDown port => decide (port < 36)
  | .linkAckTimeout port => decide (port < 36)
  | .data port _ => decide (port < 36)
  | .ack port _ => decide (port < 36)
  | .nak port _ => decide (port < 36)
  | .retransmitTimeout port => decide (port < 36)
  | .ackKeepalive port => decide (port < 36)
  | .rts port _ => decide (port < 36)
  | .cts port _ => decide (port < 36)
  | .refuse port _ => decide (port < 36)
  | .busy port _ => decide (port < 36)
  | .rtsRetry _ => true
  | .segDone port _ => decide (port < 36)
  | .segmentTimeout _ _ => true
  | .done port _ => decide (port < 36)
  | .abort port _ => decide (port < 36)
  | .groupAbort port _ => decide (port < 36)
  | .horizonInactivityTimeout _ => true
  | .remoteSignal port _ => decide (port < 36)
  | .remoteSignalDrop => true
  | .timeSyncWindow => true
  | .sync port _ _ => decide (port < 36)
  | .follow port _ => decide (port < 36)
  | .req port _ _ => decide (port < 36)
  | .resp port _ => decide (port < 36)
  | .timeSyncFault => true
  | .load _ => true
  | .readback _ => true
  | .endWord _ => true
  | .chainForward _ => true
  | .subImageHeader _ => true
  | .subImageReceived _ => true
  | .loadCommit _ => true
  | .applyComplete => true
  | .join part => decide (part < 40)
  | .joinTimeout part => decide (part < 40)
  | .replyHeader part _ _ => decide (part < 40)
  | .replyFrame part _ _ => decide (part < 40)
  | .unsolicited part => decide (part < 40)
  | .svcWait svc => decide (1 ≤ svc ∧ svc ≤ 12)
  | .svcDone svc _ _ _ _ => decide (1 ≤ svc ∧ svc ≤ 12)
  | .svcTime svc => decide (1 ≤ svc ∧ svc ≤ 12)
  | .svcLog svc _ => decide (1 ≤ svc ∧ svc ≤ 12)
  | .svcYield svc => decide (1 ≤ svc ∧ svc ≤ 12)
  | .serviceProgramEnd svc _ => decide (1 ≤ svc ∧ svc ≤ 12)
  | .crysOpen _ => true
  | .crysClose _ => true
  | .crysStatus _ => true
  | .servingStep ctx => decide (ctx < 256)
  | .crystallizerSampling ctx => decide (ctx < 256)
  | .setEndpointId eid => decide (eid < 256)
  | .getEndpointId => true
  | .getMctpVersionSupport => true
  | .getMessageTypeSupport => true
  | .getStatus => true
  | .readSensors _ _ _ => true
  | .readCt _ _ => true
  | .setPwrLimit _ => true
  | .readLog _ _ => true
  | .logStatus => true
  | .logWrite => true
  | .coalescingWindowEnd => true
  | .telemetrySample => true
  | .subpageTaggingComplete stack sub => decide (stack < 20 ∧ sub < 2 ^ 20)
  | .saveResTimeout _ => true
  | .trainFrameSend port => decide (port < 36)
  | .warnRelease _ _ => true
  | .invalidCommandWord _ => true

end Sys2Proof
end

