-- ==== Sys2Proof/Safety.lean ====
section
/-! DEFINITION. What claims about the machine are stated in: the areas of State, how a state may follow another, and the
invariant of the machine. -/

namespace Sys2Proof.Machine

/-- The areas of State apart from the queue, the fuses, the host's memory, the outputs and the count of free values. -/
inductive Area where
  | pins | tap | time | hub | vfEnable | numVfs | funcs | msix
  | msixEnable | msixMask | windows | parts | tokens | sluWindow | ctxs | trans
  | tlb | fences | fenceFresh | fenceFreed | fenceLower | remoteDrop | rings | ringTaken
  | ringTakenLc | objs | nextObj | hbm | chip | pans | units | clusters
  | power | log | telem | secs | nextSec | cmds | replays | scanSet
  | hzn | svcs | sessions | nextSession | xparts | loader | invals | atsInvals
  | eid
deriving DecidableEq, Repr

/-- Two states agree in an area. -/
def Area.same (s t : State) : Area → Prop
  | .pins => t.pins = s.pins
  | .tap => t.tap = s.tap
  | .time => t.time = s.time
  | .hub => t.hub = s.hub
  | .vfEnable => t.vfEnable = s.vfEnable
  | .numVfs => t.numVfs = s.numVfs
  | .funcs => t.funcs = s.funcs
  | .msix => t.msix = s.msix
  | .msixEnable => t.msixEnable = s.msixEnable
  | .msixMask => t.msixMask = s.msixMask
  | .windows => t.windows = s.windows
  | .parts => t.parts = s.parts
  | .tokens => t.tokens = s.tokens
  | .sluWindow => t.sluWindow = s.sluWindow
  | .ctxs => t.ctxs = s.ctxs
  | .trans => t.trans = s.trans
  | .tlb => t.tlb = s.tlb
  | .fences => t.fences = s.fences
  | .fenceFresh => t.fenceFresh = s.fenceFresh
  | .fenceFreed => t.fenceFreed = s.fenceFreed
  | .fenceLower => t.fenceLower = s.fenceLower
  | .remoteDrop => t.remoteDrop = s.remoteDrop
  | .rings => t.rings = s.rings
  | .ringTaken => t.ringTaken = s.ringTaken
  | .ringTakenLc => t.ringTakenLc = s.ringTakenLc
  | .objs => t.objs = s.objs
  | .nextObj => t.nextObj = s.nextObj
  | .hbm => t.hbm = s.hbm
  | .chip => t.chip = s.chip
  | .pans => t.pans = s.pans
  | .units => t.units = s.units
  | .clusters => t.clusters = s.clusters
  | .power => t.power = s.power
  | .log => t.log = s.log
  | .telem => t.telem = s.telem
  | .secs => t.secs = s.secs
  | .nextSec => t.nextSec = s.nextSec
  | .cmds => t.cmds = s.cmds
  | .replays => t.replays = s.replays
  | .scanSet => t.scanSet = s.scanSet
  | .hzn => t.hzn = s.hzn
  | .svcs => t.svcs = s.svcs
  | .sessions => t.sessions = s.sessions
  | .nextSession => t.nextSession = s.nextSession
  | .xparts => t.xparts = s.xparts
  | .loader => t.loader = s.loader
  | .invals => t.invals = s.invals
  | .atsInvals => t.atsInvals = s.atsInvals
  | .eid => t.eid = s.eid

/-- Every area but those listed is as it was. -/
def ChangesOnly (l : List Area) (s t : State) : Prop := ∀ a : Area, a ∉ l → a.same s t

/-- What an output does to the host's memory: a posted write stores its bytes (R335, R347). -/
def OutEvent.apply (m : Mem) (e : OutEvent) : Mem :=
  match e with
  | .hostWrite _ _ a bs => m.wrN a bs
  | _ => m

/-- Outputs are only added, and the host's memory changes by the posted writes among them alone. -/
def Posted (s t : State) : Prop :=
  ∃ es : List OutEvent, t.out = s.out ++ es ∧ t.hostMem = es.foldl OutEvent.apply s.hostMem

/-- Whether a posted write among the outputs stores to a host address. -/
def OutEvent.stores (a : Nat) (e : OutEvent) : Bool :=
  match e with
  | .hostWrite _ _ b bs => decide (b ≤ a ∧ a < b + bs.length)
  | _ => false

/-- The build is as it was, and fuses only blow: a revoked key stays revoked, and the rollback counter of 64 bits in unary
does not fall (R463, R464). -/
structure PartFuses.Blown (p q : PartFuses) : Prop where
  build : ∃ kr rb, q = { p with keyRevoked := kr, rollback := rb }
  revoked : ∀ k : Nat, p.keyRevoked.getD k false = true → q.keyRevoked.getD k false = true
  rollback : min p.rollback 64 ≤ q.rollback

/-- The memories keep their canonical form. -/
def Hbm.canonical (h : Hbm) : Prop := Memory.wf h.data = true ∧ Memory.wf h.flips = true
def OnChip.canonical (c : OnChip) : Prop := Memory.wf c.cm = true ∧ Memory.wf c.rs = true

/-- The regions of the log keep their size: 16,384 first-failure slots, and 1,024 records in the hub's queue (R506, R508). -/
def BitLog.bounded (l : BitLog) : Prop := l.ff.length ≤ ffSlots ∧ l.queue.length ≤ 1024

/-- The invariant of the machine. -/
structure State.Inv (s : State) : Prop where
  host : Memory.wf s.hostMem = true
  hbm : s.hbm.canonical
  chip : s.chip.canonical
  log : s.log.bounded
  stage : s.hub.stage ≤ 7

/-- A command's outcome is a next state of which P holds. -/
def Yields (i : Instr) (s : State) (P : State → Prop) : Prop := ∃ t, exec i s = .next t ∧ P t

end Sys2Proof.Machine
end

