-- ==== Sys2Proof/Certificates/Slice0/Obligations.lean ====
section
/-! DEFINITION. The statements about the machine. Each group states, for the commands that its docstring names, that the
command completes and what its next state holds; the last ones are about every command. -/

namespace Sys2Proof.Machine

/-- The areas of State that a register, clock, power, log, fence, object or link command may change at all (none for the commands that may lose a
context or the device, or reset the engine). -/
def footprint : Instr → Option (List Area)
  | .readback _ | .svcTime _ | .svcYield _ | .getEndpointId | .getMctpVersionSupport | .getMessageTypeSupport | .readSensors _ _ _
    | .readCt _ _ | .readLog _ _ | .logStatus => some []
  | .clockSwitch _ => some [.xparts]
  | .railSensorRead _ _ _ | .setPwrLimit _ => some [.power]
  | .tapInstruction _ => some [.tap]
  | .link1Down | .link1Up | .getStatus => some [.pins]
  | .atsInvalidation _ => some [.atsInvals]
  | .functionDisable _ => some [.funcs]
  | .hostWindowDisable _ | .hostWindowDrained _ => some [.windows]
  | .clearFf => some [.log]
  | .subpageZeroingComplete _ _ _ | .refresh _ => some [.hbm]
  | .ackKeepalive _ => some [.hzn]
  | .timeSyncWindow => some [.time]
  | .load _ | .chainForward _ | .invalidCommandWord _ => some [.loader]
  | .svcWait _ => some [.svcs]
  | .setEndpointId _ => some [.eid]
  | .timerefReturn => some [.pins, .time]
  | .firmwareStart => some [.hub, .loader]
  | .watchdogHeartbeat _ _ => some [.time, .hub]
  | .multicastReservationGrant _ => some [.clusters, .secs]
  | .weightSetComplete _ => some [.pans, .cmds]
  | .trainingTimeout _ | .rtsRetry _ | .segmentTimeout _ _ | .remoteSignalDrop => some [.time, .hzn]
  | .svcLog _ _ | .logWrite => some [.pins, .log]
  | .panStartAdmission _ _ | .panRampDown _ _ => some [.time, .pans, .power]
  | .stackTraining _ _ _ _ _ => some [.pins, .hbm, .log]
  | .bootImageWaitExpiry => some [.time, .hub, .loader]
  | .negotiate _ | .enable _ | .adminDoorbell _ _ => some [.pins, .funcs, .log]
  | .runStart _ => some [.parts, .pans, .secs]
  | .ack _ _ | .nak _ _ => some [.pins, .log, .hzn]
  | .timeSyncFault | .coalescingWindowEnd => some [.pins, .time, .log]
  | .powerProjection _ _ _ => some [.pins, .time, .power, .log]
  | .bootReady => some [.pins, .hub, .funcs, .log]
  | .hifVfCfgWrite _ _ => some [.pins, .funcs, .msix, .log]
  | .hostWindowEnable _ _ => some [.pins, .funcs, .windows, .log]
  | .hifPartRegionsWrite _ _ => some [.pins, .funcs, .parts, .log]
  | .hznDomainWrite _ _ => some [.pins, .funcs, .log, .hzn]
  | .cfgLoadStart => some [.pins, .funcs, .log, .loader]
  | .mgtPwrLimitWrite _ => some [.pins, .funcs, .power, .log]
  | .telemetryEnable _ | .telemetrySample => some [.pins, .funcs, .log, .telem]
  | .submissionDoorbell _ _ _ => some [.pins, .funcs, .rings, .log]
  | .moderationExpiry _ => some [.time, .funcs, .msix, .ctxs]
  | .sluiceWindow => some [.time, .tokens, .sluWindow, .cmds]
  | .retransmitTimeout _ | .sync _ _ _ | .follow _ _ | .req _ _ _ | .resp _ _ => some [.pins, .time, .log, .hzn]
  | .cts _ _ | .busy _ _ | .segDone _ _ => some [.pins, .log, .cmds, .hzn]
  | .timerefLost | .timeDegradedClear | .functionEventRingRecheck _ => some [.pins, .time, .funcs, .msix, .log]
  | .hifPartCfgWrite _ _ | .hifPartRtWrite _ _ | .sluiceWrite _ _ _ => some [.pins, .funcs, .msix, .parts, .log]
  | .serviceLoad _ => some [.pins, .funcs, .hbm, .log, .svcs]
  | .ctxCreate _ => some [.pins, .funcs, .msix, .ctxs, .log]
  | .ringCreate _ => some [.pins, .funcs, .msix, .rings, .log]
  | .fenceShare _ => some [.pins, .funcs, .msix, .fences, .log]
  | .objExport _ | .objWithdraw _ => some [.pins, .funcs, .msix, .objs, .log]
  | .join _ => some [.pins, .funcs, .msix, .log, .xparts]
  | .subpageTaggingComplete _ _ => some [.pins, .funcs, .msix, .hbm, .log]
  | .sdsRefclkLost _ | .horizonEnable _ | .horizonDisable | .train _ _ | .portDown _ | .trainFrameSend _ => some [.pins, .funcs, .msix, .parts, .log, .hzn]
  | .partRejoin _ => some [.pins, .time, .funcs, .msix, .log, .xparts]
  | .paceCheck _ _ | .pointChange _ _ | .pointChangeSettled _ => some [.pins, .funcs, .msix, .parts, .clusters, .log]
  | .cfgLoadAbort | .endWord _ | .subImageHeader _ | .subImageReceived _ => some [.pins, .hub, .funcs, .msix, .log, .loader]
  | .objUnmap _ => some [.pins, .funcs, .msix, .objs, .log, .invals]
  | .frameEmit _ _ => some [.msix, .tokens, .units, .clusters, .secs, .cmds]
  | .thermalWarnCrossing _ _ | .hardwareThrottle _ _ | .throttleRelease _ _ | .warnRelease _ _ => some [.pins, .funcs, .msix, .parts, .clusters, .power, .log]
  | .pointChangeTimeout _ => some [.pins, .time, .funcs, .msix, .parts, .clusters, .log]
  | .fenceCreate _ => some [.pins, .funcs, .msix, .fences, .fenceFresh, .fenceFreed, .log]
  | .fenceRelease _ => some [.pins, .funcs, .msix, .fences, .fenceFreed, .log, .cmds]
  | .fenceSignal _ => some [.pins, .funcs, .msix, .fences, .fenceLower, .log, .cmds]
  | .objImport _ => some [.pins, .funcs, .msix, .trans, .objs, .hbm, .log]
  | .panOperationIssue _ => some [.msix, .pans, .units, .clusters, .power, .secs, .cmds]
  | .linkAckTimeout _ => some [.pins, .time, .funcs, .msix, .parts, .log, .hzn]
  | .remoteSignal _ _ => some [.pins, .fences, .fenceLower, .remoteDrop, .log, .cmds, .hzn]
  | .applyComplete => some [.pins, .hub, .funcs, .msix, .log, .xparts, .loader]
  | .joinTimeout _ => some [.pins, .time, .funcs, .msix, .log, .xparts, .loader]
  | .powerWindowEnd _ => some [.pins, .time, .funcs, .msix, .parts, .clusters, .power, .log]
  | .objCreate _ | .objMapHost _ => some [.pins, .funcs, .msix, .trans, .objs, .nextObj, .hbm, .log]
  | .pageZeroingComplete _ _ _ => some [.pins, .funcs, .msix, .ctxs, .trans, .hbm, .chip, .log]
  | .loadCommit _ => some [.pins, .time, .hub, .funcs, .msix, .log, .xparts, .loader]
  | .translationInvalidationComplete _ _ => some [.pins, .funcs, .msix, .ctxs, .trans, .tlb, .objs, .hbm, .chip, .log, .invals]
  | .preemptWaitExpiry _ _ => some [.time, .msix, .windows, .parts, .pans, .units, .clusters, .secs, .cmds, .svcs, .xparts, .atsInvals]
  | _ => none

/-- What only its own commands change: the TAP, PCIe's own registers, the fence slots never used, the count of dropped remote
signals, the next object handle, telemetry and the endpoint ID. -/
def always : List Area := [.tap, .vfEnable, .numVfs, .msixEnable, .msixMask, .fenceFresh, .remoteDrop, .nextObj, .telem, .eid, .sluWindow]

/-- The areas that the other commands leave as they are, whatever fails on the way. -/
def untouched : Instr → List Area
  | .porstNRelease _ _ | .railOutOfRange _ | .hbmRefclkLost _ | .dieToDieLinkFailure _ | .thermalShutdown _ _ | .governorTrip _
    | .firmwareAssertion _ =>
      always ++ [.time, .windows, .parts, .tokens, .trans, .tlb, .fences, .fenceFreed, .fenceLower, .ringTaken, .ringTakenLc, .objs, .hbm, .chip, .units, .clusters, .secs, .nextSec, .scanSet, .svcs, .sessions, .nextSession, .loader, .invals]
  | .engineResetHoldEnd _ _ | .watchdogExpiry _ =>
      always ++ [.windows, .parts, .tokens, .trans, .tlb, .fences, .fenceFreed, .fenceLower, .ringTaken, .ringTakenLc, .objs, .hbm, .chip, .units, .clusters, .secs, .nextSec, .scanSet, .svcs, .sessions, .nextSession, .loader, .invals]
  | .managementStage _ _ _ =>
      always ++ [.windows, .parts, .tokens, .trans, .tlb, .fences, .fenceFreed, .fenceLower, .ringTaken, .ringTakenLc, .objs, .hbm, .units, .clusters, .secs, .nextSec, .scanSet, .svcs, .sessions, .nextSession, .loader, .invals]
  | .memoryReady =>
      always ++ [.time, .windows, .parts, .tokens, .trans, .tlb, .fences, .fenceFreed, .fenceLower, .ringTaken, .ringTakenLc, .objs, .chip, .units, .clusters, .secs, .nextSec, .scanSet, .svcs, .sessions, .nextSession, .invals]
  | .retraining _ _ _ =>
      always ++ [.time, .windows, .tokens, .trans, .tlb, .fences, .fenceFreed, .fenceLower, .ringTaken, .ringTakenLc, .objs, .chip, .units, .clusters, .secs, .nextSec, .scanSet, .svcs, .sessions, .nextSession, .loader, .invals]
  | .ringDestroy _ =>
      always ++ [.time, .hub, .tokens, .trans, .tlb, .fences, .fenceFreed, .fenceLower, .ringTaken, .ringTakenLc, .objs, .hbm, .chip, .power, .nextSec, .scanSet, .hzn, .sessions, .nextSession, .loader, .invals]
  | .killComplete _ =>
      always ++ [.time, .windows, .tokens, .ringTaken, .ringTakenLc, .nextSec, .scanSet, .svcs, .nextSession, .loader]
  | .clockTreeStop _ | .pllLossOfLock _ | .functionLevelReset _ | .hotReset | .link0Down | .serviceUnload _ | .ctxDestroy _
    | .queueAdmission _ _ | .wait _ | .signal _ | .event _ | .barrier _ | .patch _ | .replay _ | .softCall _ | .coreCall _
    | .weightSetLoad _ | .commandCommit _ | .streamGroupCommit _ | .parityError _ _ _ _ _ _ _ | .scrubRead _ _ | .data _ _ | .rts _ _
    | .refuse _ _ | .done _ _ | .abort _ _ | .groupAbort _ _ | .replyHeader _ _ _ | .replyFrame _ _ _ | .unsolicited _ | .svcDone _ _ _ _ _
    | .crysClose _ | .crysStatus _ | .servingStep _ | .crystallizerSampling _ =>
      always ++ [.time, .tokens, .ringTaken, .ringTakenLc, .nextSec, .scanSet, .nextSession, .loader]
  | .hostReadError _ =>
      always ++ [.time, .tokens, .ringTaken, .ringTakenLc, .nextSec, .scanSet, .nextSession]
  | .eventRingFullRecheck _ | .eventRingFullTimeout _ | .waitTimeoutExpiry _ | .callTimeout _ | .routeStallTimeout _
    | .horizonInactivityTimeout _ | .serviceProgramEnd _ _ | .saveResTimeout _ =>
      always ++ [.tokens, .ringTaken, .ringTakenLc, .nextSec, .scanSet, .nextSession, .loader]
  | .matmul _ | .attend _ | .vop _ | .reduce _ | .softmax _ | .norm _ | .activate _ | .rope _ | .topk _ | .sample _ | .stats _ | .quant _
    | .requant _ | .dequant _ | .mask _ | .rndfill _ | .copy _ | .gather _ | .scatter _ | .mcast _ | .prefetch _ | .saveRes _
    | .restoreRes _ | .send _ | .recv _ | .allreduce _ | .allgather _ | .rscatter _ | .ringpass _ | .chain _ =>
      always ++ [.time, .ringTaken, .ringTakenLc, .nextSec, .scanSet, .nextSession, .loader]
  | .crysOpen _ =>
      always ++ [.time, .tokens, .ringTaken, .ringTakenLc, .nextSec, .scanSet, .loader]
  | .nop _ | .execBuffer _ | .unload _ =>
      always ++ [.time, .tokens, .nextSec, .scanSet, .nextSession, .loader]
  | .waitCycleScan =>
      always ++ [.tokens, .ringTaken, .ringTakenLc, .nextSec, .nextSession, .loader]
  | .launch _ =>
      always ++ [.time, .tokens, .scanSet, .nextSession, .loader]
  | .configRequest _ _ =>
      [.tap, .time, .tokens, .sluWindow, .fenceFresh, .remoteDrop, .ringTaken, .ringTakenLc, .nextObj, .telem, .nextSec, .scanSet, .nextSession, .loader, .eid]
  | _ => []

/-- The device is lost to an uncontained fault: its cause and unit are kept, no command stays in flight, every context is lost
with status 0x0802, no pan runs, every horizon port is held down and every part clamped (R526, R530). -/
structure LosesDevice (s t : State) (cause unit : Nat) : Prop where
  lost : t.hub.lost = true
  registers : t.hub.cause = cause ∧ t.hub.unit = unit ∧ t.hub.faultTime = t.time.now
  emergency : t.hub.emergency = true
  commands : t.cmds = [] ∧ t.replays = []
  contexts : ∀ c : Nat, (s.cx c).life ≠ .free → (t.cx c).life = .lost
  status : ∀ c : Nat, (s.cx c).life = .live → (t.cx c).lossStatus = 0x0802
  pans : ∀ p : Nat, (t.pan p).run ≠ .running ∧ (t.pan p).run ≠ .waiting
  ports : ∀ p : Nat, (t.port p).st = 3
  parts : ∀ p : Nat, (t.xp p).clamped = true
  rings : ∀ r : Nat, (t.rg r).work = .idle

/-- The commands that are uncontained faults, with CAUSE and the unit of the fault (R32, R40, R497, R502, R524, R526). -/
def uncontainedFault (s : State) : Instr → Option (Nat × Nat)
  | .railOutOfRange rail => if (10 ≤ rail ∧ rail ≤ 16) ∨ rail < s.part.clusters then some (1, rail) else none
  | .governorTrip rail => some (2, rail)
  | .thermalShutdown sensor t16 => if s.sensorPresent sensor = true ∧ 16 * 115 ≤ t16 then some (3, sensor) else none
  | .hbmRefclkLost c => if c < 10 ∧ s.clPresent c = true then some (4, c) else none
  | .retraining k pc passed =>
    if k < 20 ∧ pc < 64 ∧ passed = false ∧ s.stackRuns k = true ∧ (s.stk k).rate = 64 then some (6, k) else none
  | .firmwareAssertion p => if p < 23 then some (7, (procUnit p).2) else none
  | .watchdogExpiry p => if p < 23 ∧ s.hub.watched.getLsbD p = true then some (8, (procUnit p).2) else none
  | .dieToDieLinkFailure l => some (10, l)
  | .parityError store c core pan addr _ again =>
    if c < 10 ∧ 9 ≤ store ∧ store < 15 ∧ (core < 48 ∨ core = 63) ∧ pan < 2 ∧ addr < 2 ^ 26 ∧ again = true then some (5, if store < 13 then c else 0) else none
  | _ => none

/-- A frame of a TYPE and OP that a port takes: the port is up, and the frame's CRC, fields and addresses are legal (R400, R404). -/
structure Arrives (s : State) (p : Nat) (frame : List Byte) (typ op : Nat) : Prop where
  port : p < 36
  running : s.portOn p = true
  up : (s.port p).st = 2
  crc : frameOk frame = true
  legal : fieldsLegal frame (parseFr frame) = true
  address : s.addressOk p (parseFr frame) = true
  kind : (parseFr frame).typ = typ ∧ (parseFr frame).op = op

/-- A DATA or CTRL frame for this engine that comes next in its port's sequence and finds a free buffer (R401, R402). -/
structure Accepted (s : State) (p : Nat) (frame : List Byte) (typ op : Nat) : Prop where
  arrives : Arrives s p frame typ op
  mine : (parseFr frame).dst = s.hzn.engineId
  next : cdist 16 (parseFr frame).seq (s.port p).expected = 0
  room : if (parseFr frame).vc = 1 then (s.port p).rxCtrl < 32 else (s.port p).rxBulk < 512

/-- A command that is a frame's arrival: its port, its bytes, and the TYPE and OP of its row. -/
def frameOf : Instr → Option (Nat × List Byte × Nat × Nat)
  | .data p b => some (p, b, 1, 0)
  | .rts p b => some (p, b, 2, 1)
  | .cts p b => some (p, b, 2, 2)
  | .refuse p b => some (p, b, 2, 3)
  | .segDone p b => some (p, b, 2, 4)
  | .done p b => some (p, b, 2, 5)
  | .abort p b => some (p, b, 2, 6)
  | .groupAbort p b => some (p, b, 2, 7)
  | .remoteSignal p b => some (p, b, 2, 8)
  | .busy p b => some (p, b, 2, 9)
  | .ack p b => some (p, b, 3, 0)
  | .nak p b => some (p, b, 4, 0)
  | .sync p b _ => some (p, b, 5, 1)
  | .follow p b => some (p, b, 5, 2)
  | .req p b _ => some (p, b, 5, 3)
  | .resp p b => some (p, b, 5, 4)
  | _ => none

/-- The bytes of a TIME frame that a port sends (R414). -/
def State.timeFrame (s : State) (p op dst : Nat) (payload : List Byte) : List Byte :=
  Fr.bytes { typ := 5, vc := 1, op, ack := (s.port p).expected, dst, src := s.hzn.engineId, payload }

/-- A context has been lost with a status (R528, R529), or the device itself has been, by a fault met on the way, which loses every context
with its own status (R530). -/
def LostWith (s t : State) (c status : Nat) : Prop :=
  (t.cx c).life = .lost ∧ ((t.cx c).lossStatus = status ∨ (s.hub.lost = false ∧ t.hub.lost = true))

/-- The scrubber of a running stack visits a line next on the line's pseudo-channel (R304). -/
def ScrubTurn (s : State) (k l : Nat) : Prop :=
  k < 20 ∧ s.stackRuns k = true ∧ l < 2 ^ 30 ∧ 64 * l < s.dataBytes k ∧ (s.stk k).scrub.get 0 (pseudoChannel (64 * l)) = scrubPlace (64 * l)

/-- It is an operation's turn: the function's admin ring runs, and the descriptor at its head is this operation's, keeps its reserved bits
0 and names a context that the function owns (R336, R337, R359). -/
structure AdminTurn (s : State) (f op : Nat) : Prop where
  ready : s.adminReady f = true
  opcode : at1 (s.adminDesc f) 0 = op
  known : adminOps.contains op = true
  reserved : reservedOk (s.adminDesc f) (adminFields op) = true
  owns : op = 0x10 ∨ s.ownsCtx f (at1 (s.adminDesc f) 2) = true

/-- The head descriptor has been taken, and its operation has completed. -/
def AdminOver (s t : State) (f : Nat) : Prop :=
  (t.fn f).adminHead = ((s.fn f).adminHead + 1) % 2 ^ 32 ∧ (t.fn f).adminCur = none

/-- The function of an admin operation's command. -/
def adminFunc : Instr → Option Nat
  | .ctxCreate f | .ctxDestroy f | .ringCreate f | .ringDestroy f | .fenceCreate f | .fenceShare f | .fenceRelease f
  | .fenceSignal f | .objCreate f | .objMapHost f | .objUnmap f | .objExport f | .objImport f | .objWithdraw f => some f
  | _ => none

/-- A load has ended with a status: staging is zeroed and LAST_LOAD carries the status (R471, R472). -/
def LoadEnded (s t : State) (status : Nat) : Prop :=
  t.loader.st = 0 ∧ t.loader.staging = [] ∧ t.loader.lastStatus = status ∧ t.loader.loads = (s.loader.loads + 1) % 2 ^ 32

/-- A descriptor is taken: the ring is ready and served next, its context is live, and the descriptor at its head is of this operation and well
formed (R328 to R330, R364). -/
structure RingTurn (s : State) (r op : Nat) : Prop where
  slot : r < 1024
  ready : s.ringReady r = true
  next : s.nextRing = some r
  live : (s.cx (s.rg r).ctx).life = .live
  opcode : at1 (s.ringDesc r) 0 = op
  valid : ringDescOk (s.ringDesc r) = true
  aligned : ringDescAligned (s.ringDesc r) = true

/-- The command of the unit commands that run a body of their own: reference, opcode and body. -/
def unitBody : Instr → Option (CmdRef × Nat × Body)
  | .matmul r => some (r, 0x00, bodyMatmul)
  | .attend r => some (r, 0x01, bodyAttend)
  | .vop r => some (r, 0x20, bodyVop)
  | .reduce r => some (r, 0x21, bodyReduce)
  | .softmax r => some (r, 0x22, bodySoftmax)
  | .norm r => some (r, 0x23, bodyNorm)
  | .activate r => some (r, 0x24, bodyActivate)
  | .rope r => some (r, 0x25, bodyRope)
  | .topk r => some (r, 0x26, bodyTopk)
  | .sample r => some (r, 0x27, bodySample)
  | .stats r => some (r, 0x40, bodyStats)
  | .quant r => some (r, 0x41, bodyQuant)
  | .requant r => some (r, 0x42, bodyRequant)
  | .dequant r => some (r, 0x43, bodyDequant)
  | .mask r => some (r, 0x60, bodyMask)
  | .rndfill r => some (r, 0x61, bodyRndfill)
  | .copy r => some (r, 0x80, bodyCopy)
  | .gather r => some (r, 0x81, bodyGather)
  | .scatter r => some (r, 0x82, bodyScatter)
  | _ => none

/-- The body that a command of a unit runs now: its own, or one that the state of its section gives (R224, R387, R388). -/
def RunsBody (s : State) (i : Instr) (ref : CmdRef) (op : Nat) (b : Body) : Prop :=
  unitBody i = some (ref, op, b)
  ∨ (i = .prefetch ref ∧ op = 0x84 ∧ b = bodyCopy ∧ ∃ k, s.cmd? ref = some k ∧ fld (at1 k.word 12) 0 2 = 0)
  ∨ (i = .mcast ref ∧ op = 0x83 ∧ ∃ k h st n f, ref = .station h st n ∧ s.cmd? ref = some k ∧ mcSender k.word = false
      ∧ k.phase = .issued ∧ s.tileFor h st n = some f ∧ b = bodyMcastReceive f)
  ∨ (i = .saveRes ref ∧ op = 0x85 ∧ ∃ k h, s.cmd? ref = some k ∧ k.skipped = false ∧ s.swapTarget k = .ok h ∧ (s.sec h).swapped = false ∧ s.inRun h = false
      ∧ b = bodySaveRes (s.savedImage h))
  ∨ (i = .restoreRes ref ∧ op = 0x86 ∧ ∃ k h, s.cmd? ref = some k ∧ k.skipped = false ∧ s.swapTarget k = .ok h ∧ s.inRun h = false ∧ b = bodyRestoreRes h)

/-- A unit may execute a station's command of its queue now (R208, R254, R366). -/
structure UnitTurn (s : State) (ref : CmdRef) (op : Nat) (u : Nat) (k : Cmd) : Prop where
  held : s.cmd? ref = some k
  opcode : cOp k.word = op
  place : ∃ h st n, ref = .station h st n ∧ (s.sec h).unitFor st k.word = some u
  may : s.mayRun u ref = true

/-- Event W of R208: the last write is staged, and the unit has let the command go; nothing is written yet. -/
def Worked (s t : State) (ref : CmdRef) (u : Nat) (a : Acc) (infos : List RecInfo) : Prop :=
  (∀ k, s.cmd? ref = some k → t.cmd? ref = some { k with
      staged := k.staged ++ a.prod.staged, regWrites := k.regWrites ++ a.prod.regs, descTs := k.descTs ++ a.prod.ts, infos, taken := [], phase := .written })
    ∧ ref ∉ (t.un u).queue ∧ (t.un u).cur = (if a.prod.frames.isEmpty then none else some ref)
    ∧ t.hostMem = s.hostMem ∧ t.hbm = s.hbm ∧ t.chip = s.chip

/-- A command that its unit runs, skipped: it writes nothing and emits the EMPTY frames of its routes. -/
def SkipsAs (s : State) (i : Instr) (ref : CmdRef) (op : Nat) : Prop :=
  (∃ b, unitBody i = some (ref, op, b))
  ∨ (i = .prefetch ref ∧ op = 0x84 ∧ ∃ k, s.issued? ref 0x84 = some k ∧ fld (at1 k.word 12) 0 2 = 0)
  ∨ (i = .mcast ref ∧ op = 0x83 ∧ ∃ k, s.issued? ref 0x83 = some k ∧ k.skipped = true ∧ mcSender k.word = false)
  ∨ (i = .saveRes ref ∧ op = 0x85 ∧ ∃ k, s.issued? ref 0x85 = some k ∧ k.skipped = true)
  ∨ (i = .restoreRes ref ∧ op = 0x86 ∧ ∃ k, s.issued? ref 0x86 = some k ∧ k.skipped = true)

/-- A command of the sequencer, taken up when it is its program's next (R147, R200), is in flight as issued in the state u, and is
not skipped. -/
structure Turn (s u : State) (ref : CmdRef) (op : Nat) (k : Cmd) : Prop where
  taken : u = s.takeUp ref op
  issued : u.issued? ref op = some k
  runs : k.skipped = false

/-- What a DATA or CTRL frame does to its link before the message layer sees it: its ACK, its number, its buffer and its credits (R401,
R402). -/
def State.linkTook (s : State) (p : Nat) (frame : List Byte) : State :=
  ((s.takeAck p (parseFr frame).ack).updPort p fun q => { q with
    expected := (q.expected + 1) % 65536
    rxBulk := if (parseFr frame).vc = 1 then q.rxBulk else q.rxBulk + 1
    rxCtrl := if (parseFr frame).vc = 1 then q.rxCtrl + 1 else q.rxCtrl }).takeCredits p (parseFr frame)

/-- A horizon command, taken up when it is its program's next, that may start: permitted, with its frames in and its requests charged (R375, R407).
v is the state in which it starts. -/
structure HznTurn (s v : State) (ref : CmdRef) (op : Nat) (k : Cmd) : Prop where
  starts : ∃ u c, u = s.takeUp ref op ∧ u.issued? ref op = some c ∧ c.skipped = false ∧ u.hzn.domainOf c.ctx ≠ 0 ∧ u.framesIn c = true ∧ c.held = []
    ∧ (let w := if c.step % 2 = 1 then u else (u.chargeHzn c).chargeCmd c
       w.cmd? ref = some k ∧ v = w.updCmd ref fun k => { k with phase := .executing, lastMove := w.time.now })
  free : k.held = []

/-- A part's call in progress with its command (R449). -/
def State.partCall (s : State) (p : Nat) (c : XCall) (k : Cmd) : Prop := (s.xp p).call = some c ∧ s.cmd? c.ref = some k ∧ k.ref = c.ref

end Sys2Proof.Machine

open Sys2Proof Sys2Proof.Machine

/-- A STEP RUNS THE COMMAND AT THE FRONT. The step is exec of the front command with the queue's rest; with nothing waiting the
time base counts one nanosecond while PORST_N is high (log entry 7). -/
def Obligations.StepRunsTheFrontCommand : Prop :=
  (∀ (s : State) (c : Instr) (rest : List Instr), step { s with pending := c :: rest } = exec c { s with pending := rest })
  ∧ (∀ s : State, s.pending = [] → step s = .next s.tick)

/-- RESET. After PORST_N is asserted nothing is loaded, enabled or in flight; every stack, port, part, service and function is at its reset
state; partitions admit at OP2 with a wait of 200; and the invariant holds. -/
def Obligations.ResetState : Prop :=
  State.reset.Inv ∧ State.reset.pending = [] ∧ State.reset.pins.porstN = false ∧ State.reset.hub.stage = 1 ∧ State.reset.hub.lost = false
    ∧ State.reset.cmds = [] ∧ State.reset.hostMem = [] ∧ State.reset.log.ff = []
    ∧ (∀ c, (State.reset.cx c).life = .free) ∧ (∀ i, (State.reset.fe i).life = .free ∧ (State.reset.fe i).gen = 1)
    ∧ (∀ r, (State.reset.rg r).live = false) ∧ (∀ k, (State.reset.stk k).st = 0) ∧ (∀ p, (State.reset.port p).st = 3)
    ∧ (∀ p, (State.reset.xp p).st = 1 ∧ (State.reset.xp p).clamped = true) ∧ (∀ v, (State.reset.svc v).st = 0)
    ∧ (∀ p, fld (State.reset.pt p).rt.toNat 0 3 = 2 ∧ fld (State.reset.pt p).rt.toNat 8 12 = 200) ∧ (∀ f, (State.reset.fn f).enable = false)

/-- THE INVARIANT IS KEPT. Every step, from every state, keeps the invariant: the memories in their canonical form, the log within its regions,
the boot stage within 0 to 7. -/
def Obligations.StepKeepsTheInvariant : Prop :=
  ∀ s t : State, s.Inv → step s = .next t → t.Inv

/-- EVERY WELL-FORMED COMMAND COMPLETES. A command whose operands name units of the layout has a next state in every state; one that names a unit beyond it
stops, and names what does not exist (log entry 1). -/
def Obligations.WellFormedCommandsComplete : Prop :=
  (∀ (i : Instr) (s : State), i.wf = true → ∃ t, exec i s = .next t)
  ∧ (∀ (i : Instr) (s : State), i.wf = false → ∃ w, exec i s = .fault (.noSuchUnit w))

/-- FUSED UNITS STAY ABSENT (R23). No command, whatever firmware, patch capsule or configuration image it stands for, changes a grade fuse or a
fuse mask, so that no absent unit is ever present again; and keys that are revoked stay revoked. -/
def Obligations.FusedUnitsStayAbsent : Prop :=
  ∀ (i : Instr) (s t : State), exec i s = .next t →
    t.part.clusterMask = s.part.clusterMask ∧ t.part.coreMask = s.part.coreMask ∧ t.part.stackMask = s.part.stackMask
      ∧ t.part.portMask = s.part.portMask ∧ t.part.regionMask = s.part.regionMask
      ∧ (∀ c, t.clPresent c = s.clPresent c) ∧ (∀ g, t.corePresent g = s.corePresent g) ∧ (∀ k, t.stackFitted k = s.stackFitted k)
      ∧ (∀ p, t.portPresent p = s.portPresent p) ∧ (∀ p, t.partPresent p = s.partPresent p) ∧ s.part.Blown t.part

/-- THE QUEUE IS FIRST IN, FIRST OUT. A command changes no other command that waits, a step takes the front one away, and the count of free values
never falls, so that none is drawn twice. -/
def Obligations.QueueOrder : Prop :=
  (∀ (i : Instr) (s t : State), exec i s = .next t → t.pending = s.pending ∧ s.free ≤ t.free)
  ∧ (∀ s t : State, step s = .next t → t.pending = s.pending.tail)

/-- HOST MEMORY. The engine changes host memory by its posted writes alone, and every byte that no posted write of the step stores reads as
before (R208, R335, R347). -/
def Obligations.HostMemoryChangesByPostedWrites : Prop :=
  ∀ s t : State, step s = .next t → ∃ es : List OutEvent, t.out = s.out ++ es ∧ t.hostMem = es.foldl OutEvent.apply s.hostMem
    ∧ ∀ a : Nat, (∀ e ∈ es, e.stores a = false) → t.hostMem.rd a = s.hostMem.rd a

/-- A LOST DEVICE STAYS LOST (step 6 of R530) until an engine reset or PORST_N. -/
def Obligations.LostUntilReset : Prop :=
  ∀ (i : Instr) (s t : State), s.hub.lost = true → exec i s = .next t →
    t.hub.lost = true ∨ i = .porstNAssert ∨ (∃ w v, i = .engineResetRequest w v) ∨ ∃ f b o w v, i = .registerWrite f b o w v

/-- RECORDS OF THE LOG (R509). A record goes to the next slot of the circular region over the oldest one; of CLASS 2 or 3 also to the first-failure
region while that has a free slot, in slot order; a full region shows FF_FULL; and no command but PF0's clear, a
reset or a register write that makes one, overwrites a first-failure record. -/
def Obligations.RecordsOfTheLog : Prop :=
  (∀ (s : State) (r : LogRec), (s.seal r).log.circ.get {} s.log.wpos = { r with seq := s.log.nextSeq }
      ∧ (s.seal r).log.wpos = (s.log.wpos + 1) % 114688 ∧ (s.seal r).log.nextSeq = (s.log.nextSeq + 1) % 2 ^ 32
      ∧ (∀ j, j ≠ s.log.wpos → (s.seal r).log.circ.get {} j = s.log.circ.get {} j)
      ∧ (s.seal r).log.ff = if 2 ≤ r.cls ∧ s.log.ff.length < 16384 then s.log.ff ++ [{ r with seq := s.log.nextSeq }] else s.log.ff)
  ∧ (∀ l : BitLog, l.ff.length = 16384 → l.nextSeq < 2 ^ 32 → bit l.status 47 = true)
  ∧ (∀ (s : State) (r : LogRec) (q : List LogRec), s.log.queue = r :: q → s.hubUp = true → s.log.dropped = 0 →
      exec .logWrite s = .next (State.seal { s with log := { s.log with queue := q } } r))
  ∧ (∀ (i : Instr) (s t : State), exec i s = .next t → s.log.ff <+: t.log.ff ∨ i = .clearFf ∨ i = .porstNAssert
      ∨ (∃ w v, i = .engineResetRequest w v) ∨ ∃ f b o w v, i = .registerWrite f b o w v)

/-- THE TAP (R53). EXTEST, CLAMP and HIGHZ are executed while PORST_N is asserted, and as BYPASS at any other time; nothing else of the engine
changes.
Completes: tapInstruction. -/
def Obligations.TapBoundaryInstructions : Prop :=
  ∀ (s : State) (c : TapCode), c = .extest ∨ c = .clamp ∨ c = .highz →
    exec (.tapInstruction c) s = .next ({ s with tap := if s.pins.porstN then .bypass else c }.emit (.tap (if s.pins.porstN then .bypass else c)))

/-- AN ENGINE RESET EMPTIES EVERY PART (R476): clamped, held in reset, without exports, in STATE 1.
Completes: engineResetRequest. -/
def Obligations.EngineResetEmptiesParts : Prop :=
  ∀ (s : State) (w v : Nat), s.pins.porstN = true → w = 32 ∨ w = 64 → fld v 0 16 = 0xD9E5 → s.pins.thermtrip = false → s.hub.resetAsked = false →
    Yields (.engineResetRequest w v) s fun t => ∀ p, (t.xp p).clamped = true ∧ (t.xp p).rst = true ∧ (t.xp p).softIds = [] ∧ (t.xp p).st = 1

/-- FRAMES OF REGISTER, CLOCK, POWER, LOG, FENCE, OBJECT AND LINK COMMANDS. Each leaves every area of the state as it was but those that its row may change. -/
def Obligations.FramesOfRegisterCommands : Prop :=
  ∀ (i : Instr) (l : List Area) (s t : State), footprint i = some l → exec i s = .next t → ChangesOnly l s t

/-- FRAMES OF EXECUTION, COMPLETION AND FAULT COMMANDS. Whatever a command that may lose a context or the device does, it leaves the areas listed for it as
they were. -/
def Obligations.FramesOfExecutionCommands : Prop :=
  ∀ (i : Instr) (s t : State) (a : Area), a ∈ untouched i → exec i s = .next t → a.same s t

/-- POWER-ON RESET AND BOOT. PORST_N_ASSERT returns everything to reset but the fuses, the host's memory, the TAP's instruction, the log's
records, BOOT_COUNT and the ramp-down of pans with its charges (R49, R53). PORST_N_RELEASE begins boot: with its clocks present and its
checks passed the part is config-ready (R517 step 1), and each check that fails halts it with its cause (R42, R520). MANAGEMENT_STAGE ends
in stage 3 with every rail at OP2 and pages that fail their test retired; FIRMWARE_START arms the watchdogs; BOOT_READY ends in stage 6.
Completes: porstNAssert, porstNRelease, managementStage, firmwareStart, bootReady. -/
def Obligations.PowerOnAndBoot : Prop :=
  (∀ s : State, Yields .porstNAssert s fun t =>
    ChangesOnly [.pins, .tap, .hub, .log, .pans, .power] State.reset t
      ∧ t.pins.porstN = false ∧ t.pins.thermtrip = false ∧ t.pins.smbAlert = false ∧ t.hub = { bootCount := s.hub.bootCount }
      ∧ t.part = s.part ∧ t.hostMem = s.hostMem ∧ t.tap = s.tap
      ∧ t.out = s.out ++ (if s.tapRuns = tapExecutes s.part.tapLockIntact false s.tap then [] else [.tap (tapExecutes s.part.tapLockIntact false s.tap)])
      ∧ t.log = { s.log with queue := [], lost := 0, dropped := 0, table := [], region := false, index := 0, window := 0 }
      ∧ t.power = { charges := s.power.charges, epoch := s.power.epoch + s.time.now }
      ∧ ∀ p : Nat, (t.pan p).run ≠ .running ∧ (t.pan p).run ≠ .waiting)
  ∧ (∀ s : State, s.pins.porstN = false → s.pins.timeref = true → (∀ c < 10, s.clPresent c = true → s.pins.hbmRefAbsent.get false c = false) →
      Yields (.porstNRelease true true) s fun t => ChangesOnly [.pins, .hub] s t ∧ t.pins.porstN = true
        ∧ t.hub = { s.hub with
          stage := 1, booting := true, bootE := s.time.now, bootCount := (s.hub.bootCount + 1) % 2 ^ 32, configReady := true })
  ∧ (∀ (s : State) (rom fuse : Bool), s.pins.porstN = false → s.pins.timeref = false →
      Yields (.porstNRelease rom fuse) s fun t => t.hub.stage = 7 ∧ t.hub.haltCause = 1 ∧ t.hub.booting = false)
  ∧ (∀ (s : State) (rom fuse : Bool), s.pins.porstN = false → s.pins.timeref = true → rom = false ∨ fuse = false →
      (∀ c < 10, s.clPresent c = true → s.pins.hbmRefAbsent.get false c = false) →
      Yields (.porstNRelease rom fuse) s fun t => t.hub.stage = 7 ∧ t.hub.haltCause = (if rom = false then 3 else 4) ∧ t.hub.booting = false)
  ∧ (∀ (s : State) (cm rs : List Nat), s.pins.porstN = true → s.hub.booting = true → s.hub.stage = 1 → s.hub.holdReset = false →
      Yields (.managementStage none cm rs) s fun t =>
        t.hub.stage = 3 ∧ t.hub.watched = s.hub.watched ||| 1 ∧ t.hub.beats.get 0 0 = s.time.now ∧ t.hub.memReadyAt = s.time.now
          ∧ t.hub.mgmtMs = (s.time.now - s.hub.bootE) / 1000000 % 65536 ∧ t.time = { s.time with unnoted := false }
          ∧ (∃ more, t.out = s.out ++ ((List.range 10).filter s.clPresent).map (fun c => OutEvent.avsWrite c 750) ++ more
              ∧ (s.time.unnoted = false → more = []))
          ∧ t.chip.booted = true ∧ t.chip.cm = [] ∧ t.chip.rs = []
          ∧ (∀ p ∈ cm, (t.chip.cmPages.get {} p).st = 3) ∧ (∀ p ∈ rs, (t.chip.rsPages.get {} p).st = 3)
          ∧ (∀ p ∉ cm, t.chip.cmPages.get {} p = {}) ∧ (∀ p ∉ rs, t.chip.rsPages.get {} p = {}))
  ∧ (∀ (s : State) (l : Nat) (cm rs : List Nat), s.pins.porstN = true → s.hub.booting = true → s.hub.stage = 1 → s.hub.holdReset = false →
      Yields (.managementStage (some l) cm rs) s fun t => t.hub.stage = 7 ∧ t.hub.haltCause = 5 ∧ t.hub.booting = false)
  ∧ (∀ s : State, s.pins.porstN = true → s.hub.booting = true → s.hub.stage = 5 → s.hub.watched.getLsbD 1 = false →
      Yields .firmwareStart s fun t =>
        t.loader = { s.loader with patchLocked := true }
          ∧ (∀ p < 23, (1 ≤ p ∧ p ≤ 8) ∨ 19 ≤ p ∨ (9 ≤ p ∧ p ≤ 18 ∧ s.clPresent (p - 9) = true) →
              t.hub.watched.getLsbD p = true ∧ t.hub.beats.get 0 p = s.time.now))
  ∧ (∀ s : State, s.pins.porstN = true → s.hub.booting = true → s.hub.stage = 5 → s.hub.watched.getLsbD 1 = true →
      Yields .bootReady s fun t =>
        t.hub = { s.hub with
          stage := 6, booting := false, resetAsked := false, readyMs := (s.time.now - s.hub.bootE) / 1000000 % 65536
          patched := s.loader.patchLevel != 0 }
          ∧ ∀ f : Nat, (t.fn f).heldNeg = false)

/-- UNCONTAINED FAULTS. At Ready an uncontained fault loses the device, whatever the state (R526, R530); the overtemperature
shutdown asserts THERMTRIP_N and SMB_ALERT_N (R502). Before Ready it halts boot with cause 7 (R520). A double error of a SEC-DED store is one too
(R122; the numbers of the stores are the model's, log entry 75).
Completes: railOutOfRange, hbmRefclkLost, dieToDieLinkFailure, thermalShutdown, governorTrip, firmwareAssertion, watchdogExpiry. -/
def Obligations.UncontainedFaultLosesDevice : Prop :=
  (∀ (i : Instr) (s : State) (cause unit : Nat), uncontainedFault s i = some (cause, unit) →
      s.pins.porstN = true → s.hub.stage = 6 → s.hub.lost = false →
      Yields i s fun t => LosesDevice s t cause unit ∧ t.hub.stage = 6 ∧ (cause = 3 → t.pins.thermtrip = true ∧ t.pins.smbAlert = true))
  ∧ (∀ (i : Instr) (s : State) (cause unit : Nat), uncontainedFault s i = some (cause, unit) →
      s.pins.porstN = true → 3 ≤ s.hub.stage → s.hub.stage < 6 →
      Yields i s fun t => t.hub.stage = 7 ∧ t.hub.haltCause = 7 ∧ t.hub.booting = false)

/-- WATCHDOGS, TIMEREF AND THE TAP. A heartbeat of a watched processor is stamped on the time base (R524). A lost TIMEREF
degrades the time base, which its return, once stable, and with SYNC_EN 1 the lock end (R38). The TAP holds the instruction it is given and
runs its public ones; every other code needs an intact debug-lock fuse, and EXTEST, CLAMP and HIGHZ need PORST_N low (R52, R53).
Completes: watchdogHeartbeat, timerefLost, timerefReturn, timeDegradedClear, tapInstruction. -/
def Obligations.TimeBaseAndTap : Prop :=
  (∀ (s : State) (p t : Nat), p < 23 → s.hub.watched.getLsbD p = true →
      exec (.watchdogHeartbeat p t) s = .next { s with
        time := { s.time with now := max s.time.now t }, hub := { s.hub with beats := s.hub.beats.put p t } })
  ∧ (∀ s : State, s.pins.porstN = true → s.pins.timeref = true →
      Yields .timerefLost s fun t => t.pins.timeref = false
        ∧ t.time = { s.time with onOsc := true, degraded := true, lostAt := s.time.now, returnedAt := none, unnoted := !s.hubUp })
  ∧ (∀ s : State, s.pins.porstN = true → s.time.onOsc = true →
      exec .timerefReturn s = .next { s with
        pins := { s.pins with timeref := true }
        time := { s.time with onOsc := false, returnedAt := some s.time.now, inLock := 0, sync := 1 } })
  ∧ (∀ (s : State) (r : Nat), s.hubUp = true → s.time.returnedAt = some r → s.time.degraded = true → s.time.onOsc = false →
      (s.hzn.timeCtrl.getLsbD 7 = true → s.time.sync = 2) →
      Yields .timeDegradedClear s fun t => t.time = { s.time with degraded := false, returnedAt := none })
  ∧ (∀ (s : State) (c : TapCode), (∀ n, c = .other n → s.part.tapLockIntact = true) →
      (c = .extest ∨ c = .clamp ∨ c = .highz → s.pins.porstN = false) →
      exec (.tapInstruction c) s = .next { s with tap := c, out := s.out ++ [.tap c] })
  ∧ (∀ (s : State) (c : TapCode), (∃ n, c = .other n ∧ s.part.tapLockIntact = false)
        ∨ ((c = .extest ∨ c = .clamp ∨ c = .highz) ∧ s.pins.porstN = true) →
      exec (.tapInstruction c) s = .next { s with tap := c, out := s.out ++ [.tap .bypass] })

/-- OPERATING POINTS AND POWER. A pace below 1.03 of the floor rate raises the core voltage by 5 mV while the trim allows it, and
below the floor rate sets PACE_LOW (R488). A point change starts with its AVSBus write and ends settled or rolled back (R490).
A power window is accounted and ends the hold, a projection at the hold level begins it (R499, R500). While a change runs the set point is not
trimmed (R28).
Completes: railSensorRead, paceCheck, pointChange, pointChangeSettled, pointChangeTimeout, powerWindowEnd, powerProjection,
mgtPwrLimitWrite. -/
def Obligations.OperatingPointsAndPower : Prop :=
  (∀ (s : State) (v a : List Nat) (e : Bool), s.hubUp = true →
      Yields (.railSensorRead v a e) s fun t => t.power.estimated = e
        ∧ (∀ i < v.length, i < 40 → (i < 20 → s.clPresent (i / 2) = true) → (20 ≤ i → i < 30 → s.clPresent (i - 20) = true) →
            t.power.volts.get 0x8000 i = v.getD i 0 % 65536)
        ∧ ∀ i < a.length, i < 16 → (i < 10 → s.clPresent i = true) → t.power.currs.get 0x8000 i = a.getD i 0 % 65536)
  ∧ (∀ (s : State) (c pace : Nat), s.hubUp = true → s.clPresent c = true → 103 * floorRate (s.cl c).point ≤ 100 * pace →
      Yields (.paceCheck c pace) s fun t => t.cl c = { s.cl c with pace := pace % 65536 } ∧ t.out = s.out)
  ∧ (∀ (s : State) (c pace : Nat), s.hubUp = true → s.clPresent c = true → (s.cl c).moving = true →
      Yields (.paceCheck c pace) s fun t => t.cl c = { s.cl c with pace := pace % 65536 } ∧ t.out = s.out)
  ∧ (∀ (s : State) (c pace : Nat), s.hubUp = true → s.clPresent c = true → 100 * pace < 103 * floorRate (s.cl c).point →
      (s.cl c).moving = false → (s.cl c).trim + 5 ≤ 20 → pointMv (s.cl c).point + (s.cl c).trim + 5 ≤ 850 →
      Yields (.paceCheck c pace) s fun t => t.cl c = { s.cl c with pace := pace % 65536, trim := (s.cl c).trim + 5 }
        ∧ t.out = s.out ++ [.avsWrite c (pointMv (s.cl c).point + (s.cl c).trim + 5)])
  ∧ (∀ (s : State) (c pace : Nat), s.hubUp = true → s.clPresent c = true → pace < floorRate (s.cl c).point → (s.cl c).moving = false →
      (20 < (s.cl c).trim + 5 ∨ 850 < pointMv (s.cl c).point + (s.cl c).trim + 5) → (s.cl c).paceLow = false →
      Yields (.paceCheck c pace) s fun t => t.cl c = { s.cl c with pace := pace % 65536, paceLow := true })
  ∧ (∀ (s : State) (c b : Nat), s.mayChange c b = true →
      Yields (.pointChange c b) s fun t => (t.cl c).moving = true ∧ (t.cl c).target = b ∧ (t.cl c).movedAt = s.time.now
        ∧ (t.cl c).point = (s.cl c).point
        ∧ ∃ more, t.out = s.out ++ .avsWrite c (pointMv b + (s.cl c).trim) :: more)
  ∧ (∀ (s : State) (c : Nat), (s.cl c).moving = true →
      Yields (.pointChangeSettled c) s fun t => (t.cl c).point = (s.cl c).target ∧ (t.cl c).moving = false)
  ∧ (∀ (s : State) (c : Nat), (s.cl c).moving = true →
      Yields (.pointChangeTimeout c) s fun t => (t.cl c).point = (s.cl c).point ∧ (t.cl c).moving = false ∧ (t.cl c).noRaise = true
        ∧ t.time.now = max s.time.now ((s.cl c).movedAt + 1000000)
        ∧ ∃ more, t.out = s.out ++ .avsWrite c (pointMv (s.cl c).point + (s.cl c).trim) :: more)
  ∧ (∀ (s : State) (w : Nat), s.hubUp = true →
      Yields (.powerWindowEnd w) s fun t => t.power.windows = (w :: s.power.windows).take 10 ∧ t.power.last = w
        ∧ t.power.hold = false ∧ t.power.held = s.power.hold ∧ t.time.now = max s.time.now ((s.power.window + 1) * 1000000)
        ∧ t.power.window = max s.time.now ((s.power.window + 1) * 1000000) / 1000000)
  ∧ (∀ (s : State) (t e p : Nat), s.hubUp = true →
      s.limitInForce * (if s.power.tight then 10 else 12) * 1000000 ≤ 10 * (e + p * ((t / 1000000 + 1) * 1000000 - t))
        ∨ s.limitInForce * (if s.power.tight then 10 else 12) ≤ 10 * p →
      Yields (.powerProjection t e p) s fun u => u.power.hold = true ∧ u.power.held = true ∧ u.pins.smbAlert = true)
  ∧ (∀ (s : State) (v : Nat), s.ready = true → (v % 4096 = 0 ∨ (800 ≤ v % 4096 ∧ v % 4096 ≤ 3200)) →
      exec (.mgtPwrLimitWrite v) s = .next { s with power := { s.power with limit := v % 4096 } })

/-- TEMPERATURE. A sensor at WARN slows its cluster by one point and alerts; at 105 °C hardware throttles the cluster to
point 4, or the hub; both end once the sensors have cooled (R501).
Completes: thermalWarnCrossing, warnRelease, hardwareThrottle, throttleRelease. -/
def Obligations.Temperature : Prop :=
  (∀ (s : State) (n : Nat) (t16 : Int), s.hubUp = true → s.sensorPresent n = true → 16 * (s.power.warn : Int) ≤ t16 →
      Yields (.thermalWarnCrossing n t16) s fun t => t.pins.smbAlert = true ∧ t.power.temps.get 0x8000 n = uwrap 16 t16
        ∧ (n < 50 → (t.cl (n / 5)).warned = true
          ∧ ((s.cl (n / 5)).moving = false → (s.cl (n / 5)).point < 4 →
              (t.cl (n / 5)).moving = true ∧ (t.cl (n / 5)).target = (s.cl (n / 5)).point + 1)))
  ∧ (∀ (s : State) (c : Nat) (ts : List Int), s.hubUp = true → (s.cl c).warned = true → ts.length = 5 →
      (∀ x ∈ ts, x < 16 * ((s.power.warn : Int) - 3)) →
      Yields (.warnRelease c ts) s fun t => (t.cl c).warned = false
        ∧ ∀ i < 5, t.power.temps.get 0x8000 (5 * c + i) = uwrap 16 (ts.getD i 0))
  ∧ (∀ (s : State) (n : Nat) (t16 : Int), s.pins.porstN = true → s.sensorPresent n = true → 16 * 105 ≤ t16 →
      Yields (.hardwareThrottle n t16) s fun t => t.power.temps.get 0x8000 n = uwrap 16 t16
        ∧ (n < 50 → (t.cl (n / 5)).throttle = true ∧ (t.cl (n / 5)).effective = 4 ∧ (t.cl (n / 5)).capRate = 950)
        ∧ (50 ≤ n → t.power.hubThrottle = true))
  ∧ (∀ (s : State) (d : Nat) (ts : List Int), d < 10 → (s.cl d).throttle = true → ts.length = 5 → (∀ x ∈ ts, x < 16 * 102) →
      Yields (.throttleRelease d ts) s fun t => (t.cl d).throttle = false)
  ∧ (∀ (s : State) (d : Nat) (ts : List Int), 10 ≤ d → s.power.hubThrottle = true → ts.length = 14 → (∀ x ∈ ts, x < 16 * 102) →
      Yields (.throttleRelease d ts) s fun t => t.power.hubThrottle = false ∧ t.clusters = s.clusters)

/-- FRAMES. A frame whose CRC fails is counted, and answered with NAK unless it is a TIME frame (R401). A DATA or CTRL frame that
repeats one received is answered with ACK, one after a gap with NAK, and neither is accepted: what the engine expects stays
(R401). One that is accepted advances what the port expects. -/
def Obligations.FrameSequence : Prop :=
  (∀ (i : Instr) (s : State) (p : Nat) (b : List Byte) (typ op : Nat), frameOf i = some (p, b, typ, op) → p < 36 →
      s.portOn p = true → (s.port p).st = 2 → frameOk b = false →
      Yields i s fun t => t.hzn.crcErrs = satinc 32 s.hzn.crcErrs ∧ (t.port p).expected = (s.port p).expected
        ∧ t.hzn.msgs = s.hzn.msgs ∧ t.cmds = s.cmds ∧ t.fences = s.fences
        ∧ if typ = 5 then t.out = s.out else ∃ f : Fr, f.typ = 4 ∧ f.ack = (s.port p).expected ∧ t.out = s.out ++ [.frame p f.bytes])
  ∧ (∀ (i : Instr) (s : State) (p : Nat) (b : List Byte) (typ op : Nat), frameOf i = some (p, b, typ, op) → typ = 1 ∨ typ = 2 →
      Arrives s p b typ op → cdist 16 (parseFr b).seq (s.port p).expected ≠ 0 →
      (s.port p).window ≤ cdist 16 (parseFr b).seq (s.port p).expected →
      65536 ≤ (s.port p).window + cdist 16 (parseFr b).seq (s.port p).expected →
      Yields i s fun t => (t.port p).expected = (s.port p).expected ∧ t.hzn.msgs = s.hzn.msgs ∧ t.cmds = s.cmds ∧ t.fences = s.fences
        ∧ ∃ f : Fr, f.typ = 3 ∧ f.ack = (s.port p).expected ∧ t.out = s.out ++ [.frame p f.bytes])
  ∧ (∀ (i : Instr) (s : State) (p : Nat) (b : List Byte) (typ op : Nat), frameOf i = some (p, b, typ, op) → typ = 1 ∨ typ = 2 →
      Arrives s p b typ op → cdist 16 (parseFr b).seq (s.port p).expected ≠ 0 →
      cdist 16 (parseFr b).seq (s.port p).expected < (s.port p).window →
      Yields i s fun t => (t.port p).expected = (s.port p).expected ∧ t.hzn.msgs = s.hzn.msgs ∧ t.cmds = s.cmds ∧ t.fences = s.fences
        ∧ ∃ f : Fr, f.typ = 4 ∧ f.ack = (s.port p).expected ∧ t.out = s.out ++ [.frame p f.bytes])

/-- LINKS. TRAIN ends training with the smaller window, the peer's credits and fresh sequence numbers; TRAIN_FRAME_SEND sends this
engine's parameters; a timeout starts training over (R398). A port that loses its lock, or waits too long for an
acknowledgement, goes down, delivers what it held elsewhere and trains again; a port without its clock stays down
(R39, R399).
Completes: train, trainFrameSend, trainingTimeout, portDown, linkAckTimeout, sdsRefclkLost. -/
def Obligations.LinkTraining : Prop :=
  (∀ (s : State) (p : Nat) (b : List Byte), p < 36 → s.portOn p = true → (s.port p).st = 1 →
      s.pins.sdsAbsent.get false (p / 12) = false → frameOk b = true → (parseFr b).typ = 6 → (parseFr b).len = 1 →
      fieldsLegal b (parseFr b) = true → s.addressOk p (parseFr b) = true → at2 (parseFr b).payload 0 ≤ 0x0100 → 0x0100 ≤ at2 (parseFr b).payload 2 →
      (s.hzn.toSwitch p = false → leAt (parseFr b).payload 11 3 = s.hzn.peer p) → s.hzn.held = [] → s.hzn.signals = [] →
      Yields (.train p b) s fun t => (t.port p).st = 2 ∧ (t.port p).window = min 512 (at2 (parseFr b).payload 4)
        ∧ (t.port p).crBulk = at2 (parseFr b).payload 6 ∧ (t.port p).crCtrl = at2 (parseFr b).payload 8
        ∧ (t.port p).txSeq = 0 ∧ (t.port p).expected = 0 ∧ (t.port p).retry = [] ∧ (t.port p).mismatch = false
        ∧ ((s.port p).pcsLocked = false → (t.port p).lanes ∈ [4, 2, 1])
        ∧ ((s.port p).pcsLocked = true → (t.port p).lanes = (s.port p).lanes))
  ∧ (∀ (s : State) (p : Nat), p < 36 → s.portOn p = true → (s.port p).st = 1 → (s.port p).pcsLocked = true →
      s.pins.sdsAbsent.get false (p / 12) = false →
      exec (.trainFrameSend p) s = .next { s with
        out := s.out ++ [.frame p (Fr.bytes { typ := 6, dst := s.hzn.peer p, src := s.hzn.engineId, payload := s.trainPayload p })] })
  ∧ (∀ (s : State) (p : Nat), p < 36 → s.portOn p = true → (s.port p).st = 1 → (s.port p).mismatch = false →
      Yields (.trainingTimeout p) s fun t => t.time.now = max s.time.now ((s.port p).since + 500000000)
        ∧ t.port p = { st := 1, since := max s.time.now ((s.port p).since + 500000000) })
  ∧ (∀ (s : State) (p : Nat), p < 36 → s.portOn p = true → (s.port p).st = 2 → s.pins.sdsAbsent.get false (p / 12) = false →
      Yields (.portDown p) s fun t => (t.port p).st = 1 ∧ (t.port p).retry = [] ∧ (t.port p).waitq = [] ∧ (t.port p).since = s.time.now)
  ∧ (∀ (s : State) (p : Nat), p < 36 → s.portOn p = true → (s.port p).st = 2 → (s.port p).retry ≠ [] →
      s.pins.sdsAbsent.get false (p / 12) = false →
      Yields (.linkAckTimeout p) s fun t => (t.port p).st = 1 ∧ (t.port p).retry = [] ∧ (t.port p).waitq = []
        ∧ ((s.port p).retrans < 64 → t.time.now = max s.time.now ((s.port p).lastAck + 1000000)))
  ∧ (∀ (s : State) (g : Nat), g < 3 →
      Yields (.sdsRefclkLost g) s fun t => t.pins.sdsAbsent.get false g = true
        ∧ ∀ p : Nat, 12 * g ≤ p → p < 12 * g + 12 → s.portOn p = true → ((s.port p).st = 1 ∨ (s.port p).st = 2) → (t.port p).st = 0)

/-- RETRY AND CREDITS. ACK frees the acknowledged frames and returns credits; NAK and the retransmit timer send every frame that
is not acknowledged again, in order; ACK_KEEPALIVE acknowledges what has been received (R401, R402).
Completes: ack, nak, retransmitTimeout, ackKeepalive. -/
def Obligations.LinkRetry : Prop :=
  (∀ (s : State) (p : Nat) (b : List Byte), Arrives s p b 3 0 → (s.port p).waitq = [] →
      (∀ e ∈ (s.port p).retry.head?, 0 < cdist 16 (parseFr b).ack e.1 ∧ cdist 16 (parseFr b).ack e.1 ≤ (s.port p).retry.length) →
      Yields (.ack p b) s fun t =>
        (∀ e ∈ (s.port p).retry.head?, (t.port p).retry = (s.port p).retry.drop (cdist 16 (parseFr b).ack e.1)
          ∧ (t.port p).retrans = 0 ∧ (t.port p).lastAck = s.time.now)
        ∧ (t.port p).crBulk = (s.port p).crBulk + (parseFr b).cr0 ∧ (t.port p).crCtrl = (s.port p).crCtrl + (parseFr b).cr1
        ∧ t.out = s.out)
  ∧ (∀ (s : State) (p : Nat) (b : List Byte), Arrives s p b 4 0 → (s.port p).waitq = [] →
      (∀ e ∈ (s.port p).retry.head?, (parseFr b).ack % 65536 = e.1 % 65536) →
      Yields (.nak p b) s fun t =>
        t.out = s.out ++ (s.port p).retry.map (fun e => .frame p (e.2 ++ leBytes 4 (crc32 e.2))) ∧ (t.port p).retry = (s.port p).retry)
  ∧ (∀ (s : State) (p : Nat), p < 36 → s.portOn p = true → (s.port p).st = 2 → (s.port p).retry ≠ [] →
      Yields (.retransmitTimeout p) s fun t =>
        t.out = s.out ++ (s.port p).retry.map (fun e => .frame p (e.2 ++ leBytes 4 (crc32 e.2))) ∧ (t.port p).retry = (s.port p).retry
          ∧ (t.port p).retrans = (s.port p).retrans + 1
          ∧ t.time.now = max s.time.now ((s.port p).lastAck + 10000 * ((s.port p).retrans + 1)))
  ∧ (∀ (s : State) (p : Nat), p < 36 → s.portOn p = true → (s.port p).st = 2 →
      Yields (.ackKeepalive p) s fun t =>
        t.out = s.out ++ [.frame p (Fr.bytes { typ := 3, ack := (s.port p).expected, cr0 := min (s.port p).rxBulk 15
                                               cr1 := min (s.port p).rxCtrl 15, dst := s.hzn.peer p, src := s.hzn.engineId })]
          ∧ (t.port p).rxBulk = (s.port p).rxBulk - min (s.port p).rxBulk 15
          ∧ (t.port p).rxCtrl = (s.port p).rxCtrl - min (s.port p).rxCtrl 15)

/-- THE HORIZON'S REGISTERS. ENABLE starts the present, enabled ports' training and its clearing takes every port to OFF, where the
Engine ID stays; a domain is written while its context has no resident horizon section (R315, R398, R405). A held remote
signal is dropped after 2,000 ms (R413).
Completes: horizonEnable, horizonDisable, hznDomainWrite, remoteSignalDrop. -/
def Obligations.HorizonRegisters : Prop :=
  (∀ (s : State) (v : Nat), s.ready = true → bit v 32 = true → s.hzn.enabled = false → bit v 17 = false →
      Yields (.horizonEnable v) s fun t => t.hzn.enabled = true ∧ t.hzn.engineId = v % 2 ^ 18
        ∧ ∀ p < 36, s.portPresent p = true → s.hzn.portEn p = true → s.pins.sdsAbsent.get false (p / 12) = false → (t.port p).st = 1)
  ∧ (∀ s : State, s.ready = true → s.hzn.enabled = true → s.hzn.engineId < 2 ^ 18 →
      Yields .horizonDisable s fun t => t.hzn.enabled = false ∧ t.hzn.engineId = s.hzn.engineId ∧ ∀ p < 36, (t.port p).st = 3)
  ∧ (∀ (s : State) (r v : Nat), r < 64 → s.ready = true → (∀ k < 4, s.horizonResident (4 * r + k) = false) →
      Yields (.hznDomainWrite r v) s fun t => (∀ k < 4, t.hzn.domainOf (4 * r + k) = v / 2 ^ (16 * k) % 65536)
        ∧ ∀ c : Nat, c / 4 ≠ r → t.hzn.domainOf c = s.hzn.domainOf c)
  ∧ (∀ (s : State) (g : HeldSig) (rest : List HeldSig), s.hzn.signals = g :: rest →
      exec .remoteSignalDrop s = .next { s with
        time := { s.time with now := max s.time.now (g.since + 2000000000) }
        hzn := { s.hzn with signals := rest, dropHeld := satinc 32 s.hzn.dropHeld } })

/-- TIME ACROSS ENGINES. Each millisecond SYNC and FOLLOW go to the children; a child stamps SYNC, answers FOLLOW with REQ, and steers
by the offset that RESP gives; REQ is answered with its time of arrival; no exchange for 100 ms is a fault (R414).
Completes: timeSyncWindow, sync, follow, req, resp, timeSyncFault. -/
def Obligations.TimeSynchronisation : Prop :=
  (∀ s : State, s.ready = true → s.hzn.enabled = true → s.hzn.syncEn = true →
      exec .timeSyncWindow s = .next { s with
        time := { s.time with now := (s.time.now + 999999) / 1000000 * 1000000 }
        out := s.out ++ ((List.range 36).filter fun p => (s.port p).st == 2 && !s.hzn.toSwitch p && (s.hzn.isRoot || p != s.hzn.parent)).flatMap fun p =>
          [.frame p (s.timeFrame p 1 (s.hzn.peer p) []),
           .frame p (s.timeFrame p 2 (s.hzn.peer p) (leBytes 8 ((s.time.now + 999999) / 1000000 * 1000000)))] })
  ∧ (∀ (s : State) (b : List Byte) (stamp : Nat), s.isChild = true → Arrives s s.hzn.parent b 5 1 → (parseFr b).dst = s.hzn.engineId →
      Yields (.sync s.hzn.parent b stamp) s fun t => t.time = { s.time with
        now := max s.time.now stamp, t2 := stamp, c1 := sext 32 (parseFr b).offset, gotFollow := false })
  ∧ (∀ (s : State) (b : List Byte), s.isChild = true → Arrives s s.hzn.parent b 5 2 → (parseFr b).dst = s.hzn.engineId →
      Yields (.follow s.hzn.parent b) s fun t => t.time = { s.time with t1 := at8 (parseFr b).payload 0, gotFollow := true, t3 := s.time.now }
        ∧ ∃ more, t.out = s.out ++ more ++ [.frame s.hzn.parent (s.timeFrame s.hzn.parent 3 (parseFr b).src [])])
  ∧ (∀ (s : State) (p : Nat) (b : List Byte) (stamp : Nat), s.hzn.syncEn = true → Arrives s p b 5 3 → (parseFr b).dst = s.hzn.engineId →
      Yields (.req p b stamp) s fun t => t.time.now = max s.time.now stamp
        ∧ ∃ more, t.out = s.out ++ more ++ [.frame p (s.timeFrame p 4 (parseFr b).src (leBytes 8 stamp ++ leBytes 4 (parseFr b).offset))])
  ∧ (∀ (s : State) (b : List Byte) (off : Int), s.isChild = true → s.time.gotFollow = true → Arrives s s.hzn.parent b 5 4 →
      (parseFr b).dst = s.hzn.engineId →
      off = (((s.time.t2 : Int) - s.time.t1 - s.time.c1) - ((at8 (parseFr b).payload 0 : Int) - s.time.t3 - sext 32 (at4 (parseFr b).payload 8))) / 2 →
      -2 ^ 31 ≤ off → off ≤ 10000000 →
      Yields (.resp s.hzn.parent b) s fun t => t.time.offset = off ∧ t.time.exchanges = s.time.exchanges + 1
        ∧ (100 < off.natAbs → t.time.inLock = 0 ∧ t.time.sync = 1)
        ∧ (off.natAbs ≤ 100 → t.time.inLock = min (s.time.inLock + 1) 16)
        ∧ (off.natAbs ≤ 100 → 15 ≤ s.time.inLock → t.time.sync = 2)
        ∧ (s.time.exchanges = 0 → off < 0 → t.time.now = s.time.now + off.natAbs)
        ∧ (s.time.exchanges ≠ 0 ∨ 0 ≤ off → t.time.now = s.time.now))
  ∧ (∀ s : State, s.isChild = true → s.time.sync ≠ 3 →
      Yields .timeSyncFault s fun t => t.time.sync = 3 ∧ t.time.inLock = 0 ∧ t.time.now = max s.time.now (s.time.lastExchange + 100000000))

/-- THE SIDEBAND. Every MCTP control request and vendor-defined command is answered once, with its completion code and data; only
SET_ENDPOINT_ID, SET_PWR_LIMIT and GET_STATUS change anything else (R503 to R505).
Completes: setEndpointId, getEndpointId, getMctpVersionSupport, getMessageTypeSupport, getStatus, readSensors, readCt, setPwrLimit,
readLog, logStatus. -/
def Obligations.Sideband : Prop :=
  (∀ (s : State) (e : Nat), s.hubUp = true → 0 < e → e < 255 →
      exec (.setEndpointId e) s = .next { s with eid := e, out := s.out ++ [.mctp [0, 0, 1, 0, 0, BitVec.ofNat 8 e, 0]] })
  ∧ (∀ s : State, s.hubUp = true →
      exec .getEndpointId s = .next { s with out := s.out ++ [.mctp [0, 0, 2, 0, BitVec.ofNat 8 s.eid, 0, 0]] })
  ∧ (∀ s : State, s.hubUp = true →
      exec .getMctpVersionSupport s = .next { s with out := s.out ++ [.mctp [0, 0, 4, 0, 1, 0xF1, 0xF3, 0xFF, 0x00]] })
  ∧ (∀ s : State, s.hubUp = true →
      exec .getMessageTypeSupport s = .next { s with out := s.out ++ [.mctp [0, 0, 5, 0, 1, 0x7E]] })
  ∧ (∀ s : State, s.hubUp = true →
      Yields .getStatus s fun t => t.pins.smbAlert = s.pins.thermtrip ∧ ∃ b : List Byte, t.out = s.out ++ [.mctp b] ∧ b.length = 31
        ∧ leAt b 4 2 = s.limitInForce % 65536 ∧ leAt b 6 2 = s.power.mean % 65536 ∧ leAt b 8 1 = s.power.hottest % 256
        ∧ leAt b 9 1 = s.power.sensor % 256 ∧ leAt b 30 1 = b2n s.hub.lost + 2 * b2n s.pins.thermtrip)
  ∧ (∀ (s : State) (first count : Nat), s.hubUp = true → 1 ≤ count → count ≤ 16 → first + count ≤ 64 →
      exec (.readSensors 0 first count) s = .next { s with
        out := s.out ++ [s.vendorReply 0 ((List.range count).flatMap fun i => leBytes 2 (s.power.temps.get 0x8000 (first + i)))] })
  ∧ (∀ (s : State) (off len : Nat), s.hubUp = true → off % 4 = 0 → 4 ≤ len → len ≤ 48 → off + len ≤ 65536 →
      exec (.readCt off len) s = .next { s with out := s.out ++ [s.vendorReply 0 (s.ctRead 0 off len)] })
  ∧ (∀ (s : State) (w : Nat), s.hubUp = true → 800 ≤ w → w ≤ 3200 →
      Yields (.setPwrLimit w) s fun t => t.power = { s.power with sideband := w }
        ∧ t.out = s.out ++ [t.vendorReply 0 (leBytes 2 t.limitInForce)]
        ∧ t.limitInForce = min (if s.power.limit = 0 then s.part.pwrMax else min s.part.pwrMax s.power.limit) w)
  ∧ (∀ (s : State) (i : Nat) (r : LogRec), s.hubUp = true → s.log.ff[i]? = some r →
      exec (.readLog 1 i) s = .next { s with out := s.out ++ [s.vendorReply 0 r.bytes] })
  ∧ (∀ s : State, s.hubUp = true →
      exec .logStatus s = .next { s with out := s.out ++ [s.vendorReply 0 (leBytes 8 (s.log.nextSeq + 2 ^ 32 * s.log.ff.length + 2 ^ 47 * b2n (decide (16384 ≤ s.log.ff.length))))] })

/-- STACKS. A fitted stack trains at the highest pin rate that the fuses, the stack and its margin allow, or FAILS (R276, R277). Memory is
ready once every cluster has a trained stack of one capacity; without one boot halts with cause 6 (R276, R520). A refresh
changes no data, a failed retraining lowers the rate by one step (R278), and a scrub read of the line that is visited next counts, corrects or
poisons it (R286, R304 to R306).
Completes: stackTraining, memoryReady, refresh, retraining, scrubRead. -/
def Obligations.Stacks : Prop :=
  (∀ (s : State) (k height rated margin : Nat) (lanes : Bool), k < 20 → s.pins.porstN = true → s.hub.booting = true → s.hub.stage = 3 →
      s.stackFitted k = true → (s.stk k).st = 0 → height = 12 ∨ height = 16 → 64 ≤ min s.part.hbmMaxRate (min rated margin) →
      Yields (.stackTraining k { height, gbits := 32 } rated margin lanes) s fun t => (t.stk k).st = 1 ∧ (t.stk k).gib = 4 * height ∧ (t.stk k).lanes = lanes
        ∧ (t.stk k).rate ∈ [64, 80, 96, 112, 128] ∧ (t.stk k).rate ≤ min s.part.hbmMaxRate (min rated margin)
        ∧ ∀ r ∈ [64, 80, 96, 112, 128], r ≤ min s.part.hbmMaxRate (min rated margin) → r ≤ (t.stk k).rate)
  ∧ (∀ (s : State) (k height gbits rated margin : Nat) (lanes : Bool), k < 20 → s.pins.porstN = true → s.hub.booting = true → s.hub.stage = 3 →
      s.stackFitted k = true → (s.stk k).st = 0 →
      (height ≠ 12 ∧ height ≠ 16) ∨ gbits ≠ 32 ∨ min s.part.hbmMaxRate (min rated margin) < 64 →
      Yields (.stackTraining k { height, gbits } rated margin lanes) s fun t => (t.stk k).st = 2)
  ∧ (∀ s : State, s.pins.porstN = true → s.hub.booting = true → s.hub.stage = 3 →
      (∀ k < 20, s.stackFitted k = true → (s.stk k).st ≠ 0) →
      (∀ c < 10, s.clPresent c = true → ∃ k < 20, k / 2 = c ∧ s.stackFitted k = true ∧ (s.stk k).st = 1) →
      (∀ j < 20, ∀ k < 20, s.stackFitted j = true → s.stackFitted k = true → (s.stk j).st = 1 → (s.stk k).st = 1 → (s.stk j).gib = (s.stk k).gib) →
      Yields .memoryReady s fun t => t.hub.stage = (if s.part.bootWait = 0 then 5 else 4) ∧ t.loader.bootWaiting = (s.part.bootWait != 0)
        ∧ t.hbm.ready = true ∧ t.hbm.data = [] ∧ t.hbm.poison = [] ∧ t.hbm.dir = [] ∧ t.hbm.stks = s.hbm.stks
        ∧ (t.hbm.inlineEcc = false ↔ s.part.eccInlineIntact = true
            ∧ ∀ k < 20, s.stackFitted k = true → (s.stk k).st = 1 → (s.stk k).lanes = true))
  ∧ (∀ (s : State) (c : Nat), s.pins.porstN = true → s.hub.booting = true → s.hub.stage = 3 →
      (∀ k < 20, s.stackFitted k = true → (s.stk k).st ≠ 0) → c < 10 → s.clPresent c = true →
      (∀ k < 20, k / 2 = c → s.stackFitted k = true → (s.stk k).st ≠ 1) →
      Yields .memoryReady s fun t => t.hub.stage = 7 ∧ t.hub.haltCause = 6 ∧ t.hub.booting = false)
  ∧ (∀ (s : State) (k : Nat), k < 20 → s.stackRuns k = true →
      Yields (.refresh k) s fun t => t.hbm = { s.hbm with stks := t.hbm.stks } ∧ t.stk k = { s.stk k with refreshed := s.time.now })
  ∧ (∀ (s : State) (k pc : Nat), k < 20 → pc < 64 → s.stackRuns k = true → 64 < (s.stk k).rate →
      Yields (.retraining k pc false) s fun t => (t.stk k).st = 1 ∧ (t.stk k).rate < (s.stk k).rate
        ∧ (t.stk k).rate ∈ [64, 80, 96, 112, 128] ∧ ∀ r ∈ [64, 80, 96, 112, 128], r < (s.stk k).rate → r ≤ (t.stk k).rate)
  ∧ (∀ (s : State) (k l : Nat) (x : Line), ScrubTurn s k l → s.hbm.xfer.get 0 (k * 2 ^ 30 + l) < 4 →
      s.readStored (k * 2 ^ 30 + l) = some x → x.corrected = false →
      Yields (.scrubRead k l) s fun t => t.hbm = { s.hbm with stks := t.hbm.stks, xfer := t.hbm.xfer } ∧ t.stk k =
        (let v := (s.stk k).scrub.set 0 (pseudoChannel (64 * l)) (scrubPlace (64 * l) + 1)
         if (List.range 64).all (fun pc => decide (s.scrubLines k ≤ v.get 0 pc)) = true then { s.stk k with scrub := [], passes := satinc 32 (s.stk k).passes, lastEnd := s.time.now }
         else { s.stk k with scrub := v }))
  ∧ (∀ (s : State) (k l : Nat) (x : Line), ScrubTurn s k l → s.hbm.xfer.get 0 (k * 2 ^ 30 + l) < 4 →
      s.readStored (k * 2 ^ 30 + l) = some x → x.corrected = true →
      Yields (.scrubRead k l) s fun t => t.hbm.data = s.hbm.data.wrN (64 * (k * 2 ^ 30 + l)) x.data
        ∧ t.hbm.cleanLine (k * 2 ^ 30 + l) = true ∧ (t.stk k).ce = satinc 32 (s.stk k).ce)
  ∧ (∀ (s : State) (k l : Nat), ScrubTurn s k l → 4 ≤ s.hbm.xfer.get 0 (k * 2 ^ 30 + l) ∨ s.readStored (k * 2 ^ 30 + l) = none →
      s.isPrivate (64 * (k * 2 ^ 30 + l)) = false → s.isTable (64 * (k * 2 ^ 30 + l)) = false →
      Yields (.scrubRead k l) s fun t => t.hbm.poison.contains (k * 2 ^ 30 + l) = true ∧ t.hbm.cleanLine (k * 2 ^ 30 + l) = true
        ∧ (t.stk k).ue = satinc 32 (s.stk k).ue ∧ t.hub.lost = s.hub.lost)
  ∧ (∀ (s : State) (k l : Nat), k < 20 → s.stackRuns k = true → 64 * l < s.dataBytes k →
      (s.stk k).scrub.get 0 (pseudoChannel (64 * l)) ≠ scrubPlace (64 * l) → exec (.scrubRead k l) s = .next s)

/-- PAGES AND SUB-PAGES. Tagging writes zero data and ends OWNED (R300); zeroing reads zero and ends FREE, or RETIRED when the test fails
(R120, R302); no other byte changes, but for the leaves that the last tagged sub-page of an object brings (R300). An invalidation of a
translation that no command in flight has obtained is complete: its mapping, its leaf and its places in the translation units are gone
(R145, R298, R303). A parity error runs its command again, at most three times (R122 to R126). The boot
image wait ends in stage 5 (R481).
Completes: subpageTaggingComplete, subpageZeroingComplete, pageZeroingComplete, translationInvalidationComplete, parityError,
bootImageWaitExpiry. -/
def Obligations.MemoryUpkeep : Prop :=
  (∀ (s : State) (k sub x : Nat) (e : DirEntry) (o : Obj), k < 20 → sub < 2 ^ 20 → x = k * 2 ^ 20 + sub → e = s.hbm.dir.get {} x → e.st = 4 → o = s.ob e.obj →
      (∃ y ∈ objSubs o.pages (o.size / 65536), y ≠ x ∧ (s.hbm.dir.get {} y).st ≠ 1) →
      Yields (.subpageTaggingComplete k sub) s fun t => t.hbm.dir.get {} x = { e with st := 1 }
        ∧ (∀ a, a / 65536 = x → t.hbm.data.rd a = 0) ∧ (∀ a, a / 65536 ≠ x → t.hbm.data.rd a = s.hbm.data.rd a)
        ∧ (∀ y, y ≠ x → t.hbm.dir.get {} y = s.hbm.dir.get {} y) ∧ t.funcs = s.funcs)
  ∧ (∀ (s : State) (k sub x : Nat) (e : DirEntry) (o : Obj), k < 20 → sub < 2 ^ 20 → x = k * 2 ^ 20 + sub → e = s.hbm.dir.get {} x → e.st = 4 → o = s.ob e.obj →
      (∀ y ∈ objSubs o.pages (o.size / 65536), y ≠ x → (s.hbm.dir.get {} y).st = 1) →
      Yields (.subpageTaggingComplete k sub) s fun t =>
        t.hbm = (o.maps.foldl (fun u m => u.mapObj e.obj m.ctx m.va m.w) ((s.zeroSub x).setDir x { e with st := 1 })).hbm
          ∧ (∀ y, t.hbm.dir.get {} y = if y = x then { e with st := 1 } else s.hbm.dir.get {} y)
          ∧ ∀ a, (s.fn o.func).adminCur = some a → a.op = 0x40 → a.obj = e.obj → (t.fn o.func).adminCur = none)
  ∧ (∀ (s : State) (k sub x : Nat) (ok : Bool), k < 20 → sub < 2 ^ 20 → x = k * 2 ^ 20 + sub → (s.hbm.dir.get {} x).st = 3 →
      Yields (.subpageZeroingComplete k sub ok) s fun t => t.hbm.dir.get {} x = { st := if ok then 0 else 5 }
        ∧ (∀ a, a / 65536 = x → t.hbm.data.rd a = 0) ∧ (∀ a, a / 65536 ≠ x → t.hbm.data.rd a = s.hbm.data.rd a)
        ∧ ∀ y, y ≠ x → t.hbm.dir.get {} y = s.hbm.dir.get {} y)
  ∧ (∀ (s : State) (p : Nat) (ok : Bool), p < 15360 → (s.chip.cmPages.get {} p).fresh = false → (s.chip.cmPages.get {} p).st = 2 →
      Yields (.pageZeroingComplete false p ok) s fun t => (t.chip.cmPages.get {} p).st = (if ok then 0 else 3) ∧ (t.chip.cmPages.get {} p).fresh = false
        ∧ (∀ a, a / 65536 = p → t.chip.cm.rd a = 0) ∧ (∀ a, a / 65536 ≠ p → t.chip.cm.rd a = s.chip.cm.rd a) ∧ t.chip.rs = s.chip.rs)
  ∧ (∀ (s : State) (p : Nat) (ok : Bool), p < 10240 → (s.chip.rsPages.get {} p).fresh = false → (s.chip.rsPages.get {} p).st = 2 →
      Yields (.pageZeroingComplete true p ok) s fun t => (t.chip.rsPages.get {} p).st = (if ok then 0 else 3) ∧ (t.chip.rsPages.get {} p).fresh = false
        ∧ (∀ a, a / 65536 = p → t.chip.rs.rd a = 0) ∧ (∀ a, a / 65536 ≠ p → t.chip.rs.rd a = s.chip.rs.rd a) ∧ t.chip.cm = s.chip.cm)
  ∧ (∀ (s : State) (c va : Nat) (i : Inval), s.invals.find? (fun i => i.ctx == c && i.va == va) = some i →
      s.cmds.any (s.holdsTranslation i) = false →
      Yields (.translationInvalidationComplete c va) s fun t => (∀ j ∈ t.invals, ¬(j.ctx = c ∧ j.va = va)) ∧ (∀ m ∈ (t.ob i.obj).maps, m.ctx ≠ c)
        ∧ (∀ pa b, 0 < i.size → s.leafPlace (s.transOf c) (va / 2 ^ 21) = some pa → b < 16 → t.hbm.data.rd (pa + b) = 0)
        ∧ ∀ u, ∀ e ∈ t.tlb.get [] u, e.ctx ∈ s.translationPeers c → e.page < va / 2 ^ 21 ∨ va / 2 ^ 21 + cdiv i.size (2 ^ 21) ≤ e.page)
  ∧ (∀ (s : State) (store cl core pan addr : Nat) (ref : CmdRef) (k : Cmd), store < 9 → cl < 10 → core < 48 ∨ core = 63 → pan < 2 → addr < 2 ^ 26 →
      s.cmd? ref = some k → k.phase ≠ .recording → k.phase ≠ .killed → k.reruns < 3 → cOp k.word / 32 ≠ 6 → ref ∈ s.groupRefs ref →
      Yields (.parityError store cl core pan addr ref false) s fun t => (t.cl cl).parCount = satinc 32 (s.cl cl).parCount
        ∧ (t.cmd? ref).map Cmd.reruns = some (k.reruns + 1) ∧ (t.cmd? ref).map Cmd.phase = some .killed)
  ∧ (∀ (s : State) (store cl core pan addr : Nat) (ref : CmdRef) (k : Cmd), store < 9 → cl < 10 → core < 48 ∨ core = 63 → pan < 2 → addr < 2 ^ 26 →
      s.cmd? ref = some k → k.phase ≠ .recording → k.phase ≠ .killed → 3 ≤ k.reruns → cOp k.word / 32 ≠ 6 → (s.cx k.ctx).life = .live →
      Yields (.parityError store cl core pan addr ref false) s fun t => (t.cl cl).parCount = satinc 32 (s.cl cl).parCount ∧ LostWith s t k.ctx 0x0401)
  ∧ (∀ s : State, s.pins.porstN = true → s.hub.booting = true → s.hub.stage = 4 → s.loader.bootWaiting = true →
      Yields .bootImageWaitExpiry s fun t => t.hub = { s.hub with stage := 5 } ∧ t.loader = { s.loader with bootWaiting := false }
        ∧ t.time.now = max s.time.now (s.hub.memReadyAt + 100000000 * s.part.bootWait))

/-- ADMIN DESCRIPTORS. A descriptor whose opcode R337 does not list fails alone with RESERVED_FIELD: it is taken, its ADMIN record goes to
the next slot of the function event ring, bytes 0 to 27 before bytes 28 to 31, and no context, ring, fence or object
changes (R336, R337, R346, R347, R359). -/
def Obligations.MalformedAdminDescriptor : Prop :=
  ∀ (i : Instr) (s : State) (f : Nat), adminFunc i = some f → s.adminReady f = true → (s.fn f).evOn = true →
    adminOps.contains (at1 (s.adminDesc f) 0) = false →
    Yields i s fun t => AdminOver s t f ∧ ChangesOnly [.funcs, .msix, .pins, .log] s t ∧ (t.fn f).evSeq = ((s.fn f).evSeq + 1) % 2 ^ 32
      ∧ ∃ (r : EvRec) (a b : List OutEvent), r.status = 0x0102 ∧ r.kind = 4 ∧ r.user = at8 (s.adminDesc f) 8 ∧ r.pos = (s.fn f).adminHead
        ∧ t.out = s.out ++ a ++ [.hostWrite 0 f ((s.funcGeom f).base + 32 * ((s.fn f).evSeq % 2 ^ (s.funcGeom f).log2)) ((r.bytes (s.fn f).evSeq).take 28),
            .hostWrite 0 f ((s.funcGeom f).base + 32 * ((s.fn f).evSeq % 2 ^ (s.funcGeom f).log2) + 28) ((r.bytes (s.fn f).evSeq).drop 28)] ++ b

/-- CONTEXTS AND RINGS. CTX_CREATE makes the context at the lowest free ID with the event ring of its descriptor (R337, R338); CTX_DESTROY
begins its destruction (R354); RING_CREATE makes the lowest free ring; RING_DESTROY removes it and its commands (R355).
Completes: ctxCreate, ctxDestroy, ringCreate, ringDestroy. -/
def Obligations.ContextAndRingAdministration : Prop :=
  (∀ (s : State) (f c p : Nat) (d : List Byte), d = s.adminDesc f → AdminTurn s f 0x10 → at1 d 16 = p → p < 16 →
      6 ≤ at1 d 17 → at1 d 17 ≤ 16 → at2 d 20 ≤ 1023 → at8 d 24 % 2048 = 0 → at8 d 32 % 4 = 0 →
      (s.pt p).mode = 1 ∨ (s.pt p).mode = 2 →
      (f ≠ 0 → bit (vfParts (s.fn f).vfCfg) p = true ∧ (s.ctxsOf f).length < vfMaxCtx (s.fn f).vfCfg) →
      ((s.pt p).mode = 1 → (s.ctxs.keysWhere fun _ y => y.life != .free && y.part == p).length < 8
        ∧ ∀ e ∈ s.ctxs.keysWhere fun _ y => y.life != .free && y.part == p, (s.cx e).func = f) →
      s.freeCtx = some c →
      Yields (.ctxCreate f) s fun t => AdminOver s t f ∧ t.cx c =
        { life := .live, func := f, part := p, evBase := at8 d 24, evLog2 := at1 d 17, evVector := at2 d 18, evModer := at2 d 20, evConsumedAt := at8 d 32 })
  ∧ (∀ (s : State) (f : Nat), AdminTurn s f 0x11 →
      Yields (.ctxDestroy f) s fun t =>
        (t.cx (at1 (s.adminDesc f) 2)).life = .destroying ∨ (t.cx (at1 (s.adminDesc f) 2)).life = .free)
  ∧ (∀ (s : State) (f r : Nat) (d : List Byte), d = s.adminDesc f → AdminTurn s f 0x20 → 4 ≤ at1 d 16 → at1 d 16 ≤ 16 →
      at8 d 24 % 1024 = 0 → at8 d 32 % 4 = 0 →
      (s.rings.keysWhere fun _ r => r.live && r.ctx == at1 d 2).length < 16 →
      (f ≠ 0 → (s.rings.keysWhere fun _ r => r.live && (s.cx r.ctx).func == f).length < vfMaxRings (s.fn f).vfCfg) →
      (List.range 1024).find? (fun r => !(s.rg r).live) = some r →
      Yields (.ringCreate f) s fun t => AdminOver s t f ∧ t.rg r =
        { live := true, ctx := at1 d 2, lc := bit (at1 d 17) 0, link := bit (at1 d 17) 1, log2 := at1 d 16, base := at8 d 24, headwb := at8 d 32 })
  ∧ (∀ (s : State) (f r : Nat), AdminTurn s f 0x21 → at2 (s.adminDesc f) 16 = r → r < 1024 → (s.rg r).live = true →
      (s.rg r).ctx = at1 (s.adminDesc f) 2 →
      Yields (.ringDestroy f) s fun t => AdminOver s t f ∧ t.rg r = {} ∧ ∀ k ∈ t.cmds, k.ref ≠ .ring r)

/-- FENCES. FENCE_CREATE makes a fence with its value, mirror and filter and writes the mirror (R337, R340, R342); FENCE_SHARE sets one
context's rights (R343); FENCE_RELEASE by the owner frees an unshared fence with its next generation and abandons a shared
one (R340, R345); FENCE_SIGNAL raises a value and never lowers it (R341).
Completes: fenceCreate, fenceShare, fenceRelease, fenceSignal. -/
def Obligations.FenceAdministration : Prop :=
  (∀ (s : State) (f i : Nat) (d : List Byte), d = s.adminDesc f → AdminTurn s f 0x30 → at8 d 24 % 8 = 0 → s.fenceFresh = i → i < 65536 →
      Yields (.fenceCreate f) s fun t => AdminOver s t f ∧ t.fenceFresh = i + 1 ∧ t.fe i =
          { life := .live, gen := (s.fe i).gen, changedAt := s.time.now, owner := at1 d 2, owned := true, value := at8 d 16, mirror := at8 d 24
            remote := bit (at1 d 32) 0, base := at4 d 36, mask := at4 d 40 }
        ∧ (at8 d 24 ≠ 0 → .hostWrite 0 f (at8 d 24) (leBytes 8 (at8 d 16)) ∈ t.out))
  ∧ (∀ (s : State) (f i : Nat) (d : List Byte), d = s.adminDesc f → AdminTurn s f 0x31 → s.fenceSlot (at4 d 16) = some i →
      (s.fe i).life = .live → (s.fe i).owned = true → (s.fe i).owner = at1 d 2 → (s.cx (at1 d 20)).life = .live →
      ((s.fe i).shares.filter fun x => x.ctx != at1 d 20).length < 16 →
      Yields (.fenceShare f) s fun t => AdminOver s t f ∧ t.fe i = { s.fe i with
        shares := ((s.fe i).shares.filter fun x => x.ctx != at1 d 20) ++ [{ ctx := at1 d 20, wait := bit (at1 d 21) 0, signal := bit (at1 d 21) 1 }] })
  ∧ (∀ (s : State) (f i : Nat) (d : List Byte), d = s.adminDesc f → AdminTurn s f 0x32 → s.fenceSlot (at4 d 16) = some i →
      (s.fe i).owned = true → (s.fe i).owner = at1 d 2 → (s.fe i).shares = [] →
      Yields (.fenceRelease f) s fun t => AdminOver s t f ∧ t.fenceFreed = s.fenceFreed ++ [i]
        ∧ t.fe i = { gen := if (s.fe i).gen = 0xFFFF then 1 else (s.fe i).gen + 1 })
  ∧ (∀ (s : State) (f i : Nat) (d : List Byte), d = s.adminDesc f → AdminTurn s f 0x32 → s.fenceSlot (at4 d 16) = some i →
      (s.fe i).owned = true → (s.fe i).owner = at1 d 2 → (s.fe i).shares ≠ [] →
      Yields (.fenceRelease f) s fun t => AdminOver s t f ∧ t.fe i = { s.fe i with life := .abandoned, owned := false, changedAt := s.time.now })
  ∧ (∀ (s : State) (f i : Nat) (d : List Byte), d = s.adminDesc f → AdminTurn s f 0x33 → s.fenceSlot (at4 d 16) = some i →
      (s.fe i).life = .live → (s.fe i).owned = true → (s.fe i).owner = at1 d 2 → (s.fe i).value < at8 d 24 →
      Yields (.fenceSignal f) s fun t => AdminOver s t f ∧ t.fe i = { s.fe i with value := at8 d 24, changedAt := s.time.now }
        ∧ ((s.fe i).mirror ≠ 0 → .hostWrite 0 f (s.fe i).mirror (leBytes 8 (at8 d 24)) ∈ t.out))
  ∧ (∀ (s : State) (f i : Nat) (d : List Byte), d = s.adminDesc f → AdminTurn s f 0x33 → s.fenceSlot (at4 d 16) = some i →
      (s.fe i).life = .live → (s.fe i).owned = true → (s.fe i).owner = at1 d 2 → at8 d 24 < (s.fe i).value →
      Yields (.fenceSignal f) s fun t => AdminOver s t f ∧ t.fences = s.fences ∧ t.fenceLower = satinc 32 s.fenceLower)

/-- OBJECTS. OBJ_CREATE takes the next handle and puts the sub-pages of its pages into TAGGING for its owner (R300); OBJ_MAP_HOST makes an object
in an enabled window of the function (R326, R337), each once the tables of its mapping have been made (R281, R295); OBJ_UNMAP announces the invalidation (R303); exports and imports are kept
per context (R301).
Completes: objCreate, objMapHost, objUnmap, objExport, objImport, objWithdraw. -/
def Obligations.ObjectAdministration : Prop :=
  (∀ (s u : State) (f : Nat) (ps : List Nat) (d : List Byte), d = s.adminDesc f → AdminTurn s f 0x40 → at8 d 16 ≠ 0 →
      at8 d 24 + at8 d 16 ≤ 2 ^ 48 → at8 d 16 % 65536 = 0 → at8 d 24 % 2 ^ 21 = 0 → s.vaTaken (at1 d 2) (at8 d 24) (at8 d 16) = false →
      s.pagesFor (s.stackSet (at1 d 2) (at4 d 32)) (at8 d 16) = some ps →
      ((s.takeAdmin f).moveSubs (objSubs ps (at8 d 16 / 65536)) { tag := at1 d 2, st := 4, obj := s.nextObj }).makeTables (at1 d 2) (at8 d 24) (at8 d 16) = some u →
      Yields (.objCreate f) s fun t => t.nextObj = (s.nextObj + 1) % 2 ^ 32
        ∧ t.ob s.nextObj = { live := true, owner := at1 d 2, func := f, size := at8 d 16, pages := ps
                             maps := [{ ctx := at1 d 2, va := at8 d 24, w := bit (at1 d 36) 0 }] }
        ∧ (∀ x ∈ objSubs ps (at8 d 16 / 65536), t.hbm.dir.get {} x = { tag := at1 d 2, st := 4, obj := s.nextObj })
        ∧ (t.fn f).adminCur.map AdminOp.obj = some s.nextObj)
  ∧ (∀ (s u : State) (f : Nat) (w : HostWin) (d : List Byte), d = s.adminDesc f → AdminTurn s f 0x41 → at8 d 16 ≠ 0 →
      at8 d 24 + at8 d 16 ≤ 2 ^ 48 → at2 d 32 < 4096 → at8 d 16 % 65536 = 0 → at8 d 24 % 2 ^ 21 = 0 → at8 d 40 % 2 ^ 21 = 0 →
      w = s.windows.get {} (at2 d 32) → w.en = true → w.func = f → s.vaTaken (at1 d 2) (at8 d 24) (at8 d 16) = false →
      at8 d 40 + at8 d 16 ≤ w.pages * 2 ^ 21 → (s.takeAdmin f).makeTables (at1 d 2) (at8 d 24) (at8 d 16) = some u →
      Yields (.objMapHost f) s fun t => AdminOver s t f ∧ t.nextObj = (s.nextObj + 1) % 2 ^ 32
        ∧ t.ob s.nextObj = { live := true, owner := at1 d 2, func := f, size := at8 d 16, host := some (at2 d 32, at8 d 40)
                             maps := [{ ctx := at1 d 2, va := at8 d 24, w := bit (at1 d 36) 0 }] })
  ∧ (∀ (s : State) (f h : Nat) (m : Mapping) (d : List Byte), d = s.adminDesc f → AdminTurn s f 0x42 → at4 d 16 = h → (s.ob h).live = true →
      (s.ob h).maps.find? (fun m => m.ctx == at1 d 2) = some m → m.removing = false → m.deferred = false → s.namesObj (at1 d 2) h = false →
      Yields (.objUnmap f) s fun t =>
        t.invals = s.invals ++ [{ ctx := at1 d 2, va := m.va, size := (s.ob h).size, obj := h }]
          ∧ ∀ x ∈ (t.ob h).maps, x.ctx = at1 d 2 → x.removing = true)
  ∧ (∀ (s : State) (f h : Nat) (m : Mapping) (d : List Byte), d = s.adminDesc f → AdminTurn s f 0x42 → at4 d 16 = h → (s.ob h).live = true →
      (s.ob h).maps.find? (fun m => m.ctx == at1 d 2) = some m → m.removing = false → m.deferred = false → s.namesObj (at1 d 2) h = true →
      Yields (.objUnmap f) s fun t => AdminOver s t f ∧ t.invals = s.invals ∧ ∀ x ∈ (t.ob h).maps, x.ctx = at1 d 2 → x.deferred = true)
  ∧ (∀ (s : State) (f h : Nat) (d : List Byte), d = s.adminDesc f → AdminTurn s f 0x43 → at4 d 16 = h → (s.ob h).live = true →
      (s.ob h).owner = at1 d 2 → (s.cx (at1 d 20)).life = .live → ((s.ob h).host.isSome = true → (s.cx (at1 d 20)).func = f) →
      ((s.ob h).exports.filter fun e => e.1 != at1 d 20).length < 16 →
      Yields (.objExport f) s fun t => AdminOver s t f ∧ t.ob h = { s.ob h with
        exports := ((s.ob h).exports.filter fun e => e.1 != at1 d 20) ++ [(at1 d 20, bit (at1 d 21) 0)] })
  ∧ (∀ (s u : State) (f h : Nat) (d : List Byte), d = s.adminDesc f → AdminTurn s f 0x44 → at4 d 16 = h → (s.ob h).live = true →
      at8 d 24 + (s.ob h).size ≤ 2 ^ 48 → at8 d 24 % 2 ^ 21 = 0 → (at1 d 2, true) ∈ (s.ob h).exports →
      (∀ m ∈ (s.ob h).maps, m.ctx ≠ at1 d 2) → s.vaTaken (at1 d 2) (at8 d 24) (s.ob h).size = false →
      (s.takeAdmin f).makeTables (at1 d 2) (at8 d 24) (s.ob h).size = some u →
      Yields (.objImport f) s fun t => AdminOver s t f ∧ t.ob h = { s.ob h with
        maps := (s.ob h).maps ++ [{ ctx := at1 d 2, va := at8 d 24, w := bit (at1 d 32) 0 }] })
  ∧ (∀ (s : State) (f h : Nat) (d : List Byte), d = s.adminDesc f → AdminTurn s f 0x45 → at4 d 16 = h → (s.ob h).live = true →
      (s.ob h).owner = at1 d 2 → (s.cx (at1 d 20)).life = .live →
      Yields (.objWithdraw f) s fun t => AdminOver s t f ∧ t.ob h = { s.ob h with exports := (s.ob h).exports.filter fun e => e.1 != at1 d 20 })

/-- THE CONFIGURATION PORT AND HOST LOADS. LOAD and CFG_LOAD_START begin a load when none is in progress (R465, R466, R468); END ends the
chain or aborts the load (R465, R470, R477); what follows the own sub-image is forwarded (R477); a word of no form is counted
(R465); an abort ends the load with 0x0501 (R468); READBACK answers the header, and the part's flip-flops where the image permits it: their initial values while no tree clocks the part (R440, R479, R480).
Completes: load, invalidCommandWord, endWord, chainForward, cfgLoadStart, cfgLoadAbort, readback. -/
def Obligations.ConfigurationPort : Prop :=
  (∀ (s : State) (w : Nat), s.portUp = true → s.hub.stage = 6 → s.loader.mode = .command → s.loader.st = 0 → isLoad w = true →
      exec (.load w) s = .next { s with loader := { s.loader with
        st := 1, src := true, bytes := 0, start := s.time.now, window := s.loader.deadline, staging := [], status := 0
        mode := .own, pos := w % 256, isBoot := false, bootWaiting := false } })
  ∧ (∀ (s : State) (w : Nat), s.portUp = true → s.loader.mode = .command → isLoad w = false → isReadback w = false → isEnd w = false →
      exec (.invalidCommandWord w) s = .next { s with loader := { s.loader with violCount := satinc 32 s.loader.violCount } })
  ∧ (∀ s : State, s.portUp = true → s.loader.mode = .forward →
      exec (.endWord 0x030C0000) s = .next { s with loader := { s.loader with mode := .command }, out := s.out ++ [.chain (leBytes 4 0x030C0000)] })
  ∧ (∀ s : State, s.portUp = true → s.loader.mode = .own → s.loader.st ≠ 0 → s.loader.status = 0 →
      Yields (.endWord 0x030C0000) s fun t => LoadEnded s t 0x0501 ∧ t.loader.mode = .command)
  ∧ (∀ (s : State) (b : List Byte), s.portUp = true → b ≠ [] → s.loader.mode = .forward →
      exec (.chainForward b) s = .next { s with out := s.out ++ [.chain b] })
  ∧ (∀ (s : State) (b : List Byte), s.portUp = true → b ≠ [] → s.loader.mode = .tail → s.loader.pos ≠ 63 →
      exec (.chainForward b) s = .next { s with
        loader := { s.loader with mode := .forward }, out := s.out ++ [.chain (leBytes 4 (0x010C0000 + (s.loader.pos + 1)) ++ b)] })
  ∧ (∀ s : State, s.ready = true → s.loader.st = 0 →
      exec .cfgLoadStart s = .next { s with loader := { s.loader with
        st := 1, src := false, bytes := 0, start := s.time.now, window := s.loader.deadline, staging := [], status := 0, isBoot := false } })
  ∧ (∀ s : State, s.ready = true → s.loader.st ≠ 0 → s.loader.st ≠ 4 → Yields .cfgLoadAbort s fun t => LoadEnded s t 0x0501)
  ∧ (∀ (s : State) (w : Nat), s.portUp = true → s.loader.mode = .command → isReadback w = true → s.partPresent (w % 256) = true →
      (s.xp (w % 256)).loaded = true → (s.xp (w % 256)).readback = false →
      exec (.readback w) s = .next { s with out := s.out ++ [.cfgPort (ascii "OHRB" ++ leBytes 1 (w % 256) ++ leBytes 1 (s.xp (w % 256)).st ++ leBytes 1 1
        ++ leBytes 1 0 ++ leBytes 8 s.time.now ++ leBytes 4 (s.xp (w % 256)).version ++ leBytes 44 0)] })
  ∧ (∀ (s : State) (w : Nat), s.portUp = true → s.loader.mode = .command → isReadback w = true → s.partPresent (w % 256) = true →
      (s.xp (w % 256)).loaded = true → (s.xp (w % 256)).readback = true → (∀ i ∈ (s.xp (w % 256)).trees, i.en = false) →
      exec (.readback w) s = .next { s with out := s.out ++ [.cfgPort (ascii "OHRB" ++ leBytes 1 (w % 256) ++ leBytes 1 (s.xp (w % 256)).st ++ leBytes 1 0
        ++ leBytes 1 0 ++ leBytes 8 s.time.now ++ leBytes 4 (s.xp (w % 256)).version ++ leBytes 44 0 ++ (s.xp (w % 256)).ffInit)] })
  ∧ (∀ (s : State) (w : Nat), s.portUp = true → s.loader.mode = .command → isReadback w = true → s.partPresent (w % 256) = true →
      (s.xp (w % 256)).loaded = true → (s.xp (w % 256)).readback = true → (∃ i ∈ (s.xp (w % 256)).trees, i.en = true) →
      Yields (.readback w) s fun t => ∃ b : List Byte, t = { s with free := t.free, out := s.out ++ [.cfgPort b] } ∧ b.length = 64 + 1536
        ∧ b.take 64 = ascii "OHRB" ++ leBytes 1 (w % 256) ++ leBytes 1 (s.xp (w % 256)).st ++ leBytes 1 0
            ++ leBytes 1 0 ++ leBytes 8 s.time.now ++ leBytes 4 (s.xp (w % 256)).version ++ leBytes 44 0)

/-- IMAGES. A header that fails its checks ends a host load with the status of R470; a received sub-image that passes them all waits for its
commit point (R469, R470). At the commit point within the window the named parts are clamped and reset; past it the load
fails with 0x0504 and touches no part (R469, R473). Application leaves each named part waiting for JOIN with the
sub-image's version (R473), and the load ends with status 0 (R471).
Completes: subImageHeader, subImageReceived, loadCommit, applyComplete. -/
def Obligations.ImageLoading : Prop :=
  (∀ (s : State) (b : List Byte), s.portUp = true → s.loader.st = 1 → s.loader.staging = [] → s.loader.src = true → b.length = 128 →
      s.headerStatus b s.loader.pos = 0 →
      exec (.subImageHeader b) s = .next { s with loader := { s.loader with staging := b, bytes := 128, status := 0 } })
  ∧ (∀ (s : State) (b : List Byte) (e : Nat), s.portUp = true → s.loader.st = 1 → s.loader.staging = [] → s.loader.src = false →
      (s.hostImage 128).length = 128 → s.headerStatus (s.hostImage 128) 0xFF = e → e ≠ 0 →
      Yields (.subImageHeader b) s fun t => LoadEnded s t e)
  ∧ (∀ (s : State) (b m : List Byte), s.portUp = true → s.loader.st = 1 → s.loader.staging = b.take 128 → s.loader.staging ≠ [] → s.loader.src = true →
      b.length = imgTotal s.loader.staging → s.loader.status = 0 → s.imageStatus b = .ok m →
      exec (.subImageReceived b) s = .next { s with loader := { s.loader with bytes := b.length, mode := .tail, st := 3, staging := m } })
  ∧ (∀ (s : State) (b : List Byte) (e : Nat), s.portUp = true → s.loader.st = 1 → s.loader.staging = b.take 128 → s.loader.staging ≠ [] → s.loader.src = true →
      b.length = imgTotal s.loader.staging → s.loader.status = 0 → s.imageStatus b = .error e →
      Yields (.subImageReceived b) s fun t => LoadEnded s t e ∧ t.xparts = s.xparts)
  ∧ (∀ (s : State) (n : Nat), s.portUp = true → s.loader.st = 3 → (∀ p ∈ imgParts s.loader.staging, (s.xp p).call = none) →
      max s.time.now n + applyBound s.loader.staging < s.loader.start + 1000000 * s.loader.window →
      Yields (.loadCommit n) s fun t => t.loader.st = 4 ∧ t.loader.commitAt = max s.time.now n
        ∧ ∀ p ∈ imgParts s.loader.staging, (t.xp p).st = 2 ∧ (t.xp p).clamped = true ∧ (t.xp p).rst = true ∧ .portRst p ∈ t.out)
  ∧ (∀ (s : State) (n : Nat), s.portUp = true → s.loader.st = 3 → (∀ p ∈ imgParts s.loader.staging, (s.xp p).call = none) →
      s.loader.start + 1000000 * s.loader.window ≤ max s.time.now n + applyBound s.loader.staging →
      Yields (.loadCommit n) s fun t => LoadEnded s t 0x0504 ∧ t.xparts = s.xparts)
  ∧ (∀ s : State, s.loader.st = 4 →
      Yields .applyComplete s fun t => LoadEnded s t 0
        ∧ ∀ p ∈ imgParts s.loader.staging, (t.xp p).awaiting = true ∧ (t.xp p).rev = 0x0100 ∧ (t.xp p).version = at4 s.loader.staging 28
          ∧ (t.xp p).readback = imgFlag s.loader.staging 1 ∧ (t.xp p).joinBy = s.time.now + 1000000 * imgJoin s.loader.staging)

/-- PARTS AND THEIR CLOCKS. A part that asserts JOIN in time opens its ports; one that does not stays clamped in STATE 4 (R473). A tree
that stops clamps its part in STATE 5 and raises PORT_RST; a PLL that loses lock stops the trees it feeds; the part joins
again later (R444, R445, R454). Beats with no call in progress are counted (R452).
Completes: join, joinTimeout, clockTreeStop, clockSwitch, pllLossOfLock, partRejoin, unsolicited. -/
def Obligations.PartsAndClocks : Prop :=
  (∀ (s : State) (p : Nat), p < 40 → s.fabricUp = true → (s.xp p).st = 4 ∨ ((s.xp p).st = 2 ∧ (s.xp p).awaiting = true) →
      Yields (.join p) s fun t => (t.xp p).st = 3 ∧ (t.xp p).clamped = false ∧ (t.xp p).rst = false ∧ (t.xp p).join = true)
  ∧ (∀ (s : State) (p : Nat), p < 40 → (s.xp p).st = 2 → (s.xp p).awaiting = true → (s.xp p).join = false →
      Yields (.joinTimeout p) s fun t => (t.xp p).st = 4 ∧ (t.xp p).clamped = (s.xp p).clamped ∧ (t.xp p).awaiting = false
        ∧ t.loader.lastFlags.testBit 20 = true ∧ t.time.now = max s.time.now (s.xp p).joinBy)
  ∧ (∀ (s : State) (n : Nat), n < 80 → s.fabricUp = true → (s.xp (n / 2)).loaded = true → ((s.xp (n / 2)).tree (n % 2)).en = true →
      ((s.xp (n / 2)).tree (n % 2)).stopped = false →
      Yields (.clockTreeStop n) s fun t => (t.xp (n / 2)).st = 5 ∧ (t.xp (n / 2)).clamped = true ∧ (t.xp (n / 2)).violKind = 7
        ∧ (t.xp (n / 2)).violCount = satinc 32 (s.xp (n / 2)).violCount ∧ .portRst (n / 2) ∈ t.out)
  ∧ (∀ (s : State) (n : Nat), n < 80 → s.fabricUp = true → (s.xp (n / 2)).loaded = true → ((s.xp (n / 2)).tree (n % 2)).en = true →
      exec (.clockSwitch n) s = .next (s.updXp (n / 2) fun x => { x with trees := x.trees.modify (n % 2) fun t => { t with useB := !t.useB } }))
  ∧ (∀ (s : State) (r : Nat), r < 10 → s.fabricUp = true →
      Yields (.pllLossOfLock r) s fun t => ∀ n, 8 * r ≤ n → n < 8 * r + 8 → (s.xp (n / 2)).loaded = true → ((s.xp (n / 2)).tree (n % 2)).en = true →
        ((s.xp (n / 2)).tree (n % 2)).stopped = false → 4 ≤ ((s.xp (n / 2)).tree (n % 2)).src → (t.xp (n / 2)).st = 5 ∧ (t.xp (n / 2)).clamped = true)
  ∧ (∀ (s : State) (p : Nat), p < 40 → s.fabricUp = true → (s.xp p).st = 5 → (s.xp p).join = true →
      Yields (.partRejoin p) s fun t => (t.xp p).st = 3 ∧ (t.xp p).clamped = false ∧ .portRst p ∈ t.out ∧ t.time.now = s.time.now + 1000000)
  ∧ (∀ (s : State) (p : Nat), p < 40 → s.fabricUp = true → (s.xp p).loaded = true → (s.xp p).clamped = false → (s.xp p).call = none →
      Yields (.unsolicited p) s fun t => (t.xp p).violCount = satinc 32 (s.xp p).violCount ∧ (t.xp p).violKind = 5 ∧ t.cmds = s.cmds
        ∧ t.out = s.out ++ [.portRst p])

/-- FUNCTIONS. NEGOTIATE agrees on revision 0x0100 where the range holds it, fails where it does not, and is held before Ready (R318,
R519). ENABLE starts both rings from position 0 (R320); clearing it stops the admin ring alone (R321). Configuration
requests get a retry before config-ready, and read what R311 fixes and set VFs and MSI-X after it (R311, R312, R518).
Completes: negotiate, enable, functionDisable, configRequest. -/
def Obligations.Functions : Prop :=
  (∀ (s : State) (f : Nat), f < 256 → s.ready = true → s.hub.configReady = true → s.funcExists f = true → (s.fn f).enable = false →
      s.ctxsOf f = [] →
      exec (.negotiate f) s = .next (s.updFn f fun g =>
        if g.ahiRange.toNat % 65536 ≤ 0x0100 ∧ 0x0100 ≤ g.ahiRange.toNat / 65536 % 65536
        then { g with chosen := 0x0100, agree := 2, heldNeg := false } else { g with chosen := 0, agree := 3, heldNeg := false }))
  ∧ (∀ (s : State) (f : Nat), f < 256 → s.pins.porstN = true → s.hub.configReady = true → s.hub.stage ≠ 6 → s.hub.lost = false →
      s.funcExists f = true → (s.fn f).enable = false → s.ctxsOf f = [] →
      exec (.negotiate f) s = .next (s.updFn f fun g => { g with agree := 1, heldNeg := true }))
  ∧ (∀ (s : State) (f : Nat), f < 256 → s.ready = true → s.funcExists f = true → (s.fn f).enable = false → (s.fn f).agree = 2 →
      4 ≤ (s.fn f).adminLog2 → (s.fn f).adminLog2 ≤ 16 → 6 ≤ (s.fn f).fevtCfg.toNat % 32 → (s.fn f).fevtCfg.toNat % 32 ≤ 16 →
      (s.fn f).adminCfg.toNat / 65536 % 2048 < s.ownedVectors f →
      exec (.enable f) s = .next (s.updFn f fun g =>
        { g with enable := true, evOn := true, adminHead := 0, adminTail := 0, evSeq := 0, evRead := 0, moder := {} }))
  ∧ (∀ (s : State) (f : Nat), f < 256 → s.ready = true → s.funcExists f = true →
      exec (.functionDisable f) s = .next (s.updFn f fun g => { g with enable := false }))
  ∧ (∀ (s : State) (f : Nat) (op : ConfigOp), f < 256 → s.pins.porstN = true → s.funcExists f = true → s.hub.configReady = false →
      exec (.configRequest f op) s = .next { s with out := s.out ++ [.cfgRetry f] })
  ∧ (∀ (s : State) (f : Nat), f < 256 → s.pins.porstN = true → s.funcExists f = true → s.hub.configReady = true →
      exec (.configRequest f (.read 0)) s = .next { s with
        free := s.free + 1, out := s.out ++ [.cfgData f 0 (s.part.vendorId % 65536 + 2 ^ 16 * (s.part.deviceId % 65536))] })
  ∧ (∀ (s : State) (f v : Nat) (g : CfgField), f < 256 → s.pins.porstN = true → s.funcExists f = true → s.hub.configReady = true →
      (g, v) ∈ [(CfgField.bar0Size, if f = 0 then 2 ^ 20 else 2 ^ 17), (.bar2Size, 2 ^ 23), (.msixSize, if f = 0 then 2048 else 64), (.hasMsix, 1),
        (.hasSriov, if f = 0 then 1 else 0), (.hasAer, 1), (.totalVfs, if f = 0 then 255 else 0), (.firstVfOffset, if f = 0 then 1 else 0),
        (.vfStride, if f = 0 then 1 else 0)] →
      exec (.configRequest f (.field g)) s = .next { s with out := s.out ++ [.cfgField f g v] })
  ∧ (∀ (s : State) (en : Bool) (n : Nat), s.pins.porstN = true → s.hub.configReady = true → n ≤ 255 →
      Yields (.configRequest 0 (.setVfs en n)) s fun t => t.vfEnable = en ∧ t.numVfs = n)
  ∧ (∀ (s : State) (f : Nat) (en masked : Bool), f < 256 → s.pins.porstN = true → s.funcExists f = true → s.hub.configReady = true →
      Yields (.configRequest f (.setMsix en masked)) s fun t => t.msixEnable.get false f = en ∧ t.msixMask.get false f = masked
        ∧ (en = true → masked = false → ∀ k, k / 2048 = f → k % 2048 < s.ownedVectors f → (s.msix.get {} k).pending = true → (s.msix.get {} k).control.getLsbD 0 = false →
            (t.msix.get {} k).pending = false ∧ .msix f (k % 2048) ∈ t.out))

/-- PARTITIONS AND QUOTAS. PF0's set-up registers take a write when no context, no other partition's hold and no admitted section stands
against it (R322, R361, R362, R374, R377).
Completes: hifPartCfgWrite, hifVfCfgWrite, hifPartRegionsWrite, hifPartRtWrite, sluiceWrite. -/
def Obligations.Partitions : Prop :=
  (∀ (s : State) (p v : Nat), p < 16 → s.ready = true → (∀ e ∈ s.ctxs, e.2.life ≠ .free → e.2.part ≠ p) →
      (∀ q < 16, q ≠ p → fld v 0 60 &&& (s.pt q).groups = 0) →
      Yields (.hifPartCfgWrite p v) s fun t => (t.pt p).cfg = BitVec.ofNat 64 (v % 2 ^ 62) ∧ ∀ q, q ≠ p → (t.pt q).cfg = (s.pt q).cfg)
  ∧ (∀ (s : State) (f v : Nat), 1 ≤ f → f < 256 → s.ready = true → s.ctxsOf f = [] →
      (∀ e ∈ s.rings, e.2.live = true → (s.cx e.2.ctx).func ≠ f) →
      2048 - s.ownedVectors 0 - s.vfVectors f + fld v 32 7 ≤ 2048 →
      Yields (.hifVfCfgWrite f v) s fun t => (t.fn f).vfCfg = BitVec.ofNat 64 (vfCfgMask v) ∧ ∀ g, g ≠ f → (t.fn g).vfCfg = (s.fn g).vfCfg)
  ∧ (∀ (s : State) (p v : Nat), p < 16 → s.ready = true → (∀ e ∈ s.ctxs, e.2.life ≠ .free → e.2.part ≠ p) →
      (∀ q < 16, q ≠ p → fld v 0 40 &&& (s.pt q).regions.toNat = 0) →
      exec (.hifPartRegionsWrite p v) s = .next (s.updPt p fun q => { q with regions := BitVec.ofNat 64 (v % 2 ^ 40) }))
  ∧ (∀ (s : State) (p v : Nat), p < 16 → s.ready = true → s.holdsAdmitted p = false → 2 ≤ v % 8 → v % 8 ≤ 4 →
      Yields (.hifPartRtWrite p v) s fun t => (t.pt p).admitOp = v % 8 ∧ (t.pt p).rt = BitVec.ofNat 64 (v % 8 + 2 ^ 8 * fld v 8 12))
  ∧ (∀ (s : State) (p v : Nat) (r : SluiceRes) (w : Word), p < 16 → s.ready = true → s.holdsAdmitted p = false →
      w = BitVec.ofNat 64 (fld v 0 25 + 2 ^ 32 * fld v 32 24) → sluRate w ≤ sluDepth w → sluDepth w ≤ 16 * sluRate w →
      (((List.range 16).filter (· != p)).map fun q => sluRate ((s.pt q).sluice r)).sum + sluRate w ≤ s.sluiceG r →
      Yields (.sluiceWrite p r v) s fun t => (t.pt p).sluice r = w
        ∧ ∀ q x, q ≠ p ∨ x ≠ r → (t.pt q).sluice x = (s.pt q).sluice x)

/-- HOST WINDOWS AND LINKS. A window in window space that meets no other is enabled; one that is disabled stays in force for the commands in
flight and drains when they have ended (R323 to R325). Link 1 carries no request while it is down, and returns after a
flushing read (R47). ATS invalidations complete once no command that used the function's translations is in flight (R327).
Completes: hostWindowEnable, hostWindowDisable, hostWindowDrained, link1Down, link1Up, atsInvalidation. -/
def Obligations.HostWindowsAndLinks : Prop :=
  (∀ (s : State) (n v : Nat) (w : HostWin), n < 4096 → s.ready = true → w = s.windows.get {} n → w.a.getLsbD 0 = false → w.draining = false →
      (∀ e ∈ s.windows, e.1 ≠ n → e.2.a.getLsbD 0 = true → meets e.2.page e.2.pages w.page w.pages = false) → w.page + w.pages ≤ 2 ^ 26 →
      Yields (.hostWindowEnable n v) s fun t => t.windows.get {} n = { w with a := BitVec.ofNat 64 (hwinA (v ||| 1)) }
        ∧ ∀ m, m ≠ n → t.windows.get {} m = s.windows.get {} m)
  ∧ (∀ (s : State) (n : Nat) (w : HostWin), n < 4096 → s.ready = true → w = s.windows.get {} n → w.a.getLsbD 0 = true →
      Yields (.hostWindowDisable n) s fun t =>
        t.windows.get {} n = { w with a := w.a &&& ~~~(1 : Word), draining := true, users := s.windowUsers w }
          ∧ ∀ m, m ≠ n → t.windows.get {} m = s.windows.get {} m)
  ∧ (∀ (s : State) (n : Nat) (w : HostWin), n < 4096 → w = s.windows.get {} n → w.draining = true → (∀ k ∈ s.cmds, k.ref ∉ w.users) →
      Yields (.hostWindowDrained n) s fun t => t.windows.get {} n = { w with draining := false, users := [] }
        ∧ ∀ m, m ≠ n → t.windows.get {} m = s.windows.get {} m)
  ∧ (∀ s : State, exec .link1Down s = .next { s with pins := { s.pins with link1 := false } })
  ∧ (∀ s : State, s.ready = true → s.part.link1 = true → s.pins.link1 = false →
      exec .link1Up s = .next { s with pins := { s.pins with link1 := true }, out := s.out ++ [.flushRead 0] })
  ∧ (∀ (s : State) (f : Nat), f < 256 → s.pins.porstN = true → s.hub.configReady = true → s.part.ats = true → s.funcExists f = true →
      Yields (.atsInvalidation f) s fun t => (s.atsUsers f = [] → .atsDone f ∈ t.out)
        ∧ (s.atsUsers f ≠ [] → { func := f, users := s.atsUsers f } ∈ t.atsInvals))

/-- RESETS OF FUNCTIONS AND FAILED HOST READS. A hot reset, a link-down of link 0 and a function-level reset of PF0 destroy every context, disable
every function and free every partition; a function-level reset of a VF does so for its own contexts and registers (R338).
A failed read disables the function, loses the context or ends the load that it was for (R358, R423, R466).
Completes: functionLevelReset, hostReadError, hotReset, link0Down. -/
def Obligations.ResetsAndReadErrors : Prop :=
  (∀ (i : Instr) (s : State), i = .hotReset ∨ i = .link0Down ∨ i = .functionLevelReset 0 → s.pins.porstN = true → s.hub.configReady = true →
      s.hub.lost = false →
      Yields i s fun t => t.funcs = [] ∧ (∀ p, (t.pt p).cfg = 0)
        ∧ ∀ c, (s.cx c).life ≠ .free → (t.cx c).life = .destroying ∨ (t.cx c).life = .free)
  ∧ (∀ (s : State) (f : Nat), 0 < f → f < 256 → s.pins.porstN = true → s.hub.configReady = true → s.funcExists f = true → s.hub.lost = false →
      Yields (.functionLevelReset f) s fun t => (t.fn f).enable = false ∧ (t.fn f).evOn = false ∧ (t.fn f).agree = 0
        ∧ ∀ c, (s.cx c).life ≠ .free → (s.cx c).func = f → (t.cx c).life = .destroying ∨ (t.cx c).life = .free)
  ∧ (∀ (s : State) (r c : Nat), s.ready = true → (s.rg r).live = true → (s.rg r).ctx = c → (s.cx c).life = .live →
      Yields (.hostReadError (.ring r)) s fun t => LostWith s t c 0x0201)
  ∧ (∀ (s : State) (c : Nat), s.ready = true → (s.cx c).life = .live → Yields (.hostReadError (.ctxEvents c)) s fun t => LostWith s t c 0x0201)
  ∧ (∀ (s : State) (f : Nat), s.ready = true → (s.fn f).enable = true →
      Yields (.hostReadError (.admin f)) s fun t => (t.fn f).enable = false ∧ (t.fn f).violKind = 8 ∧ (t.fn f).violCount = satinc 32 (s.fn f).violCount)
  ∧ (∀ (s : State) (f : Nat), s.ready = true → (s.fn f).enable = true →
      Yields (.hostReadError (.funcEvents f)) s fun t => (t.fn f).enable = false ∧ (t.fn f).violKind = 8 ∧ (t.fn f).violCount = satinc 32 (s.fn f).violCount)
  ∧ (∀ s : State, s.ready = true → s.loader.st = 1 → s.loader.src = false → Yields (.hostReadError .imageLoad) s fun t => LoadEnded s t 0x0501)
  ∧ (∀ (s : State) (v : Nat), 1 ≤ v → v ≤ 12 → s.ready = true → (s.svc v).locked = false →
      Yields (.hostReadError (.service v)) s fun t => (t.svc v).st = 3 ∧ (t.svc v).cause = 2 ∧ (t.svc v).pages = [])

/-- SUBMISSION RINGS. A doorbell in range moves the tail and one out of range is counted (R334, R336). NOP completes at once (R330), EXEC copies
its whole buffer and reaches its first command (R331), LAUNCH places a section that passes its checks (R260), UNLOAD
removes a section that rests and waits for one that runs (R356); each takes its descriptor and writes the head back
(R335).
Completes: submissionDoorbell, adminDoorbell, nop, execBuffer, launch, unload. -/
def Obligations.SubmissionRings : Prop :=
  (∀ (s : State) (f r n : Nat), f < 256 → r < 1024 → s.ready = true → s.funcExists f = true → (s.rg r).live = true →
      (s.cx (s.rg r).ctx).func = f → (s.cx (s.rg r).ctx).life ≠ .destroying → (∀ e ∈ s.sessions, e.2.ring ≠ r) →
      cdist 32 (s.rg r).tail (s.rg r).head < cdist 32 n (s.rg r).head → cdist 32 n (s.rg r).head ≤ 2 ^ (s.rg r).log2 →
      exec (.submissionDoorbell f r n) s = .next (s.updRg r fun g => { g with tail := n % 2 ^ 32 }))
  ∧ (∀ (s : State) (f r n : Nat), f < 256 → r < 1024 → s.ready = true → s.funcExists f = true → (s.rg r).live = true →
      (s.cx (s.rg r).ctx).func = f → (s.cx (s.rg r).ctx).life ≠ .destroying → (∀ e ∈ s.sessions, e.2.ring ≠ r) →
      cdist 32 n (s.rg r).head < cdist 32 (s.rg r).tail (s.rg r).head ∨ 2 ^ (s.rg r).log2 < cdist 32 n (s.rg r).head →
      cdist 32 n (s.rg r).head ≠ cdist 32 (s.rg r).tail (s.rg r).head →
      Yields (.submissionDoorbell f r n) s fun t => t.rings = s.rings ∧ (t.fn f).violCount = satinc 32 (s.fn f).violCount ∧ (t.fn f).violKind = 1)
  ∧ (∀ (s : State) (f n : Nat), f < 256 → s.ready = true → s.funcExists f = true → (s.fn f).enable = true →
      cdist 32 (s.fn f).adminTail (s.fn f).adminHead < cdist 32 n (s.fn f).adminHead → cdist 32 n (s.fn f).adminHead ≤ 2 ^ (s.fn f).adminLog2 →
      exec (.adminDoorbell f n) s = .next (s.updFn f fun g => { g with adminTail := n % 2 ^ 32 }))
  ∧ (∀ (s : State) (r : Nat), RingTurn s r 0 →
      Yields (.nop r) s fun t => (t.rg r).head = ((s.rg r).head + 1) % 2 ^ 32 ∧ t.cmds = s.cmds
        ∧ .hostWrite (s.linkOf (s.rg r).link) (requester (s.linkOf (s.rg r).link) (s.cx (s.rg r).ctx).func) (s.rg r).headwb (leBytes 4 (((s.rg r).head + 1) % 2 ^ 32)) ∈ t.out
        ∧ (bit (at1 (s.ringDesc r) 1) 0 = false → (t.rg r).work = .idle ∧ t.ctxs = s.ctxs)
        ∧ (bit (at1 (s.ringDesc r) 1) 0 = true → (s.cx (s.rg r).ctx).silent = false → (s.cx (s.rg r).ctx).evWait = [] → s.ctxFull (s.rg r).ctx = false →
            (t.rg r).work = .idle ∧ (t.cx (s.rg r).ctx).evSeq = ((s.cx (s.rg r).ctx).evSeq + 1) % 2 ^ 32))
  ∧ (∀ (s u : State) (r : Nat) (b : List Byte) (ws : List (List Byte)), RingTurn s r 1 →
      (s.takeRing r).readVa { ctx := (s.rg r).ctx, ref := some (.ring r) } (at8 (s.ringDesc r) 16) (32 * at2 (s.ringDesc r) 24) = (.ok b, u) →
      ws = tab (at2 (s.ringDesc r) 24) (fun i => (b.drop (32 * i)).take 32) → ws.all ringWordOk = true →
      Yields (.execBuffer r) s fun t => (t.rg r).work = .exec ws 0 false ∧ (t.rg r).head = ((s.rg r).head + 1) % 2 ^ 32
        ∧ ∃ k ∈ t.cmds, k.ref = .ring r ∧ k.ctx = (s.rg r).ctx ∧ k.word = ws.getD 0 [] ∧ k.phase = .issued)
  ∧ (∀ (s u : State) (r : Nat) (img : List Byte) (x : Section) (ps : List Nat), RingTurn s r 2 →
      (s.takeRing r).copyImage (s.rg r).ctx r (at8 (s.ringDesc r) 16) = (.ok img, u) → (u.imageSection (u.rg r) img).admitted = false →
      u.launchChecks u.nextSec (u.imageSection (u.rg r) img) (Config.freeWord u.free).toNat = .ok x →
      u.freeSubs (u.defaultStacks x.part) (cdiv x.img.length 65536) = some ps →
      Yields (.launch r) s fun t => t.nextSec = s.nextSec + 1
        ∧ t.sec s.nextSec = { x with objs := x.declObjs, digest := (sha384 x.img).take 16, copySubs := ps }
        ∧ ∀ y ∈ ps, t.hbm.dir.get {} y = { st := 2 })
  ∧ (∀ (s : State) (r h : Nat), RingTurn s r 3 → at4 (s.ringDesc r) 16 = h → (∃ e ∈ s.secs, e.1 = h) → (s.sec h).ctx = (s.rg r).ctx →
      s.restful h = true →
      Yields (.unload r) s fun t => (∀ e ∈ t.secs, e.1 ≠ h) ∧ ∀ y ∈ (s.sec h).copySubs, (t.hbm.dir.get {} y).st = 3)
  ∧ (∀ (s : State) (r h : Nat), RingTurn s r 3 → at4 (s.ringDesc r) 16 = h → (∃ e ∈ s.secs, e.1 = h) → (s.sec h).ctx = (s.rg r).ctx →
      s.restful h = false →
      Yields (.unload r) s fun t => (t.rg r).work = .unload h ∧ t.secs = s.secs)

/-- EVENT RINGS. A record that waited for room is written once the consumed word shows room (R348, R349); a context's ring that stays full for
2,000 ms loses the context with WAIT_TIMEOUT and falls silent (R348); a moderation interval ends with the message that was
held back (R350).
Completes: eventRingFullRecheck, eventRingFullTimeout, functionEventRingRecheck, moderationExpiry. -/
def Obligations.EventRings : Prop :=
  (∀ (s : State) (c v : Nat) (r : EvRec), c < 256 → s.ready = true → (s.cx c).evWait = [r] → r.wake = none → r.wakeRing = none → s.ctxFull c = true →
      s.readConsumed (s.ctxGeom c) (s.cx c).evSeq = some v → evFull (s.cx c).evLog2 (s.cx c).evSeq v = false →
      Yields (.eventRingFullRecheck c) s fun t => (t.cx c).evWait = [] ∧ (t.cx c).evSeq = ((s.cx c).evSeq + 1) % 2 ^ 32 ∧ (t.cx c).fullSince = none
        ∧ t.time.now = s.time.now + 10000
        ∧ .hostWrite 0 (s.cx c).func ((s.cx c).evBase + 32 * ((s.cx c).evSeq % 2 ^ (s.cx c).evLog2)) ((r.bytes (s.cx c).evSeq).take 28) ∈ t.out)
  ∧ (∀ (s : State) (c t0 : Nat), c < 256 → s.ready = true → (s.cx c).life = .live → (s.cx c).fullSince = some t0 → (s.cx c).evWait ≠ [] →
      (∀ r ∈ (s.cx c).evWait, r.wake = none ∧ r.wakeRing = none) →
      Yields (.eventRingFullTimeout c) s fun t => LostWith s t c 0x0301 ∧ (t.cx c).silent = true ∧ (t.cx c).evWait = []
        ∧ t.time.now = max s.time.now (t0 + 2000000000))
  ∧ (∀ (s : State) (f v : Nat) (r : EvRec), f < 256 → s.ready = true → (s.fn f).evOn = true → (s.fn f).evWait = [r] → (s.fn f).lostNotices = [] →
      (s.fn f).devNotices = [] → s.funcFull f = true → s.readConsumed (s.funcGeom f) (s.fn f).evSeq = some v →
      evFull (s.funcGeom f).log2 (s.fn f).evSeq v = false →
      Yields (.functionEventRingRecheck f) s fun t => (t.fn f).evWait = [] ∧ (t.fn f).evSeq = ((s.fn f).evSeq + 1) % 2 ^ 32
        ∧ t.time.now = s.time.now + 10000
        ∧ .hostWrite 0 f ((s.funcGeom f).base + 32 * ((s.fn f).evSeq % 2 ^ (s.funcGeom f).log2)) ((r.bytes (s.fn f).evSeq).take 28) ∈ t.out)
  ∧ (∀ (s : State) (c : Nat), c < 256 → s.ready = true → (s.cx c).moder.pending = true → (s.cx c).evVector < s.ownedVectors (s.cx c).func →
      s.msixEnable.get false (s.cx c).func = true → s.msixMask.get false (s.cx c).func = false →
      (s.msix.get {} (msixKey (s.cx c).func (s.cx c).evVector)).control.getLsbD 0 = false →
      Yields (.moderationExpiry (.ctx c)) s fun t => t.out = s.out ++ [.msix (s.cx c).func (s.cx c).evVector]
        ∧ (t.cx c).moder = { last := some t.time.now, pending := false }
        ∧ t.time.now = max s.time.now ((s.cx c).moder.last.getD 0 + 1000 * (s.cx c).evModer))
  ∧ (∀ (s : State) (f : Nat), f < 256 → s.ready = true → (s.fn f).moder.pending = true → (s.funcGeom f).vector < s.ownedVectors f →
      s.msixEnable.get false f = true → s.msixMask.get false f = false →
      (s.msix.get {} (msixKey f (s.funcGeom f).vector)).control.getLsbD 0 = false →
      Yields (.moderationExpiry (.func f)) s fun t => t.out = s.out ++ [.msix f (s.funcGeom f).vector]
        ∧ (t.fn f).moder = { last := some t.time.now, pending := false })

/-- THE LOG AND TELEMETRY. The writer seals the oldest queued record into the circular region and, from CLASS 2 on, into the first-failure
region while it has room (R506 to R509); a minute's coalesced counts end with it (R510); CLEAR_FF moves the first-failure
records into the circular region (R511). A telemetry set-up in range enables it, and a sample goes to the next slot or is
dropped and counted (R514, R515).
Completes: logWrite, coalescingWindowEnd, clearFf, telemetryEnable, telemetrySample. -/
def Obligations.LogAndTelemetry : Prop :=
  (∀ (s : State) (r : LogRec) (q : List LogRec), s.hubUp = true → s.log.queue = r :: q → s.log.dropped = 0 →
      Yields .logWrite s fun t => t.log.queue = q ∧ t.log.nextSeq = (s.log.nextSeq + 1) % 2 ^ 32 ∧ t.log.wpos = (s.log.wpos + 1) % 114688
        ∧ t.log.circ.get {} s.log.wpos = { r with seq := s.log.nextSeq }
        ∧ t.log.ff = (if 2 ≤ r.cls ∧ s.log.ff.length < 16384 then s.log.ff ++ [{ r with seq := s.log.nextSeq }] else s.log.ff))
  ∧ (∀ s : State, s.hubUp = true →
      Yields .coalescingWindowEnd s fun t => t.log.table = [] ∧ t.time.now = max s.time.now ((s.log.window + 1) * 60000000000)
        ∧ t.log.window = t.time.now / 60000000000)
  ∧ (∀ s : State, s.hubUp = true → s.log.ff.length ≤ 16384 →
      Yields .clearFf s fun t => t.log.ff = [] ∧ t.log.nextSeq = s.log.nextSeq ∧ t.log.queue = s.log.queue
        ∧ ∀ i r, s.log.ff[i]? = some r → t.log.circ.get {} ((s.log.wpos / 1024 + 1 + i / 1024) % 112 * 1024 + i % 1024) = r)
  ∧ (∀ (s : State) (v : Nat), s.ready = true → s.telem.en = false → 6 ≤ v % 32 → v % 32 ≤ 16 → 1 ≤ v / 32 % 2 ^ 14 → v / 32 % 2 ^ 14 ≤ 10000 →
      v / 2 ^ 19 % 2 ^ 11 < s.ownedVectors 0 →
      exec (.telemetryEnable v) s = .next { s with telem := { s.telem with
        cfg := BitVec.ofNat 64 (v % 2 ^ 31 + 2 ^ 31), seq := 0, pos := 0, readPos := 0 } })
  ∧ (∀ s : State, s.hubUp = true → s.hub.lost = false → s.telem.en = true → cdist 32 s.telem.pos s.telem.readPos ≠ 2 ^ s.telem.log2 →
      exec .telemetrySample s = .next { s.postHost 0 0 (s.telem.base.toNat / 4096 * 4096 + 64 * (s.telem.pos % 2 ^ s.telem.log2)) s.sample with
        telem := { s.telem with seq := (s.telem.seq + 1) % 2 ^ 32, pos := (s.telem.pos + 1) % 2 ^ 32 } })
  ∧ (∀ s : State, s.hubUp = true → s.hub.lost = false → s.telem.en = true → cdist 32 s.telem.pos s.telem.readPos = 2 ^ s.telem.log2 →
      cdist 32 s.telem.pos (s.hostMem.rdLE (s.telem.consumed.toNat / 4 * 4) 4) = 2 ^ s.telem.log2 →
      Yields .telemetrySample s fun t => t.out = s.out ∧ t.telem.overrun = satinc 32 s.telem.overrun ∧ t.telem.pos = s.telem.pos
        ∧ t.telem.seq = (s.telem.seq + 1) % 2 ^ 32)

/-- REGISTER WRITES. A write that reaches a register with a row of its own does what that row does (R313, R314); any other register takes the
value that its layout and its access code give it (R8, R320, R421, R467, R312, R513); an access of another width or
alignment is counted as a violation of kind 3, and one at a reserved offset of kind 4 (R8, R358). A read of another width or alignment answers 0 and counts, one at a reserved offset
answers 0 (R10, R313).
Completes: registerWrite, submissionDoorbell, adminDoorbell, hifPartCfgWrite, hifPartRtWrite, hifPartRegionsWrite, sluiceWrite,
hifVfCfgWrite, hznDomainWrite, hostWindowEnable, mgtPwrLimitWrite, engineResetRequest. -/
def Obligations.RegisterWritesAreTheirRows : Prop :=
  (∀ (s : State) (f r n : Nat), f < 256 → r < 1024 → n < 2 ^ 32 → s.ready = true → s.funcExists f = true →
      exec (.registerWrite f 2 (4096 * r) 32 n) s = exec (.submissionDoorbell f r n) s)
  ∧ (∀ (s : State) (f n : Nat), f < 256 → n < 2 ^ 32 → s.ready = true → s.funcExists f = true →
      exec (.registerWrite f 2 0x400000 32 n) s = exec (.adminDoorbell f n) s)
  ∧ (∀ (s : State) (p v : Nat), p < 16 → v < 2 ^ 64 → s.ready = true →
      exec (.registerWrite 0 0 (0x20000 + 8 * p) 64 v) s = exec (.hifPartCfgWrite p v) s
        ∧ exec (.registerWrite 0 0 (0x20100 + 64 * p) 64 v) s = exec (.hifPartRtWrite p v) s
        ∧ exec (.registerWrite 0 0 (0x20108 + 64 * p) 64 v) s = exec (.hifPartRegionsWrite p v) s
        ∧ exec (.registerWrite 0 0 (0x20110 + 64 * p) 64 v) s = exec (.sluiceWrite p .hbm v) s
        ∧ exec (.registerWrite 0 0 (0x21040 + 8 * p) 64 v) s = exec (.sluiceWrite p .hub v) s)
  ∧ (∀ (s : State) (f v : Nat), 1 ≤ f → f < 256 → v < 2 ^ 64 → s.ready = true →
      exec (.registerWrite 0 0 (0x20800 + 8 * f) 64 v) s = exec (.hifVfCfgWrite f v) s)
  ∧ (∀ (s : State) (r v : Nat), r < 64 → v < 2 ^ 64 → s.ready = true →
      exec (.registerWrite 0 0 (0x20600 + 8 * r) 64 v) s = exec (.hznDomainWrite r v) s)
  ∧ (∀ (s : State) (n v : Nat), n < 4096 → v < 2 ^ 64 → v % 2 = 1 → s.ready = true →
      exec (.registerWrite 0 0 (0x40000 + 16 * n) 64 v) s = exec (.hostWindowEnable n v) s)
  ∧ (∀ (s : State) (v : Nat), v < 2 ^ 64 → s.ready = true →
      exec (.registerWrite 0 0 0x21860 64 v) s = exec (.mgtPwrLimitWrite v) s
        ∧ exec (.registerWrite 0 0 0x21C20 64 v) s = exec (.engineResetRequest 64 v) s)
  ∧ (∀ (s : State) (f o v : Nat), f < 256 → s.ready = true → s.funcExists f = true →
      Yields (.registerWrite f 0 o 16 v) s fun t => (t.fn f).violCount = satinc 32 (s.fn f).violCount ∧ (t.fn f).violKind = 3)
  ∧ (∀ (s : State) (f o v : Nat), f < 256 → s.ready = true → s.funcExists f = true → o % 8 = 0 → s.reg f o = none →
      Yields (.registerWrite f 0 o 64 v) s fun t => (t.fn f).violCount = satinc 32 (s.fn f).violCount ∧ (t.fn f).violKind = 4)
  ∧ (∀ (s : State) (f o w : Nat), s.ready = true → (w ≠ 32 ∧ w ≠ 64) ∨ o % (w / 8) ≠ 0 →
      s.readBar0 f o w = (0, s.viol f 3) ∧ s.readBar2 f o w = (0, s.viol f 3))
  ∧ (∀ (s : State) (f o : Nat), s.ready = true → o % 8 = 0 → s.reg f o = none → s.readBar0 f o 64 = (0, s) ∧ s.readBar0 f o 32 = (0, s))
  ∧ (∀ (s : State) (f v : Nat), f < 256 → v < 2 ^ 64 → s.ready = true → s.funcExists f = true → (s.fn f).enable = false →
      exec (.registerWrite f 0 0x10018 64 v) s = .next (s.updFn f fun g => { g with adminBase := BitVec.ofNat 64 (v / 2 ^ 10 * 2 ^ 10) })
        ∧ exec (.registerWrite f 0 0x10000 64 v) s = .next (s.updFn f fun g => { g with ahiRange := BitVec.ofNat 64 (v % 2 ^ 32) })
        ∧ exec (.registerWrite f 0 0x10040 64 v) s = .next (s.updFn f fun g => { g with fevtConsumed := BitVec.ofNat 64 (v / 4 * 4) }))
  ∧ (∀ (s : State) (v : Nat), v < 2 ^ 64 → s.ready = true → 1 ≤ v % 65536 → v % 65536 ≤ 60000 →
      exec (.registerWrite 0 0 0x21410 64 v) s = .next { s with loader := { s.loader with deadline := v % 65536 } })
  ∧ (∀ (s : State) (k v : Nat), 1 ≤ k → k ≤ 12 → v < 2 ^ 64 → s.ready = true →
      exec (.registerWrite 0 0 (0x21100 + 64 * (k - 1) + 0x18) 64 v) s = .next (s.updSvc k fun x => { x with open0 := BitVec.ofNat 64 v }))
  ∧ (∀ (s : State) (c v : Nat), c < 10 → v < 2 ^ 64 → s.ready = true → s.clPresent c = true →
      exec (.registerWrite 0 0 (0x22000 + 256 * c + 0x90) 64 v) s = .next (s.updCl c fun k => { k with ovf := k.ovf &&& ~~~(BitVec.ofNat 16 v) }))
  ∧ (∀ (s : State) (f k v : Nat), f < 256 → k < 64 → v < 2 ^ 64 → s.ready = true → s.funcExists f = true → s.msixEnable.get false f = false →
      exec (.registerWrite f 0 ((if f = 0 then 0x80000 else 0x18000) + 16 * k) 64 v) s = .next { s with
        msix := s.msix.set {} (msixKey f k) { s.msix.get {} (msixKey f k) with addr := BitVec.ofNat 64 (v / 4 * 4) } })

/-- ENGINE RESET. A request of 32 or 64 bits with the key resets everything but what R49 and R522 keep: the host's registers of PCIe (the VFs and
the MSI-X table), the time base's reading, the fuses; the hold begins, and BOOT_COUNT is kept until it ends. At the end of
the hold boot begins again (R522).
Completes: engineResetRequest, engineResetHoldEnd. -/
def Obligations.EngineReset : Prop :=
  (∀ (s : State) (w v : Nat), s.pins.porstN = true → w = 32 ∨ w = 64 → fld v 0 16 = 0xD9E5 → s.pins.thermtrip = false → s.hub.resetAsked = false →
      Yields (.engineResetRequest w v) s fun t =>
        ChangesOnly [.pins, .tap, .time, .hub, .log, .vfEnable, .numVfs, .msix, .msixEnable, .msixMask, .pans, .power, .sluWindow] State.reset t
          ∧ t.hub = { bootCount := s.hub.bootCount, configReady := s.hub.configReady, holdReset := true, resetAsked := true, bootE := s.time.now }
          ∧ t.pins = { s.pins with smbAlert := false } ∧ t.time.now = s.time.now ∧ t.tap = s.tap ∧ t.part = s.part
          ∧ t.vfEnable = s.vfEnable ∧ t.numVfs = s.numVfs ∧ t.log.queue = [] ∧ t.log.table = [] ∧ t.log.lost = 0
          ∧ t.power.charges = s.power.charges ∧ t.power.waiting = [] ∧ t.power.window = s.time.now / 1000000 ∧ t.sluWindow = s.time.now / 1000
          ∧ ∀ p, (t.pan p).active = none ∧ (t.pan p).background = none ∧ (t.pan p).loading = none
              ∧ ((s.pan p).run = .running → (t.pan p).run = .rampWait) ∧ ((s.pan p).run = .idle → (t.pan p).run = .idle))
  ∧ (∀ (s : State), s.hub.holdReset = true → s.pins.timeref = true → s.pins.hbmRefAbsent = [] → s.pins.sdsAbsent = [] →
      exec (.engineResetHoldEnd true true) s = .next { s.atTime (s.hub.bootE + 1000000) with
        hub := { s.hub with
          holdReset := false, stage := 1, booting := true, bootE := max s.time.now (s.hub.bootE + 1000000)
          bootCount := (s.hub.bootCount + 1) % 2 ^ 32, configReady := true } })
  ∧ (∀ (s : State) (b f : Bool), s.hub.holdReset = true → s.pins.sdsAbsent = [] →
      (s.pins.timeref = false ∨ b = false ∨ f = false) → s.pins.hbmRefAbsent = [] →
      Yields (.engineResetHoldEnd b f) s fun t => t.hub.holdReset = false ∧ t.hub.stage = 7 ∧ t.hub.booting = false
        ∧ t.hub.haltCause = (if s.pins.timeref = false then 1 else if b = false then 3 else 4) ∧ t.hub.bootCount = (s.hub.bootCount + 1) % 2 ^ 32)

/-- PANS. The governor admits the start that is first in its order when the charge keeps the envelope (R492, R493), and the fall of a pan on
which no operation is issuable, whose groups then leave (R108, R492); a pan operation issues when its input tiles are in, its set
is there, the drain has room and the pan runs (R99 to R103), a cold pan asks for its start, and one that ramps down asks for the
groups that have left (R108, R109); a set loads into the background registers and becomes valid with its tag (R101, R102, R271).
Completes: panStartAdmission, panRampDown, panOperationIssue, weightSetLoad, weightSetComplete. -/
def Obligations.Pans : Prop :=
  (∀ (s : State) (p t : Nat) (r : StartReq), p < 960 → s.power.firstReq = some r → r.pan = p → s.power.hold = false → s.hub.emergency = false →
      (s.cl (p / 96)).throttle = false → s.time.now ≤ t → s.chargeOk (s.riseCharge p (s.power.epoch + t)) = true → s.boostOk p = true →
      Yields (.panStartAdmission p t) s fun u => u.pans = s.pans.upd {} p (fun q => { q with run := .running, off := 0 }) ∧ u.time.now = t
        ∧ u.power = { s.power with
            waiting := s.power.waiting.filter (fun q => q.pan != p), charges := s.power.charges ++ [s.riseCharge p (s.power.epoch + t)] })
  ∧ (∀ (s : State) (p t : Nat), p < 960 → (s.pan p).run = .running ∨ (s.pan p).run = .rampWait → s.time.now ≤ t → s.issuable p = false →
      Yields (.panRampDown p t) s fun u =>
        if s.chargeOk (s.fallCharge p (s.power.epoch + t)) = true then
          (u.pan p).run = .falling (s.power.epoch + t) ∧ (u.pan p).off = (s.pan p).off ∧ u.time.now = t
            ∧ u.power.charges = s.power.charges ++ [s.fallCharge p (s.power.epoch + t)]
        else (u.pan p).run = .rampWait ∧ u.power = s.power ∧ u.time = s.time)
  ∧ (∀ (s u : State) (p i : Nat) (k : Cmd) (w : List Byte) (op : Option SetKey), p < 960 →
      u = ((s.panQueue p).filterMap fun k => refSec k.ref).dedup.foldl State.takeFrames s → u.nextMatrix p = some k → u.issuable p = true →
      (u.panNow p).run = .running ∨ (u.panNow p).run = .rampWait → ((u.cxOf k).allOps k.words)[k.ops]? = some (w, i, op) →
      Yields (.panOperationIssue p) s fun t => (∃ l, t.cmd? k.ref = some { k with ops := k.ops + 1, wsets := l }) ∧ (t.pan p).run = .running
        ∧ (∀ x ∈ u.unitsOf k, (t.un x).cur = some k.ref) ∧ ∀ g, u.opTag k = some g → hasTag (t.pan p).active g = true)
  ∧ (∀ (s u : State) (p : Nat) (k : Cmd), p < 960 →
      u = ((s.panQueue p).filterMap fun k => refSec k.ref).dedup.foldl State.takeFrames s → u.nextMatrix p = some k → u.issuable p = true →
      (u.panNow p).run = .idle ∨ (∃ t0, (u.panNow p).run = .falling t0 ∧ u.groupsOff p ≠ 0) →
      Yields (.panOperationIssue p) s fun t => (t.pan p).run = .waiting ∧ (t.pan p).off = u.groupsOff p ∧ t.cmds = u.cmds
        ∧ t.power.waiting = u.power.waiting ++ [{ pan := p, lc := k.lc, t := u.time.now }])
  ∧ (∀ (s s' : State) (p : Nat) (k : Cmd) (w : List Byte) (g : WTag) (x : Tens), p < 960 →
      (s.panQueue p).findSome? (fun k => (s.nextTag p k).map fun t => (k, t)) = some (k, w, g) →
      hasTag (s.pan p).background g = false → hasTag (s.pan p).loading g = false → s.backgroundFree p = true →
      ((s.cxOf k).weightAt w g).exec s = (.ok x, s') →
      Yields (.weightSetLoad p) s fun t => (t.pan p).background = none ∧ (t.pan p).active = (s'.pan p).active ∧ (t.pan p).loadingFor = some k.ref
        ∧ (t.pan p).loading.map WSet.tag = some g)
  ∧ (∀ (s : State) (p : Nat) (w : WSet), p < 960 → (s.pan p).loading = some w →
      Yields (.weightSetComplete p) s fun t => (t.pan p).background = some w ∧ (t.pan p).loading = none ∧ (t.pan p).active = (s.pan p).active
        ∧ ∀ k, (s.pan p).loadingFor.bind s.cmd? = some k → cOp k.word = 0x84 → k.phase = .executing → t.cmd? k.ref = some { k with phase := .written })

/-- UNIT QUEUES. One entry of a unit's queue is filled from the program whose turn it is; a full queue gives a latency-critical command the place of a
best-effort one, which goes back to its program (R269, R367).
Completes: queueAdmission. -/
def Obligations.UnitQueues : Prop :=
  (∀ (s : State) (c : Nat) (x : UnitKind) (b : Nat × Nat) (r : CmdRef), c < 480 → (s.un (unitNo c x)).queue.length < 8 →
      s.pickProgram (unitNo c x) false = some b → s.nextFor (unitNo c x) b = some (some r) →
      Yields (.queueAdmission c x) s fun t => (t.un (unitNo c x)).queue = (s.un (unitNo c x)).queue ++ [r] ∧ t.cmds = s.cmds)
  ∧ (∀ (s : State) (c : Nat) (x : UnitKind) (b : Nat × Nat), c < 480 → (s.un (unitNo c x)).queue.length < 8 →
      s.pickProgram (unitNo c x) false = some b → s.nextFor (unitNo c x) b = some none →
      (((s.issue b.1 b.2).takeFrames b.1).cmd? (.station b.1 b.2 ((s.sec b.1).head b.2))).isSome = true →
      Yields (.queueAdmission c x) s fun t => t.cmds = ((s.issue b.1 b.2).takeFrames b.1).cmds
        ∧ (t.un (unitNo c x)).queue = (((s.issue b.1 b.2).takeFrames b.1).un (unitNo c x)).queue ++ [.station b.1 b.2 ((s.sec b.1).head b.2)])
  ∧ (∀ (s : State) (c : Nat) (x : UnitKind) (b : Nat × Nat) (q r : CmdRef), c < 480 → 8 ≤ (s.un (unitNo c x)).queue.length →
      s.pickProgram (unitNo c x) true = some b → s.evict (unitNo c x) = some q →
      (s.updUn (unitNo c x) fun u => { u with queue := u.queue.filter fun y => y != q }).nextFor (unitNo c x) b = some (some r) →
      Yields (.queueAdmission c x) s fun t => (t.un (unitNo c x)).queue = ((s.un (unitNo c x)).queue.filter fun y => y != q) ++ [r] ∧ t.cmds = s.cmds)

/-- COMMANDS OF A UNIT. A command takes the frames that it reads; when its unit may execute it and its requests have their tokens it
runs its body; what the body produces is staged with its last write done, and nothing is visible before the commit (R208). A body
that fails fails the command (R209), with the loss of its context; a skipped command writes nothing (R185) and emits the EMPTY
frames of its routes (R251).
Completes: matmul, attend, vop, reduce, softmax, norm, activate, rope, topk, sample, stats, quant, requant, dequant, mask, rndfill,
copy, gather, scatter, mcast, prefetch, saveRes, restoreRes. -/
def Obligations.UnitCommands : Prop :=
  (∀ (s s0 s1 s2 : State) (i : Instr) (ref : CmdRef) (op u : Nat) (b : Body) (k k1 : Cmd) (a : Acc), RunsBody s i ref op b →
      s0 = (refSec ref).elim s s.takeFrames → UnitTurn s0 ref op u k →
      k.skipped = false → s1 = s0.chargeCmd k → s1.cmd? ref = some k1 → k1.held = [] →
      (b (s1.cxOf k1) k1.word { info := k1.infos.headD {} }).exec s1 = (.ok a, s2) →
      Yields i s fun t => Worked s2 t ref u a [a.info])
  ∧ (∀ (s s0 s1 s2 : State) (i : Instr) (ref : CmdRef) (op u e : Nat) (b : Body) (k k1 k2 : Cmd), RunsBody s i ref op b →
      s0 = (refSec ref).elim s s.takeFrames → UnitTurn s0 ref op u k →
      k.skipped = false → s1 = s0.chargeCmd k → s1.cmd? ref = some k1 → k1.held = [] →
      (b (s1.cxOf k1) k1.word { info := k1.infos.headD {} }).exec s1 = (.error e, s2) → s2.cmd? ref = some k2 → (s2.cx k2.ctx).life = .live →
      Yields i s fun t => LostWith s t k2.ctx e)
  ∧ (∀ (s s0 : State) (i : Instr) (ref : CmdRef) (op u : Nat) (k : Cmd), SkipsAs s i ref op → s0 = (refSec ref).elim s s.takeFrames →
      UnitTurn s0 ref op u k → k.skipped = true →
      Yields i s fun t => Worked s0 t ref u { prod := { frames := (s0.cxOf k).emptyFrames k.words } } k.infos)

/-- DATA MOVEMENT. A sender of MCAST asks its cluster for its tree, one tree is granted at a time, in order, once every destination has room
for the whole tile, and the granted sender delivers it (R138, R224); PREFETCH of a set starts its load when the background registers are free, and is
done at once when the set is there (R270); SAVE_RES and RESTORE_RES wait for the target's run, fail on a target that is
not theirs, and SAVE_RES gives up after 2,000 ms (R385, R387).
Completes: mcast, multicastReservationGrant, prefetch, saveResTimeout, saveRes, restoreRes. -/
def Obligations.DataMovement : Prop :=
  (∀ (s : State) (h st n u : Nat) (k : Cmd), UnitTurn s (.station h st n) 0x83 u k → mcSender k.word = true → k.skipped = false →
      (s.cl ((s.sec h).treeCluster st)).granted ≠ some (.station h st n) → (.station h st n) ∉ (s.cl ((s.sec h).treeCluster st)).trees →
      exec (.mcast (.station h st n)) s = .next (s.updCl ((s.sec h).treeCluster st) fun c => { c with trees := c.trees ++ [.station h st n] }))
  ∧ (∀ (s : State) (c h : Nat) (r : CmdRef) (l : List CmdRef) (k : Cmd), c < 10 → (s.cl c).granted = none → (s.cl c).trees = r :: l →
      s.cmd? r = some k → refSec r = some h → (∀ m ∈ s.roomsFor k, s.roomFree m = true) →
      exec (.multicastReservationGrant c) s = .next ((s.updCl c fun k => { k with trees := l, granted := some r }).updRun h fun q =>
        { q with rooms := q.rooms ++ s.roomsFor k }))
  ∧ (∀ (s : State) (c h : Nat) (r : CmdRef) (l : List CmdRef) (k : Cmd), c < 10 → (s.cl c).granted = none → (s.cl c).trees = r :: l →
      s.cmd? r = some k → refSec r = some h → (∃ m ∈ s.roomsFor k, s.roomFree m = false) → exec (.multicastReservationGrant c) s = .next s)
  ∧ (∀ (s s0 s1 s2 : State) (h st n u : Nat) (k k0 k1 : Cmd) (a : Acc), UnitTurn s (.station h st n) 0x83 u k → mcSender k.word = true → k.skipped = false →
      (s.cl ((s.sec h).treeCluster st)).granted = some (.station h st n) → s0 = s.takeFrames h → UnitTurn s0 (.station h st n) 0x83 u k0 →
      k0.skipped = false → s1 = s0.chargeCmd k0 → s1.cmd? (.station h st n) = some k1 → k1.held = [] →
      (bodyMcastSend (s1.cxOf k1) k1.word { info := k1.infos.headD {} }).exec s1 = (.ok a, s2) →
      Yields (.mcast (.station h st n)) s fun t => Worked s2 t (.station h st n) u a [a.info] ∧ (t.cl ((s.sec h).treeCluster st)).granted = none)
  ∧ (∀ (s s1 : State) (h st n u : Nat) (k : Cmd) (w : WSet), UnitTurn s (.station h st n) 0x84 u k → fld (at1 k.word 12) 0 2 ≠ 0 → k.skipped = false →
      ((s.cxOf k).prefetchSet k.word).exec s = (.ok w, s1) → hasTag (s1.pan (2 * (u / 5) + u % 5)).active w.tag = false →
      hasTag (s1.pan (2 * (u / 5) + u % 5)).background w.tag = false → s1.backgroundFree (2 * (u / 5) + u % 5) = true →
      Yields (.prefetch (.station h st n)) s fun t =>
        t.pan (2 * (u / 5) + u % 5) = { s1.pan (2 * (u / 5) + u % 5) with background := none, loading := some w, loadingFor := some (.station h st n) }
          ∧ ∀ c ∈ t.cmds, c.ref = .station h st n → c.phase = .executing)
  ∧ (∀ (s s1 : State) (h st n u : Nat) (k : Cmd) (w : WSet), UnitTurn s (.station h st n) 0x84 u k → fld (at1 k.word 12) 0 2 ≠ 0 → k.skipped = false →
      ((s.cxOf k).prefetchSet k.word).exec s = (.ok w, s1) →
      hasTag (s1.pan (2 * (u / 5) + u % 5)).active w.tag = true ∨ hasTag (s1.pan (2 * (u / 5) + u % 5)).background w.tag = true →
      Yields (.prefetch (.station h st n)) s fun t => t.pans = s1.pans ∧ ∀ c ∈ t.cmds, c.ref = .station h st n → c.phase = .written)
  ∧ (∀ (s : State) (i : Instr) (ref : CmdRef) (k : Cmd) (h : Nat), (i = .saveRes ref ∧ cOp k.word = 0x85 ∧ (s.sec h).swapped = false) ∨ (i = .restoreRes ref ∧ cOp k.word = 0x86) →
      s.cmd? ref = some k → k.phase = .issued → k.skipped = false → s.swapTarget k = .ok h → s.inRun h = true → exec i s = .next s)
  ∧ (∀ (s : State) (i : Instr) (ref : CmdRef) (k : Cmd) (e : Nat), (i = .saveRes ref ∧ cOp k.word = 0x85) ∨ (i = .restoreRes ref ∧ cOp k.word = 0x86) →
      s.cmd? ref = some k → k.phase = .issued → k.skipped = false → s.swapTarget k = .error e → (s.cx k.ctx).life = .live →
      Yields i s fun t => LostWith s t k.ctx e)
  ∧ (∀ (s : State) (ref : CmdRef) (k : Cmd), s.cmd? ref = some k → cOp k.word = 0x85 → k.phase = .issued → k.skipped = false → s.inRun (at4 k.word 12) = true →
      (s.cx k.ctx).life = .live → Yields (.saveResTimeout ref) s fun t => LostWith s t k.ctx 0x0301 ∧ t.time.now = max s.time.now (k.reached + 2000000000))

/-- WAIT, SIGNAL, EVENT, BARRIER AND WAIT CYCLES. A WAIT has done its work once its fence holds its value (R226), fails with FENCE_ABANDONED on a fence that was
abandoned below it unless it accepts that (R345), and waits meanwhile; its timeout fails it with WAIT_TIMEOUT (R226). A
SIGNAL and an EVENT go on once every earlier command of the program has committed, and the fence changes only at the
commit (R227); the BARRIERs of one generation go on together (R227); a skipped one, and a
skipped PATCH, does nothing and goes on (R185). A scan for wait cycles at the start of a millisecond
fails, with WAIT_CYCLE, the waits that the scan before it found in a cycle whose fences have not changed, and notes the
others (R391 to R394).
Completes: wait, waitTimeoutExpiry, signal, event, barrier, waitCycleScan, patch. -/
def Obligations.Synchronisation : Prop :=
  (∀ (s u : State) (ref : CmdRef) (k : Cmd) (v : Nat), Turn s u ref 0xA0 k → u.fenceRight k.ctx k.word = true → u.waitOn k = .reached v →
      Yields (.wait ref) s fun t => t.fences = u.fences
        ∧ t.cmd? ref = some { k with infos := k.infos.map (fun r => { r with value := v }), phase := .written })
  ∧ (∀ (s u : State) (ref : CmdRef) (k : Cmd) (v : Nat), Turn s u ref 0xA0 k → u.fenceRight k.ctx k.word = true → u.waitOn k = .abandoned v →
      bit (at1 k.word 14) 0 = true → Yields (.wait ref) s fun t =>
        t.cmd? ref = some { k with infos := k.infos.map (fun r => { r with abandoned := true, value := v }), phase := .written })
  ∧ (∀ (s u : State) (ref : CmdRef) (k : Cmd) (v : Nat), Turn s u ref 0xA0 k → u.fenceRight k.ctx k.word = true → u.waitOn k = .abandoned v →
      bit (at1 k.word 14) 0 = false → (u.cx k.ctx).life = .live → Yields (.wait ref) s fun t => LostWith s t k.ctx 0x0303)
  ∧ (∀ (s u : State) (ref : CmdRef) (k : Cmd), Turn s u ref 0xA0 k → u.fenceRight k.ctx k.word = true → u.waitOn k = .pending → exec (.wait ref) s = .next u)
  ∧ (∀ (s : State) (ref : CmdRef) (k : Cmd), s.cmd? ref = some k → (cOp k.word = 0xA0 ∧ s.waitOn k = .pending) ∨ (cOp k.word = 0xA3 ∧ s.barrierMet ref = false) → k.phase = .issued →
      k.skipped = false → (s.cx k.ctx).life = .live → Yields (.waitTimeoutExpiry ref) s fun t => LostWith s t k.ctx 0x0301
        ∧ t.time.now = max s.time.now (k.reached + 1000000 * (if at2 k.word 12 = 0 then 2000 else at2 k.word 12)))
  ∧ (∀ (s u : State) (ref : CmdRef) (k : Cmd), Turn s u ref 0xA1 k → u.fenceRight k.ctx k.word = true → u.earlierDone ref = true →
      bit (at1 k.word 14) 0 = false ∨ u.hzn.domainOf k.ctx ≠ 0 →
      Yields (.signal ref) s fun t => t.fences = u.fences ∧ ∃ is, t.cmd? ref = some { k with
        phase := .written, infos := is
        sig := some { handle := at4 k.word 8, value := k.fenceValue, engine := if bit (at1 k.word 14) 0 then some (fld (leAt k.word 24 3) 0 18) else none } })
  ∧ (∀ (s u : State) (ref : CmdRef) (k : Cmd), Turn s u ref 0xA1 k → u.fenceRight k.ctx k.word = false → (u.cx k.ctx).life = .live →
      Yields (.signal ref) s fun t => LostWith s t k.ctx 0x0202)
  ∧ (∀ (s u : State) (ref : CmdRef) (k : Cmd), Turn s u ref 0xA2 k → u.earlierDone ref = true →
      Yields (.event ref) s fun t => t.cmd? ref = some { k with phase := .written })
  ∧ (∀ (s u : State) (h st i g : Nat) (k : Cmd), Turn s u (.station h st i) 0xA3 k → st < (u.sec h).nStations →
      ((u.sec h).barriers st (fld (at1 k.word 8) 0 4)).findIdx? (· == i) = some g →
      (∀ t < (u.sec h).nStations, (u.sec h).barriers t (fld (at1 k.word 8) 0 4) ≠ [] →
        ∃ j, ((u.sec h).barriers t (fld (at1 k.word 8) 0 4))[g]? = some j ∧ u.atBarrier h t j = true
          ∧ ∀ c, u.cmd? (.station h t j) = some c → c.skipped = true ∨ u.time.now < c.reached + 1000000 * (if at2 c.word 12 = 0 then 2000 else at2 c.word 12)) →
      Yields (.barrier (.station h st i)) s fun t => ∀ p < (u.sec h).nStations, ∀ j c, ((u.sec h).barriers p (fld (at1 k.word 8) 0 4))[g]? = some j →
        u.issued? (.station h p j) 0xA3 = some c → c.skipped = false → t.cmd? (.station h p j) = some { c with phase := .written })
  ∧ (∀ (s u : State) (i : Instr) (ref : CmdRef) (op : Nat) (k : Cmd),
      (i, op) ∈ [(Instr.wait ref, 0xA0), (.patch ref, 0xE0)] ∨ ((i, op) ∈ [(Instr.signal ref, 0xA1), (.event ref, 0xA2), (.barrier ref, 0xA3)] ∧ u.earlierDone ref = true) →
      u = s.takeUp ref op → u.issued? ref op = some k → k.skipped = true → Yields i s fun t => t.fences = u.fences ∧ t.secs = u.secs
        ∧ t.cmd? ref = some { k with phase := .written })
  ∧ (∀ (s u : State) (W V : List CmdRef) (val : CmdRef → Nat), s.ready = true → u = s.atTime ((s.time.now + 999999) / 1000000 * 1000000) →
        W = u.cycleOf u.submitted u.waitTable.length u.waitTable →
        val = (fun w => ((u.cmd? w).bind fun k => (u.fenceSlot (at4 k.word 8)).map fun i => (u.fe i).value).getD 0) →
        V = u.cycleOf u.submitted W.length (W.filter fun w => u.scanSet.contains (w, val w)) →
        Yields .waitCycleScan s fun t => t.scanSet = (W.filter fun w => !V.contains w).map (fun w => (w, val w)) ∧ t.time = u.time
          ∧ t = V.foldl (fun x w => x.failCmd w 0x0302) { u with scanSet := (W.filter fun w => !V.contains w).map fun w => (w, val w) }
          ∧ ∀ w k, V.head? = some w → u.cmd? w = some k → (u.cx k.ctx).life = .live → LostWith s t k.ctx 0x0302)

/-- PATCH, REPLAY, RUNS AND CHAINS. A PATCH checks every value before any register changes (R231); a REPLAY starts as many runs as it counts and one of
none is done at once (R232, R233); a run starts with fresh formats and route numbers, and takes the partition's turn when
it is latency-critical (R268, R365); a chain runs its members in turn on units that it holds (R112, R235).
Completes: patch, replay, runStart, chain. -/
def Obligations.RunControl : Prop :=
  (∀ (s u v : State) (ref : CmdRef) (k : Cmd) (h : Nat) (l : List (Nat × Word)), Turn s u ref 0xE0 k → u.patchTarget k = .ok h → u.targetRests k h = true →
      u.patchValues k h = (.ok l, v) → (∀ e ∈ l, v.regCheck h e.1 e.2.toNat = 0) →
      Yields (.patch ref) s fun t => t.secs = v.secs ∧ ∀ c, v.cmd? ref = some c → t.cmd? ref = some { c with regWrites := l, target := h, phase := .written })
  ∧ (∀ (s u : State) (ref : CmdRef) (k : Cmd) (e : Nat), Turn s u ref 0xE0 k → u.patchTarget k = .error e → (u.cx k.ctx).life = .live →
      Yields (.patch ref) s fun t => LostWith s t k.ctx e)
  ∧ (∀ (s : State) (ref : CmdRef) (k : Cmd) (h : Nat), s.issued? ref 0xE1 = some k → s.patchTarget k = .ok h → s.targetRests k h = true → at4 k.word 16 = 0 →
      Yields (.replay ref) s fun t => t.replays = s.replays ∧ t.cmd? ref = some { k with phase := .written })
  ∧ (∀ (s : State) (ref : CmdRef) (k : Cmd) (h : Nat), s.issued? ref 0xE1 = some k → s.patchTarget k = .ok h → s.targetRests k h = true → at4 k.word 16 ≠ 0 →
      Yields (.replay ref) s fun t => t.cmd? ref = some { k with phase := .executing, target := h }
        ∧ ∃ r, t.replays = s.replays ++ [r] ∧ r.ref = ref ∧ r.sec = h ∧ r.left = at4 k.word 16 ∧ r.stepImm = at8 k.word 24)
  ∧ (∀ (s : State) (h : Nat), s.mayStart h = true → Yields (.runStart h) s fun t => (∃ g, (t.sec h).run = some { ring := g, started := s.time.now })
        ∧ (t.sec h).fmts = [] ∧ (t.sec h).tscales = [] ∧ (t.sec h).runNo = ((s.sec h).runNo + 1) % 2 ^ 32 ∧ (t.sec h).regs = (s.sec h).regs
        ∧ ((s.sec h).lc = true → (t.pt (s.sec h).part).lcRun = some h ∧ (t.pt (s.sec h).part).lcWait = (s.pt (s.sec h).part).lcWait.drop 1))
  ∧ (∀ (s u v w : State) (ref : CmdRef) (k c : Cmd) (p : Made) (is : List RecInfo), u = (refSec ref).elim (s.takeUp ref 0xE2) (s.takeUp ref 0xE2).takeFrames →
      u.issued? ref 0xE2 = some k → k.skipped = false → u.runnable ref = true → u.mayUse k = true → v = u.chargeCmd k →
      v.cmd? ref = some c → c.held = [] → ((v.cxOf c).runChain c.members (c.infos.drop 1)).exec v = (.ok (p, is), w) →
      Yields (.chain ref) s fun t => ∀ d, w.cmd? ref = some d → t.cmd? ref = some { d with
        staged := d.staged ++ p.staged, regWrites := d.regWrites ++ p.regs, descTs := d.descTs ++ p.ts
        infos := c.infos.headD {} :: is, taken := [], phase := .written })
  ∧ (∀ (s u : State) (ref : CmdRef) (k : Cmd), u = (refSec ref).elim (s.takeUp ref 0xE2) (s.takeUp ref 0xE2).takeFrames →
      u.issued? ref 0xE2 = some k → k.skipped = true → u.runnable ref = true → u.mayUse k = true →
      Yields (.chain ref) s fun t => t.cmd? ref = some { k with taken := [], phase := .written } ∧ t.hbm = u.hbm ∧ t.chip = u.chip)

/-- COMMITS. A command that has done its last write commits, alone or with its group, unless the saturation trigger fails it or widens it to run
again (R167 to R169, R208, R257, R258).
Completes: commandCommit, streamGroupCommit. -/
def Obligations.Commits : Prop :=
  (∀ (s : State) (ref : CmdRef) (k : Cmd), s.cmd? ref = some k → s.readyToCommit k = true → s.groupRoutes ref = [] →
      (∀ c ∈ s.withPeers k, s.triggered c = []) → exec (.commandCommit ref) s = .next (s.commitAll (s.withPeers k)))
  ∧ (∀ (s : State) (ref : CmdRef) (ks : List Cmd), s.wholeGroup ref = some ks → s.groupRoutes ref ≠ [] → (∀ k ∈ ks, s.readyToCommit k = true ∧ s.triggered k = []) →
      exec (.streamGroupCommit ref) s = .next (s.commitAll ks))
  ∧ (∀ (s : State) (ref : CmdRef) (k : Cmd), s.cmd? ref = some k → s.readyToCommit k = true → s.groupRoutes ref = [] →
      (∃ e ∈ s.triggered k, cSatPol e.2 = 2) → (s.cx k.ctx).life = .live → Yields (.commandCommit ref) s fun t => LostWith s t k.ctx 0x0402)
  ∧ (∀ (s : State) (ref : CmdRef) (k : Cmd) (e : Nat × List Byte) (f : Nat), s.cmd? ref = some k → s.readyToCommit k = true → s.groupRoutes ref = [] →
      (∀ e ∈ s.triggered k, cSatPol e.2 ≠ 2) → s.triggered k = [e] → cSatPol e.2 = 1 → widerFmt (s.dstFmt k e.2) = some f → e.1 < k.infos.length →
      Yields (.commandCommit ref) s fun t => ∃ c, t.cmd? ref = some c ∧ c.phase = .killed ∧ c.killCause = 6 ∧ c.staged = []
        ∧ (at2 e.2 (mainDst (cOp e.2)), f) ∈ c.descFmt ∧ (c.infos.getD e.1 {}).final = f
        ∧ (c.infos.getD e.1 {}).widenings = (k.infos.getD e.1 {}).widenings + 1)

/-- KILLS AND FRAMES. At the end of its wait a latency-critical command has the unit's best-effort command killed with its group (R369, R371); a killed
command that is to run again is issued again with its resolved values (R371), after a parity error or a widening at its queue's head
(R123); a frame leaves its producer when every
consumer has room and the sluices serve it (R254, R255); a route that stalls for 2,000 ms fails with WAIT_TIMEOUT (R256).
Completes: preemptWaitExpiry, killComplete, frameEmit, routeStallTimeout. -/
def Obligations.KillsAndFrames : Prop :=
  (∀ (s : State) (c : Nat) (x : UnitKind) (be lc : Cmd), c < 480 → s.beRunning (unitNo c x) = some be → s.lcWaiting (unitNo c x) = some lc →
      (∀ r ∈ s.killable be.ref, ∀ k, s.cmd? r = some k → cOp k.word / 32 ≠ 6) →
      Yields (.preemptWaitExpiry c x) s fun t =>
        t.time.now = max s.time.now (lc.reached + 10 * fld (s.pt (s.sec ((refSec lc.ref).getD 0)).part).rt.toNat 8 12)
          ∧ (t.pt (s.sec ((refSec be.ref).getD 0)).part).preempt = satadd 32 (s.pt (s.sec ((refSec be.ref).getD 0)).part).preempt (s.killable be.ref).length
          ∧ ∀ r ∈ s.killable be.ref, (t.cmd? r).map (fun k => (k.phase, k.killCause, k.staged, k.regWrites)) = some (.killed, 1, [], []))
  ∧ (∀ (s : State) (ref : CmdRef) (k : Cmd), s.cmd? ref = some k → k.phase = .killed → k.killCause ≠ 2 → k.killCause ≠ 3 → k.killCause ≠ 4 →
      Yields (.killComplete ref) s fun t => (t.cmd? ref).map (fun c => (c.phase, c.word, c.regs, c.bounds, c.descFmt)) = some (.issued, k.word, k.regs, k.bounds, k.descFmt)
        ∧ ∀ h st i u, ref = .station h st i → (s.sec h).unitFor st k.word = some u → k.killCause ≠ 1 → (s.un u).queue.length < 8 → (t.un u).queue = ref :: (s.un u).queue)
  ∧ (∀ (s : State) (ref : CmdRef) (k : Cmd), s.cmd? ref = some k → k.phase = .killed → k.killCause = 2 ∨ k.killCause = 3 ∨ k.killCause = 4 →
      Yields (.killComplete ref) s fun t => t.cmd? ref = none)
  ∧ (∀ (s : State) (h r i : Nat) (run : Run) (f : Nat × SFrame), (s.sec h).run = some run → (run.heldFrames.findIdx? fun e => e.1 == r) = some i →
      run.heldFrames[i]? = some f → r < (s.sec h).nRoutes → (∀ st ∈ (s.sec h).consumers r, (s.sec h).roomFor run r st = true) →
      (s.chargeAll (s.sec h).lc (s.frameTokens (s.sec h) r f.2)).1 = [] →
      Yields (.frameEmit h r) s fun t => ∃ q, (t.sec h).run = some q ∧ q.heldFrames = run.heldFrames.eraseIdx i ∧ q.moved.get 0 r = s.time.now)
  ∧ (∀ (s : State) (h st i : Nat) (k : Cmd), s.cmd? (.station h st i) = some k → s.groupRoutes (.station h st i) ≠ [] → k.phase ≠ .recording → k.phase ≠ .killed →
      k.phase ≠ .written → (.station h st i) ∈ s.groupRefs (.station h st i) → (s.cx k.ctx).life = .live →
      Yields (.routeStallTimeout (.station h st i)) s fun t => LostWith s t k.ctx 0x0301 ∧ s.time.now ≤ t.time.now)

/-- SLUICES. At the start of a microsecond every token bucket gets its rate, up to its depth (R374).
Completes: sluiceWindow. -/
def Obligations.Sluices : Prop :=
  ∀ s : State, s.ready = true → (∀ k ∈ s.cmds, k.held = []) →
    Yields .sluiceWindow s fun t => t.time.now = max s.time.now ((s.sluWindow + 1) * 1000) ∧ t.sluWindow = t.time.now / 1000
      ∧ ∀ p < 16, ∀ r, ∀ i < sluInsts r, t.tokens.get 0 (sluKey p r i)
          = min (sluDepth ((s.pt p).sluice r)) (s.tokens.get 0 (sluKey p r i) + sluRate ((s.pt p).sluice r))

/-- SEND AND RECV. A SEND reads its source, numbers its message and sends its RTS; a RECV takes the first held RTS that matches and
answers with CTS, or waits; a domain of 0 fails either (R407, R408); a skipped one sends nothing
and takes no RTS (R185).
Completes: send, recv. -/
def Obligations.SendReceive : Prop :=
  (∀ (s v w : State) (ref : CmdRef) (k : Cmd) (b : List Byte), HznTurn s v ref 0xC0 k → ((v.cxOf k).msgBytes none (at2 k.word 8)).exec v = (.ok b, w) →
      Yields (.send ref) s fun t => t.hzn.nextMsg = (w.hzn.nextMsg + 1) % 2 ^ 32
        ∧ ∃ m, t.hzn.msgs = w.hzn.msgs ++ [m] ∧ m.num = w.hzn.nextMsg ∧ m.sending = true ∧ m.peer = fld (leAt k.word 16 3) 0 18 ∧ m.key = at4 k.word 20
            ∧ m.cmd = some ref ∧ m.domain = w.hzn.domainOf k.ctx ∧ m.lines = padLines b)
  ∧ (∀ (s v : State) (ref : CmdRef) (k : Cmd), HznTurn s v ref 0xC1 k →
      (v.hzn.rtsHeld.find? fun m => m.peer == fld (leAt k.word 16 3) 0 18 && m.key == at4 k.word 20 && m.domain == v.hzn.domainOf k.ctx) = none →
      exec (.recv ref) s = .next v)
  ∧ (∀ (s v : State) (ref : CmdRef) (k : Cmd) (m : Msg), HznTurn s v ref 0xC1 k →
      (v.hzn.rtsHeld.find? fun m => m.peer == fld (leAt k.word 16 3) 0 18 && m.key == at4 k.word 20 && m.domain == v.hzn.domainOf k.ctx) = some m →
      m.fmt % 256 = ((v.cxOf k).tref (at2 k.word 10)).fmt → m.extents = ((v.cxOf k).tref (at2 k.word 10)).ext → m.whole = false →
      Yields (.recv ref) s fun t => t.hzn.msgs = v.hzn.msgs ++ [{ m with cmd := some ref }] ∧ t.hzn.rtsHeld.length + 1 = v.hzn.rtsHeld.length)
  ∧ (∀ (s u : State) (i : Instr) (ref : CmdRef) (op : Nat) (k : Cmd), (i, op) ∈ [(Instr.send ref, 0xC0), (.recv ref, 0xC1), (.allreduce ref, 0xC2),
        (.allgather ref, 0xC3), (.rscatter ref, 0xC4), (.ringpass ref, 0xC5)] → u = s.takeUp ref op → u.issued? ref op = some k → k.skipped = true →
      u.framesIn k = true → Yields i s fun t => t.hzn = u.hzn ∧ t.out = u.out
        ∧ t.cmd? ref = some { k with taken := [], phase := .written })
  ∧ (∀ (s u : State) (i : Instr) (ref : CmdRef) (op : Nat) (k : Cmd), (i, op) ∈ [(Instr.send ref, 0xC0), (.recv ref, 0xC1), (.allreduce ref, 0xC2),
        (.allgather ref, 0xC3), (.rscatter ref, 0xC4), (.ringpass ref, 0xC5)] → u = s.takeUp ref op → u.issued? ref op = some k → k.skipped = false →
      u.hzn.domainOf k.ctx = 0 → (u.cx k.ctx).life = .live → Yields i s fun t => LostWith s t k.ctx 0x0202)

/-- COLLECTIVES. A collective reads its group and fills its arrays; its steps exchange chunks with one partner each; with no step to make it writes
its result at once, and a group that names this engine nowhere or an engine twice fails it (R229, R411, R412).
Completes: allreduce, allgather, rscatter, ringpass. -/
def Obligations.Collectives : Prop :=
  (∀ (s v w : State) (i : Instr) (ref : CmdRef) (op : Nat) (k c : Cmd) (co : Coll) (b : List Byte) (r : RecInfo),
      (i, op) ∈ [(Instr.allreduce ref, 0xC2), (.allgather ref, 0xC3), (.rscatter ref, 0xC4), (.ringpass ref, 0xC5)] → HznTurn s v ref op k →
      ((v.cxOf k).collOpen k.word v.hzn.engineId { info := k.infos.headD {} }).exec v = (.ok (co, b, r), w) → w.hzn.rtsHeld.find? (w.staleRts k co) = none →
      w.cmd? ref = some c → Yields i s fun t =>
        let u := w.updCmd ref fun k => { k with acc := b, ops := 0, infos := [r] }
        let d := { c with acc := b, ops := 0, infos := [r] }
        t = if co.steps = 0 then u.hznFinish d (bodyColl co b) else (u.stepBegin d co).collAdvance ref (co.steps + 1))
  ∧ (∀ (s v w : State) (i : Instr) (ref : CmdRef) (op e : Nat) (k c : Cmd),
      (i, op) ∈ [(Instr.allreduce ref, 0xC2), (.allgather ref, 0xC3), (.rscatter ref, 0xC4), (.ringpass ref, 0xC5)] → HznTurn s v ref op k →
      ((v.cxOf k).collOpen k.word v.hzn.engineId { info := k.infos.headD {} }).exec v = (.error e, w) → w.cmd? ref = some c → (w.cx c.ctx).life = .live →
      Yields i s fun t => LostWith s t c.ctx e)

/-- RENDEZVOUS. An RTS of a domain that no live context has is refused and counted, one that meets nothing is held, and one that finds no room
among 4,096 gets BUSY (R407, R408); CTS lets every segment leave; REFUSE fails the sender with the status that it names; a
busy sender asks again 100 µs later (R408); a remote signal that its fence's owner, domain and filter admit raises the
fence (R344).
Completes: rts, cts, refuse, busy, rtsRetry, remoteSignal. -/
def Obligations.Rendezvous : Prop :=
  (∀ (s v : State) (p : Nat) (b : List Byte), Accepted s p b 2 1 → v = s.linkTook p b →
      (rtsMsg (parseFr b)).domain = 0 ∨ (∀ e ∈ s.ctxs, e.2.life = .live → s.hzn.domainOf e.1 ≠ (rtsMsg (parseFr b)).domain) →
      Yields (.rts p b) s fun t => t.hzn.dropDomain = satinc 32 s.hzn.dropDomain ∧ t.hzn.rtsHeld = s.hzn.rtsHeld ∧ t.hzn.msgs = s.hzn.msgs ∧ t.cmds = s.cmds)
  ∧ (∀ (s v : State) (p : Nat) (b : List Byte), Accepted s p b 2 1 → v = s.linkTook p b → (rtsMsg (parseFr b)).domain ≠ 0 →
      (∃ e ∈ s.ctxs, e.2.life = .live ∧ s.hzn.domainOf e.1 = (rtsMsg (parseFr b)).domain) → v.recvFor (rtsMsg (parseFr b)) = none →
      v.collFor (rtsMsg (parseFr b)) = none → v.behindFor (rtsMsg (parseFr b)) = none →
      Yields (.rts p b) s fun t => t.cmds = s.cmds ∧ t.hzn.msgs = s.hzn.msgs
        ∧ t.hzn.rtsHeld = if s.hzn.rtsHeld.length < 4096 then s.hzn.rtsHeld ++ [rtsMsg (parseFr b)] else s.hzn.rtsHeld)
  ∧ (∀ (s v : State) (p : Nat) (b : List Byte) (k : Cmd), Accepted s p b 2 1 → v = s.linkTook p b → (rtsMsg (parseFr b)).domain ≠ 0 →
      (∃ e ∈ s.ctxs, e.2.life = .live ∧ s.hzn.domainOf e.1 = (rtsMsg (parseFr b)).domain) → v.recvFor (rtsMsg (parseFr b)) = some k →
      (rtsMsg (parseFr b)).fmt % 256 = ((v.cxOf k).tref (at2 k.word 10)).fmt → (rtsMsg (parseFr b)).extents = ((v.cxOf k).tref (at2 k.word 10)).ext →
      0 < (rtsMsg (parseFr b)).length → Yields (.rts p b) s fun t => t.hzn.msgs = s.hzn.msgs ++ [{ rtsMsg (parseFr b) with cmd := some k.ref }])
  ∧ (∀ (s v : State) (p : Nat) (b : List Byte) (m : Msg), Accepted s p b 2 2 → v = s.linkTook p b → v.msg? true (parseFr b).src (parseFr b).msg = some m → m.cts = false →
      Yields (.cts p b) s fun t => ∃ n, t.msg? true m.peer m.num = some n ∧ n.cts = true ∧ n.lines = m.lines ∧ ∀ g < segCount m.length, ∃ e ∈ n.sent, e.1 = g)
  ∧ (∀ (s v : State) (p : Nat) (b : List Byte) (m : Msg) (r : CmdRef) (k : Cmd), Accepted s p b 2 3 → v = s.linkTook p b →
      v.msg? true (parseFr b).src (parseFr b).msg = some m → m.cmd = some r → s.cmd? r = some k → (s.cx k.ctx).life = .live →
      Yields (.refuse p b) s fun t => t.msg? true m.peer m.num = none ∧ LostWith s t k.ctx (if at2 (parseFr b).payload 0 = 0x0202 then 0x0202 else 0x0103))
  ∧ (∀ (s v : State) (p : Nat) (b : List Byte) (m : Msg), Accepted s p b 2 9 → v = s.linkTook p b → v.msg? true (parseFr b).src (parseFr b).msg = some m →
      Yields (.busy p b) s fun t => t.msg? true m.peer m.num = some { m with busyAt := some s.time.now })
  ∧ (∀ (s : State) (n t0 : Nat) (m : Msg), (s.hzn.msgs.find? fun m => m.sending && m.num == n) = some m → m.busyAt = some t0 →
      Yields (.rtsRetry n) s fun t => t.time.now = max s.time.now (t0 + 100000)
        ∧ (t.hzn.msgs.find? fun m => m.sending && m.num == n) = some { m with busyAt := none })
  ∧ (∀ (s : State) (p : Nat) (b : List Byte) (i : Nat), Accepted s p b 2 8 → s.fenceSlot (at4 (parseFr b).payload 0) = some i → (s.fe i).life = .live →
      s.hzn.domainOf (s.fe i).owner = (parseFr b).domain → (parseFr b).domain ≠ 0 → (s.fe i).remote = true →
      (parseFr b).src &&& (s.fe i).mask = (s.fe i).base &&& (s.fe i).mask →
      Yields (.remoteSignal p b) s fun t => (t.fe i).value = max (s.fe i).value (at8 (parseFr b).payload 8) ∧ (t.fe i).life = .live ∧ t.remoteDrop = s.remoteDrop)

/-- DATA. Lines are written by OFFSET and counted once; SEG_DONE and DONE are noted, and a SEND whose message is done has done its work; a
segment without its SEG_DONE is sent again after 1 ms; ABORT, GROUP_ABORT and 2,000 ms without a line fail the command
with WAIT_TIMEOUT (R408, R410, R412).
Completes: data, segDone, segmentTimeout, done, abort, groupAbort, horizonInactivityTimeout. -/
def Obligations.MessageData : Prop :=
  (∀ (s v : State) (p : Nat) (b : List Byte) (m n : Msg), Accepted s p b 1 0 → v = s.linkTook p b → v.msg? false (parseFr b).src (parseFr b).msg = some m →
      n = { m with
        lines := overlayAt (m.lines ++ List.replicate (64 * m.length - m.lines.length) 0) (64 * (parseFr b).offset)
          ((parseFr b).payload.take (64 * min (parseFr b).len (m.length - (parseFr b).offset))),
        got := (m.got ++ tab (min (parseFr b).len (m.length - (parseFr b).offset)) fun i => (parseFr b).offset + i).dedup } → n.whole = false ∨ m.whole = true →
      Yields (.data p b) s fun t => t.msg? false m.peer m.num = some n)
  ∧ (∀ (s v : State) (p : Nat) (b : List Byte) (m : Msg), Accepted s p b 2 4 → v = s.linkTook p b → v.msg? true (parseFr b).src (parseFr b).msg = some m →
      Yields (.segDone p b) s fun t => t.msg? true m.peer m.num = some { m with acked := (m.acked ++ [(parseFr b).aux]).dedup })
  ∧ (∀ (s : State) (n g t0 : Nat) (m : Msg), (s.hzn.msgs.find? fun m => m.sending && m.num == n) = some m → m.cts = true → m.complete = false →
      (m.sent.find? fun e => e.1 == g) = some (g, t0) → g ∉ m.acked →
      Yields (.segmentTimeout n g) s fun t => t.time.now = max s.time.now (t0 + 1000000)
        ∧ (t.hzn.msgs.find? fun m => m.sending && m.num == n) = some { m with sent := m.sent.put g t.time.now })
  ∧ (∀ (s v : State) (p : Nat) (b : List Byte) (m : Msg) (r : CmdRef) (k : Cmd), Accepted s p b 2 5 → v = s.linkTook p b →
      v.msg? true (parseFr b).src (parseFr b).msg = some m → m.group = false → m.cmd = some r → s.cmd? r = some k →
      Yields (.done p b) s fun t => t.msg? true m.peer m.num = none ∧ (t.cmd? r).map Cmd.phase = some .written)
  ∧ (∀ (s v : State) (p : Nat) (b : List Byte) (m : Msg), Accepted s p b 2 5 → v = s.linkTook p b →
      v.msg? true (parseFr b).src (parseFr b).msg = some m → m.group = true → (∀ r, m.cmd = some r → s.cmd? r = none) →
      Yields (.done p b) s fun t => t.msg? true m.peer m.num = some { m with complete := true })
  ∧ (∀ (s : State) (p : Nat) (b : List Byte) (m : Msg) (r : CmdRef) (k : Cmd), Accepted s p b 2 6 →
      (s.hzn.msgs.filter fun m => m.peer == (parseFr b).src && m.num == (parseFr b).msg && m.key == (parseFr b).key && !m.group) = [m] → m.cmd = some r →
      s.cmd? r = some k → (s.cx k.ctx).life = .live →
      Yields (.abort p b) s fun t => LostWith s t k.ctx 0x0301 ∧ ∀ x ∈ t.hzn.rtsHeld, ¬(x.peer = (parseFr b).src ∧ x.num = (parseFr b).msg))
  ∧ (∀ (s v : State) (p : Nat) (b : List Byte) (k : Cmd), Accepted s p b 2 7 → v = s.linkTook p b →
      (v.hznCmds.find? fun k => decide (0xC2 ≤ cOp k.word) && v.hzn.domainOf k.ctx == (parseFr b).domain && v.collKey k == (parseFr b).key) = some k →
      s.cmd? k.ref = some k → (s.cx k.ctx).life = .live → Yields (.groupAbort p b) s fun t => LostWith s t k.ctx 0x0301)
  ∧ (∀ (s : State) (ref : CmdRef) (k : Cmd), s.cmd? ref = some k → cOp k.word / 32 = 6 → k.phase = .executing → (s.cx k.ctx).life = .live →
      Yields (.horizonInactivityTimeout ref) s fun t => LostWith s t k.ctx 0x0301 ∧ t.time.now = max s.time.now (k.lastMove + 2000000000))

/-- SERVICES. A load checks its image, its cores and its memory, and starts the program (R423); an unload ends its calls and frees its sandbox; either is
counted as a violation while the block is locked or bound (R424). A program that ends is started again, and after more
than 3 restarts within 1 s it has failed (R426).
Completes: serviceLoad, serviceUnload, serviceProgramEnd. -/
def Obligations.ServiceControl : Prop :=
  (∀ (s : State) (v : Nat) (b : List Byte) (ps : List Nat), 1 ≤ v → v ≤ 12 → s.ready = true → (s.svc v).st ≠ 1 → (s.svc v).st ≠ 2 →
      b = s.hostMem.rdN (fld (s.svc v).image.toNat 12 52 * 4096) (s.svc v).len → serviceImageOk b (s.svc v).memLog2 = true →
      (∀ e ∈ s.svcs, e.1 ≠ v → 1 ≤ e.1 → e.2.st = 2 → e.2.cores &&& (s.svc v).cores = 0) →
      s.takePages s.trainedStacks (2 ^ (s.svc v).memLog2 / 2) 0 [] = some ps →
      Yields (.serviceLoad v) s fun t => (t.svc v).st = 2 ∧ (t.svc v).cause = 0 ∧ (t.svc v).restarts = 0 ∧ (t.svc v).ring = [] ∧ (t.svc v).program = b ∧ (t.svc v).pages = ps)
  ∧ (∀ (s : State) (v : Nat), 1 ≤ v → v ≤ 12 → s.ready = true → (s.svc v).st ≠ 1 → (s.svc v).st ≠ 2 →
      serviceImageOk (s.hostMem.rdN (fld (s.svc v).image.toNat 12 52 * 4096) (s.svc v).len) (s.svc v).memLog2 = false →
      Yields (.serviceLoad v) s fun t => (t.svc v).st = 3 ∧ (t.svc v).cause = 1 ∧ t.hbm = s.hbm)
  ∧ (∀ (s : State) (v : Nat), 1 ≤ v → v ≤ 12 → s.ready = true → s.svcBound v = false →
      Yields (.serviceUnload v) s fun t => (t.svc v).st = 0 ∧ (t.svc v).cause = 0 ∧ (t.svc v).restarts = 0 ∧ (t.svc v).ring = [] ∧ (t.svc v).program = []
        ∧ (t.svc v).pages = [])
  ∧ (∀ (s : State) (v t0 : Nat), 1 ≤ v → v ≤ 12 → s.ready = true → (s.svc v).st = 2 →
      (((s.svc v).recent.filter fun r => decide (max s.time.now t0 < r + 1000000000)).length ≤ 2) →
      Yields (.serviceProgramEnd v t0) s fun t => (t.svc v).st = 2 ∧ (t.svc v).restarts = satinc 16 (s.svc v).restarts ∧ (t.svc v).ring = [] ∧ (t.svc v).program = (s.svc v).program)
  ∧ (∀ (s : State) (v t0 : Nat), 1 ≤ v → v ≤ 12 → s.ready = true → (s.svc v).st = 2 →
      (3 ≤ ((s.svc v).recent.filter fun r => decide (max s.time.now t0 < r + 1000000000)).length) →
      Yields (.serviceProgramEnd v t0) s fun t => (t.svc v).st = 3 ∧ (t.svc v).cause = 5 ∧ (t.svc v).ring = [] ∧ (t.svc v).program = [])

/-- CALLS OF A SERVICE PROGRAM. SVC_WAIT hands over a posted entry; SVC_DONE answers 2 for a call that is not the entry's, 1 for a withdrawn one, and else
completes the call with the output window, or breaks it off where its count exceeds the window (R426, R428, R429);
SVC_TIME, SVC_LOG and SVC_YIELD answer at once (R426).
Completes: svcWait, svcDone, svcTime, svcLog, svcYield. -/
def Obligations.ServiceCalls : Prop :=
  (∀ (s : State) (v e : Nat) (l : List Nat), 1 ≤ v → v ≤ 12 → s.running v = true → ((s.svc v).ring.keysWhere fun _ q => q.st == 1) = e :: l →
      Yields (.svcWait v) s fun t => ((t.svc v).ring.get {} e).st = 2 ∧ t.out = s.out ++ [.ecallRet v e])
  ∧ (∀ (s : State) (v : Nat), 1 ≤ v → v ≤ 12 → s.running v = true → ((s.svc v).ring.keysWhere fun _ q => q.st == 1) = [] → exec (.svcWait v) s = .next s)
  ∧ (∀ (s : State) (v e id n : Nat) (w : List Byte), 1 ≤ v → v ≤ 12 → s.running v = true →
      64 ≤ e ∨ ((s.svc v).ring.get {} e).id ≠ id ∨ (((s.svc v).ring.get {} e).st ≠ 2 ∧ ((s.svc v).ring.get {} e).st ≠ 3) →
      exec (.svcDone v e id n w) s = .next (s.emit (.ecallRet v 2)))
  ∧ (∀ (s : State) (v e id n : Nat) (w : List Byte), 1 ≤ v → v ≤ 12 → s.running v = true → e < 64 → ((s.svc v).ring.get {} e).id = id → ((s.svc v).ring.get {} e).st = 3 →
      exec (.svcDone v e id n w) s = .next ((s.updSvc v fun x => { x with ring := x.ring.del e }).emit (.ecallRet v 1)))
  ∧ (∀ (s a u : State) (v e id n : Nat) (w : List Byte) (r : CmdRef) (k : Cmd) (p : Made), 1 ≤ v → v ≤ 12 → s.running v = true → e < 64 → ((s.svc v).ring.get {} e).id = id →
      ((s.svc v).ring.get {} e).st = 2 → n ≤ ((s.svc v).ring.get {} e).outLen → ((s.svc v).ring.get {} e).ref = some r → s.cmd? r = some k →
      a = (s.updSvc v fun x => { x with ring := x.ring.del e }) →
      ((a.cxOf k).putOutput (at2 k.word 10) (w.take n ++ List.replicate (((s.svc v).ring.get {} e).outLen - (w.take n).length) 0)).exec a = (.ok p, u) →
      Yields (.svcDone v e id n w) s fun t => (t.svc v).done = satinc 32 (u.svc v).done
        ∧ (∀ c, u.cmd? r = some c → (t.cmd? r).map (fun d => (d.phase, d.staged)) = some (.written, c.staged ++ p.staged)) ∧ t.out = u.out ++ [.ecallRet v 0])
  ∧ (∀ (s : State) (v e id n : Nat) (w : List Byte) (r : CmdRef) (k : Cmd), 1 ≤ v → v ≤ 12 → s.running v = true → e < 64 → ((s.svc v).ring.get {} e).id = id →
      ((s.svc v).ring.get {} e).st = 2 → ((s.svc v).ring.get {} e).outLen < n → ((s.svc v).ring.get {} e).ref = some r → s.cmd? r = some k → (s.cx k.ctx).life = .live →
      Yields (.svcDone v e id n w) s fun t => (t.svc v).failed = satinc 32 (s.svc v).failed ∧ LostWith s t k.ctx 0x0301)
  ∧ (∀ (s : State) (v : Nat), 1 ≤ v → v ≤ 12 → s.running v = true → exec (.svcTime v) s = .next (s.emit (.ecallRet v (s.time.now % 2 ^ 64))))
  ∧ (∀ (s : State) (v : Nat) (b : List Byte), 1 ≤ v → v ≤ 12 → s.running v = true →
      Yields (.svcLog v b) s fun t => t.svcs = s.svcs ∧ t.out = s.out ++ [.ecallRet v 0])
  ∧ (∀ (s : State) (v : Nat), 1 ≤ v → v ≤ 12 → s.running v = true → exec (.svcYield v) s = .next (s.emit (.ecallRet v 0)))

/-- CORE_CALL AND SOFT_CALL. A CORE_CALL that its service admits posts an entry with its input; a SOFT_CALL goes to its part when the part is joined and
free, and waits in order while it is not; either fails where the service does not admit it or the part is not there, and
its window's end fails it with WAIT_TIMEOUT, and a skipped one calls nothing (R185, R236, R428, R449, R450).
Completes: coreCall, softCall, callTimeout. -/
def Obligations.FabricCalls : Prop :=
  (∀ (s u w : State) (ref : CmdRef) (k : Cmd) (e : Nat) (b : List Byte), Turn s u ref 0xE4 k → u.framesIn k = true → u.svcAdmits (at2 k.word 12) k.ctx = true →
      ((List.range 64).find? fun e => ((u.svc (at2 k.word 12)).ring.get {} e).st == 0) = some e → ((u.cxOf k).callInput (at2 k.word 8)).exec u = (.ok b, w) →
      Yields (.coreCall ref) s fun t => (∃ q, (t.svc (at2 k.word 12)).ring.get {} e = q ∧ q.st = 1 ∧ q.ctx = k.ctx ∧ q.func = at2 k.word 14 ∧ q.arg = at8 k.word 16 ∧ q.input = b
          ∧ q.id = (w.svc (at2 k.word 12)).nextId ∧ q.ref = some ref)
        ∧ ∀ c, w.cmd? ref = some c → t.cmd? ref = some { c with phase := .executing, call := some e })
  ∧ (∀ (s u : State) (ref : CmdRef) (k : Cmd), Turn s u ref 0xE4 k → u.framesIn k = true → u.svcAdmits (at2 k.word 12) k.ctx = false → (u.cx k.ctx).life = .live →
      Yields (.coreCall ref) s fun t => LostWith s t k.ctx 0x0202)
  ∧ (∀ (s u w : State) (h st n p : Nat) (k : Cmd) (x b : List Byte), Turn s u (.station h st n) 0xE3 k → u.framesIn k = true → u.callPart k = some p →
      u.loadNames p = false → (u.xp p).softIds.contains ((u.sec h).bind (at2 k.word 12)) = true → (u.xp p).st = 3 → (u.xp p).clamped = false → (u.xp p).call = none →
      (∀ r, (u.xp p).waiting.head? = some r → r = .station h st n) →
      ((u.cxOf k).callBeats k (u.xp p).nextId ((u.sec h).bind (at2 k.word 12))).exec u = (.ok (x, b), w) →
      Yields (.softCall (.station h st n)) s fun t => (t.xp p).call = some { id := (u.xp p).nextId, ref := .station h st n } ∧ t.out = w.out ++ [.beats p (x ++ b)]
        ∧ ∀ c, w.cmd? (.station h st n) = some c → (t.cmd? (.station h st n)).map (fun d => (d.phase, d.target, d.acc)) = some (.executing, p, x))
  ∧ (∀ (s u : State) (h st n p : Nat) (k : Cmd) (c : XCall), Turn s u (.station h st n) 0xE3 k → u.framesIn k = true → u.callPart k = some p →
      u.loadNames p = false → (u.xp p).softIds.contains ((u.sec h).bind (at2 k.word 12)) = true → (u.xp p).st = 3 → (u.xp p).clamped = false → (u.xp p).call = some c →
      Yields (.softCall (.station h st n)) s fun t => (.station h st n) ∈ (t.xp p).waiting ∧ (t.xp p).call = some c ∧ t.cmds = u.cmds)
  ∧ (∀ (s u : State) (h st n : Nat) (k : Cmd), Turn s u (.station h st n) 0xE3 k → u.framesIn k = true → (u.cx k.ctx).life = .live →
      (u.callPart k = none ∨ ∃ p, u.callPart k = some p ∧ u.loadNames p = false ∧ (u.xp p).st ≠ 2 ∧ (u.xp p).softIds.contains ((u.sec h).bind (at2 k.word 12)) = false) →
      Yields (.softCall (.station h st n)) s fun t => LostWith s t k.ctx stAbsent)
  ∧ (∀ (s u : State) (i : Instr) (ref : CmdRef) (op : Nat) (k : Cmd), (i, op) ∈ [(Instr.coreCall ref, 0xE4), (.softCall ref, 0xE3)] → u = s.takeUp ref op →
      u.issued? ref op = some k → k.skipped = true → u.framesIn k = true →
      Yields i s fun t => t.svcs = u.svcs ∧ t.xparts = u.xparts ∧ t.cmd? ref = some { k with taken := [], phase := .written })
  ∧ (∀ (s : State) (ref : CmdRef) (k : Cmd), s.cmd? ref = some k → cOp k.word = 0xE4 ∨ (cOp k.word = 0xE3 ∧ k.phase = .issued) → k.phase = .issued ∨ k.phase = .executing →
      k.skipped = false → (s.cx k.ctx).life = .live → Yields (.callTimeout ref) s fun t => LostWith s t k.ctx 0x0301
        ∧ t.time.now = max s.time.now (k.reached + 1000000 * (if at2 k.word 24 = 0 then 2000 else at2 k.word 24)))

/-- REPLIES. A reply header that agrees with its call opens the reply, and ends a call without frames; a frame that agrees with the next of DST's order
is taken, and the last ends the call; a reply that disagrees is a breach of the handshake: it is counted with its kind,
and the call fails with WAIT_TIMEOUT (R449, R452).
Completes: replyHeader, replyFrame. -/
def Obligations.Replies : Prop :=
  (∀ (s : State) (p : Nat) (b : List Byte) (c : XCall) (k : Cmd), p < 40 → s.partCall p c k → c.header = false → at1 b 5 = 2 → at4 b 0 = c.id →
      at2 b 6 = at2 k.acc 6 → at4 b 28 = (s.callDst k).nFrames → (s.callDst k).nFrames ≠ 0 →
      Yields (.replyHeader p b false) s fun t => (t.xp p).call = some { c with header := true } ∧ t.cmds = s.cmds)
  ∧ (∀ (s : State) (p : Nat) (b : List Byte) (c : XCall) (k : Cmd), p < 40 → s.partCall p c k → c.header = false → at1 b 5 = 2 → at4 b 0 = c.id →
      at2 b 6 = at2 k.acc 6 → at4 b 28 = (s.callDst k).nFrames → (s.callDst k).nFrames = 0 →
      Yields (.replyHeader p b true) s fun t => (t.xp p).call = none ∧ (t.cmd? k.ref).map Cmd.phase = some .written)
  ∧ (∀ (s : State) (p kind : Nat) (b : List Byte) (last : Bool) (c : XCall) (k : Cmd), p < 40 → s.partCall p c k → (s.cx k.ctx).life = .live →
      (c.header = true ∧ kind = 3) ∨ (c.header = false ∧ (at1 b 5 ≠ 2 ∨ at4 b 0 ≠ c.id) ∧ kind = 2) →
      Yields (.replyHeader p b last) s fun t => (t.xp p).violCount = satinc 32 (s.xp p).violCount ∧ (t.xp p).violKind = kind ∧ (t.xp p).call = none ∧ LostWith s t k.ctx 0x0301)
  ∧ (∀ (s u : State) (p : Nat) (b : List Byte) (last : Bool) (c : XCall) (k : Cmd) (ws : List (Loc × Byte)), p < 40 → s.partCall p c k → c.header = true →
      (s.callDst k).frameFits (readFrame b (s.callDst k)) c.id c.frames = true →
      b.length = frameLen (s.callDst k).fmt (s.callDst k).d.tileRows (s.callDst k).d.tileCols (s.callDst k).d.scaled → last = (c.frames + 1 == (s.callDst k).nFrames) →
      (s.callDst k).d.space ≠ 3 → u = (s.updXp p fun x => { x with call := some { c with frames := c.frames + 1 } }) →
      (((u.cxOf k).stageFrame (s.callDst k) (readFrame b (s.callDst k)) c.frames).exec u).1 = .ok ws →
      (((u.cxOf k).stageFrame (s.callDst k) (readFrame b (s.callDst k)) c.frames).exec u).2.cmds = u.cmds →
      Yields (.replyFrame p b last) s fun t => (t.cmd? k.ref).map (fun d => (d.staged, d.phase)) = some (k.staged ++ ws, if last then .written else k.phase))
  ∧ (∀ (s : State) (p kind : Nat) (b : List Byte) (last : Bool) (c : XCall) (k : Cmd), p < 40 → s.partCall p c k → (s.cx k.ctx).life = .live →
      (c.header = false ∧ kind = 2) ∨ (c.header = true ∧ (s.callDst k).frameFits (readFrame b (s.callDst k)) c.id c.frames = false ∧ kind = 3) →
      Yields (.replyFrame p b last) s fun t => (t.xp p).violCount = satinc 32 (s.xp p).violCount ∧ (t.xp p).violKind = kind ∧ (t.xp p).call = none ∧ LostWith s t k.ctx 0x0301)

/-- THE CRYSTALLIZER. OPEN checks its revision and its block, and opens one session for a context (R430, R431); CLOSE ends it, CLOSE and STATUS answer
(R430, R431; their replies are free values, log entry 47); a serving step takes requests, batches them and starts a
run, and sampling follows the run (R432, R435, R436).
Completes: crysOpen, crysClose, crysStatus, servingStep, crystallizerSampling. -/
def Obligations.Crystallizer : Prop :=
  (∀ (s : State) (e : Nat) (q : Call), s.crysCall e 1 = some q → (∀ x ∈ s.sessions, x.1 ≠ q.ctx) → at2 q.input 0 ≤ 0x0100 → 0x0100 ≤ at2 q.input 2 →
      s.blockOk q.ctx { block := q.input, number := s.nextSession } = true →
      exec (.crysOpen e) s = .next (State.crysReply { s with
          sessions := s.sessions.put q.ctx { block := q.input, number := s.nextSession }, nextSession := (s.nextSession + 1) % 2 ^ 32 } e (openReply 0x0100 0 s.nextSession)))
  ∧ (∀ (s : State) (e : Nat) (q : Call), s.crysCall e 1 = some q → (∀ x ∈ s.sessions, x.1 ≠ q.ctx) → ¬(at2 q.input 0 ≤ 0x0100 ∧ 0x0100 ≤ at2 q.input 2) →
      exec (.crysOpen e) s = .next (s.crysReply e (openReply 0 1 0)))
  ∧ (∀ (s : State) (e : Nat) (q : Call), s.crysCall e 2 = some q → exec (.crysClose e) s = .next ((s.endSession q.ctx 6).freeReply e))
  ∧ (∀ (s : State) (e : Nat) (q : Call), s.crysCall e 3 = some q → exec (.crysStatus e) s = .next (s.freeReply e))
  ∧ (∀ (s u v : State) (c n : Nat) (y : Session), c < 256 → s.ready = true → (∃ e ∈ s.sessions, e.1 = c) → (s.sessions.get {} c).running = false → (s.cx c).life = .live →
      (s.rg (s.sessions.get {} c).ring).work = .idle → (takeRequests c).exec s = (.ok (), u) → u.tokenRoom c (u.sessions.get {} c) = (.ok n, v) →
      y = (v.sessions.get {} c).batch n → (∀ r ∈ y.reqs, r.row = none) → exec (.servingStep c) s = .next { v with sessions := v.sessions.put c y })
  ∧ (∀ (s u v w : State) (c n : Nat) (y : Session), c < 256 → s.ready = true → (∃ e ∈ s.sessions, e.1 = c) → (s.sessions.get {} c).running = false → (s.cx c).life = .live →
      (s.rg (s.sessions.get {} c).ring).work = .idle → (takeRequests c).exec s = (.ok (), u) → u.tokenRoom c (u.sessions.get {} c) = (.ok n, v) →
      y = (v.sessions.get {} c).batch n → (∃ r ∈ y.reqs, r.row.isSome = true) → (writeBatch c).exec { v with sessions := v.sessions.put c y } = (.ok (), w) →
      Yields (.servingStep c) s fun t => (t.sessions.get {} c).running = true ∧ (t.rg y.ring).work = .exec y.stepWords 0 false
        ∧ ∃ k ∈ t.cmds, k.ref = .ring y.ring ∧ k.word = y.stepWords.getD 0 [] ∧ k.phase = .issued)
  ∧ (∀ (s u : State) (c : Nat), c < 256 → s.ready = true → (s.sessions.get {} c).running = true → (s.cx c).life = .live →
      (s.rg (s.sessions.get {} c).ring).work = .idle → (sampleStep c).exec s = (.ok (), u) → exec (.crystallizerSampling c) s = .next u)
end

