-- ==== Sys2Proof/Laws/Table.lean ====
section
/-! SUPPORT. Laws of tables and memory: an entry written reads back, others stay, and every operation keeps the canonical
form. -/

set_option Elab.async false
namespace Sys2Proof.Machine

variable {α : Type}

theorem Tbl.get_put_same (d : α) (t : Tbl α) (k : Nat) (a : α) : Tbl.get d (Tbl.put t k a) k = a := by
  induction t with
  | nil => simp [Tbl.put, Tbl.get]
  | cons e t ih =>
    obtain ⟨j, b⟩ := e
    by_cases h : j = k
    · simp [Tbl.put, Tbl.get, h]
    · by_cases h' : k < j
      · simp [Tbl.put, Tbl.get, h, h']
      · simp [Tbl.put, Tbl.get, h, h', ih]

theorem Tbl.get_put_ne (d : α) (t : Tbl α) {k i : Nat} (a : α) (hi : i ≠ k) : Tbl.get d (Tbl.put t k a) i = Tbl.get d t i := by
  induction t with
  | nil => simp [Tbl.put, Tbl.get, Ne.symm hi]
  | cons e t ih =>
    obtain ⟨j, b⟩ := e
    by_cases h : j = k
    · subst h; simp [Tbl.put, Tbl.get, Ne.symm hi]
    · by_cases h' : k < j
      · simp [Tbl.put, Tbl.get, h, h', Ne.symm hi]
      · simp [Tbl.put, Tbl.get, h, h', ih]

theorem Tbl.get_del_same (d : α) (t : Tbl α) (k : Nat) : Tbl.get d (Tbl.del t k) k = d := by
  induction t with
  | nil => rfl
  | cons e t ih =>
    obtain ⟨j, b⟩ := e
    by_cases h : j = k
    · subst h; simpa [Tbl.del] using ih
    · simpa [Tbl.del, Tbl.get, h] using ih

theorem Tbl.get_del_ne (d : α) (t : Tbl α) {k i : Nat} (hi : i ≠ k) : Tbl.get d (Tbl.del t k) i = Tbl.get d t i := by
  induction t with
  | nil => rfl
  | cons e t ih =>
    obtain ⟨j, b⟩ := e
    by_cases h : j = k
    · subst h; simpa [Tbl.del, Tbl.get, Ne.symm hi] using ih
    · by_cases h2 : j = i
      · subst h2; simp [Tbl.del, Tbl.get, h]
      · simpa [Tbl.del, Tbl.get, h, h2] using ih

@[simp] theorem Tbl.get_set_same [DecidableEq α] (d : α) (t : Tbl α) (k : Nat) (a : α) : Tbl.get d (Tbl.set d t k a) k = a := by
  unfold Tbl.set; split
  · rename_i h; rw [Tbl.get_del_same, h]
  · exact Tbl.get_put_same d t k a

@[simp] theorem Tbl.get_set_ne [DecidableEq α] (d : α) (t : Tbl α) {k i : Nat} (a : α) (hi : i ≠ k) :
    Tbl.get d (Tbl.set d t k a) i = Tbl.get d t i := by
  unfold Tbl.set; split
  · exact Tbl.get_del_ne d t hi
  · exact Tbl.get_put_ne d t a hi

@[simp] theorem Tbl.get_upd_same [DecidableEq α] (d : α) (t : Tbl α) (k : Nat) (f : α → α) :
    Tbl.get d (Tbl.upd d t k f) k = f (Tbl.get d t k) := by simp [Tbl.upd]

@[simp] theorem Tbl.get_upd_ne [DecidableEq α] (d : α) (t : Tbl α) {k i : Nat} (f : α → α) (hi : i ≠ k) :
    Tbl.get d (Tbl.upd d t k f) i = Tbl.get d t i := by simp [Tbl.upd, hi]

theorem Tbl.get_upd [DecidableEq α] (d : α) (t : Tbl α) (k i : Nat) (f : α → α) :
    Tbl.get d (Tbl.upd d t k f) i = if i = k then f (Tbl.get d t i) else Tbl.get d t i := by
  split
  · rename_i h; subst h; simp
  · rename_i h; simp [h]

/-! ### Memory -/

@[simp] theorem Mem.rd_wr_same (m : Mem) (a : Nat) (b : Byte) : (m.wr a b).rd a = b := Tbl.get_set_same _ _ _ _

@[simp] theorem Mem.rd_wr_ne (m : Mem) {a i : Nat} (b : Byte) (h : i ≠ a) : (m.wr a b).rd i = m.rd i := Tbl.get_set_ne _ _ _ h

theorem Mem.rd_wrN_out (m : Mem) (a : Nat) (bs : List Byte) (i : Nat) (h : i < a ∨ a + bs.length ≤ i) :
    (m.wrN a bs).rd i = m.rd i := by
  induction bs generalizing m a with
  | nil => rfl
  | cons b bs ih =>
    simp only [List.length_cons] at h
    rw [Mem.wrN, ih _ _ (by omega), Mem.rd_wr_ne _ _ (by omega)]

theorem Mem.rd_wrN_in (m : Mem) (a : Nat) (bs : List Byte) (i : Nat) (h : i < bs.length) :
    (m.wrN a bs).rd (a + i) = bs[i] := by
  induction bs generalizing m a i with
  | nil => simp at h
  | cons b bs ih =>
    cases i with
    | zero => rw [Mem.wrN, Mem.rd_wrN_out _ _ _ _ (by omega)]; simp
    | succ i =>
      have := ih (m.wr a b) (a + 1) i (by simpa using h)
      rw [Mem.wrN]
      simpa [Nat.add_assoc, Nat.add_comm 1 i] using this

/-! ### The canonical form -/

theorem Tbl.rising_mono {k j : Nat} {t : Tbl α} (h : j ≤ k) (w : Tbl.rising k t = true) : Tbl.rising j t = true := by
  cases t with
  | nil => rfl
  | cons e t => simp only [Tbl.rising, Bool.and_eq_true, decide_eq_true_eq] at w ⊢; exact ⟨by omega, w.2⟩

theorem Tbl.rising_put (t : Tbl α) (k j : Nat) (a : α) (hk : j ≤ k) (w : Tbl.rising j t = true) :
    Tbl.rising j (Tbl.put t k a) = true := by
  induction t generalizing j with
  | nil => simp [Tbl.put, Tbl.rising, hk]
  | cons e t ih =>
    obtain ⟨i, b⟩ := e
    simp only [Tbl.rising, Bool.and_eq_true, decide_eq_true_eq] at w
    unfold Tbl.put
    split
    · rename_i h; subst h; simp [Tbl.rising, hk, w.2]
    · split
      · rename_i h h'
        simp only [Tbl.rising, Bool.and_eq_true, decide_eq_true_eq]
        exact ⟨hk, by omega, w.2⟩
      · rename_i h h'
        simp only [Tbl.rising, Bool.and_eq_true, decide_eq_true_eq]
        exact ⟨w.1, ih (i + 1) (by omega) w.2⟩

theorem Tbl.rising_filter (t : Tbl α) (j : Nat) (p : Nat × α → Bool) (w : Tbl.rising j t = true) :
    Tbl.rising j (t.filter p) = true := by
  induction t generalizing j with
  | nil => rfl
  | cons e t ih =>
    simp only [Tbl.rising, Bool.and_eq_true, decide_eq_true_eq] at w
    rw [List.filter_cons]
    split
    · simp only [Tbl.rising, Bool.and_eq_true, decide_eq_true_eq]; exact ⟨w.1, ih _ w.2⟩
    · exact Tbl.rising_mono (by omega) (ih _ w.2)

theorem Tbl.mem_put (t : Tbl α) (k : Nat) (a : α) (e : Nat × α) (h : e ∈ Tbl.put t k a) : e = (k, a) ∨ e ∈ t := by
  induction t with
  | nil => simpa [Tbl.put] using h
  | cons f t ih =>
    obtain ⟨j, b⟩ := f
    unfold Tbl.put at h
    split at h
    · rcases List.mem_cons.1 h with h | h
      · exact .inl h
      · exact .inr (List.mem_cons_of_mem _ h)
    · split at h
      · rcases List.mem_cons.1 h with h | h
        · exact .inl h
        · exact .inr h
      · rcases List.mem_cons.1 h with h | h
        · exact .inr (h ▸ List.mem_cons_self ..)
        · rcases ih h with h | h
          · exact .inl h
          · exact .inr (List.mem_cons_of_mem _ h)

theorem Tbl.wf_filter [DecidableEq α] (d : α) (t : Tbl α) (p : Nat × α → Bool) (w : Tbl.wf d t = true) :
    Tbl.wf d (t.filter p) = true := by
  simp only [Tbl.wf, Bool.and_eq_true, List.all_eq_true] at w ⊢
  exact ⟨Tbl.rising_filter t 0 p w.1, fun e h => w.2 e (List.mem_filter.1 h).1⟩

theorem Tbl.wf_set [DecidableEq α] (d : α) (t : Tbl α) (k : Nat) (a : α) (w : Tbl.wf d t = true) :
    Tbl.wf d (Tbl.set d t k a) = true := by
  unfold Tbl.set
  split
  · exact Tbl.wf_filter d t _ w
  · rename_i h
    simp only [Tbl.wf, Bool.and_eq_true, List.all_eq_true] at w ⊢
    refine ⟨Tbl.rising_put t k 0 a (by omega) w.1, fun e he => ?_⟩
    rcases Tbl.mem_put t k a e he with h' | h'
    · subst h'; simpa using h
    · exact w.2 e h'

theorem Tbl.wf_upd [DecidableEq α] (d : α) (t : Tbl α) (k : Nat) (f : α → α) (w : Tbl.wf d t = true) :
    Tbl.wf d (Tbl.upd d t k f) = true := Tbl.wf_set d t k _ w

/-- Writing one byte keeps memory's canonical form. -/
theorem Mem.wr_wf {m : Mem} (a : Nat) (b : Byte) (h : Memory.wf m = true) : Memory.wf (m.wr a b) = true :=
  Tbl.wf_set 0 m a b h

/-- Writing bytes keeps memory's canonical form. -/
theorem Mem.wrN_wf {m : Mem} (a : Nat) (bs : List Byte) (h : Memory.wf m = true) : Memory.wf (m.wrN a bs) = true := by
  induction bs generalizing m a with
  | nil => exact h
  | cons b bs ih => exact ih _ (Mem.wr_wf a b h)

/-- Dropping bytes keeps memory's canonical form. -/
theorem Mem.filter_wf {m : Mem} (p : Nat × Byte → Bool) (h : Memory.wf m = true) : Memory.wf (m.filter p) = true :=
  Tbl.wf_filter 0 m p h

/-- Writing listed bytes keeps memory's canonical form. -/
theorem Mem.writes_wf {m : Mem} (ws : List (Nat × Byte)) (h : Memory.wf m = true) :
    Memory.wf (ws.foldl (fun m e => m.wr e.1 e.2) m) = true := by
  induction ws generalizing m with
  | nil => exact h
  | cons e ws ih => exact ih (Mem.wr_wf e.1 e.2 h)

end Sys2Proof.Machine
end

