-- ==== Sys2Proof/Laws/Evolve.lean ====
section
/-! SUPPORT. How a state may follow another: the relation that every operation and every command keeps, and how it passes
through record updates, conditionals and folds. -/

set_option Elab.async false

namespace Sys2Proof.Machine

/-- A log follows another: its bounds hold on, and with k the first-failure region only grows. -/
structure BitLog.Grows (k : Bool) (l m : BitLog) : Prop where
  bounded : l.bounded → m.bounded
  ff : k = true → l.ff <+: m.ff

/-- The hub after another: with k lost stays lost, and the stage stays one of 1 to 7. -/
def Hub.Follows (k : Bool) (h j : Hub) : Prop := (k = true → h.lost = true → j.lost = true) ∧ (h.stage ≤ 7 → j.stage ≤ 7)

/-- State t may follow state s with the areas of l changed; k: by something other than a reset or a CLEAR_FF. -/
structure Evolves (k : Bool) (l : List Area) (s t : State) : Prop where
  only : ChangesOnly l s t
  queue : t.pending = s.pending
  fuses : s.part.Blown t.part
  posted : Posted s t
  hbm : s.hbm.canonical → t.hbm.canonical
  chip : s.chip.canonical → t.chip.canonical
  log : s.log.Grows k t.log
  free : s.free ≤ t.free
  hub : s.hub.Follows k t.hub

theorem PartFuses.Blown.refl (p : PartFuses) : p.Blown p := ⟨⟨_, _, rfl⟩, fun _ h => h, by omega⟩
theorem PartFuses.Blown.trans {p q r : PartFuses} (h : p.Blown q) (k : q.Blown r) : p.Blown r := by
  obtain ⟨⟨a, b, rfl⟩, h2, h3⟩ := h
  obtain ⟨⟨c, d, rfl⟩, k2, k3⟩ := k
  exact ⟨⟨c, d, rfl⟩, fun x hx => k2 x (h2 x hx), by simp at *; omega⟩

theorem BitLog.Grows.refl {k : Bool} (l : BitLog) : l.Grows k l := ⟨id, fun _ => List.prefix_refl _⟩
theorem BitLog.Grows.trans {k : Bool} {l m n : BitLog} (h : l.Grows k m) (j : m.Grows k n) : l.Grows k n :=
  ⟨j.bounded ∘ h.bounded, fun e => (h.ff e).trans (j.ff e)⟩
/-- A log with another queue that is no longer. -/
theorem BitLog.Grows.of_queue {k : Bool} {l m : BitLog} (hf : m.ff = l.ff)
    (hq : l.queue.length ≤ 1024 → m.queue.length ≤ 1024) : l.Grows k m :=
  ⟨fun h => ⟨hf ▸ h.1, hq h.2⟩, fun _ => hf ▸ List.prefix_refl _⟩

theorem Posted.refl (s : State) : Posted s s := ⟨[], by simp, rfl⟩
theorem Posted.trans {s t u : State} (h : Posted s t) (k : Posted t u) : Posted s u := by
  obtain ⟨a, h1, h2⟩ := h
  obtain ⟨b, k1, k2⟩ := k
  exact ⟨a ++ b, by rw [k1, h1, List.append_assoc], by rw [k2, h2, List.foldl_append]⟩
/-- Host addresses that no posted write stores to read as before. -/
theorem Posted.rd {s t : State} (h : Posted s t) (a : Nat) :
    ∃ es, t.out = s.out ++ es ∧ (es.any (OutEvent.stores a) = false → t.hostMem.rd a = s.hostMem.rd a) := by
  obtain ⟨es, h1, h2⟩ := h
  refine ⟨es, h1, fun hn => ?_⟩
  rw [h2]
  clear h1 h2
  generalize s.hostMem = m
  induction es generalizing m with
  | nil => rfl
  | cons e es ih =>
    rw [List.any_cons, Bool.or_eq_false_iff] at hn
    rw [List.foldl_cons, ih hn.2]
    cases e <;> try rfl
    simp only [OutEvent.stores, decide_eq_false_iff_not, OutEvent.apply] at *
    exact Mem.rd_wrN_out _ _ _ _ (by omega)
/-- The host's memory keeps its canonical form. -/
theorem Posted.wf {s t : State} (h : Posted s t) (w : Memory.wf s.hostMem = true) : Memory.wf t.hostMem = true := by
  obtain ⟨es, -, h2⟩ := h
  rw [h2]
  clear h2
  generalize s.hostMem = m at *
  induction es generalizing m with
  | nil => exact w
  | cons e es ih =>
    refine ih _ ?_
    cases e <;> first | exact w | exact Mem.wrN_wf _ _ w

theorem Area.same.refl (s : State) (a : Area) : a.same s s := by cases a <;> rfl
theorem Area.same.trans {s t u : State} {a : Area} (h : a.same s t) (k : a.same t u) : a.same s u := by
  cases a <;> exact Eq.trans k h
theorem ChangesOnly.refl (l : List Area) (s : State) : ChangesOnly l s s := fun a _ => .refl s a
theorem ChangesOnly.trans {l : List Area} {s t u : State} (h : ChangesOnly l s t) (k : ChangesOnly l t u) :
    ChangesOnly l s u := fun a ha => (h a ha).trans (k a ha)
theorem ChangesOnly.mono {l m : List Area} {s t : State} (h : ChangesOnly l s t) (hs : ∀ a ∈ l, a ∈ m) :
    ChangesOnly m s t := fun a ha => h a fun hl => ha (hs a hl)

theorem Hub.Follows.refl {k : Bool} (h : Hub) : h.Follows k h := ⟨fun _ => id, id⟩

theorem Evolves.refl {k : Bool} (l : List Area) (s : State) : Evolves k l s s :=
  ⟨.refl _ _, rfl, .refl _, .refl _, id, id, .refl _, Nat.le_refl _, .refl _⟩
theorem Evolves.trans {k : Bool} {l : List Area} {s t u : State} (h : Evolves k l s t) (j : Evolves k l t u) :
    Evolves k l s u :=
  ⟨h.only.trans j.only, j.queue.trans h.queue, h.fuses.trans j.fuses, h.posted.trans j.posted, j.hbm ∘ h.hbm, j.chip ∘ h.chip,
   h.log.trans j.log, h.free.trans j.free, ⟨fun e => j.hub.1 e ∘ h.hub.1 e, j.hub.2 ∘ h.hub.2⟩⟩
/-- Every way to follow is a way for a reset too. -/
theorem Evolves.weak {k : Bool} {l : List Area} {s t : State} (h : Evolves k l s t) : Evolves false l s t :=
  ⟨h.only, h.queue, h.fuses, h.posted, h.hbm, h.chip, ⟨h.log.bounded, fun e => nomatch e⟩, h.free, ⟨fun e => (nomatch e), h.hub.2⟩⟩
/-- Whether every area of a list is in another. -/
def Area.subset (m l : List Area) : Bool := m.all fun a => l.contains a
theorem Area.contains_of {m l : List Area} {a : Area} (h : Area.subset m l = true) (k : m.contains a = true) :
    l.contains a = true := by
  have hm : ∀ a ∈ m, l.contains a = true := by simpa [Area.subset] using h
  exact hm a (by simpa using k)
theorem Area.subset_trans {n m l : List Area} (k : Area.subset n m = true) (h : Area.subset m l = true) :
    Area.subset n l = true := by
  have hm : ∀ a ∈ n, m.contains a = true := by simpa [Area.subset] using k
  have : ∀ a ∈ n, l.contains a = true := fun a ha => Area.contains_of h (hm a ha)
  simpa [Area.subset] using this
/-- A step that changes areas among l, after one that does. -/
theorem Evolves.after {k : Bool} {l m : List Area} {s t u : State} (j : Evolves k m t u) (h : Evolves k l s t)
    (hs : Area.subset m l = true) : Evolves k l s u := by
  have hm : ∀ a ∈ m, a ∈ l := by simpa [Area.subset] using hs
  exact h.trans ⟨j.only.mono hm, j.queue, j.fuses, j.posted, j.hbm, j.chip, j.log, j.free, j.hub⟩
theorem Evolves.inv {k : Bool} {l : List Area} {s t : State} (h : Evolves k l s t) (w : s.Inv) : t.Inv :=
  ⟨h.posted.wf w.host, h.hbm w.hbm, h.chip w.chip, h.log.bounded w.log, h.hub.2 w.stage⟩

theorem Evolves.ite {k : Bool} {l : List Area} {s A B : State} {c : Prop} [Decidable c] (h : Evolves k l s A)
    (j : Evolves k l s B) : Evolves k l s (if c then A else B) := by split <;> assumption
theorem Evolves.foldl {k : Bool} {α : Type} {l : List Area} {s A : State} {f : State → α → State} {xs : List α}
    (h : Evolves k l s A) (j : ∀ t a, Evolves k l t (f t a)) : Evolves k l s (xs.foldl f A) := by
  induction xs generalizing A with
  | nil => exact h
  | cons a xs ih => exact ih (h.trans (j A a))

/-- A fold over a state with a result on the way. -/
theorem Evolves.foldl_snd {k : Bool} {α β : Type} {l : List Area} {s : State} {A : β × State} {f : β × State → α → β × State}
    {xs : List α} (h : Evolves k l s A.2) (j : ∀ p a, Evolves k l p.2 (f p a).2) : Evolves k l s (xs.foldl f A).2 := by
  induction xs generalizing A with
  | nil => exact h
  | cons a xs ih => exact ih (h.trans (j A a))
theorem Evolves.foldl_fst {k : Bool} {α β : Type} {l : List Area} {s : State} {A : State × β} {f : State × β → α → State × β}
    {xs : List α} (h : Evolves k l s A.1) (j : ∀ p a, Evolves k l p.1 (f p a).1) : Evolves k l s (xs.foldl f A).1 := by
  induction xs generalizing A with
  | nil => exact h
  | cons a xs ih => exact ih (h.trans (j A a))

/-- A choice by whether an optional value is there. -/
theorem Evolves.elim {k : Bool} {α : Type} {l : List Area} {s A : State} {o : Option α} {f : α → State}
    (h : Evolves k l s A) (j : ∀ a, Evolves k l s (f a)) : Evolves k l s (o.elim A f) := by
  cases o with
  | none => exact h
  | some a => exact j a

/-- A record update: each area is listed or as it was. -/
theorem Evolves.upd {k : Bool} {l : List Area} {s A : State} {free part
    pins tap time hub vfEnable numVfs funcs msix msixEnable msixMask
    windows parts tokens sluWindow ctxs trans tlb fences fenceFresh fenceFreed
    fenceLower remoteDrop rings ringTaken ringTakenLc objs nextObj hbm chip pans
    units clusters power log telem secs nextSec cmds replays scanSet
    hzn svcs sessions nextSession xparts loader invals atsInvals eid}
    (h : Evolves k l s A) (hfree : A.free ≤ free) (hpart : A.part.Blown part) (hH : A.hub.Follows k hub)
    (hM : A.hbm.canonical → hbm.canonical) (hC : A.chip.canonical → chip.canonical) (hL : A.log.Grows k log)
    (_hpins : pins = A.pins ∨ l.contains .pins = true)
    (_htap : tap = A.tap ∨ l.contains .tap = true)
    (_htime : time = A.time ∨ l.contains .time = true)
    (_hhub : hub = A.hub ∨ l.contains .hub = true)
    (_hvfEnable : vfEnable = A.vfEnable ∨ l.contains .vfEnable = true)
    (_hnumVfs : numVfs = A.numVfs ∨ l.contains .numVfs = true)
    (_hfuncs : funcs = A.funcs ∨ l.contains .funcs = true)
    (_hmsix : msix = A.msix ∨ l.contains .msix = true)
    (_hmsixEnable : msixEnable = A.msixEnable ∨ l.contains .msixEnable = true)
    (_hmsixMask : msixMask = A.msixMask ∨ l.contains .msixMask = true)
    (_hwindows : windows = A.windows ∨ l.contains .windows = true)
    (_hparts : parts = A.parts ∨ l.contains .parts = true)
    (_htokens : tokens = A.tokens ∨ l.contains .tokens = true)
    (_hsluWindow : sluWindow = A.sluWindow ∨ l.contains .sluWindow = true)
    (_hctxs : ctxs = A.ctxs ∨ l.contains .ctxs = true)
    (_htrans : trans = A.trans ∨ l.contains .trans = true)
    (_htlb : tlb = A.tlb ∨ l.contains .tlb = true)
    (_hfences : fences = A.fences ∨ l.contains .fences = true)
    (_hfenceFresh : fenceFresh = A.fenceFresh ∨ l.contains .fenceFresh = true)
    (_hfenceFreed : fenceFreed = A.fenceFreed ∨ l.contains .fenceFreed = true)
    (_hfenceLower : fenceLower = A.fenceLower ∨ l.contains .fenceLower = true)
    (_hremoteDrop : remoteDrop = A.remoteDrop ∨ l.contains .remoteDrop = true)
    (_hrings : rings = A.rings ∨ l.contains .rings = true)
    (_hringTaken : ringTaken = A.ringTaken ∨ l.contains .ringTaken = true)
    (_hringTakenLc : ringTakenLc = A.ringTakenLc ∨ l.contains .ringTakenLc = true)
    (_hobjs : objs = A.objs ∨ l.contains .objs = true)
    (_hnextObj : nextObj = A.nextObj ∨ l.contains .nextObj = true)
    (_hhbm : hbm = A.hbm ∨ l.contains .hbm = true)
    (_hchip : chip = A.chip ∨ l.contains .chip = true)
    (_hpans : pans = A.pans ∨ l.contains .pans = true)
    (_hunits : units = A.units ∨ l.contains .units = true)
    (_hclusters : clusters = A.clusters ∨ l.contains .clusters = true)
    (_hpower : power = A.power ∨ l.contains .power = true)
    (_hlog : log = A.log ∨ l.contains .log = true)
    (_htelem : telem = A.telem ∨ l.contains .telem = true)
    (_hsecs : secs = A.secs ∨ l.contains .secs = true)
    (_hnextSec : nextSec = A.nextSec ∨ l.contains .nextSec = true)
    (_hcmds : cmds = A.cmds ∨ l.contains .cmds = true)
    (_hreplays : replays = A.replays ∨ l.contains .replays = true)
    (_hscanSet : scanSet = A.scanSet ∨ l.contains .scanSet = true)
    (_hhzn : hzn = A.hzn ∨ l.contains .hzn = true)
    (_hsvcs : svcs = A.svcs ∨ l.contains .svcs = true)
    (_hsessions : sessions = A.sessions ∨ l.contains .sessions = true)
    (_hnextSession : nextSession = A.nextSession ∨ l.contains .nextSession = true)
    (_hxparts : xparts = A.xparts ∨ l.contains .xparts = true)
    (_hloader : loader = A.loader ∨ l.contains .loader = true)
    (_hinvals : invals = A.invals ∨ l.contains .invals = true)
    (_hatsInvals : atsInvals = A.atsInvals ∨ l.contains .atsInvals = true)
    (_heid : eid = A.eid ∨ l.contains .eid = true) :
    Evolves k l s {
      pending := A.pending, free, out := A.out, part, hostMem := A.hostMem,
      pins, tap, time, hub, vfEnable, numVfs, funcs, msix, msixEnable, msixMask,
      windows, parts, tokens, sluWindow, ctxs, trans, tlb, fences, fenceFresh, fenceFreed,
      fenceLower, remoteDrop, rings, ringTaken, ringTakenLc, objs, nextObj, hbm, chip, pans,
      units, clusters, power, log, telem, secs, nextSec, cmds, replays, scanSet,
      hzn, svcs, sessions, nextSession, xparts, loader, invals, atsInvals, eid } := by
  refine h.trans ⟨fun a ha => ?_, rfl, hpart, ⟨[], by simp, rfl⟩, hM, hC, hL, hfree, hH⟩
  have hn : l.contains a = false := by simpa using ha
  cases a
  · exact _hpins.resolve_right (by rw [hn]; exact Bool.false_ne_true)
  · exact _htap.resolve_right (by rw [hn]; exact Bool.false_ne_true)
  · exact _htime.resolve_right (by rw [hn]; exact Bool.false_ne_true)
  · exact _hhub.resolve_right (by rw [hn]; exact Bool.false_ne_true)
  · exact _hvfEnable.resolve_right (by rw [hn]; exact Bool.false_ne_true)
  · exact _hnumVfs.resolve_right (by rw [hn]; exact Bool.false_ne_true)
  · exact _hfuncs.resolve_right (by rw [hn]; exact Bool.false_ne_true)
  · exact _hmsix.resolve_right (by rw [hn]; exact Bool.false_ne_true)
  · exact _hmsixEnable.resolve_right (by rw [hn]; exact Bool.false_ne_true)
  · exact _hmsixMask.resolve_right (by rw [hn]; exact Bool.false_ne_true)
  · exact _hwindows.resolve_right (by rw [hn]; exact Bool.false_ne_true)
  · exact _hparts.resolve_right (by rw [hn]; exact Bool.false_ne_true)
  · exact _htokens.resolve_right (by rw [hn]; exact Bool.false_ne_true)
  · exact _hsluWindow.resolve_right (by rw [hn]; exact Bool.false_ne_true)
  · exact _hctxs.resolve_right (by rw [hn]; exact Bool.false_ne_true)
  · exact _htrans.resolve_right (by rw [hn]; exact Bool.false_ne_true)
  · exact _htlb.resolve_right (by rw [hn]; exact Bool.false_ne_true)
  · exact _hfences.resolve_right (by rw [hn]; exact Bool.false_ne_true)
  · exact _hfenceFresh.resolve_right (by rw [hn]; exact Bool.false_ne_true)
  · exact _hfenceFreed.resolve_right (by rw [hn]; exact Bool.false_ne_true)
  · exact _hfenceLower.resolve_right (by rw [hn]; exact Bool.false_ne_true)
  · exact _hremoteDrop.resolve_right (by rw [hn]; exact Bool.false_ne_true)
  · exact _hrings.resolve_right (by rw [hn]; exact Bool.false_ne_true)
  · exact _hringTaken.resolve_right (by rw [hn]; exact Bool.false_ne_true)
  · exact _hringTakenLc.resolve_right (by rw [hn]; exact Bool.false_ne_true)
  · exact _hobjs.resolve_right (by rw [hn]; exact Bool.false_ne_true)
  · exact _hnextObj.resolve_right (by rw [hn]; exact Bool.false_ne_true)
  · exact _hhbm.resolve_right (by rw [hn]; exact Bool.false_ne_true)
  · exact _hchip.resolve_right (by rw [hn]; exact Bool.false_ne_true)
  · exact _hpans.resolve_right (by rw [hn]; exact Bool.false_ne_true)
  · exact _hunits.resolve_right (by rw [hn]; exact Bool.false_ne_true)
  · exact _hclusters.resolve_right (by rw [hn]; exact Bool.false_ne_true)
  · exact _hpower.resolve_right (by rw [hn]; exact Bool.false_ne_true)
  · exact _hlog.resolve_right (by rw [hn]; exact Bool.false_ne_true)
  · exact _htelem.resolve_right (by rw [hn]; exact Bool.false_ne_true)
  · exact _hsecs.resolve_right (by rw [hn]; exact Bool.false_ne_true)
  · exact _hnextSec.resolve_right (by rw [hn]; exact Bool.false_ne_true)
  · exact _hcmds.resolve_right (by rw [hn]; exact Bool.false_ne_true)
  · exact _hreplays.resolve_right (by rw [hn]; exact Bool.false_ne_true)
  · exact _hscanSet.resolve_right (by rw [hn]; exact Bool.false_ne_true)
  · exact _hhzn.resolve_right (by rw [hn]; exact Bool.false_ne_true)
  · exact _hsvcs.resolve_right (by rw [hn]; exact Bool.false_ne_true)
  · exact _hsessions.resolve_right (by rw [hn]; exact Bool.false_ne_true)
  · exact _hnextSession.resolve_right (by rw [hn]; exact Bool.false_ne_true)
  · exact _hxparts.resolve_right (by rw [hn]; exact Bool.false_ne_true)
  · exact _hloader.resolve_right (by rw [hn]; exact Bool.false_ne_true)
  · exact _hinvals.resolve_right (by rw [hn]; exact Bool.false_ne_true)
  · exact _hatsInvals.resolve_right (by rw [hn]; exact Bool.false_ne_true)
  · exact _heid.resolve_right (by rw [hn]; exact Bool.false_ne_true)

/-- What a command's outcome is when it is a next state. -/
def EvolvesOut (k : Bool) (l : List Area) (s : State) (o : Out) : Prop := ∀ t, o = .next t → Evolves k l s t
theorem EvolvesOut.next {k : Bool} {l : List Area} {s A : State} (h : Evolves k l s A) : EvolvesOut k l s (.next A) := by
  intro t ht; cases ht; exact h
theorem EvolvesOut.mono {k : Bool} {l m : List Area} {s : State} {o : Out} (h : EvolvesOut k m s o)
    (hs : Area.subset m l = true) : EvolvesOut k l s o := fun t ht => (h t ht).after (.refl _ _) hs
theorem EvolvesOut.weak {k : Bool} {l : List Area} {s : State} {o : Out} (h : EvolvesOut k l s o) :
    EvolvesOut false l s o := fun t ht => (h t ht).weak
theorem EvolvesOut.fault {k : Bool} {l : List Area} {s : State} {r : Fault} : EvolvesOut k l s (.fault r) := by
  intro t ht; cases ht
theorem EvolvesOut.ite {k : Bool} {l : List Area} {s : State} {A B : Out} {c : Prop} [Decidable c] (h : EvolvesOut k l s A)
    (j : EvolvesOut k l s B) : EvolvesOut k l s (if c then A else B) := by split <;> assumption

end Sys2Proof.Machine
end

