-- ==== Sys2Proof/Laws/Action.lean ====
section
/-! SUPPORT. Actions with a status: what they may do to the state on the way, passed through the sequencing of actions. -/

set_option Elab.async false
namespace Sys2Proof.Machine

/-- An action changes areas of l alone, as one state may follow another. -/
structure Calm (k : Bool) (l : List Area) {α : Type} (m : Cm α) : Prop where
  run : ∀ s : State, Evolves k l s (m.exec s).2

/-- An administration operation changes areas of l alone. -/
inductive AdminRes.Evolves (k : Bool) (l : List Area) (s : State) : AdminRes → Prop
  | fail {e : Nat} : Evolves k l s (.fail e)
  | done {t : State} {v : Nat} {b : Bool} (h : Machine.Evolves k l s t) : Evolves k l s (.done t v b)
  | later {t : State} (h : Machine.Evolves k l s t) : Evolves k l s (.later t)

theorem AdminRes.Evolves.mono {k : Bool} {l m : List Area} {s : State} {r : AdminRes} (h : r.Evolves k m s)
    (hs : Area.subset m l = true) : r.Evolves k l s := by
  cases h with
  | fail => exact .fail
  | done h => exact .done (Evolves.after h (.refl _ _) hs)
  | later h => exact .later (Evolves.after h (.refl _ _) hs)
theorem AdminRes.Evolves.ite {k : Bool} {l : List Area} {s : State} {A B : AdminRes} {c : Prop} [Decidable c]
    (h : A.Evolves k l s) (j : B.Evolves k l s) : AdminRes.Evolves k l s (if c then A else B) := by split <;> assumption
theorem Calm.mono {k : Bool} {l m : List Area} {α : Type} {x : Cm α} (h : Calm k m x) (hs : Area.subset m l = true) : Calm k l x :=
  ⟨fun s => (h.run s).after (.refl _ _) hs⟩
theorem Calm.pure {k : Bool} {l : List Area} {α : Type} (a : α) : Calm k l (Pure.pure a : Cm α) := ⟨fun _ => .refl _ _⟩
theorem Calm.throw {k : Bool} {l : List Area} {α : Type} (e : Nat) : Calm k l (MonadExcept.throw e : Cm α) := ⟨fun _ => .refl _ _⟩
theorem Calm.throwThe {k : Bool} {l : List Area} {α : Type} (e : Nat) : Calm k l (MonadExceptOf.throw e : Cm α) := ⟨fun _ => .refl _ _⟩
theorem Calm.get {k : Bool} {l : List Area} : Calm k l (MonadState.get : Cm State) := ⟨fun _ => .refl _ _⟩
theorem Calm.bind {k : Bool} {l : List Area} {α β : Type} {x : Cm α} {f : α → Cm β} (h : Calm k l x) (j : ∀ a, Calm k l (f a)) :
    Calm k l (x >>= f) := by
  refine ⟨fun s => ?_⟩
  have h1 := h.run s
  show Evolves k l s ((Bind.bind x f : Cm β) s).2
  simp only [Cm.exec] at h1
  simp only [Bind.bind, ExceptT.bind, ExceptT.mk, StateT.bind]
  cases hx : x s with
  | mk r t =>
    rw [hx] at h1
    cases r with
    | ok a => exact h1.trans ((j a).run t)
    | error e => exact h1
theorem Calm.map {k : Bool} {l : List Area} {α β : Type} {x : Cm α} {f : α → β} (h : Calm k l x) : Calm k l (f <$> x) := by
  refine ⟨fun s => ?_⟩
  have h1 := h.run s
  simp only [Cm.exec] at *
  show Evolves k l s ((Functor.map f x : Cm β) s).2
  simp only [Functor.map, ExceptT.map, ExceptT.mk, Bind.bind, StateT.bind]
  cases hx : x s with
  | mk r t =>
    rw [hx] at h1
    cases r <;> exact h1
theorem Calm.ite {k : Bool} {l : List Area} {α : Type} {x y : Cm α} {c : Prop} [Decidable c] (h : Calm k l x) (j : Calm k l y) :
    Calm k l (if c then x else y) := by split <;> assumption
theorem Calm.need {k : Bool} {l : List Area} (ok : Bool) (e : Nat) : Calm k l (need ok e) := by
  unfold Machine.need
  split
  · exact .pure _
  · exact .throw _
theorem Calm.liftR {k : Bool} {l : List Area} {α : Type} {f : State → Except Nat α × State} (h : ∀ s, Evolves k l s (f s).2) :
    Calm k l (liftR f) := ⟨h⟩
theorem Calm.modify {k : Bool} {l : List Area} {f : State → State} (h : ∀ s, Evolves k l s (f s)) :
    Calm k l (modify f : Cm PUnit) := ⟨h⟩
theorem Calm.drawFree {k : Bool} {l : List Area} : Calm k l drawFree := by
  refine ⟨fun s => ?_⟩
  apply (Evolves.refl l s).upd <;>
    first | exact .inl rfl | exact Nat.le_succ _ | exact .refl _ | exact id
theorem Calm.forM {k : Bool} {l : List Area} {α : Type} {f : α → Cm PUnit} {xs : List α} (h : ∀ a, Calm k l (f a)) :
    Calm k l (xs.forM f) := by
  induction xs with
  | nil => exact .pure _
  | cons a xs ih => exact .bind (h a) fun _ => ih
theorem Calm.foldlM {k : Bool} {l : List Area} {α β : Type} {f : β → α → Cm β} {b : β} {xs : List α} (h : ∀ b a, Calm k l (f b a)) :
    Calm k l (xs.foldlM f b) := by
  induction xs generalizing b with
  | nil => exact .pure _
  | cons a xs ih => exact .bind (h b a) fun _ => ih
theorem Calm.mapM {k : Bool} {l : List Area} {α β : Type} {f : α → Cm β} {xs : List α} (h : ∀ a, Calm k l (f a)) :
    Calm k l (xs.mapM f) := by
  induction xs with
  | nil => exact .pure _
  | cons a xs ih => rw [List.mapM_cons]; exact .bind (h a) fun _ => .bind ih fun _ => .pure _
theorem Calm.filterMapM {k : Bool} {l : List Area} {α β : Type} {f : α → Cm (Option β)} {xs : List α} (h : ∀ a, Calm k l (f a)) :
    Calm k l (xs.filterMapM f) := by
  have loop : ∀ acc, Calm k l (List.filterMapM.loop f xs acc) := by
    induction xs with
    | nil => exact fun _ => .pure _
    | cons a xs ih =>
      intro acc
      refine .bind (h a) fun r => ?_
      cases r <;> exact ih _
  exact loop []

/-- An action run from a state. -/
theorem Evolves.run {k : Bool} {l : List Area} {α : Type} {m : Cm α} {s0 s : State} (h : Evolves k l s0 s) (j : Calm k l m) :
    Evolves k l s0 (m.exec s).2 := h.trans (j.run s)
theorem Evolves.of_snd {k : Bool} {l : List Area} {α : Type} {s t : State} {p : α × State} {a : α} (e : p = (a, t))
    (h : Evolves k l s p.2) : Evolves k l s t := by subst e; exact h
theorem Evolves.of_fst {k : Bool} {l : List Area} {α : Type} {s t : State} {p : State × α} {a : α} (e : p = (t, a))
    (h : Evolves k l s p.1) : Evolves k l s t := by subst e; exact h

end Sys2Proof.Machine
end

