-- ==== Sys2Proof/Laws/Ops.lean ====
section
/-! SUPPORT. What each operation of Sys2Proof/Machine/Ops.lean may change, and how the state follows. -/

set_option Elab.async false
set_option linter.all false
namespace Sys2Proof.Machine

theorem within_ev {k : Bool} {l : List Area} {s : State} {what : String} {ok : Bool}
    (m : Area.subset [] l = true) : EvolvesOut k l s (within what ok s) := by
  refine EvolvesOut.mono ?_ m
  unfold within
  try dsimp only
  repeat'
    first
    | exact rfl | exact .inr rfl | exact .inl rfl | exact Nat.le_refl _ | exact Nat.le_add_right _ _ | exact .refl _ | exact fun h => h
    | with_reducible exact Evolves.refl _ _ | with_reducible refine Evolves.foldl ?_ fun _ _ => ?_
    | with_reducible apply Evolves.ite | with_reducible apply EvolvesOut.next | with_reducible exact EvolvesOut.fault
    | with_reducible apply EvolvesOut.ite | split | with_reducible apply Evolves.upd

theorem State.updFn_ev {k : Bool} {l : List Area} {s0 s : State} {f : Nat} {g : Func → Func} (h : Evolves k l s0 s)
    (m : Area.subset [.funcs] l = true) : Evolves k l s0 (s.updFn f g) := by
  refine Evolves.after ?_ h m
  unfold State.updFn
  try dsimp only
  repeat'
    first
    | exact rfl | exact .inr rfl | exact .inl rfl | exact Nat.le_refl _ | exact Nat.le_add_right _ _ | exact .refl _ | exact fun h => h
    | with_reducible exact Evolves.refl _ _ | with_reducible refine Evolves.foldl ?_ fun _ _ => ?_
    | with_reducible apply Evolves.ite | split | with_reducible apply Evolves.upd

theorem State.updCx_ev {k : Bool} {l : List Area} {s0 s : State} {c : Nat} {g : Ctx → Ctx} (h : Evolves k l s0 s)
    (m : Area.subset [.ctxs] l = true) : Evolves k l s0 (s.updCx c g) := by
  refine Evolves.after ?_ h m
  unfold State.updCx
  try dsimp only
  repeat'
    first
    | exact rfl | exact .inr rfl | exact .inl rfl | exact Nat.le_refl _ | exact Nat.le_add_right _ _ | exact .refl _ | exact fun h => h
    | with_reducible exact Evolves.refl _ _ | with_reducible refine Evolves.foldl ?_ fun _ _ => ?_
    | with_reducible apply Evolves.ite | split | with_reducible apply Evolves.upd

theorem State.updPt_ev {k : Bool} {l : List Area} {s0 s : State} {p : Nat} {g : Partition → Partition} (h : Evolves k l s0 s)
    (m : Area.subset [.parts] l = true) : Evolves k l s0 (s.updPt p g) := by
  refine Evolves.after ?_ h m
  unfold State.updPt
  try dsimp only
  repeat'
    first
    | exact rfl | exact .inr rfl | exact .inl rfl | exact Nat.le_refl _ | exact Nat.le_add_right _ _ | exact .refl _ | exact fun h => h
    | with_reducible exact Evolves.refl _ _ | with_reducible refine Evolves.foldl ?_ fun _ _ => ?_
    | with_reducible apply Evolves.ite | split | with_reducible apply Evolves.upd

theorem State.updCl_ev {k : Bool} {l : List Area} {s0 s : State} {c : Nat} {g : Cluster → Cluster} (h : Evolves k l s0 s)
    (m : Area.subset [.clusters] l = true) : Evolves k l s0 (s.updCl c g) := by
  refine Evolves.after ?_ h m
  unfold State.updCl
  try dsimp only
  repeat'
    first
    | exact rfl | exact .inr rfl | exact .inl rfl | exact Nat.le_refl _ | exact Nat.le_add_right _ _ | exact .refl _ | exact fun h => h
    | with_reducible exact Evolves.refl _ _ | with_reducible refine Evolves.foldl ?_ fun _ _ => ?_
    | with_reducible apply Evolves.ite | split | with_reducible apply Evolves.upd

theorem State.updRg_ev {k : Bool} {l : List Area} {s0 s : State} {r : Nat} {g : Ring → Ring} (h : Evolves k l s0 s)
    (m : Area.subset [.rings] l = true) : Evolves k l s0 (s.updRg r g) := by
  refine Evolves.after ?_ h m
  unfold State.updRg
  try dsimp only
  repeat'
    first
    | exact rfl | exact .inr rfl | exact .inl rfl | exact Nat.le_refl _ | exact Nat.le_add_right _ _ | exact .refl _ | exact fun h => h
    | with_reducible exact Evolves.refl _ _ | with_reducible refine Evolves.foldl ?_ fun _ _ => ?_
    | with_reducible apply Evolves.ite | split | with_reducible apply Evolves.upd

theorem State.updSec_ev {k : Bool} {l : List Area} {s0 s : State} {x1 : Nat} {g : Section → Section} (h : Evolves k l s0 s)
    (m : Area.subset [.secs] l = true) : Evolves k l s0 (s.updSec x1 g) := by
  refine Evolves.after ?_ h m
  unfold State.updSec
  try dsimp only
  repeat'
    first
    | exact rfl | exact .inr rfl | exact .inl rfl | exact Nat.le_refl _ | exact Nat.le_add_right _ _ | exact .refl _ | exact fun h => h
    | with_reducible exact Evolves.refl _ _ | with_reducible refine Evolves.foldl ?_ fun _ _ => ?_
    | with_reducible apply Evolves.ite | split | with_reducible apply Evolves.upd

theorem State.updFe_ev {k : Bool} {l : List Area} {s0 s : State} {i : Nat} {g : Fence → Fence} (h : Evolves k l s0 s)
    (m : Area.subset [.fences] l = true) : Evolves k l s0 (s.updFe i g) := by
  refine Evolves.after ?_ h m
  unfold State.updFe
  try dsimp only
  repeat'
    first
    | exact rfl | exact .inr rfl | exact .inl rfl | exact Nat.le_refl _ | exact Nat.le_add_right _ _ | exact .refl _ | exact fun h => h
    | with_reducible exact Evolves.refl _ _ | with_reducible refine Evolves.foldl ?_ fun _ _ => ?_
    | with_reducible apply Evolves.ite | split | with_reducible apply Evolves.upd

theorem State.updOb_ev {k : Bool} {l : List Area} {s0 s : State} {x1 : Nat} {g : Obj → Obj} (h : Evolves k l s0 s)
    (m : Area.subset [.objs] l = true) : Evolves k l s0 (s.updOb x1 g) := by
  refine Evolves.after ?_ h m
  unfold State.updOb
  try dsimp only
  repeat'
    first
    | exact rfl | exact .inr rfl | exact .inl rfl | exact Nat.le_refl _ | exact Nat.le_add_right _ _ | exact .refl _ | exact fun h => h
    | with_reducible exact Evolves.refl _ _ | with_reducible refine Evolves.foldl ?_ fun _ _ => ?_
    | with_reducible apply Evolves.ite | split | with_reducible apply Evolves.upd

theorem State.updPan_ev {k : Bool} {l : List Area} {s0 s : State} {p : Nat} {g : Pan → Pan} (h : Evolves k l s0 s)
    (m : Area.subset [.pans] l = true) : Evolves k l s0 (s.updPan p g) := by
  refine Evolves.after ?_ h m
  unfold State.updPan
  try dsimp only
  repeat'
    first
    | exact rfl | exact .inr rfl | exact .inl rfl | exact Nat.le_refl _ | exact Nat.le_add_right _ _ | exact .refl _ | exact fun h => h
    | with_reducible exact Evolves.refl _ _ | with_reducible refine Evolves.foldl ?_ fun _ _ => ?_
    | with_reducible apply Evolves.ite | split | with_reducible apply Evolves.upd

theorem State.updUn_ev {k : Bool} {l : List Area} {s0 s : State} {u : Nat} {g : CoreUnit → CoreUnit} (h : Evolves k l s0 s)
    (m : Area.subset [.units] l = true) : Evolves k l s0 (s.updUn u g) := by
  refine Evolves.after ?_ h m
  unfold State.updUn
  try dsimp only
  repeat'
    first
    | exact rfl | exact .inr rfl | exact .inl rfl | exact Nat.le_refl _ | exact Nat.le_add_right _ _ | exact .refl _ | exact fun h => h
    | with_reducible exact Evolves.refl _ _ | with_reducible refine Evolves.foldl ?_ fun _ _ => ?_
    | with_reducible apply Evolves.ite | split | with_reducible apply Evolves.upd

theorem State.updStk_ev {k : Bool} {l : List Area} {s0 s : State} {x1 : Nat} {g : Stack → Stack} (h : Evolves k l s0 s)
    (m : Area.subset [.hbm] l = true) : Evolves k l s0 (s.updStk x1 g) := by
  refine Evolves.after ?_ h m
  unfold State.updStk
  try dsimp only
  repeat'
    first
    | exact rfl | exact .inr rfl | exact .inl rfl | exact Nat.le_refl _ | exact Nat.le_add_right _ _ | exact .refl _ | exact fun h => h
    | with_reducible exact Evolves.refl _ _ | with_reducible refine Evolves.foldl ?_ fun _ _ => ?_
    | with_reducible apply Evolves.ite | split | with_reducible apply Evolves.upd

theorem State.updPort_ev {k : Bool} {l : List Area} {s0 s : State} {p : Nat} {g : Port → Port} (h : Evolves k l s0 s)
    (m : Area.subset [.hzn] l = true) : Evolves k l s0 (s.updPort p g) := by
  refine Evolves.after ?_ h m
  unfold State.updPort
  try dsimp only
  repeat'
    first
    | exact rfl | exact .inr rfl | exact .inl rfl | exact Nat.le_refl _ | exact Nat.le_add_right _ _ | exact .refl _ | exact fun h => h
    | with_reducible exact Evolves.refl _ _ | with_reducible refine Evolves.foldl ?_ fun _ _ => ?_
    | with_reducible apply Evolves.ite | split | with_reducible apply Evolves.upd

theorem State.updXp_ev {k : Bool} {l : List Area} {s0 s : State} {p : Nat} {g : XPart → XPart} (h : Evolves k l s0 s)
    (m : Area.subset [.xparts] l = true) : Evolves k l s0 (s.updXp p g) := by
  refine Evolves.after ?_ h m
  unfold State.updXp
  try dsimp only
  repeat'
    first
    | exact rfl | exact .inr rfl | exact .inl rfl | exact Nat.le_refl _ | exact Nat.le_add_right _ _ | exact .refl _ | exact fun h => h
    | with_reducible exact Evolves.refl _ _ | with_reducible refine Evolves.foldl ?_ fun _ _ => ?_
    | with_reducible apply Evolves.ite | split | with_reducible apply Evolves.upd

theorem State.updSvc_ev {k : Bool} {l : List Area} {s0 s : State} {v : Nat} {g : Svc → Svc} (h : Evolves k l s0 s)
    (m : Area.subset [.svcs] l = true) : Evolves k l s0 (s.updSvc v g) := by
  refine Evolves.after ?_ h m
  unfold State.updSvc
  try dsimp only
  repeat'
    first
    | exact rfl | exact .inr rfl | exact .inl rfl | exact Nat.le_refl _ | exact Nat.le_add_right _ _ | exact .refl _ | exact fun h => h
    | with_reducible exact Evolves.refl _ _ | with_reducible refine Evolves.foldl ?_ fun _ _ => ?_
    | with_reducible apply Evolves.ite | split | with_reducible apply Evolves.upd

theorem State.emit_ev {k : Bool} {l : List Area} {s0 s : State} {e : OutEvent} (h : Evolves k l s0 s)
    (m : ∀ x, OutEvent.apply x e = x) : Evolves k l s0 (s.emit e) :=
  h.trans ⟨fun a _ => by cases a <;> rfl, rfl, .refl _, ⟨[e], rfl, (m _).symm⟩, id, id, .refl _, Nat.le_refl _, .refl _⟩

theorem State.atTime_ev {k : Bool} {l : List Area} {s0 s : State} {t : Nat} (h : Evolves k l s0 s)
    (m : Area.subset [.time] l = true) : Evolves k l s0 (s.atTime t) := by
  refine Evolves.after ?_ h m
  unfold State.atTime
  try dsimp only
  repeat'
    first
    | exact rfl | exact .inr rfl | exact .inl rfl | exact Nat.le_refl _ | exact Nat.le_add_right _ _ | exact .refl _ | exact fun h => h
    | with_reducible exact Evolves.refl _ _ | with_reducible refine Evolves.foldl ?_ fun _ _ => ?_
    | with_reducible apply Evolves.ite | split | with_reducible apply Evolves.upd

theorem State.endWindow_ev {k : Bool} {l : List Area} {s0 s : State} {w : Nat} {len : Nat} (h : Evolves k l s0 s)
    (m : Area.subset [.time] l = true) : Evolves k l s0 (s.endWindow w len).1 := by
  refine Evolves.after ?_ h m
  unfold State.endWindow
  try dsimp only
  repeat'
    first
    | exact rfl | exact .inr rfl | exact .inl rfl | exact Nat.le_refl _ | exact Nat.le_add_right _ _ | exact .refl _ | exact fun h => h
    | with_reducible exact Evolves.refl _ _ | with_reducible refine State.atTime_ev ?_ ?_
    | with_reducible refine Evolves.foldl ?_ fun _ _ => ?_ | dsimp only | with_reducible apply Evolves.ite | split
    | with_reducible apply Evolves.upd

theorem State.postHost_ev {k : Bool} {l : List Area} {s0 s : State} {link func addr : Nat} {bs : List Byte} (h : Evolves k l s0 s)
    (_m : Area.subset [] l = true) : Evolves k l s0 (s.postHost link func addr bs) :=
  h.trans ⟨fun a _ => by cases a <;> rfl, rfl, .refl _, ⟨[.hostWrite link (requester link func) addr bs], rfl, rfl⟩, id, id, .refl _,
    Nat.le_refl _, .refl _⟩

theorem State.seal_ev {k : Bool} {l : List Area} {s0 s : State} {r : LogRec} (h : Evolves k l s0 s)
    (m : Area.subset [.pins, .log] l = true) : Evolves k l s0 (s.seal r) := by
  refine Evolves.after ?_ h m
  unfold State.seal
  apply (Evolves.refl _ s).upd <;> try first | exact rfl | exact .inr rfl | exact .inl rfl | exact Nat.le_refl _ | exact .refl _ | exact fun h => h
  dsimp only
  split
  · rename_i hf
    have hf : s.log.ff.length < ffSlots := by simpa using (And.right (by simpa using hf))
    exact ⟨fun h => ⟨by simp only [List.length_append, List.length_cons, List.length_nil]; omega, h.2⟩, fun _ => List.prefix_append _ _⟩
  · exact .of_queue rfl fun h => h

theorem State.push_ev {k : Bool} {l : List Area} {s0 s : State} {r : LogRec} (h : Evolves k l s0 s)
    (m : Area.subset [.pins, .log] l = true) : Evolves k l s0 (s.push r) := by
  refine Evolves.after ?_ h m
  unfold State.push
  split
  · exact State.seal_ev (.refl _ _) rfl
  · split
    · rename_i hq
      apply (Evolves.refl _ s).upd <;> try first | exact rfl | exact .inr rfl | exact .inl rfl | exact Nat.le_refl _ | exact .refl _ | exact fun h => h
      exact .of_queue rfl fun _ => by simp only [List.length_append, List.length_cons, List.length_nil]; omega
    · apply (Evolves.refl _ s).upd <;> try first | exact rfl | exact .inr rfl | exact .inl rfl | exact Nat.le_refl _ | exact .refl _ | exact fun h => h
      exact .of_queue rfl fun h => h

theorem State.logEv_ev {k : Bool} {l : List Area} {s0 s : State} {code : Nat} {cls : Nat} {kind : Nat} {unit : Nat} {ctx : Nat} {data : List Nat} (h : Evolves k l s0 s)
    (m : Area.subset [.pins, .log] l = true) : Evolves k l s0 (s.logEv code cls kind unit ctx data) := by
  refine Evolves.after ?_ h m
  unfold State.logEv
  try dsimp only
  repeat'
    first
    | exact rfl | exact .inr rfl | exact .inl rfl | exact Nat.le_refl _ | exact Nat.le_add_right _ _ | exact .refl _ | exact fun h => h
    | with_reducible exact Evolves.refl _ _ | with_reducible refine State.push_ev ?_ ?_
    | with_reducible refine Evolves.foldl ?_ fun _ _ => ?_ | with_reducible apply Evolves.ite | split
    | with_reducible apply Evolves.upd

theorem State.logCo_ev {k : Bool} {l : List Area} {s0 s : State} {code : Nat} {cls : Nat} {kind : Nat} {unit : Nat} {ctx : Nat} {data : List Nat} (h : Evolves k l s0 s)
    (m : Area.subset [.pins, .log] l = true) : Evolves k l s0 (s.logCo code cls kind unit ctx data) := by
  refine Evolves.after ?_ h m
  unfold State.logCo
  try dsimp only
  repeat'
    first
    | exact rfl | exact .inr rfl | exact .inl rfl | exact Nat.le_refl _ | exact Nat.le_add_right _ _ | exact .refl _ | exact fun h => h | exact .of_queue rfl fun h => h
    | with_reducible exact Evolves.refl _ _ | with_reducible refine State.push_ev ?_ ?_
    | with_reducible refine Evolves.foldl ?_ fun _ _ => ?_ | with_reducible apply Evolves.ite | split
    | with_reducible apply Evolves.upd

theorem State.flushCoalesced_ev {k : Bool} {l : List Area} {s0 s : State} (h : Evolves k l s0 s)
    (m : Area.subset [.pins, .log] l = true) : Evolves k l s0 s.flushCoalesced := by
  refine Evolves.after ?_ h m
  unfold State.flushCoalesced
  try dsimp only
  repeat'
    first
    | exact rfl | exact .inr rfl | exact .inl rfl | exact Nat.le_refl _ | exact Nat.le_add_right _ _ | exact .refl _ | exact fun h => h | exact .of_queue rfl fun h => h
    | with_reducible exact Evolves.refl _ _ | with_reducible refine State.push_ev ?_ ?_
    | with_reducible refine Evolves.foldl ?_ fun _ _ => ?_ | with_reducible apply Evolves.ite | split
    | with_reducible apply Evolves.upd

theorem State.sendMsix_ev {k : Bool} {l : List Area} {s0 s : State} {f : Nat} {v : Nat} (h : Evolves k l s0 s)
    (m : Area.subset [.msix] l = true) : Evolves k l s0 (s.sendMsix f v) := by
  refine Evolves.after ?_ h m
  unfold State.sendMsix
  try dsimp only
  repeat'
    first
    | exact rfl | exact .inr rfl | exact .inl rfl | exact Nat.le_refl _ | exact Nat.le_add_right _ _ | exact .refl _ | exact fun h => h | exact fun _ => rfl
    | with_reducible exact Evolves.refl _ _ | with_reducible refine State.emit_ev ?_ ?_
    | with_reducible refine Evolves.foldl ?_ fun _ _ => ?_ | with_reducible apply Evolves.ite | split
    | with_reducible apply Evolves.upd

theorem State.dropPending_ev {k : Bool} {l : List Area} {s0 s : State} {f : Nat} (h : Evolves k l s0 s)
    (m : Area.subset [.msix] l = true) : Evolves k l s0 (s.dropPending f) := by
  refine Evolves.after ?_ h m
  unfold State.dropPending
  try dsimp only
  repeat'
    first
    | exact rfl | exact .inr rfl | exact .inl rfl | exact Nat.le_refl _ | exact Nat.le_add_right _ _ | exact .refl _ | exact fun h => h
    | with_reducible exact Evolves.refl _ _ | with_reducible refine Evolves.foldl ?_ fun _ _ => ?_
    | with_reducible apply Evolves.ite | split | with_reducible apply Evolves.upd

theorem State.sendPending_ev {k : Bool} {l : List Area} {s0 s : State} {f : Nat} (h : Evolves k l s0 s)
    (m : Area.subset [.msix] l = true) : Evolves k l s0 (s.sendPending f) := by
  refine Evolves.after ?_ h m
  unfold State.sendPending
  try dsimp only
  repeat'
    first
    | exact rfl | exact .inr rfl | exact .inl rfl | exact Nat.le_refl _ | exact Nat.le_add_right _ _ | exact .refl _ | exact fun h => h | exact fun _ => rfl
    | with_reducible exact Evolves.refl _ _ | with_reducible refine State.emit_ev ?_ ?_
    | with_reducible refine Evolves.foldl ?_ fun _ _ => ?_ | with_reducible apply Evolves.ite | split
    | with_reducible apply Evolves.upd

theorem State.viol_ev {k : Bool} {l : List Area} {s0 s : State} {f : Nat} {kind : Nat} (h : Evolves k l s0 s)
    (m : Area.subset [.pins, .funcs, .log] l = true) : Evolves k l s0 (s.viol f kind) := by
  refine Evolves.after ?_ h m
  unfold State.viol
  try dsimp only
  repeat'
    first
    | exact rfl | exact .inr rfl | exact .inl rfl | exact Nat.le_refl _ | exact Nat.le_add_right _ _ | exact .refl _ | exact fun h => h
    | with_reducible exact Evolves.refl _ _ | with_reducible refine State.updFn_ev ?_ ?_
    | with_reducible refine State.logCo_ev ?_ ?_ | with_reducible refine Evolves.foldl ?_ fun _ _ => ?_
    | with_reducible apply Evolves.ite | split | with_reducible apply Evolves.upd

theorem State.postRecord_ev {k : Bool} {l : List Area} {s0 s : State} {g : EvGeom} {seq : Nat} {r : EvRec} (h : Evolves k l s0 s)
    (m : Area.subset [] l = true) : Evolves k l s0 (s.postRecord g seq r) := by
  refine Evolves.after ?_ h m
  unfold State.postRecord
  try dsimp only
  repeat'
    first
    | exact rfl | exact .inr rfl | exact .inl rfl | exact Nat.le_refl _ | exact Nat.le_add_right _ _ | exact .refl _ | exact fun h => h
    | with_reducible exact Evolves.refl _ _ | with_reducible refine State.postHost_ev ?_ ?_
    | with_reducible refine Evolves.foldl ?_ fun _ _ => ?_ | with_reducible apply Evolves.ite | split
    | with_reducible apply Evolves.upd

theorem State.refreshFunc_ev {k : Bool} {l : List Area} {s0 s : State} {f : Nat} (h : Evolves k l s0 s)
    (m : Area.subset [.pins, .funcs, .log] l = true) : Evolves k l s0 (s.refreshFunc f) := by
  refine Evolves.after ?_ h m
  unfold State.refreshFunc
  try dsimp only
  repeat'
    first
    | exact rfl | exact .inr rfl | exact .inl rfl | exact Nat.le_refl _ | exact Nat.le_add_right _ _ | exact .refl _ | exact fun h => h
    | with_reducible exact Evolves.refl _ _ | with_reducible refine State.updFn_ev ?_ ?_
    | with_reducible refine State.viol_ev ?_ ?_ | with_reducible refine Evolves.foldl ?_ fun _ _ => ?_
    | with_reducible apply Evolves.ite | split | with_reducible apply Evolves.upd

theorem State.putFunc_ev {k : Bool} {l : List Area} {s0 s : State} {f : Nat} {r : EvRec} (h : Evolves k l s0 s)
    (m : Area.subset [.funcs, .msix] l = true) : Evolves k l s0 (s.putFunc f r) := by
  refine Evolves.after ?_ h m
  unfold State.putFunc
  try dsimp only
  repeat'
    first
    | exact rfl | exact .inr rfl | exact .inl rfl | exact Nat.le_refl _ | exact Nat.le_add_right _ _ | exact .refl _ | exact fun h => h
    | with_reducible exact Evolves.refl _ _ | with_reducible refine State.updFn_ev ?_ ?_
    | with_reducible refine State.postRecord_ev ?_ ?_ | with_reducible refine State.sendMsix_ev ?_ ?_
    | with_reducible refine Evolves.foldl ?_ fun _ _ => ?_ | with_reducible apply Evolves.ite | split
    | with_reducible apply Evolves.upd

theorem State.funcEvent_ev {k : Bool} {l : List Area} {s0 s : State} {f : Nat} {r : EvRec} (h : Evolves k l s0 s)
    (m : Area.subset [.pins, .funcs, .msix, .log] l = true) : Evolves k l s0 (s.funcEvent f r) := by
  refine Evolves.after ?_ h m
  unfold State.funcEvent
  try dsimp only
  repeat'
    first
    | exact rfl | exact .inr rfl | exact .inl rfl | exact Nat.le_refl _ | exact Nat.le_add_right _ _ | exact .refl _ | exact fun h => h
    | with_reducible exact Evolves.refl _ _ | with_reducible refine State.refreshFunc_ev ?_ ?_
    | with_reducible refine State.putFunc_ev ?_ ?_ | with_reducible refine State.updFn_ev ?_ ?_
    | with_reducible refine Evolves.foldl ?_ fun _ _ => ?_ | with_reducible apply Evolves.ite | split
    | with_reducible apply Evolves.upd

theorem State.devChange_ev {k : Bool} {l : List Area} {s0 s : State} {off : Nat} {fs : List Nat} (h : Evolves k l s0 s)
    (m : Area.subset [.pins, .funcs, .msix, .log] l = true) : Evolves k l s0 (s.devChange off fs) := by
  refine Evolves.after ?_ h m
  unfold State.devChange
  try dsimp only
  repeat'
    first
    | exact rfl | exact .inr rfl | exact .inl rfl | exact Nat.le_refl _ | exact Nat.le_add_right _ _ | exact .refl _ | exact fun h => h
    | with_reducible exact Evolves.refl _ _ | with_reducible refine State.funcEvent_ev ?_ ?_
    | with_reducible refine Evolves.foldl ?_ fun _ _ => ?_ | with_reducible apply Evolves.ite | split
    | with_reducible apply Evolves.upd

theorem State.devChangeAll_ev {k : Bool} {l : List Area} {s0 s : State} {off : Nat} (h : Evolves k l s0 s)
    (m : Area.subset [.pins, .funcs, .msix, .log] l = true) : Evolves k l s0 (s.devChangeAll off) := by
  refine Evolves.after ?_ h m
  unfold State.devChangeAll
  try dsimp only
  repeat'
    first
    | exact rfl | exact .inr rfl | exact .inl rfl | exact Nat.le_refl _ | exact Nat.le_add_right _ _ | exact .refl _ | exact fun h => h
    | with_reducible exact Evolves.refl _ _ | with_reducible refine State.devChange_ev ?_ ?_
    | with_reducible refine Evolves.foldl ?_ fun _ _ => ?_ | with_reducible apply Evolves.ite | split
    | with_reducible apply Evolves.upd

theorem State.refreshCtx_ev {k : Bool} {l : List Area} {s0 s : State} {c : Nat} (h : Evolves k l s0 s)
    (m : Area.subset [.pins, .funcs, .ctxs, .log] l = true) : Evolves k l s0 (s.refreshCtx c) := by
  refine Evolves.after ?_ h m
  unfold State.refreshCtx
  try dsimp only
  repeat'
    first
    | exact rfl | exact .inr rfl | exact .inl rfl | exact Nat.le_refl _ | exact Nat.le_add_right _ _ | exact .refl _ | exact fun h => h
    | with_reducible exact Evolves.refl _ _ | with_reducible refine State.updCx_ev ?_ ?_
    | with_reducible refine State.viol_ev ?_ ?_ | with_reducible refine Evolves.foldl ?_ fun _ _ => ?_
    | with_reducible apply Evolves.ite | split | with_reducible apply Evolves.upd

theorem State.putCtx_ev {k : Bool} {l : List Area} {s0 s : State} {c : Nat} {r : EvRec} (h : Evolves k l s0 s)
    (m : Area.subset [.msix, .ctxs] l = true) : Evolves k l s0 (s.putCtx c r) := by
  refine Evolves.after ?_ h m
  unfold State.putCtx
  try dsimp only
  repeat'
    first
    | exact rfl | exact .inr rfl | exact .inl rfl | exact Nat.le_refl _ | exact Nat.le_add_right _ _ | exact .refl _ | exact fun h => h
    | with_reducible exact Evolves.refl _ _ | with_reducible refine State.updCx_ev ?_ ?_
    | with_reducible refine State.postRecord_ev ?_ ?_ | with_reducible refine State.sendMsix_ev ?_ ?_
    | with_reducible refine Evolves.foldl ?_ fun _ _ => ?_ | with_reducible apply Evolves.ite | split
    | with_reducible apply Evolves.upd

theorem State.ctxEvent_ev {k : Bool} {l : List Area} {s0 s : State} {c : Nat} {r : EvRec} (h : Evolves k l s0 s)
    (m : Area.subset [.pins, .funcs, .msix, .ctxs, .log] l = true) : Evolves k l s0 (s.ctxEvent c r).1 := by
  refine Evolves.after ?_ h m
  unfold State.ctxEvent
  try dsimp only
  repeat'
    first
    | exact rfl | exact .inr rfl | exact .inl rfl | exact Nat.le_refl _ | exact Nat.le_add_right _ _ | exact .refl _ | exact fun h => h
    | with_reducible exact Evolves.refl _ _ | with_reducible refine State.refreshCtx_ev ?_ ?_
    | with_reducible refine State.putCtx_ev ?_ ?_ | with_reducible refine State.updCx_ev ?_ ?_
    | with_reducible refine Evolves.foldl ?_ fun _ _ => ?_ | dsimp only | with_reducible apply Evolves.ite | split
    | with_reducible apply Evolves.upd

theorem State.emergencyStop_ev {k : Bool} {l : List Area} {s0 s : State} (h : Evolves k l s0 s)
    (m : Area.subset [.hub, .pans, .power] l = true) : Evolves k l s0 s.emergencyStop := by
  refine Evolves.after ?_ h m
  unfold State.emergencyStop
  try dsimp only
  repeat'
    first
    | exact rfl | exact .inr rfl | exact .inl rfl | exact Nat.le_refl _ | exact Nat.le_add_right _ _ | exact .refl _ | exact fun h => h | exact ⟨fun _ h => h, fun h => h⟩
    | with_reducible exact Evolves.refl _ _ | with_reducible refine Evolves.foldl ?_ fun _ _ => ?_
    | with_reducible apply Evolves.ite | split | with_reducible apply Evolves.upd

theorem State.flushAts_ev {k : Bool} {l : List Area} {s0 s : State} (h : Evolves k l s0 s)
    (m : Area.subset [.atsInvals] l = true) : Evolves k l s0 s.flushAts := by
  refine Evolves.after ?_ h m
  unfold State.flushAts
  try dsimp only
  repeat'
    first
    | exact rfl | exact .inr rfl | exact .inl rfl | exact Nat.le_refl _ | exact Nat.le_add_right _ _ | exact .refl _ | exact fun h => h | exact fun _ => rfl
    | with_reducible exact Evolves.refl _ _ | with_reducible refine State.emit_ev ?_ ?_
    | with_reducible refine Evolves.foldl ?_ fun _ _ => ?_ | with_reducible apply Evolves.ite | split
    | with_reducible apply Evolves.upd

theorem State.enterCmd_ev {k : Bool} {l : List Area} {s0 s : State} {x1 : Cmd} (h : Evolves k l s0 s)
    (m : Area.subset [.windows, .cmds, .atsInvals] l = true) : Evolves k l s0 (s.enterCmd x1) := by
  refine Evolves.after ?_ h m
  unfold State.enterCmd
  try dsimp only
  repeat'
    first
    | exact rfl | exact .inr rfl | exact .inl rfl | exact Nat.le_refl _ | exact Nat.le_add_right _ _ | exact .refl _ | exact fun h => h
    | with_reducible exact Evolves.refl _ _ | with_reducible refine Evolves.foldl ?_ fun _ _ => ?_
    | with_reducible apply Evolves.ite | split | with_reducible apply Evolves.upd

theorem State.holdPorts_ev {k : Bool} {l : List Area} {s0 s : State} (h : Evolves k l s0 s)
    (m : Area.subset [.hzn, .xparts] l = true) : Evolves k l s0 s.holdPorts := by
  refine Evolves.after ?_ h m
  unfold State.holdPorts
  try dsimp only
  repeat'
    first
    | exact rfl | exact .inr rfl | exact .inl rfl | exact Nat.le_refl _ | exact Nat.le_add_right _ _ | exact .refl _ | exact fun h => h
    | with_reducible exact Evolves.refl _ _ | with_reducible refine Evolves.foldl ?_ fun _ _ => ?_
    | with_reducible apply Evolves.ite | split | with_reducible apply Evolves.upd

theorem State.dropContexts_ev {k : Bool} {l : List Area} {s0 s : State} {st : Nat} (h : Evolves k l s0 s)
    (m : Area.subset [.ctxs, .rings, .cmds, .replays, .atsInvals] l = true) : Evolves k l s0 (s.dropContexts st) := by
  refine Evolves.after ?_ h m
  unfold State.dropContexts
  try dsimp only
  repeat'
    first
    | exact rfl | exact .inr rfl | exact .inl rfl | exact Nat.le_refl _ | exact Nat.le_add_right _ _ | exact .refl _ | exact fun h => h
    | with_reducible exact Evolves.refl _ _ | with_reducible refine State.flushAts_ev ?_ ?_
    | with_reducible refine Evolves.foldl ?_ fun _ _ => ?_ | with_reducible apply Evolves.ite | split
    | with_reducible apply Evolves.upd

theorem State.deviceLoss_ev {k : Bool} {l : List Area} {s0 s : State} {cause : Nat} {kind : Nat} {unit : Nat} {code : Nat} {data : List Nat} (h : Evolves k l s0 s)
    (m : Area.subset [.pins, .hub, .funcs, .msix, .ctxs, .rings, .pans, .power, .log, .cmds, .replays, .hzn, .xparts, .atsInvals] l = true) : Evolves k l s0 (s.deviceLoss cause kind unit code data) := by
  refine Evolves.after ?_ h m
  unfold State.deviceLoss
  try dsimp only
  repeat'
    first
    | exact rfl | exact .inr rfl | exact .inl rfl | exact Nat.le_refl _ | exact Nat.le_add_right _ _ | exact .refl _ | exact fun h => h | exact ⟨fun _ h => h, fun h => h⟩
    | with_reducible exact Evolves.refl _ _ | with_reducible refine State.push_ev ?_ ?_
    | with_reducible refine State.emergencyStop_ev ?_ ?_ | with_reducible refine State.holdPorts_ev ?_ ?_
    | with_reducible refine State.dropContexts_ev ?_ ?_ | with_reducible refine State.refreshFunc_ev ?_ ?_
    | with_reducible refine State.putFunc_ev ?_ ?_ | with_reducible refine Evolves.foldl ?_ fun _ _ => ?_
    | with_reducible apply Evolves.ite | exact ⟨fun _ _ => rfl, fun h => h⟩ | split | with_reducible apply Evolves.upd

theorem State.uncontained_ev {k : Bool} {l : List Area} {s0 s : State} {cause : Nat} {kind : Nat} {unit : Nat} {code : Nat} {data : List Nat} (h : Evolves k l s0 s)
    (m : Area.subset [.pins, .hub, .funcs, .msix, .ctxs, .rings, .pans, .power, .log, .cmds, .replays, .hzn, .xparts, .atsInvals] l = true) : Evolves k l s0 (s.uncontained cause kind unit code data) := by
  refine Evolves.after ?_ h m
  unfold State.uncontained
  try dsimp only
  repeat'
    first
    | exact rfl | exact .inr rfl | exact .inl rfl | exact Nat.le_refl _ | exact Nat.le_add_right _ _ | exact .refl _ | exact fun h => h | exact ⟨fun _ h => h, fun h => h⟩
    | with_reducible exact Evolves.refl _ _ | with_reducible refine State.deviceLoss_ev ?_ ?_
    | with_reducible refine State.emergencyStop_ev ?_ ?_ | with_reducible refine State.push_ev ?_ ?_
    | with_reducible refine Evolves.foldl ?_ fun _ _ => ?_ | with_reducible apply Evolves.ite
    | exact ⟨fun _ h => h, fun _ => Nat.le_of_ble_eq_true rfl⟩ | split | with_reducible apply Evolves.upd

end Sys2Proof.Machine
end

