-- ==== Sys2Proof/Laws/Power.lean ====
section
/-! SUPPORT. What each operation of Sys2Proof/Machine/Power.lean may change, and how the state follows. -/

set_option Elab.async false
set_option linter.all false
namespace Sys2Proof.Machine

theorem State.refreshBelow_ev {k : Bool} {l : List Area} {s0 s : State} (h : Evolves k l s0 s)
    (m : Area.subset [.pins, .funcs, .msix, .parts, .log] l = true) : Evolves k l s0 s.refreshBelow := by
  refine Evolves.after ?_ h m
  unfold State.refreshBelow
  try dsimp only
  repeat'
    first
    | exact rfl | exact .inr rfl | exact .inl rfl | exact Nat.le_refl _ | exact Nat.le_add_right _ _ | exact .refl _ | exact fun h => h
    | with_reducible exact Evolves.refl _ _ | with_reducible refine State.updPt_ev ?_ ?_
    | with_reducible refine State.devChangeAll_ev ?_ ?_ | with_reducible refine Evolves.foldl ?_ fun _ _ => ?_
    | with_reducible apply Evolves.ite | split | with_reducible apply Evolves.upd

theorem State.startChange_ev {k : Bool} {l : List Area} {s0 s : State} {c : Nat} {b : Nat} (h : Evolves k l s0 s)
    (m : Area.subset [.pins, .funcs, .msix, .parts, .clusters, .log] l = true) : Evolves k l s0 (s.startChange c b) := by
  refine Evolves.after ?_ h m
  unfold State.startChange
  try dsimp only
  repeat'
    first
    | exact rfl | exact .inr rfl | exact .inl rfl | exact Nat.le_refl _ | exact Nat.le_add_right _ _ | exact .refl _ | exact fun h => h | exact fun _ => rfl
    | with_reducible exact Evolves.refl _ _ | with_reducible refine State.refreshBelow_ev ?_ ?_
    | with_reducible refine State.emit_ev ?_ ?_ | with_reducible refine State.updCl_ev ?_ ?_
    | with_reducible refine Evolves.foldl ?_ fun _ _ => ?_ | with_reducible apply Evolves.ite | split
    | with_reducible apply Evolves.upd

theorem execRailSensorRead_ev {k : Bool} {l : List Area} {s : State} {volts : List Nat} {currents : List Nat} {estimated : Bool}
    (m : Area.subset [.power] l = true) : EvolvesOut k l s (execRailSensorRead volts currents estimated s) := by
  refine EvolvesOut.mono ?_ m
  unfold execRailSensorRead
  try dsimp only
  repeat'
    first
    | exact rfl | exact .inr rfl | exact .inl rfl | exact Nat.le_refl _ | exact Nat.le_add_right _ _ | exact .refl _ | exact fun h => h
    | with_reducible exact Evolves.refl _ _ | with_reducible refine Evolves.foldl ?_ fun _ _ => ?_
    | with_reducible apply Evolves.ite | with_reducible apply EvolvesOut.next | with_reducible exact EvolvesOut.fault
    | with_reducible apply EvolvesOut.ite | split | with_reducible apply Evolves.upd

theorem execPaceCheck_ev {k : Bool} {l : List Area} {s : State} {cluster : Nat} {pace : Nat}
    (m : Area.subset [.pins, .funcs, .msix, .parts, .clusters, .log] l = true) : EvolvesOut k l s (execPaceCheck cluster pace s) := by
  refine EvolvesOut.mono ?_ m
  unfold execPaceCheck
  try dsimp only
  repeat'
    first
    | exact rfl | exact .inr rfl | exact .inl rfl | exact Nat.le_refl _ | exact Nat.le_add_right _ _ | exact .refl _ | exact fun h => h | exact fun _ => rfl
    | with_reducible exact Evolves.refl _ _ | with_reducible refine State.updCl_ev ?_ ?_
    | with_reducible refine State.emit_ev ?_ ?_ | with_reducible refine State.refreshBelow_ev ?_ ?_
    | with_reducible refine State.logEv_ev ?_ ?_ | with_reducible refine Evolves.foldl ?_ fun _ _ => ?_
    | with_reducible apply Evolves.ite | with_reducible apply EvolvesOut.next | with_reducible exact EvolvesOut.fault
    | with_reducible apply EvolvesOut.ite | split | with_reducible apply Evolves.upd

theorem execPointChange_ev {k : Bool} {l : List Area} {s : State} {cluster : Nat} {point : Nat}
    (m : Area.subset [.pins, .funcs, .msix, .parts, .clusters, .log] l = true) : EvolvesOut k l s (execPointChange cluster point s) := by
  refine EvolvesOut.mono ?_ m
  unfold execPointChange
  try dsimp only
  repeat'
    first
    | exact rfl | exact .inr rfl | exact .inl rfl | exact Nat.le_refl _ | exact Nat.le_add_right _ _ | exact .refl _ | exact fun h => h
    | with_reducible exact Evolves.refl _ _ | with_reducible refine State.startChange_ev ?_ ?_
    | with_reducible refine Evolves.foldl ?_ fun _ _ => ?_ | with_reducible apply Evolves.ite
    | with_reducible apply EvolvesOut.next | with_reducible exact EvolvesOut.fault
    | with_reducible apply EvolvesOut.ite | split | with_reducible apply Evolves.upd

theorem execPointChangeSettled_ev {k : Bool} {l : List Area} {s : State} {cluster : Nat}
    (m : Area.subset [.pins, .funcs, .msix, .parts, .clusters, .log] l = true) : EvolvesOut k l s (execPointChangeSettled cluster s) := by
  refine EvolvesOut.mono ?_ m
  unfold execPointChangeSettled
  try dsimp only
  repeat'
    first
    | exact rfl | exact .inr rfl | exact .inl rfl | exact Nat.le_refl _ | exact Nat.le_add_right _ _ | exact .refl _ | exact fun h => h
    | with_reducible exact Evolves.refl _ _ | with_reducible refine State.refreshBelow_ev ?_ ?_
    | with_reducible refine State.updCl_ev ?_ ?_ | with_reducible refine Evolves.foldl ?_ fun _ _ => ?_
    | with_reducible apply Evolves.ite | with_reducible apply EvolvesOut.next | with_reducible exact EvolvesOut.fault
    | with_reducible apply EvolvesOut.ite | split | with_reducible apply Evolves.upd

theorem execPointChangeTimeout_ev {k : Bool} {l : List Area} {s : State} {cluster : Nat}
    (m : Area.subset [.pins, .time, .funcs, .msix, .parts, .clusters, .log] l = true) : EvolvesOut k l s (execPointChangeTimeout cluster s) := by
  refine EvolvesOut.mono ?_ m
  unfold execPointChangeTimeout
  try dsimp only
  repeat'
    first
    | exact rfl | exact .inr rfl | exact .inl rfl | exact Nat.le_refl _ | exact Nat.le_add_right _ _ | exact .refl _ | exact fun h => h | exact fun _ => rfl
    | with_reducible exact Evolves.refl _ _ | with_reducible refine State.atTime_ev ?_ ?_
    | with_reducible refine State.updCl_ev ?_ ?_ | with_reducible refine State.refreshBelow_ev ?_ ?_
    | with_reducible refine State.logEv_ev ?_ ?_ | with_reducible refine State.emit_ev ?_ ?_
    | with_reducible refine Evolves.foldl ?_ fun _ _ => ?_ | with_reducible apply Evolves.ite
    | with_reducible apply EvolvesOut.next | with_reducible exact EvolvesOut.fault
    | with_reducible apply EvolvesOut.ite | split | with_reducible apply Evolves.upd

theorem State.lowerAll_ev {k : Bool} {l : List Area} {s0 s : State} {cs : List Nat} (h : Evolves k l s0 s)
    (m : Area.subset [.pins, .funcs, .msix, .parts, .clusters, .log] l = true) : Evolves k l s0 (s.lowerAll cs) := by
  refine Evolves.after ?_ h m
  unfold State.lowerAll
  try dsimp only
  repeat'
    first
    | exact rfl | exact .inr rfl | exact .inl rfl | exact Nat.le_refl _ | exact Nat.le_add_right _ _ | exact .refl _ | exact fun h => h
    | with_reducible exact Evolves.refl _ _ | with_reducible refine State.startChange_ev ?_ ?_
    | with_reducible refine Evolves.foldl ?_ fun _ _ => ?_ | with_reducible apply Evolves.ite | split
    | with_reducible apply Evolves.upd

theorem State.lowerForPower_ev {k : Bool} {l : List Area} {s0 s : State} (h : Evolves k l s0 s)
    (m : Area.subset [.pins, .funcs, .msix, .parts, .clusters, .power, .log] l = true) : Evolves k l s0 s.lowerForPower := by
  refine Evolves.after ?_ h m
  unfold State.lowerForPower
  try dsimp only
  repeat'
    first
    | exact rfl | exact .inr rfl | exact .inl rfl | exact Nat.le_refl _ | exact Nat.le_add_right _ _ | exact .refl _ | exact fun h => h
    | with_reducible exact Evolves.refl _ _ | with_reducible refine State.lowerAll_ev ?_ ?_
    | with_reducible refine Evolves.foldl ?_ fun _ _ => ?_ | with_reducible apply Evolves.ite | split
    | with_reducible apply Evolves.upd

theorem State.raiseForPower_ev {k : Bool} {l : List Area} {s0 s : State} (h : Evolves k l s0 s)
    (m : Area.subset [.pins, .funcs, .msix, .parts, .clusters, .power, .log] l = true) : Evolves k l s0 s.raiseForPower := by
  refine Evolves.after ?_ h m
  unfold State.raiseForPower
  try dsimp only
  repeat'
    first
    | exact rfl | exact .inr rfl | exact .inl rfl | exact Nat.le_refl _ | exact Nat.le_add_right _ _ | exact .refl _ | exact fun h => h
    | with_reducible exact Evolves.refl _ _ | with_reducible refine State.startChange_ev ?_ ?_
    | with_reducible refine Evolves.foldl ?_ fun _ _ => ?_ | with_reducible apply Evolves.ite | split
    | with_reducible apply Evolves.upd

theorem execPowerWindowEnd_ev {k : Bool} {l : List Area} {s : State} {watts : Nat}
    (m : Area.subset [.pins, .time, .funcs, .msix, .parts, .clusters, .power, .log] l = true) : EvolvesOut k l s (execPowerWindowEnd watts s) := by
  refine EvolvesOut.mono ?_ m
  unfold execPowerWindowEnd
  try dsimp only
  repeat'
    first
    | exact rfl | exact .inr rfl | exact .inl rfl | exact Nat.le_refl _ | exact Nat.le_add_right _ _ | exact .refl _ | exact fun h => h
    | with_reducible exact Evolves.refl _ _ | with_reducible refine State.endWindow_ev ?_ ?_
    | with_reducible refine State.lowerForPower_ev ?_ ?_ | with_reducible refine State.raiseForPower_ev ?_ ?_
    | with_reducible refine Evolves.foldl ?_ fun _ _ => ?_ | with_reducible apply Evolves.ite
    | with_reducible apply EvolvesOut.next | with_reducible exact EvolvesOut.fault
    | with_reducible apply EvolvesOut.ite | split | refine Evolves.of_fst (by assumption) ?_
    | with_reducible apply Evolves.upd

theorem execPowerProjection_ev {k : Bool} {l : List Area} {s : State} {t : Nat} {energy : Nat} {power : Nat}
    (m : Area.subset [.pins, .time, .power, .log] l = true) : EvolvesOut k l s (execPowerProjection t energy power s) := by
  refine EvolvesOut.mono ?_ m
  unfold execPowerProjection
  try dsimp only
  repeat'
    first
    | exact rfl | exact .inr rfl | exact .inl rfl | exact Nat.le_refl _ | exact Nat.le_add_right _ _ | exact .refl _ | exact fun h => h
    | with_reducible exact Evolves.refl _ _ | with_reducible refine State.atTime_ev ?_ ?_
    | with_reducible refine State.logEv_ev ?_ ?_ | with_reducible refine Evolves.foldl ?_ fun _ _ => ?_
    | with_reducible apply Evolves.ite | with_reducible apply EvolvesOut.next | with_reducible exact EvolvesOut.fault
    | with_reducible apply EvolvesOut.ite | split | with_reducible apply Evolves.upd

theorem execMgtPwrLimitWrite_ev {k : Bool} {l : List Area} {s : State} {value : Nat}
    (m : Area.subset [.pins, .funcs, .power, .log] l = true) : EvolvesOut k l s (execMgtPwrLimitWrite value s) := by
  refine EvolvesOut.mono ?_ m
  unfold execMgtPwrLimitWrite
  try dsimp only
  repeat'
    first
    | exact rfl | exact .inr rfl | exact .inl rfl | exact Nat.le_refl _ | exact Nat.le_add_right _ _ | exact .refl _ | exact fun h => h
    | with_reducible exact Evolves.refl _ _ | with_reducible refine State.viol_ev ?_ ?_
    | with_reducible refine Evolves.foldl ?_ fun _ _ => ?_ | with_reducible apply Evolves.ite
    | with_reducible apply EvolvesOut.next | with_reducible exact EvolvesOut.fault
    | with_reducible apply EvolvesOut.ite | split | with_reducible apply Evolves.upd

theorem State.refreshHottest_ev {k : Bool} {l : List Area} {s0 s : State} (h : Evolves k l s0 s)
    (m : Area.subset [.power] l = true) : Evolves k l s0 s.refreshHottest := by
  refine Evolves.after ?_ h m
  unfold State.refreshHottest
  try dsimp only
  repeat'
    first
    | exact rfl | exact .inr rfl | exact .inl rfl | exact Nat.le_refl _ | exact Nat.le_add_right _ _ | exact .refl _ | exact fun h => h
    | with_reducible exact Evolves.refl _ _ | with_reducible refine Evolves.foldl ?_ fun _ _ => ?_
    | with_reducible refine Evolves.foldl_snd ?_ fun _ _ => ?_
    | with_reducible refine Evolves.foldl_fst ?_ fun _ _ => ?_ | with_reducible apply Evolves.ite | split
    | with_reducible apply Evolves.upd

theorem State.readTemp_ev {k : Bool} {l : List Area} {s0 s : State} {i : Nat} {t16 : Int} (h : Evolves k l s0 s)
    (m : Area.subset [.power] l = true) : Evolves k l s0 (s.readTemp i t16) := by
  refine Evolves.after ?_ h m
  unfold State.readTemp
  try dsimp only
  repeat'
    first
    | exact rfl | exact .inr rfl | exact .inl rfl | exact Nat.le_refl _ | exact Nat.le_add_right _ _ | exact .refl _ | exact fun h => h
    | with_reducible exact Evolves.refl _ _ | with_reducible refine State.refreshHottest_ev ?_ ?_
    | with_reducible refine Evolves.foldl ?_ fun _ _ => ?_ | with_reducible apply Evolves.ite | split
    | with_reducible apply Evolves.upd

theorem State.readTemps_ev {k : Bool} {l : List Area} {s0 s : State} {first : Nat} {ts : List Int} (h : Evolves k l s0 s)
    (m : Area.subset [.power] l = true) : Evolves k l s0 (s.readTemps first ts) := by
  refine Evolves.after ?_ h m
  unfold State.readTemps
  try dsimp only
  repeat'
    first
    | exact rfl | exact .inr rfl | exact .inl rfl | exact Nat.le_refl _ | exact Nat.le_add_right _ _ | exact .refl _ | exact fun h => h
    | with_reducible exact Evolves.refl _ _ | with_reducible refine State.readTemp_ev ?_ ?_
    | with_reducible refine Evolves.foldl ?_ fun _ _ => ?_ | with_reducible apply Evolves.ite | split
    | with_reducible apply Evolves.upd

theorem State.coolDown_ev {k : Bool} {l : List Area} {s0 s : State} {c : Nat} (h : Evolves k l s0 s)
    (m : Area.subset [.pins, .funcs, .msix, .parts, .clusters, .log] l = true) : Evolves k l s0 (s.coolDown c) := by
  refine Evolves.after ?_ h m
  unfold State.coolDown
  try dsimp only
  repeat'
    first
    | exact rfl | exact .inr rfl | exact .inl rfl | exact Nat.le_refl _ | exact Nat.le_add_right _ _ | exact .refl _ | exact fun h => h
    | with_reducible exact Evolves.refl _ _ | with_reducible refine State.startChange_ev ?_ ?_
    | with_reducible refine Evolves.foldl ?_ fun _ _ => ?_ | with_reducible apply Evolves.ite | split
    | with_reducible apply Evolves.upd

theorem execThermalWarnCrossing_ev {k : Bool} {l : List Area} {s : State} {sensor : Nat} {t16 : Int}
    (m : Area.subset [.pins, .funcs, .msix, .parts, .clusters, .power, .log] l = true) : EvolvesOut k l s (execThermalWarnCrossing sensor t16 s) := by
  refine EvolvesOut.mono ?_ m
  unfold execThermalWarnCrossing
  try dsimp only
  repeat'
    first
    | exact rfl | exact .inr rfl | exact .inl rfl | exact Nat.le_refl _ | exact Nat.le_add_right _ _ | exact .refl _ | exact fun h => h
    | with_reducible exact Evolves.refl _ _ | with_reducible refine State.logEv_ev ?_ ?_
    | with_reducible refine State.readTemp_ev ?_ ?_ | with_reducible refine State.coolDown_ev ?_ ?_
    | with_reducible refine State.updCl_ev ?_ ?_ | with_reducible refine Evolves.foldl ?_ fun _ _ => ?_
    | with_reducible apply Evolves.ite | with_reducible apply EvolvesOut.next | with_reducible exact EvolvesOut.fault
    | with_reducible apply EvolvesOut.ite | split | with_reducible apply Evolves.upd

theorem execWarnRelease_ev {k : Bool} {l : List Area} {s : State} {cluster : Nat} {t16s : List Int}
    (m : Area.subset [.pins, .funcs, .msix, .parts, .clusters, .power, .log] l = true) : EvolvesOut k l s (execWarnRelease cluster t16s s) := by
  refine EvolvesOut.mono ?_ m
  unfold execWarnRelease
  try dsimp only
  repeat'
    first
    | exact rfl | exact .inr rfl | exact .inl rfl | exact Nat.le_refl _ | exact Nat.le_add_right _ _ | exact .refl _ | exact fun h => h
    | with_reducible exact Evolves.refl _ _ | with_reducible refine State.updCl_ev ?_ ?_
    | with_reducible refine State.readTemps_ev ?_ ?_ | with_reducible refine State.startChange_ev ?_ ?_
    | with_reducible refine Evolves.foldl ?_ fun _ _ => ?_ | with_reducible apply Evolves.ite
    | with_reducible apply EvolvesOut.next | with_reducible exact EvolvesOut.fault
    | with_reducible apply EvolvesOut.ite | split | with_reducible apply Evolves.upd

theorem execHardwareThrottle_ev {k : Bool} {l : List Area} {s : State} {sensor : Nat} {t16 : Int}
    (m : Area.subset [.pins, .funcs, .msix, .parts, .clusters, .power, .log] l = true) : EvolvesOut k l s (execHardwareThrottle sensor t16 s) := by
  refine EvolvesOut.mono ?_ m
  unfold execHardwareThrottle
  try dsimp only
  repeat'
    first
    | exact rfl | exact .inr rfl | exact .inl rfl | exact Nat.le_refl _ | exact Nat.le_add_right _ _ | exact .refl _ | exact fun h => h
    | with_reducible exact Evolves.refl _ _ | with_reducible refine State.logEv_ev ?_ ?_
    | with_reducible refine State.readTemp_ev ?_ ?_ | with_reducible refine State.refreshBelow_ev ?_ ?_
    | with_reducible refine State.updCl_ev ?_ ?_ | with_reducible refine Evolves.foldl ?_ fun _ _ => ?_
    | with_reducible apply Evolves.ite | with_reducible apply EvolvesOut.next | with_reducible exact EvolvesOut.fault
    | with_reducible apply EvolvesOut.ite | split | with_reducible apply Evolves.upd

theorem execThrottleRelease_ev {k : Bool} {l : List Area} {s : State} {domain : Nat} {t16s : List Int}
    (m : Area.subset [.pins, .funcs, .msix, .parts, .clusters, .power, .log] l = true) : EvolvesOut k l s (execThrottleRelease domain t16s s) := by
  refine EvolvesOut.mono ?_ m
  unfold execThrottleRelease
  try dsimp only
  repeat'
    first
    | exact rfl | exact .inr rfl | exact .inl rfl | exact Nat.le_refl _ | exact Nat.le_add_right _ _ | exact .refl _ | exact fun h => h
    | with_reducible exact Evolves.refl _ _ | with_reducible refine State.refreshBelow_ev ?_ ?_
    | with_reducible refine State.updCl_ev ?_ ?_ | with_reducible refine State.readTemps_ev ?_ ?_
    | with_reducible refine Evolves.foldl ?_ fun _ _ => ?_ | with_reducible apply Evolves.ite
    | with_reducible apply EvolvesOut.next | with_reducible exact EvolvesOut.fault
    | with_reducible apply EvolvesOut.ite | split | with_reducible apply Evolves.upd

theorem execThermalShutdown_ev {k : Bool} {l : List Area} {s : State} {sensor : Nat} {t16 : Int}
    (m : Area.subset [.pins, .hub, .funcs, .msix, .ctxs, .rings, .pans, .power, .log, .cmds, .replays, .hzn, .xparts, .atsInvals] l = true) : EvolvesOut k l s (execThermalShutdown sensor t16 s) := by
  refine EvolvesOut.mono ?_ m
  unfold execThermalShutdown
  try dsimp only
  repeat'
    first
    | exact rfl | exact .inr rfl | exact .inl rfl | exact Nat.le_refl _ | exact Nat.le_add_right _ _ | exact .refl _ | exact fun h => h | exact ⟨fun _ h => h, fun h => h⟩
    | with_reducible exact Evolves.refl _ _ | with_reducible refine State.uncontained_ev ?_ ?_
    | with_reducible refine State.readTemp_ev ?_ ?_ | with_reducible refine Evolves.foldl ?_ fun _ _ => ?_
    | with_reducible apply Evolves.ite | with_reducible apply EvolvesOut.next | with_reducible exact EvolvesOut.fault
    | with_reducible apply EvolvesOut.ite | split | with_reducible apply Evolves.upd

theorem execGovernorTrip_ev {k : Bool} {l : List Area} {s : State} {rail : Nat}
    (m : Area.subset [.pins, .hub, .funcs, .msix, .ctxs, .rings, .pans, .power, .log, .cmds, .replays, .hzn, .xparts, .atsInvals] l = true) : EvolvesOut k l s (execGovernorTrip rail s) := by
  refine EvolvesOut.mono ?_ m
  unfold execGovernorTrip
  try dsimp only
  repeat'
    first
    | exact rfl | exact .inr rfl | exact .inl rfl | exact Nat.le_refl _ | exact Nat.le_add_right _ _ | exact .refl _ | exact fun h => h | exact ⟨fun _ h => h, fun h => h⟩
    | with_reducible exact Evolves.refl _ _ | with_reducible refine State.uncontained_ev ?_ ?_
    | with_reducible refine Evolves.foldl ?_ fun _ _ => ?_ | with_reducible apply Evolves.ite
    | with_reducible apply EvolvesOut.next | with_reducible exact EvolvesOut.fault
    | with_reducible apply EvolvesOut.ite | split | with_reducible apply Evolves.upd

theorem execRailOutOfRange_ev {k : Bool} {l : List Area} {s : State} {rail : Nat}
    (m : Area.subset [.pins, .hub, .funcs, .msix, .ctxs, .rings, .pans, .power, .log, .cmds, .replays, .hzn, .xparts, .atsInvals] l = true) : EvolvesOut k l s (execRailOutOfRange rail s) := by
  refine EvolvesOut.mono ?_ m
  unfold execRailOutOfRange
  try dsimp only
  repeat'
    first
    | exact rfl | exact .inr rfl | exact .inl rfl | exact Nat.le_refl _ | exact Nat.le_add_right _ _ | exact .refl _ | exact fun h => h | exact ⟨fun _ h => h, fun h => h⟩
    | with_reducible exact Evolves.refl _ _ | with_reducible refine State.uncontained_ev ?_ ?_
    | with_reducible refine Evolves.foldl ?_ fun _ _ => ?_ | with_reducible apply Evolves.ite
    | with_reducible apply EvolvesOut.next | with_reducible exact EvolvesOut.fault
    | with_reducible apply EvolvesOut.ite | split | with_reducible apply Evolves.upd

end Sys2Proof.Machine
end

