-- ==== Sys2Proof/Laws/Log.lean ====
section
/-! SUPPORT. What each operation of Sys2Proof/Machine/Log.lean may change, and how the state follows. -/

set_option Elab.async false
set_option linter.all false
namespace Sys2Proof.Machine

theorem execLogWrite_ev {k : Bool} {l : List Area} {s : State}
    (m : Area.subset [.pins, .log] l = true) : EvolvesOut k l s (execLogWrite s) := by
  refine EvolvesOut.mono ?_ m
  unfold execLogWrite
  split
  · exact .next (.refl _ _)
  · rename_i r q hq
    have hlen : s.log.queue.length = q.length + 1 := by rw [hq]; rfl
    have h1 : Evolves k [.pins, .log] s ({ s with log := { s.log with queue := q } } : State) := by
      apply (Evolves.refl _ s).upd <;> try first | exact rfl | exact .inr rfl | exact .inl rfl | exact Nat.le_refl _ | exact .refl _ | exact fun h => h
      exact .of_queue rfl fun h => by dsimp only; omega
    refine .ite (.next (.refl _ _)) ?_
    dsimp only
    refine .ite (.next ?_) (.next (State.seal_ev h1 rfl))
    have h2 := State.seal_ev (r := r) h1 rfl
    refine ⟨?_, h2.queue, h2.fuses, h2.posted, h2.hbm, h2.chip, ⟨fun hb => ⟨(h2.log.bounded hb).1, ?_⟩, h2.log.ff⟩, h2.free, h2.hub⟩
    · intro a ha
      have := h2.only a ha
      cases a <;> first | exact this | (exfalso; revert ha; decide)
    · have := hb.2
      show (q ++ [_]).length ≤ 1024
      simp only [List.length_append, List.length_cons, List.length_nil]; omega

theorem execCoalescingWindowEnd_ev {k : Bool} {l : List Area} {s : State}
    (m : Area.subset [.pins, .time, .log] l = true) : EvolvesOut k l s (execCoalescingWindowEnd s) := by
  refine EvolvesOut.mono ?_ m
  unfold execCoalescingWindowEnd
  try dsimp only
  repeat'
    first
    | exact rfl | exact .inr rfl | exact .inl rfl | exact Nat.le_refl _ | exact Nat.le_add_right _ _ | exact .refl _ | exact fun h => h | exact .of_queue rfl fun h => h
    | with_reducible exact Evolves.refl _ _ | with_reducible refine State.endWindow_ev ?_ ?_
    | with_reducible refine State.flushCoalesced_ev ?_ ?_ | with_reducible refine Evolves.foldl ?_ fun _ _ => ?_
    | with_reducible apply Evolves.ite | with_reducible apply EvolvesOut.next | with_reducible exact EvolvesOut.fault
    | with_reducible apply EvolvesOut.ite | split | refine Evolves.of_fst (by assumption) ?_
    | with_reducible apply Evolves.upd

theorem execClearFf_ev {l : List Area} {s : State}
    (m : Area.subset [.log] l = true) : EvolvesOut false l s (execClearFf s) := by
  refine EvolvesOut.mono ?_ m
  unfold execClearFf
  try dsimp only
  repeat'
    first
    | exact rfl | exact .inr rfl | exact .inl rfl | exact Nat.le_refl _ | exact Nat.le_add_right _ _ | exact .refl _ | exact fun h => h
    | with_reducible exact Evolves.refl _ _ | with_reducible refine Evolves.foldl ?_ fun _ _ => ?_
    | with_reducible apply Evolves.ite | with_reducible apply EvolvesOut.next | with_reducible exact EvolvesOut.fault
    | with_reducible apply EvolvesOut.ite | exact ⟨fun h => ⟨Nat.zero_le _, h.2⟩, fun e => nomatch e⟩ | split
    | with_reducible apply Evolves.upd

theorem State.perf_ev {k : Bool} {l : List Area} {s0 s : State} {c : Nat} {ev : Nat} {n : Nat} (h : Evolves k l s0 s)
    (m : Area.subset [.msix, .clusters] l = true) : Evolves k l s0 (s.perf c ev n) := by
  refine Evolves.after ?_ h m
  unfold State.perf
  try dsimp only
  repeat'
    first
    | exact rfl | exact .inr rfl | exact .inl rfl | exact Nat.le_refl _ | exact Nat.le_add_right _ _ | exact .refl _ | exact fun h => h
    | with_reducible exact Evolves.refl _ _ | with_reducible refine State.updCl_ev ?_ ?_
    | with_reducible refine State.sendMsix_ev ?_ ?_ | with_reducible refine Evolves.foldl ?_ fun _ _ => ?_
    | with_reducible apply Evolves.ite | split | with_reducible apply Evolves.upd

theorem execTelemetryEnable_ev {k : Bool} {l : List Area} {s : State} {value : Nat}
    (m : Area.subset [.pins, .funcs, .log, .telem] l = true) : EvolvesOut k l s (execTelemetryEnable value s) := by
  refine EvolvesOut.mono ?_ m
  unfold execTelemetryEnable
  try dsimp only
  repeat'
    first
    | exact rfl | exact .inr rfl | exact .inl rfl | exact Nat.le_refl _ | exact Nat.le_add_right _ _ | exact .refl _ | exact fun h => h
    | with_reducible exact Evolves.refl _ _ | with_reducible refine State.viol_ev ?_ ?_
    | with_reducible refine Evolves.foldl ?_ fun _ _ => ?_ | with_reducible apply Evolves.ite
    | with_reducible apply EvolvesOut.next | with_reducible exact EvolvesOut.fault
    | with_reducible apply EvolvesOut.ite | split | with_reducible apply Evolves.upd

theorem execTelemetrySample_ev {k : Bool} {l : List Area} {s : State}
    (m : Area.subset [.pins, .funcs, .log, .telem] l = true) : EvolvesOut k l s (execTelemetrySample s) := by
  refine EvolvesOut.mono ?_ m
  unfold execTelemetrySample
  try dsimp only
  repeat'
    first
    | exact rfl | exact .inr rfl | exact .inl rfl | exact Nat.le_refl _ | exact Nat.le_add_right _ _ | exact .refl _ | exact fun h => h
    | with_reducible exact Evolves.refl _ _ | with_reducible refine State.viol_ev ?_ ?_
    | with_reducible refine State.postHost_ev ?_ ?_ | with_reducible refine Evolves.foldl ?_ fun _ _ => ?_
    | with_reducible apply Evolves.ite | with_reducible apply EvolvesOut.next | with_reducible exact EvolvesOut.fault
    | with_reducible apply EvolvesOut.ite | split | with_reducible apply Evolves.upd

end Sys2Proof.Machine
end

