-- ==== Sys2Proof/Laws/Boot.lean ====
section
/-! SUPPORT. What each operation of Sys2Proof/Machine/Boot.lean may change, and how the state follows. -/

set_option Elab.async false
set_option linter.all false
namespace Sys2Proof.Machine

/-- Every area. -/
def Area.all : List Area := 
  [.pins, .tap, .time, .hub, .vfEnable, .numVfs, .funcs, .msix, .msixEnable, .msixMask, .windows, .parts,
  .tokens, .sluWindow, .ctxs, .trans, .tlb, .fences, .fenceFresh, .fenceFreed, .fenceLower, .remoteDrop,
  .rings, .ringTaken, .ringTakenLc, .objs, .nextObj, .hbm, .chip, .pans, .units, .clusters, .power, .log,
  .telem, .secs, .nextSec, .cmds, .replays, .scanSet, .hzn, .svcs, .sessions, .nextSession, .xparts, .loader,
  .invals, .atsInvals, .eid]
theorem Area.mem_all (a : Area) : a ∈ Area.all := by cases a <;> decide
theorem empty_hbm : ({} : Hbm).canonical := ⟨rfl, rfl⟩
theorem empty_chip : ({} : OnChip).canonical := ⟨rfl, rfl⟩
theorem State.powerOnReset_ev {l : List Area} {s0 s : State} (h : Evolves false l s0 s)
    (m : Area.subset Area.all l = true) : Evolves false l s0 s.powerOnReset := by
  refine Evolves.after ?_ h m
  exact ⟨fun a ha => absurd a.mem_all ha, rfl, .refl _, .refl _, fun _ => empty_hbm, fun _ => empty_chip,
    ⟨fun hb => ⟨hb.1, Nat.zero_le _⟩, fun e => nomatch e⟩, Nat.le_refl _, ⟨fun e => (nomatch e), fun _ => Nat.le_of_ble_eq_true rfl⟩⟩

theorem State.engineReset_ev {l : List Area} {s0 s : State} (h : Evolves false l s0 s)
    (m : Area.subset Area.all l = true) : Evolves false l s0 s.engineReset := by
  refine Evolves.after ?_ h m
  exact ⟨fun a ha => absurd a.mem_all ha, rfl, .refl _, .refl _, fun _ => empty_hbm, fun _ => empty_chip,
    ⟨fun hb => ⟨hb.1, Nat.zero_le _⟩, fun e => nomatch e⟩, Nat.le_refl _, ⟨fun e => (nomatch e), fun _ => Nat.le_of_ble_eq_true rfl⟩⟩

theorem State.halt_ev {k : Bool} {l : List Area} {s0 s : State} {cause : Nat} {kind : Nat} {unit : Nat} {code : Nat} (h : Evolves k l s0 s)
    (m : Area.subset [.pins, .hub, .funcs, .msix, .ctxs, .rings, .pans, .power, .log, .cmds, .replays, .hzn, .xparts, .atsInvals] l = true) : Evolves k l s0 (s.halt cause kind unit code) := by
  refine Evolves.after ?_ h m
  unfold State.halt
  try dsimp only
  repeat'
    first
    | exact rfl | exact .inr rfl | exact .inl rfl | exact Nat.le_refl _ | exact Nat.le_add_right _ _ | exact .refl _ | exact fun h => h | exact ⟨fun _ h => h, fun h => h⟩
    | with_reducible exact Evolves.refl _ _ | with_reducible refine State.deviceLoss_ev ?_ ?_
    | with_reducible refine State.logEv_ev ?_ ?_ | with_reducible refine Evolves.foldl ?_ fun _ _ => ?_
    | with_reducible apply Evolves.ite | exact ⟨fun _ h => h, fun _ => Nat.le_of_ble_eq_true rfl⟩ | split
    | with_reducible apply Evolves.upd

theorem State.clocksAtBoot_ev {k : Bool} {l : List Area} {s0 s : State} (h : Evolves k l s0 s)
    (m : Area.subset [.pins] l = true) : Evolves k l s0 s.clocksAtBoot := by
  refine Evolves.after ?_ h m
  unfold State.clocksAtBoot
  try dsimp only
  repeat'
    first
    | exact rfl | exact .inr rfl | exact .inl rfl | exact Nat.le_refl _ | exact Nat.le_add_right _ _ | exact .refl _ | exact fun h => h
    | with_reducible exact Evolves.refl _ _ | with_reducible refine Evolves.foldl ?_ fun _ _ => ?_
    | with_reducible apply Evolves.ite | split | with_reducible apply Evolves.upd

theorem State.bootStep1_ev {k : Bool} {l : List Area} {s0 s : State} {romOk : Bool} {fuseOk : Bool} (h : Evolves k l s0 s)
    (m : Area.subset [.pins, .hub, .funcs, .msix, .ctxs, .rings, .pans, .power, .log, .cmds, .replays, .hzn, .xparts, .atsInvals] l = true) : Evolves k l s0 (s.bootStep1 romOk fuseOk) := by
  refine Evolves.after ?_ h m
  unfold State.bootStep1
  try dsimp only
  repeat'
    first
    | exact rfl | exact .inr rfl | exact .inl rfl | exact Nat.le_refl _ | exact Nat.le_add_right _ _ | exact .refl _ | exact fun h => h | exact ⟨fun _ h => h, fun h => h⟩
    | with_reducible exact Evolves.refl _ _ | with_reducible refine State.clocksAtBoot_ev ?_ ?_
    | with_reducible refine State.halt_ev ?_ ?_ | with_reducible refine Evolves.foldl ?_ fun _ _ => ?_
    | with_reducible apply Evolves.ite | exact ⟨fun _ h => h, fun _ => Nat.le_of_ble_eq_true rfl⟩ | split
    | with_reducible apply Evolves.upd

theorem State.tapAfter_ev {k : Bool} {l : List Area} {s0 s t : State} (h : Evolves k l s0 t) : Evolves k l s0 (s.tapAfter t) := by
  unfold State.tapAfter
  exact .ite h (State.emit_ev h fun _ => rfl)

theorem execPorstNAssert_ev {l : List Area} {s : State}
    (m : Area.subset [.pins, .tap, .time, .hub, .vfEnable, .numVfs, .funcs, .msix, .msixEnable, .msixMask, .windows, .parts,
      .tokens, .sluWindow, .ctxs, .trans, .tlb, .fences, .fenceFresh, .fenceFreed, .fenceLower, .remoteDrop,
      .rings, .ringTaken, .ringTakenLc, .objs, .nextObj, .hbm, .chip, .pans, .units, .clusters, .power, .log,
      .telem, .secs, .nextSec, .cmds, .replays, .scanSet, .hzn, .svcs, .sessions, .nextSession, .xparts, .loader,
      .invals, .atsInvals, .eid] l = true) : EvolvesOut false l s (execPorstNAssert s) := by
  refine EvolvesOut.mono ?_ m
  unfold execPorstNAssert
  try dsimp only
  repeat'
    first
    | exact rfl | exact .inr rfl | exact .inl rfl | exact Nat.le_refl _ | exact Nat.le_add_right _ _ | exact .refl _ | exact fun h => h | exact ⟨fun _ h => h, fun h => h⟩
    | with_reducible exact Evolves.refl _ _ | with_reducible refine State.tapAfter_ev ?_
    | with_reducible refine State.powerOnReset_ev ?_ ?_ | with_reducible refine Evolves.foldl ?_ fun _ _ => ?_
    | with_reducible apply Evolves.ite | with_reducible apply EvolvesOut.next | with_reducible exact EvolvesOut.fault
    | with_reducible apply EvolvesOut.ite | split | with_reducible apply Evolves.upd

theorem execPorstNRelease_ev {k : Bool} {l : List Area} {s : State} {romOk : Bool} {fuseOk : Bool}
    (m : Area.subset [.pins, .hub, .funcs, .msix, .ctxs, .rings, .pans, .power, .log, .cmds, .replays, .hzn, .xparts, .atsInvals] l = true) : EvolvesOut k l s (execPorstNRelease romOk fuseOk s) := by
  refine EvolvesOut.mono ?_ m
  unfold execPorstNRelease
  try dsimp only
  repeat'
    first
    | exact rfl | exact .inr rfl | exact .inl rfl | exact Nat.le_refl _ | exact Nat.le_add_right _ _ | exact .refl _ | exact fun h => h | exact ⟨fun _ h => h, fun h => h⟩
    | with_reducible exact Evolves.refl _ _ | with_reducible refine State.bootStep1_ev ?_ ?_
    | with_reducible refine State.tapAfter_ev ?_ | with_reducible refine Evolves.foldl ?_ fun _ _ => ?_
    | with_reducible apply Evolves.ite | with_reducible apply EvolvesOut.next | with_reducible exact EvolvesOut.fault
    | with_reducible apply EvolvesOut.ite | split | with_reducible apply Evolves.upd

theorem State.watch_ev {k : Bool} {l : List Area} {s0 s : State} {procs : List Nat} (h : Evolves k l s0 s)
    (m : Area.subset [.hub] l = true) : Evolves k l s0 (s.watch procs) := by
  refine Evolves.after ?_ h m
  unfold State.watch
  try dsimp only
  repeat'
    first
    | exact rfl | exact .inr rfl | exact .inl rfl | exact Nat.le_refl _ | exact Nat.le_add_right _ _ | exact .refl _ | exact fun h => h | exact ⟨fun _ h => h, fun h => h⟩
    | with_reducible exact Evolves.refl _ _ | with_reducible refine Evolves.foldl ?_ fun _ _ => ?_
    | with_reducible apply Evolves.ite | split | with_reducible apply Evolves.upd

theorem State.noteTimeref_ev {k : Bool} {l : List Area} {s0 s : State} (h : Evolves k l s0 s)
    (m : Area.subset [.pins, .time, .funcs, .msix, .log] l = true) : Evolves k l s0 s.noteTimeref := by
  refine Evolves.after ?_ h m
  unfold State.noteTimeref
  try dsimp only
  repeat'
    first
    | exact rfl | exact .inr rfl | exact .inl rfl | exact Nat.le_refl _ | exact Nat.le_add_right _ _ | exact .refl _ | exact fun h => h
    | with_reducible exact Evolves.refl _ _ | with_reducible refine State.devChangeAll_ev ?_ ?_
    | with_reducible refine State.logEv_ev ?_ ?_ | with_reducible refine Evolves.foldl ?_ fun _ _ => ?_
    | with_reducible apply Evolves.ite | split | with_reducible apply Evolves.upd

theorem execManagementStage_ev {k : Bool} {l : List Area} {s : State} {linkFault : Option Nat} {cmFailed : List Nat} {rsFailed : List Nat}
    (m : Area.subset [.pins, .time, .hub, .funcs, .msix, .ctxs, .rings, .chip, .pans, .power, .log, .cmds, .replays, .hzn,
      .xparts, .atsInvals] l = true) : EvolvesOut k l s (execManagementStage linkFault cmFailed rsFailed s) := by
  refine EvolvesOut.mono ?_ m
  unfold execManagementStage
  try dsimp only
  repeat'
    first
    | exact rfl | exact .inr rfl | exact .inl rfl | exact Nat.le_refl _ | exact Nat.le_add_right _ _ | exact .refl _ | exact fun h => h | exact fun _ => rfl | exact ⟨fun _ h => h, fun h => h⟩
    | with_reducible exact Evolves.refl _ _ | with_reducible refine State.emit_ev ?_ ?_
    | with_reducible refine State.halt_ev ?_ ?_ | with_reducible refine State.watch_ev ?_ ?_
    | with_reducible refine State.noteTimeref_ev ?_ ?_ | with_reducible refine Evolves.foldl ?_ fun _ _ => ?_
    | with_reducible apply Evolves.ite | with_reducible apply EvolvesOut.next | with_reducible exact EvolvesOut.fault
    | with_reducible apply EvolvesOut.ite | exact ⟨fun _ h => h, fun _ => Nat.le_of_ble_eq_true rfl⟩
    | exact fun _ => empty_chip | split | with_reducible apply Evolves.upd

theorem execFirmwareStart_ev {k : Bool} {l : List Area} {s : State}
    (m : Area.subset [.hub, .loader] l = true) : EvolvesOut k l s (execFirmwareStart s) := by
  refine EvolvesOut.mono ?_ m
  unfold execFirmwareStart
  try dsimp only
  repeat'
    first
    | exact rfl | exact .inr rfl | exact .inl rfl | exact Nat.le_refl _ | exact Nat.le_add_right _ _ | exact .refl _ | exact fun h => h | exact ⟨fun _ h => h, fun h => h⟩
    | with_reducible exact Evolves.refl _ _ | with_reducible refine State.watch_ev ?_ ?_
    | with_reducible refine Evolves.foldl ?_ fun _ _ => ?_ | with_reducible apply Evolves.ite
    | with_reducible apply EvolvesOut.next | with_reducible exact EvolvesOut.fault
    | with_reducible apply EvolvesOut.ite | split | with_reducible apply Evolves.upd

theorem State.settleAhi_ev {k : Bool} {l : List Area} {s0 s : State} {f : Nat} (h : Evolves k l s0 s)
    (m : Area.subset [.funcs] l = true) : Evolves k l s0 (s.settleAhi f) := by
  refine Evolves.after ?_ h m
  unfold State.settleAhi
  try dsimp only
  repeat'
    first
    | exact rfl | exact .inr rfl | exact .inl rfl | exact Nat.le_refl _ | exact Nat.le_add_right _ _ | exact .refl _ | exact fun h => h
    | with_reducible exact Evolves.refl _ _ | with_reducible refine State.updFn_ev ?_ ?_
    | with_reducible refine Evolves.foldl ?_ fun _ _ => ?_ | with_reducible apply Evolves.ite | split
    | with_reducible apply Evolves.upd

theorem execBootReady_ev {k : Bool} {l : List Area} {s : State}
    (m : Area.subset [.pins, .hub, .funcs, .log] l = true) : EvolvesOut k l s (execBootReady s) := by
  refine EvolvesOut.mono ?_ m
  unfold execBootReady
  try dsimp only
  repeat'
    first
    | exact rfl | exact .inr rfl | exact .inl rfl | exact Nat.le_refl _ | exact Nat.le_add_right _ _ | exact .refl _ | exact fun h => h | exact ⟨fun _ h => h, fun h => h⟩
    | with_reducible exact Evolves.refl _ _ | with_reducible refine State.logEv_ev ?_ ?_
    | with_reducible refine State.settleAhi_ev ?_ ?_ | with_reducible refine Evolves.foldl ?_ fun _ _ => ?_
    | with_reducible apply Evolves.ite | with_reducible apply EvolvesOut.next | with_reducible exact EvolvesOut.fault
    | with_reducible apply EvolvesOut.ite | exact ⟨fun _ h => h, fun _ => Nat.le_of_ble_eq_true rfl⟩ | split
    | with_reducible apply Evolves.upd

theorem execEngineResetRequest_ev {l : List Area} {s : State} {width : Nat} {value : Nat}
    (m : Area.subset [.pins, .tap, .time, .hub, .vfEnable, .numVfs, .funcs, .msix, .msixEnable, .msixMask, .windows, .parts,
      .tokens, .sluWindow, .ctxs, .trans, .tlb, .fences, .fenceFresh, .fenceFreed, .fenceLower, .remoteDrop,
      .rings, .ringTaken, .ringTakenLc, .objs, .nextObj, .hbm, .chip, .pans, .units, .clusters, .power, .log,
      .telem, .secs, .nextSec, .cmds, .replays, .scanSet, .hzn, .svcs, .sessions, .nextSession, .xparts, .loader,
      .invals, .atsInvals, .eid] l = true) : EvolvesOut false l s (execEngineResetRequest width value s) := by
  refine EvolvesOut.mono ?_ m
  unfold execEngineResetRequest
  try dsimp only
  repeat'
    first
    | exact rfl | exact .inr rfl | exact .inl rfl | exact Nat.le_refl _ | exact Nat.le_add_right _ _ | exact .refl _ | exact fun h => h | exact ⟨fun _ h => h, fun h => h⟩ | exact .of_queue rfl fun h => h
    | with_reducible exact Evolves.refl _ _ | with_reducible refine State.viol_ev ?_ ?_
    | with_reducible refine State.deviceLoss_ev ?_ ?_ | with_reducible refine State.flushCoalesced_ev ?_ ?_
    | with_reducible refine State.seal_ev ?_ ?_ | with_reducible refine State.engineReset_ev ?_ ?_
    | with_reducible refine Evolves.foldl ?_ fun _ _ => ?_ | with_reducible apply Evolves.ite
    | with_reducible apply EvolvesOut.next | with_reducible exact EvolvesOut.fault
    | with_reducible apply EvolvesOut.ite | exact .of_queue rfl fun _ => Nat.zero_le _ | split
    | with_reducible apply Evolves.upd

theorem execEngineResetHoldEnd_ev {k : Bool} {l : List Area} {s : State} {romOk : Bool} {fuseOk : Bool}
    (m : Area.subset [.pins, .time, .hub, .funcs, .msix, .ctxs, .rings, .pans, .power, .log, .cmds, .replays, .hzn, .xparts,
      .atsInvals] l = true) : EvolvesOut k l s (execEngineResetHoldEnd romOk fuseOk s) := by
  refine EvolvesOut.mono ?_ m
  unfold execEngineResetHoldEnd
  try dsimp only
  repeat'
    first
    | exact rfl | exact .inr rfl | exact .inl rfl | exact Nat.le_refl _ | exact Nat.le_add_right _ _ | exact .refl _ | exact fun h => h | exact ⟨fun _ h => h, fun h => h⟩
    | with_reducible exact Evolves.refl _ _ | with_reducible refine State.atTime_ev ?_ ?_
    | with_reducible refine State.bootStep1_ev ?_ ?_ | with_reducible refine Evolves.foldl ?_ fun _ _ => ?_
    | with_reducible apply Evolves.ite | with_reducible apply EvolvesOut.next | with_reducible exact EvolvesOut.fault
    | with_reducible apply EvolvesOut.ite | split | with_reducible apply Evolves.upd

theorem execWatchdogHeartbeat_ev {k : Bool} {l : List Area} {s : State} {proc : Nat} {t : Nat}
    (m : Area.subset [.time, .hub] l = true) : EvolvesOut k l s (execWatchdogHeartbeat proc t s) := by
  refine EvolvesOut.mono ?_ m
  unfold execWatchdogHeartbeat
  try dsimp only
  repeat'
    first
    | exact rfl | exact .inr rfl | exact .inl rfl | exact Nat.le_refl _ | exact Nat.le_add_right _ _ | exact .refl _ | exact fun h => h | exact ⟨fun _ h => h, fun h => h⟩
    | with_reducible exact Evolves.refl _ _ | with_reducible refine State.atTime_ev ?_ ?_
    | with_reducible refine Evolves.foldl ?_ fun _ _ => ?_ | with_reducible apply Evolves.ite
    | with_reducible apply EvolvesOut.next | with_reducible exact EvolvesOut.fault
    | with_reducible apply EvolvesOut.ite | split | with_reducible apply Evolves.upd

theorem execWatchdogExpiry_ev {k : Bool} {l : List Area} {s : State} {proc : Nat}
    (m : Area.subset [.pins, .time, .hub, .funcs, .msix, .ctxs, .rings, .pans, .power, .log, .cmds, .replays, .hzn, .xparts,
      .atsInvals] l = true) : EvolvesOut k l s (execWatchdogExpiry proc s) := by
  refine EvolvesOut.mono ?_ m
  unfold execWatchdogExpiry
  try dsimp only
  repeat'
    first
    | exact rfl | exact .inr rfl | exact .inl rfl | exact Nat.le_refl _ | exact Nat.le_add_right _ _ | exact .refl _ | exact fun h => h | exact ⟨fun _ h => h, fun h => h⟩
    | with_reducible exact Evolves.refl _ _ | with_reducible refine State.atTime_ev ?_ ?_
    | with_reducible refine State.uncontained_ev ?_ ?_ | with_reducible refine Evolves.foldl ?_ fun _ _ => ?_
    | with_reducible apply Evolves.ite | with_reducible apply EvolvesOut.next | with_reducible exact EvolvesOut.fault
    | with_reducible apply EvolvesOut.ite | split | with_reducible apply Evolves.upd

theorem execFirmwareAssertion_ev {k : Bool} {l : List Area} {s : State} {proc : Nat}
    (m : Area.subset [.pins, .hub, .funcs, .msix, .ctxs, .rings, .pans, .power, .log, .cmds, .replays, .hzn, .xparts, .atsInvals] l = true) : EvolvesOut k l s (execFirmwareAssertion proc s) := by
  refine EvolvesOut.mono ?_ m
  unfold execFirmwareAssertion
  try dsimp only
  repeat'
    first
    | exact rfl | exact .inr rfl | exact .inl rfl | exact Nat.le_refl _ | exact Nat.le_add_right _ _ | exact .refl _ | exact fun h => h | exact ⟨fun _ h => h, fun h => h⟩
    | with_reducible exact Evolves.refl _ _ | with_reducible refine State.uncontained_ev ?_ ?_
    | with_reducible refine Evolves.foldl ?_ fun _ _ => ?_ | with_reducible apply Evolves.ite
    | with_reducible apply EvolvesOut.next | with_reducible exact EvolvesOut.fault
    | with_reducible apply EvolvesOut.ite | split | with_reducible apply Evolves.upd

theorem execDieToDieLinkFailure_ev {k : Bool} {l : List Area} {s : State} {link : Nat}
    (m : Area.subset [.pins, .hub, .funcs, .msix, .ctxs, .rings, .pans, .power, .log, .cmds, .replays, .hzn, .xparts, .atsInvals] l = true) : EvolvesOut k l s (execDieToDieLinkFailure link s) := by
  refine EvolvesOut.mono ?_ m
  unfold execDieToDieLinkFailure
  try dsimp only
  repeat'
    first
    | exact rfl | exact .inr rfl | exact .inl rfl | exact Nat.le_refl _ | exact Nat.le_add_right _ _ | exact .refl _ | exact fun h => h | exact ⟨fun _ h => h, fun h => h⟩
    | with_reducible exact Evolves.refl _ _ | with_reducible refine State.uncontained_ev ?_ ?_
    | with_reducible refine Evolves.foldl ?_ fun _ _ => ?_ | with_reducible apply Evolves.ite
    | with_reducible apply EvolvesOut.next | with_reducible exact EvolvesOut.fault
    | with_reducible apply EvolvesOut.ite | split | with_reducible apply Evolves.upd

theorem execHbmRefclkLost_ev {k : Bool} {l : List Area} {s : State} {cluster : Nat}
    (m : Area.subset [.pins, .hub, .funcs, .msix, .ctxs, .rings, .pans, .power, .log, .cmds, .replays, .hzn, .xparts, .atsInvals] l = true) : EvolvesOut k l s (execHbmRefclkLost cluster s) := by
  refine EvolvesOut.mono ?_ m
  unfold execHbmRefclkLost
  try dsimp only
  repeat'
    first
    | exact rfl | exact .inr rfl | exact .inl rfl | exact Nat.le_refl _ | exact Nat.le_add_right _ _ | exact .refl _ | exact fun h => h | exact ⟨fun _ h => h, fun h => h⟩
    | with_reducible exact Evolves.refl _ _ | with_reducible refine State.uncontained_ev ?_ ?_
    | with_reducible refine Evolves.foldl ?_ fun _ _ => ?_ | with_reducible apply Evolves.ite
    | with_reducible apply EvolvesOut.next | with_reducible exact EvolvesOut.fault
    | with_reducible apply EvolvesOut.ite | split | with_reducible apply Evolves.upd

theorem execTimerefLost_ev {k : Bool} {l : List Area} {s : State}
    (m : Area.subset [.pins, .time, .funcs, .msix, .log] l = true) : EvolvesOut k l s (execTimerefLost s) := by
  refine EvolvesOut.mono ?_ m
  unfold execTimerefLost
  try dsimp only
  repeat'
    first
    | exact rfl | exact .inr rfl | exact .inl rfl | exact Nat.le_refl _ | exact Nat.le_add_right _ _ | exact .refl _ | exact fun h => h
    | with_reducible exact Evolves.refl _ _ | with_reducible refine State.noteTimeref_ev ?_ ?_
    | with_reducible refine Evolves.foldl ?_ fun _ _ => ?_ | with_reducible apply Evolves.ite
    | with_reducible apply EvolvesOut.next | with_reducible exact EvolvesOut.fault
    | with_reducible apply EvolvesOut.ite | split | with_reducible apply Evolves.upd

theorem execTimerefReturn_ev {k : Bool} {l : List Area} {s : State}
    (m : Area.subset [.pins, .time] l = true) : EvolvesOut k l s (execTimerefReturn s) := by
  refine EvolvesOut.mono ?_ m
  unfold execTimerefReturn
  try dsimp only
  repeat'
    first
    | exact rfl | exact .inr rfl | exact .inl rfl | exact Nat.le_refl _ | exact Nat.le_add_right _ _ | exact .refl _ | exact fun h => h
    | with_reducible exact Evolves.refl _ _ | with_reducible refine Evolves.foldl ?_ fun _ _ => ?_
    | with_reducible apply Evolves.ite | with_reducible apply EvolvesOut.next | with_reducible exact EvolvesOut.fault
    | with_reducible apply EvolvesOut.ite | split | with_reducible apply Evolves.upd

theorem execTimeDegradedClear_ev {k : Bool} {l : List Area} {s : State}
    (m : Area.subset [.pins, .time, .funcs, .msix, .log] l = true) : EvolvesOut k l s (execTimeDegradedClear s) := by
  refine EvolvesOut.mono ?_ m
  unfold execTimeDegradedClear
  try dsimp only
  repeat'
    first
    | exact rfl | exact .inr rfl | exact .inl rfl | exact Nat.le_refl _ | exact Nat.le_add_right _ _ | exact .refl _ | exact fun h => h
    | with_reducible exact Evolves.refl _ _ | with_reducible refine State.devChangeAll_ev ?_ ?_
    | with_reducible refine State.logEv_ev ?_ ?_ | with_reducible refine Evolves.foldl ?_ fun _ _ => ?_
    | with_reducible apply Evolves.ite | with_reducible apply EvolvesOut.next | with_reducible exact EvolvesOut.fault
    | with_reducible apply EvolvesOut.ite | split | with_reducible apply Evolves.upd

theorem execTapInstruction_ev {k : Bool} {l : List Area} {s : State} {code : TapCode}
    (m : Area.subset [.tap] l = true) : EvolvesOut k l s (execTapInstruction code s) := by
  refine EvolvesOut.mono ?_ m
  unfold execTapInstruction
  try dsimp only
  repeat'
    first
    | exact rfl | exact .inr rfl | exact .inl rfl | exact Nat.le_refl _ | exact Nat.le_add_right _ _ | exact .refl _ | exact fun h => h | exact fun _ => rfl
    | with_reducible exact Evolves.refl _ _ | with_reducible refine State.emit_ev ?_ ?_
    | with_reducible refine Evolves.foldl ?_ fun _ _ => ?_ | with_reducible apply Evolves.ite
    | with_reducible apply EvolvesOut.next | with_reducible exact EvolvesOut.fault
    | with_reducible apply EvolvesOut.ite | split | with_reducible apply Evolves.upd

end Sys2Proof.Machine
end

