-- ==== Sys2Proof/Laws/Hbm.lean ====
section
/-! SUPPORT. What each operation of Sys2Proof/Machine/Hbm.lean may change, and how the state follows. -/

set_option Elab.async false
set_option linter.all false
namespace Sys2Proof.Machine

theorem State.setDir_ev {k : Bool} {l : List Area} {s0 s : State} {sub : Nat} {e : DirEntry} (h : Evolves k l s0 s)
    (m : Area.subset [.hbm] l = true) : Evolves k l s0 (s.setDir sub e) := by
  refine Evolves.after ?_ h m
  unfold State.setDir
  try dsimp only
  repeat'
    first
    | exact rfl | exact .inr rfl | exact .inl rfl | exact Nat.le_refl _ | exact Nat.le_add_right _ _ | exact .refl _ | exact fun h => h
    | with_reducible exact Evolves.refl _ _ | with_reducible refine Evolves.foldl ?_ fun _ _ => ?_
    | with_reducible apply Evolves.ite | split | with_reducible apply Evolves.upd

theorem State.poisonLine_ev {k : Bool} {l : List Area} {s0 s : State} {x1 : Nat} (h : Evolves k l s0 s)
    (m : Area.subset [.hbm] l = true) : Evolves k l s0 (s.poisonLine x1) := by
  refine Evolves.after ?_ h m
  unfold State.poisonLine
  try dsimp only
  repeat'
    first
    | exact rfl | exact .inr rfl | exact .inl rfl | exact Nat.le_refl _ | exact Nat.le_add_right _ _ | exact .refl _ | exact fun h => h
    | with_reducible exact Evolves.refl _ _ | with_reducible refine State.updStk_ev ?_ ?_
    | with_reducible refine Evolves.foldl ?_ fun _ _ => ?_ | with_reducible apply Evolves.ite
    | exact fun h => ⟨Mem.filter_wf _ h.1, Mem.filter_wf _ h.2⟩ | split | with_reducible apply Evolves.upd

theorem State.correctLine_ev {k : Bool} {l : List Area} {s0 s : State} {x1 : Nat} {data : List Byte} (h : Evolves k l s0 s)
    (m : Area.subset [.pins, .hbm, .log] l = true) : Evolves k l s0 (s.correctLine x1 data) := by
  refine Evolves.after ?_ h m
  unfold State.correctLine
  try dsimp only
  repeat'
    first
    | exact rfl | exact .inr rfl | exact .inl rfl | exact Nat.le_refl _ | exact Nat.le_add_right _ _ | exact .refl _ | exact fun h => h
    | with_reducible exact Evolves.refl _ _ | with_reducible refine State.logCo_ev ?_ ?_
    | with_reducible refine State.updStk_ev ?_ ?_ | with_reducible refine Evolves.foldl ?_ fun _ _ => ?_
    | with_reducible apply Evolves.ite | exact fun h => ⟨Mem.wrN_wf _ _ h.1, Mem.filter_wf _ h.2⟩ | split
    | with_reducible apply Evolves.upd

theorem State.noteUe_ev {k : Bool} {l : List Area} {s0 s : State} {x1 : Nat} {scrub : Bool} (h : Evolves k l s0 s)
    (m : Area.subset [.hbm] l = true) : Evolves k l s0 (s.noteUe x1 scrub) := by
  refine Evolves.after ?_ h m
  unfold State.noteUe
  try dsimp only
  repeat'
    first
    | exact rfl | exact .inr rfl | exact .inl rfl | exact Nat.le_refl _ | exact Nat.le_add_right _ _ | exact .refl _ | exact fun h => h
    | with_reducible exact Evolves.refl _ _ | with_reducible refine State.updStk_ev ?_ ?_
    | with_reducible refine Evolves.foldl ?_ fun _ _ => ?_ | with_reducible apply Evolves.ite | split
    | with_reducible apply Evolves.upd

theorem State.fetchLine_ev {k : Bool} {l : List Area} {s0 s : State} {x1 : Nat} (h : Evolves k l s0 s)
    (m : Area.subset [.hbm] l = true) : Evolves k l s0 (s.fetchLine x1).2 := by
  refine Evolves.after ?_ h m
  unfold State.fetchLine
  try dsimp only
  repeat'
    first
    | exact rfl | exact .inr rfl | exact .inl rfl | exact Nat.le_refl _ | exact Nat.le_add_right _ _ | exact .refl _ | exact fun h => h
    | with_reducible exact Evolves.refl _ _ | with_reducible refine Evolves.foldl ?_ fun _ _ => ?_ | dsimp only
    | with_reducible apply Evolves.ite | split | with_reducible apply Evolves.upd

theorem State.uncorrectable_ev {k : Bool} {l : List Area} {s0 s : State} {x1 : Nat} {scrub : Bool} {ctx : Nat} (h : Evolves k l s0 s)
    (m : Area.subset [.pins, .hub, .funcs, .msix, .ctxs, .rings, .hbm, .pans, .power, .log, .cmds, .replays, .hzn, .xparts,
      .atsInvals] l = true) : Evolves k l s0 (s.uncorrectable x1 scrub ctx) := by
  refine Evolves.after ?_ h m
  unfold State.uncorrectable
  try dsimp only
  repeat'
    first
    | exact rfl | exact .inr rfl | exact .inl rfl | exact Nat.le_refl _ | exact Nat.le_add_right _ _ | exact .refl _ | exact fun h => h | exact ⟨fun _ h => h, fun h => h⟩
    | with_reducible exact Evolves.refl _ _ | with_reducible refine State.poisonLine_ev ?_ ?_
    | with_reducible refine State.noteUe_ev ?_ ?_ | with_reducible refine State.uncontained_ev ?_ ?_
    | with_reducible refine State.logEv_ev ?_ ?_ | with_reducible refine Evolves.foldl ?_ fun _ _ => ?_
    | with_reducible apply Evolves.ite | split | with_reducible apply Evolves.upd

theorem State.readLine_ev {k : Bool} {l : List Area} {s0 s : State} {x1 : Nat} {tag : Nat} {ctx : Nat} (h : Evolves k l s0 s)
    (m : Area.subset [.pins, .hub, .funcs, .msix, .ctxs, .rings, .hbm, .pans, .power, .log, .cmds, .replays, .hzn, .xparts,
      .atsInvals] l = true) : Evolves k l s0 (s.readLine x1 tag ctx).2 := by
  refine Evolves.after ?_ h m
  unfold State.readLine
  try dsimp only
  repeat'
    first
    | exact rfl | exact .inr rfl | exact .inl rfl | exact Nat.le_refl _ | exact Nat.le_add_right _ _ | exact .refl _ | exact fun h => h | exact ⟨fun _ h => h, fun h => h⟩
    | with_reducible exact Evolves.refl _ _ | with_reducible refine State.fetchLine_ev ?_ ?_
    | with_reducible refine State.uncorrectable_ev ?_ ?_ | with_reducible refine State.correctLine_ev ?_ ?_
    | with_reducible refine Evolves.foldl ?_ fun _ _ => ?_ | dsimp only | with_reducible apply Evolves.ite | split
    | refine Evolves.of_snd (by assumption) ?_ | with_reducible apply Evolves.upd

theorem State.writeCheck_ev {k : Bool} {l : List Area} {s0 s : State} {x1 : Nat} {tag : Nat} {ctx : Nat} {whole : Bool} (h : Evolves k l s0 s)
    (m : Area.subset [.pins, .hub, .funcs, .msix, .ctxs, .rings, .hbm, .pans, .power, .log, .cmds, .replays, .hzn, .xparts,
      .atsInvals] l = true) : Evolves k l s0 (s.writeCheck x1 tag ctx whole).2 := by
  refine Evolves.after ?_ h m
  unfold State.writeCheck
  try dsimp only
  repeat'
    first
    | exact rfl | exact .inr rfl | exact .inl rfl | exact Nat.le_refl _ | exact Nat.le_add_right _ _ | exact .refl _ | exact fun h => h | exact ⟨fun _ h => h, fun h => h⟩
    | with_reducible exact Evolves.refl _ _ | with_reducible refine State.readLine_ev ?_ ?_
    | with_reducible refine Evolves.foldl ?_ fun _ _ => ?_ | dsimp only | with_reducible apply Evolves.ite | split
    | refine Evolves.of_snd (by assumption) ?_ | with_reducible apply Evolves.upd

theorem State.putHbm_ev {k : Bool} {l : List Area} {s0 s : State} {ws : List (Nat × Byte)} (h : Evolves k l s0 s)
    (m : Area.subset [.msix, .hbm, .clusters] l = true) : Evolves k l s0 (s.putHbm ws) := by
  refine Evolves.after ?_ h m
  unfold State.putHbm
  try dsimp only
  repeat'
    first
    | exact rfl | exact .inr rfl | exact .inl rfl | exact Nat.le_refl _ | exact Nat.le_add_right _ _ | exact .refl _ | exact fun h => h
    | with_reducible exact Evolves.refl _ _ | with_reducible refine State.perf_ev ?_ ?_
    | with_reducible refine Evolves.foldl ?_ fun _ _ => ?_ | with_reducible apply Evolves.ite
    | exact fun h => ⟨Mem.writes_wf _ h.1, Mem.filter_wf _ h.2⟩ | split | with_reducible apply Evolves.upd

theorem State.moveSubs_ev {k : Bool} {l : List Area} {s0 s : State} {subs : List Nat} {e : DirEntry} (h : Evolves k l s0 s)
    (m : Area.subset [.hbm] l = true) : Evolves k l s0 (s.moveSubs subs e) := by
  refine Evolves.after ?_ h m
  unfold State.moveSubs
  try dsimp only
  repeat'
    first
    | exact rfl | exact .inr rfl | exact .inl rfl | exact Nat.le_refl _ | exact Nat.le_add_right _ _ | exact .refl _ | exact fun h => h
    | with_reducible exact Evolves.refl _ _ | with_reducible refine State.setDir_ev ?_ ?_
    | with_reducible refine Evolves.foldl ?_ fun _ _ => ?_ | with_reducible apply Evolves.ite | split
    | with_reducible apply Evolves.upd

theorem State.zeroSub_ev {k : Bool} {l : List Area} {s0 s : State} {sub : Nat} (h : Evolves k l s0 s)
    (m : Area.subset [.hbm] l = true) : Evolves k l s0 (s.zeroSub sub) := by
  refine Evolves.after ?_ h m
  unfold State.zeroSub
  try dsimp only
  repeat'
    first
    | exact rfl | exact .inr rfl | exact .inl rfl | exact Nat.le_refl _ | exact Nat.le_add_right _ _ | exact .refl _ | exact fun h => h
    | with_reducible exact Evolves.refl _ _ | with_reducible refine Evolves.foldl ?_ fun _ _ => ?_
    | with_reducible apply Evolves.ite | exact fun h => ⟨Mem.filter_wf _ h.1, Mem.filter_wf _ h.2⟩ | split
    | with_reducible apply Evolves.upd

theorem State.freeObj_ev {k : Bool} {l : List Area} {s0 s : State} {x1 : Nat} (h : Evolves k l s0 s)
    (m : Area.subset [.objs, .hbm] l = true) : Evolves k l s0 (s.freeObj x1) := by
  refine Evolves.after ?_ h m
  unfold State.freeObj
  try dsimp only
  repeat'
    first
    | exact rfl | exact .inr rfl | exact .inl rfl | exact Nat.le_refl _ | exact Nat.le_add_right _ _ | exact .refl _ | exact fun h => h
    | with_reducible exact Evolves.refl _ _ | with_reducible refine State.updOb_ev ?_ ?_
    | with_reducible refine State.moveSubs_ev ?_ ?_ | with_reducible refine Evolves.foldl ?_ fun _ _ => ?_
    | with_reducible apply Evolves.ite | split | with_reducible apply Evolves.upd

theorem execStackTraining_ev {k : Bool} {l : List Area} {s : State} {stack : Nat} {org : StackOrg} {rated : Nat} {margin : Nat} {lanes : Bool}
    (m : Area.subset [.pins, .hbm, .log] l = true) : EvolvesOut k l s (execStackTraining stack org rated margin lanes s) := by
  refine EvolvesOut.mono ?_ m
  unfold execStackTraining
  try dsimp only
  repeat'
    first
    | exact rfl | exact .inr rfl | exact .inl rfl | exact Nat.le_refl _ | exact Nat.le_add_right _ _ | exact .refl _ | exact fun h => h
    | with_reducible exact Evolves.refl _ _ | with_reducible refine State.logEv_ev ?_ ?_
    | with_reducible refine State.updStk_ev ?_ ?_ | with_reducible refine Evolves.foldl ?_ fun _ _ => ?_
    | with_reducible apply Evolves.ite | with_reducible apply EvolvesOut.next | with_reducible exact EvolvesOut.fault
    | with_reducible apply EvolvesOut.ite | split | with_reducible apply Evolves.upd

theorem execMemoryReady_ev {k : Bool} {l : List Area} {s : State}
    (m : Area.subset [.pins, .hub, .funcs, .msix, .ctxs, .rings, .hbm, .pans, .power, .log, .cmds, .replays, .hzn, .xparts,
      .loader, .atsInvals] l = true) : EvolvesOut k l s (execMemoryReady s) := by
  refine EvolvesOut.mono ?_ m
  unfold execMemoryReady
  try dsimp only
  repeat'
    first
    | exact rfl | exact .inr rfl | exact .inl rfl | exact Nat.le_refl _ | exact Nat.le_add_right _ _ | exact .refl _ | exact fun h => h | exact ⟨fun _ h => h, fun h => h⟩
    | with_reducible exact Evolves.refl _ _ | with_reducible refine State.halt_ev ?_ ?_
    | with_reducible refine Evolves.foldl ?_ fun _ _ => ?_ | with_reducible apply Evolves.ite
    | with_reducible apply EvolvesOut.next | with_reducible exact EvolvesOut.fault
    | with_reducible apply EvolvesOut.ite | exact fun _ => ⟨rfl, rfl⟩
    | exact ⟨fun _ h => h, fun _ => Nat.le_of_ble_eq_true rfl⟩ | split | with_reducible apply Evolves.upd

theorem State.refreshOversub_ev {k : Bool} {l : List Area} {s0 s : State} (h : Evolves k l s0 s)
    (m : Area.subset [.pins, .funcs, .msix, .parts, .log] l = true) : Evolves k l s0 s.refreshOversub := by
  refine Evolves.after ?_ h m
  unfold State.refreshOversub
  try dsimp only
  repeat'
    first
    | exact rfl | exact .inr rfl | exact .inl rfl | exact Nat.le_refl _ | exact Nat.le_add_right _ _ | exact .refl _ | exact fun h => h
    | with_reducible exact Evolves.refl _ _ | with_reducible refine State.updPt_ev ?_ ?_
    | with_reducible refine State.devChangeAll_ev ?_ ?_ | with_reducible refine Evolves.foldl ?_ fun _ _ => ?_
    | with_reducible apply Evolves.ite | split | with_reducible apply Evolves.upd

theorem execRefresh_ev {k : Bool} {l : List Area} {s : State} {stack : Nat}
    (m : Area.subset [.hbm] l = true) : EvolvesOut k l s (execRefresh stack s) := by
  refine EvolvesOut.mono ?_ m
  unfold execRefresh
  try dsimp only
  repeat'
    first
    | exact rfl | exact .inr rfl | exact .inl rfl | exact Nat.le_refl _ | exact Nat.le_add_right _ _ | exact .refl _ | exact fun h => h
    | with_reducible exact Evolves.refl _ _ | with_reducible refine State.updStk_ev ?_ ?_
    | with_reducible refine Evolves.foldl ?_ fun _ _ => ?_ | with_reducible apply Evolves.ite
    | with_reducible apply EvolvesOut.next | with_reducible exact EvolvesOut.fault
    | with_reducible apply EvolvesOut.ite | split | with_reducible apply Evolves.upd

theorem execRetraining_ev {k : Bool} {l : List Area} {s : State} {stack : Nat} {pc : Nat} {passed : Bool}
    (m : Area.subset [.pins, .hub, .funcs, .msix, .parts, .ctxs, .rings, .hbm, .pans, .power, .log, .cmds, .replays, .hzn,
      .xparts, .atsInvals] l = true) : EvolvesOut k l s (execRetraining stack pc passed s) := by
  refine EvolvesOut.mono ?_ m
  unfold execRetraining
  try dsimp only
  repeat'
    first
    | exact rfl | exact .inr rfl | exact .inl rfl | exact Nat.le_refl _ | exact Nat.le_add_right _ _ | exact .refl _ | exact fun h => h | exact ⟨fun _ h => h, fun h => h⟩
    | with_reducible exact Evolves.refl _ _ | with_reducible refine State.uncontained_ev ?_ ?_
    | with_reducible refine State.updStk_ev ?_ ?_ | with_reducible refine State.logEv_ev ?_ ?_
    | with_reducible refine State.refreshOversub_ev ?_ ?_ | with_reducible refine State.devChangeAll_ev ?_ ?_
    | with_reducible refine Evolves.foldl ?_ fun _ _ => ?_ | with_reducible apply Evolves.ite
    | with_reducible apply EvolvesOut.next | with_reducible exact EvolvesOut.fault
    | with_reducible apply EvolvesOut.ite | split | with_reducible apply Evolves.upd

theorem State.noteScrub_ev {k : Bool} {l : List Area} {s0 s : State} {x1 : Nat} {o : Nat} (h : Evolves k l s0 s)
    (m : Area.subset [.hbm] l = true) : Evolves k l s0 (s.noteScrub x1 o) := by
  refine Evolves.after ?_ h m
  unfold State.noteScrub
  try dsimp only
  repeat'
    first
    | exact rfl | exact .inr rfl | exact .inl rfl | exact Nat.le_refl _ | exact Nat.le_add_right _ _ | exact .refl _ | exact fun h => h
    | with_reducible exact Evolves.refl _ _ | with_reducible refine State.updStk_ev ?_ ?_
    | with_reducible refine Evolves.foldl ?_ fun _ _ => ?_ | with_reducible apply Evolves.ite | split
    | with_reducible apply Evolves.upd

end Sys2Proof.Machine
end

