-- ==== Sys2Proof/Laws/Translate.lean ====
section
/-! SUPPORT. What each operation of Sys2Proof/Machine/Translate.lean may change, and how the state follows. -/

set_option Elab.async false
set_option linter.all false
namespace Sys2Proof.Machine

theorem State.putEngine_ev {k : Bool} {l : List Area} {s0 s : State} {pa : Nat} {bs : List Byte} (h : Evolves k l s0 s)
    (m : Area.subset [.hbm] l = true) : Evolves k l s0 (s.putEngine pa bs) := by
  refine Evolves.after ?_ h m
  unfold State.putEngine
  try dsimp only
  repeat'
    first
    | exact rfl | exact .inr rfl | exact .inl rfl | exact Nat.le_refl _ | exact Nat.le_add_right _ _ | exact .refl _ | exact fun h => h
    | with_reducible exact Evolves.refl _ _ | with_reducible refine Evolves.foldl ?_ fun _ _ => ?_
    | with_reducible apply Evolves.ite | exact fun h => ⟨Mem.wrN_wf _ _ h.1, Mem.filter_wf _ h.2⟩ | split
    | with_reducible apply Evolves.upd

theorem State.newTable_ev {k : Bool} {s t : State} {ts set : List Nat} {tid size a : Nat} (e : s.newTable ts set tid size = some (a, t)) :
    Evolves k [.trans, .hbm] s t := by
  unfold State.newTable at e
  dsimp only at e
  have hz : ∀ (q : List Nat) (x : Nat) (tr : Tbl Trans), Evolves k [.trans, .hbm] s
      { (s.moveSubs q { st := 2 }).zeroSub x with trans := tr } := fun q x tr => by
    apply (State.zeroSub_ev (State.moveSubs_ev (.refl _ s) rfl) rfl).upd <;>
      first | exact .inr rfl | exact .inl rfl | exact Nat.le_refl _ | exact .refl _ | exact fun h => h
  split at e
  · split at e
    · cases e
      apply (Evolves.refl _ s).upd <;> first | exact .inr rfl | exact .inl rfl | exact Nat.le_refl _ | exact .refl _ | exact fun h => h
    · obtain ⟨q, -, e⟩ := Option.map_eq_some_iff.1 e
      cases e; exact hz _ _ _
  · obtain ⟨q, -, e⟩ := Option.map_eq_some_iff.1 e
    cases e; exact hz _ _ _

theorem State.subTable_ev {k : Bool} {s t : State} {set : List Nat} {tid pa size a : Nat} (e : s.subTable set tid pa size = some (a, t)) :
    Evolves k [.trans, .hbm] s t := by
  unfold State.subTable at e
  dsimp only at e
  split at e
  · cases e; exact .refl _ _
  · obtain ⟨⟨q, u⟩, hq, e⟩ := Option.map_eq_some_iff.1 e
    cases e; exact State.putEngine_ev (State.newTable_ev hq) rfl

theorem State.rootTable_ev {k : Bool} {s t : State} {set : List Nat} {tid a : Nat} (e : s.rootTable set tid = some (a, t)) :
    Evolves k [.trans, .hbm] s t := by
  unfold State.rootTable at e
  split at e
  · cases e; exact .refl _ _
  · obtain ⟨⟨q, u⟩, hq, e⟩ := Option.map_eq_some_iff.1 e
    cases e
    apply (State.newTable_ev hq).upd <;> first | exact .inr rfl | exact .inl rfl | exact Nat.le_refl _ | exact .refl _ | exact fun h => h

theorem State.leafTable_ev {k : Bool} {s t : State} {set : List Nat} {tid page a : Nat} (e : s.leafTable set tid page = some (a, t)) :
    Evolves k [.trans, .hbm] s t := by
  unfold State.leafTable at e
  obtain ⟨⟨r, u⟩, hr, e⟩ := Option.bind_eq_some_iff.1 e
  obtain ⟨⟨q, v⟩, hq, e⟩ := Option.bind_eq_some_iff.1 e
  exact ((State.rootTable_ev hr).trans (State.subTable_ev hq)).trans (State.subTable_ev e)

theorem State.makeTables_ev {k : Bool} {s t : State} {c va size : Nat} (e : s.makeTables c va size = some t) :
    Evolves k [.trans, .hbm] s t := by
  unfold State.makeTables at e
  suffices h : ∀ (xs : List Nat) (o : Option State), (∀ u, o = some u → Evolves k [.trans, .hbm] s u) →
      xs.foldl (fun s i => s.bind fun s => (s.leafTable (s.defaultStacks (s.cx c).part) (s.transOf c)
        (va / 2 ^ 21 + 512 * i)).map Prod.snd) o = some t → Evolves k [.trans, .hbm] s t from
    h _ _ (fun u h => by cases h; exact .refl _ _) e
  intro xs
  induction xs with
  | nil => exact fun o h j => h _ j
  | cons x xs ih =>
    refine fun o h j => ih _ (fun u hu => ?_) j
    obtain ⟨v, hv, hu⟩ := Option.bind_eq_some_iff.1 hu
    obtain ⟨⟨a, w⟩, hw, rfl⟩ := Option.map_eq_some_iff.1 hu
    exact (h v hv).trans (State.leafTable_ev hw)

theorem State.addLeaves_ev {k : Bool} {l : List Area} {s0 s : State} {c : Nat} {ls : List (Nat × Leaf)} (h : Evolves k l s0 s)
    (m : Area.subset [.hbm] l = true) : Evolves k l s0 (s.addLeaves c ls) := by
  refine Evolves.after ?_ h m
  unfold State.addLeaves
  try dsimp only
  repeat'
    first
    | exact rfl | exact .inr rfl | exact .inl rfl | exact Nat.le_refl _ | exact Nat.le_add_right _ _ | exact .refl _ | exact fun h => h
    | with_reducible exact Evolves.refl _ _ | with_reducible refine State.putEngine_ev ?_ ?_
    | with_reducible refine Evolves.foldl ?_ fun _ _ => ?_ | with_reducible refine Evolves.elim ?_ fun _ => ?_
    | with_reducible apply Evolves.ite | split | with_reducible apply Evolves.upd

theorem State.dropLeaves_ev {k : Bool} {l : List Area} {s0 s : State} {c : Nat} {va : Nat} {size : Nat} (h : Evolves k l s0 s)
    (m : Area.subset [.hbm] l = true) : Evolves k l s0 (s.dropLeaves c va size) := by
  refine Evolves.after ?_ h m
  unfold State.dropLeaves
  try dsimp only
  repeat'
    first
    | exact rfl | exact .inr rfl | exact .inl rfl | exact Nat.le_refl _ | exact Nat.le_add_right _ _ | exact .refl _ | exact fun h => h
    | with_reducible exact Evolves.refl _ _ | with_reducible refine State.putEngine_ev ?_ ?_
    | with_reducible refine Evolves.foldl ?_ fun _ _ => ?_ | with_reducible refine Evolves.elim ?_ fun _ => ?_
    | with_reducible apply Evolves.ite | split | with_reducible apply Evolves.upd

theorem State.freeTables_ev {k : Bool} {l : List Area} {s0 s : State} {tid : Nat} (h : Evolves k l s0 s)
    (m : Area.subset [.trans, .hbm] l = true) : Evolves k l s0 (s.freeTables tid) := by
  refine Evolves.after ?_ h m
  unfold State.freeTables
  try dsimp only
  repeat'
    first
    | exact rfl | exact .inr rfl | exact .inl rfl | exact Nat.le_refl _ | exact Nat.le_add_right _ _ | exact .refl _ | exact fun h => h
    | with_reducible exact Evolves.refl _ _ | with_reducible refine State.moveSubs_ev ?_ ?_
    | with_reducible refine Evolves.foldl ?_ fun _ _ => ?_ | with_reducible apply Evolves.ite | split
    | with_reducible apply Evolves.upd

theorem State.flushTlb_ev {k : Bool} {l : List Area} {s0 s : State} {c : Nat} {va : Nat} {size : Nat} (h : Evolves k l s0 s)
    (m : Area.subset [.tlb] l = true) : Evolves k l s0 (s.flushTlb c va size) := by
  refine Evolves.after ?_ h m
  unfold State.flushTlb
  try dsimp only
  repeat'
    first
    | exact rfl | exact .inr rfl | exact .inl rfl | exact Nat.le_refl _ | exact Nat.le_add_right _ _ | exact .refl _ | exact fun h => h
    | with_reducible exact Evolves.refl _ _ | with_reducible refine Evolves.foldl ?_ fun _ _ => ?_
    | with_reducible apply Evolves.ite | split | with_reducible apply Evolves.upd

theorem State.logFault_ev {k : Bool} {l : List Area} {s0 s : State} {w : Who} {f : TFault} {va : Nat} (h : Evolves k l s0 s)
    (m : Area.subset [.pins, .log] l = true) : Evolves k l s0 (s.logFault w f va) := by
  refine Evolves.after ?_ h m
  unfold State.logFault
  try dsimp only
  repeat'
    first
    | exact rfl | exact .inr rfl | exact .inl rfl | exact Nat.le_refl _ | exact Nat.le_add_right _ _ | exact .refl _ | exact fun h => h
    | with_reducible exact Evolves.refl _ _ | with_reducible refine State.logEv_ev ?_ ?_
    | with_reducible refine Evolves.foldl ?_ fun _ _ => ?_ | with_reducible apply Evolves.ite | split
    | with_reducible apply Evolves.upd

theorem State.readEntry_ev {k : Bool} {l : List Area} {s0 s : State} {w : Who} {va : Nat} {pa : Nat} {n : Nat} (h : Evolves k l s0 s)
    (m : Area.subset [.pins, .hub, .funcs, .msix, .ctxs, .rings, .hbm, .pans, .power, .log, .cmds, .replays, .hzn, .xparts,
      .atsInvals] l = true) : Evolves k l s0 (s.readEntry w va pa n).2 := by
  refine Evolves.after ?_ h m
  unfold State.readEntry
  try dsimp only
  repeat'
    first
    | exact rfl | exact .inr rfl | exact .inl rfl | exact Nat.le_refl _ | exact Nat.le_add_right _ _ | exact .refl _ | exact fun h => h | exact ⟨fun _ h => h, fun h => h⟩
    | with_reducible exact Evolves.refl _ _ | with_reducible refine State.poisonLine_ev ?_ ?_
    | with_reducible refine State.noteUe_ev ?_ ?_ | with_reducible refine State.uncontained_ev ?_ ?_
    | with_reducible refine State.fetchLine_ev ?_ ?_ | with_reducible refine State.correctLine_ev ?_ ?_
    | with_reducible refine Evolves.foldl ?_ fun _ _ => ?_ | dsimp only | with_reducible apply Evolves.ite | split
    | refine Evolves.of_snd (by assumption) ?_ | with_reducible apply Evolves.upd

theorem State.walk_ev {k : Bool} {l : List Area} {s0 s : State} {w : Who} {va : Nat} (h : Evolves k l s0 s)
    (m : Area.subset [.pins, .hub, .funcs, .msix, .ctxs, .rings, .hbm, .pans, .power, .log, .cmds, .replays, .hzn, .xparts,
      .atsInvals] l = true) : Evolves k l s0 (s.walk w va).2 := by
  refine Evolves.after ?_ h m
  unfold State.walk
  try dsimp only
  repeat'
    first
    | exact rfl | exact .inr rfl | exact .inl rfl | exact Nat.le_refl _ | exact Nat.le_add_right _ _ | exact .refl _ | exact fun h => h | exact ⟨fun _ h => h, fun h => h⟩
    | with_reducible exact Evolves.refl _ _ | with_reducible refine State.readEntry_ev ?_ ?_
    | with_reducible refine Evolves.foldl ?_ fun _ _ => ?_ | dsimp only | with_reducible apply Evolves.ite | split
    | refine Evolves.of_snd (by assumption) ?_ | with_reducible apply Evolves.upd

theorem State.keepLeaf_ev {k : Bool} {l : List Area} {s0 s : State} {w : Who} {page : Nat} {x3 : Leaf} (h : Evolves k l s0 s)
    (m : Area.subset [.tlb, .cmds] l = true) : Evolves k l s0 (s.keepLeaf w page x3) := by
  refine Evolves.after ?_ h m
  unfold State.keepLeaf
  try dsimp only
  repeat'
    first
    | exact rfl | exact .inr rfl | exact .inl rfl | exact Nat.le_refl _ | exact Nat.le_add_right _ _ | exact .refl _ | exact fun h => h
    | with_reducible exact Evolves.refl _ _ | with_reducible refine Evolves.foldl ?_ fun _ _ => ?_
    | with_reducible apply Evolves.ite | split | with_reducible apply Evolves.upd

theorem State.leafFor_ev {k : Bool} {l : List Area} {s0 s : State} {w : Who} {va : Nat} (h : Evolves k l s0 s)
    (m : Area.subset [.pins, .hub, .funcs, .msix, .ctxs, .tlb, .rings, .hbm, .pans, .clusters, .power, .log, .cmds, .replays,
      .hzn, .xparts, .atsInvals] l = true) : Evolves k l s0 (s.leafFor w va).2 := by
  refine Evolves.after ?_ h m
  unfold State.leafFor
  try dsimp only
  repeat'
    first
    | exact rfl | exact .inr rfl | exact .inl rfl | exact Nat.le_refl _ | exact Nat.le_add_right _ _ | exact .refl _ | exact fun h => h | exact ⟨fun _ h => h, fun h => h⟩
    | with_reducible exact Evolves.refl _ _ | with_reducible refine State.keepLeaf_ev ?_ ?_
    | with_reducible refine State.walk_ev ?_ ?_ | with_reducible refine State.perf_ev ?_ ?_
    | with_reducible refine Evolves.foldl ?_ fun _ _ => ?_ | with_reducible refine Evolves.elim ?_ fun _ => ?_
    | dsimp only | with_reducible apply Evolves.ite | split | refine Evolves.of_snd (by assumption) ?_
    | with_reducible apply Evolves.upd

theorem State.translate_ev {k : Bool} {l : List Area} {s0 s : State} {w : Who} {va : Nat} {write : Bool} (h : Evolves k l s0 s)
    (m : Area.subset [.pins, .hub, .funcs, .msix, .ctxs, .tlb, .rings, .hbm, .pans, .clusters, .power, .log, .cmds, .replays,
      .hzn, .xparts, .atsInvals] l = true) : Evolves k l s0 (s.translate w va write).2 := by
  refine Evolves.after ?_ h m
  unfold State.translate
  try dsimp only
  repeat'
    first
    | exact rfl | exact .inr rfl | exact .inl rfl | exact Nat.le_refl _ | exact Nat.le_add_right _ _ | exact .refl _ | exact fun h => h | exact ⟨fun _ h => h, fun h => h⟩
    | with_reducible exact Evolves.refl _ _ | with_reducible refine State.leafFor_ev ?_ ?_
    | with_reducible refine Evolves.foldl ?_ fun _ _ => ?_ | dsimp only | with_reducible apply Evolves.ite | split
    | refine Evolves.of_snd (by assumption) ?_ | with_reducible apply Evolves.upd

theorem State.readVa_ev {k : Bool} {l : List Area} {s0 s : State} {w : Who} {va : Nat} {n : Nat} (h : Evolves k l s0 s)
    (m : Area.subset [.pins, .hub, .funcs, .msix, .ctxs, .tlb, .rings, .hbm, .pans, .clusters, .power, .log, .cmds, .replays,
      .hzn, .xparts, .atsInvals] l = true) : Evolves k l s0 (s.readVa w va n).2 := by
  refine Evolves.after ?_ h m
  unfold State.readVa
  try dsimp only
  repeat'
    first
    | exact rfl | exact .inr rfl | exact .inl rfl | exact Nat.le_refl _ | exact Nat.le_add_right _ _ | exact .refl _ | exact fun h => h | exact ⟨fun _ h => h, fun h => h⟩
    | with_reducible exact Evolves.refl _ _ | with_reducible refine State.translate_ev ?_ ?_
    | with_reducible refine State.logFault_ev ?_ ?_ | with_reducible refine State.readLine_ev ?_ ?_
    | with_reducible refine State.perf_ev ?_ ?_ | with_reducible refine Evolves.foldl ?_ fun _ _ => ?_
    | with_reducible refine Evolves.foldl_snd ?_ fun _ _ => ?_
    | with_reducible refine Evolves.foldl_fst ?_ fun _ _ => ?_ | dsimp only | with_reducible apply Evolves.ite | split
    | refine Evolves.of_snd (by assumption) ?_ | with_reducible apply Evolves.upd

theorem State.stageVa_ev {k : Bool} {l : List Area} {s0 s : State} {w : Who} {va : Nat} {bs : List Byte} (h : Evolves k l s0 s)
    (m : Area.subset [.pins, .hub, .funcs, .msix, .ctxs, .tlb, .rings, .hbm, .pans, .clusters, .power, .log, .cmds, .replays,
      .hzn, .xparts, .atsInvals] l = true) : Evolves k l s0 (s.stageVa w va bs).2 := by
  refine Evolves.after ?_ h m
  unfold State.stageVa
  try dsimp only
  repeat'
    first
    | exact rfl | exact .inr rfl | exact .inl rfl | exact Nat.le_refl _ | exact Nat.le_add_right _ _ | exact .refl _ | exact fun h => h | exact ⟨fun _ h => h, fun h => h⟩
    | with_reducible exact Evolves.refl _ _ | with_reducible refine State.translate_ev ?_ ?_
    | with_reducible refine State.logFault_ev ?_ ?_ | with_reducible refine State.writeCheck_ev ?_ ?_
    | with_reducible refine Evolves.foldl ?_ fun _ _ => ?_ | with_reducible refine Evolves.foldl_snd ?_ fun _ _ => ?_
    | with_reducible refine Evolves.foldl_fst ?_ fun _ _ => ?_ | dsimp only | with_reducible apply Evolves.ite | split
    | refine Evolves.of_snd (by assumption) ?_ | with_reducible apply Evolves.upd

end Sys2Proof.Machine
end

