-- ==== Sys2Proof/Laws/HznBase.lean ====
section
/-! SUPPORT. What each operation of Sys2Proof/Machine/HznBase.lean may change, and how the state follows. -/

set_option Elab.async false
set_option linter.all false
namespace Sys2Proof.Machine

theorem State.launchFrame_ev {k : Bool} {l : List Area} {s0 s : State} {p : Nat} {f : Fr} (h : Evolves k l s0 s)
    (m : Area.subset [.hzn] l = true) : Evolves k l s0 (s.launchFrame p f) := by
  refine Evolves.after ?_ h m
  unfold State.launchFrame
  try dsimp only
  repeat'
    first
    | exact rfl | exact .inr rfl | exact .inl rfl | exact Nat.le_refl _ | exact Nat.le_add_right _ _ | exact .refl _ | exact fun h => h | exact fun _ => rfl
    | with_reducible exact Evolves.refl _ _ | with_reducible refine State.emit_ev ?_ ?_
    | with_reducible refine State.updPort_ev ?_ ?_ | with_reducible refine Evolves.foldl ?_ fun _ _ => ?_
    | with_reducible apply Evolves.ite | split | with_reducible apply Evolves.upd

theorem State.pumpPort_ev {k : Bool} {l : List Area} {s0 s : State} {p : Nat} {fuel : Nat} (h : Evolves k l s0 s)
    (m : Area.subset [.hzn] l = true) : Evolves k l s0 (s.pumpPort p fuel) := by
  refine Evolves.after ?_ h m
  clear h m
  induction fuel generalizing s with
  | zero => exact .refl _ _
  | succ n ih =>
    unfold State.pumpPort
    split
    · exact .refl _ _
    · exact Evolves.trans (State.launchFrame_ev (State.updPort_ev (.refl _ _) rfl) rfl) ih

theorem State.sendOn_ev {k : Bool} {l : List Area} {s0 s : State} {p : Nat} {f : Fr} (h : Evolves k l s0 s)
    (m : Area.subset [.hzn] l = true) : Evolves k l s0 (s.sendOn p f) := by
  refine Evolves.after ?_ h m
  unfold State.sendOn
  try dsimp only
  repeat'
    first
    | exact rfl | exact .inr rfl | exact .inl rfl | exact Nat.le_refl _ | exact Nat.le_add_right _ _ | exact .refl _ | exact fun h => h
    | with_reducible exact Evolves.refl _ _ | with_reducible refine State.updPort_ev ?_ ?_
    | with_reducible refine State.pumpPort_ev ?_ ?_ | with_reducible refine Evolves.foldl ?_ fun _ _ => ?_
    | with_reducible apply Evolves.ite | split | with_reducible apply Evolves.upd

theorem State.sendTo_ev {k : Bool} {l : List Area} {s0 s : State} {i : Nat} {f : Fr} (h : Evolves k l s0 s)
    (m : Area.subset [.hzn] l = true) : Evolves k l s0 (s.sendTo i f) := by
  refine Evolves.after ?_ h m
  unfold State.sendTo
  try dsimp only
  repeat'
    first
    | exact rfl | exact .inr rfl | exact .inl rfl | exact Nat.le_refl _ | exact Nat.le_add_right _ _ | exact .refl _ | exact fun h => h
    | with_reducible exact Evolves.refl _ _ | with_reducible refine State.sendOn_ev ?_ ?_
    | with_reducible refine Evolves.foldl ?_ fun _ _ => ?_ | with_reducible apply Evolves.ite | split
    | with_reducible apply Evolves.upd

theorem State.flushFrames_ev {k : Bool} {l : List Area} {s0 s : State} (h : Evolves k l s0 s)
    (m : Area.subset [.hzn] l = true) : Evolves k l s0 s.flushFrames := by
  refine Evolves.after ?_ h m
  unfold State.flushFrames
  try dsimp only
  repeat'
    first
    | exact rfl | exact .inr rfl | exact .inl rfl | exact Nat.le_refl _ | exact Nat.le_add_right _ _ | exact .refl _ | exact fun h => h
    | with_reducible exact Evolves.refl _ _ | with_reducible refine State.sendTo_ev ?_ ?_
    | with_reducible refine Evolves.foldl ?_ fun _ _ => ?_ | with_reducible apply Evolves.ite | split
    | with_reducible apply Evolves.upd

theorem State.sendCtrl_ev {k : Bool} {l : List Area} {s0 s : State} {x1 : Msg} {op : Nat} {aux : Nat} (h : Evolves k l s0 s)
    (m : Area.subset [.hzn] l = true) : Evolves k l s0 (s.sendCtrl x1 op aux) := by
  refine Evolves.after ?_ h m
  unfold State.sendCtrl
  try dsimp only
  repeat'
    first
    | exact rfl | exact .inr rfl | exact .inl rfl | exact Nat.le_refl _ | exact Nat.le_add_right _ _ | exact .refl _ | exact fun h => h
    | with_reducible exact Evolves.refl _ _ | with_reducible refine State.sendTo_ev ?_ ?_
    | with_reducible refine Evolves.foldl ?_ fun _ _ => ?_ | with_reducible apply Evolves.ite | split
    | with_reducible apply Evolves.upd

theorem State.abortMsgs_ev {k : Bool} {l : List Area} {s0 s : State} {refs : List CmdRef} (h : Evolves k l s0 s)
    (m : Area.subset [.hzn] l = true) : Evolves k l s0 (s.abortMsgs refs) := by
  refine Evolves.after ?_ h m
  unfold State.abortMsgs
  try dsimp only
  repeat'
    first
    | exact rfl | exact .inr rfl | exact .inl rfl | exact Nat.le_refl _ | exact Nat.le_add_right _ _ | exact .refl _ | exact fun h => h
    | with_reducible exact Evolves.refl _ _ | with_reducible refine State.sendCtrl_ev ?_ ?_
    | with_reducible refine Evolves.foldl ?_ fun _ _ => ?_ | with_reducible apply Evolves.ite | split
    | with_reducible apply Evolves.upd

theorem State.sendSignal_ev {k : Bool} {l : List Area} {s0 s : State} {g : HeldSig} (h : Evolves k l s0 s)
    (m : Area.subset [.hzn] l = true) : Evolves k l s0 (s.sendSignal g) := by
  refine Evolves.after ?_ h m
  unfold State.sendSignal
  try dsimp only
  repeat'
    first
    | exact rfl | exact .inr rfl | exact .inl rfl | exact Nat.le_refl _ | exact Nat.le_add_right _ _ | exact .refl _ | exact fun h => h
    | with_reducible exact Evolves.refl _ _ | with_reducible refine State.sendTo_ev ?_ ?_
    | with_reducible refine Evolves.foldl ?_ fun _ _ => ?_ | with_reducible apply Evolves.ite | split
    | with_reducible apply Evolves.upd

theorem State.flushSignals_ev {k : Bool} {l : List Area} {s0 s : State} (h : Evolves k l s0 s)
    (m : Area.subset [.hzn] l = true) : Evolves k l s0 s.flushSignals := by
  refine Evolves.after ?_ h m
  unfold State.flushSignals
  try dsimp only
  repeat'
    first
    | exact rfl | exact .inr rfl | exact .inl rfl | exact Nat.le_refl _ | exact Nat.le_add_right _ _ | exact .refl _ | exact fun h => h
    | with_reducible exact Evolves.refl _ _ | with_reducible refine State.sendSignal_ev ?_ ?_
    | with_reducible refine Evolves.foldl ?_ fun _ _ => ?_ | with_reducible apply Evolves.ite | split
    | with_reducible apply Evolves.upd

end Sys2Proof.Machine
end

