-- ==== Sys2Proof/Laws/Sluice.lean ====
section
/-! SUPPORT. What each operation of Sys2Proof/Machine/Sluice.lean may change, and how the state follows. -/

set_option Elab.async false
set_option linter.all false
namespace Sys2Proof.Machine

theorem State.charge_ev {k : Bool} {l : List Area} {s0 s : State} {p : Nat} {lc : Bool} {r : SluiceRes} {i : Nat} {c : Nat} (h : Evolves k l s0 s)
    (m : Area.subset [.msix, .tokens, .clusters] l = true) : Evolves k l s0 (s.charge p lc r i c).2 := by
  refine Evolves.after ?_ h m
  unfold State.charge
  try dsimp only
  repeat'
    first
    | exact rfl | exact .inr rfl | exact .inl rfl | exact Nat.le_refl _ | exact Nat.le_add_right _ _ | exact .refl _ | exact fun h => h
    | with_reducible exact Evolves.refl _ _ | with_reducible refine State.perf_ev ?_ ?_
    | with_reducible refine Evolves.foldl ?_ fun _ _ => ?_ | dsimp only | with_reducible apply Evolves.ite | split
    | with_reducible apply Evolves.upd

theorem State.chargeAll_ev {k : Bool} {l : List Area} {s0 s : State} {lc : Bool} {cost : List (Nat × Nat)} (h : Evolves k l s0 s)
    (m : Area.subset [.msix, .tokens, .clusters] l = true) : Evolves k l s0 (s.chargeAll lc cost).2 := by
  refine Evolves.after ?_ h m
  unfold State.chargeAll
  try dsimp only
  repeat'
    first
    | exact rfl | exact .inr rfl | exact .inl rfl | exact Nat.le_refl _ | exact Nat.le_add_right _ _ | exact .refl _ | exact fun h => h
    | with_reducible exact Evolves.refl _ _ | with_reducible refine State.charge_ev ?_ ?_
    | with_reducible refine Evolves.foldl ?_ fun _ _ => ?_ | with_reducible refine Evolves.foldl_snd ?_ fun _ _ => ?_
    | with_reducible refine Evolves.foldl_fst ?_ fun _ _ => ?_ | dsimp only | with_reducible apply Evolves.ite | split
    | refine Evolves.of_snd (by assumption) ?_ | with_reducible apply Evolves.upd

theorem State.refill_ev {k : Bool} {l : List Area} {s0 s : State} {x1 : Nat} (h : Evolves k l s0 s)
    (m : Area.subset [.tokens] l = true) : Evolves k l s0 (s.refill x1) := by
  refine Evolves.after ?_ h m
  unfold State.refill
  try dsimp only
  repeat'
    first
    | exact rfl | exact .inr rfl | exact .inl rfl | exact Nat.le_refl _ | exact Nat.le_add_right _ _ | exact .refl _ | exact fun h => h
    | with_reducible exact Evolves.refl _ _ | with_reducible refine Evolves.foldl ?_ fun _ _ => ?_
    | with_reducible apply Evolves.ite | split | with_reducible apply Evolves.upd

theorem State.serveHeld_ev {k : Bool} {l : List Area} {s0 s : State} {ref : CmdRef} {lc : Bool} {x3 : Nat} {c : Nat} (h : Evolves k l s0 s)
    (m : Area.subset [.tokens] l = true) : Evolves k l s0 (s.serveHeld ref lc x3 c).1 := by
  refine Evolves.after ?_ h m
  unfold State.serveHeld
  try dsimp only
  repeat'
    first
    | exact rfl | exact .inr rfl | exact .inl rfl | exact Nat.le_refl _ | exact Nat.le_add_right _ _ | exact .refl _ | exact fun h => h
    | with_reducible exact Evolves.refl _ _ | with_reducible refine Evolves.foldl ?_ fun _ _ => ?_ | dsimp only
    | with_reducible apply Evolves.ite | split | with_reducible apply Evolves.upd

theorem State.retryHeld_ev {k : Bool} {l : List Area} {s0 s : State} (h : Evolves k l s0 s)
    (m : Area.subset [.tokens, .cmds] l = true) : Evolves k l s0 s.retryHeld := by
  refine Evolves.after ?_ h m
  unfold State.retryHeld
  try dsimp only
  repeat'
    first
    | exact rfl | exact .inr rfl | exact .inl rfl | exact Nat.le_refl _ | exact Nat.le_add_right _ _ | exact .refl _ | exact fun h => h
    | with_reducible exact Evolves.refl _ _ | with_reducible refine State.serveHeld_ev ?_ ?_
    | with_reducible refine Evolves.foldl ?_ fun _ _ => ?_ | with_reducible refine Evolves.foldl_snd ?_ fun _ _ => ?_
    | with_reducible refine Evolves.foldl_fst ?_ fun _ _ => ?_ | with_reducible apply Evolves.ite | split
    | refine Evolves.of_fst (by assumption) ?_ | with_reducible apply Evolves.upd

theorem execSluiceWindow_ev {k : Bool} {l : List Area} {s : State}
    (m : Area.subset [.time, .tokens, .sluWindow, .cmds] l = true) : EvolvesOut k l s (execSluiceWindow s) := by
  refine EvolvesOut.mono ?_ m
  unfold execSluiceWindow
  try dsimp only
  repeat'
    first
    | exact rfl | exact .inr rfl | exact .inl rfl | exact Nat.le_refl _ | exact Nat.le_add_right _ _ | exact .refl _ | exact fun h => h
    | with_reducible exact Evolves.refl _ _ | with_reducible refine State.endWindow_ev ?_ ?_
    | with_reducible refine State.retryHeld_ev ?_ ?_ | with_reducible refine State.refill_ev ?_ ?_
    | with_reducible refine Evolves.foldl ?_ fun _ _ => ?_ | with_reducible apply Evolves.ite
    | with_reducible apply EvolvesOut.next | with_reducible exact EvolvesOut.fault
    | with_reducible apply EvolvesOut.ite | split | refine Evolves.of_fst (by assumption) ?_
    | with_reducible apply Evolves.upd

end Sys2Proof.Machine
end

