-- ==== Sys2Proof/Laws/Contexts.lean ====
section
/-! SUPPORT. What each operation of Sys2Proof/Machine/Contexts.lean may change, and how the state follows. -/

set_option Elab.async false
set_option linter.all false
namespace Sys2Proof.Machine

theorem State.updCmd_ev {k : Bool} {l : List Area} {s0 s : State} {ref : CmdRef} {f : Cmd → Cmd} (h : Evolves k l s0 s)
    (m : Area.subset [.cmds] l = true) : Evolves k l s0 (s.updCmd ref f) := by
  refine Evolves.after ?_ h m
  unfold State.updCmd
  try dsimp only
  repeat'
    first
    | exact rfl | exact .inr rfl | exact .inl rfl | exact Nat.le_refl _ | exact Nat.le_add_right _ _ | exact .refl _ | exact fun h => h
    | with_reducible exact Evolves.refl _ _ | with_reducible refine Evolves.foldl ?_ fun _ _ => ?_
    | with_reducible apply Evolves.ite | split | with_reducible apply Evolves.upd

theorem State.dropCmds_ev {k : Bool} {l : List Area} {s0 s : State} {refs : List CmdRef} (h : Evolves k l s0 s)
    (m : Area.subset [.cmds, .atsInvals] l = true) : Evolves k l s0 (s.dropCmds refs) := by
  refine Evolves.after ?_ h m
  unfold State.dropCmds
  try dsimp only
  repeat'
    first
    | exact rfl | exact .inr rfl | exact .inl rfl | exact Nat.le_refl _ | exact Nat.le_add_right _ _ | exact .refl _ | exact fun h => h
    | with_reducible exact Evolves.refl _ _ | with_reducible refine State.flushAts_ev ?_ ?_
    | with_reducible refine Evolves.foldl ?_ fun _ _ => ?_ | with_reducible apply Evolves.ite | split
    | with_reducible apply Evolves.upd

theorem State.unqueue_ev {k : Bool} {l : List Area} {s0 s : State} {refs : List CmdRef} (h : Evolves k l s0 s)
    (m : Area.subset [.units] l = true) : Evolves k l s0 (s.unqueue refs) := by
  refine Evolves.after ?_ h m
  unfold State.unqueue
  try dsimp only
  repeat'
    first
    | exact rfl | exact .inr rfl | exact .inl rfl | exact Nat.le_refl _ | exact Nat.le_add_right _ _ | exact .refl _ | exact fun h => h
    | with_reducible exact Evolves.refl _ _ | with_reducible refine Evolves.foldl ?_ fun _ _ => ?_
    | with_reducible apply Evolves.ite | split | with_reducible apply Evolves.upd

theorem State.dropLoads_ev {k : Bool} {l : List Area} {s0 s : State} {refs : List CmdRef} (h : Evolves k l s0 s)
    (m : Area.subset [.pans] l = true) : Evolves k l s0 (s.dropLoads refs) := by
  refine Evolves.after ?_ h m
  unfold State.dropLoads
  try dsimp only
  repeat'
    first
    | exact rfl | exact .inr rfl | exact .inl rfl | exact Nat.le_refl _ | exact Nat.le_add_right _ _ | exact .refl _ | exact fun h => h
    | with_reducible exact Evolves.refl _ _ | with_reducible refine Evolves.foldl ?_ fun _ _ => ?_
    | with_reducible apply Evolves.ite | split | with_reducible apply Evolves.upd

theorem State.dropFrames_ev {k : Bool} {l : List Area} {s0 s : State} {x1 : Nat} {routes : List Nat} (h : Evolves k l s0 s)
    (m : Area.subset [.secs] l = true) : Evolves k l s0 (s.dropFrames x1 routes) := by
  refine Evolves.after ?_ h m
  unfold State.dropFrames
  try dsimp only
  repeat'
    first
    | exact rfl | exact .inr rfl | exact .inl rfl | exact Nat.le_refl _ | exact Nat.le_add_right _ _ | exact .refl _ | exact fun h => h
    | with_reducible exact Evolves.refl _ _ | with_reducible refine State.updSec_ev ?_ ?_
    | with_reducible refine Evolves.foldl ?_ fun _ _ => ?_ | with_reducible apply Evolves.ite | split
    | with_reducible apply Evolves.upd

theorem State.markWritten_ev {k : Bool} {l : List Area} {s0 s : State} {ref : CmdRef} (h : Evolves k l s0 s)
    (m : Area.subset [.cmds] l = true) : Evolves k l s0 (s.markWritten ref) := by
  refine Evolves.after ?_ h m
  unfold State.markWritten
  try dsimp only
  repeat'
    first
    | exact rfl | exact .inr rfl | exact .inl rfl | exact Nat.le_refl _ | exact Nat.le_add_right _ _ | exact .refl _ | exact fun h => h
    | with_reducible exact Evolves.refl _ _ | with_reducible refine State.updCmd_ev ?_ ?_
    | with_reducible refine Evolves.foldl ?_ fun _ _ => ?_ | with_reducible apply Evolves.ite | split
    | with_reducible apply Evolves.upd

theorem State.dropTrees_ev {k : Bool} {l : List Area} {s0 s : State} {refs : List CmdRef} (h : Evolves k l s0 s)
    (m : Area.subset [.clusters] l = true) : Evolves k l s0 (s.dropTrees refs) := by
  refine Evolves.after ?_ h m
  unfold State.dropTrees
  try dsimp only
  repeat'
    first
    | exact rfl | exact .inr rfl | exact .inl rfl | exact Nat.le_refl _ | exact Nat.le_add_right _ _ | exact .refl _ | exact fun h => h
    | with_reducible exact Evolves.refl _ _ | with_reducible refine Evolves.foldl ?_ fun _ _ => ?_
    | with_reducible apply Evolves.ite | split | with_reducible apply Evolves.upd

theorem State.dropRooms_ev {k : Bool} {l : List Area} {s0 s : State} {refs : List CmdRef} (h : Evolves k l s0 s)
    (m : Area.subset [.secs] l = true) : Evolves k l s0 (s.dropRooms refs) := by
  refine Evolves.after ?_ h m
  unfold State.dropRooms
  try dsimp only
  repeat'
    first
    | exact rfl | exact .inr rfl | exact .inl rfl | exact Nat.le_refl _ | exact Nat.le_add_right _ _ | exact .refl _ | exact fun h => h
    | with_reducible exact Evolves.refl _ _ | with_reducible refine State.updSec_ev ?_ ?_
    | with_reducible refine Evolves.foldl ?_ fun _ _ => ?_ | with_reducible refine Evolves.foldl_snd ?_ fun _ _ => ?_
    | with_reducible refine Evolves.foldl_fst ?_ fun _ _ => ?_ | with_reducible apply Evolves.ite | split
    | with_reducible apply Evolves.upd

theorem State.dropUsers_ev {k : Bool} {l : List Area} {s0 s : State} {refs : List CmdRef} (h : Evolves k l s0 s)
    (m : Area.subset [.windows, .atsInvals] l = true) : Evolves k l s0 (s.dropUsers refs) := by
  refine Evolves.after ?_ h m
  unfold State.dropUsers
  try dsimp only
  repeat'
    first
    | exact rfl | exact .inr rfl | exact .inl rfl | exact Nat.le_refl _ | exact Nat.le_add_right _ _ | exact .refl _ | exact fun h => h
    | with_reducible exact Evolves.refl _ _ | with_reducible refine Evolves.foldl ?_ fun _ _ => ?_
    | with_reducible apply Evolves.ite | split | with_reducible apply Evolves.upd

theorem State.withdrawCalls_ev {k : Bool} {l : List Area} {s0 s : State} {refs : List CmdRef} (h : Evolves k l s0 s)
    (m : Area.subset [.svcs, .xparts] l = true) : Evolves k l s0 (s.withdrawCalls refs) := by
  refine Evolves.after ?_ h m
  unfold State.withdrawCalls
  try dsimp only
  repeat'
    first
    | exact rfl | exact .inr rfl | exact .inl rfl | exact Nat.le_refl _ | exact Nat.le_add_right _ _ | exact .refl _ | exact fun h => h | exact fun _ => rfl
    | with_reducible exact Evolves.refl _ _ | with_reducible refine State.emit_ev ?_ ?_
    | with_reducible refine Evolves.foldl ?_ fun _ _ => ?_ | with_reducible refine Evolves.foldl_snd ?_ fun _ _ => ?_
    | with_reducible refine Evolves.foldl_fst ?_ fun _ _ => ?_ | with_reducible apply Evolves.ite | split
    | with_reducible apply Evolves.upd

theorem State.kill_ev {k : Bool} {l : List Area} {s0 s : State} {refs : List CmdRef} {cause : Nat} (h : Evolves k l s0 s)
    (m : Area.subset [.windows, .pans, .units, .clusters, .secs, .cmds, .svcs, .xparts, .atsInvals] l = true) : Evolves k l s0 (s.kill refs cause) := by
  refine Evolves.after ?_ h m
  unfold State.kill
  try dsimp only
  repeat'
    first
    | exact rfl | exact .inr rfl | exact .inl rfl | exact Nat.le_refl _ | exact Nat.le_add_right _ _ | exact .refl _ | exact fun h => h
    | with_reducible exact Evolves.refl _ _ | with_reducible refine State.dropTrees_ev ?_ ?_
    | with_reducible refine State.dropLoads_ev ?_ ?_ | with_reducible refine State.dropFrames_ev ?_ ?_
    | with_reducible refine State.dropUsers_ev ?_ ?_ | with_reducible refine State.dropRooms_ev ?_ ?_
    | with_reducible refine State.withdrawCalls_ev ?_ ?_ | with_reducible refine State.unqueue_ev ?_ ?_
    | with_reducible refine State.flushAts_ev ?_ ?_ | with_reducible refine Evolves.foldl ?_ fun _ _ => ?_
    | with_reducible apply Evolves.ite | split | with_reducible apply Evolves.upd

theorem State.noteWaits_ev {k : Bool} {l : List Area} {s0 s : State} {i : Nat} (h : Evolves k l s0 s)
    (m : Area.subset [.fences, .cmds] l = true) : Evolves k l s0 (s.noteWaits i) := by
  refine Evolves.after ?_ h m
  unfold State.noteWaits
  try dsimp only
  repeat'
    first
    | exact rfl | exact .inr rfl | exact .inl rfl | exact Nat.le_refl _ | exact Nat.le_add_right _ _ | exact .refl _ | exact fun h => h
    | with_reducible exact Evolves.refl _ _ | with_reducible refine State.updFe_ev ?_ ?_
    | with_reducible refine Evolves.foldl ?_ fun _ _ => ?_ | with_reducible apply Evolves.ite | split
    | with_reducible apply Evolves.upd

theorem State.mirrorFence_ev {k : Bool} {l : List Area} {s0 s : State} {i : Nat} {flush1 : Bool} (h : Evolves k l s0 s)
    (m : Area.subset [] l = true) : Evolves k l s0 (s.mirrorFence i flush1) := by
  refine Evolves.after ?_ h m
  unfold State.mirrorFence
  try dsimp only
  repeat'
    first
    | exact rfl | exact .inr rfl | exact .inl rfl | exact Nat.le_refl _ | exact Nat.le_add_right _ _ | exact .refl _ | exact fun h => h | exact fun _ => rfl
    | with_reducible exact Evolves.refl _ _ | with_reducible refine State.emit_ev ?_ ?_
    | with_reducible refine State.postHost_ev ?_ ?_ | with_reducible refine Evolves.foldl ?_ fun _ _ => ?_
    | with_reducible apply Evolves.ite | split | with_reducible apply Evolves.upd

theorem State.signalFence_ev {k : Bool} {l : List Area} {s0 s : State} {i : Nat} {v : Nat} {flush1 : Bool} (h : Evolves k l s0 s)
    (m : Area.subset [.fences, .fenceLower, .cmds] l = true) : Evolves k l s0 (s.signalFence i v flush1).1 := by
  refine Evolves.after ?_ h m
  unfold State.signalFence
  try dsimp only
  repeat'
    first
    | exact rfl | exact .inr rfl | exact .inl rfl | exact Nat.le_refl _ | exact Nat.le_add_right _ _ | exact .refl _ | exact fun h => h
    | with_reducible exact Evolves.refl _ _ | with_reducible refine State.mirrorFence_ev ?_ ?_
    | with_reducible refine State.updFe_ev ?_ ?_ | with_reducible refine State.noteWaits_ev ?_ ?_
    | with_reducible refine Evolves.foldl ?_ fun _ _ => ?_ | dsimp only | with_reducible apply Evolves.ite | split
    | with_reducible apply Evolves.upd

theorem State.reapFence_ev {k : Bool} {l : List Area} {s0 s : State} {i : Nat} (h : Evolves k l s0 s)
    (m : Area.subset [.fences, .fenceFreed] l = true) : Evolves k l s0 (s.reapFence i) := by
  refine Evolves.after ?_ h m
  unfold State.reapFence
  try dsimp only
  repeat'
    first
    | exact rfl | exact .inr rfl | exact .inl rfl | exact Nat.le_refl _ | exact Nat.le_add_right _ _ | exact .refl _ | exact fun h => h
    | with_reducible exact Evolves.refl _ _ | with_reducible refine State.updFe_ev ?_ ?_
    | with_reducible refine Evolves.foldl ?_ fun _ _ => ?_ | with_reducible apply Evolves.ite | split
    | with_reducible apply Evolves.upd

theorem State.abandonFence_ev {k : Bool} {l : List Area} {s0 s : State} {i : Nat} (h : Evolves k l s0 s)
    (m : Area.subset [.fences, .fenceFreed, .cmds] l = true) : Evolves k l s0 (s.abandonFence i) := by
  refine Evolves.after ?_ h m
  unfold State.abandonFence
  try dsimp only
  repeat'
    first
    | exact rfl | exact .inr rfl | exact .inl rfl | exact Nat.le_refl _ | exact Nat.le_add_right _ _ | exact .refl _ | exact fun h => h
    | with_reducible exact Evolves.refl _ _ | with_reducible refine State.reapFence_ev ?_ ?_
    | with_reducible refine State.updFe_ev ?_ ?_ | with_reducible refine State.noteWaits_ev ?_ ?_
    | with_reducible refine Evolves.foldl ?_ fun _ _ => ?_ | with_reducible apply Evolves.ite | split
    | with_reducible apply Evolves.upd

theorem State.abandonOwned_ev {k : Bool} {l : List Area} {s0 s : State} {c : Nat} (h : Evolves k l s0 s)
    (m : Area.subset [.fences, .fenceFreed, .cmds] l = true) : Evolves k l s0 (s.abandonOwned c) := by
  refine Evolves.after ?_ h m
  unfold State.abandonOwned
  try dsimp only
  repeat'
    first
    | exact rfl | exact .inr rfl | exact .inl rfl | exact Nat.le_refl _ | exact Nat.le_add_right _ _ | exact .refl _ | exact fun h => h
    | with_reducible exact Evolves.refl _ _ | with_reducible refine State.abandonFence_ev ?_ ?_
    | with_reducible refine Evolves.foldl ?_ fun _ _ => ?_ | with_reducible apply Evolves.ite | split
    | with_reducible apply Evolves.upd

theorem State.unshareFence_ev {k : Bool} {l : List Area} {s0 s : State} {c : Nat} {i : Nat} (h : Evolves k l s0 s)
    (m : Area.subset [.fences, .fenceFreed] l = true) : Evolves k l s0 (s.unshareFence c i) := by
  refine Evolves.after ?_ h m
  unfold State.unshareFence
  try dsimp only
  repeat'
    first
    | exact rfl | exact .inr rfl | exact .inl rfl | exact Nat.le_refl _ | exact Nat.le_add_right _ _ | exact .refl _ | exact fun h => h
    | with_reducible exact Evolves.refl _ _ | with_reducible refine State.reapFence_ev ?_ ?_
    | with_reducible refine State.updFe_ev ?_ ?_ | with_reducible refine Evolves.foldl ?_ fun _ _ => ?_
    | with_reducible apply Evolves.ite | split | with_reducible apply Evolves.upd

theorem State.unshareAll_ev {k : Bool} {l : List Area} {s0 s : State} {c : Nat} (h : Evolves k l s0 s)
    (m : Area.subset [.fences, .fenceFreed] l = true) : Evolves k l s0 (s.unshareAll c) := by
  refine Evolves.after ?_ h m
  unfold State.unshareAll
  try dsimp only
  repeat'
    first
    | exact rfl | exact .inr rfl | exact .inl rfl | exact Nat.le_refl _ | exact Nat.le_add_right _ _ | exact .refl _ | exact fun h => h
    | with_reducible exact Evolves.refl _ _ | with_reducible refine State.unshareFence_ev ?_ ?_
    | with_reducible refine Evolves.foldl ?_ fun _ _ => ?_ | with_reducible apply Evolves.ite | split
    | with_reducible apply Evolves.upd

theorem State.writeRegs_ev {k : Bool} {l : List Area} {s0 s : State} {x1 : Nat} {ws : List (Nat × Word)} (h : Evolves k l s0 s)
    (m : Area.subset [.secs] l = true) : Evolves k l s0 (s.writeRegs x1 ws) := by
  refine Evolves.after ?_ h m
  unfold State.writeRegs
  try dsimp only
  repeat'
    first
    | exact rfl | exact .inr rfl | exact .inl rfl | exact Nat.le_refl _ | exact Nat.le_add_right _ _ | exact .refl _ | exact fun h => h
    | with_reducible exact Evolves.refl _ _ | with_reducible refine State.updSec_ev ?_ ?_
    | with_reducible refine Evolves.foldl ?_ fun _ _ => ?_ | with_reducible apply Evolves.ite | split
    | with_reducible apply Evolves.upd

theorem State.applyStaged_ev {k : Bool} {l : List Area} {s0 s : State} {ws : List (Loc × Byte)} (h : Evolves k l s0 s)
    (m : Area.subset [.msix, .hbm, .chip, .clusters] l = true) : Evolves k l s0 (s.applyStaged ws) := by
  refine Evolves.after ?_ h m
  unfold State.applyStaged
  try dsimp only
  repeat'
    first
    | exact rfl | exact .inr rfl | exact .inl rfl | exact Nat.le_refl _ | exact Nat.le_add_right _ _ | exact .refl _ | exact fun h => h
    | with_reducible exact Evolves.refl _ _ | with_reducible refine State.putHbm_ev ?_ ?_
    | with_reducible refine State.postHost_ev ?_ ?_ | with_reducible refine Evolves.foldl ?_ fun _ _ => ?_
    | with_reducible refine Evolves.foldl_snd ?_ fun _ _ => ?_
    | with_reducible refine Evolves.foldl_fst ?_ fun _ _ => ?_ | with_reducible apply Evolves.ite
    | exact fun h => ⟨Mem.writes_wf _ h.1, Mem.writes_wf _ h.2⟩ | split | with_reducible apply Evolves.upd

theorem State.writeRecord_ev {k : Bool} {l : List Area} {s0 s : State} {x1 : Nat} {r : RecInfo} (h : Evolves k l s0 s)
    (m : Area.subset [.pins, .hub, .funcs, .msix, .ctxs, .tlb, .rings, .hbm, .chip, .pans, .clusters, .power, .log, .cmds,
      .replays, .hzn, .xparts, .atsInvals] l = true) : Evolves k l s0 (s.writeRecord x1 r) := by
  refine Evolves.after ?_ h m
  unfold State.writeRecord
  try dsimp only
  repeat'
    first
    | exact rfl | exact .inr rfl | exact .inl rfl | exact Nat.le_refl _ | exact Nat.le_add_right _ _ | exact .refl _ | exact fun h => h | exact ⟨fun _ h => h, fun h => h⟩
    | with_reducible exact Evolves.refl _ _ | with_reducible refine State.stageVa_ev ?_ ?_
    | with_reducible refine State.applyStaged_ev ?_ ?_ | with_reducible refine Evolves.foldl ?_ fun _ _ => ?_
    | with_reducible apply Evolves.ite | split | refine Evolves.of_snd (by assumption) ?_
    | with_reducible apply Evolves.upd

theorem State.writeFailure_ev {k : Bool} {l : List Area} {s0 s : State} {x1 : Nat} {status : Nat} {r : RecInfo} (h : Evolves k l s0 s)
    (m : Area.subset [.pins, .hub, .funcs, .msix, .ctxs, .tlb, .rings, .hbm, .chip, .pans, .clusters, .power, .log, .cmds,
      .replays, .hzn, .xparts, .atsInvals] l = true) : Evolves k l s0 (s.writeFailure x1 status r) := by
  refine Evolves.after ?_ h m
  unfold State.writeFailure
  try dsimp only
  repeat'
    first
    | exact rfl | exact .inr rfl | exact .inl rfl | exact Nat.le_refl _ | exact Nat.le_add_right _ _ | exact .refl _ | exact fun h => h | exact ⟨fun _ h => h, fun h => h⟩
    | with_reducible exact Evolves.refl _ _ | with_reducible refine State.writeRecord_ev ?_ ?_
    | with_reducible refine Evolves.foldl ?_ fun _ _ => ?_ | with_reducible apply Evolves.ite | split
    | with_reducible apply Evolves.upd

theorem State.completeRing_ev {k : Bool} {l : List Area} {s0 s : State} {r : Nat} {status : Nat} {value : Nat} {abandoned : Bool} (h : Evolves k l s0 s)
    (m : Area.subset [.pins, .funcs, .msix, .ctxs, .rings, .log] l = true) : Evolves k l s0 (s.completeRing r status value abandoned) := by
  refine Evolves.after ?_ h m
  unfold State.completeRing
  try dsimp only
  repeat'
    first
    | exact rfl | exact .inr rfl | exact .inl rfl | exact Nat.le_refl _ | exact Nat.le_add_right _ _ | exact .refl _ | exact fun h => h
    | with_reducible exact Evolves.refl _ _ | with_reducible refine State.updRg_ev ?_ ?_
    | with_reducible refine State.ctxEvent_ev ?_ ?_ | with_reducible refine Evolves.foldl ?_ fun _ _ => ?_
    | with_reducible apply Evolves.ite | split | refine Evolves.of_fst (by assumption) ?_
    | with_reducible apply Evolves.upd

theorem State.reachRing_ev {k : Bool} {l : List Area} {s0 s : State} {r : Nat} (h : Evolves k l s0 s)
    (m : Area.subset [.windows, .cmds, .atsInvals] l = true) : Evolves k l s0 (s.reachRing r) := by
  refine Evolves.after ?_ h m
  unfold State.reachRing
  try dsimp only
  repeat'
    first
    | exact rfl | exact .inr rfl | exact .inl rfl | exact Nat.le_refl _ | exact Nat.le_add_right _ _ | exact .refl _ | exact fun h => h
    | with_reducible exact Evolves.refl _ _ | with_reducible refine State.enterCmd_ev ?_ ?_
    | with_reducible refine Evolves.foldl ?_ fun _ _ => ?_ | with_reducible apply Evolves.ite | split
    | with_reducible apply Evolves.upd

theorem State.advanceRing_ev {k : Bool} {l : List Area} {s0 s : State} {r : Nat} {aband : Bool} (h : Evolves k l s0 s)
    (m : Area.subset [.pins, .funcs, .msix, .windows, .ctxs, .rings, .log, .cmds, .atsInvals] l = true) : Evolves k l s0 (s.advanceRing r aband) := by
  refine Evolves.after ?_ h m
  unfold State.advanceRing
  try dsimp only
  repeat'
    first
    | exact rfl | exact .inr rfl | exact .inl rfl | exact Nat.le_refl _ | exact Nat.le_add_right _ _ | exact .refl _ | exact fun h => h
    | with_reducible exact Evolves.refl _ _ | with_reducible refine State.reachRing_ev ?_ ?_
    | with_reducible refine State.updRg_ev ?_ ?_ | with_reducible refine State.completeRing_ev ?_ ?_
    | with_reducible refine Evolves.foldl ?_ fun _ _ => ?_ | with_reducible apply Evolves.ite | split
    | with_reducible apply Evolves.upd

theorem State.endLc_ev {k : Bool} {l : List Area} {s0 s : State} {p : Nat} {x2 : Nat} (h : Evolves k l s0 s)
    (m : Area.subset [.parts] l = true) : Evolves k l s0 (s.endLc p x2) := by
  refine Evolves.after ?_ h m
  unfold State.endLc
  try dsimp only
  repeat'
    first
    | exact rfl | exact .inr rfl | exact .inl rfl | exact Nat.le_refl _ | exact Nat.le_add_right _ _ | exact .refl _ | exact fun h => h
    | with_reducible exact Evolves.refl _ _ | with_reducible refine State.updPt_ev ?_ ?_
    | with_reducible refine Evolves.foldl ?_ fun _ _ => ?_ | with_reducible apply Evolves.ite | split
    | with_reducible apply Evolves.upd

theorem State.clearTags_ev {k : Bool} {l : List Area} {s0 s : State} {x1 : Nat} (h : Evolves k l s0 s)
    (m : Area.subset [.pans] l = true) : Evolves k l s0 (s.clearTags x1) := by
  refine Evolves.after ?_ h m
  unfold State.clearTags
  try dsimp only
  repeat'
    first
    | exact rfl | exact .inr rfl | exact .inl rfl | exact Nat.le_refl _ | exact Nat.le_add_right _ _ | exact .refl _ | exact fun h => h
    | with_reducible exact Evolves.refl _ _ | with_reducible refine Evolves.foldl ?_ fun _ _ => ?_
    | with_reducible apply Evolves.ite | split | with_reducible apply Evolves.upd

theorem State.freeHoldings_ev {k : Bool} {l : List Area} {s0 s : State} {x1 : Nat} (h : Evolves k l s0 s)
    (m : Area.subset [.chip, .pans, .units, .secs] l = true) : Evolves k l s0 (s.freeHoldings x1) := by
  refine Evolves.after ?_ h m
  unfold State.freeHoldings
  try dsimp only
  repeat'
    first
    | exact rfl | exact .inr rfl | exact .inl rfl | exact Nat.le_refl _ | exact Nat.le_add_right _ _ | exact .refl _ | exact fun h => h
    | with_reducible exact Evolves.refl _ _ | with_reducible refine State.updSec_ev ?_ ?_
    | with_reducible refine State.clearTags_ev ?_ ?_ | with_reducible refine Evolves.foldl ?_ fun _ _ => ?_
    | with_reducible apply Evolves.ite | split | with_reducible apply Evolves.upd

theorem State.announce_ev {k : Bool} {l : List Area} {s0 s : State} {c : Nat} {x2 : Nat} (h : Evolves k l s0 s)
    (m : Area.subset [.objs, .invals] l = true) : Evolves k l s0 (s.announce c x2) := by
  refine Evolves.after ?_ h m
  unfold State.announce
  try dsimp only
  repeat'
    first
    | exact rfl | exact .inr rfl | exact .inl rfl | exact Nat.le_refl _ | exact Nat.le_add_right _ _ | exact .refl _ | exact fun h => h
    | with_reducible exact Evolves.refl _ _ | with_reducible refine State.updOb_ev ?_ ?_
    | with_reducible refine Evolves.foldl ?_ fun _ _ => ?_ | with_reducible apply Evolves.ite | split
    | with_reducible apply Evolves.upd

theorem State.releaseObjs_ev {k : Bool} {l : List Area} {s0 s : State} {c : Nat} {objs : List Nat} (h : Evolves k l s0 s)
    (m : Area.subset [.objs, .hbm, .invals] l = true) : Evolves k l s0 (s.releaseObjs c objs) := by
  refine Evolves.after ?_ h m
  unfold State.releaseObjs
  try dsimp only
  repeat'
    first
    | exact rfl | exact .inr rfl | exact .inl rfl | exact Nat.le_refl _ | exact Nat.le_add_right _ _ | exact .refl _ | exact fun h => h
    | with_reducible exact Evolves.refl _ _ | with_reducible refine State.announce_ev ?_ ?_
    | with_reducible refine State.freeObj_ev ?_ ?_ | with_reducible refine Evolves.foldl ?_ fun _ _ => ?_
    | with_reducible apply Evolves.ite | split | with_reducible apply Evolves.upd

theorem State.unloadSec_ev {k : Bool} {l : List Area} {s0 s : State} {x1 : Nat} (h : Evolves k l s0 s)
    (m : Area.subset [.parts, .objs, .hbm, .chip, .pans, .units, .secs, .invals] l = true) : Evolves k l s0 (s.unloadSec x1) := by
  refine Evolves.after ?_ h m
  unfold State.unloadSec
  try dsimp only
  repeat'
    first
    | exact rfl | exact .inr rfl | exact .inl rfl | exact Nat.le_refl _ | exact Nat.le_add_right _ _ | exact .refl _ | exact fun h => h
    | with_reducible exact Evolves.refl _ _ | with_reducible refine State.freeHoldings_ev ?_ ?_
    | with_reducible refine State.moveSubs_ev ?_ ?_ | with_reducible refine State.endLc_ev ?_ ?_
    | with_reducible refine State.releaseObjs_ev ?_ ?_ | with_reducible refine Evolves.foldl ?_ fun _ _ => ?_
    | with_reducible apply Evolves.ite | split | with_reducible apply Evolves.upd

theorem State.adminDone_ev {k : Bool} {l : List Area} {s0 s : State} {f : Nat} {status : Nat} {value : Nat} {deferred : Bool} {lower : Bool} (h : Evolves k l s0 s)
    (m : Area.subset [.pins, .funcs, .msix, .log] l = true) : Evolves k l s0 (s.adminDone f status value deferred lower) := by
  refine Evolves.after ?_ h m
  unfold State.adminDone
  try dsimp only
  repeat'
    first
    | exact rfl | exact .inr rfl | exact .inl rfl | exact Nat.le_refl _ | exact Nat.le_add_right _ _ | exact .refl _ | exact fun h => h
    | with_reducible exact Evolves.refl _ _ | with_reducible refine State.funcEvent_ev ?_ ?_
    | with_reducible refine State.updFn_ev ?_ ?_ | with_reducible refine Evolves.foldl ?_ fun _ _ => ?_
    | with_reducible apply Evolves.ite | split | with_reducible apply Evolves.upd

theorem State.tokenRoom_ev {k : Bool} {l : List Area} {s0 s : State} {c : Nat} {x : Session} (h : Evolves k l s0 s)
    (m : Area.subset [.pins, .hub, .funcs, .msix, .ctxs, .tlb, .rings, .hbm, .pans, .clusters, .power, .log, .cmds, .replays,
      .hzn, .xparts, .atsInvals] l = true) : Evolves k l s0 (s.tokenRoom c x).2 := by
  refine Evolves.after ?_ h m
  unfold State.tokenRoom
  try dsimp only
  repeat'
    first
    | exact rfl | exact .inr rfl | exact .inl rfl | exact Nat.le_refl _ | exact Nat.le_add_right _ _ | exact .refl _ | exact fun h => h | exact ⟨fun _ h => h, fun h => h⟩
    | with_reducible exact Evolves.refl _ _ | with_reducible refine State.readVa_ev ?_ ?_
    | with_reducible refine Evolves.foldl ?_ fun _ _ => ?_ | dsimp only | with_reducible apply Evolves.ite | split
    | refine Evolves.of_snd (by assumption) ?_ | with_reducible apply Evolves.upd

theorem State.putTokens_ev {k : Bool} {l : List Area} {s0 s : State} {c : Nat} {rs : List (List Byte)} (h : Evolves k l s0 s)
    (m : Area.subset [.pins, .hub, .funcs, .msix, .ctxs, .tlb, .fences, .fenceLower, .rings, .hbm, .chip, .pans, .clusters,
      .power, .log, .cmds, .replays, .hzn, .sessions, .xparts, .atsInvals] l = true) : Evolves k l s0 (s.putTokens c rs) := by
  refine Evolves.after ?_ h m
  unfold State.putTokens
  try dsimp only
  repeat'
    first
    | exact rfl | exact .inr rfl | exact .inl rfl | exact Nat.le_refl _ | exact Nat.le_add_right _ _ | exact .refl _ | exact fun h => h | exact ⟨fun _ h => h, fun h => h⟩
    | with_reducible exact Evolves.refl _ _ | with_reducible refine State.stageVa_ev ?_ ?_
    | with_reducible refine State.applyStaged_ev ?_ ?_ | with_reducible refine State.signalFence_ev ?_ ?_
    | with_reducible refine Evolves.foldl ?_ fun _ _ => ?_ | with_reducible apply Evolves.ite | split
    | refine Evolves.of_snd (by assumption) ?_ | refine Evolves.of_fst (by assumption) ?_
    | with_reducible apply Evolves.upd

theorem State.endSession_ev {k : Bool} {l : List Area} {s0 s : State} {c : Nat} {reason : Nat} (h : Evolves k l s0 s)
    (m : Area.subset [.pins, .hub, .funcs, .msix, .ctxs, .tlb, .fences, .fenceLower, .rings, .hbm, .chip, .pans, .clusters,
      .power, .log, .cmds, .replays, .hzn, .sessions, .xparts, .atsInvals] l = true) : Evolves k l s0 (s.endSession c reason) := by
  refine Evolves.after ?_ h m
  unfold State.endSession
  try dsimp only
  repeat'
    first
    | exact rfl | exact .inr rfl | exact .inl rfl | exact Nat.le_refl _ | exact Nat.le_add_right _ _ | exact .refl _ | exact fun h => h | exact ⟨fun _ h => h, fun h => h⟩
    | with_reducible exact Evolves.refl _ _ | with_reducible refine State.tokenRoom_ev ?_ ?_
    | with_reducible refine State.putTokens_ev ?_ ?_ | with_reducible refine Evolves.foldl ?_ fun _ _ => ?_
    | with_reducible apply Evolves.ite | split | refine Evolves.of_snd (by assumption) ?_
    | with_reducible apply Evolves.upd

theorem State.finishDestroy_ev {k : Bool} {l : List Area} {s0 s : State} {c : Nat} (h : Evolves k l s0 s)
    (m : Area.subset [.pins, .funcs, .msix, .ctxs, .trans, .hbm, .log] l = true) : Evolves k l s0 (s.finishDestroy c) := by
  refine Evolves.after ?_ h m
  unfold State.finishDestroy
  try dsimp only
  repeat'
    first
    | exact rfl | exact .inr rfl | exact .inl rfl | exact Nat.le_refl _ | exact Nat.le_add_right _ _ | exact .refl _ | exact fun h => h
    | with_reducible exact Evolves.refl _ _ | with_reducible refine State.freeTables_ev ?_ ?_
    | with_reducible refine State.logEv_ev ?_ ?_ | with_reducible refine State.funcEvent_ev ?_ ?_
    | with_reducible refine State.adminDone_ev ?_ ?_ | with_reducible refine Evolves.foldl ?_ fun _ _ => ?_
    | with_reducible apply Evolves.ite | split | with_reducible apply Evolves.upd

theorem State.settle_ev {k : Bool} {l : List Area} {s0 s : State} {c : Nat} (h : Evolves k l s0 s)
    (m : Area.subset [.pins, .hub, .funcs, .msix, .parts, .ctxs, .trans, .tlb, .fences, .fenceFreed, .fenceLower, .rings, .objs,
      .hbm, .chip, .pans, .units, .clusters, .power, .log, .secs, .cmds, .replays, .hzn, .sessions, .xparts,
      .invals, .atsInvals] l = true) : Evolves k l s0 (s.settle c) := by
  refine Evolves.after ?_ h m
  unfold State.settle
  try dsimp only
  repeat'
    first
    | exact rfl | exact .inr rfl | exact .inl rfl | exact Nat.le_refl _ | exact Nat.le_add_right _ _ | exact .refl _ | exact fun h => h | exact ⟨fun _ h => h, fun h => h⟩
    | with_reducible exact Evolves.refl _ _ | with_reducible refine State.updCx_ev ?_ ?_
    | with_reducible refine State.endSession_ev ?_ ?_ | with_reducible refine State.abandonOwned_ev ?_ ?_
    | with_reducible refine State.ctxEvent_ev ?_ ?_ | with_reducible refine State.funcEvent_ev ?_ ?_
    | with_reducible refine State.unshareAll_ev ?_ ?_ | with_reducible refine State.unloadSec_ev ?_ ?_
    | with_reducible refine State.announce_ev ?_ ?_ | with_reducible refine State.finishDestroy_ev ?_ ?_
    | with_reducible refine Evolves.foldl ?_ fun _ _ => ?_ | with_reducible apply Evolves.ite | split
    | refine Evolves.of_fst (by assumption) ?_ | with_reducible apply Evolves.upd

theorem State.stopCtx_ev {k : Bool} {l : List Area} {s0 s : State} {c : Nat} {cause : Nat} (h : Evolves k l s0 s)
    (m : Area.subset [.windows, .parts, .pans, .units, .clusters, .secs, .cmds, .replays, .hzn, .svcs, .xparts, .atsInvals] l = true) : Evolves k l s0 (s.stopCtx c cause) := by
  refine Evolves.after ?_ h m
  unfold State.stopCtx
  try dsimp only
  repeat'
    first
    | exact rfl | exact .inr rfl | exact .inl rfl | exact Nat.le_refl _ | exact Nat.le_add_right _ _ | exact .refl _ | exact fun h => h
    | with_reducible exact Evolves.refl _ _ | with_reducible refine State.abortMsgs_ev ?_ ?_
    | with_reducible refine State.kill_ev ?_ ?_ | with_reducible refine State.updSec_ev ?_ ?_
    | with_reducible refine State.endLc_ev ?_ ?_ | with_reducible refine Evolves.foldl ?_ fun _ _ => ?_
    | with_reducible apply Evolves.ite | split | with_reducible apply Evolves.upd

theorem State.loseCtx_ev {k : Bool} {l : List Area} {s0 s : State} {c : Nat} {status : Nat} (h : Evolves k l s0 s)
    (m : Area.subset [.pins, .hub, .funcs, .msix, .windows, .parts, .ctxs, .trans, .tlb, .fences, .fenceFreed, .fenceLower,
      .rings, .objs, .hbm, .chip, .pans, .units, .clusters, .power, .log, .secs, .cmds, .replays, .hzn, .svcs,
      .sessions, .xparts, .invals, .atsInvals] l = true) : Evolves k l s0 (s.loseCtx c status) := by
  refine Evolves.after ?_ h m
  unfold State.loseCtx
  try dsimp only
  repeat'
    first
    | exact rfl | exact .inr rfl | exact .inl rfl | exact Nat.le_refl _ | exact Nat.le_add_right _ _ | exact .refl _ | exact fun h => h | exact ⟨fun _ h => h, fun h => h⟩
    | with_reducible exact Evolves.refl _ _ | with_reducible refine State.updCx_ev ?_ ?_
    | with_reducible refine State.logEv_ev ?_ ?_ | with_reducible refine State.stopCtx_ev ?_ ?_
    | with_reducible refine State.completeRing_ev ?_ ?_ | with_reducible refine State.settle_ev ?_ ?_
    | with_reducible refine Evolves.foldl ?_ fun _ _ => ?_ | with_reducible apply Evolves.ite | split
    | with_reducible apply Evolves.upd

theorem State.eventFailure_ev {k : Bool} {l : List Area} {s0 s : State} {ref : CmdRef} {c : Nat} {status : Nat} {r : RecInfo} (h : Evolves k l s0 s)
    (m : Area.subset [.pins, .funcs, .msix, .ctxs, .log] l = true) : Evolves k l s0 (s.eventFailure ref c status r) := by
  refine Evolves.after ?_ h m
  unfold State.eventFailure
  try dsimp only
  repeat'
    first
    | exact rfl | exact .inr rfl | exact .inl rfl | exact Nat.le_refl _ | exact Nat.le_add_right _ _ | exact .refl _ | exact fun h => h
    | with_reducible exact Evolves.refl _ _ | with_reducible refine State.ctxEvent_ev ?_ ?_
    | with_reducible refine Evolves.foldl ?_ fun _ _ => ?_ | with_reducible apply Evolves.ite | split
    | refine Evolves.of_fst (by assumption) ?_ | with_reducible apply Evolves.upd

theorem State.failRecords_ev {k : Bool} {l : List Area} {s0 s : State} {x1 : Nat} {ref : CmdRef} {status : Nat} (h : Evolves k l s0 s)
    (m : Area.subset [.pins, .hub, .funcs, .msix, .ctxs, .tlb, .rings, .hbm, .chip, .pans, .clusters, .power, .log, .cmds,
      .replays, .hzn, .xparts, .atsInvals] l = true) : Evolves k l s0 (s.failRecords x1 ref status) := by
  refine Evolves.after ?_ h m
  unfold State.failRecords
  try dsimp only
  repeat'
    first
    | exact rfl | exact .inr rfl | exact .inl rfl | exact Nat.le_refl _ | exact Nat.le_add_right _ _ | exact .refl _ | exact fun h => h | exact ⟨fun _ h => h, fun h => h⟩
    | with_reducible exact Evolves.refl _ _ | with_reducible refine State.writeFailure_ev ?_ ?_
    | with_reducible refine Evolves.foldl ?_ fun _ _ => ?_ | with_reducible apply Evolves.ite | split
    | with_reducible apply Evolves.upd

theorem State.failCmd_ev {k : Bool} {l : List Area} {s0 s : State} {ref : CmdRef} {status : Nat} (h : Evolves k l s0 s)
    (m : Area.subset [.pins, .hub, .funcs, .msix, .windows, .parts, .ctxs, .trans, .tlb, .fences, .fenceFreed, .fenceLower,
      .rings, .objs, .hbm, .chip, .pans, .units, .clusters, .power, .log, .secs, .cmds, .replays, .hzn, .svcs,
      .sessions, .xparts, .invals, .atsInvals] l = true) : Evolves k l s0 (s.failCmd ref status) := by
  refine Evolves.after ?_ h m
  unfold State.failCmd
  try dsimp only
  repeat'
    first
    | exact rfl | exact .inr rfl | exact .inl rfl | exact Nat.le_refl _ | exact Nat.le_add_right _ _ | exact .refl _ | exact fun h => h | exact ⟨fun _ h => h, fun h => h⟩
    | with_reducible exact Evolves.refl _ _ | with_reducible refine State.failRecords_ev ?_ ?_
    | with_reducible refine State.eventFailure_ev ?_ ?_ | with_reducible refine State.completeRing_ev ?_ ?_
    | with_reducible refine State.logEv_ev ?_ ?_ | with_reducible refine State.kill_ev ?_ ?_
    | with_reducible refine State.abortMsgs_ev ?_ ?_ | with_reducible refine State.loseCtx_ev ?_ ?_
    | with_reducible refine Evolves.foldl ?_ fun _ _ => ?_ | with_reducible apply Evolves.ite | split
    | with_reducible apply Evolves.upd

theorem State.endRun_ev {k : Bool} {l : List Area} {s0 s : State} {x1 : Nat} (h : Evolves k l s0 s)
    (m : Area.subset [.pins, .hub, .funcs, .msix, .windows, .parts, .ctxs, .trans, .tlb, .fences, .fenceFreed, .fenceLower,
      .rings, .objs, .hbm, .chip, .pans, .units, .clusters, .power, .log, .secs, .cmds, .replays, .hzn, .svcs,
      .sessions, .xparts, .invals, .atsInvals] l = true) : Evolves k l s0 (s.endRun x1) := by
  refine Evolves.after ?_ h m
  unfold State.endRun
  try dsimp only
  repeat'
    first
    | exact rfl | exact .inr rfl | exact .inl rfl | exact Nat.le_refl _ | exact Nat.le_add_right _ _ | exact .refl _ | exact fun h => h | exact ⟨fun _ h => h, fun h => h⟩
    | with_reducible exact Evolves.refl _ _ | with_reducible refine State.updSec_ev ?_ ?_
    | with_reducible refine State.endLc_ev ?_ ?_ | with_reducible refine State.logEv_ev ?_ ?_
    | with_reducible refine State.updPt_ev ?_ ?_ | with_reducible refine State.writeRegs_ev ?_ ?_
    | with_reducible refine State.failCmd_ev ?_ ?_ | with_reducible refine State.updCmd_ev ?_ ?_
    | with_reducible refine Evolves.foldl ?_ fun _ _ => ?_ | with_reducible apply Evolves.ite | split
    | with_reducible apply Evolves.upd

theorem State.passBarrier_ev {k : Bool} {l : List Area} {s0 s : State} {ref : CmdRef} (h : Evolves k l s0 s)
    (m : Area.subset [.cmds] l = true) : Evolves k l s0 (s.passBarrier ref) := by
  refine Evolves.after ?_ h m
  unfold State.passBarrier
  try dsimp only
  repeat'
    first
    | exact rfl | exact .inr rfl | exact .inl rfl | exact Nat.le_refl _ | exact Nat.le_add_right _ _ | exact .refl _ | exact fun h => h
    | with_reducible exact Evolves.refl _ _ | with_reducible refine State.markWritten_ev ?_ ?_
    | with_reducible refine Evolves.foldl ?_ fun _ _ => ?_ | with_reducible apply Evolves.ite | split
    | with_reducible apply Evolves.upd

theorem State.passBarriers_ev {k : Bool} {l : List Area} {s0 s : State} {x1 : Nat} (h : Evolves k l s0 s)
    (m : Area.subset [.cmds] l = true) : Evolves k l s0 (s.passBarriers x1) := by
  refine Evolves.after ?_ h m
  unfold State.passBarriers
  try dsimp only
  repeat'
    first
    | exact rfl | exact .inr rfl | exact .inl rfl | exact Nat.le_refl _ | exact Nat.le_add_right _ _ | exact .refl _ | exact fun h => h
    | with_reducible exact Evolves.refl _ _ | with_reducible refine State.passBarrier_ev ?_ ?_
    | with_reducible refine Evolves.foldl ?_ fun _ _ => ?_ | with_reducible apply Evolves.ite | split
    | with_reducible apply Evolves.upd

theorem State.finishCmd_ev {k : Bool} {l : List Area} {s0 s : State} {x1 : Cmd} (h : Evolves k l s0 s)
    (m : Area.subset [.pins, .hub, .funcs, .msix, .windows, .parts, .ctxs, .trans, .tlb, .fences, .fenceFreed, .fenceLower,
      .rings, .objs, .hbm, .chip, .pans, .units, .clusters, .power, .log, .secs, .cmds, .replays, .hzn, .svcs,
      .sessions, .xparts, .invals, .atsInvals] l = true) : Evolves k l s0 (s.finishCmd x1) := by
  refine Evolves.after ?_ h m
  unfold State.finishCmd
  try dsimp only
  repeat'
    first
    | exact rfl | exact .inr rfl | exact .inl rfl | exact Nat.le_refl _ | exact Nat.le_add_right _ _ | exact .refl _ | exact fun h => h | exact ⟨fun _ h => h, fun h => h⟩
    | with_reducible exact Evolves.refl _ _ | with_reducible refine State.sendSignal_ev ?_ ?_
    | with_reducible refine State.signalFence_ev ?_ ?_ | with_reducible refine State.unqueue_ev ?_ ?_
    | with_reducible refine State.dropCmds_ev ?_ ?_ | with_reducible refine State.passBarriers_ev ?_ ?_
    | with_reducible refine State.endRun_ev ?_ ?_ | with_reducible refine State.advanceRing_ev ?_ ?_
    | with_reducible refine Evolves.foldl ?_ fun _ _ => ?_ | with_reducible apply Evolves.ite | split
    | refine Evolves.of_fst (by assumption) ?_ | with_reducible apply Evolves.upd

theorem State.wake_ev {k : Bool} {l : List Area} {s0 s : State} {r : EvRec} (h : Evolves k l s0 s)
    (m : Area.subset [.pins, .hub, .funcs, .msix, .windows, .parts, .ctxs, .trans, .tlb, .fences, .fenceFreed, .fenceLower,
      .rings, .objs, .hbm, .chip, .pans, .units, .clusters, .power, .log, .secs, .cmds, .replays, .hzn, .svcs,
      .sessions, .xparts, .invals, .atsInvals] l = true) : Evolves k l s0 (s.wake r) := by
  refine Evolves.after ?_ h m
  unfold State.wake
  try dsimp only
  repeat'
    first
    | exact rfl | exact .inr rfl | exact .inl rfl | exact Nat.le_refl _ | exact Nat.le_add_right _ _ | exact .refl _ | exact fun h => h | exact ⟨fun _ h => h, fun h => h⟩
    | with_reducible exact Evolves.refl _ _ | with_reducible refine State.updRg_ev ?_ ?_
    | with_reducible refine State.finishCmd_ev ?_ ?_ | with_reducible refine Evolves.foldl ?_ fun _ _ => ?_
    | with_reducible apply Evolves.ite | split | with_reducible apply Evolves.upd

theorem State.drainCtx_ev {k : Bool} {l : List Area} {s0 s : State} {c : Nat} {fuel : Nat} (h : Evolves k l s0 s)
    (m : Area.subset [.pins, .hub, .funcs, .msix, .windows, .parts, .ctxs, .trans, .tlb, .fences, .fenceFreed, .fenceLower,
      .rings, .objs, .hbm, .chip, .pans, .units, .clusters, .power, .log, .secs, .cmds, .replays, .hzn, .svcs,
      .sessions, .xparts, .invals, .atsInvals] l = true) : Evolves k l s0 (s.drainCtx c fuel) := by
  refine Evolves.after ?_ h m
  clear h m
  induction fuel generalizing s c with
  | zero => exact .refl _ _
  | succ n ih =>
  unfold State.drainCtx
  try dsimp only
  repeat'
    first
    | with_reducible refine Evolves.trans ?_ ih
    | exact rfl | exact .inr rfl | exact .inl rfl | exact Nat.le_refl _ | exact Nat.le_add_right _ _ | exact .refl _ | exact fun h => h | exact ⟨fun _ h => h, fun h => h⟩
    | with_reducible exact Evolves.refl _ _ | with_reducible refine State.updCx_ev ?_ ?_
    | with_reducible refine State.putCtx_ev ?_ ?_ | with_reducible refine State.wake_ev ?_ ?_
    | with_reducible refine Evolves.foldl ?_ fun _ _ => ?_ | with_reducible apply Evolves.ite | split
    | with_reducible apply Evolves.upd

theorem State.dropWaiting_ev {k : Bool} {l : List Area} {s0 s : State} {c : Nat} (h : Evolves k l s0 s)
    (m : Area.subset [.pins, .hub, .funcs, .msix, .windows, .parts, .ctxs, .trans, .tlb, .fences, .fenceFreed, .fenceLower,
      .rings, .objs, .hbm, .chip, .pans, .units, .clusters, .power, .log, .secs, .cmds, .replays, .hzn, .svcs,
      .sessions, .xparts, .invals, .atsInvals] l = true) : Evolves k l s0 (s.dropWaiting c) := by
  refine Evolves.after ?_ h m
  unfold State.dropWaiting
  try dsimp only
  repeat'
    first
    | exact rfl | exact .inr rfl | exact .inl rfl | exact Nat.le_refl _ | exact Nat.le_add_right _ _ | exact .refl _ | exact fun h => h | exact ⟨fun _ h => h, fun h => h⟩
    | with_reducible exact Evolves.refl _ _ | with_reducible refine State.wake_ev ?_ ?_
    | with_reducible refine State.updCx_ev ?_ ?_ | with_reducible refine Evolves.foldl ?_ fun _ _ => ?_
    | with_reducible apply Evolves.ite | split | with_reducible apply Evolves.upd

theorem State.destroyCtx_ev {k : Bool} {l : List Area} {s0 s : State} {c : Nat} (h : Evolves k l s0 s)
    (m : Area.subset [.pins, .hub, .funcs, .msix, .windows, .parts, .ctxs, .trans, .tlb, .fences, .fenceFreed, .fenceLower,
      .rings, .objs, .hbm, .chip, .pans, .units, .clusters, .power, .log, .secs, .cmds, .replays, .hzn, .svcs,
      .sessions, .xparts, .invals, .atsInvals] l = true) : Evolves k l s0 (s.destroyCtx c) := by
  refine Evolves.after ?_ h m
  unfold State.destroyCtx
  try dsimp only
  repeat'
    first
    | exact rfl | exact .inr rfl | exact .inl rfl | exact Nat.le_refl _ | exact Nat.le_add_right _ _ | exact .refl _ | exact fun h => h | exact ⟨fun _ h => h, fun h => h⟩
    | with_reducible exact Evolves.refl _ _ | with_reducible refine State.updCx_ev ?_ ?_
    | with_reducible refine State.dropWaiting_ev ?_ ?_ | with_reducible refine State.settle_ev ?_ ?_
    | with_reducible refine State.stopCtx_ev ?_ ?_ | with_reducible refine Evolves.foldl ?_ fun _ _ => ?_
    | with_reducible apply Evolves.ite | split | with_reducible apply Evolves.upd

end Sys2Proof.Machine
end

