-- ==== Sys2Proof/Laws/Admin.lean ====
section
/-! SUPPORT. What each operation of Sys2Proof/Machine/Admin.lean may change, and how the state follows. -/

set_option Elab.async false
set_option linter.all false
namespace Sys2Proof.Machine

theorem State.takeAdmin_ev {k : Bool} {l : List Area} {s0 s : State} {f : Nat} (h : Evolves k l s0 s)
    (m : Area.subset [.pins, .funcs, .log] l = true) : Evolves k l s0 (s.takeAdmin f) := by
  refine Evolves.after ?_ h m
  unfold State.takeAdmin
  try dsimp only
  repeat'
    first
    | exact rfl | exact .inr rfl | exact .inl rfl | exact Nat.le_refl _ | exact Nat.le_add_right _ _ | exact .refl _ | exact fun h => h
    | with_reducible exact Evolves.refl _ _ | with_reducible refine State.updFn_ev ?_ ?_
    | with_reducible refine State.refreshFunc_ev ?_ ?_ | with_reducible refine State.postHost_ev ?_ ?_
    | with_reducible refine Evolves.foldl ?_ fun _ _ => ?_ | with_reducible apply Evolves.ite | split
    | with_reducible apply Evolves.upd

theorem State.runAdmin_ev {k : Bool} {l : List Area} {s0 s : State} {f op : Nat} {body : List Byte → State → AdminRes}
    (h : Evolves k l s0 s) (mt : Area.subset [.pins, .funcs, .log] l = true)
    (m : Area.subset [.pins, .funcs, .msix, .log] l = true) (hb : ∀ d t, (body d t).Evolves k l t) : Evolves k l s0 (s.runAdmin f op body) := by
  unfold State.runAdmin
  dsimp only
  have ht : Evolves k l s0 (s.takeAdmin f) := State.takeAdmin_ev h mt
  refine .ite h (.ite h (.ite (State.adminDone_ev ht m) (.ite (State.adminDone_ev ht m) ?_)))
  have hx := hb (s.adminDesc f) (s.takeAdmin f)
  split <;> rename_i hm <;> rw [hm] at hx <;> cases hx
  · exact State.adminDone_ev ht m
  · rename_i hx
    exact State.adminDone_ev (ht.trans hx) m
  · rename_i hx
    exact ht.trans hx

theorem opCtxCreate_ev {k : Bool} {l : List Area} {s : State} {f : Nat} {d : List Byte}
    (m : Area.subset [.funcs, .ctxs] l = true) : (opCtxCreate f d s).Evolves k l s := by
  refine AdminRes.Evolves.mono ?_ m
  unfold opCtxCreate
  try dsimp only
  repeat'
    first
    | exact rfl | exact .inr rfl | exact .inl rfl | exact Nat.le_refl _ | exact Nat.le_add_right _ _ | exact .refl _ | exact fun h => h
    | with_reducible exact Evolves.refl _ _ | with_reducible refine State.updFn_ev ?_ ?_
    | with_reducible refine Evolves.foldl ?_ fun _ _ => ?_ | with_reducible apply Evolves.ite
    | with_reducible exact AdminRes.Evolves.fail | with_reducible apply AdminRes.Evolves.done
    | with_reducible apply AdminRes.Evolves.later | with_reducible apply AdminRes.Evolves.ite | split
    | with_reducible apply Evolves.upd

theorem execCtxCreate_ev {k : Bool} {l : List Area} {s : State} {func : Nat}
    (m : Area.subset [.pins, .funcs, .msix, .ctxs, .log] l = true) : EvolvesOut k l s (execCtxCreate func s) := by
  refine EvolvesOut.mono ?_ m
  unfold execCtxCreate
  try dsimp only
  repeat'
    first
    | exact rfl | exact .inr rfl | exact .inl rfl | exact Nat.le_refl _ | exact Nat.le_add_right _ _ | exact .refl _ | exact fun h => h
    | with_reducible exact Evolves.refl _ _ | with_reducible refine State.runAdmin_ev ?_ ?_ ?_ fun _ _ => ?_
    | with_reducible refine opCtxCreate_ev ?_ | with_reducible refine Evolves.foldl ?_ fun _ _ => ?_
    | with_reducible apply Evolves.ite | with_reducible apply EvolvesOut.next | with_reducible exact EvolvesOut.fault
    | with_reducible apply EvolvesOut.ite | split | with_reducible apply Evolves.upd

theorem execCtxDestroy_ev {k : Bool} {l : List Area} {s : State} {func : Nat}
    (m : Area.subset [.pins, .hub, .funcs, .msix, .windows, .parts, .ctxs, .trans, .tlb, .fences, .fenceFreed, .fenceLower,
      .rings, .objs, .hbm, .chip, .pans, .units, .clusters, .power, .log, .secs, .cmds, .replays, .hzn, .svcs,
      .sessions, .xparts, .invals, .atsInvals] l = true) : EvolvesOut k l s (execCtxDestroy func s) := by
  refine EvolvesOut.mono ?_ m
  unfold execCtxDestroy
  try dsimp only
  repeat'
    first
    | exact rfl | exact .inr rfl | exact .inl rfl | exact Nat.le_refl _ | exact Nat.le_add_right _ _ | exact .refl _ | exact fun h => h | exact ⟨fun _ h => h, fun h => h⟩
    | with_reducible exact Evolves.refl _ _ | with_reducible refine State.runAdmin_ev ?_ ?_ ?_ fun _ _ => ?_
    | with_reducible refine State.destroyCtx_ev ?_ ?_ | with_reducible refine Evolves.foldl ?_ fun _ _ => ?_
    | with_reducible apply Evolves.ite | with_reducible apply EvolvesOut.next | with_reducible exact EvolvesOut.fault
    | with_reducible apply EvolvesOut.ite | with_reducible exact AdminRes.Evolves.fail
    | with_reducible apply AdminRes.Evolves.done | with_reducible apply AdminRes.Evolves.later
    | with_reducible apply AdminRes.Evolves.ite | split | with_reducible apply Evolves.upd

theorem opRingCreate_ev {k : Bool} {l : List Area} {s : State} {f : Nat} {d : List Byte}
    (m : Area.subset [.rings] l = true) : (opRingCreate f d s).Evolves k l s := by
  refine AdminRes.Evolves.mono ?_ m
  unfold opRingCreate
  try dsimp only
  repeat'
    first
    | exact rfl | exact .inr rfl | exact .inl rfl | exact Nat.le_refl _ | exact Nat.le_add_right _ _ | exact .refl _ | exact fun h => h
    | with_reducible exact Evolves.refl _ _ | with_reducible refine Evolves.foldl ?_ fun _ _ => ?_
    | with_reducible apply Evolves.ite | with_reducible exact AdminRes.Evolves.fail
    | with_reducible apply AdminRes.Evolves.done | with_reducible apply AdminRes.Evolves.later
    | with_reducible apply AdminRes.Evolves.ite | split | with_reducible apply Evolves.upd

theorem execRingCreate_ev {k : Bool} {l : List Area} {s : State} {func : Nat}
    (m : Area.subset [.pins, .funcs, .msix, .rings, .log] l = true) : EvolvesOut k l s (execRingCreate func s) := by
  refine EvolvesOut.mono ?_ m
  unfold execRingCreate
  try dsimp only
  repeat'
    first
    | exact rfl | exact .inr rfl | exact .inl rfl | exact Nat.le_refl _ | exact Nat.le_add_right _ _ | exact .refl _ | exact fun h => h
    | with_reducible exact Evolves.refl _ _ | with_reducible refine State.runAdmin_ev ?_ ?_ ?_ fun _ _ => ?_
    | with_reducible refine opRingCreate_ev ?_ | with_reducible refine Evolves.foldl ?_ fun _ _ => ?_
    | with_reducible apply Evolves.ite | with_reducible apply EvolvesOut.next | with_reducible exact EvolvesOut.fault
    | with_reducible apply EvolvesOut.ite | split | with_reducible apply Evolves.upd

theorem State.endReplay_ev {k : Bool} {l : List Area} {s0 s : State} {r : Nat} (h : Evolves k l s0 s)
    (m : Area.subset [.windows, .parts, .pans, .units, .clusters, .secs, .cmds, .replays, .svcs, .xparts, .atsInvals] l = true) : Evolves k l s0 (s.endReplay r) := by
  refine Evolves.after ?_ h m
  unfold State.endReplay
  try dsimp only
  repeat'
    first
    | exact rfl | exact .inr rfl | exact .inl rfl | exact Nat.le_refl _ | exact Nat.le_add_right _ _ | exact .refl _ | exact fun h => h
    | with_reducible exact Evolves.refl _ _ | with_reducible refine State.kill_ev ?_ ?_
    | with_reducible refine State.endLc_ev ?_ ?_ | with_reducible refine State.updSec_ev ?_ ?_
    | with_reducible refine Evolves.foldl ?_ fun _ _ => ?_ | with_reducible apply Evolves.ite | split
    | with_reducible apply Evolves.upd

theorem opRingDestroy_ev {k : Bool} {l : List Area} {s : State} {d : List Byte}
    (m : Area.subset [.windows, .parts, .ctxs, .rings, .pans, .units, .clusters, .secs, .cmds, .replays, .svcs, .xparts,
      .atsInvals] l = true) : (opRingDestroy d s).Evolves k l s := by
  refine AdminRes.Evolves.mono ?_ m
  unfold opRingDestroy
  try dsimp only
  repeat'
    first
    | exact rfl | exact .inr rfl | exact .inl rfl | exact Nat.le_refl _ | exact Nat.le_add_right _ _ | exact .refl _ | exact fun h => h
    | with_reducible exact Evolves.refl _ _ | with_reducible refine State.kill_ev ?_ ?_
    | with_reducible refine State.endReplay_ev ?_ ?_ | with_reducible refine State.dropCmds_ev ?_ ?_
    | with_reducible refine State.updCx_ev ?_ ?_ | with_reducible refine Evolves.foldl ?_ fun _ _ => ?_
    | with_reducible apply Evolves.ite | with_reducible exact AdminRes.Evolves.fail
    | with_reducible apply AdminRes.Evolves.done | with_reducible apply AdminRes.Evolves.later
    | with_reducible apply AdminRes.Evolves.ite | split | with_reducible apply Evolves.upd

theorem execRingDestroy_ev {k : Bool} {l : List Area} {s : State} {func : Nat}
    (m : Area.subset [.pins, .funcs, .msix, .windows, .parts, .ctxs, .rings, .pans, .units, .clusters, .log, .secs, .cmds,
      .replays, .svcs, .xparts, .atsInvals] l = true) : EvolvesOut k l s (execRingDestroy func s) := by
  refine EvolvesOut.mono ?_ m
  unfold execRingDestroy
  try dsimp only
  repeat'
    first
    | exact rfl | exact .inr rfl | exact .inl rfl | exact Nat.le_refl _ | exact Nat.le_add_right _ _ | exact .refl _ | exact fun h => h
    | with_reducible exact Evolves.refl _ _ | with_reducible refine State.runAdmin_ev ?_ ?_ ?_ fun _ _ => ?_
    | with_reducible refine opRingDestroy_ev ?_ | with_reducible refine Evolves.foldl ?_ fun _ _ => ?_
    | with_reducible apply Evolves.ite | with_reducible apply EvolvesOut.next | with_reducible exact EvolvesOut.fault
    | with_reducible apply EvolvesOut.ite | split | with_reducible apply Evolves.upd

theorem State.nextFence_ev {k : Bool} {s t : State} {i : Nat} (h : s.nextFence = some (i, t)) :
    Evolves k [.fenceFresh, .fenceFreed] s t := by
  revert h
  unfold State.nextFence
  repeat' split
  all_goals intro h
  all_goals first | (cases h; done) | skip
  all_goals
    simp only [Option.some.injEq, Prod.mk.injEq] at h
    obtain ⟨-, rfl⟩ := h
    apply (Evolves.refl _ s).upd <;>
      first | exact .inr rfl | exact .inl rfl | exact Nat.le_refl _ | exact .refl _ | exact fun h => h

theorem opFenceCreate_ev {k : Bool} {l : List Area} {s : State} {d : List Byte}
    (m : Area.subset [.fences, .fenceFresh, .fenceFreed] l = true) : (opFenceCreate d s).Evolves k l s := by
  refine AdminRes.Evolves.mono ?_ m
  unfold opFenceCreate
  try dsimp only
  repeat'
    first
    | exact rfl | exact .inr rfl | exact .inl rfl | exact Nat.le_refl _ | exact Nat.le_add_right _ _ | exact .refl _ | exact fun h => h
    | with_reducible exact Evolves.refl _ _ | refine (State.nextFence_ev (by assumption)).after ?_ ?_
    | with_reducible refine State.updFe_ev ?_ ?_ | with_reducible refine State.mirrorFence_ev ?_ ?_
    | with_reducible refine Evolves.foldl ?_ fun _ _ => ?_ | with_reducible apply Evolves.ite
    | with_reducible exact AdminRes.Evolves.fail | with_reducible apply AdminRes.Evolves.done
    | with_reducible apply AdminRes.Evolves.later | with_reducible apply AdminRes.Evolves.ite | split
    | with_reducible apply Evolves.upd

theorem execFenceCreate_ev {k : Bool} {l : List Area} {s : State} {func : Nat}
    (m : Area.subset [.pins, .funcs, .msix, .fences, .fenceFresh, .fenceFreed, .log] l = true) : EvolvesOut k l s (execFenceCreate func s) := by
  refine EvolvesOut.mono ?_ m
  unfold execFenceCreate
  try dsimp only
  repeat'
    first
    | exact rfl | exact .inr rfl | exact .inl rfl | exact Nat.le_refl _ | exact Nat.le_add_right _ _ | exact .refl _ | exact fun h => h
    | with_reducible exact Evolves.refl _ _ | with_reducible refine State.runAdmin_ev ?_ ?_ ?_ fun _ _ => ?_
    | with_reducible refine opFenceCreate_ev ?_ | with_reducible refine Evolves.foldl ?_ fun _ _ => ?_
    | with_reducible apply Evolves.ite | with_reducible apply EvolvesOut.next | with_reducible exact EvolvesOut.fault
    | with_reducible apply EvolvesOut.ite | split | with_reducible apply Evolves.upd

theorem opFenceShare_ev {k : Bool} {l : List Area} {s : State} {d : List Byte}
    (m : Area.subset [.fences] l = true) : (opFenceShare d s).Evolves k l s := by
  refine AdminRes.Evolves.mono ?_ m
  unfold opFenceShare
  try dsimp only
  repeat'
    first
    | exact rfl | exact .inr rfl | exact .inl rfl | exact Nat.le_refl _ | exact Nat.le_add_right _ _ | exact .refl _ | exact fun h => h
    | with_reducible exact Evolves.refl _ _ | with_reducible refine State.updFe_ev ?_ ?_
    | with_reducible refine Evolves.foldl ?_ fun _ _ => ?_ | with_reducible apply Evolves.ite
    | with_reducible exact AdminRes.Evolves.fail | with_reducible apply AdminRes.Evolves.done
    | with_reducible apply AdminRes.Evolves.later | with_reducible apply AdminRes.Evolves.ite | split
    | with_reducible apply Evolves.upd

theorem execFenceShare_ev {k : Bool} {l : List Area} {s : State} {func : Nat}
    (m : Area.subset [.pins, .funcs, .msix, .fences, .log] l = true) : EvolvesOut k l s (execFenceShare func s) := by
  refine EvolvesOut.mono ?_ m
  unfold execFenceShare
  try dsimp only
  repeat'
    first
    | exact rfl | exact .inr rfl | exact .inl rfl | exact Nat.le_refl _ | exact Nat.le_add_right _ _ | exact .refl _ | exact fun h => h
    | with_reducible exact Evolves.refl _ _ | with_reducible refine State.runAdmin_ev ?_ ?_ ?_ fun _ _ => ?_
    | with_reducible refine opFenceShare_ev ?_ | with_reducible refine Evolves.foldl ?_ fun _ _ => ?_
    | with_reducible apply Evolves.ite | with_reducible apply EvolvesOut.next | with_reducible exact EvolvesOut.fault
    | with_reducible apply EvolvesOut.ite | split | with_reducible apply Evolves.upd

theorem opFenceRelease_ev {k : Bool} {l : List Area} {s : State} {d : List Byte}
    (m : Area.subset [.fences, .fenceFreed, .cmds] l = true) : (opFenceRelease d s).Evolves k l s := by
  refine AdminRes.Evolves.mono ?_ m
  unfold opFenceRelease
  try dsimp only
  repeat'
    first
    | exact rfl | exact .inr rfl | exact .inl rfl | exact Nat.le_refl _ | exact Nat.le_add_right _ _ | exact .refl _ | exact fun h => h
    | with_reducible exact Evolves.refl _ _ | with_reducible refine State.abandonFence_ev ?_ ?_
    | with_reducible refine State.unshareFence_ev ?_ ?_ | with_reducible refine Evolves.foldl ?_ fun _ _ => ?_
    | with_reducible apply Evolves.ite | with_reducible exact AdminRes.Evolves.fail
    | with_reducible apply AdminRes.Evolves.done | with_reducible apply AdminRes.Evolves.later
    | with_reducible apply AdminRes.Evolves.ite | split | with_reducible apply Evolves.upd

theorem execFenceRelease_ev {k : Bool} {l : List Area} {s : State} {func : Nat}
    (m : Area.subset [.pins, .funcs, .msix, .fences, .fenceFreed, .log, .cmds] l = true) : EvolvesOut k l s (execFenceRelease func s) := by
  refine EvolvesOut.mono ?_ m
  unfold execFenceRelease
  try dsimp only
  repeat'
    first
    | exact rfl | exact .inr rfl | exact .inl rfl | exact Nat.le_refl _ | exact Nat.le_add_right _ _ | exact .refl _ | exact fun h => h
    | with_reducible exact Evolves.refl _ _ | with_reducible refine State.runAdmin_ev ?_ ?_ ?_ fun _ _ => ?_
    | with_reducible refine opFenceRelease_ev ?_ | with_reducible refine Evolves.foldl ?_ fun _ _ => ?_
    | with_reducible apply Evolves.ite | with_reducible apply EvolvesOut.next | with_reducible exact EvolvesOut.fault
    | with_reducible apply EvolvesOut.ite | split | with_reducible apply Evolves.upd

theorem opFenceSignal_ev {k : Bool} {l : List Area} {s : State} {f : Nat} {d : List Byte}
    (m : Area.subset [.pins, .funcs, .fences, .fenceLower, .log, .cmds] l = true) : (opFenceSignal f d s).Evolves k l s := by
  refine AdminRes.Evolves.mono ?_ m
  unfold opFenceSignal
  try dsimp only
  repeat'
    first
    | exact rfl | exact .inr rfl | exact .inl rfl | exact Nat.le_refl _ | exact Nat.le_add_right _ _ | exact .refl _ | exact fun h => h
    | with_reducible exact Evolves.refl _ _ | with_reducible refine State.signalFence_ev ?_ ?_
    | with_reducible refine State.viol_ev ?_ ?_ | with_reducible refine Evolves.foldl ?_ fun _ _ => ?_
    | with_reducible apply Evolves.ite | with_reducible exact AdminRes.Evolves.fail
    | with_reducible apply AdminRes.Evolves.done | with_reducible apply AdminRes.Evolves.later
    | with_reducible apply AdminRes.Evolves.ite | split | refine Evolves.of_fst (by assumption) ?_
    | with_reducible apply Evolves.upd

theorem execFenceSignal_ev {k : Bool} {l : List Area} {s : State} {func : Nat}
    (m : Area.subset [.pins, .funcs, .msix, .fences, .fenceLower, .log, .cmds] l = true) : EvolvesOut k l s (execFenceSignal func s) := by
  refine EvolvesOut.mono ?_ m
  unfold execFenceSignal
  try dsimp only
  repeat'
    first
    | exact rfl | exact .inr rfl | exact .inl rfl | exact Nat.le_refl _ | exact Nat.le_add_right _ _ | exact .refl _ | exact fun h => h
    | with_reducible exact Evolves.refl _ _ | with_reducible refine State.runAdmin_ev ?_ ?_ ?_ fun _ _ => ?_
    | with_reducible refine opFenceSignal_ev ?_ | with_reducible refine Evolves.foldl ?_ fun _ _ => ?_
    | with_reducible apply Evolves.ite | with_reducible apply EvolvesOut.next | with_reducible exact EvolvesOut.fault
    | with_reducible apply EvolvesOut.ite | split | with_reducible apply Evolves.upd

theorem opObjCreate_ev {k : Bool} {l : List Area} {s : State} {f : Nat} {d : List Byte}
    (m : Area.subset [.funcs, .trans, .objs, .nextObj, .hbm] l = true) : (opObjCreate f d s).Evolves k l s := by
  refine AdminRes.Evolves.mono ?_ m
  unfold opObjCreate
  try dsimp only
  repeat'
    first
    | exact rfl | exact .inr rfl | exact .inl rfl | exact Nat.le_refl _ | exact Nat.le_add_right _ _ | exact .refl _ | exact fun h => h
    | with_reducible exact Evolves.refl _ _ | with_reducible refine State.moveSubs_ev ?_ ?_
    | with_reducible refine (State.makeTables_ev (by assumption)).after ?_ ?_
    | with_reducible refine State.updOb_ev ?_ ?_ | with_reducible refine State.updFn_ev ?_ ?_
    | with_reducible refine Evolves.foldl ?_ fun _ _ => ?_ | with_reducible apply Evolves.ite
    | with_reducible exact AdminRes.Evolves.fail | with_reducible apply AdminRes.Evolves.done
    | with_reducible apply AdminRes.Evolves.later | with_reducible apply AdminRes.Evolves.ite | split
    | with_reducible apply Evolves.upd

theorem execObjCreate_ev {k : Bool} {l : List Area} {s : State} {func : Nat}
    (m : Area.subset [.pins, .funcs, .msix, .trans, .objs, .nextObj, .hbm, .log] l = true) : EvolvesOut k l s (execObjCreate func s) := by
  refine EvolvesOut.mono ?_ m
  unfold execObjCreate
  try dsimp only
  repeat'
    first
    | exact rfl | exact .inr rfl | exact .inl rfl | exact Nat.le_refl _ | exact Nat.le_add_right _ _ | exact .refl _ | exact fun h => h
    | with_reducible exact Evolves.refl _ _ | with_reducible refine State.runAdmin_ev ?_ ?_ ?_ fun _ _ => ?_
    | with_reducible refine opObjCreate_ev ?_ | with_reducible refine Evolves.foldl ?_ fun _ _ => ?_
    | with_reducible apply Evolves.ite | with_reducible apply EvolvesOut.next | with_reducible exact EvolvesOut.fault
    | with_reducible apply EvolvesOut.ite | split | with_reducible apply Evolves.upd

theorem State.mapObj_ev {k : Bool} {l : List Area} {s0 s : State} {x1 : Nat} {c : Nat} {va : Nat} {w : Bool} (h : Evolves k l s0 s)
    (m : Area.subset [.hbm] l = true) : Evolves k l s0 (s.mapObj x1 c va w) := by
  refine Evolves.after ?_ h m
  unfold State.mapObj
  try dsimp only
  repeat'
    first
    | exact rfl | exact .inr rfl | exact .inl rfl | exact Nat.le_refl _ | exact Nat.le_add_right _ _ | exact .refl _ | exact fun h => h
    | with_reducible exact Evolves.refl _ _ | with_reducible refine State.addLeaves_ev ?_ ?_
    | with_reducible refine Evolves.foldl ?_ fun _ _ => ?_ | with_reducible apply Evolves.ite | split
    | with_reducible apply Evolves.upd

theorem execSubpageTaggingComplete_ev {k : Bool} {l : List Area} {s : State} {stack : Nat} {sub : Nat}
    (m : Area.subset [.pins, .funcs, .msix, .hbm, .log] l = true) : EvolvesOut k l s (execSubpageTaggingComplete stack sub s) := by
  refine EvolvesOut.mono ?_ m
  unfold execSubpageTaggingComplete
  try dsimp only
  repeat'
    first
    | exact rfl | exact .inr rfl | exact .inl rfl | exact Nat.le_refl _ | exact Nat.le_add_right _ _ | exact .refl _ | exact fun h => h
    | with_reducible exact Evolves.refl _ _ | with_reducible refine State.setDir_ev ?_ ?_
    | with_reducible refine State.zeroSub_ev ?_ ?_ | with_reducible refine State.mapObj_ev ?_ ?_
    | with_reducible refine State.adminDone_ev ?_ ?_ | with_reducible refine Evolves.foldl ?_ fun _ _ => ?_
    | with_reducible apply Evolves.ite | with_reducible apply EvolvesOut.next | with_reducible exact EvolvesOut.fault
    | with_reducible apply EvolvesOut.ite | split | with_reducible apply Evolves.upd

theorem execSubpageZeroingComplete_ev {k : Bool} {l : List Area} {s : State} {stack : Nat} {sub : Nat} {passed : Bool}
    (m : Area.subset [.hbm] l = true) : EvolvesOut k l s (execSubpageZeroingComplete stack sub passed s) := by
  refine EvolvesOut.mono ?_ m
  unfold execSubpageZeroingComplete
  try dsimp only
  repeat'
    first
    | exact rfl | exact .inr rfl | exact .inl rfl | exact Nat.le_refl _ | exact Nat.le_add_right _ _ | exact .refl _ | exact fun h => h
    | with_reducible exact Evolves.refl _ _ | with_reducible refine State.setDir_ev ?_ ?_
    | with_reducible refine State.zeroSub_ev ?_ ?_ | with_reducible refine Evolves.foldl ?_ fun _ _ => ?_
    | with_reducible apply Evolves.ite | with_reducible apply EvolvesOut.next | with_reducible exact EvolvesOut.fault
    | with_reducible apply EvolvesOut.ite | split | with_reducible apply Evolves.upd

theorem opObjMapHost_ev {k : Bool} {l : List Area} {s : State} {f : Nat} {d : List Byte}
    (m : Area.subset [.trans, .objs, .nextObj, .hbm] l = true) : (opObjMapHost f d s).Evolves k l s := by
  refine AdminRes.Evolves.mono ?_ m
  unfold opObjMapHost
  try dsimp only
  repeat'
    first
    | exact rfl | exact .inr rfl | exact .inl rfl | exact Nat.le_refl _ | exact Nat.le_add_right _ _ | exact .refl _ | exact fun h => h
    | with_reducible exact Evolves.refl _ _ | with_reducible refine (State.makeTables_ev (by assumption)).after ?_ ?_
    | with_reducible refine State.updOb_ev ?_ ?_ | with_reducible refine State.mapObj_ev ?_ ?_
    | with_reducible refine Evolves.foldl ?_ fun _ _ => ?_ | with_reducible apply Evolves.ite
    | with_reducible exact AdminRes.Evolves.fail | with_reducible apply AdminRes.Evolves.done
    | with_reducible apply AdminRes.Evolves.later | with_reducible apply AdminRes.Evolves.ite | split
    | with_reducible apply Evolves.upd

theorem execObjMapHost_ev {k : Bool} {l : List Area} {s : State} {func : Nat}
    (m : Area.subset [.pins, .funcs, .msix, .trans, .objs, .nextObj, .hbm, .log] l = true) : EvolvesOut k l s (execObjMapHost func s) := by
  refine EvolvesOut.mono ?_ m
  unfold execObjMapHost
  try dsimp only
  repeat'
    first
    | exact rfl | exact .inr rfl | exact .inl rfl | exact Nat.le_refl _ | exact Nat.le_add_right _ _ | exact .refl _ | exact fun h => h
    | with_reducible exact Evolves.refl _ _ | with_reducible refine State.runAdmin_ev ?_ ?_ ?_ fun _ _ => ?_
    | with_reducible refine opObjMapHost_ev ?_ | with_reducible refine Evolves.foldl ?_ fun _ _ => ?_
    | with_reducible apply Evolves.ite | with_reducible apply EvolvesOut.next | with_reducible exact EvolvesOut.fault
    | with_reducible apply EvolvesOut.ite | split | with_reducible apply Evolves.upd

theorem State.objUnmap_ev {k : Bool} {l : List Area} {s0 s : State} {f : Nat} (h : Evolves k l s0 s)
    (m : Area.subset [.pins, .funcs, .msix, .objs, .log, .invals] l = true) : Evolves k l s0 (s.objUnmap f) := by
  refine Evolves.after ?_ h m
  unfold State.objUnmap
  try dsimp only
  repeat'
    first
    | exact rfl | exact .inr rfl | exact .inl rfl | exact Nat.le_refl _ | exact Nat.le_add_right _ _ | exact .refl _ | exact fun h => h
    | with_reducible exact Evolves.refl _ _ | with_reducible refine State.runAdmin_ev ?_ ?_ ?_ fun _ _ => ?_
    | with_reducible refine State.updOb_ev ?_ ?_ | with_reducible refine State.adminDone_ev ?_ ?_
    | with_reducible refine State.updFn_ev ?_ ?_ | with_reducible refine State.announce_ev ?_ ?_
    | with_reducible refine Evolves.foldl ?_ fun _ _ => ?_ | with_reducible apply Evolves.ite
    | with_reducible exact AdminRes.Evolves.fail | with_reducible apply AdminRes.Evolves.done
    | with_reducible apply AdminRes.Evolves.later | with_reducible apply AdminRes.Evolves.ite | split
    | with_reducible apply Evolves.upd

theorem execObjUnmap_ev {k : Bool} {l : List Area} {s : State} {func : Nat}
    (m : Area.subset [.pins, .funcs, .msix, .objs, .log, .invals] l = true) : EvolvesOut k l s (execObjUnmap func s) := by
  refine EvolvesOut.mono ?_ m
  unfold execObjUnmap
  try dsimp only
  repeat'
    first
    | exact rfl | exact .inr rfl | exact .inl rfl | exact Nat.le_refl _ | exact Nat.le_add_right _ _ | exact .refl _ | exact fun h => h
    | with_reducible exact Evolves.refl _ _ | with_reducible refine State.objUnmap_ev ?_ ?_
    | with_reducible refine Evolves.foldl ?_ fun _ _ => ?_ | with_reducible apply Evolves.ite
    | with_reducible apply EvolvesOut.next | with_reducible exact EvolvesOut.fault
    | with_reducible apply EvolvesOut.ite | split | with_reducible apply Evolves.upd

theorem execTranslationInvalidationComplete_ev {k : Bool} {l : List Area} {s : State} {ctx : Nat} {va : Nat}
    (m : Area.subset [.pins, .funcs, .msix, .ctxs, .trans, .tlb, .objs, .hbm, .chip, .log, .invals] l = true) : EvolvesOut k l s (execTranslationInvalidationComplete ctx va s) := by
  refine EvolvesOut.mono ?_ m
  unfold execTranslationInvalidationComplete
  try dsimp only
  repeat'
    first
    | exact rfl | exact .inr rfl | exact .inl rfl | exact Nat.le_refl _ | exact Nat.le_add_right _ _ | exact .refl _ | exact fun h => h
    | with_reducible exact Evolves.refl _ _ | with_reducible refine State.flushTlb_ev ?_ ?_
    | with_reducible refine State.dropLeaves_ev ?_ ?_ | with_reducible refine State.updOb_ev ?_ ?_
    | with_reducible refine State.freeObj_ev ?_ ?_ | with_reducible refine State.adminDone_ev ?_ ?_
    | with_reducible refine State.finishDestroy_ev ?_ ?_ | with_reducible refine Evolves.foldl ?_ fun _ _ => ?_
    | with_reducible apply Evolves.ite | with_reducible apply EvolvesOut.next | with_reducible exact EvolvesOut.fault
    | with_reducible apply EvolvesOut.ite | split | with_reducible apply Evolves.upd

theorem opObjExport_ev {k : Bool} {l : List Area} {s : State} {f : Nat} {d : List Byte}
    (m : Area.subset [.objs] l = true) : (opObjExport f d s).Evolves k l s := by
  refine AdminRes.Evolves.mono ?_ m
  unfold opObjExport
  try dsimp only
  repeat'
    first
    | exact rfl | exact .inr rfl | exact .inl rfl | exact Nat.le_refl _ | exact Nat.le_add_right _ _ | exact .refl _ | exact fun h => h
    | with_reducible exact Evolves.refl _ _ | with_reducible refine State.updOb_ev ?_ ?_
    | with_reducible refine Evolves.foldl ?_ fun _ _ => ?_ | with_reducible apply Evolves.ite
    | with_reducible exact AdminRes.Evolves.fail | with_reducible apply AdminRes.Evolves.done
    | with_reducible apply AdminRes.Evolves.later | with_reducible apply AdminRes.Evolves.ite | split
    | with_reducible apply Evolves.upd

theorem execObjExport_ev {k : Bool} {l : List Area} {s : State} {func : Nat}
    (m : Area.subset [.pins, .funcs, .msix, .objs, .log] l = true) : EvolvesOut k l s (execObjExport func s) := by
  refine EvolvesOut.mono ?_ m
  unfold execObjExport
  try dsimp only
  repeat'
    first
    | exact rfl | exact .inr rfl | exact .inl rfl | exact Nat.le_refl _ | exact Nat.le_add_right _ _ | exact .refl _ | exact fun h => h
    | with_reducible exact Evolves.refl _ _ | with_reducible refine State.runAdmin_ev ?_ ?_ ?_ fun _ _ => ?_
    | with_reducible refine opObjExport_ev ?_ | with_reducible refine Evolves.foldl ?_ fun _ _ => ?_
    | with_reducible apply Evolves.ite | with_reducible apply EvolvesOut.next | with_reducible exact EvolvesOut.fault
    | with_reducible apply EvolvesOut.ite | split | with_reducible apply Evolves.upd

theorem opObjImport_ev {k : Bool} {l : List Area} {s : State} {d : List Byte}
    (m : Area.subset [.trans, .objs, .hbm] l = true) : (opObjImport d s).Evolves k l s := by
  refine AdminRes.Evolves.mono ?_ m
  unfold opObjImport
  try dsimp only
  repeat'
    first
    | exact rfl | exact .inr rfl | exact .inl rfl | exact Nat.le_refl _ | exact Nat.le_add_right _ _ | exact .refl _ | exact fun h => h
    | with_reducible exact Evolves.refl _ _ | with_reducible refine (State.makeTables_ev (by assumption)).after ?_ ?_
    | with_reducible refine State.updOb_ev ?_ ?_ | with_reducible refine State.mapObj_ev ?_ ?_
    | with_reducible refine Evolves.foldl ?_ fun _ _ => ?_ | with_reducible apply Evolves.ite
    | with_reducible exact AdminRes.Evolves.fail | with_reducible apply AdminRes.Evolves.done
    | with_reducible apply AdminRes.Evolves.later | with_reducible apply AdminRes.Evolves.ite | split
    | with_reducible apply Evolves.upd

theorem execObjImport_ev {k : Bool} {l : List Area} {s : State} {func : Nat}
    (m : Area.subset [.pins, .funcs, .msix, .trans, .objs, .hbm, .log] l = true) : EvolvesOut k l s (execObjImport func s) := by
  refine EvolvesOut.mono ?_ m
  unfold execObjImport
  try dsimp only
  repeat'
    first
    | exact rfl | exact .inr rfl | exact .inl rfl | exact Nat.le_refl _ | exact Nat.le_add_right _ _ | exact .refl _ | exact fun h => h
    | with_reducible exact Evolves.refl _ _ | with_reducible refine State.runAdmin_ev ?_ ?_ ?_ fun _ _ => ?_
    | with_reducible refine opObjImport_ev ?_ | with_reducible refine Evolves.foldl ?_ fun _ _ => ?_
    | with_reducible apply Evolves.ite | with_reducible apply EvolvesOut.next | with_reducible exact EvolvesOut.fault
    | with_reducible apply EvolvesOut.ite | split | with_reducible apply Evolves.upd

theorem opObjWithdraw_ev {k : Bool} {l : List Area} {s : State} {d : List Byte}
    (m : Area.subset [.objs] l = true) : (opObjWithdraw d s).Evolves k l s := by
  refine AdminRes.Evolves.mono ?_ m
  unfold opObjWithdraw
  try dsimp only
  repeat'
    first
    | exact rfl | exact .inr rfl | exact .inl rfl | exact Nat.le_refl _ | exact Nat.le_add_right _ _ | exact .refl _ | exact fun h => h
    | with_reducible exact Evolves.refl _ _ | with_reducible refine State.updOb_ev ?_ ?_
    | with_reducible refine Evolves.foldl ?_ fun _ _ => ?_ | with_reducible apply Evolves.ite
    | with_reducible exact AdminRes.Evolves.fail | with_reducible apply AdminRes.Evolves.done
    | with_reducible apply AdminRes.Evolves.later | with_reducible apply AdminRes.Evolves.ite | split
    | with_reducible apply Evolves.upd

theorem execObjWithdraw_ev {k : Bool} {l : List Area} {s : State} {func : Nat}
    (m : Area.subset [.pins, .funcs, .msix, .objs, .log] l = true) : EvolvesOut k l s (execObjWithdraw func s) := by
  refine EvolvesOut.mono ?_ m
  unfold execObjWithdraw
  try dsimp only
  repeat'
    first
    | exact rfl | exact .inr rfl | exact .inl rfl | exact Nat.le_refl _ | exact Nat.le_add_right _ _ | exact .refl _ | exact fun h => h
    | with_reducible exact Evolves.refl _ _ | with_reducible refine State.runAdmin_ev ?_ ?_ ?_ fun _ _ => ?_
    | with_reducible refine opObjWithdraw_ev ?_ | with_reducible refine Evolves.foldl ?_ fun _ _ => ?_
    | with_reducible apply Evolves.ite | with_reducible apply EvolvesOut.next | with_reducible exact EvolvesOut.fault
    | with_reducible apply EvolvesOut.ite | split | with_reducible apply Evolves.upd

theorem execScrubRead_ev {k : Bool} {l : List Area} {s : State} {stack : Nat} {line : Nat}
    (m : Area.subset [.pins, .hub, .funcs, .msix, .windows, .parts, .ctxs, .trans, .tlb, .fences, .fenceFreed, .fenceLower,
      .rings, .objs, .hbm, .chip, .pans, .units, .clusters, .power, .log, .secs, .cmds, .replays, .hzn, .svcs,
      .sessions, .xparts, .invals, .atsInvals] l = true) : EvolvesOut k l s (execScrubRead stack line s) := by
  refine EvolvesOut.mono ?_ m
  unfold execScrubRead
  try dsimp only
  repeat'
    first
    | exact rfl | exact .inr rfl | exact .inl rfl | exact Nat.le_refl _ | exact Nat.le_add_right _ _ | exact .refl _ | exact fun h => h | exact ⟨fun _ h => h, fun h => h⟩
    | with_reducible exact Evolves.refl _ _ | with_reducible refine State.noteScrub_ev ?_ ?_
    | with_reducible refine State.fetchLine_ev ?_ ?_ | with_reducible refine State.loseCtx_ev ?_ ?_
    | with_reducible refine State.uncorrectable_ev ?_ ?_ | with_reducible refine State.correctLine_ev ?_ ?_
    | with_reducible refine Evolves.foldl ?_ fun _ _ => ?_ | with_reducible apply Evolves.ite
    | with_reducible apply EvolvesOut.next | with_reducible exact EvolvesOut.fault
    | with_reducible apply EvolvesOut.ite | split | refine Evolves.of_snd (by assumption) ?_
    | with_reducible apply Evolves.upd

theorem execPageZeroingComplete_ev {k : Bool} {l : List Area} {s : State} {res : Bool} {page : Nat} {passed : Bool}
    (m : Area.subset [.pins, .funcs, .msix, .ctxs, .trans, .hbm, .chip, .log] l = true) : EvolvesOut k l s (execPageZeroingComplete res page passed s) := by
  refine EvolvesOut.mono ?_ m
  unfold execPageZeroingComplete
  try dsimp only
  repeat'
    first
    | exact rfl | exact .inr rfl | exact .inl rfl | exact Nat.le_refl _ | exact Nat.le_add_right _ _ | exact .refl _ | exact fun h => h
    | with_reducible exact Evolves.refl _ _ | with_reducible refine State.finishDestroy_ev ?_ ?_
    | with_reducible refine Evolves.foldl ?_ fun _ _ => ?_ | with_reducible apply Evolves.ite
    | with_reducible apply EvolvesOut.next | with_reducible exact EvolvesOut.fault
    | with_reducible apply EvolvesOut.ite | exact fun h => ⟨h.1, Mem.filter_wf _ h.2⟩
    | exact fun h => ⟨Mem.filter_wf _ h.1, h.2⟩ | split | with_reducible apply Evolves.upd

end Sys2Proof.Machine
end

