-- ==== Sys2Proof/Machine/Cells.lean ====
section
/-! DEFINITION. The logic cells and RAM blocks of an extension-fabric part (R440, R441): what one computes from its settings, its inputs
and its contents. The bits of a configuration frame that set them are those of the integration specification's frame map (R442), which
the manual does not hold, so that no command runs a soft design (log entry 84). The carry stage's function is not given either. -/

namespace Sys2Proof.Machine

/-! ### Logic cells (R440) -/

/-- The inputs of a cell: A is bit 0, F bit 5. -/
abbrev CellIn := BitVec 6

/-- What a flip-flop loads: a LUT output (the full one, or the flip-flop's own split output), its direct input (E for FA, F for FB), or
for FB the group selector. -/
inductive FfSrc where
  | lut | direct | selector
deriving DecidableEq, Repr

/-- The settings of a cell: its truth table, split or not, the sources of FA and FB, the tree of its clock, the reset values and
whether reset is asynchronous, and the initial values of the image. -/
structure CellCfg where
  lut : BitVec 64 := 0
  split : Bool := false
  srcA : FfSrc := .lut
  srcB : FfSrc := .lut
  tree : Bool := false
  resetA : Bool := false
  resetB : Bool := false
  async : Bool := false
  initA : Bool := false
  initB : Bool := false
deriving DecidableEq, Repr

/-- The full output of a 6-input LUT. -/
def CellCfg.full (c : CellCfg) (i : CellIn) : Bool := c.lut.getLsbD i.toNat
/-- The split outputs: of inputs A to D by bits 0 to 15, and of inputs C to F by bits 16 to 31. -/
def CellCfg.lo (c : CellCfg) (i : CellIn) : Bool := c.lut.getLsbD (i.extractLsb' 0 4).toNat
def CellCfg.hi (c : CellCfg) (i : CellIn) : Bool := c.lut.getLsbD (16 + (i.extractLsb' 2 4).toNat)

/-- The flip-flops FA and FB of a cell. -/
abbrev Ffs := Bool × Bool

/-- The flip-flops when reset is released: the initial values of the image. -/
def CellCfg.init (c : CellCfg) : Ffs := (c.initA, c.initB)

/-- What FA and FB load; sel is the selector, or cascade, output of the group. -/
def CellCfg.load (c : CellCfg) (i : CellIn) (sel : Bool) : Ffs :=
  (match c.srcA with
    | .direct => i.getLsbD 4
    | _ => if c.split then c.lo i else c.full i,
   match c.srcB with
    | .direct => i.getLsbD 5
    | .selector => sel
    | .lut => if c.split then c.hi i else c.full i)

/-- The flip-flops after an edge of the cell's clock: reset first, then the load while the clock is enabled. -/
def CellCfg.edge (c : CellCfg) (f : Ffs) (i : CellIn) (sel enable reset : Bool) : Ffs :=
  if reset then (c.resetA, c.resetB) else if enable then c.load i sel else f

/-- The flip-flops at a moment without an edge: an asynchronous reset acts at once. -/
def CellCfg.hold (c : CellCfg) (f : Ffs) (reset : Bool) : Ffs := if reset && c.async then (c.resetA, c.resetB) else f

/-- The selector of a cell group: one of the full LUT outputs of its eight cells. -/
def selector (outs : BitVec 8) (sel : BitVec 3) : Bool := outs.getLsbD sel.toNat
/-- The cascade of two stacked groups. -/
def cascade (lower upper : Bool) (sel : Bool) : Bool := if sel then upper else lower

/-! ### RAM blocks (R441) -/

/-- The bits of a block, or of two that are joined. -/
def ramBits (joined : Bool) : Nat := if joined then 73728 else 36864

/-- The contents that a RAM_INIT payload gives a block: word i of the 1,152 × 32 shape at bits 32i (R459). -/
def ramInit (payload : List Byte) (k : Nat) : Bool := bit (leNat payload) k

/-- What a port does at an edge: the width of its shape, its address, what it writes with which bits enabled, if it writes. -/
structure RamOp where
  width : Nat
  addr : Nat
  write : Option (Nat × Nat) := none
deriving DecidableEq, Repr

/-- Write enables, one per 8 bits in the 32- and 64-bit shapes, as a mask of bits. -/
def enableMask (width : Nat) (we : Nat) : Nat :=
  if width < 32 then 2 ^ width - 1 else ((List.range (width / 8)).map fun i => if bit we i then 255 * 2 ^ (8 * i) else 0).sum

/-- The bits of a block from the first of a word on: an address at or above the depth is none. -/
def RamOp.base (o : RamOp) (joined : Bool) : Option Nat :=
  if o.addr < ramBits joined / o.width then some (o.addr * o.width) else none

/-- Whether a port writes a bit of the block, and the value. -/
def RamOp.writes (o : RamOp) (joined : Bool) (k : Nat) : Option Bool :=
  match o.write, o.base joined with
  | some (v, we), some b => if b ≤ k ∧ k < b + o.width ∧ bit (enableMask o.width we) (k - b) then some (bit v (k - b)) else none
  | _, _ => none

/-- Contents after an edge of both ports: P's value is stored where both write; race: the ports run on different clocks and the edges
lie within 1 ns, so that what both write is an open value. -/
def ramNext (joined race : Bool) (open_ : Nat → Bool) (mem : Nat → Bool) (p q : RamOp) : Nat → Bool := fun k =>
  match p.writes joined k, q.writes joined k with
  | some x, some _ => if race then open_ k else x
  | some x, none => x
  | none, some y => y
  | none, none => mem k

/-- What port o reads at the edge beside port o'; low: o is Q. A port that writes a bit reads the new data; a bit that the other port
writes reads as before when P writes it and Q reads it on one clock; the other cases are open values. -/
def ramRead (joined race low : Bool) (open_ : Nat → Bool) (mem : Nat → Bool) (o o' : RamOp) : Nat :=
  match o.base joined with
  | none => 0
  | some b => ((List.range o.width).map fun i =>
      let k := b + i
      let v := match o.writes joined k, o'.writes joined k with
        | some x, none => x
        | some x, some y => if race then open_ k else if low then y else x
        | none, some _ => if race || !low then open_ k else mem k
        | none, none => mem k
      2 ^ i * b2n v).sum

end Sys2Proof.Machine
end

