-- ==== Sys2Proof/Laws/Cells.lean ====
section
/-! SUPPORT. What the cells and RAM blocks of Sys2Proof/Machine/Cells.lean compute, case by case. -/

namespace Sys2Proof.Machine

@[simp] theorem CellCfg.edge_reset (c : CellCfg) (f : Ffs) (i : CellIn) (sel en : Bool) : c.edge f i sel en true = (c.resetA, c.resetB) := rfl
@[simp] theorem CellCfg.edge_idle (c : CellCfg) (f : Ffs) (i : CellIn) (sel : Bool) : c.edge f i sel false false = f := rfl
@[simp] theorem CellCfg.edge_load (c : CellCfg) (f : Ffs) (i : CellIn) (sel : Bool) : c.edge f i sel true false = c.load i sel := rfl
@[simp] theorem CellCfg.hold_clear (c : CellCfg) (f : Ffs) : c.hold f false = f := by simp [CellCfg.hold]

/-- A port with no word to write leaves the block's bits to the other port. -/
theorem ramNext_q {joined race : Bool} {open_ mem : Nat → Bool} {p q : RamOp} {k : Nat} (hp : p.writes joined k = none) :
    ramNext joined race open_ mem p q k = (q.writes joined k).getD (mem k) := by
  unfold ramNext; rw [hp]; cases q.writes joined k <;> rfl

/-- On one clock, or with edges apart, P's value is stored where both ports write. -/
theorem ramNext_p {joined : Bool} {open_ mem : Nat → Bool} {p q : RamOp} {k : Nat} {x : Bool} (hp : p.writes joined k = some x) :
    ramNext joined false open_ mem p q k = x := by
  unfold ramNext; rw [hp]; cases q.writes joined k <;> rfl

/-- An address at or above the depth stores nothing. -/
theorem RamOp.writes_out {o : RamOp} {joined : Bool} (h : o.base joined = none) (k : Nat) : o.writes joined k = none := by
  unfold RamOp.writes; rw [h]; cases o.write <;> rfl

/-- An address at or above the depth reads as 0. -/
theorem ramRead_out {joined race low : Bool} {open_ mem : Nat → Bool} {o o' : RamOp} (h : o.base joined = none) :
    ramRead joined race low open_ mem o o' = 0 := by
  unfold ramRead; rw [h]

end Sys2Proof.Machine
end

