-- ==== Sys2Proof/Laws/Operands.lean ====
section
/-! SUPPORT. What each operation of Sys2Proof/Machine/Operands.lean may change, and how the state follows. -/

set_option Elab.async false
set_option linter.all false
namespace Sys2Proof.Machine

theorem Cx.read_ev {k : Bool} {l : List Area} {c : Cx} {space : Nat} {a : Nat} {n : Nat}
    (m : Area.subset [.pins, .hub, .funcs, .msix, .ctxs, .tlb, .rings, .hbm, .pans, .clusters, .power, .log, .cmds, .replays,
      .hzn, .xparts, .atsInvals] l = true) : Calm k l (Cx.read c space a n) := by
  refine Calm.mono ?_ m
  unfold Cx.read
  try dsimp only
  repeat'
    first
    | exact rfl | exact .inr rfl | exact .inl rfl | exact Nat.le_refl _ | exact Nat.le_add_right _ _ | exact .refl _ | exact fun h => h | exact ⟨fun _ h => h, fun h => h⟩
    | with_reducible exact Evolves.refl _ _ | with_reducible refine State.readVa_ev ?_ ?_
    | with_reducible refine Evolves.foldl ?_ fun _ _ => ?_ | with_reducible apply Evolves.ite
    | with_reducible exact Calm.pure _ | with_reducible exact Calm.get | with_reducible exact Calm.throw _
    | with_reducible exact Calm.throwThe _ | with_reducible exact Calm.drawFree
    | with_reducible refine Calm.modify fun _ => ?_ | with_reducible exact Calm.need _ _
    | with_reducible refine Calm.liftR fun _ => ?_ | with_reducible apply Calm.ite
    | with_reducible refine Calm.bind ?_ fun _ => ?_ | with_reducible refine Calm.map ?_
    | with_reducible refine Calm.mapM fun _ => ?_ | with_reducible refine Calm.foldlM fun _ _ => ?_
    | with_reducible refine Calm.forM fun _ => ?_ | split

theorem Cx.write_ev {k : Bool} {l : List Area} {c : Cx} {space : Nat} {a : Nat} {bs : List Byte}
    (m : Area.subset [.pins, .hub, .funcs, .msix, .ctxs, .tlb, .rings, .hbm, .pans, .clusters, .power, .log, .cmds, .replays,
      .hzn, .xparts, .atsInvals] l = true) : Calm k l (Cx.write c space a bs) := by
  refine Calm.mono ?_ m
  unfold Cx.write
  try dsimp only
  repeat'
    first
    | exact rfl | exact .inr rfl | exact .inl rfl | exact Nat.le_refl _ | exact Nat.le_add_right _ _ | exact .refl _ | exact fun h => h | exact ⟨fun _ h => h, fun h => h⟩
    | with_reducible exact Evolves.refl _ _ | with_reducible refine State.stageVa_ev ?_ ?_
    | with_reducible refine Evolves.foldl ?_ fun _ _ => ?_ | with_reducible apply Evolves.ite
    | with_reducible exact Calm.pure _ | with_reducible exact Calm.get | with_reducible exact Calm.throw _
    | with_reducible exact Calm.throwThe _ | with_reducible exact Calm.drawFree
    | with_reducible refine Calm.modify fun _ => ?_ | with_reducible exact Calm.need _ _
    | with_reducible refine Calm.liftR fun _ => ?_ | with_reducible apply Calm.ite
    | with_reducible refine Calm.bind ?_ fun _ => ?_ | with_reducible refine Calm.map ?_
    | with_reducible refine Calm.mapM fun _ => ?_ | with_reducible refine Calm.foldlM fun _ _ => ?_
    | with_reducible refine Calm.forM fun _ => ?_ | split

theorem Cx.booksAt_ev {k : Bool} {l : List Area} {c : Cx} {t : TRef} {space : Nat} {base : Nat}
    (m : Area.subset [.pins, .hub, .funcs, .msix, .ctxs, .tlb, .rings, .hbm, .pans, .clusters, .power, .log, .cmds, .replays,
      .hzn, .xparts, .atsInvals] l = true) : Calm k l (Cx.booksAt c t space base) := by
  refine Calm.mono ?_ m
  unfold Cx.booksAt
  try dsimp only
  repeat'
    first
    | exact rfl | exact .inr rfl | exact .inl rfl | exact Nat.le_refl _ | exact Nat.le_add_right _ _ | exact .refl _ | exact fun h => h | exact ⟨fun _ h => h, fun h => h⟩
    | with_reducible exact Evolves.refl _ _ | with_reducible refine Cx.read_ev ?_
    | with_reducible refine Evolves.foldl ?_ fun _ _ => ?_ | with_reducible apply Evolves.ite
    | with_reducible exact Calm.pure _ | with_reducible exact Calm.get | with_reducible exact Calm.throw _
    | with_reducible exact Calm.throwThe _ | with_reducible exact Calm.drawFree
    | with_reducible refine Calm.modify fun _ => ?_ | with_reducible exact Calm.need _ _
    | with_reducible refine Calm.liftR fun _ => ?_ | with_reducible apply Calm.ite
    | with_reducible refine Calm.bind ?_ fun _ => ?_ | with_reducible refine Calm.map ?_
    | with_reducible refine Calm.mapM fun _ => ?_ | with_reducible refine Calm.foldlM fun _ _ => ?_
    | with_reducible refine Calm.forM fun _ => ?_ | split

theorem Cx.books_ev {k : Bool} {l : List Area} {c : Cx} {t : TRef}
    (m : Area.subset [.pins, .hub, .funcs, .msix, .ctxs, .tlb, .rings, .hbm, .pans, .clusters, .power, .log, .cmds, .replays,
      .hzn, .xparts, .atsInvals] l = true) : Calm k l (Cx.books c t) := by
  refine Calm.mono ?_ m
  unfold Cx.books
  try dsimp only
  repeat'
    first
    | exact rfl | exact .inr rfl | exact .inl rfl | exact Nat.le_refl _ | exact Nat.le_add_right _ _ | exact .refl _ | exact fun h => h | exact ⟨fun _ h => h, fun h => h⟩
    | with_reducible exact Evolves.refl _ _ | with_reducible refine Cx.booksAt_ev ?_
    | with_reducible refine Evolves.foldl ?_ fun _ _ => ?_ | with_reducible apply Evolves.ite
    | with_reducible exact Calm.pure _ | with_reducible exact Calm.get | with_reducible exact Calm.throw _
    | with_reducible exact Calm.throwThe _ | with_reducible exact Calm.drawFree
    | with_reducible refine Calm.modify fun _ => ?_ | with_reducible exact Calm.need _ _
    | with_reducible refine Calm.liftR fun _ => ?_ | with_reducible apply Calm.ite
    | with_reducible refine Calm.bind ?_ fun _ => ?_ | with_reducible refine Calm.map ?_
    | with_reducible refine Calm.mapM fun _ => ?_ | with_reducible refine Calm.foldlM fun _ _ => ?_
    | with_reducible refine Calm.forM fun _ => ?_ | split

theorem Cx.loadMem_ev {k : Bool} {l : List Area} {c : Cx} {t : TRef}
    (m : Area.subset [.pins, .hub, .funcs, .msix, .ctxs, .tlb, .rings, .hbm, .pans, .clusters, .power, .log, .cmds, .replays,
      .hzn, .xparts, .atsInvals] l = true) : Calm k l (Cx.loadMem c t) := by
  refine Calm.mono ?_ m
  unfold Cx.loadMem
  try dsimp only
  repeat'
    first
    | exact rfl | exact .inr rfl | exact .inl rfl | exact Nat.le_refl _ | exact Nat.le_add_right _ _ | exact .refl _ | exact fun h => h | exact ⟨fun _ h => h, fun h => h⟩
    | with_reducible exact Evolves.refl _ _ | with_reducible refine Cx.read_ev ?_
    | with_reducible refine Cx.books_ev ?_ | with_reducible refine Evolves.foldl ?_ fun _ _ => ?_
    | with_reducible apply Evolves.ite | with_reducible exact Calm.pure _ | with_reducible exact Calm.get
    | with_reducible exact Calm.throw _ | with_reducible exact Calm.throwThe _ | with_reducible exact Calm.drawFree
    | with_reducible refine Calm.modify fun _ => ?_ | with_reducible exact Calm.need _ _
    | with_reducible refine Calm.liftR fun _ => ?_ | with_reducible apply Calm.ite
    | with_reducible refine Calm.bind ?_ fun _ => ?_ | with_reducible refine Calm.map ?_
    | with_reducible refine Calm.mapM fun _ => ?_ | with_reducible refine Calm.foldlM fun _ _ => ?_
    | with_reducible refine Calm.forM fun _ => ?_ | split

theorem Cx.load_ev {k : Bool} {l : List Area} {c : Cx} {chain : Option Tens} {x2 : Nat}
    (m : Area.subset [.pins, .hub, .funcs, .msix, .ctxs, .tlb, .rings, .hbm, .pans, .clusters, .power, .log, .cmds, .replays,
      .hzn, .xparts, .atsInvals] l = true) : Calm k l (Cx.load c chain x2) := by
  refine Calm.mono ?_ m
  unfold Cx.load
  try dsimp only
  repeat'
    first
    | exact rfl | exact .inr rfl | exact .inl rfl | exact Nat.le_refl _ | exact Nat.le_add_right _ _ | exact .refl _ | exact fun h => h | exact ⟨fun _ h => h, fun h => h⟩
    | with_reducible exact Evolves.refl _ _ | with_reducible refine Cx.loadMem_ev ?_
    | with_reducible refine Evolves.foldl ?_ fun _ _ => ?_ | with_reducible apply Evolves.ite
    | with_reducible exact Calm.pure _ | with_reducible exact Calm.get | with_reducible exact Calm.throw _
    | with_reducible exact Calm.throwThe _ | with_reducible exact Calm.drawFree
    | with_reducible refine Calm.modify fun _ => ?_ | with_reducible exact Calm.need _ _
    | with_reducible refine Calm.liftR fun _ => ?_ | with_reducible apply Calm.ite
    | with_reducible refine Calm.bind ?_ fun _ => ?_ | with_reducible refine Calm.map ?_
    | with_reducible refine Calm.mapM fun _ => ?_ | with_reducible refine Calm.foldlM fun _ _ => ?_
    | with_reducible refine Calm.forM fun _ => ?_ | split

theorem Cx.givenScales_ev {k : Bool} {l : List Area} {c : Cx} {t : TRef}
    (m : Area.subset [.pins, .hub, .funcs, .msix, .ctxs, .tlb, .rings, .hbm, .pans, .clusters, .power, .log, .cmds, .replays,
      .hzn, .xparts, .atsInvals] l = true) : Calm k l (Cx.givenScales c t) := by
  refine Calm.mono ?_ m
  unfold Cx.givenScales
  try dsimp only
  repeat'
    first
    | exact rfl | exact .inr rfl | exact .inl rfl | exact Nat.le_refl _ | exact Nat.le_add_right _ _ | exact .refl _ | exact fun h => h | exact ⟨fun _ h => h, fun h => h⟩
    | with_reducible exact Evolves.refl _ _ | with_reducible refine Cx.read_ev ?_
    | with_reducible refine Evolves.foldl ?_ fun _ _ => ?_ | with_reducible apply Evolves.ite
    | with_reducible exact Calm.pure _ | with_reducible exact Calm.get | with_reducible exact Calm.throw _
    | with_reducible exact Calm.throwThe _ | with_reducible exact Calm.drawFree
    | with_reducible refine Calm.modify fun _ => ?_ | with_reducible exact Calm.need _ _
    | with_reducible refine Calm.liftR fun _ => ?_ | with_reducible apply Calm.ite
    | with_reducible refine Calm.bind ?_ fun _ => ?_ | with_reducible refine Calm.map ?_
    | with_reducible refine Calm.mapM fun _ => ?_ | with_reducible refine Calm.foldlM fun _ _ => ?_
    | with_reducible refine Calm.forM fun _ => ?_ | split

theorem Cx.store_ev {k : Bool} {l : List Area} {c : Cx} {p : Made} {t : TRef} {codes : List Nat} {scales : List Nat} {writeScales : Bool}
    (m : Area.subset [.pins, .hub, .funcs, .msix, .ctxs, .tlb, .rings, .hbm, .pans, .clusters, .power, .log, .cmds, .replays,
      .hzn, .xparts, .atsInvals] l = true) : Calm k l (Cx.store c p t codes scales writeScales) := by
  refine Calm.mono ?_ m
  unfold Cx.store
  try dsimp only
  repeat'
    first
    | exact rfl | exact .inr rfl | exact .inl rfl | exact Nat.le_refl _ | exact Nat.le_add_right _ _ | exact .refl _ | exact fun h => h | exact ⟨fun _ h => h, fun h => h⟩
    | with_reducible exact Evolves.refl _ _ | with_reducible refine Cx.write_ev ?_
    | with_reducible refine Evolves.foldl ?_ fun _ _ => ?_ | with_reducible apply Evolves.ite
    | with_reducible exact Calm.pure _ | with_reducible exact Calm.get | with_reducible exact Calm.throw _
    | with_reducible exact Calm.throwThe _ | with_reducible exact Calm.drawFree
    | with_reducible refine Calm.modify fun _ => ?_ | with_reducible exact Calm.need _ _
    | with_reducible refine Calm.liftR fun _ => ?_ | with_reducible apply Calm.ite
    | with_reducible refine Calm.bind ?_ fun _ => ?_ | with_reducible refine Calm.map ?_
    | with_reducible refine Calm.mapM fun _ => ?_ | with_reducible refine Calm.foldlM fun _ _ => ?_
    | with_reducible refine Calm.forM fun _ => ?_ | split

end Sys2Proof.Machine
end

