-- ==== Sys2Proof/Laws/Vector.lean ====
section
/-! SUPPORT. What each operation of Sys2Proof/Machine/Vector.lean may change, and how the state follows. -/

set_option Elab.async false
set_option linter.all false
namespace Sys2Proof.Machine

theorem Cx.putF_ev {k : Bool} {l : List Area} {c : Cx} {a : Acc} {d : TRef} {vals : List Nat}
    (m : Area.subset [.pins, .hub, .funcs, .msix, .ctxs, .tlb, .rings, .hbm, .pans, .clusters, .power, .log, .cmds, .replays,
      .hzn, .xparts, .atsInvals] l = true) : Calm k l (Cx.putF c a d vals) := by
  refine Calm.mono ?_ m
  unfold Cx.putF
  try dsimp only
  repeat'
    first
    | exact rfl | exact .inr rfl | exact .inl rfl | exact Nat.le_refl _ | exact Nat.le_add_right _ _ | exact .refl _ | exact fun h => h | exact ⟨fun _ h => h, fun h => h⟩
    | with_reducible exact Evolves.refl _ _ | with_reducible refine Cx.givenScales_ev ?_
    | with_reducible refine Cx.store_ev ?_ | with_reducible refine Evolves.foldl ?_ fun _ _ => ?_
    | with_reducible apply Evolves.ite | with_reducible exact Calm.pure _ | with_reducible exact Calm.get
    | with_reducible exact Calm.throw _ | with_reducible exact Calm.throwThe _ | with_reducible exact Calm.drawFree
    | with_reducible refine Calm.modify fun _ => ?_ | with_reducible exact Calm.need _ _
    | with_reducible refine Calm.liftR fun _ => ?_ | with_reducible apply Calm.ite
    | with_reducible refine Calm.bind ?_ fun _ => ?_ | with_reducible refine Calm.map ?_
    | with_reducible refine Calm.mapM fun _ => ?_ | with_reducible refine Calm.foldlM fun _ _ => ?_
    | with_reducible refine Calm.forM fun _ => ?_ | split

theorem Cx.putI_ev {k : Bool} {l : List Area} {c : Cx} {a : Acc} {d : TRef} {vals : List Int}
    (m : Area.subset [.pins, .hub, .funcs, .msix, .ctxs, .tlb, .rings, .hbm, .pans, .clusters, .power, .log, .cmds, .replays,
      .hzn, .xparts, .atsInvals] l = true) : Calm k l (Cx.putI c a d vals) := by
  refine Calm.mono ?_ m
  unfold Cx.putI
  try dsimp only
  repeat'
    first
    | exact rfl | exact .inr rfl | exact .inl rfl | exact Nat.le_refl _ | exact Nat.le_add_right _ _ | exact .refl _ | exact fun h => h | exact ⟨fun _ h => h, fun h => h⟩
    | with_reducible exact Evolves.refl _ _ | with_reducible refine Cx.givenScales_ev ?_
    | with_reducible refine Cx.store_ev ?_ | with_reducible refine Evolves.foldl ?_ fun _ _ => ?_
    | with_reducible apply Evolves.ite | with_reducible exact Calm.pure _ | with_reducible exact Calm.get
    | with_reducible exact Calm.throw _ | with_reducible exact Calm.throwThe _ | with_reducible exact Calm.drawFree
    | with_reducible refine Calm.modify fun _ => ?_ | with_reducible exact Calm.need _ _
    | with_reducible refine Calm.liftR fun _ => ?_ | with_reducible apply Calm.ite
    | with_reducible refine Calm.bind ?_ fun _ => ?_ | with_reducible refine Calm.map ?_
    | with_reducible refine Calm.mapM fun _ => ?_ | with_reducible refine Calm.foldlM fun _ _ => ?_
    | with_reducible refine Calm.forM fun _ => ?_ | split

theorem Cx.putIdx_ev {k : Bool} {l : List Area} {c : Cx} {a : Acc} {d : TRef} {vals : List Nat}
    (m : Area.subset [.pins, .hub, .funcs, .msix, .ctxs, .tlb, .rings, .hbm, .pans, .clusters, .power, .log, .cmds, .replays,
      .hzn, .xparts, .atsInvals] l = true) : Calm k l (Cx.putIdx c a d vals) := by
  refine Calm.mono ?_ m
  unfold Cx.putIdx
  try dsimp only
  repeat'
    first
    | exact rfl | exact .inr rfl | exact .inl rfl | exact Nat.le_refl _ | exact Nat.le_add_right _ _ | exact .refl _ | exact fun h => h | exact ⟨fun _ h => h, fun h => h⟩
    | with_reducible exact Evolves.refl _ _ | with_reducible refine Cx.givenScales_ev ?_
    | with_reducible refine Cx.store_ev ?_ | with_reducible refine Evolves.foldl ?_ fun _ _ => ?_
    | with_reducible apply Evolves.ite | with_reducible exact Calm.pure _ | with_reducible exact Calm.get
    | with_reducible exact Calm.throw _ | with_reducible exact Calm.throwThe _ | with_reducible exact Calm.drawFree
    | with_reducible refine Calm.modify fun _ => ?_ | with_reducible exact Calm.need _ _
    | with_reducible refine Calm.liftR fun _ => ?_ | with_reducible apply Calm.ite
    | with_reducible refine Calm.bind ?_ fun _ => ?_ | with_reducible refine Calm.map ?_
    | with_reducible refine Calm.mapM fun _ => ?_ | with_reducible refine Calm.foldlM fun _ _ => ?_
    | with_reducible refine Calm.forM fun _ => ?_ | split

theorem Cx.loadAll_ev {k : Bool} {l : List Area} {c : Cx} {a : Acc} {hs : List Nat}
    (m : Area.subset [.pins, .hub, .funcs, .msix, .ctxs, .tlb, .rings, .hbm, .pans, .clusters, .power, .log, .cmds, .replays,
      .hzn, .xparts, .atsInvals] l = true) : Calm k l (Cx.loadAll c a hs) := by
  refine Calm.mono ?_ m
  unfold Cx.loadAll
  try dsimp only
  repeat'
    first
    | exact rfl | exact .inr rfl | exact .inl rfl | exact Nat.le_refl _ | exact Nat.le_add_right _ _ | exact .refl _ | exact fun h => h | exact ⟨fun _ h => h, fun h => h⟩
    | with_reducible exact Evolves.refl _ _ | with_reducible refine Cx.load_ev ?_
    | with_reducible refine Evolves.foldl ?_ fun _ _ => ?_ | with_reducible apply Evolves.ite
    | with_reducible exact Calm.pure _ | with_reducible exact Calm.get | with_reducible exact Calm.throw _
    | with_reducible exact Calm.throwThe _ | with_reducible exact Calm.drawFree
    | with_reducible refine Calm.modify fun _ => ?_ | with_reducible exact Calm.need _ _
    | with_reducible refine Calm.liftR fun _ => ?_ | with_reducible apply Calm.ite
    | with_reducible refine Calm.bind ?_ fun _ => ?_ | with_reducible refine Calm.map ?_
    | with_reducible refine Calm.mapM fun _ => ?_ | with_reducible refine Calm.foldlM fun _ _ => ?_
    | with_reducible refine Calm.forM fun _ => ?_ | split

theorem bodyVop_ev {k : Bool} {l : List Area}
    (m : Area.subset [.pins, .hub, .funcs, .msix, .ctxs, .tlb, .rings, .hbm, .pans, .clusters, .power, .log, .cmds, .replays,
      .hzn, .xparts, .atsInvals] l = true) (c : Cx) (w : List Byte) (a : Acc) : Calm k l (bodyVop c w a) := by
  refine Calm.mono ?_ m
  unfold bodyVop
  try dsimp only
  repeat'
    first
    | exact rfl | exact .inr rfl | exact .inl rfl | exact Nat.le_refl _ | exact Nat.le_add_right _ _ | exact .refl _ | exact fun h => h | exact ⟨fun _ h => h, fun h => h⟩
    | with_reducible exact Evolves.refl _ _ | with_reducible refine Cx.loadAll_ev ?_
    | with_reducible refine Cx.putI_ev ?_ | with_reducible refine Cx.putF_ev ?_
    | with_reducible refine Evolves.foldl ?_ fun _ _ => ?_ | with_reducible apply Evolves.ite
    | with_reducible exact Calm.pure _ | with_reducible exact Calm.get | with_reducible exact Calm.throw _
    | with_reducible exact Calm.throwThe _ | with_reducible exact Calm.drawFree
    | with_reducible refine Calm.modify fun _ => ?_ | with_reducible exact Calm.need _ _
    | with_reducible refine Calm.liftR fun _ => ?_ | with_reducible apply Calm.ite
    | with_reducible refine Calm.bind ?_ fun _ => ?_ | with_reducible refine Calm.map ?_
    | with_reducible refine Calm.mapM fun _ => ?_ | with_reducible refine Calm.foldlM fun _ _ => ?_
    | with_reducible refine Calm.forM fun _ => ?_ | split

theorem bodyReduce_ev {k : Bool} {l : List Area}
    (m : Area.subset [.pins, .hub, .funcs, .msix, .ctxs, .tlb, .rings, .hbm, .pans, .clusters, .power, .log, .cmds, .replays,
      .hzn, .xparts, .atsInvals] l = true) (c : Cx) (w : List Byte) (a : Acc) : Calm k l (bodyReduce c w a) := by
  refine Calm.mono ?_ m
  unfold bodyReduce
  try dsimp only
  repeat'
    first
    | exact rfl | exact .inr rfl | exact .inl rfl | exact Nat.le_refl _ | exact Nat.le_add_right _ _ | exact .refl _ | exact fun h => h | exact ⟨fun _ h => h, fun h => h⟩
    | with_reducible exact Evolves.refl _ _ | with_reducible refine Cx.load_ev ?_
    | with_reducible refine Cx.putIdx_ev ?_ | with_reducible refine Cx.putI_ev ?_ | with_reducible refine Cx.putF_ev ?_
    | with_reducible refine Evolves.foldl ?_ fun _ _ => ?_ | with_reducible refine Evolves.foldl_snd ?_ fun _ _ => ?_
    | with_reducible refine Evolves.foldl_fst ?_ fun _ _ => ?_ | with_reducible apply Evolves.ite
    | with_reducible exact Calm.pure _ | with_reducible exact Calm.get | with_reducible exact Calm.throw _
    | with_reducible exact Calm.throwThe _ | with_reducible exact Calm.drawFree
    | with_reducible refine Calm.modify fun _ => ?_ | with_reducible exact Calm.need _ _
    | with_reducible refine Calm.liftR fun _ => ?_ | with_reducible apply Calm.ite
    | with_reducible refine Calm.bind ?_ fun _ => ?_ | with_reducible refine Calm.map ?_
    | with_reducible refine Calm.mapM fun _ => ?_ | with_reducible refine Calm.foldlM fun _ _ => ?_
    | with_reducible refine Calm.forM fun _ => ?_ | split

theorem bodySoftmax_ev {k : Bool} {l : List Area}
    (m : Area.subset [.pins, .hub, .funcs, .msix, .ctxs, .tlb, .rings, .hbm, .pans, .clusters, .power, .log, .cmds, .replays,
      .hzn, .xparts, .atsInvals] l = true) (c : Cx) (w : List Byte) (a : Acc) : Calm k l (bodySoftmax c w a) := by
  refine Calm.mono ?_ m
  unfold bodySoftmax
  try dsimp only
  repeat'
    first
    | exact rfl | exact .inr rfl | exact .inl rfl | exact Nat.le_refl _ | exact Nat.le_add_right _ _ | exact .refl _ | exact fun h => h | exact ⟨fun _ h => h, fun h => h⟩
    | with_reducible exact Evolves.refl _ _ | with_reducible refine Cx.loadAll_ev ?_
    | with_reducible refine Cx.putF_ev ?_ | with_reducible refine Evolves.foldl ?_ fun _ _ => ?_
    | with_reducible apply Evolves.ite | with_reducible exact Calm.pure _ | with_reducible exact Calm.get
    | with_reducible exact Calm.throw _ | with_reducible exact Calm.throwThe _ | with_reducible exact Calm.drawFree
    | with_reducible refine Calm.modify fun _ => ?_ | with_reducible exact Calm.need _ _
    | with_reducible refine Calm.liftR fun _ => ?_ | with_reducible apply Calm.ite
    | with_reducible refine Calm.bind ?_ fun _ => ?_ | with_reducible refine Calm.map ?_
    | with_reducible refine Calm.mapM fun _ => ?_ | with_reducible refine Calm.foldlM fun _ _ => ?_
    | with_reducible refine Calm.forM fun _ => ?_ | split

theorem bodyNorm_ev {k : Bool} {l : List Area}
    (m : Area.subset [.pins, .hub, .funcs, .msix, .ctxs, .tlb, .rings, .hbm, .pans, .clusters, .power, .log, .cmds, .replays,
      .hzn, .xparts, .atsInvals] l = true) (c : Cx) (w : List Byte) (a : Acc) : Calm k l (bodyNorm c w a) := by
  refine Calm.mono ?_ m
  unfold bodyNorm
  try dsimp only
  repeat'
    first
    | exact rfl | exact .inr rfl | exact .inl rfl | exact Nat.le_refl _ | exact Nat.le_add_right _ _ | exact .refl _ | exact fun h => h | exact ⟨fun _ h => h, fun h => h⟩
    | with_reducible exact Evolves.refl _ _ | with_reducible refine Cx.loadAll_ev ?_
    | with_reducible refine Cx.putF_ev ?_ | with_reducible refine Evolves.foldl ?_ fun _ _ => ?_
    | with_reducible apply Evolves.ite | with_reducible exact Calm.pure _ | with_reducible exact Calm.get
    | with_reducible exact Calm.throw _ | with_reducible exact Calm.throwThe _ | with_reducible exact Calm.drawFree
    | with_reducible refine Calm.modify fun _ => ?_ | with_reducible exact Calm.need _ _
    | with_reducible refine Calm.liftR fun _ => ?_ | with_reducible apply Calm.ite
    | with_reducible refine Calm.bind ?_ fun _ => ?_ | with_reducible refine Calm.map ?_
    | with_reducible refine Calm.mapM fun _ => ?_ | with_reducible refine Calm.foldlM fun _ _ => ?_
    | with_reducible refine Calm.forM fun _ => ?_ | split

theorem bodyActivate_ev {k : Bool} {l : List Area}
    (m : Area.subset [.pins, .hub, .funcs, .msix, .ctxs, .tlb, .rings, .hbm, .pans, .clusters, .power, .log, .cmds, .replays,
      .hzn, .xparts, .atsInvals] l = true) (c : Cx) (w : List Byte) (a : Acc) : Calm k l (bodyActivate c w a) := by
  refine Calm.mono ?_ m
  unfold bodyActivate
  try dsimp only
  repeat'
    first
    | exact rfl | exact .inr rfl | exact .inl rfl | exact Nat.le_refl _ | exact Nat.le_add_right _ _ | exact .refl _ | exact fun h => h | exact ⟨fun _ h => h, fun h => h⟩
    | with_reducible exact Evolves.refl _ _ | with_reducible refine Cx.loadAll_ev ?_
    | with_reducible refine Cx.putI_ev ?_ | with_reducible refine Cx.putF_ev ?_
    | with_reducible refine Evolves.foldl ?_ fun _ _ => ?_ | with_reducible apply Evolves.ite
    | with_reducible exact Calm.pure _ | with_reducible exact Calm.get | with_reducible exact Calm.throw _
    | with_reducible exact Calm.throwThe _ | with_reducible exact Calm.drawFree
    | with_reducible refine Calm.modify fun _ => ?_ | with_reducible exact Calm.need _ _
    | with_reducible refine Calm.liftR fun _ => ?_ | with_reducible apply Calm.ite
    | with_reducible refine Calm.bind ?_ fun _ => ?_ | with_reducible refine Calm.map ?_
    | with_reducible refine Calm.mapM fun _ => ?_ | with_reducible refine Calm.foldlM fun _ _ => ?_
    | with_reducible refine Calm.forM fun _ => ?_ | split

theorem bodyRope_ev {k : Bool} {l : List Area}
    (m : Area.subset [.pins, .hub, .funcs, .msix, .ctxs, .tlb, .rings, .hbm, .pans, .clusters, .power, .log, .cmds, .replays,
      .hzn, .xparts, .atsInvals] l = true) (c : Cx) (w : List Byte) (a : Acc) : Calm k l (bodyRope c w a) := by
  refine Calm.mono ?_ m
  unfold bodyRope
  try dsimp only
  repeat'
    first
    | exact rfl | exact .inr rfl | exact .inl rfl | exact Nat.le_refl _ | exact Nat.le_add_right _ _ | exact .refl _ | exact fun h => h | exact ⟨fun _ h => h, fun h => h⟩
    | with_reducible exact Evolves.refl _ _ | with_reducible refine Cx.loadAll_ev ?_
    | with_reducible refine Cx.putF_ev ?_ | with_reducible refine Evolves.foldl ?_ fun _ _ => ?_
    | with_reducible apply Evolves.ite | with_reducible exact Calm.pure _ | with_reducible exact Calm.get
    | with_reducible exact Calm.throw _ | with_reducible exact Calm.throwThe _ | with_reducible exact Calm.drawFree
    | with_reducible refine Calm.modify fun _ => ?_ | with_reducible exact Calm.need _ _
    | with_reducible refine Calm.liftR fun _ => ?_ | with_reducible apply Calm.ite
    | with_reducible refine Calm.bind ?_ fun _ => ?_ | with_reducible refine Calm.map ?_
    | with_reducible refine Calm.mapM fun _ => ?_ | with_reducible refine Calm.foldlM fun _ _ => ?_
    | with_reducible refine Calm.forM fun _ => ?_ | split

theorem bodyTopk_ev {k : Bool} {l : List Area}
    (m : Area.subset [.pins, .hub, .funcs, .msix, .ctxs, .tlb, .rings, .hbm, .pans, .clusters, .power, .log, .cmds, .replays,
      .hzn, .xparts, .atsInvals] l = true) (c : Cx) (w : List Byte) (a : Acc) : Calm k l (bodyTopk c w a) := by
  refine Calm.mono ?_ m
  unfold bodyTopk
  try dsimp only
  repeat'
    first
    | exact rfl | exact .inr rfl | exact .inl rfl | exact Nat.le_refl _ | exact Nat.le_add_right _ _ | exact .refl _ | exact fun h => h | exact ⟨fun _ h => h, fun h => h⟩
    | with_reducible exact Evolves.refl _ _ | with_reducible refine Cx.load_ev ?_ | with_reducible refine Cx.putI_ev ?_
    | with_reducible refine Cx.putIdx_ev ?_ | with_reducible refine Cx.putF_ev ?_
    | with_reducible refine Evolves.foldl ?_ fun _ _ => ?_ | with_reducible apply Evolves.ite
    | with_reducible exact Calm.pure _ | with_reducible exact Calm.get | with_reducible exact Calm.throw _
    | with_reducible exact Calm.throwThe _ | with_reducible exact Calm.drawFree
    | with_reducible refine Calm.modify fun _ => ?_ | with_reducible exact Calm.need _ _
    | with_reducible refine Calm.liftR fun _ => ?_ | with_reducible apply Calm.ite
    | with_reducible refine Calm.bind ?_ fun _ => ?_ | with_reducible refine Calm.map ?_
    | with_reducible refine Calm.mapM fun _ => ?_ | with_reducible refine Calm.foldlM fun _ _ => ?_
    | with_reducible refine Calm.forM fun _ => ?_ | split

end Sys2Proof.Machine
end

