-- ==== Sys2Proof/Laws/Haze.lean ====
section
/-! SUPPORT. What each operation of Sys2Proof/Machine/Haze.lean may change, and how the state follows. -/

set_option Elab.async false
set_option linter.all false
namespace Sys2Proof.Machine

theorem bodyMask_ev {k : Bool} {l : List Area}
    (m : Area.subset [.pins, .hub, .funcs, .msix, .ctxs, .tlb, .rings, .hbm, .pans, .clusters, .power, .log, .cmds, .replays,
      .hzn, .xparts, .atsInvals] l = true) (c : Cx) (w : List Byte) (a : Acc) : Calm k l (bodyMask c w a) := by
  refine Calm.mono ?_ m
  unfold bodyMask
  try dsimp only
  repeat'
    first
    | exact rfl | exact .inr rfl | exact .inl rfl | exact Nat.le_refl _ | exact Nat.le_add_right _ _ | exact .refl _ | exact fun h => h | exact ⟨fun _ h => h, fun h => h⟩
    | with_reducible exact Evolves.refl _ _ | with_reducible refine Cx.store_ev ?_
    | with_reducible refine Cx.load_ev ?_ | with_reducible refine Cx.putF_ev ?_
    | with_reducible refine Evolves.foldl ?_ fun _ _ => ?_ | with_reducible apply Evolves.ite
    | with_reducible exact Calm.pure _ | with_reducible exact Calm.get | with_reducible exact Calm.throw _
    | with_reducible exact Calm.throwThe _ | with_reducible exact Calm.drawFree
    | with_reducible refine Calm.modify fun _ => ?_ | with_reducible exact Calm.need _ _
    | with_reducible refine Calm.liftR fun _ => ?_ | with_reducible apply Calm.ite
    | with_reducible refine Calm.bind ?_ fun _ => ?_ | with_reducible refine Calm.map ?_
    | with_reducible refine Calm.mapM fun _ => ?_ | with_reducible refine Calm.foldlM fun _ _ => ?_
    | with_reducible refine Calm.forM fun _ => ?_ | split

theorem bodyRndfill_ev {k : Bool} {l : List Area}
    (m : Area.subset [.pins, .hub, .funcs, .msix, .ctxs, .tlb, .rings, .hbm, .pans, .clusters, .power, .log, .cmds, .replays,
      .hzn, .xparts, .atsInvals] l = true) (c : Cx) (w : List Byte) (a : Acc) : Calm k l (bodyRndfill c w a) := by
  refine Calm.mono ?_ m
  unfold bodyRndfill
  try dsimp only
  repeat'
    first
    | exact rfl | exact .inr rfl | exact .inl rfl | exact Nat.le_refl _ | exact Nat.le_add_right _ _ | exact .refl _ | exact fun h => h | exact ⟨fun _ h => h, fun h => h⟩
    | with_reducible exact Evolves.refl _ _ | with_reducible refine Cx.store_ev ?_
    | with_reducible refine Evolves.foldl ?_ fun _ _ => ?_ | with_reducible apply Evolves.ite
    | with_reducible exact Calm.pure _ | with_reducible exact Calm.get | with_reducible exact Calm.throw _
    | with_reducible exact Calm.throwThe _ | with_reducible exact Calm.drawFree
    | with_reducible refine Calm.modify fun _ => ?_ | with_reducible exact Calm.need _ _
    | with_reducible refine Calm.liftR fun _ => ?_ | with_reducible apply Calm.ite
    | with_reducible refine Calm.bind ?_ fun _ => ?_ | with_reducible refine Calm.map ?_
    | with_reducible refine Calm.mapM fun _ => ?_ | with_reducible refine Calm.foldlM fun _ _ => ?_
    | with_reducible refine Calm.forM fun _ => ?_ | split

theorem bodySample_ev {k : Bool} {l : List Area}
    (m : Area.subset [.pins, .hub, .funcs, .msix, .ctxs, .tlb, .rings, .hbm, .pans, .clusters, .power, .log, .cmds, .replays,
      .hzn, .xparts, .atsInvals] l = true) (c : Cx) (w : List Byte) (a : Acc) : Calm k l (bodySample c w a) := by
  refine Calm.mono ?_ m
  unfold bodySample
  try dsimp only
  repeat'
    first
    | exact rfl | exact .inr rfl | exact .inl rfl | exact Nat.le_refl _ | exact Nat.le_add_right _ _ | exact .refl _ | exact fun h => h | exact ⟨fun _ h => h, fun h => h⟩
    | with_reducible exact Evolves.refl _ _ | with_reducible refine Cx.load_ev ?_
    | with_reducible refine Cx.putIdx_ev ?_ | with_reducible refine Evolves.foldl ?_ fun _ _ => ?_
    | with_reducible apply Evolves.ite | with_reducible exact Calm.pure _ | with_reducible exact Calm.get
    | with_reducible exact Calm.throw _ | with_reducible exact Calm.throwThe _ | with_reducible exact Calm.drawFree
    | with_reducible refine Calm.modify fun _ => ?_ | with_reducible exact Calm.need _ _
    | with_reducible refine Calm.liftR fun _ => ?_ | with_reducible apply Calm.ite
    | with_reducible refine Calm.bind ?_ fun _ => ?_ | with_reducible refine Calm.map ?_
    | with_reducible refine Calm.mapM fun _ => ?_ | with_reducible refine Calm.foldlM fun _ _ => ?_
    | with_reducible refine Calm.forM fun _ => ?_ | split

end Sys2Proof.Machine
end

