-- ==== Sys2Proof/Laws/Quant.lean ====
section
/-! SUPPORT. What each operation of Sys2Proof/Machine/Quant.lean may change, and how the state follows. -/

set_option Elab.async false
set_option linter.all false
namespace Sys2Proof.Machine

theorem Cx.putMax_ev {k : Bool} {l : List Area} {c : Cx} {a : Acc} {x2 : Nat} {ms : List Dy}
    (m : Area.subset [.pins, .hub, .funcs, .msix, .ctxs, .tlb, .rings, .hbm, .pans, .clusters, .power, .log, .cmds, .replays,
      .hzn, .xparts, .atsInvals] l = true) : Calm k l (Cx.putMax c a x2 ms) := by
  refine Calm.mono ?_ m
  unfold Cx.putMax
  try dsimp only
  repeat'
    first
    | exact rfl | exact .inr rfl | exact .inl rfl | exact Nat.le_refl _ | exact Nat.le_add_right _ _ | exact .refl _ | exact fun h => h | exact ⟨fun _ h => h, fun h => h⟩
    | with_reducible exact Evolves.refl _ _ | with_reducible refine Cx.store_ev ?_
    | with_reducible refine Evolves.foldl ?_ fun _ _ => ?_ | with_reducible apply Evolves.ite
    | with_reducible exact Calm.pure _ | with_reducible exact Calm.get | with_reducible exact Calm.throw _
    | with_reducible exact Calm.throwThe _ | with_reducible exact Calm.drawFree
    | with_reducible refine Calm.modify fun _ => ?_ | with_reducible exact Calm.need _ _
    | with_reducible refine Calm.liftR fun _ => ?_ | with_reducible apply Calm.ite
    | with_reducible refine Calm.bind ?_ fun _ => ?_ | with_reducible refine Calm.map ?_
    | with_reducible refine Calm.mapM fun _ => ?_ | with_reducible refine Calm.foldlM fun _ _ => ?_
    | with_reducible refine Calm.forM fun _ => ?_ | split

theorem bodyStats_ev {k : Bool} {l : List Area}
    (m : Area.subset [.pins, .hub, .funcs, .msix, .ctxs, .tlb, .rings, .hbm, .pans, .clusters, .power, .log, .cmds, .replays,
      .hzn, .xparts, .atsInvals] l = true) (c : Cx) (w : List Byte) (a : Acc) : Calm k l (bodyStats c w a) := by
  refine Calm.mono ?_ m
  unfold bodyStats
  try dsimp only
  repeat'
    first
    | exact rfl | exact .inr rfl | exact .inl rfl | exact Nat.le_refl _ | exact Nat.le_add_right _ _ | exact .refl _ | exact fun h => h | exact ⟨fun _ h => h, fun h => h⟩
    | with_reducible exact Evolves.refl _ _ | with_reducible refine Cx.load_ev ?_
    | with_reducible refine Cx.putMax_ev ?_ | with_reducible refine Cx.store_ev ?_
    | with_reducible refine Evolves.foldl ?_ fun _ _ => ?_ | with_reducible apply Evolves.ite
    | with_reducible exact Calm.pure _ | with_reducible exact Calm.get | with_reducible exact Calm.throw _
    | with_reducible exact Calm.throwThe _ | with_reducible exact Calm.drawFree
    | with_reducible refine Calm.modify fun _ => ?_ | with_reducible exact Calm.need _ _
    | with_reducible refine Calm.liftR fun _ => ?_ | with_reducible apply Calm.ite
    | with_reducible refine Calm.bind ?_ fun _ => ?_ | with_reducible refine Calm.map ?_
    | with_reducible refine Calm.mapM fun _ => ?_ | with_reducible refine Calm.foldlM fun _ _ => ?_
    | with_reducible refine Calm.forM fun _ => ?_ | split

theorem Cx.putTscale_ev {k : Bool} {l : List Area} {c : Cx} {a : Acc} {t : TRef} {x3 : Int}
    (m : Area.subset [] l = true) : Calm k l (Cx.putTscale c a t x3) := by
  refine Calm.mono ?_ m
  unfold Cx.putTscale
  try dsimp only
  repeat'
    first
    | exact rfl | exact .inr rfl | exact .inl rfl | exact Nat.le_refl _ | exact Nat.le_add_right _ _ | exact .refl _ | exact fun h => h
    | with_reducible exact Evolves.refl _ _ | with_reducible refine Evolves.foldl ?_ fun _ _ => ?_
    | with_reducible apply Evolves.ite | with_reducible exact Calm.pure _ | with_reducible exact Calm.get
    | with_reducible exact Calm.throw _ | with_reducible exact Calm.throwThe _ | with_reducible exact Calm.drawFree
    | with_reducible refine Calm.modify fun _ => ?_ | with_reducible exact Calm.need _ _
    | with_reducible refine Calm.liftR fun _ => ?_ | with_reducible apply Calm.ite
    | with_reducible refine Calm.bind ?_ fun _ => ?_ | with_reducible refine Calm.map ?_
    | with_reducible refine Calm.mapM fun _ => ?_ | with_reducible refine Calm.foldlM fun _ _ => ?_
    | with_reducible refine Calm.forM fun _ => ?_ | split

theorem bodyQuant_ev {k : Bool} {l : List Area}
    (m : Area.subset [.pins, .hub, .funcs, .msix, .ctxs, .tlb, .rings, .hbm, .pans, .clusters, .power, .log, .cmds, .replays,
      .hzn, .xparts, .atsInvals] l = true) (c : Cx) (w : List Byte) (a : Acc) : Calm k l (bodyQuant c w a) := by
  refine Calm.mono ?_ m
  unfold bodyQuant
  try dsimp only
  repeat'
    first
    | exact rfl | exact .inr rfl | exact .inl rfl | exact Nat.le_refl _ | exact Nat.le_add_right _ _ | exact .refl _ | exact fun h => h | exact ⟨fun _ h => h, fun h => h⟩
    | with_reducible exact Evolves.refl _ _ | with_reducible refine Cx.load_ev ?_
    | with_reducible refine Cx.books_ev ?_ | with_reducible refine Cx.store_ev ?_
    | with_reducible refine Cx.putTscale_ev ?_ | with_reducible refine Cx.givenScales_ev ?_
    | with_reducible refine Evolves.foldl ?_ fun _ _ => ?_ | with_reducible refine Evolves.elim ?_ fun _ => ?_
    | with_reducible apply Evolves.ite | with_reducible exact Calm.pure _ | with_reducible exact Calm.get
    | with_reducible exact Calm.throw _ | with_reducible exact Calm.throwThe _ | with_reducible exact Calm.drawFree
    | with_reducible refine Calm.modify fun _ => ?_ | with_reducible exact Calm.need _ _
    | with_reducible refine Calm.liftR fun _ => ?_ | with_reducible apply Calm.ite
    | with_reducible refine Calm.bind ?_ fun _ => ?_ | with_reducible refine Calm.map ?_
    | with_reducible refine Calm.mapM fun _ => ?_ | with_reducible refine Calm.foldlM fun _ _ => ?_
    | with_reducible refine Calm.forM fun _ => ?_ | split

theorem bodyRequant_ev {k : Bool} {l : List Area}
    (m : Area.subset [.pins, .hub, .funcs, .msix, .ctxs, .tlb, .rings, .hbm, .pans, .clusters, .power, .log, .cmds, .replays,
      .hzn, .xparts, .atsInvals] l = true) (c : Cx) (w : List Byte) (a : Acc) : Calm k l (bodyRequant c w a) := by
  refine Calm.mono ?_ m
  unfold bodyRequant
  try dsimp only
  repeat'
    first
    | exact rfl | exact .inr rfl | exact .inl rfl | exact Nat.le_refl _ | exact Nat.le_add_right _ _ | exact .refl _ | exact fun h => h | exact ⟨fun _ h => h, fun h => h⟩
    | with_reducible exact Evolves.refl _ _ | with_reducible refine Cx.load_ev ?_
    | with_reducible refine Cx.givenScales_ev ?_ | with_reducible refine Cx.store_ev ?_
    | with_reducible refine Evolves.foldl ?_ fun _ _ => ?_ | with_reducible apply Evolves.ite
    | with_reducible exact Calm.pure _ | with_reducible exact Calm.get | with_reducible exact Calm.throw _
    | with_reducible exact Calm.throwThe _ | with_reducible exact Calm.drawFree
    | with_reducible refine Calm.modify fun _ => ?_ | with_reducible exact Calm.need _ _
    | with_reducible refine Calm.liftR fun _ => ?_ | with_reducible apply Calm.ite
    | with_reducible refine Calm.bind ?_ fun _ => ?_ | with_reducible refine Calm.map ?_
    | with_reducible refine Calm.mapM fun _ => ?_ | with_reducible refine Calm.foldlM fun _ _ => ?_
    | with_reducible refine Calm.forM fun _ => ?_ | split

theorem bodyDequant_ev {k : Bool} {l : List Area}
    (m : Area.subset [.pins, .hub, .funcs, .msix, .ctxs, .tlb, .rings, .hbm, .pans, .clusters, .power, .log, .cmds, .replays,
      .hzn, .xparts, .atsInvals] l = true) (c : Cx) (w : List Byte) (a : Acc) : Calm k l (bodyDequant c w a) := by
  refine Calm.mono ?_ m
  unfold bodyDequant
  try dsimp only
  repeat'
    first
    | exact rfl | exact .inr rfl | exact .inl rfl | exact Nat.le_refl _ | exact Nat.le_add_right _ _ | exact .refl _ | exact fun h => h | exact ⟨fun _ h => h, fun h => h⟩
    | with_reducible exact Evolves.refl _ _ | with_reducible refine Cx.load_ev ?_
    | with_reducible refine Cx.givenScales_ev ?_ | with_reducible refine Cx.store_ev ?_
    | with_reducible refine Evolves.foldl ?_ fun _ _ => ?_ | with_reducible apply Evolves.ite
    | with_reducible exact Calm.pure _ | with_reducible exact Calm.get | with_reducible exact Calm.throw _
    | with_reducible exact Calm.throwThe _ | with_reducible exact Calm.drawFree
    | with_reducible refine Calm.modify fun _ => ?_ | with_reducible exact Calm.need _ _
    | with_reducible refine Calm.liftR fun _ => ?_ | with_reducible apply Calm.ite
    | with_reducible refine Calm.bind ?_ fun _ => ?_ | with_reducible refine Calm.map ?_
    | with_reducible refine Calm.mapM fun _ => ?_ | with_reducible refine Calm.foldlM fun _ _ => ?_
    | with_reducible refine Calm.forM fun _ => ?_ | split

end Sys2Proof.Machine
end

