-- ==== Sys2Proof/Laws/Matrix.lean ====
section
/-! SUPPORT. What each operation of Sys2Proof/Machine/Matrix.lean may change, and how the state follows. -/

set_option Elab.async false
set_option linter.all false
namespace Sys2Proof.Machine

theorem bodyMatmul_ev {k : Bool} {l : List Area}
    (m : Area.subset [.pins, .hub, .funcs, .msix, .ctxs, .tlb, .rings, .hbm, .pans, .clusters, .power, .log, .cmds, .replays,
      .hzn, .xparts, .atsInvals] l = true) (c : Cx) (w : List Byte) (a : Acc) : Calm k l (bodyMatmul c w a) := by
  refine Calm.mono ?_ m
  unfold bodyMatmul
  try dsimp only
  repeat'
    first
    | exact rfl | exact .inr rfl | exact .inl rfl | exact Nat.le_refl _ | exact Nat.le_add_right _ _ | exact .refl _ | exact fun h => h | exact ⟨fun _ h => h, fun h => h⟩
    | with_reducible exact Evolves.refl _ _ | with_reducible refine Cx.load_ev ?_
    | with_reducible refine Cx.loadAll_ev ?_ | with_reducible refine Cx.books_ev ?_
    | with_reducible refine Cx.store_ev ?_ | with_reducible refine Evolves.foldl ?_ fun _ _ => ?_
    | with_reducible apply Evolves.ite | with_reducible exact Calm.pure _ | with_reducible exact Calm.get
    | with_reducible exact Calm.throw _ | with_reducible exact Calm.throwThe _ | with_reducible exact Calm.drawFree
    | with_reducible refine Calm.modify fun _ => ?_ | with_reducible exact Calm.need _ _
    | with_reducible refine Calm.liftR fun _ => ?_ | with_reducible apply Calm.ite
    | with_reducible refine Calm.bind ?_ fun _ => ?_ | with_reducible refine Calm.map ?_
    | with_reducible refine Calm.mapM fun _ => ?_ | with_reducible refine Calm.foldlM fun _ _ => ?_
    | with_reducible refine Calm.forM fun _ => ?_ | split

theorem Cx.loadPaged_ev {k : Bool} {l : List Area} {c : Cx} {t : TRef} {loops : List Nat} {i : List Nat} {pages : List Nat} {perPage : Nat}
    (m : Area.subset [.pins, .hub, .funcs, .msix, .ctxs, .tlb, .rings, .hbm, .pans, .clusters, .power, .log, .cmds, .replays,
      .hzn, .xparts, .atsInvals] l = true) : Calm k l (Cx.loadPaged c t loops i pages perPage) := by
  refine Calm.mono ?_ m
  unfold Cx.loadPaged
  try dsimp only
  repeat'
    first
    | exact rfl | exact .inr rfl | exact .inl rfl | exact Nat.le_refl _ | exact Nat.le_add_right _ _ | exact .refl _ | exact fun h => h | exact ⟨fun _ h => h, fun h => h⟩
    | with_reducible exact Evolves.refl _ _ | with_reducible refine Cx.read_ev ?_
    | with_reducible refine Cx.booksAt_ev ?_ | with_reducible refine Evolves.foldl ?_ fun _ _ => ?_
    | with_reducible apply Evolves.ite | with_reducible exact Calm.pure _ | with_reducible exact Calm.get
    | with_reducible exact Calm.throw _ | with_reducible exact Calm.throwThe _ | with_reducible exact Calm.drawFree
    | with_reducible refine Calm.modify fun _ => ?_ | with_reducible exact Calm.need _ _
    | with_reducible refine Calm.liftR fun _ => ?_ | with_reducible apply Calm.ite
    | with_reducible refine Calm.bind ?_ fun _ => ?_ | with_reducible refine Calm.map ?_
    | with_reducible refine Calm.mapM fun _ => ?_ | with_reducible refine Calm.foldlM fun _ _ => ?_
    | with_reducible refine Calm.forM fun _ => ?_ | split

theorem bodyAttend_ev {k : Bool} {l : List Area}
    (m : Area.subset [.pins, .hub, .funcs, .msix, .ctxs, .tlb, .rings, .hbm, .pans, .clusters, .power, .log, .cmds, .replays,
      .hzn, .xparts, .atsInvals] l = true) (c : Cx) (w : List Byte) (a : Acc) : Calm k l (bodyAttend c w a) := by
  refine Calm.mono ?_ m
  unfold bodyAttend
  try dsimp only
  repeat'
    first
    | exact rfl | exact .inr rfl | exact .inl rfl | exact Nat.le_refl _ | exact Nat.le_add_right _ _ | exact .refl _ | exact fun h => h | exact ⟨fun _ h => h, fun h => h⟩
    | with_reducible exact Evolves.refl _ _ | with_reducible refine Cx.load_ev ?_
    | with_reducible refine Cx.loadAll_ev ?_ | with_reducible refine Cx.loadPaged_ev ?_
    | with_reducible refine Cx.books_ev ?_ | with_reducible refine Cx.store_ev ?_
    | with_reducible refine Evolves.foldl ?_ fun _ _ => ?_ | with_reducible refine Evolves.foldl_snd ?_ fun _ _ => ?_
    | with_reducible refine Evolves.foldl_fst ?_ fun _ _ => ?_ | with_reducible refine Evolves.elim ?_ fun _ => ?_
    | with_reducible apply Evolves.ite | with_reducible exact Calm.pure _ | with_reducible exact Calm.get
    | with_reducible exact Calm.throw _ | with_reducible exact Calm.throwThe _ | with_reducible exact Calm.drawFree
    | with_reducible refine Calm.modify fun _ => ?_ | with_reducible exact Calm.need _ _
    | with_reducible refine Calm.liftR fun _ => ?_ | with_reducible apply Calm.ite
    | with_reducible refine Calm.bind ?_ fun _ => ?_ | with_reducible refine Calm.map ?_
    | with_reducible refine Calm.mapM fun _ => ?_ | with_reducible refine Calm.foldlM fun _ _ => ?_
    | with_reducible refine Calm.forM fun _ => ?_ | split

end Sys2Proof.Machine
end

