-- ==== Sys2Proof/Laws/Issue.lean ====
section
/-! SUPPORT. What each operation of Sys2Proof/Machine/Issue.lean may change, and how the state follows. -/

set_option Elab.async false
set_option linter.all false
namespace Sys2Proof.Machine

theorem Cx.readBound_ev {k : Bool} {l : List Area} {c : Cx} {v : Nat}
    (m : Area.subset [.pins, .hub, .funcs, .msix, .ctxs, .tlb, .rings, .hbm, .pans, .clusters, .power, .log, .cmds, .replays,
      .hzn, .xparts, .atsInvals] l = true) : Calm k l (Cx.readBound c v) := by
  refine Calm.mono ?_ m
  unfold Cx.readBound
  try dsimp only
  repeat'
    first
    | exact rfl | exact .inr rfl | exact .inl rfl | exact Nat.le_refl _ | exact Nat.le_add_right _ _ | exact .refl _ | exact fun h => h | exact ⟨fun _ h => h, fun h => h⟩
    | with_reducible exact Evolves.refl _ _ | with_reducible refine Cx.read_ev ?_
    | with_reducible refine Evolves.foldl ?_ fun _ _ => ?_ | with_reducible apply Evolves.ite
    | with_reducible exact Calm.pure _ | with_reducible exact Calm.get | with_reducible exact Calm.throw _
    | with_reducible exact Calm.throwThe _ | with_reducible exact Calm.drawFree
    | with_reducible refine Calm.modify fun _ => ?_ | with_reducible exact Calm.need _ _
    | with_reducible refine Calm.liftR fun _ => ?_ | with_reducible apply Calm.ite
    | with_reducible refine Calm.bind ?_ fun _ => ?_ | with_reducible refine Calm.map ?_
    | with_reducible refine Calm.mapM fun _ => ?_ | with_reducible refine Calm.foldlM fun _ _ => ?_
    | with_reducible refine Calm.forM fun _ => ?_ | split

theorem Cx.readBounds_ev {k : Bool} {l : List Area} {c : Cx} {ws : List (List Byte)}
    (m : Area.subset [.pins, .hub, .funcs, .msix, .ctxs, .tlb, .rings, .hbm, .pans, .clusters, .power, .log, .cmds, .replays,
      .hzn, .xparts, .atsInvals] l = true) : Calm k l (Cx.readBounds c ws) := by
  refine Calm.mono ?_ m
  unfold Cx.readBounds
  try dsimp only
  repeat'
    first
    | exact rfl | exact .inr rfl | exact .inl rfl | exact Nat.le_refl _ | exact Nat.le_add_right _ _ | exact .refl _ | exact fun h => h | exact ⟨fun _ h => h, fun h => h⟩
    | with_reducible exact Evolves.refl _ _ | with_reducible refine Cx.readBound_ev ?_
    | with_reducible refine Evolves.foldl ?_ fun _ _ => ?_ | with_reducible apply Evolves.ite
    | with_reducible exact Calm.pure _ | with_reducible exact Calm.get | with_reducible exact Calm.throw _
    | with_reducible exact Calm.throwThe _ | with_reducible exact Calm.drawFree
    | with_reducible refine Calm.modify fun _ => ?_ | with_reducible exact Calm.need _ _
    | with_reducible refine Calm.liftR fun _ => ?_ | with_reducible apply Calm.ite
    | with_reducible refine Calm.bind ?_ fun _ => ?_ | with_reducible refine Calm.map ?_
    | with_reducible refine Calm.mapM fun _ => ?_ | with_reducible refine Calm.foldlM fun _ _ => ?_
    | with_reducible refine Calm.forM fun _ => ?_ | split

theorem Cx.readPages_ev {k : Bool} {l : List Area} {c : Cx} {w : List Byte}
    (m : Area.subset [.pins, .hub, .funcs, .msix, .ctxs, .tlb, .rings, .hbm, .pans, .clusters, .power, .log, .cmds, .replays,
      .hzn, .xparts, .atsInvals] l = true) : Calm k l (Cx.readPages c w) := by
  refine Calm.mono ?_ m
  unfold Cx.readPages
  try dsimp only
  repeat'
    first
    | exact rfl | exact .inr rfl | exact .inl rfl | exact Nat.le_refl _ | exact Nat.le_add_right _ _ | exact .refl _ | exact fun h => h | exact ⟨fun _ h => h, fun h => h⟩
    | with_reducible exact Evolves.refl _ _ | with_reducible refine Cx.load_ev ?_
    | with_reducible refine Evolves.foldl ?_ fun _ _ => ?_ | with_reducible apply Evolves.ite
    | with_reducible exact Calm.pure _ | with_reducible exact Calm.get | with_reducible exact Calm.throw _
    | with_reducible exact Calm.throwThe _ | with_reducible exact Calm.drawFree
    | with_reducible refine Calm.modify fun _ => ?_ | with_reducible exact Calm.need _ _
    | with_reducible refine Calm.liftR fun _ => ?_ | with_reducible apply Calm.ite
    | with_reducible refine Calm.bind ?_ fun _ => ?_ | with_reducible refine Calm.map ?_
    | with_reducible refine Calm.mapM fun _ => ?_ | with_reducible refine Calm.foldlM fun _ _ => ?_
    | with_reducible refine Calm.forM fun _ => ?_ | split

theorem State.checkIssued_ev {k : Bool} {l : List Area} {s0 s : State} {x1 : Cmd} (h : Evolves k l s0 s)
    (m : Area.subset [.pins, .hub, .funcs, .msix, .windows, .parts, .ctxs, .trans, .tlb, .fences, .fenceFreed, .fenceLower,
      .rings, .objs, .hbm, .chip, .pans, .units, .clusters, .power, .log, .secs, .cmds, .replays, .hzn, .svcs,
      .sessions, .xparts, .invals, .atsInvals] l = true) : Evolves k l s0 (s.checkIssued x1) := by
  refine Evolves.after ?_ h m
  unfold State.checkIssued
  try dsimp only
  repeat'
    first
    | exact rfl | exact .inr rfl | exact .inl rfl | exact Nat.le_refl _ | exact Nat.le_add_right _ _ | exact .refl _ | exact fun h => h | exact ⟨fun _ h => h, fun h => h⟩
    | with_reducible exact Evolves.refl _ _ | with_reducible refine State.updCmd_ev ?_ ?_
    | with_reducible refine State.failCmd_ev ?_ ?_ | with_reducible refine Evolves.foldl ?_ fun _ _ => ?_
    | with_reducible apply Evolves.ite | split | with_reducible apply Evolves.upd

theorem State.issue_ev {k : Bool} {l : List Area} {s0 s : State} {x1 : Nat} {st : Nat} (h : Evolves k l s0 s)
    (m : Area.subset [.pins, .hub, .funcs, .msix, .windows, .parts, .ctxs, .trans, .tlb, .fences, .fenceFreed, .fenceLower,
      .rings, .objs, .hbm, .chip, .pans, .units, .clusters, .power, .log, .secs, .cmds, .replays, .hzn, .svcs,
      .sessions, .xparts, .invals, .atsInvals] l = true) : Evolves k l s0 (s.issue x1 st) := by
  refine Evolves.after ?_ h m
  unfold State.issue
  try dsimp only
  repeat'
    first
    | exact rfl | exact .inr rfl | exact .inl rfl | exact Nat.le_refl _ | exact Nat.le_add_right _ _ | exact .refl _ | exact fun h => h | exact ⟨fun _ h => h, fun h => h⟩
    | with_reducible exact Evolves.refl _ _ | with_reducible refine State.updSec_ev ?_ ?_
    | with_reducible refine State.enterCmd_ev ?_ ?_ | with_reducible refine Cx.readBounds_ev ?_
    | with_reducible refine State.failCmd_ev ?_ ?_ | with_reducible refine State.checkIssued_ev ?_ ?_
    | with_reducible refine State.updCmd_ev ?_ ?_ | with_reducible refine Evolves.foldl ?_ fun _ _ => ?_
    | with_reducible apply Evolves.ite | with_reducible refine Evolves.run ?_ ?_ | split
    | refine Evolves.of_snd (by assumption) ?_ | with_reducible apply Evolves.upd

theorem State.holdUnits_ev {k : Bool} {l : List Area} {s0 s : State} {x1 : Cmd} (h : Evolves k l s0 s)
    (m : Area.subset [.units] l = true) : Evolves k l s0 (s.holdUnits x1) := by
  refine Evolves.after ?_ h m
  unfold State.holdUnits
  try dsimp only
  repeat'
    first
    | exact rfl | exact .inr rfl | exact .inl rfl | exact Nat.le_refl _ | exact Nat.le_add_right _ _ | exact .refl _ | exact fun h => h
    | with_reducible exact Evolves.refl _ _ | with_reducible refine State.updUn_ev ?_ ?_
    | with_reducible refine Evolves.foldl ?_ fun _ _ => ?_ | with_reducible apply Evolves.ite | split
    | with_reducible apply Evolves.upd

theorem State.takeRoute_ev {k : Bool} {l : List Area} {s0 s : State} {x1 : Nat} {st : Nat} {ref : CmdRef} {r : Nat} {n : Nat} (h : Evolves k l s0 s)
    (m : Area.subset [.units, .secs, .cmds] l = true) : Evolves k l s0 (s.takeRoute x1 st ref r n) := by
  refine Evolves.after ?_ h m
  unfold State.takeRoute
  try dsimp only
  repeat'
    first
    | exact rfl | exact .inr rfl | exact .inl rfl | exact Nat.le_refl _ | exact Nat.le_add_right _ _ | exact .refl _ | exact fun h => h
    | with_reducible exact Evolves.refl _ _ | with_reducible refine State.updSec_ev ?_ ?_
    | with_reducible refine State.holdUnits_ev ?_ ?_ | with_reducible refine State.updCmd_ev ?_ ?_
    | with_reducible refine Evolves.foldl ?_ fun _ _ => ?_ | with_reducible apply Evolves.ite | split
    | with_reducible apply Evolves.upd

theorem State.takeFrames_ev {k : Bool} {l : List Area} {s0 s : State} {x1 : Nat} (h : Evolves k l s0 s)
    (m : Area.subset [.units, .secs, .cmds] l = true) : Evolves k l s0 (s.takeFrames x1) := by
  refine Evolves.after ?_ h m
  unfold State.takeFrames
  try dsimp only
  repeat'
    first
    | exact rfl | exact .inr rfl | exact .inl rfl | exact Nat.le_refl _ | exact Nat.le_add_right _ _ | exact .refl _ | exact fun h => h
    | with_reducible exact Evolves.refl _ _ | with_reducible refine State.takeRoute_ev ?_ ?_
    | with_reducible refine Evolves.foldl ?_ fun _ _ => ?_ | with_reducible apply Evolves.ite | split
    | with_reducible apply Evolves.upd

theorem State.holdFrames_ev {k : Bool} {l : List Area} {s0 s : State} {x1 : Nat} {fs : List (Nat × SFrame)} (h : Evolves k l s0 s)
    (m : Area.subset [.secs] l = true) : Evolves k l s0 (s.holdFrames x1 fs) := by
  refine Evolves.after ?_ h m
  unfold State.holdFrames
  try dsimp only
  repeat'
    first
    | exact rfl | exact .inr rfl | exact .inl rfl | exact Nat.le_refl _ | exact Nat.le_add_right _ _ | exact .refl _ | exact fun h => h
    | with_reducible exact Evolves.refl _ _ | with_reducible refine State.updSec_ev ?_ ?_
    | with_reducible refine Evolves.foldl ?_ fun _ _ => ?_ | with_reducible apply Evolves.ite | split
    | with_reducible apply Evolves.upd

theorem State.enqueue_ev {k : Bool} {l : List Area} {s0 s : State} {u : Nat} {b : Nat × Nat} (h : Evolves k l s0 s)
    (m : Area.subset [.pins, .hub, .funcs, .msix, .windows, .parts, .ctxs, .trans, .tlb, .fences, .fenceFreed, .fenceLower,
      .rings, .objs, .hbm, .chip, .pans, .units, .clusters, .power, .log, .secs, .cmds, .replays, .hzn, .svcs,
      .sessions, .xparts, .invals, .atsInvals] l = true) : Evolves k l s0 (s.enqueue u b) := by
  refine Evolves.after ?_ h m
  unfold State.enqueue
  try dsimp only
  repeat'
    first
    | exact rfl | exact .inr rfl | exact .inl rfl | exact Nat.le_refl _ | exact Nat.le_add_right _ _ | exact .refl _ | exact fun h => h | exact ⟨fun _ h => h, fun h => h⟩
    | with_reducible exact Evolves.refl _ _ | with_reducible refine State.updUn_ev ?_ ?_
    | with_reducible refine State.takeFrames_ev ?_ ?_ | with_reducible refine State.issue_ev ?_ ?_
    | with_reducible refine Evolves.foldl ?_ fun _ _ => ?_ | with_reducible apply Evolves.ite | split
    | with_reducible apply Evolves.upd

theorem execQueueAdmission_ev {k : Bool} {l : List Area} {s : State} {core : Nat} {unit : UnitKind}
    (m : Area.subset [.pins, .hub, .funcs, .msix, .windows, .parts, .ctxs, .trans, .tlb, .fences, .fenceFreed, .fenceLower,
      .rings, .objs, .hbm, .chip, .pans, .units, .clusters, .power, .log, .secs, .cmds, .replays, .hzn, .svcs,
      .sessions, .xparts, .invals, .atsInvals] l = true) : EvolvesOut k l s (execQueueAdmission core unit s) := by
  refine EvolvesOut.mono ?_ m
  unfold execQueueAdmission
  try dsimp only
  repeat'
    first
    | exact rfl | exact .inr rfl | exact .inl rfl | exact Nat.le_refl _ | exact Nat.le_add_right _ _ | exact .refl _ | exact fun h => h | exact ⟨fun _ h => h, fun h => h⟩
    | with_reducible exact Evolves.refl _ _ | with_reducible refine State.enqueue_ev ?_ ?_
    | with_reducible refine State.updUn_ev ?_ ?_ | with_reducible refine Evolves.foldl ?_ fun _ _ => ?_
    | with_reducible apply Evolves.ite | with_reducible apply EvolvesOut.next | with_reducible exact EvolvesOut.fault
    | with_reducible apply EvolvesOut.ite | split | with_reducible apply Evolves.upd

theorem State.finishWork_ev {k : Bool} {l : List Area} {s0 s : State} {x1 : Cmd} {a : Acc} {infos : List RecInfo} (h : Evolves k l s0 s)
    (m : Area.subset [.secs, .cmds] l = true) : Evolves k l s0 (s.finishWork x1 a infos) := by
  refine Evolves.after ?_ h m
  unfold State.finishWork
  try dsimp only
  repeat'
    first
    | exact rfl | exact .inr rfl | exact .inl rfl | exact Nat.le_refl _ | exact Nat.le_add_right _ _ | exact .refl _ | exact fun h => h
    | with_reducible exact Evolves.refl _ _ | with_reducible refine State.updCmd_ev ?_ ?_
    | with_reducible refine State.holdFrames_ev ?_ ?_ | with_reducible refine Evolves.foldl ?_ fun _ _ => ?_
    | with_reducible apply Evolves.ite | split | with_reducible apply Evolves.upd

theorem State.occupy_ev {k : Bool} {l : List Area} {s0 s : State} {x1 : Cmd} {hold : Bool} (h : Evolves k l s0 s)
    (m : Area.subset [.units] l = true) : Evolves k l s0 (s.occupy x1 hold) := by
  refine Evolves.after ?_ h m
  unfold State.occupy
  try dsimp only
  repeat'
    first
    | exact rfl | exact .inr rfl | exact .inl rfl | exact Nat.le_refl _ | exact Nat.le_add_right _ _ | exact .refl _ | exact fun h => h
    | with_reducible exact Evolves.refl _ _ | with_reducible refine State.updUn_ev ?_ ?_
    | with_reducible refine Evolves.foldl ?_ fun _ _ => ?_ | with_reducible apply Evolves.ite | split
    | with_reducible apply Evolves.upd

theorem State.chargeCmd_ev {k : Bool} {l : List Area} {s0 s : State} {x1 : Cmd} (h : Evolves k l s0 s)
    (m : Area.subset [.pins, .hub, .funcs, .msix, .tokens, .ctxs, .tlb, .rings, .hbm, .pans, .clusters, .power, .log, .cmds,
      .replays, .hzn, .xparts, .atsInvals] l = true) : Evolves k l s0 (s.chargeCmd x1) := by
  refine Evolves.after ?_ h m
  unfold State.chargeCmd
  try dsimp only
  repeat'
    first
    | exact rfl | exact .inr rfl | exact .inl rfl | exact Nat.le_refl _ | exact Nat.le_add_right _ _ | exact .refl _ | exact fun h => h | exact ⟨fun _ h => h, fun h => h⟩
    | with_reducible exact Evolves.refl _ _ | with_reducible refine State.chargeAll_ev ?_ ?_
    | with_reducible refine State.updCmd_ev ?_ ?_ | with_reducible refine Evolves.foldl ?_ fun _ _ => ?_
    | with_reducible apply Evolves.ite | split | refine Evolves.of_snd (by assumption) ?_
    | with_reducible apply Evolves.upd

theorem State.vectorBusy_ev {k : Bool} {l : List Area} {s0 s : State} {x1 : Cmd} (h : Evolves k l s0 s)
    (m : Area.subset [.msix, .clusters] l = true) : Evolves k l s0 (s.vectorBusy x1) := by
  refine Evolves.after ?_ h m
  unfold State.vectorBusy
  try dsimp only
  repeat'
    first
    | exact rfl | exact .inr rfl | exact .inl rfl | exact Nat.le_refl _ | exact Nat.le_add_right _ _ | exact .refl _ | exact fun h => h
    | with_reducible exact Evolves.refl _ _ | with_reducible refine State.perf_ev ?_ ?_
    | with_reducible refine Evolves.foldl ?_ fun _ _ => ?_ | with_reducible apply Evolves.ite | split
    | with_reducible apply Evolves.upd

theorem State.runUnit_ev {k : Bool} {l : List Area} {s0 s : State} {ref : CmdRef} {op : Nat} {body : Body} (h : Evolves k l s0 s)
    (m : Area.subset [.pins, .hub, .funcs, .msix, .windows, .parts, .tokens, .ctxs, .trans, .tlb, .fences, .fenceFreed,
      .fenceLower, .rings, .objs, .hbm, .chip, .pans, .units, .clusters, .power, .log, .secs, .cmds, .replays,
      .hzn, .svcs, .sessions, .xparts, .invals, .atsInvals] l = true) (hb : ∀ c w a, Calm k l (body c w a)) : Evolves k l s0 (s.runUnit ref op body) := by
  unfold State.runUnit
  try dsimp only
  repeat'
    first
    | with_reducible exact h | exact Area.subset_trans rfl m | exact .inr (Area.contains_of m rfl) | exact .inl rfl
    | with_reducible refine hb _ _ _
    | exact rfl | exact .inr rfl | exact .inl rfl | exact Nat.le_refl _ | exact Nat.le_add_right _ _ | exact .refl _ | exact fun h => h | exact ⟨fun _ h => h, fun h => h⟩
    | with_reducible exact Evolves.refl _ _ | with_reducible refine State.takeFrames_ev ?_ ?_
    | with_reducible refine State.occupy_ev ?_ ?_ | with_reducible refine State.finishWork_ev ?_ ?_
    | with_reducible refine State.chargeCmd_ev ?_ ?_ | with_reducible refine State.failCmd_ev ?_ ?_
    | with_reducible refine State.vectorBusy_ev ?_ ?_ | with_reducible refine Evolves.foldl ?_ fun _ _ => ?_
    | with_reducible refine Evolves.elim ?_ fun _ => ?_ | with_reducible apply Evolves.ite
    | with_reducible refine Evolves.run ?_ ?_ | split | refine Evolves.of_snd (by assumption) ?_
    | with_reducible apply Evolves.upd

theorem State.takeUp_ev {k : Bool} {l : List Area} {s0 s : State} {ref : CmdRef} {op : Nat} (h : Evolves k l s0 s)
    (m : Area.subset [.pins, .hub, .funcs, .msix, .windows, .parts, .ctxs, .trans, .tlb, .fences, .fenceFreed, .fenceLower,
      .rings, .objs, .hbm, .chip, .pans, .units, .clusters, .power, .log, .secs, .cmds, .replays, .hzn, .svcs,
      .sessions, .xparts, .invals, .atsInvals] l = true) : Evolves k l s0 (s.takeUp ref op) := by
  refine Evolves.after ?_ h m
  unfold State.takeUp
  try dsimp only
  repeat'
    first
    | exact rfl | exact .inr rfl | exact .inl rfl | exact Nat.le_refl _ | exact Nat.le_add_right _ _ | exact .refl _ | exact fun h => h | exact ⟨fun _ h => h, fun h => h⟩
    | with_reducible exact Evolves.refl _ _ | with_reducible refine State.takeFrames_ev ?_ ?_
    | with_reducible refine State.issue_ev ?_ ?_ | with_reducible refine Evolves.foldl ?_ fun _ _ => ?_
    | with_reducible apply Evolves.ite | split | with_reducible apply Evolves.upd

end Sys2Proof.Machine
end

