-- ==== Sys2Proof/Laws/Pan.lean ====
section
/-! SUPPORT. What each operation of Sys2Proof/Machine/Pan.lean may change, and how the state follows. -/

set_option Elab.async false
set_option linter.all false
namespace Sys2Proof.Machine

theorem Cx.weightAt_ev {k : Bool} {l : List Area} {c : Cx} {w : List Byte} {tag : WTag}
    (m : Area.subset [.pins, .hub, .funcs, .msix, .ctxs, .tlb, .rings, .hbm, .pans, .clusters, .power, .log, .cmds, .replays,
      .hzn, .xparts, .atsInvals] l = true) : Calm k l (Cx.weightAt c w tag) := by
  refine Calm.mono ?_ m
  unfold Cx.weightAt
  try dsimp only
  repeat'
    first
    | exact rfl | exact .inr rfl | exact .inl rfl | exact Nat.le_refl _ | exact Nat.le_add_right _ _ | exact .refl _ | exact fun h => h | exact ⟨fun _ h => h, fun h => h⟩
    | with_reducible exact Evolves.refl _ _ | with_reducible refine Cx.load_ev ?_
    | with_reducible refine Cx.loadPaged_ev ?_ | with_reducible refine Evolves.foldl ?_ fun _ _ => ?_
    | with_reducible apply Evolves.ite | with_reducible exact Calm.pure _ | with_reducible exact Calm.get
    | with_reducible exact Calm.throw _ | with_reducible exact Calm.throwThe _ | with_reducible exact Calm.drawFree
    | with_reducible refine Calm.modify fun _ => ?_ | with_reducible exact Calm.need _ _
    | with_reducible refine Calm.liftR fun _ => ?_ | with_reducible apply Calm.ite
    | with_reducible refine Calm.bind ?_ fun _ => ?_ | with_reducible refine Calm.map ?_
    | with_reducible refine Calm.mapM fun _ => ?_ | with_reducible refine Calm.foldlM fun _ _ => ?_
    | with_reducible refine Calm.forM fun _ => ?_ | split

theorem State.prefetched_ev {k : Bool} {l : List Area} {s0 s : State} {ref : Option CmdRef} (h : Evolves k l s0 s)
    (m : Area.subset [.cmds] l = true) : Evolves k l s0 (s.prefetched ref) := by
  refine Evolves.after ?_ h m
  unfold State.prefetched
  try dsimp only
  repeat'
    first
    | exact rfl | exact .inr rfl | exact .inl rfl | exact Nat.le_refl _ | exact Nat.le_add_right _ _ | exact .refl _ | exact fun h => h
    | with_reducible exact Evolves.refl _ _ | with_reducible refine State.updCmd_ev ?_ ?_
    | with_reducible refine Evolves.foldl ?_ fun _ _ => ?_ | with_reducible apply Evolves.ite | split
    | with_reducible apply Evolves.upd

theorem State.startLoad_ev {k : Bool} {l : List Area} {s0 s : State} {pan : Nat} {w : WSet} {ref : CmdRef} (h : Evolves k l s0 s)
    (m : Area.subset [.pans, .cmds] l = true) : Evolves k l s0 (s.startLoad pan w ref) := by
  refine Evolves.after ?_ h m
  unfold State.startLoad
  try dsimp only
  repeat'
    first
    | exact rfl | exact .inr rfl | exact .inl rfl | exact Nat.le_refl _ | exact Nat.le_add_right _ _ | exact .refl _ | exact fun h => h
    | with_reducible exact Evolves.refl _ _ | with_reducible refine State.updPan_ev ?_ ?_
    | with_reducible refine State.prefetched_ev ?_ ?_ | with_reducible refine Evolves.foldl ?_ fun _ _ => ?_
    | with_reducible apply Evolves.ite | split | with_reducible apply Evolves.upd

theorem execWeightSetLoad_ev {k : Bool} {l : List Area} {s : State} {pan : Nat}
    (m : Area.subset [.pins, .hub, .funcs, .msix, .windows, .parts, .ctxs, .trans, .tlb, .fences, .fenceFreed, .fenceLower,
      .rings, .objs, .hbm, .chip, .pans, .units, .clusters, .power, .log, .secs, .cmds, .replays, .hzn, .svcs,
      .sessions, .xparts, .invals, .atsInvals] l = true) : EvolvesOut k l s (execWeightSetLoad pan s) := by
  refine EvolvesOut.mono ?_ m
  unfold execWeightSetLoad
  try dsimp only
  repeat'
    first
    | exact rfl | exact .inr rfl | exact .inl rfl | exact Nat.le_refl _ | exact Nat.le_add_right _ _ | exact .refl _ | exact fun h => h | exact ⟨fun _ h => h, fun h => h⟩
    | with_reducible exact Evolves.refl _ _ | with_reducible refine Cx.weightAt_ev ?_
    | with_reducible refine State.failCmd_ev ?_ ?_ | with_reducible refine State.startLoad_ev ?_ ?_
    | with_reducible refine Evolves.foldl ?_ fun _ _ => ?_ | with_reducible apply Evolves.ite
    | with_reducible apply EvolvesOut.next | with_reducible exact EvolvesOut.fault
    | with_reducible apply EvolvesOut.ite | with_reducible refine Evolves.run ?_ ?_ | split
    | refine Evolves.of_snd (by assumption) ?_ | with_reducible apply Evolves.upd

theorem execWeightSetComplete_ev {k : Bool} {l : List Area} {s : State} {pan : Nat}
    (m : Area.subset [.pans, .cmds] l = true) : EvolvesOut k l s (execWeightSetComplete pan s) := by
  refine EvolvesOut.mono ?_ m
  unfold execWeightSetComplete
  try dsimp only
  repeat'
    first
    | exact rfl | exact .inr rfl | exact .inl rfl | exact Nat.le_refl _ | exact Nat.le_add_right _ _ | exact .refl _ | exact fun h => h
    | with_reducible exact Evolves.refl _ _ | with_reducible refine State.prefetched_ev ?_ ?_
    | with_reducible refine State.updPan_ev ?_ ?_ | with_reducible refine Evolves.foldl ?_ fun _ _ => ?_
    | with_reducible apply Evolves.ite | with_reducible apply EvolvesOut.next | with_reducible exact EvolvesOut.fault
    | with_reducible apply EvolvesOut.ite | split | with_reducible apply Evolves.upd

theorem execPanStartAdmission_ev {k : Bool} {l : List Area} {s : State} {pan : Nat} {t : Nat}
    (m : Area.subset [.time, .pans, .power] l = true) : EvolvesOut k l s (execPanStartAdmission pan t s) := by
  refine EvolvesOut.mono ?_ m
  unfold execPanStartAdmission
  try dsimp only
  repeat'
    first
    | exact rfl | exact .inr rfl | exact .inl rfl | exact Nat.le_refl _ | exact Nat.le_add_right _ _ | exact .refl _ | exact fun h => h
    | with_reducible exact Evolves.refl _ _ | with_reducible refine State.atTime_ev ?_ ?_
    | with_reducible refine State.updPan_ev ?_ ?_ | with_reducible refine Evolves.foldl ?_ fun _ _ => ?_
    | with_reducible apply Evolves.ite | with_reducible apply EvolvesOut.next | with_reducible exact EvolvesOut.fault
    | with_reducible apply EvolvesOut.ite | split | with_reducible apply Evolves.upd

theorem execPanRampDown_ev {k : Bool} {l : List Area} {s : State} {pan : Nat} {t : Nat}
    (m : Area.subset [.time, .pans, .power] l = true) : EvolvesOut k l s (execPanRampDown pan t s) := by
  refine EvolvesOut.mono ?_ m
  unfold execPanRampDown
  try dsimp only
  repeat'
    first
    | exact rfl | exact .inr rfl | exact .inl rfl | exact Nat.le_refl _ | exact Nat.le_add_right _ _ | exact .refl _ | exact fun h => h
    | with_reducible exact Evolves.refl _ _ | with_reducible refine State.updPan_ev ?_ ?_
    | with_reducible refine State.atTime_ev ?_ ?_ | with_reducible refine Evolves.foldl ?_ fun _ _ => ?_
    | with_reducible apply Evolves.ite | with_reducible apply EvolvesOut.next | with_reducible exact EvolvesOut.fault
    | with_reducible apply EvolvesOut.ite | split | with_reducible apply Evolves.upd

theorem State.askStart_ev {k : Bool} {l : List Area} {s0 s : State} {pan : Nat} {lc : Bool} (h : Evolves k l s0 s)
    (m : Area.subset [.pans, .power] l = true) : Evolves k l s0 (s.askStart pan lc) := by
  refine Evolves.after ?_ h m
  unfold State.askStart
  try dsimp only
  repeat'
    first
    | exact rfl | exact .inr rfl | exact .inl rfl | exact Nat.le_refl _ | exact Nat.le_add_right _ _ | exact .refl _ | exact fun h => h
    | with_reducible exact Evolves.refl _ _ | with_reducible refine State.updPan_ev ?_ ?_
    | with_reducible refine Evolves.foldl ?_ fun _ _ => ?_ | with_reducible apply Evolves.ite | split
    | with_reducible apply Evolves.upd

theorem State.issueOp_ev {k : Bool} {l : List Area} {s0 s : State} {pan : Nat} {x2 : Cmd} {w : List Byte} {i : Nat} {op : Option SetKey} (h : Evolves k l s0 s)
    (m : Area.subset [.msix, .pans, .units, .clusters, .cmds] l = true) : Evolves k l s0 (s.issueOp pan x2 w i op) := by
  refine Evolves.after ?_ h m
  unfold State.issueOp
  try dsimp only
  repeat'
    first
    | exact rfl | exact .inr rfl | exact .inl rfl | exact Nat.le_refl _ | exact Nat.le_add_right _ _ | exact .refl _ | exact fun h => h
    | with_reducible exact Evolves.refl _ _ | with_reducible refine State.updPan_ev ?_ ?_
    | with_reducible refine State.holdUnits_ev ?_ ?_ | with_reducible refine State.updCmd_ev ?_ ?_
    | with_reducible refine State.perf_ev ?_ ?_ | with_reducible refine Evolves.foldl ?_ fun _ _ => ?_
    | with_reducible apply Evolves.ite | split | with_reducible apply Evolves.upd

theorem execPanOperationIssue_ev {k : Bool} {l : List Area} {s : State} {pan : Nat}
    (m : Area.subset [.msix, .pans, .units, .clusters, .power, .secs, .cmds] l = true) : EvolvesOut k l s (execPanOperationIssue pan s) := by
  refine EvolvesOut.mono ?_ m
  unfold execPanOperationIssue
  try dsimp only
  repeat'
    first
    | exact rfl | exact .inr rfl | exact .inl rfl | exact Nat.le_refl _ | exact Nat.le_add_right _ _ | exact .refl _ | exact fun h => h
    | with_reducible exact Evolves.refl _ _ | with_reducible refine State.takeFrames_ev ?_ ?_
    | with_reducible refine State.issueOp_ev ?_ ?_ | with_reducible refine State.askStart_ev ?_ ?_
    | with_reducible refine Evolves.foldl ?_ fun _ _ => ?_ | with_reducible apply Evolves.ite
    | with_reducible apply EvolvesOut.next | with_reducible exact EvolvesOut.fault
    | with_reducible apply EvolvesOut.ite | split | with_reducible apply Evolves.upd

theorem State.clearRegTags_ev {k : Bool} {l : List Area} {s0 s : State} {x1 : Nat} (h : Evolves k l s0 s)
    (m : Area.subset [.pans] l = true) : Evolves k l s0 (s.clearRegTags x1) := by
  refine Evolves.after ?_ h m
  unfold State.clearRegTags
  try dsimp only
  repeat'
    first
    | exact rfl | exact .inr rfl | exact .inl rfl | exact Nat.le_refl _ | exact Nat.le_add_right _ _ | exact .refl _ | exact fun h => h
    | with_reducible exact Evolves.refl _ _ | with_reducible refine Evolves.foldl ?_ fun _ _ => ?_
    | with_reducible apply Evolves.ite | split | with_reducible apply Evolves.upd

end Sys2Proof.Machine
end

