-- ==== Sys2Proof/Laws/Move.lean ====
section
/-! SUPPORT. What each operation of Sys2Proof/Machine/Move.lean may change, and how the state follows. -/

set_option Elab.async false
set_option linter.all false
namespace Sys2Proof.Machine

theorem Cx.elemScales_ev {k : Bool} {l : List Area} {c : Cx} {t : TRef}
    (m : Area.subset [.pins, .hub, .funcs, .msix, .ctxs, .tlb, .rings, .hbm, .pans, .clusters, .power, .log, .cmds, .replays,
      .hzn, .xparts, .atsInvals] l = true) : Calm k l (Cx.elemScales c t) := by
  refine Calm.mono ?_ m
  unfold Cx.elemScales
  try dsimp only
  repeat'
    first
    | exact rfl | exact .inr rfl | exact .inl rfl | exact Nat.le_refl _ | exact Nat.le_add_right _ _ | exact .refl _ | exact fun h => h | exact ⟨fun _ h => h, fun h => h⟩
    | with_reducible exact Evolves.refl _ _ | with_reducible refine Cx.read_ev ?_
    | with_reducible refine Evolves.foldl ?_ fun _ _ => ?_ | with_reducible apply Evolves.ite
    | with_reducible exact Calm.pure _ | with_reducible exact Calm.get | with_reducible exact Calm.throw _
    | with_reducible exact Calm.throwThe _ | with_reducible exact Calm.drawFree
    | with_reducible refine Calm.modify fun _ => ?_ | with_reducible exact Calm.need _ _
    | with_reducible refine Calm.liftR fun _ => ?_ | with_reducible apply Calm.ite
    | with_reducible refine Calm.bind ?_ fun _ => ?_ | with_reducible refine Calm.map ?_
    | with_reducible refine Calm.mapM fun _ => ?_ | with_reducible refine Calm.foldlM fun _ _ => ?_
    | with_reducible refine Calm.forM fun _ => ?_ | split

theorem Cx.put_ev {k : Bool} {l : List Area} {c : Cx} {a : Acc} {d : TRef} {ext : List Nat} {codes : List Nat} {scs : Option (List Nat)}
    (m : Area.subset [.pins, .hub, .funcs, .msix, .ctxs, .tlb, .rings, .hbm, .pans, .clusters, .power, .log, .cmds, .replays,
      .hzn, .xparts, .atsInvals] l = true) : Calm k l (Cx.put c a d ext codes scs) := by
  refine Calm.mono ?_ m
  unfold Cx.put
  try dsimp only
  repeat'
    first
    | exact rfl | exact .inr rfl | exact .inl rfl | exact Nat.le_refl _ | exact Nat.le_add_right _ _ | exact .refl _ | exact fun h => h | exact ⟨fun _ h => h, fun h => h⟩
    | with_reducible exact Evolves.refl _ _ | with_reducible refine Cx.store_ev ?_
    | with_reducible refine Cx.givenScales_ev ?_ | with_reducible refine Evolves.foldl ?_ fun _ _ => ?_
    | with_reducible apply Evolves.ite | with_reducible exact Calm.pure _ | with_reducible exact Calm.get
    | with_reducible exact Calm.throw _ | with_reducible exact Calm.throwThe _ | with_reducible exact Calm.drawFree
    | with_reducible refine Calm.modify fun _ => ?_ | with_reducible exact Calm.need _ _
    | with_reducible refine Calm.liftR fun _ => ?_ | with_reducible apply Calm.ite
    | with_reducible refine Calm.bind ?_ fun _ => ?_ | with_reducible refine Calm.map ?_
    | with_reducible refine Calm.mapM fun _ => ?_ | with_reducible refine Calm.foldlM fun _ _ => ?_
    | with_reducible refine Calm.forM fun _ => ?_ | split

theorem bodyCopy_ev {k : Bool} {l : List Area}
    (m : Area.subset [.pins, .hub, .funcs, .msix, .ctxs, .tlb, .rings, .hbm, .pans, .clusters, .power, .log, .cmds, .replays,
      .hzn, .xparts, .atsInvals] l = true) (c : Cx) (w : List Byte) (a : Acc) : Calm k l (bodyCopy c w a) := by
  refine Calm.mono ?_ m
  unfold bodyCopy
  try dsimp only
  repeat'
    first
    | exact rfl | exact .inr rfl | exact .inl rfl | exact Nat.le_refl _ | exact Nat.le_add_right _ _ | exact .refl _ | exact fun h => h | exact ⟨fun _ h => h, fun h => h⟩
    | with_reducible exact Evolves.refl _ _ | with_reducible refine Cx.load_ev ?_
    | with_reducible refine Cx.elemScales_ev ?_ | with_reducible refine Cx.put_ev ?_
    | with_reducible refine State.updCmd_ev ?_ ?_ | with_reducible refine Evolves.foldl ?_ fun _ _ => ?_
    | with_reducible apply Evolves.ite | with_reducible exact Calm.pure _ | with_reducible exact Calm.get
    | with_reducible exact Calm.throw _ | with_reducible exact Calm.throwThe _ | with_reducible exact Calm.drawFree
    | with_reducible refine Calm.modify fun _ => ?_ | with_reducible exact Calm.need _ _
    | with_reducible refine Calm.liftR fun _ => ?_ | with_reducible apply Calm.ite
    | with_reducible refine Calm.bind ?_ fun _ => ?_ | with_reducible refine Calm.map ?_
    | with_reducible refine Calm.mapM fun _ => ?_ | with_reducible refine Calm.foldlM fun _ _ => ?_
    | with_reducible refine Calm.forM fun _ => ?_ | split

theorem execCopy_ev {k : Bool} {l : List Area} {s : State} {ref : CmdRef}
    (m : Area.subset [.pins, .hub, .funcs, .msix, .windows, .parts, .tokens, .ctxs, .trans, .tlb, .fences, .fenceFreed,
      .fenceLower, .rings, .objs, .hbm, .chip, .pans, .units, .clusters, .power, .log, .secs, .cmds, .replays,
      .hzn, .svcs, .sessions, .xparts, .invals, .atsInvals] l = true) : EvolvesOut k l s (execCopy ref s) := by
  refine EvolvesOut.mono ?_ m
  unfold execCopy
  try dsimp only
  repeat'
    first
    | exact rfl | exact .inr rfl | exact .inl rfl | exact Nat.le_refl _ | exact Nat.le_add_right _ _ | exact .refl _ | exact fun h => h | exact ⟨fun _ h => h, fun h => h⟩
    | with_reducible exact Evolves.refl _ _ | with_reducible refine State.runUnit_ev ?_ ?_ fun _ _ _ => ?_
    | with_reducible refine bodyCopy_ev ?_ _ _ _ | with_reducible refine Evolves.foldl ?_ fun _ _ => ?_
    | with_reducible apply Evolves.ite | with_reducible apply EvolvesOut.next | with_reducible exact EvolvesOut.fault
    | with_reducible apply EvolvesOut.ite | split | with_reducible apply Evolves.upd

theorem Cx.withScales_ev {k : Bool} {l : List Area} {c : Cx} {chain : Option Tens} {x2 : Nat}
    (m : Area.subset [.pins, .hub, .funcs, .msix, .ctxs, .tlb, .rings, .hbm, .pans, .clusters, .power, .log, .cmds, .replays,
      .hzn, .xparts, .atsInvals] l = true) : Calm k l (Cx.withScales c chain x2) := by
  refine Calm.mono ?_ m
  unfold Cx.withScales
  try dsimp only
  repeat'
    first
    | exact rfl | exact .inr rfl | exact .inl rfl | exact Nat.le_refl _ | exact Nat.le_add_right _ _ | exact .refl _ | exact fun h => h | exact ⟨fun _ h => h, fun h => h⟩
    | with_reducible exact Evolves.refl _ _ | with_reducible refine Cx.load_ev ?_
    | with_reducible refine Cx.elemScales_ev ?_ | with_reducible refine Evolves.foldl ?_ fun _ _ => ?_
    | with_reducible apply Evolves.ite | with_reducible exact Calm.pure _ | with_reducible exact Calm.get
    | with_reducible exact Calm.throw _ | with_reducible exact Calm.throwThe _ | with_reducible exact Calm.drawFree
    | with_reducible refine Calm.modify fun _ => ?_ | with_reducible exact Calm.need _ _
    | with_reducible refine Calm.liftR fun _ => ?_ | with_reducible apply Calm.ite
    | with_reducible refine Calm.bind ?_ fun _ => ?_ | with_reducible refine Calm.map ?_
    | with_reducible refine Calm.mapM fun _ => ?_ | with_reducible refine Calm.foldlM fun _ _ => ?_
    | with_reducible refine Calm.forM fun _ => ?_ | split

theorem bodyGather_ev {k : Bool} {l : List Area}
    (m : Area.subset [.pins, .hub, .funcs, .msix, .ctxs, .tlb, .rings, .hbm, .pans, .clusters, .power, .log, .cmds, .replays,
      .hzn, .xparts, .atsInvals] l = true) (c : Cx) (w : List Byte) (a : Acc) : Calm k l (bodyGather c w a) := by
  refine Calm.mono ?_ m
  unfold bodyGather
  try dsimp only
  repeat'
    first
    | exact rfl | exact .inr rfl | exact .inl rfl | exact Nat.le_refl _ | exact Nat.le_add_right _ _ | exact .refl _ | exact fun h => h | exact ⟨fun _ h => h, fun h => h⟩
    | with_reducible exact Evolves.refl _ _ | with_reducible refine Cx.withScales_ev ?_
    | with_reducible refine Cx.load_ev ?_ | with_reducible refine Cx.put_ev ?_
    | with_reducible refine Evolves.foldl ?_ fun _ _ => ?_ | with_reducible apply Evolves.ite
    | with_reducible exact Calm.pure _ | with_reducible exact Calm.get | with_reducible exact Calm.throw _
    | with_reducible exact Calm.throwThe _ | with_reducible exact Calm.drawFree
    | with_reducible refine Calm.modify fun _ => ?_ | with_reducible exact Calm.need _ _
    | with_reducible refine Calm.liftR fun _ => ?_ | with_reducible apply Calm.ite
    | with_reducible refine Calm.bind ?_ fun _ => ?_ | with_reducible refine Calm.map ?_
    | with_reducible refine Calm.mapM fun _ => ?_ | with_reducible refine Calm.foldlM fun _ _ => ?_
    | with_reducible refine Calm.forM fun _ => ?_ | split

theorem execGather_ev {k : Bool} {l : List Area} {s : State} {ref : CmdRef}
    (m : Area.subset [.pins, .hub, .funcs, .msix, .windows, .parts, .tokens, .ctxs, .trans, .tlb, .fences, .fenceFreed,
      .fenceLower, .rings, .objs, .hbm, .chip, .pans, .units, .clusters, .power, .log, .secs, .cmds, .replays,
      .hzn, .svcs, .sessions, .xparts, .invals, .atsInvals] l = true) : EvolvesOut k l s (execGather ref s) := by
  refine EvolvesOut.mono ?_ m
  unfold execGather
  try dsimp only
  repeat'
    first
    | exact rfl | exact .inr rfl | exact .inl rfl | exact Nat.le_refl _ | exact Nat.le_add_right _ _ | exact .refl _ | exact fun h => h | exact ⟨fun _ h => h, fun h => h⟩
    | with_reducible exact Evolves.refl _ _ | with_reducible refine State.runUnit_ev ?_ ?_ fun _ _ _ => ?_
    | with_reducible refine bodyGather_ev ?_ _ _ _ | with_reducible refine Evolves.foldl ?_ fun _ _ => ?_
    | with_reducible apply Evolves.ite | with_reducible apply EvolvesOut.next | with_reducible exact EvolvesOut.fault
    | with_reducible apply EvolvesOut.ite | split | with_reducible apply Evolves.upd

theorem Cx.scatterRows_ev {k : Bool} {l : List Area} {c : Cx} {a : Acc} {w : List Byte}
    (m : Area.subset [.pins, .hub, .funcs, .msix, .ctxs, .tlb, .rings, .hbm, .pans, .clusters, .power, .log, .cmds, .replays,
      .hzn, .xparts, .atsInvals] l = true) : Calm k l (Cx.scatterRows c a w) := by
  refine Calm.mono ?_ m
  unfold Cx.scatterRows
  try dsimp only
  repeat'
    first
    | exact rfl | exact .inr rfl | exact .inl rfl | exact Nat.le_refl _ | exact Nat.le_add_right _ _ | exact .refl _ | exact fun h => h | exact ⟨fun _ h => h, fun h => h⟩
    | with_reducible exact Evolves.refl _ _ | with_reducible refine Cx.withScales_ev ?_
    | with_reducible refine Cx.load_ev ?_ | with_reducible refine Evolves.foldl ?_ fun _ _ => ?_
    | with_reducible apply Evolves.ite | with_reducible exact Calm.pure _ | with_reducible exact Calm.get
    | with_reducible exact Calm.throw _ | with_reducible exact Calm.throwThe _ | with_reducible exact Calm.drawFree
    | with_reducible refine Calm.modify fun _ => ?_ | with_reducible exact Calm.need _ _
    | with_reducible refine Calm.liftR fun _ => ?_ | with_reducible apply Calm.ite
    | with_reducible refine Calm.bind ?_ fun _ => ?_ | with_reducible refine Calm.map ?_
    | with_reducible refine Calm.mapM fun _ => ?_ | with_reducible refine Calm.foldlM fun _ _ => ?_
    | with_reducible refine Calm.forM fun _ => ?_ | split

theorem bodyScatter_ev {k : Bool} {l : List Area}
    (m : Area.subset [.pins, .hub, .funcs, .msix, .ctxs, .tlb, .rings, .hbm, .pans, .clusters, .power, .log, .cmds, .replays,
      .hzn, .xparts, .atsInvals] l = true) (c : Cx) (w : List Byte) (a : Acc) : Calm k l (bodyScatter c w a) := by
  refine Calm.mono ?_ m
  unfold bodyScatter
  try dsimp only
  repeat'
    first
    | exact rfl | exact .inr rfl | exact .inl rfl | exact Nat.le_refl _ | exact Nat.le_add_right _ _ | exact .refl _ | exact fun h => h | exact ⟨fun _ h => h, fun h => h⟩
    | with_reducible exact Evolves.refl _ _ | with_reducible refine Cx.scatterRows_ev ?_
    | with_reducible refine Cx.put_ev ?_ | with_reducible refine Cx.write_ev ?_
    | with_reducible refine Evolves.foldl ?_ fun _ _ => ?_ | with_reducible refine Evolves.elim ?_ fun _ => ?_
    | with_reducible apply Evolves.ite | with_reducible exact Calm.pure _ | with_reducible exact Calm.get
    | with_reducible exact Calm.throw _ | with_reducible exact Calm.throwThe _ | with_reducible exact Calm.drawFree
    | with_reducible refine Calm.modify fun _ => ?_ | with_reducible exact Calm.need _ _
    | with_reducible refine Calm.liftR fun _ => ?_ | with_reducible apply Calm.ite
    | with_reducible refine Calm.bind ?_ fun _ => ?_ | with_reducible refine Calm.map ?_
    | with_reducible refine Calm.mapM fun _ => ?_ | with_reducible refine Calm.foldlM fun _ _ => ?_
    | with_reducible refine Calm.forM fun _ => ?_ | split

theorem execScatter_ev {k : Bool} {l : List Area} {s : State} {ref : CmdRef}
    (m : Area.subset [.pins, .hub, .funcs, .msix, .windows, .parts, .tokens, .ctxs, .trans, .tlb, .fences, .fenceFreed,
      .fenceLower, .rings, .objs, .hbm, .chip, .pans, .units, .clusters, .power, .log, .secs, .cmds, .replays,
      .hzn, .svcs, .sessions, .xparts, .invals, .atsInvals] l = true) : EvolvesOut k l s (execScatter ref s) := by
  refine EvolvesOut.mono ?_ m
  unfold execScatter
  try dsimp only
  repeat'
    first
    | exact rfl | exact .inr rfl | exact .inl rfl | exact Nat.le_refl _ | exact Nat.le_add_right _ _ | exact .refl _ | exact fun h => h | exact ⟨fun _ h => h, fun h => h⟩
    | with_reducible exact Evolves.refl _ _ | with_reducible refine State.runUnit_ev ?_ ?_ fun _ _ _ => ?_
    | with_reducible refine bodyScatter_ev ?_ _ _ _ | with_reducible refine Evolves.foldl ?_ fun _ _ => ?_
    | with_reducible apply Evolves.ite | with_reducible apply EvolvesOut.next | with_reducible exact EvolvesOut.fault
    | with_reducible apply EvolvesOut.ite | split | with_reducible apply Evolves.upd

theorem State.updRun_ev {k : Bool} {l : List Area} {s0 s : State} {x1 : Nat} {f : Run → Run} (h : Evolves k l s0 s)
    (m : Area.subset [.secs] l = true) : Evolves k l s0 (s.updRun x1 f) := by
  refine Evolves.after ?_ h m
  unfold State.updRun
  try dsimp only
  repeat'
    first
    | exact rfl | exact .inr rfl | exact .inl rfl | exact Nat.le_refl _ | exact Nat.le_add_right _ _ | exact .refl _ | exact fun h => h
    | with_reducible exact Evolves.refl _ _ | with_reducible refine State.updSec_ev ?_ ?_
    | with_reducible refine Evolves.foldl ?_ fun _ _ => ?_ | with_reducible apply Evolves.ite | split
    | with_reducible apply Evolves.upd

theorem execMulticastReservationGrant_ev {k : Bool} {l : List Area} {s : State} {cluster : Nat}
    (m : Area.subset [.clusters, .secs] l = true) : EvolvesOut k l s (execMulticastReservationGrant cluster s) := by
  refine EvolvesOut.mono ?_ m
  unfold execMulticastReservationGrant
  try dsimp only
  repeat'
    first
    | exact rfl | exact .inr rfl | exact .inl rfl | exact Nat.le_refl _ | exact Nat.le_add_right _ _ | exact .refl _ | exact fun h => h
    | with_reducible exact Evolves.refl _ _ | with_reducible refine State.updRun_ev ?_ ?_
    | with_reducible refine State.updCl_ev ?_ ?_ | with_reducible refine Evolves.foldl ?_ fun _ _ => ?_
    | with_reducible apply Evolves.ite | with_reducible apply EvolvesOut.next | with_reducible exact EvolvesOut.fault
    | with_reducible apply EvolvesOut.ite | split | with_reducible apply Evolves.upd

theorem State.putTile_ev {k : Bool} {l : List Area} {s0 s : State} {ref : CmdRef} {f : SFrame} (h : Evolves k l s0 s)
    (m : Area.subset [.secs] l = true) : Evolves k l s0 (s.putTile ref f) := by
  refine Evolves.after ?_ h m
  unfold State.putTile
  try dsimp only
  repeat'
    first
    | exact rfl | exact .inr rfl | exact .inl rfl | exact Nat.le_refl _ | exact Nat.le_add_right _ _ | exact .refl _ | exact fun h => h
    | with_reducible exact Evolves.refl _ _ | with_reducible refine State.updRun_ev ?_ ?_
    | with_reducible refine Evolves.foldl ?_ fun _ _ => ?_ | with_reducible apply Evolves.ite | split
    | with_reducible apply Evolves.upd

theorem bodyMcastSend_ev {k : Bool} {l : List Area}
    (m : Area.subset [.pins, .hub, .funcs, .msix, .ctxs, .tlb, .rings, .hbm, .pans, .clusters, .power, .log, .secs, .cmds,
      .replays, .hzn, .xparts, .atsInvals] l = true) (c : Cx) (w : List Byte) (a : Acc) : Calm k l (bodyMcastSend c w a) := by
  refine Calm.mono ?_ m
  unfold bodyMcastSend
  try dsimp only
  repeat'
    first
    | exact rfl | exact .inr rfl | exact .inl rfl | exact Nat.le_refl _ | exact Nat.le_add_right _ _ | exact .refl _ | exact fun h => h | exact ⟨fun _ h => h, fun h => h⟩
    | with_reducible exact Evolves.refl _ _ | with_reducible refine Cx.load_ev ?_
    | with_reducible refine Cx.elemScales_ev ?_ | with_reducible refine State.putTile_ev ?_ ?_
    | with_reducible refine Evolves.foldl ?_ fun _ _ => ?_ | with_reducible apply Evolves.ite
    | with_reducible exact Calm.pure _ | with_reducible exact Calm.get | with_reducible exact Calm.throw _
    | with_reducible exact Calm.throwThe _ | with_reducible exact Calm.drawFree
    | with_reducible refine Calm.modify fun _ => ?_ | with_reducible exact Calm.need _ _
    | with_reducible refine Calm.liftR fun _ => ?_ | with_reducible apply Calm.ite
    | with_reducible refine Calm.bind ?_ fun _ => ?_ | with_reducible refine Calm.map ?_
    | with_reducible refine Calm.mapM fun _ => ?_ | with_reducible refine Calm.foldlM fun _ _ => ?_
    | with_reducible refine Calm.forM fun _ => ?_ | split

theorem bodyMcastReceive_ev {k : Bool} {l : List Area} {f : SFrame}
    (m : Area.subset [.pins, .hub, .funcs, .msix, .ctxs, .tlb, .rings, .hbm, .pans, .clusters, .power, .log, .secs, .cmds,
      .replays, .hzn, .xparts, .atsInvals] l = true) (c : Cx) (w : List Byte) (a : Acc) : Calm k l (bodyMcastReceive f c w a) := by
  refine Calm.mono ?_ m
  unfold bodyMcastReceive
  try dsimp only
  repeat'
    first
    | exact rfl | exact .inr rfl | exact .inl rfl | exact Nat.le_refl _ | exact Nat.le_add_right _ _ | exact .refl _ | exact fun h => h | exact ⟨fun _ h => h, fun h => h⟩
    | with_reducible exact Evolves.refl _ _ | with_reducible refine State.updRun_ev ?_ ?_
    | with_reducible refine Cx.put_ev ?_ | with_reducible refine Evolves.foldl ?_ fun _ _ => ?_
    | with_reducible apply Evolves.ite | with_reducible exact Calm.pure _ | with_reducible exact Calm.get
    | with_reducible exact Calm.throw _ | with_reducible exact Calm.throwThe _ | with_reducible exact Calm.drawFree
    | with_reducible refine Calm.modify fun _ => ?_ | with_reducible exact Calm.need _ _
    | with_reducible refine Calm.liftR fun _ => ?_ | with_reducible apply Calm.ite
    | with_reducible refine Calm.bind ?_ fun _ => ?_ | with_reducible refine Calm.map ?_
    | with_reducible refine Calm.mapM fun _ => ?_ | with_reducible refine Calm.foldlM fun _ _ => ?_
    | with_reducible refine Calm.forM fun _ => ?_ | split

theorem State.endTree_ev {k : Bool} {l : List Area} {s0 s : State} {c : Nat} {ref : CmdRef} (h : Evolves k l s0 s)
    (m : Area.subset [.clusters] l = true) : Evolves k l s0 (s.endTree c ref) := by
  refine Evolves.after ?_ h m
  unfold State.endTree
  try dsimp only
  repeat'
    first
    | exact rfl | exact .inr rfl | exact .inl rfl | exact Nat.le_refl _ | exact Nat.le_add_right _ _ | exact .refl _ | exact fun h => h
    | with_reducible exact Evolves.refl _ _ | with_reducible refine State.updCl_ev ?_ ?_
    | with_reducible refine Evolves.foldl ?_ fun _ _ => ?_ | with_reducible apply Evolves.ite | split
    | with_reducible apply Evolves.upd

theorem State.mcastSend_ev {k : Bool} {l : List Area} {s0 s : State} {ref : CmdRef} {x2 : Nat} {st : Nat} (h : Evolves k l s0 s)
    (m : Area.subset [.pins, .hub, .funcs, .msix, .windows, .parts, .tokens, .ctxs, .trans, .tlb, .fences, .fenceFreed,
      .fenceLower, .rings, .objs, .hbm, .chip, .pans, .units, .clusters, .power, .log, .secs, .cmds, .replays,
      .hzn, .svcs, .sessions, .xparts, .invals, .atsInvals] l = true) : Evolves k l s0 (s.mcastSend ref x2 st) := by
  refine Evolves.after ?_ h m
  unfold State.mcastSend
  try dsimp only
  repeat'
    first
    | exact rfl | exact .inr rfl | exact .inl rfl | exact Nat.le_refl _ | exact Nat.le_add_right _ _ | exact .refl _ | exact fun h => h | exact ⟨fun _ h => h, fun h => h⟩
    | with_reducible exact Evolves.refl _ _ | with_reducible refine State.runUnit_ev ?_ ?_ fun _ _ _ => ?_
    | with_reducible refine State.putTile_ev ?_ ?_ | with_reducible refine bodyMcastSend_ev ?_ _ _ _
    | with_reducible refine State.endTree_ev ?_ ?_ | with_reducible refine State.updCl_ev ?_ ?_
    | with_reducible refine Evolves.foldl ?_ fun _ _ => ?_ | with_reducible apply Evolves.ite | split
    | with_reducible apply Evolves.upd

theorem execMcast_ev {k : Bool} {l : List Area} {s : State} {ref : CmdRef}
    (m : Area.subset [.pins, .hub, .funcs, .msix, .windows, .parts, .tokens, .ctxs, .trans, .tlb, .fences, .fenceFreed,
      .fenceLower, .rings, .objs, .hbm, .chip, .pans, .units, .clusters, .power, .log, .secs, .cmds, .replays,
      .hzn, .svcs, .sessions, .xparts, .invals, .atsInvals] l = true) : EvolvesOut k l s (execMcast ref s) := by
  refine EvolvesOut.mono ?_ m
  unfold execMcast
  try dsimp only
  repeat'
    first
    | exact rfl | exact .inr rfl | exact .inl rfl | exact Nat.le_refl _ | exact Nat.le_add_right _ _ | exact .refl _ | exact fun h => h | exact ⟨fun _ h => h, fun h => h⟩
    | with_reducible exact Evolves.refl _ _ | with_reducible refine State.mcastSend_ev ?_ ?_
    | with_reducible refine State.runUnit_ev ?_ ?_ fun _ _ _ => ?_ | with_reducible refine bodyMcastReceive_ev ?_ _ _ _
    | with_reducible refine bodyMcastSend_ev ?_ _ _ _ | with_reducible refine Evolves.foldl ?_ fun _ _ => ?_
    | with_reducible apply Evolves.ite | with_reducible apply EvolvesOut.next | with_reducible exact EvolvesOut.fault
    | with_reducible apply EvolvesOut.ite | split | with_reducible apply Evolves.upd

theorem Cx.prefetchSet_ev {k : Bool} {l : List Area} {c : Cx} {w : List Byte}
    (m : Area.subset [.pins, .hub, .funcs, .msix, .ctxs, .tlb, .rings, .hbm, .pans, .clusters, .power, .log, .cmds, .replays,
      .hzn, .xparts, .atsInvals] l = true) : Calm k l (Cx.prefetchSet c w) := by
  refine Calm.mono ?_ m
  unfold Cx.prefetchSet
  try dsimp only
  repeat'
    first
    | exact rfl | exact .inr rfl | exact .inl rfl | exact Nat.le_refl _ | exact Nat.le_add_right _ _ | exact .refl _ | exact fun h => h | exact ⟨fun _ h => h, fun h => h⟩
    | with_reducible exact Evolves.refl _ _ | with_reducible refine Cx.load_ev ?_
    | with_reducible refine Evolves.foldl ?_ fun _ _ => ?_ | with_reducible apply Evolves.ite
    | with_reducible exact Calm.pure _ | with_reducible exact Calm.get | with_reducible exact Calm.throw _
    | with_reducible exact Calm.throwThe _ | with_reducible exact Calm.drawFree
    | with_reducible refine Calm.modify fun _ => ?_ | with_reducible exact Calm.need _ _
    | with_reducible refine Calm.liftR fun _ => ?_ | with_reducible apply Calm.ite
    | with_reducible refine Calm.bind ?_ fun _ => ?_ | with_reducible refine Calm.map ?_
    | with_reducible refine Calm.mapM fun _ => ?_ | with_reducible refine Calm.foldlM fun _ _ => ?_
    | with_reducible refine Calm.forM fun _ => ?_ | split

theorem State.prefetchSet_ev {k : Bool} {l : List Area} {s0 s : State} {x1 : Cmd} {u : Nat} (h : Evolves k l s0 s)
    (m : Area.subset [.pins, .hub, .funcs, .msix, .windows, .parts, .ctxs, .trans, .tlb, .fences, .fenceFreed, .fenceLower,
      .rings, .objs, .hbm, .chip, .pans, .units, .clusters, .power, .log, .secs, .cmds, .replays, .hzn, .svcs,
      .sessions, .xparts, .invals, .atsInvals] l = true) : Evolves k l s0 (s.prefetchSet x1 u) := by
  refine Evolves.after ?_ h m
  unfold State.prefetchSet
  try dsimp only
  repeat'
    first
    | exact rfl | exact .inr rfl | exact .inl rfl | exact Nat.le_refl _ | exact Nat.le_add_right _ _ | exact .refl _ | exact fun h => h | exact ⟨fun _ h => h, fun h => h⟩
    | with_reducible exact Evolves.refl _ _ | with_reducible refine State.occupy_ev ?_ ?_
    | with_reducible refine State.finishWork_ev ?_ ?_ | with_reducible refine Cx.prefetchSet_ev ?_
    | with_reducible refine State.failCmd_ev ?_ ?_ | with_reducible refine State.updCmd_ev ?_ ?_
    | with_reducible refine State.startLoad_ev ?_ ?_ | with_reducible refine Evolves.foldl ?_ fun _ _ => ?_
    | with_reducible apply Evolves.ite | with_reducible refine Evolves.run ?_ ?_ | split
    | refine Evolves.of_snd (by assumption) ?_ | with_reducible apply Evolves.upd

theorem execPrefetch_ev {k : Bool} {l : List Area} {s : State} {ref : CmdRef}
    (m : Area.subset [.pins, .hub, .funcs, .msix, .windows, .parts, .tokens, .ctxs, .trans, .tlb, .fences, .fenceFreed,
      .fenceLower, .rings, .objs, .hbm, .chip, .pans, .units, .clusters, .power, .log, .secs, .cmds, .replays,
      .hzn, .svcs, .sessions, .xparts, .invals, .atsInvals] l = true) : EvolvesOut k l s (execPrefetch ref s) := by
  refine EvolvesOut.mono ?_ m
  unfold execPrefetch
  try dsimp only
  repeat'
    first
    | exact rfl | exact .inr rfl | exact .inl rfl | exact Nat.le_refl _ | exact Nat.le_add_right _ _ | exact .refl _ | exact fun h => h | exact ⟨fun _ h => h, fun h => h⟩
    | with_reducible exact Evolves.refl _ _ | with_reducible refine State.runUnit_ev ?_ ?_ fun _ _ _ => ?_
    | with_reducible refine bodyCopy_ev ?_ _ _ _ | with_reducible refine State.prefetchSet_ev ?_ ?_
    | with_reducible refine Evolves.foldl ?_ fun _ _ => ?_ | with_reducible apply Evolves.ite
    | with_reducible apply EvolvesOut.next | with_reducible exact EvolvesOut.fault
    | with_reducible apply EvolvesOut.ite | split | with_reducible apply Evolves.upd

end Sys2Proof.Machine
end

