-- ==== Sys2Proof/Laws/Loader.lean ====
section
/-! SUPPORT. What each operation of Sys2Proof/Machine/Loader.lean may change, and how the state follows. -/

set_option Elab.async false
set_option linter.all false
namespace Sys2Proof.Machine

theorem State.takeHoldings_ev {k : Bool} {l : List Area} {s0 s : State} {x1 : Nat} {x : Section} (h : Evolves k l s0 s)
    (m : Area.subset [.chip, .units, .secs] l = true) : Evolves k l s0 (s.takeHoldings x1 x) := by
  refine Evolves.after ?_ h m
  unfold State.takeHoldings
  try dsimp only
  repeat'
    first
    | exact rfl | exact .inr rfl | exact .inl rfl | exact Nat.le_refl _ | exact Nat.le_add_right _ _ | exact .refl _ | exact fun h => h
    | with_reducible exact Evolves.refl _ _ | with_reducible refine State.updUn_ev ?_ ?_
    | with_reducible refine Evolves.foldl ?_ fun _ _ => ?_ | with_reducible refine Evolves.foldl_snd ?_ fun _ _ => ?_
    | with_reducible refine Evolves.foldl_fst ?_ fun _ _ => ?_ | with_reducible apply Evolves.ite | split
    | with_reducible apply Evolves.upd

end Sys2Proof.Machine
end

