-- ==== Sys2Proof/Laws/Rings.lean ====
section
/-! SUPPORT. What each operation of Sys2Proof/Machine/Rings.lean may change, and how the state follows. -/

set_option Elab.async false
set_option linter.all false
namespace Sys2Proof.Machine

theorem execSubmissionDoorbell_ev {k : Bool} {l : List Area} {s : State} {func : Nat} {ring : Nat} {tail : Nat}
    (m : Area.subset [.pins, .funcs, .rings, .log] l = true) : EvolvesOut k l s (execSubmissionDoorbell func ring tail s) := by
  refine EvolvesOut.mono ?_ m
  unfold execSubmissionDoorbell
  try dsimp only
  repeat'
    first
    | exact rfl | exact .inr rfl | exact .inl rfl | exact Nat.le_refl _ | exact Nat.le_add_right _ _ | exact .refl _ | exact fun h => h
    | with_reducible exact Evolves.refl _ _ | with_reducible refine State.viol_ev ?_ ?_
    | with_reducible refine State.updRg_ev ?_ ?_ | with_reducible refine Evolves.foldl ?_ fun _ _ => ?_
    | with_reducible apply Evolves.ite | with_reducible apply EvolvesOut.next | with_reducible exact EvolvesOut.fault
    | with_reducible apply EvolvesOut.ite | split | with_reducible apply Evolves.upd

theorem execAdminDoorbell_ev {k : Bool} {l : List Area} {s : State} {func : Nat} {tail : Nat}
    (m : Area.subset [.pins, .funcs, .log] l = true) : EvolvesOut k l s (execAdminDoorbell func tail s) := by
  refine EvolvesOut.mono ?_ m
  unfold execAdminDoorbell
  try dsimp only
  repeat'
    first
    | exact rfl | exact .inr rfl | exact .inl rfl | exact Nat.le_refl _ | exact Nat.le_add_right _ _ | exact .refl _ | exact fun h => h
    | with_reducible exact Evolves.refl _ _ | with_reducible refine State.viol_ev ?_ ?_
    | with_reducible refine State.updFn_ev ?_ ?_ | with_reducible refine Evolves.foldl ?_ fun _ _ => ?_
    | with_reducible apply Evolves.ite | with_reducible apply EvolvesOut.next | with_reducible exact EvolvesOut.fault
    | with_reducible apply EvolvesOut.ite | split | with_reducible apply Evolves.upd

theorem State.takeRing_ev {k : Bool} {l : List Area} {s0 s : State} {r : Nat} (h : Evolves k l s0 s)
    (m : Area.subset [.rings, .ringTaken, .ringTakenLc] l = true) : Evolves k l s0 (s.takeRing r) := by
  refine Evolves.after ?_ h m
  unfold State.takeRing
  try dsimp only
  repeat'
    first
    | exact rfl | exact .inr rfl | exact .inl rfl | exact Nat.le_refl _ | exact Nat.le_add_right _ _ | exact .refl _ | exact fun h => h
    | with_reducible exact Evolves.refl _ _ | with_reducible refine State.updRg_ev ?_ ?_
    | with_reducible refine State.postHost_ev ?_ ?_ | with_reducible refine Evolves.foldl ?_ fun _ _ => ?_
    | with_reducible apply Evolves.ite | split | with_reducible apply Evolves.upd

theorem State.failRing_ev {k : Bool} {l : List Area} {s0 s : State} {r : Nat} {status : Nat} (h : Evolves k l s0 s)
    (m : Area.subset [.pins, .hub, .funcs, .msix, .windows, .parts, .ctxs, .trans, .tlb, .fences, .fenceFreed, .fenceLower,
      .rings, .objs, .hbm, .chip, .pans, .units, .clusters, .power, .log, .secs, .cmds, .replays, .hzn, .svcs,
      .sessions, .xparts, .invals, .atsInvals] l = true) : Evolves k l s0 (s.failRing r status) := by
  refine Evolves.after ?_ h m
  unfold State.failRing
  try dsimp only
  repeat'
    first
    | exact rfl | exact .inr rfl | exact .inl rfl | exact Nat.le_refl _ | exact Nat.le_add_right _ _ | exact .refl _ | exact fun h => h | exact ⟨fun _ h => h, fun h => h⟩
    | with_reducible exact Evolves.refl _ _ | with_reducible refine State.loseCtx_ev ?_ ?_
    | with_reducible refine State.completeRing_ev ?_ ?_ | with_reducible refine Evolves.foldl ?_ fun _ _ => ?_
    | with_reducible apply Evolves.ite | split | with_reducible apply Evolves.upd

theorem State.runRing_ev {k : Bool} {l : List Area} {s0 s : State} {r : Nat} {op : Nat} {body : List Byte → State → State} (h : Evolves k l s0 s)
    (m : Area.subset [.pins, .hub, .funcs, .msix, .windows, .parts, .ctxs, .trans, .tlb, .fences, .fenceFreed, .fenceLower,
      .rings, .ringTaken, .ringTakenLc, .objs, .hbm, .chip, .pans, .units, .clusters, .power, .log, .secs, .cmds,
      .replays, .hzn, .svcs, .sessions, .xparts, .invals, .atsInvals] l = true) (hb : ∀ d t, Evolves k l t (body d t)) : Evolves k l s0 (s.runRing r op body) := by
  unfold State.runRing
  try dsimp only
  repeat'
    first
    | with_reducible exact h | exact Area.subset_trans rfl m | exact .inr (Area.contains_of m rfl) | exact .inl rfl
    | (refine Evolves.trans ?_ (hb _ _))
    | exact rfl | exact .inr rfl | exact .inl rfl | exact Nat.le_refl _ | exact Nat.le_add_right _ _ | exact .refl _ | exact fun h => h | exact ⟨fun _ h => h, fun h => h⟩
    | with_reducible exact Evolves.refl _ _ | with_reducible refine State.takeRing_ev ?_ ?_
    | with_reducible refine State.completeRing_ev ?_ ?_ | with_reducible refine State.failRing_ev ?_ ?_
    | with_reducible refine Evolves.foldl ?_ fun _ _ => ?_ | with_reducible apply Evolves.ite | split
    | with_reducible apply Evolves.upd

theorem execNop_ev {k : Bool} {l : List Area} {s : State} {ring : Nat}
    (m : Area.subset [.pins, .hub, .funcs, .msix, .windows, .parts, .ctxs, .trans, .tlb, .fences, .fenceFreed, .fenceLower,
      .rings, .ringTaken, .ringTakenLc, .objs, .hbm, .chip, .pans, .units, .clusters, .power, .log, .secs, .cmds,
      .replays, .hzn, .svcs, .sessions, .xparts, .invals, .atsInvals] l = true) : EvolvesOut k l s (execNop ring s) := by
  refine EvolvesOut.mono ?_ m
  unfold execNop
  try dsimp only
  repeat'
    first
    | exact rfl | exact .inr rfl | exact .inl rfl | exact Nat.le_refl _ | exact Nat.le_add_right _ _ | exact .refl _ | exact fun h => h | exact ⟨fun _ h => h, fun h => h⟩
    | with_reducible exact Evolves.refl _ _ | with_reducible refine State.runRing_ev ?_ ?_ fun _ _ => ?_
    | with_reducible refine State.completeRing_ev ?_ ?_ | with_reducible refine Evolves.foldl ?_ fun _ _ => ?_
    | with_reducible apply Evolves.ite | with_reducible apply EvolvesOut.next | with_reducible exact EvolvesOut.fault
    | with_reducible apply EvolvesOut.ite | split | with_reducible apply Evolves.upd

theorem execExecBuffer_ev {k : Bool} {l : List Area} {s : State} {ring : Nat}
    (m : Area.subset [.pins, .hub, .funcs, .msix, .windows, .parts, .ctxs, .trans, .tlb, .fences, .fenceFreed, .fenceLower,
      .rings, .ringTaken, .ringTakenLc, .objs, .hbm, .chip, .pans, .units, .clusters, .power, .log, .secs, .cmds,
      .replays, .hzn, .svcs, .sessions, .xparts, .invals, .atsInvals] l = true) : EvolvesOut k l s (execExecBuffer ring s) := by
  refine EvolvesOut.mono ?_ m
  unfold execExecBuffer
  try dsimp only
  repeat'
    first
    | exact rfl | exact .inr rfl | exact .inl rfl | exact Nat.le_refl _ | exact Nat.le_add_right _ _ | exact .refl _ | exact fun h => h | exact ⟨fun _ h => h, fun h => h⟩
    | with_reducible exact Evolves.refl _ _ | with_reducible refine State.runRing_ev ?_ ?_ fun _ _ => ?_
    | with_reducible refine State.readVa_ev ?_ ?_ | with_reducible refine State.failRing_ev ?_ ?_
    | with_reducible refine State.reachRing_ev ?_ ?_ | with_reducible refine State.updRg_ev ?_ ?_
    | with_reducible refine Evolves.foldl ?_ fun _ _ => ?_ | with_reducible apply Evolves.ite
    | with_reducible apply EvolvesOut.next | with_reducible exact EvolvesOut.fault
    | with_reducible apply EvolvesOut.ite | split | refine Evolves.of_snd (by assumption) ?_
    | with_reducible apply Evolves.upd

theorem State.copyImage_ev {k : Bool} {l : List Area} {s0 s : State} {ctx : Nat} {r : Nat} {va : Nat} (h : Evolves k l s0 s)
    (m : Area.subset [.pins, .hub, .funcs, .msix, .ctxs, .tlb, .rings, .hbm, .pans, .clusters, .power, .log, .cmds, .replays,
      .hzn, .xparts, .atsInvals] l = true) : Evolves k l s0 (s.copyImage ctx r va).2 := by
  refine Evolves.after ?_ h m
  unfold State.copyImage
  try dsimp only
  repeat'
    first
    | exact rfl | exact .inr rfl | exact .inl rfl | exact Nat.le_refl _ | exact Nat.le_add_right _ _ | exact .refl _ | exact fun h => h | exact ⟨fun _ h => h, fun h => h⟩
    | with_reducible exact Evolves.refl _ _ | with_reducible refine State.readVa_ev ?_ ?_
    | with_reducible refine Evolves.foldl ?_ fun _ _ => ?_ | dsimp only | with_reducible apply Evolves.ite | split
    | refine Evolves.of_snd (by assumption) ?_ | with_reducible apply Evolves.upd

theorem State.takeSection_ev {k : Bool} {l : List Area} {s0 s : State} {ring : Nat} {x : Section} (h : Evolves k l s0 s)
    (m : Area.subset [.pins, .hub, .funcs, .msix, .windows, .parts, .ctxs, .trans, .tlb, .fences, .fenceFreed, .fenceLower,
      .rings, .objs, .hbm, .chip, .pans, .units, .clusters, .power, .log, .secs, .nextSec, .cmds, .replays, .hzn,
      .svcs, .sessions, .xparts, .invals, .atsInvals] l = true) : Evolves k l s0 (s.takeSection ring x) := by
  refine Evolves.after ?_ h m
  unfold State.takeSection
  try dsimp only
  repeat'
    first
    | exact rfl | exact .inr rfl | exact .inl rfl | exact Nat.le_refl _ | exact Nat.le_add_right _ _ | exact .refl _ | exact fun h => h | exact ⟨fun _ h => h, fun h => h⟩
    | with_reducible exact Evolves.refl _ _ | with_reducible refine State.failRing_ev ?_ ?_
    | with_reducible refine State.moveSubs_ev ?_ ?_ | with_reducible refine State.takeHoldings_ev ?_ ?_
    | with_reducible refine State.completeRing_ev ?_ ?_ | with_reducible refine Evolves.foldl ?_ fun _ _ => ?_
    | with_reducible apply Evolves.ite | split | with_reducible apply Evolves.upd

theorem State.launchImage_ev {k : Bool} {l : List Area} {s0 s : State} {ring : Nat} {x : Section} (h : Evolves k l s0 s)
    (m : Area.subset [.pins, .hub, .funcs, .msix, .windows, .parts, .ctxs, .trans, .tlb, .fences, .fenceFreed, .fenceLower,
      .rings, .objs, .hbm, .chip, .pans, .units, .clusters, .power, .log, .secs, .nextSec, .cmds, .replays, .hzn,
      .svcs, .sessions, .xparts, .invals, .atsInvals] l = true) : Evolves k l s0 (s.launchImage ring x) := by
  refine Evolves.after ?_ h m
  unfold State.launchImage
  try dsimp only
  repeat'
    first
    | exact rfl | exact .inr rfl | exact .inl rfl | exact Nat.le_refl _ | exact Nat.le_add_right _ _ | exact .refl _ | exact fun h => h | exact ⟨fun _ h => h, fun h => h⟩
    | with_reducible exact Evolves.refl _ _ | with_reducible refine State.failRing_ev ?_ ?_
    | with_reducible refine State.takeSection_ev ?_ ?_ | with_reducible refine Evolves.foldl ?_ fun _ _ => ?_
    | with_reducible apply Evolves.ite | split | with_reducible apply Evolves.upd

theorem execLaunch_ev {k : Bool} {l : List Area} {s : State} {ring : Nat}
    (m : Area.subset [.pins, .hub, .funcs, .msix, .windows, .parts, .ctxs, .trans, .tlb, .fences, .fenceFreed, .fenceLower,
      .rings, .ringTaken, .ringTakenLc, .objs, .hbm, .chip, .pans, .units, .clusters, .power, .log, .secs,
      .nextSec, .cmds, .replays, .hzn, .svcs, .sessions, .xparts, .invals, .atsInvals] l = true) : EvolvesOut k l s (execLaunch ring s) := by
  refine EvolvesOut.mono ?_ m
  unfold execLaunch
  try dsimp only
  repeat'
    first
    | exact rfl | exact .inr rfl | exact .inl rfl | exact Nat.le_refl _ | exact Nat.le_add_right _ _ | exact .refl _ | exact fun h => h | exact ⟨fun _ h => h, fun h => h⟩
    | with_reducible exact Evolves.refl _ _ | with_reducible refine State.runRing_ev ?_ ?_ fun _ _ => ?_
    | with_reducible refine State.copyImage_ev ?_ ?_ | with_reducible refine State.failRing_ev ?_ ?_
    | with_reducible refine State.launchImage_ev ?_ ?_ | with_reducible refine Evolves.foldl ?_ fun _ _ => ?_
    | with_reducible apply Evolves.ite | with_reducible apply EvolvesOut.next | with_reducible exact EvolvesOut.fault
    | with_reducible apply EvolvesOut.ite | split | refine Evolves.of_snd (by assumption) ?_
    | with_reducible apply Evolves.upd

theorem State.unloadFor_ev {k : Bool} {l : List Area} {s0 s : State} {ring : Nat} {x2 : Nat} (h : Evolves k l s0 s)
    (m : Area.subset [.pins, .funcs, .msix, .parts, .ctxs, .rings, .objs, .hbm, .chip, .pans, .units, .log, .secs, .invals] l = true) : Evolves k l s0 (s.unloadFor ring x2) := by
  refine Evolves.after ?_ h m
  unfold State.unloadFor
  try dsimp only
  repeat'
    first
    | exact rfl | exact .inr rfl | exact .inl rfl | exact Nat.le_refl _ | exact Nat.le_add_right _ _ | exact .refl _ | exact fun h => h
    | with_reducible exact Evolves.refl _ _ | with_reducible refine State.completeRing_ev ?_ ?_
    | with_reducible refine State.unloadSec_ev ?_ ?_ | with_reducible refine State.updRg_ev ?_ ?_
    | with_reducible refine Evolves.foldl ?_ fun _ _ => ?_ | with_reducible apply Evolves.ite | split
    | with_reducible apply Evolves.upd

theorem execUnload_ev {k : Bool} {l : List Area} {s : State} {ring : Nat}
    (m : Area.subset [.pins, .hub, .funcs, .msix, .windows, .parts, .ctxs, .trans, .tlb, .fences, .fenceFreed, .fenceLower,
      .rings, .ringTaken, .ringTakenLc, .objs, .hbm, .chip, .pans, .units, .clusters, .power, .log, .secs, .cmds,
      .replays, .hzn, .svcs, .sessions, .xparts, .invals, .atsInvals] l = true) : EvolvesOut k l s (execUnload ring s) := by
  refine EvolvesOut.mono ?_ m
  unfold execUnload
  try dsimp only
  repeat'
    first
    | exact rfl | exact .inr rfl | exact .inl rfl | exact Nat.le_refl _ | exact Nat.le_add_right _ _ | exact .refl _ | exact fun h => h | exact ⟨fun _ h => h, fun h => h⟩
    | with_reducible exact Evolves.refl _ _ | with_reducible refine State.unloadFor_ev ?_ ?_
    | with_reducible refine State.failRing_ev ?_ ?_ | with_reducible refine State.runRing_ev ?_ ?_ fun _ _ => ?_
    | with_reducible refine Evolves.foldl ?_ fun _ _ => ?_ | with_reducible apply Evolves.ite
    | with_reducible apply EvolvesOut.next | with_reducible exact EvolvesOut.fault
    | with_reducible apply EvolvesOut.ite | split | with_reducible apply Evolves.upd

theorem execEventRingFullRecheck_ev {k : Bool} {l : List Area} {s : State} {ctx : Nat}
    (m : Area.subset [.pins, .time, .hub, .funcs, .msix, .windows, .parts, .ctxs, .trans, .tlb, .fences, .fenceFreed, .fenceLower,
      .rings, .objs, .hbm, .chip, .pans, .units, .clusters, .power, .log, .secs, .cmds, .replays, .hzn, .svcs,
      .sessions, .xparts, .invals, .atsInvals] l = true) : EvolvesOut k l s (execEventRingFullRecheck ctx s) := by
  refine EvolvesOut.mono ?_ m
  unfold execEventRingFullRecheck
  try dsimp only
  repeat'
    first
    | exact rfl | exact .inr rfl | exact .inl rfl | exact Nat.le_refl _ | exact Nat.le_add_right _ _ | exact .refl _ | exact fun h => h | exact ⟨fun _ h => h, fun h => h⟩
    | with_reducible exact Evolves.refl _ _ | with_reducible refine State.refreshCtx_ev ?_ ?_
    | with_reducible refine State.atTime_ev ?_ ?_ | with_reducible refine State.drainCtx_ev ?_ ?_
    | with_reducible refine Evolves.foldl ?_ fun _ _ => ?_ | with_reducible apply Evolves.ite
    | with_reducible apply EvolvesOut.next | with_reducible exact EvolvesOut.fault
    | with_reducible apply EvolvesOut.ite | split | with_reducible apply Evolves.upd

theorem execEventRingFullTimeout_ev {k : Bool} {l : List Area} {s : State} {ctx : Nat}
    (m : Area.subset [.pins, .time, .hub, .funcs, .msix, .windows, .parts, .ctxs, .trans, .tlb, .fences, .fenceFreed, .fenceLower,
      .rings, .objs, .hbm, .chip, .pans, .units, .clusters, .power, .log, .secs, .cmds, .replays, .hzn, .svcs,
      .sessions, .xparts, .invals, .atsInvals] l = true) : EvolvesOut k l s (execEventRingFullTimeout ctx s) := by
  refine EvolvesOut.mono ?_ m
  unfold execEventRingFullTimeout
  try dsimp only
  repeat'
    first
    | exact rfl | exact .inr rfl | exact .inl rfl | exact Nat.le_refl _ | exact Nat.le_add_right _ _ | exact .refl _ | exact fun h => h | exact ⟨fun _ h => h, fun h => h⟩
    | with_reducible exact Evolves.refl _ _ | with_reducible refine State.updCx_ev ?_ ?_
    | with_reducible refine State.atTime_ev ?_ ?_ | with_reducible refine State.loseCtx_ev ?_ ?_
    | with_reducible refine State.dropWaiting_ev ?_ ?_ | with_reducible refine Evolves.foldl ?_ fun _ _ => ?_
    | with_reducible apply Evolves.ite | with_reducible apply EvolvesOut.next | with_reducible exact EvolvesOut.fault
    | with_reducible apply EvolvesOut.ite | split | with_reducible apply Evolves.upd

theorem State.drainFunc_ev {k : Bool} {l : List Area} {s0 s : State} {f : Nat} {fuel : Nat} (h : Evolves k l s0 s)
    (m : Area.subset [.funcs, .msix] l = true) : Evolves k l s0 (s.drainFunc f fuel) := by
  refine Evolves.after ?_ h m
  clear h m
  induction fuel generalizing s f with
  | zero => exact .refl _ _
  | succ n ih =>
  unfold State.drainFunc
  try dsimp only
  repeat'
    first
    | with_reducible refine Evolves.trans ?_ ih
    | exact rfl | exact .inr rfl | exact .inl rfl | exact Nat.le_refl _ | exact Nat.le_add_right _ _ | exact .refl _ | exact fun h => h
    | with_reducible exact Evolves.refl _ _ | with_reducible refine State.putFunc_ev ?_ ?_
    | with_reducible refine State.updFn_ev ?_ ?_ | with_reducible refine Evolves.foldl ?_ fun _ _ => ?_
    | with_reducible apply Evolves.ite | split | with_reducible apply Evolves.upd

theorem execFunctionEventRingRecheck_ev {k : Bool} {l : List Area} {s : State} {func : Nat}
    (m : Area.subset [.pins, .time, .funcs, .msix, .log] l = true) : EvolvesOut k l s (execFunctionEventRingRecheck func s) := by
  refine EvolvesOut.mono ?_ m
  unfold execFunctionEventRingRecheck
  try dsimp only
  repeat'
    first
    | exact rfl | exact .inr rfl | exact .inl rfl | exact Nat.le_refl _ | exact Nat.le_add_right _ _ | exact .refl _ | exact fun h => h
    | with_reducible exact Evolves.refl _ _ | with_reducible refine State.refreshFunc_ev ?_ ?_
    | with_reducible refine State.atTime_ev ?_ ?_ | with_reducible refine State.drainFunc_ev ?_ ?_
    | with_reducible refine Evolves.foldl ?_ fun _ _ => ?_ | with_reducible apply Evolves.ite
    | with_reducible apply EvolvesOut.next | with_reducible exact EvolvesOut.fault
    | with_reducible apply EvolvesOut.ite | split | with_reducible apply Evolves.upd

theorem execModerationExpiry_ev {k : Bool} {l : List Area} {s : State} {ring : EvRing}
    (m : Area.subset [.time, .funcs, .msix, .ctxs] l = true) : EvolvesOut k l s (execModerationExpiry ring s) := by
  refine EvolvesOut.mono ?_ m
  unfold execModerationExpiry
  try dsimp only
  repeat'
    first
    | exact rfl | exact .inr rfl | exact .inl rfl | exact Nat.le_refl _ | exact Nat.le_add_right _ _ | exact .refl _ | exact fun h => h
    | with_reducible exact Evolves.refl _ _ | with_reducible refine State.atTime_ev ?_ ?_
    | with_reducible refine State.sendMsix_ev ?_ ?_ | with_reducible refine State.updCx_ev ?_ ?_
    | with_reducible refine State.updFn_ev ?_ ?_ | with_reducible refine Evolves.foldl ?_ fun _ _ => ?_
    | with_reducible apply Evolves.ite | with_reducible apply EvolvesOut.next | with_reducible exact EvolvesOut.fault
    | with_reducible apply EvolvesOut.ite | split | with_reducible apply Evolves.upd

end Sys2Proof.Machine
end

