-- ==== Sys2Proof/Laws/Sync.lean ====
section
/-! SUPPORT. What each operation of Sys2Proof/Machine/Sync.lean may change, and how the state follows. -/

set_option Elab.async false
set_option linter.all false
namespace Sys2Proof.Machine

theorem execWait_ev {k : Bool} {l : List Area} {s : State} {ref : CmdRef}
    (m : Area.subset [.pins, .hub, .funcs, .msix, .windows, .parts, .ctxs, .trans, .tlb, .fences, .fenceFreed, .fenceLower,
      .rings, .objs, .hbm, .chip, .pans, .units, .clusters, .power, .log, .secs, .cmds, .replays, .hzn, .svcs,
      .sessions, .xparts, .invals, .atsInvals] l = true) : EvolvesOut k l s (execWait ref s) := by
  refine EvolvesOut.mono ?_ m
  unfold execWait
  try dsimp only
  repeat'
    first
    | exact rfl | exact .inr rfl | exact .inl rfl | exact Nat.le_refl _ | exact Nat.le_add_right _ _ | exact .refl _ | exact fun h => h | exact ⟨fun _ h => h, fun h => h⟩
    | with_reducible exact Evolves.refl _ _ | with_reducible refine State.takeUp_ev ?_ ?_
    | with_reducible refine State.markWritten_ev ?_ ?_ | with_reducible refine State.failCmd_ev ?_ ?_
    | with_reducible refine State.updCmd_ev ?_ ?_ | with_reducible refine Evolves.foldl ?_ fun _ _ => ?_
    | with_reducible apply Evolves.ite | with_reducible apply EvolvesOut.next | with_reducible exact EvolvesOut.fault
    | with_reducible apply EvolvesOut.ite | split | with_reducible apply Evolves.upd

theorem execSignal_ev {k : Bool} {l : List Area} {s : State} {ref : CmdRef}
    (m : Area.subset [.pins, .hub, .funcs, .msix, .windows, .parts, .ctxs, .trans, .tlb, .fences, .fenceFreed, .fenceLower,
      .rings, .objs, .hbm, .chip, .pans, .units, .clusters, .power, .log, .secs, .cmds, .replays, .hzn, .svcs,
      .sessions, .xparts, .invals, .atsInvals] l = true) : EvolvesOut k l s (execSignal ref s) := by
  refine EvolvesOut.mono ?_ m
  unfold execSignal
  try dsimp only
  repeat'
    first
    | exact rfl | exact .inr rfl | exact .inl rfl | exact Nat.le_refl _ | exact Nat.le_add_right _ _ | exact .refl _ | exact fun h => h | exact ⟨fun _ h => h, fun h => h⟩
    | with_reducible exact Evolves.refl _ _ | with_reducible refine State.takeUp_ev ?_ ?_
    | with_reducible refine State.markWritten_ev ?_ ?_ | with_reducible refine State.failCmd_ev ?_ ?_
    | with_reducible refine State.updCmd_ev ?_ ?_ | with_reducible refine Evolves.foldl ?_ fun _ _ => ?_
    | with_reducible apply Evolves.ite | with_reducible apply EvolvesOut.next | with_reducible exact EvolvesOut.fault
    | with_reducible apply EvolvesOut.ite | split | with_reducible apply Evolves.upd

theorem execEvent_ev {k : Bool} {l : List Area} {s : State} {ref : CmdRef}
    (m : Area.subset [.pins, .hub, .funcs, .msix, .windows, .parts, .ctxs, .trans, .tlb, .fences, .fenceFreed, .fenceLower,
      .rings, .objs, .hbm, .chip, .pans, .units, .clusters, .power, .log, .secs, .cmds, .replays, .hzn, .svcs,
      .sessions, .xparts, .invals, .atsInvals] l = true) : EvolvesOut k l s (execEvent ref s) := by
  refine EvolvesOut.mono ?_ m
  unfold execEvent
  try dsimp only
  repeat'
    first
    | exact rfl | exact .inr rfl | exact .inl rfl | exact Nat.le_refl _ | exact Nat.le_add_right _ _ | exact .refl _ | exact fun h => h | exact ⟨fun _ h => h, fun h => h⟩
    | with_reducible exact Evolves.refl _ _ | with_reducible refine State.takeUp_ev ?_ ?_
    | with_reducible refine State.markWritten_ev ?_ ?_ | with_reducible refine Evolves.foldl ?_ fun _ _ => ?_
    | with_reducible apply Evolves.ite | with_reducible apply EvolvesOut.next | with_reducible exact EvolvesOut.fault
    | with_reducible apply EvolvesOut.ite | split | with_reducible apply Evolves.upd

theorem execBarrier_ev {k : Bool} {l : List Area} {s : State} {ref : CmdRef}
    (m : Area.subset [.pins, .hub, .funcs, .msix, .windows, .parts, .ctxs, .trans, .tlb, .fences, .fenceFreed, .fenceLower,
      .rings, .objs, .hbm, .chip, .pans, .units, .clusters, .power, .log, .secs, .cmds, .replays, .hzn, .svcs,
      .sessions, .xparts, .invals, .atsInvals] l = true) : EvolvesOut k l s (execBarrier ref s) := by
  refine EvolvesOut.mono ?_ m
  unfold execBarrier
  try dsimp only
  repeat'
    first
    | exact rfl | exact .inr rfl | exact .inl rfl | exact Nat.le_refl _ | exact Nat.le_add_right _ _ | exact .refl _ | exact fun h => h | exact ⟨fun _ h => h, fun h => h⟩
    | with_reducible exact Evolves.refl _ _ | with_reducible refine State.takeUp_ev ?_ ?_
    | with_reducible refine State.markWritten_ev ?_ ?_ | with_reducible refine State.passBarrier_ev ?_ ?_
    | with_reducible refine Evolves.foldl ?_ fun _ _ => ?_ | with_reducible apply Evolves.ite
    | with_reducible apply EvolvesOut.next | with_reducible exact EvolvesOut.fault
    | with_reducible apply EvolvesOut.ite | split | with_reducible apply Evolves.upd

theorem execWaitTimeoutExpiry_ev {k : Bool} {l : List Area} {s : State} {ref : CmdRef}
    (m : Area.subset [.pins, .time, .hub, .funcs, .msix, .windows, .parts, .ctxs, .trans, .tlb, .fences, .fenceFreed, .fenceLower,
      .rings, .objs, .hbm, .chip, .pans, .units, .clusters, .power, .log, .secs, .cmds, .replays, .hzn, .svcs,
      .sessions, .xparts, .invals, .atsInvals] l = true) : EvolvesOut k l s (execWaitTimeoutExpiry ref s) := by
  refine EvolvesOut.mono ?_ m
  unfold execWaitTimeoutExpiry
  try dsimp only
  repeat'
    first
    | exact rfl | exact .inr rfl | exact .inl rfl | exact Nat.le_refl _ | exact Nat.le_add_right _ _ | exact .refl _ | exact fun h => h | exact ⟨fun _ h => h, fun h => h⟩
    | with_reducible exact Evolves.refl _ _ | with_reducible refine State.failCmd_ev ?_ ?_
    | with_reducible refine State.atTime_ev ?_ ?_ | with_reducible refine Evolves.foldl ?_ fun _ _ => ?_
    | with_reducible apply Evolves.ite | with_reducible apply EvolvesOut.next | with_reducible exact EvolvesOut.fault
    | with_reducible apply EvolvesOut.ite | split | with_reducible apply Evolves.upd

theorem State.failCycle_ev {k : Bool} {l : List Area} {s0 s : State} {W : List CmdRef} (h : Evolves k l s0 s)
    (m : Area.subset [.pins, .hub, .funcs, .msix, .windows, .parts, .ctxs, .trans, .tlb, .fences, .fenceFreed, .fenceLower,
      .rings, .objs, .hbm, .chip, .pans, .units, .clusters, .power, .log, .secs, .cmds, .replays, .hzn, .svcs,
      .sessions, .xparts, .invals, .atsInvals] l = true) : Evolves k l s0 (s.failCycle W) := by
  refine Evolves.after ?_ h m
  unfold State.failCycle
  try dsimp only
  repeat'
    first
    | exact rfl | exact .inr rfl | exact .inl rfl | exact Nat.le_refl _ | exact Nat.le_add_right _ _ | exact .refl _ | exact fun h => h | exact ⟨fun _ h => h, fun h => h⟩
    | with_reducible exact Evolves.refl _ _ | with_reducible refine State.failCmd_ev ?_ ?_
    | with_reducible refine Evolves.foldl ?_ fun _ _ => ?_ | with_reducible apply Evolves.ite | split
    | with_reducible apply Evolves.upd

theorem execWaitCycleScan_ev {k : Bool} {l : List Area} {s : State}
    (m : Area.subset [.pins, .time, .hub, .funcs, .msix, .windows, .parts, .ctxs, .trans, .tlb, .fences, .fenceFreed, .fenceLower,
      .rings, .objs, .hbm, .chip, .pans, .units, .clusters, .power, .log, .secs, .cmds, .replays, .scanSet, .hzn,
      .svcs, .sessions, .xparts, .invals, .atsInvals] l = true) : EvolvesOut k l s (execWaitCycleScan s) := by
  refine EvolvesOut.mono ?_ m
  unfold execWaitCycleScan
  try dsimp only
  repeat'
    first
    | exact rfl | exact .inr rfl | exact .inl rfl | exact Nat.le_refl _ | exact Nat.le_add_right _ _ | exact .refl _ | exact fun h => h | exact ⟨fun _ h => h, fun h => h⟩
    | with_reducible exact Evolves.refl _ _ | with_reducible refine State.atTime_ev ?_ ?_
    | with_reducible refine State.failCycle_ev ?_ ?_ | with_reducible refine Evolves.foldl ?_ fun _ _ => ?_
    | with_reducible apply Evolves.ite | with_reducible apply EvolvesOut.next | with_reducible exact EvolvesOut.fault
    | with_reducible apply EvolvesOut.ite | split | with_reducible apply Evolves.upd

theorem State.patchValues_ev {k : Bool} {l : List Area} {s0 s : State} {x1 : Cmd} {x2 : Nat} (h : Evolves k l s0 s)
    (m : Area.subset [.pins, .hub, .funcs, .msix, .ctxs, .tlb, .rings, .hbm, .pans, .clusters, .power, .log, .cmds, .replays,
      .hzn, .xparts, .atsInvals] l = true) : Evolves k l s0 (s.patchValues x1 x2).2 := by
  refine Evolves.after ?_ h m
  unfold State.patchValues
  try dsimp only
  repeat'
    first
    | exact rfl | exact .inr rfl | exact .inl rfl | exact Nat.le_refl _ | exact Nat.le_add_right _ _ | exact .refl _ | exact fun h => h | exact ⟨fun _ h => h, fun h => h⟩
    | with_reducible exact Evolves.refl _ _ | with_reducible refine State.readVa_ev ?_ ?_
    | with_reducible refine Evolves.foldl ?_ fun _ _ => ?_ | dsimp only | with_reducible apply Evolves.ite | split
    | refine Evolves.of_snd (by assumption) ?_ | with_reducible apply Evolves.upd

theorem execPatch_ev {k : Bool} {l : List Area} {s : State} {ref : CmdRef}
    (m : Area.subset [.pins, .hub, .funcs, .msix, .windows, .parts, .ctxs, .trans, .tlb, .fences, .fenceFreed, .fenceLower,
      .rings, .objs, .hbm, .chip, .pans, .units, .clusters, .power, .log, .secs, .cmds, .replays, .hzn, .svcs,
      .sessions, .xparts, .invals, .atsInvals] l = true) : EvolvesOut k l s (execPatch ref s) := by
  refine EvolvesOut.mono ?_ m
  unfold execPatch
  try dsimp only
  repeat'
    first
    | exact rfl | exact .inr rfl | exact .inl rfl | exact Nat.le_refl _ | exact Nat.le_add_right _ _ | exact .refl _ | exact fun h => h | exact ⟨fun _ h => h, fun h => h⟩
    | with_reducible exact Evolves.refl _ _ | with_reducible refine State.takeUp_ev ?_ ?_
    | with_reducible refine State.markWritten_ev ?_ ?_ | with_reducible refine State.failCmd_ev ?_ ?_
    | with_reducible refine State.patchValues_ev ?_ ?_ | with_reducible refine State.updCmd_ev ?_ ?_
    | with_reducible refine Evolves.foldl ?_ fun _ _ => ?_ | with_reducible apply Evolves.ite
    | with_reducible apply EvolvesOut.next | with_reducible exact EvolvesOut.fault
    | with_reducible apply EvolvesOut.ite | split | refine Evolves.of_snd (by assumption) ?_
    | with_reducible apply Evolves.upd

theorem execReplay_ev {k : Bool} {l : List Area} {s : State} {ref : CmdRef}
    (m : Area.subset [.pins, .hub, .funcs, .msix, .windows, .parts, .ctxs, .trans, .tlb, .fences, .fenceFreed, .fenceLower,
      .rings, .objs, .hbm, .chip, .pans, .units, .clusters, .power, .log, .secs, .cmds, .replays, .hzn, .svcs,
      .sessions, .xparts, .invals, .atsInvals] l = true) : EvolvesOut k l s (execReplay ref s) := by
  refine EvolvesOut.mono ?_ m
  unfold execReplay
  try dsimp only
  repeat'
    first
    | exact rfl | exact .inr rfl | exact .inl rfl | exact Nat.le_refl _ | exact Nat.le_add_right _ _ | exact .refl _ | exact fun h => h | exact ⟨fun _ h => h, fun h => h⟩
    | with_reducible exact Evolves.refl _ _ | with_reducible refine State.failCmd_ev ?_ ?_
    | with_reducible refine State.markWritten_ev ?_ ?_ | with_reducible refine State.updCmd_ev ?_ ?_
    | with_reducible refine State.updPt_ev ?_ ?_ | with_reducible refine Evolves.foldl ?_ fun _ _ => ?_
    | with_reducible apply Evolves.ite | with_reducible apply EvolvesOut.next | with_reducible exact EvolvesOut.fault
    | with_reducible apply EvolvesOut.ite | split | with_reducible apply Evolves.upd

theorem State.startRun_ev {k : Bool} {l : List Area} {s0 s : State} {x1 : Nat} (h : Evolves k l s0 s)
    (m : Area.subset [.parts, .pans, .secs] l = true) : Evolves k l s0 (s.startRun x1) := by
  refine Evolves.after ?_ h m
  unfold State.startRun
  try dsimp only
  repeat'
    first
    | exact rfl | exact .inr rfl | exact .inl rfl | exact Nat.le_refl _ | exact Nat.le_add_right _ _ | exact .refl _ | exact fun h => h
    | with_reducible exact Evolves.refl _ _ | with_reducible refine State.updSec_ev ?_ ?_
    | with_reducible refine State.clearRegTags_ev ?_ ?_ | with_reducible refine State.updPt_ev ?_ ?_
    | with_reducible refine Evolves.foldl ?_ fun _ _ => ?_ | with_reducible apply Evolves.ite | split
    | with_reducible apply Evolves.upd

theorem execRunStart_ev {k : Bool} {l : List Area} {s : State} {sec : Nat}
    (m : Area.subset [.parts, .pans, .secs] l = true) : EvolvesOut k l s (execRunStart sec s) := by
  refine EvolvesOut.mono ?_ m
  unfold execRunStart
  try dsimp only
  repeat'
    first
    | exact rfl | exact .inr rfl | exact .inl rfl | exact Nat.le_refl _ | exact Nat.le_add_right _ _ | exact .refl _ | exact fun h => h
    | with_reducible exact Evolves.refl _ _ | with_reducible refine State.startRun_ev ?_ ?_
    | with_reducible refine Evolves.foldl ?_ fun _ _ => ?_ | with_reducible apply Evolves.ite
    | with_reducible apply EvolvesOut.next | with_reducible exact EvolvesOut.fault
    | with_reducible apply EvolvesOut.ite | split | with_reducible apply Evolves.upd

theorem bodyOf_ev {k : Bool} {l : List Area} {op : Nat} {f : Body} (e : bodyOf op = some f)
    (m : Area.subset [.pins, .hub, .funcs, .msix, .ctxs, .tlb, .rings, .hbm, .pans, .clusters, .power, .log, .cmds, .replays, .hzn,
      .xparts, .atsInvals] l = true) (c : Cx) (w : List Byte) (a : Acc) : Calm k l (f c w a) := by
  unfold bodyOf at e
  split at e <;> cases e <;> first
    | with_reducible refine bodyMatmul_ev ?_ _ _ _; exact Area.subset_trans rfl m
    | with_reducible refine bodyVop_ev ?_ _ _ _; exact Area.subset_trans rfl m
    | with_reducible refine bodyReduce_ev ?_ _ _ _; exact Area.subset_trans rfl m
    | with_reducible refine bodySoftmax_ev ?_ _ _ _; exact Area.subset_trans rfl m
    | with_reducible refine bodyNorm_ev ?_ _ _ _; exact Area.subset_trans rfl m
    | with_reducible refine bodyActivate_ev ?_ _ _ _; exact Area.subset_trans rfl m
    | with_reducible refine bodyRope_ev ?_ _ _ _; exact Area.subset_trans rfl m
    | with_reducible refine bodyTopk_ev ?_ _ _ _; exact Area.subset_trans rfl m
    | with_reducible refine bodySample_ev ?_ _ _ _; exact Area.subset_trans rfl m
    | with_reducible refine bodyQuant_ev ?_ _ _ _; exact Area.subset_trans rfl m
    | with_reducible refine bodyRequant_ev ?_ _ _ _; exact Area.subset_trans rfl m
    | with_reducible refine bodyDequant_ev ?_ _ _ _; exact Area.subset_trans rfl m
    | with_reducible refine bodyCopy_ev ?_ _ _ _; exact Area.subset_trans rfl m

theorem Cx.runChain_ev {k : Bool} {l : List Area} {c : Cx} {ws : List (List Byte)} {infos : List RecInfo}
    (m : Area.subset [.pins, .hub, .funcs, .msix, .ctxs, .tlb, .rings, .hbm, .pans, .clusters, .power, .log, .cmds, .replays,
      .hzn, .xparts, .atsInvals] l = true) : Calm k l (Cx.runChain c ws infos) := by
  refine Calm.mono ?_ m
  unfold Cx.runChain
  try dsimp only
  repeat'
    first
    | exact rfl | exact .inr rfl | exact .inl rfl | exact Nat.le_refl _ | exact Nat.le_add_right _ _ | exact .refl _ | exact fun h => h | exact ⟨fun _ h => h, fun h => h⟩
    | with_reducible exact Evolves.refl _ _ | with_reducible refine Evolves.foldl ?_ fun _ _ => ?_
    | with_reducible apply Evolves.ite | with_reducible exact Calm.pure _ | with_reducible exact Calm.get
    | with_reducible exact Calm.throw _ | with_reducible exact Calm.throwThe _ | with_reducible exact Calm.drawFree
    | with_reducible refine Calm.modify fun _ => ?_ | with_reducible exact Calm.need _ _
    | with_reducible refine Calm.liftR fun _ => ?_ | with_reducible apply Calm.ite
    | with_reducible refine Calm.bind ?_ fun _ => ?_ | with_reducible refine Calm.map ?_
    | with_reducible refine Calm.mapM fun _ => ?_ | with_reducible refine Calm.foldlM fun _ _ => ?_
    | with_reducible refine Calm.forM fun _ => ?_ | split | exact bodyOf_ev ‹_› rfl _ _ _

theorem execChain_ev {k : Bool} {l : List Area} {s : State} {ref : CmdRef}
    (m : Area.subset [.pins, .hub, .funcs, .msix, .windows, .parts, .tokens, .ctxs, .trans, .tlb, .fences, .fenceFreed,
      .fenceLower, .rings, .objs, .hbm, .chip, .pans, .units, .clusters, .power, .log, .secs, .cmds, .replays,
      .hzn, .svcs, .sessions, .xparts, .invals, .atsInvals] l = true) : EvolvesOut k l s (execChain ref s) := by
  refine EvolvesOut.mono ?_ m
  unfold execChain
  try dsimp only
  repeat'
    first
    | exact rfl | exact .inr rfl | exact .inl rfl | exact Nat.le_refl _ | exact Nat.le_add_right _ _ | exact .refl _ | exact fun h => h | exact ⟨fun _ h => h, fun h => h⟩
    | with_reducible exact Evolves.refl _ _ | with_reducible refine State.takeUp_ev ?_ ?_
    | with_reducible refine State.takeFrames_ev ?_ ?_ | with_reducible refine State.occupy_ev ?_ ?_
    | with_reducible refine State.finishWork_ev ?_ ?_ | with_reducible refine State.chargeCmd_ev ?_ ?_
    | with_reducible refine Cx.runChain_ev ?_ | with_reducible refine State.failCmd_ev ?_ ?_
    | with_reducible refine State.vectorBusy_ev ?_ ?_ | with_reducible refine Evolves.foldl ?_ fun _ _ => ?_
    | with_reducible refine Evolves.elim ?_ fun _ => ?_ | with_reducible apply Evolves.ite
    | with_reducible apply EvolvesOut.next | with_reducible exact EvolvesOut.fault
    | with_reducible apply EvolvesOut.ite | with_reducible refine Evolves.run ?_ ?_ | split
    | refine Evolves.of_snd (by assumption) ?_ | with_reducible apply Evolves.upd

end Sys2Proof.Machine
end

