-- ==== Sys2Proof/Laws/Commit.lean ====
section
/-! SUPPORT. What each operation of Sys2Proof/Machine/Commit.lean may change, and how the state follows. -/

set_option Elab.async false
set_option linter.all false
namespace Sys2Proof.Machine

theorem State.widen_ev {k : Bool} {l : List Area} {s0 s : State} {x1 : Cmd} (h : Evolves k l s0 s)
    (m : Area.subset [.cmds] l = true) : Evolves k l s0 (s.widen x1) := by
  refine Evolves.after ?_ h m
  unfold State.widen
  try dsimp only
  repeat'
    first
    | exact rfl | exact .inr rfl | exact .inl rfl | exact Nat.le_refl _ | exact Nat.le_add_right _ _ | exact .refl _ | exact fun h => h
    | with_reducible exact Evolves.refl _ _ | with_reducible refine State.updCmd_ev ?_ ?_
    | with_reducible refine Evolves.foldl ?_ fun _ _ => ?_ | with_reducible refine Evolves.foldl_snd ?_ fun _ _ => ?_
    | with_reducible refine Evolves.foldl_fst ?_ fun _ _ => ?_ | with_reducible apply Evolves.ite | split
    | with_reducible apply Evolves.upd

theorem State.setRefills_ev {k : Bool} {l : List Area} {s0 s : State} {x1 : Cmd} (h : Evolves k l s0 s)
    (m : Area.subset [.chip] l = true) : Evolves k l s0 (s.setRefills x1) := by
  refine Evolves.after ?_ h m
  unfold State.setRefills
  try dsimp only
  repeat'
    first
    | exact rfl | exact .inr rfl | exact .inl rfl | exact Nat.le_refl _ | exact Nat.le_add_right _ _ | exact .refl _ | exact fun h => h
    | with_reducible exact Evolves.refl _ _ | with_reducible refine Evolves.foldl ?_ fun _ _ => ?_
    | with_reducible apply Evolves.ite | split | with_reducible apply Evolves.upd

theorem State.commitHorizon_ev {k : Bool} {l : List Area} {s0 s : State} {x1 : Cmd} (h : Evolves k l s0 s)
    (m : Area.subset [.secs, .hzn] l = true) : Evolves k l s0 (s.commitHorizon x1) := by
  refine Evolves.after ?_ h m
  unfold State.commitHorizon
  try dsimp only
  repeat'
    first
    | exact rfl | exact .inr rfl | exact .inl rfl | exact Nat.le_refl _ | exact Nat.le_add_right _ _ | exact .refl _ | exact fun h => h
    | with_reducible exact Evolves.refl _ _ | with_reducible refine State.sendCtrl_ev ?_ ?_
    | with_reducible refine State.updSec_ev ?_ ?_ | with_reducible refine Evolves.foldl ?_ fun _ _ => ?_
    | with_reducible apply Evolves.ite | split | with_reducible apply Evolves.upd

theorem State.commitRegs_ev {k : Bool} {l : List Area} {s0 s : State} {x1 : Cmd} (h : Evolves k l s0 s)
    (m : Area.subset [.secs] l = true) : Evolves k l s0 (s.commitRegs x1) := by
  refine Evolves.after ?_ h m
  unfold State.commitRegs
  try dsimp only
  repeat'
    first
    | exact rfl | exact .inr rfl | exact .inl rfl | exact Nat.le_refl _ | exact Nat.le_add_right _ _ | exact .refl _ | exact fun h => h
    | with_reducible exact Evolves.refl _ _ | with_reducible refine State.updSec_ev ?_ ?_
    | with_reducible refine State.writeRegs_ev ?_ ?_ | with_reducible refine Evolves.foldl ?_ fun _ _ => ?_
    | with_reducible apply Evolves.ite | split | with_reducible apply Evolves.upd

theorem State.commitRecords_ev {k : Bool} {l : List Area} {s0 s : State} {x1 : Cmd} (h : Evolves k l s0 s)
    (m : Area.subset [.pins, .hub, .funcs, .msix, .ctxs, .tlb, .rings, .hbm, .chip, .pans, .clusters, .power, .log, .cmds,
      .replays, .hzn, .xparts, .atsInvals] l = true) : Evolves k l s0 (s.commitRecords x1) := by
  refine Evolves.after ?_ h m
  unfold State.commitRecords
  try dsimp only
  repeat'
    first
    | exact rfl | exact .inr rfl | exact .inl rfl | exact Nat.le_refl _ | exact Nat.le_add_right _ _ | exact .refl _ | exact fun h => h | exact ⟨fun _ h => h, fun h => h⟩
    | with_reducible exact Evolves.refl _ _ | with_reducible refine State.writeRecord_ev ?_ ?_
    | with_reducible refine Evolves.foldl ?_ fun _ _ => ?_ | with_reducible apply Evolves.ite | split
    | with_reducible apply Evolves.upd

theorem State.commitEvents_ev {k : Bool} {l : List Area} {s0 s : State} {ks : List Cmd} (h : Evolves k l s0 s)
    (m : Area.subset [.pins, .funcs, .msix, .ctxs, .log] l = true) : Evolves k l s0 (s.commitEvents ks).1 := by
  refine Evolves.after ?_ h m
  unfold State.commitEvents
  try dsimp only
  repeat'
    first
    | exact rfl | exact .inr rfl | exact .inl rfl | exact Nat.le_refl _ | exact Nat.le_add_right _ _ | exact .refl _ | exact fun h => h
    | with_reducible exact Evolves.refl _ _ | with_reducible refine State.ctxEvent_ev ?_ ?_
    | with_reducible refine Evolves.foldl ?_ fun _ _ => ?_ | with_reducible refine Evolves.foldl_snd ?_ fun _ _ => ?_
    | with_reducible refine Evolves.foldl_fst ?_ fun _ _ => ?_ | dsimp only | with_reducible apply Evolves.ite | split
    | refine Evolves.of_fst (by assumption) ?_ | with_reducible apply Evolves.upd

theorem State.commitAll_ev {k : Bool} {l : List Area} {s0 s : State} {ks : List Cmd} (h : Evolves k l s0 s)
    (m : Area.subset [.pins, .hub, .funcs, .msix, .windows, .parts, .ctxs, .trans, .tlb, .fences, .fenceFreed, .fenceLower,
      .rings, .objs, .hbm, .chip, .pans, .units, .clusters, .power, .log, .secs, .cmds, .replays, .hzn, .svcs,
      .sessions, .xparts, .invals, .atsInvals] l = true) : Evolves k l s0 (s.commitAll ks) := by
  refine Evolves.after ?_ h m
  unfold State.commitAll
  try dsimp only
  repeat'
    first
    | exact rfl | exact .inr rfl | exact .inl rfl | exact Nat.le_refl _ | exact Nat.le_add_right _ _ | exact .refl _ | exact fun h => h | exact ⟨fun _ h => h, fun h => h⟩
    | with_reducible exact Evolves.refl _ _ | with_reducible refine State.commitRegs_ev ?_ ?_
    | with_reducible refine State.applyStaged_ev ?_ ?_ | with_reducible refine State.commitHorizon_ev ?_ ?_
    | with_reducible refine State.commitSwap_ev ?_ ?_ | with_reducible refine State.setRefills_ev ?_ ?_
    | with_reducible refine State.commitRecords_ev ?_ ?_ | with_reducible refine State.commitEvents_ev ?_ ?_
    | with_reducible refine State.finishCmd_ev ?_ ?_ | with_reducible refine State.updCmd_ev ?_ ?_
    | with_reducible refine Evolves.foldl ?_ fun _ _ => ?_ | with_reducible apply Evolves.ite | split
    | refine Evolves.of_fst (by assumption) ?_ | with_reducible apply Evolves.upd

theorem State.commitGroup_ev {k : Bool} {l : List Area} {s0 s : State} {ks : List Cmd} (h : Evolves k l s0 s)
    (m : Area.subset [.pins, .hub, .funcs, .msix, .windows, .parts, .ctxs, .trans, .tlb, .fences, .fenceFreed, .fenceLower,
      .rings, .objs, .hbm, .chip, .pans, .units, .clusters, .power, .log, .secs, .cmds, .replays, .hzn, .svcs,
      .sessions, .xparts, .invals, .atsInvals] l = true) : Evolves k l s0 (s.commitGroup ks) := by
  refine Evolves.after ?_ h m
  unfold State.commitGroup
  try dsimp only
  repeat'
    first
    | exact rfl | exact .inr rfl | exact .inl rfl | exact Nat.le_refl _ | exact Nat.le_add_right _ _ | exact .refl _ | exact fun h => h | exact ⟨fun _ h => h, fun h => h⟩
    | with_reducible exact Evolves.refl _ _ | with_reducible refine State.failCmd_ev ?_ ?_
    | with_reducible refine State.commitAll_ev ?_ ?_ | with_reducible refine State.kill_ev ?_ ?_
    | with_reducible refine State.widen_ev ?_ ?_ | with_reducible refine Evolves.foldl ?_ fun _ _ => ?_
    | with_reducible apply Evolves.ite | split | with_reducible apply Evolves.upd

theorem execCommandCommit_ev {k : Bool} {l : List Area} {s : State} {ref : CmdRef}
    (m : Area.subset [.pins, .hub, .funcs, .msix, .windows, .parts, .ctxs, .trans, .tlb, .fences, .fenceFreed, .fenceLower,
      .rings, .objs, .hbm, .chip, .pans, .units, .clusters, .power, .log, .secs, .cmds, .replays, .hzn, .svcs,
      .sessions, .xparts, .invals, .atsInvals] l = true) : EvolvesOut k l s (execCommandCommit ref s) := by
  refine EvolvesOut.mono ?_ m
  unfold execCommandCommit
  try dsimp only
  repeat'
    first
    | exact rfl | exact .inr rfl | exact .inl rfl | exact Nat.le_refl _ | exact Nat.le_add_right _ _ | exact .refl _ | exact fun h => h | exact ⟨fun _ h => h, fun h => h⟩
    | with_reducible exact Evolves.refl _ _ | with_reducible refine State.commitGroup_ev ?_ ?_
    | with_reducible refine Evolves.foldl ?_ fun _ _ => ?_ | with_reducible apply Evolves.ite
    | with_reducible apply EvolvesOut.next | with_reducible exact EvolvesOut.fault
    | with_reducible apply EvolvesOut.ite | split | with_reducible apply Evolves.upd

theorem execStreamGroupCommit_ev {k : Bool} {l : List Area} {s : State} {ref : CmdRef}
    (m : Area.subset [.pins, .hub, .funcs, .msix, .windows, .parts, .ctxs, .trans, .tlb, .fences, .fenceFreed, .fenceLower,
      .rings, .objs, .hbm, .chip, .pans, .units, .clusters, .power, .log, .secs, .cmds, .replays, .hzn, .svcs,
      .sessions, .xparts, .invals, .atsInvals] l = true) : EvolvesOut k l s (execStreamGroupCommit ref s) := by
  refine EvolvesOut.mono ?_ m
  unfold execStreamGroupCommit
  try dsimp only
  repeat'
    first
    | exact rfl | exact .inr rfl | exact .inl rfl | exact Nat.le_refl _ | exact Nat.le_add_right _ _ | exact .refl _ | exact fun h => h | exact ⟨fun _ h => h, fun h => h⟩
    | with_reducible exact Evolves.refl _ _ | with_reducible refine State.commitGroup_ev ?_ ?_
    | with_reducible refine Evolves.foldl ?_ fun _ _ => ?_ | with_reducible apply Evolves.ite
    | with_reducible apply EvolvesOut.next | with_reducible exact EvolvesOut.fault
    | with_reducible apply EvolvesOut.ite | split | with_reducible apply Evolves.upd

theorem execPreemptWaitExpiry_ev {k : Bool} {l : List Area} {s : State} {core : Nat} {unit : UnitKind}
    (m : Area.subset [.time, .msix, .windows, .parts, .pans, .units, .clusters, .secs, .cmds, .svcs, .xparts, .atsInvals] l = true) : EvolvesOut k l s (execPreemptWaitExpiry core unit s) := by
  refine EvolvesOut.mono ?_ m
  unfold execPreemptWaitExpiry
  try dsimp only
  repeat'
    first
    | exact rfl | exact .inr rfl | exact .inl rfl | exact Nat.le_refl _ | exact Nat.le_add_right _ _ | exact .refl _ | exact fun h => h
    | with_reducible exact Evolves.refl _ _ | with_reducible refine State.atTime_ev ?_ ?_
    | with_reducible refine State.kill_ev ?_ ?_ | with_reducible refine State.perf_ev ?_ ?_
    | with_reducible refine State.updPt_ev ?_ ?_ | with_reducible refine Evolves.foldl ?_ fun _ _ => ?_
    | with_reducible apply Evolves.ite | with_reducible apply EvolvesOut.next | with_reducible exact EvolvesOut.fault
    | with_reducible apply EvolvesOut.ite | split | with_reducible apply Evolves.upd

theorem State.requeue_ev {k : Bool} {l : List Area} {s0 s : State} {x1 : Cmd} (h : Evolves k l s0 s)
    (m : Area.subset [.units] l = true) : Evolves k l s0 (s.requeue x1) := by
  refine Evolves.after ?_ h m
  unfold State.requeue
  try dsimp only
  repeat'
    first
    | exact rfl | exact .inr rfl | exact .inl rfl | exact Nat.le_refl _ | exact Nat.le_add_right _ _ | exact .refl _ | exact fun h => h
    | with_reducible exact Evolves.refl _ _ | with_reducible refine State.updUn_ev ?_ ?_
    | with_reducible refine Evolves.foldl ?_ fun _ _ => ?_ | with_reducible apply Evolves.ite | split
    | with_reducible apply Evolves.upd

theorem execKillComplete_ev {k : Bool} {l : List Area} {s : State} {ref : CmdRef}
    (m : Area.subset [.pins, .hub, .funcs, .msix, .parts, .ctxs, .trans, .tlb, .fences, .fenceFreed, .fenceLower, .rings, .objs,
      .hbm, .chip, .pans, .units, .clusters, .power, .log, .secs, .cmds, .replays, .hzn, .sessions, .xparts,
      .invals, .atsInvals] l = true) : EvolvesOut k l s (execKillComplete ref s) := by
  refine EvolvesOut.mono ?_ m
  unfold execKillComplete
  try dsimp only
  repeat'
    first
    | exact rfl | exact .inr rfl | exact .inl rfl | exact Nat.le_refl _ | exact Nat.le_add_right _ _ | exact .refl _ | exact fun h => h | exact ⟨fun _ h => h, fun h => h⟩
    | with_reducible exact Evolves.refl _ _ | with_reducible refine State.undoSwap_ev ?_ ?_
    | with_reducible refine State.settle_ev ?_ ?_ | with_reducible refine State.dropCmds_ev ?_ ?_
    | with_reducible refine State.updCmd_ev ?_ ?_ | with_reducible refine State.requeue_ev ?_ ?_
    | with_reducible refine State.takeFrames_ev ?_ ?_ | with_reducible refine Evolves.foldl ?_ fun _ _ => ?_
    | with_reducible refine Evolves.elim ?_ fun _ => ?_ | with_reducible apply Evolves.ite
    | with_reducible apply EvolvesOut.next | with_reducible exact EvolvesOut.fault
    | with_reducible apply EvolvesOut.ite | split | with_reducible apply Evolves.upd

theorem State.refillPage_ev {k : Bool} {l : List Area} {s0 s : State} {res : Bool} {page : Nat} {ctx : Nat} {ref : CmdRef} (h : Evolves k l s0 s)
    (m : Area.subset [.pins, .hub, .funcs, .msix, .ctxs, .tlb, .rings, .hbm, .chip, .pans, .clusters, .power, .log, .cmds,
      .replays, .hzn, .xparts, .atsInvals] l = true) : Evolves k l s0 (s.refillPage res page ctx ref).1 := by
  refine Evolves.after ?_ h m
  unfold State.refillPage
  try dsimp only
  repeat'
    first
    | exact rfl | exact .inr rfl | exact .inl rfl | exact Nat.le_refl _ | exact Nat.le_add_right _ _ | exact .refl _ | exact fun h => h | exact ⟨fun _ h => h, fun h => h⟩
    | with_reducible exact Evolves.refl _ _ | with_reducible refine State.readVa_ev ?_ ?_
    | with_reducible refine Evolves.foldl ?_ fun _ _ => ?_ | with_reducible refine Evolves.foldl_snd ?_ fun _ _ => ?_
    | with_reducible refine Evolves.foldl_fst ?_ fun _ _ => ?_ | dsimp only | with_reducible apply Evolves.ite
    | exact fun h => ⟨h.1, Mem.wrN_wf _ _ h.2⟩ | exact fun h => ⟨Mem.wrN_wf _ _ h.1, h.2⟩ | split
    | refine Evolves.of_snd (by assumption) ?_ | with_reducible apply Evolves.upd

theorem State.markPage_ev {k : Bool} {l : List Area} {s0 s : State} {res : Bool} {page : Nat} (h : Evolves k l s0 s)
    (m : Area.subset [.chip] l = true) : Evolves k l s0 (s.markPage res page) := by
  refine Evolves.after ?_ h m
  unfold State.markPage
  try dsimp only
  repeat'
    first
    | exact rfl | exact .inr rfl | exact .inl rfl | exact Nat.le_refl _ | exact Nat.le_add_right _ _ | exact .refl _ | exact fun h => h
    | with_reducible exact Evolves.refl _ _ | with_reducible refine Evolves.foldl ?_ fun _ _ => ?_
    | with_reducible apply Evolves.ite | split | with_reducible apply Evolves.upd

theorem State.noteParity_ev {k : Bool} {l : List Area} {s0 s : State} {cluster : Nat} {kind : Nat} {unit : Nat} {addr : Nat} {x5 : Cmd} {last : Word → Word} {stored : Bool} {refilled : Bool} {fails : Bool} (h : Evolves k l s0 s)
    (m : Area.subset [.pins, .clusters, .log, .cmds] l = true) : Evolves k l s0 (s.noteParity cluster kind unit addr x5 last stored refilled fails) := by
  refine Evolves.after ?_ h m
  unfold State.noteParity
  try dsimp only
  repeat'
    first
    | exact rfl | exact .inr rfl | exact .inl rfl | exact Nat.le_refl _ | exact Nat.le_add_right _ _ | exact .refl _ | exact fun h => h
    | with_reducible exact Evolves.refl _ _ | with_reducible refine State.updCl_ev ?_ ?_
    | with_reducible refine State.logEv_ev ?_ ?_ | with_reducible refine State.updCmd_ev ?_ ?_
    | with_reducible refine Evolves.foldl ?_ fun _ _ => ?_ | with_reducible apply Evolves.ite | split
    | with_reducible apply Evolves.upd

theorem State.endParity_ev {k : Bool} {l : List Area} {s0 s : State} {cluster : Nat} {kind : Nat} {unit : Nat} {addr : Nat} {x5 : Cmd} {fails : Bool} (h : Evolves k l s0 s)
    (m : Area.subset [.pins, .hub, .funcs, .msix, .windows, .parts, .ctxs, .trans, .tlb, .fences, .fenceFreed, .fenceLower,
      .rings, .objs, .hbm, .chip, .pans, .units, .clusters, .power, .log, .secs, .cmds, .replays, .hzn, .svcs,
      .sessions, .xparts, .invals, .atsInvals] l = true) : Evolves k l s0 (s.endParity cluster kind unit addr x5 fails) := by
  refine Evolves.after ?_ h m
  unfold State.endParity
  try dsimp only
  repeat'
    first
    | exact rfl | exact .inr rfl | exact .inl rfl | exact Nat.le_refl _ | exact Nat.le_add_right _ _ | exact .refl _ | exact fun h => h | exact ⟨fun _ h => h, fun h => h⟩
    | with_reducible exact Evolves.refl _ _ | with_reducible refine State.failCmd_ev ?_ ?_
    | with_reducible refine State.perf_ev ?_ ?_ | with_reducible refine State.logEv_ev ?_ ?_
    | with_reducible refine State.updCmd_ev ?_ ?_ | with_reducible refine State.kill_ev ?_ ?_
    | with_reducible refine Evolves.foldl ?_ fun _ _ => ?_ | with_reducible apply Evolves.ite | split
    | with_reducible apply Evolves.upd

theorem State.secDed_ev {k : Bool} {l : List Area} {s0 s : State} {store : Nat} {cluster : Nat} {addr : Nat} {double : Bool} (h : Evolves k l s0 s)
    (m : Area.subset [.pins, .hub, .funcs, .msix, .ctxs, .rings, .pans, .power, .log, .cmds, .replays, .hzn, .xparts, .atsInvals] l = true) : Evolves k l s0 (s.secDed store cluster addr double) := by
  refine Evolves.after ?_ h m
  unfold State.secDed
  try dsimp only
  repeat'
    first
    | exact rfl | exact .inr rfl | exact .inl rfl | exact Nat.le_refl _ | exact Nat.le_add_right _ _ | exact .refl _ | exact fun h => h | exact ⟨fun _ h => h, fun h => h⟩
    | with_reducible exact Evolves.refl _ _ | with_reducible refine State.uncontained_ev ?_ ?_
    | with_reducible refine State.logCo_ev ?_ ?_ | with_reducible refine Evolves.foldl ?_ fun _ _ => ?_
    | with_reducible apply Evolves.ite | split | with_reducible apply Evolves.upd

theorem execParityError_ev {k : Bool} {l : List Area} {s : State} {store : Nat} {cluster : Nat} {core : Nat} {pan : Nat} {addr : Nat} {ref : CmdRef} {again : Bool}
    (m : Area.subset [.pins, .hub, .funcs, .msix, .windows, .parts, .ctxs, .trans, .tlb, .fences, .fenceFreed, .fenceLower,
      .rings, .objs, .hbm, .chip, .pans, .units, .clusters, .power, .log, .secs, .cmds, .replays, .hzn, .svcs,
      .sessions, .xparts, .invals, .atsInvals] l = true) : EvolvesOut k l s (execParityError store cluster core pan addr ref again s) := by
  refine EvolvesOut.mono ?_ m
  unfold execParityError
  try dsimp only
  repeat'
    first
    | exact rfl | exact .inr rfl | exact .inl rfl | exact Nat.le_refl _ | exact Nat.le_add_right _ _ | exact .refl _ | exact fun h => h | exact ⟨fun _ h => h, fun h => h⟩
    | with_reducible exact Evolves.refl _ _ | with_reducible refine State.secDed_ev ?_ ?_
    | with_reducible refine State.refillPage_ev ?_ ?_ | with_reducible refine State.markPage_ev ?_ ?_
    | with_reducible refine State.noteParity_ev ?_ ?_ | with_reducible refine State.endParity_ev ?_ ?_
    | with_reducible refine Evolves.foldl ?_ fun _ _ => ?_ | with_reducible apply Evolves.ite
    | with_reducible apply EvolvesOut.next | with_reducible exact EvolvesOut.fault
    | with_reducible apply EvolvesOut.ite | split | refine Evolves.of_fst (by assumption) ?_
    | with_reducible apply Evolves.upd

theorem State.freeUnits_ev {k : Bool} {l : List Area} {s0 s : State} {x1 : Nat} (h : Evolves k l s0 s)
    (m : Area.subset [.units] l = true) : Evolves k l s0 (s.freeUnits x1) := by
  refine Evolves.after ?_ h m
  unfold State.freeUnits
  try dsimp only
  repeat'
    first
    | exact rfl | exact .inr rfl | exact .inl rfl | exact Nat.le_refl _ | exact Nat.le_add_right _ _ | exact .refl _ | exact fun h => h
    | with_reducible exact Evolves.refl _ _ | with_reducible refine Evolves.foldl ?_ fun _ _ => ?_
    | with_reducible apply Evolves.ite | split | with_reducible apply Evolves.upd

theorem execFrameEmit_ev {k : Bool} {l : List Area} {s : State} {sec : Nat} {route : Nat}
    (m : Area.subset [.msix, .tokens, .units, .clusters, .secs, .cmds] l = true) : EvolvesOut k l s (execFrameEmit sec route s) := by
  refine EvolvesOut.mono ?_ m
  unfold execFrameEmit
  try dsimp only
  repeat'
    first
    | exact rfl | exact .inr rfl | exact .inl rfl | exact Nat.le_refl _ | exact Nat.le_add_right _ _ | exact .refl _ | exact fun h => h
    | with_reducible exact Evolves.refl _ _ | with_reducible refine State.chargeAll_ev ?_ ?_
    | with_reducible refine State.updSec_ev ?_ ?_ | with_reducible refine State.freeUnits_ev ?_ ?_
    | with_reducible refine State.takeFrames_ev ?_ ?_ | with_reducible refine Evolves.foldl ?_ fun _ _ => ?_
    | with_reducible apply Evolves.ite | with_reducible apply EvolvesOut.next | with_reducible exact EvolvesOut.fault
    | with_reducible apply EvolvesOut.ite | split | refine Evolves.of_snd (by assumption) ?_
    | with_reducible apply Evolves.upd

theorem execRouteStallTimeout_ev {k : Bool} {l : List Area} {s : State} {ref : CmdRef}
    (m : Area.subset [.pins, .time, .hub, .funcs, .msix, .windows, .parts, .ctxs, .trans, .tlb, .fences, .fenceFreed, .fenceLower,
      .rings, .objs, .hbm, .chip, .pans, .units, .clusters, .power, .log, .secs, .cmds, .replays, .hzn, .svcs,
      .sessions, .xparts, .invals, .atsInvals] l = true) : EvolvesOut k l s (execRouteStallTimeout ref s) := by
  refine EvolvesOut.mono ?_ m
  unfold execRouteStallTimeout
  try dsimp only
  repeat'
    first
    | exact rfl | exact .inr rfl | exact .inl rfl | exact Nat.le_refl _ | exact Nat.le_add_right _ _ | exact .refl _ | exact fun h => h | exact ⟨fun _ h => h, fun h => h⟩
    | with_reducible exact Evolves.refl _ _ | with_reducible refine State.failCmd_ev ?_ ?_
    | with_reducible refine State.atTime_ev ?_ ?_ | with_reducible refine Evolves.foldl ?_ fun _ _ => ?_
    | with_reducible apply Evolves.ite | with_reducible apply EvolvesOut.next | with_reducible exact EvolvesOut.fault
    | with_reducible apply EvolvesOut.ite | split | with_reducible apply Evolves.upd

end Sys2Proof.Machine
end

