-- ==== Sys2Proof/Laws/Compute.lean ====
section
/-! SUPPORT. What each operation of Sys2Proof/Machine/Compute.lean may change, and how the state follows. -/

set_option Elab.async false
set_option linter.all false
namespace Sys2Proof.Machine

theorem execMatmul_ev {k : Bool} {l : List Area} {s : State} {ref : CmdRef}
    (m : Area.subset [.pins, .hub, .funcs, .msix, .windows, .parts, .tokens, .ctxs, .trans, .tlb, .fences, .fenceFreed,
      .fenceLower, .rings, .objs, .hbm, .chip, .pans, .units, .clusters, .power, .log, .secs, .cmds, .replays,
      .hzn, .svcs, .sessions, .xparts, .invals, .atsInvals] l = true) : EvolvesOut k l s (execMatmul ref s) := by
  refine EvolvesOut.mono ?_ m
  unfold execMatmul
  try dsimp only
  repeat'
    first
    | exact rfl | exact .inr rfl | exact .inl rfl | exact Nat.le_refl _ | exact Nat.le_add_right _ _ | exact .refl _ | exact fun h => h | exact ⟨fun _ h => h, fun h => h⟩
    | with_reducible exact Evolves.refl _ _ | with_reducible refine State.runUnit_ev ?_ ?_ fun _ _ _ => ?_
    | with_reducible refine bodyMatmul_ev ?_ _ _ _ | with_reducible refine Evolves.foldl ?_ fun _ _ => ?_
    | with_reducible apply Evolves.ite | with_reducible apply EvolvesOut.next | with_reducible exact EvolvesOut.fault
    | with_reducible apply EvolvesOut.ite | split | with_reducible apply Evolves.upd

theorem execAttend_ev {k : Bool} {l : List Area} {s : State} {ref : CmdRef}
    (m : Area.subset [.pins, .hub, .funcs, .msix, .windows, .parts, .tokens, .ctxs, .trans, .tlb, .fences, .fenceFreed,
      .fenceLower, .rings, .objs, .hbm, .chip, .pans, .units, .clusters, .power, .log, .secs, .cmds, .replays,
      .hzn, .svcs, .sessions, .xparts, .invals, .atsInvals] l = true) : EvolvesOut k l s (execAttend ref s) := by
  refine EvolvesOut.mono ?_ m
  unfold execAttend
  try dsimp only
  repeat'
    first
    | exact rfl | exact .inr rfl | exact .inl rfl | exact Nat.le_refl _ | exact Nat.le_add_right _ _ | exact .refl _ | exact fun h => h | exact ⟨fun _ h => h, fun h => h⟩
    | with_reducible exact Evolves.refl _ _ | with_reducible refine State.runUnit_ev ?_ ?_ fun _ _ _ => ?_
    | with_reducible refine bodyAttend_ev ?_ _ _ _ | with_reducible refine Evolves.foldl ?_ fun _ _ => ?_
    | with_reducible apply Evolves.ite | with_reducible apply EvolvesOut.next | with_reducible exact EvolvesOut.fault
    | with_reducible apply EvolvesOut.ite | split | with_reducible apply Evolves.upd

theorem execVop_ev {k : Bool} {l : List Area} {s : State} {ref : CmdRef}
    (m : Area.subset [.pins, .hub, .funcs, .msix, .windows, .parts, .tokens, .ctxs, .trans, .tlb, .fences, .fenceFreed,
      .fenceLower, .rings, .objs, .hbm, .chip, .pans, .units, .clusters, .power, .log, .secs, .cmds, .replays,
      .hzn, .svcs, .sessions, .xparts, .invals, .atsInvals] l = true) : EvolvesOut k l s (execVop ref s) := by
  refine EvolvesOut.mono ?_ m
  unfold execVop
  try dsimp only
  repeat'
    first
    | exact rfl | exact .inr rfl | exact .inl rfl | exact Nat.le_refl _ | exact Nat.le_add_right _ _ | exact .refl _ | exact fun h => h | exact ⟨fun _ h => h, fun h => h⟩
    | with_reducible exact Evolves.refl _ _ | with_reducible refine State.runUnit_ev ?_ ?_ fun _ _ _ => ?_
    | with_reducible refine bodyVop_ev ?_ _ _ _ | with_reducible refine Evolves.foldl ?_ fun _ _ => ?_
    | with_reducible apply Evolves.ite | with_reducible apply EvolvesOut.next | with_reducible exact EvolvesOut.fault
    | with_reducible apply EvolvesOut.ite | split | with_reducible apply Evolves.upd

theorem execReduce_ev {k : Bool} {l : List Area} {s : State} {ref : CmdRef}
    (m : Area.subset [.pins, .hub, .funcs, .msix, .windows, .parts, .tokens, .ctxs, .trans, .tlb, .fences, .fenceFreed,
      .fenceLower, .rings, .objs, .hbm, .chip, .pans, .units, .clusters, .power, .log, .secs, .cmds, .replays,
      .hzn, .svcs, .sessions, .xparts, .invals, .atsInvals] l = true) : EvolvesOut k l s (execReduce ref s) := by
  refine EvolvesOut.mono ?_ m
  unfold execReduce
  try dsimp only
  repeat'
    first
    | exact rfl | exact .inr rfl | exact .inl rfl | exact Nat.le_refl _ | exact Nat.le_add_right _ _ | exact .refl _ | exact fun h => h | exact ⟨fun _ h => h, fun h => h⟩
    | with_reducible exact Evolves.refl _ _ | with_reducible refine State.runUnit_ev ?_ ?_ fun _ _ _ => ?_
    | with_reducible refine bodyReduce_ev ?_ _ _ _ | with_reducible refine Evolves.foldl ?_ fun _ _ => ?_
    | with_reducible apply Evolves.ite | with_reducible apply EvolvesOut.next | with_reducible exact EvolvesOut.fault
    | with_reducible apply EvolvesOut.ite | split | with_reducible apply Evolves.upd

theorem execSoftmax_ev {k : Bool} {l : List Area} {s : State} {ref : CmdRef}
    (m : Area.subset [.pins, .hub, .funcs, .msix, .windows, .parts, .tokens, .ctxs, .trans, .tlb, .fences, .fenceFreed,
      .fenceLower, .rings, .objs, .hbm, .chip, .pans, .units, .clusters, .power, .log, .secs, .cmds, .replays,
      .hzn, .svcs, .sessions, .xparts, .invals, .atsInvals] l = true) : EvolvesOut k l s (execSoftmax ref s) := by
  refine EvolvesOut.mono ?_ m
  unfold execSoftmax
  try dsimp only
  repeat'
    first
    | exact rfl | exact .inr rfl | exact .inl rfl | exact Nat.le_refl _ | exact Nat.le_add_right _ _ | exact .refl _ | exact fun h => h | exact ⟨fun _ h => h, fun h => h⟩
    | with_reducible exact Evolves.refl _ _ | with_reducible refine State.runUnit_ev ?_ ?_ fun _ _ _ => ?_
    | with_reducible refine bodySoftmax_ev ?_ _ _ _ | with_reducible refine Evolves.foldl ?_ fun _ _ => ?_
    | with_reducible apply Evolves.ite | with_reducible apply EvolvesOut.next | with_reducible exact EvolvesOut.fault
    | with_reducible apply EvolvesOut.ite | split | with_reducible apply Evolves.upd

theorem execNorm_ev {k : Bool} {l : List Area} {s : State} {ref : CmdRef}
    (m : Area.subset [.pins, .hub, .funcs, .msix, .windows, .parts, .tokens, .ctxs, .trans, .tlb, .fences, .fenceFreed,
      .fenceLower, .rings, .objs, .hbm, .chip, .pans, .units, .clusters, .power, .log, .secs, .cmds, .replays,
      .hzn, .svcs, .sessions, .xparts, .invals, .atsInvals] l = true) : EvolvesOut k l s (execNorm ref s) := by
  refine EvolvesOut.mono ?_ m
  unfold execNorm
  try dsimp only
  repeat'
    first
    | exact rfl | exact .inr rfl | exact .inl rfl | exact Nat.le_refl _ | exact Nat.le_add_right _ _ | exact .refl _ | exact fun h => h | exact ⟨fun _ h => h, fun h => h⟩
    | with_reducible exact Evolves.refl _ _ | with_reducible refine State.runUnit_ev ?_ ?_ fun _ _ _ => ?_
    | with_reducible refine bodyNorm_ev ?_ _ _ _ | with_reducible refine Evolves.foldl ?_ fun _ _ => ?_
    | with_reducible apply Evolves.ite | with_reducible apply EvolvesOut.next | with_reducible exact EvolvesOut.fault
    | with_reducible apply EvolvesOut.ite | split | with_reducible apply Evolves.upd

theorem execActivate_ev {k : Bool} {l : List Area} {s : State} {ref : CmdRef}
    (m : Area.subset [.pins, .hub, .funcs, .msix, .windows, .parts, .tokens, .ctxs, .trans, .tlb, .fences, .fenceFreed,
      .fenceLower, .rings, .objs, .hbm, .chip, .pans, .units, .clusters, .power, .log, .secs, .cmds, .replays,
      .hzn, .svcs, .sessions, .xparts, .invals, .atsInvals] l = true) : EvolvesOut k l s (execActivate ref s) := by
  refine EvolvesOut.mono ?_ m
  unfold execActivate
  try dsimp only
  repeat'
    first
    | exact rfl | exact .inr rfl | exact .inl rfl | exact Nat.le_refl _ | exact Nat.le_add_right _ _ | exact .refl _ | exact fun h => h | exact ⟨fun _ h => h, fun h => h⟩
    | with_reducible exact Evolves.refl _ _ | with_reducible refine State.runUnit_ev ?_ ?_ fun _ _ _ => ?_
    | with_reducible refine bodyActivate_ev ?_ _ _ _ | with_reducible refine Evolves.foldl ?_ fun _ _ => ?_
    | with_reducible apply Evolves.ite | with_reducible apply EvolvesOut.next | with_reducible exact EvolvesOut.fault
    | with_reducible apply EvolvesOut.ite | split | with_reducible apply Evolves.upd

theorem execRope_ev {k : Bool} {l : List Area} {s : State} {ref : CmdRef}
    (m : Area.subset [.pins, .hub, .funcs, .msix, .windows, .parts, .tokens, .ctxs, .trans, .tlb, .fences, .fenceFreed,
      .fenceLower, .rings, .objs, .hbm, .chip, .pans, .units, .clusters, .power, .log, .secs, .cmds, .replays,
      .hzn, .svcs, .sessions, .xparts, .invals, .atsInvals] l = true) : EvolvesOut k l s (execRope ref s) := by
  refine EvolvesOut.mono ?_ m
  unfold execRope
  try dsimp only
  repeat'
    first
    | exact rfl | exact .inr rfl | exact .inl rfl | exact Nat.le_refl _ | exact Nat.le_add_right _ _ | exact .refl _ | exact fun h => h | exact ⟨fun _ h => h, fun h => h⟩
    | with_reducible exact Evolves.refl _ _ | with_reducible refine State.runUnit_ev ?_ ?_ fun _ _ _ => ?_
    | with_reducible refine bodyRope_ev ?_ _ _ _ | with_reducible refine Evolves.foldl ?_ fun _ _ => ?_
    | with_reducible apply Evolves.ite | with_reducible apply EvolvesOut.next | with_reducible exact EvolvesOut.fault
    | with_reducible apply EvolvesOut.ite | split | with_reducible apply Evolves.upd

theorem execTopk_ev {k : Bool} {l : List Area} {s : State} {ref : CmdRef}
    (m : Area.subset [.pins, .hub, .funcs, .msix, .windows, .parts, .tokens, .ctxs, .trans, .tlb, .fences, .fenceFreed,
      .fenceLower, .rings, .objs, .hbm, .chip, .pans, .units, .clusters, .power, .log, .secs, .cmds, .replays,
      .hzn, .svcs, .sessions, .xparts, .invals, .atsInvals] l = true) : EvolvesOut k l s (execTopk ref s) := by
  refine EvolvesOut.mono ?_ m
  unfold execTopk
  try dsimp only
  repeat'
    first
    | exact rfl | exact .inr rfl | exact .inl rfl | exact Nat.le_refl _ | exact Nat.le_add_right _ _ | exact .refl _ | exact fun h => h | exact ⟨fun _ h => h, fun h => h⟩
    | with_reducible exact Evolves.refl _ _ | with_reducible refine State.runUnit_ev ?_ ?_ fun _ _ _ => ?_
    | with_reducible refine bodyTopk_ev ?_ _ _ _ | with_reducible refine Evolves.foldl ?_ fun _ _ => ?_
    | with_reducible apply Evolves.ite | with_reducible apply EvolvesOut.next | with_reducible exact EvolvesOut.fault
    | with_reducible apply EvolvesOut.ite | split | with_reducible apply Evolves.upd

theorem execSample_ev {k : Bool} {l : List Area} {s : State} {ref : CmdRef}
    (m : Area.subset [.pins, .hub, .funcs, .msix, .windows, .parts, .tokens, .ctxs, .trans, .tlb, .fences, .fenceFreed,
      .fenceLower, .rings, .objs, .hbm, .chip, .pans, .units, .clusters, .power, .log, .secs, .cmds, .replays,
      .hzn, .svcs, .sessions, .xparts, .invals, .atsInvals] l = true) : EvolvesOut k l s (execSample ref s) := by
  refine EvolvesOut.mono ?_ m
  unfold execSample
  try dsimp only
  repeat'
    first
    | exact rfl | exact .inr rfl | exact .inl rfl | exact Nat.le_refl _ | exact Nat.le_add_right _ _ | exact .refl _ | exact fun h => h | exact ⟨fun _ h => h, fun h => h⟩
    | with_reducible exact Evolves.refl _ _ | with_reducible refine State.runUnit_ev ?_ ?_ fun _ _ _ => ?_
    | with_reducible refine bodySample_ev ?_ _ _ _ | with_reducible refine Evolves.foldl ?_ fun _ _ => ?_
    | with_reducible apply Evolves.ite | with_reducible apply EvolvesOut.next | with_reducible exact EvolvesOut.fault
    | with_reducible apply EvolvesOut.ite | split | with_reducible apply Evolves.upd

theorem execStats_ev {k : Bool} {l : List Area} {s : State} {ref : CmdRef}
    (m : Area.subset [.pins, .hub, .funcs, .msix, .windows, .parts, .tokens, .ctxs, .trans, .tlb, .fences, .fenceFreed,
      .fenceLower, .rings, .objs, .hbm, .chip, .pans, .units, .clusters, .power, .log, .secs, .cmds, .replays,
      .hzn, .svcs, .sessions, .xparts, .invals, .atsInvals] l = true) : EvolvesOut k l s (execStats ref s) := by
  refine EvolvesOut.mono ?_ m
  unfold execStats
  try dsimp only
  repeat'
    first
    | exact rfl | exact .inr rfl | exact .inl rfl | exact Nat.le_refl _ | exact Nat.le_add_right _ _ | exact .refl _ | exact fun h => h | exact ⟨fun _ h => h, fun h => h⟩
    | with_reducible exact Evolves.refl _ _ | with_reducible refine State.runUnit_ev ?_ ?_ fun _ _ _ => ?_
    | with_reducible refine bodyStats_ev ?_ _ _ _ | with_reducible refine Evolves.foldl ?_ fun _ _ => ?_
    | with_reducible apply Evolves.ite | with_reducible apply EvolvesOut.next | with_reducible exact EvolvesOut.fault
    | with_reducible apply EvolvesOut.ite | split | with_reducible apply Evolves.upd

theorem execQuant_ev {k : Bool} {l : List Area} {s : State} {ref : CmdRef}
    (m : Area.subset [.pins, .hub, .funcs, .msix, .windows, .parts, .tokens, .ctxs, .trans, .tlb, .fences, .fenceFreed,
      .fenceLower, .rings, .objs, .hbm, .chip, .pans, .units, .clusters, .power, .log, .secs, .cmds, .replays,
      .hzn, .svcs, .sessions, .xparts, .invals, .atsInvals] l = true) : EvolvesOut k l s (execQuant ref s) := by
  refine EvolvesOut.mono ?_ m
  unfold execQuant
  try dsimp only
  repeat'
    first
    | exact rfl | exact .inr rfl | exact .inl rfl | exact Nat.le_refl _ | exact Nat.le_add_right _ _ | exact .refl _ | exact fun h => h | exact ⟨fun _ h => h, fun h => h⟩
    | with_reducible exact Evolves.refl _ _ | with_reducible refine State.runUnit_ev ?_ ?_ fun _ _ _ => ?_
    | with_reducible refine bodyQuant_ev ?_ _ _ _ | with_reducible refine Evolves.foldl ?_ fun _ _ => ?_
    | with_reducible apply Evolves.ite | with_reducible apply EvolvesOut.next | with_reducible exact EvolvesOut.fault
    | with_reducible apply EvolvesOut.ite | split | with_reducible apply Evolves.upd

theorem execRequant_ev {k : Bool} {l : List Area} {s : State} {ref : CmdRef}
    (m : Area.subset [.pins, .hub, .funcs, .msix, .windows, .parts, .tokens, .ctxs, .trans, .tlb, .fences, .fenceFreed,
      .fenceLower, .rings, .objs, .hbm, .chip, .pans, .units, .clusters, .power, .log, .secs, .cmds, .replays,
      .hzn, .svcs, .sessions, .xparts, .invals, .atsInvals] l = true) : EvolvesOut k l s (execRequant ref s) := by
  refine EvolvesOut.mono ?_ m
  unfold execRequant
  try dsimp only
  repeat'
    first
    | exact rfl | exact .inr rfl | exact .inl rfl | exact Nat.le_refl _ | exact Nat.le_add_right _ _ | exact .refl _ | exact fun h => h | exact ⟨fun _ h => h, fun h => h⟩
    | with_reducible exact Evolves.refl _ _ | with_reducible refine State.runUnit_ev ?_ ?_ fun _ _ _ => ?_
    | with_reducible refine bodyRequant_ev ?_ _ _ _ | with_reducible refine Evolves.foldl ?_ fun _ _ => ?_
    | with_reducible apply Evolves.ite | with_reducible apply EvolvesOut.next | with_reducible exact EvolvesOut.fault
    | with_reducible apply EvolvesOut.ite | split | with_reducible apply Evolves.upd

theorem execDequant_ev {k : Bool} {l : List Area} {s : State} {ref : CmdRef}
    (m : Area.subset [.pins, .hub, .funcs, .msix, .windows, .parts, .tokens, .ctxs, .trans, .tlb, .fences, .fenceFreed,
      .fenceLower, .rings, .objs, .hbm, .chip, .pans, .units, .clusters, .power, .log, .secs, .cmds, .replays,
      .hzn, .svcs, .sessions, .xparts, .invals, .atsInvals] l = true) : EvolvesOut k l s (execDequant ref s) := by
  refine EvolvesOut.mono ?_ m
  unfold execDequant
  try dsimp only
  repeat'
    first
    | exact rfl | exact .inr rfl | exact .inl rfl | exact Nat.le_refl _ | exact Nat.le_add_right _ _ | exact .refl _ | exact fun h => h | exact ⟨fun _ h => h, fun h => h⟩
    | with_reducible exact Evolves.refl _ _ | with_reducible refine State.runUnit_ev ?_ ?_ fun _ _ _ => ?_
    | with_reducible refine bodyDequant_ev ?_ _ _ _ | with_reducible refine Evolves.foldl ?_ fun _ _ => ?_
    | with_reducible apply Evolves.ite | with_reducible apply EvolvesOut.next | with_reducible exact EvolvesOut.fault
    | with_reducible apply EvolvesOut.ite | split | with_reducible apply Evolves.upd

theorem execMask_ev {k : Bool} {l : List Area} {s : State} {ref : CmdRef}
    (m : Area.subset [.pins, .hub, .funcs, .msix, .windows, .parts, .tokens, .ctxs, .trans, .tlb, .fences, .fenceFreed,
      .fenceLower, .rings, .objs, .hbm, .chip, .pans, .units, .clusters, .power, .log, .secs, .cmds, .replays,
      .hzn, .svcs, .sessions, .xparts, .invals, .atsInvals] l = true) : EvolvesOut k l s (execMask ref s) := by
  refine EvolvesOut.mono ?_ m
  unfold execMask
  try dsimp only
  repeat'
    first
    | exact rfl | exact .inr rfl | exact .inl rfl | exact Nat.le_refl _ | exact Nat.le_add_right _ _ | exact .refl _ | exact fun h => h | exact ⟨fun _ h => h, fun h => h⟩
    | with_reducible exact Evolves.refl _ _ | with_reducible refine State.runUnit_ev ?_ ?_ fun _ _ _ => ?_
    | with_reducible refine bodyMask_ev ?_ _ _ _ | with_reducible refine Evolves.foldl ?_ fun _ _ => ?_
    | with_reducible apply Evolves.ite | with_reducible apply EvolvesOut.next | with_reducible exact EvolvesOut.fault
    | with_reducible apply EvolvesOut.ite | split | with_reducible apply Evolves.upd

theorem execRndfill_ev {k : Bool} {l : List Area} {s : State} {ref : CmdRef}
    (m : Area.subset [.pins, .hub, .funcs, .msix, .windows, .parts, .tokens, .ctxs, .trans, .tlb, .fences, .fenceFreed,
      .fenceLower, .rings, .objs, .hbm, .chip, .pans, .units, .clusters, .power, .log, .secs, .cmds, .replays,
      .hzn, .svcs, .sessions, .xparts, .invals, .atsInvals] l = true) : EvolvesOut k l s (execRndfill ref s) := by
  refine EvolvesOut.mono ?_ m
  unfold execRndfill
  try dsimp only
  repeat'
    first
    | exact rfl | exact .inr rfl | exact .inl rfl | exact Nat.le_refl _ | exact Nat.le_add_right _ _ | exact .refl _ | exact fun h => h | exact ⟨fun _ h => h, fun h => h⟩
    | with_reducible exact Evolves.refl _ _ | with_reducible refine State.runUnit_ev ?_ ?_ fun _ _ _ => ?_
    | with_reducible refine bodyRndfill_ev ?_ _ _ _ | with_reducible refine Evolves.foldl ?_ fun _ _ => ?_
    | with_reducible apply Evolves.ite | with_reducible apply EvolvesOut.next | with_reducible exact EvolvesOut.fault
    | with_reducible apply EvolvesOut.ite | split | with_reducible apply Evolves.upd

end Sys2Proof.Machine
end

