-- ==== Sys2Proof/Laws/Link.lean ====
section
/-! SUPPORT. What each operation of Sys2Proof/Machine/Link.lean may change, and how the state follows. -/

set_option Elab.async false
set_option linter.all false
namespace Sys2Proof.Machine

theorem State.linkViol_ev {k : Bool} {l : List Area} {s0 s : State} {p : Nat} {kind : Nat} (h : Evolves k l s0 s)
    (m : Area.subset [.pins, .log, .hzn] l = true) : Evolves k l s0 (s.linkViol p kind) := by
  refine Evolves.after ?_ h m
  unfold State.linkViol
  try dsimp only
  repeat'
    first
    | exact rfl | exact .inr rfl | exact .inl rfl | exact Nat.le_refl _ | exact Nat.le_add_right _ _ | exact .refl _ | exact fun h => h
    | with_reducible exact Evolves.refl _ _ | with_reducible refine State.logCo_ev ?_ ?_
    | with_reducible refine Evolves.foldl ?_ fun _ _ => ?_ | with_reducible apply Evolves.ite | split
    | with_reducible apply Evolves.upd

theorem State.widthChanged_ev {k : Bool} {l : List Area} {s0 s : State} {before : Nat} (h : Evolves k l s0 s)
    (m : Area.subset [.pins, .funcs, .msix, .parts, .log] l = true) : Evolves k l s0 (s.widthChanged before) := by
  refine Evolves.after ?_ h m
  unfold State.widthChanged
  try dsimp only
  repeat'
    first
    | exact rfl | exact .inr rfl | exact .inl rfl | exact Nat.le_refl _ | exact Nat.le_add_right _ _ | exact .refl _ | exact fun h => h
    | with_reducible exact Evolves.refl _ _ | with_reducible refine State.refreshOversub_ev ?_ ?_
    | with_reducible refine State.devChangeAll_ev ?_ ?_ | with_reducible refine Evolves.foldl ?_ fun _ _ => ?_
    | with_reducible apply Evolves.ite | split | with_reducible apply Evolves.upd

theorem State.portState_ev {k : Bool} {l : List Area} {s0 s : State} {p : Nat} {st : Nat} (h : Evolves k l s0 s)
    (m : Area.subset [.pins, .funcs, .msix, .parts, .log, .hzn] l = true) : Evolves k l s0 (s.portState p st) := by
  refine Evolves.after ?_ h m
  unfold State.portState
  try dsimp only
  repeat'
    first
    | exact rfl | exact .inr rfl | exact .inl rfl | exact Nat.le_refl _ | exact Nat.le_add_right _ _ | exact .refl _ | exact fun h => h
    | with_reducible exact Evolves.refl _ _ | with_reducible refine State.widthChanged_ev ?_ ?_
    | with_reducible refine State.logEv_ev ?_ ?_ | with_reducible refine State.updPort_ev ?_ ?_
    | with_reducible refine Evolves.foldl ?_ fun _ _ => ?_ | with_reducible apply Evolves.ite | split
    | with_reducible apply Evolves.upd

theorem State.startTrain_ev {k : Bool} {l : List Area} {s0 s : State} {p : Nat} (h : Evolves k l s0 s)
    (m : Area.subset [.pins, .funcs, .msix, .parts, .log, .hzn] l = true) : Evolves k l s0 (s.startTrain p) := by
  refine Evolves.after ?_ h m
  unfold State.startTrain
  try dsimp only
  repeat'
    first
    | exact rfl | exact .inr rfl | exact .inl rfl | exact Nat.le_refl _ | exact Nat.le_add_right _ _ | exact .refl _ | exact fun h => h
    | with_reducible exact Evolves.refl _ _ | with_reducible refine State.updPort_ev ?_ ?_
    | with_reducible refine State.portState_ev ?_ ?_ | with_reducible refine Evolves.foldl ?_ fun _ _ => ?_
    | with_reducible apply Evolves.ite | split | with_reducible apply Evolves.upd

theorem State.loseLinks_ev {k : Bool} {l : List Area} {s0 s : State} {ps : List Nat} (h : Evolves k l s0 s)
    (m : Area.subset [.pins, .funcs, .msix, .parts, .log, .hzn] l = true) : Evolves k l s0 (s.loseLinks ps) := by
  refine Evolves.after ?_ h m
  unfold State.loseLinks
  try dsimp only
  repeat'
    first
    | exact rfl | exact .inr rfl | exact .inl rfl | exact Nat.le_refl _ | exact Nat.le_add_right _ _ | exact .refl _ | exact fun h => h
    | with_reducible exact Evolves.refl _ _ | with_reducible refine State.portState_ev ?_ ?_
    | with_reducible refine State.updPort_ev ?_ ?_ | with_reducible refine State.sendTo_ev ?_ ?_
    | with_reducible refine State.startTrain_ev ?_ ?_ | with_reducible refine Evolves.foldl ?_ fun _ _ => ?_
    | with_reducible apply Evolves.ite | split | with_reducible apply Evolves.upd

theorem State.loseLink_ev {k : Bool} {l : List Area} {s0 s : State} {p : Nat} (h : Evolves k l s0 s)
    (m : Area.subset [.pins, .funcs, .msix, .parts, .log, .hzn] l = true) : Evolves k l s0 (s.loseLink p) := by
  refine Evolves.after ?_ h m
  unfold State.loseLink
  try dsimp only
  repeat'
    first
    | exact rfl | exact .inr rfl | exact .inl rfl | exact Nat.le_refl _ | exact Nat.le_add_right _ _ | exact .refl _ | exact fun h => h
    | with_reducible exact Evolves.refl _ _ | with_reducible refine State.loseLinks_ev ?_ ?_
    | with_reducible refine Evolves.foldl ?_ fun _ _ => ?_ | with_reducible apply Evolves.ite | split
    | with_reducible apply Evolves.upd

theorem State.pcsLock_ev {k : Bool} {l : List Area} {s0 s : State} {p : Nat} (h : Evolves k l s0 s)
    (m : Area.subset [.hzn] l = true) : Evolves k l s0 (s.pcsLock p) := by
  refine Evolves.after ?_ h m
  unfold State.pcsLock
  try dsimp only
  repeat'
    first
    | exact rfl | exact .inr rfl | exact .inl rfl | exact Nat.le_refl _ | exact Nat.le_add_right _ _ | exact .refl _ | exact fun h => h
    | with_reducible exact Evolves.refl _ _ | with_reducible refine State.updPort_ev ?_ ?_
    | with_reducible refine Evolves.foldl ?_ fun _ _ => ?_ | with_reducible apply Evolves.ite | split
    | with_reducible apply Evolves.upd

theorem State.sdsReturn_ev {k : Bool} {l : List Area} {s0 s : State} {p : Nat} (h : Evolves k l s0 s)
    (m : Area.subset [.pins, .funcs, .msix, .parts, .log, .hzn] l = true) : Evolves k l s0 (s.sdsReturn p) := by
  refine Evolves.after ?_ h m
  unfold State.sdsReturn
  try dsimp only
  repeat'
    first
    | exact rfl | exact .inr rfl | exact .inl rfl | exact Nat.le_refl _ | exact Nat.le_add_right _ _ | exact .refl _ | exact fun h => h
    | with_reducible exact Evolves.refl _ _ | with_reducible refine State.startTrain_ev ?_ ?_
    | with_reducible refine Evolves.foldl ?_ fun _ _ => ?_ | with_reducible apply Evolves.ite | split
    | with_reducible apply Evolves.upd

theorem execTrainFrameSend_ev {k : Bool} {l : List Area} {s : State} {port : Nat}
    (m : Area.subset [.pins, .funcs, .msix, .parts, .log, .hzn] l = true) : EvolvesOut k l s (execTrainFrameSend port s) := by
  refine EvolvesOut.mono ?_ m
  unfold execTrainFrameSend
  try dsimp only
  repeat'
    first
    | exact rfl | exact .inr rfl | exact .inl rfl | exact Nat.le_refl _ | exact Nat.le_add_right _ _ | exact .refl _ | exact fun h => h | exact fun _ => rfl
    | with_reducible exact Evolves.refl _ _ | with_reducible refine State.sdsReturn_ev ?_ ?_
    | with_reducible refine State.pcsLock_ev ?_ ?_ | with_reducible refine State.emit_ev ?_ ?_
    | with_reducible refine Evolves.foldl ?_ fun _ _ => ?_ | with_reducible apply Evolves.ite
    | with_reducible apply EvolvesOut.next | with_reducible exact EvolvesOut.fault
    | with_reducible apply EvolvesOut.ite | split | with_reducible apply Evolves.upd

theorem execTrain_ev {k : Bool} {l : List Area} {s : State} {port : Nat} {frame : List Byte}
    (m : Area.subset [.pins, .funcs, .msix, .parts, .log, .hzn] l = true) : EvolvesOut k l s (execTrain port frame s) := by
  refine EvolvesOut.mono ?_ m
  unfold execTrain
  try dsimp only
  repeat'
    first
    | exact rfl | exact .inr rfl | exact .inl rfl | exact Nat.le_refl _ | exact Nat.le_add_right _ _ | exact .refl _ | exact fun h => h
    | with_reducible exact Evolves.refl _ _ | with_reducible refine State.sdsReturn_ev ?_ ?_
    | with_reducible refine State.linkViol_ev ?_ ?_ | with_reducible refine State.pcsLock_ev ?_ ?_
    | with_reducible refine State.updPort_ev ?_ ?_ | with_reducible refine State.flushSignals_ev ?_ ?_
    | with_reducible refine State.flushFrames_ev ?_ ?_ | with_reducible refine State.portState_ev ?_ ?_
    | with_reducible refine Evolves.foldl ?_ fun _ _ => ?_ | with_reducible apply Evolves.ite
    | with_reducible apply EvolvesOut.next | with_reducible exact EvolvesOut.fault
    | with_reducible apply EvolvesOut.ite | split | with_reducible apply Evolves.upd

theorem execTrainingTimeout_ev {k : Bool} {l : List Area} {s : State} {port : Nat}
    (m : Area.subset [.time, .hzn] l = true) : EvolvesOut k l s (execTrainingTimeout port s) := by
  refine EvolvesOut.mono ?_ m
  unfold execTrainingTimeout
  try dsimp only
  repeat'
    first
    | exact rfl | exact .inr rfl | exact .inl rfl | exact Nat.le_refl _ | exact Nat.le_add_right _ _ | exact .refl _ | exact fun h => h
    | with_reducible exact Evolves.refl _ _ | with_reducible refine State.atTime_ev ?_ ?_
    | with_reducible refine State.updPort_ev ?_ ?_ | with_reducible refine Evolves.foldl ?_ fun _ _ => ?_
    | with_reducible apply Evolves.ite | with_reducible apply EvolvesOut.next | with_reducible exact EvolvesOut.fault
    | with_reducible apply EvolvesOut.ite | split | with_reducible apply Evolves.upd

theorem execPortDown_ev {k : Bool} {l : List Area} {s : State} {port : Nat}
    (m : Area.subset [.pins, .funcs, .msix, .parts, .log, .hzn] l = true) : EvolvesOut k l s (execPortDown port s) := by
  refine EvolvesOut.mono ?_ m
  unfold execPortDown
  try dsimp only
  repeat'
    first
    | exact rfl | exact .inr rfl | exact .inl rfl | exact Nat.le_refl _ | exact Nat.le_add_right _ _ | exact .refl _ | exact fun h => h
    | with_reducible exact Evolves.refl _ _ | with_reducible refine State.loseLink_ev ?_ ?_
    | with_reducible refine Evolves.foldl ?_ fun _ _ => ?_ | with_reducible apply Evolves.ite
    | with_reducible apply EvolvesOut.next | with_reducible exact EvolvesOut.fault
    | with_reducible apply EvolvesOut.ite | split | with_reducible apply Evolves.upd

theorem execSdsRefclkLost_ev {k : Bool} {l : List Area} {s : State} {group : Nat}
    (m : Area.subset [.pins, .funcs, .msix, .parts, .log, .hzn] l = true) : EvolvesOut k l s (execSdsRefclkLost group s) := by
  refine EvolvesOut.mono ?_ m
  unfold execSdsRefclkLost
  try dsimp only
  repeat'
    first
    | exact rfl | exact .inr rfl | exact .inl rfl | exact Nat.le_refl _ | exact Nat.le_add_right _ _ | exact .refl _ | exact fun h => h
    | with_reducible exact Evolves.refl _ _ | with_reducible refine State.loseLinks_ev ?_ ?_
    | with_reducible refine Evolves.foldl ?_ fun _ _ => ?_ | with_reducible apply Evolves.ite
    | with_reducible apply EvolvesOut.next | with_reducible exact EvolvesOut.fault
    | with_reducible apply EvolvesOut.ite | split | with_reducible apply Evolves.upd

theorem State.takeAck_ev {k : Bool} {l : List Area} {s0 s : State} {p : Nat} {ack : Nat} (h : Evolves k l s0 s)
    (m : Area.subset [.hzn] l = true) : Evolves k l s0 (s.takeAck p ack) := by
  refine Evolves.after ?_ h m
  unfold State.takeAck
  try dsimp only
  repeat'
    first
    | exact rfl | exact .inr rfl | exact .inl rfl | exact Nat.le_refl _ | exact Nat.le_add_right _ _ | exact .refl _ | exact fun h => h
    | with_reducible exact Evolves.refl _ _ | with_reducible refine State.updPort_ev ?_ ?_
    | with_reducible refine Evolves.foldl ?_ fun _ _ => ?_ | with_reducible apply Evolves.ite | split
    | with_reducible apply Evolves.upd

theorem State.takeCredits_ev {k : Bool} {l : List Area} {s0 s : State} {p : Nat} {f : Fr} (h : Evolves k l s0 s)
    (m : Area.subset [.hzn] l = true) : Evolves k l s0 (s.takeCredits p f) := by
  refine Evolves.after ?_ h m
  unfold State.takeCredits
  try dsimp only
  repeat'
    first
    | exact rfl | exact .inr rfl | exact .inl rfl | exact Nat.le_refl _ | exact Nat.le_add_right _ _ | exact .refl _ | exact fun h => h
    | with_reducible exact Evolves.refl _ _ | with_reducible refine State.updPort_ev ?_ ?_
    | with_reducible refine State.pumpPort_ev ?_ ?_ | with_reducible refine Evolves.foldl ?_ fun _ _ => ?_
    | with_reducible apply Evolves.ite | split | with_reducible apply Evolves.upd

theorem State.sendAck_ev {k : Bool} {l : List Area} {s0 s : State} {p : Nat} {typ : Nat} (h : Evolves k l s0 s)
    (m : Area.subset [.hzn] l = true) : Evolves k l s0 (s.sendAck p typ) := by
  refine Evolves.after ?_ h m
  unfold State.sendAck
  try dsimp only
  repeat'
    first
    | exact rfl | exact .inr rfl | exact .inl rfl | exact Nat.le_refl _ | exact Nat.le_add_right _ _ | exact .refl _ | exact fun h => h | exact fun _ => rfl
    | with_reducible exact Evolves.refl _ _ | with_reducible refine State.emit_ev ?_ ?_
    | with_reducible refine State.updPort_ev ?_ ?_ | with_reducible refine Evolves.foldl ?_ fun _ _ => ?_
    | with_reducible apply Evolves.ite | split | with_reducible apply Evolves.upd

theorem State.resendAll_ev {k : Bool} {l : List Area} {s0 s : State} {p : Nat} (h : Evolves k l s0 s)
    (m : Area.subset [.pins, .log, .hzn] l = true) : Evolves k l s0 (s.resendAll p) := by
  refine Evolves.after ?_ h m
  unfold State.resendAll
  try dsimp only
  repeat'
    first
    | exact rfl | exact .inr rfl | exact .inl rfl | exact Nat.le_refl _ | exact Nat.le_add_right _ _ | exact .refl _ | exact fun h => h | exact fun _ => rfl
    | with_reducible exact Evolves.refl _ _ | with_reducible refine State.emit_ev ?_ ?_
    | with_reducible refine State.logCo_ev ?_ ?_ | with_reducible refine State.updPort_ev ?_ ?_
    | with_reducible refine Evolves.foldl ?_ fun _ _ => ?_ | with_reducible apply Evolves.ite | split
    | with_reducible apply Evolves.upd

theorem State.receive_ev {k : Bool} {l : List Area} {s : State} {p : Nat} {frame : List Byte} {typ : Nat} {op : Nat} {act : State → Fr → State}
    (m : Area.subset [.pins, .log, .hzn] l = true) (ha : ∀ t f, Evolves k l t (act t f)) : EvolvesOut k l s (s.receive p frame typ op act) := by
  unfold State.receive
  try dsimp only
  repeat'
    first
    | with_reducible exact Evolves.refl _ _
    | exact Area.subset_trans rfl m | exact .inr (Area.contains_of m rfl) | exact .inl rfl
    | (with_reducible refine Evolves.trans ?_ (ha _ _))
    | exact rfl | exact .inr rfl | exact .inl rfl | exact Nat.le_refl _ | exact Nat.le_add_right _ _ | exact .refl _ | exact fun h => h
    | with_reducible exact Evolves.refl _ _ | with_reducible refine State.sendAck_ev ?_ ?_
    | with_reducible refine State.linkViol_ev ?_ ?_ | with_reducible refine State.takeAck_ev ?_ ?_
    | with_reducible refine State.updPort_ev ?_ ?_ | with_reducible refine State.takeCredits_ev ?_ ?_
    | with_reducible refine Evolves.foldl ?_ fun _ _ => ?_ | with_reducible apply Evolves.ite
    | with_reducible apply EvolvesOut.next | with_reducible exact EvolvesOut.fault
    | with_reducible apply EvolvesOut.ite | split | with_reducible apply Evolves.upd

theorem execAck_ev {k : Bool} {l : List Area} {s : State} {port : Nat} {frame : List Byte}
    (m : Area.subset [.pins, .log, .hzn] l = true) : EvolvesOut k l s (execAck port frame s) := by
  refine EvolvesOut.mono ?_ m
  unfold execAck
  try dsimp only
  repeat'
    first
    | exact rfl | exact .inr rfl | exact .inl rfl | exact Nat.le_refl _ | exact Nat.le_add_right _ _ | exact .refl _ | exact fun h => h
    | with_reducible exact Evolves.refl _ _ | with_reducible refine State.receive_ev ?_ fun _ _ => ?_
    | with_reducible refine Evolves.foldl ?_ fun _ _ => ?_ | with_reducible apply Evolves.ite
    | with_reducible apply EvolvesOut.next | with_reducible exact EvolvesOut.fault
    | with_reducible apply EvolvesOut.ite | split | with_reducible apply Evolves.upd

theorem execNak_ev {k : Bool} {l : List Area} {s : State} {port : Nat} {frame : List Byte}
    (m : Area.subset [.pins, .log, .hzn] l = true) : EvolvesOut k l s (execNak port frame s) := by
  refine EvolvesOut.mono ?_ m
  unfold execNak
  try dsimp only
  repeat'
    first
    | exact rfl | exact .inr rfl | exact .inl rfl | exact Nat.le_refl _ | exact Nat.le_add_right _ _ | exact .refl _ | exact fun h => h
    | with_reducible exact Evolves.refl _ _ | with_reducible refine State.receive_ev ?_ fun _ _ => ?_
    | with_reducible refine State.resendAll_ev ?_ ?_ | with_reducible refine Evolves.foldl ?_ fun _ _ => ?_
    | with_reducible apply Evolves.ite | with_reducible apply EvolvesOut.next | with_reducible exact EvolvesOut.fault
    | with_reducible apply EvolvesOut.ite | split | with_reducible apply Evolves.upd

theorem execRetransmitTimeout_ev {k : Bool} {l : List Area} {s : State} {port : Nat}
    (m : Area.subset [.pins, .time, .log, .hzn] l = true) : EvolvesOut k l s (execRetransmitTimeout port s) := by
  refine EvolvesOut.mono ?_ m
  unfold execRetransmitTimeout
  try dsimp only
  repeat'
    first
    | exact rfl | exact .inr rfl | exact .inl rfl | exact Nat.le_refl _ | exact Nat.le_add_right _ _ | exact .refl _ | exact fun h => h
    | with_reducible exact Evolves.refl _ _ | with_reducible refine State.resendAll_ev ?_ ?_
    | with_reducible refine State.atTime_ev ?_ ?_ | with_reducible refine Evolves.foldl ?_ fun _ _ => ?_
    | with_reducible apply Evolves.ite | with_reducible apply EvolvesOut.next | with_reducible exact EvolvesOut.fault
    | with_reducible apply EvolvesOut.ite | split | with_reducible apply Evolves.upd

theorem execLinkAckTimeout_ev {k : Bool} {l : List Area} {s : State} {port : Nat}
    (m : Area.subset [.pins, .time, .funcs, .msix, .parts, .log, .hzn] l = true) : EvolvesOut k l s (execLinkAckTimeout port s) := by
  refine EvolvesOut.mono ?_ m
  unfold execLinkAckTimeout
  try dsimp only
  repeat'
    first
    | exact rfl | exact .inr rfl | exact .inl rfl | exact Nat.le_refl _ | exact Nat.le_add_right _ _ | exact .refl _ | exact fun h => h
    | with_reducible exact Evolves.refl _ _ | with_reducible refine State.loseLink_ev ?_ ?_
    | with_reducible refine State.atTime_ev ?_ ?_ | with_reducible refine Evolves.foldl ?_ fun _ _ => ?_
    | with_reducible apply Evolves.ite | with_reducible apply EvolvesOut.next | with_reducible exact EvolvesOut.fault
    | with_reducible apply EvolvesOut.ite | split | with_reducible apply Evolves.upd

theorem execAckKeepalive_ev {k : Bool} {l : List Area} {s : State} {port : Nat}
    (m : Area.subset [.hzn] l = true) : EvolvesOut k l s (execAckKeepalive port s) := by
  refine EvolvesOut.mono ?_ m
  unfold execAckKeepalive
  try dsimp only
  repeat'
    first
    | exact rfl | exact .inr rfl | exact .inl rfl | exact Nat.le_refl _ | exact Nat.le_add_right _ _ | exact .refl _ | exact fun h => h
    | with_reducible exact Evolves.refl _ _ | with_reducible refine State.sendAck_ev ?_ ?_
    | with_reducible refine Evolves.foldl ?_ fun _ _ => ?_ | with_reducible apply Evolves.ite
    | with_reducible apply EvolvesOut.next | with_reducible exact EvolvesOut.fault
    | with_reducible apply EvolvesOut.ite | split | with_reducible apply Evolves.upd

theorem State.lockedWrite_ev {k : Bool} {l : List Area} {s0 s : State} (h : Evolves k l s0 s)
    (m : Area.subset [.pins, .funcs, .log] l = true) : Evolves k l s0 s.lockedWrite := by
  refine Evolves.after ?_ h m
  unfold State.lockedWrite
  try dsimp only
  repeat'
    first
    | exact rfl | exact .inr rfl | exact .inl rfl | exact Nat.le_refl _ | exact Nat.le_add_right _ _ | exact .refl _ | exact fun h => h
    | with_reducible exact Evolves.refl _ _ | with_reducible refine State.viol_ev ?_ ?_
    | with_reducible refine Evolves.foldl ?_ fun _ _ => ?_ | with_reducible apply Evolves.ite | split
    | with_reducible apply Evolves.upd

theorem State.writeHznCtrl_ev {k : Bool} {l : List Area} {s0 s : State} {v : Nat} (h : Evolves k l s0 s)
    (m : Area.subset [.pins, .funcs, .msix, .parts, .log, .hzn] l = true) : Evolves k l s0 (s.writeHznCtrl v) := by
  refine Evolves.after ?_ h m
  unfold State.writeHznCtrl
  try dsimp only
  repeat'
    first
    | exact rfl | exact .inr rfl | exact .inl rfl | exact Nat.le_refl _ | exact Nat.le_add_right _ _ | exact .refl _ | exact fun h => h
    | with_reducible exact Evolves.refl _ _ | with_reducible refine State.lockedWrite_ev ?_ ?_
    | with_reducible refine State.devChangeAll_ev ?_ ?_ | with_reducible refine State.startTrain_ev ?_ ?_
    | with_reducible refine State.updPort_ev ?_ ?_ | with_reducible refine State.portState_ev ?_ ?_
    | with_reducible refine Evolves.foldl ?_ fun _ _ => ?_ | with_reducible apply Evolves.ite | split
    | with_reducible apply Evolves.upd

theorem execHorizonEnable_ev {k : Bool} {l : List Area} {s : State} {value : Nat}
    (m : Area.subset [.pins, .funcs, .msix, .parts, .log, .hzn] l = true) : EvolvesOut k l s (execHorizonEnable value s) := by
  refine EvolvesOut.mono ?_ m
  unfold execHorizonEnable
  try dsimp only
  repeat'
    first
    | exact rfl | exact .inr rfl | exact .inl rfl | exact Nat.le_refl _ | exact Nat.le_add_right _ _ | exact .refl _ | exact fun h => h
    | with_reducible exact Evolves.refl _ _ | with_reducible refine State.writeHznCtrl_ev ?_ ?_
    | with_reducible refine Evolves.foldl ?_ fun _ _ => ?_ | with_reducible apply Evolves.ite
    | with_reducible apply EvolvesOut.next | with_reducible exact EvolvesOut.fault
    | with_reducible apply EvolvesOut.ite | split | with_reducible apply Evolves.upd

theorem execHorizonDisable_ev {k : Bool} {l : List Area} {s : State}
    (m : Area.subset [.pins, .funcs, .msix, .parts, .log, .hzn] l = true) : EvolvesOut k l s (execHorizonDisable s) := by
  refine EvolvesOut.mono ?_ m
  unfold execHorizonDisable
  try dsimp only
  repeat'
    first
    | exact rfl | exact .inr rfl | exact .inl rfl | exact Nat.le_refl _ | exact Nat.le_add_right _ _ | exact .refl _ | exact fun h => h
    | with_reducible exact Evolves.refl _ _ | with_reducible refine State.writeHznCtrl_ev ?_ ?_
    | with_reducible refine Evolves.foldl ?_ fun _ _ => ?_ | with_reducible apply Evolves.ite
    | with_reducible apply EvolvesOut.next | with_reducible exact EvolvesOut.fault
    | with_reducible apply EvolvesOut.ite | split | with_reducible apply Evolves.upd

theorem execHznDomainWrite_ev {k : Bool} {l : List Area} {s : State} {reg : Nat} {value : Nat}
    (m : Area.subset [.pins, .funcs, .log, .hzn] l = true) : EvolvesOut k l s (execHznDomainWrite reg value s) := by
  refine EvolvesOut.mono ?_ m
  unfold execHznDomainWrite
  try dsimp only
  repeat'
    first
    | exact rfl | exact .inr rfl | exact .inl rfl | exact Nat.le_refl _ | exact Nat.le_add_right _ _ | exact .refl _ | exact fun h => h
    | with_reducible exact Evolves.refl _ _ | with_reducible refine State.lockedWrite_ev ?_ ?_
    | with_reducible refine Evolves.foldl ?_ fun _ _ => ?_ | with_reducible apply Evolves.ite
    | with_reducible apply EvolvesOut.next | with_reducible exact EvolvesOut.fault
    | with_reducible apply EvolvesOut.ite | split | with_reducible apply Evolves.upd

theorem State.dropRemote_ev {k : Bool} {l : List Area} {s0 s : State} (h : Evolves k l s0 s)
    (m : Area.subset [.remoteDrop] l = true) : Evolves k l s0 s.dropRemote := by
  refine Evolves.after ?_ h m
  unfold State.dropRemote
  try dsimp only
  repeat'
    first
    | exact rfl | exact .inr rfl | exact .inl rfl | exact Nat.le_refl _ | exact Nat.le_add_right _ _ | exact .refl _ | exact fun h => h
    | with_reducible exact Evolves.refl _ _ | with_reducible refine Evolves.foldl ?_ fun _ _ => ?_
    | with_reducible apply Evolves.ite | split | with_reducible apply Evolves.upd

theorem execRemoteSignal_ev {k : Bool} {l : List Area} {s : State} {port : Nat} {frame : List Byte}
    (m : Area.subset [.pins, .fences, .fenceLower, .remoteDrop, .log, .cmds, .hzn] l = true) : EvolvesOut k l s (execRemoteSignal port frame s) := by
  refine EvolvesOut.mono ?_ m
  unfold execRemoteSignal
  try dsimp only
  repeat'
    first
    | exact rfl | exact .inr rfl | exact .inl rfl | exact Nat.le_refl _ | exact Nat.le_add_right _ _ | exact .refl _ | exact fun h => h
    | with_reducible exact Evolves.refl _ _ | with_reducible refine State.receive_ev ?_ fun _ _ => ?_
    | with_reducible refine State.dropRemote_ev ?_ ?_ | with_reducible refine State.signalFence_ev ?_ ?_
    | with_reducible refine Evolves.foldl ?_ fun _ _ => ?_ | with_reducible apply Evolves.ite
    | with_reducible apply EvolvesOut.next | with_reducible exact EvolvesOut.fault
    | with_reducible apply EvolvesOut.ite | split | refine Evolves.of_fst (by assumption) ?_
    | with_reducible apply Evolves.upd

theorem execRemoteSignalDrop_ev {k : Bool} {l : List Area} {s : State}
    (m : Area.subset [.time, .hzn] l = true) : EvolvesOut k l s (execRemoteSignalDrop s) := by
  refine EvolvesOut.mono ?_ m
  unfold execRemoteSignalDrop
  try dsimp only
  repeat'
    first
    | exact rfl | exact .inr rfl | exact .inl rfl | exact Nat.le_refl _ | exact Nat.le_add_right _ _ | exact .refl _ | exact fun h => h
    | with_reducible exact Evolves.refl _ _ | with_reducible refine State.atTime_ev ?_ ?_
    | with_reducible refine Evolves.foldl ?_ fun _ _ => ?_ | with_reducible apply Evolves.ite
    | with_reducible apply EvolvesOut.next | with_reducible exact EvolvesOut.fault
    | with_reducible apply EvolvesOut.ite | split | with_reducible apply Evolves.upd

end Sys2Proof.Machine
end

