-- ==== Sys2Proof/Laws/Image.lean ====
section
/-! SUPPORT. What each operation of Sys2Proof/Machine/Image.lean may change, and how the state follows. -/

set_option Elab.async false
set_option linter.all false
namespace Sys2Proof.Machine

theorem State.bootImageDone_ev {k : Bool} {l : List Area} {s0 s : State} (h : Evolves k l s0 s)
    (m : Area.subset [.hub, .loader] l = true) : Evolves k l s0 s.bootImageDone := by
  refine Evolves.after ?_ h m
  unfold State.bootImageDone
  try dsimp only
  repeat'
    first
    | exact rfl | exact .inr rfl | exact .inl rfl | exact Nat.le_refl _ | exact Nat.le_add_right _ _ | exact .refl _ | exact fun h => h | exact ⟨fun _ h => h, fun h => h⟩
    | with_reducible exact Evolves.refl _ _ | with_reducible refine Evolves.foldl ?_ fun _ _ => ?_
    | with_reducible apply Evolves.ite | exact ⟨fun _ h => h, fun _ => Nat.le_of_ble_eq_true rfl⟩ | split
    | with_reducible apply Evolves.upd

theorem State.endLoad_ev {k : Bool} {l : List Area} {s0 s : State} {status : Nat} {flags : Nat} (h : Evolves k l s0 s)
    (m : Area.subset [.pins, .hub, .funcs, .msix, .log, .loader] l = true) : Evolves k l s0 (s.endLoad status flags) := by
  refine Evolves.after ?_ h m
  unfold State.endLoad
  try dsimp only
  repeat'
    first
    | exact rfl | exact .inr rfl | exact .inl rfl | exact Nat.le_refl _ | exact Nat.le_add_right _ _ | exact .refl _ | exact fun h => h | exact ⟨fun _ h => h, fun h => h⟩
    | with_reducible exact Evolves.refl _ _ | with_reducible refine State.logEv_ev ?_ ?_
    | with_reducible refine State.devChangeAll_ev ?_ ?_ | with_reducible refine State.bootImageDone_ev ?_ ?_
    | with_reducible refine Evolves.foldl ?_ fun _ _ => ?_ | with_reducible apply Evolves.ite | split
    | with_reducible apply Evolves.upd

theorem State.portViol_ev {k : Bool} {l : List Area} {s0 s : State} (h : Evolves k l s0 s)
    (m : Area.subset [.loader] l = true) : Evolves k l s0 s.portViol := by
  refine Evolves.after ?_ h m
  unfold State.portViol
  try dsimp only
  repeat'
    first
    | exact rfl | exact .inr rfl | exact .inl rfl | exact Nat.le_refl _ | exact Nat.le_add_right _ _ | exact .refl _ | exact fun h => h
    | with_reducible exact Evolves.refl _ _ | with_reducible refine Evolves.foldl ?_ fun _ _ => ?_
    | with_reducible apply Evolves.ite | split | with_reducible apply Evolves.upd

theorem execLoad_ev {k : Bool} {l : List Area} {s : State} {word : Nat}
    (m : Area.subset [.loader] l = true) : EvolvesOut k l s (execLoad word s) := by
  refine EvolvesOut.mono ?_ m
  unfold execLoad
  try dsimp only
  repeat'
    first
    | exact rfl | exact .inr rfl | exact .inl rfl | exact Nat.le_refl _ | exact Nat.le_add_right _ _ | exact .refl _ | exact fun h => h
    | with_reducible exact Evolves.refl _ _ | with_reducible refine Evolves.foldl ?_ fun _ _ => ?_
    | with_reducible apply Evolves.ite | with_reducible apply EvolvesOut.next | with_reducible exact EvolvesOut.fault
    | with_reducible apply EvolvesOut.ite | split | with_reducible apply Evolves.upd

theorem execInvalidCommandWord_ev {k : Bool} {l : List Area} {s : State} {word : Nat}
    (m : Area.subset [.loader] l = true) : EvolvesOut k l s (execInvalidCommandWord word s) := by
  refine EvolvesOut.mono ?_ m
  unfold execInvalidCommandWord
  try dsimp only
  repeat'
    first
    | exact rfl | exact .inr rfl | exact .inl rfl | exact Nat.le_refl _ | exact Nat.le_add_right _ _ | exact .refl _ | exact fun h => h
    | with_reducible exact Evolves.refl _ _ | with_reducible refine State.portViol_ev ?_ ?_
    | with_reducible refine Evolves.foldl ?_ fun _ _ => ?_ | with_reducible apply Evolves.ite
    | with_reducible apply EvolvesOut.next | with_reducible exact EvolvesOut.fault
    | with_reducible apply EvolvesOut.ite | split | with_reducible apply Evolves.upd

theorem execEndWord_ev {k : Bool} {l : List Area} {s : State} {word : Nat}
    (m : Area.subset [.pins, .hub, .funcs, .msix, .log, .loader] l = true) : EvolvesOut k l s (execEndWord word s) := by
  refine EvolvesOut.mono ?_ m
  unfold execEndWord
  try dsimp only
  repeat'
    first
    | exact rfl | exact .inr rfl | exact .inl rfl | exact Nat.le_refl _ | exact Nat.le_add_right _ _ | exact .refl _ | exact fun h => h | exact fun _ => rfl | exact ⟨fun _ h => h, fun h => h⟩
    | with_reducible exact Evolves.refl _ _ | with_reducible refine State.endLoad_ev ?_ ?_
    | with_reducible refine State.emit_ev ?_ ?_ | with_reducible refine Evolves.foldl ?_ fun _ _ => ?_
    | with_reducible apply Evolves.ite | with_reducible apply EvolvesOut.next | with_reducible exact EvolvesOut.fault
    | with_reducible apply EvolvesOut.ite | split | with_reducible apply Evolves.upd

theorem execChainForward_ev {k : Bool} {l : List Area} {s : State} {bytes : List Byte}
    (m : Area.subset [.loader] l = true) : EvolvesOut k l s (execChainForward bytes s) := by
  refine EvolvesOut.mono ?_ m
  unfold execChainForward
  try dsimp only
  repeat'
    first
    | exact rfl | exact .inr rfl | exact .inl rfl | exact Nat.le_refl _ | exact Nat.le_add_right _ _ | exact .refl _ | exact fun h => h | exact fun _ => rfl
    | with_reducible exact Evolves.refl _ _ | with_reducible refine State.portViol_ev ?_ ?_
    | with_reducible refine State.emit_ev ?_ ?_ | with_reducible refine Evolves.foldl ?_ fun _ _ => ?_
    | with_reducible apply Evolves.ite | with_reducible apply EvolvesOut.next | with_reducible exact EvolvesOut.fault
    | with_reducible apply EvolvesOut.ite | split | with_reducible apply Evolves.upd

theorem execCfgLoadStart_ev {k : Bool} {l : List Area} {s : State}
    (m : Area.subset [.pins, .funcs, .log, .loader] l = true) : EvolvesOut k l s (execCfgLoadStart s) := by
  refine EvolvesOut.mono ?_ m
  unfold execCfgLoadStart
  try dsimp only
  repeat'
    first
    | exact rfl | exact .inr rfl | exact .inl rfl | exact Nat.le_refl _ | exact Nat.le_add_right _ _ | exact .refl _ | exact fun h => h
    | with_reducible exact Evolves.refl _ _ | with_reducible refine State.lockedWrite_ev ?_ ?_
    | with_reducible refine Evolves.foldl ?_ fun _ _ => ?_ | with_reducible apply Evolves.ite
    | with_reducible apply EvolvesOut.next | with_reducible exact EvolvesOut.fault
    | with_reducible apply EvolvesOut.ite | split | with_reducible apply Evolves.upd

theorem execCfgLoadAbort_ev {k : Bool} {l : List Area} {s : State}
    (m : Area.subset [.pins, .hub, .funcs, .msix, .log, .loader] l = true) : EvolvesOut k l s (execCfgLoadAbort s) := by
  refine EvolvesOut.mono ?_ m
  unfold execCfgLoadAbort
  try dsimp only
  repeat'
    first
    | exact rfl | exact .inr rfl | exact .inl rfl | exact Nat.le_refl _ | exact Nat.le_add_right _ _ | exact .refl _ | exact fun h => h | exact ⟨fun _ h => h, fun h => h⟩
    | with_reducible exact Evolves.refl _ _ | with_reducible refine State.lockedWrite_ev ?_ ?_
    | with_reducible refine State.endLoad_ev ?_ ?_ | with_reducible refine Evolves.foldl ?_ fun _ _ => ?_
    | with_reducible apply Evolves.ite | with_reducible apply EvolvesOut.next | with_reducible exact EvolvesOut.fault
    | with_reducible apply EvolvesOut.ite | split | with_reducible apply Evolves.upd

theorem execSubImageHeader_ev {k : Bool} {l : List Area} {s : State} {bytes : List Byte}
    (m : Area.subset [.pins, .hub, .funcs, .msix, .log, .loader] l = true) : EvolvesOut k l s (execSubImageHeader bytes s) := by
  refine EvolvesOut.mono ?_ m
  unfold execSubImageHeader
  try dsimp only
  repeat'
    first
    | exact rfl | exact .inr rfl | exact .inl rfl | exact Nat.le_refl _ | exact Nat.le_add_right _ _ | exact .refl _ | exact fun h => h | exact ⟨fun _ h => h, fun h => h⟩
    | with_reducible exact Evolves.refl _ _ | with_reducible refine State.endLoad_ev ?_ ?_
    | with_reducible refine Evolves.foldl ?_ fun _ _ => ?_ | with_reducible apply Evolves.ite
    | with_reducible apply EvolvesOut.next | with_reducible exact EvolvesOut.fault
    | with_reducible apply EvolvesOut.ite | split | with_reducible apply Evolves.upd

theorem execSubImageReceived_ev {k : Bool} {l : List Area} {s : State} {bytes : List Byte}
    (m : Area.subset [.pins, .hub, .funcs, .msix, .log, .loader] l = true) : EvolvesOut k l s (execSubImageReceived bytes s) := by
  refine EvolvesOut.mono ?_ m
  unfold execSubImageReceived
  try dsimp only
  repeat'
    first
    | exact rfl | exact .inr rfl | exact .inl rfl | exact Nat.le_refl _ | exact Nat.le_add_right _ _ | exact .refl _ | exact fun h => h | exact ⟨fun _ h => h, fun h => h⟩
    | with_reducible exact Evolves.refl _ _ | with_reducible refine State.endLoad_ev ?_ ?_
    | with_reducible refine Evolves.foldl ?_ fun _ _ => ?_ | with_reducible apply Evolves.ite
    | with_reducible apply EvolvesOut.next | with_reducible exact EvolvesOut.fault
    | with_reducible apply EvolvesOut.ite | split | with_reducible apply Evolves.upd

theorem State.applyCapsule_ev {k : Bool} {l : List Area} {s0 s : State} {b : List Byte} (h : Evolves k l s0 s)
    (m : Area.subset [.pins, .funcs, .msix, .log, .loader] l = true) : Evolves k l s0 (s.applyCapsule b) := by
  refine Evolves.after ?_ h m
  unfold State.applyCapsule
  try dsimp only
  repeat'
    first
    | exact rfl | exact .inr rfl | exact .inl rfl | exact Nat.le_refl _ | exact Nat.le_add_right _ _ | exact .refl _ | exact fun h => h
    | with_reducible exact Evolves.refl _ _ | with_reducible refine State.devChangeAll_ev ?_ ?_
    | with_reducible refine State.logEv_ev ?_ ?_ | with_reducible refine Evolves.foldl ?_ fun _ _ => ?_
    | with_reducible apply Evolves.ite | split | with_reducible apply Evolves.upd

theorem State.clampPart_ev {k : Bool} {l : List Area} {s0 s : State} {p : Nat} (h : Evolves k l s0 s)
    (m : Area.subset [.pins, .funcs, .msix, .log, .xparts] l = true) : Evolves k l s0 (s.clampPart p) := by
  refine Evolves.after ?_ h m
  unfold State.clampPart
  try dsimp only
  repeat'
    first
    | exact rfl | exact .inr rfl | exact .inl rfl | exact Nat.le_refl _ | exact Nat.le_add_right _ _ | exact .refl _ | exact fun h => h | exact fun _ => rfl
    | with_reducible exact Evolves.refl _ _ | with_reducible refine State.devChangeAll_ev ?_ ?_
    | with_reducible refine State.emit_ev ?_ ?_ | with_reducible refine State.updXp_ev ?_ ?_
    | with_reducible refine Evolves.foldl ?_ fun _ _ => ?_ | with_reducible apply Evolves.ite | split
    | with_reducible apply Evolves.upd

theorem execLoadCommit_ev {k : Bool} {l : List Area} {s : State} {t : Nat}
    (m : Area.subset [.pins, .time, .hub, .funcs, .msix, .log, .xparts, .loader] l = true) : EvolvesOut k l s (execLoadCommit t s) := by
  refine EvolvesOut.mono ?_ m
  unfold execLoadCommit
  try dsimp only
  repeat'
    first
    | exact rfl | exact .inr rfl | exact .inl rfl | exact Nat.le_refl _ | exact Nat.le_add_right _ _ | exact .refl _ | exact fun h => h | exact ⟨fun _ h => h, fun h => h⟩
    | with_reducible exact Evolves.refl _ _ | with_reducible refine State.atTime_ev ?_ ?_
    | with_reducible refine State.endLoad_ev ?_ ?_ | with_reducible refine State.clampPart_ev ?_ ?_
    | with_reducible refine State.applyCapsule_ev ?_ ?_ | with_reducible refine Evolves.foldl ?_ fun _ _ => ?_
    | with_reducible apply Evolves.ite | with_reducible apply EvolvesOut.next | with_reducible exact EvolvesOut.fault
    | with_reducible apply EvolvesOut.ite | split | with_reducible apply Evolves.upd

theorem State.applyPart_ev {k : Bool} {l : List Area} {s0 s : State} {b : List Byte} {n : Nat} {p : Nat} (h : Evolves k l s0 s)
    (m : Area.subset [.pins, .funcs, .msix, .log, .xparts, .loader] l = true) : Evolves k l s0 (s.applyPart b n p) := by
  refine Evolves.after ?_ h m
  unfold State.applyPart
  try dsimp only
  repeat'
    first
    | exact rfl | exact .inr rfl | exact .inl rfl | exact Nat.le_refl _ | exact Nat.le_add_right _ _ | exact .refl _ | exact fun h => h
    | with_reducible exact Evolves.refl _ _ | with_reducible refine State.devChangeAll_ev ?_ ?_
    | with_reducible refine State.updXp_ev ?_ ?_ | with_reducible refine Evolves.foldl ?_ fun _ _ => ?_
    | with_reducible apply Evolves.ite | split | with_reducible apply Evolves.upd

theorem PartFuses.Blown.revoke (p : PartFuses) (f : Nat → Bool) :
    p.Blown { p with keyRevoked := p.keyRevoked.mapIdx fun i r => r || f i } := by
  refine ⟨⟨_, _, rfl⟩, fun j hj => ?_, Nat.min_le_left _ _⟩
  rw [List.getD_eq_getElem?_getD] at *
  dsimp only
  rw [List.getElem?_mapIdx]
  cases h : p.keyRevoked[j]? with
  | none => rw [h] at hj; cases hj
  | some r => rw [h] at hj; cases r <;> simp_all
theorem PartFuses.Blown.raise (p : PartFuses) (n : Nat) (h : p.rollback < n) : p.Blown { p with rollback := min 64 n } :=
  ⟨⟨_, _, rfl⟩, fun _ h => h, by dsimp only; omega⟩
theorem State.revokeKeys_ev {k : Bool} {l : List Area} {s0 s : State} {x1 : Nat} (h : Evolves k l s0 s)
    (m : Area.subset [.pins, .funcs, .msix, .log] l = true) : Evolves k l s0 (s.revokeKeys x1) := by
  refine Evolves.after ?_ h m
  unfold State.revokeKeys
  try dsimp only
  repeat'
    first
    | exact rfl | exact .inr rfl | exact .inl rfl | exact Nat.le_refl _ | exact Nat.le_add_right _ _ | exact .refl _ | exact fun h => h
    | with_reducible exact Evolves.refl _ _ | with_reducible refine State.devChangeAll_ev ?_ ?_
    | with_reducible refine Evolves.foldl ?_ fun _ _ => ?_ | with_reducible apply Evolves.ite | exact .revoke _ _
    | split | with_reducible apply Evolves.upd

theorem State.raiseRollback_ev {k : Bool} {l : List Area} {s0 s : State} {n : Nat} (h : Evolves k l s0 s)
    (m : Area.subset [.pins, .funcs, .msix, .log] l = true) : Evolves k l s0 (s.raiseRollback n) := by
  refine Evolves.after ?_ h m
  unfold State.raiseRollback
  split
  · rename_i hr
    refine State.devChangeAll_ev ?_ rfl
    apply (Evolves.refl _ s).upd <;> try first | exact rfl | exact .inr rfl | exact .inl rfl | exact Nat.le_refl _ | exact .refl _ | exact fun h => h
    exact .raise _ _ hr
  · exact .refl _ _

theorem State.blowFuses_ev {k : Bool} {l : List Area} {s0 s : State} {b : List Byte} (h : Evolves k l s0 s)
    (m : Area.subset [.pins, .funcs, .msix, .log] l = true) : Evolves k l s0 (s.blowFuses b) := by
  refine Evolves.after ?_ h m
  unfold State.blowFuses
  try dsimp only
  repeat'
    first
    | exact rfl | exact .inr rfl | exact .inl rfl | exact Nat.le_refl _ | exact Nat.le_add_right _ _ | exact .refl _ | exact fun h => h
    | with_reducible exact Evolves.refl _ _ | with_reducible refine State.revokeKeys_ev ?_ ?_
    | with_reducible refine State.raiseRollback_ev ?_ ?_ | with_reducible refine Evolves.foldl ?_ fun _ _ => ?_
    | with_reducible apply Evolves.ite | split | with_reducible apply Evolves.upd

theorem execApplyComplete_ev {k : Bool} {l : List Area} {s : State}
    (m : Area.subset [.pins, .hub, .funcs, .msix, .log, .xparts, .loader] l = true) : EvolvesOut k l s (execApplyComplete s) := by
  refine EvolvesOut.mono ?_ m
  unfold execApplyComplete
  try dsimp only
  repeat'
    first
    | exact rfl | exact .inr rfl | exact .inl rfl | exact Nat.le_refl _ | exact Nat.le_add_right _ _ | exact .refl _ | exact fun h => h | exact ⟨fun _ h => h, fun h => h⟩
    | with_reducible exact Evolves.refl _ _ | with_reducible refine State.applyPart_ev ?_ ?_
    | with_reducible refine State.blowFuses_ev ?_ ?_ | with_reducible refine State.endLoad_ev ?_ ?_
    | with_reducible refine Evolves.foldl ?_ fun _ _ => ?_ | with_reducible apply Evolves.ite
    | with_reducible apply EvolvesOut.next | with_reducible exact EvolvesOut.fault
    | with_reducible apply EvolvesOut.ite | split | with_reducible apply Evolves.upd

theorem execBootImageWaitExpiry_ev {k : Bool} {l : List Area} {s : State}
    (m : Area.subset [.time, .hub, .loader] l = true) : EvolvesOut k l s (execBootImageWaitExpiry s) := by
  refine EvolvesOut.mono ?_ m
  unfold execBootImageWaitExpiry
  try dsimp only
  repeat'
    first
    | exact rfl | exact .inr rfl | exact .inl rfl | exact Nat.le_refl _ | exact Nat.le_add_right _ _ | exact .refl _ | exact fun h => h | exact ⟨fun _ h => h, fun h => h⟩
    | with_reducible exact Evolves.refl _ _ | with_reducible refine State.bootImageDone_ev ?_ ?_
    | with_reducible refine State.atTime_ev ?_ ?_ | with_reducible refine Evolves.foldl ?_ fun _ _ => ?_
    | with_reducible apply Evolves.ite | with_reducible apply EvolvesOut.next | with_reducible exact EvolvesOut.fault
    | with_reducible apply EvolvesOut.ite | split | with_reducible apply Evolves.upd

theorem execReadback_ev {k : Bool} {l : List Area} {s : State} {word : Nat}
    (m : Area.subset [] l = true) : EvolvesOut k l s (execReadback word s) := by
  refine EvolvesOut.mono ?_ m
  unfold execReadback
  try dsimp only
  repeat'
    first
    | exact rfl | exact .inr rfl | exact .inl rfl | exact Nat.le_refl _ | exact Nat.le_add_right _ _ | exact .refl _ | exact fun h => h | exact fun _ => rfl
    | with_reducible exact Evolves.refl _ _ | with_reducible refine State.emit_ev ?_ ?_
    | with_reducible refine Evolves.foldl ?_ fun _ _ => ?_ | with_reducible apply Evolves.ite
    | with_reducible apply EvolvesOut.next | with_reducible exact EvolvesOut.fault
    | with_reducible apply EvolvesOut.ite | split | with_reducible apply Evolves.upd

end Sys2Proof.Machine
end

