-- ==== Sys2Proof/Laws/Functions.lean ====
section
/-! SUPPORT. What each operation of Sys2Proof/Machine/Functions.lean may change, and how the state follows. -/

set_option Elab.async false
set_option linter.all false
namespace Sys2Proof.Machine

theorem execNegotiate_ev {k : Bool} {l : List Area} {s : State} {func : Nat}
    (m : Area.subset [.pins, .funcs, .log] l = true) : EvolvesOut k l s (execNegotiate func s) := by
  refine EvolvesOut.mono ?_ m
  unfold execNegotiate
  try dsimp only
  repeat'
    first
    | exact rfl | exact .inr rfl | exact .inl rfl | exact Nat.le_refl _ | exact Nat.le_add_right _ _ | exact .refl _ | exact fun h => h
    | with_reducible exact Evolves.refl _ _ | with_reducible refine State.viol_ev ?_ ?_
    | with_reducible refine State.settleAhi_ev ?_ ?_ | with_reducible refine State.updFn_ev ?_ ?_
    | with_reducible refine Evolves.foldl ?_ fun _ _ => ?_ | with_reducible apply Evolves.ite
    | with_reducible apply EvolvesOut.next | with_reducible exact EvolvesOut.fault
    | with_reducible apply EvolvesOut.ite | split | with_reducible apply Evolves.upd

theorem execEnable_ev {k : Bool} {l : List Area} {s : State} {func : Nat}
    (m : Area.subset [.pins, .funcs, .log] l = true) : EvolvesOut k l s (execEnable func s) := by
  refine EvolvesOut.mono ?_ m
  unfold execEnable
  try dsimp only
  repeat'
    first
    | exact rfl | exact .inr rfl | exact .inl rfl | exact Nat.le_refl _ | exact Nat.le_add_right _ _ | exact .refl _ | exact fun h => h
    | with_reducible exact Evolves.refl _ _ | with_reducible refine State.updFn_ev ?_ ?_
    | with_reducible refine State.viol_ev ?_ ?_ | with_reducible refine Evolves.foldl ?_ fun _ _ => ?_
    | with_reducible apply Evolves.ite | with_reducible apply EvolvesOut.next | with_reducible exact EvolvesOut.fault
    | with_reducible apply EvolvesOut.ite | split | with_reducible apply Evolves.upd

theorem execFunctionDisable_ev {k : Bool} {l : List Area} {s : State} {func : Nat}
    (m : Area.subset [.funcs] l = true) : EvolvesOut k l s (execFunctionDisable func s) := by
  refine EvolvesOut.mono ?_ m
  unfold execFunctionDisable
  try dsimp only
  repeat'
    first
    | exact rfl | exact .inr rfl | exact .inl rfl | exact Nat.le_refl _ | exact Nat.le_add_right _ _ | exact .refl _ | exact fun h => h
    | with_reducible exact Evolves.refl _ _ | with_reducible refine State.updFn_ev ?_ ?_
    | with_reducible refine Evolves.foldl ?_ fun _ _ => ?_ | with_reducible apply Evolves.ite
    | with_reducible apply EvolvesOut.next | with_reducible exact EvolvesOut.fault
    | with_reducible apply EvolvesOut.ite | split | with_reducible apply Evolves.upd

theorem execHifPartCfgWrite_ev {k : Bool} {l : List Area} {s : State} {part : Nat} {value : Nat}
    (m : Area.subset [.pins, .funcs, .msix, .parts, .log] l = true) : EvolvesOut k l s (execHifPartCfgWrite part value s) := by
  refine EvolvesOut.mono ?_ m
  unfold execHifPartCfgWrite
  try dsimp only
  repeat'
    first
    | exact rfl | exact .inr rfl | exact .inl rfl | exact Nat.le_refl _ | exact Nat.le_add_right _ _ | exact .refl _ | exact fun h => h
    | with_reducible exact Evolves.refl _ _ | with_reducible refine State.lockedWrite_ev ?_ ?_
    | with_reducible refine State.refreshBelow_ev ?_ ?_ | with_reducible refine State.updPt_ev ?_ ?_
    | with_reducible refine Evolves.foldl ?_ fun _ _ => ?_ | with_reducible apply Evolves.ite
    | with_reducible apply EvolvesOut.next | with_reducible exact EvolvesOut.fault
    | with_reducible apply EvolvesOut.ite | split | with_reducible apply Evolves.upd

theorem execHifVfCfgWrite_ev {k : Bool} {l : List Area} {s : State} {vf : Nat} {value : Nat}
    (m : Area.subset [.pins, .funcs, .msix, .log] l = true) : EvolvesOut k l s (execHifVfCfgWrite vf value s) := by
  refine EvolvesOut.mono ?_ m
  unfold execHifVfCfgWrite
  try dsimp only
  repeat'
    first
    | exact rfl | exact .inr rfl | exact .inl rfl | exact Nat.le_refl _ | exact Nat.le_add_right _ _ | exact .refl _ | exact fun h => h
    | with_reducible exact Evolves.refl _ _ | with_reducible refine State.lockedWrite_ev ?_ ?_
    | with_reducible refine State.dropPending_ev ?_ ?_ | with_reducible refine State.updFn_ev ?_ ?_
    | with_reducible refine State.devChange_ev ?_ ?_ | with_reducible refine Evolves.foldl ?_ fun _ _ => ?_
    | with_reducible apply Evolves.ite | with_reducible apply EvolvesOut.next | with_reducible exact EvolvesOut.fault
    | with_reducible apply EvolvesOut.ite | split | with_reducible apply Evolves.upd

theorem execHifPartRegionsWrite_ev {k : Bool} {l : List Area} {s : State} {part : Nat} {value : Nat}
    (m : Area.subset [.pins, .funcs, .parts, .log] l = true) : EvolvesOut k l s (execHifPartRegionsWrite part value s) := by
  refine EvolvesOut.mono ?_ m
  unfold execHifPartRegionsWrite
  try dsimp only
  repeat'
    first
    | exact rfl | exact .inr rfl | exact .inl rfl | exact Nat.le_refl _ | exact Nat.le_add_right _ _ | exact .refl _ | exact fun h => h
    | with_reducible exact Evolves.refl _ _ | with_reducible refine State.lockedWrite_ev ?_ ?_
    | with_reducible refine State.updPt_ev ?_ ?_ | with_reducible refine Evolves.foldl ?_ fun _ _ => ?_
    | with_reducible apply Evolves.ite | with_reducible apply EvolvesOut.next | with_reducible exact EvolvesOut.fault
    | with_reducible apply EvolvesOut.ite | split | with_reducible apply Evolves.upd

theorem execHifPartRtWrite_ev {k : Bool} {l : List Area} {s : State} {part : Nat} {value : Nat}
    (m : Area.subset [.pins, .funcs, .msix, .parts, .log] l = true) : EvolvesOut k l s (execHifPartRtWrite part value s) := by
  refine EvolvesOut.mono ?_ m
  unfold execHifPartRtWrite
  try dsimp only
  repeat'
    first
    | exact rfl | exact .inr rfl | exact .inl rfl | exact Nat.le_refl _ | exact Nat.le_add_right _ _ | exact .refl _ | exact fun h => h
    | with_reducible exact Evolves.refl _ _ | with_reducible refine State.lockedWrite_ev ?_ ?_
    | with_reducible refine State.refreshBelow_ev ?_ ?_ | with_reducible refine State.updPt_ev ?_ ?_
    | with_reducible refine Evolves.foldl ?_ fun _ _ => ?_ | with_reducible apply Evolves.ite
    | with_reducible apply EvolvesOut.next | with_reducible exact EvolvesOut.fault
    | with_reducible apply EvolvesOut.ite | split | with_reducible apply Evolves.upd

theorem execSluiceWrite_ev {k : Bool} {l : List Area} {s : State} {part : Nat} {res : SluiceRes} {value : Nat}
    (m : Area.subset [.pins, .funcs, .msix, .parts, .log] l = true) : EvolvesOut k l s (execSluiceWrite part res value s) := by
  refine EvolvesOut.mono ?_ m
  unfold execSluiceWrite
  try dsimp only
  repeat'
    first
    | exact rfl | exact .inr rfl | exact .inl rfl | exact Nat.le_refl _ | exact Nat.le_add_right _ _ | exact .refl _ | exact fun h => h
    | with_reducible exact Evolves.refl _ _ | with_reducible refine State.lockedWrite_ev ?_ ?_
    | with_reducible refine State.refreshOversub_ev ?_ ?_ | with_reducible refine State.updPt_ev ?_ ?_
    | with_reducible refine Evolves.foldl ?_ fun _ _ => ?_ | with_reducible apply Evolves.ite
    | with_reducible apply EvolvesOut.next | with_reducible exact EvolvesOut.fault
    | with_reducible apply EvolvesOut.ite | split | with_reducible apply Evolves.upd

theorem execHostWindowEnable_ev {k : Bool} {l : List Area} {s : State} {win : Nat} {value : Nat}
    (m : Area.subset [.pins, .funcs, .windows, .log] l = true) : EvolvesOut k l s (execHostWindowEnable win value s) := by
  refine EvolvesOut.mono ?_ m
  unfold execHostWindowEnable
  try dsimp only
  repeat'
    first
    | exact rfl | exact .inr rfl | exact .inl rfl | exact Nat.le_refl _ | exact Nat.le_add_right _ _ | exact .refl _ | exact fun h => h
    | with_reducible exact Evolves.refl _ _ | with_reducible refine State.lockedWrite_ev ?_ ?_
    | with_reducible refine Evolves.foldl ?_ fun _ _ => ?_ | with_reducible apply Evolves.ite
    | with_reducible apply EvolvesOut.next | with_reducible exact EvolvesOut.fault
    | with_reducible apply EvolvesOut.ite | split | with_reducible apply Evolves.upd

theorem State.closeWindow_ev {k : Bool} {l : List Area} {s0 s : State} {win : Nat} (h : Evolves k l s0 s)
    (m : Area.subset [.windows] l = true) : Evolves k l s0 (s.closeWindow win) := by
  refine Evolves.after ?_ h m
  unfold State.closeWindow
  try dsimp only
  repeat'
    first
    | exact rfl | exact .inr rfl | exact .inl rfl | exact Nat.le_refl _ | exact Nat.le_add_right _ _ | exact .refl _ | exact fun h => h
    | with_reducible exact Evolves.refl _ _ | with_reducible refine Evolves.foldl ?_ fun _ _ => ?_
    | with_reducible apply Evolves.ite | split | with_reducible apply Evolves.upd

theorem execHostWindowDisable_ev {k : Bool} {l : List Area} {s : State} {win : Nat}
    (m : Area.subset [.windows] l = true) : EvolvesOut k l s (execHostWindowDisable win s) := by
  refine EvolvesOut.mono ?_ m
  unfold execHostWindowDisable
  try dsimp only
  repeat'
    first
    | exact rfl | exact .inr rfl | exact .inl rfl | exact Nat.le_refl _ | exact Nat.le_add_right _ _ | exact .refl _ | exact fun h => h
    | with_reducible exact Evolves.refl _ _ | with_reducible refine State.closeWindow_ev ?_ ?_
    | with_reducible refine Evolves.foldl ?_ fun _ _ => ?_ | with_reducible apply Evolves.ite
    | with_reducible apply EvolvesOut.next | with_reducible exact EvolvesOut.fault
    | with_reducible apply EvolvesOut.ite | split | with_reducible apply Evolves.upd

theorem execHostWindowDrained_ev {k : Bool} {l : List Area} {s : State} {win : Nat}
    (m : Area.subset [.windows] l = true) : EvolvesOut k l s (execHostWindowDrained win s) := by
  refine EvolvesOut.mono ?_ m
  unfold execHostWindowDrained
  try dsimp only
  repeat'
    first
    | exact rfl | exact .inr rfl | exact .inl rfl | exact Nat.le_refl _ | exact Nat.le_add_right _ _ | exact .refl _ | exact fun h => h
    | with_reducible exact Evolves.refl _ _ | with_reducible refine Evolves.foldl ?_ fun _ _ => ?_
    | with_reducible apply Evolves.ite | with_reducible apply EvolvesOut.next | with_reducible exact EvolvesOut.fault
    | with_reducible apply EvolvesOut.ite | split | with_reducible apply Evolves.upd

theorem State.resetFunc_ev {k : Bool} {l : List Area} {s0 s : State} {f : Nat} (h : Evolves k l s0 s)
    (m : Area.subset [.funcs] l = true) : Evolves k l s0 (s.resetFunc f) := by
  refine Evolves.after ?_ h m
  unfold State.resetFunc
  try dsimp only
  repeat'
    first
    | exact rfl | exact .inr rfl | exact .inl rfl | exact Nat.le_refl _ | exact Nat.le_add_right _ _ | exact .refl _ | exact fun h => h
    | with_reducible exact Evolves.refl _ _ | with_reducible refine Evolves.foldl ?_ fun _ _ => ?_
    | with_reducible apply Evolves.ite | split | with_reducible apply Evolves.upd

theorem State.flr_ev {k : Bool} {l : List Area} {s0 s : State} {f : Nat} (h : Evolves k l s0 s)
    (m : Area.subset [.pins, .hub, .funcs, .msix, .windows, .parts, .ctxs, .trans, .tlb, .fences, .fenceFreed, .fenceLower,
      .rings, .objs, .hbm, .chip, .pans, .units, .clusters, .power, .log, .secs, .cmds, .replays, .hzn, .svcs,
      .sessions, .xparts, .invals, .atsInvals] l = true) : Evolves k l s0 (s.flr f) := by
  refine Evolves.after ?_ h m
  unfold State.flr
  try dsimp only
  repeat'
    first
    | exact rfl | exact .inr rfl | exact .inl rfl | exact Nat.le_refl _ | exact Nat.le_add_right _ _ | exact .refl _ | exact fun h => h | exact ⟨fun _ h => h, fun h => h⟩
    | with_reducible exact Evolves.refl _ _ | with_reducible refine State.resetFunc_ev ?_ ?_
    | with_reducible refine State.destroyCtx_ev ?_ ?_ | with_reducible refine Evolves.foldl ?_ fun _ _ => ?_
    | with_reducible apply Evolves.ite | split | with_reducible apply Evolves.upd

theorem State.resetAll_ev {k : Bool} {l : List Area} {s0 s : State} (h : Evolves k l s0 s)
    (m : Area.subset [.pins, .hub, .funcs, .msix, .windows, .parts, .ctxs, .trans, .tlb, .fences, .fenceFreed, .fenceLower,
      .rings, .objs, .hbm, .chip, .pans, .units, .clusters, .power, .log, .secs, .cmds, .replays, .hzn, .svcs,
      .sessions, .xparts, .invals, .atsInvals] l = true) : Evolves k l s0 s.resetAll := by
  refine Evolves.after ?_ h m
  unfold State.resetAll
  try dsimp only
  repeat'
    first
    | exact rfl | exact .inr rfl | exact .inl rfl | exact Nat.le_refl _ | exact Nat.le_add_right _ _ | exact .refl _ | exact fun h => h | exact ⟨fun _ h => h, fun h => h⟩
    | with_reducible exact Evolves.refl _ _ | with_reducible refine State.closeWindow_ev ?_ ?_
    | with_reducible refine State.destroyCtx_ev ?_ ?_ | with_reducible refine State.refreshBelow_ev ?_ ?_
    | with_reducible refine Evolves.foldl ?_ fun _ _ => ?_ | with_reducible apply Evolves.ite | split
    | with_reducible apply Evolves.upd

theorem execFunctionLevelReset_ev {k : Bool} {l : List Area} {s : State} {func : Nat}
    (m : Area.subset [.pins, .hub, .funcs, .msix, .windows, .parts, .ctxs, .trans, .tlb, .fences, .fenceFreed, .fenceLower,
      .rings, .objs, .hbm, .chip, .pans, .units, .clusters, .power, .log, .secs, .cmds, .replays, .hzn, .svcs,
      .sessions, .xparts, .invals, .atsInvals] l = true) : EvolvesOut k l s (execFunctionLevelReset func s) := by
  refine EvolvesOut.mono ?_ m
  unfold execFunctionLevelReset
  try dsimp only
  repeat'
    first
    | exact rfl | exact .inr rfl | exact .inl rfl | exact Nat.le_refl _ | exact Nat.le_add_right _ _ | exact .refl _ | exact fun h => h | exact ⟨fun _ h => h, fun h => h⟩
    | with_reducible exact Evolves.refl _ _ | with_reducible refine State.resetAll_ev ?_ ?_
    | with_reducible refine State.flr_ev ?_ ?_ | with_reducible refine Evolves.foldl ?_ fun _ _ => ?_
    | with_reducible apply Evolves.ite | with_reducible apply EvolvesOut.next | with_reducible exact EvolvesOut.fault
    | with_reducible apply EvolvesOut.ite | split | with_reducible apply Evolves.upd

theorem execHotReset_ev {k : Bool} {l : List Area} {s : State}
    (m : Area.subset [.pins, .hub, .funcs, .msix, .windows, .parts, .ctxs, .trans, .tlb, .fences, .fenceFreed, .fenceLower,
      .rings, .objs, .hbm, .chip, .pans, .units, .clusters, .power, .log, .secs, .cmds, .replays, .hzn, .svcs,
      .sessions, .xparts, .invals, .atsInvals] l = true) : EvolvesOut k l s (execHotReset s) := by
  refine EvolvesOut.mono ?_ m
  unfold execHotReset
  try dsimp only
  repeat'
    first
    | exact rfl | exact .inr rfl | exact .inl rfl | exact Nat.le_refl _ | exact Nat.le_add_right _ _ | exact .refl _ | exact fun h => h | exact ⟨fun _ h => h, fun h => h⟩
    | with_reducible exact Evolves.refl _ _ | with_reducible refine State.resetAll_ev ?_ ?_
    | with_reducible refine Evolves.foldl ?_ fun _ _ => ?_ | with_reducible apply Evolves.ite
    | with_reducible apply EvolvesOut.next | with_reducible exact EvolvesOut.fault
    | with_reducible apply EvolvesOut.ite | split | with_reducible apply Evolves.upd

theorem execLink0Down_ev {k : Bool} {l : List Area} {s : State}
    (m : Area.subset [.pins, .hub, .funcs, .msix, .windows, .parts, .ctxs, .trans, .tlb, .fences, .fenceFreed, .fenceLower,
      .rings, .objs, .hbm, .chip, .pans, .units, .clusters, .power, .log, .secs, .cmds, .replays, .hzn, .svcs,
      .sessions, .xparts, .invals, .atsInvals] l = true) : EvolvesOut k l s (execLink0Down s) := by
  refine EvolvesOut.mono ?_ m
  unfold execLink0Down
  try dsimp only
  repeat'
    first
    | exact rfl | exact .inr rfl | exact .inl rfl | exact Nat.le_refl _ | exact Nat.le_add_right _ _ | exact .refl _ | exact fun h => h | exact ⟨fun _ h => h, fun h => h⟩
    | with_reducible exact Evolves.refl _ _ | with_reducible refine State.resetAll_ev ?_ ?_
    | with_reducible refine Evolves.foldl ?_ fun _ _ => ?_ | with_reducible apply Evolves.ite
    | with_reducible apply EvolvesOut.next | with_reducible exact EvolvesOut.fault
    | with_reducible apply EvolvesOut.ite | split | with_reducible apply Evolves.upd

theorem execLink1Down_ev {k : Bool} {l : List Area} {s : State}
    (m : Area.subset [.pins] l = true) : EvolvesOut k l s (execLink1Down s) := by
  refine EvolvesOut.mono ?_ m
  unfold execLink1Down
  try dsimp only
  repeat'
    first
    | exact rfl | exact .inr rfl | exact .inl rfl | exact Nat.le_refl _ | exact Nat.le_add_right _ _ | exact .refl _ | exact fun h => h
    | with_reducible exact Evolves.refl _ _ | with_reducible refine Evolves.foldl ?_ fun _ _ => ?_
    | with_reducible apply Evolves.ite | with_reducible apply EvolvesOut.next | with_reducible exact EvolvesOut.fault
    | with_reducible apply EvolvesOut.ite | split | with_reducible apply Evolves.upd

theorem execLink1Up_ev {k : Bool} {l : List Area} {s : State}
    (m : Area.subset [.pins] l = true) : EvolvesOut k l s (execLink1Up s) := by
  refine EvolvesOut.mono ?_ m
  unfold execLink1Up
  try dsimp only
  repeat'
    first
    | exact rfl | exact .inr rfl | exact .inl rfl | exact Nat.le_refl _ | exact Nat.le_add_right _ _ | exact .refl _ | exact fun h => h | exact fun _ => rfl
    | with_reducible exact Evolves.refl _ _ | with_reducible refine State.emit_ev ?_ ?_
    | with_reducible refine Evolves.foldl ?_ fun _ _ => ?_ | with_reducible apply Evolves.ite
    | with_reducible apply EvolvesOut.next | with_reducible exact EvolvesOut.fault
    | with_reducible apply EvolvesOut.ite | split | with_reducible apply Evolves.upd

theorem execHostReadError_ev {k : Bool} {l : List Area} {s : State} {reader : HostReader}
    (m : Area.subset [.pins, .hub, .funcs, .msix, .windows, .parts, .ctxs, .trans, .tlb, .fences, .fenceFreed, .fenceLower,
      .rings, .objs, .hbm, .chip, .pans, .units, .clusters, .power, .log, .secs, .cmds, .replays, .hzn, .svcs,
      .sessions, .xparts, .loader, .invals, .atsInvals] l = true) : EvolvesOut k l s (execHostReadError reader s) := by
  refine EvolvesOut.mono ?_ m
  unfold execHostReadError
  try dsimp only
  repeat'
    first
    | exact rfl | exact .inr rfl | exact .inl rfl | exact Nat.le_refl _ | exact Nat.le_add_right _ _ | exact .refl _ | exact fun h => h | exact ⟨fun _ h => h, fun h => h⟩
    | with_reducible exact Evolves.refl _ _ | with_reducible refine State.loseCtx_ev ?_ ?_
    | with_reducible refine State.viol_ev ?_ ?_ | with_reducible refine State.updFn_ev ?_ ?_
    | with_reducible refine State.endLoad_ev ?_ ?_ | with_reducible refine State.lockedWrite_ev ?_ ?_
    | with_reducible refine State.failLoad_ev ?_ ?_ | with_reducible refine Evolves.foldl ?_ fun _ _ => ?_
    | with_reducible apply Evolves.ite | with_reducible apply EvolvesOut.next | with_reducible exact EvolvesOut.fault
    | with_reducible apply EvolvesOut.ite | split | with_reducible apply Evolves.upd

theorem execAtsInvalidation_ev {k : Bool} {l : List Area} {s : State} {func : Nat}
    (m : Area.subset [.atsInvals] l = true) : EvolvesOut k l s (execAtsInvalidation func s) := by
  refine EvolvesOut.mono ?_ m
  unfold execAtsInvalidation
  try dsimp only
  repeat'
    first
    | exact rfl | exact .inr rfl | exact .inl rfl | exact Nat.le_refl _ | exact Nat.le_add_right _ _ | exact .refl _ | exact fun h => h
    | with_reducible exact Evolves.refl _ _ | with_reducible refine State.flushAts_ev ?_ ?_
    | with_reducible refine Evolves.foldl ?_ fun _ _ => ?_ | with_reducible apply Evolves.ite
    | with_reducible apply EvolvesOut.next | with_reducible exact EvolvesOut.fault
    | with_reducible apply EvolvesOut.ite | split | with_reducible apply Evolves.upd

theorem State.setVfs_ev {k : Bool} {l : List Area} {s0 s : State} {enable : Bool} {num : Nat} (h : Evolves k l s0 s)
    (m : Area.subset [.pins, .hub, .vfEnable, .numVfs, .funcs, .msix, .windows, .parts, .ctxs, .trans, .tlb, .fences, .fenceFreed,
      .fenceLower, .rings, .objs, .hbm, .chip, .pans, .units, .clusters, .power, .log, .secs, .cmds, .replays,
      .hzn, .svcs, .sessions, .xparts, .invals, .atsInvals] l = true) : Evolves k l s0 (s.setVfs enable num) := by
  refine Evolves.after ?_ h m
  unfold State.setVfs
  try dsimp only
  repeat'
    first
    | exact rfl | exact .inr rfl | exact .inl rfl | exact Nat.le_refl _ | exact Nat.le_add_right _ _ | exact .refl _ | exact fun h => h | exact ⟨fun _ h => h, fun h => h⟩
    | with_reducible exact Evolves.refl _ _ | with_reducible refine State.flr_ev ?_ ?_
    | with_reducible refine Evolves.foldl ?_ fun _ _ => ?_ | with_reducible apply Evolves.ite | split
    | with_reducible apply Evolves.upd

theorem execConfigRequest_ev {k : Bool} {l : List Area} {s : State} {func : Nat} {op : ConfigOp}
    (m : Area.subset [.pins, .hub, .vfEnable, .numVfs, .funcs, .msix, .msixEnable, .msixMask, .windows, .parts, .ctxs, .trans,
      .tlb, .fences, .fenceFreed, .fenceLower, .rings, .objs, .hbm, .chip, .pans, .units, .clusters, .power, .log,
      .secs, .cmds, .replays, .hzn, .svcs, .sessions, .xparts, .invals, .atsInvals] l = true) : EvolvesOut k l s (execConfigRequest func op s) := by
  refine EvolvesOut.mono ?_ m
  unfold execConfigRequest
  try dsimp only
  repeat'
    first
    | exact rfl | exact .inr rfl | exact .inl rfl | exact Nat.le_refl _ | exact Nat.le_add_right _ _ | exact .refl _ | exact fun h => h | exact fun _ => rfl | exact ⟨fun _ h => h, fun h => h⟩
    | with_reducible exact Evolves.refl _ _ | with_reducible refine State.emit_ev ?_ ?_
    | with_reducible refine State.setVfs_ev ?_ ?_ | with_reducible refine State.sendPending_ev ?_ ?_
    | with_reducible refine Evolves.foldl ?_ fun _ _ => ?_ | with_reducible apply Evolves.ite
    | with_reducible apply EvolvesOut.next | with_reducible exact EvolvesOut.fault
    | with_reducible apply EvolvesOut.ite | split | with_reducible apply Evolves.upd

end Sys2Proof.Machine
end

