-- ==== Sys2Proof/Machine/Geometry.lean ====
section
/-! DEFINITION. Where the cluster die puts things: the banks of core memory and of the reservoir, and the mesh of cores
(R116, R136, R137, R141). None of it changes a result (R18). -/

namespace Sys2Proof.Machine

/-- The bank of core memory that holds a byte address (R116). -/
def cmBank (a : BitVec 21) : BitVec 5 := ((a >>> 6) ^^^ (a >>> 11) ^^^ (a >>> 16)).setWidth 5

/-- The line within its bank (R116). -/
def cmLine (a : BitVec 21) : BitVec 10 := (a >>> 11).setWidth 10

/-- The address of the first byte of a line of a bank: a[10:6] = bank ^ a[15:11] ^ a[20:16] (R116). -/
def cmAddr (bank : BitVec 5) (line : BitVec 10) : BitVec 21 :=
  line ++ (bank ^^^ line.setWidth 5 ^^^ (line >>> 5).setWidth 5) ++ (0 : BitVec 6)

/-- The bank of the reservoir that holds a byte address, and the row within the bank (R141). -/
def rsBank (a : BitVec 26) : BitVec 4 := ((a >>> 9) ^^^ (a >>> 13) ^^^ (a >>> 17) ^^^ (a >>> 21) ^^^ (a >>> 25)).setWidth 4
def rsRow (a : BitVec 26) : BitVec 13 := (a >>> 13).setWidth 13

/-- Row and column of a local core in the mesh; row 0 is at the north edge (R136). -/
def meshPlace (core : Nat) : Nat × Nat := (core / 8, core % 8)

/-- The cores that a unicast tile passes, its source and its destination among them: along the source row, then along the column
(R137). -/
def unicastPath (src dst : Nat) : List Nat :=
  let (r, c) := meshPlace src
  let (r', c') := meshPlace dst
  let steps := fun (a b : Nat) => if a ≤ b then tab (b - a) fun i => a + 1 + i else tab (a - b) fun i => a - 1 - i
  [src] ++ (steps c c').map (fun x => 8 * r + x) ++ (steps r r').map fun y => 8 * y + c'

/-- The edge port through which a tile bound for the rim leaves: north (true) for rows 0 to 2, and the column (R137). -/
def rimPort (core : Nat) : Bool × Nat := (decide ((meshPlace core).1 < 3), (meshPlace core).2)

end Sys2Proof.Machine
end

