-- ==== Sys2Proof/Laws/Geometry.lean ====
section
/-! SUPPORT. The placement maps of Sys2Proof/Machine/Geometry.lean: lines and banks are in one-to-one relation with addresses. -/

namespace Sys2Proof.Machine

theorem cmBank_addr (b : BitVec 5) (l : BitVec 10) : cmBank (cmAddr b l) = b := by
  apply BitVec.eq_of_getLsbD_eq
  intro i hi
  have h : i = 0 ∨ i = 1 ∨ i = 2 ∨ i = 3 ∨ i = 4 := by omega
  rcases h with rfl | rfl | rfl | rfl | rfl <;>
    simp [cmBank, cmAddr] <;> grind

theorem cmLine_addr (b : BitVec 5) (l : BitVec 10) : cmLine (cmAddr b l) = l := by
  apply BitVec.eq_of_getLsbD_eq
  intro i hi
  have h6 : ¬ 11 + i < 6 := by omega
  have h5 : ¬ 11 + i - 6 < 5 := by omega
  have he : 11 + i - 6 - 5 = i := by omega
  simp only [cmLine, cmAddr, BitVec.getLsbD_setWidth, BitVec.getLsbD_ushiftRight, BitVec.getLsbD_append, hi, h6, h5, he, if_false,
    decide_true, Bool.true_and]

theorem unicastPath_self (c : Nat) : unicastPath c c = [c] := by simp [unicastPath, tab]

end Sys2Proof.Machine
end

