-- ==== Sys2Proof/Laws/PanArith.lean ====
section
/-! SUPPORT. Accumulators handed over at group boundaries: what R94 and R95 say of a reduction that is divided, for the arithmetic of
Sys2Proof/Machine/PanArith.lean. -/

namespace Sys2Proof.Machine

/-- Groups run from an accumulator that other groups have left give what all of them give in a row. -/
theorem runGroups_append (a : PanL) (ws : Nat → PanL) (nblk g : Nat) (eref : Int) (l m : List (Nat × Nat)) (acc : Int × Nat) :
    runGroups a ws nblk g eref (l ++ m) acc = runGroups a ws nblk g eref m (runGroups a ws nblk g eref l acc) := by
  unfold runGroups; rw [List.foldl_append]

/-- An element's accumulator does not depend on the group boundary at which a pan hands it over (R94, R95). -/
theorem outputElement_resume (a : PanL) (ws : Nat → PanL) (pw nblk g : Nat) (eref : Int) (acc : Int × Nat) (i : Nat) :
    runGroups a ws nblk g eref ((sweepOrder pw nblk g).drop i) (runGroups a ws nblk g eref ((sweepOrder pw nblk g).take i) acc)
      = outputElement a ws pw nblk g eref acc := by
  rw [← runGroups_append, List.take_append_drop]; rfl

/-- An operation over no group hands its accumulator on as it is. -/
@[simp] theorem runGroups_nil (a : PanL) (ws : Nat → PanL) (nblk g : Nat) (eref : Int) (acc : Int × Nat) :
    runGroups a ws nblk g eref [] acc = acc := rfl


end Sys2Proof.Machine
end

