-- ==== Sys2Proof/Laws/PerInstr.lean ====
section
/-! SUPPORT. A statement per constructor: a command is well formed exactly when every unit that it names is in the layout. -/

set_option Elab.async false
namespace Sys2Proof.Laws.Family

/-- The units that a command names, each with the lowest number of its kind and the number after the highest. -/
def units : Instr → List (Nat × Nat × Nat)
  | .sdsRefclkLost group => [(0, group, 3)]
  | .hbmRefclkLost cluster => [(0, cluster, 10)]
  | .clockTreeStop tree => [(0, tree, 80)]
  | .partRejoin part => [(0, part, 40)]
  | .clockSwitch tree => [(0, tree, 80)]
  | .pllLossOfLock region => [(0, region, 10)]
  | .firmwareAssertion proc => [(0, proc, 23)]
  | .panStartAdmission pan _ => [(0, pan, 960)]
  | .panRampDown pan _ => [(0, pan, 960)]
  | .stackTraining stack _ _ _ _ => [(0, stack, 20)]
  | .watchdogHeartbeat proc _ => [(0, proc, 23)]
  | .watchdogExpiry proc => [(0, proc, 23)]
  | .configRequest func _ => [(0, func, 257)]
  | .functionLevelReset func => [(0, func, 256)]
  | .hostReadError reader => match reader with | .service svc => [(1, svc, 13)] | _ => []
  | .atsInvalidation func => [(0, func, 256)]
  | .registerWrite func bar _ _ _ => [(0, func, 256), (0, bar % 2, 1), (0, bar, 3)]
  | .negotiate func => [(0, func, 256)]
  | .enable func => [(0, func, 256)]
  | .functionDisable func => [(0, func, 256)]
  | .hifPartCfgWrite part _ => [(0, part, 16)]
  | .hifVfCfgWrite vf _ => [(1, vf, 256)]
  | .hostWindowEnable win _ => [(0, win, 4096)]
  | .hostWindowDisable win => [(0, win, 4096)]
  | .hostWindowDrained win => [(0, win, 4096)]
  | .hifPartRegionsWrite part _ => [(0, part, 16)]
  | .hifPartRtWrite part _ => [(0, part, 16)]
  | .sluiceWrite part _ _ => [(0, part, 16)]
  | .hznDomainWrite reg _ => [(0, reg, 64)]
  | .serviceLoad svc => [(1, svc, 13)]
  | .serviceUnload svc => [(1, svc, 13)]
  | .submissionDoorbell func ring _ => [(0, func, 256), (0, ring, 1024)]
  | .adminDoorbell func _ => [(0, func, 256)]
  | .nop ring => [(0, ring, 1024)]
  | .execBuffer ring => [(0, ring, 1024)]
  | .launch ring => [(0, ring, 1024)]
  | .unload ring => [(0, ring, 1024)]
  | .eventRingFullRecheck ctx => [(0, ctx, 256)]
  | .eventRingFullTimeout ctx => [(0, ctx, 256)]
  | .functionEventRingRecheck func => [(0, func, 256)]
  | .moderationExpiry ring => match ring with | .ctx c => [(0, c, 256)] | .func f => [(0, f, 256)]
  | .queueAdmission core _ => [(0, core, 480)]
  | .multicastReservationGrant cluster => [(0, cluster, 10)]
  | .panOperationIssue pan => [(0, pan, 960)]
  | .weightSetLoad pan => [(0, pan, 960)]
  | .weightSetComplete pan => [(0, pan, 960)]
  | .preemptWaitExpiry core _ => [(0, core, 480)]
  | .pageZeroingComplete res page _ => [(0, page, if res then 10240 else 15360)]
  | .subpageZeroingComplete stack sub _ => [(0, stack, 20), (0, sub, 2 ^ 20)]
  | .refresh stack => [(0, stack, 20)]
  | .retraining stack pc _ => [(0, stack, 20), (0, pc, 64)]
  | .scrubRead stack _ => [(0, stack, 20)]
  | .train port _ => [(0, port, 36)]
  | .trainingTimeout port => [(0, port, 36)]
  | .portDown port => [(0, port, 36)]
  | .linkAckTimeout port => [(0, port, 36)]
  | .data port _ => [(0, port, 36)]
  | .ack port _ => [(0, port, 36)]
  | .nak port _ => [(0, port, 36)]
  | .retransmitTimeout port => [(0, port, 36)]
  | .ackKeepalive port => [(0, port, 36)]
  | .rts port _ => [(0, port, 36)]
  | .cts port _ => [(0, port, 36)]
  | .refuse port _ => [(0, port, 36)]
  | .busy port _ => [(0, port, 36)]
  | .segDone port _ => [(0, port, 36)]
  | .done port _ => [(0, port, 36)]
  | .abort port _ => [(0, port, 36)]
  | .groupAbort port _ => [(0, port, 36)]
  | .remoteSignal port _ => [(0, port, 36)]
  | .sync port _ _ => [(0, port, 36)]
  | .follow port _ => [(0, port, 36)]
  | .req port _ _ => [(0, port, 36)]
  | .resp port _ => [(0, port, 36)]
  | .join part => [(0, part, 40)]
  | .joinTimeout part => [(0, part, 40)]
  | .replyHeader part _ _ => [(0, part, 40)]
  | .replyFrame part _ _ => [(0, part, 40)]
  | .unsolicited part => [(0, part, 40)]
  | .svcWait svc => [(1, svc, 13)]
  | .svcDone svc _ _ _ _ => [(1, svc, 13)]
  | .svcTime svc => [(1, svc, 13)]
  | .svcLog svc _ => [(1, svc, 13)]
  | .svcYield svc => [(1, svc, 13)]
  | .serviceProgramEnd svc _ => [(1, svc, 13)]
  | .servingStep ctx => [(0, ctx, 256)]
  | .crystallizerSampling ctx => [(0, ctx, 256)]
  | .setEndpointId eid => [(0, eid, 256)]
  | .subpageTaggingComplete stack sub => [(0, stack, 20), (0, sub, 2 ^ 20)]
  | .trainFrameSend port => [(0, port, 36)]
  | .parityError store cluster core pan addr _ _ => [(0, cluster, 10), (0, store, 15), (0, pan, 2), (0, addr, 2 ^ 26)] ++ if core = 63 then [] else [(0, core, 48)]
  | _ => []

/-- A command is well formed exactly when every unit that it names is in the layout. -/
def Statement (i : Instr) : Prop := i.wf = true ↔ ∀ u ∈ units i, u.1 ≤ u.2.1 ∧ u.2.1 < u.2.2

theorem porstNAssert : Statement .porstNAssert := by simp [Statement, Instr.wf, units]
theorem porstNRelease : ∀ a b, Statement (.porstNRelease a b) := by simp [Statement, Instr.wf, units]
theorem railOutOfRange : ∀ a, Statement (.railOutOfRange a) := by simp [Statement, Instr.wf, units]
theorem timerefLost : Statement .timerefLost := by simp [Statement, Instr.wf, units]
theorem timerefReturn : Statement .timerefReturn := by simp [Statement, Instr.wf, units]
theorem timeDegradedClear : Statement .timeDegradedClear := by simp [Statement, Instr.wf, units]
theorem sdsRefclkLost : ∀ a, Statement (.sdsRefclkLost a) := by simp [Statement, Instr.wf, units]
theorem hbmRefclkLost : ∀ a, Statement (.hbmRefclkLost a) := by simp [Statement, Instr.wf, units]
theorem clockTreeStop : ∀ a, Statement (.clockTreeStop a) := by simp [Statement, Instr.wf, units]
theorem partRejoin : ∀ a, Statement (.partRejoin a) := by simp [Statement, Instr.wf, units]
theorem clockSwitch : ∀ a, Statement (.clockSwitch a) := by simp [Statement, Instr.wf, units]
theorem pllLossOfLock : ∀ a, Statement (.pllLossOfLock a) := by simp [Statement, Instr.wf, units]
theorem dieToDieLinkFailure : ∀ a, Statement (.dieToDieLinkFailure a) := by simp [Statement, Instr.wf, units]
theorem thermalWarnCrossing : ∀ a b, Statement (.thermalWarnCrossing a b) := by simp [Statement, Instr.wf, units]
theorem hardwareThrottle : ∀ a b, Statement (.hardwareThrottle a b) := by simp [Statement, Instr.wf, units]
theorem throttleRelease : ∀ a b, Statement (.throttleRelease a b) := by simp [Statement, Instr.wf, units]
theorem thermalShutdown : ∀ a b, Statement (.thermalShutdown a b) := by simp [Statement, Instr.wf, units]
theorem governorTrip : ∀ a, Statement (.governorTrip a) := by simp [Statement, Instr.wf, units]
theorem firmwareAssertion : ∀ a, Statement (.firmwareAssertion a) := by simp [Statement, Instr.wf, units]
theorem railSensorRead : ∀ a b c, Statement (.railSensorRead a b c) := by simp [Statement, Instr.wf, units]
theorem paceCheck : ∀ a b, Statement (.paceCheck a b) := by simp [Statement, Instr.wf, units]
theorem pointChange : ∀ a b, Statement (.pointChange a b) := by simp [Statement, Instr.wf, units]
theorem pointChangeSettled : ∀ a, Statement (.pointChangeSettled a) := by simp [Statement, Instr.wf, units]
theorem pointChangeTimeout : ∀ a, Statement (.pointChangeTimeout a) := by simp [Statement, Instr.wf, units]
theorem powerWindowEnd : ∀ a, Statement (.powerWindowEnd a) := by simp [Statement, Instr.wf, units]
theorem powerProjection : ∀ a b c, Statement (.powerProjection a b c) := by simp [Statement, Instr.wf, units]
theorem panStartAdmission : ∀ a b, Statement (.panStartAdmission a b) := by simp [Statement, Instr.wf, units]
theorem panRampDown : ∀ a b, Statement (.panRampDown a b) := by simp [Statement, Instr.wf, units]
theorem tapInstruction : ∀ a, Statement (.tapInstruction a) := by simp [Statement, Instr.wf, units]
theorem managementStage : ∀ a b c, Statement (.managementStage a b c) := by simp [Statement, Instr.wf, units]
theorem stackTraining : ∀ a b c d e, Statement (.stackTraining a b c d e) := by simp [Statement, Instr.wf, units]
theorem memoryReady : Statement .memoryReady := by simp [Statement, Instr.wf, units]
theorem bootImageWaitExpiry : Statement .bootImageWaitExpiry := by simp [Statement, Instr.wf, units]
theorem firmwareStart : Statement .firmwareStart := by simp [Statement, Instr.wf, units]
theorem bootReady : Statement .bootReady := by simp [Statement, Instr.wf, units]
theorem engineResetRequest : ∀ a b, Statement (.engineResetRequest a b) := by simp [Statement, Instr.wf, units]
theorem engineResetHoldEnd : ∀ a b, Statement (.engineResetHoldEnd a b) := by simp [Statement, Instr.wf, units]
theorem watchdogHeartbeat : ∀ a b, Statement (.watchdogHeartbeat a b) := by simp [Statement, Instr.wf, units]
theorem watchdogExpiry : ∀ a, Statement (.watchdogExpiry a) := by simp [Statement, Instr.wf, units]
theorem configRequest : ∀ a b, Statement (.configRequest a b) := by
  intro a b; simp only [Statement, Instr.wf, units]; simp; omega
theorem functionLevelReset : ∀ a, Statement (.functionLevelReset a) := by simp [Statement, Instr.wf, units]
theorem hotReset : Statement .hotReset := by simp [Statement, Instr.wf, units]
theorem link0Down : Statement .link0Down := by simp [Statement, Instr.wf, units]
theorem link1Down : Statement .link1Down := by simp [Statement, Instr.wf, units]
theorem link1Up : Statement .link1Up := by simp [Statement, Instr.wf, units]
theorem hostReadError : ∀ a, Statement (.hostReadError a) := by
  intro a; cases a <;> simp [Statement, Instr.wf, units] <;> omega
theorem atsInvalidation : ∀ a, Statement (.atsInvalidation a) := by simp [Statement, Instr.wf, units]
theorem registerWrite : ∀ a b c d e, Statement (.registerWrite a b c d e) := by
  intro a b c d e; simp [Statement, Instr.wf, units]; omega
theorem negotiate : ∀ a, Statement (.negotiate a) := by simp [Statement, Instr.wf, units]
theorem enable : ∀ a, Statement (.enable a) := by simp [Statement, Instr.wf, units]
theorem functionDisable : ∀ a, Statement (.functionDisable a) := by simp [Statement, Instr.wf, units]
theorem hifPartCfgWrite : ∀ a b, Statement (.hifPartCfgWrite a b) := by simp [Statement, Instr.wf, units]
theorem hifVfCfgWrite : ∀ a b, Statement (.hifVfCfgWrite a b) := by simp [Statement, Instr.wf, units]
theorem hostWindowEnable : ∀ a b, Statement (.hostWindowEnable a b) := by simp [Statement, Instr.wf, units]
theorem hostWindowDisable : ∀ a, Statement (.hostWindowDisable a) := by simp [Statement, Instr.wf, units]
theorem hostWindowDrained : ∀ a, Statement (.hostWindowDrained a) := by simp [Statement, Instr.wf, units]
theorem hifPartRegionsWrite : ∀ a b, Statement (.hifPartRegionsWrite a b) := by simp [Statement, Instr.wf, units]
theorem hifPartRtWrite : ∀ a b, Statement (.hifPartRtWrite a b) := by simp [Statement, Instr.wf, units]
theorem sluiceWrite : ∀ a b c, Statement (.sluiceWrite a b c) := by simp [Statement, Instr.wf, units]
theorem horizonEnable : ∀ a, Statement (.horizonEnable a) := by simp [Statement, Instr.wf, units]
theorem horizonDisable : Statement .horizonDisable := by simp [Statement, Instr.wf, units]
theorem hznDomainWrite : ∀ a b, Statement (.hznDomainWrite a b) := by simp [Statement, Instr.wf, units]
theorem serviceLoad : ∀ a, Statement (.serviceLoad a) := by simp [Statement, Instr.wf, units] <;> omega
theorem serviceUnload : ∀ a, Statement (.serviceUnload a) := by simp [Statement, Instr.wf, units] <;> omega
theorem cfgLoadStart : Statement .cfgLoadStart := by simp [Statement, Instr.wf, units]
theorem cfgLoadAbort : Statement .cfgLoadAbort := by simp [Statement, Instr.wf, units]
theorem mgtPwrLimitWrite : ∀ a, Statement (.mgtPwrLimitWrite a) := by simp [Statement, Instr.wf, units]
theorem clearFf : Statement .clearFf := by simp [Statement, Instr.wf, units]
theorem telemetryEnable : ∀ a, Statement (.telemetryEnable a) := by simp [Statement, Instr.wf, units]
theorem submissionDoorbell : ∀ a b c, Statement (.submissionDoorbell a b c) := by simp [Statement, Instr.wf, units]
theorem adminDoorbell : ∀ a b, Statement (.adminDoorbell a b) := by simp [Statement, Instr.wf, units]
theorem nop : ∀ a, Statement (.nop a) := by simp [Statement, Instr.wf, units]
theorem execBuffer : ∀ a, Statement (.execBuffer a) := by simp [Statement, Instr.wf, units]
theorem launch : ∀ a, Statement (.launch a) := by simp [Statement, Instr.wf, units]
theorem unload : ∀ a, Statement (.unload a) := by simp [Statement, Instr.wf, units]
theorem ctxCreate : ∀ a, Statement (.ctxCreate a) := by simp [Statement, Instr.wf, units]
theorem ctxDestroy : ∀ a, Statement (.ctxDestroy a) := by simp [Statement, Instr.wf, units]
theorem ringCreate : ∀ a, Statement (.ringCreate a) := by simp [Statement, Instr.wf, units]
theorem ringDestroy : ∀ a, Statement (.ringDestroy a) := by simp [Statement, Instr.wf, units]
theorem fenceCreate : ∀ a, Statement (.fenceCreate a) := by simp [Statement, Instr.wf, units]
theorem fenceShare : ∀ a, Statement (.fenceShare a) := by simp [Statement, Instr.wf, units]
theorem fenceRelease : ∀ a, Statement (.fenceRelease a) := by simp [Statement, Instr.wf, units]
theorem fenceSignal : ∀ a, Statement (.fenceSignal a) := by simp [Statement, Instr.wf, units]
theorem objCreate : ∀ a, Statement (.objCreate a) := by simp [Statement, Instr.wf, units]
theorem objMapHost : ∀ a, Statement (.objMapHost a) := by simp [Statement, Instr.wf, units]
theorem objUnmap : ∀ a, Statement (.objUnmap a) := by simp [Statement, Instr.wf, units]
theorem objExport : ∀ a, Statement (.objExport a) := by simp [Statement, Instr.wf, units]
theorem objImport : ∀ a, Statement (.objImport a) := by simp [Statement, Instr.wf, units]
theorem objWithdraw : ∀ a, Statement (.objWithdraw a) := by simp [Statement, Instr.wf, units]
theorem eventRingFullRecheck : ∀ a, Statement (.eventRingFullRecheck a) := by simp [Statement, Instr.wf, units]
theorem eventRingFullTimeout : ∀ a, Statement (.eventRingFullTimeout a) := by simp [Statement, Instr.wf, units]
theorem functionEventRingRecheck : ∀ a, Statement (.functionEventRingRecheck a) := by simp [Statement, Instr.wf, units]
theorem moderationExpiry : ∀ a, Statement (.moderationExpiry a) := by
  intro a; cases a <;> simp [Statement, Instr.wf, units] <;> omega
theorem queueAdmission : ∀ a b, Statement (.queueAdmission a b) := by simp [Statement, Instr.wf, units]
theorem matmul : ∀ a, Statement (.matmul a) := by simp [Statement, Instr.wf, units]
theorem attend : ∀ a, Statement (.attend a) := by simp [Statement, Instr.wf, units]
theorem vop : ∀ a, Statement (.vop a) := by simp [Statement, Instr.wf, units]
theorem reduce : ∀ a, Statement (.reduce a) := by simp [Statement, Instr.wf, units]
theorem softmax : ∀ a, Statement (.softmax a) := by simp [Statement, Instr.wf, units]
theorem norm : ∀ a, Statement (.norm a) := by simp [Statement, Instr.wf, units]
theorem activate : ∀ a, Statement (.activate a) := by simp [Statement, Instr.wf, units]
theorem rope : ∀ a, Statement (.rope a) := by simp [Statement, Instr.wf, units]
theorem topk : ∀ a, Statement (.topk a) := by simp [Statement, Instr.wf, units]
theorem sample : ∀ a, Statement (.sample a) := by simp [Statement, Instr.wf, units]
theorem stats : ∀ a, Statement (.stats a) := by simp [Statement, Instr.wf, units]
theorem quant : ∀ a, Statement (.quant a) := by simp [Statement, Instr.wf, units]
theorem requant : ∀ a, Statement (.requant a) := by simp [Statement, Instr.wf, units]
theorem dequant : ∀ a, Statement (.dequant a) := by simp [Statement, Instr.wf, units]
theorem mask : ∀ a, Statement (.mask a) := by simp [Statement, Instr.wf, units]
theorem rndfill : ∀ a, Statement (.rndfill a) := by simp [Statement, Instr.wf, units]
theorem copy : ∀ a, Statement (.copy a) := by simp [Statement, Instr.wf, units]
theorem gather : ∀ a, Statement (.gather a) := by simp [Statement, Instr.wf, units]
theorem scatter : ∀ a, Statement (.scatter a) := by simp [Statement, Instr.wf, units]
theorem mcast : ∀ a, Statement (.mcast a) := by simp [Statement, Instr.wf, units]
theorem multicastReservationGrant : ∀ a, Statement (.multicastReservationGrant a) := by simp [Statement, Instr.wf, units]
theorem prefetch : ∀ a, Statement (.prefetch a) := by simp [Statement, Instr.wf, units]
theorem saveRes : ∀ a, Statement (.saveRes a) := by simp [Statement, Instr.wf, units]
theorem restoreRes : ∀ a, Statement (.restoreRes a) := by simp [Statement, Instr.wf, units]
theorem wait : ∀ a, Statement (.wait a) := by simp [Statement, Instr.wf, units]
theorem signal : ∀ a, Statement (.signal a) := by simp [Statement, Instr.wf, units]
theorem event : ∀ a, Statement (.event a) := by simp [Statement, Instr.wf, units]
theorem barrier : ∀ a, Statement (.barrier a) := by simp [Statement, Instr.wf, units]
theorem waitTimeoutExpiry : ∀ a, Statement (.waitTimeoutExpiry a) := by simp [Statement, Instr.wf, units]
theorem waitCycleScan : Statement .waitCycleScan := by simp [Statement, Instr.wf, units]
theorem send : ∀ a, Statement (.send a) := by simp [Statement, Instr.wf, units]
theorem recv : ∀ a, Statement (.recv a) := by simp [Statement, Instr.wf, units]
theorem allreduce : ∀ a, Statement (.allreduce a) := by simp [Statement, Instr.wf, units]
theorem allgather : ∀ a, Statement (.allgather a) := by simp [Statement, Instr.wf, units]
theorem rscatter : ∀ a, Statement (.rscatter a) := by simp [Statement, Instr.wf, units]
theorem ringpass : ∀ a, Statement (.ringpass a) := by simp [Statement, Instr.wf, units]
theorem patch : ∀ a, Statement (.patch a) := by simp [Statement, Instr.wf, units]
theorem replay : ∀ a, Statement (.replay a) := by simp [Statement, Instr.wf, units]
theorem runStart : ∀ a, Statement (.runStart a) := by simp [Statement, Instr.wf, units]
theorem chain : ∀ a, Statement (.chain a) := by simp [Statement, Instr.wf, units]
theorem softCall : ∀ a, Statement (.softCall a) := by simp [Statement, Instr.wf, units]
theorem coreCall : ∀ a, Statement (.coreCall a) := by simp [Statement, Instr.wf, units]
theorem callTimeout : ∀ a, Statement (.callTimeout a) := by simp [Statement, Instr.wf, units]
theorem panOperationIssue : ∀ a, Statement (.panOperationIssue a) := by simp [Statement, Instr.wf, units]
theorem weightSetLoad : ∀ a, Statement (.weightSetLoad a) := by simp [Statement, Instr.wf, units]
theorem weightSetComplete : ∀ a, Statement (.weightSetComplete a) := by simp [Statement, Instr.wf, units]
theorem frameEmit : ∀ a b, Statement (.frameEmit a b) := by simp [Statement, Instr.wf, units]
theorem routeStallTimeout : ∀ a, Statement (.routeStallTimeout a) := by simp [Statement, Instr.wf, units]
theorem commandCommit : ∀ a, Statement (.commandCommit a) := by simp [Statement, Instr.wf, units]
theorem streamGroupCommit : ∀ a, Statement (.streamGroupCommit a) := by simp [Statement, Instr.wf, units]
theorem preemptWaitExpiry : ∀ a b, Statement (.preemptWaitExpiry a b) := by simp [Statement, Instr.wf, units]
theorem killComplete : ∀ a, Statement (.killComplete a) := by simp [Statement, Instr.wf, units]
theorem parityError : ∀ a b c d e f g, Statement (.parityError a b c d e f g) := by
  intro a b c d e f g; by_cases h : c = 63 <;> simp [Statement, Instr.wf, units, h] <;> omega
theorem pageZeroingComplete : ∀ a b c, Statement (.pageZeroingComplete a b c) := by simp [Statement, Instr.wf, units]
theorem subpageZeroingComplete : ∀ a b c, Statement (.subpageZeroingComplete a b c) := by simp [Statement, Instr.wf, units]
theorem translationInvalidationComplete : ∀ a b, Statement (.translationInvalidationComplete a b) := by simp [Statement, Instr.wf, units]
theorem sluiceWindow : Statement .sluiceWindow := by simp [Statement, Instr.wf, units]
theorem refresh : ∀ a, Statement (.refresh a) := by simp [Statement, Instr.wf, units]
theorem retraining : ∀ a b c, Statement (.retraining a b c) := by simp [Statement, Instr.wf, units]
theorem scrubRead : ∀ a b, Statement (.scrubRead a b) := by simp [Statement, Instr.wf, units]
theorem train : ∀ a b, Statement (.train a b) := by simp [Statement, Instr.wf, units]
theorem trainingTimeout : ∀ a, Statement (.trainingTimeout a) := by simp [Statement, Instr.wf, units]
theorem portDown : ∀ a, Statement (.portDown a) := by simp [Statement, Instr.wf, units]
theorem linkAckTimeout : ∀ a, Statement (.linkAckTimeout a) := by simp [Statement, Instr.wf, units]
theorem data : ∀ a b, Statement (.data a b) := by simp [Statement, Instr.wf, units]
theorem ack : ∀ a b, Statement (.ack a b) := by simp [Statement, Instr.wf, units]
theorem nak : ∀ a b, Statement (.nak a b) := by simp [Statement, Instr.wf, units]
theorem retransmitTimeout : ∀ a, Statement (.retransmitTimeout a) := by simp [Statement, Instr.wf, units]
theorem ackKeepalive : ∀ a, Statement (.ackKeepalive a) := by simp [Statement, Instr.wf, units]
theorem rts : ∀ a b, Statement (.rts a b) := by simp [Statement, Instr.wf, units]
theorem cts : ∀ a b, Statement (.cts a b) := by simp [Statement, Instr.wf, units]
theorem refuse : ∀ a b, Statement (.refuse a b) := by simp [Statement, Instr.wf, units]
theorem busy : ∀ a b, Statement (.busy a b) := by simp [Statement, Instr.wf, units]
theorem rtsRetry : ∀ a, Statement (.rtsRetry a) := by simp [Statement, Instr.wf, units]
theorem segDone : ∀ a b, Statement (.segDone a b) := by simp [Statement, Instr.wf, units]
theorem segmentTimeout : ∀ a b, Statement (.segmentTimeout a b) := by simp [Statement, Instr.wf, units]
theorem done : ∀ a b, Statement (.done a b) := by simp [Statement, Instr.wf, units]
theorem abort : ∀ a b, Statement (.abort a b) := by simp [Statement, Instr.wf, units]
theorem groupAbort : ∀ a b, Statement (.groupAbort a b) := by simp [Statement, Instr.wf, units]
theorem horizonInactivityTimeout : ∀ a, Statement (.horizonInactivityTimeout a) := by simp [Statement, Instr.wf, units]
theorem remoteSignal : ∀ a b, Statement (.remoteSignal a b) := by simp [Statement, Instr.wf, units]
theorem remoteSignalDrop : Statement .remoteSignalDrop := by simp [Statement, Instr.wf, units]
theorem timeSyncWindow : Statement .timeSyncWindow := by simp [Statement, Instr.wf, units]
theorem sync : ∀ a b c, Statement (.sync a b c) := by simp [Statement, Instr.wf, units]
theorem follow : ∀ a b, Statement (.follow a b) := by simp [Statement, Instr.wf, units]
theorem req : ∀ a b c, Statement (.req a b c) := by simp [Statement, Instr.wf, units]
theorem resp : ∀ a b, Statement (.resp a b) := by simp [Statement, Instr.wf, units]
theorem timeSyncFault : Statement .timeSyncFault := by simp [Statement, Instr.wf, units]
theorem load : ∀ a, Statement (.load a) := by simp [Statement, Instr.wf, units]
theorem readback : ∀ a, Statement (.readback a) := by simp [Statement, Instr.wf, units]
theorem endWord : ∀ a, Statement (.endWord a) := by simp [Statement, Instr.wf, units]
theorem chainForward : ∀ a, Statement (.chainForward a) := by simp [Statement, Instr.wf, units]
theorem subImageHeader : ∀ a, Statement (.subImageHeader a) := by simp [Statement, Instr.wf, units]
theorem subImageReceived : ∀ a, Statement (.subImageReceived a) := by simp [Statement, Instr.wf, units]
theorem loadCommit : ∀ a, Statement (.loadCommit a) := by simp [Statement, Instr.wf, units]
theorem applyComplete : Statement .applyComplete := by simp [Statement, Instr.wf, units]
theorem join : ∀ a, Statement (.join a) := by simp [Statement, Instr.wf, units]
theorem joinTimeout : ∀ a, Statement (.joinTimeout a) := by simp [Statement, Instr.wf, units]
theorem replyHeader : ∀ a b c, Statement (.replyHeader a b c) := by simp [Statement, Instr.wf, units]
theorem replyFrame : ∀ a b c, Statement (.replyFrame a b c) := by simp [Statement, Instr.wf, units]
theorem unsolicited : ∀ a, Statement (.unsolicited a) := by simp [Statement, Instr.wf, units]
theorem svcWait : ∀ a, Statement (.svcWait a) := by simp [Statement, Instr.wf, units] <;> omega
theorem svcDone : ∀ a b c d e, Statement (.svcDone a b c d e) := by simp [Statement, Instr.wf, units] <;> omega
theorem svcTime : ∀ a, Statement (.svcTime a) := by simp [Statement, Instr.wf, units] <;> omega
theorem svcLog : ∀ a b, Statement (.svcLog a b) := by simp [Statement, Instr.wf, units] <;> omega
theorem svcYield : ∀ a, Statement (.svcYield a) := by simp [Statement, Instr.wf, units] <;> omega
theorem serviceProgramEnd : ∀ a b, Statement (.serviceProgramEnd a b) := by simp [Statement, Instr.wf, units] <;> omega
theorem crysOpen : ∀ a, Statement (.crysOpen a) := by simp [Statement, Instr.wf, units]
theorem crysClose : ∀ a, Statement (.crysClose a) := by simp [Statement, Instr.wf, units]
theorem crysStatus : ∀ a, Statement (.crysStatus a) := by simp [Statement, Instr.wf, units]
theorem servingStep : ∀ a, Statement (.servingStep a) := by simp [Statement, Instr.wf, units]
theorem crystallizerSampling : ∀ a, Statement (.crystallizerSampling a) := by simp [Statement, Instr.wf, units]
theorem setEndpointId : ∀ a, Statement (.setEndpointId a) := by simp [Statement, Instr.wf, units]
theorem getEndpointId : Statement .getEndpointId := by simp [Statement, Instr.wf, units]
theorem getMctpVersionSupport : Statement .getMctpVersionSupport := by simp [Statement, Instr.wf, units]
theorem getMessageTypeSupport : Statement .getMessageTypeSupport := by simp [Statement, Instr.wf, units]
theorem getStatus : Statement .getStatus := by simp [Statement, Instr.wf, units]
theorem readSensors : ∀ a b c, Statement (.readSensors a b c) := by simp [Statement, Instr.wf, units]
theorem readCt : ∀ a b, Statement (.readCt a b) := by simp [Statement, Instr.wf, units]
theorem setPwrLimit : ∀ a, Statement (.setPwrLimit a) := by simp [Statement, Instr.wf, units]
theorem readLog : ∀ a b, Statement (.readLog a b) := by simp [Statement, Instr.wf, units]
theorem logStatus : Statement .logStatus := by simp [Statement, Instr.wf, units]
theorem logWrite : Statement .logWrite := by simp [Statement, Instr.wf, units]
theorem coalescingWindowEnd : Statement .coalescingWindowEnd := by simp [Statement, Instr.wf, units]
theorem telemetrySample : Statement .telemetrySample := by simp [Statement, Instr.wf, units]
theorem subpageTaggingComplete : ∀ a b, Statement (.subpageTaggingComplete a b) := by simp [Statement, Instr.wf, units]
theorem saveResTimeout : ∀ a, Statement (.saveResTimeout a) := by simp [Statement, Instr.wf, units]
theorem trainFrameSend : ∀ a, Statement (.trainFrameSend a) := by simp [Statement, Instr.wf, units]
theorem warnRelease : ∀ a b, Statement (.warnRelease a b) := by simp [Statement, Instr.wf, units]
theorem invalidCommandWord : ∀ a, Statement (.invalidCommandWord a) := by simp [Statement, Instr.wf, units]

end Sys2Proof.Laws.Family
end

