-- ==== Sys2Proof/Laws/TimeSync.lean ====
section
/-! SUPPORT. What each operation of Sys2Proof/Machine/TimeSync.lean may change, and how the state follows. -/

set_option Elab.async false
set_option linter.all false
namespace Sys2Proof.Machine

theorem State.sendTime_ev {k : Bool} {l : List Area} {s0 s : State} {p : Nat} {op : Nat} {dst : Nat} {payload : List Byte} (h : Evolves k l s0 s)
    (m : Area.subset [] l = true) : Evolves k l s0 (s.sendTime p op dst payload) := by
  refine Evolves.after ?_ h m
  unfold State.sendTime
  try dsimp only
  repeat'
    first
    | exact rfl | exact .inr rfl | exact .inl rfl | exact Nat.le_refl _ | exact Nat.le_add_right _ _ | exact .refl _ | exact fun h => h | exact fun _ => rfl
    | with_reducible exact Evolves.refl _ _ | with_reducible refine State.emit_ev ?_ ?_
    | with_reducible refine Evolves.foldl ?_ fun _ _ => ?_ | with_reducible apply Evolves.ite | split
    | with_reducible apply Evolves.upd

theorem execTimeSyncWindow_ev {k : Bool} {l : List Area} {s : State}
    (m : Area.subset [.time] l = true) : EvolvesOut k l s (execTimeSyncWindow s) := by
  refine EvolvesOut.mono ?_ m
  unfold execTimeSyncWindow
  try dsimp only
  repeat'
    first
    | exact rfl | exact .inr rfl | exact .inl rfl | exact Nat.le_refl _ | exact Nat.le_add_right _ _ | exact .refl _ | exact fun h => h
    | with_reducible exact Evolves.refl _ _ | with_reducible refine State.atTime_ev ?_ ?_
    | with_reducible refine State.sendTime_ev ?_ ?_ | with_reducible refine Evolves.foldl ?_ fun _ _ => ?_
    | with_reducible apply Evolves.ite | with_reducible apply EvolvesOut.next | with_reducible exact EvolvesOut.fault
    | with_reducible apply EvolvesOut.ite | split | with_reducible apply Evolves.upd

theorem execSync_ev {k : Bool} {l : List Area} {s : State} {port : Nat} {frame : List Byte} {stamp : Nat}
    (m : Area.subset [.pins, .time, .log, .hzn] l = true) : EvolvesOut k l s (execSync port frame stamp s) := by
  refine EvolvesOut.mono ?_ m
  unfold execSync
  try dsimp only
  repeat'
    first
    | exact rfl | exact .inr rfl | exact .inl rfl | exact Nat.le_refl _ | exact Nat.le_add_right _ _ | exact .refl _ | exact fun h => h
    | with_reducible exact Evolves.refl _ _ | with_reducible refine State.receive_ev ?_ fun _ _ => ?_
    | with_reducible refine State.atTime_ev ?_ ?_ | with_reducible refine Evolves.foldl ?_ fun _ _ => ?_
    | with_reducible apply Evolves.ite | with_reducible apply EvolvesOut.next | with_reducible exact EvolvesOut.fault
    | with_reducible apply EvolvesOut.ite | split | with_reducible apply Evolves.upd

theorem execFollow_ev {k : Bool} {l : List Area} {s : State} {port : Nat} {frame : List Byte}
    (m : Area.subset [.pins, .time, .log, .hzn] l = true) : EvolvesOut k l s (execFollow port frame s) := by
  refine EvolvesOut.mono ?_ m
  unfold execFollow
  try dsimp only
  repeat'
    first
    | exact rfl | exact .inr rfl | exact .inl rfl | exact Nat.le_refl _ | exact Nat.le_add_right _ _ | exact .refl _ | exact fun h => h
    | with_reducible exact Evolves.refl _ _ | with_reducible refine State.receive_ev ?_ fun _ _ => ?_
    | with_reducible refine State.sendTime_ev ?_ ?_ | with_reducible refine Evolves.foldl ?_ fun _ _ => ?_
    | with_reducible apply Evolves.ite | with_reducible apply EvolvesOut.next | with_reducible exact EvolvesOut.fault
    | with_reducible apply EvolvesOut.ite | split | with_reducible apply Evolves.upd

theorem execReq_ev {k : Bool} {l : List Area} {s : State} {port : Nat} {frame : List Byte} {stamp : Nat}
    (m : Area.subset [.pins, .time, .log, .hzn] l = true) : EvolvesOut k l s (execReq port frame stamp s) := by
  refine EvolvesOut.mono ?_ m
  unfold execReq
  try dsimp only
  repeat'
    first
    | exact rfl | exact .inr rfl | exact .inl rfl | exact Nat.le_refl _ | exact Nat.le_add_right _ _ | exact .refl _ | exact fun h => h
    | with_reducible exact Evolves.refl _ _ | with_reducible refine State.receive_ev ?_ fun _ _ => ?_
    | with_reducible refine State.atTime_ev ?_ ?_ | with_reducible refine State.sendTime_ev ?_ ?_
    | with_reducible refine Evolves.foldl ?_ fun _ _ => ?_ | with_reducible apply Evolves.ite
    | with_reducible apply EvolvesOut.next | with_reducible exact EvolvesOut.fault
    | with_reducible apply EvolvesOut.ite | split | with_reducible apply Evolves.upd

theorem State.syncFault_ev {k : Bool} {l : List Area} {s0 s : State} (h : Evolves k l s0 s)
    (m : Area.subset [.pins, .time, .log] l = true) : Evolves k l s0 s.syncFault := by
  refine Evolves.after ?_ h m
  unfold State.syncFault
  try dsimp only
  repeat'
    first
    | exact rfl | exact .inr rfl | exact .inl rfl | exact Nat.le_refl _ | exact Nat.le_add_right _ _ | exact .refl _ | exact fun h => h
    | with_reducible exact Evolves.refl _ _ | with_reducible refine State.logEv_ev ?_ ?_
    | with_reducible refine Evolves.foldl ?_ fun _ _ => ?_ | with_reducible apply Evolves.ite | split
    | with_reducible apply Evolves.upd

theorem execResp_ev {k : Bool} {l : List Area} {s : State} {port : Nat} {frame : List Byte}
    (m : Area.subset [.pins, .time, .log, .hzn] l = true) : EvolvesOut k l s (execResp port frame s) := by
  refine EvolvesOut.mono ?_ m
  unfold execResp
  try dsimp only
  repeat'
    first
    | exact rfl | exact .inr rfl | exact .inl rfl | exact Nat.le_refl _ | exact Nat.le_add_right _ _ | exact .refl _ | exact fun h => h
    | with_reducible exact Evolves.refl _ _ | with_reducible refine State.receive_ev ?_ fun _ _ => ?_
    | with_reducible refine State.syncFault_ev ?_ ?_ | with_reducible refine Evolves.foldl ?_ fun _ _ => ?_
    | with_reducible apply Evolves.ite | with_reducible apply EvolvesOut.next | with_reducible exact EvolvesOut.fault
    | with_reducible apply EvolvesOut.ite | split | with_reducible apply Evolves.upd

theorem execTimeSyncFault_ev {k : Bool} {l : List Area} {s : State}
    (m : Area.subset [.pins, .time, .log] l = true) : EvolvesOut k l s (execTimeSyncFault s) := by
  refine EvolvesOut.mono ?_ m
  unfold execTimeSyncFault
  try dsimp only
  repeat'
    first
    | exact rfl | exact .inr rfl | exact .inl rfl | exact Nat.le_refl _ | exact Nat.le_add_right _ _ | exact .refl _ | exact fun h => h
    | with_reducible exact Evolves.refl _ _ | with_reducible refine State.syncFault_ev ?_ ?_
    | with_reducible refine State.atTime_ev ?_ ?_ | with_reducible refine Evolves.foldl ?_ fun _ _ => ?_
    | with_reducible apply Evolves.ite | with_reducible apply EvolvesOut.next | with_reducible exact EvolvesOut.fault
    | with_reducible apply EvolvesOut.ite | split | with_reducible apply Evolves.upd

end Sys2Proof.Machine
end

