-- ==== Sys2Proof/Laws/Regs.lean ====
section
/-! SUPPORT. What each operation of Sys2Proof/Machine/Regs.lean may change, and how the state follows. -/

set_option Elab.async false
set_option linter.all false
namespace Sys2Proof.Machine

theorem State.run_ev {k : Bool} {l : List Area} {s0 s : State} {f : State → Out} (h : Evolves k l s0 s)
    (hf : ∀ t, EvolvesOut k l t (f t)) : Evolves k l s0 (s.run f) := by
  unfold State.run
  have hs := hf s
  split <;> rename_i e
  · exact h.trans (hs _ e)
  · exact h
  · exact h

theorem State.readBar0_ev {k : Bool} {l : List Area} {s0 s : State} {f : Nat} {o : Nat} {width : Nat} (h : Evolves k l s0 s)
    (m : Area.subset [.pins, .funcs, .log] l = true) : Evolves k l s0 (s.readBar0 f o width).2 := by
  refine Evolves.after ?_ h m
  unfold State.readBar0
  try dsimp only
  repeat'
    first
    | exact rfl | exact .inr rfl | exact .inl rfl | exact Nat.le_refl _ | exact Nat.le_add_right _ _ | exact .refl _ | exact fun h => h
    | with_reducible exact Evolves.refl _ _ | with_reducible refine State.viol_ev ?_ ?_
    | with_reducible refine Evolves.foldl ?_ fun _ _ => ?_ | dsimp only | with_reducible apply Evolves.ite | split
    | with_reducible apply Evolves.upd

theorem State.readBar2_ev {k : Bool} {l : List Area} {s0 s : State} {f : Nat} {o : Nat} {width : Nat} (h : Evolves k l s0 s)
    (m : Area.subset [.pins, .funcs, .log] l = true) : Evolves k l s0 (s.readBar2 f o width).2 := by
  refine Evolves.after ?_ h m
  unfold State.readBar2
  try dsimp only
  repeat'
    first
    | exact rfl | exact .inr rfl | exact .inl rfl | exact Nat.le_refl _ | exact Nat.le_add_right _ _ | exact .refl _ | exact fun h => h
    | with_reducible exact Evolves.refl _ _ | with_reducible refine State.viol_ev ?_ ?_
    | with_reducible refine Evolves.foldl ?_ fun _ _ => ?_ | dsimp only | with_reducible apply Evolves.ite | split
    | with_reducible apply Evolves.upd

theorem State.putRwl_ev {k : Bool} {l : List Area} {s0 s : State} {f : Nat} {g : Func → Func} (h : Evolves k l s0 s)
    (m : Area.subset [.pins, .funcs, .log] l = true) : Evolves k l s0 (s.putRwl f g) := by
  refine Evolves.after ?_ h m
  unfold State.putRwl
  try dsimp only
  repeat'
    first
    | exact rfl | exact .inr rfl | exact .inl rfl | exact Nat.le_refl _ | exact Nat.le_add_right _ _ | exact .refl _ | exact fun h => h
    | with_reducible exact Evolves.refl _ _ | with_reducible refine State.viol_ev ?_ ?_
    | with_reducible refine State.updFn_ev ?_ ?_ | with_reducible refine Evolves.foldl ?_ fun _ _ => ?_
    | with_reducible apply Evolves.ite | split | with_reducible apply Evolves.upd

theorem State.writeFunc_ev {k : Bool} {l : List Area} {s0 s : State} {f : Nat} {o : Nat} {w : RegWrite} (h : Evolves k l s0 s)
    (m : Area.subset [.pins, .funcs, .log] l = true) : Evolves k l s0 (s.writeFunc f o w) := by
  refine Evolves.after ?_ h m
  unfold State.writeFunc
  try dsimp only
  repeat'
    first
    | exact rfl | exact .inr rfl | exact .inl rfl | exact Nat.le_refl _ | exact Nat.le_add_right _ _ | exact .refl _ | exact fun h => h
    | with_reducible exact Evolves.refl _ _ | with_reducible refine State.updFn_ev ?_ ?_
    | with_reducible refine State.run_ev ?_ fun _ => ?_ | with_reducible refine execNegotiate_ev ?_
    | with_reducible refine execEnable_ev ?_ | with_reducible refine execFunctionDisable_ev ?_
    | with_reducible refine State.putRwl_ev ?_ ?_ | with_reducible refine Evolves.foldl ?_ fun _ _ => ?_
    | with_reducible apply Evolves.ite | split | with_reducible apply Evolves.upd

theorem State.writeMsix_ev {k : Bool} {l : List Area} {s0 s : State} {f : Nat} {o : Nat} {w : RegWrite} (h : Evolves k l s0 s)
    (m : Area.subset [.msix] l = true) : Evolves k l s0 (s.writeMsix f o w) := by
  refine Evolves.after ?_ h m
  unfold State.writeMsix
  try dsimp only
  repeat'
    first
    | exact rfl | exact .inr rfl | exact .inl rfl | exact Nat.le_refl _ | exact Nat.le_add_right _ _ | exact .refl _ | exact fun h => h
    | with_reducible exact Evolves.refl _ _ | with_reducible refine State.sendPending_ev ?_ ?_
    | with_reducible refine Evolves.foldl ?_ fun _ _ => ?_ | with_reducible apply Evolves.ite | split
    | with_reducible apply Evolves.upd

theorem State.writeWindow_ev {k : Bool} {l : List Area} {s0 s : State} {o : Nat} {w : RegWrite} (h : Evolves k l s0 s)
    (m : Area.subset [.pins, .funcs, .windows, .log] l = true) : Evolves k l s0 (s.writeWindow o w) := by
  refine Evolves.after ?_ h m
  unfold State.writeWindow
  try dsimp only
  repeat'
    first
    | exact rfl | exact .inr rfl | exact .inl rfl | exact Nat.le_refl _ | exact Nat.le_add_right _ _ | exact .refl _ | exact fun h => h
    | with_reducible exact Evolves.refl _ _ | with_reducible refine State.run_ev ?_ fun _ => ?_
    | with_reducible refine execHostWindowEnable_ev ?_ | with_reducible refine execHostWindowDisable_ev ?_
    | with_reducible refine State.lockedWrite_ev ?_ ?_ | with_reducible refine Evolves.foldl ?_ fun _ _ => ?_
    | with_reducible apply Evolves.ite | split | with_reducible apply Evolves.upd

theorem State.writePart_ev {k : Bool} {l : List Area} {s0 s : State} {p : Nat} {o : Nat} {w : RegWrite} (h : Evolves k l s0 s)
    (m : Area.subset [.pins, .funcs, .msix, .parts, .log] l = true) : Evolves k l s0 (s.writePart p o w) := by
  refine Evolves.after ?_ h m
  unfold State.writePart
  try dsimp only
  repeat'
    first
    | exact rfl | exact .inr rfl | exact .inl rfl | exact Nat.le_refl _ | exact Nat.le_add_right _ _ | exact .refl _ | exact fun h => h
    | with_reducible exact Evolves.refl _ _ | with_reducible refine State.run_ev ?_ fun _ => ?_
    | with_reducible refine execHifPartRtWrite_ev ?_ | with_reducible refine execHifPartRegionsWrite_ev ?_
    | with_reducible refine execSluiceWrite_ev ?_ | with_reducible refine Evolves.foldl ?_ fun _ _ => ?_
    | with_reducible apply Evolves.ite | split | with_reducible apply Evolves.upd

theorem State.writeTimeCtrl_ev {k : Bool} {l : List Area} {s0 s : State} {v : Nat} (h : Evolves k l s0 s)
    (m : Area.subset [.pins, .time, .funcs, .log, .hzn] l = true) : Evolves k l s0 (s.writeTimeCtrl v) := by
  refine Evolves.after ?_ h m
  unfold State.writeTimeCtrl
  try dsimp only
  repeat'
    first
    | exact rfl | exact .inr rfl | exact .inl rfl | exact Nat.le_refl _ | exact Nat.le_add_right _ _ | exact .refl _ | exact fun h => h
    | with_reducible exact Evolves.refl _ _ | with_reducible refine State.lockedWrite_ev ?_ ?_
    | with_reducible refine Evolves.foldl ?_ fun _ _ => ?_ | with_reducible apply Evolves.ite | split
    | with_reducible apply Evolves.upd

theorem State.writePortCfg_ev {k : Bool} {l : List Area} {s0 s : State} {i : Nat} {w : RegWrite} (h : Evolves k l s0 s)
    (m : Area.subset [.pins, .funcs, .log, .hzn] l = true) : Evolves k l s0 (s.writePortCfg i w) := by
  refine Evolves.after ?_ h m
  unfold State.writePortCfg
  try dsimp only
  repeat'
    first
    | exact rfl | exact .inr rfl | exact .inl rfl | exact Nat.le_refl _ | exact Nat.le_add_right _ _ | exact .refl _ | exact fun h => h
    | with_reducible exact Evolves.refl _ _ | with_reducible refine State.lockedWrite_ev ?_ ?_
    | with_reducible refine Evolves.foldl ?_ fun _ _ => ?_ | with_reducible apply Evolves.ite | split
    | with_reducible apply Evolves.upd

theorem State.writeHzn_ev {k : Bool} {l : List Area} {s0 s : State} {o : Nat} {w : RegWrite} (h : Evolves k l s0 s)
    (m : Area.subset [.pins, .time, .funcs, .msix, .parts, .log, .hzn] l = true) : Evolves k l s0 (s.writeHzn o w) := by
  refine Evolves.after ?_ h m
  unfold State.writeHzn
  try dsimp only
  repeat'
    first
    | exact rfl | exact .inr rfl | exact .inl rfl | exact Nat.le_refl _ | exact Nat.le_add_right _ _ | exact .refl _ | exact fun h => h
    | with_reducible exact Evolves.refl _ _ | with_reducible refine State.writeHznCtrl_ev ?_ ?_
    | with_reducible refine State.writeTimeCtrl_ev ?_ ?_ | with_reducible refine State.writePortCfg_ev ?_ ?_
    | with_reducible refine State.run_ev ?_ fun _ => ?_ | with_reducible refine execHznDomainWrite_ev ?_
    | with_reducible refine Evolves.foldl ?_ fun _ _ => ?_ | with_reducible apply Evolves.ite | split
    | with_reducible apply Evolves.upd

theorem State.writeSvc_ev {k : Bool} {l : List Area} {s0 s : State} {svc : Nat} {o : Nat} {w : RegWrite} (h : Evolves k l s0 s)
    (m : Area.subset [.pins, .hub, .funcs, .msix, .windows, .parts, .ctxs, .trans, .tlb, .fences, .fenceFreed, .fenceLower,
      .rings, .objs, .hbm, .chip, .pans, .units, .clusters, .power, .log, .secs, .cmds, .replays, .hzn, .svcs,
      .sessions, .xparts, .invals, .atsInvals] l = true) : Evolves k l s0 (s.writeSvc svc o w) := by
  refine Evolves.after ?_ h m
  unfold State.writeSvc
  try dsimp only
  repeat'
    first
    | exact rfl | exact .inr rfl | exact .inl rfl | exact Nat.le_refl _ | exact Nat.le_add_right _ _ | exact .refl _ | exact fun h => h | exact ⟨fun _ h => h, fun h => h⟩
    | with_reducible exact Evolves.refl _ _ | with_reducible refine State.lockedWrite_ev ?_ ?_
    | with_reducible refine State.updSvc_ev ?_ ?_ | with_reducible refine State.run_ev ?_ fun _ => ?_
    | with_reducible refine execServiceLoad_ev ?_ | with_reducible refine execServiceUnload_ev ?_
    | with_reducible refine Evolves.foldl ?_ fun _ _ => ?_ | with_reducible apply Evolves.ite | split
    | with_reducible apply Evolves.upd

theorem State.writeLoader_ev {k : Bool} {l : List Area} {s0 s : State} {o : Nat} {w : RegWrite} (h : Evolves k l s0 s)
    (m : Area.subset [.pins, .hub, .funcs, .msix, .log, .loader] l = true) : Evolves k l s0 (s.writeLoader o w) := by
  refine Evolves.after ?_ h m
  unfold State.writeLoader
  try dsimp only
  repeat'
    first
    | exact rfl | exact .inr rfl | exact .inl rfl | exact Nat.le_refl _ | exact Nat.le_add_right _ _ | exact .refl _ | exact fun h => h | exact ⟨fun _ h => h, fun h => h⟩
    | with_reducible exact Evolves.refl _ _ | with_reducible refine State.lockedWrite_ev ?_ ?_
    | with_reducible refine State.run_ev ?_ fun _ => ?_ | with_reducible refine execCfgLoadStart_ev ?_
    | with_reducible refine execCfgLoadAbort_ev ?_ | with_reducible refine Evolves.foldl ?_ fun _ _ => ?_
    | with_reducible apply Evolves.ite | split | with_reducible apply Evolves.upd

theorem State.writeTelemCfg_ev {k : Bool} {l : List Area} {s0 s : State} {v : Nat} (h : Evolves k l s0 s)
    (m : Area.subset [.pins, .funcs, .log, .telem] l = true) : Evolves k l s0 (s.writeTelemCfg v) := by
  refine Evolves.after ?_ h m
  unfold State.writeTelemCfg
  try dsimp only
  repeat'
    first
    | exact rfl | exact .inr rfl | exact .inl rfl | exact Nat.le_refl _ | exact Nat.le_add_right _ _ | exact .refl _ | exact fun h => h
    | with_reducible exact Evolves.refl _ _ | with_reducible refine State.lockedWrite_ev ?_ ?_
    | with_reducible refine State.run_ev ?_ fun _ => ?_ | with_reducible refine execTelemetryEnable_ev ?_
    | with_reducible refine Evolves.foldl ?_ fun _ _ => ?_ | with_reducible apply Evolves.ite | split
    | with_reducible apply Evolves.upd

theorem State.writeMgt_ev {l : List Area} {s0 s : State} {o : Nat} {w : RegWrite} (h : Evolves false l s0 s)
    (m : Area.subset [.pins, .funcs, .power, .log, .telem] l = true) : Evolves false l s0 (s.writeMgt o w) := by
  refine Evolves.after ?_ h m
  unfold State.writeMgt
  try dsimp only
  repeat'
    first
    | exact rfl | exact .inr rfl | exact .inl rfl | exact Nat.le_refl _ | exact Nat.le_add_right _ _ | exact .refl _ | exact fun h => h | exact .of_queue rfl fun h => h
    | with_reducible exact Evolves.refl _ _ | with_reducible refine State.lockedWrite_ev ?_ ?_
    | with_reducible refine State.run_ev ?_ fun _ => ?_ | with_reducible refine execMgtPwrLimitWrite_ev ?_
    | with_reducible refine execClearFf_ev ?_ | with_reducible refine State.writeTelemCfg_ev ?_ ?_
    | with_reducible refine Evolves.foldl ?_ fun _ _ => ?_ | with_reducible apply Evolves.ite | split
    | with_reducible apply Evolves.upd

theorem State.writePerf_ev {k : Bool} {l : List Area} {s0 s : State} {c : Nat} {o : Nat} {w : RegWrite} (h : Evolves k l s0 s)
    (m : Area.subset [.clusters] l = true) : Evolves k l s0 (s.writePerf c o w) := by
  refine Evolves.after ?_ h m
  unfold State.writePerf
  try dsimp only
  repeat'
    first
    | exact rfl | exact .inr rfl | exact .inl rfl | exact Nat.le_refl _ | exact Nat.le_add_right _ _ | exact .refl _ | exact fun h => h
    | with_reducible exact Evolves.refl _ _ | with_reducible refine State.updCl_ev ?_ ?_
    | with_reducible refine Evolves.foldl ?_ fun _ _ => ?_ | with_reducible apply Evolves.ite | split
    | with_reducible apply Evolves.upd

theorem State.writeArea_ev {l : List Area} {s0 s : State} {o : Nat} {width : Nat} {value : Nat} {w : RegWrite} (h : Evolves false l s0 s)
    (m : Area.subset [.pins, .tap, .time, .hub, .vfEnable, .numVfs, .funcs, .msix, .msixEnable, .msixMask, .windows, .parts,
      .tokens, .sluWindow, .ctxs, .trans, .tlb, .fences, .fenceFresh, .fenceFreed, .fenceLower, .remoteDrop,
      .rings, .ringTaken, .ringTakenLc, .objs, .nextObj, .hbm, .chip, .pans, .units, .clusters, .power, .log,
      .telem, .secs, .nextSec, .cmds, .replays, .scanSet, .hzn, .svcs, .sessions, .nextSession, .xparts, .loader,
      .invals, .atsInvals, .eid] l = true) : Evolves false l s0 (s.writeArea o width value w) := by
  refine Evolves.after ?_ h m
  unfold State.writeArea
  try dsimp only
  repeat'
    first
    | exact rfl | exact .inr rfl | exact .inl rfl | exact Nat.le_refl _ | exact Nat.le_add_right _ _ | exact .refl _ | exact fun h => h | exact ⟨fun _ h => h, fun h => h⟩
    | with_reducible exact Evolves.refl _ _ | with_reducible refine State.run_ev ?_ fun _ => ?_
    | with_reducible refine execHifPartCfgWrite_ev ?_ | with_reducible refine State.writePart_ev ?_ ?_
    | with_reducible refine State.writeHzn_ev ?_ ?_ | with_reducible refine execHifVfCfgWrite_ev ?_
    | with_reducible refine execSluiceWrite_ev ?_ | with_reducible refine State.writeSvc_ev ?_ ?_
    | with_reducible refine State.writeLoader_ev ?_ ?_ | with_reducible refine State.writeMgt_ev ?_ ?_
    | with_reducible refine execEngineResetRequest_ev ?_ | with_reducible refine State.writePerf_ev ?_ ?_
    | with_reducible refine Evolves.foldl ?_ fun _ _ => ?_ | with_reducible apply Evolves.ite | split
    | with_reducible apply Evolves.upd

theorem State.writeBar0_ev {l : List Area} {s0 s : State} {f : Nat} {o : Nat} {width : Nat} {value : Nat} (h : Evolves false l s0 s)
    (m : Area.subset [.pins, .tap, .time, .hub, .vfEnable, .numVfs, .funcs, .msix, .msixEnable, .msixMask, .windows, .parts,
      .tokens, .sluWindow, .ctxs, .trans, .tlb, .fences, .fenceFresh, .fenceFreed, .fenceLower, .remoteDrop,
      .rings, .ringTaken, .ringTakenLc, .objs, .nextObj, .hbm, .chip, .pans, .units, .clusters, .power, .log,
      .telem, .secs, .nextSec, .cmds, .replays, .scanSet, .hzn, .svcs, .sessions, .nextSession, .xparts, .loader,
      .invals, .atsInvals, .eid] l = true) : Evolves false l s0 (s.writeBar0 f o width value) := by
  refine Evolves.after ?_ h m
  unfold State.writeBar0
  try dsimp only
  repeat'
    first
    | exact rfl | exact .inr rfl | exact .inl rfl | exact Nat.le_refl _ | exact Nat.le_add_right _ _ | exact .refl _ | exact fun h => h | exact ⟨fun _ h => h, fun h => h⟩
    | with_reducible exact Evolves.refl _ _ | with_reducible refine State.viol_ev ?_ ?_
    | with_reducible refine State.writeFunc_ev ?_ ?_ | with_reducible refine State.writeMsix_ev ?_ ?_
    | with_reducible refine State.writeArea_ev ?_ ?_ | with_reducible refine State.writeWindow_ev ?_ ?_
    | with_reducible refine Evolves.foldl ?_ fun _ _ => ?_ | with_reducible apply Evolves.ite | split
    | with_reducible apply Evolves.upd

theorem State.writeBar2_ev {k : Bool} {l : List Area} {s0 s : State} {f : Nat} {o : Nat} {width : Nat} {value : Nat} (h : Evolves k l s0 s)
    (m : Area.subset [.pins, .funcs, .rings, .log] l = true) : Evolves k l s0 (s.writeBar2 f o width value) := by
  refine Evolves.after ?_ h m
  unfold State.writeBar2
  try dsimp only
  repeat'
    first
    | exact rfl | exact .inr rfl | exact .inl rfl | exact Nat.le_refl _ | exact Nat.le_add_right _ _ | exact .refl _ | exact fun h => h
    | with_reducible exact Evolves.refl _ _ | with_reducible refine State.viol_ev ?_ ?_
    | with_reducible refine State.run_ev ?_ fun _ => ?_ | with_reducible refine execAdminDoorbell_ev ?_
    | with_reducible refine execSubmissionDoorbell_ev ?_ | with_reducible refine Evolves.foldl ?_ fun _ _ => ?_
    | with_reducible apply Evolves.ite | split | with_reducible apply Evolves.upd

theorem execRegisterWrite_ev {l : List Area} {s : State} {func : Nat} {bar : Nat} {offset : Nat} {width : Nat} {value : Nat}
    (m : Area.subset [.pins, .tap, .time, .hub, .vfEnable, .numVfs, .funcs, .msix, .msixEnable, .msixMask, .windows, .parts,
      .tokens, .sluWindow, .ctxs, .trans, .tlb, .fences, .fenceFresh, .fenceFreed, .fenceLower, .remoteDrop,
      .rings, .ringTaken, .ringTakenLc, .objs, .nextObj, .hbm, .chip, .pans, .units, .clusters, .power, .log,
      .telem, .secs, .nextSec, .cmds, .replays, .scanSet, .hzn, .svcs, .sessions, .nextSession, .xparts, .loader,
      .invals, .atsInvals, .eid] l = true) : EvolvesOut false l s (execRegisterWrite func bar offset width value s) := by
  refine EvolvesOut.mono ?_ m
  unfold execRegisterWrite
  try dsimp only
  repeat'
    first
    | exact rfl | exact .inr rfl | exact .inl rfl | exact Nat.le_refl _ | exact Nat.le_add_right _ _ | exact .refl _ | exact fun h => h | exact ⟨fun _ h => h, fun h => h⟩
    | with_reducible exact Evolves.refl _ _ | with_reducible refine State.writeBar0_ev ?_ ?_
    | with_reducible refine State.writeBar2_ev ?_ ?_ | with_reducible refine Evolves.foldl ?_ fun _ _ => ?_
    | with_reducible apply Evolves.ite | with_reducible apply EvolvesOut.next | with_reducible exact EvolvesOut.fault
    | with_reducible apply EvolvesOut.ite | split | with_reducible apply Evolves.upd

end Sys2Proof.Machine
end

