-- ==== Sys2Proof/Laws/Sideband.lean ====
section
/-! SUPPORT. What each operation of Sys2Proof/Machine/Sideband.lean may change, and how the state follows. -/

set_option Elab.async false
set_option linter.all false
namespace Sys2Proof.Machine

theorem State.answer_ev {k : Bool} {l : List Area} {s : State} {e : OutEvent} {f : State → State}
    (he : ∀ x, OutEvent.apply x e = x) (hf : ∀ t, Evolves k l t (f t)) : EvolvesOut k l s (s.answer e f) := by
  unfold State.answer
  exact .ite (.next (State.emit_ev (hf s) he)) (.next (.refl _ _))
theorem Evolves.idle {k : Bool} {l : List Area} (t : State) : Evolves k l t (id t) := .refl _ _

theorem execSetEndpointId_ev {k : Bool} {l : List Area} {s : State} {eid : Nat}
    (m : Area.subset [.eid] l = true) : EvolvesOut k l s (execSetEndpointId eid s) := by
  refine EvolvesOut.mono ?_ m
  unfold execSetEndpointId
  try dsimp only
  repeat'
    first
    | exact rfl | exact .inr rfl | exact .inl rfl | exact Nat.le_refl _ | exact Nat.le_add_right _ _ | exact .refl _ | exact fun h => h
    | with_reducible exact Evolves.refl _ _ | with_reducible refine State.answer_ev (fun _ => ?_) fun _ => ?_
    | with_reducible refine Evolves.foldl ?_ fun _ _ => ?_ | with_reducible apply Evolves.ite
    | with_reducible apply EvolvesOut.next | with_reducible exact EvolvesOut.fault
    | with_reducible apply EvolvesOut.ite | with_reducible exact Evolves.idle _ | split
    | with_reducible apply Evolves.upd

theorem execGetEndpointId_ev {k : Bool} {l : List Area} {s : State}
    (m : Area.subset [] l = true) : EvolvesOut k l s (execGetEndpointId s) := by
  refine EvolvesOut.mono ?_ m
  unfold execGetEndpointId
  try dsimp only
  repeat'
    first
    | exact rfl | exact .inr rfl | exact .inl rfl | exact Nat.le_refl _ | exact Nat.le_add_right _ _ | exact .refl _ | exact fun h => h
    | with_reducible exact Evolves.refl _ _ | with_reducible refine State.answer_ev (fun _ => ?_) fun _ => ?_
    | with_reducible refine Evolves.foldl ?_ fun _ _ => ?_ | with_reducible apply Evolves.ite
    | with_reducible apply EvolvesOut.next | with_reducible exact EvolvesOut.fault
    | with_reducible apply EvolvesOut.ite | with_reducible exact Evolves.idle _ | split
    | with_reducible apply Evolves.upd

theorem execGetMctpVersionSupport_ev {k : Bool} {l : List Area} {s : State}
    (m : Area.subset [] l = true) : EvolvesOut k l s (execGetMctpVersionSupport s) := by
  refine EvolvesOut.mono ?_ m
  unfold execGetMctpVersionSupport
  try dsimp only
  repeat'
    first
    | exact rfl | exact .inr rfl | exact .inl rfl | exact Nat.le_refl _ | exact Nat.le_add_right _ _ | exact .refl _ | exact fun h => h
    | with_reducible exact Evolves.refl _ _ | with_reducible refine State.answer_ev (fun _ => ?_) fun _ => ?_
    | with_reducible refine Evolves.foldl ?_ fun _ _ => ?_ | with_reducible apply Evolves.ite
    | with_reducible apply EvolvesOut.next | with_reducible exact EvolvesOut.fault
    | with_reducible apply EvolvesOut.ite | with_reducible exact Evolves.idle _ | split
    | with_reducible apply Evolves.upd

theorem execGetMessageTypeSupport_ev {k : Bool} {l : List Area} {s : State}
    (m : Area.subset [] l = true) : EvolvesOut k l s (execGetMessageTypeSupport s) := by
  refine EvolvesOut.mono ?_ m
  unfold execGetMessageTypeSupport
  try dsimp only
  repeat'
    first
    | exact rfl | exact .inr rfl | exact .inl rfl | exact Nat.le_refl _ | exact Nat.le_add_right _ _ | exact .refl _ | exact fun h => h
    | with_reducible exact Evolves.refl _ _ | with_reducible refine State.answer_ev (fun _ => ?_) fun _ => ?_
    | with_reducible refine Evolves.foldl ?_ fun _ _ => ?_ | with_reducible apply Evolves.ite
    | with_reducible apply EvolvesOut.next | with_reducible exact EvolvesOut.fault
    | with_reducible apply EvolvesOut.ite | with_reducible exact Evolves.idle _ | split
    | with_reducible apply Evolves.upd

theorem execGetStatus_ev {k : Bool} {l : List Area} {s : State}
    (m : Area.subset [.pins] l = true) : EvolvesOut k l s (execGetStatus s) := by
  refine EvolvesOut.mono ?_ m
  unfold execGetStatus
  try dsimp only
  repeat'
    first
    | exact rfl | exact .inr rfl | exact .inl rfl | exact Nat.le_refl _ | exact Nat.le_add_right _ _ | exact .refl _ | exact fun h => h
    | with_reducible exact Evolves.refl _ _ | with_reducible refine State.answer_ev (fun _ => ?_) fun _ => ?_
    | with_reducible refine Evolves.foldl ?_ fun _ _ => ?_ | with_reducible apply Evolves.ite
    | with_reducible apply EvolvesOut.next | with_reducible exact EvolvesOut.fault
    | with_reducible apply EvolvesOut.ite | with_reducible exact Evolves.idle _ | split
    | with_reducible apply Evolves.upd

theorem execReadSensors_ev {k : Bool} {l : List Area} {s : State} {kind : Nat} {first : Nat} {count : Nat}
    (m : Area.subset [] l = true) : EvolvesOut k l s (execReadSensors kind first count s) := by
  refine EvolvesOut.mono ?_ m
  unfold execReadSensors
  try dsimp only
  repeat'
    first
    | exact rfl | exact .inr rfl | exact .inl rfl | exact Nat.le_refl _ | exact Nat.le_add_right _ _ | exact .refl _ | exact fun h => h
    | with_reducible exact Evolves.refl _ _ | with_reducible refine State.answer_ev (fun _ => ?_) fun _ => ?_
    | with_reducible refine Evolves.foldl ?_ fun _ _ => ?_ | with_reducible apply Evolves.ite
    | with_reducible apply EvolvesOut.next | with_reducible exact EvolvesOut.fault
    | with_reducible apply EvolvesOut.ite | with_reducible exact Evolves.idle _ | split
    | with_reducible apply Evolves.upd

theorem execReadCt_ev {k : Bool} {l : List Area} {s : State} {offset : Nat} {length : Nat}
    (m : Area.subset [] l = true) : EvolvesOut k l s (execReadCt offset length s) := by
  refine EvolvesOut.mono ?_ m
  unfold execReadCt
  try dsimp only
  repeat'
    first
    | exact rfl | exact .inr rfl | exact .inl rfl | exact Nat.le_refl _ | exact Nat.le_add_right _ _ | exact .refl _ | exact fun h => h
    | with_reducible exact Evolves.refl _ _ | with_reducible refine State.answer_ev (fun _ => ?_) fun _ => ?_
    | with_reducible refine Evolves.foldl ?_ fun _ _ => ?_ | with_reducible apply Evolves.ite
    | with_reducible apply EvolvesOut.next | with_reducible exact EvolvesOut.fault
    | with_reducible apply EvolvesOut.ite | with_reducible exact Evolves.idle _ | split
    | with_reducible apply Evolves.upd

theorem execSetPwrLimit_ev {k : Bool} {l : List Area} {s : State} {watts : Nat}
    (m : Area.subset [.power] l = true) : EvolvesOut k l s (execSetPwrLimit watts s) := by
  refine EvolvesOut.mono ?_ m
  unfold execSetPwrLimit
  try dsimp only
  repeat'
    first
    | exact rfl | exact .inr rfl | exact .inl rfl | exact Nat.le_refl _ | exact Nat.le_add_right _ _ | exact .refl _ | exact fun h => h
    | with_reducible exact Evolves.refl _ _ | with_reducible refine State.answer_ev (fun _ => ?_) fun _ => ?_
    | with_reducible refine Evolves.foldl ?_ fun _ _ => ?_ | with_reducible apply Evolves.ite
    | with_reducible apply EvolvesOut.next | with_reducible exact EvolvesOut.fault
    | with_reducible apply EvolvesOut.ite | with_reducible exact Evolves.idle _ | split
    | with_reducible apply Evolves.upd

theorem execReadLog_ev {k : Bool} {l : List Area} {s : State} {region : Nat} {index : Nat}
    (m : Area.subset [] l = true) : EvolvesOut k l s (execReadLog region index s) := by
  refine EvolvesOut.mono ?_ m
  unfold execReadLog
  try dsimp only
  repeat'
    first
    | exact rfl | exact .inr rfl | exact .inl rfl | exact Nat.le_refl _ | exact Nat.le_add_right _ _ | exact .refl _ | exact fun h => h
    | with_reducible exact Evolves.refl _ _ | with_reducible refine State.answer_ev (fun _ => ?_) fun _ => ?_
    | with_reducible refine Evolves.foldl ?_ fun _ _ => ?_ | with_reducible apply Evolves.ite
    | with_reducible apply EvolvesOut.next | with_reducible exact EvolvesOut.fault
    | with_reducible apply EvolvesOut.ite | with_reducible exact Evolves.idle _ | split
    | with_reducible apply Evolves.upd

theorem execLogStatus_ev {k : Bool} {l : List Area} {s : State}
    (m : Area.subset [] l = true) : EvolvesOut k l s (execLogStatus s) := by
  refine EvolvesOut.mono ?_ m
  unfold execLogStatus
  try dsimp only
  repeat'
    first
    | exact rfl | exact .inr rfl | exact .inl rfl | exact Nat.le_refl _ | exact Nat.le_add_right _ _ | exact .refl _ | exact fun h => h
    | with_reducible exact Evolves.refl _ _ | with_reducible refine State.answer_ev (fun _ => ?_) fun _ => ?_
    | with_reducible refine Evolves.foldl ?_ fun _ _ => ?_ | with_reducible apply Evolves.ite
    | with_reducible apply EvolvesOut.next | with_reducible exact EvolvesOut.fault
    | with_reducible apply EvolvesOut.ite | with_reducible exact Evolves.idle _ | split
    | with_reducible apply Evolves.upd

end Sys2Proof.Machine
end

