-- ==== Sys2Proof/Laws/State.lean ====
section
/-! SUPPORT. What the updates of State leave and what they change, field by field, so that no proof unfolds a record update. -/

set_option Elab.async false
namespace Sys2Proof.Machine

/-! ### updFn -/

@[simp] theorem State.updFn_same (s : State) (i : Nat) (g : Func → Func) : (s.updFn i g).fn i = g (s.fn i) := Tbl.get_upd_same _ _ _ _
@[simp] theorem State.updFn_ne (s : State) (i : Nat) (g : Func → Func) {j : Nat} (h : j ≠ i) : (s.updFn i g).fn j = s.fn j := Tbl.get_upd_ne _ _ _ h
theorem State.updFn_at (s : State) (i : Nat) (g : Func → Func) (j : Nat) : (s.updFn i g).fn j = if j = i then g (s.fn i) else s.fn j := by
  by_cases h : j = i <;> simp [h]
@[simp] theorem State.updFn_pending (s : State) (i : Nat) (g : Func → Func) : (s.updFn i g).pending = s.pending := rfl
@[simp] theorem State.updFn_free (s : State) (i : Nat) (g : Func → Func) : (s.updFn i g).free = s.free := rfl
@[simp] theorem State.updFn_out (s : State) (i : Nat) (g : Func → Func) : (s.updFn i g).out = s.out := rfl
@[simp] theorem State.updFn_part (s : State) (i : Nat) (g : Func → Func) : (s.updFn i g).part = s.part := rfl
@[simp] theorem State.updFn_pins (s : State) (i : Nat) (g : Func → Func) : (s.updFn i g).pins = s.pins := rfl
@[simp] theorem State.updFn_tap (s : State) (i : Nat) (g : Func → Func) : (s.updFn i g).tap = s.tap := rfl
@[simp] theorem State.updFn_time (s : State) (i : Nat) (g : Func → Func) : (s.updFn i g).time = s.time := rfl
@[simp] theorem State.updFn_hub (s : State) (i : Nat) (g : Func → Func) : (s.updFn i g).hub = s.hub := rfl
@[simp] theorem State.updFn_hostMem (s : State) (i : Nat) (g : Func → Func) : (s.updFn i g).hostMem = s.hostMem := rfl
@[simp] theorem State.updFn_vfEnable (s : State) (i : Nat) (g : Func → Func) : (s.updFn i g).vfEnable = s.vfEnable := rfl
@[simp] theorem State.updFn_numVfs (s : State) (i : Nat) (g : Func → Func) : (s.updFn i g).numVfs = s.numVfs := rfl
@[simp] theorem State.updFn_msix (s : State) (i : Nat) (g : Func → Func) : (s.updFn i g).msix = s.msix := rfl
@[simp] theorem State.updFn_msixEnable (s : State) (i : Nat) (g : Func → Func) : (s.updFn i g).msixEnable = s.msixEnable := rfl
@[simp] theorem State.updFn_msixMask (s : State) (i : Nat) (g : Func → Func) : (s.updFn i g).msixMask = s.msixMask := rfl
@[simp] theorem State.updFn_windows (s : State) (i : Nat) (g : Func → Func) : (s.updFn i g).windows = s.windows := rfl
@[simp] theorem State.updFn_parts (s : State) (i : Nat) (g : Func → Func) : (s.updFn i g).parts = s.parts := rfl
@[simp] theorem State.updFn_tokens (s : State) (i : Nat) (g : Func → Func) : (s.updFn i g).tokens = s.tokens := rfl
@[simp] theorem State.updFn_sluWindow (s : State) (i : Nat) (g : Func → Func) : (s.updFn i g).sluWindow = s.sluWindow := rfl
@[simp] theorem State.updFn_ctxs (s : State) (i : Nat) (g : Func → Func) : (s.updFn i g).ctxs = s.ctxs := rfl
@[simp] theorem State.updFn_trans (s : State) (i : Nat) (g : Func → Func) : (s.updFn i g).trans = s.trans := rfl
@[simp] theorem State.updFn_tlb (s : State) (i : Nat) (g : Func → Func) : (s.updFn i g).tlb = s.tlb := rfl
@[simp] theorem State.updFn_fences (s : State) (i : Nat) (g : Func → Func) : (s.updFn i g).fences = s.fences := rfl
@[simp] theorem State.updFn_fenceFresh (s : State) (i : Nat) (g : Func → Func) : (s.updFn i g).fenceFresh = s.fenceFresh := rfl
@[simp] theorem State.updFn_fenceFreed (s : State) (i : Nat) (g : Func → Func) : (s.updFn i g).fenceFreed = s.fenceFreed := rfl
@[simp] theorem State.updFn_fenceLower (s : State) (i : Nat) (g : Func → Func) : (s.updFn i g).fenceLower = s.fenceLower := rfl
@[simp] theorem State.updFn_remoteDrop (s : State) (i : Nat) (g : Func → Func) : (s.updFn i g).remoteDrop = s.remoteDrop := rfl
@[simp] theorem State.updFn_rings (s : State) (i : Nat) (g : Func → Func) : (s.updFn i g).rings = s.rings := rfl
@[simp] theorem State.updFn_ringTaken (s : State) (i : Nat) (g : Func → Func) : (s.updFn i g).ringTaken = s.ringTaken := rfl
@[simp] theorem State.updFn_ringTakenLc (s : State) (i : Nat) (g : Func → Func) : (s.updFn i g).ringTakenLc = s.ringTakenLc := rfl
@[simp] theorem State.updFn_objs (s : State) (i : Nat) (g : Func → Func) : (s.updFn i g).objs = s.objs := rfl
@[simp] theorem State.updFn_nextObj (s : State) (i : Nat) (g : Func → Func) : (s.updFn i g).nextObj = s.nextObj := rfl
@[simp] theorem State.updFn_hbm (s : State) (i : Nat) (g : Func → Func) : (s.updFn i g).hbm = s.hbm := rfl
@[simp] theorem State.updFn_chip (s : State) (i : Nat) (g : Func → Func) : (s.updFn i g).chip = s.chip := rfl
@[simp] theorem State.updFn_pans (s : State) (i : Nat) (g : Func → Func) : (s.updFn i g).pans = s.pans := rfl
@[simp] theorem State.updFn_units (s : State) (i : Nat) (g : Func → Func) : (s.updFn i g).units = s.units := rfl
@[simp] theorem State.updFn_clusters (s : State) (i : Nat) (g : Func → Func) : (s.updFn i g).clusters = s.clusters := rfl
@[simp] theorem State.updFn_power (s : State) (i : Nat) (g : Func → Func) : (s.updFn i g).power = s.power := rfl
@[simp] theorem State.updFn_log (s : State) (i : Nat) (g : Func → Func) : (s.updFn i g).log = s.log := rfl
@[simp] theorem State.updFn_telem (s : State) (i : Nat) (g : Func → Func) : (s.updFn i g).telem = s.telem := rfl
@[simp] theorem State.updFn_secs (s : State) (i : Nat) (g : Func → Func) : (s.updFn i g).secs = s.secs := rfl
@[simp] theorem State.updFn_nextSec (s : State) (i : Nat) (g : Func → Func) : (s.updFn i g).nextSec = s.nextSec := rfl
@[simp] theorem State.updFn_cmds (s : State) (i : Nat) (g : Func → Func) : (s.updFn i g).cmds = s.cmds := rfl
@[simp] theorem State.updFn_replays (s : State) (i : Nat) (g : Func → Func) : (s.updFn i g).replays = s.replays := rfl
@[simp] theorem State.updFn_scanSet (s : State) (i : Nat) (g : Func → Func) : (s.updFn i g).scanSet = s.scanSet := rfl
@[simp] theorem State.updFn_hzn (s : State) (i : Nat) (g : Func → Func) : (s.updFn i g).hzn = s.hzn := rfl
@[simp] theorem State.updFn_svcs (s : State) (i : Nat) (g : Func → Func) : (s.updFn i g).svcs = s.svcs := rfl
@[simp] theorem State.updFn_sessions (s : State) (i : Nat) (g : Func → Func) : (s.updFn i g).sessions = s.sessions := rfl
@[simp] theorem State.updFn_nextSession (s : State) (i : Nat) (g : Func → Func) : (s.updFn i g).nextSession = s.nextSession := rfl
@[simp] theorem State.updFn_xparts (s : State) (i : Nat) (g : Func → Func) : (s.updFn i g).xparts = s.xparts := rfl
@[simp] theorem State.updFn_loader (s : State) (i : Nat) (g : Func → Func) : (s.updFn i g).loader = s.loader := rfl
@[simp] theorem State.updFn_invals (s : State) (i : Nat) (g : Func → Func) : (s.updFn i g).invals = s.invals := rfl
@[simp] theorem State.updFn_atsInvals (s : State) (i : Nat) (g : Func → Func) : (s.updFn i g).atsInvals = s.atsInvals := rfl
@[simp] theorem State.updFn_eid (s : State) (i : Nat) (g : Func → Func) : (s.updFn i g).eid = s.eid := rfl
@[simp] theorem State.updFn_cx (s : State) (i : Nat) (g : Func → Func) (j : Nat) : (s.updFn i g).cx j = s.cx j := rfl
@[simp] theorem State.updFn_pt (s : State) (i : Nat) (g : Func → Func) (j : Nat) : (s.updFn i g).pt j = s.pt j := rfl
@[simp] theorem State.updFn_cl (s : State) (i : Nat) (g : Func → Func) (j : Nat) : (s.updFn i g).cl j = s.cl j := rfl
@[simp] theorem State.updFn_rg (s : State) (i : Nat) (g : Func → Func) (j : Nat) : (s.updFn i g).rg j = s.rg j := rfl
@[simp] theorem State.updFn_sec (s : State) (i : Nat) (g : Func → Func) (j : Nat) : (s.updFn i g).sec j = s.sec j := rfl
@[simp] theorem State.updFn_fe (s : State) (i : Nat) (g : Func → Func) (j : Nat) : (s.updFn i g).fe j = s.fe j := rfl
@[simp] theorem State.updFn_ob (s : State) (i : Nat) (g : Func → Func) (j : Nat) : (s.updFn i g).ob j = s.ob j := rfl
@[simp] theorem State.updFn_pan (s : State) (i : Nat) (g : Func → Func) (j : Nat) : (s.updFn i g).pan j = s.pan j := rfl
@[simp] theorem State.updFn_un (s : State) (i : Nat) (g : Func → Func) (j : Nat) : (s.updFn i g).un j = s.un j := rfl
@[simp] theorem State.updFn_stk (s : State) (i : Nat) (g : Func → Func) (j : Nat) : (s.updFn i g).stk j = s.stk j := rfl
@[simp] theorem State.updFn_port (s : State) (i : Nat) (g : Func → Func) (j : Nat) : (s.updFn i g).port j = s.port j := rfl
@[simp] theorem State.updFn_xp (s : State) (i : Nat) (g : Func → Func) (j : Nat) : (s.updFn i g).xp j = s.xp j := rfl
@[simp] theorem State.updFn_svc (s : State) (i : Nat) (g : Func → Func) (j : Nat) : (s.updFn i g).svc j = s.svc j := rfl
@[simp] theorem State.updFn_hubUp (s : State) (i : Nat) (g : Func → Func) : (s.updFn i g).hubUp = s.hubUp := rfl
@[simp] theorem State.updFn_ready (s : State) (i : Nat) (g : Func → Func) : (s.updFn i g).ready = s.ready := rfl
@[simp] theorem State.updFn_clPresent (s : State) (i : Nat) (g : Func → Func) (c : Nat) : (s.updFn i g).clPresent c = s.clPresent c := rfl
@[simp] theorem State.updFn_funcExists (s : State) (i : Nat) (g : Func → Func) (j : Nat) : (s.updFn i g).funcExists j = s.funcExists j := rfl
@[simp] theorem State.updFn_partPresent (s : State) (i : Nat) (g : Func → Func) (p : Nat) : (s.updFn i g).partPresent p = s.partPresent p := rfl
@[simp] theorem State.updFn_portPresent (s : State) (i : Nat) (g : Func → Func) (p : Nat) : (s.updFn i g).portPresent p = s.portPresent p := rfl
@[simp] theorem State.updFn_stackFitted (s : State) (i : Nat) (g : Func → Func) (k : Nat) : (s.updFn i g).stackFitted k = s.stackFitted k := rfl

/-! ### updCx -/

@[simp] theorem State.updCx_same (s : State) (i : Nat) (g : Ctx → Ctx) : (s.updCx i g).cx i = g (s.cx i) := Tbl.get_upd_same _ _ _ _
@[simp] theorem State.updCx_ne (s : State) (i : Nat) (g : Ctx → Ctx) {j : Nat} (h : j ≠ i) : (s.updCx i g).cx j = s.cx j := Tbl.get_upd_ne _ _ _ h
theorem State.updCx_at (s : State) (i : Nat) (g : Ctx → Ctx) (j : Nat) : (s.updCx i g).cx j = if j = i then g (s.cx i) else s.cx j := by
  by_cases h : j = i <;> simp [h]
@[simp] theorem State.updCx_pending (s : State) (i : Nat) (g : Ctx → Ctx) : (s.updCx i g).pending = s.pending := rfl
@[simp] theorem State.updCx_free (s : State) (i : Nat) (g : Ctx → Ctx) : (s.updCx i g).free = s.free := rfl
@[simp] theorem State.updCx_out (s : State) (i : Nat) (g : Ctx → Ctx) : (s.updCx i g).out = s.out := rfl
@[simp] theorem State.updCx_part (s : State) (i : Nat) (g : Ctx → Ctx) : (s.updCx i g).part = s.part := rfl
@[simp] theorem State.updCx_pins (s : State) (i : Nat) (g : Ctx → Ctx) : (s.updCx i g).pins = s.pins := rfl
@[simp] theorem State.updCx_tap (s : State) (i : Nat) (g : Ctx → Ctx) : (s.updCx i g).tap = s.tap := rfl
@[simp] theorem State.updCx_time (s : State) (i : Nat) (g : Ctx → Ctx) : (s.updCx i g).time = s.time := rfl
@[simp] theorem State.updCx_hub (s : State) (i : Nat) (g : Ctx → Ctx) : (s.updCx i g).hub = s.hub := rfl
@[simp] theorem State.updCx_hostMem (s : State) (i : Nat) (g : Ctx → Ctx) : (s.updCx i g).hostMem = s.hostMem := rfl
@[simp] theorem State.updCx_vfEnable (s : State) (i : Nat) (g : Ctx → Ctx) : (s.updCx i g).vfEnable = s.vfEnable := rfl
@[simp] theorem State.updCx_numVfs (s : State) (i : Nat) (g : Ctx → Ctx) : (s.updCx i g).numVfs = s.numVfs := rfl
@[simp] theorem State.updCx_funcs (s : State) (i : Nat) (g : Ctx → Ctx) : (s.updCx i g).funcs = s.funcs := rfl
@[simp] theorem State.updCx_msix (s : State) (i : Nat) (g : Ctx → Ctx) : (s.updCx i g).msix = s.msix := rfl
@[simp] theorem State.updCx_msixEnable (s : State) (i : Nat) (g : Ctx → Ctx) : (s.updCx i g).msixEnable = s.msixEnable := rfl
@[simp] theorem State.updCx_msixMask (s : State) (i : Nat) (g : Ctx → Ctx) : (s.updCx i g).msixMask = s.msixMask := rfl
@[simp] theorem State.updCx_windows (s : State) (i : Nat) (g : Ctx → Ctx) : (s.updCx i g).windows = s.windows := rfl
@[simp] theorem State.updCx_parts (s : State) (i : Nat) (g : Ctx → Ctx) : (s.updCx i g).parts = s.parts := rfl
@[simp] theorem State.updCx_tokens (s : State) (i : Nat) (g : Ctx → Ctx) : (s.updCx i g).tokens = s.tokens := rfl
@[simp] theorem State.updCx_sluWindow (s : State) (i : Nat) (g : Ctx → Ctx) : (s.updCx i g).sluWindow = s.sluWindow := rfl
@[simp] theorem State.updCx_trans (s : State) (i : Nat) (g : Ctx → Ctx) : (s.updCx i g).trans = s.trans := rfl
@[simp] theorem State.updCx_tlb (s : State) (i : Nat) (g : Ctx → Ctx) : (s.updCx i g).tlb = s.tlb := rfl
@[simp] theorem State.updCx_fences (s : State) (i : Nat) (g : Ctx → Ctx) : (s.updCx i g).fences = s.fences := rfl
@[simp] theorem State.updCx_fenceFresh (s : State) (i : Nat) (g : Ctx → Ctx) : (s.updCx i g).fenceFresh = s.fenceFresh := rfl
@[simp] theorem State.updCx_fenceFreed (s : State) (i : Nat) (g : Ctx → Ctx) : (s.updCx i g).fenceFreed = s.fenceFreed := rfl
@[simp] theorem State.updCx_fenceLower (s : State) (i : Nat) (g : Ctx → Ctx) : (s.updCx i g).fenceLower = s.fenceLower := rfl
@[simp] theorem State.updCx_remoteDrop (s : State) (i : Nat) (g : Ctx → Ctx) : (s.updCx i g).remoteDrop = s.remoteDrop := rfl
@[simp] theorem State.updCx_rings (s : State) (i : Nat) (g : Ctx → Ctx) : (s.updCx i g).rings = s.rings := rfl
@[simp] theorem State.updCx_ringTaken (s : State) (i : Nat) (g : Ctx → Ctx) : (s.updCx i g).ringTaken = s.ringTaken := rfl
@[simp] theorem State.updCx_ringTakenLc (s : State) (i : Nat) (g : Ctx → Ctx) : (s.updCx i g).ringTakenLc = s.ringTakenLc := rfl
@[simp] theorem State.updCx_objs (s : State) (i : Nat) (g : Ctx → Ctx) : (s.updCx i g).objs = s.objs := rfl
@[simp] theorem State.updCx_nextObj (s : State) (i : Nat) (g : Ctx → Ctx) : (s.updCx i g).nextObj = s.nextObj := rfl
@[simp] theorem State.updCx_hbm (s : State) (i : Nat) (g : Ctx → Ctx) : (s.updCx i g).hbm = s.hbm := rfl
@[simp] theorem State.updCx_chip (s : State) (i : Nat) (g : Ctx → Ctx) : (s.updCx i g).chip = s.chip := rfl
@[simp] theorem State.updCx_pans (s : State) (i : Nat) (g : Ctx → Ctx) : (s.updCx i g).pans = s.pans := rfl
@[simp] theorem State.updCx_units (s : State) (i : Nat) (g : Ctx → Ctx) : (s.updCx i g).units = s.units := rfl
@[simp] theorem State.updCx_clusters (s : State) (i : Nat) (g : Ctx → Ctx) : (s.updCx i g).clusters = s.clusters := rfl
@[simp] theorem State.updCx_power (s : State) (i : Nat) (g : Ctx → Ctx) : (s.updCx i g).power = s.power := rfl
@[simp] theorem State.updCx_log (s : State) (i : Nat) (g : Ctx → Ctx) : (s.updCx i g).log = s.log := rfl
@[simp] theorem State.updCx_telem (s : State) (i : Nat) (g : Ctx → Ctx) : (s.updCx i g).telem = s.telem := rfl
@[simp] theorem State.updCx_secs (s : State) (i : Nat) (g : Ctx → Ctx) : (s.updCx i g).secs = s.secs := rfl
@[simp] theorem State.updCx_nextSec (s : State) (i : Nat) (g : Ctx → Ctx) : (s.updCx i g).nextSec = s.nextSec := rfl
@[simp] theorem State.updCx_cmds (s : State) (i : Nat) (g : Ctx → Ctx) : (s.updCx i g).cmds = s.cmds := rfl
@[simp] theorem State.updCx_replays (s : State) (i : Nat) (g : Ctx → Ctx) : (s.updCx i g).replays = s.replays := rfl
@[simp] theorem State.updCx_scanSet (s : State) (i : Nat) (g : Ctx → Ctx) : (s.updCx i g).scanSet = s.scanSet := rfl
@[simp] theorem State.updCx_hzn (s : State) (i : Nat) (g : Ctx → Ctx) : (s.updCx i g).hzn = s.hzn := rfl
@[simp] theorem State.updCx_svcs (s : State) (i : Nat) (g : Ctx → Ctx) : (s.updCx i g).svcs = s.svcs := rfl
@[simp] theorem State.updCx_sessions (s : State) (i : Nat) (g : Ctx → Ctx) : (s.updCx i g).sessions = s.sessions := rfl
@[simp] theorem State.updCx_nextSession (s : State) (i : Nat) (g : Ctx → Ctx) : (s.updCx i g).nextSession = s.nextSession := rfl
@[simp] theorem State.updCx_xparts (s : State) (i : Nat) (g : Ctx → Ctx) : (s.updCx i g).xparts = s.xparts := rfl
@[simp] theorem State.updCx_loader (s : State) (i : Nat) (g : Ctx → Ctx) : (s.updCx i g).loader = s.loader := rfl
@[simp] theorem State.updCx_invals (s : State) (i : Nat) (g : Ctx → Ctx) : (s.updCx i g).invals = s.invals := rfl
@[simp] theorem State.updCx_atsInvals (s : State) (i : Nat) (g : Ctx → Ctx) : (s.updCx i g).atsInvals = s.atsInvals := rfl
@[simp] theorem State.updCx_eid (s : State) (i : Nat) (g : Ctx → Ctx) : (s.updCx i g).eid = s.eid := rfl
@[simp] theorem State.updCx_fn (s : State) (i : Nat) (g : Ctx → Ctx) (j : Nat) : (s.updCx i g).fn j = s.fn j := rfl
@[simp] theorem State.updCx_pt (s : State) (i : Nat) (g : Ctx → Ctx) (j : Nat) : (s.updCx i g).pt j = s.pt j := rfl
@[simp] theorem State.updCx_cl (s : State) (i : Nat) (g : Ctx → Ctx) (j : Nat) : (s.updCx i g).cl j = s.cl j := rfl
@[simp] theorem State.updCx_rg (s : State) (i : Nat) (g : Ctx → Ctx) (j : Nat) : (s.updCx i g).rg j = s.rg j := rfl
@[simp] theorem State.updCx_sec (s : State) (i : Nat) (g : Ctx → Ctx) (j : Nat) : (s.updCx i g).sec j = s.sec j := rfl
@[simp] theorem State.updCx_fe (s : State) (i : Nat) (g : Ctx → Ctx) (j : Nat) : (s.updCx i g).fe j = s.fe j := rfl
@[simp] theorem State.updCx_ob (s : State) (i : Nat) (g : Ctx → Ctx) (j : Nat) : (s.updCx i g).ob j = s.ob j := rfl
@[simp] theorem State.updCx_pan (s : State) (i : Nat) (g : Ctx → Ctx) (j : Nat) : (s.updCx i g).pan j = s.pan j := rfl
@[simp] theorem State.updCx_un (s : State) (i : Nat) (g : Ctx → Ctx) (j : Nat) : (s.updCx i g).un j = s.un j := rfl
@[simp] theorem State.updCx_stk (s : State) (i : Nat) (g : Ctx → Ctx) (j : Nat) : (s.updCx i g).stk j = s.stk j := rfl
@[simp] theorem State.updCx_port (s : State) (i : Nat) (g : Ctx → Ctx) (j : Nat) : (s.updCx i g).port j = s.port j := rfl
@[simp] theorem State.updCx_xp (s : State) (i : Nat) (g : Ctx → Ctx) (j : Nat) : (s.updCx i g).xp j = s.xp j := rfl
@[simp] theorem State.updCx_svc (s : State) (i : Nat) (g : Ctx → Ctx) (j : Nat) : (s.updCx i g).svc j = s.svc j := rfl
@[simp] theorem State.updCx_hubUp (s : State) (i : Nat) (g : Ctx → Ctx) : (s.updCx i g).hubUp = s.hubUp := rfl
@[simp] theorem State.updCx_ready (s : State) (i : Nat) (g : Ctx → Ctx) : (s.updCx i g).ready = s.ready := rfl
@[simp] theorem State.updCx_clPresent (s : State) (i : Nat) (g : Ctx → Ctx) (c : Nat) : (s.updCx i g).clPresent c = s.clPresent c := rfl
@[simp] theorem State.updCx_funcExists (s : State) (i : Nat) (g : Ctx → Ctx) (j : Nat) : (s.updCx i g).funcExists j = s.funcExists j := rfl
@[simp] theorem State.updCx_partPresent (s : State) (i : Nat) (g : Ctx → Ctx) (p : Nat) : (s.updCx i g).partPresent p = s.partPresent p := rfl
@[simp] theorem State.updCx_portPresent (s : State) (i : Nat) (g : Ctx → Ctx) (p : Nat) : (s.updCx i g).portPresent p = s.portPresent p := rfl
@[simp] theorem State.updCx_stackFitted (s : State) (i : Nat) (g : Ctx → Ctx) (k : Nat) : (s.updCx i g).stackFitted k = s.stackFitted k := rfl

/-! ### updPt -/

@[simp] theorem State.updPt_same (s : State) (i : Nat) (g : Partition → Partition) : (s.updPt i g).pt i = g (s.pt i) := Tbl.get_upd_same _ _ _ _
@[simp] theorem State.updPt_ne (s : State) (i : Nat) (g : Partition → Partition) {j : Nat} (h : j ≠ i) : (s.updPt i g).pt j = s.pt j := Tbl.get_upd_ne _ _ _ h
theorem State.updPt_at (s : State) (i : Nat) (g : Partition → Partition) (j : Nat) : (s.updPt i g).pt j = if j = i then g (s.pt i) else s.pt j := by
  by_cases h : j = i <;> simp [h]
@[simp] theorem State.updPt_pending (s : State) (i : Nat) (g : Partition → Partition) : (s.updPt i g).pending = s.pending := rfl
@[simp] theorem State.updPt_free (s : State) (i : Nat) (g : Partition → Partition) : (s.updPt i g).free = s.free := rfl
@[simp] theorem State.updPt_out (s : State) (i : Nat) (g : Partition → Partition) : (s.updPt i g).out = s.out := rfl
@[simp] theorem State.updPt_part (s : State) (i : Nat) (g : Partition → Partition) : (s.updPt i g).part = s.part := rfl
@[simp] theorem State.updPt_pins (s : State) (i : Nat) (g : Partition → Partition) : (s.updPt i g).pins = s.pins := rfl
@[simp] theorem State.updPt_tap (s : State) (i : Nat) (g : Partition → Partition) : (s.updPt i g).tap = s.tap := rfl
@[simp] theorem State.updPt_time (s : State) (i : Nat) (g : Partition → Partition) : (s.updPt i g).time = s.time := rfl
@[simp] theorem State.updPt_hub (s : State) (i : Nat) (g : Partition → Partition) : (s.updPt i g).hub = s.hub := rfl
@[simp] theorem State.updPt_hostMem (s : State) (i : Nat) (g : Partition → Partition) : (s.updPt i g).hostMem = s.hostMem := rfl
@[simp] theorem State.updPt_vfEnable (s : State) (i : Nat) (g : Partition → Partition) : (s.updPt i g).vfEnable = s.vfEnable := rfl
@[simp] theorem State.updPt_numVfs (s : State) (i : Nat) (g : Partition → Partition) : (s.updPt i g).numVfs = s.numVfs := rfl
@[simp] theorem State.updPt_funcs (s : State) (i : Nat) (g : Partition → Partition) : (s.updPt i g).funcs = s.funcs := rfl
@[simp] theorem State.updPt_msix (s : State) (i : Nat) (g : Partition → Partition) : (s.updPt i g).msix = s.msix := rfl
@[simp] theorem State.updPt_msixEnable (s : State) (i : Nat) (g : Partition → Partition) : (s.updPt i g).msixEnable = s.msixEnable := rfl
@[simp] theorem State.updPt_msixMask (s : State) (i : Nat) (g : Partition → Partition) : (s.updPt i g).msixMask = s.msixMask := rfl
@[simp] theorem State.updPt_windows (s : State) (i : Nat) (g : Partition → Partition) : (s.updPt i g).windows = s.windows := rfl
@[simp] theorem State.updPt_tokens (s : State) (i : Nat) (g : Partition → Partition) : (s.updPt i g).tokens = s.tokens := rfl
@[simp] theorem State.updPt_sluWindow (s : State) (i : Nat) (g : Partition → Partition) : (s.updPt i g).sluWindow = s.sluWindow := rfl
@[simp] theorem State.updPt_ctxs (s : State) (i : Nat) (g : Partition → Partition) : (s.updPt i g).ctxs = s.ctxs := rfl
@[simp] theorem State.updPt_trans (s : State) (i : Nat) (g : Partition → Partition) : (s.updPt i g).trans = s.trans := rfl
@[simp] theorem State.updPt_tlb (s : State) (i : Nat) (g : Partition → Partition) : (s.updPt i g).tlb = s.tlb := rfl
@[simp] theorem State.updPt_fences (s : State) (i : Nat) (g : Partition → Partition) : (s.updPt i g).fences = s.fences := rfl
@[simp] theorem State.updPt_fenceFresh (s : State) (i : Nat) (g : Partition → Partition) : (s.updPt i g).fenceFresh = s.fenceFresh := rfl
@[simp] theorem State.updPt_fenceFreed (s : State) (i : Nat) (g : Partition → Partition) : (s.updPt i g).fenceFreed = s.fenceFreed := rfl
@[simp] theorem State.updPt_fenceLower (s : State) (i : Nat) (g : Partition → Partition) : (s.updPt i g).fenceLower = s.fenceLower := rfl
@[simp] theorem State.updPt_remoteDrop (s : State) (i : Nat) (g : Partition → Partition) : (s.updPt i g).remoteDrop = s.remoteDrop := rfl
@[simp] theorem State.updPt_rings (s : State) (i : Nat) (g : Partition → Partition) : (s.updPt i g).rings = s.rings := rfl
@[simp] theorem State.updPt_ringTaken (s : State) (i : Nat) (g : Partition → Partition) : (s.updPt i g).ringTaken = s.ringTaken := rfl
@[simp] theorem State.updPt_ringTakenLc (s : State) (i : Nat) (g : Partition → Partition) : (s.updPt i g).ringTakenLc = s.ringTakenLc := rfl
@[simp] theorem State.updPt_objs (s : State) (i : Nat) (g : Partition → Partition) : (s.updPt i g).objs = s.objs := rfl
@[simp] theorem State.updPt_nextObj (s : State) (i : Nat) (g : Partition → Partition) : (s.updPt i g).nextObj = s.nextObj := rfl
@[simp] theorem State.updPt_hbm (s : State) (i : Nat) (g : Partition → Partition) : (s.updPt i g).hbm = s.hbm := rfl
@[simp] theorem State.updPt_chip (s : State) (i : Nat) (g : Partition → Partition) : (s.updPt i g).chip = s.chip := rfl
@[simp] theorem State.updPt_pans (s : State) (i : Nat) (g : Partition → Partition) : (s.updPt i g).pans = s.pans := rfl
@[simp] theorem State.updPt_units (s : State) (i : Nat) (g : Partition → Partition) : (s.updPt i g).units = s.units := rfl
@[simp] theorem State.updPt_clusters (s : State) (i : Nat) (g : Partition → Partition) : (s.updPt i g).clusters = s.clusters := rfl
@[simp] theorem State.updPt_power (s : State) (i : Nat) (g : Partition → Partition) : (s.updPt i g).power = s.power := rfl
@[simp] theorem State.updPt_log (s : State) (i : Nat) (g : Partition → Partition) : (s.updPt i g).log = s.log := rfl
@[simp] theorem State.updPt_telem (s : State) (i : Nat) (g : Partition → Partition) : (s.updPt i g).telem = s.telem := rfl
@[simp] theorem State.updPt_secs (s : State) (i : Nat) (g : Partition → Partition) : (s.updPt i g).secs = s.secs := rfl
@[simp] theorem State.updPt_nextSec (s : State) (i : Nat) (g : Partition → Partition) : (s.updPt i g).nextSec = s.nextSec := rfl
@[simp] theorem State.updPt_cmds (s : State) (i : Nat) (g : Partition → Partition) : (s.updPt i g).cmds = s.cmds := rfl
@[simp] theorem State.updPt_replays (s : State) (i : Nat) (g : Partition → Partition) : (s.updPt i g).replays = s.replays := rfl
@[simp] theorem State.updPt_scanSet (s : State) (i : Nat) (g : Partition → Partition) : (s.updPt i g).scanSet = s.scanSet := rfl
@[simp] theorem State.updPt_hzn (s : State) (i : Nat) (g : Partition → Partition) : (s.updPt i g).hzn = s.hzn := rfl
@[simp] theorem State.updPt_svcs (s : State) (i : Nat) (g : Partition → Partition) : (s.updPt i g).svcs = s.svcs := rfl
@[simp] theorem State.updPt_sessions (s : State) (i : Nat) (g : Partition → Partition) : (s.updPt i g).sessions = s.sessions := rfl
@[simp] theorem State.updPt_nextSession (s : State) (i : Nat) (g : Partition → Partition) : (s.updPt i g).nextSession = s.nextSession := rfl
@[simp] theorem State.updPt_xparts (s : State) (i : Nat) (g : Partition → Partition) : (s.updPt i g).xparts = s.xparts := rfl
@[simp] theorem State.updPt_loader (s : State) (i : Nat) (g : Partition → Partition) : (s.updPt i g).loader = s.loader := rfl
@[simp] theorem State.updPt_invals (s : State) (i : Nat) (g : Partition → Partition) : (s.updPt i g).invals = s.invals := rfl
@[simp] theorem State.updPt_atsInvals (s : State) (i : Nat) (g : Partition → Partition) : (s.updPt i g).atsInvals = s.atsInvals := rfl
@[simp] theorem State.updPt_eid (s : State) (i : Nat) (g : Partition → Partition) : (s.updPt i g).eid = s.eid := rfl
@[simp] theorem State.updPt_fn (s : State) (i : Nat) (g : Partition → Partition) (j : Nat) : (s.updPt i g).fn j = s.fn j := rfl
@[simp] theorem State.updPt_cx (s : State) (i : Nat) (g : Partition → Partition) (j : Nat) : (s.updPt i g).cx j = s.cx j := rfl
@[simp] theorem State.updPt_cl (s : State) (i : Nat) (g : Partition → Partition) (j : Nat) : (s.updPt i g).cl j = s.cl j := rfl
@[simp] theorem State.updPt_rg (s : State) (i : Nat) (g : Partition → Partition) (j : Nat) : (s.updPt i g).rg j = s.rg j := rfl
@[simp] theorem State.updPt_sec (s : State) (i : Nat) (g : Partition → Partition) (j : Nat) : (s.updPt i g).sec j = s.sec j := rfl
@[simp] theorem State.updPt_fe (s : State) (i : Nat) (g : Partition → Partition) (j : Nat) : (s.updPt i g).fe j = s.fe j := rfl
@[simp] theorem State.updPt_ob (s : State) (i : Nat) (g : Partition → Partition) (j : Nat) : (s.updPt i g).ob j = s.ob j := rfl
@[simp] theorem State.updPt_pan (s : State) (i : Nat) (g : Partition → Partition) (j : Nat) : (s.updPt i g).pan j = s.pan j := rfl
@[simp] theorem State.updPt_un (s : State) (i : Nat) (g : Partition → Partition) (j : Nat) : (s.updPt i g).un j = s.un j := rfl
@[simp] theorem State.updPt_stk (s : State) (i : Nat) (g : Partition → Partition) (j : Nat) : (s.updPt i g).stk j = s.stk j := rfl
@[simp] theorem State.updPt_port (s : State) (i : Nat) (g : Partition → Partition) (j : Nat) : (s.updPt i g).port j = s.port j := rfl
@[simp] theorem State.updPt_xp (s : State) (i : Nat) (g : Partition → Partition) (j : Nat) : (s.updPt i g).xp j = s.xp j := rfl
@[simp] theorem State.updPt_svc (s : State) (i : Nat) (g : Partition → Partition) (j : Nat) : (s.updPt i g).svc j = s.svc j := rfl
@[simp] theorem State.updPt_hubUp (s : State) (i : Nat) (g : Partition → Partition) : (s.updPt i g).hubUp = s.hubUp := rfl
@[simp] theorem State.updPt_ready (s : State) (i : Nat) (g : Partition → Partition) : (s.updPt i g).ready = s.ready := rfl
@[simp] theorem State.updPt_clPresent (s : State) (i : Nat) (g : Partition → Partition) (c : Nat) : (s.updPt i g).clPresent c = s.clPresent c := rfl
@[simp] theorem State.updPt_funcExists (s : State) (i : Nat) (g : Partition → Partition) (j : Nat) : (s.updPt i g).funcExists j = s.funcExists j := rfl
@[simp] theorem State.updPt_partPresent (s : State) (i : Nat) (g : Partition → Partition) (p : Nat) : (s.updPt i g).partPresent p = s.partPresent p := rfl
@[simp] theorem State.updPt_portPresent (s : State) (i : Nat) (g : Partition → Partition) (p : Nat) : (s.updPt i g).portPresent p = s.portPresent p := rfl
@[simp] theorem State.updPt_stackFitted (s : State) (i : Nat) (g : Partition → Partition) (k : Nat) : (s.updPt i g).stackFitted k = s.stackFitted k := rfl

/-! ### updCl -/

@[simp] theorem State.updCl_same (s : State) (i : Nat) (g : Cluster → Cluster) : (s.updCl i g).cl i = g (s.cl i) := Tbl.get_upd_same _ _ _ _
@[simp] theorem State.updCl_ne (s : State) (i : Nat) (g : Cluster → Cluster) {j : Nat} (h : j ≠ i) : (s.updCl i g).cl j = s.cl j := Tbl.get_upd_ne _ _ _ h
theorem State.updCl_at (s : State) (i : Nat) (g : Cluster → Cluster) (j : Nat) : (s.updCl i g).cl j = if j = i then g (s.cl i) else s.cl j := by
  by_cases h : j = i <;> simp [h]
@[simp] theorem State.updCl_pending (s : State) (i : Nat) (g : Cluster → Cluster) : (s.updCl i g).pending = s.pending := rfl
@[simp] theorem State.updCl_free (s : State) (i : Nat) (g : Cluster → Cluster) : (s.updCl i g).free = s.free := rfl
@[simp] theorem State.updCl_out (s : State) (i : Nat) (g : Cluster → Cluster) : (s.updCl i g).out = s.out := rfl
@[simp] theorem State.updCl_part (s : State) (i : Nat) (g : Cluster → Cluster) : (s.updCl i g).part = s.part := rfl
@[simp] theorem State.updCl_pins (s : State) (i : Nat) (g : Cluster → Cluster) : (s.updCl i g).pins = s.pins := rfl
@[simp] theorem State.updCl_tap (s : State) (i : Nat) (g : Cluster → Cluster) : (s.updCl i g).tap = s.tap := rfl
@[simp] theorem State.updCl_time (s : State) (i : Nat) (g : Cluster → Cluster) : (s.updCl i g).time = s.time := rfl
@[simp] theorem State.updCl_hub (s : State) (i : Nat) (g : Cluster → Cluster) : (s.updCl i g).hub = s.hub := rfl
@[simp] theorem State.updCl_hostMem (s : State) (i : Nat) (g : Cluster → Cluster) : (s.updCl i g).hostMem = s.hostMem := rfl
@[simp] theorem State.updCl_vfEnable (s : State) (i : Nat) (g : Cluster → Cluster) : (s.updCl i g).vfEnable = s.vfEnable := rfl
@[simp] theorem State.updCl_numVfs (s : State) (i : Nat) (g : Cluster → Cluster) : (s.updCl i g).numVfs = s.numVfs := rfl
@[simp] theorem State.updCl_funcs (s : State) (i : Nat) (g : Cluster → Cluster) : (s.updCl i g).funcs = s.funcs := rfl
@[simp] theorem State.updCl_msix (s : State) (i : Nat) (g : Cluster → Cluster) : (s.updCl i g).msix = s.msix := rfl
@[simp] theorem State.updCl_msixEnable (s : State) (i : Nat) (g : Cluster → Cluster) : (s.updCl i g).msixEnable = s.msixEnable := rfl
@[simp] theorem State.updCl_msixMask (s : State) (i : Nat) (g : Cluster → Cluster) : (s.updCl i g).msixMask = s.msixMask := rfl
@[simp] theorem State.updCl_windows (s : State) (i : Nat) (g : Cluster → Cluster) : (s.updCl i g).windows = s.windows := rfl
@[simp] theorem State.updCl_parts (s : State) (i : Nat) (g : Cluster → Cluster) : (s.updCl i g).parts = s.parts := rfl
@[simp] theorem State.updCl_tokens (s : State) (i : Nat) (g : Cluster → Cluster) : (s.updCl i g).tokens = s.tokens := rfl
@[simp] theorem State.updCl_sluWindow (s : State) (i : Nat) (g : Cluster → Cluster) : (s.updCl i g).sluWindow = s.sluWindow := rfl
@[simp] theorem State.updCl_ctxs (s : State) (i : Nat) (g : Cluster → Cluster) : (s.updCl i g).ctxs = s.ctxs := rfl
@[simp] theorem State.updCl_trans (s : State) (i : Nat) (g : Cluster → Cluster) : (s.updCl i g).trans = s.trans := rfl
@[simp] theorem State.updCl_tlb (s : State) (i : Nat) (g : Cluster → Cluster) : (s.updCl i g).tlb = s.tlb := rfl
@[simp] theorem State.updCl_fences (s : State) (i : Nat) (g : Cluster → Cluster) : (s.updCl i g).fences = s.fences := rfl
@[simp] theorem State.updCl_fenceFresh (s : State) (i : Nat) (g : Cluster → Cluster) : (s.updCl i g).fenceFresh = s.fenceFresh := rfl
@[simp] theorem State.updCl_fenceFreed (s : State) (i : Nat) (g : Cluster → Cluster) : (s.updCl i g).fenceFreed = s.fenceFreed := rfl
@[simp] theorem State.updCl_fenceLower (s : State) (i : Nat) (g : Cluster → Cluster) : (s.updCl i g).fenceLower = s.fenceLower := rfl
@[simp] theorem State.updCl_remoteDrop (s : State) (i : Nat) (g : Cluster → Cluster) : (s.updCl i g).remoteDrop = s.remoteDrop := rfl
@[simp] theorem State.updCl_rings (s : State) (i : Nat) (g : Cluster → Cluster) : (s.updCl i g).rings = s.rings := rfl
@[simp] theorem State.updCl_ringTaken (s : State) (i : Nat) (g : Cluster → Cluster) : (s.updCl i g).ringTaken = s.ringTaken := rfl
@[simp] theorem State.updCl_ringTakenLc (s : State) (i : Nat) (g : Cluster → Cluster) : (s.updCl i g).ringTakenLc = s.ringTakenLc := rfl
@[simp] theorem State.updCl_objs (s : State) (i : Nat) (g : Cluster → Cluster) : (s.updCl i g).objs = s.objs := rfl
@[simp] theorem State.updCl_nextObj (s : State) (i : Nat) (g : Cluster → Cluster) : (s.updCl i g).nextObj = s.nextObj := rfl
@[simp] theorem State.updCl_hbm (s : State) (i : Nat) (g : Cluster → Cluster) : (s.updCl i g).hbm = s.hbm := rfl
@[simp] theorem State.updCl_chip (s : State) (i : Nat) (g : Cluster → Cluster) : (s.updCl i g).chip = s.chip := rfl
@[simp] theorem State.updCl_pans (s : State) (i : Nat) (g : Cluster → Cluster) : (s.updCl i g).pans = s.pans := rfl
@[simp] theorem State.updCl_units (s : State) (i : Nat) (g : Cluster → Cluster) : (s.updCl i g).units = s.units := rfl
@[simp] theorem State.updCl_power (s : State) (i : Nat) (g : Cluster → Cluster) : (s.updCl i g).power = s.power := rfl
@[simp] theorem State.updCl_log (s : State) (i : Nat) (g : Cluster → Cluster) : (s.updCl i g).log = s.log := rfl
@[simp] theorem State.updCl_telem (s : State) (i : Nat) (g : Cluster → Cluster) : (s.updCl i g).telem = s.telem := rfl
@[simp] theorem State.updCl_secs (s : State) (i : Nat) (g : Cluster → Cluster) : (s.updCl i g).secs = s.secs := rfl
@[simp] theorem State.updCl_nextSec (s : State) (i : Nat) (g : Cluster → Cluster) : (s.updCl i g).nextSec = s.nextSec := rfl
@[simp] theorem State.updCl_cmds (s : State) (i : Nat) (g : Cluster → Cluster) : (s.updCl i g).cmds = s.cmds := rfl
@[simp] theorem State.updCl_replays (s : State) (i : Nat) (g : Cluster → Cluster) : (s.updCl i g).replays = s.replays := rfl
@[simp] theorem State.updCl_scanSet (s : State) (i : Nat) (g : Cluster → Cluster) : (s.updCl i g).scanSet = s.scanSet := rfl
@[simp] theorem State.updCl_hzn (s : State) (i : Nat) (g : Cluster → Cluster) : (s.updCl i g).hzn = s.hzn := rfl
@[simp] theorem State.updCl_svcs (s : State) (i : Nat) (g : Cluster → Cluster) : (s.updCl i g).svcs = s.svcs := rfl
@[simp] theorem State.updCl_sessions (s : State) (i : Nat) (g : Cluster → Cluster) : (s.updCl i g).sessions = s.sessions := rfl
@[simp] theorem State.updCl_nextSession (s : State) (i : Nat) (g : Cluster → Cluster) : (s.updCl i g).nextSession = s.nextSession := rfl
@[simp] theorem State.updCl_xparts (s : State) (i : Nat) (g : Cluster → Cluster) : (s.updCl i g).xparts = s.xparts := rfl
@[simp] theorem State.updCl_loader (s : State) (i : Nat) (g : Cluster → Cluster) : (s.updCl i g).loader = s.loader := rfl
@[simp] theorem State.updCl_invals (s : State) (i : Nat) (g : Cluster → Cluster) : (s.updCl i g).invals = s.invals := rfl
@[simp] theorem State.updCl_atsInvals (s : State) (i : Nat) (g : Cluster → Cluster) : (s.updCl i g).atsInvals = s.atsInvals := rfl
@[simp] theorem State.updCl_eid (s : State) (i : Nat) (g : Cluster → Cluster) : (s.updCl i g).eid = s.eid := rfl
@[simp] theorem State.updCl_fn (s : State) (i : Nat) (g : Cluster → Cluster) (j : Nat) : (s.updCl i g).fn j = s.fn j := rfl
@[simp] theorem State.updCl_cx (s : State) (i : Nat) (g : Cluster → Cluster) (j : Nat) : (s.updCl i g).cx j = s.cx j := rfl
@[simp] theorem State.updCl_pt (s : State) (i : Nat) (g : Cluster → Cluster) (j : Nat) : (s.updCl i g).pt j = s.pt j := rfl
@[simp] theorem State.updCl_rg (s : State) (i : Nat) (g : Cluster → Cluster) (j : Nat) : (s.updCl i g).rg j = s.rg j := rfl
@[simp] theorem State.updCl_sec (s : State) (i : Nat) (g : Cluster → Cluster) (j : Nat) : (s.updCl i g).sec j = s.sec j := rfl
@[simp] theorem State.updCl_fe (s : State) (i : Nat) (g : Cluster → Cluster) (j : Nat) : (s.updCl i g).fe j = s.fe j := rfl
@[simp] theorem State.updCl_ob (s : State) (i : Nat) (g : Cluster → Cluster) (j : Nat) : (s.updCl i g).ob j = s.ob j := rfl
@[simp] theorem State.updCl_pan (s : State) (i : Nat) (g : Cluster → Cluster) (j : Nat) : (s.updCl i g).pan j = s.pan j := rfl
@[simp] theorem State.updCl_un (s : State) (i : Nat) (g : Cluster → Cluster) (j : Nat) : (s.updCl i g).un j = s.un j := rfl
@[simp] theorem State.updCl_stk (s : State) (i : Nat) (g : Cluster → Cluster) (j : Nat) : (s.updCl i g).stk j = s.stk j := rfl
@[simp] theorem State.updCl_port (s : State) (i : Nat) (g : Cluster → Cluster) (j : Nat) : (s.updCl i g).port j = s.port j := rfl
@[simp] theorem State.updCl_xp (s : State) (i : Nat) (g : Cluster → Cluster) (j : Nat) : (s.updCl i g).xp j = s.xp j := rfl
@[simp] theorem State.updCl_svc (s : State) (i : Nat) (g : Cluster → Cluster) (j : Nat) : (s.updCl i g).svc j = s.svc j := rfl
@[simp] theorem State.updCl_hubUp (s : State) (i : Nat) (g : Cluster → Cluster) : (s.updCl i g).hubUp = s.hubUp := rfl
@[simp] theorem State.updCl_ready (s : State) (i : Nat) (g : Cluster → Cluster) : (s.updCl i g).ready = s.ready := rfl
@[simp] theorem State.updCl_clPresent (s : State) (i : Nat) (g : Cluster → Cluster) (c : Nat) : (s.updCl i g).clPresent c = s.clPresent c := rfl
@[simp] theorem State.updCl_funcExists (s : State) (i : Nat) (g : Cluster → Cluster) (j : Nat) : (s.updCl i g).funcExists j = s.funcExists j := rfl
@[simp] theorem State.updCl_partPresent (s : State) (i : Nat) (g : Cluster → Cluster) (p : Nat) : (s.updCl i g).partPresent p = s.partPresent p := rfl
@[simp] theorem State.updCl_portPresent (s : State) (i : Nat) (g : Cluster → Cluster) (p : Nat) : (s.updCl i g).portPresent p = s.portPresent p := rfl
@[simp] theorem State.updCl_stackFitted (s : State) (i : Nat) (g : Cluster → Cluster) (k : Nat) : (s.updCl i g).stackFitted k = s.stackFitted k := rfl

/-! ### updRg -/

@[simp] theorem State.updRg_same (s : State) (i : Nat) (g : Ring → Ring) : (s.updRg i g).rg i = g (s.rg i) := Tbl.get_upd_same _ _ _ _
@[simp] theorem State.updRg_ne (s : State) (i : Nat) (g : Ring → Ring) {j : Nat} (h : j ≠ i) : (s.updRg i g).rg j = s.rg j := Tbl.get_upd_ne _ _ _ h
theorem State.updRg_at (s : State) (i : Nat) (g : Ring → Ring) (j : Nat) : (s.updRg i g).rg j = if j = i then g (s.rg i) else s.rg j := by
  by_cases h : j = i <;> simp [h]
@[simp] theorem State.updRg_pending (s : State) (i : Nat) (g : Ring → Ring) : (s.updRg i g).pending = s.pending := rfl
@[simp] theorem State.updRg_free (s : State) (i : Nat) (g : Ring → Ring) : (s.updRg i g).free = s.free := rfl
@[simp] theorem State.updRg_out (s : State) (i : Nat) (g : Ring → Ring) : (s.updRg i g).out = s.out := rfl
@[simp] theorem State.updRg_part (s : State) (i : Nat) (g : Ring → Ring) : (s.updRg i g).part = s.part := rfl
@[simp] theorem State.updRg_pins (s : State) (i : Nat) (g : Ring → Ring) : (s.updRg i g).pins = s.pins := rfl
@[simp] theorem State.updRg_tap (s : State) (i : Nat) (g : Ring → Ring) : (s.updRg i g).tap = s.tap := rfl
@[simp] theorem State.updRg_time (s : State) (i : Nat) (g : Ring → Ring) : (s.updRg i g).time = s.time := rfl
@[simp] theorem State.updRg_hub (s : State) (i : Nat) (g : Ring → Ring) : (s.updRg i g).hub = s.hub := rfl
@[simp] theorem State.updRg_hostMem (s : State) (i : Nat) (g : Ring → Ring) : (s.updRg i g).hostMem = s.hostMem := rfl
@[simp] theorem State.updRg_vfEnable (s : State) (i : Nat) (g : Ring → Ring) : (s.updRg i g).vfEnable = s.vfEnable := rfl
@[simp] theorem State.updRg_numVfs (s : State) (i : Nat) (g : Ring → Ring) : (s.updRg i g).numVfs = s.numVfs := rfl
@[simp] theorem State.updRg_funcs (s : State) (i : Nat) (g : Ring → Ring) : (s.updRg i g).funcs = s.funcs := rfl
@[simp] theorem State.updRg_msix (s : State) (i : Nat) (g : Ring → Ring) : (s.updRg i g).msix = s.msix := rfl
@[simp] theorem State.updRg_msixEnable (s : State) (i : Nat) (g : Ring → Ring) : (s.updRg i g).msixEnable = s.msixEnable := rfl
@[simp] theorem State.updRg_msixMask (s : State) (i : Nat) (g : Ring → Ring) : (s.updRg i g).msixMask = s.msixMask := rfl
@[simp] theorem State.updRg_windows (s : State) (i : Nat) (g : Ring → Ring) : (s.updRg i g).windows = s.windows := rfl
@[simp] theorem State.updRg_parts (s : State) (i : Nat) (g : Ring → Ring) : (s.updRg i g).parts = s.parts := rfl
@[simp] theorem State.updRg_tokens (s : State) (i : Nat) (g : Ring → Ring) : (s.updRg i g).tokens = s.tokens := rfl
@[simp] theorem State.updRg_sluWindow (s : State) (i : Nat) (g : Ring → Ring) : (s.updRg i g).sluWindow = s.sluWindow := rfl
@[simp] theorem State.updRg_ctxs (s : State) (i : Nat) (g : Ring → Ring) : (s.updRg i g).ctxs = s.ctxs := rfl
@[simp] theorem State.updRg_trans (s : State) (i : Nat) (g : Ring → Ring) : (s.updRg i g).trans = s.trans := rfl
@[simp] theorem State.updRg_tlb (s : State) (i : Nat) (g : Ring → Ring) : (s.updRg i g).tlb = s.tlb := rfl
@[simp] theorem State.updRg_fences (s : State) (i : Nat) (g : Ring → Ring) : (s.updRg i g).fences = s.fences := rfl
@[simp] theorem State.updRg_fenceFresh (s : State) (i : Nat) (g : Ring → Ring) : (s.updRg i g).fenceFresh = s.fenceFresh := rfl
@[simp] theorem State.updRg_fenceFreed (s : State) (i : Nat) (g : Ring → Ring) : (s.updRg i g).fenceFreed = s.fenceFreed := rfl
@[simp] theorem State.updRg_fenceLower (s : State) (i : Nat) (g : Ring → Ring) : (s.updRg i g).fenceLower = s.fenceLower := rfl
@[simp] theorem State.updRg_remoteDrop (s : State) (i : Nat) (g : Ring → Ring) : (s.updRg i g).remoteDrop = s.remoteDrop := rfl
@[simp] theorem State.updRg_ringTaken (s : State) (i : Nat) (g : Ring → Ring) : (s.updRg i g).ringTaken = s.ringTaken := rfl
@[simp] theorem State.updRg_ringTakenLc (s : State) (i : Nat) (g : Ring → Ring) : (s.updRg i g).ringTakenLc = s.ringTakenLc := rfl
@[simp] theorem State.updRg_objs (s : State) (i : Nat) (g : Ring → Ring) : (s.updRg i g).objs = s.objs := rfl
@[simp] theorem State.updRg_nextObj (s : State) (i : Nat) (g : Ring → Ring) : (s.updRg i g).nextObj = s.nextObj := rfl
@[simp] theorem State.updRg_hbm (s : State) (i : Nat) (g : Ring → Ring) : (s.updRg i g).hbm = s.hbm := rfl
@[simp] theorem State.updRg_chip (s : State) (i : Nat) (g : Ring → Ring) : (s.updRg i g).chip = s.chip := rfl
@[simp] theorem State.updRg_pans (s : State) (i : Nat) (g : Ring → Ring) : (s.updRg i g).pans = s.pans := rfl
@[simp] theorem State.updRg_units (s : State) (i : Nat) (g : Ring → Ring) : (s.updRg i g).units = s.units := rfl
@[simp] theorem State.updRg_clusters (s : State) (i : Nat) (g : Ring → Ring) : (s.updRg i g).clusters = s.clusters := rfl
@[simp] theorem State.updRg_power (s : State) (i : Nat) (g : Ring → Ring) : (s.updRg i g).power = s.power := rfl
@[simp] theorem State.updRg_log (s : State) (i : Nat) (g : Ring → Ring) : (s.updRg i g).log = s.log := rfl
@[simp] theorem State.updRg_telem (s : State) (i : Nat) (g : Ring → Ring) : (s.updRg i g).telem = s.telem := rfl
@[simp] theorem State.updRg_secs (s : State) (i : Nat) (g : Ring → Ring) : (s.updRg i g).secs = s.secs := rfl
@[simp] theorem State.updRg_nextSec (s : State) (i : Nat) (g : Ring → Ring) : (s.updRg i g).nextSec = s.nextSec := rfl
@[simp] theorem State.updRg_cmds (s : State) (i : Nat) (g : Ring → Ring) : (s.updRg i g).cmds = s.cmds := rfl
@[simp] theorem State.updRg_replays (s : State) (i : Nat) (g : Ring → Ring) : (s.updRg i g).replays = s.replays := rfl
@[simp] theorem State.updRg_scanSet (s : State) (i : Nat) (g : Ring → Ring) : (s.updRg i g).scanSet = s.scanSet := rfl
@[simp] theorem State.updRg_hzn (s : State) (i : Nat) (g : Ring → Ring) : (s.updRg i g).hzn = s.hzn := rfl
@[simp] theorem State.updRg_svcs (s : State) (i : Nat) (g : Ring → Ring) : (s.updRg i g).svcs = s.svcs := rfl
@[simp] theorem State.updRg_sessions (s : State) (i : Nat) (g : Ring → Ring) : (s.updRg i g).sessions = s.sessions := rfl
@[simp] theorem State.updRg_nextSession (s : State) (i : Nat) (g : Ring → Ring) : (s.updRg i g).nextSession = s.nextSession := rfl
@[simp] theorem State.updRg_xparts (s : State) (i : Nat) (g : Ring → Ring) : (s.updRg i g).xparts = s.xparts := rfl
@[simp] theorem State.updRg_loader (s : State) (i : Nat) (g : Ring → Ring) : (s.updRg i g).loader = s.loader := rfl
@[simp] theorem State.updRg_invals (s : State) (i : Nat) (g : Ring → Ring) : (s.updRg i g).invals = s.invals := rfl
@[simp] theorem State.updRg_atsInvals (s : State) (i : Nat) (g : Ring → Ring) : (s.updRg i g).atsInvals = s.atsInvals := rfl
@[simp] theorem State.updRg_eid (s : State) (i : Nat) (g : Ring → Ring) : (s.updRg i g).eid = s.eid := rfl
@[simp] theorem State.updRg_fn (s : State) (i : Nat) (g : Ring → Ring) (j : Nat) : (s.updRg i g).fn j = s.fn j := rfl
@[simp] theorem State.updRg_cx (s : State) (i : Nat) (g : Ring → Ring) (j : Nat) : (s.updRg i g).cx j = s.cx j := rfl
@[simp] theorem State.updRg_pt (s : State) (i : Nat) (g : Ring → Ring) (j : Nat) : (s.updRg i g).pt j = s.pt j := rfl
@[simp] theorem State.updRg_cl (s : State) (i : Nat) (g : Ring → Ring) (j : Nat) : (s.updRg i g).cl j = s.cl j := rfl
@[simp] theorem State.updRg_sec (s : State) (i : Nat) (g : Ring → Ring) (j : Nat) : (s.updRg i g).sec j = s.sec j := rfl
@[simp] theorem State.updRg_fe (s : State) (i : Nat) (g : Ring → Ring) (j : Nat) : (s.updRg i g).fe j = s.fe j := rfl
@[simp] theorem State.updRg_ob (s : State) (i : Nat) (g : Ring → Ring) (j : Nat) : (s.updRg i g).ob j = s.ob j := rfl
@[simp] theorem State.updRg_pan (s : State) (i : Nat) (g : Ring → Ring) (j : Nat) : (s.updRg i g).pan j = s.pan j := rfl
@[simp] theorem State.updRg_un (s : State) (i : Nat) (g : Ring → Ring) (j : Nat) : (s.updRg i g).un j = s.un j := rfl
@[simp] theorem State.updRg_stk (s : State) (i : Nat) (g : Ring → Ring) (j : Nat) : (s.updRg i g).stk j = s.stk j := rfl
@[simp] theorem State.updRg_port (s : State) (i : Nat) (g : Ring → Ring) (j : Nat) : (s.updRg i g).port j = s.port j := rfl
@[simp] theorem State.updRg_xp (s : State) (i : Nat) (g : Ring → Ring) (j : Nat) : (s.updRg i g).xp j = s.xp j := rfl
@[simp] theorem State.updRg_svc (s : State) (i : Nat) (g : Ring → Ring) (j : Nat) : (s.updRg i g).svc j = s.svc j := rfl
@[simp] theorem State.updRg_hubUp (s : State) (i : Nat) (g : Ring → Ring) : (s.updRg i g).hubUp = s.hubUp := rfl
@[simp] theorem State.updRg_ready (s : State) (i : Nat) (g : Ring → Ring) : (s.updRg i g).ready = s.ready := rfl
@[simp] theorem State.updRg_clPresent (s : State) (i : Nat) (g : Ring → Ring) (c : Nat) : (s.updRg i g).clPresent c = s.clPresent c := rfl
@[simp] theorem State.updRg_funcExists (s : State) (i : Nat) (g : Ring → Ring) (j : Nat) : (s.updRg i g).funcExists j = s.funcExists j := rfl
@[simp] theorem State.updRg_partPresent (s : State) (i : Nat) (g : Ring → Ring) (p : Nat) : (s.updRg i g).partPresent p = s.partPresent p := rfl
@[simp] theorem State.updRg_portPresent (s : State) (i : Nat) (g : Ring → Ring) (p : Nat) : (s.updRg i g).portPresent p = s.portPresent p := rfl
@[simp] theorem State.updRg_stackFitted (s : State) (i : Nat) (g : Ring → Ring) (k : Nat) : (s.updRg i g).stackFitted k = s.stackFitted k := rfl

/-! ### updSec -/

@[simp] theorem State.updSec_same (s : State) (i : Nat) (g : Section → Section) : (s.updSec i g).sec i = g (s.sec i) := Tbl.get_upd_same _ _ _ _
@[simp] theorem State.updSec_ne (s : State) (i : Nat) (g : Section → Section) {j : Nat} (h : j ≠ i) : (s.updSec i g).sec j = s.sec j := Tbl.get_upd_ne _ _ _ h
theorem State.updSec_at (s : State) (i : Nat) (g : Section → Section) (j : Nat) : (s.updSec i g).sec j = if j = i then g (s.sec i) else s.sec j := by
  by_cases h : j = i <;> simp [h]
@[simp] theorem State.updSec_pending (s : State) (i : Nat) (g : Section → Section) : (s.updSec i g).pending = s.pending := rfl
@[simp] theorem State.updSec_free (s : State) (i : Nat) (g : Section → Section) : (s.updSec i g).free = s.free := rfl
@[simp] theorem State.updSec_out (s : State) (i : Nat) (g : Section → Section) : (s.updSec i g).out = s.out := rfl
@[simp] theorem State.updSec_part (s : State) (i : Nat) (g : Section → Section) : (s.updSec i g).part = s.part := rfl
@[simp] theorem State.updSec_pins (s : State) (i : Nat) (g : Section → Section) : (s.updSec i g).pins = s.pins := rfl
@[simp] theorem State.updSec_tap (s : State) (i : Nat) (g : Section → Section) : (s.updSec i g).tap = s.tap := rfl
@[simp] theorem State.updSec_time (s : State) (i : Nat) (g : Section → Section) : (s.updSec i g).time = s.time := rfl
@[simp] theorem State.updSec_hub (s : State) (i : Nat) (g : Section → Section) : (s.updSec i g).hub = s.hub := rfl
@[simp] theorem State.updSec_hostMem (s : State) (i : Nat) (g : Section → Section) : (s.updSec i g).hostMem = s.hostMem := rfl
@[simp] theorem State.updSec_vfEnable (s : State) (i : Nat) (g : Section → Section) : (s.updSec i g).vfEnable = s.vfEnable := rfl
@[simp] theorem State.updSec_numVfs (s : State) (i : Nat) (g : Section → Section) : (s.updSec i g).numVfs = s.numVfs := rfl
@[simp] theorem State.updSec_funcs (s : State) (i : Nat) (g : Section → Section) : (s.updSec i g).funcs = s.funcs := rfl
@[simp] theorem State.updSec_msix (s : State) (i : Nat) (g : Section → Section) : (s.updSec i g).msix = s.msix := rfl
@[simp] theorem State.updSec_msixEnable (s : State) (i : Nat) (g : Section → Section) : (s.updSec i g).msixEnable = s.msixEnable := rfl
@[simp] theorem State.updSec_msixMask (s : State) (i : Nat) (g : Section → Section) : (s.updSec i g).msixMask = s.msixMask := rfl
@[simp] theorem State.updSec_windows (s : State) (i : Nat) (g : Section → Section) : (s.updSec i g).windows = s.windows := rfl
@[simp] theorem State.updSec_parts (s : State) (i : Nat) (g : Section → Section) : (s.updSec i g).parts = s.parts := rfl
@[simp] theorem State.updSec_tokens (s : State) (i : Nat) (g : Section → Section) : (s.updSec i g).tokens = s.tokens := rfl
@[simp] theorem State.updSec_sluWindow (s : State) (i : Nat) (g : Section → Section) : (s.updSec i g).sluWindow = s.sluWindow := rfl
@[simp] theorem State.updSec_ctxs (s : State) (i : Nat) (g : Section → Section) : (s.updSec i g).ctxs = s.ctxs := rfl
@[simp] theorem State.updSec_trans (s : State) (i : Nat) (g : Section → Section) : (s.updSec i g).trans = s.trans := rfl
@[simp] theorem State.updSec_tlb (s : State) (i : Nat) (g : Section → Section) : (s.updSec i g).tlb = s.tlb := rfl
@[simp] theorem State.updSec_fences (s : State) (i : Nat) (g : Section → Section) : (s.updSec i g).fences = s.fences := rfl
@[simp] theorem State.updSec_fenceFresh (s : State) (i : Nat) (g : Section → Section) : (s.updSec i g).fenceFresh = s.fenceFresh := rfl
@[simp] theorem State.updSec_fenceFreed (s : State) (i : Nat) (g : Section → Section) : (s.updSec i g).fenceFreed = s.fenceFreed := rfl
@[simp] theorem State.updSec_fenceLower (s : State) (i : Nat) (g : Section → Section) : (s.updSec i g).fenceLower = s.fenceLower := rfl
@[simp] theorem State.updSec_remoteDrop (s : State) (i : Nat) (g : Section → Section) : (s.updSec i g).remoteDrop = s.remoteDrop := rfl
@[simp] theorem State.updSec_rings (s : State) (i : Nat) (g : Section → Section) : (s.updSec i g).rings = s.rings := rfl
@[simp] theorem State.updSec_ringTaken (s : State) (i : Nat) (g : Section → Section) : (s.updSec i g).ringTaken = s.ringTaken := rfl
@[simp] theorem State.updSec_ringTakenLc (s : State) (i : Nat) (g : Section → Section) : (s.updSec i g).ringTakenLc = s.ringTakenLc := rfl
@[simp] theorem State.updSec_objs (s : State) (i : Nat) (g : Section → Section) : (s.updSec i g).objs = s.objs := rfl
@[simp] theorem State.updSec_nextObj (s : State) (i : Nat) (g : Section → Section) : (s.updSec i g).nextObj = s.nextObj := rfl
@[simp] theorem State.updSec_hbm (s : State) (i : Nat) (g : Section → Section) : (s.updSec i g).hbm = s.hbm := rfl
@[simp] theorem State.updSec_chip (s : State) (i : Nat) (g : Section → Section) : (s.updSec i g).chip = s.chip := rfl
@[simp] theorem State.updSec_pans (s : State) (i : Nat) (g : Section → Section) : (s.updSec i g).pans = s.pans := rfl
@[simp] theorem State.updSec_units (s : State) (i : Nat) (g : Section → Section) : (s.updSec i g).units = s.units := rfl
@[simp] theorem State.updSec_clusters (s : State) (i : Nat) (g : Section → Section) : (s.updSec i g).clusters = s.clusters := rfl
@[simp] theorem State.updSec_power (s : State) (i : Nat) (g : Section → Section) : (s.updSec i g).power = s.power := rfl
@[simp] theorem State.updSec_log (s : State) (i : Nat) (g : Section → Section) : (s.updSec i g).log = s.log := rfl
@[simp] theorem State.updSec_telem (s : State) (i : Nat) (g : Section → Section) : (s.updSec i g).telem = s.telem := rfl
@[simp] theorem State.updSec_nextSec (s : State) (i : Nat) (g : Section → Section) : (s.updSec i g).nextSec = s.nextSec := rfl
@[simp] theorem State.updSec_cmds (s : State) (i : Nat) (g : Section → Section) : (s.updSec i g).cmds = s.cmds := rfl
@[simp] theorem State.updSec_replays (s : State) (i : Nat) (g : Section → Section) : (s.updSec i g).replays = s.replays := rfl
@[simp] theorem State.updSec_scanSet (s : State) (i : Nat) (g : Section → Section) : (s.updSec i g).scanSet = s.scanSet := rfl
@[simp] theorem State.updSec_hzn (s : State) (i : Nat) (g : Section → Section) : (s.updSec i g).hzn = s.hzn := rfl
@[simp] theorem State.updSec_svcs (s : State) (i : Nat) (g : Section → Section) : (s.updSec i g).svcs = s.svcs := rfl
@[simp] theorem State.updSec_sessions (s : State) (i : Nat) (g : Section → Section) : (s.updSec i g).sessions = s.sessions := rfl
@[simp] theorem State.updSec_nextSession (s : State) (i : Nat) (g : Section → Section) : (s.updSec i g).nextSession = s.nextSession := rfl
@[simp] theorem State.updSec_xparts (s : State) (i : Nat) (g : Section → Section) : (s.updSec i g).xparts = s.xparts := rfl
@[simp] theorem State.updSec_loader (s : State) (i : Nat) (g : Section → Section) : (s.updSec i g).loader = s.loader := rfl
@[simp] theorem State.updSec_invals (s : State) (i : Nat) (g : Section → Section) : (s.updSec i g).invals = s.invals := rfl
@[simp] theorem State.updSec_atsInvals (s : State) (i : Nat) (g : Section → Section) : (s.updSec i g).atsInvals = s.atsInvals := rfl
@[simp] theorem State.updSec_eid (s : State) (i : Nat) (g : Section → Section) : (s.updSec i g).eid = s.eid := rfl
@[simp] theorem State.updSec_fn (s : State) (i : Nat) (g : Section → Section) (j : Nat) : (s.updSec i g).fn j = s.fn j := rfl
@[simp] theorem State.updSec_cx (s : State) (i : Nat) (g : Section → Section) (j : Nat) : (s.updSec i g).cx j = s.cx j := rfl
@[simp] theorem State.updSec_pt (s : State) (i : Nat) (g : Section → Section) (j : Nat) : (s.updSec i g).pt j = s.pt j := rfl
@[simp] theorem State.updSec_cl (s : State) (i : Nat) (g : Section → Section) (j : Nat) : (s.updSec i g).cl j = s.cl j := rfl
@[simp] theorem State.updSec_rg (s : State) (i : Nat) (g : Section → Section) (j : Nat) : (s.updSec i g).rg j = s.rg j := rfl
@[simp] theorem State.updSec_fe (s : State) (i : Nat) (g : Section → Section) (j : Nat) : (s.updSec i g).fe j = s.fe j := rfl
@[simp] theorem State.updSec_ob (s : State) (i : Nat) (g : Section → Section) (j : Nat) : (s.updSec i g).ob j = s.ob j := rfl
@[simp] theorem State.updSec_pan (s : State) (i : Nat) (g : Section → Section) (j : Nat) : (s.updSec i g).pan j = s.pan j := rfl
@[simp] theorem State.updSec_un (s : State) (i : Nat) (g : Section → Section) (j : Nat) : (s.updSec i g).un j = s.un j := rfl
@[simp] theorem State.updSec_stk (s : State) (i : Nat) (g : Section → Section) (j : Nat) : (s.updSec i g).stk j = s.stk j := rfl
@[simp] theorem State.updSec_port (s : State) (i : Nat) (g : Section → Section) (j : Nat) : (s.updSec i g).port j = s.port j := rfl
@[simp] theorem State.updSec_xp (s : State) (i : Nat) (g : Section → Section) (j : Nat) : (s.updSec i g).xp j = s.xp j := rfl
@[simp] theorem State.updSec_svc (s : State) (i : Nat) (g : Section → Section) (j : Nat) : (s.updSec i g).svc j = s.svc j := rfl
@[simp] theorem State.updSec_hubUp (s : State) (i : Nat) (g : Section → Section) : (s.updSec i g).hubUp = s.hubUp := rfl
@[simp] theorem State.updSec_ready (s : State) (i : Nat) (g : Section → Section) : (s.updSec i g).ready = s.ready := rfl
@[simp] theorem State.updSec_clPresent (s : State) (i : Nat) (g : Section → Section) (c : Nat) : (s.updSec i g).clPresent c = s.clPresent c := rfl
@[simp] theorem State.updSec_funcExists (s : State) (i : Nat) (g : Section → Section) (j : Nat) : (s.updSec i g).funcExists j = s.funcExists j := rfl
@[simp] theorem State.updSec_partPresent (s : State) (i : Nat) (g : Section → Section) (p : Nat) : (s.updSec i g).partPresent p = s.partPresent p := rfl
@[simp] theorem State.updSec_portPresent (s : State) (i : Nat) (g : Section → Section) (p : Nat) : (s.updSec i g).portPresent p = s.portPresent p := rfl
@[simp] theorem State.updSec_stackFitted (s : State) (i : Nat) (g : Section → Section) (k : Nat) : (s.updSec i g).stackFitted k = s.stackFitted k := rfl

/-! ### updFe -/

@[simp] theorem State.updFe_same (s : State) (i : Nat) (g : Fence → Fence) : (s.updFe i g).fe i = g (s.fe i) := Tbl.get_upd_same _ _ _ _
@[simp] theorem State.updFe_ne (s : State) (i : Nat) (g : Fence → Fence) {j : Nat} (h : j ≠ i) : (s.updFe i g).fe j = s.fe j := Tbl.get_upd_ne _ _ _ h
theorem State.updFe_at (s : State) (i : Nat) (g : Fence → Fence) (j : Nat) : (s.updFe i g).fe j = if j = i then g (s.fe i) else s.fe j := by
  by_cases h : j = i <;> simp [h]
@[simp] theorem State.updFe_pending (s : State) (i : Nat) (g : Fence → Fence) : (s.updFe i g).pending = s.pending := rfl
@[simp] theorem State.updFe_free (s : State) (i : Nat) (g : Fence → Fence) : (s.updFe i g).free = s.free := rfl
@[simp] theorem State.updFe_out (s : State) (i : Nat) (g : Fence → Fence) : (s.updFe i g).out = s.out := rfl
@[simp] theorem State.updFe_part (s : State) (i : Nat) (g : Fence → Fence) : (s.updFe i g).part = s.part := rfl
@[simp] theorem State.updFe_pins (s : State) (i : Nat) (g : Fence → Fence) : (s.updFe i g).pins = s.pins := rfl
@[simp] theorem State.updFe_tap (s : State) (i : Nat) (g : Fence → Fence) : (s.updFe i g).tap = s.tap := rfl
@[simp] theorem State.updFe_time (s : State) (i : Nat) (g : Fence → Fence) : (s.updFe i g).time = s.time := rfl
@[simp] theorem State.updFe_hub (s : State) (i : Nat) (g : Fence → Fence) : (s.updFe i g).hub = s.hub := rfl
@[simp] theorem State.updFe_hostMem (s : State) (i : Nat) (g : Fence → Fence) : (s.updFe i g).hostMem = s.hostMem := rfl
@[simp] theorem State.updFe_vfEnable (s : State) (i : Nat) (g : Fence → Fence) : (s.updFe i g).vfEnable = s.vfEnable := rfl
@[simp] theorem State.updFe_numVfs (s : State) (i : Nat) (g : Fence → Fence) : (s.updFe i g).numVfs = s.numVfs := rfl
@[simp] theorem State.updFe_funcs (s : State) (i : Nat) (g : Fence → Fence) : (s.updFe i g).funcs = s.funcs := rfl
@[simp] theorem State.updFe_msix (s : State) (i : Nat) (g : Fence → Fence) : (s.updFe i g).msix = s.msix := rfl
@[simp] theorem State.updFe_msixEnable (s : State) (i : Nat) (g : Fence → Fence) : (s.updFe i g).msixEnable = s.msixEnable := rfl
@[simp] theorem State.updFe_msixMask (s : State) (i : Nat) (g : Fence → Fence) : (s.updFe i g).msixMask = s.msixMask := rfl
@[simp] theorem State.updFe_windows (s : State) (i : Nat) (g : Fence → Fence) : (s.updFe i g).windows = s.windows := rfl
@[simp] theorem State.updFe_parts (s : State) (i : Nat) (g : Fence → Fence) : (s.updFe i g).parts = s.parts := rfl
@[simp] theorem State.updFe_tokens (s : State) (i : Nat) (g : Fence → Fence) : (s.updFe i g).tokens = s.tokens := rfl
@[simp] theorem State.updFe_sluWindow (s : State) (i : Nat) (g : Fence → Fence) : (s.updFe i g).sluWindow = s.sluWindow := rfl
@[simp] theorem State.updFe_ctxs (s : State) (i : Nat) (g : Fence → Fence) : (s.updFe i g).ctxs = s.ctxs := rfl
@[simp] theorem State.updFe_trans (s : State) (i : Nat) (g : Fence → Fence) : (s.updFe i g).trans = s.trans := rfl
@[simp] theorem State.updFe_tlb (s : State) (i : Nat) (g : Fence → Fence) : (s.updFe i g).tlb = s.tlb := rfl
@[simp] theorem State.updFe_fenceFresh (s : State) (i : Nat) (g : Fence → Fence) : (s.updFe i g).fenceFresh = s.fenceFresh := rfl
@[simp] theorem State.updFe_fenceFreed (s : State) (i : Nat) (g : Fence → Fence) : (s.updFe i g).fenceFreed = s.fenceFreed := rfl
@[simp] theorem State.updFe_fenceLower (s : State) (i : Nat) (g : Fence → Fence) : (s.updFe i g).fenceLower = s.fenceLower := rfl
@[simp] theorem State.updFe_remoteDrop (s : State) (i : Nat) (g : Fence → Fence) : (s.updFe i g).remoteDrop = s.remoteDrop := rfl
@[simp] theorem State.updFe_rings (s : State) (i : Nat) (g : Fence → Fence) : (s.updFe i g).rings = s.rings := rfl
@[simp] theorem State.updFe_ringTaken (s : State) (i : Nat) (g : Fence → Fence) : (s.updFe i g).ringTaken = s.ringTaken := rfl
@[simp] theorem State.updFe_ringTakenLc (s : State) (i : Nat) (g : Fence → Fence) : (s.updFe i g).ringTakenLc = s.ringTakenLc := rfl
@[simp] theorem State.updFe_objs (s : State) (i : Nat) (g : Fence → Fence) : (s.updFe i g).objs = s.objs := rfl
@[simp] theorem State.updFe_nextObj (s : State) (i : Nat) (g : Fence → Fence) : (s.updFe i g).nextObj = s.nextObj := rfl
@[simp] theorem State.updFe_hbm (s : State) (i : Nat) (g : Fence → Fence) : (s.updFe i g).hbm = s.hbm := rfl
@[simp] theorem State.updFe_chip (s : State) (i : Nat) (g : Fence → Fence) : (s.updFe i g).chip = s.chip := rfl
@[simp] theorem State.updFe_pans (s : State) (i : Nat) (g : Fence → Fence) : (s.updFe i g).pans = s.pans := rfl
@[simp] theorem State.updFe_units (s : State) (i : Nat) (g : Fence → Fence) : (s.updFe i g).units = s.units := rfl
@[simp] theorem State.updFe_clusters (s : State) (i : Nat) (g : Fence → Fence) : (s.updFe i g).clusters = s.clusters := rfl
@[simp] theorem State.updFe_power (s : State) (i : Nat) (g : Fence → Fence) : (s.updFe i g).power = s.power := rfl
@[simp] theorem State.updFe_log (s : State) (i : Nat) (g : Fence → Fence) : (s.updFe i g).log = s.log := rfl
@[simp] theorem State.updFe_telem (s : State) (i : Nat) (g : Fence → Fence) : (s.updFe i g).telem = s.telem := rfl
@[simp] theorem State.updFe_secs (s : State) (i : Nat) (g : Fence → Fence) : (s.updFe i g).secs = s.secs := rfl
@[simp] theorem State.updFe_nextSec (s : State) (i : Nat) (g : Fence → Fence) : (s.updFe i g).nextSec = s.nextSec := rfl
@[simp] theorem State.updFe_cmds (s : State) (i : Nat) (g : Fence → Fence) : (s.updFe i g).cmds = s.cmds := rfl
@[simp] theorem State.updFe_replays (s : State) (i : Nat) (g : Fence → Fence) : (s.updFe i g).replays = s.replays := rfl
@[simp] theorem State.updFe_scanSet (s : State) (i : Nat) (g : Fence → Fence) : (s.updFe i g).scanSet = s.scanSet := rfl
@[simp] theorem State.updFe_hzn (s : State) (i : Nat) (g : Fence → Fence) : (s.updFe i g).hzn = s.hzn := rfl
@[simp] theorem State.updFe_svcs (s : State) (i : Nat) (g : Fence → Fence) : (s.updFe i g).svcs = s.svcs := rfl
@[simp] theorem State.updFe_sessions (s : State) (i : Nat) (g : Fence → Fence) : (s.updFe i g).sessions = s.sessions := rfl
@[simp] theorem State.updFe_nextSession (s : State) (i : Nat) (g : Fence → Fence) : (s.updFe i g).nextSession = s.nextSession := rfl
@[simp] theorem State.updFe_xparts (s : State) (i : Nat) (g : Fence → Fence) : (s.updFe i g).xparts = s.xparts := rfl
@[simp] theorem State.updFe_loader (s : State) (i : Nat) (g : Fence → Fence) : (s.updFe i g).loader = s.loader := rfl
@[simp] theorem State.updFe_invals (s : State) (i : Nat) (g : Fence → Fence) : (s.updFe i g).invals = s.invals := rfl
@[simp] theorem State.updFe_atsInvals (s : State) (i : Nat) (g : Fence → Fence) : (s.updFe i g).atsInvals = s.atsInvals := rfl
@[simp] theorem State.updFe_eid (s : State) (i : Nat) (g : Fence → Fence) : (s.updFe i g).eid = s.eid := rfl
@[simp] theorem State.updFe_fn (s : State) (i : Nat) (g : Fence → Fence) (j : Nat) : (s.updFe i g).fn j = s.fn j := rfl
@[simp] theorem State.updFe_cx (s : State) (i : Nat) (g : Fence → Fence) (j : Nat) : (s.updFe i g).cx j = s.cx j := rfl
@[simp] theorem State.updFe_pt (s : State) (i : Nat) (g : Fence → Fence) (j : Nat) : (s.updFe i g).pt j = s.pt j := rfl
@[simp] theorem State.updFe_cl (s : State) (i : Nat) (g : Fence → Fence) (j : Nat) : (s.updFe i g).cl j = s.cl j := rfl
@[simp] theorem State.updFe_rg (s : State) (i : Nat) (g : Fence → Fence) (j : Nat) : (s.updFe i g).rg j = s.rg j := rfl
@[simp] theorem State.updFe_sec (s : State) (i : Nat) (g : Fence → Fence) (j : Nat) : (s.updFe i g).sec j = s.sec j := rfl
@[simp] theorem State.updFe_ob (s : State) (i : Nat) (g : Fence → Fence) (j : Nat) : (s.updFe i g).ob j = s.ob j := rfl
@[simp] theorem State.updFe_pan (s : State) (i : Nat) (g : Fence → Fence) (j : Nat) : (s.updFe i g).pan j = s.pan j := rfl
@[simp] theorem State.updFe_un (s : State) (i : Nat) (g : Fence → Fence) (j : Nat) : (s.updFe i g).un j = s.un j := rfl
@[simp] theorem State.updFe_stk (s : State) (i : Nat) (g : Fence → Fence) (j : Nat) : (s.updFe i g).stk j = s.stk j := rfl
@[simp] theorem State.updFe_port (s : State) (i : Nat) (g : Fence → Fence) (j : Nat) : (s.updFe i g).port j = s.port j := rfl
@[simp] theorem State.updFe_xp (s : State) (i : Nat) (g : Fence → Fence) (j : Nat) : (s.updFe i g).xp j = s.xp j := rfl
@[simp] theorem State.updFe_svc (s : State) (i : Nat) (g : Fence → Fence) (j : Nat) : (s.updFe i g).svc j = s.svc j := rfl
@[simp] theorem State.updFe_hubUp (s : State) (i : Nat) (g : Fence → Fence) : (s.updFe i g).hubUp = s.hubUp := rfl
@[simp] theorem State.updFe_ready (s : State) (i : Nat) (g : Fence → Fence) : (s.updFe i g).ready = s.ready := rfl
@[simp] theorem State.updFe_clPresent (s : State) (i : Nat) (g : Fence → Fence) (c : Nat) : (s.updFe i g).clPresent c = s.clPresent c := rfl
@[simp] theorem State.updFe_funcExists (s : State) (i : Nat) (g : Fence → Fence) (j : Nat) : (s.updFe i g).funcExists j = s.funcExists j := rfl
@[simp] theorem State.updFe_partPresent (s : State) (i : Nat) (g : Fence → Fence) (p : Nat) : (s.updFe i g).partPresent p = s.partPresent p := rfl
@[simp] theorem State.updFe_portPresent (s : State) (i : Nat) (g : Fence → Fence) (p : Nat) : (s.updFe i g).portPresent p = s.portPresent p := rfl
@[simp] theorem State.updFe_stackFitted (s : State) (i : Nat) (g : Fence → Fence) (k : Nat) : (s.updFe i g).stackFitted k = s.stackFitted k := rfl

/-! ### updOb -/

@[simp] theorem State.updOb_same (s : State) (i : Nat) (g : Obj → Obj) : (s.updOb i g).ob i = g (s.ob i) := Tbl.get_upd_same _ _ _ _
@[simp] theorem State.updOb_ne (s : State) (i : Nat) (g : Obj → Obj) {j : Nat} (h : j ≠ i) : (s.updOb i g).ob j = s.ob j := Tbl.get_upd_ne _ _ _ h
theorem State.updOb_at (s : State) (i : Nat) (g : Obj → Obj) (j : Nat) : (s.updOb i g).ob j = if j = i then g (s.ob i) else s.ob j := by
  by_cases h : j = i <;> simp [h]
@[simp] theorem State.updOb_pending (s : State) (i : Nat) (g : Obj → Obj) : (s.updOb i g).pending = s.pending := rfl
@[simp] theorem State.updOb_free (s : State) (i : Nat) (g : Obj → Obj) : (s.updOb i g).free = s.free := rfl
@[simp] theorem State.updOb_out (s : State) (i : Nat) (g : Obj → Obj) : (s.updOb i g).out = s.out := rfl
@[simp] theorem State.updOb_part (s : State) (i : Nat) (g : Obj → Obj) : (s.updOb i g).part = s.part := rfl
@[simp] theorem State.updOb_pins (s : State) (i : Nat) (g : Obj → Obj) : (s.updOb i g).pins = s.pins := rfl
@[simp] theorem State.updOb_tap (s : State) (i : Nat) (g : Obj → Obj) : (s.updOb i g).tap = s.tap := rfl
@[simp] theorem State.updOb_time (s : State) (i : Nat) (g : Obj → Obj) : (s.updOb i g).time = s.time := rfl
@[simp] theorem State.updOb_hub (s : State) (i : Nat) (g : Obj → Obj) : (s.updOb i g).hub = s.hub := rfl
@[simp] theorem State.updOb_hostMem (s : State) (i : Nat) (g : Obj → Obj) : (s.updOb i g).hostMem = s.hostMem := rfl
@[simp] theorem State.updOb_vfEnable (s : State) (i : Nat) (g : Obj → Obj) : (s.updOb i g).vfEnable = s.vfEnable := rfl
@[simp] theorem State.updOb_numVfs (s : State) (i : Nat) (g : Obj → Obj) : (s.updOb i g).numVfs = s.numVfs := rfl
@[simp] theorem State.updOb_funcs (s : State) (i : Nat) (g : Obj → Obj) : (s.updOb i g).funcs = s.funcs := rfl
@[simp] theorem State.updOb_msix (s : State) (i : Nat) (g : Obj → Obj) : (s.updOb i g).msix = s.msix := rfl
@[simp] theorem State.updOb_msixEnable (s : State) (i : Nat) (g : Obj → Obj) : (s.updOb i g).msixEnable = s.msixEnable := rfl
@[simp] theorem State.updOb_msixMask (s : State) (i : Nat) (g : Obj → Obj) : (s.updOb i g).msixMask = s.msixMask := rfl
@[simp] theorem State.updOb_windows (s : State) (i : Nat) (g : Obj → Obj) : (s.updOb i g).windows = s.windows := rfl
@[simp] theorem State.updOb_parts (s : State) (i : Nat) (g : Obj → Obj) : (s.updOb i g).parts = s.parts := rfl
@[simp] theorem State.updOb_tokens (s : State) (i : Nat) (g : Obj → Obj) : (s.updOb i g).tokens = s.tokens := rfl
@[simp] theorem State.updOb_sluWindow (s : State) (i : Nat) (g : Obj → Obj) : (s.updOb i g).sluWindow = s.sluWindow := rfl
@[simp] theorem State.updOb_ctxs (s : State) (i : Nat) (g : Obj → Obj) : (s.updOb i g).ctxs = s.ctxs := rfl
@[simp] theorem State.updOb_trans (s : State) (i : Nat) (g : Obj → Obj) : (s.updOb i g).trans = s.trans := rfl
@[simp] theorem State.updOb_tlb (s : State) (i : Nat) (g : Obj → Obj) : (s.updOb i g).tlb = s.tlb := rfl
@[simp] theorem State.updOb_fences (s : State) (i : Nat) (g : Obj → Obj) : (s.updOb i g).fences = s.fences := rfl
@[simp] theorem State.updOb_fenceFresh (s : State) (i : Nat) (g : Obj → Obj) : (s.updOb i g).fenceFresh = s.fenceFresh := rfl
@[simp] theorem State.updOb_fenceFreed (s : State) (i : Nat) (g : Obj → Obj) : (s.updOb i g).fenceFreed = s.fenceFreed := rfl
@[simp] theorem State.updOb_fenceLower (s : State) (i : Nat) (g : Obj → Obj) : (s.updOb i g).fenceLower = s.fenceLower := rfl
@[simp] theorem State.updOb_remoteDrop (s : State) (i : Nat) (g : Obj → Obj) : (s.updOb i g).remoteDrop = s.remoteDrop := rfl
@[simp] theorem State.updOb_rings (s : State) (i : Nat) (g : Obj → Obj) : (s.updOb i g).rings = s.rings := rfl
@[simp] theorem State.updOb_ringTaken (s : State) (i : Nat) (g : Obj → Obj) : (s.updOb i g).ringTaken = s.ringTaken := rfl
@[simp] theorem State.updOb_ringTakenLc (s : State) (i : Nat) (g : Obj → Obj) : (s.updOb i g).ringTakenLc = s.ringTakenLc := rfl
@[simp] theorem State.updOb_nextObj (s : State) (i : Nat) (g : Obj → Obj) : (s.updOb i g).nextObj = s.nextObj := rfl
@[simp] theorem State.updOb_hbm (s : State) (i : Nat) (g : Obj → Obj) : (s.updOb i g).hbm = s.hbm := rfl
@[simp] theorem State.updOb_chip (s : State) (i : Nat) (g : Obj → Obj) : (s.updOb i g).chip = s.chip := rfl
@[simp] theorem State.updOb_pans (s : State) (i : Nat) (g : Obj → Obj) : (s.updOb i g).pans = s.pans := rfl
@[simp] theorem State.updOb_units (s : State) (i : Nat) (g : Obj → Obj) : (s.updOb i g).units = s.units := rfl
@[simp] theorem State.updOb_clusters (s : State) (i : Nat) (g : Obj → Obj) : (s.updOb i g).clusters = s.clusters := rfl
@[simp] theorem State.updOb_power (s : State) (i : Nat) (g : Obj → Obj) : (s.updOb i g).power = s.power := rfl
@[simp] theorem State.updOb_log (s : State) (i : Nat) (g : Obj → Obj) : (s.updOb i g).log = s.log := rfl
@[simp] theorem State.updOb_telem (s : State) (i : Nat) (g : Obj → Obj) : (s.updOb i g).telem = s.telem := rfl
@[simp] theorem State.updOb_secs (s : State) (i : Nat) (g : Obj → Obj) : (s.updOb i g).secs = s.secs := rfl
@[simp] theorem State.updOb_nextSec (s : State) (i : Nat) (g : Obj → Obj) : (s.updOb i g).nextSec = s.nextSec := rfl
@[simp] theorem State.updOb_cmds (s : State) (i : Nat) (g : Obj → Obj) : (s.updOb i g).cmds = s.cmds := rfl
@[simp] theorem State.updOb_replays (s : State) (i : Nat) (g : Obj → Obj) : (s.updOb i g).replays = s.replays := rfl
@[simp] theorem State.updOb_scanSet (s : State) (i : Nat) (g : Obj → Obj) : (s.updOb i g).scanSet = s.scanSet := rfl
@[simp] theorem State.updOb_hzn (s : State) (i : Nat) (g : Obj → Obj) : (s.updOb i g).hzn = s.hzn := rfl
@[simp] theorem State.updOb_svcs (s : State) (i : Nat) (g : Obj → Obj) : (s.updOb i g).svcs = s.svcs := rfl
@[simp] theorem State.updOb_sessions (s : State) (i : Nat) (g : Obj → Obj) : (s.updOb i g).sessions = s.sessions := rfl
@[simp] theorem State.updOb_nextSession (s : State) (i : Nat) (g : Obj → Obj) : (s.updOb i g).nextSession = s.nextSession := rfl
@[simp] theorem State.updOb_xparts (s : State) (i : Nat) (g : Obj → Obj) : (s.updOb i g).xparts = s.xparts := rfl
@[simp] theorem State.updOb_loader (s : State) (i : Nat) (g : Obj → Obj) : (s.updOb i g).loader = s.loader := rfl
@[simp] theorem State.updOb_invals (s : State) (i : Nat) (g : Obj → Obj) : (s.updOb i g).invals = s.invals := rfl
@[simp] theorem State.updOb_atsInvals (s : State) (i : Nat) (g : Obj → Obj) : (s.updOb i g).atsInvals = s.atsInvals := rfl
@[simp] theorem State.updOb_eid (s : State) (i : Nat) (g : Obj → Obj) : (s.updOb i g).eid = s.eid := rfl
@[simp] theorem State.updOb_fn (s : State) (i : Nat) (g : Obj → Obj) (j : Nat) : (s.updOb i g).fn j = s.fn j := rfl
@[simp] theorem State.updOb_cx (s : State) (i : Nat) (g : Obj → Obj) (j : Nat) : (s.updOb i g).cx j = s.cx j := rfl
@[simp] theorem State.updOb_pt (s : State) (i : Nat) (g : Obj → Obj) (j : Nat) : (s.updOb i g).pt j = s.pt j := rfl
@[simp] theorem State.updOb_cl (s : State) (i : Nat) (g : Obj → Obj) (j : Nat) : (s.updOb i g).cl j = s.cl j := rfl
@[simp] theorem State.updOb_rg (s : State) (i : Nat) (g : Obj → Obj) (j : Nat) : (s.updOb i g).rg j = s.rg j := rfl
@[simp] theorem State.updOb_sec (s : State) (i : Nat) (g : Obj → Obj) (j : Nat) : (s.updOb i g).sec j = s.sec j := rfl
@[simp] theorem State.updOb_fe (s : State) (i : Nat) (g : Obj → Obj) (j : Nat) : (s.updOb i g).fe j = s.fe j := rfl
@[simp] theorem State.updOb_pan (s : State) (i : Nat) (g : Obj → Obj) (j : Nat) : (s.updOb i g).pan j = s.pan j := rfl
@[simp] theorem State.updOb_un (s : State) (i : Nat) (g : Obj → Obj) (j : Nat) : (s.updOb i g).un j = s.un j := rfl
@[simp] theorem State.updOb_stk (s : State) (i : Nat) (g : Obj → Obj) (j : Nat) : (s.updOb i g).stk j = s.stk j := rfl
@[simp] theorem State.updOb_port (s : State) (i : Nat) (g : Obj → Obj) (j : Nat) : (s.updOb i g).port j = s.port j := rfl
@[simp] theorem State.updOb_xp (s : State) (i : Nat) (g : Obj → Obj) (j : Nat) : (s.updOb i g).xp j = s.xp j := rfl
@[simp] theorem State.updOb_svc (s : State) (i : Nat) (g : Obj → Obj) (j : Nat) : (s.updOb i g).svc j = s.svc j := rfl
@[simp] theorem State.updOb_hubUp (s : State) (i : Nat) (g : Obj → Obj) : (s.updOb i g).hubUp = s.hubUp := rfl
@[simp] theorem State.updOb_ready (s : State) (i : Nat) (g : Obj → Obj) : (s.updOb i g).ready = s.ready := rfl
@[simp] theorem State.updOb_clPresent (s : State) (i : Nat) (g : Obj → Obj) (c : Nat) : (s.updOb i g).clPresent c = s.clPresent c := rfl
@[simp] theorem State.updOb_funcExists (s : State) (i : Nat) (g : Obj → Obj) (j : Nat) : (s.updOb i g).funcExists j = s.funcExists j := rfl
@[simp] theorem State.updOb_partPresent (s : State) (i : Nat) (g : Obj → Obj) (p : Nat) : (s.updOb i g).partPresent p = s.partPresent p := rfl
@[simp] theorem State.updOb_portPresent (s : State) (i : Nat) (g : Obj → Obj) (p : Nat) : (s.updOb i g).portPresent p = s.portPresent p := rfl
@[simp] theorem State.updOb_stackFitted (s : State) (i : Nat) (g : Obj → Obj) (k : Nat) : (s.updOb i g).stackFitted k = s.stackFitted k := rfl

/-! ### updPan -/

@[simp] theorem State.updPan_same (s : State) (i : Nat) (g : Pan → Pan) : (s.updPan i g).pan i = g (s.pan i) := Tbl.get_upd_same _ _ _ _
@[simp] theorem State.updPan_ne (s : State) (i : Nat) (g : Pan → Pan) {j : Nat} (h : j ≠ i) : (s.updPan i g).pan j = s.pan j := Tbl.get_upd_ne _ _ _ h
theorem State.updPan_at (s : State) (i : Nat) (g : Pan → Pan) (j : Nat) : (s.updPan i g).pan j = if j = i then g (s.pan i) else s.pan j := by
  by_cases h : j = i <;> simp [h]
@[simp] theorem State.updPan_pending (s : State) (i : Nat) (g : Pan → Pan) : (s.updPan i g).pending = s.pending := rfl
@[simp] theorem State.updPan_free (s : State) (i : Nat) (g : Pan → Pan) : (s.updPan i g).free = s.free := rfl
@[simp] theorem State.updPan_out (s : State) (i : Nat) (g : Pan → Pan) : (s.updPan i g).out = s.out := rfl
@[simp] theorem State.updPan_part (s : State) (i : Nat) (g : Pan → Pan) : (s.updPan i g).part = s.part := rfl
@[simp] theorem State.updPan_pins (s : State) (i : Nat) (g : Pan → Pan) : (s.updPan i g).pins = s.pins := rfl
@[simp] theorem State.updPan_tap (s : State) (i : Nat) (g : Pan → Pan) : (s.updPan i g).tap = s.tap := rfl
@[simp] theorem State.updPan_time (s : State) (i : Nat) (g : Pan → Pan) : (s.updPan i g).time = s.time := rfl
@[simp] theorem State.updPan_hub (s : State) (i : Nat) (g : Pan → Pan) : (s.updPan i g).hub = s.hub := rfl
@[simp] theorem State.updPan_hostMem (s : State) (i : Nat) (g : Pan → Pan) : (s.updPan i g).hostMem = s.hostMem := rfl
@[simp] theorem State.updPan_vfEnable (s : State) (i : Nat) (g : Pan → Pan) : (s.updPan i g).vfEnable = s.vfEnable := rfl
@[simp] theorem State.updPan_numVfs (s : State) (i : Nat) (g : Pan → Pan) : (s.updPan i g).numVfs = s.numVfs := rfl
@[simp] theorem State.updPan_funcs (s : State) (i : Nat) (g : Pan → Pan) : (s.updPan i g).funcs = s.funcs := rfl
@[simp] theorem State.updPan_msix (s : State) (i : Nat) (g : Pan → Pan) : (s.updPan i g).msix = s.msix := rfl
@[simp] theorem State.updPan_msixEnable (s : State) (i : Nat) (g : Pan → Pan) : (s.updPan i g).msixEnable = s.msixEnable := rfl
@[simp] theorem State.updPan_msixMask (s : State) (i : Nat) (g : Pan → Pan) : (s.updPan i g).msixMask = s.msixMask := rfl
@[simp] theorem State.updPan_windows (s : State) (i : Nat) (g : Pan → Pan) : (s.updPan i g).windows = s.windows := rfl
@[simp] theorem State.updPan_parts (s : State) (i : Nat) (g : Pan → Pan) : (s.updPan i g).parts = s.parts := rfl
@[simp] theorem State.updPan_tokens (s : State) (i : Nat) (g : Pan → Pan) : (s.updPan i g).tokens = s.tokens := rfl
@[simp] theorem State.updPan_sluWindow (s : State) (i : Nat) (g : Pan → Pan) : (s.updPan i g).sluWindow = s.sluWindow := rfl
@[simp] theorem State.updPan_ctxs (s : State) (i : Nat) (g : Pan → Pan) : (s.updPan i g).ctxs = s.ctxs := rfl
@[simp] theorem State.updPan_trans (s : State) (i : Nat) (g : Pan → Pan) : (s.updPan i g).trans = s.trans := rfl
@[simp] theorem State.updPan_tlb (s : State) (i : Nat) (g : Pan → Pan) : (s.updPan i g).tlb = s.tlb := rfl
@[simp] theorem State.updPan_fences (s : State) (i : Nat) (g : Pan → Pan) : (s.updPan i g).fences = s.fences := rfl
@[simp] theorem State.updPan_fenceFresh (s : State) (i : Nat) (g : Pan → Pan) : (s.updPan i g).fenceFresh = s.fenceFresh := rfl
@[simp] theorem State.updPan_fenceFreed (s : State) (i : Nat) (g : Pan → Pan) : (s.updPan i g).fenceFreed = s.fenceFreed := rfl
@[simp] theorem State.updPan_fenceLower (s : State) (i : Nat) (g : Pan → Pan) : (s.updPan i g).fenceLower = s.fenceLower := rfl
@[simp] theorem State.updPan_remoteDrop (s : State) (i : Nat) (g : Pan → Pan) : (s.updPan i g).remoteDrop = s.remoteDrop := rfl
@[simp] theorem State.updPan_rings (s : State) (i : Nat) (g : Pan → Pan) : (s.updPan i g).rings = s.rings := rfl
@[simp] theorem State.updPan_ringTaken (s : State) (i : Nat) (g : Pan → Pan) : (s.updPan i g).ringTaken = s.ringTaken := rfl
@[simp] theorem State.updPan_ringTakenLc (s : State) (i : Nat) (g : Pan → Pan) : (s.updPan i g).ringTakenLc = s.ringTakenLc := rfl
@[simp] theorem State.updPan_objs (s : State) (i : Nat) (g : Pan → Pan) : (s.updPan i g).objs = s.objs := rfl
@[simp] theorem State.updPan_nextObj (s : State) (i : Nat) (g : Pan → Pan) : (s.updPan i g).nextObj = s.nextObj := rfl
@[simp] theorem State.updPan_hbm (s : State) (i : Nat) (g : Pan → Pan) : (s.updPan i g).hbm = s.hbm := rfl
@[simp] theorem State.updPan_chip (s : State) (i : Nat) (g : Pan → Pan) : (s.updPan i g).chip = s.chip := rfl
@[simp] theorem State.updPan_units (s : State) (i : Nat) (g : Pan → Pan) : (s.updPan i g).units = s.units := rfl
@[simp] theorem State.updPan_clusters (s : State) (i : Nat) (g : Pan → Pan) : (s.updPan i g).clusters = s.clusters := rfl
@[simp] theorem State.updPan_power (s : State) (i : Nat) (g : Pan → Pan) : (s.updPan i g).power = s.power := rfl
@[simp] theorem State.updPan_log (s : State) (i : Nat) (g : Pan → Pan) : (s.updPan i g).log = s.log := rfl
@[simp] theorem State.updPan_telem (s : State) (i : Nat) (g : Pan → Pan) : (s.updPan i g).telem = s.telem := rfl
@[simp] theorem State.updPan_secs (s : State) (i : Nat) (g : Pan → Pan) : (s.updPan i g).secs = s.secs := rfl
@[simp] theorem State.updPan_nextSec (s : State) (i : Nat) (g : Pan → Pan) : (s.updPan i g).nextSec = s.nextSec := rfl
@[simp] theorem State.updPan_cmds (s : State) (i : Nat) (g : Pan → Pan) : (s.updPan i g).cmds = s.cmds := rfl
@[simp] theorem State.updPan_replays (s : State) (i : Nat) (g : Pan → Pan) : (s.updPan i g).replays = s.replays := rfl
@[simp] theorem State.updPan_scanSet (s : State) (i : Nat) (g : Pan → Pan) : (s.updPan i g).scanSet = s.scanSet := rfl
@[simp] theorem State.updPan_hzn (s : State) (i : Nat) (g : Pan → Pan) : (s.updPan i g).hzn = s.hzn := rfl
@[simp] theorem State.updPan_svcs (s : State) (i : Nat) (g : Pan → Pan) : (s.updPan i g).svcs = s.svcs := rfl
@[simp] theorem State.updPan_sessions (s : State) (i : Nat) (g : Pan → Pan) : (s.updPan i g).sessions = s.sessions := rfl
@[simp] theorem State.updPan_nextSession (s : State) (i : Nat) (g : Pan → Pan) : (s.updPan i g).nextSession = s.nextSession := rfl
@[simp] theorem State.updPan_xparts (s : State) (i : Nat) (g : Pan → Pan) : (s.updPan i g).xparts = s.xparts := rfl
@[simp] theorem State.updPan_loader (s : State) (i : Nat) (g : Pan → Pan) : (s.updPan i g).loader = s.loader := rfl
@[simp] theorem State.updPan_invals (s : State) (i : Nat) (g : Pan → Pan) : (s.updPan i g).invals = s.invals := rfl
@[simp] theorem State.updPan_atsInvals (s : State) (i : Nat) (g : Pan → Pan) : (s.updPan i g).atsInvals = s.atsInvals := rfl
@[simp] theorem State.updPan_eid (s : State) (i : Nat) (g : Pan → Pan) : (s.updPan i g).eid = s.eid := rfl
@[simp] theorem State.updPan_fn (s : State) (i : Nat) (g : Pan → Pan) (j : Nat) : (s.updPan i g).fn j = s.fn j := rfl
@[simp] theorem State.updPan_cx (s : State) (i : Nat) (g : Pan → Pan) (j : Nat) : (s.updPan i g).cx j = s.cx j := rfl
@[simp] theorem State.updPan_pt (s : State) (i : Nat) (g : Pan → Pan) (j : Nat) : (s.updPan i g).pt j = s.pt j := rfl
@[simp] theorem State.updPan_cl (s : State) (i : Nat) (g : Pan → Pan) (j : Nat) : (s.updPan i g).cl j = s.cl j := rfl
@[simp] theorem State.updPan_rg (s : State) (i : Nat) (g : Pan → Pan) (j : Nat) : (s.updPan i g).rg j = s.rg j := rfl
@[simp] theorem State.updPan_sec (s : State) (i : Nat) (g : Pan → Pan) (j : Nat) : (s.updPan i g).sec j = s.sec j := rfl
@[simp] theorem State.updPan_fe (s : State) (i : Nat) (g : Pan → Pan) (j : Nat) : (s.updPan i g).fe j = s.fe j := rfl
@[simp] theorem State.updPan_ob (s : State) (i : Nat) (g : Pan → Pan) (j : Nat) : (s.updPan i g).ob j = s.ob j := rfl
@[simp] theorem State.updPan_un (s : State) (i : Nat) (g : Pan → Pan) (j : Nat) : (s.updPan i g).un j = s.un j := rfl
@[simp] theorem State.updPan_stk (s : State) (i : Nat) (g : Pan → Pan) (j : Nat) : (s.updPan i g).stk j = s.stk j := rfl
@[simp] theorem State.updPan_port (s : State) (i : Nat) (g : Pan → Pan) (j : Nat) : (s.updPan i g).port j = s.port j := rfl
@[simp] theorem State.updPan_xp (s : State) (i : Nat) (g : Pan → Pan) (j : Nat) : (s.updPan i g).xp j = s.xp j := rfl
@[simp] theorem State.updPan_svc (s : State) (i : Nat) (g : Pan → Pan) (j : Nat) : (s.updPan i g).svc j = s.svc j := rfl
@[simp] theorem State.updPan_hubUp (s : State) (i : Nat) (g : Pan → Pan) : (s.updPan i g).hubUp = s.hubUp := rfl
@[simp] theorem State.updPan_ready (s : State) (i : Nat) (g : Pan → Pan) : (s.updPan i g).ready = s.ready := rfl
@[simp] theorem State.updPan_clPresent (s : State) (i : Nat) (g : Pan → Pan) (c : Nat) : (s.updPan i g).clPresent c = s.clPresent c := rfl
@[simp] theorem State.updPan_funcExists (s : State) (i : Nat) (g : Pan → Pan) (j : Nat) : (s.updPan i g).funcExists j = s.funcExists j := rfl
@[simp] theorem State.updPan_partPresent (s : State) (i : Nat) (g : Pan → Pan) (p : Nat) : (s.updPan i g).partPresent p = s.partPresent p := rfl
@[simp] theorem State.updPan_portPresent (s : State) (i : Nat) (g : Pan → Pan) (p : Nat) : (s.updPan i g).portPresent p = s.portPresent p := rfl
@[simp] theorem State.updPan_stackFitted (s : State) (i : Nat) (g : Pan → Pan) (k : Nat) : (s.updPan i g).stackFitted k = s.stackFitted k := rfl

/-! ### updUn -/

@[simp] theorem State.updUn_same (s : State) (i : Nat) (g : CoreUnit → CoreUnit) : (s.updUn i g).un i = g (s.un i) := Tbl.get_upd_same _ _ _ _
@[simp] theorem State.updUn_ne (s : State) (i : Nat) (g : CoreUnit → CoreUnit) {j : Nat} (h : j ≠ i) : (s.updUn i g).un j = s.un j := Tbl.get_upd_ne _ _ _ h
theorem State.updUn_at (s : State) (i : Nat) (g : CoreUnit → CoreUnit) (j : Nat) : (s.updUn i g).un j = if j = i then g (s.un i) else s.un j := by
  by_cases h : j = i <;> simp [h]
@[simp] theorem State.updUn_pending (s : State) (i : Nat) (g : CoreUnit → CoreUnit) : (s.updUn i g).pending = s.pending := rfl
@[simp] theorem State.updUn_free (s : State) (i : Nat) (g : CoreUnit → CoreUnit) : (s.updUn i g).free = s.free := rfl
@[simp] theorem State.updUn_out (s : State) (i : Nat) (g : CoreUnit → CoreUnit) : (s.updUn i g).out = s.out := rfl
@[simp] theorem State.updUn_part (s : State) (i : Nat) (g : CoreUnit → CoreUnit) : (s.updUn i g).part = s.part := rfl
@[simp] theorem State.updUn_pins (s : State) (i : Nat) (g : CoreUnit → CoreUnit) : (s.updUn i g).pins = s.pins := rfl
@[simp] theorem State.updUn_tap (s : State) (i : Nat) (g : CoreUnit → CoreUnit) : (s.updUn i g).tap = s.tap := rfl
@[simp] theorem State.updUn_time (s : State) (i : Nat) (g : CoreUnit → CoreUnit) : (s.updUn i g).time = s.time := rfl
@[simp] theorem State.updUn_hub (s : State) (i : Nat) (g : CoreUnit → CoreUnit) : (s.updUn i g).hub = s.hub := rfl
@[simp] theorem State.updUn_hostMem (s : State) (i : Nat) (g : CoreUnit → CoreUnit) : (s.updUn i g).hostMem = s.hostMem := rfl
@[simp] theorem State.updUn_vfEnable (s : State) (i : Nat) (g : CoreUnit → CoreUnit) : (s.updUn i g).vfEnable = s.vfEnable := rfl
@[simp] theorem State.updUn_numVfs (s : State) (i : Nat) (g : CoreUnit → CoreUnit) : (s.updUn i g).numVfs = s.numVfs := rfl
@[simp] theorem State.updUn_funcs (s : State) (i : Nat) (g : CoreUnit → CoreUnit) : (s.updUn i g).funcs = s.funcs := rfl
@[simp] theorem State.updUn_msix (s : State) (i : Nat) (g : CoreUnit → CoreUnit) : (s.updUn i g).msix = s.msix := rfl
@[simp] theorem State.updUn_msixEnable (s : State) (i : Nat) (g : CoreUnit → CoreUnit) : (s.updUn i g).msixEnable = s.msixEnable := rfl
@[simp] theorem State.updUn_msixMask (s : State) (i : Nat) (g : CoreUnit → CoreUnit) : (s.updUn i g).msixMask = s.msixMask := rfl
@[simp] theorem State.updUn_windows (s : State) (i : Nat) (g : CoreUnit → CoreUnit) : (s.updUn i g).windows = s.windows := rfl
@[simp] theorem State.updUn_parts (s : State) (i : Nat) (g : CoreUnit → CoreUnit) : (s.updUn i g).parts = s.parts := rfl
@[simp] theorem State.updUn_tokens (s : State) (i : Nat) (g : CoreUnit → CoreUnit) : (s.updUn i g).tokens = s.tokens := rfl
@[simp] theorem State.updUn_sluWindow (s : State) (i : Nat) (g : CoreUnit → CoreUnit) : (s.updUn i g).sluWindow = s.sluWindow := rfl
@[simp] theorem State.updUn_ctxs (s : State) (i : Nat) (g : CoreUnit → CoreUnit) : (s.updUn i g).ctxs = s.ctxs := rfl
@[simp] theorem State.updUn_trans (s : State) (i : Nat) (g : CoreUnit → CoreUnit) : (s.updUn i g).trans = s.trans := rfl
@[simp] theorem State.updUn_tlb (s : State) (i : Nat) (g : CoreUnit → CoreUnit) : (s.updUn i g).tlb = s.tlb := rfl
@[simp] theorem State.updUn_fences (s : State) (i : Nat) (g : CoreUnit → CoreUnit) : (s.updUn i g).fences = s.fences := rfl
@[simp] theorem State.updUn_fenceFresh (s : State) (i : Nat) (g : CoreUnit → CoreUnit) : (s.updUn i g).fenceFresh = s.fenceFresh := rfl
@[simp] theorem State.updUn_fenceFreed (s : State) (i : Nat) (g : CoreUnit → CoreUnit) : (s.updUn i g).fenceFreed = s.fenceFreed := rfl
@[simp] theorem State.updUn_fenceLower (s : State) (i : Nat) (g : CoreUnit → CoreUnit) : (s.updUn i g).fenceLower = s.fenceLower := rfl
@[simp] theorem State.updUn_remoteDrop (s : State) (i : Nat) (g : CoreUnit → CoreUnit) : (s.updUn i g).remoteDrop = s.remoteDrop := rfl
@[simp] theorem State.updUn_rings (s : State) (i : Nat) (g : CoreUnit → CoreUnit) : (s.updUn i g).rings = s.rings := rfl
@[simp] theorem State.updUn_ringTaken (s : State) (i : Nat) (g : CoreUnit → CoreUnit) : (s.updUn i g).ringTaken = s.ringTaken := rfl
@[simp] theorem State.updUn_ringTakenLc (s : State) (i : Nat) (g : CoreUnit → CoreUnit) : (s.updUn i g).ringTakenLc = s.ringTakenLc := rfl
@[simp] theorem State.updUn_objs (s : State) (i : Nat) (g : CoreUnit → CoreUnit) : (s.updUn i g).objs = s.objs := rfl
@[simp] theorem State.updUn_nextObj (s : State) (i : Nat) (g : CoreUnit → CoreUnit) : (s.updUn i g).nextObj = s.nextObj := rfl
@[simp] theorem State.updUn_hbm (s : State) (i : Nat) (g : CoreUnit → CoreUnit) : (s.updUn i g).hbm = s.hbm := rfl
@[simp] theorem State.updUn_chip (s : State) (i : Nat) (g : CoreUnit → CoreUnit) : (s.updUn i g).chip = s.chip := rfl
@[simp] theorem State.updUn_pans (s : State) (i : Nat) (g : CoreUnit → CoreUnit) : (s.updUn i g).pans = s.pans := rfl
@[simp] theorem State.updUn_clusters (s : State) (i : Nat) (g : CoreUnit → CoreUnit) : (s.updUn i g).clusters = s.clusters := rfl
@[simp] theorem State.updUn_power (s : State) (i : Nat) (g : CoreUnit → CoreUnit) : (s.updUn i g).power = s.power := rfl
@[simp] theorem State.updUn_log (s : State) (i : Nat) (g : CoreUnit → CoreUnit) : (s.updUn i g).log = s.log := rfl
@[simp] theorem State.updUn_telem (s : State) (i : Nat) (g : CoreUnit → CoreUnit) : (s.updUn i g).telem = s.telem := rfl
@[simp] theorem State.updUn_secs (s : State) (i : Nat) (g : CoreUnit → CoreUnit) : (s.updUn i g).secs = s.secs := rfl
@[simp] theorem State.updUn_nextSec (s : State) (i : Nat) (g : CoreUnit → CoreUnit) : (s.updUn i g).nextSec = s.nextSec := rfl
@[simp] theorem State.updUn_cmds (s : State) (i : Nat) (g : CoreUnit → CoreUnit) : (s.updUn i g).cmds = s.cmds := rfl
@[simp] theorem State.updUn_replays (s : State) (i : Nat) (g : CoreUnit → CoreUnit) : (s.updUn i g).replays = s.replays := rfl
@[simp] theorem State.updUn_scanSet (s : State) (i : Nat) (g : CoreUnit → CoreUnit) : (s.updUn i g).scanSet = s.scanSet := rfl
@[simp] theorem State.updUn_hzn (s : State) (i : Nat) (g : CoreUnit → CoreUnit) : (s.updUn i g).hzn = s.hzn := rfl
@[simp] theorem State.updUn_svcs (s : State) (i : Nat) (g : CoreUnit → CoreUnit) : (s.updUn i g).svcs = s.svcs := rfl
@[simp] theorem State.updUn_sessions (s : State) (i : Nat) (g : CoreUnit → CoreUnit) : (s.updUn i g).sessions = s.sessions := rfl
@[simp] theorem State.updUn_nextSession (s : State) (i : Nat) (g : CoreUnit → CoreUnit) : (s.updUn i g).nextSession = s.nextSession := rfl
@[simp] theorem State.updUn_xparts (s : State) (i : Nat) (g : CoreUnit → CoreUnit) : (s.updUn i g).xparts = s.xparts := rfl
@[simp] theorem State.updUn_loader (s : State) (i : Nat) (g : CoreUnit → CoreUnit) : (s.updUn i g).loader = s.loader := rfl
@[simp] theorem State.updUn_invals (s : State) (i : Nat) (g : CoreUnit → CoreUnit) : (s.updUn i g).invals = s.invals := rfl
@[simp] theorem State.updUn_atsInvals (s : State) (i : Nat) (g : CoreUnit → CoreUnit) : (s.updUn i g).atsInvals = s.atsInvals := rfl
@[simp] theorem State.updUn_eid (s : State) (i : Nat) (g : CoreUnit → CoreUnit) : (s.updUn i g).eid = s.eid := rfl
@[simp] theorem State.updUn_fn (s : State) (i : Nat) (g : CoreUnit → CoreUnit) (j : Nat) : (s.updUn i g).fn j = s.fn j := rfl
@[simp] theorem State.updUn_cx (s : State) (i : Nat) (g : CoreUnit → CoreUnit) (j : Nat) : (s.updUn i g).cx j = s.cx j := rfl
@[simp] theorem State.updUn_pt (s : State) (i : Nat) (g : CoreUnit → CoreUnit) (j : Nat) : (s.updUn i g).pt j = s.pt j := rfl
@[simp] theorem State.updUn_cl (s : State) (i : Nat) (g : CoreUnit → CoreUnit) (j : Nat) : (s.updUn i g).cl j = s.cl j := rfl
@[simp] theorem State.updUn_rg (s : State) (i : Nat) (g : CoreUnit → CoreUnit) (j : Nat) : (s.updUn i g).rg j = s.rg j := rfl
@[simp] theorem State.updUn_sec (s : State) (i : Nat) (g : CoreUnit → CoreUnit) (j : Nat) : (s.updUn i g).sec j = s.sec j := rfl
@[simp] theorem State.updUn_fe (s : State) (i : Nat) (g : CoreUnit → CoreUnit) (j : Nat) : (s.updUn i g).fe j = s.fe j := rfl
@[simp] theorem State.updUn_ob (s : State) (i : Nat) (g : CoreUnit → CoreUnit) (j : Nat) : (s.updUn i g).ob j = s.ob j := rfl
@[simp] theorem State.updUn_pan (s : State) (i : Nat) (g : CoreUnit → CoreUnit) (j : Nat) : (s.updUn i g).pan j = s.pan j := rfl
@[simp] theorem State.updUn_stk (s : State) (i : Nat) (g : CoreUnit → CoreUnit) (j : Nat) : (s.updUn i g).stk j = s.stk j := rfl
@[simp] theorem State.updUn_port (s : State) (i : Nat) (g : CoreUnit → CoreUnit) (j : Nat) : (s.updUn i g).port j = s.port j := rfl
@[simp] theorem State.updUn_xp (s : State) (i : Nat) (g : CoreUnit → CoreUnit) (j : Nat) : (s.updUn i g).xp j = s.xp j := rfl
@[simp] theorem State.updUn_svc (s : State) (i : Nat) (g : CoreUnit → CoreUnit) (j : Nat) : (s.updUn i g).svc j = s.svc j := rfl
@[simp] theorem State.updUn_hubUp (s : State) (i : Nat) (g : CoreUnit → CoreUnit) : (s.updUn i g).hubUp = s.hubUp := rfl
@[simp] theorem State.updUn_ready (s : State) (i : Nat) (g : CoreUnit → CoreUnit) : (s.updUn i g).ready = s.ready := rfl
@[simp] theorem State.updUn_clPresent (s : State) (i : Nat) (g : CoreUnit → CoreUnit) (c : Nat) : (s.updUn i g).clPresent c = s.clPresent c := rfl
@[simp] theorem State.updUn_funcExists (s : State) (i : Nat) (g : CoreUnit → CoreUnit) (j : Nat) : (s.updUn i g).funcExists j = s.funcExists j := rfl
@[simp] theorem State.updUn_partPresent (s : State) (i : Nat) (g : CoreUnit → CoreUnit) (p : Nat) : (s.updUn i g).partPresent p = s.partPresent p := rfl
@[simp] theorem State.updUn_portPresent (s : State) (i : Nat) (g : CoreUnit → CoreUnit) (p : Nat) : (s.updUn i g).portPresent p = s.portPresent p := rfl
@[simp] theorem State.updUn_stackFitted (s : State) (i : Nat) (g : CoreUnit → CoreUnit) (k : Nat) : (s.updUn i g).stackFitted k = s.stackFitted k := rfl

/-! ### updStk -/

@[simp] theorem State.updStk_same (s : State) (i : Nat) (g : Stack → Stack) : (s.updStk i g).stk i = g (s.stk i) := Tbl.get_upd_same _ _ _ _
@[simp] theorem State.updStk_ne (s : State) (i : Nat) (g : Stack → Stack) {j : Nat} (h : j ≠ i) : (s.updStk i g).stk j = s.stk j := Tbl.get_upd_ne _ _ _ h
theorem State.updStk_at (s : State) (i : Nat) (g : Stack → Stack) (j : Nat) : (s.updStk i g).stk j = if j = i then g (s.stk i) else s.stk j := by
  by_cases h : j = i <;> simp [h]
@[simp] theorem State.updStk_pending (s : State) (i : Nat) (g : Stack → Stack) : (s.updStk i g).pending = s.pending := rfl
@[simp] theorem State.updStk_free (s : State) (i : Nat) (g : Stack → Stack) : (s.updStk i g).free = s.free := rfl
@[simp] theorem State.updStk_out (s : State) (i : Nat) (g : Stack → Stack) : (s.updStk i g).out = s.out := rfl
@[simp] theorem State.updStk_part (s : State) (i : Nat) (g : Stack → Stack) : (s.updStk i g).part = s.part := rfl
@[simp] theorem State.updStk_pins (s : State) (i : Nat) (g : Stack → Stack) : (s.updStk i g).pins = s.pins := rfl
@[simp] theorem State.updStk_tap (s : State) (i : Nat) (g : Stack → Stack) : (s.updStk i g).tap = s.tap := rfl
@[simp] theorem State.updStk_time (s : State) (i : Nat) (g : Stack → Stack) : (s.updStk i g).time = s.time := rfl
@[simp] theorem State.updStk_hub (s : State) (i : Nat) (g : Stack → Stack) : (s.updStk i g).hub = s.hub := rfl
@[simp] theorem State.updStk_hostMem (s : State) (i : Nat) (g : Stack → Stack) : (s.updStk i g).hostMem = s.hostMem := rfl
@[simp] theorem State.updStk_vfEnable (s : State) (i : Nat) (g : Stack → Stack) : (s.updStk i g).vfEnable = s.vfEnable := rfl
@[simp] theorem State.updStk_numVfs (s : State) (i : Nat) (g : Stack → Stack) : (s.updStk i g).numVfs = s.numVfs := rfl
@[simp] theorem State.updStk_funcs (s : State) (i : Nat) (g : Stack → Stack) : (s.updStk i g).funcs = s.funcs := rfl
@[simp] theorem State.updStk_msix (s : State) (i : Nat) (g : Stack → Stack) : (s.updStk i g).msix = s.msix := rfl
@[simp] theorem State.updStk_msixEnable (s : State) (i : Nat) (g : Stack → Stack) : (s.updStk i g).msixEnable = s.msixEnable := rfl
@[simp] theorem State.updStk_msixMask (s : State) (i : Nat) (g : Stack → Stack) : (s.updStk i g).msixMask = s.msixMask := rfl
@[simp] theorem State.updStk_windows (s : State) (i : Nat) (g : Stack → Stack) : (s.updStk i g).windows = s.windows := rfl
@[simp] theorem State.updStk_parts (s : State) (i : Nat) (g : Stack → Stack) : (s.updStk i g).parts = s.parts := rfl
@[simp] theorem State.updStk_tokens (s : State) (i : Nat) (g : Stack → Stack) : (s.updStk i g).tokens = s.tokens := rfl
@[simp] theorem State.updStk_sluWindow (s : State) (i : Nat) (g : Stack → Stack) : (s.updStk i g).sluWindow = s.sluWindow := rfl
@[simp] theorem State.updStk_ctxs (s : State) (i : Nat) (g : Stack → Stack) : (s.updStk i g).ctxs = s.ctxs := rfl
@[simp] theorem State.updStk_trans (s : State) (i : Nat) (g : Stack → Stack) : (s.updStk i g).trans = s.trans := rfl
@[simp] theorem State.updStk_tlb (s : State) (i : Nat) (g : Stack → Stack) : (s.updStk i g).tlb = s.tlb := rfl
@[simp] theorem State.updStk_fences (s : State) (i : Nat) (g : Stack → Stack) : (s.updStk i g).fences = s.fences := rfl
@[simp] theorem State.updStk_fenceFresh (s : State) (i : Nat) (g : Stack → Stack) : (s.updStk i g).fenceFresh = s.fenceFresh := rfl
@[simp] theorem State.updStk_fenceFreed (s : State) (i : Nat) (g : Stack → Stack) : (s.updStk i g).fenceFreed = s.fenceFreed := rfl
@[simp] theorem State.updStk_fenceLower (s : State) (i : Nat) (g : Stack → Stack) : (s.updStk i g).fenceLower = s.fenceLower := rfl
@[simp] theorem State.updStk_remoteDrop (s : State) (i : Nat) (g : Stack → Stack) : (s.updStk i g).remoteDrop = s.remoteDrop := rfl
@[simp] theorem State.updStk_rings (s : State) (i : Nat) (g : Stack → Stack) : (s.updStk i g).rings = s.rings := rfl
@[simp] theorem State.updStk_ringTaken (s : State) (i : Nat) (g : Stack → Stack) : (s.updStk i g).ringTaken = s.ringTaken := rfl
@[simp] theorem State.updStk_ringTakenLc (s : State) (i : Nat) (g : Stack → Stack) : (s.updStk i g).ringTakenLc = s.ringTakenLc := rfl
@[simp] theorem State.updStk_objs (s : State) (i : Nat) (g : Stack → Stack) : (s.updStk i g).objs = s.objs := rfl
@[simp] theorem State.updStk_nextObj (s : State) (i : Nat) (g : Stack → Stack) : (s.updStk i g).nextObj = s.nextObj := rfl
@[simp] theorem State.updStk_chip (s : State) (i : Nat) (g : Stack → Stack) : (s.updStk i g).chip = s.chip := rfl
@[simp] theorem State.updStk_pans (s : State) (i : Nat) (g : Stack → Stack) : (s.updStk i g).pans = s.pans := rfl
@[simp] theorem State.updStk_units (s : State) (i : Nat) (g : Stack → Stack) : (s.updStk i g).units = s.units := rfl
@[simp] theorem State.updStk_clusters (s : State) (i : Nat) (g : Stack → Stack) : (s.updStk i g).clusters = s.clusters := rfl
@[simp] theorem State.updStk_power (s : State) (i : Nat) (g : Stack → Stack) : (s.updStk i g).power = s.power := rfl
@[simp] theorem State.updStk_log (s : State) (i : Nat) (g : Stack → Stack) : (s.updStk i g).log = s.log := rfl
@[simp] theorem State.updStk_telem (s : State) (i : Nat) (g : Stack → Stack) : (s.updStk i g).telem = s.telem := rfl
@[simp] theorem State.updStk_secs (s : State) (i : Nat) (g : Stack → Stack) : (s.updStk i g).secs = s.secs := rfl
@[simp] theorem State.updStk_nextSec (s : State) (i : Nat) (g : Stack → Stack) : (s.updStk i g).nextSec = s.nextSec := rfl
@[simp] theorem State.updStk_cmds (s : State) (i : Nat) (g : Stack → Stack) : (s.updStk i g).cmds = s.cmds := rfl
@[simp] theorem State.updStk_replays (s : State) (i : Nat) (g : Stack → Stack) : (s.updStk i g).replays = s.replays := rfl
@[simp] theorem State.updStk_scanSet (s : State) (i : Nat) (g : Stack → Stack) : (s.updStk i g).scanSet = s.scanSet := rfl
@[simp] theorem State.updStk_hzn (s : State) (i : Nat) (g : Stack → Stack) : (s.updStk i g).hzn = s.hzn := rfl
@[simp] theorem State.updStk_svcs (s : State) (i : Nat) (g : Stack → Stack) : (s.updStk i g).svcs = s.svcs := rfl
@[simp] theorem State.updStk_sessions (s : State) (i : Nat) (g : Stack → Stack) : (s.updStk i g).sessions = s.sessions := rfl
@[simp] theorem State.updStk_nextSession (s : State) (i : Nat) (g : Stack → Stack) : (s.updStk i g).nextSession = s.nextSession := rfl
@[simp] theorem State.updStk_xparts (s : State) (i : Nat) (g : Stack → Stack) : (s.updStk i g).xparts = s.xparts := rfl
@[simp] theorem State.updStk_loader (s : State) (i : Nat) (g : Stack → Stack) : (s.updStk i g).loader = s.loader := rfl
@[simp] theorem State.updStk_invals (s : State) (i : Nat) (g : Stack → Stack) : (s.updStk i g).invals = s.invals := rfl
@[simp] theorem State.updStk_atsInvals (s : State) (i : Nat) (g : Stack → Stack) : (s.updStk i g).atsInvals = s.atsInvals := rfl
@[simp] theorem State.updStk_eid (s : State) (i : Nat) (g : Stack → Stack) : (s.updStk i g).eid = s.eid := rfl
@[simp] theorem State.updStk_fn (s : State) (i : Nat) (g : Stack → Stack) (j : Nat) : (s.updStk i g).fn j = s.fn j := rfl
@[simp] theorem State.updStk_cx (s : State) (i : Nat) (g : Stack → Stack) (j : Nat) : (s.updStk i g).cx j = s.cx j := rfl
@[simp] theorem State.updStk_pt (s : State) (i : Nat) (g : Stack → Stack) (j : Nat) : (s.updStk i g).pt j = s.pt j := rfl
@[simp] theorem State.updStk_cl (s : State) (i : Nat) (g : Stack → Stack) (j : Nat) : (s.updStk i g).cl j = s.cl j := rfl
@[simp] theorem State.updStk_rg (s : State) (i : Nat) (g : Stack → Stack) (j : Nat) : (s.updStk i g).rg j = s.rg j := rfl
@[simp] theorem State.updStk_sec (s : State) (i : Nat) (g : Stack → Stack) (j : Nat) : (s.updStk i g).sec j = s.sec j := rfl
@[simp] theorem State.updStk_fe (s : State) (i : Nat) (g : Stack → Stack) (j : Nat) : (s.updStk i g).fe j = s.fe j := rfl
@[simp] theorem State.updStk_ob (s : State) (i : Nat) (g : Stack → Stack) (j : Nat) : (s.updStk i g).ob j = s.ob j := rfl
@[simp] theorem State.updStk_pan (s : State) (i : Nat) (g : Stack → Stack) (j : Nat) : (s.updStk i g).pan j = s.pan j := rfl
@[simp] theorem State.updStk_un (s : State) (i : Nat) (g : Stack → Stack) (j : Nat) : (s.updStk i g).un j = s.un j := rfl
@[simp] theorem State.updStk_port (s : State) (i : Nat) (g : Stack → Stack) (j : Nat) : (s.updStk i g).port j = s.port j := rfl
@[simp] theorem State.updStk_xp (s : State) (i : Nat) (g : Stack → Stack) (j : Nat) : (s.updStk i g).xp j = s.xp j := rfl
@[simp] theorem State.updStk_svc (s : State) (i : Nat) (g : Stack → Stack) (j : Nat) : (s.updStk i g).svc j = s.svc j := rfl
@[simp] theorem State.updStk_hubUp (s : State) (i : Nat) (g : Stack → Stack) : (s.updStk i g).hubUp = s.hubUp := rfl
@[simp] theorem State.updStk_ready (s : State) (i : Nat) (g : Stack → Stack) : (s.updStk i g).ready = s.ready := rfl
@[simp] theorem State.updStk_clPresent (s : State) (i : Nat) (g : Stack → Stack) (c : Nat) : (s.updStk i g).clPresent c = s.clPresent c := rfl
@[simp] theorem State.updStk_funcExists (s : State) (i : Nat) (g : Stack → Stack) (j : Nat) : (s.updStk i g).funcExists j = s.funcExists j := rfl
@[simp] theorem State.updStk_partPresent (s : State) (i : Nat) (g : Stack → Stack) (p : Nat) : (s.updStk i g).partPresent p = s.partPresent p := rfl
@[simp] theorem State.updStk_portPresent (s : State) (i : Nat) (g : Stack → Stack) (p : Nat) : (s.updStk i g).portPresent p = s.portPresent p := rfl
@[simp] theorem State.updStk_stackFitted (s : State) (i : Nat) (g : Stack → Stack) (k : Nat) : (s.updStk i g).stackFitted k = s.stackFitted k := rfl

/-! ### updPort -/

@[simp] theorem State.updPort_same (s : State) (i : Nat) (g : Port → Port) : (s.updPort i g).port i = g (s.port i) := Tbl.get_upd_same _ _ _ _
@[simp] theorem State.updPort_ne (s : State) (i : Nat) (g : Port → Port) {j : Nat} (h : j ≠ i) : (s.updPort i g).port j = s.port j := Tbl.get_upd_ne _ _ _ h
theorem State.updPort_at (s : State) (i : Nat) (g : Port → Port) (j : Nat) : (s.updPort i g).port j = if j = i then g (s.port i) else s.port j := by
  by_cases h : j = i <;> simp [h]
@[simp] theorem State.updPort_pending (s : State) (i : Nat) (g : Port → Port) : (s.updPort i g).pending = s.pending := rfl
@[simp] theorem State.updPort_free (s : State) (i : Nat) (g : Port → Port) : (s.updPort i g).free = s.free := rfl
@[simp] theorem State.updPort_out (s : State) (i : Nat) (g : Port → Port) : (s.updPort i g).out = s.out := rfl
@[simp] theorem State.updPort_part (s : State) (i : Nat) (g : Port → Port) : (s.updPort i g).part = s.part := rfl
@[simp] theorem State.updPort_pins (s : State) (i : Nat) (g : Port → Port) : (s.updPort i g).pins = s.pins := rfl
@[simp] theorem State.updPort_tap (s : State) (i : Nat) (g : Port → Port) : (s.updPort i g).tap = s.tap := rfl
@[simp] theorem State.updPort_time (s : State) (i : Nat) (g : Port → Port) : (s.updPort i g).time = s.time := rfl
@[simp] theorem State.updPort_hub (s : State) (i : Nat) (g : Port → Port) : (s.updPort i g).hub = s.hub := rfl
@[simp] theorem State.updPort_hostMem (s : State) (i : Nat) (g : Port → Port) : (s.updPort i g).hostMem = s.hostMem := rfl
@[simp] theorem State.updPort_vfEnable (s : State) (i : Nat) (g : Port → Port) : (s.updPort i g).vfEnable = s.vfEnable := rfl
@[simp] theorem State.updPort_numVfs (s : State) (i : Nat) (g : Port → Port) : (s.updPort i g).numVfs = s.numVfs := rfl
@[simp] theorem State.updPort_funcs (s : State) (i : Nat) (g : Port → Port) : (s.updPort i g).funcs = s.funcs := rfl
@[simp] theorem State.updPort_msix (s : State) (i : Nat) (g : Port → Port) : (s.updPort i g).msix = s.msix := rfl
@[simp] theorem State.updPort_msixEnable (s : State) (i : Nat) (g : Port → Port) : (s.updPort i g).msixEnable = s.msixEnable := rfl
@[simp] theorem State.updPort_msixMask (s : State) (i : Nat) (g : Port → Port) : (s.updPort i g).msixMask = s.msixMask := rfl
@[simp] theorem State.updPort_windows (s : State) (i : Nat) (g : Port → Port) : (s.updPort i g).windows = s.windows := rfl
@[simp] theorem State.updPort_parts (s : State) (i : Nat) (g : Port → Port) : (s.updPort i g).parts = s.parts := rfl
@[simp] theorem State.updPort_tokens (s : State) (i : Nat) (g : Port → Port) : (s.updPort i g).tokens = s.tokens := rfl
@[simp] theorem State.updPort_sluWindow (s : State) (i : Nat) (g : Port → Port) : (s.updPort i g).sluWindow = s.sluWindow := rfl
@[simp] theorem State.updPort_ctxs (s : State) (i : Nat) (g : Port → Port) : (s.updPort i g).ctxs = s.ctxs := rfl
@[simp] theorem State.updPort_trans (s : State) (i : Nat) (g : Port → Port) : (s.updPort i g).trans = s.trans := rfl
@[simp] theorem State.updPort_tlb (s : State) (i : Nat) (g : Port → Port) : (s.updPort i g).tlb = s.tlb := rfl
@[simp] theorem State.updPort_fences (s : State) (i : Nat) (g : Port → Port) : (s.updPort i g).fences = s.fences := rfl
@[simp] theorem State.updPort_fenceFresh (s : State) (i : Nat) (g : Port → Port) : (s.updPort i g).fenceFresh = s.fenceFresh := rfl
@[simp] theorem State.updPort_fenceFreed (s : State) (i : Nat) (g : Port → Port) : (s.updPort i g).fenceFreed = s.fenceFreed := rfl
@[simp] theorem State.updPort_fenceLower (s : State) (i : Nat) (g : Port → Port) : (s.updPort i g).fenceLower = s.fenceLower := rfl
@[simp] theorem State.updPort_remoteDrop (s : State) (i : Nat) (g : Port → Port) : (s.updPort i g).remoteDrop = s.remoteDrop := rfl
@[simp] theorem State.updPort_rings (s : State) (i : Nat) (g : Port → Port) : (s.updPort i g).rings = s.rings := rfl
@[simp] theorem State.updPort_ringTaken (s : State) (i : Nat) (g : Port → Port) : (s.updPort i g).ringTaken = s.ringTaken := rfl
@[simp] theorem State.updPort_ringTakenLc (s : State) (i : Nat) (g : Port → Port) : (s.updPort i g).ringTakenLc = s.ringTakenLc := rfl
@[simp] theorem State.updPort_objs (s : State) (i : Nat) (g : Port → Port) : (s.updPort i g).objs = s.objs := rfl
@[simp] theorem State.updPort_nextObj (s : State) (i : Nat) (g : Port → Port) : (s.updPort i g).nextObj = s.nextObj := rfl
@[simp] theorem State.updPort_hbm (s : State) (i : Nat) (g : Port → Port) : (s.updPort i g).hbm = s.hbm := rfl
@[simp] theorem State.updPort_chip (s : State) (i : Nat) (g : Port → Port) : (s.updPort i g).chip = s.chip := rfl
@[simp] theorem State.updPort_pans (s : State) (i : Nat) (g : Port → Port) : (s.updPort i g).pans = s.pans := rfl
@[simp] theorem State.updPort_units (s : State) (i : Nat) (g : Port → Port) : (s.updPort i g).units = s.units := rfl
@[simp] theorem State.updPort_clusters (s : State) (i : Nat) (g : Port → Port) : (s.updPort i g).clusters = s.clusters := rfl
@[simp] theorem State.updPort_power (s : State) (i : Nat) (g : Port → Port) : (s.updPort i g).power = s.power := rfl
@[simp] theorem State.updPort_log (s : State) (i : Nat) (g : Port → Port) : (s.updPort i g).log = s.log := rfl
@[simp] theorem State.updPort_telem (s : State) (i : Nat) (g : Port → Port) : (s.updPort i g).telem = s.telem := rfl
@[simp] theorem State.updPort_secs (s : State) (i : Nat) (g : Port → Port) : (s.updPort i g).secs = s.secs := rfl
@[simp] theorem State.updPort_nextSec (s : State) (i : Nat) (g : Port → Port) : (s.updPort i g).nextSec = s.nextSec := rfl
@[simp] theorem State.updPort_cmds (s : State) (i : Nat) (g : Port → Port) : (s.updPort i g).cmds = s.cmds := rfl
@[simp] theorem State.updPort_replays (s : State) (i : Nat) (g : Port → Port) : (s.updPort i g).replays = s.replays := rfl
@[simp] theorem State.updPort_scanSet (s : State) (i : Nat) (g : Port → Port) : (s.updPort i g).scanSet = s.scanSet := rfl
@[simp] theorem State.updPort_svcs (s : State) (i : Nat) (g : Port → Port) : (s.updPort i g).svcs = s.svcs := rfl
@[simp] theorem State.updPort_sessions (s : State) (i : Nat) (g : Port → Port) : (s.updPort i g).sessions = s.sessions := rfl
@[simp] theorem State.updPort_nextSession (s : State) (i : Nat) (g : Port → Port) : (s.updPort i g).nextSession = s.nextSession := rfl
@[simp] theorem State.updPort_xparts (s : State) (i : Nat) (g : Port → Port) : (s.updPort i g).xparts = s.xparts := rfl
@[simp] theorem State.updPort_loader (s : State) (i : Nat) (g : Port → Port) : (s.updPort i g).loader = s.loader := rfl
@[simp] theorem State.updPort_invals (s : State) (i : Nat) (g : Port → Port) : (s.updPort i g).invals = s.invals := rfl
@[simp] theorem State.updPort_atsInvals (s : State) (i : Nat) (g : Port → Port) : (s.updPort i g).atsInvals = s.atsInvals := rfl
@[simp] theorem State.updPort_eid (s : State) (i : Nat) (g : Port → Port) : (s.updPort i g).eid = s.eid := rfl
@[simp] theorem State.updPort_fn (s : State) (i : Nat) (g : Port → Port) (j : Nat) : (s.updPort i g).fn j = s.fn j := rfl
@[simp] theorem State.updPort_cx (s : State) (i : Nat) (g : Port → Port) (j : Nat) : (s.updPort i g).cx j = s.cx j := rfl
@[simp] theorem State.updPort_pt (s : State) (i : Nat) (g : Port → Port) (j : Nat) : (s.updPort i g).pt j = s.pt j := rfl
@[simp] theorem State.updPort_cl (s : State) (i : Nat) (g : Port → Port) (j : Nat) : (s.updPort i g).cl j = s.cl j := rfl
@[simp] theorem State.updPort_rg (s : State) (i : Nat) (g : Port → Port) (j : Nat) : (s.updPort i g).rg j = s.rg j := rfl
@[simp] theorem State.updPort_sec (s : State) (i : Nat) (g : Port → Port) (j : Nat) : (s.updPort i g).sec j = s.sec j := rfl
@[simp] theorem State.updPort_fe (s : State) (i : Nat) (g : Port → Port) (j : Nat) : (s.updPort i g).fe j = s.fe j := rfl
@[simp] theorem State.updPort_ob (s : State) (i : Nat) (g : Port → Port) (j : Nat) : (s.updPort i g).ob j = s.ob j := rfl
@[simp] theorem State.updPort_pan (s : State) (i : Nat) (g : Port → Port) (j : Nat) : (s.updPort i g).pan j = s.pan j := rfl
@[simp] theorem State.updPort_un (s : State) (i : Nat) (g : Port → Port) (j : Nat) : (s.updPort i g).un j = s.un j := rfl
@[simp] theorem State.updPort_stk (s : State) (i : Nat) (g : Port → Port) (j : Nat) : (s.updPort i g).stk j = s.stk j := rfl
@[simp] theorem State.updPort_xp (s : State) (i : Nat) (g : Port → Port) (j : Nat) : (s.updPort i g).xp j = s.xp j := rfl
@[simp] theorem State.updPort_svc (s : State) (i : Nat) (g : Port → Port) (j : Nat) : (s.updPort i g).svc j = s.svc j := rfl
@[simp] theorem State.updPort_hubUp (s : State) (i : Nat) (g : Port → Port) : (s.updPort i g).hubUp = s.hubUp := rfl
@[simp] theorem State.updPort_ready (s : State) (i : Nat) (g : Port → Port) : (s.updPort i g).ready = s.ready := rfl
@[simp] theorem State.updPort_clPresent (s : State) (i : Nat) (g : Port → Port) (c : Nat) : (s.updPort i g).clPresent c = s.clPresent c := rfl
@[simp] theorem State.updPort_funcExists (s : State) (i : Nat) (g : Port → Port) (j : Nat) : (s.updPort i g).funcExists j = s.funcExists j := rfl
@[simp] theorem State.updPort_partPresent (s : State) (i : Nat) (g : Port → Port) (p : Nat) : (s.updPort i g).partPresent p = s.partPresent p := rfl
@[simp] theorem State.updPort_portPresent (s : State) (i : Nat) (g : Port → Port) (p : Nat) : (s.updPort i g).portPresent p = s.portPresent p := rfl
@[simp] theorem State.updPort_stackFitted (s : State) (i : Nat) (g : Port → Port) (k : Nat) : (s.updPort i g).stackFitted k = s.stackFitted k := rfl

/-! ### updXp -/

@[simp] theorem State.updXp_same (s : State) (i : Nat) (g : XPart → XPart) : (s.updXp i g).xp i = g (s.xp i) := Tbl.get_upd_same _ _ _ _
@[simp] theorem State.updXp_ne (s : State) (i : Nat) (g : XPart → XPart) {j : Nat} (h : j ≠ i) : (s.updXp i g).xp j = s.xp j := Tbl.get_upd_ne _ _ _ h
theorem State.updXp_at (s : State) (i : Nat) (g : XPart → XPart) (j : Nat) : (s.updXp i g).xp j = if j = i then g (s.xp i) else s.xp j := by
  by_cases h : j = i <;> simp [h]
@[simp] theorem State.updXp_pending (s : State) (i : Nat) (g : XPart → XPart) : (s.updXp i g).pending = s.pending := rfl
@[simp] theorem State.updXp_free (s : State) (i : Nat) (g : XPart → XPart) : (s.updXp i g).free = s.free := rfl
@[simp] theorem State.updXp_out (s : State) (i : Nat) (g : XPart → XPart) : (s.updXp i g).out = s.out := rfl
@[simp] theorem State.updXp_part (s : State) (i : Nat) (g : XPart → XPart) : (s.updXp i g).part = s.part := rfl
@[simp] theorem State.updXp_pins (s : State) (i : Nat) (g : XPart → XPart) : (s.updXp i g).pins = s.pins := rfl
@[simp] theorem State.updXp_tap (s : State) (i : Nat) (g : XPart → XPart) : (s.updXp i g).tap = s.tap := rfl
@[simp] theorem State.updXp_time (s : State) (i : Nat) (g : XPart → XPart) : (s.updXp i g).time = s.time := rfl
@[simp] theorem State.updXp_hub (s : State) (i : Nat) (g : XPart → XPart) : (s.updXp i g).hub = s.hub := rfl
@[simp] theorem State.updXp_hostMem (s : State) (i : Nat) (g : XPart → XPart) : (s.updXp i g).hostMem = s.hostMem := rfl
@[simp] theorem State.updXp_vfEnable (s : State) (i : Nat) (g : XPart → XPart) : (s.updXp i g).vfEnable = s.vfEnable := rfl
@[simp] theorem State.updXp_numVfs (s : State) (i : Nat) (g : XPart → XPart) : (s.updXp i g).numVfs = s.numVfs := rfl
@[simp] theorem State.updXp_funcs (s : State) (i : Nat) (g : XPart → XPart) : (s.updXp i g).funcs = s.funcs := rfl
@[simp] theorem State.updXp_msix (s : State) (i : Nat) (g : XPart → XPart) : (s.updXp i g).msix = s.msix := rfl
@[simp] theorem State.updXp_msixEnable (s : State) (i : Nat) (g : XPart → XPart) : (s.updXp i g).msixEnable = s.msixEnable := rfl
@[simp] theorem State.updXp_msixMask (s : State) (i : Nat) (g : XPart → XPart) : (s.updXp i g).msixMask = s.msixMask := rfl
@[simp] theorem State.updXp_windows (s : State) (i : Nat) (g : XPart → XPart) : (s.updXp i g).windows = s.windows := rfl
@[simp] theorem State.updXp_parts (s : State) (i : Nat) (g : XPart → XPart) : (s.updXp i g).parts = s.parts := rfl
@[simp] theorem State.updXp_tokens (s : State) (i : Nat) (g : XPart → XPart) : (s.updXp i g).tokens = s.tokens := rfl
@[simp] theorem State.updXp_sluWindow (s : State) (i : Nat) (g : XPart → XPart) : (s.updXp i g).sluWindow = s.sluWindow := rfl
@[simp] theorem State.updXp_ctxs (s : State) (i : Nat) (g : XPart → XPart) : (s.updXp i g).ctxs = s.ctxs := rfl
@[simp] theorem State.updXp_trans (s : State) (i : Nat) (g : XPart → XPart) : (s.updXp i g).trans = s.trans := rfl
@[simp] theorem State.updXp_tlb (s : State) (i : Nat) (g : XPart → XPart) : (s.updXp i g).tlb = s.tlb := rfl
@[simp] theorem State.updXp_fences (s : State) (i : Nat) (g : XPart → XPart) : (s.updXp i g).fences = s.fences := rfl
@[simp] theorem State.updXp_fenceFresh (s : State) (i : Nat) (g : XPart → XPart) : (s.updXp i g).fenceFresh = s.fenceFresh := rfl
@[simp] theorem State.updXp_fenceFreed (s : State) (i : Nat) (g : XPart → XPart) : (s.updXp i g).fenceFreed = s.fenceFreed := rfl
@[simp] theorem State.updXp_fenceLower (s : State) (i : Nat) (g : XPart → XPart) : (s.updXp i g).fenceLower = s.fenceLower := rfl
@[simp] theorem State.updXp_remoteDrop (s : State) (i : Nat) (g : XPart → XPart) : (s.updXp i g).remoteDrop = s.remoteDrop := rfl
@[simp] theorem State.updXp_rings (s : State) (i : Nat) (g : XPart → XPart) : (s.updXp i g).rings = s.rings := rfl
@[simp] theorem State.updXp_ringTaken (s : State) (i : Nat) (g : XPart → XPart) : (s.updXp i g).ringTaken = s.ringTaken := rfl
@[simp] theorem State.updXp_ringTakenLc (s : State) (i : Nat) (g : XPart → XPart) : (s.updXp i g).ringTakenLc = s.ringTakenLc := rfl
@[simp] theorem State.updXp_objs (s : State) (i : Nat) (g : XPart → XPart) : (s.updXp i g).objs = s.objs := rfl
@[simp] theorem State.updXp_nextObj (s : State) (i : Nat) (g : XPart → XPart) : (s.updXp i g).nextObj = s.nextObj := rfl
@[simp] theorem State.updXp_hbm (s : State) (i : Nat) (g : XPart → XPart) : (s.updXp i g).hbm = s.hbm := rfl
@[simp] theorem State.updXp_chip (s : State) (i : Nat) (g : XPart → XPart) : (s.updXp i g).chip = s.chip := rfl
@[simp] theorem State.updXp_pans (s : State) (i : Nat) (g : XPart → XPart) : (s.updXp i g).pans = s.pans := rfl
@[simp] theorem State.updXp_units (s : State) (i : Nat) (g : XPart → XPart) : (s.updXp i g).units = s.units := rfl
@[simp] theorem State.updXp_clusters (s : State) (i : Nat) (g : XPart → XPart) : (s.updXp i g).clusters = s.clusters := rfl
@[simp] theorem State.updXp_power (s : State) (i : Nat) (g : XPart → XPart) : (s.updXp i g).power = s.power := rfl
@[simp] theorem State.updXp_log (s : State) (i : Nat) (g : XPart → XPart) : (s.updXp i g).log = s.log := rfl
@[simp] theorem State.updXp_telem (s : State) (i : Nat) (g : XPart → XPart) : (s.updXp i g).telem = s.telem := rfl
@[simp] theorem State.updXp_secs (s : State) (i : Nat) (g : XPart → XPart) : (s.updXp i g).secs = s.secs := rfl
@[simp] theorem State.updXp_nextSec (s : State) (i : Nat) (g : XPart → XPart) : (s.updXp i g).nextSec = s.nextSec := rfl
@[simp] theorem State.updXp_cmds (s : State) (i : Nat) (g : XPart → XPart) : (s.updXp i g).cmds = s.cmds := rfl
@[simp] theorem State.updXp_replays (s : State) (i : Nat) (g : XPart → XPart) : (s.updXp i g).replays = s.replays := rfl
@[simp] theorem State.updXp_scanSet (s : State) (i : Nat) (g : XPart → XPart) : (s.updXp i g).scanSet = s.scanSet := rfl
@[simp] theorem State.updXp_hzn (s : State) (i : Nat) (g : XPart → XPart) : (s.updXp i g).hzn = s.hzn := rfl
@[simp] theorem State.updXp_svcs (s : State) (i : Nat) (g : XPart → XPart) : (s.updXp i g).svcs = s.svcs := rfl
@[simp] theorem State.updXp_sessions (s : State) (i : Nat) (g : XPart → XPart) : (s.updXp i g).sessions = s.sessions := rfl
@[simp] theorem State.updXp_nextSession (s : State) (i : Nat) (g : XPart → XPart) : (s.updXp i g).nextSession = s.nextSession := rfl
@[simp] theorem State.updXp_loader (s : State) (i : Nat) (g : XPart → XPart) : (s.updXp i g).loader = s.loader := rfl
@[simp] theorem State.updXp_invals (s : State) (i : Nat) (g : XPart → XPart) : (s.updXp i g).invals = s.invals := rfl
@[simp] theorem State.updXp_atsInvals (s : State) (i : Nat) (g : XPart → XPart) : (s.updXp i g).atsInvals = s.atsInvals := rfl
@[simp] theorem State.updXp_eid (s : State) (i : Nat) (g : XPart → XPart) : (s.updXp i g).eid = s.eid := rfl
@[simp] theorem State.updXp_fn (s : State) (i : Nat) (g : XPart → XPart) (j : Nat) : (s.updXp i g).fn j = s.fn j := rfl
@[simp] theorem State.updXp_cx (s : State) (i : Nat) (g : XPart → XPart) (j : Nat) : (s.updXp i g).cx j = s.cx j := rfl
@[simp] theorem State.updXp_pt (s : State) (i : Nat) (g : XPart → XPart) (j : Nat) : (s.updXp i g).pt j = s.pt j := rfl
@[simp] theorem State.updXp_cl (s : State) (i : Nat) (g : XPart → XPart) (j : Nat) : (s.updXp i g).cl j = s.cl j := rfl
@[simp] theorem State.updXp_rg (s : State) (i : Nat) (g : XPart → XPart) (j : Nat) : (s.updXp i g).rg j = s.rg j := rfl
@[simp] theorem State.updXp_sec (s : State) (i : Nat) (g : XPart → XPart) (j : Nat) : (s.updXp i g).sec j = s.sec j := rfl
@[simp] theorem State.updXp_fe (s : State) (i : Nat) (g : XPart → XPart) (j : Nat) : (s.updXp i g).fe j = s.fe j := rfl
@[simp] theorem State.updXp_ob (s : State) (i : Nat) (g : XPart → XPart) (j : Nat) : (s.updXp i g).ob j = s.ob j := rfl
@[simp] theorem State.updXp_pan (s : State) (i : Nat) (g : XPart → XPart) (j : Nat) : (s.updXp i g).pan j = s.pan j := rfl
@[simp] theorem State.updXp_un (s : State) (i : Nat) (g : XPart → XPart) (j : Nat) : (s.updXp i g).un j = s.un j := rfl
@[simp] theorem State.updXp_stk (s : State) (i : Nat) (g : XPart → XPart) (j : Nat) : (s.updXp i g).stk j = s.stk j := rfl
@[simp] theorem State.updXp_port (s : State) (i : Nat) (g : XPart → XPart) (j : Nat) : (s.updXp i g).port j = s.port j := rfl
@[simp] theorem State.updXp_svc (s : State) (i : Nat) (g : XPart → XPart) (j : Nat) : (s.updXp i g).svc j = s.svc j := rfl
@[simp] theorem State.updXp_hubUp (s : State) (i : Nat) (g : XPart → XPart) : (s.updXp i g).hubUp = s.hubUp := rfl
@[simp] theorem State.updXp_ready (s : State) (i : Nat) (g : XPart → XPart) : (s.updXp i g).ready = s.ready := rfl
@[simp] theorem State.updXp_clPresent (s : State) (i : Nat) (g : XPart → XPart) (c : Nat) : (s.updXp i g).clPresent c = s.clPresent c := rfl
@[simp] theorem State.updXp_funcExists (s : State) (i : Nat) (g : XPart → XPart) (j : Nat) : (s.updXp i g).funcExists j = s.funcExists j := rfl
@[simp] theorem State.updXp_partPresent (s : State) (i : Nat) (g : XPart → XPart) (p : Nat) : (s.updXp i g).partPresent p = s.partPresent p := rfl
@[simp] theorem State.updXp_portPresent (s : State) (i : Nat) (g : XPart → XPart) (p : Nat) : (s.updXp i g).portPresent p = s.portPresent p := rfl
@[simp] theorem State.updXp_stackFitted (s : State) (i : Nat) (g : XPart → XPart) (k : Nat) : (s.updXp i g).stackFitted k = s.stackFitted k := rfl

/-! ### updSvc -/

@[simp] theorem State.updSvc_same (s : State) (i : Nat) (g : Svc → Svc) : (s.updSvc i g).svc i = g (s.svc i) := Tbl.get_upd_same _ _ _ _
@[simp] theorem State.updSvc_ne (s : State) (i : Nat) (g : Svc → Svc) {j : Nat} (h : j ≠ i) : (s.updSvc i g).svc j = s.svc j := Tbl.get_upd_ne _ _ _ h
theorem State.updSvc_at (s : State) (i : Nat) (g : Svc → Svc) (j : Nat) : (s.updSvc i g).svc j = if j = i then g (s.svc i) else s.svc j := by
  by_cases h : j = i <;> simp [h]
@[simp] theorem State.updSvc_pending (s : State) (i : Nat) (g : Svc → Svc) : (s.updSvc i g).pending = s.pending := rfl
@[simp] theorem State.updSvc_free (s : State) (i : Nat) (g : Svc → Svc) : (s.updSvc i g).free = s.free := rfl
@[simp] theorem State.updSvc_out (s : State) (i : Nat) (g : Svc → Svc) : (s.updSvc i g).out = s.out := rfl
@[simp] theorem State.updSvc_part (s : State) (i : Nat) (g : Svc → Svc) : (s.updSvc i g).part = s.part := rfl
@[simp] theorem State.updSvc_pins (s : State) (i : Nat) (g : Svc → Svc) : (s.updSvc i g).pins = s.pins := rfl
@[simp] theorem State.updSvc_tap (s : State) (i : Nat) (g : Svc → Svc) : (s.updSvc i g).tap = s.tap := rfl
@[simp] theorem State.updSvc_time (s : State) (i : Nat) (g : Svc → Svc) : (s.updSvc i g).time = s.time := rfl
@[simp] theorem State.updSvc_hub (s : State) (i : Nat) (g : Svc → Svc) : (s.updSvc i g).hub = s.hub := rfl
@[simp] theorem State.updSvc_hostMem (s : State) (i : Nat) (g : Svc → Svc) : (s.updSvc i g).hostMem = s.hostMem := rfl
@[simp] theorem State.updSvc_vfEnable (s : State) (i : Nat) (g : Svc → Svc) : (s.updSvc i g).vfEnable = s.vfEnable := rfl
@[simp] theorem State.updSvc_numVfs (s : State) (i : Nat) (g : Svc → Svc) : (s.updSvc i g).numVfs = s.numVfs := rfl
@[simp] theorem State.updSvc_funcs (s : State) (i : Nat) (g : Svc → Svc) : (s.updSvc i g).funcs = s.funcs := rfl
@[simp] theorem State.updSvc_msix (s : State) (i : Nat) (g : Svc → Svc) : (s.updSvc i g).msix = s.msix := rfl
@[simp] theorem State.updSvc_msixEnable (s : State) (i : Nat) (g : Svc → Svc) : (s.updSvc i g).msixEnable = s.msixEnable := rfl
@[simp] theorem State.updSvc_msixMask (s : State) (i : Nat) (g : Svc → Svc) : (s.updSvc i g).msixMask = s.msixMask := rfl
@[simp] theorem State.updSvc_windows (s : State) (i : Nat) (g : Svc → Svc) : (s.updSvc i g).windows = s.windows := rfl
@[simp] theorem State.updSvc_parts (s : State) (i : Nat) (g : Svc → Svc) : (s.updSvc i g).parts = s.parts := rfl
@[simp] theorem State.updSvc_tokens (s : State) (i : Nat) (g : Svc → Svc) : (s.updSvc i g).tokens = s.tokens := rfl
@[simp] theorem State.updSvc_sluWindow (s : State) (i : Nat) (g : Svc → Svc) : (s.updSvc i g).sluWindow = s.sluWindow := rfl
@[simp] theorem State.updSvc_ctxs (s : State) (i : Nat) (g : Svc → Svc) : (s.updSvc i g).ctxs = s.ctxs := rfl
@[simp] theorem State.updSvc_trans (s : State) (i : Nat) (g : Svc → Svc) : (s.updSvc i g).trans = s.trans := rfl
@[simp] theorem State.updSvc_tlb (s : State) (i : Nat) (g : Svc → Svc) : (s.updSvc i g).tlb = s.tlb := rfl
@[simp] theorem State.updSvc_fences (s : State) (i : Nat) (g : Svc → Svc) : (s.updSvc i g).fences = s.fences := rfl
@[simp] theorem State.updSvc_fenceFresh (s : State) (i : Nat) (g : Svc → Svc) : (s.updSvc i g).fenceFresh = s.fenceFresh := rfl
@[simp] theorem State.updSvc_fenceFreed (s : State) (i : Nat) (g : Svc → Svc) : (s.updSvc i g).fenceFreed = s.fenceFreed := rfl
@[simp] theorem State.updSvc_fenceLower (s : State) (i : Nat) (g : Svc → Svc) : (s.updSvc i g).fenceLower = s.fenceLower := rfl
@[simp] theorem State.updSvc_remoteDrop (s : State) (i : Nat) (g : Svc → Svc) : (s.updSvc i g).remoteDrop = s.remoteDrop := rfl
@[simp] theorem State.updSvc_rings (s : State) (i : Nat) (g : Svc → Svc) : (s.updSvc i g).rings = s.rings := rfl
@[simp] theorem State.updSvc_ringTaken (s : State) (i : Nat) (g : Svc → Svc) : (s.updSvc i g).ringTaken = s.ringTaken := rfl
@[simp] theorem State.updSvc_ringTakenLc (s : State) (i : Nat) (g : Svc → Svc) : (s.updSvc i g).ringTakenLc = s.ringTakenLc := rfl
@[simp] theorem State.updSvc_objs (s : State) (i : Nat) (g : Svc → Svc) : (s.updSvc i g).objs = s.objs := rfl
@[simp] theorem State.updSvc_nextObj (s : State) (i : Nat) (g : Svc → Svc) : (s.updSvc i g).nextObj = s.nextObj := rfl
@[simp] theorem State.updSvc_hbm (s : State) (i : Nat) (g : Svc → Svc) : (s.updSvc i g).hbm = s.hbm := rfl
@[simp] theorem State.updSvc_chip (s : State) (i : Nat) (g : Svc → Svc) : (s.updSvc i g).chip = s.chip := rfl
@[simp] theorem State.updSvc_pans (s : State) (i : Nat) (g : Svc → Svc) : (s.updSvc i g).pans = s.pans := rfl
@[simp] theorem State.updSvc_units (s : State) (i : Nat) (g : Svc → Svc) : (s.updSvc i g).units = s.units := rfl
@[simp] theorem State.updSvc_clusters (s : State) (i : Nat) (g : Svc → Svc) : (s.updSvc i g).clusters = s.clusters := rfl
@[simp] theorem State.updSvc_power (s : State) (i : Nat) (g : Svc → Svc) : (s.updSvc i g).power = s.power := rfl
@[simp] theorem State.updSvc_log (s : State) (i : Nat) (g : Svc → Svc) : (s.updSvc i g).log = s.log := rfl
@[simp] theorem State.updSvc_telem (s : State) (i : Nat) (g : Svc → Svc) : (s.updSvc i g).telem = s.telem := rfl
@[simp] theorem State.updSvc_secs (s : State) (i : Nat) (g : Svc → Svc) : (s.updSvc i g).secs = s.secs := rfl
@[simp] theorem State.updSvc_nextSec (s : State) (i : Nat) (g : Svc → Svc) : (s.updSvc i g).nextSec = s.nextSec := rfl
@[simp] theorem State.updSvc_cmds (s : State) (i : Nat) (g : Svc → Svc) : (s.updSvc i g).cmds = s.cmds := rfl
@[simp] theorem State.updSvc_replays (s : State) (i : Nat) (g : Svc → Svc) : (s.updSvc i g).replays = s.replays := rfl
@[simp] theorem State.updSvc_scanSet (s : State) (i : Nat) (g : Svc → Svc) : (s.updSvc i g).scanSet = s.scanSet := rfl
@[simp] theorem State.updSvc_hzn (s : State) (i : Nat) (g : Svc → Svc) : (s.updSvc i g).hzn = s.hzn := rfl
@[simp] theorem State.updSvc_sessions (s : State) (i : Nat) (g : Svc → Svc) : (s.updSvc i g).sessions = s.sessions := rfl
@[simp] theorem State.updSvc_nextSession (s : State) (i : Nat) (g : Svc → Svc) : (s.updSvc i g).nextSession = s.nextSession := rfl
@[simp] theorem State.updSvc_xparts (s : State) (i : Nat) (g : Svc → Svc) : (s.updSvc i g).xparts = s.xparts := rfl
@[simp] theorem State.updSvc_loader (s : State) (i : Nat) (g : Svc → Svc) : (s.updSvc i g).loader = s.loader := rfl
@[simp] theorem State.updSvc_invals (s : State) (i : Nat) (g : Svc → Svc) : (s.updSvc i g).invals = s.invals := rfl
@[simp] theorem State.updSvc_atsInvals (s : State) (i : Nat) (g : Svc → Svc) : (s.updSvc i g).atsInvals = s.atsInvals := rfl
@[simp] theorem State.updSvc_eid (s : State) (i : Nat) (g : Svc → Svc) : (s.updSvc i g).eid = s.eid := rfl
@[simp] theorem State.updSvc_fn (s : State) (i : Nat) (g : Svc → Svc) (j : Nat) : (s.updSvc i g).fn j = s.fn j := rfl
@[simp] theorem State.updSvc_cx (s : State) (i : Nat) (g : Svc → Svc) (j : Nat) : (s.updSvc i g).cx j = s.cx j := rfl
@[simp] theorem State.updSvc_pt (s : State) (i : Nat) (g : Svc → Svc) (j : Nat) : (s.updSvc i g).pt j = s.pt j := rfl
@[simp] theorem State.updSvc_cl (s : State) (i : Nat) (g : Svc → Svc) (j : Nat) : (s.updSvc i g).cl j = s.cl j := rfl
@[simp] theorem State.updSvc_rg (s : State) (i : Nat) (g : Svc → Svc) (j : Nat) : (s.updSvc i g).rg j = s.rg j := rfl
@[simp] theorem State.updSvc_sec (s : State) (i : Nat) (g : Svc → Svc) (j : Nat) : (s.updSvc i g).sec j = s.sec j := rfl
@[simp] theorem State.updSvc_fe (s : State) (i : Nat) (g : Svc → Svc) (j : Nat) : (s.updSvc i g).fe j = s.fe j := rfl
@[simp] theorem State.updSvc_ob (s : State) (i : Nat) (g : Svc → Svc) (j : Nat) : (s.updSvc i g).ob j = s.ob j := rfl
@[simp] theorem State.updSvc_pan (s : State) (i : Nat) (g : Svc → Svc) (j : Nat) : (s.updSvc i g).pan j = s.pan j := rfl
@[simp] theorem State.updSvc_un (s : State) (i : Nat) (g : Svc → Svc) (j : Nat) : (s.updSvc i g).un j = s.un j := rfl
@[simp] theorem State.updSvc_stk (s : State) (i : Nat) (g : Svc → Svc) (j : Nat) : (s.updSvc i g).stk j = s.stk j := rfl
@[simp] theorem State.updSvc_port (s : State) (i : Nat) (g : Svc → Svc) (j : Nat) : (s.updSvc i g).port j = s.port j := rfl
@[simp] theorem State.updSvc_xp (s : State) (i : Nat) (g : Svc → Svc) (j : Nat) : (s.updSvc i g).xp j = s.xp j := rfl
@[simp] theorem State.updSvc_hubUp (s : State) (i : Nat) (g : Svc → Svc) : (s.updSvc i g).hubUp = s.hubUp := rfl
@[simp] theorem State.updSvc_ready (s : State) (i : Nat) (g : Svc → Svc) : (s.updSvc i g).ready = s.ready := rfl
@[simp] theorem State.updSvc_clPresent (s : State) (i : Nat) (g : Svc → Svc) (c : Nat) : (s.updSvc i g).clPresent c = s.clPresent c := rfl
@[simp] theorem State.updSvc_funcExists (s : State) (i : Nat) (g : Svc → Svc) (j : Nat) : (s.updSvc i g).funcExists j = s.funcExists j := rfl
@[simp] theorem State.updSvc_partPresent (s : State) (i : Nat) (g : Svc → Svc) (p : Nat) : (s.updSvc i g).partPresent p = s.partPresent p := rfl
@[simp] theorem State.updSvc_portPresent (s : State) (i : Nat) (g : Svc → Svc) (p : Nat) : (s.updSvc i g).portPresent p = s.portPresent p := rfl
@[simp] theorem State.updSvc_stackFitted (s : State) (i : Nat) (g : Svc → Svc) (k : Nat) : (s.updSvc i g).stackFitted k = s.stackFitted k := rfl

/-! ### emit -/

@[simp] theorem State.emit_out (s : State) (e : OutEvent) : (s.emit e).out = s.out ++ [e] := rfl
@[simp] theorem State.emit_pending (s : State) (e : OutEvent) : (s.emit e).pending = s.pending := rfl
@[simp] theorem State.emit_free (s : State) (e : OutEvent) : (s.emit e).free = s.free := rfl
@[simp] theorem State.emit_part (s : State) (e : OutEvent) : (s.emit e).part = s.part := rfl
@[simp] theorem State.emit_pins (s : State) (e : OutEvent) : (s.emit e).pins = s.pins := rfl
@[simp] theorem State.emit_tap (s : State) (e : OutEvent) : (s.emit e).tap = s.tap := rfl
@[simp] theorem State.emit_time (s : State) (e : OutEvent) : (s.emit e).time = s.time := rfl
@[simp] theorem State.emit_hub (s : State) (e : OutEvent) : (s.emit e).hub = s.hub := rfl
@[simp] theorem State.emit_hostMem (s : State) (e : OutEvent) : (s.emit e).hostMem = s.hostMem := rfl
@[simp] theorem State.emit_vfEnable (s : State) (e : OutEvent) : (s.emit e).vfEnable = s.vfEnable := rfl
@[simp] theorem State.emit_numVfs (s : State) (e : OutEvent) : (s.emit e).numVfs = s.numVfs := rfl
@[simp] theorem State.emit_funcs (s : State) (e : OutEvent) : (s.emit e).funcs = s.funcs := rfl
@[simp] theorem State.emit_msix (s : State) (e : OutEvent) : (s.emit e).msix = s.msix := rfl
@[simp] theorem State.emit_msixEnable (s : State) (e : OutEvent) : (s.emit e).msixEnable = s.msixEnable := rfl
@[simp] theorem State.emit_msixMask (s : State) (e : OutEvent) : (s.emit e).msixMask = s.msixMask := rfl
@[simp] theorem State.emit_windows (s : State) (e : OutEvent) : (s.emit e).windows = s.windows := rfl
@[simp] theorem State.emit_parts (s : State) (e : OutEvent) : (s.emit e).parts = s.parts := rfl
@[simp] theorem State.emit_tokens (s : State) (e : OutEvent) : (s.emit e).tokens = s.tokens := rfl
@[simp] theorem State.emit_sluWindow (s : State) (e : OutEvent) : (s.emit e).sluWindow = s.sluWindow := rfl
@[simp] theorem State.emit_ctxs (s : State) (e : OutEvent) : (s.emit e).ctxs = s.ctxs := rfl
@[simp] theorem State.emit_trans (s : State) (e : OutEvent) : (s.emit e).trans = s.trans := rfl
@[simp] theorem State.emit_tlb (s : State) (e : OutEvent) : (s.emit e).tlb = s.tlb := rfl
@[simp] theorem State.emit_fences (s : State) (e : OutEvent) : (s.emit e).fences = s.fences := rfl
@[simp] theorem State.emit_fenceFresh (s : State) (e : OutEvent) : (s.emit e).fenceFresh = s.fenceFresh := rfl
@[simp] theorem State.emit_fenceFreed (s : State) (e : OutEvent) : (s.emit e).fenceFreed = s.fenceFreed := rfl
@[simp] theorem State.emit_fenceLower (s : State) (e : OutEvent) : (s.emit e).fenceLower = s.fenceLower := rfl
@[simp] theorem State.emit_remoteDrop (s : State) (e : OutEvent) : (s.emit e).remoteDrop = s.remoteDrop := rfl
@[simp] theorem State.emit_rings (s : State) (e : OutEvent) : (s.emit e).rings = s.rings := rfl
@[simp] theorem State.emit_ringTaken (s : State) (e : OutEvent) : (s.emit e).ringTaken = s.ringTaken := rfl
@[simp] theorem State.emit_ringTakenLc (s : State) (e : OutEvent) : (s.emit e).ringTakenLc = s.ringTakenLc := rfl
@[simp] theorem State.emit_objs (s : State) (e : OutEvent) : (s.emit e).objs = s.objs := rfl
@[simp] theorem State.emit_nextObj (s : State) (e : OutEvent) : (s.emit e).nextObj = s.nextObj := rfl
@[simp] theorem State.emit_hbm (s : State) (e : OutEvent) : (s.emit e).hbm = s.hbm := rfl
@[simp] theorem State.emit_chip (s : State) (e : OutEvent) : (s.emit e).chip = s.chip := rfl
@[simp] theorem State.emit_pans (s : State) (e : OutEvent) : (s.emit e).pans = s.pans := rfl
@[simp] theorem State.emit_units (s : State) (e : OutEvent) : (s.emit e).units = s.units := rfl
@[simp] theorem State.emit_clusters (s : State) (e : OutEvent) : (s.emit e).clusters = s.clusters := rfl
@[simp] theorem State.emit_power (s : State) (e : OutEvent) : (s.emit e).power = s.power := rfl
@[simp] theorem State.emit_log (s : State) (e : OutEvent) : (s.emit e).log = s.log := rfl
@[simp] theorem State.emit_telem (s : State) (e : OutEvent) : (s.emit e).telem = s.telem := rfl
@[simp] theorem State.emit_secs (s : State) (e : OutEvent) : (s.emit e).secs = s.secs := rfl
@[simp] theorem State.emit_nextSec (s : State) (e : OutEvent) : (s.emit e).nextSec = s.nextSec := rfl
@[simp] theorem State.emit_cmds (s : State) (e : OutEvent) : (s.emit e).cmds = s.cmds := rfl
@[simp] theorem State.emit_replays (s : State) (e : OutEvent) : (s.emit e).replays = s.replays := rfl
@[simp] theorem State.emit_scanSet (s : State) (e : OutEvent) : (s.emit e).scanSet = s.scanSet := rfl
@[simp] theorem State.emit_hzn (s : State) (e : OutEvent) : (s.emit e).hzn = s.hzn := rfl
@[simp] theorem State.emit_svcs (s : State) (e : OutEvent) : (s.emit e).svcs = s.svcs := rfl
@[simp] theorem State.emit_sessions (s : State) (e : OutEvent) : (s.emit e).sessions = s.sessions := rfl
@[simp] theorem State.emit_nextSession (s : State) (e : OutEvent) : (s.emit e).nextSession = s.nextSession := rfl
@[simp] theorem State.emit_xparts (s : State) (e : OutEvent) : (s.emit e).xparts = s.xparts := rfl
@[simp] theorem State.emit_loader (s : State) (e : OutEvent) : (s.emit e).loader = s.loader := rfl
@[simp] theorem State.emit_invals (s : State) (e : OutEvent) : (s.emit e).invals = s.invals := rfl
@[simp] theorem State.emit_atsInvals (s : State) (e : OutEvent) : (s.emit e).atsInvals = s.atsInvals := rfl
@[simp] theorem State.emit_eid (s : State) (e : OutEvent) : (s.emit e).eid = s.eid := rfl
@[simp] theorem State.emit_fn (s : State) (e : OutEvent) (j : Nat) : (s.emit e).fn j = s.fn j := rfl
@[simp] theorem State.emit_cx (s : State) (e : OutEvent) (j : Nat) : (s.emit e).cx j = s.cx j := rfl
@[simp] theorem State.emit_pt (s : State) (e : OutEvent) (j : Nat) : (s.emit e).pt j = s.pt j := rfl
@[simp] theorem State.emit_cl (s : State) (e : OutEvent) (j : Nat) : (s.emit e).cl j = s.cl j := rfl
@[simp] theorem State.emit_rg (s : State) (e : OutEvent) (j : Nat) : (s.emit e).rg j = s.rg j := rfl
@[simp] theorem State.emit_sec (s : State) (e : OutEvent) (j : Nat) : (s.emit e).sec j = s.sec j := rfl
@[simp] theorem State.emit_fe (s : State) (e : OutEvent) (j : Nat) : (s.emit e).fe j = s.fe j := rfl
@[simp] theorem State.emit_ob (s : State) (e : OutEvent) (j : Nat) : (s.emit e).ob j = s.ob j := rfl
@[simp] theorem State.emit_pan (s : State) (e : OutEvent) (j : Nat) : (s.emit e).pan j = s.pan j := rfl
@[simp] theorem State.emit_un (s : State) (e : OutEvent) (j : Nat) : (s.emit e).un j = s.un j := rfl
@[simp] theorem State.emit_stk (s : State) (e : OutEvent) (j : Nat) : (s.emit e).stk j = s.stk j := rfl
@[simp] theorem State.emit_port (s : State) (e : OutEvent) (j : Nat) : (s.emit e).port j = s.port j := rfl
@[simp] theorem State.emit_xp (s : State) (e : OutEvent) (j : Nat) : (s.emit e).xp j = s.xp j := rfl
@[simp] theorem State.emit_svc (s : State) (e : OutEvent) (j : Nat) : (s.emit e).svc j = s.svc j := rfl
@[simp] theorem State.emit_hubUp (s : State) (e : OutEvent) : (s.emit e).hubUp = s.hubUp := rfl
@[simp] theorem State.emit_ready (s : State) (e : OutEvent) : (s.emit e).ready = s.ready := rfl
@[simp] theorem State.emit_clPresent (s : State) (e : OutEvent) (c : Nat) : (s.emit e).clPresent c = s.clPresent c := rfl
@[simp] theorem State.emit_funcExists (s : State) (e : OutEvent) (j : Nat) : (s.emit e).funcExists j = s.funcExists j := rfl
@[simp] theorem State.emit_partPresent (s : State) (e : OutEvent) (p : Nat) : (s.emit e).partPresent p = s.partPresent p := rfl
@[simp] theorem State.emit_portPresent (s : State) (e : OutEvent) (p : Nat) : (s.emit e).portPresent p = s.portPresent p := rfl
@[simp] theorem State.emit_stackFitted (s : State) (e : OutEvent) (k : Nat) : (s.emit e).stackFitted k = s.stackFitted k := rfl

/-! ### atTime -/

@[simp] theorem State.atTime_now (s : State) (t : Nat) : (s.atTime t).time = { s.time with now := max s.time.now t } := rfl
@[simp] theorem State.atTime_pending (s : State) (t : Nat) : (s.atTime t).pending = s.pending := rfl
@[simp] theorem State.atTime_free (s : State) (t : Nat) : (s.atTime t).free = s.free := rfl
@[simp] theorem State.atTime_out (s : State) (t : Nat) : (s.atTime t).out = s.out := rfl
@[simp] theorem State.atTime_part (s : State) (t : Nat) : (s.atTime t).part = s.part := rfl
@[simp] theorem State.atTime_pins (s : State) (t : Nat) : (s.atTime t).pins = s.pins := rfl
@[simp] theorem State.atTime_tap (s : State) (t : Nat) : (s.atTime t).tap = s.tap := rfl
@[simp] theorem State.atTime_hub (s : State) (t : Nat) : (s.atTime t).hub = s.hub := rfl
@[simp] theorem State.atTime_hostMem (s : State) (t : Nat) : (s.atTime t).hostMem = s.hostMem := rfl
@[simp] theorem State.atTime_vfEnable (s : State) (t : Nat) : (s.atTime t).vfEnable = s.vfEnable := rfl
@[simp] theorem State.atTime_numVfs (s : State) (t : Nat) : (s.atTime t).numVfs = s.numVfs := rfl
@[simp] theorem State.atTime_funcs (s : State) (t : Nat) : (s.atTime t).funcs = s.funcs := rfl
@[simp] theorem State.atTime_msix (s : State) (t : Nat) : (s.atTime t).msix = s.msix := rfl
@[simp] theorem State.atTime_msixEnable (s : State) (t : Nat) : (s.atTime t).msixEnable = s.msixEnable := rfl
@[simp] theorem State.atTime_msixMask (s : State) (t : Nat) : (s.atTime t).msixMask = s.msixMask := rfl
@[simp] theorem State.atTime_windows (s : State) (t : Nat) : (s.atTime t).windows = s.windows := rfl
@[simp] theorem State.atTime_parts (s : State) (t : Nat) : (s.atTime t).parts = s.parts := rfl
@[simp] theorem State.atTime_tokens (s : State) (t : Nat) : (s.atTime t).tokens = s.tokens := rfl
@[simp] theorem State.atTime_sluWindow (s : State) (t : Nat) : (s.atTime t).sluWindow = s.sluWindow := rfl
@[simp] theorem State.atTime_ctxs (s : State) (t : Nat) : (s.atTime t).ctxs = s.ctxs := rfl
@[simp] theorem State.atTime_trans (s : State) (t : Nat) : (s.atTime t).trans = s.trans := rfl
@[simp] theorem State.atTime_tlb (s : State) (t : Nat) : (s.atTime t).tlb = s.tlb := rfl
@[simp] theorem State.atTime_fences (s : State) (t : Nat) : (s.atTime t).fences = s.fences := rfl
@[simp] theorem State.atTime_fenceFresh (s : State) (t : Nat) : (s.atTime t).fenceFresh = s.fenceFresh := rfl
@[simp] theorem State.atTime_fenceFreed (s : State) (t : Nat) : (s.atTime t).fenceFreed = s.fenceFreed := rfl
@[simp] theorem State.atTime_fenceLower (s : State) (t : Nat) : (s.atTime t).fenceLower = s.fenceLower := rfl
@[simp] theorem State.atTime_remoteDrop (s : State) (t : Nat) : (s.atTime t).remoteDrop = s.remoteDrop := rfl
@[simp] theorem State.atTime_rings (s : State) (t : Nat) : (s.atTime t).rings = s.rings := rfl
@[simp] theorem State.atTime_ringTaken (s : State) (t : Nat) : (s.atTime t).ringTaken = s.ringTaken := rfl
@[simp] theorem State.atTime_ringTakenLc (s : State) (t : Nat) : (s.atTime t).ringTakenLc = s.ringTakenLc := rfl
@[simp] theorem State.atTime_objs (s : State) (t : Nat) : (s.atTime t).objs = s.objs := rfl
@[simp] theorem State.atTime_nextObj (s : State) (t : Nat) : (s.atTime t).nextObj = s.nextObj := rfl
@[simp] theorem State.atTime_hbm (s : State) (t : Nat) : (s.atTime t).hbm = s.hbm := rfl
@[simp] theorem State.atTime_chip (s : State) (t : Nat) : (s.atTime t).chip = s.chip := rfl
@[simp] theorem State.atTime_pans (s : State) (t : Nat) : (s.atTime t).pans = s.pans := rfl
@[simp] theorem State.atTime_units (s : State) (t : Nat) : (s.atTime t).units = s.units := rfl
@[simp] theorem State.atTime_clusters (s : State) (t : Nat) : (s.atTime t).clusters = s.clusters := rfl
@[simp] theorem State.atTime_power (s : State) (t : Nat) : (s.atTime t).power = s.power := rfl
@[simp] theorem State.atTime_log (s : State) (t : Nat) : (s.atTime t).log = s.log := rfl
@[simp] theorem State.atTime_telem (s : State) (t : Nat) : (s.atTime t).telem = s.telem := rfl
@[simp] theorem State.atTime_secs (s : State) (t : Nat) : (s.atTime t).secs = s.secs := rfl
@[simp] theorem State.atTime_nextSec (s : State) (t : Nat) : (s.atTime t).nextSec = s.nextSec := rfl
@[simp] theorem State.atTime_cmds (s : State) (t : Nat) : (s.atTime t).cmds = s.cmds := rfl
@[simp] theorem State.atTime_replays (s : State) (t : Nat) : (s.atTime t).replays = s.replays := rfl
@[simp] theorem State.atTime_scanSet (s : State) (t : Nat) : (s.atTime t).scanSet = s.scanSet := rfl
@[simp] theorem State.atTime_hzn (s : State) (t : Nat) : (s.atTime t).hzn = s.hzn := rfl
@[simp] theorem State.atTime_svcs (s : State) (t : Nat) : (s.atTime t).svcs = s.svcs := rfl
@[simp] theorem State.atTime_sessions (s : State) (t : Nat) : (s.atTime t).sessions = s.sessions := rfl
@[simp] theorem State.atTime_nextSession (s : State) (t : Nat) : (s.atTime t).nextSession = s.nextSession := rfl
@[simp] theorem State.atTime_xparts (s : State) (t : Nat) : (s.atTime t).xparts = s.xparts := rfl
@[simp] theorem State.atTime_loader (s : State) (t : Nat) : (s.atTime t).loader = s.loader := rfl
@[simp] theorem State.atTime_invals (s : State) (t : Nat) : (s.atTime t).invals = s.invals := rfl
@[simp] theorem State.atTime_atsInvals (s : State) (t : Nat) : (s.atTime t).atsInvals = s.atsInvals := rfl
@[simp] theorem State.atTime_eid (s : State) (t : Nat) : (s.atTime t).eid = s.eid := rfl
@[simp] theorem State.atTime_fn (s : State) (t : Nat) (j : Nat) : (s.atTime t).fn j = s.fn j := rfl
@[simp] theorem State.atTime_cx (s : State) (t : Nat) (j : Nat) : (s.atTime t).cx j = s.cx j := rfl
@[simp] theorem State.atTime_pt (s : State) (t : Nat) (j : Nat) : (s.atTime t).pt j = s.pt j := rfl
@[simp] theorem State.atTime_cl (s : State) (t : Nat) (j : Nat) : (s.atTime t).cl j = s.cl j := rfl
@[simp] theorem State.atTime_rg (s : State) (t : Nat) (j : Nat) : (s.atTime t).rg j = s.rg j := rfl
@[simp] theorem State.atTime_sec (s : State) (t : Nat) (j : Nat) : (s.atTime t).sec j = s.sec j := rfl
@[simp] theorem State.atTime_fe (s : State) (t : Nat) (j : Nat) : (s.atTime t).fe j = s.fe j := rfl
@[simp] theorem State.atTime_ob (s : State) (t : Nat) (j : Nat) : (s.atTime t).ob j = s.ob j := rfl
@[simp] theorem State.atTime_pan (s : State) (t : Nat) (j : Nat) : (s.atTime t).pan j = s.pan j := rfl
@[simp] theorem State.atTime_un (s : State) (t : Nat) (j : Nat) : (s.atTime t).un j = s.un j := rfl
@[simp] theorem State.atTime_stk (s : State) (t : Nat) (j : Nat) : (s.atTime t).stk j = s.stk j := rfl
@[simp] theorem State.atTime_port (s : State) (t : Nat) (j : Nat) : (s.atTime t).port j = s.port j := rfl
@[simp] theorem State.atTime_xp (s : State) (t : Nat) (j : Nat) : (s.atTime t).xp j = s.xp j := rfl
@[simp] theorem State.atTime_svc (s : State) (t : Nat) (j : Nat) : (s.atTime t).svc j = s.svc j := rfl
@[simp] theorem State.atTime_hubUp (s : State) (t : Nat) : (s.atTime t).hubUp = s.hubUp := rfl
@[simp] theorem State.atTime_ready (s : State) (t : Nat) : (s.atTime t).ready = s.ready := rfl
@[simp] theorem State.atTime_clPresent (s : State) (t : Nat) (c : Nat) : (s.atTime t).clPresent c = s.clPresent c := rfl
@[simp] theorem State.atTime_funcExists (s : State) (t : Nat) (j : Nat) : (s.atTime t).funcExists j = s.funcExists j := rfl
@[simp] theorem State.atTime_partPresent (s : State) (t : Nat) (p : Nat) : (s.atTime t).partPresent p = s.partPresent p := rfl
@[simp] theorem State.atTime_portPresent (s : State) (t : Nat) (p : Nat) : (s.atTime t).portPresent p = s.portPresent p := rfl
@[simp] theorem State.atTime_stackFitted (s : State) (t : Nat) (k : Nat) : (s.atTime t).stackFitted k = s.stackFitted k := rfl

/-! ### postHost -/

@[simp] theorem State.postHost_out (s : State) (link func addr : Nat) (bs : List Byte) : (s.postHost link func addr bs).out = s.out ++ [.hostWrite link (requester link func) addr bs] := rfl
@[simp] theorem State.postHost_hostMem (s : State) (link func addr : Nat) (bs : List Byte) : (s.postHost link func addr bs).hostMem = s.hostMem.wrN addr bs := rfl
@[simp] theorem State.postHost_pending (s : State) (link func addr : Nat) (bs : List Byte) : (s.postHost link func addr bs).pending = s.pending := rfl
@[simp] theorem State.postHost_free (s : State) (link func addr : Nat) (bs : List Byte) : (s.postHost link func addr bs).free = s.free := rfl
@[simp] theorem State.postHost_part (s : State) (link func addr : Nat) (bs : List Byte) : (s.postHost link func addr bs).part = s.part := rfl
@[simp] theorem State.postHost_pins (s : State) (link func addr : Nat) (bs : List Byte) : (s.postHost link func addr bs).pins = s.pins := rfl
@[simp] theorem State.postHost_tap (s : State) (link func addr : Nat) (bs : List Byte) : (s.postHost link func addr bs).tap = s.tap := rfl
@[simp] theorem State.postHost_time (s : State) (link func addr : Nat) (bs : List Byte) : (s.postHost link func addr bs).time = s.time := rfl
@[simp] theorem State.postHost_hub (s : State) (link func addr : Nat) (bs : List Byte) : (s.postHost link func addr bs).hub = s.hub := rfl
@[simp] theorem State.postHost_vfEnable (s : State) (link func addr : Nat) (bs : List Byte) : (s.postHost link func addr bs).vfEnable = s.vfEnable := rfl
@[simp] theorem State.postHost_numVfs (s : State) (link func addr : Nat) (bs : List Byte) : (s.postHost link func addr bs).numVfs = s.numVfs := rfl
@[simp] theorem State.postHost_funcs (s : State) (link func addr : Nat) (bs : List Byte) : (s.postHost link func addr bs).funcs = s.funcs := rfl
@[simp] theorem State.postHost_msix (s : State) (link func addr : Nat) (bs : List Byte) : (s.postHost link func addr bs).msix = s.msix := rfl
@[simp] theorem State.postHost_msixEnable (s : State) (link func addr : Nat) (bs : List Byte) : (s.postHost link func addr bs).msixEnable = s.msixEnable := rfl
@[simp] theorem State.postHost_msixMask (s : State) (link func addr : Nat) (bs : List Byte) : (s.postHost link func addr bs).msixMask = s.msixMask := rfl
@[simp] theorem State.postHost_windows (s : State) (link func addr : Nat) (bs : List Byte) : (s.postHost link func addr bs).windows = s.windows := rfl
@[simp] theorem State.postHost_parts (s : State) (link func addr : Nat) (bs : List Byte) : (s.postHost link func addr bs).parts = s.parts := rfl
@[simp] theorem State.postHost_tokens (s : State) (link func addr : Nat) (bs : List Byte) : (s.postHost link func addr bs).tokens = s.tokens := rfl
@[simp] theorem State.postHost_sluWindow (s : State) (link func addr : Nat) (bs : List Byte) : (s.postHost link func addr bs).sluWindow = s.sluWindow := rfl
@[simp] theorem State.postHost_ctxs (s : State) (link func addr : Nat) (bs : List Byte) : (s.postHost link func addr bs).ctxs = s.ctxs := rfl
@[simp] theorem State.postHost_trans (s : State) (link func addr : Nat) (bs : List Byte) : (s.postHost link func addr bs).trans = s.trans := rfl
@[simp] theorem State.postHost_tlb (s : State) (link func addr : Nat) (bs : List Byte) : (s.postHost link func addr bs).tlb = s.tlb := rfl
@[simp] theorem State.postHost_fences (s : State) (link func addr : Nat) (bs : List Byte) : (s.postHost link func addr bs).fences = s.fences := rfl
@[simp] theorem State.postHost_fenceFresh (s : State) (link func addr : Nat) (bs : List Byte) : (s.postHost link func addr bs).fenceFresh = s.fenceFresh := rfl
@[simp] theorem State.postHost_fenceFreed (s : State) (link func addr : Nat) (bs : List Byte) : (s.postHost link func addr bs).fenceFreed = s.fenceFreed := rfl
@[simp] theorem State.postHost_fenceLower (s : State) (link func addr : Nat) (bs : List Byte) : (s.postHost link func addr bs).fenceLower = s.fenceLower := rfl
@[simp] theorem State.postHost_remoteDrop (s : State) (link func addr : Nat) (bs : List Byte) : (s.postHost link func addr bs).remoteDrop = s.remoteDrop := rfl
@[simp] theorem State.postHost_rings (s : State) (link func addr : Nat) (bs : List Byte) : (s.postHost link func addr bs).rings = s.rings := rfl
@[simp] theorem State.postHost_ringTaken (s : State) (link func addr : Nat) (bs : List Byte) : (s.postHost link func addr bs).ringTaken = s.ringTaken := rfl
@[simp] theorem State.postHost_ringTakenLc (s : State) (link func addr : Nat) (bs : List Byte) : (s.postHost link func addr bs).ringTakenLc = s.ringTakenLc := rfl
@[simp] theorem State.postHost_objs (s : State) (link func addr : Nat) (bs : List Byte) : (s.postHost link func addr bs).objs = s.objs := rfl
@[simp] theorem State.postHost_nextObj (s : State) (link func addr : Nat) (bs : List Byte) : (s.postHost link func addr bs).nextObj = s.nextObj := rfl
@[simp] theorem State.postHost_hbm (s : State) (link func addr : Nat) (bs : List Byte) : (s.postHost link func addr bs).hbm = s.hbm := rfl
@[simp] theorem State.postHost_chip (s : State) (link func addr : Nat) (bs : List Byte) : (s.postHost link func addr bs).chip = s.chip := rfl
@[simp] theorem State.postHost_pans (s : State) (link func addr : Nat) (bs : List Byte) : (s.postHost link func addr bs).pans = s.pans := rfl
@[simp] theorem State.postHost_units (s : State) (link func addr : Nat) (bs : List Byte) : (s.postHost link func addr bs).units = s.units := rfl
@[simp] theorem State.postHost_clusters (s : State) (link func addr : Nat) (bs : List Byte) : (s.postHost link func addr bs).clusters = s.clusters := rfl
@[simp] theorem State.postHost_power (s : State) (link func addr : Nat) (bs : List Byte) : (s.postHost link func addr bs).power = s.power := rfl
@[simp] theorem State.postHost_log (s : State) (link func addr : Nat) (bs : List Byte) : (s.postHost link func addr bs).log = s.log := rfl
@[simp] theorem State.postHost_telem (s : State) (link func addr : Nat) (bs : List Byte) : (s.postHost link func addr bs).telem = s.telem := rfl
@[simp] theorem State.postHost_secs (s : State) (link func addr : Nat) (bs : List Byte) : (s.postHost link func addr bs).secs = s.secs := rfl
@[simp] theorem State.postHost_nextSec (s : State) (link func addr : Nat) (bs : List Byte) : (s.postHost link func addr bs).nextSec = s.nextSec := rfl
@[simp] theorem State.postHost_cmds (s : State) (link func addr : Nat) (bs : List Byte) : (s.postHost link func addr bs).cmds = s.cmds := rfl
@[simp] theorem State.postHost_replays (s : State) (link func addr : Nat) (bs : List Byte) : (s.postHost link func addr bs).replays = s.replays := rfl
@[simp] theorem State.postHost_scanSet (s : State) (link func addr : Nat) (bs : List Byte) : (s.postHost link func addr bs).scanSet = s.scanSet := rfl
@[simp] theorem State.postHost_hzn (s : State) (link func addr : Nat) (bs : List Byte) : (s.postHost link func addr bs).hzn = s.hzn := rfl
@[simp] theorem State.postHost_svcs (s : State) (link func addr : Nat) (bs : List Byte) : (s.postHost link func addr bs).svcs = s.svcs := rfl
@[simp] theorem State.postHost_sessions (s : State) (link func addr : Nat) (bs : List Byte) : (s.postHost link func addr bs).sessions = s.sessions := rfl
@[simp] theorem State.postHost_nextSession (s : State) (link func addr : Nat) (bs : List Byte) : (s.postHost link func addr bs).nextSession = s.nextSession := rfl
@[simp] theorem State.postHost_xparts (s : State) (link func addr : Nat) (bs : List Byte) : (s.postHost link func addr bs).xparts = s.xparts := rfl
@[simp] theorem State.postHost_loader (s : State) (link func addr : Nat) (bs : List Byte) : (s.postHost link func addr bs).loader = s.loader := rfl
@[simp] theorem State.postHost_invals (s : State) (link func addr : Nat) (bs : List Byte) : (s.postHost link func addr bs).invals = s.invals := rfl
@[simp] theorem State.postHost_atsInvals (s : State) (link func addr : Nat) (bs : List Byte) : (s.postHost link func addr bs).atsInvals = s.atsInvals := rfl
@[simp] theorem State.postHost_eid (s : State) (link func addr : Nat) (bs : List Byte) : (s.postHost link func addr bs).eid = s.eid := rfl
@[simp] theorem State.postHost_fn (s : State) (link func addr : Nat) (bs : List Byte) (j : Nat) : (s.postHost link func addr bs).fn j = s.fn j := rfl
@[simp] theorem State.postHost_cx (s : State) (link func addr : Nat) (bs : List Byte) (j : Nat) : (s.postHost link func addr bs).cx j = s.cx j := rfl
@[simp] theorem State.postHost_pt (s : State) (link func addr : Nat) (bs : List Byte) (j : Nat) : (s.postHost link func addr bs).pt j = s.pt j := rfl
@[simp] theorem State.postHost_cl (s : State) (link func addr : Nat) (bs : List Byte) (j : Nat) : (s.postHost link func addr bs).cl j = s.cl j := rfl
@[simp] theorem State.postHost_rg (s : State) (link func addr : Nat) (bs : List Byte) (j : Nat) : (s.postHost link func addr bs).rg j = s.rg j := rfl
@[simp] theorem State.postHost_sec (s : State) (link func addr : Nat) (bs : List Byte) (j : Nat) : (s.postHost link func addr bs).sec j = s.sec j := rfl
@[simp] theorem State.postHost_fe (s : State) (link func addr : Nat) (bs : List Byte) (j : Nat) : (s.postHost link func addr bs).fe j = s.fe j := rfl
@[simp] theorem State.postHost_ob (s : State) (link func addr : Nat) (bs : List Byte) (j : Nat) : (s.postHost link func addr bs).ob j = s.ob j := rfl
@[simp] theorem State.postHost_pan (s : State) (link func addr : Nat) (bs : List Byte) (j : Nat) : (s.postHost link func addr bs).pan j = s.pan j := rfl
@[simp] theorem State.postHost_un (s : State) (link func addr : Nat) (bs : List Byte) (j : Nat) : (s.postHost link func addr bs).un j = s.un j := rfl
@[simp] theorem State.postHost_stk (s : State) (link func addr : Nat) (bs : List Byte) (j : Nat) : (s.postHost link func addr bs).stk j = s.stk j := rfl
@[simp] theorem State.postHost_port (s : State) (link func addr : Nat) (bs : List Byte) (j : Nat) : (s.postHost link func addr bs).port j = s.port j := rfl
@[simp] theorem State.postHost_xp (s : State) (link func addr : Nat) (bs : List Byte) (j : Nat) : (s.postHost link func addr bs).xp j = s.xp j := rfl
@[simp] theorem State.postHost_svc (s : State) (link func addr : Nat) (bs : List Byte) (j : Nat) : (s.postHost link func addr bs).svc j = s.svc j := rfl
@[simp] theorem State.postHost_hubUp (s : State) (link func addr : Nat) (bs : List Byte) : (s.postHost link func addr bs).hubUp = s.hubUp := rfl
@[simp] theorem State.postHost_ready (s : State) (link func addr : Nat) (bs : List Byte) : (s.postHost link func addr bs).ready = s.ready := rfl
@[simp] theorem State.postHost_clPresent (s : State) (link func addr : Nat) (bs : List Byte) (c : Nat) : (s.postHost link func addr bs).clPresent c = s.clPresent c := rfl
@[simp] theorem State.postHost_funcExists (s : State) (link func addr : Nat) (bs : List Byte) (j : Nat) : (s.postHost link func addr bs).funcExists j = s.funcExists j := rfl
@[simp] theorem State.postHost_partPresent (s : State) (link func addr : Nat) (bs : List Byte) (p : Nat) : (s.postHost link func addr bs).partPresent p = s.partPresent p := rfl
@[simp] theorem State.postHost_portPresent (s : State) (link func addr : Nat) (bs : List Byte) (p : Nat) : (s.postHost link func addr bs).portPresent p = s.portPresent p := rfl
@[simp] theorem State.postHost_stackFitted (s : State) (link func addr : Nat) (bs : List Byte) (k : Nat) : (s.postHost link func addr bs).stackFitted k = s.stackFitted k := rfl

end Sys2Proof.Machine
end

