-- ==== Sys2Proof/Tests/Slice0.lean ====
section
/-! SUPPORT. Tests: an ill-formed command for each check of Instr.wf; the manual's worked examples of its arithmetic; single steps;
and, for each statement with hypotheses, a state and operands that meet them, clause by clause (wit_...). -/


set_option Elab.async false
set_option maxRecDepth 100000
namespace Sys2Proof.Tests

open Sys2Proof Sys2Proof.Machine

/-- An engine that is Ready, with nothing loaded. -/
def rdy : State := { pins := { porstN := true }, hub := { stage := 6, configReady := true } }

/-- An engine in a stage of its boot. -/
def bootAt (n : Nat) : State := { pins := { porstN := true }, hub := { stage := n, booting := true, configReady := true } }

/-- A ready engine with ID 5, its horizon enabled, and port 0 to engine 9 in a state. -/
def link (st : Nat) : State := { rdy with hzn := {
  ctrl := 0x100000005, engineId := 5, timeCtrl := 0x80, portCfg := [(0, 0x49)]
  ports := [(0, { st, window := 512, crBulk := 4, crCtrl := 4, pcsLocked := true })] } }

/-- A frame from engine 9 to engine 5. -/
def frameFrom (typ op : Nat) (payload : List Byte := []) : Fr := { typ, op, vc := 1, dst := 5, src := 9, payload }

theorem arrivesOf (s : State) (p : Nat) (b : List Byte) (t o : Nat)
    (h : p < 36 ∧ s.portOn p = true ∧ (s.port p).st = 2 ∧ frameOk b = true ∧ fieldsLegal b (parseFr b) = true
      ∧ s.addressOk p (parseFr b) = true ∧ (parseFr b).typ = t ∧ (parseFr b).op = o) : Arrives s p b t o :=
  ⟨h.1, h.2.1, h.2.2.1, h.2.2.2.1, h.2.2.2.2.1, h.2.2.2.2.2.1, h.2.2.2.2.2.2⟩

theorem acceptedOf (s : State) (p : Nat) (b : List Byte) (t o : Nat)
    (h : (p < 36 ∧ s.portOn p = true ∧ (s.port p).st = 2 ∧ frameOk b = true ∧ fieldsLegal b (parseFr b) = true
        ∧ s.addressOk p (parseFr b) = true ∧ (parseFr b).typ = t ∧ (parseFr b).op = o)
      ∧ (parseFr b).dst = s.hzn.engineId ∧ cdist 16 (parseFr b).seq (s.port p).expected = 0
      ∧ if (parseFr b).vc = 1 then (s.port p).rxCtrl < 32 else (s.port p).rxBulk < 512) : Accepted s p b t o :=
  ⟨arrivesOf s p b t o h.1, h.2.1, h.2.2.1, h.2.2.2⟩

/-- A ready engine whose function 0 has a descriptor of an operation at the head of its admin ring, for context 1 of partition 0. -/
def admin (op : Nat) (payload : List Byte) : State := { rdy with
  hostMem := Mem.wrN [] 0x10000 (leBytes 1 op ++ leBytes 1 0 ++ leBytes 1 1 ++ leBytes 13 0 ++ payload)
  funcs := [(0, { enable := true, evOn := true, adminBase := 0x10000, adminCfg := 4, fevtBase := 0x20000, fevtCfg := 6, adminTail := 1 })]
  parts := [(0, { cfg := 0x1000000000000001 })]
  ctxs := [(1, { life := .live }), (2, { life := .live })] }

theorem adminTurnOf (s : State) (f op : Nat)
    (h : s.adminReady f = true ∧ at1 (s.adminDesc f) 0 = op ∧ adminOps.contains op = true
      ∧ reservedOk (s.adminDesc f) (adminFields op) = true ∧ (op = 0x10 ∨ s.ownsCtx f (at1 (s.adminDesc f) 2) = true)) :
    AdminTurn s f op := ⟨h.1, h.2.1, h.2.2.1, h.2.2.2.1, h.2.2.2.2⟩

/-- The tables of a translation that maps page 0 to the first page of stack 0, in sub-page 16. -/
def tabs : Mem := [⟨0x100000, 1⟩, ⟨0x100001, 0x10⟩, ⟨0x100002, 0x10⟩, ⟨0x101000, 1⟩, ⟨0x101001, 0x20⟩, ⟨0x101002, 0x10⟩, ⟨0x102000, 7⟩,
  ⟨0x102001, 1⟩, ⟨0x102008, 0xFF⟩, ⟨0x102009, 0xFF⟩, ⟨0x10200A, 0xFF⟩, ⟨0x10200B, 0xFF⟩]
/-- External memory of one stack, whose first 64 KiB are context 1's, with the tables. -/
def hbm1 : Hbm := { stks := [(0, { st := 1, rate := 128, gib := 64 })], dir := [(0, { tag := 1, st := 1 }), (16, { st := 2 })], ready := true, data := tabs }

/-- A ready engine whose ring 3, of context 1, has a descriptor of an operation at its head. -/
def ringAt (op : Nat) (payload : List Byte) : State := { rdy with
  hostMem := Mem.wrN [] 0x10000 (leBytes 1 op ++ leBytes 15 0 ++ payload)
  parts := [(0, { cfg := 0x1000000000000001 })]
  ctxs := [(1, { life := .live })]
  trans := [(256, { root := some 0x100000, subs := [16], used := 16384 })]
  hbm := hbm1
  rings := [(3, { live := true, ctx := 1, base := 0x10000, tail := 1 })] }

theorem ringTurnOf (s : State) (r op : Nat)
    (h : r < 1024 ∧ s.ringReady r = true ∧ s.nextRing = some r ∧ (s.cx (s.rg r).ctx).life = .live ∧ at1 (s.ringDesc r) 0 = op
      ∧ ringDescOk (s.ringDesc r) = true ∧ ringDescAligned (s.ringDesc r) = true) : RingTurn s r op :=
  ⟨h.1, h.2.1, h.2.2.1, h.2.2.2.1, h.2.2.2.2.1, h.2.2.2.2.2.1, h.2.2.2.2.2.2⟩

theorem errGet {α σ : Type} (e : Nat) (r : Except Nat α × σ) (h : (match r.1 with | .error x => x == e | .ok _ => false) = true) : r = (.error e, r.2) := by
  rcases r with ⟨x | a, s⟩
  · simp at h; simp [h]
  · cases h

/-- An action that succeeds, or fails, has a result. -/
theorem okOf {ε α σ : Type} (r : Except ε α × σ) (h : r.1.toBool = true) : ∃ a, r = (.ok a, r.2) := by
  rcases r with ⟨e | a, s⟩
  · cases h
  · exact ⟨a, rfl⟩

def pad64 (b : List Byte) : List Byte := b ++ List.replicate ((64 - b.length % 64) % 64) 0

/-- A command word: an opcode and a payload. -/
def word (op : Nat) (payload : List Byte) : List Byte := ((leBytes 1 op ++ leBytes 7 0 ++ payload) ++ List.replicate 24 0).take 32

/-- A descriptor of a vector of n elements of a format at a byte of a space. -/
def vec (fmt space n base : Nat) : List Byte :=
  leBytes 1 fmt ++ leBytes 1 (1 + 64 * space) ++ leBytes 6 0 ++ leBytes 8 base ++ leBytes 8 0 ++ leBytes 4 n ++ leBytes 36 0

/-- A section image with its tables from a place on: stations (kind, slot and program), routes and descriptors. -/
def image (base : Nat) (sts : List (Nat × Nat × List (List Byte))) (routes descs : List (List Byte)) : List Byte :=
  let (recs, prog) := sts.foldl (fun (a : List Byte × List Byte) (k, slot, ws) =>
    (a.1 ++ leBytes 2 k ++ leBytes 2 slot ++ leBytes 4 a.2.length ++ leBytes 2 ws.length ++ leBytes 2 (if slot = 0xFFFF then 7 else 0)
      ++ leBytes 4 (if slot = 0xFFFF then 0 else 65536) ++ leBytes 4 (a.2.length / 32) ++ leBytes 12 0, a.2 ++ ws.flatten)) ([], [])
  let s := pad64 recs
  let r := pad64 routes.flatten
  let d := descs.flatten
  let p := pad64 prog
  let n := base + s.length + r.length + d.length
  ascii "DWSC" ++ leBytes 4 1 ++ leBytes 4 (n + p.length) ++ leBytes 2 sts.length ++ leBytes 2 1 ++ leBytes 2 routes.length ++ leBytes 2 0
    ++ leBytes 2 descs.length ++ leBytes 2 0 ++ leBytes 4 base ++ leBytes 4 (if routes.isEmpty then 0 else base + s.length) ++ leBytes 4 0
    ++ leBytes 4 (base + s.length + r.length) ++ leBytes 4 n ++ leBytes 4 0 ++ leBytes 8 0 ++ leBytes 8 0x10000 ++ leBytes 4 16
    ++ List.replicate (base - 68) 0 ++ s ++ r ++ d ++ p

/-- A ready engine with section 1 of context 1 in a run on core 0, whose first command is in flight as issued. -/
def busy (sts : List (Nat × Nat × List (List Byte))) (routes descs : List (List Byte)) (u : Nat) : State := { rdy with
  parts := [(0, { cfg := 0x1000000000000001 })]
  ctxs := [(1, { life := .live })]
  trans := [(256, { root := some 0x100000, subs := [16], used := 16384 })]
  hbm := hbm1
  chip := { booted := true, cmPages := [(0, { fresh := false, owner := 1, st := 1 })] }
  secs := [(1, { ctx := 1, img := image 192 sts routes descs, cores := [0], cmPages := List.replicate 8 [0], run := some { heads := [(0, 1)] } })]
  nextSec := 2
  units := [(u, { binds := [(1, 0)], queue := [.station 1 0 0] })]
  cmds := [{ ref := .station 1 0 0, ctx := 1, word := (sts.headD (0, 0, [])).2.2.headD [], infos := [{}] }] }

/-- Two vectors of four bytes of core memory. -/
def vecs : List (List Byte) := [vec 9 2 4 0, vec 9 2 4 64]
/-- A COPY of the first to the second. -/
def copyWord : List Byte := word 0x80 (leBytes 2 1 ++ leBytes 2 2)
/-- A COPY in flight on the transfer unit of core 0. -/
def copying : State := busy [(2, 0, [copyWord])] [] vecs 3
def copyCmd : Cmd := { ref := .station 1 0 0, ctx := 1, word := copyWord, infos := [{}] }

/-- A descriptor of a matrix of e0 by e1 elements of a format at a byte of a space, its rows a number of bytes apart. -/
def mat (fmt space e0 e1 stride base : Nat) : List Byte :=
  leBytes 1 fmt ++ leBytes 1 (2 + 64 * space) ++ leBytes 6 0 ++ leBytes 8 base ++ leBytes 8 0 ++ leBytes 4 e0 ++ leBytes 4 e1 ++ leBytes 8 0
    ++ leBytes 4 stride ++ leBytes 16 0
/-- An activation of 4 by 2, a weight of 4 by 2 and a result of 2 by 2. -/
def mats : List (List Byte) := [mat 9 2 4 2 4 0, mat 9 2 4 2 4 64, mat 15 2 2 2 8 128]
/-- A MATMUL of them in a mode. -/
def matWord (mode : Nat) : List Byte := word 0 (leBytes 2 1 ++ leBytes 2 2 ++ leBytes 2 3 ++ leBytes 6 0 ++ leBytes 1 mode)
def matCmd (mode : Nat) : Cmd := { ref := .station 1 0 0, ctx := 1, word := matWord mode, infos := [{}], totalOps := 1 }
/-- A MATMUL in flight on pan 0, which is in a run state. -/
def multiplying (mode : Nat) (pan : Pan) : State := { busy [(0, 0, [matWord mode])] [] mats 0 with cmds := [matCmd mode], pans := [(0, pan)] }

/-- A COPY in flight whose source no table maps. -/
def far : State := busy [(2, 0, [copyWord])] [] [vec 9 0 4 0x200000, vec 9 2 4 64] 3

theorem mapOf {α β : Type} (o : Option α) (f : α → β) (y : β) (h : o.map f = some y) : ∃ x, o = some x ∧ f x = y := by
  cases o with
  | none => cases h
  | some x => exact ⟨x, rfl, Option.some.inj h⟩

/-- A ready engine whose stack 19 has bytes of its first line that differ from the codeword. -/
def flipped (m : Mem) : State := { rdy with hbm := { stks := [(19, { st := 1, gib := 64 })], flips := m, ready := true } }


/-- A command word with header flags. -/
def wordF (op flags : Nat) (payload : List Byte) : List Byte := ((leBytes 1 op ++ leBytes 1 flags ++ leBytes 6 0 ++ payload) ++ List.replicate 24 0).take 32

/-- A ready engine whose section 1, of stations, routes and descriptors, begins its run; fence 0 has the value 5. -/
def begins (sts : List (Nat × Nat × List (List Byte))) (routes descs : List (List Byte)) : State :=
  let s := busy sts routes descs 3
  { s with cmds := [], units := [], secs := s.secs.map (fun e => (e.1, { e.2 with run := some {} })), fences := [(0, { life := .live, value := 5 })] }

/-- WAIT for, and SIGNAL of, a value of fence 0. -/
def waitWord (flags v : Nat) : List Byte := word 0xA0 (leBytes 4 0x10000 ++ leBytes 2 0 ++ leBytes 1 flags ++ leBytes 1 0 ++ leBytes 8 v)
def sigWord (flags v : Nat) : List Byte := word 0xA1 (leBytes 4 0x10000 ++ leBytes 2 0 ++ leBytes 1 flags ++ leBytes 1 0 ++ leBytes 8 v)
def waitCmd (v : Nat) : Cmd := { ref := .station 1 0 0, ctx := 1, word := waitWord 0 v, infos := [{}] }

/-- An image with its set 0 of stations. -/
def withSet (img : List Byte) (ms : List Nat) : List Byte :=
  img.take 32 ++ leBytes 4 img.length ++ img.drop 36 ++ leBytes 4 (img.length + 8) ++ leBytes 4 ms.length ++ ms.flatMap (leBytes 2)
/-- An MCAST from core 0 to core 1, its sender in flight. -/
def sendWord : List Byte := word 0x83 (leBytes 2 1)
def takeWord : List Byte := word 0x83 (leBytes 2 0 ++ leBytes 2 2)
def casting (c : Cluster) (rooms : List Room) : State :=
  let s := busy [(2, 0, [sendWord]), (2, 1, [takeWord])] [] vecs 3
  { s with clusters := [(0, c)], secs := s.secs.map (fun e => (e.1, { e.2 with cores := [0, 1], img := withSet e.2.img [1], run := some { heads := [(0, 1)], rooms } })) }
def castCmd : Cmd := { copyCmd with word := sendWord }

/-- A PREFETCH of a weight set in flight on pan 0. -/
def preWord : List Byte := word 0x84 (leBytes 2 2 ++ leBytes 2 0 ++ leBytes 1 1)
def fetching (p : Pan) : State := { busy [(0, 0, [preWord])] [] mats 0 with pans := [(0, p)] }
def preCmd : Cmd := { copyCmd with word := preWord }

/-- A swap of section 2, which is in a run, in flight. -/
def swapping (op h : Nat) : State :=
  let s := copying
  { s with secs := s.secs ++ [(2, { ctx := 1, run := some {} })], cmds := [{ copyCmd with word := word op (leBytes 4 0 ++ leBytes 4 h) }] }
def swapCmd (op h : Nat) : Cmd := { copyCmd with word := word op (leBytes 4 0 ++ leBytes 4 h) }

/-- A ring's PATCH or REPLAY in flight for a section, which rests. -/
def ringCmd (op h n : Nat) : Cmd := { ref := .ring 3, ctx := 1, word := word op (leBytes 4 0 ++ leBytes 4 h ++ leBytes 8 n), infos := [{}] }
def resting (cs : List Cmd) : State := { copying with units := [], cmds := cs, secs := copying.secs.map (fun e => (e.1, { e.2 with run := none })) }

/-- A PATCH of register 0 to 7 at the head of a program; the register is a number up to 9. -/
def patching : State :=
  let s := begins [(1, 0, [word 0xE0 (leBytes 8 0 ++ leBytes 8 7)])] [] vecs
  { s with secs := s.secs.map (fun e => (e.1, { e.2 with img := (e.2.img.set 128 1).set 136 9 })) }

theorem okTriple {ε α β γ σ : Type} (a : α) (b : β) (c : γ) (r : Except ε (α × β × γ) × σ) (h : r.1.toBool = true) :
    r = (.ok ((r.1.toOption.getD (a, b, c)).1, (r.1.toOption.getD (a, b, c)).2.1, (r.1.toOption.getD (a, b, c)).2.2), r.2) := by
  rcases r with ⟨e | x, s⟩
  · cases h
  · rfl

/-- A COPY to a route and one from it, in a stream group, of which one command is in a phase. -/
def routeWord (a b : Nat) : List Byte := word 0x80 (leBytes 2 a ++ leBytes 2 b)
def streaming (k j : Cmd) (q : Run) : State :=
  let s := busy [(2, 0, [routeWord 1 2]), (2, 1, [routeWord 2 3])] [leBytes 2 0 ++ leBytes 2 1 ++ leBytes 2 2 ++ leBytes 1 2 ++ leBytes 9 0]
    [vec 9 2 4 0, vec 9 3 4 0, vec 9 2 4 64] 3
  { s with cmds := [k, j], secs := s.secs.map (fun e => (e.1, { e.2 with cores := [0, 1], run := some q })) }
def writer : Cmd := { ref := .station 1 0 0, ctx := 1, word := routeWord 1 2, infos := [{}] }
def reader : Cmd := { ref := .station 1 1 0, ctx := 1, word := routeWord 2 3, infos := [{}] }
def oneFrame : SFrame :=
  { run := 0, seq := 0, t0 := 0, t1 := 0, outer := 0, rows := 1, cols := 4, empty := false, last := true, scaled := false, fmt := 9, tscale := 0
    codes := [1, 2, 3, 4], scales := [] }

/-- A REQUANT that has saturated, written; its word has a saturation policy. -/
def satWord (pol : Nat) : List Byte :=
  ((leBytes 1 0x42 ++ leBytes 2 0 ++ leBytes 1 (32 * pol) ++ leBytes 4 0 ++ leBytes 2 1 ++ leBytes 2 2) ++ List.replicate 24 0).take 32
def satCmd (pol : Nat) : Cmd := { copyCmd with word := satWord pol, phase := .written, infos := [{ sat := 9 }] }
def saturated (pol : Nat) : State := { busy [(1, 0, [satWord pol])] [] vecs 2 with cmds := [satCmd pol] }

/-- The horizon of engine 5, with port 0 to engine 9, and domain 7 for context 1. -/
def hzn7 : Horizon := { (link 2).hzn with domains := [(0, 0x70000)] }
/-- A horizon command of context 1 that begins; descriptors 1 and 2 are vectors of 4 elements of I8, 3 the members of a group. -/
def horizonal (w : List Byte) : State :=
  let s := begins [(2, 0, [w])] [] [vec 9 2 4 0, vec 9 2 4 64, vec 15 0 2 0]
  { s with hzn := hzn7, hbm := { hbm1 with data := [⟨0, 5⟩, ⟨4, 9⟩] ++ tabs } }
def horizonWord (op a b : Nat) : List Byte := word op (leBytes 2 a ++ leBytes 2 b ++ leBytes 4 0 ++ leBytes 4 9 ++ leBytes 4 77)
def groupWord (op : Nat) : List Byte := word op (leBytes 2 1 ++ leBytes 2 2 ++ leBytes 2 3 ++ leBytes 2 1)
/-- A horizon command at work. -/
def atWork (w : List Byte) : State :=
  let s := horizonal w
  { s with cmds := [{ copyCmd with word := w, phase := .executing, step := 2 }], secs := s.secs.map (fun e => (e.1, { e.2 with run := some { heads := [(0, 1)] } })) }
def workCmd (w : List Byte) : Cmd := { copyCmd with word := w, phase := .executing, step := 2 }
/-- A message of a number with engine 9 under key 77. -/
def msg77 (sending : Bool) (cmd : Option CmdRef) : Msg :=
  { num := 3, sending, peer := 9, domain := 7, key := 77, cmd, lines := List.replicate 64 0, length := 1, fmt := 9, extents := [4] }
def withMsg (w : List Byte) (m : Msg) : State := let s := atWork w; { s with hzn := { hzn7 with msgs := [m] } }
/-- A frame of message 3 under key 77. -/
def frame77 (typ op : Nat) (payload : List Byte := []) : List Byte := ({ frameFrom typ op payload with domain := 7, msg := 3, key := 77 } : Fr).bytes
def rtsBytes : List Byte := leBytes 1 9 ++ leBytes 1 1 ++ leBytes 2 0 ++ leBytes 4 4 ++ leBytes 16 0 ++ leBytes 4 1

theorem okPair {ε α β σ : Type} (a : α) (b : β) (r : Except ε (α × β) × σ) (h : r.1.toBool = true) :
    r = (.ok ((r.1.toOption.getD (a, b)).1, (r.1.toOption.getD (a, b)).2), r.2) := by
  rcases r with ⟨e | a, s⟩
  · cases h
  · rfl

theorem errVal {α : Type} (e : Nat) (r : Except Nat α) (h : (match r with | .error x => x == e | .ok _ => false) = true) : r = .error e := by
  cases r with
  | error x => simp at h; simp [h]
  | ok a => cases h

theorem allOf {α : Type} (o : Option α) (P : α → Prop) [DecidablePred P] (h : (o.all fun c => decide (P c)) = true) : ∀ c, o = some c → P c := by
  rintro c rfl
  simpa using h

theorem allRefs (s : State) (l : List CmdRef) (P : Cmd → Prop) [DecidablePred P] (h : (l.all fun r => (s.cmd? r).all fun k => decide (P k)) = true) :
    ∀ r ∈ l, ∀ k, s.cmd? r = some k → P k := by
  intro r hr k hk
  have := List.all_eq_true.mp h r hr
  rw [hk] at this
  simpa using this

/-- The smallest image of a service program, and the registers of a service that loads it at host address 4096 with 16 MiB. -/
def svcImage : List Byte := ascii "DWSV" ++ leBytes 2 0 ++ leBytes 2 0x100 ++ List.replicate 56 0
def loading : State := { rdy with
  hostMem := Mem.wrN [] 4096 svcImage, svcs := [(12, { image := 4096, cfg := 0x4000100000040 })]
  hbm := { stks := [(0, { st := 1, rate := 128, gib := 64 })], ready := true } }
/-- A CORE_CALL or a SOFT_CALL with its operands, its station or service, and its command at work. -/
def callWord (op svc : Nat) : List Byte := word op (leBytes 2 1 ++ leBytes 2 2 ++ leBytes 2 svc ++ leBytes 2 5 ++ leBytes 8 6 ++ leBytes 2 2)
def callCmd (op : Nat) (acc : List Byte) : Cmd := { ref := .station 1 0 0, ctx := 1, word := callWord op 1, phase := .executing, call := some 0, infos := [{}], acc }
def called (q : Call) : State := { copying with cmds := [callCmd 0xE4 []], svcs := [(1, { st := 2, ring := [(0, q)] })] }
def softened (x : XPart) : State :=
  let s := begins [(3, 0xFFFF, [callWord 0xE3 0])] [] vecs
  { s with secs := s.secs.map (fun e => (e.1, { e.2 with softParts := [(0, 39)] })), xparts := [(39, x)] }
/-- A part 39 with a call in progress, whose result has n elements. -/
def replying (n : Nat) (c : XCall) : State :=
  { busy [(3, 0xFFFF, [callWord 0xE3 0])] [] [vec 9 2 4 0, vec 9 2 n 64] 3 with
    cmds := [callCmd 0xE3 (List.replicate 64 0)], xparts := [(39, { st := 3, clamped := false, call := some c })] }
def replyBeat (n : Nat) : List Byte := leBytes 4 1 ++ [0, 2] ++ leBytes 22 0 ++ leBytes 4 n ++ leBytes 32 0

/-- A session block of ring 3 and section 1, with both fences on fence 0. -/
def block : List Byte :=
  leBytes 2 0 ++ leBytes 2 0x100 ++ leBytes 4 1 ++ leBytes 8 0 ++ leBytes 2 3 ++ [1, 0] ++ leBytes 2 0 ++ [2, 0] ++ leBytes 8 0x1000 ++ leBytes 4 4
    ++ leBytes 4 64 ++ leBytes 8 0x2000 ++ leBytes 8 0x3000 ++ leBytes 8 0x4000 ++ leBytes 2 1 ++ leBytes 6 0 ++ leBytes 8 0x5000 ++ [4, 0, 0, 0]
    ++ leBytes 4 0x10000 ++ leBytes 8 0x6000 ++ leBytes 8 0x7000 ++ [6, 0, 0, 0] ++ leBytes 4 0x10000 ++ leBytes 8 0x8000 ++ leBytes 8 0
def sessCall (f : Nat) : Call := { id := 1, ctx := 1, st := 1, func := f, input := block, outLen := 16 }
/-- A ready engine with section 1 at rest, ring 3, a session or none, and a posted call of the Crystallizer or none. -/
def served (x : List (Nat × Session)) (f : Nat) : State := { resting [] with
  rings := [(3, { live := true, ctx := 1, base := 0x10000 })], fences := [(0, { life := .live, owner := 1, owned := true })]
  sessions := x, svcs := [(0, { ring := [(0, sessCall f)] })] }
def oneReq (row : Option Nat) : Req := { id := 1, prompt := [5], maxNew := 3, gen := true, order := 1, row, chunk := 1 }

theorem allIn {α : Type} (l : List α) (p : α → Bool) (h : l.all p = true) : ∀ a ∈ l, p a = true := List.all_eq_true.mp h

/-- The value of an action that succeeds. -/
theorem okGet {ε α σ : Type} (d : α) (r : Except ε α × σ) (h : r.1.toBool = true) : r = (.ok (r.1.toOption.getD d), r.2) := by
  rcases r with ⟨e | a, s⟩
  · cases h
  · rfl

theorem okUnit {ε σ : Type} (r : Except ε Unit × σ) (h : r.1.toBool = true) : r = (.ok (), r.2) := by
  rcases r with ⟨e | a, s⟩
  · cases h
  · rfl

theorem okVal {ε α : Type} (d : α) (r : Except ε α) (h : r.toBool = true) : r = .ok (r.toOption.getD d) := by
  cases r with
  | error e => cases h
  | ok a => rfl

theorem someVal {α : Type} (d : α) (r : Option α) (h : r.isSome = true) : r = some (r.getD d) := by
  cases r with
  | none => cases h
  | some a => rfl

/-- The header of a sub-image at a place of the chain, for a map of parts, of a length. -/
def subHeader (pos map n : Nat) : List Byte :=
  ascii "OHMS" ++ leBytes 2 1 ++ leBytes 1 pos ++ leBytes 1 0 ++ leBytes 2 0xD909 ++ leBytes 1 250 ++ leBytes 5 0 ++ leBytes 4 n ++ leBytes 12 0
    ++ leBytes 8 map ++ leBytes 2 0x100 ++ leBytes 2 0x100 ++ leBytes 84 0

/-- The base point of P-384 as a public key. -/
def gPub : List Byte := beBytes 48 p384G.1 ++ beBytes 48 p384G.2

/-- A sub-image without entries, signed under the private key 1 with the nonce 1: r is the base point's x, s the digest plus r. -/
def signed : List Byte := subHeader 0 0 320 ++ gPub ++ beBytes 48 p384G.1
  ++ beBytes 48 0x65EC8BCBDA202D7C9BFE7F9C4F238A7516DB21562C1AF42E38851CF606ED7DFFD109DBE53143BB57DEEE3A71A7D9E193

/-- A load whose next sub-image has come up to its header. -/
def receiving : State := { rdy with
  part := { rdy.part with keyHash := [some (sha384 (0x04 :: gPub))] }, loader := { st := 1, src := true, staging := signed.take 128 } }

/-- The low n bits of k times p, added to q: ecMul's walk from a point on. -/
def ecWalk : Nat → Nat → Option (Nat × Nat) → Option (Nat × Nat) → Option (Nat × Nat)
  | 0, _, _, q => q
  | n + 1, k, p, q => let r := ecWalk n (k / 2) (ecAdd p p) q; if k % 2 = 1 then ecAdd p r else r

/-- p doubled n times. -/
def ecDouble : Nat → Option (Nat × Nat) → Option (Nat × Nat)
  | 0, p => p
  | n + 1, p => ecDouble n (ecAdd p p)

theorem ecMul_eq_walk (n k : Nat) (p : Option (Nat × Nat)) : ecMul n k p = ecWalk n k p none := by
  induction n generalizing k p with
  | zero => rfl
  | succ n ih => simp only [ecMul, ecWalk, ih]

theorem ecWalk_add (m n k : Nat) (p q : Option (Nat × Nat)) :
    ecWalk (n + m) k p q = ecWalk m k p (ecWalk n (k / 2 ^ m) (ecDouble m p) q) := by
  induction m generalizing k p with
  | zero => simp [ecWalk, ecDouble]
  | succ m ih =>
    have h : k / 2 / 2 ^ m = k / 2 ^ (m + 1) := by rw [Nat.div_div_eq_div_mul, Nat.pow_succ']
    rw [show n + (m + 1) = n + m + 1 from rfl]; simp only [ecWalk, ecDouble, ih, h]

/-- The base point times 2^96, 2^192 and 2^288. -/
def gDoubled : List (Nat × Nat) := [(0xF532389A060CBD1BD6E98B0D37CA7ABC4360390918141B1A4B58808B3F8686A92C3E0C91558717DB39C1B328D8EE21C9, 0xB9D2852CC3B38E696F04CAA2DE3A82BABD22CFB2A2124163BC40CE5ABE64360331EA31B1085A4E9A7A7E183923D86ECD),
  (0xC19E0B4C800119C440F7F9E706421279B42A31AF8A3E297DDB2987894D10DDEABA065458A4F52D78A628B09AAA03BD53, 0x16F3FDBF0356B301E5A0191D1F5B77F6577A30EAE3567AF9C1C7CAD135F6EBF2AF68AA6DE639D858822D0FC5E6C88C41),
  (0xB2D1055817CBAA12211905035F4972D7097DA395A23096863D8B29DBD08848C2F33A450AD156F761E4BFC2C04905CA71, 0x354CD872C3C6CBD2237C0DBA3CFD056BF82BE8F52E6236C09B475D744ECF1A68E87AB07C6924666FDDCEBB55753EE324)]

theorem gDoubled_1 : ecDouble 96 (some p384G) = some (gDoubled.getD 0 (0, 0)) := by decide +kernel

theorem gDoubled_2 : ecDouble 96 (some (gDoubled.getD 0 (0, 0))) = some (gDoubled.getD 1 (0, 0)) := by decide +kernel

theorem gDoubled_3 : ecDouble 96 (some (gDoubled.getD 1 (0, 0))) = some (gDoubled.getD 2 (0, 0)) := by decide +kernel

/-- One of the two multiples of the check of the signature, from its top 96 bits down. -/
def signedA : List (Nat × Nat) := [(0xE61610247B04913BF6C778A6B58CE875A89316460B70021113062F5DBEFA896AD7AE7E631493CDE3C717E2444411769A, 0x471BEDEC1F7840533962A96CEF2DA807D39FCE825036DBC332301E82A6AFCDA4ECE12C970EC3437A8EE3AD1B9276099E),
  (0x20F1CEEFA1AADDF7559879466C16FE537A94FC658470D61422AA80A0C21061FFDD4E59D0AF1481DB4A633C4579137675, 0xFC0A8AB30DB359D34C21599B8B28311BA02B38683A589F5A6544418EF75B845FF4DF66BD1DF5624CDA12FFACDD2BE8DD),
  (0xC864D431A82A49F8767F4816E7F076A2AF68E39BF623BBA56D0599A244365053C07E29E0A75B945C84C4732AE1844364, 0x8772BC9688D183853E6725B1A263E3EF3579D65FDEAA08F8E1F67C139E1DA900F517E87B67DC4D9D06FD00C6A1F0F3FA),
  (0x6A80ADE6A7B12A1F7252B6175EFB1F904BF8E7BEDFACBD90086ABEB65CB0726E6E80AB2169358BBA8DD5BC9C66A557B3, 0x8E11840346FBEF8001FDF816DEA3A4A1BA35872EEAF938EFBCD753E9ED5F52498229C2381DAE562F7BC5B5DA0A609E9)]

theorem signedA_1 : ecWalk 96 (0xFB18CFF0D56F034C6A0029ACE088D25772750E323C65B8149E34E15478B593B45AFDE5634344AF23FB38596CA9611311 / 2 ^ 288) (some (gDoubled.getD 2 (0, 0))) none = some (signedA.getD 0 (0, 0)) := by decide +kernel

theorem signedA_2 : ecWalk 96 (0xFB18CFF0D56F034C6A0029ACE088D25772750E323C65B8149E34E15478B593B45AFDE5634344AF23FB38596CA9611311 / 2 ^ 192) (some (gDoubled.getD 1 (0, 0))) (some (signedA.getD 0 (0, 0))) = some (signedA.getD 1 (0, 0)) := by decide +kernel

theorem signedA_3 : ecWalk 96 (0xFB18CFF0D56F034C6A0029ACE088D25772750E323C65B8149E34E15478B593B45AFDE5634344AF23FB38596CA9611311 / 2 ^ 96) (some (gDoubled.getD 0 (0, 0))) (some (signedA.getD 1 (0, 0))) = some (signedA.getD 2 (0, 0)) := by decide +kernel

theorem signedA_4 : ecWalk 96 (0xFB18CFF0D56F034C6A0029ACE088D25772750E323C65B8149E34E15478B593B45AFDE5634344AF23FB38596CA9611311) (some p384G) (some (signedA.getD 2 (0, 0))) = some (signedA.getD 3 (0, 0)) := by decide +kernel

theorem signedA_multiple : ecMul 384 0xFB18CFF0D56F034C6A0029ACE088D25772750E323C65B8149E34E15478B593B45AFDE5634344AF23FB38596CA9611311 (some p384G) = some (signedA.getD 3 (0, 0)) := by
  rw [ecMul_eq_walk, ecWalk_add 96 288, gDoubled_1, ecWalk_add 96 192, gDoubled_2, ecWalk_add 96 96, gDoubled_3,
    Nat.div_div_eq_div_mul, Nat.div_div_eq_div_mul, show 2 ^ 96 * 2 ^ 96 = 2 ^ 192 from rfl, show 2 ^ 192 * 2 ^ 96 = 2 ^ 288 from rfl,
    signedA_1, signedA_2, signedA_3, signedA_4]

/-- One of the two multiples of the check of the signature, from its top 96 bits down. -/
def signedB : List (Nat × Nat) := [(0x18EA4CFBAE61B900715934A79F73F6BB013AAC62361A889BA3F0BF3420CCCE0E3F671F8EF2856CF3F00C0F44A0111706, 0xD8017B34599A6E4E7EE3D6635B0C1E1055CB610E5DEE2E920E6F6065C12EFF67B770472E6C79E924FC4FE4F81D3CD91B),
  (0x4B421BB48E356259073C7EC99F120EB295802BBF2F65E78B0DDD3666445A75BE0063F12BB47E4DA554B11D66E47A20A6, 0x54D5D1FBB39817F7A0A235F2EBA322E41540B5F5A15C47E29E5925952FEE599E5D91F3F716E4AD4AB36917004E9D73D3),
  (0x6BCAC4739A6D2ABAD7012A12F41E75E01B4CEB2D2B94497D793BB90F17751328E5CD8C29D7EAF3ED4B039E9940937987, 0x2C13CD8A7E255EE8E5C1664DC091A0B4040F89AEFB798C59063E16C99D001CAE192C3E77678CD29856C6A920451F471A),
  (0x83E761D0C30619066939BE59FCBDEBFC826BE37CD56ACC010ECF0814E26353804B7D15D4583E5C284F7DB31595D8AA4F, 0x1974245E63BB650B9CF8F42FD224E1CE33F681262638F13BA59EAA6C15446394888505C4F0E370D4962D8FF5720C8867)]

theorem signedB_1 : ecWalk 96 (0x4E7300F2A90FCB395FFD6531F772DA88D8AF1CDC39A47EB292E6C2D7B819A2AFD1C284F056BF856F1B3BFFE23641663 / 2 ^ 288) (some (gDoubled.getD 2 (0, 0))) none = some (signedB.getD 0 (0, 0)) := by decide +kernel

theorem signedB_2 : ecWalk 96 (0x4E7300F2A90FCB395FFD6531F772DA88D8AF1CDC39A47EB292E6C2D7B819A2AFD1C284F056BF856F1B3BFFE23641663 / 2 ^ 192) (some (gDoubled.getD 1 (0, 0))) (some (signedB.getD 0 (0, 0))) = some (signedB.getD 1 (0, 0)) := by decide +kernel

theorem signedB_3 : ecWalk 96 (0x4E7300F2A90FCB395FFD6531F772DA88D8AF1CDC39A47EB292E6C2D7B819A2AFD1C284F056BF856F1B3BFFE23641663 / 2 ^ 96) (some (gDoubled.getD 0 (0, 0))) (some (signedB.getD 1 (0, 0))) = some (signedB.getD 2 (0, 0)) := by decide +kernel

theorem signedB_4 : ecWalk 96 (0x4E7300F2A90FCB395FFD6531F772DA88D8AF1CDC39A47EB292E6C2D7B819A2AFD1C284F056BF856F1B3BFFE23641663) (some p384G) (some (signedB.getD 2 (0, 0))) = some (signedB.getD 3 (0, 0)) := by decide +kernel

theorem signedB_multiple : ecMul 384 0x4E7300F2A90FCB395FFD6531F772DA88D8AF1CDC39A47EB292E6C2D7B819A2AFD1C284F056BF856F1B3BFFE23641663 (some p384G) = some (signedB.getD 3 (0, 0)) := by
  rw [ecMul_eq_walk, ecWalk_add 96 288, gDoubled_1, ecWalk_add 96 192, gDoubled_2, ecWalk_add 96 96, gDoubled_3,
    Nat.div_div_eq_div_mul, Nat.div_div_eq_div_mul, show 2 ^ 96 * 2 ^ 96 = 2 ^ 192 from rfl, show 2 ^ 192 * 2 ^ 96 = 2 ^ 288 from rfl,
    signedB_1, signedB_2, signedB_3, signedB_4]

theorem ecdsaOk_of (pub digest sig : List Byte) (u v : Nat) (a b : Option (Nat × Nat))
    (h : (pub.length = 96 ∧ sig.length = 96 ∧ beNat (pub.take 48) < p384P ∧ beNat (pub.drop 48) < p384P
      ∧ (beNat (pub.drop 48) * beNat (pub.drop 48)) % p384P
        = (beNat (pub.take 48) * beNat (pub.take 48) * beNat (pub.take 48) + (p384P - 3) * beNat (pub.take 48) + p384B) % p384P)
      ∧ 0 < beNat (sig.take 48) ∧ beNat (sig.take 48) < p384N ∧ 0 < beNat (sig.drop 48) ∧ beNat (sig.drop 48) < p384N)
    (hu : beNat digest * invMod (beNat (sig.drop 48)) p384N % p384N = u) (hv : beNat (sig.take 48) * invMod (beNat (sig.drop 48)) p384N % p384N = v)
    (ha : ecMul 384 u (some p384G) = a) (hb : ecMul 384 v (some (beNat (pub.take 48), beNat (pub.drop 48))) = b)
    (hr : (ecAdd a b).map (fun q => q.1 % p384N) = some (beNat (sig.take 48))) : ecdsaOk pub digest sig = true := by
  obtain ⟨⟨h1, h2, h3, h4, h5⟩, h6, h7, h8, h9⟩ := h
  unfold ecdsaOk
  simp only [hu, hv, ha, hb]
  rw [if_neg (by rintro (h | h | h | h | h | h | h | h | h) <;> first | omega | exact h h5)]
  cases hq : ecAdd a b with
  | none => simp [hq] at hr
  | some q => simpa [hq] using hr

/-- The digest of what the sub-image's signature covers. -/
def signedDigest : List Byte := beBytes 48 0xBB64C1A91B9528450D4CB87D5C02DD00A8BDE5F3A0735895A5F1289778D081A6D420F739BA9F39669185F5A40229004F

theorem signedDigest_eq : sha384 (signed.take 224) = signedDigest := by decide +kernel

theorem signed_ecdsa : ecdsaOk gPub signedDigest (signed.drop 224) = true :=
  ecdsaOk_of _ _ _ 0xFB18CFF0D56F034C6A0029ACE088D25772750E323C65B8149E34E15478B593B45AFDE5634344AF23FB38596CA9611311 0x4E7300F2A90FCB395FFD6531F772DA88D8AF1CDC39A47EB292E6C2D7B819A2AFD1C284F056BF856F1B3BFFE23641663 _ _
    (by decide +kernel) (by decide +kernel) (by decide +kernel) signedA_multiple signedB_multiple (by decide +kernel)

theorem signed_signed : receiving.imageSigned signed = true := by
  have h : sha384 (signed.take (imgTotal signed - 96)) = signedDigest := signedDigest_eq
  have hk : (receiving.part.keyHash.getD (imgKey signed) none == some (sha384 (0x04 :: (signed.drop (imgTotal signed - 192)).take 96))) = true := by
    decide +kernel
  have hs : ecdsaOk ((signed.drop (imgTotal signed - 192)).take 96) signedDigest ((signed.drop (imgTotal signed - 96)).take 96) = true :=
    signed_ecdsa
  simp only [State.imageSigned, h, hk, hs, Bool.and_self]

theorem signed_valid : (receiving.imageStatus signed).toBool = true := by
  unfold State.imageStatus
  rw [signed_signed]
  decide +kernel

/-- A boot in which every training has ended: the even stacks trained, the odd ones failed. -/
def trained : State := { bootAt 3 with hbm := { stks := (List.range 20).map fun k => (k, { st := 1 + k % 2, gib := 64 - 16 * (k % 2) }) } }

/-- A ready engine with a LAUNCH at the head of ring 3; its image, at the start of stack 0, holds one COPY. -/
def launching : State := { ringAt 2 [] with chip := { booted := true }, hbm := { (ringAt 2 []).hbm with data := [
  ⟨0, 68⟩, ⟨1, 87⟩, ⟨2, 83⟩, ⟨3, 67⟩, ⟨4, 1⟩, ⟨8, 128⟩, ⟨9, 7⟩, ⟨12, 1⟩, ⟨14, 1⟩, ⟨20, 2⟩, ⟨24, 128⟩, ⟨25, 6⟩, ⟨36, 192⟩, ⟨37, 6⟩, ⟨40, 64⟩, ⟨41, 7⟩, ⟨58, 1⟩, ⟨64, 16⟩, ⟨1664, 2⟩, ⟨1672, 1⟩, ⟨1678, 1⟩, ⟨1728, 9⟩, ⟨1729, 129⟩, ⟨1752, 4⟩, ⟨1792, 9⟩, ⟨1793, 129⟩, ⟨1800, 64⟩, ⟨1816, 4⟩, ⟨1856, 128⟩, ⟨1864, 1⟩, ⟨1866, 2⟩] ++ tabs } }

/-- The image with one COPY, byte by byte. -/
def lImage : List Byte := List.flatten [[68, 87, 83, 67, 1, 0, 0, 0, 128, 7, 0, 0, 1, 0, 1, 0, 0, 0, 0, 0, 2, 0, 0, 0, 128, 6], List.replicate 10 0, [192, 6, 0, 0, 64, 7], List.replicate 16 0, [1, 0, 0, 0, 0, 0, 16], List.replicate 1599 0, [2, 0, 0, 0, 0, 0, 0, 0, 1, 0, 0, 0, 0, 0, 1], List.replicate 49 0, [9, 129], List.replicate 22 0, [4], List.replicate 39 0, [9, 129, 0, 0, 0, 0, 0, 0, 64], List.replicate 15 0, [4], List.replicate 39 0, [128, 0, 0, 0, 0, 0, 0, 0, 1, 0, 2], List.replicate 53 0]
/-- What the LAUNCH copies, the section it checks and the pages it takes. -/
def lCopy : Except Nat (List Byte) × State := (launching.takeRing 3).copyImage (launching.rg 3).ctx 3 (at8 (launching.ringDesc 3) 16)
def lState : State := lCopy.2
@[irreducible] def lChecks : Except Nat Section := lState.launchChecks lState.nextSec (lState.imageSection (lState.rg 3) lImage) (Config.freeWord lState.free).toNat
def lSection : Section := lChecks.toOption.getD {}
def lSubs : List Nat := (lState.freeSubs (lState.defaultStacks lSection.part) (cdiv lSection.img.length 65536)).getD []
theorem okEq {ε α σ : Type} (a : α) (r : Except ε α × σ) (h : r.1.toOption = some a) : r = (.ok a, r.2) := by
  rcases r with ⟨e | b, s⟩
  · cases h
  · cases h; rfl
theorem lCopied : lCopy = (.ok lImage, lState) := okEq lImage lCopy (by decide +kernel)
def lFits (x : Section) : Bool := (lState.freeSubs (lState.defaultStacks x.part) (cdiv x.img.length 65536)).isSome
theorem anyOk {ε α : Type} (d : α) (r : Except ε α) (p : α → Bool) (h : r.toOption.any p = true) :
    r = .ok (r.toOption.getD d) ∧ p (r.toOption.getD d) = true := by
  cases r with
  | error e => cases h
  | ok a => exact ⟨rfl, h⟩
theorem lPlacedOk : lChecks.toOption.any lFits = true := by decide +kernel
theorem lCheckedAs : lChecks = .ok lSection := by
  unfold lSection
  exact (anyOk {} lChecks lFits lPlacedOk).1
theorem lChecked : lState.launchChecks lState.nextSec (lState.imageSection (lState.rg 3) lImage) (Config.freeWord lState.free).toNat = .ok lSection := by
  have h := lCheckedAs
  unfold lChecks at h
  exact h
theorem lPlaced : lState.freeSubs (lState.defaultStacks lSection.part) (cdiv lSection.img.length 65536) = some lSubs := by
  have h := (anyOk {} lChecks lFits lPlacedOk).2
  unfold lFits at h
  unfold lSubs lSection
  exact someVal [] _ h

/-! ### Witnesses -/

theorem wit_StepRunsTheFrontCommand :
    ∃ (s : State),
      s.pending = [] :=
  ⟨rdy, rfl⟩

theorem wit_StepKeepsTheInvariant :
    ∃ (s t : State),
      s.Inv ∧ step s = .next t :=
  ⟨rdy, rdy.tick, ⟨rfl, ⟨rfl, rfl⟩, ⟨rfl, rfl⟩, ⟨by decide +kernel, by decide +kernel⟩, by decide +kernel⟩, rfl⟩

theorem wit_WellFormedCommandsComplete :
    (∃ (i : Instr) (s : State),
      i.wf = true)
    ∧ (∃ (i : Instr) (s : State),
      i.wf = false) :=
  ⟨⟨.firmwareAssertion 22, rdy, by decide +kernel⟩,
   ⟨.firmwareAssertion 23, rdy, by decide +kernel⟩⟩

theorem wit_FusedUnitsStayAbsent :
    ∃ (i : Instr) (s t : State),
      exec i s = .next t :=
  ⟨.link1Down, rdy, _, rfl⟩

theorem wit_QueueOrder :
    (∃ (i : Instr) (s t : State),
      exec i s = .next t)
    ∧ (∃ (s t : State),
      step s = .next t) :=
  ⟨⟨.link1Down, rdy, _, rfl⟩,
   ⟨rdy, _, rfl⟩⟩

theorem wit_HostMemoryChangesByPostedWrites :
    ∃ (s t : State),
      step s = .next t :=
  ⟨rdy, _, rfl⟩

theorem wit_LostUntilReset :
    ∃ (i : Instr) (s t : State),
      s.hub.lost = true ∧ exec i s = .next t :=
  ⟨.link1Down, { rdy with hub := { stage := 6, lost := true } }, _, rfl, rfl⟩

theorem wit_RecordsOfTheLog :
    (∃ (l : BitLog),
      l.ff.length = 16384 ∧ l.nextSeq < 2 ^ 32)
    ∧ (∃ (s : State) (r : LogRec) (q : List LogRec),
      s.log.queue = r :: q ∧ s.hubUp = true ∧ s.log.dropped = 0)
    ∧ (∃ (i : Instr) (s t : State),
      exec i s = .next t) :=
  ⟨⟨{ ff := List.replicate 16384 {} }, List.length_replicate, by decide +kernel⟩,
   ⟨{ rdy with log := { queue := [{}] } }, {}, [], by decide +kernel⟩,
   ⟨.link1Down, rdy, _, rfl⟩⟩

theorem wit_TapBoundaryInstructions :
    ∃ (s : State) (c : TapCode),
      (c = .extest ∨ c = .clamp ∨ c = .highz) :=
  ⟨rdy, .highz, by decide +kernel⟩

theorem wit_EngineResetEmptiesParts :
    ∃ (s : State) (w v : Nat),
      s.pins.porstN = true ∧ (w = 32 ∨ w = 64) ∧ fld v 0 16 = 0xD9E5 ∧ s.pins.thermtrip = false ∧
      s.hub.resetAsked = false :=
  ⟨rdy, 32, 0xD9E5, by decide +kernel⟩

theorem wit_FramesOfRegisterCommands :
    ∃ (i : Instr) (l : List Area) (s t : State),
      footprint i = some l ∧ exec i s = .next t :=
  ⟨.link1Down, [.pins], rdy, _, rfl, rfl⟩

theorem wit_FramesOfExecutionCommands :
    ∃ (i : Instr) (s t : State) (a : Area),
      a ∈ untouched i ∧ exec i s = .next t :=
  ⟨.governorTrip 3, rdy, _, .tap, by decide +kernel, rfl⟩

theorem wit_PowerOnAndBoot :
    (∃ (s : State),
      s.pins.porstN = false ∧ s.pins.timeref = true ∧
      (∀ c < 10, s.clPresent c = true → s.pins.hbmRefAbsent.get false c = false))
    ∧ (∃ (s : State) (rom fuse : Bool),
      s.pins.porstN = false ∧ s.pins.timeref = false)
    ∧ (∃ (s : State) (rom fuse : Bool),
      s.pins.porstN = false ∧ s.pins.timeref = true ∧ (rom = false ∨ fuse = false) ∧
      (∀ c < 10, s.clPresent c = true → s.pins.hbmRefAbsent.get false c = false))
    ∧ (∃ (s : State) (cm rs : List Nat),
      s.pins.porstN = true ∧ s.hub.booting = true ∧ s.hub.stage = 1 ∧ s.hub.holdReset = false)
    ∧ (∃ (s : State) (l : Nat) (cm rs : List Nat),
      s.pins.porstN = true ∧ s.hub.booting = true ∧ s.hub.stage = 1 ∧ s.hub.holdReset = false)
    ∧ (∃ (s : State),
      s.pins.porstN = true ∧ s.hub.booting = true ∧ s.hub.stage = 5 ∧ s.hub.watched.getLsbD 1 = false)
    ∧ (∃ (s : State),
      s.pins.porstN = true ∧ s.hub.booting = true ∧ s.hub.stage = 5 ∧ s.hub.watched.getLsbD 1 = true) :=
  ⟨⟨State.reset, by decide +kernel⟩,
   ⟨{ State.reset with pins := { timeref := false } }, true, true, by decide +kernel⟩,
   ⟨State.reset, false, true, by decide +kernel⟩,
   ⟨bootAt 1, [15359], [10239], by decide +kernel⟩,
   ⟨bootAt 1, 3, [], [], by decide +kernel⟩,
   ⟨bootAt 5, by decide +kernel⟩,
   ⟨{ bootAt 5 with hub := { stage := 5, booting := true, watched := 2 } }, by decide +kernel⟩⟩

theorem wit_UncontainedFaultLosesDevice :
    (∃ (i : Instr) (s : State) (cause unit : Nat),
      uncontainedFault s i = some (cause, unit) ∧ s.pins.porstN = true ∧ s.hub.stage = 6 ∧ s.hub.lost = false)
    ∧ (∃ (i : Instr) (s : State) (cause unit : Nat),
      uncontainedFault s i = some (cause, unit) ∧ s.pins.porstN = true ∧ 3 ≤ s.hub.stage ∧ s.hub.stage < 6) :=
  ⟨⟨.thermalShutdown 63 1840, rdy, 3, 63, by decide +kernel⟩,
   ⟨.railOutOfRange 16, bootAt 3, 1, 16, by decide +kernel⟩⟩

theorem wit_TimeBaseAndTap :
    (∃ (s : State) (p t : Nat),
      p < 23 ∧ s.hub.watched.getLsbD p = true)
    ∧ (∃ (s : State),
      s.pins.porstN = true ∧ s.pins.timeref = true)
    ∧ (∃ (s : State),
      s.pins.porstN = true ∧ s.time.onOsc = true)
    ∧ (∃ (s : State) (r : Nat),
      s.hubUp = true ∧ s.time.returnedAt = some r ∧ s.time.degraded = true ∧ s.time.onOsc = false ∧
      (s.hzn.timeCtrl.getLsbD 7 = true → s.time.sync = 2))
    ∧ (∃ (s : State) (c : TapCode),
      (∀ n, c = .other n → s.part.tapLockIntact = true) ∧
      (c = .extest ∨ c = .clamp ∨ c = .highz → s.pins.porstN = false))
    ∧ (∃ (s : State) (c : TapCode),
      ((∃ n, c = .other n ∧ s.part.tapLockIntact = false) ∨ ((c = .extest ∨ c = .clamp ∨ c = .highz) ∧ s.pins.porstN = true))) :=
  ⟨⟨{ rdy with hub := { stage := 6, watched := 0x400000 } }, 22, 7, by decide +kernel⟩,
   ⟨rdy, by decide +kernel⟩,
   ⟨{ rdy with time := { onOsc := true } }, by decide +kernel⟩,
   ⟨{ rdy with time := { returnedAt := some 4, degraded := true } }, 4, by decide +kernel⟩,
   ⟨State.reset, .extest, nofun, by decide +kernel⟩,
   ⟨rdy, .other 3, .inl ⟨3, rfl, rfl⟩⟩⟩

theorem wit_OperatingPointsAndPower :
    (∃ (s : State) (v a : List Nat) (e : Bool),
      s.hubUp = true)
    ∧ (∃ (s : State) (c pace : Nat),
      s.hubUp = true ∧ s.clPresent c = true ∧ 103 * floorRate (s.cl c).point ≤ 100 * pace)
    ∧ (∃ (s : State) (c pace : Nat),
      s.hubUp = true ∧ s.clPresent c = true ∧ (s.cl c).moving = true)
    ∧ (∃ (s : State) (c pace : Nat),
      s.hubUp = true ∧ s.clPresent c = true ∧ 100 * pace < 103 * floorRate (s.cl c).point ∧ (s.cl c).moving = false ∧
      (s.cl c).trim + 5 ≤ 20 ∧ pointMv (s.cl c).point + (s.cl c).trim + 5 ≤ 850)
    ∧ (∃ (s : State) (c pace : Nat),
      s.hubUp = true ∧ s.clPresent c = true ∧ pace < floorRate (s.cl c).point ∧ (s.cl c).moving = false ∧
      (20 < (s.cl c).trim + 5 ∨ 850 < pointMv (s.cl c).point + (s.cl c).trim + 5) ∧ (s.cl c).paceLow = false)
    ∧ (∃ (s : State) (c b : Nat),
      s.mayChange c b = true)
    ∧ (∃ (s : State) (c : Nat),
      (s.cl c).moving = true)
    ∧ (∃ (s : State) (c : Nat),
      (s.cl c).moving = true)
    ∧ (∃ (s : State) (w : Nat),
      s.hubUp = true)
    ∧ (∃ (s : State) (t e p : Nat),
      s.hubUp = true ∧
      (s.limitInForce * (if s.power.tight then 10 else 12) * 1000000 ≤ 10 * (e + p * ((t / 1000000 + 1) * 1000000 - t)) ∨ s.limitInForce * (if s.power.tight then 10 else 12) ≤ 10 * p))
    ∧ (∃ (s : State) (v : Nat),
      s.ready = true ∧ (v % 4096 = 0 ∨ (800 ≤ v % 4096 ∧ v % 4096 ≤ 3200))) :=
  ⟨⟨rdy, [1200], [30], false, by decide +kernel⟩,
   ⟨rdy, 9, 1484, by decide +kernel⟩,
   ⟨{ rdy with clusters := [(9, { moving := true, target := 3 })] }, 9, 3, by decide +kernel⟩,
   ⟨rdy, 9, 1483, by decide +kernel⟩,
   ⟨{ rdy with clusters := [(9, { trim := 20 })] }, 9, 1439, by decide +kernel⟩,
   ⟨rdy, 0, 3, by decide +kernel⟩,
   ⟨{ rdy with clusters := [(9, { moving := true, target := 3 })] }, 9, by decide +kernel⟩,
   ⟨{ rdy with clusters := [(9, { moving := true, target := 3 })] }, 9, by decide +kernel⟩,
   ⟨rdy, 3200, by decide +kernel⟩,
   ⟨rdy, 999999, 3840000000, 0, by decide +kernel⟩,
   ⟨rdy, 800, by decide +kernel⟩⟩

theorem wit_Temperature :
    (∃ (s : State) (n : Nat) (t16 : Int),
      s.hubUp = true ∧ s.sensorPresent n = true ∧ 16 * (s.power.warn : Int) ≤ t16)
    ∧ (∃ (s : State) (c : Nat) (ts : List Int),
      s.hubUp = true ∧ (s.cl c).warned = true ∧ ts.length = 5 ∧ (∀ x ∈ ts, x < 16 * ((s.power.warn : Int) - 3)))
    ∧ (∃ (s : State) (n : Nat) (t16 : Int),
      s.pins.porstN = true ∧ s.sensorPresent n = true ∧ 16 * 105 ≤ t16)
    ∧ (∃ (s : State) (d : Nat) (ts : List Int),
      d < 10 ∧ (s.cl d).throttle = true ∧ ts.length = 5 ∧ (∀ x ∈ ts, x < 16 * 102))
    ∧ (∃ (s : State) (d : Nat) (ts : List Int),
      10 ≤ d ∧ s.power.hubThrottle = true ∧ ts.length = 14 ∧ (∀ x ∈ ts, x < 16 * 102)) :=
  ⟨⟨rdy, 49, 1520, by decide +kernel⟩,
   ⟨{ rdy with clusters := [(9, { warned := true })] }, 9, [1471, 0, 0, 0, -640], by decide +kernel⟩,
   ⟨rdy, 63, 1680, by decide +kernel⟩,
   ⟨{ rdy with clusters := [(9, { throttle := true })] }, 9, [1631, 0, 0, 0, 0], by decide +kernel⟩,
   ⟨{ rdy with power := { hubThrottle := true } }, 10, List.replicate 14 1631, by decide +kernel⟩⟩

theorem wit_FrameSequence :
    (∃ (i : Instr) (s : State) (p : Nat) (b : List Byte) (typ op : Nat),
      frameOf i = some (p, b, typ, op) ∧ p < 36 ∧ s.portOn p = true ∧ (s.port p).st = 2 ∧ frameOk b = false)
    ∧ (∃ (i : Instr) (s : State) (p : Nat) (b : List Byte) (typ op : Nat),
      frameOf i = some (p, b, typ, op) ∧ (typ = 1 ∨ typ = 2) ∧ Arrives s p b typ op ∧
      cdist 16 (parseFr b).seq (s.port p).expected ≠ 0 ∧
      (s.port p).window ≤ cdist 16 (parseFr b).seq (s.port p).expected ∧
      65536 ≤ (s.port p).window + cdist 16 (parseFr b).seq (s.port p).expected)
    ∧ (∃ (i : Instr) (s : State) (p : Nat) (b : List Byte) (typ op : Nat),
      frameOf i = some (p, b, typ, op) ∧ (typ = 1 ∨ typ = 2) ∧ Arrives s p b typ op ∧
      cdist 16 (parseFr b).seq (s.port p).expected ≠ 0 ∧
      cdist 16 (parseFr b).seq (s.port p).expected < (s.port p).window) :=
  ⟨⟨.ack 0 [], link 2, 0, [], 3, 0, by decide +kernel⟩,
   ⟨.cts 0 ({ frameFrom 2 2 with seq := 65535 } : Fr).bytes, link 2, 0, _, 2, 2, rfl, by decide +kernel, arrivesOf _ _ _ _ _ (by decide +kernel), by decide +kernel⟩,
   ⟨.cts 0 ({ frameFrom 2 2 with seq := 511 } : Fr).bytes, link 2, 0, _, 2, 2, rfl, by decide +kernel, arrivesOf _ _ _ _ _ (by decide +kernel), by decide +kernel⟩⟩

theorem wit_LinkTraining :
    (∃ (s : State) (p : Nat) (b : List Byte),
      p < 36 ∧ s.portOn p = true ∧ (s.port p).st = 1 ∧ s.pins.sdsAbsent.get false (p / 12) = false ∧
      frameOk b = true ∧ (parseFr b).typ = 6 ∧ (parseFr b).len = 1 ∧ fieldsLegal b (parseFr b) = true ∧
      s.addressOk p (parseFr b) = true ∧ at2 (parseFr b).payload 0 ≤ 0x0100 ∧ 0x0100 ≤ at2 (parseFr b).payload 2 ∧
      (s.hzn.toSwitch p = false → leAt (parseFr b).payload 11 3 = s.hzn.peer p) ∧ s.hzn.held = [] ∧
      s.hzn.signals = [])
    ∧ (∃ (s : State) (p : Nat),
      p < 36 ∧ s.portOn p = true ∧ (s.port p).st = 1 ∧ (s.port p).pcsLocked = true ∧
      s.pins.sdsAbsent.get false (p / 12) = false)
    ∧ (∃ (s : State) (p : Nat),
      p < 36 ∧ s.portOn p = true ∧ (s.port p).st = 1 ∧ (s.port p).mismatch = false)
    ∧ (∃ (s : State) (p : Nat),
      p < 36 ∧ s.portOn p = true ∧ (s.port p).st = 2 ∧ s.pins.sdsAbsent.get false (p / 12) = false)
    ∧ (∃ (s : State) (p : Nat),
      p < 36 ∧ s.portOn p = true ∧ (s.port p).st = 2 ∧ (s.port p).retry ≠ [] ∧
      s.pins.sdsAbsent.get false (p / 12) = false)
    ∧ (∃ (s : State) (g : Nat),
      g < 3) :=
  ⟨⟨link 1, 0, (frameFrom 6 0 (leBytes 2 0x100 ++ leBytes 2 0x100 ++ leBytes 2 512 ++ leBytes 2 512 ++ leBytes 2 32 ++ leBytes 1 0 ++ leBytes 3 9)).bytes, by decide +kernel⟩,
   ⟨link 1, 0, by decide +kernel⟩,
   ⟨link 1, 0, by decide +kernel⟩,
   ⟨link 2, 0, by decide +kernel⟩,
   ⟨{ link 2 with hzn := { (link 2).hzn with ports := [(0, { st := 2, retry := [(0, [])] })] } }, 0, by decide +kernel⟩,
   ⟨rdy, 2, by decide +kernel⟩⟩

theorem wit_LinkRetry :
    (∃ (s : State) (p : Nat) (b : List Byte),
      Arrives s p b 3 0 ∧ (s.port p).waitq = [] ∧
      (∀ e ∈ (s.port p).retry.head?, 0 < cdist 16 (parseFr b).ack e.1 ∧ cdist 16 (parseFr b).ack e.1 ≤ (s.port p).retry.length))
    ∧ (∃ (s : State) (p : Nat) (b : List Byte),
      Arrives s p b 4 0 ∧ (s.port p).waitq = [] ∧
      (∀ e ∈ (s.port p).retry.head?, (parseFr b).ack % 65536 = e.1 % 65536))
    ∧ (∃ (s : State) (p : Nat),
      p < 36 ∧ s.portOn p = true ∧ (s.port p).st = 2 ∧ (s.port p).retry ≠ [])
    ∧ (∃ (s : State) (p : Nat),
      p < 36 ∧ s.portOn p = true ∧ (s.port p).st = 2) :=
  ⟨⟨{ link 2 with hzn := { (link 2).hzn with ports := [(0, { st := 2, window := 512, retry := [(65535, [])] })] } }, 0, (frameFrom 3 0).bytes, arrivesOf _ _ _ _ _ (by decide +kernel), by decide +kernel⟩,
   ⟨{ link 2 with hzn := { (link 2).hzn with ports := [(0, { st := 2, window := 512, retry := [(0, [])] })] } }, 0, (frameFrom 4 0).bytes, arrivesOf _ _ _ _ _ (by decide +kernel), by decide +kernel⟩,
   ⟨{ link 2 with hzn := { (link 2).hzn with ports := [(0, { st := 2, retry := [(0, [])] })] } }, 0, by decide +kernel⟩,
   ⟨link 2, 0, by decide +kernel⟩⟩

theorem wit_HorizonRegisters :
    (∃ (s : State) (v : Nat),
      s.ready = true ∧ bit v 32 = true ∧ s.hzn.enabled = false ∧ bit v 17 = false)
    ∧ (∃ (s : State),
      s.ready = true ∧ s.hzn.enabled = true ∧ s.hzn.engineId < 2 ^ 18)
    ∧ (∃ (s : State) (r v : Nat),
      r < 64 ∧ s.ready = true ∧ (∀ k < 4, s.horizonResident (4 * r + k) = false))
    ∧ (∃ (s : State) (g : HeldSig) (rest : List HeldSig),
      s.hzn.signals = g :: rest) :=
  ⟨⟨rdy, 0x10001FFFF, by decide +kernel⟩,
   ⟨link 2, by decide +kernel⟩,
   ⟨rdy, 63, 7, by decide +kernel⟩,
   ⟨{ rdy with hzn := { signals := [⟨1, 2, 3, 4, 5⟩] } }, _, _, rfl⟩⟩

theorem wit_TimeSynchronisation :
    (∃ (s : State),
      s.ready = true ∧ s.hzn.enabled = true ∧ s.hzn.syncEn = true)
    ∧ (∃ (s : State) (b : List Byte) (stamp : Nat),
      s.isChild = true ∧ Arrives s s.hzn.parent b 5 1 ∧ (parseFr b).dst = s.hzn.engineId)
    ∧ (∃ (s : State) (b : List Byte),
      s.isChild = true ∧ Arrives s s.hzn.parent b 5 2 ∧ (parseFr b).dst = s.hzn.engineId)
    ∧ (∃ (s : State) (p : Nat) (b : List Byte) (stamp : Nat),
      s.hzn.syncEn = true ∧ Arrives s p b 5 3 ∧ (parseFr b).dst = s.hzn.engineId)
    ∧ (∃ (s : State) (b : List Byte) (off : Int),
      s.isChild = true ∧ s.time.gotFollow = true ∧ Arrives s s.hzn.parent b 5 4 ∧ (parseFr b).dst = s.hzn.engineId ∧
      off = (((s.time.t2 : Int) - s.time.t1 - s.time.c1) - ((at8 (parseFr b).payload 0 : Int) - s.time.t3 - sext 32 (at4 (parseFr b).payload 8))) / 2 ∧
      -2 ^ 31 ≤ off ∧ off ≤ 10000000)
    ∧ (∃ (s : State),
      s.isChild = true ∧ s.time.sync ≠ 3) :=
  ⟨⟨link 2, by decide +kernel⟩,
   ⟨link 2, (frameFrom 5 1).bytes, 3, by decide +kernel, arrivesOf _ _ _ _ _ (by decide +kernel), by decide +kernel⟩,
   ⟨link 2, (frameFrom 5 2 (leBytes 8 7)).bytes, by decide +kernel, arrivesOf _ _ _ _ _ (by decide +kernel), by decide +kernel⟩,
   ⟨link 2, 0, (frameFrom 5 3).bytes, 3, by decide +kernel, arrivesOf _ _ _ _ _ (by decide +kernel), by decide +kernel⟩,
   ⟨{ link 2 with time := { gotFollow := true, t2 := 20000000 } }, (frameFrom 5 4).bytes, 10000000, by decide +kernel, by decide +kernel, arrivesOf _ _ _ _ _ (by decide +kernel), by decide +kernel⟩,
   ⟨link 2, by decide +kernel⟩⟩

theorem wit_Sideband :
    (∃ (s : State) (e : Nat),
      s.hubUp = true ∧ 0 < e ∧ e < 255)
    ∧ (∃ (s : State),
      s.hubUp = true)
    ∧ (∃ (s : State),
      s.hubUp = true)
    ∧ (∃ (s : State),
      s.hubUp = true)
    ∧ (∃ (s : State),
      s.hubUp = true)
    ∧ (∃ (s : State) (first count : Nat),
      s.hubUp = true ∧ 1 ≤ count ∧ count ≤ 16 ∧ first + count ≤ 64)
    ∧ (∃ (s : State) (off len : Nat),
      s.hubUp = true ∧ off % 4 = 0 ∧ 4 ≤ len ∧ len ≤ 48 ∧ off + len ≤ 65536)
    ∧ (∃ (s : State) (w : Nat),
      s.hubUp = true ∧ 800 ≤ w ∧ w ≤ 3200)
    ∧ (∃ (s : State) (i : Nat) (r : LogRec),
      s.hubUp = true ∧ s.log.ff[i]? = some r)
    ∧ (∃ (s : State),
      s.hubUp = true) :=
  ⟨⟨rdy, 254, by decide +kernel⟩,
   ⟨rdy, by decide +kernel⟩,
   ⟨rdy, by decide +kernel⟩,
   ⟨rdy, by decide +kernel⟩,
   ⟨rdy, by decide +kernel⟩,
   ⟨rdy, 48, 16, by decide +kernel⟩,
   ⟨rdy, 65488, 48, by decide +kernel⟩,
   ⟨rdy, 3200, by decide +kernel⟩,
   ⟨{ rdy with log := { ff := [{}] } }, 0, {}, by decide +kernel⟩,
   ⟨rdy, by decide +kernel⟩⟩

theorem wit_Stacks :
    (∃ (s : State) (k height rated margin : Nat) (lanes : Bool),
      k < 20 ∧ s.pins.porstN = true ∧ s.hub.booting = true ∧ s.hub.stage = 3 ∧ s.stackFitted k = true ∧
      (s.stk k).st = 0 ∧ (height = 12 ∨ height = 16) ∧ 64 ≤ min s.part.hbmMaxRate (min rated margin))
    ∧ (∃ (s : State) (k height gbits rated margin : Nat) (lanes : Bool),
      k < 20 ∧ s.pins.porstN = true ∧ s.hub.booting = true ∧ s.hub.stage = 3 ∧ s.stackFitted k = true ∧
      (s.stk k).st = 0 ∧ ((height ≠ 12 ∧ height ≠ 16) ∨ gbits ≠ 32 ∨ min s.part.hbmMaxRate (min rated margin) < 64))
    ∧ (∃ (s : State),
      s.pins.porstN = true ∧ s.hub.booting = true ∧ s.hub.stage = 3 ∧
      (∀ k < 20, s.stackFitted k = true → (s.stk k).st ≠ 0) ∧
      (∀ c < 10, s.clPresent c = true → ∃ k < 20, k / 2 = c ∧ s.stackFitted k = true ∧ (s.stk k).st = 1) ∧
      (∀ j < 20, ∀ k < 20, s.stackFitted j = true → s.stackFitted k = true → (s.stk j).st = 1 → (s.stk k).st = 1 → (s.stk j).gib = (s.stk k).gib))
    ∧ (∃ (s : State) (c : Nat),
      s.pins.porstN = true ∧ s.hub.booting = true ∧ s.hub.stage = 3 ∧
      (∀ k < 20, s.stackFitted k = true → (s.stk k).st ≠ 0) ∧ c < 10 ∧ s.clPresent c = true ∧
      (∀ k < 20, k / 2 = c → s.stackFitted k = true → (s.stk k).st ≠ 1))
    ∧ (∃ (s : State) (k : Nat),
      k < 20 ∧ s.stackRuns k = true)
    ∧ (∃ (s : State) (k pc : Nat),
      k < 20 ∧ pc < 64 ∧ s.stackRuns k = true ∧ 64 < (s.stk k).rate)
    ∧ (∃ (s : State) (k l : Nat) (x : Line),
      ScrubTurn s k l ∧ s.hbm.xfer.get 0 (k * 2 ^ 30 + l) < 4 ∧ s.readStored (k * 2 ^ 30 + l) = some x ∧
      x.corrected = false)
    ∧ (∃ (s : State) (k l : Nat) (x : Line),
      ScrubTurn s k l ∧ s.hbm.xfer.get 0 (k * 2 ^ 30 + l) < 4 ∧ s.readStored (k * 2 ^ 30 + l) = some x ∧
      x.corrected = true)
    ∧ (∃ (s : State) (k l : Nat),
      ScrubTurn s k l ∧ (4 ≤ s.hbm.xfer.get 0 (k * 2 ^ 30 + l) ∨ s.readStored (k * 2 ^ 30 + l) = none) ∧
      s.isPrivate (64 * (k * 2 ^ 30 + l)) = false ∧ s.isTable (64 * (k * 2 ^ 30 + l)) = false)
    ∧ (∃ (s : State) (k l : Nat),
      k < 20 ∧ s.stackRuns k = true ∧ 64 * l < s.dataBytes k ∧
      (s.stk k).scrub.get 0 (pseudoChannel (64 * l)) ≠ scrubPlace (64 * l)) :=
  ⟨⟨bootAt 3, 19, 12, 64, 200, true, by decide +kernel⟩,
   ⟨bootAt 3, 19, 16, 32, 128, 63, true, by decide +kernel⟩,
   ⟨trained, rfl, rfl, rfl, by decide +kernel, by decide +kernel, fun j hj k hk _ _ => (by decide +kernel : ∀ j < 20, ∀ k < 20, (trained.stk j).st = 1 → (trained.stk k).st = 1 → (trained.stk j).gib = (trained.stk k).gib) j hj k hk⟩,
   ⟨{ bootAt 3 with hbm := { stks := (List.range 20).map fun k => (k, { st := if k / 2 = 9 then 2 else 1 }) } }, 9, by decide +kernel⟩,
   ⟨{ rdy with hbm := { stks := [(19, { st := 1, gib := 64 })], ready := true } }, 19, by decide +kernel⟩,
   ⟨{ rdy with hbm := { stks := [(19, { st := 1, gib := 64, rate := 80 })], ready := true } }, 19, 63, by decide +kernel⟩,
   ⟨flipped [], 19, 0, _, ⟨by decide +kernel, by decide +kernel, by decide +kernel, by decide +kernel, by decide +kernel⟩, by decide +kernel, someVal ⟨[], 0, false, false, false⟩ _ (by decide +kernel), by decide +kernel⟩,
   ⟨flipped [(1468878815232, 1)], 19, 0, _, ⟨by decide +kernel, by decide +kernel, by decide +kernel, by decide +kernel, by decide +kernel⟩, by decide +kernel, someVal ⟨[], 0, false, false, false⟩ _ (by decide +kernel), by decide +kernel⟩,
   ⟨flipped [(1468878815232 + 67, 1), (1468878815232 + 68, 15), (1468878815232 + 69, 54), (1468878815232 + 70, 120), (1468878815232 + 71, 64)], 19, 0, ⟨by decide +kernel, by decide +kernel, by decide +kernel, by decide +kernel, by decide +kernel⟩, .inr (Option.isNone_iff_eq_none.mp (by decide +kernel)), by decide +kernel, by decide +kernel⟩,
   ⟨{ flipped [] with hbm := { (flipped []).hbm with stks := [(19, { st := 1, gib := 64, scrub := [(0, 5)] })] } }, 19, 0, by decide +kernel⟩⟩

theorem wit_MemoryUpkeep :
    (∃ (s : State) (k sub x : Nat) (e : DirEntry) (o : Obj),
      k < 20 ∧ sub < 2 ^ 20 ∧ x = k * 2 ^ 20 + sub ∧ e = s.hbm.dir.get {} x ∧ e.st = 4 ∧ o = s.ob e.obj ∧
      (∃ y ∈ objSubs o.pages (o.size / 65536), y ≠ x ∧ (s.hbm.dir.get {} y).st ≠ 1))
    ∧ (∃ (s : State) (k sub x : Nat) (e : DirEntry) (o : Obj),
      k < 20 ∧ sub < 2 ^ 20 ∧ x = k * 2 ^ 20 + sub ∧ e = s.hbm.dir.get {} x ∧ e.st = 4 ∧ o = s.ob e.obj ∧
      (∀ y ∈ objSubs o.pages (o.size / 65536), y ≠ x → (s.hbm.dir.get {} y).st = 1))
    ∧ (∃ (s : State) (k sub x : Nat) (ok : Bool),
      k < 20 ∧ sub < 2 ^ 20 ∧ x = k * 2 ^ 20 + sub ∧ (s.hbm.dir.get {} x).st = 3)
    ∧ (∃ (s : State) (p : Nat) (ok : Bool),
      p < 15360 ∧ (s.chip.cmPages.get {} p).fresh = false ∧ (s.chip.cmPages.get {} p).st = 2)
    ∧ (∃ (s : State) (p : Nat) (ok : Bool),
      p < 10240 ∧ (s.chip.rsPages.get {} p).fresh = false ∧ (s.chip.rsPages.get {} p).st = 2)
    ∧ (∃ (s : State) (c va : Nat) (i : Inval),
      s.invals.find? (fun i => i.ctx == c && i.va == va) = some i ∧ s.cmds.any (s.holdsTranslation i) = false)
    ∧ (∃ (s : State) (store cl core pan addr : Nat) (ref : CmdRef) (k : Cmd),
      store < 9 ∧ cl < 10 ∧ (core < 48 ∨ core = 63) ∧ pan < 2 ∧ addr < 2 ^ 26 ∧ s.cmd? ref = some k ∧
      k.phase ≠ .recording ∧ k.phase ≠ .killed ∧ k.reruns < 3 ∧ cOp k.word / 32 ≠ 6 ∧ ref ∈ s.groupRefs ref)
    ∧ (∃ (s : State) (store cl core pan addr : Nat) (ref : CmdRef) (k : Cmd),
      store < 9 ∧ cl < 10 ∧ (core < 48 ∨ core = 63) ∧ pan < 2 ∧ addr < 2 ^ 26 ∧ s.cmd? ref = some k ∧
      k.phase ≠ .recording ∧ k.phase ≠ .killed ∧ 3 ≤ k.reruns ∧ cOp k.word / 32 ≠ 6 ∧ (s.cx k.ctx).life = .live)
    ∧ (∃ (s : State),
      s.pins.porstN = true ∧ s.hub.booting = true ∧ s.hub.stage = 4 ∧ s.loader.bootWaiting = true) :=
  ⟨⟨{ rdy with hbm := { dir := [(20971488, { tag := 1, st := 4, obj := 5 }), (20971489, { tag := 1, st := 4, obj := 5 })] }, objs := [(5, { live := true, owner := 1, size := 131072, pages := [655359] })] }, 19, 1048544, 20971488, _, _, by decide +kernel, by decide +kernel, by decide +kernel, rfl, by decide +kernel, rfl, by decide +kernel⟩,
   ⟨{ rdy with hbm := { dir := [(20971488, { tag := 1, st := 4, obj := 5 }), (20971489, { tag := 1, st := 1, obj := 5 })] }, objs := [(5, { live := true, owner := 1, size := 131072, pages := [655359] })] }, 19, 1048544, 20971488, _, _, by decide +kernel, by decide +kernel, by decide +kernel, rfl, by decide +kernel, rfl, by decide +kernel⟩,
   ⟨{ rdy with hbm := { dir := [(20971519, { st := 3 })] } }, 19, 1048575, 20971519, true, by decide +kernel⟩,
   ⟨{ rdy with chip := { cmPages := [(15359, { fresh := false, owner := 1 })] } }, 15359, true, by decide +kernel⟩,
   ⟨{ rdy with chip := { rsPages := [(10239, { fresh := false, owner := 1 })] } }, 10239, false, by decide +kernel⟩,
   ⟨{ rdy with invals := [⟨255, 0, 65536, 1⟩] }, 255, 0, _, rfl, by decide +kernel⟩,
   ⟨copying, 8, 9, 63, 1, 67108863, .station 1 0 0, copyCmd, by decide +kernel⟩,
   ⟨{ copying with cmds := [{ copyCmd with reruns := 3 }] }, 8, 9, 63, 1, 67108863, .station 1 0 0, { copyCmd with reruns := 3 }, by decide +kernel⟩,
   ⟨{ bootAt 4 with loader := { bootWaiting := true } }, by decide +kernel⟩⟩

theorem wit_MalformedAdminDescriptor :
    ∃ (i : Instr) (s : State) (f : Nat),
      adminFunc i = some f ∧ s.adminReady f = true ∧ (s.fn f).evOn = true ∧
      adminOps.contains (at1 (s.adminDesc f) 0) = false :=
  ⟨.ctxCreate 0, admin 0x12 [], 0, by decide +kernel⟩

theorem wit_ContextAndRingAdministration :
    (∃ (s : State) (f c p : Nat) (d : List Byte),
      d = s.adminDesc f ∧ AdminTurn s f 0x10 ∧ at1 d 16 = p ∧ p < 16 ∧ 6 ≤ at1 d 17 ∧ at1 d 17 ≤ 16 ∧
      at2 d 20 ≤ 1023 ∧ at8 d 24 % 2048 = 0 ∧ at8 d 32 % 4 = 0 ∧ ((s.pt p).mode = 1 ∨ (s.pt p).mode = 2) ∧
      (f ≠ 0 → bit (vfParts (s.fn f).vfCfg) p = true ∧ (s.ctxsOf f).length < vfMaxCtx (s.fn f).vfCfg) ∧
      ((s.pt p).mode = 1 → (s.ctxs.keysWhere fun _ y => y.life != .free && y.part == p).length < 8 ∧ ∀ e ∈ s.ctxs.keysWhere fun _ y => y.life != .free && y.part == p, (s.cx e).func = f) ∧
      s.freeCtx = some c)
    ∧ (∃ (s : State) (f : Nat),
      AdminTurn s f 0x11)
    ∧ (∃ (s : State) (f r : Nat) (d : List Byte),
      d = s.adminDesc f ∧ AdminTurn s f 0x20 ∧ 4 ≤ at1 d 16 ∧ at1 d 16 ≤ 16 ∧ at8 d 24 % 1024 = 0 ∧
      at8 d 32 % 4 = 0 ∧ (s.rings.keysWhere fun _ r => r.live && r.ctx == at1 d 2).length < 16 ∧
      (f ≠ 0 → (s.rings.keysWhere fun _ r => r.live && (s.cx r.ctx).func == f).length < vfMaxRings (s.fn f).vfCfg) ∧
      (List.range 1024).find? (fun r => !(s.rg r).live) = some r)
    ∧ (∃ (s : State) (f r : Nat),
      AdminTurn s f 0x21 ∧ at2 (s.adminDesc f) 16 = r ∧ r < 1024 ∧ (s.rg r).live = true ∧
      (s.rg r).ctx = at1 (s.adminDesc f) 2) :=
  ⟨⟨admin 0x10 (leBytes 1 0 ++ leBytes 1 16 ++ leBytes 2 1023 ++ leBytes 2 1023 ++ leBytes 2 0 ++ leBytes 8 2048 ++ leBytes 8 4), 0, 0, 0, _, rfl, adminTurnOf _ _ _ (by decide +kernel), by decide +kernel⟩,
   ⟨admin 0x11 [], 0, adminTurnOf _ _ _ (by decide +kernel)⟩,
   ⟨admin 0x20 (leBytes 1 16 ++ leBytes 7 3 ++ leBytes 8 1024 ++ leBytes 8 4), 0, 0, _, rfl, adminTurnOf _ _ _ (by decide +kernel), by decide +kernel⟩,
   ⟨{ admin 0x21 (leBytes 2 1023) with rings := [(1023, { live := true, ctx := 1 })] }, 0, 1023, adminTurnOf _ _ _ (by decide +kernel), by decide +kernel⟩⟩

theorem wit_FenceAdministration :
    (∃ (s : State) (f i : Nat) (d : List Byte),
      d = s.adminDesc f ∧ AdminTurn s f 0x30 ∧ at8 d 24 % 8 = 0 ∧ s.fenceFresh = i ∧ i < 65536)
    ∧ (∃ (s : State) (f i : Nat) (d : List Byte),
      d = s.adminDesc f ∧ AdminTurn s f 0x31 ∧ s.fenceSlot (at4 d 16) = some i ∧ (s.fe i).life = .live ∧
      (s.fe i).owned = true ∧ (s.fe i).owner = at1 d 2 ∧ (s.cx (at1 d 20)).life = .live ∧
      ((s.fe i).shares.filter fun x => x.ctx != at1 d 20).length < 16)
    ∧ (∃ (s : State) (f i : Nat) (d : List Byte),
      d = s.adminDesc f ∧ AdminTurn s f 0x32 ∧ s.fenceSlot (at4 d 16) = some i ∧ (s.fe i).owned = true ∧
      (s.fe i).owner = at1 d 2 ∧ (s.fe i).shares = [])
    ∧ (∃ (s : State) (f i : Nat) (d : List Byte),
      d = s.adminDesc f ∧ AdminTurn s f 0x32 ∧ s.fenceSlot (at4 d 16) = some i ∧ (s.fe i).owned = true ∧
      (s.fe i).owner = at1 d 2 ∧ (s.fe i).shares ≠ [])
    ∧ (∃ (s : State) (f i : Nat) (d : List Byte),
      d = s.adminDesc f ∧ AdminTurn s f 0x33 ∧ s.fenceSlot (at4 d 16) = some i ∧ (s.fe i).life = .live ∧
      (s.fe i).owned = true ∧ (s.fe i).owner = at1 d 2 ∧ (s.fe i).value < at8 d 24)
    ∧ (∃ (s : State) (f i : Nat) (d : List Byte),
      d = s.adminDesc f ∧ AdminTurn s f 0x33 ∧ s.fenceSlot (at4 d 16) = some i ∧ (s.fe i).life = .live ∧
      (s.fe i).owned = true ∧ (s.fe i).owner = at1 d 2 ∧ at8 d 24 < (s.fe i).value) :=
  ⟨⟨{ admin 0x30 (leBytes 8 5 ++ leBytes 8 8) with fenceFresh := 65535 }, 0, 65535, _, rfl, adminTurnOf _ _ _ (by decide +kernel), by decide +kernel⟩,
   ⟨{ admin 0x31 (leBytes 4 0x10007 ++ leBytes 1 2 ++ leBytes 1 3) with fences := [(7, { life := .live, owner := 1, owned := true })] }, 0, 7, _, rfl, adminTurnOf _ _ _ (by decide +kernel), by decide +kernel⟩,
   ⟨{ admin 0x32 (leBytes 4 0x10007) with fences := [(7, { life := .live, owner := 1, owned := true })] }, 0, 7, _, rfl, adminTurnOf _ _ _ (by decide +kernel), by decide +kernel⟩,
   ⟨{ admin 0x32 (leBytes 4 0x10007) with fences := [(7, { life := .live, owner := 1, owned := true, shares := [⟨2, true, false⟩] })] }, 0, 7, _, rfl, adminTurnOf _ _ _ (by decide +kernel), by decide +kernel⟩,
   ⟨{ admin 0x33 (leBytes 4 0x10007 ++ leBytes 4 0 ++ leBytes 8 1) with fences := [(7, { life := .live, owner := 1, owned := true })] }, 0, 7, _, rfl, adminTurnOf _ _ _ (by decide +kernel), by decide +kernel⟩,
   ⟨{ admin 0x33 (leBytes 4 0x10007 ++ leBytes 4 0 ++ leBytes 8 1) with fences := [(7, { life := .live, owner := 1, owned := true, value := 2 })] }, 0, 7, _, rfl, adminTurnOf _ _ _ (by decide +kernel), by decide +kernel⟩⟩

theorem wit_ObjectAdministration :
    (∃ (s u : State) (f : Nat) (ps : List Nat) (d : List Byte),
      d = s.adminDesc f ∧ AdminTurn s f 0x40 ∧ at8 d 16 ≠ 0 ∧ at8 d 24 + at8 d 16 ≤ 2 ^ 48 ∧ at8 d 16 % 65536 = 0 ∧
      at8 d 24 % 2 ^ 21 = 0 ∧ s.vaTaken (at1 d 2) (at8 d 24) (at8 d 16) = false ∧
      s.pagesFor (s.stackSet (at1 d 2) (at4 d 32)) (at8 d 16) = some ps ∧
      ((s.takeAdmin f).moveSubs (objSubs ps (at8 d 16 / 65536)) { tag := at1 d 2, st := 4, obj := s.nextObj }).makeTables (at1 d 2) (at8 d 24) (at8 d 16) = some u)
    ∧ (∃ (s u : State) (f : Nat) (w : HostWin) (d : List Byte),
      d = s.adminDesc f ∧ AdminTurn s f 0x41 ∧ at8 d 16 ≠ 0 ∧ at8 d 24 + at8 d 16 ≤ 2 ^ 48 ∧ at2 d 32 < 4096 ∧
      at8 d 16 % 65536 = 0 ∧ at8 d 24 % 2 ^ 21 = 0 ∧ at8 d 40 % 2 ^ 21 = 0 ∧ w = s.windows.get {} (at2 d 32) ∧
      w.en = true ∧ w.func = f ∧ s.vaTaken (at1 d 2) (at8 d 24) (at8 d 16) = false ∧
      at8 d 40 + at8 d 16 ≤ w.pages * 2 ^ 21 ∧ (s.takeAdmin f).makeTables (at1 d 2) (at8 d 24) (at8 d 16) = some u)
    ∧ (∃ (s : State) (f h : Nat) (m : Mapping) (d : List Byte),
      d = s.adminDesc f ∧ AdminTurn s f 0x42 ∧ at4 d 16 = h ∧ (s.ob h).live = true ∧
      (s.ob h).maps.find? (fun m => m.ctx == at1 d 2) = some m ∧ m.removing = false ∧ m.deferred = false ∧
      s.namesObj (at1 d 2) h = false)
    ∧ (∃ (s : State) (f h : Nat) (m : Mapping) (d : List Byte),
      d = s.adminDesc f ∧ AdminTurn s f 0x42 ∧ at4 d 16 = h ∧ (s.ob h).live = true ∧
      (s.ob h).maps.find? (fun m => m.ctx == at1 d 2) = some m ∧ m.removing = false ∧ m.deferred = false ∧
      s.namesObj (at1 d 2) h = true)
    ∧ (∃ (s : State) (f h : Nat) (d : List Byte),
      d = s.adminDesc f ∧ AdminTurn s f 0x43 ∧ at4 d 16 = h ∧ (s.ob h).live = true ∧ (s.ob h).owner = at1 d 2 ∧
      (s.cx (at1 d 20)).life = .live ∧ ((s.ob h).host.isSome = true → (s.cx (at1 d 20)).func = f) ∧
      ((s.ob h).exports.filter fun e => e.1 != at1 d 20).length < 16)
    ∧ (∃ (s u : State) (f h : Nat) (d : List Byte),
      d = s.adminDesc f ∧ AdminTurn s f 0x44 ∧ at4 d 16 = h ∧ (s.ob h).live = true ∧
      at8 d 24 + (s.ob h).size ≤ 2 ^ 48 ∧ at8 d 24 % 2 ^ 21 = 0 ∧ (at1 d 2, true) ∈ (s.ob h).exports ∧
      (∀ m ∈ (s.ob h).maps, m.ctx ≠ at1 d 2) ∧ s.vaTaken (at1 d 2) (at8 d 24) (s.ob h).size = false ∧
      (s.takeAdmin f).makeTables (at1 d 2) (at8 d 24) (s.ob h).size = some u)
    ∧ (∃ (s : State) (f h : Nat) (d : List Byte),
      d = s.adminDesc f ∧ AdminTurn s f 0x45 ∧ at4 d 16 = h ∧ (s.ob h).live = true ∧ (s.ob h).owner = at1 d 2 ∧
      (s.cx (at1 d 20)).life = .live) :=
  ⟨⟨{ admin 0x40 (leBytes 8 65536 ++ leBytes 8 0xFFFFFFE00000) with hbm := { stks := [(0, { st := 1, rate := 128, gib := 64 })], ready := true } }, _, 0, [0], _, rfl, adminTurnOf _ _ _ (by decide +kernel), by decide +kernel, by decide +kernel, by decide +kernel, by decide +kernel, by decide +kernel, by decide +kernel, someVal {} _ (by decide +kernel)⟩,
   ⟨{ admin 0x41 (leBytes 8 65536 ++ leBytes 8 0xFFFFFFE00000 ++ leBytes 2 4095) with windows := [(4095, { a := 7, b := 0 })], hbm := { stks := [(0, { st := 1, rate := 128, gib := 64 })], ready := true } }, _, 0, _, _, rfl, adminTurnOf _ _ _ (by decide +kernel), by decide +kernel, by decide +kernel, by decide +kernel, by decide +kernel, by decide +kernel, by decide +kernel, rfl, by decide +kernel, by decide +kernel, by decide +kernel, by decide +kernel, someVal {} _ (by decide +kernel)⟩,
   ⟨{ admin 0x42 (leBytes 4 5) with objs := [(5, { live := true, owner := 1, size := 65536, maps := [{ ctx := 1, va := 0, w := true }] })] }, 0, 5, _, _, rfl, adminTurnOf _ _ _ (by decide +kernel), by decide +kernel, by decide +kernel, rfl, by decide +kernel⟩,
   ⟨{ admin 0x42 (leBytes 4 5) with secs := [(1, { ctx := 1, objs := [5], img := image 192 [(1, 0, [])] [] [] })], objs := [(5, { live := true, owner := 1, size := 65536, maps := [{ ctx := 1, va := 0, w := true }] })] }, 0, 5, _, _, rfl, adminTurnOf _ _ _ (by decide +kernel), by decide +kernel, by decide +kernel, rfl, by decide +kernel⟩,
   ⟨{ admin 0x43 (leBytes 4 5 ++ leBytes 1 2 ++ leBytes 1 1) with objs := [(5, { live := true, owner := 1 })] }, 0, 5, _, rfl, adminTurnOf _ _ _ (by decide +kernel), by decide +kernel⟩,
   ⟨{ admin 0x44 (leBytes 4 5 ++ leBytes 4 0 ++ leBytes 8 0xFFFFFFE00000 ++ leBytes 1 1) with hbm := { stks := [(0, { st := 1, rate := 128, gib := 64 })], ready := true }, objs := [(5, { live := true, owner := 2, size := 65536, exports := [(1, true)] })] }, _, 0, 5, _, rfl, adminTurnOf _ _ _ (by decide +kernel), by decide +kernel, by decide +kernel, by decide +kernel, by decide +kernel, by decide +kernel, by decide +kernel, by decide +kernel, someVal {} _ (by decide +kernel)⟩,
   ⟨{ admin 0x45 (leBytes 4 5 ++ leBytes 1 2) with objs := [(5, { live := true, owner := 1 })] }, 0, 5, _, rfl, adminTurnOf _ _ _ (by decide +kernel), by decide +kernel⟩⟩

theorem wit_ConfigurationPort :
    (∃ (s : State) (w : Nat),
      s.portUp = true ∧ s.hub.stage = 6 ∧ s.loader.mode = .command ∧ s.loader.st = 0 ∧ isLoad w = true)
    ∧ (∃ (s : State) (w : Nat),
      s.portUp = true ∧ s.loader.mode = .command ∧ isLoad w = false ∧ isReadback w = false ∧ isEnd w = false)
    ∧ (∃ (s : State),
      s.portUp = true ∧ s.loader.mode = .forward)
    ∧ (∃ (s : State),
      s.portUp = true ∧ s.loader.mode = .own ∧ s.loader.st ≠ 0 ∧ s.loader.status = 0)
    ∧ (∃ (s : State) (b : List Byte),
      s.portUp = true ∧ b ≠ [] ∧ s.loader.mode = .forward)
    ∧ (∃ (s : State) (b : List Byte),
      s.portUp = true ∧ b ≠ [] ∧ s.loader.mode = .tail ∧ s.loader.pos ≠ 63)
    ∧ (∃ (s : State),
      s.ready = true ∧ s.loader.st = 0)
    ∧ (∃ (s : State),
      s.ready = true ∧ s.loader.st ≠ 0 ∧ s.loader.st ≠ 4)
    ∧ (∃ (s : State) (w : Nat),
      s.portUp = true ∧ s.loader.mode = .command ∧ isReadback w = true ∧ s.partPresent (w % 256) = true ∧
      (s.xp (w % 256)).loaded = true ∧ (s.xp (w % 256)).readback = false)
    ∧ (∃ (s : State) (w : Nat),
      s.portUp = true ∧ s.loader.mode = .command ∧ isReadback w = true ∧ s.partPresent (w % 256) = true ∧
      (s.xp (w % 256)).loaded = true ∧ (s.xp (w % 256)).readback = true ∧
      (∀ i ∈ (s.xp (w % 256)).trees, i.en = false))
    ∧ (∃ (s : State) (w : Nat),
      s.portUp = true ∧ s.loader.mode = .command ∧ isReadback w = true ∧ s.partPresent (w % 256) = true ∧
      (s.xp (w % 256)).loaded = true ∧ (s.xp (w % 256)).readback = true ∧ (∃ i ∈ (s.xp (w % 256)).trees, i.en = true)) :=
  ⟨⟨rdy, 0x010C003F, by decide +kernel⟩,
   ⟨rdy, 0x010C0040, by decide +kernel⟩,
   ⟨{ rdy with loader := { mode := .forward } }, by decide +kernel⟩,
   ⟨{ rdy with loader := { mode := .own, st := 1 } }, by decide +kernel⟩,
   ⟨{ rdy with loader := { mode := .forward } }, [1], by decide +kernel⟩,
   ⟨{ rdy with loader := { mode := .tail, pos := 62 } }, [1], by decide +kernel⟩,
   ⟨rdy, by decide +kernel⟩,
   ⟨{ rdy with loader := { st := 3 } }, by decide +kernel⟩,
   ⟨{ rdy with xparts := [(39, { st := 3 })] }, 0x020C0027, by decide +kernel⟩,
   ⟨{ rdy with xparts := [(39, { st := 3, readback := true })] }, 0x020C0027, by decide +kernel⟩,
   ⟨{ rdy with xparts := [(39, { st := 3, readback := true, trees := [{ en := true }] })] }, 0x020C0027, by decide +kernel⟩⟩

theorem wit_ImageLoading :
    (∃ (s : State) (b : List Byte),
      s.portUp = true ∧ s.loader.st = 1 ∧ s.loader.staging = [] ∧ s.loader.src = true ∧ b.length = 128 ∧
      s.headerStatus b s.loader.pos = 0)
    ∧ (∃ (s : State) (b : List Byte) (e : Nat),
      s.portUp = true ∧ s.loader.st = 1 ∧ s.loader.staging = [] ∧ s.loader.src = false ∧
      (s.hostImage 128).length = 128 ∧ s.headerStatus (s.hostImage 128) 0xFF = e ∧ e ≠ 0)
    ∧ (∃ (s : State) (b m : List Byte),
      s.portUp = true ∧ s.loader.st = 1 ∧ s.loader.staging = b.take 128 ∧ s.loader.staging ≠ [] ∧
      s.loader.src = true ∧ b.length = imgTotal s.loader.staging ∧ s.loader.status = 0 ∧ s.imageStatus b = .ok m)
    ∧ (∃ (s : State) (b : List Byte) (e : Nat),
      s.portUp = true ∧ s.loader.st = 1 ∧ s.loader.staging = b.take 128 ∧ s.loader.staging ≠ [] ∧
      s.loader.src = true ∧ b.length = imgTotal s.loader.staging ∧ s.loader.status = 0 ∧ s.imageStatus b = .error e)
    ∧ (∃ (s : State) (n : Nat),
      s.portUp = true ∧ s.loader.st = 3 ∧ (∀ p ∈ imgParts s.loader.staging, (s.xp p).call = none) ∧
      max s.time.now n + applyBound s.loader.staging < s.loader.start + 1000000 * s.loader.window)
    ∧ (∃ (s : State) (n : Nat),
      s.portUp = true ∧ s.loader.st = 3 ∧ (∀ p ∈ imgParts s.loader.staging, (s.xp p).call = none) ∧
      s.loader.start + 1000000 * s.loader.window ≤ max s.time.now n + applyBound s.loader.staging)
    ∧ (∃ (s : State),
      s.loader.st = 4) :=
  ⟨⟨{ rdy with part := { keyHash := [some []] }, loader := { st := 1, src := true, pos := 63 } }, subHeader 63 (2 ^ 39) 320, by decide +kernel⟩,
   ⟨{ rdy with hostMem := Mem.wrN [] 0 (leBytes 8 4096 ++ leBytes 4 128), loader := { st := 1 } }, [], 0x0502, by decide +kernel⟩,
   ⟨receiving, signed, _, by decide +kernel, by decide +kernel, by decide +kernel, by decide +kernel, by decide +kernel, by decide +kernel, by decide +kernel, okVal [] _ signed_valid⟩,
   ⟨{ rdy with loader := { st := 1, src := true, staging := subHeader 0 0 320 } }, subHeader 0 0 320 ++ leBytes 192 0, 0x0503, by decide +kernel, by decide +kernel, by decide +kernel, by decide +kernel, by decide +kernel, by decide +kernel, by decide +kernel, rfl⟩,
   ⟨{ rdy with loader := { st := 3, staging := subHeader 0 (2 ^ 39) 320 } }, 5, by decide +kernel⟩,
   ⟨{ rdy with loader := { st := 3, staging := subHeader 0 (2 ^ 39) 320 } }, 1000000000, by decide +kernel⟩,
   ⟨{ rdy with loader := { st := 4 } }, by decide +kernel⟩⟩

theorem wit_PartsAndClocks :
    (∃ (s : State) (p : Nat),
      p < 40 ∧ s.fabricUp = true ∧ ((s.xp p).st = 4 ∨ ((s.xp p).st = 2 ∧ (s.xp p).awaiting = true)))
    ∧ (∃ (s : State) (p : Nat),
      p < 40 ∧ (s.xp p).st = 2 ∧ (s.xp p).awaiting = true ∧ (s.xp p).join = false)
    ∧ (∃ (s : State) (n : Nat),
      n < 80 ∧ s.fabricUp = true ∧ (s.xp (n / 2)).loaded = true ∧ ((s.xp (n / 2)).tree (n % 2)).en = true ∧
      ((s.xp (n / 2)).tree (n % 2)).stopped = false)
    ∧ (∃ (s : State) (n : Nat),
      n < 80 ∧ s.fabricUp = true ∧ (s.xp (n / 2)).loaded = true ∧ ((s.xp (n / 2)).tree (n % 2)).en = true)
    ∧ (∃ (s : State) (r : Nat),
      r < 10 ∧ s.fabricUp = true)
    ∧ (∃ (s : State) (p : Nat),
      p < 40 ∧ s.fabricUp = true ∧ (s.xp p).st = 5 ∧ (s.xp p).join = true)
    ∧ (∃ (s : State) (p : Nat),
      p < 40 ∧ s.fabricUp = true ∧ (s.xp p).loaded = true ∧ (s.xp p).clamped = false ∧ (s.xp p).call = none) :=
  ⟨⟨{ rdy with xparts := [(39, { st := 2, awaiting := true })] }, 39, by decide +kernel⟩,
   ⟨{ rdy with xparts := [(39, { st := 2, awaiting := true })] }, 39, by decide +kernel⟩,
   ⟨{ rdy with xparts := [(39, { st := 3, trees := [{}, { en := true }] })] }, 79, by decide +kernel⟩,
   ⟨{ rdy with xparts := [(39, { st := 3, trees := [{}, { en := true }] })] }, 79, by decide +kernel⟩,
   ⟨rdy, 9, by decide +kernel⟩,
   ⟨{ rdy with xparts := [(39, { st := 5, join := true })] }, 39, by decide +kernel⟩,
   ⟨{ rdy with xparts := [(39, { st := 3, clamped := false })] }, 39, by decide +kernel⟩⟩

theorem wit_Functions :
    (∃ (s : State) (f : Nat),
      f < 256 ∧ s.ready = true ∧ s.hub.configReady = true ∧ s.funcExists f = true ∧ (s.fn f).enable = false ∧
      s.ctxsOf f = [])
    ∧ (∃ (s : State) (f : Nat),
      f < 256 ∧ s.pins.porstN = true ∧ s.hub.configReady = true ∧ s.hub.stage ≠ 6 ∧ s.hub.lost = false ∧
      s.funcExists f = true ∧ (s.fn f).enable = false ∧ s.ctxsOf f = [])
    ∧ (∃ (s : State) (f : Nat),
      f < 256 ∧ s.ready = true ∧ s.funcExists f = true ∧ (s.fn f).enable = false ∧ (s.fn f).agree = 2 ∧
      4 ≤ (s.fn f).adminLog2 ∧ (s.fn f).adminLog2 ≤ 16 ∧ 6 ≤ (s.fn f).fevtCfg.toNat % 32 ∧
      (s.fn f).fevtCfg.toNat % 32 ≤ 16 ∧ (s.fn f).adminCfg.toNat / 65536 % 2048 < s.ownedVectors f)
    ∧ (∃ (s : State) (f : Nat),
      f < 256 ∧ s.ready = true ∧ s.funcExists f = true)
    ∧ (∃ (s : State) (f : Nat) (op : ConfigOp),
      f < 256 ∧ s.pins.porstN = true ∧ s.funcExists f = true ∧ s.hub.configReady = false)
    ∧ (∃ (s : State) (f : Nat),
      f < 256 ∧ s.pins.porstN = true ∧ s.funcExists f = true ∧ s.hub.configReady = true)
    ∧ (∃ (s : State) (f v : Nat) (g : CfgField),
      f < 256 ∧ s.pins.porstN = true ∧ s.funcExists f = true ∧ s.hub.configReady = true ∧
      (g, v) ∈ [(CfgField.bar0Size, if f = 0 then 2 ^ 20 else 2 ^ 17), (.bar2Size, 2 ^ 23), (.msixSize, if f = 0 then 2048 else 64), (.hasMsix, 1), (.hasSriov, if f = 0 then 1 else 0), (.hasAer, 1), (.totalVfs, if f = 0 then 255 else 0), (.firstVfOffset, if f = 0 then 1 else 0), (.vfStride, if f = 0 then 1 else 0)])
    ∧ (∃ (s : State) (en : Bool) (n : Nat),
      s.pins.porstN = true ∧ s.hub.configReady = true ∧ n ≤ 255)
    ∧ (∃ (s : State) (f : Nat) (en masked : Bool),
      f < 256 ∧ s.pins.porstN = true ∧ s.funcExists f = true ∧ s.hub.configReady = true) :=
  ⟨⟨rdy, 0, by decide +kernel⟩,
   ⟨{ bootAt 3 with vfEnable := true, numVfs := 255 }, 255, by decide +kernel⟩,
   ⟨{ rdy with funcs := [(0, { agree := 2, adminCfg := 0x7FF0004, fevtCfg := 16 })] }, 0, by decide +kernel⟩,
   ⟨{ rdy with vfEnable := true, numVfs := 255 }, 255, by decide +kernel⟩,
   ⟨{ pins := { porstN := true } }, 0, .setVfs true 3, by decide +kernel⟩,
   ⟨{ rdy with vfEnable := true, numVfs := 255 }, 255, by decide +kernel⟩,
   ⟨rdy, 0, 1, .firstVfOffset, by decide +kernel⟩,
   ⟨rdy, true, 255, by decide +kernel⟩,
   ⟨rdy, 0, true, false, by decide +kernel⟩⟩

theorem wit_Partitions :
    (∃ (s : State) (p v : Nat),
      p < 16 ∧ s.ready = true ∧ (∀ e ∈ s.ctxs, e.2.life ≠ .free → e.2.part ≠ p) ∧
      (∀ q < 16, q ≠ p → fld v 0 60 &&& (s.pt q).groups = 0))
    ∧ (∃ (s : State) (f v : Nat),
      1 ≤ f ∧ f < 256 ∧ s.ready = true ∧ s.ctxsOf f = [] ∧
      (∀ e ∈ s.rings, e.2.live = true → (s.cx e.2.ctx).func ≠ f) ∧
      2048 - s.ownedVectors 0 - s.vfVectors f + fld v 32 7 ≤ 2048)
    ∧ (∃ (s : State) (p v : Nat),
      p < 16 ∧ s.ready = true ∧ (∀ e ∈ s.ctxs, e.2.life ≠ .free → e.2.part ≠ p) ∧
      (∀ q < 16, q ≠ p → fld v 0 40 &&& (s.pt q).regions.toNat = 0))
    ∧ (∃ (s : State) (p v : Nat),
      p < 16 ∧ s.ready = true ∧ s.holdsAdmitted p = false ∧ 2 ≤ v % 8 ∧ v % 8 ≤ 4)
    ∧ (∃ (s : State) (p v : Nat) (r : SluiceRes) (w : Word),
      p < 16 ∧ s.ready = true ∧ s.holdsAdmitted p = false ∧ w = BitVec.ofNat 64 (fld v 0 25 + 2 ^ 32 * fld v 32 24) ∧
      sluRate w ≤ sluDepth w ∧ sluDepth w ≤ 16 * sluRate w ∧
      (((List.range 16).filter (· != p)).map fun q => sluRate ((s.pt q).sluice r)).sum + sluRate w ≤ s.sluiceG r) :=
  ⟨⟨{ rdy with parts := [(15, {}), (0, { cfg := 1 })], ctxs := [(1, { life := .live })] }, 15, 0x2000000000000002, by decide +kernel⟩,
   ⟨rdy, 255, 64 * 2 ^ 32, by decide +kernel⟩,
   ⟨{ rdy with parts := [(0, { regions := 1 })] }, 15, 2 ^ 39, by decide +kernel⟩,
   ⟨rdy, 15, 4, by decide +kernel⟩,
   ⟨rdy, 15, 119700 + 2 ^ 32 * 119700, .res, _, by decide +kernel, by decide +kernel, by decide +kernel, rfl, by decide +kernel⟩⟩

theorem wit_HostWindowsAndLinks :
    (∃ (s : State) (n v : Nat) (w : HostWin),
      n < 4096 ∧ s.ready = true ∧ w = s.windows.get {} n ∧ w.a.getLsbD 0 = false ∧ w.draining = false ∧
      (∀ e ∈ s.windows, e.1 ≠ n → e.2.a.getLsbD 0 = true → meets e.2.page e.2.pages w.page w.pages = false) ∧
      w.page + w.pages ≤ 2 ^ 26)
    ∧ (∃ (s : State) (n : Nat) (w : HostWin),
      n < 4096 ∧ s.ready = true ∧ w = s.windows.get {} n ∧ w.a.getLsbD 0 = true)
    ∧ (∃ (s : State) (n : Nat) (w : HostWin),
      n < 4096 ∧ w = s.windows.get {} n ∧ w.draining = true ∧ (∀ k ∈ s.cmds, k.ref ∉ w.users))
    ∧ (∃ (s : State),
      s.ready = true ∧ s.part.link1 = true ∧ s.pins.link1 = false)
    ∧ (∃ (s : State) (f : Nat),
      f < 256 ∧ s.pins.porstN = true ∧ s.hub.configReady = true ∧ s.part.ats = true ∧ s.funcExists f = true) :=
  ⟨⟨{ rdy with windows := [(0, { a := 1 }), (4095, { b := 1 })] }, 4095, 0, _, by decide +kernel, by decide +kernel, rfl, by decide +kernel⟩,
   ⟨{ rdy with windows := [(4095, { a := 1 })] }, 4095, _, by decide +kernel, by decide +kernel, rfl, by decide +kernel⟩,
   ⟨{ copying with windows := [(4095, { draining := true, users := [.station 2 0 0] })] }, 4095, _, by decide +kernel, rfl, by decide +kernel⟩,
   ⟨{ rdy with pins := { porstN := true, link1 := false } }, by decide +kernel⟩,
   ⟨{ rdy with part := { ats := true } }, 0, by decide +kernel⟩⟩

theorem wit_ResetsAndReadErrors :
    (∃ (i : Instr) (s : State),
      (i = .hotReset ∨ i = .link0Down ∨ i = .functionLevelReset 0) ∧ s.pins.porstN = true ∧
      s.hub.configReady = true ∧ s.hub.lost = false)
    ∧ (∃ (s : State) (f : Nat),
      0 < f ∧ f < 256 ∧ s.pins.porstN = true ∧ s.hub.configReady = true ∧ s.funcExists f = true ∧ s.hub.lost = false)
    ∧ (∃ (s : State) (r c : Nat),
      s.ready = true ∧ (s.rg r).live = true ∧ (s.rg r).ctx = c ∧ (s.cx c).life = .live)
    ∧ (∃ (s : State) (c : Nat),
      s.ready = true ∧ (s.cx c).life = .live)
    ∧ (∃ (s : State) (f : Nat),
      s.ready = true ∧ (s.fn f).enable = true)
    ∧ (∃ (s : State) (f : Nat),
      s.ready = true ∧ (s.fn f).enable = true)
    ∧ (∃ (s : State),
      s.ready = true ∧ s.loader.st = 1 ∧ s.loader.src = false)
    ∧ (∃ (s : State) (v : Nat),
      1 ≤ v ∧ v ≤ 12 ∧ s.ready = true ∧ (s.svc v).locked = false) :=
  ⟨⟨.functionLevelReset 0, rdy, by decide +kernel⟩,
   ⟨{ rdy with vfEnable := true, numVfs := 255 }, 255, by decide +kernel⟩,
   ⟨{ rdy with rings := [(1023, { live := true, ctx := 255 })], ctxs := [(255, { life := .live })] }, 1023, 255, by decide +kernel⟩,
   ⟨{ rdy with ctxs := [(255, { life := .live })] }, 255, by decide +kernel⟩,
   ⟨{ rdy with funcs := [(255, { enable := true })] }, 255, by decide +kernel⟩,
   ⟨{ rdy with funcs := [(255, { enable := true })] }, 255, by decide +kernel⟩,
   ⟨{ rdy with loader := { st := 1 } }, by decide +kernel⟩,
   ⟨rdy, 12, by decide +kernel⟩⟩

theorem wit_SubmissionRings :
    (∃ (s : State) (f r n : Nat),
      f < 256 ∧ r < 1024 ∧ s.ready = true ∧ s.funcExists f = true ∧ (s.rg r).live = true ∧
      (s.cx (s.rg r).ctx).func = f ∧ (s.cx (s.rg r).ctx).life ≠ .destroying ∧ (∀ e ∈ s.sessions, e.2.ring ≠ r) ∧
      cdist 32 (s.rg r).tail (s.rg r).head < cdist 32 n (s.rg r).head ∧ cdist 32 n (s.rg r).head ≤ 2 ^ (s.rg r).log2)
    ∧ (∃ (s : State) (f r n : Nat),
      f < 256 ∧ r < 1024 ∧ s.ready = true ∧ s.funcExists f = true ∧ (s.rg r).live = true ∧
      (s.cx (s.rg r).ctx).func = f ∧ (s.cx (s.rg r).ctx).life ≠ .destroying ∧ (∀ e ∈ s.sessions, e.2.ring ≠ r) ∧
      (cdist 32 n (s.rg r).head < cdist 32 (s.rg r).tail (s.rg r).head ∨ 2 ^ (s.rg r).log2 < cdist 32 n (s.rg r).head) ∧
      cdist 32 n (s.rg r).head ≠ cdist 32 (s.rg r).tail (s.rg r).head)
    ∧ (∃ (s : State) (f n : Nat),
      f < 256 ∧ s.ready = true ∧ s.funcExists f = true ∧ (s.fn f).enable = true ∧
      cdist 32 (s.fn f).adminTail (s.fn f).adminHead < cdist 32 n (s.fn f).adminHead ∧
      cdist 32 n (s.fn f).adminHead ≤ 2 ^ (s.fn f).adminLog2)
    ∧ (∃ (s : State) (r : Nat),
      RingTurn s r 0)
    ∧ (∃ (s u : State) (r : Nat) (b : List Byte) (ws : List (List Byte)),
      RingTurn s r 1 ∧
      (s.takeRing r).readVa { ctx := (s.rg r).ctx, ref := some (.ring r) } (at8 (s.ringDesc r) 16) (32 * at2 (s.ringDesc r) 24) = (.ok b, u) ∧
      ws = tab (at2 (s.ringDesc r) 24) (fun i => (b.drop (32 * i)).take 32) ∧ ws.all ringWordOk = true)
    ∧ (∃ (s u : State) (r : Nat) (img : List Byte) (x : Section) (ps : List Nat),
      RingTurn s r 2 ∧ (s.takeRing r).copyImage (s.rg r).ctx r (at8 (s.ringDesc r) 16) = (.ok img, u) ∧
      (u.imageSection (u.rg r) img).admitted = false ∧
      u.launchChecks u.nextSec (u.imageSection (u.rg r) img) (Config.freeWord u.free).toNat = .ok x ∧
      u.freeSubs (u.defaultStacks x.part) (cdiv x.img.length 65536) = some ps)
    ∧ (∃ (s : State) (r h : Nat),
      RingTurn s r 3 ∧ at4 (s.ringDesc r) 16 = h ∧ (∃ e ∈ s.secs, e.1 = h) ∧ (s.sec h).ctx = (s.rg r).ctx ∧
      s.restful h = true)
    ∧ (∃ (s : State) (r h : Nat),
      RingTurn s r 3 ∧ at4 (s.ringDesc r) 16 = h ∧ (∃ e ∈ s.secs, e.1 = h) ∧ (s.sec h).ctx = (s.rg r).ctx ∧
      s.restful h = false) :=
  ⟨⟨{ rdy with rings := [(1023, { live := true, ctx := 255, head := 4294967295, tail := 4294967295 })], ctxs := [(255, { life := .live })] }, 0, 1023, 15, by decide +kernel⟩,
   ⟨{ rdy with rings := [(1023, { live := true, ctx := 255, head := 4294967295, tail := 4294967295 })], ctxs := [(255, { life := .live })] }, 0, 1023, 16, by decide +kernel⟩,
   ⟨{ rdy with funcs := [(0, { enable := true, adminCfg := 4, adminHead := 4294967295, adminTail := 4294967295 })] }, 0, 15, by decide +kernel⟩,
   ⟨ringAt 0 [], 3, ringTurnOf _ _ _ (by decide +kernel)⟩,
   ⟨{ ringAt 1 (leBytes 8 0 ++ leBytes 2 1) with hbm := { hbm1 with data := Mem.wrN tabs 0 (word 0xE0 (leBytes 4 0 ++ leBytes 4 0x10007 ++ leBytes 8 1)) } }, _, 3, _, _, ringTurnOf _ _ _ (by decide +kernel), okGet [] _ (by decide +kernel), rfl, by decide +kernel⟩,
   ⟨launching, lState, 3, lImage, lSection, lSubs, ringTurnOf _ _ _ (by decide +kernel), lCopied, by decide +kernel, lChecked, lPlaced⟩,
   ⟨{ ringAt 3 (leBytes 4 1) with secs := [(1, { ctx := 1 })] }, 3, 1, ringTurnOf _ _ _ (by decide +kernel), by decide +kernel⟩,
   ⟨{ ringAt 3 (leBytes 4 1) with secs := [(1, { ctx := 1, run := some {} })] }, 3, 1, ringTurnOf _ _ _ (by decide +kernel), by decide +kernel⟩⟩

theorem wit_EventRings :
    (∃ (s : State) (c v : Nat) (r : EvRec),
      c < 256 ∧ s.ready = true ∧ (s.cx c).evWait = [r] ∧ r.wake = none ∧ r.wakeRing = none ∧ s.ctxFull c = true ∧
      s.readConsumed (s.ctxGeom c) (s.cx c).evSeq = some v ∧ evFull (s.cx c).evLog2 (s.cx c).evSeq v = false)
    ∧ (∃ (s : State) (c t0 : Nat),
      c < 256 ∧ s.ready = true ∧ (s.cx c).life = .live ∧ (s.cx c).fullSince = some t0 ∧ (s.cx c).evWait ≠ [] ∧
      (∀ r ∈ (s.cx c).evWait, r.wake = none ∧ r.wakeRing = none))
    ∧ (∃ (s : State) (f v : Nat) (r : EvRec),
      f < 256 ∧ s.ready = true ∧ (s.fn f).evOn = true ∧ (s.fn f).evWait = [r] ∧ (s.fn f).lostNotices = [] ∧
      (s.fn f).devNotices = [] ∧ s.funcFull f = true ∧ s.readConsumed (s.funcGeom f) (s.fn f).evSeq = some v ∧
      evFull (s.funcGeom f).log2 (s.fn f).evSeq v = false)
    ∧ (∃ (s : State) (c : Nat),
      c < 256 ∧ s.ready = true ∧ (s.cx c).moder.pending = true ∧ (s.cx c).evVector < s.ownedVectors (s.cx c).func ∧
      s.msixEnable.get false (s.cx c).func = true ∧ s.msixMask.get false (s.cx c).func = false ∧
      (s.msix.get {} (msixKey (s.cx c).func (s.cx c).evVector)).control.getLsbD 0 = false)
    ∧ (∃ (s : State) (f : Nat),
      f < 256 ∧ s.ready = true ∧ (s.fn f).moder.pending = true ∧ (s.funcGeom f).vector < s.ownedVectors f ∧
      s.msixEnable.get false f = true ∧ s.msixMask.get false f = false ∧
      (s.msix.get {} (msixKey f (s.funcGeom f).vector)).control.getLsbD 0 = false) :=
  ⟨⟨{ rdy with hostMem := [⟨0, 64⟩], ctxs := [(255, { life := .live, evSeq := 64, evWait := [{}] })] }, 255, 64, _, by decide +kernel, by decide +kernel, rfl, by decide +kernel⟩,
   ⟨{ rdy with ctxs := [(255, { life := .live, fullSince := some 7, evWait := [{}] })] }, 255, 7, by decide +kernel⟩,
   ⟨{ rdy with hostMem := [⟨0, 64⟩], funcs := [(255, { evOn := true, fevtCfg := 6, evSeq := 64, evWait := [{}] })] }, 255, 64, _, by decide +kernel, by decide +kernel, by decide +kernel, rfl, by decide +kernel⟩,
   ⟨{ rdy with ctxs := [(255, { evVector := 2047, moder := { pending := true } })], msixEnable := [(0, true)], msix := [(2047, { control := 0 })] }, 255, by decide +kernel⟩,
   ⟨{ rdy with funcs := [(0, { adminCfg := 0x7FF0000, moder := { pending := true } })], msixEnable := [(0, true)], msix := [(2047, { control := 0 })] }, 0, by decide +kernel⟩⟩

theorem wit_LogAndTelemetry :
    (∃ (s : State) (r : LogRec) (q : List LogRec),
      s.hubUp = true ∧ s.log.queue = r :: q ∧ s.log.dropped = 0)
    ∧ (∃ (s : State),
      s.hubUp = true)
    ∧ (∃ (s : State),
      s.hubUp = true ∧ s.log.ff.length ≤ 16384)
    ∧ (∃ (s : State) (v : Nat),
      s.ready = true ∧ s.telem.en = false ∧ 6 ≤ v % 32 ∧ v % 32 ≤ 16 ∧ 1 ≤ v / 32 % 2 ^ 14 ∧
      v / 32 % 2 ^ 14 ≤ 10000 ∧ v / 2 ^ 19 % 2 ^ 11 < s.ownedVectors 0)
    ∧ (∃ (s : State),
      s.hubUp = true ∧ s.hub.lost = false ∧ s.telem.en = true ∧
      cdist 32 s.telem.pos s.telem.readPos ≠ 2 ^ s.telem.log2)
    ∧ (∃ (s : State),
      s.hubUp = true ∧ s.hub.lost = false ∧ s.telem.en = true ∧
      cdist 32 s.telem.pos s.telem.readPos = 2 ^ s.telem.log2 ∧
      cdist 32 s.telem.pos (s.hostMem.rdLE (s.telem.consumed.toNat / 4 * 4) 4) = 2 ^ s.telem.log2) :=
  ⟨⟨{ rdy with log := { queue := [{ cls := 3 }, {}] } }, _, _, by decide +kernel, rfl, by decide +kernel⟩,
   ⟨rdy, by decide +kernel⟩,
   ⟨{ rdy with log := { ff := [{}] } }, by decide +kernel⟩,
   ⟨rdy, 16 + 32 * 10000 + 2 ^ 19 * 2047, by decide +kernel⟩,
   ⟨{ rdy with telem := { cfg := 0x80000026 } }, by decide +kernel⟩,
   ⟨{ rdy with telem := { cfg := 0x80000026, pos := 64 } }, by decide +kernel⟩⟩

theorem wit_RegisterWritesAreTheirRows :
    (∃ (s : State) (f r n : Nat),
      f < 256 ∧ r < 1024 ∧ n < 2 ^ 32 ∧ s.ready = true ∧ s.funcExists f = true)
    ∧ (∃ (s : State) (f n : Nat),
      f < 256 ∧ n < 2 ^ 32 ∧ s.ready = true ∧ s.funcExists f = true)
    ∧ (∃ (s : State) (p v : Nat),
      p < 16 ∧ v < 2 ^ 64 ∧ s.ready = true)
    ∧ (∃ (s : State) (f v : Nat),
      1 ≤ f ∧ f < 256 ∧ v < 2 ^ 64 ∧ s.ready = true)
    ∧ (∃ (s : State) (r v : Nat),
      r < 64 ∧ v < 2 ^ 64 ∧ s.ready = true)
    ∧ (∃ (s : State) (n v : Nat),
      n < 4096 ∧ v < 2 ^ 64 ∧ v % 2 = 1 ∧ s.ready = true)
    ∧ (∃ (s : State) (v : Nat),
      v < 2 ^ 64 ∧ s.ready = true)
    ∧ (∃ (s : State) (f o v : Nat),
      f < 256 ∧ s.ready = true ∧ s.funcExists f = true)
    ∧ (∃ (s : State) (f o v : Nat),
      f < 256 ∧ s.ready = true ∧ s.funcExists f = true ∧ o % 8 = 0 ∧ s.reg f o = none)
    ∧ (∃ (s : State) (f o w : Nat),
      s.ready = true ∧ ((w ≠ 32 ∧ w ≠ 64) ∨ o % (w / 8) ≠ 0))
    ∧ (∃ (s : State) (f o : Nat),
      s.ready = true ∧ o % 8 = 0 ∧ s.reg f o = none)
    ∧ (∃ (s : State) (f v : Nat),
      f < 256 ∧ v < 2 ^ 64 ∧ s.ready = true ∧ s.funcExists f = true ∧ (s.fn f).enable = false)
    ∧ (∃ (s : State) (v : Nat),
      v < 2 ^ 64 ∧ s.ready = true ∧ 1 ≤ v % 65536 ∧ v % 65536 ≤ 60000)
    ∧ (∃ (s : State) (k v : Nat),
      1 ≤ k ∧ k ≤ 12 ∧ v < 2 ^ 64 ∧ s.ready = true)
    ∧ (∃ (s : State) (c v : Nat),
      c < 10 ∧ v < 2 ^ 64 ∧ s.ready = true ∧ s.clPresent c = true)
    ∧ (∃ (s : State) (f k v : Nat),
      f < 256 ∧ k < 64 ∧ v < 2 ^ 64 ∧ s.ready = true ∧ s.funcExists f = true ∧ s.msixEnable.get false f = false) :=
  ⟨⟨rdy, 0, 1023, 5, by decide +kernel⟩,
   ⟨rdy, 0, 5, by decide +kernel⟩,
   ⟨rdy, 15, 5, by decide +kernel⟩,
   ⟨rdy, 255, 64 * 2 ^ 32, by decide +kernel⟩,
   ⟨rdy, 63, 7, by decide +kernel⟩,
   ⟨rdy, 4095, 1, by decide +kernel⟩,
   ⟨rdy, 800, by decide +kernel⟩,
   ⟨rdy, 0, 0, 0, by decide +kernel⟩,
   ⟨rdy, 0, 0xF0000, 0, by decide +kernel⟩,
   ⟨rdy, 0, 4, 64, by decide +kernel⟩,
   ⟨rdy, 0, 0xF0000, by decide +kernel⟩,
   ⟨rdy, 0, 0x123456789, by decide +kernel⟩,
   ⟨rdy, 60000, by decide +kernel⟩,
   ⟨rdy, 12, 5, by decide +kernel⟩,
   ⟨rdy, 9, 3, by decide +kernel⟩,
   ⟨rdy, 0, 63, 0x1003, by decide +kernel⟩⟩

theorem wit_EngineReset :
    (∃ (s : State) (w v : Nat),
      s.pins.porstN = true ∧ (w = 32 ∨ w = 64) ∧ fld v 0 16 = 0xD9E5 ∧ s.pins.thermtrip = false ∧
      s.hub.resetAsked = false)
    ∧ (∃ (s : State),
      s.hub.holdReset = true ∧ s.pins.timeref = true ∧ s.pins.hbmRefAbsent = [] ∧ s.pins.sdsAbsent = [])
    ∧ (∃ (s : State) (b f : Bool),
      s.hub.holdReset = true ∧ s.pins.sdsAbsent = [] ∧ (s.pins.timeref = false ∨ b = false ∨ f = false) ∧
      s.pins.hbmRefAbsent = []) :=
  ⟨⟨rdy, 32, 0xD9E5, by decide +kernel⟩,
   ⟨{ pins := { porstN := true }, hub := { holdReset := true, bootE := 5 } }, by decide +kernel⟩,
   ⟨{ pins := { porstN := true }, hub := { holdReset := true, bootE := 5 } }, true, false, by decide +kernel⟩⟩

theorem wit_Pans :
    (∃ (s : State) (p t : Nat) (r : StartReq),
      p < 960 ∧ s.power.firstReq = some r ∧ r.pan = p ∧ s.power.hold = false ∧ s.hub.emergency = false ∧
      (s.cl (p / 96)).throttle = false ∧ s.time.now ≤ t ∧ s.chargeOk (s.riseCharge p (s.power.epoch + t)) = true ∧
      s.boostOk p = true)
    ∧ (∃ (s : State) (p t : Nat),
      p < 960 ∧ ((s.pan p).run = .running ∨ (s.pan p).run = .rampWait) ∧ s.time.now ≤ t ∧ s.issuable p = false)
    ∧ (∃ (s u : State) (p i : Nat) (k : Cmd) (w : List Byte) (op : Option SetKey),
      p < 960 ∧ u = ((s.panQueue p).filterMap fun k => refSec k.ref).dedup.foldl State.takeFrames s ∧
      u.nextMatrix p = some k ∧ u.issuable p = true ∧ ((u.panNow p).run = .running ∨ (u.panNow p).run = .rampWait) ∧
      ((u.cxOf k).allOps k.words)[k.ops]? = some (w, i, op))
    ∧ (∃ (s u : State) (p : Nat) (k : Cmd),
      p < 960 ∧ u = ((s.panQueue p).filterMap fun k => refSec k.ref).dedup.foldl State.takeFrames s ∧
      u.nextMatrix p = some k ∧ u.issuable p = true ∧
      ((u.panNow p).run = .idle ∨ (∃ t0, (u.panNow p).run = .falling t0 ∧ u.groupsOff p ≠ 0)))
    ∧ (∃ (s s' : State) (p : Nat) (k : Cmd) (w : List Byte) (g : WTag) (x : Tens),
      p < 960 ∧ (s.panQueue p).findSome? (fun k => (s.nextTag p k).map fun t => (k, t)) = some (k, w, g) ∧
      hasTag (s.pan p).background g = false ∧ hasTag (s.pan p).loading g = false ∧ s.backgroundFree p = true ∧
      ((s.cxOf k).weightAt w g).exec s = (.ok x, s'))
    ∧ (∃ (s : State) (p : Nat) (w : WSet),
      p < 960 ∧ (s.pan p).loading = some w) :=
  ⟨⟨{ rdy with power := { waiting := [{ pan := 959, lc := false, t := 0 }] } }, 959, 0, { pan := 959, lc := false, t := 0 }, by decide +kernel⟩,
   ⟨{ rdy with pans := [(959, { run := .running, off := 0 })] }, 959, 0, by decide +kernel⟩,
   ⟨multiplying 2 { run := .running, off := 0 }, _, 0, 0, matCmd 2, matWord 2, none, by decide +kernel, rfl, by decide +kernel, by decide +kernel, by decide +kernel, by decide +kernel⟩,
   ⟨multiplying 2 {}, _, 0, matCmd 2, by decide +kernel, rfl, by decide +kernel, by decide +kernel, .inl (by decide +kernel)⟩,
   ⟨multiplying 0 {}, _, 0, matCmd 0, matWord 0, ⟨1, 1, 2, 0, 0, 0⟩, _, by decide +kernel, by decide +kernel, by decide +kernel, by decide +kernel, by decide +kernel, okGet { fmt := 0, ext := [], codes := [], scs := [] } _ (by decide +kernel)⟩,
   ⟨{ rdy with pans := [(959, { loading := some { tag := ⟨1, 1, 1, 0, 0, 0⟩ } })] }, 959, _, by decide +kernel, rfl⟩⟩

theorem wit_UnitQueues :
    (∃ (s : State) (c : Nat) (x : UnitKind) (b : Nat × Nat) (r : CmdRef),
      c < 480 ∧ (s.un (unitNo c x)).queue.length < 8 ∧ s.pickProgram (unitNo c x) false = some b ∧
      s.nextFor (unitNo c x) b = some (some r))
    ∧ (∃ (s : State) (c : Nat) (x : UnitKind) (b : Nat × Nat),
      c < 480 ∧ (s.un (unitNo c x)).queue.length < 8 ∧ s.pickProgram (unitNo c x) false = some b ∧
      s.nextFor (unitNo c x) b = some none ∧
      (((s.issue b.1 b.2).takeFrames b.1).cmd? (.station b.1 b.2 ((s.sec b.1).head b.2))).isSome = true)
    ∧ (∃ (s : State) (c : Nat) (x : UnitKind) (b : Nat × Nat) (q r : CmdRef),
      c < 480 ∧ 8 ≤ (s.un (unitNo c x)).queue.length ∧ s.pickProgram (unitNo c x) true = some b ∧
      s.evict (unitNo c x) = some q ∧
      (s.updUn (unitNo c x) fun u => { u with queue := u.queue.filter fun y => y != q }).nextFor (unitNo c x) b = some (some r)) :=
  ⟨⟨{ copying with units := [(3, { binds := [(1, 0)] })] }, 0, .transfer, (1, 0), .station 1 0 0, by decide +kernel⟩,
   ⟨{ copying with cmds := [], units := [(3, { binds := [(1, 0)] })], secs := copying.secs.map fun e => (e.1, { e.2 with run := some {} }) }, 0, .transfer, (1, 0), by decide +kernel⟩,
   ⟨{ copying with cmds := [{ copyCmd with lc := true }, { ref := .station 2 0 7, ctx := 1 }], units := [(3, { binds := [(1, 0)], queue := (List.range 8).map (CmdRef.station 2 0) })], secs := copying.secs.map fun e => (e.1, { e.2 with lc := true }) }, 0, .transfer, (1, 0), .station 2 0 7, .station 1 0 0, by decide +kernel⟩⟩

theorem wit_UnitCommands :
    (∃ (s s0 s1 s2 : State) (i : Instr) (ref : CmdRef) (op u : Nat) (b : Body) (k k1 : Cmd) (a : Acc),
      RunsBody s i ref op b ∧ s0 = (refSec ref).elim s s.takeFrames ∧ UnitTurn s0 ref op u k ∧ k.skipped = false ∧
      s1 = s0.chargeCmd k ∧ s1.cmd? ref = some k1 ∧ k1.held = [] ∧
      (b (s1.cxOf k1) k1.word { info := k1.infos.headD {} }).exec s1 = (.ok a, s2))
    ∧ (∃ (s s0 s1 s2 : State) (i : Instr) (ref : CmdRef) (op u e : Nat) (b : Body) (k k1 k2 : Cmd),
      RunsBody s i ref op b ∧ s0 = (refSec ref).elim s s.takeFrames ∧ UnitTurn s0 ref op u k ∧ k.skipped = false ∧
      s1 = s0.chargeCmd k ∧ s1.cmd? ref = some k1 ∧ k1.held = [] ∧
      (b (s1.cxOf k1) k1.word { info := k1.infos.headD {} }).exec s1 = (.error e, s2) ∧ s2.cmd? ref = some k2 ∧
      (s2.cx k2.ctx).life = .live)
    ∧ (∃ (s s0 : State) (i : Instr) (ref : CmdRef) (op u : Nat) (k : Cmd),
      SkipsAs s i ref op ∧ s0 = (refSec ref).elim s s.takeFrames ∧ UnitTurn s0 ref op u k ∧ k.skipped = true) :=
  ⟨⟨copying, _, _, _, .copy (.station 1 0 0), .station 1 0 0, 0x80, 3, bodyCopy, copyCmd, { copyCmd with step := 1 }, _, .inl rfl, rfl, ⟨by decide +kernel, by decide +kernel, ⟨1, 0, 0, rfl, by decide +kernel⟩, by decide +kernel⟩, by decide +kernel, rfl, by decide +kernel, by decide +kernel, okGet {} _ (by decide +kernel)⟩,
   ⟨far, _, _, _, .copy (.station 1 0 0), .station 1 0 0, 0x80, 3, 0x0201, bodyCopy, copyCmd, { copyCmd with step := 1 }, { copyCmd with step := 1 }, .inl rfl, rfl, ⟨by decide +kernel, by decide +kernel, ⟨1, 0, 0, rfl, by decide +kernel⟩, by decide +kernel⟩, by decide +kernel, rfl, by decide +kernel, by decide +kernel, errGet _ _ (by decide +kernel), by decide +kernel, by decide +kernel⟩,
   ⟨{ copying with cmds := [{ copyCmd with skipped := true }] }, _, .copy (.station 1 0 0), .station 1 0 0, 0x80, 3, { copyCmd with skipped := true }, .inl ⟨bodyCopy, rfl⟩, rfl, ⟨by decide +kernel, by decide +kernel, ⟨1, 0, 0, rfl, by decide +kernel⟩, by decide +kernel⟩, by decide +kernel⟩⟩

theorem wit_DataMovement :
    (∃ (s : State) (h st n u : Nat) (k : Cmd),
      UnitTurn s (.station h st n) 0x83 u k ∧ mcSender k.word = true ∧ k.skipped = false ∧
      (s.cl ((s.sec h).treeCluster st)).granted ≠ some (.station h st n) ∧
      (.station h st n) ∉ (s.cl ((s.sec h).treeCluster st)).trees)
    ∧ (∃ (s : State) (c h : Nat) (r : CmdRef) (l : List CmdRef) (k : Cmd),
      c < 10 ∧ (s.cl c).granted = none ∧ (s.cl c).trees = r :: l ∧ s.cmd? r = some k ∧ refSec r = some h ∧
      (∀ m ∈ s.roomsFor k, s.roomFree m = true))
    ∧ (∃ (s : State) (c h : Nat) (r : CmdRef) (l : List CmdRef) (k : Cmd),
      c < 10 ∧ (s.cl c).granted = none ∧ (s.cl c).trees = r :: l ∧ s.cmd? r = some k ∧ refSec r = some h ∧
      (∃ m ∈ s.roomsFor k, s.roomFree m = false))
    ∧ (∃ (s s0 s1 s2 : State) (h st n u : Nat) (k k0 k1 : Cmd) (a : Acc),
      UnitTurn s (.station h st n) 0x83 u k ∧ mcSender k.word = true ∧ k.skipped = false ∧
      (s.cl ((s.sec h).treeCluster st)).granted = some (.station h st n) ∧ s0 = s.takeFrames h ∧
      UnitTurn s0 (.station h st n) 0x83 u k0 ∧ k0.skipped = false ∧ s1 = s0.chargeCmd k0 ∧
      s1.cmd? (.station h st n) = some k1 ∧ k1.held = [] ∧
      (bodyMcastSend (s1.cxOf k1) k1.word { info := k1.infos.headD {} }).exec s1 = (.ok a, s2))
    ∧ (∃ (s s1 : State) (h st n u : Nat) (k : Cmd) (w : WSet),
      UnitTurn s (.station h st n) 0x84 u k ∧ fld (at1 k.word 12) 0 2 ≠ 0 ∧ k.skipped = false ∧
      ((s.cxOf k).prefetchSet k.word).exec s = (.ok w, s1) ∧
      hasTag (s1.pan (2 * (u / 5) + u % 5)).active w.tag = false ∧
      hasTag (s1.pan (2 * (u / 5) + u % 5)).background w.tag = false ∧ s1.backgroundFree (2 * (u / 5) + u % 5) = true)
    ∧ (∃ (s s1 : State) (h st n u : Nat) (k : Cmd) (w : WSet),
      UnitTurn s (.station h st n) 0x84 u k ∧ fld (at1 k.word 12) 0 2 ≠ 0 ∧ k.skipped = false ∧
      ((s.cxOf k).prefetchSet k.word).exec s = (.ok w, s1) ∧
      (hasTag (s1.pan (2 * (u / 5) + u % 5)).active w.tag = true ∨ hasTag (s1.pan (2 * (u / 5) + u % 5)).background w.tag = true))
    ∧ (∃ (s : State) (i : Instr) (ref : CmdRef) (k : Cmd) (h : Nat),
      ((i = .saveRes ref ∧ cOp k.word = 0x85 ∧ (s.sec h).swapped = false) ∨ (i = .restoreRes ref ∧ cOp k.word = 0x86)) ∧
      s.cmd? ref = some k ∧ k.phase = .issued ∧ k.skipped = false ∧ s.swapTarget k = .ok h ∧ s.inRun h = true)
    ∧ (∃ (s : State) (i : Instr) (ref : CmdRef) (k : Cmd) (e : Nat),
      ((i = .saveRes ref ∧ cOp k.word = 0x85) ∨ (i = .restoreRes ref ∧ cOp k.word = 0x86)) ∧ s.cmd? ref = some k ∧
      k.phase = .issued ∧ k.skipped = false ∧ s.swapTarget k = .error e ∧ (s.cx k.ctx).life = .live)
    ∧ (∃ (s : State) (ref : CmdRef) (k : Cmd),
      s.cmd? ref = some k ∧ cOp k.word = 0x85 ∧ k.phase = .issued ∧ k.skipped = false ∧
      s.inRun (at4 k.word 12) = true ∧ (s.cx k.ctx).life = .live) :=
  ⟨⟨casting {} [], 1, 0, 0, 3, castCmd, ⟨by decide +kernel, by decide +kernel, ⟨1, 0, 0, rfl, by decide +kernel⟩, by decide +kernel⟩, by decide +kernel⟩,
   ⟨casting { trees := [.station 1 0 0] } [], 0, 1, .station 1 0 0, [], castCmd, by decide +kernel⟩,
   ⟨casting { trees := [.station 1 0 0] } [{ core := 1, sender := (0, 9), receiver := (1, 9), bytes := 32768 }], 0, 1, .station 1 0 0, [], castCmd, by decide +kernel⟩,
   ⟨casting { granted := some (.station 1 0 0) } [{ core := 1, sender := (0, 0), receiver := (1, 0), bytes := 4 }], _, _, _, 1, 0, 0, 3, castCmd, castCmd, { castCmd with step := 1 }, _, ⟨by decide +kernel, by decide +kernel, ⟨1, 0, 0, rfl, by decide +kernel⟩, by decide +kernel⟩, by decide +kernel, by decide +kernel, by decide +kernel, rfl, ⟨by decide +kernel, by decide +kernel, ⟨1, 0, 0, rfl, by decide +kernel⟩, by decide +kernel⟩, by decide +kernel, rfl, by decide +kernel, by decide +kernel, okGet {} _ (by decide +kernel)⟩,
   ⟨fetching {}, _, 1, 0, 0, 0, preCmd, _, ⟨by decide +kernel, by decide +kernel, ⟨1, 0, 0, rfl, by decide +kernel⟩, by decide +kernel⟩, by decide +kernel, by decide +kernel, okGet { tag := ⟨0, 0, 0, 0, 0, 0⟩ } _ (by decide +kernel), by decide +kernel, by decide +kernel, by decide +kernel⟩,
   ⟨fetching { active := some { tag := ⟨1, 1, 2, 0, 0, 0⟩ } }, _, 1, 0, 0, 0, preCmd, _, ⟨by decide +kernel, by decide +kernel, ⟨1, 0, 0, rfl, by decide +kernel⟩, by decide +kernel⟩, by decide +kernel, by decide +kernel, okGet { tag := ⟨0, 0, 0, 0, 0, 0⟩ } _ (by decide +kernel), .inl (by decide +kernel)⟩,
   ⟨swapping 0x85 2, .saveRes (.station 1 0 0), .station 1 0 0, swapCmd 0x85 2, 2, .inl ⟨rfl, by decide +kernel, by decide +kernel⟩, by decide +kernel, by decide +kernel, by decide +kernel, rfl, by decide +kernel⟩,
   ⟨swapping 0x86 9, .restoreRes (.station 1 0 0), .station 1 0 0, swapCmd 0x86 9, 0x0102, .inr ⟨rfl, by decide +kernel⟩, by decide +kernel, by decide +kernel, by decide +kernel, rfl, by decide +kernel⟩,
   ⟨swapping 0x85 2, .station 1 0 0, swapCmd 0x85 2, by decide +kernel⟩⟩

theorem wit_Synchronisation :
    (∃ (s u : State) (ref : CmdRef) (k : Cmd) (v : Nat),
      Turn s u ref 0xA0 k ∧ u.fenceRight k.ctx k.word = true ∧ u.waitOn k = .reached v)
    ∧ (∃ (s u : State) (ref : CmdRef) (k : Cmd) (v : Nat),
      Turn s u ref 0xA0 k ∧ u.fenceRight k.ctx k.word = true ∧ u.waitOn k = .abandoned v ∧
      bit (at1 k.word 14) 0 = true)
    ∧ (∃ (s u : State) (ref : CmdRef) (k : Cmd) (v : Nat),
      Turn s u ref 0xA0 k ∧ u.fenceRight k.ctx k.word = true ∧ u.waitOn k = .abandoned v ∧
      bit (at1 k.word 14) 0 = false ∧ (u.cx k.ctx).life = .live)
    ∧ (∃ (s u : State) (ref : CmdRef) (k : Cmd),
      Turn s u ref 0xA0 k ∧ u.fenceRight k.ctx k.word = true ∧ u.waitOn k = .pending)
    ∧ (∃ (s : State) (ref : CmdRef) (k : Cmd),
      s.cmd? ref = some k ∧
      ((cOp k.word = 0xA0 ∧ s.waitOn k = .pending) ∨ (cOp k.word = 0xA3 ∧ s.barrierMet ref = false)) ∧
      k.phase = .issued ∧ k.skipped = false ∧ (s.cx k.ctx).life = .live)
    ∧ (∃ (s u : State) (ref : CmdRef) (k : Cmd),
      Turn s u ref 0xA1 k ∧ u.fenceRight k.ctx k.word = true ∧ u.earlierDone ref = true ∧
      (bit (at1 k.word 14) 0 = false ∨ u.hzn.domainOf k.ctx ≠ 0))
    ∧ (∃ (s u : State) (ref : CmdRef) (k : Cmd),
      Turn s u ref 0xA1 k ∧ u.fenceRight k.ctx k.word = false ∧ (u.cx k.ctx).life = .live)
    ∧ (∃ (s u : State) (ref : CmdRef) (k : Cmd),
      Turn s u ref 0xA2 k ∧ u.earlierDone ref = true)
    ∧ (∃ (s u : State) (h st i g : Nat) (k : Cmd),
      Turn s u (.station h st i) 0xA3 k ∧ st < (u.sec h).nStations ∧
      ((u.sec h).barriers st (fld (at1 k.word 8) 0 4)).findIdx? (· == i) = some g ∧
      (∀ t < (u.sec h).nStations, (u.sec h).barriers t (fld (at1 k.word 8) 0 4) ≠ [] → ∃ j, ((u.sec h).barriers t (fld (at1 k.word 8) 0 4))[g]? = some j ∧ u.atBarrier h t j = true ∧ ∀ c, u.cmd? (.station h t j) = some c → c.skipped = true ∨ u.time.now < c.reached + 1000000 * (if at2 c.word 12 = 0 then 2000 else at2 c.word 12)))
    ∧ (∃ (s u : State) (i : Instr) (ref : CmdRef) (op : Nat) (k : Cmd),
      ((i, op) ∈ [(Instr.wait ref, 0xA0), (.patch ref, 0xE0)] ∨ ((i, op) ∈ [(Instr.signal ref, 0xA1), (.event ref, 0xA2), (.barrier ref, 0xA3)] ∧ u.earlierDone ref = true)) ∧
      u = s.takeUp ref op ∧ u.issued? ref op = some k ∧ k.skipped = true)
    ∧ (∃ (s u : State) (W V : List CmdRef) (val : CmdRef → Nat),
      s.ready = true ∧ u = s.atTime ((s.time.now + 999999) / 1000000 * 1000000) ∧
      W = u.cycleOf u.submitted u.waitTable.length u.waitTable ∧
      val = (fun w => ((u.cmd? w).bind fun k => (u.fenceSlot (at4 k.word 8)).map fun i => (u.fe i).value).getD 0) ∧
      V = u.cycleOf u.submitted W.length (W.filter fun w => u.scanSet.contains (w, val w))) :=
  ⟨⟨begins [(1, 0, [waitWord 0 5])] [] vecs, _, .station 1 0 0, _, 5, ⟨rfl, someVal copyCmd _ (by decide +kernel), by decide +kernel⟩, by decide +kernel⟩,
   ⟨{ begins [(1, 0, [waitWord 1 5])] [] vecs with fences := [(0, { life := .abandoned, value := 3 })] }, _, .station 1 0 0, _, 3, ⟨rfl, someVal copyCmd _ (by decide +kernel), by decide +kernel⟩, by decide +kernel⟩,
   ⟨{ begins [(1, 0, [waitWord 0 5])] [] vecs with fences := [(0, { life := .abandoned, value := 3 })] }, _, .station 1 0 0, _, 3, ⟨rfl, someVal copyCmd _ (by decide +kernel), by decide +kernel⟩, by decide +kernel⟩,
   ⟨begins [(1, 0, [waitWord 0 6])] [] vecs, _, .station 1 0 0, _, ⟨rfl, someVal copyCmd _ (by decide +kernel), by decide +kernel⟩, by decide +kernel⟩,
   ⟨{ copying with cmds := [waitCmd 6], fences := [(0, { life := .live, value := 5 })] }, .station 1 0 0, waitCmd 6, by decide +kernel⟩,
   ⟨begins [(1, 0, [sigWord 0 9])] [] vecs, _, .station 1 0 0, _, ⟨rfl, someVal copyCmd _ (by decide +kernel), by decide +kernel⟩, by decide +kernel⟩,
   ⟨{ copying with cmds := [{ copyCmd with word := sigWord 0 9 }], parts := [] }, _, .station 1 0 0, _, ⟨rfl, someVal copyCmd _ (by decide +kernel), by decide +kernel⟩, by decide +kernel⟩,
   ⟨begins [(1, 0, [word 0xA2 []])] [] vecs, _, .station 1 0 0, _, ⟨rfl, someVal copyCmd _ (by decide +kernel), by decide +kernel⟩, by decide +kernel⟩,
   ⟨begins [(1, 0, [word 0xA3 []])] [] vecs, _, 1, 0, 0, 0, _, ⟨rfl, someVal copyCmd _ (by decide +kernel), by decide +kernel⟩, by decide +kernel, by decide +kernel, fun t ht _ => (by have h : t = 0 := Nat.lt_one_iff.mp ht; subst h; exact ⟨0, by decide +kernel, by decide +kernel, allOf _ _ (by decide +kernel)⟩)⟩,
   ⟨begins [(1, 0, [wordF 0xA0 2 []])] [] vecs, _, .wait (.station 1 0 0), .station 1 0 0, 0xA0, _, .inl (by decide +kernel), rfl, someVal copyCmd _ (by decide +kernel), by decide +kernel⟩,
   ⟨{ busy [(1, 0, [waitWord 0 6, sigWord 0 6])] [] vecs 3 with cmds := [waitCmd 6], fences := [(0, { life := .live, value := 5 })], scanSet := [(.station 1 0 0, 5)] }, _, _, _, _, by decide +kernel, rfl, rfl, rfl, rfl⟩⟩

theorem wit_RunControl :
    (∃ (s u v : State) (ref : CmdRef) (k : Cmd) (h : Nat) (l : List (Nat × Word)),
      Turn s u ref 0xE0 k ∧ u.patchTarget k = .ok h ∧ u.targetRests k h = true ∧ u.patchValues k h = (.ok l, v) ∧
      (∀ e ∈ l, v.regCheck h e.1 e.2.toNat = 0))
    ∧ (∃ (s u : State) (ref : CmdRef) (k : Cmd) (e : Nat),
      Turn s u ref 0xE0 k ∧ u.patchTarget k = .error e ∧ (u.cx k.ctx).life = .live)
    ∧ (∃ (s : State) (ref : CmdRef) (k : Cmd) (h : Nat),
      s.issued? ref 0xE1 = some k ∧ s.patchTarget k = .ok h ∧ s.targetRests k h = true ∧ at4 k.word 16 = 0)
    ∧ (∃ (s : State) (ref : CmdRef) (k : Cmd) (h : Nat),
      s.issued? ref 0xE1 = some k ∧ s.patchTarget k = .ok h ∧ s.targetRests k h = true ∧ at4 k.word 16 ≠ 0)
    ∧ (∃ (s : State) (h : Nat),
      s.mayStart h = true)
    ∧ (∃ (s u v w : State) (ref : CmdRef) (k c : Cmd) (p : Made) (is : List RecInfo),
      u = (refSec ref).elim (s.takeUp ref 0xE2) (s.takeUp ref 0xE2).takeFrames ∧ u.issued? ref 0xE2 = some k ∧
      k.skipped = false ∧ u.runnable ref = true ∧ u.mayUse k = true ∧ v = u.chargeCmd k ∧ v.cmd? ref = some c ∧
      c.held = [] ∧ ((v.cxOf c).runChain c.members (c.infos.drop 1)).exec v = (.ok (p, is), w))
    ∧ (∃ (s u : State) (ref : CmdRef) (k : Cmd),
      u = (refSec ref).elim (s.takeUp ref 0xE2) (s.takeUp ref 0xE2).takeFrames ∧ u.issued? ref 0xE2 = some k ∧
      k.skipped = true ∧ u.runnable ref = true ∧ u.mayUse k = true) :=
  ⟨⟨patching, _, _, .station 1 0 0, _, _, _, ⟨rfl, someVal copyCmd _ (by decide +kernel), by decide +kernel⟩, okVal 0 _ (by decide +kernel), by decide +kernel, okGet [] _ (by decide +kernel), by decide +kernel⟩,
   ⟨resting [ringCmd 0xE0 9 0], _, .ring 3, ringCmd 0xE0 9 0, 0x0102, ⟨rfl, by decide +kernel, by decide +kernel⟩, errVal _ _ (by decide +kernel), by decide +kernel⟩,
   ⟨resting [ringCmd 0xE1 1 0], .ring 3, ringCmd 0xE1 1 0, _, by decide +kernel, okVal 0 _ (by decide +kernel), by decide +kernel, by decide +kernel⟩,
   ⟨resting [ringCmd 0xE1 1 7], .ring 3, ringCmd 0xE1 1 7, _, by decide +kernel, okVal 0 _ (by decide +kernel), by decide +kernel, by decide +kernel⟩,
   ⟨{ resting [] with replays := [{ ref := .ring 3, ctx := 1, sec := 1, left := 1, predReg := none, stepReg := none, stepImm := 0 }] }, 1, by decide +kernel⟩,
   ⟨begins [(2, 0, [word 0xE2 (leBytes 1 1), copyWord])] [] vecs, _, _, _, .station 1 0 0, _, _, _, _, rfl, someVal copyCmd _ (by decide +kernel), by decide +kernel, by decide +kernel, by decide +kernel, rfl, someVal copyCmd _ (by decide +kernel), by decide +kernel, okPair {} [] _ (by decide +kernel)⟩,
   ⟨begins [(2, 0, [wordF 0xE2 2 (leBytes 1 1), copyWord])] [] vecs, _, .station 1 0 0, _, rfl, someVal copyCmd _ (by decide +kernel), by decide +kernel⟩⟩

theorem wit_Commits :
    (∃ (s : State) (ref : CmdRef) (k : Cmd),
      s.cmd? ref = some k ∧ s.readyToCommit k = true ∧ s.groupRoutes ref = [] ∧
      (∀ c ∈ s.withPeers k, s.triggered c = []))
    ∧ (∃ (s : State) (ref : CmdRef) (ks : List Cmd),
      s.wholeGroup ref = some ks ∧ s.groupRoutes ref ≠ [] ∧ (∀ k ∈ ks, s.readyToCommit k = true ∧ s.triggered k = []))
    ∧ (∃ (s : State) (ref : CmdRef) (k : Cmd),
      s.cmd? ref = some k ∧ s.readyToCommit k = true ∧ s.groupRoutes ref = [] ∧
      (∃ e ∈ s.triggered k, cSatPol e.2 = 2) ∧ (s.cx k.ctx).life = .live)
    ∧ (∃ (s : State) (ref : CmdRef) (k : Cmd) (e : Nat × List Byte) (f : Nat),
      s.cmd? ref = some k ∧ s.readyToCommit k = true ∧ s.groupRoutes ref = [] ∧
      (∀ e ∈ s.triggered k, cSatPol e.2 ≠ 2) ∧ s.triggered k = [e] ∧ cSatPol e.2 = 1 ∧
      widerFmt (s.dstFmt k e.2) = some f ∧ e.1 < k.infos.length) :=
  ⟨⟨{ copying with cmds := [{ copyCmd with phase := .written }] }, .station 1 0 0, { copyCmd with phase := .written }, by decide +kernel⟩,
   ⟨streaming { writer with phase := .written } { reader with phase := .written } { heads := [(0, 1), (1, 1)] }, .station 1 0 0, [{ writer with phase := .written }, { reader with phase := .written }], by decide +kernel⟩,
   ⟨saturated 2, .station 1 0 0, satCmd 2, by decide +kernel⟩,
   ⟨saturated 1, .station 1 0 0, satCmd 1, (0, satWord 1), 12, by decide +kernel⟩⟩

theorem wit_KillsAndFrames :
    (∃ (s : State) (c : Nat) (x : UnitKind) (be lc : Cmd),
      c < 480 ∧ s.beRunning (unitNo c x) = some be ∧ s.lcWaiting (unitNo c x) = some lc ∧
      (∀ r ∈ s.killable be.ref, ∀ k, s.cmd? r = some k → cOp k.word / 32 ≠ 6))
    ∧ (∃ (s : State) (ref : CmdRef) (k : Cmd),
      s.cmd? ref = some k ∧ k.phase = .killed ∧ k.killCause ≠ 2 ∧ k.killCause ≠ 3 ∧ k.killCause ≠ 4)
    ∧ (∃ (s : State) (ref : CmdRef) (k : Cmd),
      s.cmd? ref = some k ∧ k.phase = .killed ∧ (k.killCause = 2 ∨ k.killCause = 3 ∨ k.killCause = 4))
    ∧ (∃ (s : State) (h r i : Nat) (run : Run) (f : Nat × SFrame),
      (s.sec h).run = some run ∧ (run.heldFrames.findIdx? fun e => e.1 == r) = some i ∧ run.heldFrames[i]? = some f ∧
      r < (s.sec h).nRoutes ∧ (∀ st ∈ (s.sec h).consumers r, (s.sec h).roomFor run r st = true) ∧
      (s.chargeAll (s.sec h).lc (s.frameTokens (s.sec h) r f.2)).1 = [])
    ∧ (∃ (s : State) (h st i : Nat) (k : Cmd),
      s.cmd? (.station h st i) = some k ∧ s.groupRoutes (.station h st i) ≠ [] ∧ k.phase ≠ .recording ∧
      k.phase ≠ .killed ∧ k.phase ≠ .written ∧ (.station h st i) ∈ s.groupRefs (.station h st i) ∧
      (s.cx k.ctx).life = .live) :=
  ⟨⟨{ copying with cmds := [copyCmd, { ref := .station 2 0 0, ctx := 1, lc := true, word := copyWord }], units := [(3, { cur := some (.station 1 0 0), queue := [.station 2 0 0] })] }, 0, .transfer, copyCmd, { ref := .station 2 0 0, ctx := 1, lc := true, word := copyWord }, by decide +kernel, by decide +kernel, by decide +kernel, allRefs _ _ (fun k => cOp k.word / 32 ≠ 6) (by decide +kernel)⟩,
   ⟨{ copying with cmds := [{ copyCmd with phase := .killed, killCause := 6 }] }, .station 1 0 0, { copyCmd with phase := .killed, killCause := 6 }, by decide +kernel⟩,
   ⟨{ copying with cmds := [{ copyCmd with phase := .killed, killCause := 2 }] }, .station 1 0 0, { copyCmd with phase := .killed, killCause := 2 }, by decide +kernel⟩,
   ⟨streaming writer reader { heads := [(0, 1), (1, 1)], heldFrames := [(0, oneFrame)] }, 1, 0, 0, { heads := [(0, 1), (1, 1)], heldFrames := [(0, oneFrame)] }, (0, oneFrame), by decide +kernel⟩,
   ⟨streaming writer reader { heads := [(0, 1), (1, 1)] }, 1, 0, 0, writer, by decide +kernel⟩⟩

theorem wit_Sluices :
    ∃ (s : State),
      s.ready = true ∧ (∀ k ∈ s.cmds, k.held = []) :=
  ⟨rdy, by decide +kernel⟩

theorem wit_SendReceive :
    (∃ (s v w : State) (ref : CmdRef) (k : Cmd) (b : List Byte),
      HznTurn s v ref 0xC0 k ∧ ((v.cxOf k).msgBytes none (at2 k.word 8)).exec v = (.ok b, w))
    ∧ (∃ (s v : State) (ref : CmdRef) (k : Cmd),
      HznTurn s v ref 0xC1 k ∧
      (v.hzn.rtsHeld.find? fun m => m.peer == fld (leAt k.word 16 3) 0 18 && m.key == at4 k.word 20 && m.domain == v.hzn.domainOf k.ctx) = none)
    ∧ (∃ (s v : State) (ref : CmdRef) (k : Cmd) (m : Msg),
      HznTurn s v ref 0xC1 k ∧
      (v.hzn.rtsHeld.find? fun m => m.peer == fld (leAt k.word 16 3) 0 18 && m.key == at4 k.word 20 && m.domain == v.hzn.domainOf k.ctx) = some m ∧
      m.fmt % 256 = ((v.cxOf k).tref (at2 k.word 10)).fmt ∧ m.extents = ((v.cxOf k).tref (at2 k.word 10)).ext ∧
      m.whole = false)
    ∧ (∃ (s u : State) (i : Instr) (ref : CmdRef) (op : Nat) (k : Cmd),
      (i, op) ∈ [(Instr.send ref, 0xC0), (.recv ref, 0xC1), (.allreduce ref, 0xC2), (.allgather ref, 0xC3), (.rscatter ref, 0xC4), (.ringpass ref, 0xC5)] ∧
      u = s.takeUp ref op ∧ u.issued? ref op = some k ∧ k.skipped = true ∧ u.framesIn k = true)
    ∧ (∃ (s u : State) (i : Instr) (ref : CmdRef) (op : Nat) (k : Cmd),
      (i, op) ∈ [(Instr.send ref, 0xC0), (.recv ref, 0xC1), (.allreduce ref, 0xC2), (.allgather ref, 0xC3), (.rscatter ref, 0xC4), (.ringpass ref, 0xC5)] ∧
      u = s.takeUp ref op ∧ u.issued? ref op = some k ∧ k.skipped = false ∧ u.hzn.domainOf k.ctx = 0 ∧
      (u.cx k.ctx).life = .live) :=
  ⟨⟨horizonal (horizonWord 0xC0 1 0), _, _, .station 1 0 0, _, _, ⟨⟨_, _, rfl, someVal copyCmd _ (by decide +kernel), by decide +kernel, by decide +kernel, by decide +kernel, by decide +kernel, someVal copyCmd _ (by decide +kernel), rfl⟩, by decide +kernel⟩, okGet [] _ (by decide +kernel)⟩,
   ⟨horizonal (horizonWord 0xC1 0 2), _, .station 1 0 0, _, ⟨⟨_, _, rfl, someVal copyCmd _ (by decide +kernel), by decide +kernel, by decide +kernel, by decide +kernel, by decide +kernel, someVal copyCmd _ (by decide +kernel), rfl⟩, by decide +kernel⟩, by decide +kernel⟩,
   ⟨{ horizonal (horizonWord 0xC1 0 2) with hzn := { hzn7 with rtsHeld := [msg77 false none] } }, _, .station 1 0 0, _, msg77 false none, ⟨⟨_, _, rfl, someVal copyCmd _ (by decide +kernel), by decide +kernel, by decide +kernel, by decide +kernel, by decide +kernel, someVal copyCmd _ (by decide +kernel), rfl⟩, by decide +kernel⟩, by decide +kernel⟩,
   ⟨horizonal (wordF 0xC5 2 []), _, .ringpass (.station 1 0 0), .station 1 0 0, 0xC5, _, by decide +kernel, rfl, someVal copyCmd _ (by decide +kernel), by decide +kernel⟩,
   ⟨begins [(2, 0, [horizonWord 0xC0 1 0])] [] vecs, _, .send (.station 1 0 0), .station 1 0 0, 0xC0, _, by decide +kernel, rfl, someVal copyCmd _ (by decide +kernel), by decide +kernel⟩⟩

theorem wit_Collectives :
    (∃ (s v w : State) (i : Instr) (ref : CmdRef) (op : Nat) (k c : Cmd) (co : Coll) (b : List Byte) (r : RecInfo),
      (i, op) ∈ [(Instr.allreduce ref, 0xC2), (.allgather ref, 0xC3), (.rscatter ref, 0xC4), (.ringpass ref, 0xC5)] ∧
      HznTurn s v ref op k ∧
      ((v.cxOf k).collOpen k.word v.hzn.engineId { info := k.infos.headD {} }).exec v = (.ok (co, b, r), w) ∧
      w.hzn.rtsHeld.find? (w.staleRts k co) = none ∧ w.cmd? ref = some c)
    ∧ (∃ (s v w : State) (i : Instr) (ref : CmdRef) (op e : Nat) (k c : Cmd),
      (i, op) ∈ [(Instr.allreduce ref, 0xC2), (.allgather ref, 0xC3), (.rscatter ref, 0xC4), (.ringpass ref, 0xC5)] ∧
      HznTurn s v ref op k ∧
      ((v.cxOf k).collOpen k.word v.hzn.engineId { info := k.infos.headD {} }).exec v = (.error e, w) ∧
      w.cmd? ref = some c ∧ (w.cx c.ctx).life = .live) :=
  ⟨⟨horizonal (groupWord 0xC2), _, _, .allreduce (.station 1 0 0), .station 1 0 0, 0xC2, _, _, _, _, _, by decide +kernel, ⟨⟨_, _, rfl, someVal copyCmd _ (by decide +kernel), by decide +kernel, by decide +kernel, by decide +kernel, by decide +kernel, someVal copyCmd _ (by decide +kernel), rfl⟩, by decide +kernel⟩, okTriple ⟨[], 0, 0, 0⟩ [] {} _ (by decide +kernel), by decide +kernel, someVal copyCmd _ (by decide +kernel)⟩,
   ⟨{ horizonal (groupWord 0xC2) with hzn := { hzn7 with engineId := 6 } }, _, _, .allreduce (.station 1 0 0), .station 1 0 0, 0xC2, 0x0103, _, _, by decide +kernel, ⟨⟨_, _, rfl, someVal copyCmd _ (by decide +kernel), by decide +kernel, by decide +kernel, by decide +kernel, by decide +kernel, someVal copyCmd _ (by decide +kernel), rfl⟩, by decide +kernel⟩, errGet _ _ (by decide +kernel), someVal copyCmd _ (by decide +kernel), by decide +kernel⟩⟩

theorem wit_Rendezvous :
    (∃ (s v : State) (p : Nat) (b : List Byte),
      Accepted s p b 2 1 ∧ v = s.linkTook p b ∧
      ((rtsMsg (parseFr b)).domain = 0 ∨ (∀ e ∈ s.ctxs, e.2.life = .live → s.hzn.domainOf e.1 ≠ (rtsMsg (parseFr b)).domain)))
    ∧ (∃ (s v : State) (p : Nat) (b : List Byte),
      Accepted s p b 2 1 ∧ v = s.linkTook p b ∧ (rtsMsg (parseFr b)).domain ≠ 0 ∧
      (∃ e ∈ s.ctxs, e.2.life = .live ∧ s.hzn.domainOf e.1 = (rtsMsg (parseFr b)).domain) ∧
      v.recvFor (rtsMsg (parseFr b)) = none ∧ v.collFor (rtsMsg (parseFr b)) = none ∧
      v.behindFor (rtsMsg (parseFr b)) = none)
    ∧ (∃ (s v : State) (p : Nat) (b : List Byte) (k : Cmd),
      Accepted s p b 2 1 ∧ v = s.linkTook p b ∧ (rtsMsg (parseFr b)).domain ≠ 0 ∧
      (∃ e ∈ s.ctxs, e.2.life = .live ∧ s.hzn.domainOf e.1 = (rtsMsg (parseFr b)).domain) ∧
      v.recvFor (rtsMsg (parseFr b)) = some k ∧
      (rtsMsg (parseFr b)).fmt % 256 = ((v.cxOf k).tref (at2 k.word 10)).fmt ∧
      (rtsMsg (parseFr b)).extents = ((v.cxOf k).tref (at2 k.word 10)).ext ∧ 0 < (rtsMsg (parseFr b)).length)
    ∧ (∃ (s v : State) (p : Nat) (b : List Byte) (m : Msg),
      Accepted s p b 2 2 ∧ v = s.linkTook p b ∧ v.msg? true (parseFr b).src (parseFr b).msg = some m ∧ m.cts = false)
    ∧ (∃ (s v : State) (p : Nat) (b : List Byte) (m : Msg) (r : CmdRef) (k : Cmd),
      Accepted s p b 2 3 ∧ v = s.linkTook p b ∧ v.msg? true (parseFr b).src (parseFr b).msg = some m ∧
      m.cmd = some r ∧ s.cmd? r = some k ∧ (s.cx k.ctx).life = .live)
    ∧ (∃ (s v : State) (p : Nat) (b : List Byte) (m : Msg),
      Accepted s p b 2 9 ∧ v = s.linkTook p b ∧ v.msg? true (parseFr b).src (parseFr b).msg = some m)
    ∧ (∃ (s : State) (n t0 : Nat) (m : Msg),
      (s.hzn.msgs.find? fun m => m.sending && m.num == n) = some m ∧ m.busyAt = some t0)
    ∧ (∃ (s : State) (p : Nat) (b : List Byte) (i : Nat),
      Accepted s p b 2 8 ∧ s.fenceSlot (at4 (parseFr b).payload 0) = some i ∧ (s.fe i).life = .live ∧
      s.hzn.domainOf (s.fe i).owner = (parseFr b).domain ∧ (parseFr b).domain ≠ 0 ∧ (s.fe i).remote = true ∧
      (parseFr b).src &&& (s.fe i).mask = (s.fe i).base &&& (s.fe i).mask) :=
  ⟨⟨link 2, _, 0, frameFrom 2 1 rtsBytes |>.bytes, acceptedOf _ _ _ _ _ (by decide +kernel), rfl, .inl (by decide +kernel)⟩,
   ⟨{ atWork (horizonWord 0xC0 1 0) with cmds := [] }, _, 0, frame77 2 1 rtsBytes, acceptedOf _ _ _ _ _ (by decide +kernel), rfl, by decide +kernel⟩,
   ⟨atWork (horizonWord 0xC1 0 2), _, 0, frame77 2 1 rtsBytes, workCmd (horizonWord 0xC1 0 2), acceptedOf _ _ _ _ _ (by decide +kernel), rfl, by decide +kernel⟩,
   ⟨withMsg (horizonWord 0xC0 1 0) (msg77 true (some (.station 1 0 0))), _, 0, frame77 2 2, msg77 true (some (.station 1 0 0)), acceptedOf _ _ _ _ _ (by decide +kernel), rfl, by decide +kernel⟩,
   ⟨withMsg (horizonWord 0xC0 1 0) (msg77 true (some (.station 1 0 0))), _, 0, frame77 2 3 (leBytes 2 0x0202), msg77 true (some (.station 1 0 0)), .station 1 0 0, workCmd (horizonWord 0xC0 1 0), acceptedOf _ _ _ _ _ (by decide +kernel), rfl, by decide +kernel⟩,
   ⟨withMsg (horizonWord 0xC0 1 0) (msg77 true (some (.station 1 0 0))), _, 0, frame77 2 9, msg77 true (some (.station 1 0 0)), acceptedOf _ _ _ _ _ (by decide +kernel), rfl, by decide +kernel⟩,
   ⟨withMsg (horizonWord 0xC0 1 0) { msg77 true (some (.station 1 0 0)) with busyAt := some 5 }, 3, 5, { msg77 true (some (.station 1 0 0)) with busyAt := some 5 }, by decide +kernel⟩,
   ⟨{ atWork (horizonWord 0xC0 1 0) with fences := [(0, { life := .live, value := 5, owner := 1, owned := true, remote := true, base := 9, mask := 0x3FFFF })] }, 0, ({ frameFrom 2 8 (leBytes 4 0x10000 ++ leBytes 4 0 ++ leBytes 8 6) with domain := 7 } : Fr).bytes, 0, acceptedOf _ _ _ _ _ (by decide +kernel), by decide +kernel⟩⟩

theorem wit_MessageData :
    (∃ (s v : State) (p : Nat) (b : List Byte) (m n : Msg),
      Accepted s p b 1 0 ∧ v = s.linkTook p b ∧ v.msg? false (parseFr b).src (parseFr b).msg = some m ∧
      n = { m with lines := overlayAt (m.lines ++ List.replicate (64 * m.length - m.lines.length) 0) (64 * (parseFr b).offset) ((parseFr b).payload.take (64 * min (parseFr b).len (m.length - (parseFr b).offset))), got := (m.got ++ tab (min (parseFr b).len (m.length - (parseFr b).offset)) fun i => (parseFr b).offset + i).dedup } ∧
      (n.whole = false ∨ m.whole = true))
    ∧ (∃ (s v : State) (p : Nat) (b : List Byte) (m : Msg),
      Accepted s p b 2 4 ∧ v = s.linkTook p b ∧ v.msg? true (parseFr b).src (parseFr b).msg = some m)
    ∧ (∃ (s : State) (n g t0 : Nat) (m : Msg),
      (s.hzn.msgs.find? fun m => m.sending && m.num == n) = some m ∧ m.cts = true ∧ m.complete = false ∧
      (m.sent.find? fun e => e.1 == g) = some (g, t0) ∧ g ∉ m.acked)
    ∧ (∃ (s v : State) (p : Nat) (b : List Byte) (m : Msg) (r : CmdRef) (k : Cmd),
      Accepted s p b 2 5 ∧ v = s.linkTook p b ∧ v.msg? true (parseFr b).src (parseFr b).msg = some m ∧
      m.group = false ∧ m.cmd = some r ∧ s.cmd? r = some k)
    ∧ (∃ (s v : State) (p : Nat) (b : List Byte) (m : Msg),
      Accepted s p b 2 5 ∧ v = s.linkTook p b ∧ v.msg? true (parseFr b).src (parseFr b).msg = some m ∧
      m.group = true ∧ (∀ r, m.cmd = some r → s.cmd? r = none))
    ∧ (∃ (s : State) (p : Nat) (b : List Byte) (m : Msg) (r : CmdRef) (k : Cmd),
      Accepted s p b 2 6 ∧
      (s.hzn.msgs.filter fun m => m.peer == (parseFr b).src && m.num == (parseFr b).msg && m.key == (parseFr b).key && !m.group) = [m] ∧
      m.cmd = some r ∧ s.cmd? r = some k ∧ (s.cx k.ctx).life = .live)
    ∧ (∃ (s v : State) (p : Nat) (b : List Byte) (k : Cmd),
      Accepted s p b 2 7 ∧ v = s.linkTook p b ∧
      (v.hznCmds.find? fun k => decide (0xC2 ≤ cOp k.word) && v.hzn.domainOf k.ctx == (parseFr b).domain && v.collKey k == (parseFr b).key) = some k ∧
      s.cmd? k.ref = some k ∧ (s.cx k.ctx).life = .live)
    ∧ (∃ (s : State) (ref : CmdRef) (k : Cmd),
      s.cmd? ref = some k ∧ cOp k.word / 32 = 6 ∧ k.phase = .executing ∧ (s.cx k.ctx).life = .live) :=
  ⟨⟨withMsg (horizonWord 0xC1 0 2) { msg77 false (some (.station 1 0 0)) with length := 2 }, _, 0, ({ frameFrom 1 0 (List.replicate 64 3) with vc := 0, len := 1, domain := 7, msg := 3, key := 77 } : Fr).bytes, { msg77 false (some (.station 1 0 0)) with length := 2 }, _, acceptedOf _ _ _ _ _ (by decide +kernel), rfl, by decide +kernel, rfl, .inl (by decide +kernel)⟩,
   ⟨withMsg (horizonWord 0xC0 1 0) (msg77 true (some (.station 1 0 0))), _, 0, frame77 2 4, msg77 true (some (.station 1 0 0)), acceptedOf _ _ _ _ _ (by decide +kernel), rfl, by decide +kernel⟩,
   ⟨withMsg (horizonWord 0xC0 1 0) { msg77 true (some (.station 1 0 0)) with cts := true, sent := [(0, 5)] }, 3, 0, 5, { msg77 true (some (.station 1 0 0)) with cts := true, sent := [(0, 5)] }, by decide +kernel⟩,
   ⟨withMsg (horizonWord 0xC0 1 0) (msg77 true (some (.station 1 0 0))), _, 0, frame77 2 5, msg77 true (some (.station 1 0 0)), .station 1 0 0, workCmd (horizonWord 0xC0 1 0), acceptedOf _ _ _ _ _ (by decide +kernel), rfl, by decide +kernel⟩,
   ⟨withMsg (horizonWord 0xC0 1 0) { msg77 true none with group := true }, _, 0, frame77 2 5, { msg77 true none with group := true }, acceptedOf _ _ _ _ _ (by decide +kernel), rfl, by decide +kernel, by decide +kernel, nofun⟩,
   ⟨withMsg (horizonWord 0xC0 1 0) (msg77 true (some (.station 1 0 0))), 0, frame77 2 6, msg77 true (some (.station 1 0 0)), .station 1 0 0, workCmd (horizonWord 0xC0 1 0), acceptedOf _ _ _ _ _ (by decide +kernel), by decide +kernel⟩,
   ⟨atWork (groupWord 0xC2), _, 0, ({ frameFrom 2 7 with domain := 7, msg := 3, key := (atWork (groupWord 0xC2)).collKey (workCmd (groupWord 0xC2)) } : Fr).bytes, workCmd (groupWord 0xC2), acceptedOf _ _ _ _ _ (by decide +kernel), rfl, by decide +kernel⟩,
   ⟨atWork (horizonWord 0xC0 1 0), .station 1 0 0, workCmd (horizonWord 0xC0 1 0), by decide +kernel⟩⟩

theorem wit_ServiceControl :
    (∃ (s : State) (v : Nat) (b : List Byte) (ps : List Nat),
      1 ≤ v ∧ v ≤ 12 ∧ s.ready = true ∧ (s.svc v).st ≠ 1 ∧ (s.svc v).st ≠ 2 ∧
      b = s.hostMem.rdN (fld (s.svc v).image.toNat 12 52 * 4096) (s.svc v).len ∧
      serviceImageOk b (s.svc v).memLog2 = true ∧
      (∀ e ∈ s.svcs, e.1 ≠ v → 1 ≤ e.1 → e.2.st = 2 → e.2.cores &&& (s.svc v).cores = 0) ∧
      s.takePages s.trainedStacks (2 ^ (s.svc v).memLog2 / 2) 0 [] = some ps)
    ∧ (∃ (s : State) (v : Nat),
      1 ≤ v ∧ v ≤ 12 ∧ s.ready = true ∧ (s.svc v).st ≠ 1 ∧ (s.svc v).st ≠ 2 ∧
      serviceImageOk (s.hostMem.rdN (fld (s.svc v).image.toNat 12 52 * 4096) (s.svc v).len) (s.svc v).memLog2 = false)
    ∧ (∃ (s : State) (v : Nat),
      1 ≤ v ∧ v ≤ 12 ∧ s.ready = true ∧ s.svcBound v = false)
    ∧ (∃ (s : State) (v t0 : Nat),
      1 ≤ v ∧ v ≤ 12 ∧ s.ready = true ∧ (s.svc v).st = 2 ∧
      (((s.svc v).recent.filter fun r => decide (max s.time.now t0 < r + 1000000000)).length ≤ 2))
    ∧ (∃ (s : State) (v t0 : Nat),
      1 ≤ v ∧ v ≤ 12 ∧ s.ready = true ∧ (s.svc v).st = 2 ∧
      (3 ≤ ((s.svc v).recent.filter fun r => decide (max s.time.now t0 < r + 1000000000)).length)) :=
  ⟨⟨loading, 12, _, _, by decide +kernel, by decide +kernel, by decide +kernel, by decide +kernel, by decide +kernel, rfl, by decide +kernel, by decide +kernel, someVal [] _ (by decide +kernel)⟩,
   ⟨rdy, 12, by decide +kernel⟩,
   ⟨rdy, 1, by decide +kernel⟩,
   ⟨{ rdy with svcs := [(1, { st := 2 })] }, 1, 0, by decide +kernel⟩,
   ⟨{ rdy with svcs := [(1, { st := 2, recent := [0, 0, 0] })] }, 1, 0, by decide +kernel⟩⟩

theorem wit_ServiceCalls :
    (∃ (s : State) (v e : Nat) (l : List Nat),
      1 ≤ v ∧ v ≤ 12 ∧ s.running v = true ∧ ((s.svc v).ring.keysWhere fun _ q => q.st == 1) = e :: l)
    ∧ (∃ (s : State) (v : Nat),
      1 ≤ v ∧ v ≤ 12 ∧ s.running v = true ∧ ((s.svc v).ring.keysWhere fun _ q => q.st == 1) = [])
    ∧ (∃ (s : State) (v e id n : Nat) (w : List Byte),
      1 ≤ v ∧ v ≤ 12 ∧ s.running v = true ∧
      (64 ≤ e ∨ ((s.svc v).ring.get {} e).id ≠ id ∨ (((s.svc v).ring.get {} e).st ≠ 2 ∧ ((s.svc v).ring.get {} e).st ≠ 3)))
    ∧ (∃ (s : State) (v e id n : Nat) (w : List Byte),
      1 ≤ v ∧ v ≤ 12 ∧ s.running v = true ∧ e < 64 ∧ ((s.svc v).ring.get {} e).id = id ∧
      ((s.svc v).ring.get {} e).st = 3)
    ∧ (∃ (s a u : State) (v e id n : Nat) (w : List Byte) (r : CmdRef) (k : Cmd) (p : Made),
      1 ≤ v ∧ v ≤ 12 ∧ s.running v = true ∧ e < 64 ∧ ((s.svc v).ring.get {} e).id = id ∧
      ((s.svc v).ring.get {} e).st = 2 ∧ n ≤ ((s.svc v).ring.get {} e).outLen ∧
      ((s.svc v).ring.get {} e).ref = some r ∧ s.cmd? r = some k ∧
      a = (s.updSvc v fun x => { x with ring := x.ring.del e }) ∧
      ((a.cxOf k).putOutput (at2 k.word 10) (w.take n ++ List.replicate (((s.svc v).ring.get {} e).outLen - (w.take n).length) 0)).exec a = (.ok p, u))
    ∧ (∃ (s : State) (v e id n : Nat) (w : List Byte) (r : CmdRef) (k : Cmd),
      1 ≤ v ∧ v ≤ 12 ∧ s.running v = true ∧ e < 64 ∧ ((s.svc v).ring.get {} e).id = id ∧
      ((s.svc v).ring.get {} e).st = 2 ∧ ((s.svc v).ring.get {} e).outLen < n ∧
      ((s.svc v).ring.get {} e).ref = some r ∧ s.cmd? r = some k ∧ (s.cx k.ctx).life = .live)
    ∧ (∃ (s : State) (v : Nat),
      1 ≤ v ∧ v ≤ 12 ∧ s.running v = true)
    ∧ (∃ (s : State) (v : Nat) (b : List Byte),
      1 ≤ v ∧ v ≤ 12 ∧ s.running v = true)
    ∧ (∃ (s : State) (v : Nat),
      1 ≤ v ∧ v ≤ 12 ∧ s.running v = true) :=
  ⟨⟨{ rdy with svcs := [(1, { st := 2, ring := [(63, { st := 1 })] })] }, 1, 63, [], by decide +kernel⟩,
   ⟨{ rdy with svcs := [(12, { st := 2 })] }, 12, by decide +kernel⟩,
   ⟨{ rdy with svcs := [(1, { st := 2 })] }, 1, 64, 0, 0, [], by decide +kernel⟩,
   ⟨{ rdy with svcs := [(1, { st := 2, ring := [(63, { id := 7, st := 3 })] })] }, 1, 63, 7, 0, [], by decide +kernel⟩,
   ⟨called { id := 7, st := 2, outLen := 4, ref := some (.station 1 0 0) }, _, _, 1, 0, 7, 4, [1, 2, 3, 4], .station 1 0 0, callCmd 0xE4 [], _, by decide +kernel, by decide +kernel, by decide +kernel, by decide +kernel, by decide +kernel, by decide +kernel, by decide +kernel, by decide +kernel, by decide +kernel, rfl, okGet {} _ (by decide +kernel)⟩,
   ⟨called { id := 7, st := 2, outLen := 3, ref := some (.station 1 0 0) }, 1, 0, 7, 4, [], .station 1 0 0, callCmd 0xE4 [], by decide +kernel⟩,
   ⟨{ rdy with svcs := [(12, { st := 2 })] }, 12, by decide +kernel⟩,
   ⟨{ rdy with svcs := [(12, { st := 2 })] }, 12, [], by decide +kernel⟩,
   ⟨{ rdy with svcs := [(12, { st := 2 })] }, 12, by decide +kernel⟩⟩

theorem wit_FabricCalls :
    (∃ (s u w : State) (ref : CmdRef) (k : Cmd) (e : Nat) (b : List Byte),
      Turn s u ref 0xE4 k ∧ u.framesIn k = true ∧ u.svcAdmits (at2 k.word 12) k.ctx = true ∧
      ((List.range 64).find? fun e => ((u.svc (at2 k.word 12)).ring.get {} e).st == 0) = some e ∧
      ((u.cxOf k).callInput (at2 k.word 8)).exec u = (.ok b, w))
    ∧ (∃ (s u : State) (ref : CmdRef) (k : Cmd),
      Turn s u ref 0xE4 k ∧ u.framesIn k = true ∧ u.svcAdmits (at2 k.word 12) k.ctx = false ∧
      (u.cx k.ctx).life = .live)
    ∧ (∃ (s u w : State) (h st n p : Nat) (k : Cmd) (x b : List Byte),
      Turn s u (.station h st n) 0xE3 k ∧ u.framesIn k = true ∧ u.callPart k = some p ∧ u.loadNames p = false ∧
      (u.xp p).softIds.contains ((u.sec h).bind (at2 k.word 12)) = true ∧ (u.xp p).st = 3 ∧
      (u.xp p).clamped = false ∧ (u.xp p).call = none ∧
      (∀ r, (u.xp p).waiting.head? = some r → r = .station h st n) ∧
      ((u.cxOf k).callBeats k (u.xp p).nextId ((u.sec h).bind (at2 k.word 12))).exec u = (.ok (x, b), w))
    ∧ (∃ (s u : State) (h st n p : Nat) (k : Cmd) (c : XCall),
      Turn s u (.station h st n) 0xE3 k ∧ u.framesIn k = true ∧ u.callPart k = some p ∧ u.loadNames p = false ∧
      (u.xp p).softIds.contains ((u.sec h).bind (at2 k.word 12)) = true ∧ (u.xp p).st = 3 ∧
      (u.xp p).clamped = false ∧ (u.xp p).call = some c)
    ∧ (∃ (s u : State) (h st n : Nat) (k : Cmd),
      Turn s u (.station h st n) 0xE3 k ∧ u.framesIn k = true ∧ (u.cx k.ctx).life = .live ∧
      (u.callPart k = none ∨ ∃ p, u.callPart k = some p ∧ u.loadNames p = false ∧ (u.xp p).st ≠ 2 ∧ (u.xp p).softIds.contains ((u.sec h).bind (at2 k.word 12)) = false))
    ∧ (∃ (s u : State) (i : Instr) (ref : CmdRef) (op : Nat) (k : Cmd),
      (i, op) ∈ [(Instr.coreCall ref, 0xE4), (.softCall ref, 0xE3)] ∧ u = s.takeUp ref op ∧
      u.issued? ref op = some k ∧ k.skipped = true ∧ u.framesIn k = true)
    ∧ (∃ (s : State) (ref : CmdRef) (k : Cmd),
      s.cmd? ref = some k ∧ (cOp k.word = 0xE4 ∨ (cOp k.word = 0xE3 ∧ k.phase = .issued)) ∧
      (k.phase = .issued ∨ k.phase = .executing) ∧ k.skipped = false ∧ (s.cx k.ctx).life = .live) :=
  ⟨⟨{ begins [(4, 0xFFFF, [callWord 0xE4 7])] [] vecs with svcs := [(7, { st := 2, open0 := 2 })] }, _, _, .station 1 0 0, _, 0, _, ⟨rfl, someVal copyCmd _ (by decide +kernel), by decide +kernel⟩, by decide +kernel, by decide +kernel, by decide +kernel, okGet [] _ (by decide +kernel)⟩,
   ⟨begins [(4, 0xFFFF, [callWord 0xE4 7])] [] vecs, _, .station 1 0 0, _, ⟨rfl, someVal copyCmd _ (by decide +kernel), by decide +kernel⟩, by decide +kernel⟩,
   ⟨softened { st := 3, clamped := false, softIds := [7] }, _, _, 1, 0, 0, 39, _, _, _, ⟨rfl, someVal copyCmd _ (by decide +kernel), by decide +kernel⟩, by decide +kernel, by decide +kernel, by decide +kernel, by decide +kernel, by decide +kernel, by decide +kernel, by decide +kernel, allOf _ _ (by decide +kernel), okPair [] [] _ (by decide +kernel)⟩,
   ⟨softened { st := 3, clamped := false, softIds := [7], call := some { id := 1, ref := .station 9 0 0 } }, _, 1, 0, 0, 39, _, { id := 1, ref := .station 9 0 0 }, ⟨rfl, someVal copyCmd _ (by decide +kernel), by decide +kernel⟩, by decide +kernel⟩,
   ⟨begins [(3, 0xFFFF, [callWord 0xE3 0])] [] vecs, _, 1, 0, 0, _, ⟨rfl, someVal copyCmd _ (by decide +kernel), by decide +kernel⟩, by decide +kernel, by decide +kernel, .inl (by decide +kernel)⟩,
   ⟨begins [(4, 0xFFFF, [wordF 0xE4 2 []])] [] vecs, _, .coreCall (.station 1 0 0), .station 1 0 0, 0xE4, _, by decide +kernel, rfl, someVal copyCmd _ (by decide +kernel), by decide +kernel⟩,
   ⟨{ copying with cmds := [callCmd 0xE4 []] }, .station 1 0 0, callCmd 0xE4 [], by decide +kernel⟩⟩

theorem wit_Replies :
    (∃ (s : State) (p : Nat) (b : List Byte) (c : XCall) (k : Cmd),
      p < 40 ∧ s.partCall p c k ∧ c.header = false ∧ at1 b 5 = 2 ∧ at4 b 0 = c.id ∧ at2 b 6 = at2 k.acc 6 ∧
      at4 b 28 = (s.callDst k).nFrames ∧ (s.callDst k).nFrames ≠ 0)
    ∧ (∃ (s : State) (p : Nat) (b : List Byte) (c : XCall) (k : Cmd),
      p < 40 ∧ s.partCall p c k ∧ c.header = false ∧ at1 b 5 = 2 ∧ at4 b 0 = c.id ∧ at2 b 6 = at2 k.acc 6 ∧
      at4 b 28 = (s.callDst k).nFrames ∧ (s.callDst k).nFrames = 0)
    ∧ (∃ (s : State) (p kind : Nat) (b : List Byte) (last : Bool) (c : XCall) (k : Cmd),
      p < 40 ∧ s.partCall p c k ∧ (s.cx k.ctx).life = .live ∧
      ((c.header = true ∧ kind = 3) ∨ (c.header = false ∧ (at1 b 5 ≠ 2 ∨ at4 b 0 ≠ c.id) ∧ kind = 2)))
    ∧ (∃ (s u : State) (p : Nat) (b : List Byte) (last : Bool) (c : XCall) (k : Cmd) (ws : List (Loc × Byte)),
      p < 40 ∧ s.partCall p c k ∧ c.header = true ∧
      (s.callDst k).frameFits (readFrame b (s.callDst k)) c.id c.frames = true ∧
      b.length = frameLen (s.callDst k).fmt (s.callDst k).d.tileRows (s.callDst k).d.tileCols (s.callDst k).d.scaled ∧
      last = (c.frames + 1 == (s.callDst k).nFrames) ∧ (s.callDst k).d.space ≠ 3 ∧
      u = (s.updXp p fun x => { x with call := some { c with frames := c.frames + 1 } }) ∧
      (((u.cxOf k).stageFrame (s.callDst k) (readFrame b (s.callDst k)) c.frames).exec u).1 = .ok ws ∧
      (((u.cxOf k).stageFrame (s.callDst k) (readFrame b (s.callDst k)) c.frames).exec u).2.cmds = u.cmds)
    ∧ (∃ (s : State) (p kind : Nat) (b : List Byte) (last : Bool) (c : XCall) (k : Cmd),
      p < 40 ∧ s.partCall p c k ∧ (s.cx k.ctx).life = .live ∧
      ((c.header = false ∧ kind = 2) ∨ (c.header = true ∧ (s.callDst k).frameFits (readFrame b (s.callDst k)) c.id c.frames = false ∧ kind = 3))) :=
  ⟨⟨replying 4 { id := 1, ref := .station 1 0 0 }, 39, replyBeat 1, { id := 1, ref := .station 1 0 0 }, callCmd 0xE3 (List.replicate 64 0), by decide +kernel, ⟨by decide +kernel, by decide +kernel, by decide +kernel⟩, by decide +kernel⟩,
   ⟨replying 0 { id := 1, ref := .station 1 0 0 }, 39, replyBeat 0, { id := 1, ref := .station 1 0 0 }, callCmd 0xE3 (List.replicate 64 0), by decide +kernel, ⟨by decide +kernel, by decide +kernel, by decide +kernel⟩, by decide +kernel⟩,
   ⟨replying 4 { id := 1, ref := .station 1 0 0, header := true }, 39, 3, replyBeat 1, false, { id := 1, ref := .station 1 0 0, header := true }, callCmd 0xE3 (List.replicate 64 0), by decide +kernel, ⟨by decide +kernel, by decide +kernel, by decide +kernel⟩, by decide +kernel, .inl (by decide +kernel)⟩,
   ⟨replying 4 { id := 1, ref := .station 1 0 0, header := true }, _, 39, (SFrame.bytes { oneFrame with run := 1 } 1 32), true, { id := 1, ref := .station 1 0 0, header := true }, callCmd 0xE3 (List.replicate 64 0), _, by decide +kernel, ⟨by decide +kernel, by decide +kernel, by decide +kernel⟩, by decide +kernel, by decide +kernel, by decide +kernel, by decide +kernel, by decide +kernel, rfl, okVal [] _ (by decide +kernel), by decide +kernel⟩,
   ⟨replying 4 { id := 1, ref := .station 1 0 0 }, 39, 2, [], false, { id := 1, ref := .station 1 0 0 }, callCmd 0xE3 (List.replicate 64 0), by decide +kernel, ⟨by decide +kernel, by decide +kernel, by decide +kernel⟩, by decide +kernel, .inl (by decide +kernel)⟩⟩

theorem wit_Crystallizer :
    (∃ (s : State) (e : Nat) (q : Call),
      s.crysCall e 1 = some q ∧ (∀ x ∈ s.sessions, x.1 ≠ q.ctx) ∧ at2 q.input 0 ≤ 0x0100 ∧ 0x0100 ≤ at2 q.input 2 ∧
      s.blockOk q.ctx { block := q.input, number := s.nextSession } = true)
    ∧ (∃ (s : State) (e : Nat) (q : Call),
      s.crysCall e 1 = some q ∧ (∀ x ∈ s.sessions, x.1 ≠ q.ctx) ∧
      (¬(at2 q.input 0 ≤ 0x0100 ∧ 0x0100 ≤ at2 q.input 2)))
    ∧ (∃ (s : State) (e : Nat) (q : Call),
      s.crysCall e 2 = some q)
    ∧ (∃ (s : State) (e : Nat) (q : Call),
      s.crysCall e 3 = some q)
    ∧ (∃ (s u v : State) (c n : Nat) (y : Session),
      c < 256 ∧ s.ready = true ∧ (∃ e ∈ s.sessions, e.1 = c) ∧ (s.sessions.get {} c).running = false ∧
      (s.cx c).life = .live ∧ (s.rg (s.sessions.get {} c).ring).work = .idle ∧
      (takeRequests c).exec s = (.ok (), u) ∧ u.tokenRoom c (u.sessions.get {} c) = (.ok n, v) ∧
      y = (v.sessions.get {} c).batch n ∧ (∀ r ∈ y.reqs, r.row = none))
    ∧ (∃ (s u v w : State) (c n : Nat) (y : Session),
      c < 256 ∧ s.ready = true ∧ (∃ e ∈ s.sessions, e.1 = c) ∧ (s.sessions.get {} c).running = false ∧
      (s.cx c).life = .live ∧ (s.rg (s.sessions.get {} c).ring).work = .idle ∧
      (takeRequests c).exec s = (.ok (), u) ∧ u.tokenRoom c (u.sessions.get {} c) = (.ok n, v) ∧
      y = (v.sessions.get {} c).batch n ∧ (∃ r ∈ y.reqs, r.row.isSome = true) ∧
      (writeBatch c).exec { v with sessions := v.sessions.put c y } = (.ok (), w))
    ∧ (∃ (s u : State) (c : Nat),
      c < 256 ∧ s.ready = true ∧ (s.sessions.get {} c).running = true ∧ (s.cx c).life = .live ∧
      (s.rg (s.sessions.get {} c).ring).work = .idle ∧ (sampleStep c).exec s = (.ok (), u)) :=
  ⟨⟨served [] 1, 0, sessCall 1, by decide +kernel⟩,
   ⟨{ served [] 1 with svcs := [(0, { ring := [(0, { sessCall 1 with input := [] })] })] }, 0, { sessCall 1 with input := [] }, by decide +kernel⟩,
   ⟨served [(1, { block })] 2, 0, sessCall 2, by decide +kernel⟩,
   ⟨served [] 3, 0, sessCall 3, by decide +kernel⟩,
   ⟨served [(1, { block })] 0, _, _, 1, _, _, by decide +kernel, by decide +kernel, ⟨(1, { block }), by decide +kernel, rfl⟩, by decide +kernel, by decide +kernel, by decide +kernel, okUnit _ (by decide +kernel), okGet 0 _ (by decide +kernel), rfl, by decide +kernel⟩,
   ⟨served [(1, { block, reqs := [oneReq none] })] 0, _, _, _, 1, _, _, by decide +kernel, by decide +kernel, ⟨(1, { block, reqs := [oneReq none] }), by decide +kernel, rfl⟩, by decide +kernel, by decide +kernel, by decide +kernel, okUnit _ (by decide +kernel), okGet 0 _ (by decide +kernel), rfl, by decide +kernel, okUnit _ (by decide +kernel)⟩,
   ⟨served [(1, { block, reqs := [oneReq (some 0)], running := true })] 0, _, 1, by decide +kernel, by decide +kernel, by decide +kernel, by decide +kernel, by decide +kernel, okUnit _ (by decide +kernel)⟩⟩

/-! ### Ill-formed commands -/

/-! One ill-formed command for each check of Instr.wf. -/

theorem test_wf_refuses_1 : ([.sdsRefclkLost 3, .hbmRefclkLost 10, .clockTreeStop 80, .partRejoin 40, .clockSwitch 80, .pllLossOfLock 10, .firmwareAssertion 23,
   .panStartAdmission 960 0, .panRampDown 960 0, .stackTraining 20 { height := 12, gbits := 32 } 0 0 true, .watchdogHeartbeat 23 0, .watchdogExpiry 23,
   .configRequest 257 (.read 0), .functionLevelReset 256, .hostReadError (.service 0), .hostReadError (.service 13), .atsInvalidation 256,
   .registerWrite 256 0 0 0 0, .registerWrite 0 1 0 0 0, .negotiate 256] : List Instr).all
    (fun c => !c.wf) = true := by decide +kernel

theorem test_wf_refuses_2 : ([.enable 256, .functionDisable 256, .hifPartCfgWrite 16 0, .hifVfCfgWrite 0 0, .hifVfCfgWrite 256 0, .hostWindowEnable 4096 0,
   .hostWindowDisable 4096, .hostWindowDrained 4096, .hifPartRegionsWrite 16 0, .hifPartRtWrite 16 0, .sluiceWrite 16 .hbm 0,
   .hznDomainWrite 64 0, .serviceLoad 0, .serviceLoad 13, .serviceUnload 0, .serviceUnload 13, .submissionDoorbell 256 0 0,
   .submissionDoorbell 0 1024 0, .adminDoorbell 256 0, .nop 1024] : List Instr).all
    (fun c => !c.wf) = true := by decide +kernel

theorem test_wf_refuses_3 : ([.execBuffer 1024, .launch 1024, .unload 1024, .eventRingFullRecheck 256, .eventRingFullTimeout 256, .functionEventRingRecheck 256,
   .moderationExpiry (.ctx 256), .moderationExpiry (.func 256), .queueAdmission 480 .vector, .multicastReservationGrant 10,
   .panOperationIssue 960, .weightSetLoad 960, .weightSetComplete 960, .preemptWaitExpiry 480 .vector, .parityError 0 10 0 0 0 (.ring 0) true,
   .parityError 15 0 0 0 0 (.ring 0) true, .parityError 0 0 48 0 0 (.ring 0) true, .parityError 0 0 0 2 0 (.ring 0) true,
   .parityError 0 0 0 0 (2 ^ 26) (.ring 0) true, .pageZeroingComplete true 10240 true] : List Instr).all
    (fun c => !c.wf) = true := by decide +kernel

theorem test_wf_refuses_4 : ([.pageZeroingComplete false 15360 true, .subpageZeroingComplete 20 0 true, .subpageZeroingComplete 0 (2 ^ 20) true, .refresh 20,
   .retraining 20 0 true, .retraining 0 64 true, .scrubRead 20 0, .train 36 [], .trainingTimeout 36, .portDown 36, .linkAckTimeout 36,
   .data 36 [], .ack 36 [], .nak 36 [], .retransmitTimeout 36, .ackKeepalive 36, .rts 36 [], .cts 36 [], .refuse 36 [], .busy 36 []] : List Instr).all
    (fun c => !c.wf) = true := by decide +kernel

theorem test_wf_refuses_5 : ([.segDone 36 [], .done 36 [], .abort 36 [], .groupAbort 36 [], .remoteSignal 36 [], .sync 36 [] 0, .follow 36 [], .req 36 [] 0, .resp 36 [],
   .join 40, .joinTimeout 40, .replyHeader 40 [] true, .replyFrame 40 [] true, .unsolicited 40, .svcWait 0, .svcWait 13, .svcDone 0 0 0 0 [],
   .svcDone 13 0 0 0 [], .svcTime 0, .svcTime 13] : List Instr).all
    (fun c => !c.wf) = true := by decide +kernel

theorem test_wf_refuses_6 : ([.svcLog 0 [], .svcLog 13 [], .svcYield 0, .svcYield 13, .serviceProgramEnd 0 0, .serviceProgramEnd 13 0, .servingStep 256,
   .crystallizerSampling 256, .setEndpointId 256, .subpageTaggingComplete 20 0, .subpageTaggingComplete 0 (2 ^ 20), .trainFrameSend 36] : List Instr).all
    (fun c => !c.wf) = true := by decide +kernel


/-! ### Worked examples of the manual -/

/-- An operand with reduction along dimension 0: format, extents, codes and scale exponents. -/
def operand (fmt : Nat) (ext codes : List Nat) (scs : List Int) : Tens := { fmt, ext, codes, scs }

/-- The product of an activation row and a weight column, reduced along dimension 0. -/
def dot (a w : Tens) : MatRes :=
  let p := prepW w 0 false
  matProduct (prepA a 0 false) (fun j => p.piece j) w.fmt 8 fun _ _ => none

/-- I4 weights against I8 activations (04, worked example): accumulator 633 at exponent -4, FP32 0x421E4000. -/
theorem test_i4_i8 :
    (dot (operand fI8 [64, 1] ([0x64, 0xDB, 0x0C] ++ List.replicate 29 0 ++ [0xD0, 0x08] ++ List.replicate 30 0) (List.replicate 32 (-3) ++ List.replicate 32 (-5)))
      (operand fI4 [64, 1] ([3, 8, 5] ++ List.replicate 29 0 ++ [7, 0xD] ++ List.replicate 30 0) (List.replicate 32 (-1) ++ List.replicate 32 (-3)))).accs
      = [(633, -4)] ∧ (drainConv fFP32 none (633, -4)).code = 0x421E4000 := by decide +kernel

/-- E4M3 weights against I8 activations (04, worked example): -797,070 at exponent -9, BF16 0xC4C3. -/
theorem test_e4m3_i8 :
    (dot (operand fI8 [32, 1] ([0xBA, 0x71, 0x5A] ++ List.replicate 29 0) (List.replicate 32 0))
      (operand fE4M3 [32, 1] ([0x5B, 0xA2, 0x05] ++ List.replicate 29 0) (List.replicate 32 0))).accs = [(-797070, -9)]
    ∧ (drainConv fBF16 none (-797070, -9)).code = 0xC4C3 := by decide +kernel

/-- BF16 against BF16, split into pieces (04, worked example): 23,740,416 at exponent -22, FP32 0x40B52000, BF16 0x40B5. -/
theorem test_bf16_bf16 :
    (dot (operand fBF16 [32, 1] ([0x4050, 0xC2C9] ++ List.replicate 30 0) (List.replicate 32 0))
      (operand fBF16 [32, 1] ([0x3FC0, 0xBC00] ++ List.replicate 30 0) (List.replicate 32 0))).accs = [(23740416, -22)]
    ∧ (drainConv fFP32 none (23740416, -22)).code = 0x40B52000 ∧ (drainConv fBF16 none (23740416, -22)).code = 0x40B5 := by decide +kernel

/-- The E5M2 weight block (03, worked example): t = 6, so the scale code is 0x85; element 3 becomes 3 units of 2^-9. -/
theorem test_e5m2_block :
    let p := stageE5M2 (operand fE5M2 [32, 1] ([0x76, 0xBA, 0x35, 0x01] ++ List.replicate 28 0) (List.replicate 32 0)) 0 false
    p.be.take 1 = [-9 + 6] ∧ p.q.take 4 = [12 * 2 ^ 14, -6, 3, 0]
    ∧ ((p.q.take 4).zip [0x76, 0xBA, 0x35, 0x01]).map (fun e => regCode fE5M2 0 e.2 e.1) = [0x7C, 0x86, 0x03, 0x00] := by decide +kernel

/-- The pair result (03, worked example). -/
theorem test_pair : (convertPair 16777217 0).code = 0x4B800001 + 2 ^ 32 * 0xBF800000 := by decide +kernel

/-- Stochastic rounding to I4 (06, after R158): F = 0x70 for 5.4375, and 0x80 for the tie 0.5. -/
theorem test_stochastic :
    [srInt fI4 (87, -4) 0x3A, srInt fI4 (87, -4) 0xC1, srInt fI4 (1, -1) 0x7F, srInt fI4 (1, -1) 0x80].map Conv.code = [6, 5, 1, 0] := by
  decide +kernel

/-- REQUANT to I8 (06, worked example): the last element saturates and is counted. -/
theorem test_requant :
    [37415, -12289, 100000].map (fun x => requantElem fI8 x 19661 23 none) = [{ code := 88 }, { code := 0xE3 }, { code := 127, sat := true }] := by
  decide +kernel

/-- Lines 4 KiB apart lie in different banks (05, worked example). -/
theorem test_banks : ((List.range 32).map fun i => cmBank (BitVec.ofNat 21 (4096 * i))).Nodup := by decide +kernel

/-! ### Single steps -/

/-- R49: PORST_N low puts the block into its power-on state, with the pin low. -/
theorem test_porst : (match exec .porstNAssert rdy with | .next t => (t.pins.porstN, t.ready) | _ => (true, true)) = (false, false) := by decide +kernel

/-- A command at the front of the queue runs, and the queue's rest stays. -/
theorem test_step_takes_the_front :
    (match step { rdy with pending := [.portDown 36, .getStatus] } with | .fault (.noSuchUnit _) => true | _ => false) = true
    ∧ (match step { rdy with pending := [.getStatus, .logStatus] } with | .next t => t.pending == [.logStatus] | _ => false) = true := by decide +kernel

/-- On an empty queue the time base counts one nanosecond (log entry 7). -/
theorem test_step_ticks : step rdy = .next { rdy with time := { rdy.time with now := 1 } } := rfl

/-- R440: a LUT that is the exclusive or of A and B, loaded into FA on an enabled edge. -/
theorem test_cell :
    let c : CellCfg := { lut := 0x6666666666666666 }
    c.edge c.init 1 false true false = (true, true) ∧ c.edge (true, true) 3 false true false = (false, false) := by decide +kernel

/-- R441: a word written by P is stored, and an address past the depth reads as 0. -/
theorem test_ram :
    ramNext false false (fun _ => false) (fun _ => false) { width := 32, addr := 2, write := some (0x80000001, 15) } { width := 32, addr := 3 } 64 = true
    ∧ ramRead false false false (fun _ => false) (fun _ => true) { width := 32, addr := 1152 } { width := 32, addr := 0 } = 0 := by decide +kernel

end Sys2Proof.Tests
end

section
/-! FUSED UNITS STAY ABSENT (O5). What one step of the machine can do, said once for all commands; from it, that no command changes
the build of the part. -/

namespace Sys2Proof.Machine

/-- Whether a command, whatever its operands, leaves a lost device lost and each first-failure record in place (R509, R530): a
reset and CLEAR_FF do not, nor does a register write, which may stand for either. -/
def keepsRecords : Instr → Bool
  | .porstNAssert | .engineResetRequest _ _ | .registerWrite _ _ _ _ _ | .clearFf => false
  | _ => true

/-- Every command's next state follows the state before it: the law of its own operation, command by command. -/
theorem exec_evolves : ∀ (i : Instr) (s : State), EvolvesOut (keepsRecords i) Area.all s (exec i s)
  | .porstNAssert, _ => execPorstNAssert_ev rfl
  | .porstNRelease _ _, _ => execPorstNRelease_ev rfl
  | .railOutOfRange _, _ => execRailOutOfRange_ev rfl
  | .timerefLost, _ => execTimerefLost_ev rfl
  | .timerefReturn, _ => execTimerefReturn_ev rfl
  | .timeDegradedClear, _ => execTimeDegradedClear_ev rfl
  | .sdsRefclkLost _, _ => execSdsRefclkLost_ev rfl
  | .hbmRefclkLost _, _ => execHbmRefclkLost_ev rfl
  | .clockTreeStop _, _ => execClockTreeStop_ev rfl
  | .partRejoin _, _ => execPartRejoin_ev rfl
  | .clockSwitch _, _ => execClockSwitch_ev rfl
  | .pllLossOfLock _, _ => execPllLossOfLock_ev rfl
  | .dieToDieLinkFailure _, _ => execDieToDieLinkFailure_ev rfl
  | .thermalWarnCrossing _ _, _ => execThermalWarnCrossing_ev rfl
  | .hardwareThrottle _ _, _ => execHardwareThrottle_ev rfl
  | .throttleRelease _ _, _ => execThrottleRelease_ev rfl
  | .thermalShutdown _ _, _ => execThermalShutdown_ev rfl
  | .governorTrip _, _ => execGovernorTrip_ev rfl
  | .firmwareAssertion _, _ => execFirmwareAssertion_ev rfl
  | .railSensorRead _ _ _, _ => execRailSensorRead_ev rfl
  | .paceCheck _ _, _ => execPaceCheck_ev rfl
  | .pointChange _ _, _ => execPointChange_ev rfl
  | .pointChangeSettled _, _ => execPointChangeSettled_ev rfl
  | .pointChangeTimeout _, _ => execPointChangeTimeout_ev rfl
  | .powerWindowEnd _, _ => execPowerWindowEnd_ev rfl
  | .powerProjection _ _ _, _ => execPowerProjection_ev rfl
  | .panStartAdmission _ _, _ => execPanStartAdmission_ev rfl
  | .panRampDown _ _, _ => execPanRampDown_ev rfl
  | .tapInstruction _, _ => execTapInstruction_ev rfl
  | .managementStage _ _ _, _ => execManagementStage_ev rfl
  | .stackTraining _ _ _ _ _, _ => execStackTraining_ev rfl
  | .memoryReady, _ => execMemoryReady_ev rfl
  | .bootImageWaitExpiry, _ => execBootImageWaitExpiry_ev rfl
  | .firmwareStart, _ => execFirmwareStart_ev rfl
  | .bootReady, _ => execBootReady_ev rfl
  | .engineResetRequest _ _, _ => execEngineResetRequest_ev rfl
  | .engineResetHoldEnd _ _, _ => execEngineResetHoldEnd_ev rfl
  | .watchdogHeartbeat _ _, _ => execWatchdogHeartbeat_ev rfl
  | .watchdogExpiry _, _ => execWatchdogExpiry_ev rfl
  | .configRequest _ _, _ => execConfigRequest_ev rfl
  | .functionLevelReset _, _ => execFunctionLevelReset_ev rfl
  | .hotReset, _ => execHotReset_ev rfl
  | .link0Down, _ => execLink0Down_ev rfl
  | .link1Down, _ => execLink1Down_ev rfl
  | .link1Up, _ => execLink1Up_ev rfl
  | .hostReadError _, _ => execHostReadError_ev rfl
  | .atsInvalidation _, _ => execAtsInvalidation_ev rfl
  | .registerWrite _ _ _ _ _, _ => execRegisterWrite_ev rfl
  | .negotiate _, _ => execNegotiate_ev rfl
  | .enable _, _ => execEnable_ev rfl
  | .functionDisable _, _ => execFunctionDisable_ev rfl
  | .hifPartCfgWrite _ _, _ => execHifPartCfgWrite_ev rfl
  | .hifVfCfgWrite _ _, _ => execHifVfCfgWrite_ev rfl
  | .hostWindowEnable _ _, _ => execHostWindowEnable_ev rfl
  | .hostWindowDisable _, _ => execHostWindowDisable_ev rfl
  | .hostWindowDrained _, _ => execHostWindowDrained_ev rfl
  | .hifPartRegionsWrite _ _, _ => execHifPartRegionsWrite_ev rfl
  | .hifPartRtWrite _ _, _ => execHifPartRtWrite_ev rfl
  | .sluiceWrite _ _ _, _ => execSluiceWrite_ev rfl
  | .horizonEnable _, _ => execHorizonEnable_ev rfl
  | .horizonDisable, _ => execHorizonDisable_ev rfl
  | .hznDomainWrite _ _, _ => execHznDomainWrite_ev rfl
  | .serviceLoad _, _ => execServiceLoad_ev rfl
  | .serviceUnload _, _ => execServiceUnload_ev rfl
  | .cfgLoadStart, _ => execCfgLoadStart_ev rfl
  | .cfgLoadAbort, _ => execCfgLoadAbort_ev rfl
  | .mgtPwrLimitWrite _, _ => execMgtPwrLimitWrite_ev rfl
  | .clearFf, _ => execClearFf_ev rfl
  | .telemetryEnable _, _ => execTelemetryEnable_ev rfl
  | .submissionDoorbell _ _ _, _ => execSubmissionDoorbell_ev rfl
  | .adminDoorbell _ _, _ => execAdminDoorbell_ev rfl
  | .nop _, _ => execNop_ev rfl
  | .execBuffer _, _ => execExecBuffer_ev rfl
  | .launch _, _ => execLaunch_ev rfl
  | .unload _, _ => execUnload_ev rfl
  | .ctxCreate _, _ => execCtxCreate_ev rfl
  | .ctxDestroy _, _ => execCtxDestroy_ev rfl
  | .ringCreate _, _ => execRingCreate_ev rfl
  | .ringDestroy _, _ => execRingDestroy_ev rfl
  | .fenceCreate _, _ => execFenceCreate_ev rfl
  | .fenceShare _, _ => execFenceShare_ev rfl
  | .fenceRelease _, _ => execFenceRelease_ev rfl
  | .fenceSignal _, _ => execFenceSignal_ev rfl
  | .objCreate _, _ => execObjCreate_ev rfl
  | .objMapHost _, _ => execObjMapHost_ev rfl
  | .objUnmap _, _ => execObjUnmap_ev rfl
  | .objExport _, _ => execObjExport_ev rfl
  | .objImport _, _ => execObjImport_ev rfl
  | .objWithdraw _, _ => execObjWithdraw_ev rfl
  | .eventRingFullRecheck _, _ => execEventRingFullRecheck_ev rfl
  | .eventRingFullTimeout _, _ => execEventRingFullTimeout_ev rfl
  | .functionEventRingRecheck _, _ => execFunctionEventRingRecheck_ev rfl
  | .moderationExpiry _, _ => execModerationExpiry_ev rfl
  | .queueAdmission _ _, _ => execQueueAdmission_ev rfl
  | .matmul _, _ => execMatmul_ev rfl
  | .attend _, _ => execAttend_ev rfl
  | .vop _, _ => execVop_ev rfl
  | .reduce _, _ => execReduce_ev rfl
  | .softmax _, _ => execSoftmax_ev rfl
  | .norm _, _ => execNorm_ev rfl
  | .activate _, _ => execActivate_ev rfl
  | .rope _, _ => execRope_ev rfl
  | .topk _, _ => execTopk_ev rfl
  | .sample _, _ => execSample_ev rfl
  | .stats _, _ => execStats_ev rfl
  | .quant _, _ => execQuant_ev rfl
  | .requant _, _ => execRequant_ev rfl
  | .dequant _, _ => execDequant_ev rfl
  | .mask _, _ => execMask_ev rfl
  | .rndfill _, _ => execRndfill_ev rfl
  | .copy _, _ => execCopy_ev rfl
  | .gather _, _ => execGather_ev rfl
  | .scatter _, _ => execScatter_ev rfl
  | .mcast _, _ => execMcast_ev rfl
  | .multicastReservationGrant _, _ => execMulticastReservationGrant_ev rfl
  | .prefetch _, _ => execPrefetch_ev rfl
  | .saveRes _, _ => execSaveRes_ev rfl
  | .restoreRes _, _ => execRestoreRes_ev rfl
  | .wait _, _ => execWait_ev rfl
  | .signal _, _ => execSignal_ev rfl
  | .event _, _ => execEvent_ev rfl
  | .barrier _, _ => execBarrier_ev rfl
  | .waitTimeoutExpiry _, _ => execWaitTimeoutExpiry_ev rfl
  | .waitCycleScan, _ => execWaitCycleScan_ev rfl
  | .send _, _ => execSend_ev rfl
  | .recv _, _ => execRecv_ev rfl
  | .allreduce _, _ => execAllreduce_ev rfl
  | .allgather _, _ => execAllgather_ev rfl
  | .rscatter _, _ => execRscatter_ev rfl
  | .ringpass _, _ => execRingpass_ev rfl
  | .patch _, _ => execPatch_ev rfl
  | .replay _, _ => execReplay_ev rfl
  | .runStart _, _ => execRunStart_ev rfl
  | .chain _, _ => execChain_ev rfl
  | .softCall _, _ => execSoftCall_ev rfl
  | .coreCall _, _ => execCoreCall_ev rfl
  | .callTimeout _, _ => execCallTimeout_ev rfl
  | .panOperationIssue _, _ => execPanOperationIssue_ev rfl
  | .weightSetLoad _, _ => execWeightSetLoad_ev rfl
  | .weightSetComplete _, _ => execWeightSetComplete_ev rfl
  | .frameEmit _ _, _ => execFrameEmit_ev rfl
  | .routeStallTimeout _, _ => execRouteStallTimeout_ev rfl
  | .commandCommit _, _ => execCommandCommit_ev rfl
  | .streamGroupCommit _, _ => execStreamGroupCommit_ev rfl
  | .preemptWaitExpiry _ _, _ => execPreemptWaitExpiry_ev rfl
  | .killComplete _, _ => execKillComplete_ev rfl
  | .parityError _ _ _ _ _ _ _, _ => execParityError_ev rfl
  | .pageZeroingComplete _ _ _, _ => execPageZeroingComplete_ev rfl
  | .subpageZeroingComplete _ _ _, _ => execSubpageZeroingComplete_ev rfl
  | .translationInvalidationComplete _ _, _ => execTranslationInvalidationComplete_ev rfl
  | .sluiceWindow, _ => execSluiceWindow_ev rfl
  | .refresh _, _ => execRefresh_ev rfl
  | .retraining _ _ _, _ => execRetraining_ev rfl
  | .scrubRead _ _, _ => execScrubRead_ev rfl
  | .train _ _, _ => execTrain_ev rfl
  | .trainingTimeout _, _ => execTrainingTimeout_ev rfl
  | .portDown _, _ => execPortDown_ev rfl
  | .linkAckTimeout _, _ => execLinkAckTimeout_ev rfl
  | .data _ _, _ => execData_ev rfl
  | .ack _ _, _ => execAck_ev rfl
  | .nak _ _, _ => execNak_ev rfl
  | .retransmitTimeout _, _ => execRetransmitTimeout_ev rfl
  | .ackKeepalive _, _ => execAckKeepalive_ev rfl
  | .rts _ _, _ => execRts_ev rfl
  | .cts _ _, _ => execCts_ev rfl
  | .refuse _ _, _ => execRefuse_ev rfl
  | .busy _ _, _ => execBusy_ev rfl
  | .rtsRetry _, _ => execRtsRetry_ev rfl
  | .segDone _ _, _ => execSegDone_ev rfl
  | .segmentTimeout _ _, _ => execSegmentTimeout_ev rfl
  | .done _ _, _ => execDone_ev rfl
  | .abort _ _, _ => execAbort_ev rfl
  | .groupAbort _ _, _ => execGroupAbort_ev rfl
  | .horizonInactivityTimeout _, _ => execHorizonInactivityTimeout_ev rfl
  | .remoteSignal _ _, _ => execRemoteSignal_ev rfl
  | .remoteSignalDrop, _ => execRemoteSignalDrop_ev rfl
  | .timeSyncWindow, _ => execTimeSyncWindow_ev rfl
  | .sync _ _ _, _ => execSync_ev rfl
  | .follow _ _, _ => execFollow_ev rfl
  | .req _ _ _, _ => execReq_ev rfl
  | .resp _ _, _ => execResp_ev rfl
  | .timeSyncFault, _ => execTimeSyncFault_ev rfl
  | .load _, _ => execLoad_ev rfl
  | .readback _, _ => execReadback_ev rfl
  | .endWord _, _ => execEndWord_ev rfl
  | .chainForward _, _ => execChainForward_ev rfl
  | .subImageHeader _, _ => execSubImageHeader_ev rfl
  | .subImageReceived _, _ => execSubImageReceived_ev rfl
  | .loadCommit _, _ => execLoadCommit_ev rfl
  | .applyComplete, _ => execApplyComplete_ev rfl
  | .join _, _ => execJoin_ev rfl
  | .joinTimeout _, _ => execJoinTimeout_ev rfl
  | .replyHeader _ _ _, _ => execReplyHeader_ev rfl
  | .replyFrame _ _ _, _ => execReplyFrame_ev rfl
  | .unsolicited _, _ => execUnsolicited_ev rfl
  | .svcWait _, _ => execSvcWait_ev rfl
  | .svcDone _ _ _ _ _, _ => execSvcDone_ev rfl
  | .svcTime _, _ => execSvcTime_ev rfl
  | .svcLog _ _, _ => execSvcLog_ev rfl
  | .svcYield _, _ => execSvcYield_ev rfl
  | .serviceProgramEnd _ _, _ => execServiceProgramEnd_ev rfl
  | .crysOpen _, _ => execCrysOpen_ev rfl
  | .crysClose _, _ => execCrysClose_ev rfl
  | .crysStatus _, _ => execCrysStatus_ev rfl
  | .servingStep _, _ => execServingStep_ev rfl
  | .crystallizerSampling _, _ => execCrystallizerSampling_ev rfl
  | .setEndpointId _, _ => execSetEndpointId_ev rfl
  | .getEndpointId, _ => execGetEndpointId_ev rfl
  | .getMctpVersionSupport, _ => execGetMctpVersionSupport_ev rfl
  | .getMessageTypeSupport, _ => execGetMessageTypeSupport_ev rfl
  | .getStatus, _ => execGetStatus_ev rfl
  | .readSensors _ _ _, _ => execReadSensors_ev rfl
  | .readCt _ _, _ => execReadCt_ev rfl
  | .setPwrLimit _, _ => execSetPwrLimit_ev rfl
  | .readLog _ _, _ => execReadLog_ev rfl
  | .logStatus, _ => execLogStatus_ev rfl
  | .logWrite, _ => execLogWrite_ev rfl
  | .coalescingWindowEnd, _ => execCoalescingWindowEnd_ev rfl
  | .telemetrySample, _ => execTelemetrySample_ev rfl
  | .subpageTaggingComplete _ _, _ => execSubpageTaggingComplete_ev rfl
  | .saveResTimeout _, _ => execSaveResTimeout_ev rfl
  | .trainFrameSend _, _ => execTrainFrameSend_ev rfl
  | .warnRelease _ _, _ => execWarnRelease_ev rfl
  | .invalidCommandWord _, _ => execInvalidCommandWord_ev rfl

/-! ### Units stay as the fuses have them -/

section Presence

variable {s t : State} (h : s.part.Blown t.part)
include h

theorem PartFuses.Blown.clPresent_eq (c : Nat) : t.clPresent c = s.clPresent c := by
  obtain ⟨_, _, hbuild⟩ := h.build
  simp only [State.clPresent, hbuild]

theorem PartFuses.Blown.corePresent_eq (g : Nat) : t.corePresent g = s.corePresent g := by
  obtain ⟨_, _, hbuild⟩ := h.build
  simp only [State.corePresent, h.clPresent_eq, hbuild]

theorem PartFuses.Blown.stackFitted_eq (k : Nat) : t.stackFitted k = s.stackFitted k := by
  obtain ⟨_, _, hbuild⟩ := h.build
  simp only [State.stackFitted, h.clPresent_eq, hbuild]

theorem PartFuses.Blown.portPresent_eq (p : Nat) : t.portPresent p = s.portPresent p := by
  obtain ⟨_, _, hbuild⟩ := h.build
  simp only [State.portPresent, hbuild]

theorem PartFuses.Blown.partPresent_eq (p : Nat) : t.partPresent p = s.partPresent p := by
  obtain ⟨_, _, hbuild⟩ := h.build
  simp only [State.partPresent, h.clPresent_eq, hbuild]

end Presence

/-- The grade's masks are outside what a fuse that blows in the field changes (R23). -/
theorem PartFuses.Blown.masks_eq {p q : PartFuses} (h : p.Blown q) :
    q.clusterMask = p.clusterMask ∧ q.coreMask = p.coreMask ∧ q.stackMask = p.stackMask ∧ q.portMask = p.portMask
      ∧ q.regionMask = p.regionMask := by
  obtain ⟨_, _, rfl⟩ := h.build
  exact ⟨rfl, rfl, rfl, rfl, rfl⟩

/-- Settles O5: every command's next state follows the one before it, so that fuses only blow, and what blows in the field is a
key's revocation or the rollback counter (R463, R464), on which no unit's presence depends. -/
theorem fusedUnitsStayAbsent : Obligations.FusedUnitsStayAbsent := by
  intro i s t hstep
  have hblown : s.part.Blown t.part := (exec_evolves i s t hstep).fuses
  obtain ⟨hcluster, hcore, hstack, hport, hregion⟩ := hblown.masks_eq
  exact ⟨hcluster, hcore, hstack, hport, hregion, hblown.clPresent_eq, hblown.corePresent_eq, hblown.stackFitted_eq,
    hblown.portPresent_eq, hblown.partPresent_eq, hblown⟩

end Sys2Proof.Machine
end

section
/-! AN ENGINE RESET EMPTIES EVERY PART (O11). What an admitted request for an engine reset does, and what a part of the extension fabric
is once the reset has begun. -/

namespace Sys2Proof.Machine

/-- The state in which an admitted request begins its hold (R522 steps 1 and 2): the device is lost, the coalesced summaries
are written, and the log's pending records are sealed (R510). -/
def State.lostAndSealed (s : State) : State :=
  let s := (if s.hub.lost then s else s.deviceLoss 9 0 0 (Config.lossCode 9).toNat [0x0802, 0, 9]).flushCoalesced
  s.log.queue.foldl State.seal { s with log := { s.log with queue := [] } }

/-- With neither PORST_N nor THERMTRIP_N asserted and no reset under way, a write of 32 or 64 bits with the key is admitted (R521),
and the reset follows what R522 puts before it. -/
theorem exec_engineResetRequest_admitted {s : State} {w v : Nat} (hporst : s.pins.porstN = true) (hwidth : w = 32 ∨ w = 64)
    (hkey : fld v 0 16 = 0xD9E5) (hcool : s.pins.thermtrip = false) (hasked : s.hub.resetAsked = false) :
    exec (.engineResetRequest w v) s = .next s.lostAndSealed.engineReset := by
  have hw : (w != 32 && w != 64) = false := by rcases hwidth with rfl | rfl <;> rfl
  change execEngineResetRequest w v s = _
  simp [execEngineResetRequest, State.lostAndSealed, hporst, hw, hkey, hcool, hasked]

/-- No part keeps anything: an engine reset leaves each as at power-on (R476). -/
@[simp] theorem State.engineReset_xp (s : State) (p : Nat) : s.engineReset.xp p = {} := rfl

/-- Settles O11: an admitted request ends in an engine reset, after which each part is as at power-on, whatever it held. -/
theorem engineResetEmptiesParts : Obligations.EngineResetEmptiesParts := by
  intro s w v hporst hwidth hkey hcool hasked
  refine ⟨_, exec_engineResetRequest_admitted hporst hwidth hkey hcool hasked, fun p => ?_⟩
  rw [State.engineReset_xp]
  exact ⟨rfl, rfl, rfl, rfl⟩

end Sys2Proof.Machine
end

section
/-! WHAT EVERY COMMAND LEAVES AS IT WAS (O1 to O4, O6, O7, O12, O13). The law of each command's own operation, with the areas that the
command may change; from it the invariant, the queue, the host's memory and the frames. -/

namespace Sys2Proof.Machine

/-- The areas outside a list. -/
def Area.outside (l : List Area) : List Area := Area.all.filter fun a => !l.contains a

/-- The areas that a command may change: its footprint where it has one, and all but the untouched ones for the others. -/
def mayTouch (i : Instr) : List Area :=
  match footprint i with
  | some l => l
  | none => Area.outside (untouched i)

/-! What the laws of the commands without a footprint let change lies outside the untouched areas, family by family. -/

theorem Area.fault_subset : Area.subset
      [.pins, .hub, .funcs, .msix, .ctxs, .rings, .pans, .power, .log, .cmds, .replays, .hzn, .xparts, .atsInvals]
      (Area.outside (untouched (.railOutOfRange 0))) = true := by rfl
theorem Area.execution_subset : Area.subset
      [.pins, .hub, .funcs, .msix, .windows, .parts, .ctxs, .trans, .tlb, .fences, .fenceFreed, .fenceLower, .rings, .objs, .hbm, .chip,
      .pans, .units, .clusters, .power, .log, .secs, .cmds, .replays, .hzn, .svcs, .sessions, .xparts, .invals, .atsInvals]
      (Area.outside (untouched (.wait (.station 0 0 0)))) = true := by rfl
theorem Area.managementStage_subset : Area.subset
      [.pins, .time, .hub, .funcs, .msix, .ctxs, .rings, .chip, .pans, .power, .log, .cmds, .replays, .hzn, .xparts, .atsInvals]
      (Area.outside (untouched (.managementStage none [] []))) = true := by rfl
theorem Area.memoryReady_subset : Area.subset
      [.pins, .hub, .funcs, .msix, .ctxs, .rings, .hbm, .pans, .power, .log, .cmds, .replays, .hzn, .xparts, .loader, .atsInvals]
      (Area.outside (untouched (.memoryReady))) = true := by rfl
theorem Area.watchdog_subset : Area.subset
      [.pins, .time, .hub, .funcs, .msix, .ctxs, .rings, .pans, .power, .log, .cmds, .replays, .hzn, .xparts, .atsInvals]
      (Area.outside (untouched (.watchdogExpiry 0))) = true := by rfl
theorem Area.configRequest_subset : Area.subset
      [.pins, .hub, .vfEnable, .numVfs, .funcs, .msix, .msixEnable, .msixMask, .windows, .parts, .ctxs, .trans, .tlb, .fences,
      .fenceFreed, .fenceLower, .rings, .objs, .hbm, .chip, .pans, .units, .clusters, .power, .log, .secs, .cmds, .replays, .hzn,
      .svcs, .sessions, .xparts, .invals, .atsInvals]
      (Area.outside (untouched (.configRequest 0 (.read 0)))) = true := by rfl
theorem Area.hostReadError_subset : Area.subset
      [.pins, .hub, .funcs, .msix, .windows, .parts, .ctxs, .trans, .tlb, .fences, .fenceFreed, .fenceLower, .rings, .objs, .hbm, .chip,
      .pans, .units, .clusters, .power, .log, .secs, .cmds, .replays, .hzn, .svcs, .sessions, .xparts, .loader, .invals,
      .atsInvals]
      (Area.outside (untouched (.hostReadError .imageLoad))) = true := by rfl
theorem Area.ring_subset : Area.subset
      [.pins, .hub, .funcs, .msix, .windows, .parts, .ctxs, .trans, .tlb, .fences, .fenceFreed, .fenceLower, .rings, .ringTaken,
      .ringTakenLc, .objs, .hbm, .chip, .pans, .units, .clusters, .power, .log, .secs, .cmds, .replays, .hzn, .svcs, .sessions,
      .xparts, .invals, .atsInvals]
      (Area.outside (untouched (.nop 0))) = true := by rfl
theorem Area.launch_subset : Area.subset
      [.pins, .hub, .funcs, .msix, .windows, .parts, .ctxs, .trans, .tlb, .fences, .fenceFreed, .fenceLower, .rings, .ringTaken,
      .ringTakenLc, .objs, .hbm, .chip, .pans, .units, .clusters, .power, .log, .secs, .nextSec, .cmds, .replays, .hzn, .svcs,
      .sessions, .xparts, .invals, .atsInvals]
      (Area.outside (untouched (.launch 0))) = true := by rfl
theorem Area.ringDestroy_subset : Area.subset
      [.pins, .funcs, .msix, .windows, .parts, .ctxs, .rings, .pans, .units, .clusters, .log, .secs, .cmds, .replays, .svcs, .xparts,
      .atsInvals]
      (Area.outside (untouched (.ringDestroy 0))) = true := by rfl
theorem Area.timeout_subset : Area.subset
      [.pins, .time, .hub, .funcs, .msix, .windows, .parts, .ctxs, .trans, .tlb, .fences, .fenceFreed, .fenceLower, .rings, .objs, .hbm,
      .chip, .pans, .units, .clusters, .power, .log, .secs, .cmds, .replays, .hzn, .svcs, .sessions, .xparts, .invals, .atsInvals]
      (Area.outside (untouched (.waitTimeoutExpiry (.station 0 0 0)))) = true := by rfl
theorem Area.unit_subset : Area.subset
      [.pins, .hub, .funcs, .msix, .windows, .parts, .tokens, .ctxs, .trans, .tlb, .fences, .fenceFreed, .fenceLower, .rings, .objs,
      .hbm, .chip, .pans, .units, .clusters, .power, .log, .secs, .cmds, .replays, .hzn, .svcs, .sessions, .xparts, .invals,
      .atsInvals]
      (Area.outside (untouched (.matmul (.station 0 0 0)))) = true := by rfl
theorem Area.waitCycleScan_subset : Area.subset
      [.pins, .time, .hub, .funcs, .msix, .windows, .parts, .ctxs, .trans, .tlb, .fences, .fenceFreed, .fenceLower, .rings, .objs, .hbm,
      .chip, .pans, .units, .clusters, .power, .log, .secs, .cmds, .replays, .scanSet, .hzn, .svcs, .sessions, .xparts, .invals,
      .atsInvals]
      (Area.outside (untouched (.waitCycleScan))) = true := by rfl
theorem Area.killComplete_subset : Area.subset
      [.pins, .hub, .funcs, .msix, .parts, .ctxs, .trans, .tlb, .fences, .fenceFreed, .fenceLower, .rings, .objs, .hbm, .chip, .pans,
      .units, .clusters, .power, .log, .secs, .cmds, .replays, .hzn, .sessions, .xparts, .invals, .atsInvals]
      (Area.outside (untouched (.killComplete (.station 0 0 0)))) = true := by rfl
theorem Area.retraining_subset : Area.subset
      [.pins, .hub, .funcs, .msix, .parts, .ctxs, .rings, .hbm, .pans, .power, .log, .cmds, .replays, .hzn, .xparts, .atsInvals]
      (Area.outside (untouched (.retraining 0 0 true))) = true := by rfl
theorem Area.crysOpen_subset : Area.subset
      [.pins, .hub, .funcs, .msix, .windows, .parts, .ctxs, .trans, .tlb, .fences, .fenceFreed, .fenceLower, .rings, .objs, .hbm, .chip,
      .pans, .units, .clusters, .power, .log, .secs, .cmds, .replays, .hzn, .svcs, .sessions, .nextSession, .xparts, .invals,
      .atsInvals]
      (Area.outside (untouched (.crysOpen 0))) = true := by rfl

/-- Every command's next state follows the state before it within the areas that the command may change. -/
theorem exec_evolves_within : ∀ (i : Instr) (s : State), EvolvesOut (keepsRecords i) (mayTouch i) s (exec i s)
  | .porstNAssert, _ => execPorstNAssert_ev rfl
  | .porstNRelease _ _, _ => execPorstNRelease_ev Area.fault_subset
  | .railOutOfRange _, _ => execRailOutOfRange_ev Area.fault_subset
  | .timerefLost, _ => execTimerefLost_ev rfl
  | .timerefReturn, _ => execTimerefReturn_ev rfl
  | .timeDegradedClear, _ => execTimeDegradedClear_ev rfl
  | .sdsRefclkLost _, _ => execSdsRefclkLost_ev rfl
  | .hbmRefclkLost _, _ => execHbmRefclkLost_ev Area.fault_subset
  | .clockTreeStop _, _ => execClockTreeStop_ev Area.execution_subset
  | .partRejoin _, _ => execPartRejoin_ev rfl
  | .clockSwitch _, _ => execClockSwitch_ev rfl
  | .pllLossOfLock _, _ => execPllLossOfLock_ev Area.execution_subset
  | .dieToDieLinkFailure _, _ => execDieToDieLinkFailure_ev Area.fault_subset
  | .thermalWarnCrossing _ _, _ => execThermalWarnCrossing_ev rfl
  | .hardwareThrottle _ _, _ => execHardwareThrottle_ev rfl
  | .throttleRelease _ _, _ => execThrottleRelease_ev rfl
  | .thermalShutdown _ _, _ => execThermalShutdown_ev Area.fault_subset
  | .governorTrip _, _ => execGovernorTrip_ev Area.fault_subset
  | .firmwareAssertion _, _ => execFirmwareAssertion_ev Area.fault_subset
  | .railSensorRead _ _ _, _ => execRailSensorRead_ev rfl
  | .paceCheck _ _, _ => execPaceCheck_ev rfl
  | .pointChange _ _, _ => execPointChange_ev rfl
  | .pointChangeSettled _, _ => execPointChangeSettled_ev rfl
  | .pointChangeTimeout _, _ => execPointChangeTimeout_ev rfl
  | .powerWindowEnd _, _ => execPowerWindowEnd_ev rfl
  | .powerProjection _ _ _, _ => execPowerProjection_ev rfl
  | .panStartAdmission _ _, _ => execPanStartAdmission_ev rfl
  | .panRampDown _ _, _ => execPanRampDown_ev rfl
  | .tapInstruction _, _ => execTapInstruction_ev rfl
  | .managementStage _ _ _, _ => execManagementStage_ev Area.managementStage_subset
  | .stackTraining _ _ _ _ _, _ => execStackTraining_ev rfl
  | .memoryReady, _ => execMemoryReady_ev Area.memoryReady_subset
  | .bootImageWaitExpiry, _ => execBootImageWaitExpiry_ev rfl
  | .firmwareStart, _ => execFirmwareStart_ev rfl
  | .bootReady, _ => execBootReady_ev rfl
  | .engineResetRequest _ _, _ => execEngineResetRequest_ev rfl
  | .engineResetHoldEnd _ _, _ => execEngineResetHoldEnd_ev Area.watchdog_subset
  | .watchdogHeartbeat _ _, _ => execWatchdogHeartbeat_ev rfl
  | .watchdogExpiry _, _ => execWatchdogExpiry_ev Area.watchdog_subset
  | .configRequest _ _, _ => execConfigRequest_ev Area.configRequest_subset
  | .functionLevelReset _, _ => execFunctionLevelReset_ev Area.execution_subset
  | .hotReset, _ => execHotReset_ev Area.execution_subset
  | .link0Down, _ => execLink0Down_ev Area.execution_subset
  | .link1Down, _ => execLink1Down_ev rfl
  | .link1Up, _ => execLink1Up_ev rfl
  | .hostReadError _, _ => execHostReadError_ev Area.hostReadError_subset
  | .atsInvalidation _, _ => execAtsInvalidation_ev rfl
  | .registerWrite _ _ _ _ _, _ => execRegisterWrite_ev rfl
  | .negotiate _, _ => execNegotiate_ev rfl
  | .enable _, _ => execEnable_ev rfl
  | .functionDisable _, _ => execFunctionDisable_ev rfl
  | .hifPartCfgWrite _ _, _ => execHifPartCfgWrite_ev rfl
  | .hifVfCfgWrite _ _, _ => execHifVfCfgWrite_ev rfl
  | .hostWindowEnable _ _, _ => execHostWindowEnable_ev rfl
  | .hostWindowDisable _, _ => execHostWindowDisable_ev rfl
  | .hostWindowDrained _, _ => execHostWindowDrained_ev rfl
  | .hifPartRegionsWrite _ _, _ => execHifPartRegionsWrite_ev rfl
  | .hifPartRtWrite _ _, _ => execHifPartRtWrite_ev rfl
  | .sluiceWrite _ _ _, _ => execSluiceWrite_ev rfl
  | .horizonEnable _, _ => execHorizonEnable_ev rfl
  | .horizonDisable, _ => execHorizonDisable_ev rfl
  | .hznDomainWrite _ _, _ => execHznDomainWrite_ev rfl
  | .serviceLoad _, _ => execServiceLoad_ev rfl
  | .serviceUnload _, _ => execServiceUnload_ev Area.execution_subset
  | .cfgLoadStart, _ => execCfgLoadStart_ev rfl
  | .cfgLoadAbort, _ => execCfgLoadAbort_ev rfl
  | .mgtPwrLimitWrite _, _ => execMgtPwrLimitWrite_ev rfl
  | .clearFf, _ => execClearFf_ev rfl
  | .telemetryEnable _, _ => execTelemetryEnable_ev rfl
  | .submissionDoorbell _ _ _, _ => execSubmissionDoorbell_ev rfl
  | .adminDoorbell _ _, _ => execAdminDoorbell_ev rfl
  | .nop _, _ => execNop_ev Area.ring_subset
  | .execBuffer _, _ => execExecBuffer_ev Area.ring_subset
  | .launch _, _ => execLaunch_ev Area.launch_subset
  | .unload _, _ => execUnload_ev Area.ring_subset
  | .ctxCreate _, _ => execCtxCreate_ev rfl
  | .ctxDestroy _, _ => execCtxDestroy_ev Area.execution_subset
  | .ringCreate _, _ => execRingCreate_ev rfl
  | .ringDestroy _, _ => execRingDestroy_ev Area.ringDestroy_subset
  | .fenceCreate _, _ => execFenceCreate_ev rfl
  | .fenceShare _, _ => execFenceShare_ev rfl
  | .fenceRelease _, _ => execFenceRelease_ev rfl
  | .fenceSignal _, _ => execFenceSignal_ev rfl
  | .objCreate _, _ => execObjCreate_ev rfl
  | .objMapHost _, _ => execObjMapHost_ev rfl
  | .objUnmap _, _ => execObjUnmap_ev rfl
  | .objExport _, _ => execObjExport_ev rfl
  | .objImport _, _ => execObjImport_ev rfl
  | .objWithdraw _, _ => execObjWithdraw_ev rfl
  | .eventRingFullRecheck _, _ => execEventRingFullRecheck_ev Area.timeout_subset
  | .eventRingFullTimeout _, _ => execEventRingFullTimeout_ev Area.timeout_subset
  | .functionEventRingRecheck _, _ => execFunctionEventRingRecheck_ev rfl
  | .moderationExpiry _, _ => execModerationExpiry_ev rfl
  | .queueAdmission _ _, _ => execQueueAdmission_ev Area.execution_subset
  | .matmul _, _ => execMatmul_ev Area.unit_subset
  | .attend _, _ => execAttend_ev Area.unit_subset
  | .vop _, _ => execVop_ev Area.unit_subset
  | .reduce _, _ => execReduce_ev Area.unit_subset
  | .softmax _, _ => execSoftmax_ev Area.unit_subset
  | .norm _, _ => execNorm_ev Area.unit_subset
  | .activate _, _ => execActivate_ev Area.unit_subset
  | .rope _, _ => execRope_ev Area.unit_subset
  | .topk _, _ => execTopk_ev Area.unit_subset
  | .sample _, _ => execSample_ev Area.unit_subset
  | .stats _, _ => execStats_ev Area.unit_subset
  | .quant _, _ => execQuant_ev Area.unit_subset
  | .requant _, _ => execRequant_ev Area.unit_subset
  | .dequant _, _ => execDequant_ev Area.unit_subset
  | .mask _, _ => execMask_ev Area.unit_subset
  | .rndfill _, _ => execRndfill_ev Area.unit_subset
  | .copy _, _ => execCopy_ev Area.unit_subset
  | .gather _, _ => execGather_ev Area.unit_subset
  | .scatter _, _ => execScatter_ev Area.unit_subset
  | .mcast _, _ => execMcast_ev Area.unit_subset
  | .multicastReservationGrant _, _ => execMulticastReservationGrant_ev rfl
  | .prefetch _, _ => execPrefetch_ev Area.unit_subset
  | .saveRes _, _ => execSaveRes_ev Area.unit_subset
  | .restoreRes _, _ => execRestoreRes_ev Area.unit_subset
  | .wait _, _ => execWait_ev Area.execution_subset
  | .signal _, _ => execSignal_ev Area.execution_subset
  | .event _, _ => execEvent_ev Area.execution_subset
  | .barrier _, _ => execBarrier_ev Area.execution_subset
  | .waitTimeoutExpiry _, _ => execWaitTimeoutExpiry_ev Area.timeout_subset
  | .waitCycleScan, _ => execWaitCycleScan_ev Area.waitCycleScan_subset
  | .send _, _ => execSend_ev Area.unit_subset
  | .recv _, _ => execRecv_ev Area.unit_subset
  | .allreduce _, _ => execAllreduce_ev Area.unit_subset
  | .allgather _, _ => execAllgather_ev Area.unit_subset
  | .rscatter _, _ => execRscatter_ev Area.unit_subset
  | .ringpass _, _ => execRingpass_ev Area.unit_subset
  | .patch _, _ => execPatch_ev Area.execution_subset
  | .replay _, _ => execReplay_ev Area.execution_subset
  | .runStart _, _ => execRunStart_ev rfl
  | .chain _, _ => execChain_ev Area.unit_subset
  | .softCall _, _ => execSoftCall_ev Area.execution_subset
  | .coreCall _, _ => execCoreCall_ev Area.execution_subset
  | .callTimeout _, _ => execCallTimeout_ev Area.timeout_subset
  | .panOperationIssue _, _ => execPanOperationIssue_ev rfl
  | .weightSetLoad _, _ => execWeightSetLoad_ev Area.execution_subset
  | .weightSetComplete _, _ => execWeightSetComplete_ev rfl
  | .frameEmit _ _, _ => execFrameEmit_ev rfl
  | .routeStallTimeout _, _ => execRouteStallTimeout_ev Area.timeout_subset
  | .commandCommit _, _ => execCommandCommit_ev Area.execution_subset
  | .streamGroupCommit _, _ => execStreamGroupCommit_ev Area.execution_subset
  | .preemptWaitExpiry _ _, _ => execPreemptWaitExpiry_ev rfl
  | .killComplete _, _ => execKillComplete_ev Area.killComplete_subset
  | .parityError _ _ _ _ _ _ _, _ => execParityError_ev Area.execution_subset
  | .pageZeroingComplete _ _ _, _ => execPageZeroingComplete_ev rfl
  | .subpageZeroingComplete _ _ _, _ => execSubpageZeroingComplete_ev rfl
  | .translationInvalidationComplete _ _, _ => execTranslationInvalidationComplete_ev rfl
  | .sluiceWindow, _ => execSluiceWindow_ev rfl
  | .refresh _, _ => execRefresh_ev rfl
  | .retraining _ _ _, _ => execRetraining_ev Area.retraining_subset
  | .scrubRead _ _, _ => execScrubRead_ev Area.execution_subset
  | .train _ _, _ => execTrain_ev rfl
  | .trainingTimeout _, _ => execTrainingTimeout_ev rfl
  | .portDown _, _ => execPortDown_ev rfl
  | .linkAckTimeout _, _ => execLinkAckTimeout_ev rfl
  | .data _ _, _ => execData_ev Area.execution_subset
  | .ack _ _, _ => execAck_ev rfl
  | .nak _ _, _ => execNak_ev rfl
  | .retransmitTimeout _, _ => execRetransmitTimeout_ev rfl
  | .ackKeepalive _, _ => execAckKeepalive_ev rfl
  | .rts _ _, _ => execRts_ev Area.execution_subset
  | .cts _ _, _ => execCts_ev rfl
  | .refuse _ _, _ => execRefuse_ev Area.execution_subset
  | .busy _ _, _ => execBusy_ev rfl
  | .rtsRetry _, _ => execRtsRetry_ev rfl
  | .segDone _ _, _ => execSegDone_ev rfl
  | .segmentTimeout _ _, _ => execSegmentTimeout_ev rfl
  | .done _ _, _ => execDone_ev Area.execution_subset
  | .abort _ _, _ => execAbort_ev Area.execution_subset
  | .groupAbort _ _, _ => execGroupAbort_ev Area.execution_subset
  | .horizonInactivityTimeout _, _ => execHorizonInactivityTimeout_ev Area.timeout_subset
  | .remoteSignal _ _, _ => execRemoteSignal_ev rfl
  | .remoteSignalDrop, _ => execRemoteSignalDrop_ev rfl
  | .timeSyncWindow, _ => execTimeSyncWindow_ev rfl
  | .sync _ _ _, _ => execSync_ev rfl
  | .follow _ _, _ => execFollow_ev rfl
  | .req _ _ _, _ => execReq_ev rfl
  | .resp _ _, _ => execResp_ev rfl
  | .timeSyncFault, _ => execTimeSyncFault_ev rfl
  | .load _, _ => execLoad_ev rfl
  | .readback _, _ => execReadback_ev rfl
  | .endWord _, _ => execEndWord_ev rfl
  | .chainForward _, _ => execChainForward_ev rfl
  | .subImageHeader _, _ => execSubImageHeader_ev rfl
  | .subImageReceived _, _ => execSubImageReceived_ev rfl
  | .loadCommit _, _ => execLoadCommit_ev rfl
  | .applyComplete, _ => execApplyComplete_ev rfl
  | .join _, _ => execJoin_ev rfl
  | .joinTimeout _, _ => execJoinTimeout_ev rfl
  | .replyHeader _ _ _, _ => execReplyHeader_ev Area.execution_subset
  | .replyFrame _ _ _, _ => execReplyFrame_ev Area.execution_subset
  | .unsolicited _, _ => execUnsolicited_ev Area.execution_subset
  | .svcWait _, _ => execSvcWait_ev rfl
  | .svcDone _ _ _ _ _, _ => execSvcDone_ev Area.execution_subset
  | .svcTime _, _ => execSvcTime_ev rfl
  | .svcLog _ _, _ => execSvcLog_ev rfl
  | .svcYield _, _ => execSvcYield_ev rfl
  | .serviceProgramEnd _ _, _ => execServiceProgramEnd_ev Area.timeout_subset
  | .crysOpen _, _ => execCrysOpen_ev Area.crysOpen_subset
  | .crysClose _, _ => execCrysClose_ev Area.execution_subset
  | .crysStatus _, _ => execCrysStatus_ev Area.execution_subset
  | .servingStep _, _ => execServingStep_ev Area.execution_subset
  | .crystallizerSampling _, _ => execCrystallizerSampling_ev Area.execution_subset
  | .setEndpointId _, _ => execSetEndpointId_ev rfl
  | .getEndpointId, _ => execGetEndpointId_ev rfl
  | .getMctpVersionSupport, _ => execGetMctpVersionSupport_ev rfl
  | .getMessageTypeSupport, _ => execGetMessageTypeSupport_ev rfl
  | .getStatus, _ => execGetStatus_ev rfl
  | .readSensors _ _ _, _ => execReadSensors_ev rfl
  | .readCt _ _, _ => execReadCt_ev rfl
  | .setPwrLimit _, _ => execSetPwrLimit_ev rfl
  | .readLog _ _, _ => execReadLog_ev rfl
  | .logStatus, _ => execLogStatus_ev rfl
  | .logWrite, _ => execLogWrite_ev rfl
  | .coalescingWindowEnd, _ => execCoalescingWindowEnd_ev rfl
  | .telemetrySample, _ => execTelemetrySample_ev rfl
  | .subpageTaggingComplete _ _, _ => execSubpageTaggingComplete_ev rfl
  | .saveResTimeout _, _ => execSaveResTimeout_ev Area.timeout_subset
  | .trainFrameSend _, _ => execTrainFrameSend_ev rfl
  | .warnRelease _ _, _ => execWarnRelease_ev rfl
  | .invalidCommandWord _, _ => execInvalidCommandWord_ev rfl

/-! ### Frames -/

/-- A command with a footprint changes that alone. -/
theorem mayTouch_of_footprint {i : Instr} {l : List Area} (h : footprint i = some l) : mayTouch i = l := by
  simp only [mayTouch, h]

/-- Settles O12: what a command with a footprint may touch is its footprint. -/
theorem framesOfRegisterCommands : Obligations.FramesOfRegisterCommands := by
  intro i l s t hfoot hstep
  rw [← mayTouch_of_footprint hfoot]
  exact (exec_evolves_within i s t hstep).only

/-- No command that has untouched areas listed has a footprint as well. -/
theorem footprint_eq_none_of_untouched : ∀ {i : Instr} {a : Area}, a ∈ untouched i → footprint i = none := by
  intro i a h
  unfold untouched at h
  split at h
  case h_96 => exact absurd h List.not_mem_nil
  all_goals rfl

/-- Settles O13: an untouched area is not among those that the command may touch. -/
theorem framesOfExecutionCommands : Obligations.FramesOfExecutionCommands := by
  intro i s t a ha hstep
  refine (exec_evolves_within i s t hstep).only a fun hmem => ?_
  simp only [mayTouch, footprint_eq_none_of_untouched ha, Area.outside, List.mem_filter, List.contains_iff_mem.2 ha, Bool.not_true,
    Bool.false_eq_true, and_false] at hmem

/-! ### One step -/

/-- Settles O1: both clauses are the definition of the step, by the queue's two forms. -/
theorem stepRunsTheFrontCommand : Obligations.StepRunsTheFrontCommand := by
  refine ⟨fun s c rest => rfl, fun s hempty => ?_⟩
  simp only [step, hempty]

/-- A step is the tick of an empty queue, or the front command run with the rest of the queue. -/
theorem step_cases {s t : State} (h : step s = .next t) :
    (s.pending = [] ∧ t = s.tick) ∨ ∃ c rest, s.pending = c :: rest ∧ exec c { s with pending := rest } = .next t := by
  unfold step at h
  split at h
  · next hempty => exact .inl ⟨hempty, (Host.Outcome.next.inj h).symm⟩
  · next c rest hfront => exact .inr ⟨c, rest, hfront, h⟩

/-- A tick changes the time base alone. -/
theorem State.tick_ev {k : Bool} (s : State) : Evolves k [.time] s s.tick := by
  unfold State.tick
  refine .ite ?_ (.refl _ _)
  apply (Evolves.refl [.time] s).upd <;> first | exact .inl rfl | exact .inr rfl | exact .refl _ | exact Nat.le_refl _ | exact id

/-- A step follows the state whose queue has lost its front command. -/
theorem step_evolves {s t : State} (h : step s = .next t) : Evolves false Area.all { s with pending := s.pending.tail } t := by
  rcases step_cases h with ⟨hempty, rfl⟩ | ⟨c, rest, hfront, hrun⟩
  · have htail : s.pending.tail = s.pending := by rw [hempty, List.tail_nil]
    rw [htail]
    exact (State.tick_ev s).after (.refl _ _) rfl
  · rw [hfront]
    exact (exec_evolves c _ t hrun).weak

/-- Taking commands off the queue keeps the invariant. -/
theorem State.Inv.with_pending {s : State} (h : s.Inv) (q : List Instr) : ({ s with pending := q } : State).Inv :=
  ⟨h.host, h.hbm, h.chip, h.log, h.stage⟩

/-- Settles O3: whatever follows a state that meets the invariant meets it, and a step follows. -/
theorem stepKeepsTheInvariant : Obligations.StepKeepsTheInvariant :=
  fun _ _ hinv hstep => (step_evolves hstep).inv (hinv.with_pending _)

/-- Posted writes that store nothing to an address leave its byte. -/
theorem rd_foldl_apply_of_not_stores {a : Nat} {es : List OutEvent} {m : Mem} (h : ∀ e ∈ es, e.stores a = false) :
    (es.foldl OutEvent.apply m).rd a = m.rd a := by
  induction es generalizing m with
  | nil => rfl
  | cons e es ih =>
    rw [List.foldl_cons, ih fun x hx => h x (List.mem_cons_of_mem _ hx)]
    have he := h e List.mem_cons_self
    cases e with
    | hostWrite link req b bs =>
      simp only [OutEvent.stores, decide_eq_false_iff_not] at he
      exact Mem.rd_wrN_out _ _ _ _ (by omega)
    | _ => rfl

/-- Settles O7: a step posts its writes, and a byte that none of them stores reads as before. -/
theorem hostMemoryChangesByPostedWrites : Obligations.HostMemoryChangesByPostedWrites := by
  intro s t hstep
  obtain ⟨es, hout, hmem⟩ := (step_evolves hstep).posted
  refine ⟨es, hout, hmem, fun a hnone => ?_⟩
  rw [hmem]
  exact rd_foldl_apply_of_not_stores hnone

/-- Settles O6: a command leaves the queue as it finds it, and a step takes the front one away. -/
theorem queueOrder : Obligations.QueueOrder :=
  ⟨fun i s t hstep => ⟨(exec_evolves i s t hstep).queue, (exec_evolves i s t hstep).free⟩, fun _ _ hstep => (step_evolves hstep).queue⟩

/-- A failed read for a service beyond the layout, of an engine that is not Ready, changes nothing and does not stop. -/
theorem exec_hostReadError_unready {s : State} (h : s.ready = false) (r : HostReader) : exec (.hostReadError r) s = .next s := by
  change execHostReadError r s = _
  simp [execHostReadError, h]

/-- Refutes O4: a host read error of service 0, which the layout does not have, has a next state while the engine is not Ready: the
readiness is asked for before the service's number is. -/
theorem not_wellFormedCommandsComplete : ¬ Obligations.WellFormedCommandsComplete := by
  rintro ⟨-, hstops⟩
  obtain ⟨w, hstop⟩ := hstops (.hostReadError (.service 0)) State.reset rfl
  rw [exec_hostReadError_unready rfl] at hstop
  exact nomatch hstop

/-! ### Power-on reset -/

/-- The state of every default value meets the invariant. -/
theorem State.reset_inv : State.reset.Inv := ⟨rfl, empty_hbm, empty_chip, ⟨Nat.zero_le _, Nat.zero_le _⟩, by decide⟩

/-- The reset value of HIF_PART_RT: ADMIT_OP 2 and PREEMPT_WAIT 200 (R322, R365). -/
theorem Partition.reset_rt : fld ({} : Partition).rt.toNat 0 3 = 2 ∧ fld ({} : Partition).rt.toNat 8 12 = 200 := by decide

/-- Settles O2: every table of the reset state is empty, so that each entry reads as its default. -/
theorem resetState : Obligations.ResetState :=
  ⟨State.reset_inv, rfl, rfl, rfl, rfl, rfl, rfl, rfl, fun _ => rfl, fun _ => ⟨rfl, rfl⟩, fun _ => rfl, fun _ => rfl, fun _ => rfl,
    fun _ => ⟨rfl, rfl⟩, fun _ => rfl, fun _ => Partition.reset_rt, fun _ => rfl⟩

end Sys2Proof.Machine
end

section
/-! FAULTS, RESETS AND FAILED READS (O15, O37). States in which what the two statements promise does not come about. -/

namespace Sys2Proof.Machine

/-- An outcome that is one next state yields what holds of that state. -/
theorem Yields.of_next {i : Instr} {s t : State} {P : State → Prop} (h : exec i s = .next t) (p : P t) : Yields i s P := ⟨t, h, p⟩

/-- What a command yields holds of its next state. -/
theorem Yields.apply {i : Instr} {s t : State} {P : State → Prop} (h : Yields i s P) (e : exec i s = .next t) : P t := by
  obtain ⟨u, hu, p⟩ := h
  exact Host.Outcome.next.inj (hu.symm.trans e) ▸ p

/-- A SEC-DED error does nothing while the hub is down. -/
theorem exec_parityError_hubDown {s : State} {store c core pan addr : Nat} {ref : CmdRef} {again : Bool} (hstore : 9 ≤ store ∧ store < 15)
    (hc : c < 10) (hcore : core < 48) (hpan : pan < 2) (haddr : addr < 2 ^ 26) (hdown : s.hubUp = false) :
    exec (.parityError store c core pan addr ref again) s = .next s := by
  have hnone : ¬ (10 ≤ c ∨ 15 ≤ store ∨ (48 ≤ core ∧ core ≠ 63) ∨ 2 ≤ pan ∨ 2 ^ 26 ≤ addr) := by omega
  change execParityError store c core pan addr ref again s = _
  rw [execParityError, if_neg hnone, if_pos hstore.1]
  simp [State.secDed, hdown]

/-- An engine whose stage is that of Ready while an engine reset still holds the hub. -/
def State.heldAtReady : State := { pins := { porstN := true }, hub := { stage := 6, holdReset := true } }

/-- Refutes O15: while the hub is held in reset, a double error of a SEC-DED store passes unnoticed, at stage 6 too, and the device is not
lost. -/
theorem not_uncontainedFaultLosesDevice : ¬ Obligations.UncontainedFaultLosesDevice := by
  rintro ⟨hready, -⟩
  have hloses := hready (.parityError 9 0 0 0 0 (.ring 0) true) .heldAtReady 5 0 rfl rfl rfl rfl
  obtain ⟨hlost, -⟩ := hloses.apply (exec_parityError_hubDown (by decide) (by decide) (by decide) (by decide) (by decide) rfl)
  exact Bool.false_ne_true hlost.lost

/-- Past config-ready a hot reset destroys every context (R338). -/
theorem exec_hotReset {s : State} (hporst : s.pins.porstN = true) (hconfig : s.hub.configReady = true) :
    exec .hotReset s = .next s.resetAll := by
  change execHotReset s = _
  simp [execHotReset, hporst, hconfig]

/-- Context 0 waits with a command's event record; the command ends a run whose REPLAY then fails, and the failure record of that REPLAY is
written through a table whose line the controller cannot read. -/
def State.unreadableTable : State :=
  { pins := { porstN := true }, hub := { stage := 6, configReady := true }
    ctxs := [(0, { life := .live, evWait := [{ wake := some (.station 0 0 0) }] })]
    cmds := [{ ref := .station 0 0 0, ctx := 0, phase := .recording }, { ref := .station 1 0 0, ctx := 0, infos := [{}] }]
    secs := [(0, { run := some {} }), (1, {})]
    replays := [{ ref := .station 1 0 0, ctx := 0, sec := 0, left := 2, predReg := none, stepReg := some 0, stepImm := 0 }]
    trans := [(0, { root := some 0 })]
    hbm := { xfer := [(0, 4)] } }

/-- Refutes O37: a hot reset wakes what waited for the context's event ring; that reads a table whose line is past correction, so that the
device is lost on the way, and the context ends lost and not destroyed. -/
theorem not_resetsAndReadErrors : ¬ Obligations.ResetsAndReadErrors := by
  rintro ⟨hreset, -⟩
  obtain ⟨-, -, hctx⟩ := (hreset .hotReset .unreadableTable (.inl rfl) rfl rfl rfl).apply (exec_hotReset rfl rfl)
  have hlost : (State.unreadableTable.resetAll.cx 0).life = .lost := by decide +kernel
  rcases hctx 0 (by decide) with h | h
  · exact nomatch hlost.symm.trans h
  · exact nomatch hlost.symm.trans h

end Sys2Proof.Machine
end

section
/-! KILLS AND FRAMES (O50). A killed command that frees its own section's holdings. -/

namespace Sys2Proof.Machine

/-- The next state of an outcome, and `s` where it has none. -/
def nextOr (s : State) : Out → State
  | .next t => t
  | _ => s

/-- What a command yields holds of its evaluated next state. -/
theorem Yields.nextOr {i : Instr} {s : State} {P : State → Prop} (h : Yields i s P) : P (nextOr s (exec i s)) := by
  obtain ⟨t, ht, p⟩ := h
  rw [ht]
  exact p

/-- A killed RESTORE_RES of section 1 whose target is its own section. -/
def Cmd.selfRestore : Cmd := { ref := .station 1 0 0, ctx := 0, word := [0x86], target := 1, phase := .killed, killCause := 5 }

/-- The killed command of `Cmd.selfRestore` on core 0. -/
def State.selfRestore : State :=
  { pins := { porstN := true }, cmds := [Cmd.selfRestore], secs := [(1, { cores := [0] })] }

/-- Refutes O50: giving back what the RESTORE_RES took from its own section frees the section's cores too, so that its unit is no longer
known when it is put back and the unit's queue stays empty. -/
theorem not_killsAndFrames : ¬ Obligations.KillsAndFrames := by
  rintro ⟨-, hagain, -⟩
  obtain ⟨-, hqueue⟩ := (hagain .selfRestore (.station 1 0 0) .selfRestore rfl rfl (by decide) (by decide) (by decide)).nextOr
  have hput := hqueue 1 0 0 3 rfl (by decide +kernel) (by decide) (by decide)
  have hempty : ((nextOr .selfRestore (exec (.killComplete (.station 1 0 0)) .selfRestore)).un 3).queue = [] := by decide +kernel
  exact List.cons_ne_nil _ _ (hput.symm.trans hempty)

end Sys2Proof.Machine
end

section
/-! SLUICES (O51). The fold of refills over distinct keys, and held requests that are none. -/

namespace Sys2Proof.Machine

/-- The keys of every token bucket: each partition's, of each resource, at each index. -/
def sluKeys : List Nat := (List.range 16).flatMap fun p => sluAll.flatMap fun r => (List.range (sluInsts r)).map fun i => sluKey p r i

/-- The keys of the buckets in rising order. -/
theorem sluKeys_eq_filter_range : sluKeys = (List.range 4096).filter fun k => decide (k / 32 % 8 < 5 ∧ k % 32 < sluInsts (resOfKey k)) := by decide +kernel

theorem sluKeys_nodup : sluKeys.Nodup := sluKeys_eq_filter_range ▸ List.nodup_range.filter _

theorem sluKey_mem_sluKeys {p i : Nat} {r : SluiceRes} (hp : p < 16) (hi : i < sluInsts r) : sluKey p r i ∈ sluKeys := by
  have hr : r ∈ sluAll := by cases r <;> decide
  simp only [sluKeys, List.mem_flatMap, List.mem_map, List.mem_range]
  exact ⟨p, hp, r, hr, i, hi, rfl⟩

/-- The key of an index leads back to the partition's register of the resource. -/
theorem State.sluOfKey_sluKey (s : State) (p : Nat) {i : Nat} (r : SluiceRes) (hi : i < sluInsts r) : s.sluOfKey (sluKey p r i) = (s.pt p).sluice r := by
  have hi32 : i < 32 := by
    cases r <;> simp only [sluInsts] at hi <;> omega
  have hnum : sluNum r < 8 := by cases r <;> decide
  have hpart : sluKey p r i / 256 = p := by
    simp only [sluKey]
    omega
  have hres : sluKey p r i / 32 % 8 = sluNum r := by
    simp only [sluKey]
    omega
  simp only [State.sluOfKey, hpart, hres]
  cases r <;> rfl

/-- Refills touch the tokens alone. -/
theorem State.foldl_refill (ks : List Nat) (s : State) : ∃ tk, ks.foldl State.refill s = { s with tokens := tk } := by
  induction ks generalizing s with
  | nil => exact ⟨s.tokens, rfl⟩
  | cons k ks ih =>
    obtain ⟨tk, h⟩ := ih (s.refill k)
    exact ⟨tk, by simpa only [List.foldl_cons, State.refill] using h⟩

/-- A bucket that is not among those refilled keeps its tokens. -/
theorem State.foldl_refill_tokens_ne {ks : List Nat} {k : Nat} (s : State) (hk : k ∉ ks) :
    (ks.foldl State.refill s).tokens.get 0 k = s.tokens.get 0 k := by
  induction ks generalizing s with
  | nil => rfl
  | cons j ks ih =>
    obtain ⟨hj, hks⟩ := not_or.mp (mt List.mem_cons.mpr hk)
    rw [List.foldl_cons, ih _ hks]
    exact Tbl.get_set_ne _ _ _ hj

/-- A bucket that is refilled once gets its rate, up to its depth. -/
theorem State.foldl_refill_tokens {ks : List Nat} {k : Nat} (s : State) (hnd : ks.Nodup) (hk : k ∈ ks) :
    (ks.foldl State.refill s).tokens.get 0 k = min (sluDepth (s.sluOfKey k)) (s.tokens.get 0 k + sluRate (s.sluOfKey k)) := by
  induction ks generalizing s with
  | nil => cases hk
  | cons j ks ih =>
    obtain ⟨hj, hnd'⟩ := List.nodup_cons.mp hnd
    rw [List.foldl_cons]
    rcases List.mem_cons.mp hk with rfl | hks
    · rw [State.foldl_refill_tokens_ne _ hj]
      exact Tbl.get_set_same _ _ _ _
    · have hkj : k ≠ j := fun e => hj (e ▸ hks)
      rw [ih _ hnd' hks]
      show min (sluDepth (s.sluOfKey k)) ((s.refill j).tokens.get 0 k + _) = _
      rw [show (s.refill j).tokens.get 0 k = s.tokens.get 0 k from Tbl.get_set_ne _ _ _ hkj]
      rfl

/-- With no request held the retry serves none. -/
theorem State.retryHeld_of_unheld (s : State) (h : ∀ c ∈ s.cmds, c.held = []) : ∃ cs, s.retryHeld = { s with cmds := cs } := by
  rw [State.retryHeld]
  generalize hl : s.cmds = l at h
  clear hl
  induction l generalizing s with
  | nil => exact ⟨s.cmds, rfl⟩
  | cons c l ih =>
    rw [List.foldl_cons]
    simp only [h c List.mem_cons_self, List.foldl_nil]
    obtain ⟨cs, hcs⟩ := ih _ fun d hd => h d (List.mem_cons_of_mem _ hd)
    exact ⟨cs, hcs⟩

/-- The next microsecond, its window not yet filled. -/
def State.nextMicrosecond (s : State) : State := { (s.endWindow s.sluWindow 1000).1 with sluWindow := (s.endWindow s.sluWindow 1000).2 }

theorem exec_sluiceWindow {s : State} (hready : s.ready = true) :
    exec .sluiceWindow s = .next (sluKeys.foldl State.refill s.nextMicrosecond).retryHeld := by
  change execSluiceWindow s = _
  simp only [execSluiceWindow, hready, Bool.not_true, Bool.false_eq_true, if_false]
  rw [sluKeys, State.nextMicrosecond]

/-- Settles O51: the keys of the buckets are distinct, so each is refilled once, and no held request takes of it. -/
theorem sluices : Obligations.Sluices := by
  intro s hready hheld
  obtain ⟨tk, hrefill⟩ := State.foldl_refill sluKeys s.nextMicrosecond
  obtain ⟨cs, hretry⟩ := State.retryHeld_of_unheld (sluKeys.foldl State.refill s.nextMicrosecond) (by rw [hrefill]; exact hheld)
  refine Yields.of_next (exec_sluiceWindow hready) ⟨?_, ?_, fun p hp r i hi => ?_⟩
  · rw [hretry, hrefill]
    rfl
  · rw [hretry, hrefill]
    rfl
  · simp only [hretry]
    rw [State.foldl_refill_tokens _ sluKeys_nodup (sluKey_mem_sluKeys hp hi), State.sluOfKey_sluKey _ _ _ hi]
    rfl

end Sys2Proof.Machine
end

section
/-! RECORDS AND NOTICES. Counting and logging put nothing out, and leave the pins as they are unless a record of CLASS 3 is sealed at once
(R505, R508); so do notices to the host. -/

namespace Sys2Proof.Machine

/-- What a fold's every step keeps, the fold keeps. -/
theorem foldl_keeps {α β : Type} (g : State → β) {f : State → α → State} (h : ∀ s a, g (f s a) = g s) (xs : List α) (s : State) :
    g (xs.foldl f s) = g s := by
  induction xs generalizing s with
  | nil => rfl
  | cons x xs ih => rw [List.foldl_cons, ih, h]

@[simp] theorem State.push_out (s : State) (r : LogRec) : (s.push r).out = s.out := by
  rw [State.push]
  split
  · rfl
  · split <;> rfl

@[simp] theorem State.logEv_out (s : State) (code cls kind unit ctx : Nat) (data : List Nat) : (s.logEv code cls kind unit ctx data).out = s.out := by
  rw [State.logEv]
  split
  · exact s.push_out _
  · rfl

@[simp] theorem State.logCo_out (s : State) (code cls kind unit ctx : Nat) (data : List Nat) : (s.logCo code cls kind unit ctx data).out = s.out := by
  rw [State.logCo]
  split
  · rfl
  · dsimp only
    split
    · rfl
    · split
      · exact State.push_out _ _
      · split <;> rfl

@[simp] theorem State.logCo_hzn (s : State) (code cls kind unit ctx : Nat) (data : List Nat) : (s.logCo code cls kind unit ctx data).hzn = s.hzn :=
  (State.logCo_ev (k := false) (l := [.pins, .log]) (.refl _ s) rfl).only .hzn (by decide)

@[simp] theorem State.logCo_time (s : State) (code cls kind unit ctx : Nat) (data : List Nat) : (s.logCo code cls kind unit ctx data).time = s.time :=
  (State.logCo_ev (k := false) (l := [.pins, .log]) (.refl _ s) rfl).only .time (by decide)

@[simp] theorem State.viol_out (s : State) (f kind : Nat) : (s.viol f kind).out = s.out := State.logCo_out _ _ _ _ _ _ _

theorem State.push_pins {s : State} {r : LogRec} (h : r.cls ≠ 3) : (s.push r).pins = s.pins := by
  rw [State.push, if_neg h]
  split <;> rfl

@[simp] theorem State.logEv_pins {s : State} {code cls kind unit ctx : Nat} {data : List Nat} (h : cls ≠ 3) :
    (s.logEv code cls kind unit ctx data).pins = s.pins := by
  rw [State.logEv]
  split
  · exact State.push_pins h
  · rfl

@[simp] theorem State.logCo_pins {s : State} {code cls kind unit ctx : Nat} {data : List Nat} (h : cls ≠ 3) :
    (s.logCo code cls kind unit ctx data).pins = s.pins := by
  rw [State.logCo]
  split
  · rfl
  · dsimp only
    split
    · rfl
    · split
      · exact State.push_pins h
      · split <;> rfl

@[simp] theorem State.viol_pins (s : State) (f kind : Nat) : (s.viol f kind).pins = s.pins := State.logCo_pins (by decide)

@[simp] theorem State.sendMsix_pins (s : State) (f v : Nat) : (s.sendMsix f v).pins = s.pins := by
  simp only [State.sendMsix]
  split
  · rfl
  · split <;> rfl

@[simp] theorem State.postRecord_pins (s : State) (g : EvGeom) (seq : Nat) (r : EvRec) : (s.postRecord g seq r).pins = s.pins := rfl

@[simp] theorem State.refreshFunc_pins (s : State) (f : Nat) : (s.refreshFunc f).pins = s.pins := by
  simp only [State.refreshFunc]
  split
  · split <;> simp
  · rfl

@[simp] theorem State.putFunc_pins (s : State) (f : Nat) (r : EvRec) : (s.putFunc f r).pins = s.pins := by
  simp only [State.putFunc]
  split <;> simp

@[simp] theorem State.funcEvent_pins (s : State) (f : Nat) (r : EvRec) : (s.funcEvent f r).pins = s.pins := by
  rw [State.funcEvent]
  generalize (if r.kind = 5 then (s.fn f).enable else (s.fn f).evOn) = live
  have hu := s.refreshFunc_pins f
  generalize s.refreshFunc f = u at hu ⊢
  cases live with
  | false => rfl
  | true =>
    simp only [Bool.not_true, Bool.false_eq_true, if_false]
    split
    · exact (u.putFunc_pins f r).trans hu
    · exact (u.updFn_pins f _).trans hu

@[simp] theorem State.devChange_pins (s : State) (off : Nat) (fs : List Nat) : (s.devChange off fs).pins = s.pins :=
  foldl_keeps State.pins (fun s f => s.funcEvent_pins f _) fs s

@[simp] theorem State.devChangeAll_pins (s : State) (off : Nat) : (s.devChangeAll off).pins = s.pins := s.devChange_pins off _

@[simp] theorem State.refreshOversub_pins (s : State) : s.refreshOversub.pins = s.pins := by
  have hfold := foldl_keeps State.pins (f := fun s p => s.updPt p fun q => { q with oversub := s.isOversub p }) (fun s p => s.updPt_pins p _) (List.range 16) s
  simp only [State.refreshOversub]
  split
  · exact hfold
  · exact (State.devChangeAll_pins _ _).trans hfold

@[simp] theorem State.refreshBelow_pins (s : State) : s.refreshBelow.pins = s.pins := by
  have hfold := foldl_keeps State.pins (f := fun s p => s.updPt p fun q => { q with below := s.isBelow p }) (fun s p => s.updPt_pins p _) (List.range 16) s
  simp only [State.refreshBelow]
  split
  · exact hfold
  · exact (State.devChangeAll_pins _ _).trans hfold

@[simp] theorem State.startChange_pins (s : State) (c b : Nat) : (s.startChange c b).pins = s.pins := by
  simp only [State.startChange, State.refreshBelow_pins, State.emit_pins, State.updCl_pins]

@[simp] theorem State.widthChanged_pins (s : State) (before : Nat) : (s.widthChanged before).pins = s.pins := by
  rw [State.widthChanged]
  split
  · rfl
  · exact (State.refreshOversub_pins _).trans (State.devChangeAll_pins _ _)

@[simp] theorem State.portState_pins (s : State) (p st : Nat) : (s.portState p st).pins = s.pins := by
  simp only [State.portState]
  split
  · rfl
  · exact (State.widthChanged_pins _ _).trans (State.logEv_pins (by decide))

@[simp] theorem State.startTrain_pins (s : State) (p : Nat) : (s.startTrain p).pins = s.pins := by
  simp only [State.startTrain]
  split <;> exact State.portState_pins _ _ _

end Sys2Proof.Machine
end

section
/-! THE LINK (O21). What an acknowledgement, its credits and a resending do to a port whose queue is empty. -/

namespace Sys2Proof.Machine

/-- A legal ACK or NAK is taken: its acknowledgement, then its credits, then its row's own part. -/
theorem Arrives.receive_ack {s : State} {p typ op : Nat} {b : List Byte} {act : State → Fr → State} (h : Arrives s p b typ op) (hdata : ¬ (typ = 1 ∨ typ = 2))
    (htime : typ ≠ 5) :
    s.receive p b typ op act = .next (act ((s.takeAck p (parseFr b).ack).takeCredits p (parseFr b)) (parseFr b)) := by
  obtain ⟨htyp, hop⟩ := h.kind
  simp only [State.receive, if_neg (Nat.not_le.2 h.port), h.running, h.up, h.crc, h.legal, h.address, htyp, hop, if_neg hdata, if_neg htime, bne_self_eq_false,
    Bool.not_true, Bool.or_self, Bool.false_eq_true, if_false]

/-- With nothing waiting at the port credits only add up. -/
theorem State.takeCredits_idle {s : State} {p : Nat} {f : Fr} (h : (s.port p).waitq = []) :
    s.takeCredits p f = s.updPort p fun q => { q with crBulk := q.crBulk + f.cr0, crCtrl := q.crCtrl + f.cr1 } := by
  simp [State.takeCredits, h, State.pumpPort]

theorem State.takeAck_none {s : State} {p ack : Nat} (h : (s.port p).retry.head? = none) : s.takeAck p ack = s := by
  simp only [State.takeAck, h]

theorem State.takeAck_zero {s : State} {p ack : Nat} {e : Nat × List Byte} (h : (s.port p).retry.head? = some e) (h0 : cdist 16 ack e.1 = 0) :
    s.takeAck p ack = s := by
  simp [State.takeAck, h, h0]

theorem State.takeAck_some {s : State} {p ack : Nat} {e : Nat × List Byte} (h : (s.port p).retry.head? = some e) (h0 : 0 < cdist 16 ack e.1)
    (hn : cdist 16 ack e.1 ≤ (s.port p).retry.length) :
    s.takeAck p ack = s.updPort p fun q => { q with retry := q.retry.drop (cdist 16 ack e.1), retrans := 0, lastAck := s.time.now } := by
  simp only [State.takeAck, h]
  exact if_neg (by omega)

/-- An acknowledgement of the oldest frame's own number takes nothing. -/
theorem cdist_eq_zero {a b : Nat} (h : a % 65536 = b % 65536) : cdist 16 a b = 0 := by
  simp only [cdist]
  omega

/-- The frames of a retry buffer as they are sent again. -/
def resent (p : Nat) (l : List (Nat × List Byte)) : List OutEvent := l.map fun e => .frame p (e.2 ++ leBytes 4 (crc32 e.2))

theorem State.foldl_emit {α : Type} (f : α → OutEvent) (l : List α) (s : State) :
    l.foldl (fun s e => s.emit (f e)) s = { s with out := s.out ++ l.map f } := by
  induction l generalizing s with
  | nil => simp
  | cons a l ih => rw [List.foldl_cons, ih]; simp [State.emit]

theorem State.resendAll_nil {s : State} {p : Nat} (h : (s.port p).retry = []) : s.resendAll p = s := by
  simp [State.resendAll, h]

/-- A resending sends every frame of the retry buffer again, in order, and counts it. -/
theorem State.resendAll_spec {s : State} {p : Nat} (h : (s.port p).retry ≠ []) : (s.resendAll p).out = s.out ++ resent p (s.port p).retry
    ∧ (s.resendAll p).time = s.time ∧ (s.resendAll p).port p = { s.port p with retrans := (s.port p).retrans + 1 } := by
  have hne : (s.port p).retry.isEmpty = false := by simpa using h
  simp only [State.resendAll, hne, Bool.false_eq_true, if_false, State.foldl_emit]
  refine ⟨?_, ?_, ?_⟩
  · rw [State.logCo_out]
    rfl
  · rw [State.logCo_time]
    rfl
  · rw [State.port, State.logCo_hzn]
    exact State.updPort_same _ _ _

/-- A legal ACK's acknowledgement frees the frames before it; its credits add up. -/
theorem ack_frees (s : State) (p : Nat) (b : List Byte) (h : Arrives s p b 3 0) (hwait : (s.port p).waitq = [])
    (hack : ∀ e ∈ (s.port p).retry.head?, 0 < cdist 16 (parseFr b).ack e.1 ∧ cdist 16 (parseFr b).ack e.1 ≤ (s.port p).retry.length) :
    Yields (.ack p b) s fun t =>
      (∀ e ∈ (s.port p).retry.head?, (t.port p).retry = (s.port p).retry.drop (cdist 16 (parseFr b).ack e.1)
        ∧ (t.port p).retrans = 0 ∧ (t.port p).lastAck = s.time.now)
      ∧ (t.port p).crBulk = (s.port p).crBulk + (parseFr b).cr0 ∧ (t.port p).crCtrl = (s.port p).crCtrl + (parseFr b).cr1
      ∧ t.out = s.out := by
  refine .of_next (h.receive_ack (act := fun s _ => s) (by decide) (by decide)) ?_
  cases hhead : (s.port p).retry.head? with
  | none =>
    rw [State.takeAck_none hhead, State.takeCredits_idle hwait]
    simp
  | some e =>
    obtain ⟨h0, hn⟩ := hack e hhead
    rw [State.takeAck_some hhead h0 hn, State.takeCredits_idle (by simpa using hwait)]
    simp

/-- A NAK of the oldest frame has every frame sent again. -/
theorem nak_resends (s : State) (p : Nat) (b : List Byte) (h : Arrives s p b 4 0) (hwait : (s.port p).waitq = [])
    (hack : ∀ e ∈ (s.port p).retry.head?, (parseFr b).ack % 65536 = e.1 % 65536) :
    Yields (.nak p b) s fun t => t.out = s.out ++ resent p (s.port p).retry ∧ (t.port p).retry = (s.port p).retry := by
  refine .of_next (h.receive_ack (act := fun s _ => s.resendAll p) (by decide) (by decide)) ?_
  have htake : s.takeAck p (parseFr b).ack = s := by
    cases hhead : (s.port p).retry.head? with
    | none => exact State.takeAck_none hhead
    | some e => exact State.takeAck_zero hhead (cdist_eq_zero (hack e hhead))
  rw [htake, State.takeCredits_idle hwait]
  by_cases hr : (s.port p).retry = []
  · rw [State.resendAll_nil (by simpa using hr)]
    simp [resent, hr]
  · obtain ⟨hout, -, hport⟩ := State.resendAll_spec (s := s.updPort p fun q =>
      { q with crBulk := q.crBulk + (parseFr b).cr0, crCtrl := q.crCtrl + (parseFr b).cr1 }) (p := p) (by simpa using hr)
    simp [hout, hport]

/-- Settles O21: each row is the shared part of a link's receiving or resending. -/
theorem linkRetry : Obligations.LinkRetry := by
  refine ⟨ack_frees, nak_resends, fun s p hp hon hup hretry => ?_, fun s p hp hon hup => ?_⟩
  · have hrun : exec (.retransmitTimeout p) s = .next ((s.atTime ((s.port p).lastAck + 10000 * ((s.port p).retrans + 1))).resendAll p) := by
      change execRetransmitTimeout p s = _
      simp [execRetransmitTimeout, Nat.not_le.2 hp, hon, hup, hretry]
    obtain ⟨hout, htime, hport⟩ := State.resendAll_spec (s := s.atTime ((s.port p).lastAck + 10000 * ((s.port p).retrans + 1))) (p := p) hretry
    refine .of_next hrun ⟨hout, ?_, ?_, ?_⟩
    · rw [hport]
      rfl
    · rw [hport]
      rfl
    · rw [htime]
      rfl
  · have hrun : exec (.ackKeepalive p) s = .next (s.sendAck p 3) := by
      change execAckKeepalive p s = _
      simp [execAckKeepalive, Nat.not_le.2 hp, hon, hup]
    refine .of_next hrun ?_
    simp [State.sendAck]

end Sys2Proof.Machine
end

section
/-! THE HORIZON'S REGISTERS (O22). Ports as they start to train and as they are switched off; the domains' fields. -/

namespace Sys2Proof.Machine

theorem State.widthChanged_only (s : State) (before : Nat) : ChangesOnly [.pins, .funcs, .msix, .parts, .log] s (s.widthChanged before) :=
  (State.widthChanged_ev (k := false) (.refl _ s) rfl).only

theorem State.devChangeAll_only (s : State) (off : Nat) : ChangesOnly [.pins, .funcs, .msix, .log] s (s.devChangeAll off) :=
  (State.devChangeAll_ev (k := false) (.refl _ s) rfl).only

@[simp] theorem State.devChangeAll_hzn (s : State) (off : Nat) : (s.devChangeAll off).hzn = s.hzn := s.devChangeAll_only off .hzn (by decide)

@[simp] theorem State.logEv_hzn (s : State) (code cls kind unit ctx : Nat) (data : List Nat) : (s.logEv code cls kind unit ctx data).hzn = s.hzn :=
  (State.logEv_ev (k := false) (l := [.pins, .log]) (.refl _ s) rfl).only .hzn (by decide)

/-- A horizon of the same registers, with other ports. -/
def SameButPorts (h j : Horizon) : Prop := j = { h with ports := j.ports }

theorem SameButPorts.trans {h i j : Horizon} (a : SameButPorts h i) (b : SameButPorts i j) : SameButPorts h j := by
  rw [SameButPorts] at *
  rw [b, a]

/-- A port's STATE changes its port alone. -/
theorem State.portState_hzn (s : State) (p st : Nat) :
    (s.portState p st).hzn = if (s.port p).st = st then s.hzn else { s.hzn with ports := s.hzn.ports.upd {} p fun q => { q with st } } := by
  simp only [State.portState]
  split
  · rfl
  · rw [State.widthChanged_only _ _ .hzn (by decide), State.logEv_hzn]
    rfl

theorem State.portState_sameButPorts (s : State) (p st : Nat) : SameButPorts s.hzn (s.portState p st).hzn := by
  rw [State.portState_hzn]
  split <;> rfl

theorem State.portState_st (s : State) (p st q : Nat) : ((s.portState p st).port q).st = if q = p then st else (s.port q).st := by
  rw [State.port, State.portState_hzn]
  split
  next h =>
    split
    next e => rw [e]; exact h
    next => rfl
  next =>
    rw [Tbl.get_upd]
    split <;> rfl

theorem State.startTrain_eq (s : State) (p : Nat) :
    s.startTrain p = (s.updPort p fun q => { st := q.st, since := s.time.now }).portState p (if s.pins.sdsAbsent.get false (p / 12) then 0 else 1) := by
  rw [State.startTrain]
  cases h : s.pins.sdsAbsent.get false (p / 12) <;> simp [h]

/-- A port that begins to train is in TRAIN while its reference clock is there. -/
theorem State.startTrain_st (s : State) (p q : Nat) :
    ((s.startTrain p).port q).st = if q = p then (if s.pins.sdsAbsent.get false (p / 12) then 0 else 1) else (s.port q).st := by
  rw [State.startTrain_eq, State.portState_st]
  split
  · rfl
  next h => rw [State.updPort_ne _ _ _ h]

theorem State.startTrain_sameButPorts (s : State) (p : Nat) : SameButPorts s.hzn (s.startTrain p).hzn := by
  rw [State.startTrain_eq]
  exact State.portState_sameButPorts _ _ _

/-- What every step of a fold relates, the fold relates. -/
theorem foldl_rel {α : Type} {R : State → State → Prop} (hrefl : ∀ s, R s s) (htrans : ∀ {s t u}, R s t → R t u → R s u) {f : State → α → State}
    (h : ∀ s a, R s (f s a)) (xs : List α) (s : State) : R s (xs.foldl f s) := by
  induction xs generalizing s with
  | nil => exact hrefl s
  | cons x xs ih => exact htrans (h s x) (ih _)

/-- Once the ports of a list have begun to train, each with its reference clock is in TRAIN. -/
theorem State.foldl_startTrain_st {ps : List Nat} {p : Nat} (s : State) (hclk : s.pins.sdsAbsent.get false (p / 12) = false)
    (h : p ∈ ps ∨ (s.port p).st = 1) : ((ps.foldl State.startTrain s).port p).st = 1 := by
  induction ps generalizing s with
  | nil => simpa using h
  | cons q ps ih =>
    refine ih (s.startTrain q) (by rwa [State.startTrain_pins]) ?_
    by_cases hpq : p = q
    · right
      rw [State.startTrain_st, if_pos hpq, ← hpq, hclk]
      rfl
    · refine (h.imp_left fun hm => (List.mem_cons.1 hm).resolve_left hpq).imp_right fun h1 => ?_
      rw [State.startTrain_st, if_neg hpq, h1]

/-- A port switched off: STATE 3, all else as after reset. -/
def State.portOff (s : State) (p : Nat) : State := (s.portState p 3).updPort p fun _ => {}

theorem State.portOff_st (s : State) (p q : Nat) : ((s.portOff p).port q).st = if q = p then 3 else (s.port q).st := by
  rw [State.portOff, State.updPort_at]
  split
  · rfl
  next h => rw [State.portState_st, if_neg h]

theorem State.portOff_sameButPorts (s : State) (p : Nat) : SameButPorts s.hzn (s.portOff p).hzn := by
  rw [State.portOff, State.updPort, State.portState_hzn]
  split <;> rfl

theorem State.foldl_portOff_st {ps : List Nat} {p : Nat} (s : State) (h : p ∈ ps ∨ (s.port p).st = 3) : ((ps.foldl State.portOff s).port p).st = 3 := by
  induction ps generalizing s with
  | nil => simpa using h
  | cons q ps ih =>
    refine ih (s.portOff q) ?_
    by_cases hpq : p = q
    · right
      rw [State.portOff_st, if_pos hpq]
    · refine (h.imp_left fun hm => (List.mem_cons.1 hm).resolve_left hpq).imp_right fun h1 => ?_
      rw [State.portOff_st, if_neg hpq, h1]

/-- A word with d written to the k-th of its four 16-bit fields. -/
def setField16 (k d : Nat) (w : Word) : Word := BitVec.ofNat 64 (w.toNat - fld w.toNat (16 * k) 16 * 2 ^ (16 * k) + d * 2 ^ (16 * k))

/-- Writing one of the four 16-bit fields of a word leaves the other three. -/
theorem fld_setField16 (w : Word) {d j k : Nat} (hj : j < 4) (hk : k < 4) (hd : d < 2 ^ 16) :
    fld (setField16 k d w).toNat (16 * j) 16 = if j = k then d else fld w.toNat (16 * j) 16 := by
  have hw : w.toNat < 2 ^ 64 := w.isLt
  simp only [setField16, fld, BitVec.toNat_ofNat]
  interval_cases k <;> interval_cases j <;> simp <;> omega

theorem foldl_sameButPorts {f : State → Nat → State} (h : ∀ s p, SameButPorts s.hzn (f s p).hzn) (ps : List Nat) (s : State) :
    SameButPorts s.hzn (ps.foldl f s).hzn :=
  foldl_rel (R := fun s t => SameButPorts s.hzn t.hzn) (fun _ => rfl) .trans h ps s

/-- The state with another horizon. -/
def State.withHzn (s : State) (h : Horizon) : State := { s with hzn := h }

/-- A write of HZN_CTRL with ENABLE 1 while the horizon is off: the ID is taken, and the present, enabled ports begin to train. -/
theorem exec_horizonEnable {s : State} {v : Nat} (hready : s.ready = true) (hen : bit v 32 = true) (hoff : s.hzn.enabled = false) (hid : bit v 17 = false) :
    exec (.horizonEnable v) s = .next ((((List.range 36).filter fun p => s.portPresent p && s.hzn.portEn p).foldl State.startTrain
      (s.withHzn { s.hzn with engineId := fld v 0 18, ctrl := BitVec.ofNat 64 (2 ^ 32 + fld v 0 18) })).devChangeAll 0x20) := by
  have hbit : bit (fld v 0 18) 17 = false := by
    simp only [bit, fld, beq_eq_false_iff_ne] at hid ⊢
    omega
  have hoff' : s.hzn.ctrl.getLsbD 32 = false := hoff
  change execHorizonEnable v s = _
  by_cases hsame : fld v 0 18 = s.hzn.engineId
  · simp only [execHorizonEnable, hready, hen, State.writeHznCtrl, hsame, hoff, Bool.not_true, Bool.or_self, Bool.false_eq_true, if_false, if_true, show (true == false) = false from rfl]
    rfl
  · simp only [execHorizonEnable, hready, hen, State.writeHznCtrl, if_neg hsame, hbit, Horizon.enabled, hoff', Bool.not_true, Bool.or_self, Bool.false_eq_true,
      if_false, if_true, show (true == false) = false from rfl]
    rfl

theorem exec_horizonDisable {s : State} (hready : s.ready = true) (hon : s.hzn.enabled = true) (hid : s.hzn.engineId < 2 ^ 18) :
    exec .horizonDisable s = .next ((((List.range 36).filter fun p => (s.port p).st != 3).foldl State.portOff
      (s.withHzn { s.hzn with ctrl := BitVec.ofNat 64 (fld s.hzn.ctrl.toNat 0 18) })).devChangeAll 0x20) := by
  have hsame : fld s.hzn.engineId 0 18 = s.hzn.engineId := by
    simp only [fld]
    omega
  have hbit : bit s.hzn.engineId 32 = false := by
    simp only [bit, fld, beq_eq_false_iff_ne]
    omega
  change execHorizonDisable s = _
  simp only [execHorizonDisable, hready, State.writeHznCtrl, if_pos hsame, hon, hbit, Bool.not_true, Bool.false_eq_true, if_false, show (false == true) = false from rfl]
  rfl

/-- Two folds whose steps agree wherever a property holds that the second one's steps keep. -/
theorem foldl_congr_kept {α : Type} {P : State → Prop} {f g : State → α → State} {xs : List α} {s : State} (hfg : ∀ s, ∀ x ∈ xs, P s → f s x = g s x)
    (hkeep : ∀ s, ∀ x ∈ xs, P s → P (g s x)) (hs : P s) : xs.foldl f s = xs.foldl g s := by
  induction xs generalizing s with
  | nil => rfl
  | cons x xs ih =>
    rw [List.foldl_cons, List.foldl_cons, hfg s x List.mem_cons_self hs]
    exact ih (fun s y hy => hfg s y (List.mem_cons_of_mem _ hy)) (fun s y hy => hkeep s y (List.mem_cons_of_mem _ hy)) (hkeep s x List.mem_cons_self hs)

/-- What a domain register's write does for its field k. -/
def State.setDomain (s : State) (r v k : Nat) : State :=
  if s.hzn.domainOf (4 * r + k) = fld v (16 * k) 16 then s
  else s.withHzn { s.hzn with domains := s.hzn.domains.upd 0 r (setField16 k (fld v (16 * k) 16)) }

/-- A written field has its domain, and every other context the domain it had. -/
theorem State.setDomain_domainOf (s : State) (r v c : Nat) {k : Nat} (hk : k < 4) :
    (s.setDomain r v k).hzn.domainOf c = if c = 4 * r + k then fld v (16 * k) 16 else s.hzn.domainOf c := by
  rw [State.setDomain]
  split
  next hsame =>
    split
    next hc => rw [hc, hsame]
    next => rfl
  next =>
    simp only [State.withHzn, Horizon.domainOf, Tbl.get_upd]
    have hd : fld v (16 * k) 16 < 2 ^ 16 := Nat.mod_lt _ (by decide)
    by_cases hr : c / 4 = r
    · rw [if_pos hr, fld_setField16 _ (Nat.mod_lt c (by decide)) hk hd, hr]
      by_cases hc : c % 4 = k
      · rw [if_pos hc, if_pos (by omega)]
      · rw [if_neg hc, if_neg (by omega)]
    · rw [if_neg hr, if_neg (by omega)]

theorem State.setDomain_horizonResident (s : State) (r v k c : Nat) : (s.setDomain r v k).horizonResident c = s.horizonResident c := by
  rw [State.setDomain]
  split <;> rfl

theorem exec_hznDomainWrite {s : State} {r v : Nat} (hr : r < 64) (hready : s.ready = true) (hfree : ∀ k < 4, s.horizonResident (4 * r + k) = false) :
    exec (.hznDomainWrite r v) s = .next ((List.range 4).foldl (fun s k => s.setDomain r v k) s) := by
  change execHznDomainWrite r v s = _
  simp only [execHznDomainWrite, if_neg (Nat.not_le.2 hr), hready, Bool.not_true, Bool.false_eq_true, if_false]
  refine congrArg Host.Outcome.next
    (foldl_congr_kept (P := fun u => ∀ k < 4, u.horizonResident (4 * r + k) = false) (fun u k hk hu => ?_) (fun u k hk hu j hj => ?_) hfree)
  · simp only [hu k (List.mem_range.1 hk), Bool.false_eq_true, if_false]
    rfl
  · rw [State.setDomain_horizonResident]
    exact hu j hj

/-- Settles O22: ports begin to train or go off one by one; a domain register's fields are written one by one. -/
theorem horizonRegisters : Obligations.HorizonRegisters := by
  refine ⟨fun s v hready hen hoff hid => ?_, fun s hready hon hid => ?_, fun s r v hr hready hfree => ?_, fun s g rest hsig => ?_⟩
  · refine .of_next (exec_horizonEnable hready hen hoff hid) ?_
    have hsame := foldl_sameButPorts State.startTrain_sameButPorts ((List.range 36).filter fun p => s.portPresent p && s.hzn.portEn p)
      (s.withHzn { s.hzn with engineId := fld v 0 18, ctrl := BitVec.ofNat 64 (2 ^ 32 + fld v 0 18) })
    have hlt : fld v 0 18 < 2 ^ 18 := Nat.mod_lt _ (by decide)
    refine ⟨?_, ?_, fun p hp hpresent hpen hclk => ?_⟩
    · rw [State.devChangeAll_hzn, hsame]
      simp only [State.withHzn, Horizon.enabled, BitVec.getLsbD_ofNat, Nat.testBit_two_pow_add_eq]
      simp [Nat.testBit_lt_two_pow (Nat.lt_of_lt_of_le hlt (by decide : 2 ^ 18 ≤ 2 ^ 32))]
    · rw [State.devChangeAll_hzn, hsame]
      simp [State.withHzn, fld]
    · rw [State.port, State.devChangeAll_hzn]
      exact State.foldl_startTrain_st _ hclk (.inl (by simp [hp, hpresent, hpen]))
  · refine .of_next (exec_horizonDisable hready hon hid) ?_
    have hsame := foldl_sameButPorts State.portOff_sameButPorts ((List.range 36).filter fun p => (s.port p).st != 3)
      (s.withHzn { s.hzn with ctrl := BitVec.ofNat 64 (fld s.hzn.ctrl.toNat 0 18) })
    have hlt : fld s.hzn.ctrl.toNat 0 18 < 2 ^ 18 := Nat.mod_lt _ (by decide)
    refine ⟨?_, ?_, fun p hp => ?_⟩
    · rw [State.devChangeAll_hzn, hsame]
      simp only [State.withHzn, Horizon.enabled, BitVec.getLsbD_ofNat, Nat.testBit_lt_two_pow (Nat.lt_of_lt_of_le hlt (by decide : 2 ^ 18 ≤ 2 ^ 32)), Bool.and_false]
    · rw [State.devChangeAll_hzn, hsame]
      rfl
    · rw [State.port, State.devChangeAll_hzn]
      refine State.foldl_portOff_st _ ?_
      by_cases h3 : (s.port p).st = 3
      · exact .inr h3
      · exact .inl (by simp [hp, h3])
  · refine .of_next (exec_hznDomainWrite hr hready hfree) ?_
    simp only [show List.range 4 = [0, 1, 2, 3] from rfl, List.foldl_cons, List.foldl_nil]
    refine ⟨fun k hk => ?_, fun c hc => ?_⟩
    · simp only [State.setDomain_domainOf, Nat.lt_add_one, show 0 < 4 from by decide, show 1 < 4 from by decide, show 2 < 4 from by decide]
      interval_cases k <;> simp [fld, Nat.shiftRight_eq_div_pow]
    · simp only [State.setDomain_domainOf, Nat.lt_add_one, show 0 < 4 from by decide, show 1 < 4 from by decide, show 2 < 4 from by decide]
      rw [if_neg (by omega), if_neg (by omega), if_neg (by omega), if_neg (by omega)]
  · change execRemoteSignalDrop s = _
    simp only [execRemoteSignalDrop, hsig]
    rfl

end Sys2Proof.Machine
end

section
/-! TIME ACROSS ENGINES (O23). What a TIME frame's acknowledgement and credits leave as it is, and the rows of synchronisation. -/

namespace Sys2Proof.Machine

/-- The link's part of a legal frame that is neither DATA nor CTRL: its acknowledgement and its credits (R401, R402). -/
def State.acked (s : State) (p : Nat) (f : Fr) : State := (s.takeAck p f.ack).takeCredits p f

theorem State.acked_evolves (s : State) (p : Nat) (f : Fr) : Evolves true [.hzn] s (s.acked p f) :=
  State.takeCredits_ev (State.takeAck_ev (.refl _ s) rfl) rfl

/-- States whose horizons differ in the ports alone, and of them not in the numbers expected. -/
def SameExpected (s t : State) : Prop := SameButPorts s.hzn t.hzn ∧ ∀ p, (t.port p).expected = (s.port p).expected

theorem SameExpected.refl (s : State) : SameExpected s s := ⟨rfl, fun _ => rfl⟩

theorem SameExpected.trans {s t u : State} (h : SameExpected s t) (j : SameExpected t u) : SameExpected s u :=
  ⟨h.1.trans j.1, fun p => (j.2 p).trans (h.2 p)⟩

theorem State.updPort_sameExpected (s : State) (p : Nat) {g : Port → Port} (hg : ∀ q, (g q).expected = q.expected) : SameExpected s (s.updPort p g) := by
  refine ⟨rfl, fun q => ?_⟩
  rw [State.updPort_at]
  split
  next h => rw [hg, h]
  next => rfl

theorem State.launchFrame_sameExpected (s : State) (p : Nat) (f : Fr) : SameExpected s (s.launchFrame p f) :=
  State.updPort_sameExpected s p fun _ => rfl

theorem State.pumpPort_sameExpected (s : State) (p n : Nat) : SameExpected s (s.pumpPort p n) := by
  induction n generalizing s with
  | zero => exact .refl s
  | succ n ih =>
    rw [State.pumpPort]
    split
    · exact .refl s
    next f rest _ =>
      have hwait : SameExpected s (s.updPort p fun q => { q with waitq := rest }) := s.updPort_sameExpected p fun _ => rfl
      exact (hwait.trans (State.launchFrame_sameExpected _ p f)).trans (ih _)

/-- An acknowledgement takes nothing, or some of the oldest frames. -/
theorem State.takeAck_cases (s : State) (p ack : Nat) :
    s.takeAck p ack = s ∨ ∃ n, s.takeAck p ack = s.updPort p fun q => { q with retry := q.retry.drop n, retrans := 0, lastAck := s.time.now } := by
  cases hhead : (s.port p).retry.head? with
  | none => exact .inl (State.takeAck_none hhead)
  | some e =>
    by_cases h : cdist 16 ack e.1 = 0 ∨ (s.port p).retry.length < cdist 16 ack e.1
    · left
      simp only [State.takeAck, hhead, if_pos h]
    · obtain ⟨h0, hn⟩ := not_or.1 h
      exact .inr ⟨_, State.takeAck_some hhead (Nat.pos_of_ne_zero h0) (Nat.le_of_not_lt hn)⟩

theorem State.takeAck_sameExpected (s : State) (p ack : Nat) : SameExpected s (s.takeAck p ack) := by
  rcases s.takeAck_cases p ack with h | ⟨n, h⟩ <;> rw [h]
  · exact .refl s
  · exact s.updPort_sameExpected p fun _ => rfl

theorem State.acked_sameExpected (s : State) (p : Nat) (f : Fr) : SameExpected s (s.acked p f) := by
  have hcr : SameExpected (s.takeAck p f.ack) ((s.takeAck p f.ack).updPort p fun q => { q with crBulk := q.crBulk + f.cr0, crCtrl := q.crCtrl + f.cr1 }) :=
    State.updPort_sameExpected _ p fun _ => rfl
  exact ((s.takeAck_sameExpected p f.ack).trans hcr).trans (State.pumpPort_sameExpected _ p _)

@[simp] theorem State.acked_time (s : State) (p : Nat) (f : Fr) : (s.acked p f).time = s.time := (s.acked_evolves p f).only .time (by decide)

theorem State.acked_ready (s : State) (p : Nat) (f : Fr) : (s.acked p f).ready = s.ready := by
  have hpins := (s.acked_evolves p f).only .pins (by decide)
  have hhub := (s.acked_evolves p f).only .hub (by decide)
  simp only [State.ready, show (s.acked p f).pins = s.pins from hpins, show (s.acked p f).hub = s.hub from hhub]

theorem State.acked_isChild (s : State) (p : Nat) (f : Fr) : (s.acked p f).isChild = s.isChild := by
  rw [State.isChild, State.acked_ready, (s.acked_sameExpected p f).1]
  rfl

theorem State.timeFrame_congr {s t : State} (h : SameExpected s t) (p op dst : Nat) (b : List Byte) : t.timeFrame p op dst b = s.timeFrame p op dst b := by
  obtain ⟨hhzn, hexp⟩ := h
  have hid : t.hzn.engineId = s.hzn.engineId := by rw [hhzn]
  simp only [State.timeFrame, hexp, hid]

theorem State.sendTime_eq (s : State) (p op dst : Nat) (b : List Byte) : s.sendTime p op dst b = s.emit (.frame p (s.timeFrame p op dst b)) := rfl

/-- A legal TIME frame for this engine is taken: its acknowledgement, its credits, then its row's own part. -/
theorem Arrives.receive_time {s : State} {p op : Nat} {b : List Byte} {act : State → Fr → State} (h : Arrives s p b 5 op)
    (hmine : (parseFr b).dst = s.hzn.engineId) : s.receive p b 5 op act = .next (act (s.acked p (parseFr b)) (parseFr b)) := by
  obtain ⟨htyp, hop⟩ := h.kind
  have hid : (s.acked p (parseFr b)).hzn.engineId = s.hzn.engineId := by rw [(s.acked_sameExpected p _).1]
  rw [State.acked] at hid
  simp [State.receive, Nat.not_le.2 h.port, h.running, h.up, h.crc, h.legal, h.address, htyp, hop, hid, hmine, State.acked]

/-- SYNC and FOLLOW to a list of ports. -/
theorem State.foldl_sendTime (ps : List Nat) (s : State) :
    ps.foldl (fun s p => (s.sendTime p 1 (s.hzn.peer p) []).sendTime p 2 (s.hzn.peer p) (leBytes 8 s.time.now)) s
      = { s with out := s.out ++ ps.flatMap fun p =>
          [.frame p (s.timeFrame p 1 (s.hzn.peer p) []), .frame p (s.timeFrame p 2 (s.hzn.peer p) (leBytes 8 s.time.now))] } := by
  induction ps generalizing s with
  | nil => simp
  | cons p ps ih =>
    rw [List.foldl_cons, ih, List.flatMap_cons, ← List.append_assoc]
    simp only [State.sendTime_eq, State.emit, List.append_assoc]
    rfl

/-- An offset of 32 bits is read back from its field. -/
theorem sext_uwrap {off : Int} (hlo : -2 ^ 31 ≤ off) (hhi : off < 2 ^ 31) : sext 32 (uwrap 32 off) = off := by
  simp only [sext, uwrap]
  norm_num at *
  by_cases h : 2 * (off % 4294967296).toNat < 4294967296
  · rw [if_pos (by omega)]
    omega
  · rw [if_neg (by omega)]
    omega

/-- The ports to an engine's children (R414; log entry 43). -/
def State.childPorts (s : State) : List Nat :=
  (List.range 36).filter fun p => (s.port p).st == 2 && !s.hzn.toSwitch p && (s.hzn.isRoot || p != s.hzn.parent)

/-- SYNC and FOLLOW to the children at a later time. -/
theorem State.foldl_sendTime_atTime (s : State) {n : Nat} (hn : s.time.now ≤ n) :
    (s.atTime n).childPorts.foldl (fun s p => (s.sendTime p 1 (s.hzn.peer p) []).sendTime p 2 (s.hzn.peer p) (leBytes 8 s.time.now)) (s.atTime n)
      = { s with
          time := { s.time with now := n }
          out := s.out ++ s.childPorts.flatMap fun p =>
            [.frame p (s.timeFrame p 1 (s.hzn.peer p) []), .frame p (s.timeFrame p 2 (s.hzn.peer p) (leBytes 8 n))] } := by
  have hlater : s.atTime n = { s with time := { s.time with now := n } } := by rw [State.atTime, Nat.max_eq_right hn]
  rw [State.foldl_sendTime, hlater]
  rfl

theorem exec_timeSyncWindow {s : State} (hready : s.ready = true) (hon : s.hzn.enabled = true) (hsync : s.hzn.syncEn = true) :
    exec .timeSyncWindow s = .next { s with
      time := { s.time with now := (s.time.now + 999999) / 1000000 * 1000000 }
      out := s.out ++ s.childPorts.flatMap fun p =>
        [.frame p (s.timeFrame p 1 (s.hzn.peer p) []),
         .frame p (s.timeFrame p 2 (s.hzn.peer p) (leBytes 8 ((s.time.now + 999999) / 1000000 * 1000000)))] } := by
  have hle : s.time.now ≤ (s.time.now + 999999) / 1000000 * 1000000 := by omega
  rw [← s.foldl_sendTime_atTime hle]
  change execTimeSyncWindow s = _
  simp only [execTimeSyncWindow, hready, hon, hsync, Bool.not_true, Bool.or_self, Bool.false_eq_true, if_false, State.childPorts]

theorem State.acked_parent (s : State) (p : Nat) (f : Fr) : (s.acked p f).hzn.parent = s.hzn.parent := by
  rw [(State.acked_sameExpected s p f).1]
  rfl

/-- SYNC stamps its arrival. -/
theorem sync_stamps (s : State) (b : List Byte) (stamp : Nat) (hchild : s.isChild = true) (h : Arrives s s.hzn.parent b 5 1)
    (hmine : (parseFr b).dst = s.hzn.engineId) : Yields (.sync s.hzn.parent b stamp) s fun t =>
      t.time = { s.time with now := max s.time.now stamp, t2 := stamp, c1 := sext 32 (parseFr b).offset, gotFollow := false } := by
  have hexec : exec (.sync s.hzn.parent b stamp) s = _ := (show execSync s.hzn.parent b stamp s = _ from rfl).trans (h.receive_time hmine)
  refine .of_next hexec ?_
  simp only [State.acked_isChild, hchild, State.acked_parent, Bool.not_true, bne_self_eq_false, Bool.or_self, Bool.false_eq_true, if_false, State.atTime, State.acked_time]

/-- FOLLOW is answered with REQ. -/
theorem follow_asks (s : State) (b : List Byte) (hchild : s.isChild = true) (h : Arrives s s.hzn.parent b 5 2) (hmine : (parseFr b).dst = s.hzn.engineId) :
    Yields (.follow s.hzn.parent b) s fun t => t.time = { s.time with t1 := at8 (parseFr b).payload 0, gotFollow := true, t3 := s.time.now }
      ∧ ∃ more, t.out = s.out ++ more ++ [.frame s.hzn.parent (s.timeFrame s.hzn.parent 3 (parseFr b).src [])] := by
  have hexec : exec (.follow s.hzn.parent b) s = _ := (show execFollow s.hzn.parent b s = _ from rfl).trans (h.receive_time hmine)
  obtain ⟨more, hout, -⟩ := (s.acked_evolves s.hzn.parent (parseFr b)).posted
  refine .of_next hexec ?_
  simp only [State.acked_isChild, hchild, State.acked_parent, Bool.not_true, bne_self_eq_false, Bool.or_self, Bool.false_eq_true, if_false, State.sendTime_eq, State.emit,
    State.acked_time, hout, true_and]
  refine ⟨more, ?_⟩
  rw [← State.timeFrame_congr (s.acked_sameExpected s.hzn.parent (parseFr b))]
  rfl

/-- REQ is answered with RESP, which carries its time of arrival. -/
theorem req_answers (s : State) (p : Nat) (b : List Byte) (stamp : Nat) (hsync : s.hzn.syncEn = true) (h : Arrives s p b 5 3)
    (hmine : (parseFr b).dst = s.hzn.engineId) : Yields (.req p b stamp) s fun t => t.time.now = max s.time.now stamp
      ∧ ∃ more, t.out = s.out ++ more ++ [.frame p (s.timeFrame p 4 (parseFr b).src (leBytes 8 stamp ++ leBytes 4 (parseFr b).offset))] := by
  have hexec : exec (.req p b stamp) s = _ := (show execReq p b stamp s = _ from rfl).trans (h.receive_time hmine)
  obtain ⟨more, hout, -⟩ := (s.acked_evolves p (parseFr b)).posted
  have hsync' : (s.acked p (parseFr b)).hzn.syncEn = true := by
    rw [(State.acked_sameExpected s p _).1]
    exact hsync
  refine .of_next hexec ?_
  simp only [hsync', Bool.not_true, Bool.false_eq_true, if_false, State.sendTime_eq, State.emit, State.atTime, State.acked_time, hout, true_and]
  refine ⟨more, ?_⟩
  rw [← State.timeFrame_congr (s.acked_sameExpected p (parseFr b))]
  rfl

/-- What the exchange of offset off makes of the time base (R414). -/
def TimeBase.steered (t : TimeBase) (off : Int) : TimeBase :=
  let near := decide (off.natAbs ≤ 100)
  let lock := if near then t.inLock + 1 else 0
  { t with
    offset := sext 32 (uwrap 32 off), gotFollow := false, exchanges := t.exchanges + 1, lastExchange := t.now, inLock := min lock 16
    sync := if 16 ≤ lock then 2 else if near && t.sync == 2 then 2 else 1
    now := if t.exchanges == 0 && decide (off < 0) then t.now + off.natAbs else t.now }

/-- RESP steers the time base by its exchange's offset. -/
theorem resp_steers (s : State) (b : List Byte) (off : Int) (hchild : s.isChild = true) (hfollow : s.time.gotFollow = true)
    (h : Arrives s s.hzn.parent b 5 4) (hmine : (parseFr b).dst = s.hzn.engineId)
    (hoff : off = (((s.time.t2 : Int) - s.time.t1 - s.time.c1) - ((at8 (parseFr b).payload 0 : Int) - s.time.t3 - sext 32 (at4 (parseFr b).payload 8))) / 2)
    (hhi : off ≤ 10000000) : Yields (.resp s.hzn.parent b) s fun t => t.time = s.time.steered off := by
  have hexec : exec (.resp s.hzn.parent b) s = _ := (show execResp s.hzn.parent b s = _ from rfl).trans (h.receive_time hmine)
  refine .of_next hexec ?_
  simp only [State.acked_isChild, hchild, State.acked_parent, State.acked_time, hfollow, ← hoff, if_neg (Int.not_lt.2 hhi), Bool.not_true, bne_self_eq_false, Bool.or_self,
    Bool.false_eq_true, if_false]
  rfl

@[simp] theorem State.logEv_time (s : State) (code cls kind unit ctx : Nat) (data : List Nat) : (s.logEv code cls kind unit ctx data).time = s.time :=
  (State.logEv_ev (k := false) (l := [.pins, .log]) (.refl _ s) rfl).only .time (by decide)

theorem exec_timeSyncFault {s : State} (hchild : s.isChild = true) (hsync : s.time.sync ≠ 3) :
    exec .timeSyncFault s = .next (s.atTime (s.time.lastExchange + 100000000)).syncFault := by
  change execTimeSyncFault s = _
  simp [execTimeSyncFault, hchild, hsync]

/-- Settles O23: the rows read their fields in the state that the frame's acknowledgement leaves, which has the same time base. -/
theorem timeSynchronisation : Obligations.TimeSynchronisation := by
  refine ⟨fun s => exec_timeSyncWindow, sync_stamps, follow_asks, req_answers, fun s b off hchild hfollow h hmine hoff hlo hhi => ?_, fun s hchild hsync => ?_⟩
  · obtain ⟨t, hexec, htime⟩ := resp_steers s b off hchild hfollow h hmine hoff hhi
    refine .of_next hexec ?_
    rw [htime]
    refine ⟨sext_uwrap hlo (by omega), rfl, fun hfar => ?_, fun hnear => ?_, fun hnear hlock => ?_, fun hfirst hneg => ?_, fun hlater => ?_⟩
    · simp [TimeBase.steered, Nat.not_le.2 hfar]
    · simp [TimeBase.steered, hnear]
    · simp [TimeBase.steered, hnear, show 16 ≤ s.time.inLock + 1 by omega]
    · simp [TimeBase.steered, hfirst, hneg]
    · have hstays : ¬ (s.time.exchanges = 0 ∧ off < 0) := by omega
      simp [TimeBase.steered, hstays]
  · refine .of_next (exec_timeSyncFault hchild hsync) ?_
    simp only [State.syncFault, State.logEv_time, State.atTime_now, and_self]

end Sys2Proof.Machine
end

section
/-! THE SIDEBAND (O24). An answer is put out once; the bytes of a status reply. -/

namespace Sys2Proof.Machine

theorem State.answer_up {s : State} (e : OutEvent) (f : State → State) (h : s.hubUp = true) : s.answer e f = .next ((f s).emit e) := by
  rw [State.answer, State.sidebandUp, if_pos h]

/-- What two low-order-first bytes spell. -/
theorem leNat_leBytes_two (v : Nat) : leNat (leBytes 2 v) = v % 65536 := by
  simp only [leBytes, leNat, BitVec.toNat_ofNat]
  omega

theorem leNat_leBytes_one (v : Nat) : leNat (leBytes 1 v) = v % 256 := by
  simp only [leBytes, leNat, BitVec.toNat_ofNat]
  omega

theorem leBytes_length (n v : Nat) : (leBytes n v).length = n := by
  induction n generalizing v with
  | zero => rfl
  | succ n ih => simp [leBytes, ih]

/-- Bytes read at the place where a part of a message begins. -/
theorem leAt_append {a b c : List Byte} {off n : Nat} (ha : a.length = off) (hb : b.length = n) : leAt (a ++ (b ++ c)) off n = leNat b := by
  rw [leAt, List.drop_left' ha, List.take_left' hb]

/-- The bytes of GET_STATUS's reply, in the order of R504. -/
def State.statusBytes (s : State) : List Byte :=
  (leBytes 1 0x7E ++ beBytes 2 s.part.vendorId ++ leBytes 1 0) ++ (leBytes 2 s.limitInForce ++ (leBytes 2 s.power.mean ++ (leBytes 1 s.power.hottest
    ++ (leBytes 1 s.power.sensor ++ ((List.range 10).flatMap (fun c => leBytes 2 (fld (if s.clPresent c then (s.cl c).opReg else 0) 0 16))
    ++ (leBytes 1 (b2n s.hub.lost + 2 * b2n s.pins.thermtrip) ++ []))))))

theorem exec_getStatus {s : State} (h : s.hubUp = true) :
    exec .getStatus s = .next ({ s with pins := { s.pins with smbAlert := s.pins.thermtrip } }.emit (.mctp s.statusBytes)) := by
  change execGetStatus s = _
  simp only [execGetStatus, State.answer_up _ _ h, State.vendorReply, State.statusBytes, List.append_assoc, List.append_nil]

/-- The values that a status reply carries. -/
theorem State.statusBytes_fields (s : State) : s.statusBytes.length = 31
    ∧ leAt s.statusBytes 4 2 = s.limitInForce % 65536 ∧ leAt s.statusBytes 6 2 = s.power.mean % 65536 ∧ leAt s.statusBytes 8 1 = s.power.hottest % 256
    ∧ leAt s.statusBytes 9 1 = s.power.sensor % 256 ∧ leAt s.statusBytes 30 1 = b2n s.hub.lost + 2 * b2n s.pins.thermtrip := by
  have hhead : (leBytes 1 0x7E ++ beBytes 2 s.part.vendorId ++ leBytes 1 0).length = 4 := by simp [beBytes, leBytes_length]
  have hpts : ((List.range 10).flatMap fun c => leBytes 2 (fld (if s.clPresent c then (s.cl c).opReg else 0) 0 16)).length = 20 := by
    simp [List.length_flatMap, leBytes_length]
  have hflags : b2n s.hub.lost + 2 * b2n s.pins.thermtrip < 256 := by
    cases s.hub.lost <;> cases s.pins.thermtrip <;> decide
  rw [State.statusBytes]
  generalize leBytes 1 0x7E ++ beBytes 2 s.part.vendorId ++ leBytes 1 0 = head at hhead ⊢
  generalize ((List.range 10).flatMap fun c => leBytes 2 (fld (if s.clPresent c then (s.cl c).opReg else 0) 0 16)) = pts at hpts ⊢
  refine ⟨?_, ?_, ?_, ?_, ?_, ?_⟩
  · simp [hhead, hpts, leBytes_length]
  · rw [leAt_append hhead (leBytes_length 2 _), leNat_leBytes_two]
  · rw [← List.append_assoc head, leAt_append (by simp [hhead, leBytes_length]) (leBytes_length 2 _), leNat_leBytes_two]
  · rw [← List.append_assoc head, ← List.append_assoc (head ++ _), leAt_append (by simp [hhead, leBytes_length]) (leBytes_length 1 _), leNat_leBytes_one]
  · rw [← List.append_assoc head, ← List.append_assoc (head ++ _), ← List.append_assoc (head ++ _ ++ _),
      leAt_append (by simp [hhead, leBytes_length]) (leBytes_length 1 _), leNat_leBytes_one]
  · rw [← List.append_assoc head, ← List.append_assoc (head ++ _), ← List.append_assoc (head ++ _ ++ _), ← List.append_assoc (head ++ _ ++ _ ++ _),
      ← List.append_assoc (head ++ _ ++ _ ++ _ ++ _), leAt_append (by simp [hhead, hpts, leBytes_length]) (leBytes_length 1 _), leNat_leBytes_one,
      Nat.mod_eq_of_lt hflags]

/-- Settles O24: each row answers with its bytes, and changes what its row names. -/
theorem sideband : Obligations.Sideband := by
  refine ⟨fun s e h hlo hhi => ?_, fun s h => ?_, fun s h => ?_, fun s h => ?_, fun s h => ?_, fun s first count h hlo hhi hend => ?_,
    fun s off len h halign hlo hhi hend => ?_, fun s w h hlo hhi => ?_, fun s i r h hr => ?_, fun s h => ?_⟩
  · have hid : ¬ (256 ≤ e) ∧ ¬ (e = 0 ∨ e = 255) := by omega
    change execSetEndpointId e s = _
    rw [execSetEndpointId, if_neg hid.1, if_neg hid.2, State.answer_up _ _ h]
    rfl
  · change execGetEndpointId s = _
    rw [execGetEndpointId, State.answer_up _ _ h]
    rfl
  · change execGetMctpVersionSupport s = _
    rw [execGetMctpVersionSupport, State.answer_up _ _ h]
    rfl
  · change execGetMessageTypeSupport s = _
    rw [execGetMessageTypeSupport, State.answer_up _ _ h]
    rfl
  · exact .of_next (exec_getStatus h) ⟨rfl, s.statusBytes, rfl, s.statusBytes_fields⟩
  · change execReadSensors 0 first count s = _
    simp only [execReadSensors, if_true]
    rw [if_pos ⟨Nat.zero_le 2, hlo, hhi, hend⟩, State.answer_up _ _ h]
    rfl
  · change execReadCt off len s = _
    rw [execReadCt, if_pos ⟨halign, hlo, hhi, hend⟩, State.answer_up _ _ h]
    rfl
  · have hexec : exec (.setPwrLimit w) s = .next (({ s with power := { s.power with sideband := w } } : State).emit
        (s.vendorReply 0 (leBytes 2 ({ s with power := { s.power with sideband := w } } : State).limitInForce))) := by
      change execSetPwrLimit w s = _
      rw [execSetPwrLimit, if_pos (.inr ⟨hlo, hhi⟩), State.answer_up _ _ h]
    refine .of_next hexec ⟨rfl, rfl, ?_⟩
    have hw : w ≠ 0 := by omega
    simp [State.limitInForce, State.emit, hw]
  · change execReadLog 1 i s = _
    simp only [execReadLog, Nat.le_refl, if_true, beq_self_eq_true, BitLog.nth, hr, State.answer_up _ _ h]
    rfl
  · change execLogStatus s = _
    rw [execLogStatus, State.answer_up _ _ h]
    rfl

end Sys2Proof.Machine
end

section
/-! STACKS (O25). A scrubbed line of a section copy whose context has a session behind an unreadable table. -/

namespace Sys2Proof.Machine

/-- Line 0 of stack 0 lies in the copy of a section of context 0 and cannot be transferred; nor can the line of the root table through which
the context's session reaches its token ring. -/
def State.scrubbedCopy : State :=
  { pins := { porstN := true }, hub := { stage := 6 }
    ctxs := [(0, { life := .live })]
    secs := [(1, { ctx := 0, copySubs := [0] })]
    sessions := [(0, {})]
    trans := [(0, { root := some (2 ^ 36) })]
    hbm := { ready := true, stks := [(0, { st := 1, gib := 1 })], xfer := [(0, 4), (2 ^ 30, 4)] } }

/-- Refutes O25: the uncorrectable line loses its context, whose session closes by reading its token ring's count through a table that
cannot be read; that is an uncontained fault, and the device is lost. -/
theorem not_stacks : ¬ Obligations.Stacks := by
  rintro ⟨-, -, -, -, -, -, -, -, huncorrectable, -⟩
  have hturn : ScrubTurn .scrubbedCopy 0 0 := ⟨by decide, rfl, by decide, by decide, rfl⟩
  obtain ⟨-, -, -, hkept⟩ := (huncorrectable .scrubbedCopy 0 0 hturn (by decide) (by decide +kernel) (by decide)).nextOr
  have hlost : (nextOr .scrubbedCopy (exec (.scrubRead 0 0) .scrubbedCopy)).hub.lost = true := by decide +kernel
  exact nomatch hlost.symm.trans hkept

end Sys2Proof.Machine
end

section
/-! LOSSES. What failing, killing and recording do to the contexts: their lives stay as they are, or the device is lost on the way and every
context with it (R528, R530). No parity count that has begun changes. -/

namespace Sys2Proof.Machine

/-- A context whose event ring fell silent, with no record waiting (R348). -/
def Ctx.hushed (x : Ctx) : Bool := x.silent && x.evWait.isEmpty

/-- A part that is not empty, or whose count of breaches has begun. -/
def XPart.begun (x : XPart) : Prop := x.violCount ≠ 0 ∨ x.st ≠ 1

/-- A part that stays in its state, with its trees and its count of breaches, and that opens no port and takes up no call. -/
structure XPart.Stays (x y : XPart) : Prop where
  count : y.violCount = x.violCount
  kind : y.violKind = x.violKind
  st : y.st = x.st
  trees : y.trees = x.trees
  clamped : x.clamped = true → y.clamped = true
  call : x.call = none → y.call = none

/-- State t follows s without the loss of a single context: lives and their losses stay, or the device has newly been lost with every
context that was not FREE. A ring that fell silent stays so, and so do a count of failed calls that has begun and the parts. -/
structure Course (s t : State) : Prop where
  lost : s.hub.lost = true → t.hub.lost = true
  lives : (∀ c, (t.cx c).life = (s.cx c).life ∧ (t.cx c).lossStatus = (s.cx c).lossStatus)
    ∨ (s.hub.lost = false ∧ t.hub.lost = true ∧ ∀ c, (s.cx c).life ≠ .free → (t.cx c).life = .lost)
  parity : ∀ c, (s.cl c).parCount ≠ 0 → (t.cl c).parCount = (s.cl c).parCount
  hushed : ∀ c, (s.cx c).hushed = true → (t.cx c).hushed = true
  calls : ∀ v, (s.svc v).failed ≠ 0 → (t.svc v).failed = (s.svc v).failed
  parts : ∀ p, (s.xp p).begun → (s.xp p).Stays (t.xp p)

theorem XPart.Stays.refl (x : XPart) : x.Stays x := ⟨rfl, rfl, rfl, rfl, id, id⟩

theorem XPart.Stays.begun {x y : XPart} (h : x.Stays y) (hx : x.begun) : y.begun := by rwa [XPart.begun, h.count, h.st]

theorem XPart.Stays.trans {x y z : XPart} (h : x.Stays y) (j : y.Stays z) : x.Stays z :=
  ⟨j.count.trans h.count, j.kind.trans h.kind, j.st.trans h.st, j.trees.trans h.trees, j.clamped ∘ h.clamped, j.call ∘ h.call⟩

/-- A part that has begun is listed, under every change that leaves it its state and its count. -/
theorem XPart.begun.listed {x : XPart} (h : x.begun) : x ≠ {} := fun hd => by
  subst hd
  exact h.elim (fun h => h rfl) fun h => h rfl

/-- What leaves the services and the parts alone. -/
theorem Course.of_kept {s t : State} (lost : s.hub.lost = true → t.hub.lost = true)
    (lives : (∀ c, (t.cx c).life = (s.cx c).life ∧ (t.cx c).lossStatus = (s.cx c).lossStatus)
      ∨ (s.hub.lost = false ∧ t.hub.lost = true ∧ ∀ c, (s.cx c).life ≠ .free → (t.cx c).life = .lost))
    (parity : ∀ c, (s.cl c).parCount ≠ 0 → (t.cl c).parCount = (s.cl c).parCount) (hushed : ∀ c, (s.cx c).hushed = true → (t.cx c).hushed = true)
    (hsvcs : t.svcs = s.svcs) (hxparts : t.xparts = s.xparts) : Course s t :=
  ⟨lost, lives, parity, hushed, fun v _ => by rw [State.svc, hsvcs, State.svc], fun p _ => by rw [State.xp, State.xp, hxparts]; exact .refl _⟩

theorem Course.of_same {s t : State} (hctxs : t.ctxs = s.ctxs) (hhub : t.hub = s.hub) (hcl : t.clusters = s.clusters) (hsvcs : t.svcs = s.svcs)
    (hxparts : t.xparts = s.xparts) : Course s t :=
  .of_kept (fun h => by rw [hhub, h]) (.inl fun c => by simp only [State.cx, hctxs, and_self]) (fun c _ => by simp only [State.cl, hcl])
    (fun c h => by rwa [State.cx, hctxs]) hsvcs hxparts

/-- The areas that the course of the contexts, the device, the clusters, the services and the parts does not read. -/
def Area.offCourse : Area → Bool
  | .ctxs | .hub | .clusters | .svcs | .xparts => false
  | _ => true

theorem Area.notMem_of_offCourse {l : List Area} (hl : l.all Area.offCourse = true) {a : Area} (ha : a.offCourse = false) : a ∉ l := fun hm =>
  Bool.false_ne_true (ha.symm.trans (List.all_eq_true.1 hl a hm))

theorem Course.of_only {l : List Area} {s t : State} (h : ChangesOnly l s t) (hl : l.all Area.offCourse = true) : Course s t :=
  .of_same (h .ctxs (Area.notMem_of_offCourse hl rfl)) (h .hub (Area.notMem_of_offCourse hl rfl)) (h .clusters (Area.notMem_of_offCourse hl rfl))
    (h .svcs (Area.notMem_of_offCourse hl rfl)) (h .xparts (Area.notMem_of_offCourse hl rfl))

theorem Course.refl (s : State) : Course s s := .of_same rfl rfl rfl rfl rfl

theorem Course.trans {s t u : State} (h : Course s t) (j : Course t u) : Course s u := by
  refine ⟨j.lost ∘ h.lost, ?_, fun c hc => (j.parity c (by rwa [h.parity c hc])).trans (h.parity c hc), fun c => j.hushed c ∘ h.hushed c,
    fun v hv => (j.calls v (by rwa [h.calls v hv])).trans (h.calls v hv), fun p hp => (h.parts p hp).trans (j.parts p ((h.parts p hp).begun hp))⟩
  rcases h.lives with hst | ⟨hs, ht, hall⟩
  · rcases j.lives with htu | ⟨ht, hu, hall⟩
    · exact .inl fun c => ⟨(htu c).1.trans (hst c).1, (htu c).2.trans (hst c).2⟩
    · refine .inr ⟨Bool.eq_false_iff.2 fun hs => Bool.false_ne_true (ht.symm.trans (h.lost hs)), hu, fun c hc => hall c ?_⟩
      rwa [(hst c).1]
  · refine .inr ⟨hs, j.lost ht, fun c hc => ?_⟩
    rcases j.lives with htu | ⟨-, -, hall'⟩
    · exact (htu c).1.trans (hall c hc)
    · exact hall' c (by rw [hall c hc]; decide)

theorem Course.foldl {α : Type} {s t : State} {f : State → α → State} {xs : List α} (h : Course s t) (hf : ∀ u a, Course u (f u a)) :
    Course s (xs.foldl f t) := by
  induction xs generalizing t with
  | nil => exact h
  | cons a xs ih => exact ih (h.trans (hf t a))

theorem Course.foldl_snd {α β : Type} {s : State} {A : β × State} {f : β × State → α → β × State} {xs : List α} (h : Course s A.2)
    (hf : ∀ p a, Course p.2 (f p a).2) : Course s (xs.foldl f A).2 := by
  induction xs generalizing A with
  | nil => exact h
  | cons a xs ih => exact ih (h.trans (hf A a))

theorem cx_of_ctxs {s t : State} (h : t.ctxs = s.ctxs) (c : Nat) : t.cx c = s.cx c := by rw [State.cx, h, State.cx]

/-- A context changed, its life and its loss kept. -/
theorem State.updCx_course {s0 s : State} {c : Nat} {g : Ctx → Ctx} (h : Course s0 s) (hg : ∀ x, (g x).life = x.life ∧ (g x).lossStatus = x.lossStatus)
    (hhush : (s.cx c).hushed = true → (g (s.cx c)).hushed = true) : Course s0 (s.updCx c g) := by
  refine h.trans (.of_kept id (.inl fun d => ?_) (fun _ _ => rfl) (fun d hd => ?_) rfl rfl)
  · rw [State.updCx_at]
    split
    next h => rw [h]; exact hg _
    next => exact ⟨rfl, rfl⟩
  · rw [State.updCx_at]
    split
    next h => subst h; exact hhush hd
    next => exact hd

/-- A cluster changed, its parity count kept. -/
theorem State.updCl_course {s0 s : State} {c : Nat} {g : Cluster → Cluster} (h : Course s0 s) (hg : ∀ k, (g k).parCount = k.parCount) :
    Course s0 (s.updCl c g) := by
  refine h.trans (.of_kept id (.inl fun _ => ⟨rfl, rfl⟩) (fun d _ => ?_) (fun _ => id) rfl rfl)
  rw [State.updCl_at]
  split
  next h => rw [hg, h]
  next => rfl

theorem State.push_course {s0 s : State} {r : LogRec} (h : Course s0 s) : Course s0 (s.push r) :=
  h.trans (.of_only (l := [.pins, .log]) (State.push_ev (k := false) (.refl _ s) rfl).only rfl)

theorem State.logEv_course {s0 s : State} {code cls kind unit ctx : Nat} {data : List Nat} (h : Course s0 s) : Course s0 (s.logEv code cls kind unit ctx data) :=
  h.trans (.of_only (l := [.pins, .log]) (State.logEv_ev (k := false) (.refl _ s) rfl).only rfl)

theorem State.logCo_course {s0 s : State} {code cls kind unit ctx : Nat} {data : List Nat} (h : Course s0 s) : Course s0 (s.logCo code cls kind unit ctx data) :=
  h.trans (.of_only (l := [.pins, .log]) (State.logCo_ev (k := false) (.refl _ s) rfl).only rfl)

theorem State.viol_course {s0 s : State} {f kind : Nat} (h : Course s0 s) : Course s0 (s.viol f kind) :=
  h.trans (.of_only (l := [.pins, .funcs, .log]) (State.viol_ev (k := false) (.refl _ s) rfl).only rfl)

theorem State.sendMsix_course {s0 s : State} {f v : Nat} (h : Course s0 s) : Course s0 (s.sendMsix f v) :=
  h.trans (.of_only (l := [.msix]) (State.sendMsix_ev (k := false) (.refl _ s) rfl).only rfl)

theorem State.funcEvent_course {s0 s : State} {f : Nat} {r : EvRec} (h : Course s0 s) : Course s0 (s.funcEvent f r) :=
  h.trans (.of_only (l := [.pins, .funcs, .msix, .log]) (State.funcEvent_ev (k := false) (.refl _ s) rfl).only rfl)

theorem State.noteUe_course {s0 s : State} {l : Nat} {scrub : Bool} (h : Course s0 s) : Course s0 (s.noteUe l scrub) :=
  h.trans (.of_only (l := [.hbm]) (State.noteUe_ev (k := false) (.refl _ s) rfl).only rfl)

theorem State.poisonLine_course {s0 s : State} {l : Nat} (h : Course s0 s) : Course s0 (s.poisonLine l) :=
  h.trans (.of_only (l := [.hbm]) (State.poisonLine_ev (k := false) (.refl _ s) rfl).only rfl)

theorem State.correctLine_course {s0 s : State} {l : Nat} {data : List Byte} (h : Course s0 s) : Course s0 (s.correctLine l data) :=
  h.trans (.of_only (l := [.pins, .hbm, .log]) (State.correctLine_ev (k := false) (.refl _ s) rfl).only rfl)

theorem State.keepLeaf_course {s0 s : State} {w : Who} {page : Nat} {l : Leaf} (h : Course s0 s) : Course s0 (s.keepLeaf w page l) :=
  h.trans (.of_only (l := [.tlb, .cmds]) (State.keepLeaf_ev (k := false) (.refl _ s) rfl).only rfl)

theorem State.logFault_course {s0 s : State} {w : Who} {f : TFault} {va : Nat} (h : Course s0 s) : Course s0 (s.logFault w f va) :=
  h.trans (.of_only (l := [.pins, .log]) (State.logFault_ev (k := false) (.refl _ s) rfl).only rfl)

theorem State.abandonOwned_course {s0 s : State} {c : Nat} (h : Course s0 s) : Course s0 (s.abandonOwned c) :=
  h.trans (.of_only (l := [.fences, .fenceFreed, .cmds]) (State.abandonOwned_ev (k := false) (.refl _ s) rfl).only rfl)

theorem State.fetchLine_course {s0 s : State} {l : Nat} (h : Course s0 s) : Course s0 (s.fetchLine l).2 := h.trans (.of_same rfl rfl rfl rfl rfl)

theorem State.postRecord_course {s0 s : State} {g : EvGeom} {seq : Nat} {r : EvRec} (h : Course s0 s) : Course s0 (s.postRecord g seq r) :=
  h.trans (.of_same rfl rfl rfl rfl rfl)

theorem State.perf_course {s0 s : State} {c ev n : Nat} (h : Course s0 s) : Course s0 (s.perf c ev n) := by
  rw [State.perf]
  dsimp only
  split
  · exact h
  · split
    · exact State.sendMsix_course (State.updCl_course h fun _ => rfl)
    · exact State.updCl_course h fun _ => rfl

/-! ### Event records -/

theorem State.refreshCtx_course {s0 s : State} {c : Nat} (h : Course s0 s) : Course s0 (s.refreshCtx c) := by
  simp only [State.refreshCtx]
  split
  · split
    · exact State.updCx_course h (fun _ => ⟨rfl, rfl⟩) id
    · exact State.viol_course h
  · exact h

theorem State.putCtx_course {s0 s : State} {c : Nat} {r : EvRec} (h : Course s0 s) : Course s0 (s.putCtx c r) := by
  simp only [State.putCtx]
  split
  · exact State.sendMsix_course (State.updCx_course (State.postRecord_course h) (fun _ => ⟨rfl, rfl⟩) id)
  · exact State.updCx_course (State.postRecord_course h) (fun _ => ⟨rfl, rfl⟩) id

/-- The records of a context read as before, but for what room there is. -/
theorem State.refreshCtx_silent (s : State) (c : Nat) : ((s.refreshCtx c).cx c).silent = (s.cx c).silent := by
  simp only [State.refreshCtx]
  split
  · split
    · rw [State.updCx_same]
    · rw [State.cx, (State.viol_ev (k := false) (l := [.pins, .funcs, .log]) (.refl _ s) rfl).only .ctxs (by decide)]
      rfl
  · rfl

theorem State.ctxEvent_course {s0 s : State} {c : Nat} {r : EvRec} (h : Course s0 s) : Course s0 (s.ctxEvent c r).1 := by
  have hfresh : Course s0 (if (s.cx c).evWait.isEmpty then s.refreshCtx c else s) := by
    split
    · exact State.refreshCtx_course h
    · exact h
  rw [State.ctxEvent]
  dsimp only
  split
  · exact h
  next hsilent =>
    have hnot : ((if (s.cx c).evWait.isEmpty then s.refreshCtx c else s).cx c).silent = (s.cx c).silent := by
      split
      · exact s.refreshCtx_silent c
      · rfl
    rw [Bool.not_eq_true] at hsilent
    rw [hsilent] at hnot
    generalize (if (s.cx c).evWait.isEmpty then s.refreshCtx c else s) = u at hfresh hnot
    split
    · exact State.putCtx_course hfresh
    · split
      · exact hfresh
      · exact State.updCx_course hfresh (fun _ => ⟨rfl, rfl⟩) fun hhush => by simp [Ctx.hushed, hnot] at hhush

/-! ### The loss of the device -/

/-- The device once it is lost, before its notices and its record (R530 step 1). -/
def State.markedLost (s : State) (cause unit : Nat) : State :=
  let u := s.emergencyStop.holdPorts.dropContexts 0x0802
  { u with hub := { u.hub with lost := true, cause, unit, faultTime := u.time.now } }

/-- Notices and the record of a loss. -/
theorem State.lossNotices_ev (u : State) : Evolves false [.pins, .funcs, .msix, .log] u (u.enabledFuncs.foldl (fun s f =>
    if (s.refreshFunc f).funcFull f then s.refreshFunc f else (s.refreshFunc f).putFunc f { status := 0x0802, kind := 5 }) u) := by
  refine .foldl (.refl _ u) fun t f => ?_
  split
  · exact State.refreshFunc_ev (.refl _ t) rfl
  · exact State.putFunc_ev (State.refreshFunc_ev (.refl _ t) rfl) rfl

theorem State.deviceLoss_of_unlost {s : State} (h : s.hub.lost = false) (cause kind unit code : Nat) (data : List Nat) :
    (s.deviceLoss cause kind unit code data).hub = (s.markedLost cause unit).hub
      ∧ (s.deviceLoss cause kind unit code data).ctxs = (s.markedLost cause unit).ctxs
      ∧ (s.deviceLoss cause kind unit code data).xparts = (s.markedLost cause unit).xparts := by
  have hnoted : ∀ (v : State) (r : LogRec), Evolves false [.pins, .funcs, .msix, .log] (s.markedLost cause unit) v →
      (if v.hubUp then v.push r else v).hub = (s.markedLost cause unit).hub ∧ (if v.hubUp then v.push r else v).ctxs = (s.markedLost cause unit).ctxs
        ∧ (if v.hubUp then v.push r else v).xparts = (s.markedLost cause unit).xparts := by
    intro v r hv
    have hpush : Evolves false [.pins, .funcs, .msix, .log] (s.markedLost cause unit) (if v.hubUp then v.push r else v) := .ite (State.push_ev hv rfl) hv
    exact ⟨hpush.only .hub (by decide), hpush.only .ctxs (by decide), hpush.only .xparts (by decide)⟩
  rw [State.deviceLoss, if_neg (Bool.eq_false_iff.1 h)]
  dsimp only
  split
  · exact hnoted _ _ (s.markedLost cause unit).lossNotices_ev
  · exact hnoted _ _ (s.markedLost cause unit).lossNotices_ev

/-- A listed entry whose image is listed, too. -/
theorem Tbl.get_mapAll {α : Type} [DecidableEq α] {d : α} (t : Tbl α) (f : Nat → α → α) {k : Nat} (hlisted : t.get d k ≠ d) (himage : f k (t.get d k) ≠ d) :
    (t.mapAll d f).get d k = f k (t.get d k) := by
  induction t with
  | nil => exact absurd rfl hlisted
  | cons e t ih =>
    obtain ⟨j, a⟩ := e
    by_cases hj : j = k
    · subst hj
      simp only [Tbl.get, if_true] at himage ⊢
      simp [Tbl.mapAll, himage, Tbl.get]
    · simp only [Tbl.get, if_neg hj] at hlisted himage ⊢
      rw [← ih hlisted himage]
      by_cases hd : f j a = d <;> simp [Tbl.mapAll, hd, Tbl.get, hj]

/-- Every context that is not FREE is lost with the device. -/
theorem State.dropContexts_life (s : State) (st c : Nat) (h : (s.cx c).life ≠ .free) : ((s.dropContexts st).cx c).life = .lost := by
  have hlisted : s.ctxs.get {} c ≠ {} := fun hd => h (by rw [State.cx, hd])
  have hlive : ¬ ((s.ctxs.get {} c).life == .free) = true := by simpa [State.cx] using h
  rw [State.cx, State.dropContexts, (State.flushAts_ev (k := false) (l := [.atsInvals]) (.refl _ _) rfl).only .ctxs (by decide)]
  rw [Tbl.get_mapAll _ _ hlisted]
  · exact congrArg Ctx.life (if_neg hlive)
  · intro hd
    have := congrArg Ctx.life hd
    rw [if_neg hlive] at this
    exact nomatch this

theorem State.dropContexts_hushed (s : State) (st c : Nat) (h : (s.cx c).hushed = true) : ((s.dropContexts st).cx c).hushed = true := by
  have hsilent : (s.ctxs.get {} c).silent = true := (Bool.and_eq_true _ _ ▸ h).1
  have hlisted : s.ctxs.get {} c ≠ {} := fun hd => nomatch (congrArg Ctx.silent hd).symm.trans hsilent
  rw [State.cx, State.dropContexts, (State.flushAts_ev (k := false) (l := [.atsInvals]) (.refl _ _) rfl).only .ctxs (by decide)]
  have himage : ∀ x : Ctx, x.silent = true → x.hushed = true →
      (if x.life == .free then x else { x with life := .lost, lossStatus := if x.life == .lost then x.lossStatus else st, settled := true, evWait := [] }).hushed = true := fun x hx hh => by
    split
    · exact hh
    · exact (Bool.and_true _).trans hx
  rw [Tbl.get_mapAll _ _ hlisted]
  · exact himage _ hsilent h
  · exact fun hd => nomatch (congrArg Ctx.hushed hd).symm.trans (himage _ hsilent h)

/-- Clamps count no breach and take up no call. -/
theorem State.holdPorts_parts (s : State) (p : Nat) (h : (s.xp p).begun) : (s.xp p).Stays (s.holdPorts.xparts.get {} p) := by
  rw [State.holdPorts, Tbl.get_mapAll _ _ h.listed (XPart.begun.listed (x := { s.xp p with clamped := true }) h)]
  exact ⟨rfl, rfl, rfl, rfl, fun _ => rfl, id⟩

/-- What the loss of the device may change. -/
def deviceLossAreas : List Area := [.pins, .hub, .funcs, .msix, .ctxs, .rings, .pans, .power, .log, .cmds, .replays, .hzn, .xparts, .atsInvals]

theorem State.deviceLoss_course {s0 s : State} {cause kind unit code : Nat} {data : List Nat} (h : Course s0 s) :
    Course s0 (s.deviceLoss cause kind unit code data) := by
  refine h.trans ?_
  cases hl : s.hub.lost with
  | true =>
    rw [State.deviceLoss, if_pos hl]
    split
    · exact State.push_course (.refl s)
    · exact .refl s
  | false =>
    obtain ⟨hhub, hctxs, hxparts⟩ := State.deviceLoss_of_unlost hl cause kind unit code data
    have hfollows := State.deviceLoss_ev (k := true) (l := deviceLossAreas) (cause := cause) (kind := kind) (unit := unit) (code := code) (data := data) (.refl _ s) rfl
    refine ⟨fun h => absurd h (by rw [hl]; decide), .inr ⟨hl, by rw [hhub]; rfl, fun c hc => ?_⟩, fun c _ => ?_, fun c hc => ?_, fun v _ => ?_, fun p hp => ?_⟩
    · rw [State.cx, hctxs]
      exact State.dropContexts_life _ _ _ hc
    · rw [State.cl, hfollows.only .clusters (by decide)]
      rfl
    · rw [State.cx, hctxs]
      exact State.dropContexts_hushed _ _ _ hc
    · rw [State.svc, hfollows.only .svcs (by decide)]
      rfl
    · change (s.xp p).Stays ((s.deviceLoss cause kind unit code data).xparts.get {} p)
      rw [hxparts, show (s.markedLost cause unit).xparts = s.emergencyStop.holdPorts.xparts from
        (State.dropContexts_ev (k := false) (l := [.ctxs, .rings, .cmds, .replays, .atsInvals]) (.refl _ _) rfl).only .xparts (by decide)]
      exact s.emergencyStop.holdPorts_parts p hp

theorem State.emergencyStop_course {s0 s : State} (h : Course s0 s) : Course s0 s.emergencyStop :=
  h.trans (.of_kept id (.inl fun _ => ⟨rfl, rfl⟩) (fun _ _ => rfl) (fun _ => id) rfl rfl)

theorem State.uncontained_course {s0 s : State} {cause kind unit code : Nat} {data : List Nat} (h : Course s0 s) :
    Course s0 (s.uncontained cause kind unit code data) := by
  refine h.trans ?_
  have hhalt : ∀ (u : State) (g : Hub), Course s u → g.lost = u.hub.lost → Course s { u with hub := g } := fun u g hu hg =>
    hu.trans (.of_kept (fun h => hg.trans h) (.inl fun _ => ⟨rfl, rfl⟩) (fun _ _ => rfl) (fun _ => id) rfl rfl)
  rw [State.uncontained]
  dsimp only
  split
  · exact State.deviceLoss_course (.refl s)
  · split
    · refine hhalt _ _ ?_ rfl
      have hmark : Course s { s with hub := { s.hub with haltCause := 7, booting := false, holdReset := false, resetAsked := false } } := hhalt s _ (.refl s) rfl
      split
      · exact State.deviceLoss_course hmark
      · refine State.emergencyStop_course ?_
        split
        · exact State.push_course hmark
        · exact hmark
    · exact State.deviceLoss_course (.refl s)

/-! ### Reads and writes through a translation -/

theorem State.uncorrectable_course {s0 s : State} {l ctx : Nat} {scrub : Bool} (h : Course s0 s) : Course s0 (s.uncorrectable l scrub ctx) := by
  rw [State.uncorrectable]
  have hline : Course s0 ((s.noteUe l scrub).poisonLine l) := State.poisonLine_course (State.noteUe_course h)
  split
  · exact State.uncontained_course hline
  · split <;> exact State.logEv_course hline

theorem State.readLine_course {s0 s : State} {l tag ctx : Nat} (h : Course s0 s) : Course s0 (s.readLine l tag ctx).2 := by
  have hfetch := State.fetchLine_course (l := l) h
  rw [State.readLine]
  generalize s.fetchLine l = r at hfetch ⊢
  obtain ⟨line | x, u⟩ := r
  · exact State.uncorrectable_course hfetch
  · dsimp only
    split
    · exact hfetch
    · split
      · exact hfetch
      · split
        · exact State.correctLine_course hfetch
        · exact hfetch

theorem State.writeCheck_course {s0 s : State} {l tag ctx : Nat} {whole : Bool} (h : Course s0 s) : Course s0 (s.writeCheck l tag ctx whole).2 := by
  have hread := State.readLine_course (l := l) (tag := tag) (ctx := ctx) h
  simp only [State.writeCheck]
  split
  · exact h
  · split
    · exact h
    · generalize s.readLine l tag ctx = r at hread ⊢
      obtain ⟨_ | _, u⟩ := r <;> exact hread

theorem State.readEntry_course {s0 s : State} {w : Who} {va pa n : Nat} (h : Course s0 s) : Course s0 (s.readEntry w va pa n).2 := by
  have hfetch := State.fetchLine_course (l := pa / 64) h
  rw [State.readEntry]
  generalize s.fetchLine (pa / 64) = r at hfetch ⊢
  obtain ⟨_ | x, u⟩ := r
  · exact State.uncontained_course (State.poisonLine_course (State.noteUe_course hfetch))
  · dsimp only
    split
    · exact State.uncontained_course (State.poisonLine_course (State.noteUe_course hfetch))
    · dsimp only
      split
      · exact State.correctLine_course hfetch
      · exact hfetch

theorem State.walk_course {s0 s : State} {w : Who} {va : Nat} (h : Course s0 s) : Course s0 (s.walk w va).2 := by
  rw [State.walk]
  split
  · exact h
  next r _ =>
    have h1 := State.readEntry_course (w := w) (va := va) (pa := r + 8 * fld va 39 9) (n := 8) h
    generalize s.readEntry w va (r + 8 * fld va 39 9) 8 = e1 at h1 ⊢
    obtain ⟨f | b1, u1⟩ := e1
    · exact h1
    dsimp only
    split
    · exact h1
    have h2 := State.readEntry_course (w := w) (va := va) (pa := fld (leNat b1) 12 36 * 4096 + 8 * fld va 30 9) (n := 8) h1
    generalize u1.readEntry w va (fld (leNat b1) 12 36 * 4096 + 8 * fld va 30 9) 8 = e2 at h2 ⊢
    obtain ⟨f | b2, u2⟩ := e2
    · exact h2
    dsimp only
    split
    · exact h2
    have h3 := State.readEntry_course (w := w) (va := va) (pa := fld (leNat b2) 12 36 * 4096 + 16 * fld va 21 9) (n := 16) h2
    generalize u2.readEntry w va (fld (leNat b2) 12 36 * 4096 + 16 * fld va 21 9) 16 = e3 at h3 ⊢
    obtain ⟨f | b3, u3⟩ := e3 <;> exact h3

theorem State.leafFor_course {s0 s : State} {w : Who} {va : Nat} (h : Course s0 s) : Course s0 (s.leafFor w va).2 := by
  have hwalk := State.walk_course (w := w) (va := va) h
  rw [State.leafFor]
  split
  · exact State.keepLeaf_course h
  · generalize s.walk w va = r at hwalk ⊢
    obtain ⟨f | l, u⟩ := r
    · exact hwalk
    · refine State.keepLeaf_course ?_
      cases w.cluster
      · exact hwalk
      · exact State.perf_course hwalk

theorem State.translate_course {s0 s : State} {w : Who} {va : Nat} {write : Bool} (h : Course s0 s) : Course s0 (s.translate w va write).2 := by
  have hleaf := State.leafFor_course (w := w) (va := va) h
  rw [State.translate]
  split
  · exact h
  · generalize s.leafFor w va = r at hleaf ⊢
    obtain ⟨f | l, u⟩ := r <;> exact hleaf

theorem State.readVa_course {s0 s : State} {w : Who} {va n : Nat} (h : Course s0 s) : Course s0 (s.readVa w va n).2 := by
  rw [State.readVa]
  refine Course.foldl_snd h fun acc a => ?_
  obtain ⟨e | bs, u⟩ := acc
  · exact .refl u
  obtain ⟨a, k⟩ := a
  have htr := State.translate_course (w := w) (va := a) (write := false) (.refl u)
  dsimp only
  generalize u.translate w a false = r at htr ⊢
  obtain ⟨f | ⟨loc, tag⟩, v⟩ := r
  · exact State.logFault_course htr
  cases loc with
  | hbm pa =>
    have hline := State.readLine_course (l := pa / 64) (tag := tag) (ctx := w.ctx) htr
    dsimp only
    generalize v.readLine (pa / 64) tag w.ctx = q at hline ⊢
    obtain ⟨e | line, v'⟩ := q
    · exact hline
    · exact State.perf_course hline
  | _ => exact htr

theorem State.stageVa_course {s0 s : State} {w : Who} {va : Nat} {bs : List Byte} (h : Course s0 s) : Course s0 (s.stageVa w va bs).2 := by
  rw [State.stageVa]
  refine Course.foldl_snd h fun acc a => ?_
  obtain ⟨e | out, u⟩ := acc
  · exact .refl u
  obtain ⟨a, k⟩ := a
  have htr := State.translate_course (w := w) (va := a) (write := true) (.refl u)
  dsimp only
  generalize u.translate w a true = r at htr ⊢
  obtain ⟨f | ⟨loc, tag⟩, v⟩ := r
  · exact State.logFault_course htr
  cases loc with
  | hbm pa =>
    have hline := State.writeCheck_course (l := pa / 64) (tag := tag) (ctx := w.ctx) (whole := k == 64) htr
    dsimp only
    generalize v.writeCheck (pa / 64) tag w.ctx (k == 64) = q at hline ⊢
    obtain ⟨e | line, v'⟩ := q <;> exact hline
  | _ => exact htr

theorem State.putHbm_course {s0 s : State} {ws : List (Nat × Byte)} (h : Course s0 s) : Course s0 (s.putHbm ws) := by
  rw [State.putHbm]
  exact Course.foldl (h.trans (.of_same rfl rfl rfl rfl rfl)) fun u l => State.perf_course (.refl u)

theorem State.applyStaged_course {s0 s : State} {ws : List (Loc × Byte)} (h : Course s0 s) : Course s0 (s.applyStaged ws) := by
  rw [State.applyStaged]
  exact Course.foldl ((State.putHbm_course h).trans (.of_same rfl rfl rfl rfl rfl)) fun u e => .of_same rfl rfl rfl rfl rfl

/-! ### Records of what fails -/

theorem State.writeRecord_course {s0 s : State} {h : Nat} {r : RecInfo} (hs : Course s0 s) : Course s0 (s.writeRecord h r) := by
  rw [State.writeRecord]
  have hst := State.stageVa_course (w := { ctx := (s.sec h).ctx, ref := some (.station h r.st r.idx) })
    (va := (s.sec h).recordBase + 32 * ((s.sec h).recordIndex r.st + r.idx)) (bs := r.bytes (s.sec h).runNo s.time.now) hs
  split
  next e => rw [e] at hst; exact State.applyStaged_course hst
  next e => rw [e] at hst; exact hst

theorem State.writeFailure_course {s0 s : State} {h status : Nat} {r : RecInfo} (hs : Course s0 s) : Course s0 (s.writeFailure h status r) := by
  rw [State.writeFailure]
  exact State.writeRecord_course (hs.trans (.of_same rfl rfl rfl rfl rfl))

theorem State.failRecords_course {s0 s : State} {h status : Nat} {ref : CmdRef} (hs : Course s0 s) : Course s0 (s.failRecords h ref status) := by
  cases ref with
  | ring r => exact hs
  | station g st i =>
    refine Course.foldl hs fun u e => ?_
    split
    · exact Course.foldl (.refl u) fun v i => State.writeFailure_course (.refl v)
    · split
      · exact .refl u
      · exact Course.foldl (.refl u) fun v i => State.writeFailure_course (.refl v)

theorem State.eventFailure_course {s0 s : State} {ref : CmdRef} {c status : Nat} {r : RecInfo} (h : Course s0 s) :
    Course s0 (s.eventFailure ref c status r) := by
  rw [State.eventFailure]
  split
  · exact State.ctxEvent_course (h.trans (.of_same rfl rfl rfl rfl rfl))
  · exact State.ctxEvent_course h

theorem State.completeRing_course {s0 s : State} {r status value : Nat} {ab : Bool} (h : Course s0 s) : Course s0 (s.completeRing r status value ab) := by
  rw [State.completeRing]
  dsimp only
  split
  · exact h.trans (.of_same rfl rfl rfl rfl rfl)
  · exact (State.ctxEvent_course h).trans (.of_same rfl rfl rfl rfl rfl)

/-! ### The end of a context's work -/

theorem State.tokenRoom_course {s0 s : State} {c : Nat} {x : Session} (h : Course s0 s) : Course s0 (s.tokenRoom c x).2 := by
  have hread := State.readVa_course (w := { ctx := c, ref := none }) (va := x.tokConsumed) (n := 8) h
  rw [State.tokenRoom]
  generalize s.readVa { ctx := c, ref := none } x.tokConsumed 8 = r at hread ⊢
  obtain ⟨e | b, u⟩ := r <;> exact hread

theorem State.signalFence_course {s0 s : State} {i v : Nat} {flush : Bool} (h : Course s0 s) : Course s0 (s.signalFence i v flush).1 :=
  h.trans (.of_only (l := [.fences, .fenceLower, .cmds]) (State.signalFence_ev (k := false) (.refl _ s) rfl).only rfl)

theorem State.putTokens_course {s0 s : State} {c : Nat} {rs : List (List Byte)} (h : Course s0 s) : Course s0 (s.putTokens c rs) := by
  have hput : ∀ (u : State) (e : List Byte × Nat), Course u (match u.stageVa { ctx := c, ref := none }
      ((s.sessions.get {} c).tokVa + 16 * (((s.sessions.get {} c).written + e.2) % 2 ^ (s.sessions.get {} c).tokLog2)) e.1 with
      | (.ok ws, v) => v.applyStaged ws
      | (.error _, v) => v) := fun u e => by
    have hst := State.stageVa_course (w := { ctx := c, ref := none })
      (va := (s.sessions.get {} c).tokVa + 16 * (((s.sessions.get {} c).written + e.2) % 2 ^ (s.sessions.get {} c).tokLog2)) (bs := e.1) (.refl u)
    split
    next h => rw [h] at hst; exact State.applyStaged_course hst
    next h => rw [h] at hst; exact hst
  rw [State.putTokens]
  dsimp only
  have hall := Course.foldl (xs := rs.zipIdx) h hput
  split
  · split
    · exact State.signalFence_course (hall.trans (.of_same rfl rfl rfl rfl rfl))
    · exact hall.trans (.of_same rfl rfl rfl rfl rfl)
  · exact hall.trans (.of_same rfl rfl rfl rfl rfl)

theorem State.endSession_course {s0 s : State} {c reason : Nat} (h : Course s0 s) : Course s0 (s.endSession c reason) := by
  have hclose : ∀ v : State, Course s0 v → Course s0 { v with sessions := v.sessions.del c } := fun v hv => hv.trans (.of_same rfl rfl rfl rfl rfl)
  rw [State.endSession]
  split
  · exact h
  · exact hclose _ (State.putTokens_course (State.tokenRoom_course h))

theorem State.abortMsgs_course {s0 s : State} {refs : List CmdRef} (h : Course s0 s) : Course s0 (s.abortMsgs refs) :=
  h.trans (.of_only (l := [.hzn]) (State.abortMsgs_ev (k := false) (.refl _ s) rfl).only rfl)

/-- A kill's only change of a cluster is in its tree requests and grants. -/
theorem State.dropTrees_course {s0 s : State} {refs : List CmdRef} (h : Course s0 s) : Course s0 (s.dropTrees refs) := by
  refine h.trans (.of_kept id (.inl fun _ => ⟨rfl, rfl⟩) (fun c hc => ?_) (fun _ => id) rfl rfl)
  have hlisted : s.clusters.get {} c ≠ {} := fun hd => hc (by rw [State.cl, hd])
  rw [State.cl, State.dropTrees, Tbl.get_mapAll _ _ hlisted fun hd => hc (congrArg Cluster.parCount hd)]
  rfl

/-- Calls that are withdrawn are not counted, and no part takes up a call for them. -/
theorem State.withdrawCalls_course {s0 s : State} {refs : List CmdRef} (h : Course s0 s) : Course s0 (s.withdrawCalls refs) := by
  have honly := (State.withdrawCalls_ev (k := false) (l := [.svcs, .xparts]) (refs := refs) (.refl _ s) rfl).only
  refine h.trans ⟨fun h => (congrArg Hub.lost (honly .hub (by decide))).trans h, .inl fun c => ?_, fun c _ => ?_, fun c h => ?_, fun v hv => ?_, fun p hp => ?_⟩
  · rw [cx_of_ctxs (honly .ctxs (by decide))]
    exact ⟨rfl, rfl⟩
  · exact congrArg (fun t => (Tbl.get {} t c).parCount) (honly .clusters (by decide))
  · rwa [cx_of_ctxs (honly .ctxs (by decide))]
  · have hlisted : s.svcs.get {} v ≠ {} := fun hd => hv (congrArg Svc.failed hd)
    have hsvcs : ∀ (ps : List Nat) (u : State), (ps.foldl (fun (s : State) p => s.emit (.portRst p)) u).svcs = u.svcs := fun ps u =>
      foldl_keeps (f := fun (s : State) p => s.emit (.portRst p)) State.svcs (fun _ _ => rfl) ps u
    rw [State.svc, State.withdrawCalls]
    dsimp only
    rw [hsvcs, Tbl.get_mapAll _ _ hlisted fun hd => hv (congrArg Svc.failed hd)]
    rfl
  · have hxparts : ∀ (ps : List Nat) (u : State), (ps.foldl (fun (s : State) p => s.emit (.portRst p)) u).xparts = u.xparts := fun ps u =>
      foldl_keeps (f := fun (s : State) p => s.emit (.portRst p)) State.xparts (fun _ _ => rfl) ps u
    change (s.xp p).Stays ((s.withdrawCalls refs).xparts.get {} p)
    rw [State.withdrawCalls]
    dsimp only
    rw [hxparts, Tbl.get_mapAll _ _ hp.listed (XPart.begun.listed (x := { s.xp p with
      call := (s.xp p).call.filter fun c => !refs.contains c.ref, waiting := (s.xp p).waiting.filter fun r => !refs.contains r }) hp)]
    exact ⟨rfl, rfl, rfl, rfl, id, fun hc => congrArg (Option.filter fun c => !refs.contains c.ref) hc⟩

/-- What a kill does but for its tree requests. -/
theorem State.kill_course {s0 s : State} {refs : List CmdRef} {cause : Nat} (h : Course s0 s) : Course s0 (s.kill refs cause) := by
  have hflush : ∀ u : State, Course s0 u → Course s0 u.flushAts := fun u hu =>
    hu.trans (.of_only (l := [.atsInvals]) (State.flushAts_ev (k := false) (.refl _ u) rfl).only rfl)
  have hcmds : ∀ (u : State) (ks : List Cmd), Course s0 u → Course s0 { u with cmds := ks } := fun u ks hu => hu.trans (.of_same rfl rfl rfl rfl rfl)
  have husers : ∀ u : State, Course s0 u → Course s0 (u.dropUsers refs) := fun u hu => hu.trans (.of_same rfl rfl rfl rfl rfl)
  have hrooms : ∀ u : State, Course s0 u → Course s0 (u.dropRooms refs) := fun u hu =>
    hu.trans (.of_only (l := [.secs]) (State.dropRooms_ev (k := false) (.refl _ u) rfl).only rfl)
  have hcalls : ∀ u : State, Course s0 u → Course s0 (u.withdrawCalls refs) := fun u hu => State.withdrawCalls_course hu
  have hqueues : ∀ u : State, Course s0 u → Course s0 (u.unqueue refs) := fun u hu => hu.trans (.of_same rfl rfl rfl rfl rfl)
  have hloads : Course s0 (s.dropLoads refs) := h.trans (.of_same rfl rfl rfl rfl rfl)
  rw [State.kill]
  refine hflush _ (hcmds _ _ (husers _ (hrooms _ (hcalls _ (hqueues _ (Course.foldl (State.dropTrees_course hloads) fun u r => ?_))))))
  cases r with
  | ring r => exact .refl u
  | station g st i => exact .of_same rfl rfl rfl rfl rfl

theorem State.stopCtx_course {s0 s : State} {c cause : Nat} (h : Course s0 s) : Course s0 (s.stopCtx c cause) := by
  have hend : ∀ v : State, Course s0 v → ∀ hs : List Nat, Course s0 (hs.foldl (fun s h => (s.endLc (s.sec h).part h).updSec h fun x => { x with run := none }) v) :=
    fun v hv hs => Course.foldl hv fun u h => .of_same rfl rfl rfl rfl rfl
  have hrest : ∀ (v : State) (rs : List Replay) (ps : Tbl Partition), Course s0 v → Course s0 { v with replays := rs, parts := ps } :=
    fun v rs ps hv => hv.trans (.of_same rfl rfl rfl rfl rfl)
  rw [State.stopCtx]
  exact hrest _ _ _ (hend _ (State.kill_course (State.abortMsgs_course h)) _)

/-- Settling a context that is not being destroyed. -/
theorem State.settle_course {s0 s : State} {c : Nat} (h : Course s0 s) (hlife : (s.cx c).life ≠ .destroying) : Course s0 (s.settle c) := by
  rw [State.settle]
  dsimp only
  split
  · exact h
  · split
    · have hmark : Course s0 (s.updCx c fun x => { x with settled := true }) := State.updCx_course h (fun _ => ⟨rfl, rfl⟩) id
      exact State.funcEvent_course (State.ctxEvent_course (State.endSession_course (State.abandonOwned_course hmark)))
    · rw [if_neg (by simpa using hlife)]
      exact h

/-- A context that was lost already, or that is lost with the device on the way, or that takes this status. -/
theorem LostWith.of_course {s t u : State} {c status : Nat} (h : Course s t) (j : LostWith t u c status) : LostWith s u c status := by
  obtain ⟨hlife, hstatus⟩ := j
  exact ⟨hlife, hstatus.imp_right fun ⟨ht, hu⟩ => ⟨Bool.eq_false_iff.2 fun hs => Bool.false_ne_true (ht.symm.trans (h.lost hs)), hu⟩⟩

theorem LostWith.then_course {s t u : State} {c status : Nat} (h : LostWith s t c status) (j : Course t u) (hmono : s.hub.lost = true → t.hub.lost = true) :
    LostWith s u c status := by
  obtain ⟨hlife, hstatus⟩ := h
  rcases j.lives with htu | ⟨ht, hu, hall⟩
  · exact ⟨(htu c).1.trans hlife, hstatus.imp (fun h => (htu c).2.trans h) fun ⟨hs, ht⟩ => ⟨hs, j.lost ht⟩⟩
  · exact ⟨hall c (by rw [hlife]; decide), .inr ⟨Bool.eq_false_iff.2 fun hs => Bool.false_ne_true (ht.symm.trans (hmono hs)), hu⟩⟩

/-- A live context marked with its loss. -/
def State.markLost (s : State) (c status : Nat) : State := s.updCx c fun x => { x with life := .lost, lossStatus := status, settled := false }

/-- What follows when a context has been marked lost loses no other context (R528). -/
theorem State.loseCtx_course {s : State} {c status : Nat} (h : (s.cx c).life = .live) : Course (s.markLost c status) (s.loseCtx c status) := by
  have hmarked : ((s.markLost c status).cx c).life = .lost := by rw [State.markLost, State.updCx_same]
  have hend : ∀ u : State, Course (s.markLost c status) u → Course (s.markLost c status) (u.settle c) := fun u hu => by
    refine State.settle_course hu ?_
    rcases hu.lives with hsame | ⟨-, -, hall⟩
    · rw [(hsame c).1, hmarked]
      decide
    · rw [hall c (by rw [hmarked]; decide)]
      decide
  rw [State.loseCtx, if_neg (by simp [h])]
  exact hend _ (Course.foldl (State.stopCtx_course (State.logEv_course (.refl _))) fun u r => State.completeRing_course (.refl u))

/-- The loss of a live context: it takes the status, or the device is lost on the way (R528). -/
theorem State.loseCtx_lostWith {s : State} {c status : Nat} (h : (s.cx c).life = .live) : LostWith s (s.loseCtx c status) c status := by
  have hmarked : LostWith s (s.markLost c status) c status := by
    rw [LostWith, State.markLost, State.updCx_same]
    exact ⟨rfl, .inl rfl⟩
  exact hmarked.then_course (State.loseCtx_course h) id

/-- The loss, at the end of a course, of a context that was live at its beginning. -/
theorem Course.loseCtx_lostWith {s u : State} {c status : Nat} (hu : Course s u) (h : (s.cx c).life = .live) : LostWith s (u.loseCtx c status) c status := by
  rcases hu.lives with hsame | ⟨hs, ht, hall⟩
  · exact .of_course hu (State.loseCtx_lostWith ((hsame c).1.trans h))
  · have hlost : (u.cx c).life = .lost := hall c (by rw [h]; decide)
    rw [State.loseCtx, if_pos (by rw [hlost]; rfl)]
    exact ⟨hlost, .inr ⟨hs, ht⟩⟩

/-- A context whose ring has fallen silent stays so when it is lost. -/
theorem State.loseCtx_hushed (s : State) (c status : Nat) (h : (s.cx c).hushed = true) : ((s.loseCtx c status).cx c).hushed = true := by
  by_cases hlive : (s.cx c).life = .live
  · refine (State.loseCtx_course hlive).hushed c ?_
    rw [State.markLost, State.updCx_same]
    exact h
  · rw [State.loseCtx, if_pos (by simpa using hlive)]
    exact h

/-- The loss of a context counts no failed call of a service, and leaves the parts as they are. -/
theorem State.loseCtx_counts (s : State) (c status : Nat) : (∀ v, (s.svc v).failed ≠ 0 → ((s.loseCtx c status).svc v).failed = (s.svc v).failed)
    ∧ ∀ p, (s.xp p).begun → (s.xp p).Stays ((s.loseCtx c status).xp p) := by
  by_cases hlive : (s.cx c).life = .live
  · have hcourse := State.loseCtx_course (status := status) hlive
    exact ⟨hcourse.calls, hcourse.parts⟩
  · rw [State.loseCtx, if_pos (by simpa using hlive)]
    exact ⟨fun _ _ => rfl, fun _ _ => .refl _⟩

theorem State.loseCtx_parity (s : State) (c status d : Nat) (h : (s.cl d).parCount ≠ 0) : ((s.loseCtx c status).cl d).parCount = (s.cl d).parCount := by
  by_cases hlive : (s.cx c).life = .live
  · exact (State.loseCtx_course hlive).parity d h
  · rw [State.loseCtx, if_pos (by simpa using hlive)]

/-- What a command's failure does before its context is lost. -/
theorem State.failCmd_course {s : State} {ref : CmdRef} {k : Cmd} (status : Nat) (hk : s.cmd? ref = some k) :
    ∃ u, Course s u ∧ s.failCmd ref status = u.loseCtx k.ctx status := by
  have hlogged : ∀ u : State, Course s u → Course s (if status = 0x0301 then u.logEv 0x7003 2 0 0 k.ctx [status, 0, 0]
      else if status = 0x0302 then u.logEv 0x7002 2 0 0 k.ctx [status, 0, 0] else u) := fun u hu => by
    split
    · exact State.logEv_course hu
    · split
      · exact State.logEv_course hu
      · exact hu
  have hend : ∀ (u : State) (refs : List CmdRef), Course s u → Course s ((u.abortMsgs refs).kill refs 2) := fun u refs hu =>
    State.kill_course (State.abortMsgs_course hu)
  rw [State.failCmd, hk]
  refine ⟨_, hend _ _ (hlogged _ ?_), rfl⟩
  cases ref with
  | ring slot => exact State.completeRing_course (Course.foldl (.refl s) fun u i => State.eventFailure_course (.refl u))
  | station h st i =>
    have hrec : Course s (s.failRecords h (.station h st i) status) := State.failRecords_course (.refl s)
    dsimp only
    split
    · split
      · exact State.completeRing_course (State.eventFailure_course hrec)
      · exact hrec
    · exact hrec

/-- A command that fails loses its live context with its status (R528), or the device is lost on the way. -/
theorem State.failCmd_lostWith {s : State} {ref : CmdRef} {k : Cmd} (status : Nat) (hk : s.cmd? ref = some k) (hlive : (s.cx k.ctx).life = .live) :
    LostWith s (s.failCmd ref status) k.ctx status := by
  obtain ⟨u, hu, hfail⟩ := State.failCmd_course status hk
  rw [hfail]
  exact hu.loseCtx_lostWith hlive

/-- The failure of a command counts no failed call of a service, and leaves the parts as they are. -/
theorem State.failCmd_counts {s : State} {ref : CmdRef} {k : Cmd} (status : Nat) (hk : s.cmd? ref = some k) :
    (∀ v, (s.svc v).failed ≠ 0 → ((s.failCmd ref status).svc v).failed = (s.svc v).failed)
    ∧ ∀ p, (s.xp p).begun → (s.xp p).Stays ((s.failCmd ref status).xp p) := by
  obtain ⟨u, hu, hfail⟩ := State.failCmd_course status hk
  obtain ⟨hcalls, hparts⟩ := u.loseCtx_counts k.ctx status
  rw [hfail]
  exact ⟨fun v hv => (hcalls v (by rwa [hu.calls v hv])).trans (hu.calls v hv), 
    fun p hp => (hu.parts p hp).trans (hparts p ((hu.parts p hp).begun hp))⟩

/-- Whether or not the command is still in flight, its failure leaves the parts as they are. -/
theorem State.failCmd_parts (s : State) (ref : CmdRef) (status p : Nat) (h : (s.xp p).begun) : (s.xp p).Stays ((s.failCmd ref status).xp p) := by
  cases hk : s.cmd? ref with
  | none =>
    rw [State.failCmd, hk]
    exact .refl _
  | some k => exact (State.failCmd_counts status hk).2 p h

theorem State.failCmd_parity {s : State} {ref : CmdRef} {k : Cmd} (status : Nat) (hk : s.cmd? ref = some k) (d : Nat) (h : (s.cl d).parCount ≠ 0) :
    ((s.failCmd ref status).cl d).parCount = (s.cl d).parCount := by
  obtain ⟨u, hu, hfail⟩ := State.failCmd_course status hk
  rw [hfail, State.loseCtx_parity u k.ctx status d (by rwa [hu.parity d h]), hu.parity d h]

end Sys2Proof.Machine
end

section
/-! PAGES AND SUB-PAGES (O26). Notices to functions, lines written with zeros, leaves that go, and commands found again after a kill. -/

namespace Sys2Proof.Machine

/-! ### Notices leave a function's set-up and its admin ring -/

/-- A function but for its event ring's and its violations' bookkeeping. -/
def Func.quiet (g : Func) : Func :=
  { g with violCount := 0, violKind := 0, evSeq := 0, evRead := 0, evWait := [], lostNotices := [], devNotices := [], moder := {} }

theorem State.updFn_quiet (s : State) (f i : Nat) {g : Func → Func} (hg : ∀ x, (g x).quiet = x.quiet) : ((s.updFn f g).fn i).quiet = (s.fn i).quiet := by
  rw [State.updFn_at]
  split
  next h => rw [hg, h]
  next => rfl

theorem State.logCo_funcs (s : State) (code cls kind unit ctx : Nat) (data : List Nat) : (s.logCo code cls kind unit ctx data).funcs = s.funcs :=
  (State.logCo_ev (k := false) (l := [.pins, .log]) (.refl _ s) rfl).only .funcs (by decide)

theorem State.viol_quiet (s : State) (f kind i : Nat) : ((s.viol f kind).fn i).quiet = (s.fn i).quiet := by
  rw [State.viol, State.fn, State.logCo_funcs]
  exact s.updFn_quiet f i fun _ => rfl

theorem State.refreshFunc_quiet (s : State) (f i : Nat) : ((s.refreshFunc f).fn i).quiet = (s.fn i).quiet := by
  simp only [State.refreshFunc]
  split
  · split
    · exact s.updFn_quiet f i fun _ => rfl
    · exact s.viol_quiet f 6 i
  · rfl

theorem State.sendMsix_funcs (s : State) (f v : Nat) : (s.sendMsix f v).funcs = s.funcs :=
  (State.sendMsix_ev (k := false) (l := [.msix]) (.refl _ s) rfl).only .funcs (by decide)

theorem State.putFunc_quiet (s : State) (f : Nat) (r : EvRec) (i : Nat) : ((s.putFunc f r).fn i).quiet = (s.fn i).quiet := by
  simp only [State.putFunc]
  split
  · rw [State.fn, State.sendMsix_funcs]
    exact State.updFn_quiet _ f i fun _ => rfl
  · exact State.updFn_quiet _ f i fun _ => rfl

theorem State.funcEvent_quiet (s : State) (f : Nat) (r : EvRec) (i : Nat) : ((s.funcEvent f r).fn i).quiet = (s.fn i).quiet := by
  rw [State.funcEvent]
  generalize (if r.kind = 5 then (s.fn f).enable else (s.fn f).evOn) = live
  have hu := s.refreshFunc_quiet f i
  generalize s.refreshFunc f = u at hu ⊢
  cases live with
  | false => rfl
  | true =>
    simp only [Bool.not_true, Bool.false_eq_true, if_false]
    split
    · exact (u.putFunc_quiet f r i).trans hu
    · refine (u.updFn_quiet f i fun x => ?_).trans hu
      split
      · rfl
      · split
        · split <;> rfl
        · rfl

/-- No admin operation of a function is in progress once its record is out. -/
theorem State.adminDone_adminCur (s : State) (f status value : Nat) (deferred lower : Bool) : ((s.adminDone f status value deferred lower).fn f).adminCur = none := by
  rw [State.adminDone]
  split
  next h => exact h
  next a h =>
    have hquiet := congrArg Func.adminCur ((s.updFn f fun g => { g with adminCur := none }).funcEvent_quiet f
      { status, kind := 4, deferred, lower, ctx := a.ctx, user := a.user, value, pos := a.pos, irq := a.irq } f)
    rw [State.updFn_same] at hquiet
    exact hquiet

/-! ### Lines -/

/-- Reading memory from which the bytes of some addresses have been dropped. -/
theorem Mem.rd_filter (m : Mem) (p : Nat → Bool) (a : Nat) : Mem.rd (m.filter fun e => p e.1) a = if p a then m.rd a else 0 := by
  induction m with
  | nil => exact (ite_self 0).symm
  | cons e m ih =>
    obtain ⟨j, b⟩ := e
    by_cases hj : j = a
    · subst hj
      cases hp : p j
      · simpa [hp] using ih
      · simp [hp, Mem.rd, Tbl.get]
    · have hskip : Mem.rd ((j, b) :: m) a = Mem.rd m a := by simp [Mem.rd, Tbl.get, hj]
      rw [hskip, ← ih]
      cases hp : p j
      · simp [hp]
      · simp [hp, Mem.rd, Tbl.get, hj]

theorem State.zeroSub_rd (s : State) (x a : Nat) : (s.zeroSub x).hbm.data.rd a = if a / 65536 = x then 0 else s.hbm.data.rd a := by
  refine (Mem.rd_filter s.hbm.data (fun a => a / 65536 != x) a).trans ?_
  by_cases h : a / 65536 = x <;> simp [h]

theorem State.setDir_dir (s : State) (x y : Nat) (e : DirEntry) : (s.setDir x e).hbm.dir.get {} y = if y = x then e else s.hbm.dir.get {} y := by
  by_cases h : y = x
  · rw [if_pos h, h]
    exact Tbl.get_set_same _ _ _ _
  · rw [if_neg h]
    exact Tbl.get_set_ne _ _ _ h

theorem State.addLeaves_dir (s : State) (c : Nat) (ls : List (Nat × Leaf)) : (s.addLeaves c ls).hbm.dir = s.hbm.dir := by
  refine foldl_keeps (fun s => s.hbm.dir) (fun u e => ?_) ls s
  cases u.leafPlace (u.transOf c) e.1 <;> rfl

/-- A sub-page of an entry tagged: its lines zero, its entry OWNED (R300). -/
def State.tagged (s : State) (x : Nat) (e : DirEntry) : State := (s.zeroSub x).setDir x { e with st := 1 }

theorem State.tagged_rd (s : State) (x : Nat) (e : DirEntry) (a : Nat) : (s.tagged x e).hbm.data.rd a = if a / 65536 = x then 0 else s.hbm.data.rd a :=
  s.zeroSub_rd x a

theorem State.tagged_dir (s : State) (x : Nat) (e : DirEntry) (y : Nat) :
    (s.tagged x e).hbm.dir.get {} y = if y = x then { e with st := 1 } else s.hbm.dir.get {} y := (s.zeroSub x).setDir_dir x y _

/-- The leaves of an object's mappings written. -/
def State.mapAllOf (s : State) (obj : Nat) (ms : List Mapping) : State := ms.foldl (fun u m => u.mapObj obj m.ctx m.va m.w) s

/-- What the completed creation of an object leaves of its OBJ_CREATE. -/
def State.created (u : State) (f obj : Nat) : State :=
  match (u.fn f).adminCur with
  | some a => if a.op = 0x40 ∧ a.obj = obj then u.adminDone f 0 obj false false else u
  | none => u

theorem State.next_created (u : State) (f obj : Nat) : (match (u.fn f).adminCur with
    | some a => Host.Outcome.next (if a.op = 0x40 ∧ a.obj = obj then u.adminDone f 0 obj false false else u)
    | none => Host.Outcome.next u) = (Host.Outcome.next (u.created f obj) : Out) := by
  rw [State.created]
  split <;> rfl

section Tagging

variable {s : State} {k sub x : Nat} {e : DirEntry} {o : Obj} (hk : k < 20) (hsub : sub < 2 ^ 20) (hx : x = k * 2 ^ 20 + sub) (he : e = s.hbm.dir.get {} x)
  (hst : e.st = 4) (ho : o = s.ob e.obj)
include hk hsub hx he hst ho

theorem exec_tagging_part (h : ∃ y ∈ objSubs o.pages (o.size / 65536), y ≠ x ∧ (s.hbm.dir.get {} y).st ≠ 1) :
    exec (.subpageTaggingComplete k sub) s = .next (s.tagged x e) := by
  obtain ⟨y, hy, hne, hopen⟩ := h
  subst ho he hx
  change execSubpageTaggingComplete k sub s = _
  rw [execSubpageTaggingComplete, if_neg (by omega)]
  dsimp only
  rw [if_neg (by rw [hst]; decide), if_neg]
  · rfl
  · rw [List.all_eq_true]
    intro hall
    have hy1 := hall y hy
    rw [beq_iff_eq] at hy1
    change ((s.tagged _ _).hbm.dir.get {} y).st = 1 at hy1
    rw [State.tagged_dir, if_neg hne] at hy1
    exact hopen hy1

theorem exec_tagging_last (h : ∀ y ∈ objSubs o.pages (o.size / 65536), y ≠ x → (s.hbm.dir.get {} y).st = 1) :
    exec (.subpageTaggingComplete k sub) s = .next (((s.tagged x e).mapAllOf e.obj o.maps).created o.func e.obj) := by
  subst ho he hx
  change execSubpageTaggingComplete k sub s = _
  rw [execSubpageTaggingComplete, if_neg (by omega)]
  dsimp only
  rw [if_neg (by rw [hst]; decide), if_pos]
  · exact State.next_created _ _ _
  · rw [List.all_eq_true]
    intro y hy
    rw [beq_iff_eq]
    change ((s.tagged _ _).hbm.dir.get {} y).st = 1
    rw [State.tagged_dir]
    split
    · rfl
    next hne => exact h y hy hne

end Tagging

theorem exec_subpageZeroing {s : State} {k sub : Nat} (ok : Bool) (hk : k < 20) (hsub : sub < 2 ^ 20) (hst : (s.hbm.dir.get {} (k * 2 ^ 20 + sub)).st = 3) :
    exec (.subpageZeroingComplete k sub ok) s = .next ((s.zeroSub (k * 2 ^ 20 + sub)).setDir (k * 2 ^ 20 + sub) { st := if ok then 0 else 5 }) := by
  change execSubpageZeroingComplete k sub ok s = _
  rw [execSubpageZeroingComplete, if_neg (by omega)]
  dsimp only
  rw [if_neg (by rw [hst]; decide)]

/-! ### On-chip pages -/

theorem State.finishDestroy_only (s : State) (c : Nat) : ChangesOnly [.pins, .funcs, .msix, .ctxs, .trans, .hbm, .log] s (s.finishDestroy c) :=
  (State.finishDestroy_ev (k := false) (.refl _ s) rfl).only

/-- The chip with a page of core memory zeroed. -/
def OnChip.zeroedCm (h : OnChip) (p : Nat) (ok : Bool) : OnChip :=
  { h with
    cm := h.cm.filter fun e => e.1 / 65536 != p
    cmPages := h.cmPages.set {} p { fresh := false, st := if ok then 0 else 3, storedErr := (h.cmPages.get {} p).storedErr } }

/-- The chip with a page of the reservoir zeroed. -/
def OnChip.zeroedRs (h : OnChip) (p : Nat) (ok : Bool) : OnChip :=
  { h with
    rs := h.rs.filter fun e => e.1 / 65536 != p
    rsPages := h.rsPages.set {} p { fresh := false, st := if ok then 0 else 3, storedErr := (h.rsPages.get {} p).storedErr } }

theorem exec_pageZeroing_cm {s : State} {p : Nat} {ok : Bool} (hp : p < 15360) (hfresh : (s.chip.cmPages.get {} p).fresh = false)
    (hst : (s.chip.cmPages.get {} p).st = 2) :
    Yields (.pageZeroingComplete false p ok) s fun t => t.chip = s.chip.zeroedCm p ok := by
  have hexec : exec (.pageZeroingComplete false p ok) s
      = .next (({ s with chip := s.chip.zeroedCm p ok } : State).finishDestroy (s.chip.cmPages.get {} p).owner) := by
    change execPageZeroingComplete false p ok s = _
    simp [execPageZeroingComplete, Nat.not_le.2 hp, hfresh, hst, OnChip.zeroedCm]
  exact .of_next hexec (State.finishDestroy_only _ _ .chip (by decide))

theorem exec_pageZeroing_rs {s : State} {p : Nat} {ok : Bool} (hp : p < 10240) (hfresh : (s.chip.rsPages.get {} p).fresh = false)
    (hst : (s.chip.rsPages.get {} p).st = 2) :
    Yields (.pageZeroingComplete true p ok) s fun t => t.chip = s.chip.zeroedRs p ok := by
  have hexec : exec (.pageZeroingComplete true p ok) s
      = .next (({ s with chip := s.chip.zeroedRs p ok } : State).finishDestroy (s.chip.rsPages.get {} p).owner) := by
    change execPageZeroingComplete true p ok s = _
    simp [execPageZeroingComplete, Nat.not_le.2 hp, hfresh, hst, OnChip.zeroedRs]
  exact .of_next hexec (State.finishDestroy_only _ _ .chip (by decide))

/-! ### Invalidations -/

theorem State.putEngine_rd_in (s : State) {pa a : Nat} (h : pa ≤ a ∧ a < pa + 16) : (s.putEngine pa (leBytes 16 0)).hbm.data.rd a = 0 := by
  have hzero : ∀ b ∈ leBytes 16 0, b = 0 := by decide
  have hin := Mem.rd_wrN_in s.hbm.data pa (leBytes 16 0) (a - pa) (by rw [leBytes_length]; omega)
  rw [Nat.add_sub_cancel' h.1] at hin
  exact Eq.trans hin (hzero _ (List.getElem_mem _))

theorem State.putEngine_rd_zero (s : State) (pa : Nat) {a : Nat} (h : s.hbm.data.rd a = 0) : (s.putEngine pa (leBytes 16 0)).hbm.data.rd a = 0 := by
  by_cases hin : pa ≤ a ∧ a < pa + 16
  · exact s.putEngine_rd_in hin
  · exact (Mem.rd_wrN_out _ _ _ _ (by rw [leBytes_length]; omega)).trans h

/-- The leaf of a page dropped. -/
def State.dropLeaf (c page : Nat) (s : State) (i : Nat) : State :=
  (s.leafPlace (s.transOf c) (page + i)).elim s fun pa => s.putEngine pa (leBytes 16 0)

theorem State.dropLeaf_rd_zero (s : State) (c page i : Nat) {a : Nat} (h : s.hbm.data.rd a = 0) : (s.dropLeaf c page i).hbm.data.rd a = 0 := by
  rw [State.dropLeaf]
  cases s.leafPlace (s.transOf c) (page + i) with
  | none => exact h
  | some q => exact s.putEngine_rd_zero q h

theorem State.foldl_dropLeaf_rd_zero (c page : Nat) (is : List Nat) (s : State) {a : Nat} (h : s.hbm.data.rd a = 0) :
    (is.foldl (State.dropLeaf c page) s).hbm.data.rd a = 0 := by
  induction is generalizing s with
  | nil => exact h
  | cons i is ih => exact ih _ (s.dropLeaf_rd_zero c page i h)

theorem State.dropLeaves_eq (s : State) (c va size : Nat) :
    s.dropLeaves c va size = (List.range (cdiv size (2 ^ 21))).foldl (State.dropLeaf c (va / 2 ^ 21)) s := by
  rw [State.dropLeaves]
  rfl

/-- The first page's leaf is zero once the leaves of a range have been dropped. -/
theorem State.dropLeaves_rd (s : State) {c va size pa b : Nat} (hsize : 0 < size) (hleaf : s.leafPlace (s.transOf c) (va / 2 ^ 21) = some pa) (hb : b < 16) :
    (s.dropLeaves c va size).hbm.data.rd (pa + b) = 0 := by
  obtain ⟨n, hn⟩ : ∃ n, cdiv size (2 ^ 21) = n + 1 := ⟨cdiv size (2 ^ 21) - 1, by simp only [cdiv]; split <;> omega⟩
  have hfirst : s.dropLeaf c (va / 2 ^ 21) 0 = s.putEngine pa (leBytes 16 0) := by rw [State.dropLeaf, Nat.add_zero, hleaf, Option.elim_some]
  rw [State.dropLeaves_eq, hn, List.range_succ_eq_map, List.foldl_cons, hfirst]
  exact State.foldl_dropLeaf_rd_zero c _ _ _ (s.putEngine_rd_in (by omega))

theorem State.moveSubs_data (s : State) (subs : List Nat) (e : DirEntry) : (s.moveSubs subs e).hbm.data = s.hbm.data :=
  foldl_keeps (fun s => s.hbm.data) (f := fun s x => s.setDir x e) (fun _ _ => rfl) subs s

theorem State.freeObj_data (s : State) (h : Nat) : (s.freeObj h).hbm.data = s.hbm.data := by
  simp only [State.freeObj]
  split
  · split
    · rfl
    · exact s.moveSubs_data _ _
  · rfl

/-- An object that is freed has no mapping left; any other keeps those it has. -/
theorem State.freeObj_maps (s : State) (h : Nat) : ((s.freeObj h).ob h).maps = [] ∨ ((s.freeObj h).ob h).maps = (s.ob h).maps := by
  simp only [State.freeObj]
  split
  · left
    rw [State.updOb_same]
  · exact .inr rfl

theorem State.adminDone_only (s : State) (f status value : Nat) (deferred lower : Bool) :
    ChangesOnly [.pins, .funcs, .msix, .log] s (s.adminDone f status value deferred lower) :=
  (State.adminDone_ev (k := false) (.refl _ s) rfl).only

theorem State.freeTables_data (s : State) (tid : Nat) : (s.freeTables tid).hbm.data = s.hbm.data := s.moveSubs_data _ _

/-- The end of a destroyed context writes no byte of external memory. -/
theorem State.finishDestroy_data (s : State) (c : Nat) : (s.finishDestroy c).hbm.data = s.hbm.data := by
  have hnoted : ∀ u : State, u.hbm.data = s.hbm.data → ∀ f r code cls kind unit ctx d, ((u.logEv code cls kind unit ctx d).funcEvent f r).hbm.data = s.hbm.data :=
    fun u hu f r code cls kind unit ctx d => by
      have hkeep := (State.funcEvent_ev (k := false) (l := [.pins, .funcs, .msix, .log]) (f := f) (r := r)
        (State.logEv_ev (code := code) (cls := cls) (kind := kind) (unit := unit) (ctx := ctx) (data := d) (.refl _ u) rfl) rfl).only .hbm (by decide)
      exact (congrArg Hbm.data hkeep).trans hu
  have hdone : ∀ u : State, u.hbm.data = s.hbm.data → ∀ f, (u.adminDone f 0 0 false false).hbm.data = s.hbm.data := fun u hu f =>
    (congrArg Hbm.data (u.adminDone_only f 0 0 false false .hbm (by decide))).trans hu
  rw [State.finishDestroy]
  dsimp only
  split
  · rfl
  · have hfreed : (if (s.freeTables c).ctxs.any fun e => e.1 != c && e.2.life != .free && e.2.part == (s.cx c).part then s.freeTables c
        else (s.freeTables c).freeTables (256 + (s.cx c).part)).hbm.data = s.hbm.data := by
      split
      · exact s.freeTables_data c
      · exact ((s.freeTables c).freeTables_data _).trans (s.freeTables_data c)
    generalize (if (s.freeTables c).ctxs.any fun e => e.1 != c && e.2.life != .free && e.2.part == (s.cx c).part then s.freeTables c
        else (s.freeTables c).freeTables (256 + (s.cx c).part)) = u at hfreed ⊢
    split
    · split
      · exact hdone _ (hnoted { u with ctxs := u.ctxs.del c } hfreed _ _ _ _ _ _ _ _) _
      · exact hnoted { u with ctxs := u.ctxs.del c } hfreed _ _ _ _ _ _ _ _
    · exact hnoted { u with ctxs := u.ctxs.del c } hfreed _ _ _ _ _ _ _ _

/-- What follows the invalidation of a mapping: its object may be freed, and what waited goes on (R302, R337, R354). -/
def State.invalidated (s : State) (obj ctx g : Nat) : State :=
  let u := s.freeObj obj
  (match (u.fn g).adminCur with
    | some a => if a.op = 0x42 ∧ a.obj = obj ∧ a.ctx = ctx then u.adminDone g 0 0 false false else u
    | none => u).finishDestroy ctx

/-- The object is freed, and only a record and the end of a destroyed context may follow. -/
theorem State.invalidated_spec (s : State) (obj ctx g : Nat) : (s.invalidated obj ctx g).invals = s.invals ∧ (s.invalidated obj ctx g).tlb = s.tlb
    ∧ (s.invalidated obj ctx g).hbm.data = s.hbm.data ∧ (s.invalidated obj ctx g).objs = (s.freeObj obj).objs := by
  have hfree : ChangesOnly [.objs, .hbm] s (s.freeObj obj) := (State.freeObj_ev (k := false) (.refl _ s) rfl).only
  have hdone : ∀ u : State, ChangesOnly [.pins, .funcs, .msix, .log] u (match (u.fn g).adminCur with
      | some a => if a.op = 0x42 ∧ a.obj = obj ∧ a.ctx = ctx then u.adminDone g 0 0 false false else u
      | none => u) := fun u => by
    split
    · split
      · exact u.adminDone_only _ _ _ _ _
      · exact fun a _ => (Evolves.refl (k := false) [] u).only a List.not_mem_nil
    · exact fun a _ => (Evolves.refl (k := false) [] u).only a List.not_mem_nil
  have hd := hdone (s.freeObj obj)
  rw [State.invalidated]
  generalize (match ((s.freeObj obj).fn g).adminCur with
      | some a => if a.op = 0x42 ∧ a.obj = obj ∧ a.ctx = ctx then (s.freeObj obj).adminDone g 0 0 false false else s.freeObj obj
      | none => s.freeObj obj) = u at hd ⊢
  have hf := u.finishDestroy_only ctx
  refine ⟨?_, ?_, ?_, ?_⟩
  · exact Eq.trans (hf .invals (by decide)) (Eq.trans (hd .invals (by decide)) (hfree .invals (by decide)))
  · exact Eq.trans (hf .tlb (by decide)) (Eq.trans (hd .tlb (by decide)) (hfree .tlb (by decide)))
  · exact (u.finishDestroy_data ctx).trans ((congrArg Hbm.data (hd .hbm (by decide))).trans (s.freeObj_data obj))
  · exact Eq.trans (hf .objs (by decide)) (hd .objs (by decide))

/-- The state in which an invalidation's entry is gone. -/
def State.withoutInval (s : State) (c va : Nat) : State := { s with invals := s.invals.filter fun j => !(j.ctx == c && j.va == va) }

/-- The state in which an invalidation's mapping, leaves and translation-unit entries are gone, too. -/
def State.unmapped (s : State) (c va : Nat) (i : Inval) : State :=
  (((s.withoutInval c va).dropLeaves c va i.size).flushTlb c va i.size).updOb i.obj fun o => { o with maps := o.maps.filter fun m => m.ctx != c }

/-- The pages of a chip without the refill links into a range of the contexts that share a translation (R124). -/
def OnChip.unlinked (h : OnChip) (peers : List Nat) (va size : Nat) : OnChip :=
  let unlink := fun (t : Tbl Page) => t.mapAll {} fun _ p =>
    if p.refill && peers.contains p.owner && p.source.any (fun e => decide (e.2.1 < va + size) && decide (va < e.2.1 + e.2.2)) then { p with refill := false, source := [] } else p
  { h with cmPages := unlink h.cmPages, rsPages := unlink h.rsPages }

theorem exec_translationInvalidation {s : State} {c va : Nat} {i : Inval} (hi : s.invals.find? (fun i => i.ctx == c && i.va == va) = some i)
    (hfree : s.cmds.any (s.holdsTranslation i) = false) :
    exec (.translationInvalidationComplete c va) s
      = .next (({ s.unmapped c va i with chip := (s.unmapped c va i).chip.unlinked (s.translationPeers c) va i.size } : State).invalidated i.obj c
          ((s.unmapped c va i).cx c).func) := by
  change execTranslationInvalidationComplete c va s = _
  rw [execTranslationInvalidationComplete, hi]
  dsimp only
  rw [if_neg (by rw [hfree]; decide)]
  rfl

theorem State.translationPeers_congr {s t : State} (hctxs : t.ctxs = s.ctxs) (hparts : t.parts = s.parts) (c : Nat) :
    t.translationPeers c = s.translationPeers c := by
  rw [State.translationPeers, State.translationPeers, State.validated, State.validated, State.pt, State.pt, State.cx, State.cx, hctxs, hparts]

/-- What a property of the unlisted entry and of every image says of an entry. -/
theorem Tbl.get_mapAll_of {α : Type} [DecidableEq α] {d : α} {P : α → Prop} (t : Tbl α) (f : Nat → α → α) (k : Nat) (hd : P d) (hf : ∀ a, P (f k a)) :
    P ((t.mapAll d f).get d k) := by
  induction t with
  | nil => exact hd
  | cons e t ih =>
    obtain ⟨j, a⟩ := e
    by_cases hi : f j a = d
    · simpa [Tbl.mapAll, hi] using ih
    · by_cases hj : j = k
      · subst hj
        simpa [Tbl.mapAll, hi, Tbl.get] using hf a
      · simpa [Tbl.mapAll, hi, Tbl.get, hj] using ih

/-- No translation unit holds an entry of a flushed range for a context that shares the translation. -/
theorem State.flushTlb_entries (s : State) (c va size u : Nat) : ∀ e ∈ (s.flushTlb c va size).tlb.get [] u, e.ctx ∈ s.translationPeers c →
    e.page < va / 2 ^ 21 ∨ va / 2 ^ 21 + cdiv size (2 ^ 21) ≤ e.page := by
  simp only [State.flushTlb]
  refine Tbl.get_mapAll_of (P := fun l : List TlbEntry => ∀ e ∈ l, e.ctx ∈ s.translationPeers c → e.page < va / 2 ^ 21 ∨ va / 2 ^ 21 + cdiv size (2 ^ 21) ≤ e.page) _ _ u
    (fun _ h => absurd h List.not_mem_nil) fun l e he hpeer => ?_
  have hkept := (List.mem_filter.1 he).2
  rw [List.contains_iff_mem.2 hpeer, Bool.true_and, Bool.not_eq_true', Bool.and_eq_false_iff, decide_eq_false_iff_not, decide_eq_false_iff_not] at hkept
  omega

theorem State.unmapped_spec (s : State) (c va : Nat) (i : Inval) : (∀ j ∈ (s.unmapped c va i).invals, ¬(j.ctx = c ∧ j.va = va))
    ∧ (∀ m ∈ ((s.unmapped c va i).ob i.obj).maps, m.ctx ≠ c)
    ∧ (∀ pa b, 0 < i.size → s.leafPlace (s.transOf c) (va / 2 ^ 21) = some pa → b < 16 → (s.unmapped c va i).hbm.data.rd (pa + b) = 0)
    ∧ ∀ u, ∀ e ∈ (s.unmapped c va i).tlb.get [] u, e.ctx ∈ s.translationPeers c → e.page < va / 2 ^ 21 ∨ va / 2 ^ 21 + cdiv i.size (2 ^ 21) ≤ e.page := by
  have hleaves : ChangesOnly [.hbm] (s.withoutInval c va) ((s.withoutInval c va).dropLeaves c va i.size) := (State.dropLeaves_ev (k := false) (.refl _ _) rfl).only
  have hdata : ∀ pa b, 0 < i.size → (s.withoutInval c va).leafPlace ((s.withoutInval c va).transOf c) (va / 2 ^ 21) = some pa → b < 16 →
      ((s.withoutInval c va).dropLeaves c va i.size).hbm.data.rd (pa + b) = 0 := fun pa b hsize hleaf hb => State.dropLeaves_rd _ hsize hleaf hb
  have hpeers : ((s.withoutInval c va).dropLeaves c va i.size).translationPeers c = s.translationPeers c :=
    State.translationPeers_congr (hleaves .ctxs (by decide)) (hleaves .parts (by decide)) c
  have hinvals : ((s.withoutInval c va).dropLeaves c va i.size).invals = (s.withoutInval c va).invals := hleaves .invals (by decide)
  rw [State.unmapped]
  generalize (s.withoutInval c va).dropLeaves c va i.size = v at hdata hpeers hinvals
  refine ⟨fun j hj ⟨hc, hva⟩ => ?_, fun m hm => ?_, hdata, fun u => ?_⟩
  · have hmem : j ∈ (s.withoutInval c va).invals := hinvals ▸ hj
    have hkept := (List.mem_filter.1 hmem).2
    simp [hc, hva] at hkept
  · rw [State.updOb_same] at hm
    simpa using (List.mem_filter.1 hm).2
  · rw [← hpeers]
    exact v.flushTlb_entries c va i.size u

theorem invalidation_completes (s : State) (c va : Nat) (i : Inval) (hi : s.invals.find? (fun i => i.ctx == c && i.va == va) = some i)
    (hfree : s.cmds.any (s.holdsTranslation i) = false) :
    Yields (.translationInvalidationComplete c va) s fun t => (∀ j ∈ t.invals, ¬(j.ctx = c ∧ j.va = va)) ∧ (∀ m ∈ (t.ob i.obj).maps, m.ctx ≠ c)
      ∧ (∀ pa b, 0 < i.size → s.leafPlace (s.transOf c) (va / 2 ^ 21) = some pa → b < 16 → t.hbm.data.rd (pa + b) = 0)
      ∧ ∀ u, ∀ e ∈ t.tlb.get [] u, e.ctx ∈ s.translationPeers c → e.page < va / 2 ^ 21 ∨ va / 2 ^ 21 + cdiv i.size (2 ^ 21) ≤ e.page := by
  refine .of_next (exec_translationInvalidation hi hfree) ?_
  obtain ⟨hinvals, hmaps, hdata, htlb⟩ := s.unmapped_spec c va i
  generalize (s.unmapped c va i).chip.unlinked (s.translationPeers c) va i.size = chip
  generalize s.unmapped c va i = v at hinvals hmaps hdata htlb
  obtain ⟨hinvals', htlb', hdata', hobjs'⟩ := ({ v with chip } : State).invalidated_spec i.obj c (v.cx c).func
  rw [hinvals', htlb', hdata']
  refine ⟨hinvals, fun m hm => ?_, hdata, htlb⟩
  rw [State.ob, hobjs'] at hm
  rcases State.freeObj_maps { v with chip } i.obj with h | h
  · exact absurd (h ▸ hm) List.not_mem_nil
  · exact hmaps m (h ▸ hm)

/-! ### Commands found again -/

theorem State.cmd?_ref {s : State} {ref : CmdRef} {k : Cmd} (h : s.cmd? ref = some k) : k.ref = ref := by
  simpa using List.find?_some h

theorem State.cmd?_updCmd (s : State) (r q : CmdRef) {f : Cmd → Cmd} (hf : ∀ c, (f c).ref = c.ref) :
    (s.updCmd r f).cmd? q = (s.cmd? q).map fun c => if c.ref == r then f c else c := by
  have href : ∀ c : Cmd, (if c.ref == r then f c else c).ref = c.ref := fun c => by
    split
    · exact hf c
    · rfl
  rw [State.cmd?, State.updCmd, List.find?_map]
  congr 1
  exact congrArg (fun p => s.cmds.find? p) (funext fun c => by rw [Function.comp_apply, href])

/-- A command of a reference, changed. -/
theorem State.cmd?_updCmd_self {s : State} {r : CmdRef} {k : Cmd} {f : Cmd → Cmd} (hk : s.cmd? r = some k) (hf : ∀ c, (f c).ref = c.ref) :
    (s.updCmd r f).cmd? r = some (f k) := by
  rw [State.cmd?_updCmd s r r hf, hk, Option.map_some, State.cmd?_ref hk, beq_self_eq_true, if_pos rfl]

/-- A command that is to run again once more (R123). -/
def Cmd.again (c : Cmd) : Cmd := { c with reruns := c.reruns + 1, rerunMark := true }

/-- A killed command keeps its resolved values, and loses what it staged and held (R370). -/
def Cmd.killedBy (c : Cmd) (cause : Nat) : Cmd :=
  { c with
    phase := .killed, killCause := cause, staged := [], regWrites := [], descTs := [], sig := none, taken := [], held := [], ops := 0, wsets := []
    acc := [], leaves := [] }

/-- What becomes of a command when commands are killed (R370). -/
def Cmd.stopped (refs : List CmdRef) (cause : Nat) (c : Cmd) : Option Cmd :=
  if !refs.contains c.ref || c.phase == .recording then some c
  else if c.phase == .issued && (cause == 2 || cause == 3 || cause == 4) then none
  else some (c.killedBy cause)

theorem Cmd.stopped_ref {refs : List CmdRef} {cause : Nat} {c d : Cmd} (h : c.stopped refs cause = some d) : d.ref = c.ref := by
  rw [Cmd.stopped] at h
  split at h
  · rw [Option.some.inj h]
  · split at h
    · exact nomatch h
    · rw [← Option.some.inj h]
      rfl

/-- A kill's part outside the commands leaves them as they are. -/
theorem State.kill_cmds (s : State) (refs : List CmdRef) (cause : Nat) : (s.kill refs cause).cmds = s.cmds.filterMap (Cmd.stopped refs cause) := by
  have hflush : ∀ u : State, u.flushAts.cmds = u.cmds := fun u => (State.flushAts_ev (k := false) (l := [.atsInvals]) (.refl _ u) rfl).only .cmds (by decide)
  have hrooms : ∀ u : State, (u.dropRooms refs).cmds = u.cmds := fun u =>
    (State.dropRooms_ev (k := false) (l := [.secs]) (.refl _ u) rfl).only .cmds (by decide)
  have hcalls : ∀ u : State, (u.withdrawCalls refs).cmds = u.cmds := fun u =>
    (State.withdrawCalls_ev (k := false) (l := [.svcs, .xparts]) (.refl _ u) rfl).only .cmds (by decide)
  have hframes : ∀ u : State, (refs.foldl (fun s r => match r with
      | .station h _ _ => s.dropFrames h (s.groupRoutes r)
      | .ring _ => s) u).cmds = u.cmds := fun u => foldl_keeps State.cmds (fun v r => by cases r <;> rfl) refs u
  have hrest : ∀ u : State, (((u.unqueue refs).withdrawCalls refs).dropRooms refs).cmds = u.cmds := fun u => (hrooms _).trans (hcalls _)
  rw [State.kill, hflush]
  refine congrArg (fun l => List.filterMap (Cmd.stopped refs cause) l) ?_
  exact ((hrest _).trans (hframes _))

/-- The first element of a reference, through a filter that keeps references. -/
theorem find?_filterMap_ref {l : List Cmd} {g : Cmd → Option Cmd} {ref : CmdRef} {k k' : Cmd} (hg : ∀ c d, g c = some d → d.ref = c.ref)
    (hk : l.find? (fun c => c.ref == ref) = some k) (hk' : g k = some k') : (l.filterMap g).find? (fun c => c.ref == ref) = some k' := by
  induction l with
  | nil => exact nomatch hk
  | cons c l ih =>
    rw [List.find?_cons] at hk
    cases hc : c.ref == ref with
    | true =>
      rw [hc] at hk
      obtain rfl : c = k := Option.some.inj hk
      rw [List.filterMap_cons, hk', List.find?_cons, show (k'.ref == ref) = true by rw [hg c k' hk', hc]]
    | false =>
      rw [hc] at hk
      rw [List.filterMap_cons]
      cases hd : g c with
      | none => exact ih hk
      | some d =>
        dsimp only
        rw [List.find?_cons, show (d.ref == ref) = false by rw [hg c d hd, hc]]
        exact ih hk

/-- A command that is killed to run again is killed with what it has. -/
theorem State.cmd?_kill_again {s : State} {refs : List CmdRef} {cause : Nat} {ref : CmdRef} {k : Cmd} (hk : s.cmd? ref = some k) (href : ref ∈ refs)
    (hrec : k.phase ≠ .recording) (hcause : cause ≠ 2 ∧ cause ≠ 3 ∧ cause ≠ 4) :
    ∃ k', (s.kill refs cause).cmd? ref = some k' ∧ k'.reruns = k.reruns ∧ k'.phase = .killed := by
  obtain ⟨h2, h3, h4⟩ := hcause
  have hin : refs.contains k.ref = true := by
    rw [State.cmd?_ref hk]
    exact List.contains_iff_mem.2 href
  have hstop : k.stopped refs cause = some (k.killedBy cause) := by
    rw [Cmd.stopped, if_neg (by rw [hin]; simpa using hrec), if_neg (by simp [h2, h3, h4])]
  rw [State.cmd?, State.kill_cmds]
  exact ⟨_, find?_filterMap_ref (fun _ _ => Cmd.stopped_ref) hk hstop, rfl, rfl⟩

/-- Whether a command is of its own group is its section's matter. -/
theorem State.self_mem_groupRefs {s t : State} {ref : CmdRef} (hsecs : t.secs = s.secs) (h : ref ∈ s.groupRefs ref) : ref ∈ t.groupRefs ref := by
  cases ref with
  | ring r => exact List.mem_singleton_self _
  | station g st i =>
    have hsec : t.sec g = s.sec g := by rw [State.sec, State.sec, hsecs]
    simp only [State.groupRefs, List.mem_filter, hsec] at h ⊢
    exact ⟨h.1, by simp⟩

/-! ### Parity errors -/

/-- The state in which a parity error of a command has been counted (R123). -/
def State.parityNoted (s : State) (cl store core pan addr : Nat) (k : Cmd) : State :=
  s.noteParity cl (if store == 1 then 1 else 2) (if store == 1 then cl else 48 * cl + core) addr k (fun w => parLast w store core pan addr k.ctx false false) false false
    (decide (3 ≤ k.reruns) && cOp k.word / 32 != 6)

theorem exec_parityError_soft {s : State} {store cl core pan addr : Nat} {ref : CmdRef} {k : Cmd} (hstore : store < 9) (hcl : cl < 10)
    (hcore : core < 48 ∨ core = 63) (hpan : pan < 2) (haddr : addr < 2 ^ 26) (hk : s.cmd? ref = some k) (hrec : k.phase ≠ .recording) (hkilled : k.phase ≠ .killed) :
    exec (.parityError store cl core pan addr ref false) s = .next ((s.parityNoted cl store core pan addr k).endParity cl (if store == 1 then 1 else 2)
      (if store == 1 then cl else 48 * cl + core) addr k (decide (3 ≤ k.reruns) && cOp k.word / 32 != 6)) := by
  change execParityError store cl core pan addr ref false s = _
  have hphase : (k.phase == .recording || k.phase == .killed) = false := by simp [hrec, hkilled]
  rw [execParityError, if_neg (by omega), if_neg (by omega), hk]
  dsimp only
  rw [hphase]
  rfl

theorem State.parityNoted_eq (s : State) (cl store core pan addr : Nat) (k : Cmd) : ∃ (g : Cluster → Cluster) (f : Cmd → Cmd),
    s.parityNoted cl store core pan addr k = (s.updCl cl g).updCmd k.ref f ∧ (∀ c, (g c).parCount = satinc 32 c.parCount)
      ∧ ∀ c, (f c).ref = c.ref ∧ (f c).ctx = c.ctx ∧ (f c).phase = c.phase ∧ (f c).reruns = c.reruns :=
  ⟨fun c => { c with parCount := satinc 32 c.parCount, parStored := c.parStored, parLast := parLast c.parLast store core pan addr k.ctx false false },
    fun c => { c with infos := c.infos.map fun r => { r with refilled := r.refilled || false } }, rfl, fun _ => rfl, fun _ => ⟨rfl, rfl, rfl, rfl⟩⟩

theorem satinc_ne_zero (n : Nat) : satinc 32 n ≠ 0 := by
  simp only [satinc]
  split <;> omega

/-- A command's killable group killed to run again. -/
def State.killAgain (s : State) (ref : CmdRef) : State := s.kill (s.killable ref) 5

theorem State.endParity_again (s : State) (cluster kind unit addr : Nat) {k : Cmd} (h : cOp k.word / 32 ≠ 6) :
    s.endParity cluster kind unit addr k false
      = (((s.logEv 0x3001 1 kind unit k.ctx [0, (s.cl cluster).parLast.toNat, addr]).perf cluster 0x0B 1).updCmd k.ref Cmd.again).killAgain k.ref := by
  rw [State.endParity, if_neg (by decide), if_neg (by simpa using h)]
  rfl

/-- A parity error of a command that has been run again less than three times: counted, and the command is killed to run again. -/
theorem parity_again (s : State) (store cl core pan addr : Nat) (ref : CmdRef) (k : Cmd) (hstore : store < 9) (hcl : cl < 10) (hcore : core < 48 ∨ core = 63)
    (hpan : pan < 2) (haddr : addr < 2 ^ 26) (hk : s.cmd? ref = some k) (hrec : k.phase ≠ .recording) (hkilled : k.phase ≠ .killed) (hfew : k.reruns < 3)
    (hhzn : cOp k.word / 32 ≠ 6) (hgroup : ref ∈ s.groupRefs ref) :
    Yields (.parityError store cl core pan addr ref false) s fun t => (t.cl cl).parCount = satinc 32 (s.cl cl).parCount
      ∧ (t.cmd? ref).map Cmd.reruns = some (k.reruns + 1) ∧ (t.cmd? ref).map Cmd.phase = some .killed := by
  have href : k.ref = ref := State.cmd?_ref hk
  have hgoes : (decide (3 ≤ k.reruns) && cOp k.word / 32 != 6) = false := by simp [Nat.not_le.2 hfew]
  refine .of_next (exec_parityError_soft hstore hcl hcore hpan haddr hk hrec hkilled) ?_
  obtain ⟨g, f, hnoted, hg, hf⟩ := s.parityNoted_eq cl store core pan addr k
  have hcount : ((s.parityNoted cl store core pan addr k).cl cl).parCount = satinc 32 (s.cl cl).parCount := by
    rw [hnoted]
    exact (congrArg Cluster.parCount (State.updCl_same s cl g)).trans (hg _)
  have hfound : (s.parityNoted cl store core pan addr k).cmd? ref = some (f k) := by
    rw [hnoted, href]
    exact State.cmd?_updCmd_self hk fun c => (hf c).1
  have hsecs : (s.parityNoted cl store core pan addr k).secs = s.secs := by rw [hnoted]; rfl
  rw [hgoes, State.endParity_again _ _ _ _ _ hhzn]
  generalize s.parityNoted cl store core pan addr k = u at hcount hfound hsecs
  generalize (if store == 1 then 1 else 2) = kind
  generalize (if store == 1 then cl else 48 * cl + core) = unit
  generalize [0, (u.cl cl).parLast.toNat, addr] = data
  have hlog : Evolves false [.pins, .msix, .clusters, .log] u ((u.logEv 0x3001 1 kind unit k.ctx data).perf cl 0x0B 1) :=
    State.perf_ev (State.logEv_ev (.refl _ u) rfl) rfl
  have hcourse : Course u ((u.logEv 0x3001 1 kind unit k.ctx data).perf cl 0x0B 1) := State.perf_course (State.logEv_course (.refl u))
  have hcmds : ((u.logEv 0x3001 1 kind unit k.ctx data).perf cl 0x0B 1).cmds = u.cmds := hlog.only .cmds (by decide)
  have hsecs' : ((u.logEv 0x3001 1 kind unit k.ctx data).perf cl 0x0B 1).secs = u.secs := hlog.only .secs (by decide)
  generalize (u.logEv 0x3001 1 kind unit k.ctx data).perf cl 0x0B 1 = v at hcourse hcmds hsecs'
  have hagain : (v.updCmd k.ref Cmd.again).cmd? ref = some (f k).again := by
    rw [href]
    refine State.cmd?_updCmd_self ?_ fun _ => rfl
    rw [State.cmd?, hcmds]
    exact hfound
  have hmem : ref ∈ (v.updCmd k.ref Cmd.again).killable k.ref := by
    rw [href] at hagain ⊢
    refine List.mem_filter.2 ⟨State.self_mem_groupRefs (hsecs'.trans hsecs) hgroup, ?_⟩
    rw [hagain]
    simp [Cmd.again, (hf k).2.2.1, hrec, hkilled]
  have hstay : Course v (v.updCmd k.ref Cmd.again) := .of_same rfl rfl rfl rfl rfl
  generalize v.updCmd k.ref Cmd.again = w at hagain hmem hstay
  rw [State.killAgain]
  obtain ⟨k', hk', hreruns, hphase⟩ := State.cmd?_kill_again (cause := 5) hagain hmem (by rw [Cmd.again, (hf k).2.2.1]; exact hrec) (by decide)
  refine ⟨?_, ?_, ?_⟩
  · exact ((State.kill_course (hcourse.trans hstay)).parity cl (by rw [hcount]; exact satinc_ne_zero _)).trans hcount
  · rw [hk', Option.map_some, hreruns, Cmd.again, (hf k).2.2.2]
  · rw [hk', Option.map_some, hphase]

/-- A parity error of a command that has been run again three times: counted, and the command fails. -/
theorem parity_fails (s : State) (store cl core pan addr : Nat) (ref : CmdRef) (k : Cmd) (hstore : store < 9) (hcl : cl < 10) (hcore : core < 48 ∨ core = 63)
    (hpan : pan < 2) (haddr : addr < 2 ^ 26) (hk : s.cmd? ref = some k) (hrec : k.phase ≠ .recording) (hkilled : k.phase ≠ .killed) (hmany : 3 ≤ k.reruns)
    (hhzn : cOp k.word / 32 ≠ 6) (hlive : (s.cx k.ctx).life = .live) :
    Yields (.parityError store cl core pan addr ref false) s fun t => (t.cl cl).parCount = satinc 32 (s.cl cl).parCount ∧ LostWith s t k.ctx 0x0401 := by
  have href : k.ref = ref := State.cmd?_ref hk
  have hfails : (decide (3 ≤ k.reruns) && cOp k.word / 32 != 6) = true := by simp [hmany, hhzn]
  refine .of_next (exec_parityError_soft hstore hcl hcore hpan haddr hk hrec hkilled) ?_
  obtain ⟨g, f, hnoted, hg, hf⟩ := s.parityNoted_eq cl store core pan addr k
  have hcount : ((s.parityNoted cl store core pan addr k).cl cl).parCount = satinc 32 (s.cl cl).parCount := by
    rw [hnoted]
    exact (congrArg Cluster.parCount (State.updCl_same s cl g)).trans (hg _)
  have hfound : (s.parityNoted cl store core pan addr k).cmd? k.ref = some (f k) := by
    rw [hnoted, href]
    exact State.cmd?_updCmd_self hk fun c => (hf c).1
  have hcx : (s.parityNoted cl store core pan addr k).cx = s.cx := by rw [hnoted]; rfl
  have hhub : (s.parityNoted cl store core pan addr k).hub = s.hub := by rw [hnoted]; rfl
  rw [State.endParity, if_pos hfails]
  obtain ⟨hlife, hstatus⟩ := State.failCmd_lostWith 0x0401 hfound (by rw [hcx, (hf k).2.1]; exact hlive)
  rw [(hf k).2.1] at hlife hstatus
  rw [hhub] at hstatus
  exact ⟨(State.failCmd_parity 0x0401 hfound cl (by rw [hcount]; exact satinc_ne_zero _)).trans hcount, hlife, hstatus⟩

theorem State.mapAllOf_dir (s : State) (obj : Nat) (ms : List Mapping) : (s.mapAllOf obj ms).hbm.dir = s.hbm.dir :=
  foldl_keeps (fun s => s.hbm.dir) (fun u _ => u.addLeaves_dir _ _) ms s

theorem State.mapAllOf_funcs (s : State) (obj : Nat) (ms : List Mapping) : (s.mapAllOf obj ms).funcs = s.funcs :=
  foldl_keeps State.funcs (fun u _ => (State.mapObj_ev (k := false) (l := [.hbm]) (.refl _ u) rfl).only .funcs (by decide)) ms s

theorem State.created_hbm (u : State) (f obj : Nat) : (u.created f obj).hbm = u.hbm := by
  rw [State.created]
  split
  · split
    · exact u.adminDone_only _ _ _ _ _ .hbm (by decide)
    · rfl
  · rfl

/-- The last tagged sub-page of an object completes its creation: its leaves are written, and its OBJ_CREATE is over. -/
theorem tagging_completes (s : State) (k sub x : Nat) (e : DirEntry) (o : Obj) (hk : k < 20) (hsub : sub < 2 ^ 20) (hx : x = k * 2 ^ 20 + sub)
    (he : e = s.hbm.dir.get {} x) (hst : e.st = 4) (ho : o = s.ob e.obj)
    (hall : ∀ y ∈ objSubs o.pages (o.size / 65536), y ≠ x → (s.hbm.dir.get {} y).st = 1) :
    Yields (.subpageTaggingComplete k sub) s fun t =>
      t.hbm = (o.maps.foldl (fun u m => u.mapObj e.obj m.ctx m.va m.w) ((s.zeroSub x).setDir x { e with st := 1 })).hbm
        ∧ (∀ y, t.hbm.dir.get {} y = if y = x then { e with st := 1 } else s.hbm.dir.get {} y)
        ∧ ∀ a, (s.fn o.func).adminCur = some a → a.op = 0x40 → a.obj = e.obj → (t.fn o.func).adminCur = none := by
  refine .of_next (exec_tagging_last hk hsub hx he hst ho hall) ⟨State.created_hbm _ _ _, fun y => ?_, fun a ha hop hobj => ?_⟩
  · rw [State.created_hbm, State.mapAllOf_dir, State.tagged_dir]
  · have hcur : (((s.tagged x e).mapAllOf e.obj o.maps).fn o.func).adminCur = some a := by
      rw [State.fn, State.mapAllOf_funcs]
      exact ha
    rw [State.created, hcur]
    dsimp only
    rw [if_pos ⟨hop, hobj⟩]
    exact State.adminDone_adminCur _ _ _ _ _ _

/-- Settles O26: each row's lemma, and the pages' and the boot image's rows directly. -/
theorem memoryUpkeep : Obligations.MemoryUpkeep := by
  refine ⟨fun s k sub x e o hk hsub hx he hst ho hopen => ?_, tagging_completes, fun s k sub x ok hk hsub hx hst => ?_, fun s p ok hp hfresh hst => ?_,
    fun s p ok hp hfresh hst => ?_, invalidation_completes, parity_again, parity_fails, fun s hporst hboot hstage hwait => ?_⟩
  · refine .of_next (exec_tagging_part hk hsub hx he hst ho hopen) ⟨?_, fun a ha => ?_, fun a ha => ?_, fun y hy => ?_, rfl⟩
    · rw [State.tagged_dir, if_pos rfl]
    · rw [State.tagged_rd, if_pos ha]
    · rw [State.tagged_rd, if_neg ha]
    · rw [State.tagged_dir, if_neg hy]
  · subst hx
    refine .of_next (exec_subpageZeroing ok hk hsub hst) ⟨?_, fun a ha => ?_, fun a ha => ?_, fun y hy => ?_⟩
    · rw [State.setDir_dir, if_pos rfl]
    · exact (s.zeroSub_rd _ a).trans (if_pos ha)
    · exact (s.zeroSub_rd _ a).trans (if_neg ha)
    · rw [State.setDir_dir, if_neg hy]
      rfl
  · obtain ⟨t, hexec, hchip⟩ := exec_pageZeroing_cm (ok := ok) hp hfresh hst
    refine .of_next hexec ?_
    rw [hchip]
    refine ⟨?_, ?_, fun a ha => ?_, fun a ha => ?_, rfl⟩
    · simp [OnChip.zeroedCm]
    · simp [OnChip.zeroedCm]
    · exact (Mem.rd_filter s.chip.cm (fun a => a / 65536 != p) a).trans (if_neg (by simpa using ha))
    · exact (Mem.rd_filter s.chip.cm (fun a => a / 65536 != p) a).trans (if_pos (by simpa using ha))
  · obtain ⟨t, hexec, hchip⟩ := exec_pageZeroing_rs (ok := ok) hp hfresh hst
    refine .of_next hexec ?_
    rw [hchip]
    refine ⟨?_, ?_, fun a ha => ?_, fun a ha => ?_, rfl⟩
    · simp [OnChip.zeroedRs]
    · simp [OnChip.zeroedRs]
    · exact (Mem.rd_filter s.chip.rs (fun a => a / 65536 != p) a).trans (if_neg (by simpa using ha))
    · exact (Mem.rd_filter s.chip.rs (fun a => a / 65536 != p) a).trans (if_pos (by simpa using ha))
  · have hexec : exec .bootImageWaitExpiry s = .next (s.atTime (s.hub.memReadyAt + 100000000 * s.part.bootWait)).bootImageDone := by
      change execBootImageWaitExpiry s = _
      simp [execBootImageWaitExpiry, hporst, hboot, hstage, hwait]
    refine .of_next hexec ?_
    simp [State.bootImageDone, hboot, hstage]

end Sys2Proof.Machine
end

section
/-! CONTEXTS AND RINGS (O28). The destruction of a context that wakes what cannot be recorded. -/

namespace Sys2Proof.Machine

/-- The context of `State.unreadableTable` while the admin ring of PF0 holds a CTX_DESTROY of it. -/
def State.destroyingUnreadable : State :=
  { State.unreadableTable with hostMem := [(0, 0x11)], funcs := [(0, { enable := true, adminTail := 1 })] }

/-- The descriptor is CTX_DESTROY's, and its context is the function's own. -/
theorem adminTurn_destroyingUnreadable : AdminTurn .destroyingUnreadable 0 0x11 :=
  ⟨by decide +kernel, by decide +kernel, by decide, by decide +kernel, by decide +kernel⟩

/-- Refutes O28: what waited for the context's event ring goes on when the context is destroyed; the REPLAY that fails on the way reads a
table that cannot be read, the device is lost, and the context ends lost. -/
theorem not_contextAndRingAdministration : ¬ Obligations.ContextAndRingAdministration := by
  rintro ⟨-, hdestroy, -⟩
  have hctx := (hdestroy .destroyingUnreadable 0 adminTurn_destroyingUnreadable).nextOr
  have hnum : at1 (State.destroyingUnreadable.adminDesc 0) 2 = 0 := by decide +kernel
  have hlost : ((nextOr .destroyingUnreadable (exec (.ctxDestroy 0) .destroyingUnreadable)).cx 0).life = .lost := by decide +kernel
  rw [hnum, hlost] at hctx
  exact absurd hctx (by decide)

end Sys2Proof.Machine
end

section
/-! ADMIN OPERATIONS: what taking a descriptor and completing it do, malformed descriptors (O27) and fences (O29). -/

namespace Sys2Proof.Machine

/-! ### A descriptor is taken -/

/-- The operation of a descriptor at a position of the admin ring. -/
def AdminOp.taken (pos : Nat) (d : List Byte) : AdminOp := { op := at1 d 0, pos, user := at8 d 8, irq := bit (at1 d 1) 1, ctx := at1 d 2 }

/-- A function that takes the descriptor at the head of its admin ring. -/
def Func.taking (g : Func) (d : List Byte) : Func :=
  { g with
    adminHead := (g.adminHead + 1) % 2 ^ 32
    adminCur := some (AdminOp.taken g.adminHead d) }

theorem Func.quiet_adminHead (g : Func) : g.quiet.adminHead = g.adminHead := rfl

theorem Func.quiet_evOn (g : Func) : g.quiet.evOn = g.evOn := rfl

theorem Func.taking_adminHead (g : Func) (d : List Byte) : (g.taking d).adminHead = (g.adminHead + 1) % 2 ^ 32 := by rw [Func.taking]

theorem Func.taking_quiet {g h : Func} (d : List Byte) (hq : g.quiet = h.quiet) : (g.taking d).quiet = (h.taking d).quiet := by
  rw [Func.quiet, Func.quiet, Func.mk.injEq] at hq
  rw [Func.quiet, Func.quiet, Func.mk.injEq]
  simp only [Func.taking]
  simp_all only [and_self]

theorem State.takeAdmin_fn (s : State) (f : Nat) : (s.takeAdmin f).fn f = ((s.refreshFunc f).fn f).taking (s.adminDesc f) := by
  have hhead := congrArg Func.adminHead (s.refreshFunc_quiet f f)
  rw [Func.quiet_adminHead, Func.quiet_adminHead] at hhead
  rw [State.takeAdmin, State.postHost_fn, State.updFn_same, Func.taking, AdminOp.taken, hhead]

theorem State.takeAdmin_quiet (s : State) (f : Nat) : ((s.takeAdmin f).fn f).quiet = ((s.fn f).taking (s.adminDesc f)).quiet :=
  (congrArg Func.quiet (s.takeAdmin_fn f)).trans (Func.taking_quiet _ (s.refreshFunc_quiet f f))

theorem State.takeAdmin_only (s : State) (f : Nat) : ChangesOnly [.pins, .funcs, .log] s (s.takeAdmin f) :=
  (State.takeAdmin_ev (k := false) (.refl _ s) rfl).only

/-- A record adds to the outputs, and takes nothing back. -/
theorem State.adminDone_out (s : State) (f status value : Nat) (deferred lower : Bool) : ∃ es, (s.adminDone f status value deferred lower).out = s.out ++ es :=
  let ⟨es, h, _⟩ := (State.adminDone_ev (k := false) (l := [.pins, .funcs, .msix, .log]) (.refl _ s) rfl).posted
  ⟨es, h⟩

theorem State.adminDone_adminHead (s : State) (f status value : Nat) (deferred lower : Bool) :
    ((s.adminDone f status value deferred lower).fn f).adminHead = (s.fn f).adminHead := by
  rw [State.adminDone]
  split
  · rfl
  next a h =>
    have hquiet := congrArg Func.adminHead ((s.updFn f fun g => { g with adminCur := none }).funcEvent_quiet f
      { status, kind := 4, deferred, lower, ctx := a.ctx, user := a.user, value, pos := a.pos, irq := a.irq } f)
    rw [State.updFn_same] at hquiet
    exact hquiet

/-! ### An operation's turn -/

section
variable {s u : State} {f op v : Nat} {lower : Bool} {body : List Byte → State → AdminRes}

/-- What an operation of function f has come to, once its descriptor has been taken. -/
def AdminRes.finish (r : AdminRes) (f : Nat) (taken : State) : State :=
  match r with
  | .fail st => taken.adminDone f st 0 false false
  | .done s v lower => s.adminDone f 0 v false lower
  | .later s => s

/-- In its turn an operation runs on the descriptor that has been taken. -/
theorem AdminTurn.runs (h : AdminTurn s f op) : s.runAdmin f op body = (body (s.adminDesc f) (s.takeAdmin f)).finish f (s.takeAdmin f) := by
  have howns : (op != 0x10 && !(s.takeAdmin f).ownsCtx f (at1 (s.adminDesc f) 2)) = false := by
    have hcx : (s.takeAdmin f).cx (at1 (s.adminDesc f) 2) = s.cx (at1 (s.adminDesc f) 2) := by
      rw [State.cx, s.takeAdmin_only f .ctxs (by decide)]
      rfl
    rcases h.owns with rfl | h
    · rfl
    · rw [State.ownsCtx, hcx, ← State.ownsCtx, h]
      simp
  simp only [State.runAdmin, h.ready, h.opcode, h.known, h.reserved, howns, Bool.not_true, Bool.false_eq_true, if_false, bne_self_eq_false, Bool.and_false,
    Bool.or_false]
  cases body (s.adminDesc f) (s.takeAdmin f) <;> rfl

/-- An operation that is done has taken its descriptor; its record changes the notices alone. -/
theorem AdminTurn.completes (h : AdminTurn s f op) (hbody : body (s.adminDesc f) (s.takeAdmin f) = .done u v lower)
    (hhead : (u.fn f).adminHead = ((s.takeAdmin f).fn f).adminHead) :
    AdminOver s (s.runAdmin f op body) f ∧ ChangesOnly [.pins, .funcs, .msix, .log] u (s.runAdmin f op body) ∧ ∃ es, (s.runAdmin f op body).out = u.out ++ es := by
  have htaken := congrArg Func.adminHead (s.takeAdmin_quiet f)
  rw [Func.quiet_adminHead, Func.quiet_adminHead, Func.taking_adminHead] at htaken
  rw [h.runs, hbody]
  exact ⟨⟨(u.adminDone_adminHead f 0 v false lower).trans (hhead.trans htaken), u.adminDone_adminCur f 0 v false lower⟩,
    u.adminDone_only f 0 v false lower, u.adminDone_out f 0 v false lower⟩
end

/-! ### Fences -/

section
variable {s : State} {f op : Nat}

/-- An operation's turn comes while the engine is Ready. -/
theorem AdminTurn.unlost (h : AdminTurn s f op) : s.hub.lost = false := by
  have hready := h.ready
  simp only [State.adminReady, State.ready, Bool.and_eq_true, Bool.not_eq_true'] at hready
  exact hready.1.1.1.1.1.1.2

/-- The context of a descriptor belongs to the function that gave it. -/
theorem AdminTurn.func (h : AdminTurn s f op) (hop : op ≠ 0x10) : (s.cx (at1 (s.adminDesc f) 2)).func = f := by
  have howns := h.owns.resolve_left hop
  simp only [State.ownsCtx, Bool.and_eq_true, beq_iff_eq] at howns
  exact howns.2

theorem fe_of_fences {s t : State} (h : t.fences = s.fences) (i : Nat) : t.fe i = s.fe i := by rw [State.fe, h, State.fe]

theorem fn_of_funcs {s t : State} (h : t.funcs = s.funcs) (f : Nat) : t.fn f = s.fn f := by rw [State.fn, h, State.fn]

theorem State.takeAdmin_fe (s : State) (f i : Nat) : (s.takeAdmin f).fe i = s.fe i := fe_of_fences (s.takeAdmin_only f .fences (by decide)) i

theorem State.takeAdmin_cx (s : State) (f c : Nat) : (s.takeAdmin f).cx c = s.cx c := by
  rw [State.cx, s.takeAdmin_only f .ctxs (by decide), State.cx]

theorem State.takeAdmin_fenceSlot (s : State) (f h : Nat) : (s.takeAdmin f).fenceSlot h = s.fenceSlot h := by
  simp only [State.fenceSlot, State.takeAdmin_fe]

theorem State.takeAdmin_time (s : State) (f : Nat) : (s.takeAdmin f).time = s.time := s.takeAdmin_only f .time (by decide)

theorem State.takeAdmin_hub (s : State) (f : Nat) : (s.takeAdmin f).hub = s.hub := s.takeAdmin_only f .hub (by decide)

theorem State.mirrorFence_only (s : State) (i : Nat) (flush : Bool) : ChangesOnly [] s (s.mirrorFence i flush) :=
  (State.mirrorFence_ev (k := false) (.refl _ s) rfl).only

theorem State.mirrorFence_fe (s : State) (i j : Nat) (flush : Bool) : (s.mirrorFence i flush).fe j = s.fe j :=
  fe_of_fences (s.mirrorFence_only i flush .fences (by decide)) j

/-- A fence with a mirror has its value posted there (R342). -/
theorem State.mirrorFence_posts {u : State} {i : Nat} (hmirror : (u.fe i).mirror ≠ 0) (hlost : u.hub.lost = false) :
    .hostWrite 0 (u.cx (u.fe i).owner).func (u.fe i).mirror (leBytes 8 (u.fe i).value) ∈ (u.mirrorFence i false).out := by
  simp [State.mirrorFence, hmirror, hlost, State.postHost_out, requester]

theorem State.noteWaits_fe (s : State) (i : Nat) : (s.noteWaits i).fe i = { s.fe i with changedAt := s.time.now } :=
  s.updFe_same i fun f => { f with changedAt := s.time.now }

/-- A fence whose owner has gone. -/
def Fence.orphan (x : Fence) : Fence := { x with life := .abandoned, owned := false }

theorem State.abandonFence_eq (u : State) (i : Nat) : u.abandonFence i = ((u.noteWaits i).updFe i Fence.orphan).reapFence i := rfl

theorem State.orphan_fe (u : State) (i : Nat) :
    ((u.noteWaits i).updFe i Fence.orphan).fe i = { u.fe i with life := .abandoned, owned := false, changedAt := u.time.now } := by
  rw [State.updFe_same, State.noteWaits_fe, Fence.orphan]

/-- The fence with no holder left is free, in its next generation. -/
def Fence.reaped (x : Fence) : Fence := { gen := if x.gen = 0xFFFF then 1 else x.gen + 1 }

theorem State.reapFence_eq (u : State) (i : Nat) : u.reapFence i = if (u.fe i).life == .abandoned && !(u.fe i).owned && (u.fe i).shares.isEmpty then
    { u.updFe i Fence.reaped with fenceFreed := u.fenceFreed ++ [i] } else u := rfl

/-- A fence that nobody shares is freed with its owner, and its next generation begins (R340, R345). -/
theorem State.abandonFence_unshared {u : State} {i : Nat} (h : (u.fe i).shares = []) :
    (u.abandonFence i).fenceFreed = u.fenceFreed ++ [i] ∧ (u.abandonFence i).fe i = (u.fe i).reaped := by
  have hfe := u.orphan_fe i
  have hfreed : ((u.noteWaits i).updFe i Fence.orphan).fenceFreed = u.fenceFreed := rfl
  rw [State.abandonFence_eq]
  generalize (u.noteWaits i).updFe i Fence.orphan = w at hfe hfreed ⊢
  rw [State.reapFence_eq, if_pos (by rw [hfe, h]; rfl), ← hfreed]
  refine ⟨rfl, (w.updFe_same i Fence.reaped).trans ?_⟩
  rw [hfe, Fence.reaped, Fence.reaped]

/-- A fence that another context shares outlives its owner, abandoned (R345). -/
theorem State.abandonFence_shared {u : State} {i : Nat} (h : (u.fe i).shares ≠ []) :
    (u.abandonFence i).fe i = { u.fe i with life := .abandoned, owned := false, changedAt := u.time.now } := by
  have hfe := u.orphan_fe i
  rw [State.abandonFence_eq]
  generalize (u.noteWaits i).updFe i Fence.orphan = w at hfe ⊢
  rw [State.reapFence_eq, if_neg (by rw [hfe]; simpa using h), hfe]

/-- The fence of a FENCE_CREATE's descriptor, in a slot's generation. -/
def Fence.created (x : Fence) (now : Nat) (d : List Byte) : Fence :=
  { life := .live, gen := x.gen, changedAt := now, owner := at1 d 2, owned := true, value := at8 d 16, mirror := at8 d 24
    remote := bit (at1 d 32) 0, base := at4 d 36, mask := at4 d 40 }

/-- The state in which a fresh slot holds the fence of a descriptor. -/
def State.withFence (s : State) (i : Nat) (d : List Byte) : State :=
  { s with fenceFresh := i + 1 }.updFe i fun x => x.created s.time.now d

theorem State.withFence_fn (s : State) (i : Nat) (d : List Byte) (f : Nat) : (s.withFence i d).fn f = s.fn f := rfl

theorem State.withFence_hub (s : State) (i : Nat) (d : List Byte) : (s.withFence i d).hub = s.hub := rfl

theorem State.withFence_cx (s : State) (i : Nat) (d : List Byte) (c : Nat) : (s.withFence i d).cx c = s.cx c := rfl

theorem State.withFence_fe (s : State) (i : Nat) (d : List Byte) : (s.withFence i d).fe i = (s.fe i).created s.time.now d :=
  State.updFe_same { s with fenceFresh := i + 1 } i fun x => x.created s.time.now d

theorem opFenceCreate_eq {v : State} {d : List Byte} {i : Nat} (halign : at8 d 24 % 8 = 0) (hi : v.fenceFresh = i) (hmax : i < 65536) :
    opFenceCreate d v = .done ((v.withFence i d).mirrorFence i false) ((v.withFence i d).fenceHandle i) false := by
  rw [opFenceCreate, if_neg (by omega), State.nextFence, hi, if_pos hmax]
  rfl

theorem fenceCreate_completes {i : Nat} (d : List Byte) (hd : d = s.adminDesc f) (h : AdminTurn s f 0x30) (halign : at8 d 24 % 8 = 0) (hi : s.fenceFresh = i)
    (hmax : i < 65536) : Yields (.fenceCreate f) s fun t => AdminOver s t f ∧ t.fenceFresh = i + 1 ∧ t.fe i =
        { life := .live, gen := (s.fe i).gen, changedAt := s.time.now, owner := at1 d 2, owned := true, value := at8 d 16, mirror := at8 d 24
          remote := bit (at1 d 32) 0, base := at4 d 36, mask := at4 d 40 }
      ∧ (at8 d 24 ≠ 0 → .hostWrite 0 f (at8 d 24) (leBytes 8 (at8 d 16)) ∈ t.out) := by
  subst hd
  have hfresh : (s.takeAdmin f).fenceFresh = i := Eq.trans (s.takeAdmin_only f .fenceFresh (by decide)) hi
  generalize hu : (s.takeAdmin f).withFence i (s.adminDesc f) = u
  have hbody : opFenceCreate (s.adminDesc f) (s.takeAdmin f) = .done (u.mirrorFence i false) (u.fenceHandle i) false := by
    rw [opFenceCreate_eq halign hfresh hmax, hu]
  have hfe : u.fe i = (s.fe i).created s.time.now (s.adminDesc f) := by
    rw [← hu, State.withFence_fe, s.takeAdmin_time, s.takeAdmin_fe]
  have hnext : u.fenceFresh = i + 1 := by rw [← hu]; rfl
  have hlost : u.hub.lost = false := by
    rw [← hu, State.withFence_hub, s.takeAdmin_hub, h.unlost]
  have hfunc : (u.cx (u.fe i).owner).func = f := by
    rw [hfe, ← hu, State.withFence_cx, s.takeAdmin_cx, Fence.created, h.func (by decide)]
  have hhead : ((u.mirrorFence i false).fn f).adminHead = ((s.takeAdmin f).fn f).adminHead := by
    rw [fn_of_funcs (u.mirrorFence_only i false .funcs (by decide)), ← hu, State.withFence_fn]
  obtain ⟨hover, honly, es, hout⟩ := h.completes hbody hhead
  refine .of_next rfl ⟨hover, ?_, ?_, fun hmirror => ?_⟩
  · exact Eq.trans (honly .fenceFresh (by decide)) (Eq.trans (u.mirrorFence_only i false .fenceFresh (by decide)) hnext)
  · exact (fe_of_fences (honly .fences (by decide)) i).trans ((u.mirrorFence_fe i i false).trans hfe)
  · have hpost := State.mirrorFence_posts (u := u) (i := i) (by rw [hfe]; exact hmirror) hlost
    rw [hfunc, hfe] at hpost
    rw [hout]
    exact List.mem_append_left es hpost

/-- The fence of a descriptor's handle that the descriptor's context owns. -/
structure Fence.OwnedBy (x : Fence) (c : Nat) : Prop where
  owned : x.owned = true
  owner : x.owner = c

/-- A fence with one context's rights set anew. -/
def Fence.shareWith (x : Fence) (d : List Byte) : Fence := { x with
  shares := (x.shares.filter fun y => y.ctx != at1 d 20) ++ [{ ctx := at1 d 20, wait := bit (at1 d 21) 0, signal := bit (at1 d 21) 1 }] }

theorem opFenceShare_eq {v : State} {d : List Byte} {i : Nat} (hi : v.fenceSlot (at4 d 16) = some i) (hlive : (v.fe i).life = .live)
    (ho : (v.fe i).OwnedBy (at1 d 2)) (hctx : (v.cx (at1 d 20)).life = .live)
    (hroom : ((v.fe i).shares.filter fun x => x.ctx != at1 d 20).length < 16) :
    opFenceShare d v = .done (v.updFe i fun x => { x with
      shares := ((v.fe i).shares.filter fun y => y.ctx != at1 d 20) ++ [{ ctx := at1 d 20, wait := bit (at1 d 21) 0, signal := bit (at1 d 21) 1 }] }) 0 false := by
  simp only [opFenceShare, hi, hlive, ho.owned, ho.owner, hctx, bne_self_eq_false, Bool.not_true, Bool.or_self, Bool.false_eq_true, if_false,
    if_neg (Nat.not_le.2 hroom)]

theorem fenceShare_completes {i : Nat} (h : AdminTurn s f 0x31) (hi : s.fenceSlot (at4 (s.adminDesc f) 16) = some i)
    (hlive : (s.fe i).life = .live) (ho : (s.fe i).OwnedBy (at1 (s.adminDesc f) 2)) (hctx : (s.cx (at1 (s.adminDesc f) 20)).life = .live)
    (hroom : ((s.fe i).shares.filter fun x => x.ctx != at1 (s.adminDesc f) 20).length < 16) :
    Yields (.fenceShare f) s fun t => AdminOver s t f ∧ t.fe i = (s.fe i).shareWith (s.adminDesc f) := by
  have hbody := opFenceShare_eq (v := s.takeAdmin f) (d := s.adminDesc f) (i := i) (by rwa [s.takeAdmin_fenceSlot]) (by rwa [s.takeAdmin_fe])
    (by rwa [s.takeAdmin_fe]) (by rwa [s.takeAdmin_cx]) (by rwa [s.takeAdmin_fe])
  obtain ⟨hover, honly, -⟩ := h.completes hbody (by rw [State.updFe_fn])
  refine .of_next rfl ⟨hover, (fe_of_fences (honly .fences (by decide)) i).trans ?_⟩
  rw [State.updFe_same, s.takeAdmin_fe, Fence.shareWith]

theorem opFenceRelease_eq {v : State} {d : List Byte} {i : Nat} (hi : v.fenceSlot (at4 d 16) = some i) (ho : (v.fe i).OwnedBy (at1 d 2)) :
    opFenceRelease d v = .done (v.abandonFence i) 0 false := by
  simp only [opFenceRelease, hi, ho.owned, ho.owner, beq_self_eq_true, Bool.and_self, if_true]

theorem fenceRelease_completes {i : Nat} (h : AdminTurn s f 0x32) (hi : s.fenceSlot (at4 (s.adminDesc f) 16) = some i)
    (ho : (s.fe i).OwnedBy (at1 (s.adminDesc f) 2)) : Yields (.fenceRelease f) s fun t => AdminOver s t f
      ∧ t.fe i = ((s.takeAdmin f).abandonFence i).fe i ∧ t.fenceFreed = ((s.takeAdmin f).abandonFence i).fenceFreed := by
  have hbody := opFenceRelease_eq (v := s.takeAdmin f) (d := s.adminDesc f) (i := i) (by rwa [s.takeAdmin_fenceSlot]) (by rwa [s.takeAdmin_fe])
  have honlyA : ChangesOnly [.fences, .fenceFreed, .cmds] (s.takeAdmin f) ((s.takeAdmin f).abandonFence i) :=
    (State.abandonFence_ev (k := false) (.refl _ _) rfl).only
  obtain ⟨hover, honly, -⟩ := h.completes hbody (by rw [fn_of_funcs (honlyA .funcs (by decide))])
  exact .of_next rfl ⟨hover, fe_of_fences (honly .fences (by decide)) i, honly .fenceFreed (by decide)⟩

/-- The fence after a signal that raises it. -/
def State.raised (s : State) (i v : Nat) : State := (s.noteWaits i).updFe i fun x => { x with value := v }

theorem State.raised_fe (s : State) (i v : Nat) : (s.raised i v).fe i = { s.fe i with value := v, changedAt := s.time.now } := by
  rw [State.raised, State.updFe_same, State.noteWaits_fe]

theorem State.raised_hub (s : State) (i v : Nat) : (s.raised i v).hub = s.hub := rfl

theorem State.raised_cx (s : State) (i v c : Nat) : (s.raised i v).cx c = s.cx c := rfl

theorem State.raised_fn (s : State) (i v f : Nat) : (s.raised i v).fn f = s.fn f := rfl

theorem opFenceSignal_raises {v : State} {d : List Byte} {f i : Nat} (hi : v.fenceSlot (at4 d 16) = some i) (hlive : (v.fe i).life = .live)
    (ho : (v.fe i).OwnedBy (at1 d 2)) (hless : (v.fe i).value < at8 d 24) : ∃ x, opFenceSignal f d v = .done ((v.raised i (at8 d 24)).mirrorFence i false) x false := by
  have hsignal : v.signalFence i (at8 d 24) false = ((v.raised i (at8 d 24)).mirrorFence i false, true) := by
    simp only [State.signalFence, hlive, bne_self_eq_false, Bool.false_eq_true, if_false, if_neg (Nat.not_lt.2 hless.le), if_neg hless.ne', State.raised]
  simp only [opFenceSignal, hi, hlive, ho.owned, ho.owner, hsignal, bne_self_eq_false, Bool.not_true, Bool.or_self, Bool.false_eq_true, if_false, if_true]
  exact ⟨_, rfl⟩

theorem opFenceSignal_lower {v : State} {d : List Byte} {f i : Nat} (hi : v.fenceSlot (at4 d 16) = some i) (hlive : (v.fe i).life = .live)
    (ho : (v.fe i).OwnedBy (at1 d 2)) (hless : at8 d 24 < (v.fe i).value) :
    ∃ x, opFenceSignal f d v = .done (State.viol { v with fenceLower := satinc 32 v.fenceLower } f 5) x true := by
  have hsignal : v.signalFence i (at8 d 24) false = ({ v with fenceLower := satinc 32 v.fenceLower }, false) := by
    simp only [State.signalFence, hlive, bne_self_eq_false, Bool.false_eq_true, if_false, if_pos hless]
  simp only [opFenceSignal, hi, hlive, ho.owned, ho.owner, hsignal, bne_self_eq_false, Bool.not_true, Bool.or_self, Bool.false_eq_true, if_false]
  exact ⟨_, rfl⟩

theorem fenceSignal_raises {i : Nat} (h : AdminTurn s f 0x33) (hi : s.fenceSlot (at4 (s.adminDesc f) 16) = some i)
    (hlive : (s.fe i).life = .live) (ho : (s.fe i).OwnedBy (at1 (s.adminDesc f) 2)) (hless : (s.fe i).value < at8 (s.adminDesc f) 24) :
    Yields (.fenceSignal f) s fun t => AdminOver s t f ∧ t.fe i = { s.fe i with value := at8 (s.adminDesc f) 24, changedAt := s.time.now }
      ∧ ((s.fe i).mirror ≠ 0 → .hostWrite 0 f (s.fe i).mirror (leBytes 8 (at8 (s.adminDesc f) 24)) ∈ t.out) := by
  obtain ⟨x, hbody⟩ := opFenceSignal_raises (v := s.takeAdmin f) (d := s.adminDesc f) (f := f) (i := i) (by rwa [s.takeAdmin_fenceSlot])
    (by rwa [s.takeAdmin_fe]) (by rwa [s.takeAdmin_fe]) (by rwa [s.takeAdmin_fe])
  have hfe := (s.takeAdmin f).raised_fe i (at8 (s.adminDesc f) 24)
  rw [s.takeAdmin_fe, s.takeAdmin_time] at hfe
  have hlost := (congrArg Hub.lost ((s.takeAdmin f).raised_hub i (at8 (s.adminDesc f) 24))).trans (by rw [s.takeAdmin_hub, h.unlost])
  have hfunc := (congrArg Ctx.func ((s.takeAdmin f).raised_cx i (at8 (s.adminDesc f) 24) (at1 (s.adminDesc f) 2))).trans
    (by rw [s.takeAdmin_cx, h.func (by decide)])
  have hfn := (s.takeAdmin f).raised_fn i (at8 (s.adminDesc f) 24) f
  generalize (s.takeAdmin f).raised i (at8 (s.adminDesc f) 24) = u at hbody hfe hlost hfunc hfn
  obtain ⟨hover, honly, es, hout⟩ := h.completes hbody (by rw [fn_of_funcs (u.mirrorFence_only i false .funcs (by decide)), hfn])
  refine .of_next rfl ⟨hover, (fe_of_fences (honly .fences (by decide)) i).trans ((u.mirrorFence_fe i i false).trans hfe), fun hmirror => ?_⟩
  have hpost := State.mirrorFence_posts (u := u) (i := i) (by rw [hfe]; exact hmirror) hlost
  rw [hfe, ho.owner, hfunc] at hpost
  rw [hout]
  exact List.mem_append_left es hpost

theorem State.counted_lower (v : State) (f n : Nat) : ((State.viol { v with fenceLower := n } f 5).fn f).adminHead = (v.fn f).adminHead
    ∧ (State.viol { v with fenceLower := n } f 5).fences = v.fences ∧ (State.viol { v with fenceLower := n } f 5).fenceLower = n := by
  have hviol : ChangesOnly [.pins, .funcs, .log] { v with fenceLower := n } (State.viol { v with fenceLower := n } f 5) :=
    (State.viol_ev (k := false) (.refl _ _) rfl).only
  have hhead := congrArg Func.adminHead (State.viol_quiet { v with fenceLower := n } f 5 f)
  rw [Func.quiet_adminHead, Func.quiet_adminHead] at hhead
  exact ⟨hhead, hviol .fences (by decide), hviol .fenceLower (by decide)⟩

theorem fenceSignal_lower {i : Nat} (h : AdminTurn s f 0x33) (hi : s.fenceSlot (at4 (s.adminDesc f) 16) = some i)
    (hlive : (s.fe i).life = .live) (ho : (s.fe i).OwnedBy (at1 (s.adminDesc f) 2)) (hless : at8 (s.adminDesc f) 24 < (s.fe i).value) :
    Yields (.fenceSignal f) s fun t => AdminOver s t f ∧ t.fences = s.fences ∧ t.fenceLower = satinc 32 s.fenceLower := by
  obtain ⟨x, hbody⟩ := opFenceSignal_lower (v := s.takeAdmin f) (d := s.adminDesc f) (f := f) (i := i) (by rwa [s.takeAdmin_fenceSlot])
    (by rwa [s.takeAdmin_fe]) (by rwa [s.takeAdmin_fe]) (by rwa [s.takeAdmin_fe])
  have hfences := s.takeAdmin_only f .fences (by decide)
  have hlower := s.takeAdmin_only f .fenceLower (by decide)
  rw [← hlower]
  generalize satinc 32 (s.takeAdmin f).fenceLower = n at hbody ⊢
  obtain ⟨hheadV, hfencesV, hlowerV⟩ := (s.takeAdmin f).counted_lower f n
  obtain ⟨hover, honly, -⟩ := h.completes hbody hheadV
  refine .of_next rfl ⟨hover, ?_, ?_⟩
  · exact Eq.trans (honly .fences (by decide)) (Eq.trans hfencesV hfences)
  · exact Eq.trans (honly .fenceLower (by decide)) hlowerV

end

/-- Settles O29: each operation's body, run on the state in which its descriptor has been taken. -/
theorem fenceAdministration : Obligations.FenceAdministration := by
  refine ⟨?_, ?_, ?_, ?_, ?_, ?_⟩
  · rintro s f i d rfl h halign hi hmax
    exact fenceCreate_completes _ rfl h halign hi hmax
  · rintro s f i d rfl h hi hlive howned howner hctx hroom
    exact fenceShare_completes h hi hlive ⟨howned, howner⟩ hctx hroom
  · rintro s f i d rfl h hi howned howner hshares
    obtain ⟨t, ht, hover, hfe, hfreed⟩ := fenceRelease_completes h hi ⟨howned, howner⟩
    obtain ⟨hfreed', hfe'⟩ := State.abandonFence_unshared (u := s.takeAdmin f) (i := i) (by rwa [s.takeAdmin_fe])
    refine ⟨t, ht, hover, hfreed.trans (hfreed'.trans ?_), hfe.trans (hfe'.trans ?_)⟩
    · rw [s.takeAdmin_only f .fenceFreed (by decide)]
    · rw [s.takeAdmin_fe, Fence.reaped]
  · rintro s f i d rfl h hi howned howner hshares
    obtain ⟨t, ht, hover, hfe, -⟩ := fenceRelease_completes h hi ⟨howned, howner⟩
    refine ⟨t, ht, hover, hfe.trans ((State.abandonFence_shared (by rwa [s.takeAdmin_fe])).trans ?_)⟩
    rw [s.takeAdmin_fe, s.takeAdmin_time]
  · rintro s f i d rfl h hi hlive howned howner hless
    exact fenceSignal_raises h hi hlive ⟨howned, howner⟩ hless
  · rintro s f i d rfl h hi hlive howned howner hless
    exact fenceSignal_lower h hi hlive ⟨howned, howner⟩ hless

/-! ### Malformed descriptors -/

/-- A record of a ring that is not full is written at once. -/
theorem State.funcEvent_writes {s : State} {f : Nat} {r : EvRec} (hkind : r.kind ≠ 5) (hon : (s.fn f).evOn = true) (hroom : s.funcFull f = false) :
    s.funcEvent f r = s.putFunc f r := by
  have hfull : evFull (s.funcGeom f).log2 (s.fn f).evSeq (s.fn f).evRead = false := hroom
  have hrefresh : s.refreshFunc f = s := by rw [State.refreshFunc, hfull]; rfl
  simp only [State.funcEvent, hkind, if_false, hon, Bool.not_true, Bool.false_eq_true, hrefresh, hroom, Bool.not_false, if_true]

/-- A record written: its two parts follow what was out, and only a message may follow them. -/
theorem State.putFunc_out (s : State) (f : Nat) (r : EvRec) : ∃ b, (s.putFunc f r).out = s.out
    ++ [.hostWrite 0 f ((s.funcGeom f).base + 32 * ((s.fn f).evSeq % 2 ^ (s.funcGeom f).log2)) ((r.bytes (s.fn f).evSeq).take 28),
        .hostWrite 0 f ((s.funcGeom f).base + 32 * ((s.fn f).evSeq % 2 ^ (s.funcGeom f).log2) + 28) ((r.bytes (s.fn f).evSeq).drop 28)] ++ b := by
  rw [State.putFunc]
  generalize ((s.fn f).moder.after (s.funcGeom f).moder s.time.now r) = p
  obtain ⟨m, send⟩ := p
  have hout : ∀ u : State, u.out = (s.postRecord (s.funcGeom f) (s.fn f).evSeq r).out → u.out = s.out
      ++ [.hostWrite 0 f ((s.funcGeom f).base + 32 * ((s.fn f).evSeq % 2 ^ (s.funcGeom f).log2)) ((r.bytes (s.fn f).evSeq).take 28),
        .hostWrite 0 f ((s.funcGeom f).base + 32 * ((s.fn f).evSeq % 2 ^ (s.funcGeom f).log2) + 28) ((r.bytes (s.fn f).evSeq).drop 28)] := by
    intro u hu
    rw [hu, State.postRecord, State.postHost_out, State.postHost_out, List.append_assoc]
    rfl
  cases send with
  | false => exact ⟨[], by rw [List.append_nil]; exact hout _ (State.updFn_out _ f _)⟩
  | true =>
    obtain ⟨es, hes, -⟩ := (State.sendMsix_ev (k := false) (l := [.msix]) (f := f) (v := (s.funcGeom f).vector)
      (.refl _ ((s.postRecord (s.funcGeom f) (s.fn f).evSeq r).updFn f fun d => { d with evSeq := (d.evSeq + 1) % 2 ^ 32, moder := m })) rfl).posted
    exact ⟨es, by rw [← hout _ (State.updFn_out _ f _)]; exact hes⟩

theorem State.refreshFunc_out (s : State) (f : Nat) : (s.refreshFunc f).out = s.out := by
  rw [State.refreshFunc]
  split
  · split
    · exact State.updFn_out s f _
    · exact s.viol_out f 6
  · rfl

theorem State.viol_evSeq (s : State) (f kind : Nat) : ((s.viol f kind).fn f).evSeq = (s.fn f).evSeq := by
  rw [State.viol, fn_of_funcs (State.logCo_funcs _ _ _ _ _ _ _), State.updFn_same]

theorem State.refreshFunc_evSeq (s : State) (f : Nat) : ((s.refreshFunc f).fn f).evSeq = (s.fn f).evSeq := by
  rw [State.refreshFunc]
  split
  · split
    · rw [State.updFn_same]
    · exact s.viol_evSeq f 6
  · rfl

theorem State.putFunc_evSeq (s : State) (f : Nat) (r : EvRec) : ((s.putFunc f r).fn f).evSeq = ((s.fn f).evSeq + 1) % 2 ^ 32 := by
  rw [State.putFunc]
  generalize ((s.fn f).moder.after (s.funcGeom f).moder s.time.now r) = p
  obtain ⟨m, send⟩ := p
  have hfn : ∀ m, (((s.postRecord (s.funcGeom f) (s.fn f).evSeq r).updFn f fun d => { d with evSeq := (d.evSeq + 1) % 2 ^ 32, moder := m }).fn f).evSeq
      = ((s.fn f).evSeq + 1) % 2 ^ 32 := fun m => by
    rw [State.updFn_same, State.postRecord, State.postHost_fn, State.postHost_fn]
  cases send with
  | false => exact hfn m
  | true => exact (congrArg Func.evSeq (fn_of_funcs (State.sendMsix_funcs _ f _) f)).trans (hfn m)

/-- Functions that differ in their notices alone have one event ring. -/
theorem State.funcGeom_of_quiet {s t : State} {f : Nat} (h : (t.fn f).quiet = (s.fn f).quiet) : t.funcGeom f = s.funcGeom f := by
  rw [Func.quiet, Func.quiet, Func.mk.injEq] at h
  simp only [State.funcGeom, h]

/-- A function's event ring, whatever its admin ring does. -/
theorem State.ring_of_adminRing {s t : State} {f h : Nat} {a : Option AdminOp} (hfn : t.fn f = { s.fn f with adminHead := h, adminCur := a }) :
    (t.fn f).evSeq = (s.fn f).evSeq ∧ (t.fn f).evOn = (s.fn f).evOn ∧ t.funcGeom f = s.funcGeom f ∧ t.funcFull f = s.funcFull f := by
  simp only [State.funcGeom, State.funcFull, hfn, and_self]

theorem Func.taking_eq (g : Func) (d : List Byte) : ∃ h a, g.taking d = { g with adminHead := h, adminCur := a } := ⟨_, _, rfl⟩

/-- The function after its descriptor has been taken, seen from its event ring. -/
theorem State.takeAdmin_ring (s : State) (f : Nat) : ((s.takeAdmin f).fn f).evSeq = (s.fn f).evSeq ∧ ((s.takeAdmin f).fn f).evOn = (s.fn f).evOn
    ∧ (s.takeAdmin f).funcGeom f = s.funcGeom f ∧ (s.takeAdmin f).funcFull f = (s.refreshFunc f).funcFull f := by
  have hq := s.refreshFunc_quiet f f
  have honQ := congrArg Func.evOn hq
  rw [Func.quiet_evOn, Func.quiet_evOn] at honQ
  obtain ⟨h, a, htaking⟩ := ((s.refreshFunc f).fn f).taking_eq (s.adminDesc f)
  obtain ⟨hseq, hon, hgeom, hfull⟩ := State.ring_of_adminRing ((s.takeAdmin_fn f).trans htaking)
  exact ⟨hseq.trans (s.refreshFunc_evSeq f), hon.trans honQ, hgeom.trans (State.funcGeom_of_quiet hq), hfull⟩

theorem Func.taking_adminCur (g : Func) (d : List Byte) : (g.taking d).adminCur = some (AdminOp.taken g.adminHead d) := by rw [Func.taking]

theorem State.takeAdmin_adminCur (s : State) (f : Nat) : ((s.takeAdmin f).fn f).adminCur = some (AdminOp.taken (s.fn f).adminHead (s.adminDesc f)) := by
  have hhead := congrArg Func.adminHead (s.refreshFunc_quiet f f)
  rw [Func.quiet_adminHead, Func.quiet_adminHead] at hhead
  rw [s.takeAdmin_fn, Func.taking_adminCur, hhead]

theorem State.takeAdmin_out (s : State) (f : Nat) : ∃ e, (s.takeAdmin f).out = s.out ++ [e] := by
  rw [State.takeAdmin, State.postHost_out, State.updFn_out, State.refreshFunc_out]
  exact ⟨_, rfl⟩

/-- The record of an admin operation. -/
def AdminOp.record (a : AdminOp) (status value : Nat) (deferred lower : Bool) : EvRec :=
  { status, kind := 4, deferred, lower, ctx := a.ctx, user := a.user, value, pos := a.pos, irq := a.irq }

theorem State.adminDone_some {s : State} {f status value : Nat} {deferred lower : Bool} {a : AdminOp} (h : (s.fn f).adminCur = some a) :
    s.adminDone f status value deferred lower
      = (s.updFn f fun g => { g with adminCur := none }).funcEvent f (a.record status value deferred lower) := by
  rw [State.adminDone, h]
  rfl

/-- Every operation's command runs the function's admin ring. -/
theorem exec_adminFunc {i : Instr} {s : State} {f : Nat} (h : adminFunc i = some f) (hready : s.adminReady f = true) :
    ∃ op body, exec i s = .next (s.runAdmin f op body) := by
  have hunmap : ∃ body, exec (.objUnmap f) s = .next (s.runAdmin f 0x42 body) := by
    change ∃ body, Host.Outcome.next (s.objUnmap f) = _
    simp only [State.objUnmap, hready, Bool.not_true, Bool.false_eq_true, if_false]
    exact ⟨_, rfl⟩
  match i, h with
  | .objUnmap _, rfl => exact ⟨_, hunmap⟩
  | .ctxCreate _, rfl | .ctxDestroy _, rfl | .ringCreate _, rfl | .ringDestroy _, rfl | .fenceCreate _, rfl | .fenceShare _, rfl
  | .fenceRelease _, rfl | .fenceSignal _, rfl | .objCreate _, rfl | .objMapHost _, rfl | .objExport _, rfl | .objImport _, rfl
  | .objWithdraw _, rfl => exact ⟨_, _, rfl⟩

/-- A descriptor of no operation is taken, and its record says that it is malformed. -/
theorem State.runAdmin_unknown {s : State} {f op : Nat} {body : List Byte → State → AdminRes} (hready : s.adminReady f = true)
    (hunknown : adminOps.contains (at1 (s.adminDesc f) 0) = false) : s.runAdmin f op body = (s.takeAdmin f).adminDone f 0x0102 0 false false := by
  simp only [State.runAdmin, hready, hunknown, Bool.not_true, Bool.not_false, Bool.false_and, Bool.true_or, Bool.false_eq_true, if_false, if_true]

/-- Settles O27: the descriptor is taken, its record posted in two parts, and only the areas of an ADMIN record change. -/
theorem malformedAdminDescriptor : Obligations.MalformedAdminDescriptor := by
  intro i s f hi hready hon hunknown
  obtain ⟨op, body, hexec⟩ := exec_adminFunc hi hready
  have hroom : (s.refreshFunc f).funcFull f = false := by
    simp only [State.adminReady, Bool.and_eq_true, Bool.not_eq_true'] at hready
    exact hready.1.2
  obtain ⟨hseq, honT, hgeom, hfull⟩ := s.takeAdmin_ring f
  have hcur := s.takeAdmin_adminCur f
  have htaken := congrArg Func.adminHead (s.takeAdmin_quiet f)
  rw [Func.quiet_adminHead, Func.quiet_adminHead, Func.taking_adminHead] at htaken
  obtain ⟨e, he⟩ := s.takeAdmin_out f
  have honly : ChangesOnly [.funcs, .msix, .pins, .log] s ((s.takeAdmin f).adminDone f 0x0102 0 false false) :=
    (State.adminDone_ev (k := false) (State.takeAdmin_ev (.refl _ s) rfl) rfl).only
  have hover : AdminOver s ((s.takeAdmin f).adminDone f 0x0102 0 false false) f :=
    ⟨(State.adminDone_adminHead _ _ _ _ _ _).trans htaken, State.adminDone_adminCur _ _ _ _ _ _⟩
  refine .of_next (hexec.trans (congrArg _ (State.runAdmin_unknown hready hunknown))) ⟨hover, honly, ?_⟩
  rw [State.adminDone_some hcur]
  generalize hu : (s.takeAdmin f).updFn f (fun g => { g with adminCur := none }) = u
  obtain ⟨hseqU, honU, hgeomU, hfullU⟩ := State.ring_of_adminRing (s := s.takeAdmin f) (t := u) (f := f) (a := none) (by rw [← hu, State.updFn_same])
  have houtU : u.out = s.out ++ [e] := by rw [← hu, State.updFn_out, he]
  have huser : ((AdminOp.taken (s.fn f).adminHead (s.adminDesc f)).record 0x0102 0 false false).user = at8 (s.adminDesc f) 8 := rfl
  have hpos : ((AdminOp.taken (s.fn f).adminHead (s.adminDesc f)).record 0x0102 0 false false).pos = (s.fn f).adminHead := rfl
  have hstatus : ((AdminOp.taken (s.fn f).adminHead (s.adminDesc f)).record 0x0102 0 false false).status = 0x0102 := rfl
  have hkind : ((AdminOp.taken (s.fn f).adminHead (s.adminDesc f)).record 0x0102 0 false false).kind = 4 := rfl
  generalize (AdminOp.taken (s.fn f).adminHead (s.adminDesc f)).record 0x0102 0 false false = r at huser hpos hstatus hkind ⊢
  rw [State.funcEvent_writes (by rw [hkind]; decide) (honU.trans (honT.trans hon)) (hfullU.trans (hfull.trans hroom))]
  obtain ⟨b, hb⟩ := u.putFunc_out f r
  rw [hgeomU.trans hgeom, hseqU.trans hseq, houtU] at hb
  exact ⟨by rw [State.putFunc_evSeq, hseqU, hseq], r, [e], b, hstatus, hkind, huser, hpos, hb⟩

end Sys2Proof.Machine
end

section
/-! OBJECTS (O30). A stack whose sub-pages have numbers of the next stack. -/

namespace Sys2Proof.Machine

/-! ### The first sub-page that is not taken -/

theorem Tbl.mem_put_of_ne {α : Type} {t : Tbl α} {k : Nat} {a : α} {e : Nat × α} (he : e ∈ t) (hne : e.1 ≠ k) : e ∈ Tbl.put t k a := by
  induction t with
  | nil => exact nomatch he
  | cons b t ih =>
    obtain ⟨j, b⟩ := b
    rw [Tbl.put]
    rcases List.mem_cons.1 he with rfl | he
    · split
      next h => exact absurd h hne
      next => split <;> simp
    · split
      · exact List.mem_cons_of_mem _ he
      · split
        · exact List.mem_cons_of_mem _ (List.mem_cons_of_mem _ he)
        · exact List.mem_cons_of_mem _ (ih he)

/-- The first number that a predicate holds of. -/
theorem take_filter_range {p : Nat → Bool} {k m : Nat} (hbelow : ∀ i < k, p i = false) (hk : p k = true) (hm : k < m) : ((List.range m).filter p).take 1 = [k] := by
  obtain ⟨r, rfl⟩ := Nat.exists_eq_add_of_lt hm
  have hnone : (List.range k).filter p = [] := List.filter_eq_nil_iff.2 fun i hi => by simp [hbelow i (List.mem_range.1 hi)]
  rw [Nat.add_assoc, List.range_add, List.filter_append, hnone, List.nil_append, Nat.add_comm r 1, List.range_add, List.map_append, List.filter_append]
  simp [hk]

section
variable {dir : Tbl DirEntry} {c : Nat}

/-- The sub-pages of the first c numbers that are not FREE. -/
def Tbl.takenBelow (dir : Tbl DirEntry) (c : Nat) : List Nat := (dir.filter fun e => e.1 / c == 0 && e.2.st != 0).map Prod.fst

theorem Tbl.mem_takenBelow (hdir : ∀ i < c, ∃ e, (i, e) ∈ dir ∧ e.st ≠ 0) {i : Nat} (hi : i < c) : i ∈ dir.takenBelow c := by
  obtain ⟨e, he, hne⟩ := hdir i hi
  exact List.mem_map.2 ⟨(i, e), List.mem_filter.2 ⟨he, by simp [Nat.div_eq_of_lt hi, hne]⟩, rfl⟩

theorem Tbl.not_mem_takenBelow (hc : 0 < c) : c ∉ dir.takenBelow c := fun h => by
  obtain ⟨e, he, heq⟩ := List.mem_map.1 h
  have hzero := (List.mem_filter.1 he).2
  rw [heq, Nat.div_self hc] at hzero
  exact absurd hzero (by simp)

theorem Tbl.le_length_takenBelow (hdir : ∀ i < c, ∃ e, (i, e) ∈ dir ∧ e.st ≠ 0) : c ≤ (dir.takenBelow c).length := by
  have hsub : List.range c ⊆ dir.takenBelow c := fun i hi => Tbl.mem_takenBelow hdir (List.mem_range.1 hi)
  calc c = (List.range c).length := List.length_range.symm
    _ ≤ (dir.takenBelow c).length := (List.subperm_of_subset List.nodup_range hsub).length_le

/-- With every number below c taken, c is the first that is not. -/
theorem Tbl.first_free {n : Nat} (hdir : ∀ i < c, ∃ e, (i, e) ∈ dir ∧ e.st ≠ 0) (hc : 0 < c) (hn : c < n) :
    ((List.range (min n ((dir.takenBelow c).length + 1))).filter fun x => !(dir.takenBelow c).contains x).take 1 = [c] := by
  have hlen := Tbl.le_length_takenBelow hdir
  refine take_filter_range (fun i hi => ?_) ?_ (by omega)
  · simpa using Tbl.mem_takenBelow hdir hi
  · simpa using Tbl.not_mem_takenBelow hc
end

/-- A stack of 65 GiB every sub-page of whose numbers is taken gives out the first sub-page of the next stack. -/
theorem State.freeSubs_beyond {s : State} {ks : List Nat} (hdir : ∀ i < 2 ^ 20, ∃ e, (i, e) ∈ s.hbm.dir ∧ e.st ≠ 0) (hst : (s.stk 0).st = 1)
    (hgib : (s.stk 0).gib = 65) (hecc : s.hbm.inlineEcc = false) (hstaging : s.hbm.staging = none) : s.freeSubs (0 :: ks) 1 = some [2 ^ 20] := by
  have hbytes : (if (s.stk 0).st = 1 then (s.dataBytes 0 - privateBytes - (if s.hbm.staging = some 0 then privateBytes else 0)) / 65536 else 0) = 1056768 := by
    simp [State.dataBytes, hst, hgib, hecc, hstaging, privateBytes]
  have hfirst := Tbl.first_free (n := 1056768) hdir (by decide) (by decide)
  simp only [State.freeSubs, List.flatMap_cons, hbytes]
  rw [Tbl.takenBelow] at hfirst
  simp only [Nat.zero_mul, Nat.zero_add, List.map_id', hfirst]
  rfl

/-- A table for which a translation's newest sub-page has no room takes a FREE sub-page. -/
theorem State.newTable_takes {s : State} {p x tid size : Nat} {ps set : List Nat}
    (hfull : ¬ cdiv (s.trans.get {} tid).used size * size + size ≤ 65536) (hfree : s.freeSubs set 1 = some [x]) :
    ∃ u, s.newTable (p :: ps) set tid size = some (65536 * x, u) ∧ u.hbm.dir.get {} x = { st := 2 } := by
  simp only [State.newTable, if_neg hfull, hfree, Option.map_some]
  exact ⟨_, rfl, (s.setDir_dir x x { st := 2 }).trans (if_pos rfl)⟩

/-! ### The state -/

/-- The sub-pages of the numbers below n, all OWNED. -/
def takenDir (n : Nat) : Tbl DirEntry := (List.range n).map fun x => (x, { st := 1 })

theorem lt_of_mem_takenDir {n : Nat} {e : Nat × DirEntry} (he : e ∈ takenDir n) : e.1 < n := by
  obtain ⟨x, hx, rfl⟩ := List.mem_map.1 he
  exact List.mem_range.1 hx

theorem mem_takenDir {n i : Nat} (hi : i < n) : (i, { st := 1 }) ∈ takenDir n := List.mem_map.2 ⟨i, List.mem_range.2 hi, rfl⟩

/-- Stack 0 has 65 GiB, and each of the sub-pages that its numbers hold is taken; the next level-3 table of context 0 needs another. -/
def Hbm.crowded : Hbm :=
  { ready := true, stks := [(0, { st := 1, gib := 65 }), (1, { st := 1, gib := 1 })], dir := takenDir (2 ^ 20)
    data := [(0x100000, 1), (0x100001, 0x10), (0x100002, 0x10)] }

/-- PF0 asks for an object of 64 KiB on stack 1 for context 0. -/
def State.crowded : State :=
  { pins := { porstN := true }, hub := { stage := 6, configReady := true }, hostMem := [(0, 0x40), (18, 1), (32, 2)]
    funcs := [(0, { enable := true, adminTail := 1 })], parts := [(0, { cfg := 0x1000000000000001 })], ctxs := [(0, { life := .live })]
    trans := [(256, { root := some 0x100000, subs := [7], used := 65536 })], hbm := .crowded }

theorem adminTurn_crowded : AdminTurn .crowded 0 0x40 :=
  ⟨by decide +kernel, by decide +kernel, by decide, by decide +kernel, by decide +kernel⟩

theorem Hbm.crowded_dir : Hbm.crowded.dir = takenDir (2 ^ 20) := by rw [Hbm.crowded]

section
variable {v u : State}

/-- The first page of stack 1 is free. -/
theorem State.pagesFor_crowded (h : v.hbm = .crowded) : v.pagesFor (v.stackSet 0 2) 65536 = some [2 ^ 15] := by
  have hones : ones 20 2 = [1] := by decide
  have hstk : v.stk 1 = { st := 1, gib := 1 } := by rw [State.stk, h]; rfl
  have hset : v.stackSet 0 2 = [1] := by simp [State.stackSet, hones, hstk]
  have htaken : v.takenPages 1 = [] := by
    have hnone : (v.hbm.dir.filter fun e => e.1 / 2 ^ 20 == 1 && e.2.st != 0) = [] := List.filter_eq_nil_iff.2 fun e he => by
      rw [h, Hbm.crowded_dir] at he
      rw [Nat.div_eq_of_lt (lt_of_mem_takenDir he)]
      exact Bool.false_ne_true
    rw [State.takenPages, hnone]
    rfl
  have hbytes : v.dataBytes 1 = 2 ^ 30 := by
    rw [State.dataBytes, hstk, h]
    rfl
  have hstaging : v.hbm.staging = none := by rw [h]; rfl
  rw [State.pagesFor, hset, show cdiv 65536 (2 ^ 21) = 1 by decide, State.takePages]
  have hpage : v.freePage 1 [] = some (2 ^ 15) := by
    rw [State.freePage, htaken, hstk, hbytes, hstaging]
    rfl
  have hturn : ((List.range [1].length).findSome? fun i => (v.freePage ([1].getD ((0 + i) % [1].length) 0) []).map fun p => (p, 0 + i + 1)) = some (2 ^ 15, 1) := by
    simp [List.range_succ, hpage]
  rw [hturn]
  rfl

/-- The table that the object's mapping needs takes the object's own sub-page. -/
theorem State.makeTables_crowded {w : State} {e : DirEntry} (he : e ≠ {}) (hstks : w.hbm.stks = Hbm.crowded.stks) (hdata : w.hbm.data = Hbm.crowded.data)
    (hecc : w.hbm.inlineEcc = false) (hstaging : w.hbm.staging = none) (hdir : w.hbm.dir = Tbl.set {} (takenDir (2 ^ 20)) (2 ^ 20) e)
    (htrans : w.trans = State.crowded.trans) (hctxs : w.ctxs = State.crowded.ctxs) (hparts : w.parts = State.crowded.parts) :
    ∃ u, w.makeTables 0 0 65536 = some u ∧ u.hbm.dir.get {} (2 ^ 20) = { st := 2 } := by
  have hstk : ∀ k, w.stk k = State.crowded.stk k := fun k => by rw [State.stk, hstks]; rfl
  have hpt : ∀ p, w.pt p = State.crowded.pt p := fun p => by rw [State.pt, hparts]; rfl
  have hcx : w.cx 0 = State.crowded.cx 0 := by rw [State.cx, hctxs]; rfl
  have hset : w.defaultStacks (w.cx 0).part = [0, 1] := by
    simp only [State.defaultStacks, hstk, hpt, hcx]
    decide +kernel
  have htid : w.transOf 0 = 256 := by
    simp only [State.transOf, State.validated, hpt, hcx]
    decide +kernel
  have htr : w.trans.get {} 256 = { root := some 0x100000, subs := [7], used := 65536 } := by rw [htrans]; rfl
  have hfree : w.freeSubs [0, 1] 1 = some [2 ^ 20] := by
    refine State.freeSubs_beyond (fun i hi => ⟨{ st := 1 }, ?_, by decide⟩) (by rw [hstk]; rfl) (by rw [hstk]; rfl) hecc hstaging
    rw [hdir, Tbl.set, if_neg he]
    exact Tbl.mem_put_of_ne (mem_takenDir hi) hi.ne
  have hroot : w.rootTable [0, 1] 256 = some (0x100000, w) := by rw [State.rootTable, htr]
  have hmid : w.subTable [0, 1] 256 0x100000 4096 = some (0x101000, w) := by
    have hentry : w.hbm.data.rdN 0x100000 8 = Hbm.crowded.data.rdN 0x100000 8 := by rw [hdata]
    simp only [State.subTable, hentry]
    rw [if_pos (by decide +kernel)]
    exact congrArg (fun a => some (a, w)) (by decide +kernel)
  obtain ⟨u, hleaf, hu⟩ : ∃ u, w.subTable [0, 1] 256 0x101000 8192 = some (65536 * 2 ^ 20, u) ∧ u.hbm.dir.get {} (2 ^ 20) = { st := 2 } := by
    have hentry : w.hbm.data.rdN 0x101000 8 = Hbm.crowded.data.rdN 0x101000 8 := by rw [hdata]
    simp only [State.subTable, hentry]
    rw [if_neg (by decide +kernel), htr]
    obtain ⟨v, hv, hdirV⟩ := State.newTable_takes (s := w) (p := 7) (ps := []) (tid := 256) (size := 8192) (by rw [htr]; decide) hfree
    exact ⟨v.putEngine 0x101000 (tableEntry (65536 * 2 ^ 20)), by rw [hv, Option.map_some], hdirV⟩
  have htable : w.leafTable [0, 1] 256 0 = some (65536 * 2 ^ 20, u) := by
    have hzero : 0x100000 + 8 * (0 / 2 ^ 18 % 512) = 0x100000 ∧ 0x101000 + 8 * (0 / 512 % 512) = 0x101000 := by decide
    simp only [State.leafTable, hroot, Option.bind_eq_bind, Option.bind_some, hzero.1, hmid, hzero.2, hleaf]
  refine ⟨u, ?_, hu⟩
  have hcount : cdiv (0 / 2 ^ 21 + cdiv 65536 (2 ^ 21)) 512 - 0 / 2 ^ 30 = 1 := by decide
  have hpage : 0 / 2 ^ 21 + 512 * 0 = 0 := by decide
  simp only [State.makeTables, hcount, List.range_one, List.foldl_cons, List.foldl_nil, Option.bind_some, hset, htid, hpage, htable, Option.map_some]

end

/-- An object that gets its pages and its tables is created once they are tagged; the tables' places in memory are those of the state that
made them. -/
theorem opObjCreate_later {v u : State} {f : Nat} {d : List Byte} {ps : List Nat} (hsize : at8 d 16 ≠ 0 ∧ at8 d 16 % 65536 = 0)
    (hva : at8 d 24 + at8 d 16 ≤ 2 ^ 48 ∧ at8 d 24 % 2 ^ 21 = 0) (htaken : v.vaTaken (at1 d 2) (at8 d 24) (at8 d 16) = false)
    (hpages : v.pagesFor (v.stackSet (at1 d 2) (at4 d 32)) (at8 d 16) = some ps)
    (htables : (v.moveSubs (objSubs ps (at8 d 16 / 65536)) { tag := at1 d 2, st := 4, obj := v.nextObj }).makeTables (at1 d 2) (at8 d 24) (at8 d 16) = some u) :
    ∃ w, opObjCreate f d v = .later w ∧ w.hbm = u.hbm := by
  simp only [opObjCreate, hpages, htables]
  rw [if_neg (by omega), if_neg (by omega), htaken]
  exact ⟨_, rfl, rfl⟩

/-- The descriptor's context, size, address, and stacks. -/
theorem adminDesc_crowded : at1 (State.crowded.adminDesc 0) 2 = 0 ∧ at8 (State.crowded.adminDesc 0) 16 = 65536 ∧ at8 (State.crowded.adminDesc 0) 24 = 0
    ∧ at4 (State.crowded.adminDesc 0) 32 = 2 := by decide +kernel

/-- The object's sub-page, TAGGING. -/
def DirEntry.tagging : DirEntry := { tag := 0, st := 4, obj := 1 }

theorem State.setDir_hbm (s : State) (x : Nat) (e : DirEntry) : (s.setDir x e).hbm = { s.hbm with dir := s.hbm.dir.set {} x e } := rfl

theorem State.makeTables_tagging {v : State} {x : Nat} (hx : 2 ^ 20 = x) (hhbm : v.hbm = .crowded) (htrans : v.trans = State.crowded.trans)
    (hctxs : v.ctxs = State.crowded.ctxs) (hparts : v.parts = State.crowded.parts) :
    ∃ u, (v.setDir x .tagging).makeTables 0 0 65536 = some u ∧ u.hbm.dir.get {} x = { st := 2 } := by
  have hdir := v.setDir_hbm x .tagging
  rw [hhbm] at hdir
  obtain ⟨u, hu, hpool⟩ := State.makeTables_crowded (w := v.setDir x .tagging) (e := .tagging) (by decide) (by rw [hdir]) (by rw [hdir]) (by rw [hdir]; rfl)
    (by rw [hdir]; rfl) (by rw [hdir, ← Hbm.crowded_dir, hx]) htrans hctxs hparts
  exact ⟨u, hu, by rw [← hx]; exact hpool⟩

/-- Refutes O30: the tables of a new object's mapping may take a sub-page of the object itself, where the numbers of a stack's sub-pages run
into the next stack's; that sub-page ends as the pool's, and not in TAGGING. -/
theorem not_objectAdministration : ¬ Obligations.ObjectAdministration := by
  rintro ⟨hcreate, -⟩
  obtain ⟨hctx, hsize, hva, hmask⟩ := adminDesc_crowded
  have honly := State.crowded.takeAdmin_only 0
  generalize hv : State.crowded.takeAdmin 0 = v at honly
  have hhbm : v.hbm = .crowded := honly .hbm (by decide)
  have hnext : v.nextObj = State.crowded.nextObj := honly .nextObj (by decide)
  have hsubs : objSubs [2 ^ 15] (65536 / 65536) = [2 ^ 20] := by decide
  generalize hx : 2 ^ 20 = x at hsubs
  obtain ⟨u, hu, hpool⟩ := State.makeTables_tagging hx hhbm (honly .trans (by decide)) (honly .ctxs (by decide)) (honly .parts (by decide))
  have htables : (v.moveSubs (objSubs [2 ^ 15] (65536 / 65536)) { tag := 0, st := 4, obj := State.crowded.nextObj }).makeTables 0 0 65536 = some u := by
    rw [hsubs, show State.crowded.nextObj = 1 from rfl]
    exact hu
  obtain ⟨w, hw, hwhbm⟩ := opObjCreate_later (v := v) (u := u) (f := 0) (d := State.crowded.adminDesc 0) (ps := [2 ^ 15]) (by rw [hsize]; decide)
    (by rw [hsize, hva]; decide) (by rw [← hv]; decide +kernel) (by rw [hctx, hmask, hsize]; exact State.pagesFor_crowded hhbm)
    (by rw [hctx, hsize, hva, hnext]; exact htables)
  have hyields := hcreate .crowded u 0 [2 ^ 15] _ rfl adminTurn_crowded (by rw [hsize]; decide) (by rw [hsize, hva]; decide) (by rw [hsize]) (by rw [hva]; decide)
    (by decide +kernel) (by rw [hctx, hmask, hsize]; exact State.pagesFor_crowded rfl) (by rw [hv, hctx, hsize, hva]; exact htables)
  have hexec : exec (.objCreate 0) .crowded = .next w := by
    change Host.Outcome.next (State.crowded.runAdmin 0 0x40 (opObjCreate 0)) = _
    rw [adminTurn_crowded.runs, hv, hw, AdminRes.finish]
  obtain ⟨-, -, htagging, -⟩ := hyields.apply hexec
  have hentry := htagging x (by rw [hsize, hsubs]; exact List.mem_singleton_self x)
  rw [hwhbm, hpool] at hentry
  exact absurd (congrArg DirEntry.st hentry) (by decide)

end Sys2Proof.Machine
end

section
/-! WATCHDOGS, TIMEREF AND THE TAP (O16). -/

namespace Sys2Proof.Machine

theorem State.devChangeAll_time (s : State) (off : Nat) : (s.devChangeAll off).time = s.time := s.devChangeAll_only off .time (by decide)

theorem State.noteTimeref_time (s : State) : s.noteTimeref.time = { s.time with unnoted := false } := by
  rw [State.noteTimeref, State.devChangeAll_time, State.logEv_time]

theorem State.noteTimeref_pins (s : State) : s.noteTimeref.pins = s.pins := by
  rw [State.noteTimeref, State.devChangeAll_pins, State.logEv_pins (by decide)]

/-- The TAP runs what it holds, or BYPASS in its place. -/
theorem exec_tapInstruction (s : State) (c : TapCode) :
    exec (.tapInstruction c) s = .next { s with tap := c, out := s.out ++ [.tap (tapExecutes s.part.tapLockIntact s.pins.porstN c)] } := rfl

/-- Settles O16: each row by its one equation; the TAP by whether the code is public and PORST_N is low. -/
theorem timeBaseAndTap : Obligations.TimeBaseAndTap := by
  refine ⟨?_, ?_, ?_, ?_, ?_, ?_⟩
  · intro s p t hp hwatched
    change execWatchdogHeartbeat p t s = _
    simp only [execWatchdogHeartbeat, if_neg (Nat.not_le.2 hp), hwatched, Bool.not_true, Bool.false_eq_true, if_false]
    rfl
  · intro s hporst htimeref
    change ∃ t, execTimerefLost s = .next t ∧ _
    simp only [execTimerefLost, hporst, htimeref, Bool.and_self, if_true]
    refine ⟨_, rfl, ?_⟩
    cases s.hubUp with
    | false => exact ⟨rfl, rfl⟩
    | true => exact ⟨by rw [if_pos rfl, State.noteTimeref_pins], by rw [if_pos rfl, State.noteTimeref_time]; rfl⟩
  · intro s hporst hosc
    change execTimerefReturn s = _
    simp only [execTimerefReturn, hporst, hosc, Bool.and_self, if_true]
  · intro s r hup hr hdeg hosc hlock
    change ∃ t, execTimeDegradedClear s = .next t ∧ _
    have hgo : (!s.time.degraded || s.time.onOsc || (s.hzn.timeCtrl.getLsbD 7 && s.time.sync != 2) || !s.hubUp) = false := by
      cases hen : s.hzn.timeCtrl.getLsbD 7 with
      | false => simp [hdeg, hosc, hup]
      | true => simp [hdeg, hosc, hup, hlock hen]
    simp only [execTimeDegradedClear, hr, hgo, Bool.false_eq_true, if_false]
    refine ⟨_, rfl, ?_⟩
    rw [State.devChangeAll_time, State.logEv_time]
  · intro s c hother hpins
    rw [exec_tapInstruction]
    cases c with
    | other n => rw [hother n rfl]; rfl
    | extest => rw [hpins (.inl rfl)]; rfl
    | clamp => rw [hpins (.inr (.inl rfl))]; rfl
    | highz => rw [hpins (.inr (.inr rfl))]; rfl
    | _ => rfl
  · intro s c hbypass
    rw [exec_tapInstruction]
    rcases hbypass with ⟨n, rfl, hlock⟩ | ⟨rfl | rfl | rfl, hporst⟩
    · rw [hlock]; rfl
    · rw [hporst]; rfl
    · rw [hporst]; rfl
    · rw [hporst]; rfl

end Sys2Proof.Machine
end

section
/-! TEMPERATURE (O18). -/

namespace Sys2Proof.Machine

theorem State.refreshBelow_only (s : State) : ChangesOnly [.pins, .funcs, .msix, .parts, .log] s s.refreshBelow :=
  (State.refreshBelow_ev (k := false) (.refl _ s) rfl).only

theorem cl_of_clusters {s t : State} (h : t.clusters = s.clusters) (c : Nat) : t.cl c = s.cl c := by rw [State.cl, h, State.cl]

theorem State.refreshBelow_cl (s : State) (c : Nat) : s.refreshBelow.cl c = s.cl c := cl_of_clusters (s.refreshBelow_only .clusters (by decide)) c

theorem State.refreshBelow_power (s : State) : s.refreshBelow.power = s.power := s.refreshBelow_only .power (by decide)

theorem State.readTemp_only (s : State) (n : Nat) (x : Int) : ChangesOnly [.power] s (s.readTemp n x) := (State.readTemp_ev (k := false) (.refl _ s) rfl).only

theorem State.readTemps_only (s : State) (n : Nat) (ts : List Int) : ChangesOnly [.power] s (s.readTemps n ts) :=
  (State.readTemps_ev (k := false) (.refl _ s) rfl).only

theorem State.logEv_only (s : State) (code cls kind unit ctx : Nat) (data : List Nat) : ChangesOnly [.pins, .log] s (s.logEv code cls kind unit ctx data) :=
  (State.logEv_ev (k := false) (.refl _ s) rfl).only

theorem State.logEv_power (s : State) (code cls kind unit ctx : Nat) (data : List Nat) : (s.logEv code cls kind unit ctx data).power = s.power :=
  s.logEv_only code cls kind unit ctx data .power (by decide)

theorem State.logEv_cl (s : State) (code cls kind unit ctx : Nat) (data : List Nat) (c : Nat) : (s.logEv code cls kind unit ctx data).cl c = s.cl c :=
  cl_of_clusters (s.logEv_only code cls kind unit ctx data .clusters (by decide)) c

theorem State.refreshHottest_temps (s : State) : s.refreshHottest.power.temps = s.power.temps := by
  rw [State.refreshHottest]
  dsimp only
  split <;> rfl

theorem State.readTemp_temps (s : State) (n i : Nat) (x : Int) :
    (s.readTemp n x).power.temps.get 0x8000 i = if i = n then uwrap 16 x else s.power.temps.get 0x8000 i := by
  rw [State.readTemp, State.refreshHottest_temps]
  by_cases h : i = n
  · rw [if_pos h, h]
    exact Tbl.get_set_same _ _ _ _
  · rw [if_neg h]
    exact Tbl.get_set_ne _ _ _ h

theorem State.foldl_readTemp_temps (n : Nat) (ts : List Int) (k : Nat) (s : State) (j : Nat) :
    ((ts.zipIdx k).foldl (fun s (t, i) => s.readTemp (n + i) t) s).power.temps.get 0x8000 (n + j)
      = if k ≤ j ∧ j < k + ts.length then uwrap 16 (ts.getD (j - k) 0) else s.power.temps.get 0x8000 (n + j) := by
  induction ts generalizing k s with
  | nil => rw [if_neg (by simp only [List.length_nil]; omega)]; rfl
  | cons x ts ih =>
    rw [List.zipIdx_cons, List.foldl_cons, ih, State.readTemp_temps, List.length_cons]
    rcases Nat.lt_trichotomy j k with hlt | rfl | hlt
    · rw [if_neg (by omega), if_neg (by omega), if_neg (by omega)]
    · rw [if_neg (by omega), if_pos rfl, if_pos (by omega), Nat.sub_self]
      rfl
    · by_cases hin : j < k + (ts.length + 1)
      · obtain ⟨m, hm⟩ : ∃ m, j - k = m + 1 := ⟨j - k - 1, by omega⟩
        rw [if_pos (by omega), if_pos (by omega), hm, show j - (k + 1) = m by omega]
        rfl
      · rw [if_neg (by omega), if_neg (by omega), if_neg (by omega)]

/-- Readings of consecutive sensors are each kept. -/
theorem State.readTemps_temps (s : State) (n : Nat) (ts : List Int) {i : Nat} (hi : i < ts.length) :
    (s.readTemps n ts).power.temps.get 0x8000 (n + i) = uwrap 16 (ts.getD i 0) := by
  rw [State.readTemps, State.foldl_readTemp_temps n ts 0 s i, if_pos (by omega), Nat.sub_zero]

theorem State.startChange_power (s : State) (c b : Nat) : (s.startChange c b).power = s.power :=
  (State.startChange_ev (k := false) (l := [.pins, .funcs, .msix, .parts, .clusters, .log]) (.refl _ s) rfl).only .power (by decide)

/-- A change of a cluster's point is under way. -/
theorem State.startChange_cl (s : State) (c b : Nat) : ∃ cap, (s.startChange c b).cl c
    = { s.cl c with moving := true, target := b, movedAt := s.time.now, capRate := cap } := by
  rw [State.startChange]
  dsimp only
  rw [State.refreshBelow_cl, State.emit_cl, State.updCl_same]
  exact ⟨_, rfl⟩

theorem State.coolDown_power (s : State) (c : Nat) : (s.coolDown c).power = s.power :=
  (State.coolDown_ev (k := false) (l := [.pins, .funcs, .msix, .parts, .clusters, .log]) (.refl _ s) rfl).only .power (by decide)

theorem State.coolDown_pins (s : State) (c : Nat) : (s.coolDown c).pins = s.pins := by
  rw [State.coolDown]
  split
  · rfl
  · exact s.startChange_pins _ _

/-- What a crossing of WARN does to its sensor's reading, and to the cluster of a core's sensor. -/
theorem exec_thermalWarnCrossing {s : State} {n : Nat} {x : Int} (hup : s.hubUp = true) (hsensor : s.sensorPresent n = true) (hwarm : 16 * (s.power.warn : Int) ≤ x) :
    ∃ u : State, u.pins.smbAlert = true ∧ u.power.temps.get 0x8000 n = uwrap 16 x ∧ (∀ c, u.cl c = s.cl c)
      ∧ exec (.thermalWarnCrossing n x) s = .next (if n < 50 then (u.updCl (n / 5) fun k => { k with warned := true }).coolDown (n / 5) else u) := by
  refine ⟨{ (s.readTemp n x).logEv 0x1003 1 10 n 0 [0, 0, 0] with
    pins := { ((s.readTemp n x).logEv 0x1003 1 10 n 0 [0, 0, 0]).pins with smbAlert := true } }, rfl, ?_, fun c => ?_, ?_⟩
  · change ((s.readTemp n x).logEv 0x1003 1 10 n 0 [0, 0, 0]).power.temps.get 0x8000 n = _
    rw [State.logEv_power, State.readTemp_temps, if_pos rfl]
  · change ((s.readTemp n x).logEv 0x1003 1 10 n 0 [0, 0, 0]).cl c = _
    rw [State.logEv_cl, cl_of_clusters (s.readTemp_only n x .clusters (by decide))]
  · change execThermalWarnCrossing n x s = _
    simp only [execThermalWarnCrossing, hup, hsensor, decide_eq_false (Int.not_lt.2 hwarm), Bool.and_self, Bool.not_true, Bool.or_self, Bool.false_eq_true, if_false]
    split <;> rfl

theorem thermalWarn (s : State) (n : Nat) (x : Int) (hup : s.hubUp = true) (hsensor : s.sensorPresent n = true) (hwarm : 16 * (s.power.warn : Int) ≤ x) :
    Yields (.thermalWarnCrossing n x) s fun t => t.pins.smbAlert = true ∧ t.power.temps.get 0x8000 n = uwrap 16 x
      ∧ (n < 50 → (t.cl (n / 5)).warned = true
        ∧ ((s.cl (n / 5)).moving = false → (s.cl (n / 5)).point < 4 →
            (t.cl (n / 5)).moving = true ∧ (t.cl (n / 5)).target = (s.cl (n / 5)).point + 1)) := by
  obtain ⟨u, hpins, htemp, hcl, hexec⟩ := exec_thermalWarnCrossing hup hsensor hwarm
  refine .of_next hexec ?_
  split
  next hn =>
    have hwarned := u.updCl_same (n / 5) fun k => { k with warned := true }
    rw [hcl] at hwarned
    refine ⟨by rw [State.coolDown_pins]; exact hpins, by rw [State.coolDown_power]; exact htemp, fun _ => ?_⟩
    generalize u.updCl (n / 5) (fun k => { k with warned := true }) = w at hwarned
    obtain ⟨cap, hcap⟩ := w.startChange_cl (n / 5) ((w.cl (n / 5)).point + 1)
    rw [State.coolDown]
    split
    next hstay =>
      refine ⟨by rw [hwarned], fun hmoving hpoint => ?_⟩
      simp [hwarned, hmoving] at hstay
      omega
    next => exact ⟨by rw [hcap, hwarned], fun _ _ => by rw [hcap, hwarned]; exact ⟨rfl, rfl⟩⟩
  next hn => exact ⟨hpins, htemp, fun h => absurd h hn⟩

theorem warnReleased (s : State) (c : Nat) (ts : List Int) (hup : s.hubUp = true) (hwarned : (s.cl c).warned = true) (hlen : ts.length = 5)
    (hcool : ∀ x ∈ ts, x < 16 * ((s.power.warn : Int) - 3)) :
    Yields (.warnRelease c ts) s fun t => (t.cl c).warned = false ∧ ∀ i < 5, t.power.temps.get 0x8000 (5 * c + i) = uwrap 16 (ts.getD i 0) := by
  have hall : (ts.all fun t => decide (t < 16 * ((s.power.warn : Int) - 3))) = true := by simpa using hcool
  change ∃ t, execWarnRelease c ts s = .next t ∧ _
  simp only [execWarnRelease, hup, hwarned, hlen, hall, BEq.rfl, Bool.and_self, Bool.not_true, Bool.false_eq_true, if_false]
  refine ⟨_, rfl, ?_⟩
  have htemps : ∀ i < 5, ((s.readTemps (5 * c) ts).updCl c fun k => { k with warned := false }).power.temps.get 0x8000 (5 * c + i) = uwrap 16 (ts.getD i 0) :=
    fun i hi => s.readTemps_temps (5 * c) ts (hlen ▸ hi)
  have hcl := (s.readTemps (5 * c) ts).updCl_same c fun k => { k with warned := false }
  generalize (s.readTemps (5 * c) ts).updCl c (fun k => { k with warned := false }) = u at htemps hcl
  split
  · obtain ⟨cap, hcap⟩ := u.startChange_cl c ((u.cl c).point - 1)
    exact ⟨by rw [hcap, hcl], fun i hi => by rw [State.startChange_power]; exact htemps i hi⟩
  · exact ⟨by rw [hcl], htemps⟩

theorem throttled (s : State) (n : Nat) (x : Int) (hporst : s.pins.porstN = true) (hsensor : s.sensorPresent n = true) (hhot : 16 * 105 ≤ x) :
    Yields (.hardwareThrottle n x) s fun t => t.power.temps.get 0x8000 n = uwrap 16 x
      ∧ (n < 50 → (t.cl (n / 5)).throttle = true ∧ (t.cl (n / 5)).effective = 4 ∧ (t.cl (n / 5)).capRate = 950)
      ∧ (50 ≤ n → t.power.hubThrottle = true) := by
  have htemp : ((s.readTemp n x).logEv 0x1004 1 10 n 0 [0, 0, 0]).power.temps.get 0x8000 n = uwrap 16 x := by
    rw [State.logEv_power, State.readTemp_temps, if_pos rfl]
  change ∃ t, execHardwareThrottle n x s = .next t ∧ _
  simp only [execHardwareThrottle, hporst, hsensor, decide_eq_false (Int.not_lt.2 hhot), Bool.and_self, Bool.not_true, Bool.or_self, Bool.false_eq_true, if_false]
  generalize (s.readTemp n x).logEv 0x1004 1 10 n 0 [0, 0, 0] = u at htemp ⊢
  split
  next hn =>
    refine ⟨_, rfl, by rw [State.refreshBelow_power]; exact htemp, fun _ => ?_, fun h => absurd hn (by omega)⟩
    rw [State.refreshBelow_cl, State.updCl_same]
    exact ⟨rfl, rfl, rfl⟩
  next hn => exact ⟨_, rfl, htemp, fun h => absurd h hn, fun _ => rfl⟩

/-- Settles O18: each row's equation, and the sensors' readings of a cluster that has cooled. -/
theorem temperature : Obligations.Temperature := by
  refine ⟨thermalWarn, warnReleased, throttled, ?_, ?_⟩
  · intro s d ts hd hthrottle hlen hcool
    have hall : (ts.all fun t => decide (t < 16 * 102)) = true := by simpa using hcool
    change ∃ t, execThrottleRelease d ts s = .next t ∧ _
    simp only [execThrottleRelease, if_pos hd, hthrottle, hall, hlen, BEq.rfl, Bool.and_self, if_true]
    refine ⟨_, rfl, ?_⟩
    rw [State.refreshBelow_cl, State.updCl_same]
  · intro s d ts hd hthrottle hlen hcool
    have hall : (ts.all fun t => decide (t < 16 * 102)) = true := by simpa using hcool
    change ∃ t, execThrottleRelease d ts s = .next t ∧ _
    simp only [execThrottleRelease, if_neg (Nat.not_lt.2 hd), hthrottle, hall, hlen, BEq.rfl, Bool.and_self, if_true]
    exact ⟨_, rfl, rfl, s.readTemps_only 50 ts .clusters (by decide)⟩

end Sys2Proof.Machine
end

section
/-! OPERATING POINTS AND POWER (O17). -/

namespace Sys2Proof.Machine

/-! ### Sensors -/

/-- Readings kept in a table, each at its number, while a condition on the number holds. -/
def keepReadings (here : Nat → Bool) (t : Tbl Nat) (l : List (Nat × Nat)) : Tbl Nat :=
  l.foldl (fun t e => if here e.2 then t.set 0x8000 e.2 (e.1 % 65536) else t) t

theorem keepReadings_get (here : Nat → Bool) (l : List Nat) (k : Nat) (t : Tbl Nat) (i : Nat) :
    (keepReadings here t (l.zipIdx k)).get 0x8000 i
      = if here i = true ∧ k ≤ i ∧ i < k + l.length then l.getD (i - k) 0 % 65536 else t.get 0x8000 i := by
  induction l generalizing k t with
  | nil => rw [if_neg (by simp only [List.length_nil]; omega)]; rfl
  | cons x l ih =>
    rw [List.zipIdx_cons]
    refine (ih (k + 1) (if here k = true then t.set 0x8000 k (x % 65536) else t)).trans ?_
    rw [List.length_cons]
    by_cases hik : i = k
    · subst hik
      rw [if_neg (by omega), Nat.sub_self]
      cases here i with
      | true => exact (Tbl.get_set_same _ _ _ _).trans (by simp)
      | false => simp
    · have hset : (if here k = true then t.set 0x8000 k (x % 65536) else t).get 0x8000 i = t.get 0x8000 i := by
        cases here k with
        | true => exact Tbl.get_set_ne _ _ _ hik
        | false => rfl
      rw [hset]
      cases here i with
      | false => simp
      | true =>
        by_cases hin : k + 1 ≤ i ∧ i < k + 1 + l.length
        · obtain ⟨m, hm⟩ : ∃ m, i - k = m + 1 := ⟨i - k - 1, by omega⟩
          rw [if_pos ⟨rfl, hin⟩, if_pos ⟨rfl, by omega, by omega⟩, hm, show i - (k + 1) = m by omega]
          rfl
        · rw [if_neg (fun h => hin h.2), if_neg (by omega)]

/-- The sensors of voltages, and of currents, that are there. -/
def State.voltHere (s : State) (i : Nat) : Bool := if i < 20 then s.clPresent (i / 2) else if i < 30 then s.clPresent (i - 20) else decide (i < 40)

def State.currHere (s : State) (i : Nat) : Bool := if i < 10 then s.clPresent i else decide (i < 16)

theorem State.voltHere_of {s : State} {i : Nat} (hmax : i < 40) (hcore : i < 20 → s.clPresent (i / 2) = true)
    (hcluster : 20 ≤ i → i < 30 → s.clPresent (i - 20) = true) : s.voltHere i = true := by
  rw [State.voltHere]
  split
  next h => exact hcore h
  next h =>
    split
    next h' => exact hcluster (by omega) h'
    next => exact decide_eq_true hmax

theorem State.currHere_of {s : State} {i : Nat} (hmax : i < 16) (hcluster : i < 10 → s.clPresent i = true) : s.currHere i = true := by
  rw [State.currHere]
  split
  next h => exact hcluster h
  next => exact decide_eq_true hmax

theorem exec_railSensorRead {s : State} (hup : s.hubUp = true) (v a : List Nat) (e : Bool) :
    exec (.railSensorRead v a e) s = .next { s with power := { s.power with
      volts := keepReadings s.voltHere s.power.volts v.zipIdx, currs := keepReadings s.currHere s.power.currs a.zipIdx, estimated := e } } := by
  change execRailSensorRead v a e s = _
  simp only [execRailSensorRead, hup, Bool.not_true, Bool.false_eq_true, if_false, if_true]
  rfl

theorem railSensors (s : State) (v a : List Nat) (e : Bool) (hup : s.hubUp = true) :
    Yields (.railSensorRead v a e) s fun t => t.power.estimated = e
      ∧ (∀ i < v.length, i < 40 → (i < 20 → s.clPresent (i / 2) = true) → (20 ≤ i → i < 30 → s.clPresent (i - 20) = true) →
          t.power.volts.get 0x8000 i = v.getD i 0 % 65536)
      ∧ ∀ i < a.length, i < 16 → (i < 10 → s.clPresent i = true) → t.power.currs.get 0x8000 i = a.getD i 0 % 65536 := by
  refine .of_next (exec_railSensorRead hup v a e) ⟨rfl, fun i hi hmax hcore hcluster => ?_, fun i hi hmax hcluster => ?_⟩
  · change (keepReadings s.voltHere s.power.volts v.zipIdx).get 0x8000 i = _
    rw [keepReadings_get, if_pos ⟨State.voltHere_of hmax hcore hcluster, by omega, by omega⟩, Nat.sub_zero]
  · change (keepReadings s.currHere s.power.currs a.zipIdx).get 0x8000 i = _
    rw [keepReadings_get, if_pos ⟨State.currHere_of hmax hcluster, by omega, by omega⟩, Nat.sub_zero]

/-! ### Paces -/

section
variable {s : State} {c pace : Nat}

/-- The pace of a cluster, kept. -/
def State.paced (s : State) (c pace : Nat) : State := s.updCl c fun k => { k with pace := pace % 65536 }

theorem State.paced_cl (s : State) (c pace : Nat) : (s.paced c pace).cl c = { s.cl c with pace := pace % 65536 } := s.updCl_same c _

theorem exec_paceCheck (hup : s.hubUp = true) (hcl : s.clPresent c = true) : exec (.paceCheck c pace) s
    = if 103 * floorRate (s.cl c).point ≤ 100 * pace ∨ (s.cl c).moving = true then .next (s.paced c pace)
      else if (s.cl c).trim + 5 ≤ 20 ∧ pointMv (s.cl c).point + (s.cl c).trim + 5 ≤ 850 then
        .next (((s.paced c pace).updCl c fun k => { k with trim := k.trim + 5 }).emit (.avsWrite c (pointMv (s.cl c).point + (s.cl c).trim + 5)))
      else if pace < floorRate (s.cl c).point ∧ (!(s.cl c).paceLow) = true then
        .next ((((s.paced c pace).updCl c fun k => { k with paceLow := true }).logEv 0x1002 1 1 c 0 [0, 0, 0]).refreshBelow)
      else .next (s.paced c pace) := by
  change execPaceCheck c pace s = _
  simp only [execPaceCheck, hup, hcl, Bool.and_self, Bool.not_true, Bool.false_eq_true, if_false]
  rfl

/-- A cluster that keeps its pace, or whose point changes, has its pace noted alone (R28, R488). -/
theorem pace_kept (hup : s.hubUp = true) (hcl : s.clPresent c = true) (h : 103 * floorRate (s.cl c).point ≤ 100 * pace ∨ (s.cl c).moving = true) :
    Yields (.paceCheck c pace) s fun t => t.cl c = { s.cl c with pace := pace % 65536 } ∧ t.out = s.out :=
  .of_next ((exec_paceCheck hup hcl).trans (if_pos h)) ⟨s.paced_cl c pace, rfl⟩
end

/-- The device's clusters, and what was put out, are as a record and the notice of BELOW find them. -/
theorem State.noted_cl (s : State) (code cls kind unit ctx : Nat) (data : List Nat) (c : Nat) :
    ((s.logEv code cls kind unit ctx data).refreshBelow).cl c = s.cl c := by
  rw [State.refreshBelow_cl, State.logEv_cl]

/-! ### Points -/

theorem State.startChange_out (s : State) (c b : Nat) : ∃ more, (s.startChange c b).out = s.out ++ .avsWrite c (pointMv b + (s.cl c).trim) :: more := by
  rw [State.startChange]
  generalize (if (s.cl c).throttle = true then floorRate 4 else if (s.cl c).point < b then floorRate b else typRate (s.cl c).point) = cap
  generalize hu : (s.updCl c (fun k => { k with moving := true, target := b, movedAt := s.time.now, capRate := cap })).emit
    (.avsWrite c (pointMv b + (s.cl c).trim)) = u
  obtain ⟨es, hes, -⟩ := (State.refreshBelow_ev (k := false) (l := [.pins, .funcs, .msix, .parts, .log]) (.refl _ u) rfl).posted
  refine ⟨es, hes.trans ?_⟩
  rw [← hu, State.emit_out, State.updCl_out, List.append_assoc]
  rfl

theorem State.refreshBelow_out (s : State) : ∃ more, s.refreshBelow.out = s.out ++ more :=
  let ⟨es, h, _⟩ := (State.refreshBelow_ev (k := false) (l := [.pins, .funcs, .msix, .parts, .log]) (.refl _ s) rfl).posted
  ⟨es, h⟩

/-- What the power hold and the accounted windows are. -/
def Power.account (p : Power) : List Nat × Nat × Bool × Bool × Nat := (p.windows, p.last, p.hold, p.held, p.window)

theorem State.lowerAll_power (s : State) (cs : List Nat) : (s.lowerAll cs).power = s.power := by
  refine foldl_keeps State.power (fun s c => ?_) cs s
  split
  · rfl
  · exact s.startChange_power _ _

theorem State.lowerForPower_account (s : State) : s.lowerForPower.power.account = s.power.account := by
  rw [State.lowerForPower]
  dsimp only
  split
  · rw [State.lowerAll_power]
  · split
    · rw [State.lowerAll_power]
    · rfl

theorem State.raiseForPower_account (s : State) : s.raiseForPower.power.account = s.power.account := by
  rw [State.raiseForPower]
  dsimp only
  split
  · rw [State.startChange_power]
    rfl
  · rfl

theorem State.lowerForPower_time (s : State) : s.lowerForPower.time = s.time :=
  (State.lowerForPower_ev (k := false) (l := [.pins, .funcs, .msix, .parts, .clusters, .power, .log]) (.refl _ s) rfl).only .time (by decide)

theorem State.raiseForPower_time (s : State) : s.raiseForPower.time = s.time :=
  (State.raiseForPower_ev (k := false) (l := [.pins, .funcs, .msix, .parts, .clusters, .power, .log]) (.refl _ s) rfl).only .time (by decide)

theorem State.atTime_holdTenths (s : State) (t : Nat) : (s.atTime t).holdTenths = s.holdTenths := rfl

/-- A change of point that does not settle in time is rolled back (R490). -/
theorem pointRolledBack (s : State) (c : Nat) (hmoving : (s.cl c).moving = true) : Yields (.pointChangeTimeout c) s fun t =>
    (t.cl c).point = (s.cl c).point ∧ (t.cl c).moving = false ∧ (t.cl c).noRaise = true
      ∧ t.time.now = max s.time.now ((s.cl c).movedAt + 1000000) ∧ ∃ more, t.out = s.out ++ .avsWrite c (pointMv (s.cl c).point + (s.cl c).trim) :: more := by
  change ∃ t, execPointChangeTimeout c s = .next t ∧ _
  simp only [execPointChangeTimeout, hmoving, if_true]
  generalize (s.cl c).movedAt + 1000000 = now
  refine ⟨_, rfl, ?_⟩
  obtain ⟨more, hmore⟩ := State.refreshBelow_out (((((s.atTime now).updCl c fun k =>
    { k with moving := false, target := k.point, noRaise := true, capRate := floorRate (if k.throttle = true then 4 else k.point) }).emit
      (.avsWrite c (pointMv (s.cl c).point + (s.cl c).trim))).logEv 0x1001 1 1 c 0 [0, 0, 0]))
  rw [State.noted_cl, State.emit_cl, State.updCl_same, State.refreshBelow_only _ .time (by decide), State.logEv_time]
  refine ⟨rfl, rfl, rfl, rfl, more, hmore.trans ?_⟩
  rw [State.logEv_out, State.emit_out, List.append_assoc]
  rfl

/-- The state at the end of a power window, its watts accounted. -/
def State.accounted (s : State) (w : Nat) : State :=
  let u := s.atTime ((s.power.window + 1) * 1000000)
  { u with power := { u.power with
    window := u.time.now / 1000000, windows := (w :: u.power.windows).take 10, last := w, held := u.power.hold, hold := false
    heldCount := if u.power.hold then satinc 32 u.power.heldCount else u.power.heldCount
    lowRun := if decide (10 * ((w :: u.power.windows).take 10).sum ≤ 9 * u.limitInForce * 10) then u.power.lowRun + 1 else 0 } }

theorem State.accounted_account (s : State) (w : Nat) : (s.accounted w).power.account
    = ((w :: s.power.windows).take 10, w, false, s.power.hold, max s.time.now ((s.power.window + 1) * 1000000) / 1000000) := by
  rw [State.accounted, Power.account, State.atTime_now, State.atTime_power]

theorem exec_powerWindowEnd {s : State} (hup : s.hubUp = true) (w : Nat) : exec (.powerWindowEnd w) s =
    if (s.accounted w).limitInForce * 10 < ((w :: s.power.windows).take 10).sum then .next (s.accounted w).lowerForPower
    else if 10 ≤ (s.accounted w).power.lowRun then .next (s.accounted w).raiseForPower else .next (s.accounted w) := by
  change execPowerWindowEnd w s = _
  rw [execPowerWindowEnd, hup, State.accounted]
  simp only [Bool.not_true, Bool.false_eq_true, if_false, State.endWindow]
  generalize 1000000 = n
  rfl

theorem powerWindow (s : State) (w : Nat) (hup : s.hubUp = true) :
    Yields (.powerWindowEnd w) s fun t => t.power.account
        = ((w :: s.power.windows).take 10, w, false, s.power.hold, max s.time.now ((s.power.window + 1) * 1000000) / 1000000)
      ∧ t.time.now = max s.time.now ((s.power.window + 1) * 1000000) := by
  have hexec := exec_powerWindowEnd hup w
  have haccount := s.accounted_account w
  have htime : (s.accounted w).time.now = max s.time.now ((s.power.window + 1) * 1000000) := by rw [State.accounted, State.atTime_now]
  generalize s.accounted w = u at hexec haccount htime
  split at hexec
  · exact .of_next hexec (by rw [State.lowerForPower_account, State.lowerForPower_time]; exact ⟨haccount, htime⟩)
  · split at hexec
    · exact .of_next hexec (by rw [State.raiseForPower_account, State.raiseForPower_time]; exact ⟨haccount, htime⟩)
    · exact .of_next hexec ⟨haccount, htime⟩

/-- Settles O17: each row's equation, a point change by how it ends. -/
theorem operatingPointsAndPower : Obligations.OperatingPointsAndPower := by
  refine ⟨railSensors, ?_, ?_, ?_, ?_, ?_, ?_, ?_, ?_, ?_, ?_⟩
  · intro s c pace hup hcl h
    exact pace_kept hup hcl (.inl h)
  · intro s c pace hup hcl h
    exact pace_kept hup hcl (.inr h)
  · intro s c pace hup hcl hslow hmoving htrim hvolt
    refine .of_next ((exec_paceCheck hup hcl).trans ((if_neg (not_or.2 ⟨by omega, by simp [hmoving]⟩)).trans (if_pos ⟨htrim, hvolt⟩))) ⟨?_, rfl⟩
    rw [State.emit_cl, State.updCl_same, State.paced_cl]
  · intro s c pace hup hcl hslow hmoving htrim hlow
    refine .of_next ((exec_paceCheck hup hcl).trans ((if_neg (not_or.2 ⟨by omega, by simp [hmoving]⟩)).trans ((if_neg (by omega)).trans
      (if_pos ⟨hslow, by rw [hlow]; rfl⟩)))) ?_
    rw [State.noted_cl, State.updCl_same, State.paced_cl]
  · intro s c b hmay
    obtain ⟨cap, hcap⟩ := s.startChange_cl c b
    refine .of_next (congrArg Host.Outcome.next (if_pos hmay)) ?_
    rw [hcap]
    exact ⟨rfl, rfl, rfl, rfl, s.startChange_out c b⟩
  · intro s c hmoving
    refine .of_next (if_pos hmoving) ?_
    rw [State.refreshBelow_cl, State.updCl_same]
    exact ⟨rfl, rfl⟩
  · exact fun s c hmoving => pointRolledBack s c hmoving
  · intro s w hup
    obtain ⟨t, ht, haccount, htime⟩ := powerWindow s w hup
    simp only [Power.account, Prod.mk.injEq] at haccount
    obtain ⟨hwindows, hlast, hhold, hheld, hwindow⟩ := haccount
    exact ⟨t, ht, hwindows, hlast, hhold, hheld, htime, hwindow⟩
  · intro s t e p hup h
    change ∃ u, execPowerProjection t e p s = .next u ∧ _
    simp only [execPowerProjection, hup, Bool.not_true, Bool.false_eq_true, if_false]
    rw [if_pos (by rw [State.atTime_holdTenths]; exact h)]
    generalize s.atTime t = u
    split
    · exact ⟨_, rfl, rfl, rfl, rfl⟩
    · refine ⟨_, rfl, ?_⟩
      rw [State.logEv_power, State.logEv_pins (by decide)]
      exact ⟨rfl, rfl, rfl⟩
  · intro s v hready hv
    change execMgtPwrLimitWrite v s = _
    have hfld : fld v 0 12 = v % 4096 := by simp [fld]
    simp only [execMgtPwrLimitWrite, hready, hfld, Bool.not_true, Bool.false_eq_true, if_false, if_pos hv]

end Sys2Proof.Machine
end

section
/-! POWER-ON RESET AND BOOT (O14). -/

namespace Sys2Proof.Machine

/-! ### Power-on reset -/

/-- What the TAP puts out when what it runs changes (R53). -/
def State.tapNotice (s t : State) : List OutEvent := if s.tapRuns = t.tapRuns then [] else [.tap t.tapRuns]

theorem State.tapAfter_eq (s t : State) : s.tapAfter t = { t with out := t.out ++ s.tapNotice t } := by
  rw [State.tapAfter, State.tapNotice]
  split
  · rw [List.append_nil]
  · rfl

/-- A stopped pan neither runs nor waits. -/
theorem Pan.stopped_run (p : Pan) : p.stopped.run ≠ .running ∧ p.stopped.run ≠ .waiting := by
  cases h : p.run with
  | waiting =>
    simp only [Pan.stopped, h]
    split <;> exact ⟨nofun, nofun⟩
  | _ => simp [Pan.stopped, h]

theorem rampedPans_run (s : State) (p : Nat) : ((rampedPans s).get {} p).run ≠ .running ∧ ((rampedPans s).get {} p).run ≠ .waiting := by
  rw [rampedPans]
  exact Tbl.get_mapAll_of (P := fun q : Pan => q.run ≠ .running ∧ q.run ≠ .waiting) _ _ p (by decide) fun a => a.stopped_run

theorem powerOnReset_changesOnly (s : State) : ChangesOnly [.pins, .tap, .hub, .log, .pans, .power] State.reset (s.tapAfter s.powerOnReset) := by
  intro a ha
  rw [State.tapAfter_eq]
  cases a <;> first | rfl | exact absurd (by decide) ha

/-! ### Step 1 -/

theorem Tbl.get_filter_key {α : Type} (d : α) (t : Tbl α) (p : Nat → Bool) (k : Nat) : Tbl.get d (t.filter fun e => p e.1) k = if p k then t.get d k else d := by
  induction t with
  | nil => split <;> rfl
  | cons e t ih =>
    obtain ⟨j, a⟩ := e
    by_cases hj : p j = true
    · rw [List.filter_cons_of_pos (p := fun e : Nat × α => p e.1) hj, Tbl.get, Tbl.get, ih]
      by_cases hjk : j = k
      · rw [if_pos hjk, if_pos hjk, if_pos (hjk ▸ hj)]
      · rw [if_neg hjk, if_neg hjk]
    · rw [List.filter_cons_of_neg (p := fun e : Nat × α => p e.1) hj, ih, Tbl.get]
      by_cases hjk : j = k
      · subst hjk
        rw [if_neg hj, if_neg hj]
      · rw [if_neg hjk]

/-- A reference clock that is there stays there when boot begins. -/
theorem State.clocksAtBoot_spec (s : State) : ChangesOnly [.pins] s s.clocksAtBoot ∧ s.clocksAtBoot.pins.porstN = s.pins.porstN
    ∧ s.clocksAtBoot.pins.timeref = s.pins.timeref
    ∧ ∀ c, s.pins.hbmRefAbsent.get false c = false → s.clocksAtBoot.pins.hbmRefAbsent.get false c = false := by
  refine ⟨(State.clocksAtBoot_ev (k := false) (.refl _ s) rfl).only, ?_⟩
  rw [State.clocksAtBoot]
  split
  · exact ⟨rfl, rfl, fun _ h => h⟩
  · refine ⟨rfl, rfl, fun c h => ?_⟩
    dsimp only
    rw [Tbl.get_filter_key (p := fun i => (Config.freeWord s.free).getLsbD (0 + i)), h]
    exact ite_self _

theorem State.clocksAtBoot_clPresent (s : State) (c : Nat) : s.clocksAtBoot.clPresent c = s.clPresent c := by
  rw [State.clocksAtBoot]
  split <;> rfl

/-- Boot at its first step. -/
def State.booting (s : State) : State :=
  { s with hub := { s.hub with stage := 1, booting := true, bootE := s.time.now, bootCount := (s.hub.bootCount + 1) % 2 ^ 32 } }

/-- The cluster whose reference clock is absent at the start of boot. -/
def State.clockless (s : State) : Option Nat := (List.range 10).find? fun c => s.clPresent c && s.pins.hbmRefAbsent.get false c

theorem State.bootStep1_eq (s : State) (rom fuse : Bool) : s.bootStep1 rom fuse =
    if (!s.clocksAtBoot.pins.timeref) = true then s.clocksAtBoot.booting.halt 1 0 0 0
    else if s.clocksAtBoot.clockless.isSome = true then s.clocksAtBoot.booting.halt 2 1 (s.clocksAtBoot.clockless.getD 0) 0
    else if (!rom) = true then s.clocksAtBoot.booting.halt 3 0 0 0
    else if (!fuse) = true then s.clocksAtBoot.booting.halt 4 0 0 0
    else { s.clocksAtBoot.booting with hub := { s.clocksAtBoot.booting.hub with configReady := true } } := by
  rw [State.bootStep1]
  generalize s.clocksAtBoot = u
  rfl

/-- Boot halts with its cause; before step 3 no device is lost by that. -/
theorem State.halt_hub {s : State} (cause kind unit code : Nat) (h : s.hub.stage < 3) :
    (s.halt cause kind unit code).hub.stage = 7 ∧ (s.halt cause kind unit code).hub.haltCause = cause ∧ (s.halt cause kind unit code).hub.booting = false := by
  rw [State.halt]
  dsimp only
  rw [if_neg (Nat.not_le.2 h)]
  split
  · rw [State.logEv_only _ _ _ _ _ _ _ .hub (by decide)]
    exact ⟨rfl, rfl, rfl⟩
  · exact ⟨rfl, rfl, rfl⟩

section
variable {s : State}

/-- The state in which PORST_N has been released. -/
def State.released (s : State) : State := s.tapAfter { s with pins := { s.pins with porstN := true } }

theorem exec_porstNRelease (h : s.pins.porstN = false) (rom fuse : Bool) : exec (.porstNRelease rom fuse) s = .next (s.released.bootStep1 rom fuse) := by
  change execPorstNRelease rom fuse s = _
  simp only [execPorstNRelease, h, Bool.false_eq_true, if_false]
  rfl

theorem State.released_eq (s : State) : ∃ es, s.released = { s with pins := { s.pins with porstN := true }, out := s.out ++ es } :=
  ⟨_, State.tapAfter_eq s _⟩

theorem State.released_timeref (s : State) : s.released.clocksAtBoot.pins.timeref = s.pins.timeref := by
  obtain ⟨es, hes⟩ := s.released_eq
  rw [s.released.clocksAtBoot_spec.2.2.1, hes]

/-- With every reference clock there, no cluster is without one at the start of boot. -/
theorem State.released_clockless (h : ∀ c < 10, s.clPresent c = true → s.pins.hbmRefAbsent.get false c = false) : s.released.clocksAtBoot.clockless = none := by
  obtain ⟨-, -, -, hkept⟩ := s.released.clocksAtBoot_spec
  refine List.find?_eq_none.2 fun c hc => ?_
  have hpresent : s.released.clocksAtBoot.clPresent c = s.clPresent c := by
    obtain ⟨es, hes⟩ := s.released_eq
    rw [State.clocksAtBoot_clPresent, hes]
    rfl
  rw [hpresent, Bool.and_eq_true, not_and, Bool.not_eq_true]
  intro hcl
  refine hkept c ?_
  obtain ⟨es, hes⟩ := s.released_eq
  rw [hes]
  exact h c (List.mem_range.1 hc) hcl

theorem State.booting_stage (s : State) : s.booting.hub.stage < 3 := by
  change 1 < 3
  decide
end

theorem released_halts (s : State) (rom fuse : Bool) (hporst : s.pins.porstN = false) (htimeref : s.pins.timeref = false) :
    Yields (.porstNRelease rom fuse) s fun t => t.hub.stage = 7 ∧ t.hub.haltCause = 1 ∧ t.hub.booting = false := by
  refine .of_next (exec_porstNRelease hporst rom fuse) ?_
  rw [State.bootStep1_eq, if_pos (by rw [s.released_timeref, htimeref]; rfl)]
  exact State.halt_hub _ _ _ _ (State.booting_stage _)

theorem released_fails (s : State) (rom fuse : Bool) (hporst : s.pins.porstN = false) (htimeref : s.pins.timeref = true) (hbad : rom = false ∨ fuse = false)
    (hclocks : ∀ c < 10, s.clPresent c = true → s.pins.hbmRefAbsent.get false c = false) : Yields (.porstNRelease rom fuse) s fun t =>
      t.hub.stage = 7 ∧ t.hub.haltCause = (if rom = false then 3 else 4) ∧ t.hub.booting = false := by
  refine .of_next (exec_porstNRelease hporst rom fuse) ?_
  rw [State.bootStep1_eq, if_neg (by rw [s.released_timeref, htimeref]; decide), if_neg (by rw [State.released_clockless hclocks]; decide)]
  cases rom with
  | false => exact State.halt_hub _ _ _ _ (State.booting_stage _)
  | true =>
    obtain rfl := hbad.resolve_left (by decide)
    exact State.halt_hub _ _ _ _ (State.booting_stage _)

theorem Area.same_trans {s t u : State} {a : Area} (h : a.same s t) (j : a.same t u) : a.same s u := by
  cases a <;> exact Eq.trans j h

theorem released_boots (s : State) (hporst : s.pins.porstN = false) (htimeref : s.pins.timeref = true)
    (hclocks : ∀ c < 10, s.clPresent c = true → s.pins.hbmRefAbsent.get false c = false) :
    Yields (.porstNRelease true true) s fun t => ChangesOnly [.pins, .hub] s t ∧ t.pins.porstN = true ∧ t.hub = { s.hub with
      stage := 1, booting := true, bootE := s.time.now, bootCount := (s.hub.bootCount + 1) % 2 ^ 32, configReady := true } := by
  refine .of_next (exec_porstNRelease hporst true true) ?_
  obtain ⟨honly, hpins, -, -⟩ := s.released.clocksAtBoot_spec
  obtain ⟨es, hes⟩ := s.released_eq
  have hreleased : ChangesOnly [.pins] s s.released := by
    rw [hes]
    intro a ha
    cases a <;> first | rfl | exact absurd (by decide) ha
  rw [State.bootStep1_eq, if_neg (by rw [s.released_timeref, htimeref]; decide), if_neg (by rw [State.released_clockless hclocks]; decide),
    if_neg (by decide), if_neg (by decide)]
  refine ⟨fun a ha => ?_, hpins.trans (by rw [hes]), ?_⟩
  · have hsame := Area.same_trans (hreleased a fun h => ha (by rw [List.mem_singleton.1 h]; decide)) (honly a fun h => ha (by rw [List.mem_singleton.1 h]; decide))
    cases a <;> first | exact hsame | exact absurd (by decide) ha
  · have hhub := Eq.trans (honly .hub (by decide)) (hreleased .hub (by decide))
    have htime := Eq.trans (honly .time (by decide)) (hreleased .time (by decide))
    rw [State.booting, hhub, htime]

/-! ### Management firmware -/

theorem State.watch_cons (s : State) (p : Nat) (ps : List Nat) : s.watch (p :: ps) = State.watch { s with hub := { s.hub with
    watched := s.hub.watched ||| BitVec.ofNat 23 (2 ^ p), beats := s.hub.beats.put p s.time.now } } ps := rfl

/-- A processor's watch, once begun, goes on; it begins now. -/
theorem State.watch_spec (ps : List Nat) (s : State) : (s.watch ps).time = s.time ∧ (∀ q < 23, (s.hub.watched.getLsbD q = true ∧ s.hub.beats.get 0 q = s.time.now) ∨ q ∈ ps →
    (s.watch ps).hub.watched.getLsbD q = true ∧ (s.watch ps).hub.beats.get 0 q = s.time.now) := by
  induction ps generalizing s with
  | nil => exact ⟨rfl, fun q _ h => h.resolve_right List.not_mem_nil⟩
  | cons p ps ih =>
    rw [State.watch_cons]
    obtain ⟨htime, hwatch⟩ := ih { s with hub := { s.hub with watched := s.hub.watched ||| BitVec.ofNat 23 (2 ^ p), beats := s.hub.beats.put p s.time.now } }
    refine ⟨htime, fun q hq h => hwatch q hq ?_⟩
    by_cases hqp : q = p
    · subst hqp
      refine .inl ⟨?_, Tbl.get_put_same _ _ _ _⟩
      change (s.hub.watched ||| BitVec.ofNat 23 (2 ^ q)).getLsbD q = true
      rw [BitVec.getLsbD_or, BitVec.getLsbD_ofNat, decide_eq_true hq, Nat.testBit_two_pow_self, Bool.and_self, Bool.or_true]
    · rcases h with ⟨hw, hb⟩ | hmem
      · refine .inl ⟨?_, (Tbl.get_put_ne _ _ _ hqp).trans hb⟩
        change (s.hub.watched ||| BitVec.ofNat 23 (2 ^ p)).getLsbD q = true
        rw [BitVec.getLsbD_or, hw, Bool.true_or]
      · exact .inr ((List.mem_cons.1 hmem).resolve_left hqp)

/-- Pages that fail their test are RETIRED; the others are as they were. -/
theorem retire_get (ps : List Nat) (t : Tbl Page) (p : Nat) : (retire t ps).get {} p = if p ∈ ps then { fresh := false, st := 3 } else t.get {} p := by
  induction ps generalizing t with
  | nil => rfl
  | cons q ps ih =>
    refine (ih (t.set {} q { fresh := false, st := 3 })).trans ?_
    by_cases hq : p = q
    · subst hq
      simp
    · rw [Tbl.get_set_ne _ _ _ hq]
      simp [hq]

/-- Held negotiations run, and change nothing but their functions. -/
theorem State.settleAhi_heldNeg (s : State) (f g : Nat) : (((s.settleAhi f).fn g).heldNeg = true → (s.fn g).heldNeg = true ∧ g ≠ f) := by
  rw [State.settleAhi, State.updFn_at]
  split
  · dsimp only
    split <;> exact nofun
  next h => exact fun hheld => ⟨hheld, h⟩

theorem State.foldl_settleAhi_heldNeg (fs : List Nat) (s : State) (g : Nat) :
    ((fs.foldl State.settleAhi s).fn g).heldNeg = true → (s.fn g).heldNeg = true ∧ g ∉ fs := by
  induction fs generalizing s with
  | nil => exact fun h => ⟨h, List.not_mem_nil⟩
  | cons f fs ih =>
    intro h
    obtain ⟨hheld, hrest⟩ := ih (s.settleAhi f) h
    obtain ⟨hheld, hne⟩ := s.settleAhi_heldNeg f g hheld
    exact ⟨hheld, by simp [hne, hrest]⟩

/-- A function whose negotiation is held is among those that have one. -/
theorem Tbl.mem_keysWhere {α : Type} {d : α} {t : Tbl α} {p : Nat → α → Bool} {k : Nat} (hd : p k d = false) (h : p k (t.get d k) = true) : k ∈ t.keysWhere p := by
  induction t with
  | nil => exact nomatch h.symm.trans hd
  | cons e t ih =>
    obtain ⟨j, a⟩ := e
    rw [Tbl.get] at h
    by_cases hj : j = k
    · rw [if_pos hj] at h
      subst hj
      exact List.mem_map.2 ⟨(j, a), List.mem_filter.2 ⟨List.mem_cons_self, h⟩, rfl⟩
    · rw [if_neg hj] at h
      obtain ⟨e, he, heq⟩ := List.mem_map.1 (ih h)
      obtain ⟨hmem, hp⟩ := List.mem_filter.1 he
      exact List.mem_map.2 ⟨e, List.mem_filter.2 ⟨List.mem_cons_of_mem _ hmem, hp⟩, heq⟩

/-- The state in which the first AVSBus commands are out and memory training begins. -/
def State.managed (s : State) : State :=
  { s with hub := { s.hub with stage := 2 }, out := s.out ++ ((List.range 10).filter s.clPresent).map fun c => OutEvent.avsWrite c 750 }

/-- That state, with a loss of TIMEREF reported that had to wait. -/
def State.reported (s : State) : State := if s.time.unnoted then s.managed.noteTimeref else s.managed

theorem State.managed_fold (s : State) :
    ((List.range 10).filter s.clPresent).foldl (fun s c => s.emit (.avsWrite c 750)) { s with hub := { s.hub with stage := 2 } } = s.managed :=
  State.foldl_emit (fun c => OutEvent.avsWrite c 750) _ _

/-- The stage is run while the conditions of its start hold. -/
structure State.AtManagement (s : State) : Prop where
  porst : s.pins.porstN = true
  booting : s.hub.booting = true
  stage : s.hub.stage = 1
  hold : s.hub.holdReset = false

theorem exec_managementStage_fault {s : State} (h : s.AtManagement) (l : Nat) (cm rs : List Nat) :
    exec (.managementStage (some l) cm rs) s = .next (s.managed.halt 5 0 l (Config.lossCode (256 + 5)).toNat) := by
  rw [← s.managed_fold]
  change execManagementStage (some l) cm rs s = _
  simp only [execManagementStage, h.porst, h.booting, h.stage, h.hold, BEq.rfl, Bool.not_false, Bool.and_self, Bool.not_true, Bool.false_eq_true, if_false]
  rfl

/-- Memory training begins, with the stores of the chip zeroed and tested. -/
def State.zeroed (s : State) (cm rs : List Nat) : State :=
  { s with
    chip := { booted := true, cmPages := retire [] cm, rsPages := retire [] rs }
    hub := { s.hub with stage := 3, mgmtMs := (s.time.now - s.hub.bootE) / 1000000 % 65536, memReadyAt := s.time.now } }

theorem exec_managementStage_ok {s : State} (h : s.AtManagement) (cm rs : List Nat) :
    exec (.managementStage none cm rs) s = .next ((s.reported.watch [0]).zeroed cm rs) := by
  have hunnoted : s.managed.time.unnoted = s.time.unnoted := rfl
  rw [State.reported, ← hunnoted, ← s.managed_fold]
  change execManagementStage none cm rs s = _
  simp only [execManagementStage, h.porst, h.booting, h.stage, h.hold, BEq.rfl, Bool.not_false, Bool.and_self, Bool.not_true, Bool.false_eq_true, if_false]
  rfl

theorem managementFails (s : State) (l : Nat) (cm rs : List Nat) (h : s.AtManagement) :
    Yields (.managementStage (some l) cm rs) s fun t => t.hub.stage = 7 ∧ t.hub.haltCause = 5 ∧ t.hub.booting = false :=
  .of_next (exec_managementStage_fault h l cm rs) (State.halt_hub _ _ _ _ (by change 2 < 3; decide))

/-- A report changes the hub not at all, the time base's mark, and adds to the outputs only where it is due. -/
theorem State.reported_spec (s : State) : s.reported.hub = { s.hub with stage := 2 } ∧ s.reported.time = { s.time with unnoted := false }
    ∧ ∃ more, s.reported.out = s.managed.out ++ more ∧ (s.time.unnoted = false → more = []) := by
  rw [State.reported]
  cases h : s.time.unnoted with
  | false =>
    have htime : s.time = { s.time with unnoted := false } := by rw [← h]
    exact ⟨rfl, htime, [], (List.append_nil _).symm, fun _ => rfl⟩
  | true =>
    obtain ⟨es, hes, -⟩ := (State.noteTimeref_ev (k := false) (l := [.pins, .time, .funcs, .msix, .log]) (.refl _ s.managed) rfl).posted
    exact ⟨(State.noteTimeref_ev (k := false) (l := [.pins, .time, .funcs, .msix, .log]) (.refl _ s.managed) rfl).only .hub (by decide), s.managed.noteTimeref_time,
      es, hes, nofun⟩

theorem managementPasses (s : State) (cm rs : List Nat) (h : s.AtManagement) : Yields (.managementStage none cm rs) s fun t =>
    t.hub.stage = 3 ∧ t.hub.watched = s.hub.watched ||| 1 ∧ t.hub.beats.get 0 0 = s.time.now ∧ t.hub.memReadyAt = s.time.now
      ∧ t.hub.mgmtMs = (s.time.now - s.hub.bootE) / 1000000 % 65536 ∧ t.time = { s.time with unnoted := false }
      ∧ (∃ more, t.out = s.out ++ ((List.range 10).filter s.clPresent).map (fun c => OutEvent.avsWrite c 750) ++ more
          ∧ (s.time.unnoted = false → more = []))
      ∧ t.chip.booted = true ∧ t.chip.cm = [] ∧ t.chip.rs = []
      ∧ (∀ p ∈ cm, (t.chip.cmPages.get {} p).st = 3) ∧ (∀ p ∈ rs, (t.chip.rsPages.get {} p).st = 3)
      ∧ (∀ p ∉ cm, t.chip.cmPages.get {} p = {}) ∧ (∀ p ∉ rs, t.chip.rsPages.get {} p = {}) := by
  refine .of_next (exec_managementStage_ok h cm rs) ?_
  obtain ⟨hhub, htime, more, hout, hmore⟩ := s.reported_spec
  generalize s.reported = u at hhub htime hout
  have hzero : (0 : Nat) < 23 := by decide
  obtain ⟨-, hwatch⟩ := u.watch_spec [0]
  have hbeat := (hwatch 0 hzero (.inr (List.mem_singleton_self 0))).2
  have hnow : u.time.now = s.time.now := by rw [htime]
  have hE : u.hub.bootE = s.hub.bootE := by rw [hhub]
  have hretired : ∀ (ps : List Nat) (p : Nat), p ∈ ps → ((retire [] ps).get {} p).st = 3 := fun ps p hp => by rw [retire_get, if_pos hp]
  have hkept : ∀ (ps : List Nat) (p : Nat), p ∉ ps → (retire [] ps).get {} p = {} := fun ps p hp => by rw [retire_get, if_neg hp, Tbl.get]
  refine ⟨rfl, ?_, hbeat.trans hnow, hnow, ?_, htime, ⟨more, hout, hmore⟩, rfl, rfl, rfl, hretired cm, hretired rs, hkept cm, hkept rs⟩
  · change u.hub.watched ||| BitVec.ofNat 23 (2 ^ 0) = _
    rw [hhub]
    rfl
  · rw [← hnow, ← hE]
    rfl

/-! ### Firmware, and Ready -/

theorem firmwareStarts (s : State) (hporst : s.pins.porstN = true) (hboot : s.hub.booting = true) (hstage : s.hub.stage = 5)
    (hunwatched : s.hub.watched.getLsbD 1 = false) : Yields .firmwareStart s fun t => t.loader = { s.loader with patchLocked := true }
      ∧ ∀ p < 23, (1 ≤ p ∧ p ≤ 8) ∨ 19 ≤ p ∨ (9 ≤ p ∧ p ≤ 18 ∧ s.clPresent (p - 9) = true) → t.hub.watched.getLsbD p = true ∧ t.hub.beats.get 0 p = s.time.now := by
  change ∃ t, execFirmwareStart s = .next t ∧ _
  simp only [execFirmwareStart, hporst, hboot, hstage, hunwatched, BEq.rfl, Bool.and_self, Bool.not_true, Bool.or_self, Bool.false_eq_true, if_false]
  generalize hps : (List.range 8).map (· + 1) ++ ((List.range 10).filter s.clPresent).map (· + 9) ++ [19, 20, 21, 22] = ps
  have honly : ChangesOnly [.hub] s (s.watch ps) := (State.watch_ev (k := false) (.refl _ s) rfl).only
  refine ⟨_, rfl, by rw [honly .loader (by decide)], fun p hp h => (s.watch_spec ps).2 p hp (.inr ?_)⟩
  rw [← hps]
  simp only [List.mem_append, List.mem_map, List.mem_range, List.mem_filter, List.mem_cons, List.not_mem_nil, or_false]
  rcases h with h | h | ⟨hlo, hhi, hcl⟩
  · exact .inl (.inl ⟨p - 1, by omega, by omega⟩)
  · exact .inr (by omega)
  · exact .inl (.inr ⟨p - 9, ⟨by omega, hcl⟩, by omega⟩)

theorem bootsReady (s : State) (hporst : s.pins.porstN = true) (hboot : s.hub.booting = true) (hstage : s.hub.stage = 5)
    (hwatched : s.hub.watched.getLsbD 1 = true) : Yields .bootReady s fun t => t.hub = { s.hub with
        stage := 6, booting := false, resetAsked := false, readyMs := (s.time.now - s.hub.bootE) / 1000000 % 65536, patched := s.loader.patchLevel != 0 }
      ∧ ∀ f : Nat, (t.fn f).heldNeg = false := by
  change ∃ t, execBootReady s = .next t ∧ _
  simp only [execBootReady, hporst, hboot, hstage, hwatched, BEq.rfl, Bool.and_self, Bool.not_true, Bool.false_eq_true, if_false]
  generalize (s.time.now - s.hub.bootE) / 1000000 % 65536 = ms
  generalize hu : ({ s with hub := { s.hub with stage := 6, booting := false, resetAsked := false, readyMs := ms, patched := s.loader.patchLevel != 0 } } : State) = u
  have hfuncs : s.funcs = u.funcs := by rw [← hu]
  rw [hfuncs]
  generalize hfs : u.funcs.keysWhere (fun _ g => g.heldNeg) = fs
  have hkept : (fs.foldl State.settleAhi u).hub = u.hub := foldl_keeps State.hub (f := State.settleAhi) (fun _ _ => rfl) fs u
  refine ⟨_, rfl, ?_, fun f => ?_⟩
  · rw [State.logEv_only _ _ _ _ _ _ _ .hub (by decide), hkept, ← hu]
  · rw [fn_of_funcs (State.logEv_only _ _ _ _ _ _ _ .funcs (by decide))]
    rw [← Bool.not_eq_true]
    intro hheld
    obtain ⟨hheld, hnot⟩ := State.foldl_settleAhi_heldNeg fs u f hheld
    exact hnot (hfs ▸ Tbl.mem_keysWhere (d := ({} : Func)) (p := fun _ g => g.heldNeg) rfl hheld)

/-- Settles O14: the boot rows, each check that fails by its cause, and what the reset keeps. -/
theorem powerOnAndBoot : Obligations.PowerOnAndBoot := by
  refine ⟨?_, released_boots, released_halts, released_fails, ?_, ?_, firmwareStarts, bootsReady⟩
  · intro s
    refine .of_next rfl ⟨powerOnReset_changesOnly s, ?_⟩
    rw [State.tapAfter_eq]
    exact ⟨rfl, rfl, rfl, rfl, rfl, rfl, rfl, rfl, rfl, rfl, rampedPans_run s⟩
  · intro s cm rs hporst hboot hstage hhold
    exact managementPasses s cm rs ⟨hporst, hboot, hstage, hhold⟩
  · intro s l cm rs hporst hboot hstage hhold
    exact managementFails s l cm rs ⟨hporst, hboot, hstage, hhold⟩

end Sys2Proof.Machine
end

section
/-! SYNCHRONISATION (O47). -/

namespace Sys2Proof.Machine

/-! ### A command's turn -/

section
variable {s u : State} {ref : CmdRef} {op : Nat} {k : Cmd}

theorem State.issued?_spec (h : u.issued? ref op = some k) : u.cmd? ref = some k ∧ cOp k.word = op ∧ k.phase = .issued := by
  rw [State.issued?] at h
  split at h
  next c hc =>
    split at h
    next hp =>
      obtain rfl := Option.some.inj h
      exact ⟨hc, hp⟩
    next => exact nomatch h
  next => exact nomatch h

theorem State.markWritten_only (s : State) (ref : CmdRef) : ChangesOnly [.cmds] s (s.markWritten ref) :=
  (State.markWritten_ev (k := false) (.refl _ s) rfl).only

/-- A command of a reference, written. -/
theorem State.cmd?_markWritten_self (hk : s.cmd? ref = some k) : (s.markWritten ref).cmd? ref = some { k with phase := .written } :=
  State.cmd?_updCmd_self hk fun _ => rfl

theorem State.cmd?_markWritten_ne {q : CmdRef} (hne : q ≠ ref) : (s.markWritten ref).cmd? q = s.cmd? q := by
  have hupd := State.cmd?_updCmd s ref q (f := fun k => { k with phase := .written }) fun _ => rfl
  refine hupd.trans ?_
  cases hq : s.cmd? q with
  | none => rfl
  | some c => rw [Option.map_some, if_neg (by rw [State.cmd?_ref hq]; simpa using hne)]

/-- What a command's record becomes, and its last write done. -/
theorem State.cmd?_updCmd_markWritten (hk : s.cmd? ref = some k) {f : Cmd → Cmd} (hf : ∀ c, (f c).ref = c.ref) :
    ((s.updCmd ref f).markWritten ref).cmd? ref = some { f k with phase := .written } :=
  State.cmd?_markWritten_self (State.cmd?_updCmd_self hk hf)

/-- A loss on the way is a loss of the whole step: taking a command up saves no device. -/
theorem LostWith.of_takeUp {t : State} {c status : Nat} (h : LostWith (s.takeUp ref op) t c status) : LostWith s t c status := by
  obtain ⟨hlife, hstatus⟩ := h
  have hfollows := (State.takeUp_ev (k := true) (ref := ref) (op := op) (l := [.pins, .hub, .funcs, .msix, .windows, .parts, .ctxs, .trans,
    .tlb, .fences, .fenceFreed, .fenceLower, .rings, .objs, .hbm, .chip, .pans, .units, .clusters, .power, .log, .secs, .cmds, .replays, .hzn, .svcs,
    .sessions, .xparts, .invals, .atsInvals]) (.refl _ s) rfl).hub.1 rfl
  exact ⟨hlife, hstatus.imp_right fun ⟨hu, ht⟩ => ⟨Bool.eq_false_iff.2 fun hs => Bool.false_ne_true (hu.symm.trans (hfollows hs)), ht⟩⟩

/-- A command that fails in its turn loses its live context (R528). -/
theorem Turn.fails (h : Turn s u ref op k) (hlive : (u.cx k.ctx).life = .live) (status : Nat) : LostWith s (u.failCmd ref status) k.ctx status := by
  have hk := (State.issued?_spec h.issued).1
  have hlost := State.failCmd_lostWith status hk hlive
  have htaken := h.taken
  subst htaken
  exact hlost.of_takeUp
end

/-! ### WAIT -/

section
variable {s u : State} {ref : CmdRef} {k : Cmd}

theorem exec_wait_pending (h : Turn s u ref 0xA0 k) (hright : u.fenceRight k.ctx k.word = true) (hw : u.waitOn k = .pending) : exec (.wait ref) s = .next u := by
  change execWait ref s = _
  simp only [execWait, ← h.taken, h.issued, h.runs, hright, hw, Bool.not_true, Bool.false_eq_true, if_false]

theorem exec_wait_reached {v : Nat} (h : Turn s u ref 0xA0 k) (hright : u.fenceRight k.ctx k.word = true) (hw : u.waitOn k = .reached v) :
    exec (.wait ref) s = .next ((u.updCmd ref fun k => { k with infos := k.infos.map fun r => { r with value := v } }).markWritten ref) := by
  change execWait ref s = _
  simp only [execWait, ← h.taken, h.issued, h.runs, hright, hw, Bool.not_true, Bool.false_eq_true, if_false]

theorem exec_wait_abandoned {v : Nat} (h : Turn s u ref 0xA0 k) (hright : u.fenceRight k.ctx k.word = true) (hw : u.waitOn k = .abandoned v) :
    exec (.wait ref) s = if bit (at1 k.word 14) 0 then
        .next ((u.updCmd ref fun k => { k with infos := k.infos.map fun r => { r with abandoned := true, value := v } }).markWritten ref)
      else .next (u.failCmd ref 0x0303) := by
  change execWait ref s = _
  simp only [execWait, ← h.taken, h.issued, h.runs, hright, hw, Bool.not_true, Bool.false_eq_true, if_false]

/-- A WAIT whose window ends, or a BARRIER's that is not complete, fails with WAIT_TIMEOUT (R226). -/
theorem exec_waitTimeoutExpiry (hk : s.cmd? ref = some k)
    (hwaits : (cOp k.word = 0xA0 ∧ s.waitOn k = .pending) ∨ (cOp k.word = 0xA3 ∧ s.barrierMet ref = false)) (hphase : k.phase = .issued)
    (hruns : k.skipped = false) : exec (.waitTimeoutExpiry ref) s = .next ((s.atTime k.waitEnd).failCmd ref 0x0301) := by
  change execWaitTimeoutExpiry ref s = _
  rcases hwaits with ⟨hop, hwait⟩ | ⟨hop, hmet⟩
  · simp [execWaitTimeoutExpiry, hk, hphase, hruns, hop, hwait]
  · simp [execWaitTimeoutExpiry, hk, hphase, hruns, hop, hmet]

/-- The areas that a command's failure may change. -/
def failAreas : List Area :=
  [.pins, .hub, .funcs, .msix, .windows, .parts, .ctxs, .trans, .tlb, .fences, .fenceFreed, .fenceLower, .rings, .objs, .hbm, .chip, .pans, .units,
    .clusters, .power, .log, .secs, .cmds, .replays, .hzn, .svcs, .sessions, .xparts, .invals, .atsInvals]

theorem State.failCmd_evolves (s : State) (ref : CmdRef) (status : Nat) : Evolves true failAreas s (s.failCmd ref status) := State.failCmd_ev (.refl _ s) rfl

theorem State.failCmd_time (s : State) (ref : CmdRef) (status : Nat) : (s.failCmd ref status).time = s.time :=
  (s.failCmd_evolves ref status).only .time (by decide)

theorem State.failCmd_scanSet (s : State) (ref : CmdRef) (status : Nat) : (s.failCmd ref status).scanSet = s.scanSet :=
  (s.failCmd_evolves ref status).only .scanSet (by decide)

theorem waitExpires (s : State) (ref : CmdRef) (k : Cmd) (hk : s.cmd? ref = some k)
    (hwaits : (cOp k.word = 0xA0 ∧ s.waitOn k = .pending) ∨ (cOp k.word = 0xA3 ∧ s.barrierMet ref = false)) (hphase : k.phase = .issued)
    (hruns : k.skipped = false) (hlive : (s.cx k.ctx).life = .live) : Yields (.waitTimeoutExpiry ref) s fun t => LostWith s t k.ctx 0x0301
      ∧ t.time.now = max s.time.now (k.reached + 1000000 * (if at2 k.word 12 = 0 then 2000 else at2 k.word 12)) := by
  refine .of_next (exec_waitTimeoutExpiry hk hwaits hphase hruns) ⟨?_, ?_⟩
  · exact State.failCmd_lostWith (s := s.atTime k.waitEnd) 0x0301 hk hlive
  · rw [State.failCmd_time, State.atTime_now, Cmd.waitEnd, timeoutNs]
end

/-! ### SIGNAL and EVENT -/

section
variable {s u : State} {ref : CmdRef} {k : Cmd}

/-- The fence change of a SIGNAL's word. -/
def Cmd.signals (k : Cmd) : Sig :=
  { handle := at4 k.word 8, value := k.fenceValue, engine := if bit (at1 k.word 14) 0 then some (fld (leAt k.word 24 3) 0 18) else none }

theorem exec_signal (h : Turn s u ref 0xA1 k) (hright : u.fenceRight k.ctx k.word = true) (hdone : u.earlierDone ref = true)
    (hremote : bit (at1 k.word 14) 0 = false ∨ u.hzn.domainOf k.ctx ≠ 0) :
    ∃ shown, exec (.signal ref) s
      = .next ((u.updCmd ref fun c => { c with sig := some k.signals, infos := c.infos.map fun r => { r with value := shown } }).markWritten ref) := by
  have hmay : (!u.fenceRight k.ctx k.word || (bit (at1 k.word 14) 0 && u.hzn.domainOf k.ctx == 0)) = false := by
    rcases hremote with hlocal | hdomain
    · simp [hright, hlocal]
    · simp [hright, hdomain]
  change ∃ shown, execSignal ref s = _
  simp only [execSignal, ← h.taken, h.issued, h.runs, hmay, hdone, Bool.not_true, Bool.false_eq_true, if_false]
  exact ⟨_, rfl⟩

theorem exec_signal_refused (h : Turn s u ref 0xA1 k) (hright : u.fenceRight k.ctx k.word = false) : exec (.signal ref) s = .next (u.failCmd ref 0x0202) := by
  change execSignal ref s = _
  simp only [execSignal, ← h.taken, h.issued, h.runs, hright, Bool.not_false, Bool.true_or, Bool.false_eq_true, if_false, if_true]

theorem exec_event (h : Turn s u ref 0xA2 k) (hdone : u.earlierDone ref = true) : exec (.event ref) s = .next (u.markWritten ref) := by
  change execEvent ref s = _
  simp only [execEvent, ← h.taken, h.issued, hdone, if_true]
end

/-! ### BARRIER -/

/-- One BARRIER of a set that passes. -/
def State.passOne (s : State) (r : CmdRef) : State := if (s.cmd? r).any fun k => k.phase == .issued && !k.skipped then s.markWritten r else s

theorem State.passOne_ne {s : State} {r q : CmdRef} (hne : q ≠ r) : (s.passOne r).cmd? q = s.cmd? q := by
  rw [State.passOne]
  split
  · exact State.cmd?_markWritten_ne hne
  · rfl

/-- Each of a set of BARRIERs that wait passes. -/
theorem State.foldl_passOne (rs : List CmdRef) (s : State) {q : CmdRef} {c : Cmd} (hphase : c.phase = .issued) (hruns : c.skipped = false)
    (h : (s.cmd? q = some c ∧ q ∈ rs) ∨ s.cmd? q = some { c with phase := .written }) :
    (rs.foldl State.passOne s).cmd? q = some { c with phase := .written } := by
  induction rs generalizing s with
  | nil => exact h.resolve_left fun hq => absurd hq.2 List.not_mem_nil
  | cons r rs ih =>
    refine ih (s.passOne r) ?_
    by_cases hqr : q = r
    · subst hqr
      refine .inr ?_
      rcases h with ⟨hc, -⟩ | hc
      · rw [State.passOne, hc, if_pos (by simp [hphase, hruns])]
        exact State.cmd?_markWritten_self hc
      · rw [State.passOne, hc, if_neg (by simp)]
        exact hc
    · rw [State.passOne_ne hqr]
      exact h.imp_left fun ⟨hc, hmem⟩ => ⟨hc, (List.mem_cons.1 hmem).resolve_left hqr⟩

theorem exec_barrier {s u : State} {ref : CmdRef} {k : Cmd} (h : Turn s u ref 0xA3 k) (hmet : u.barrierMet ref = true) :
    exec (.barrier ref) s = .next ((u.barrierSet ref).foldl State.passOne u) := by
  change execBarrier ref s = _
  simp only [execBarrier, ← h.taken, h.issued, h.runs, Bool.false_eq_true, if_false, State.passBarrier, if_pos hmet]
  rfl

section
variable {u : State} {h st i g : Nat} {k : Cmd}

/-- The BARRIERs of one generation. -/
theorem State.mem_barrierSet (hk : u.cmd? (.station h st i) = some k) (hgen : ((u.sec h).barriers st (fld (at1 k.word 8) 0 4)).findIdx? (· == i) = some g)
    {r : CmdRef} : r ∈ u.barrierSet (.station h st i) ↔ ∃ t < (u.sec h).nStations, (u.sec h).barriers t (fld (at1 k.word 8) 0 4) ≠ []
      ∧ r = .station h t (((u.sec h).barriers t (fld (at1 k.word 8) 0 4)).getD g 65536) := by
  simp only [State.barrierSet, hk, hgen, Option.getD_some, List.mem_filterMap, List.mem_range]
  refine exists_congr fun t => and_congr_right fun _ => ?_
  split
  next hempty => simp [List.isEmpty_iff.1 hempty]
  next hsome =>
    rw [Option.some.injEq]
    exact ⟨fun h => ⟨List.isEmpty_iff.not.1 hsome, h.symm⟩, fun h => h.2.symm⟩

/-- The BARRIERs of a generation that every station has reached in time pass together (R227). -/
theorem State.barrierMet_of (hk : u.cmd? (.station h st i) = some k)
    (hgen : ((u.sec h).barriers st (fld (at1 k.word 8) 0 4)).findIdx? (· == i) = some g)
    (hall : ∀ t < (u.sec h).nStations, (u.sec h).barriers t (fld (at1 k.word 8) 0 4) ≠ [] →
      ∃ j, ((u.sec h).barriers t (fld (at1 k.word 8) 0 4))[g]? = some j ∧ u.atBarrier h t j = true
        ∧ ∀ c, u.cmd? (.station h t j) = some c → c.skipped = true ∨ u.time.now < c.reached + 1000000 * (if at2 c.word 12 = 0 then 2000 else at2 c.word 12)) :
    u.barrierMet (.station h st i) = true := by
  rw [State.barrierMet, List.all_eq_true]
  intro r hr
  obtain ⟨t, ht, hne, rfl⟩ := (State.mem_barrierSet hk hgen).1 hr
  obtain ⟨j, hj, hat, hin⟩ := hall t ht hne
  have hgetD : ((u.sec h).barriers t (fld (at1 k.word 8) 0 4)).getD g 65536 = j := by rw [List.getD_eq_getElem?_getD, hj, Option.getD_some]
  rw [hgetD]
  dsimp only
  rw [hat, Bool.true_and]
  cases hc : u.cmd? (.station h t j) with
  | none => rfl
  | some c =>
    rw [Option.all_some, Bool.or_eq_true, decide_eq_true_eq, Cmd.waitEnd, timeoutNs]
    exact hin c hc
end

theorem barriersPass (s u : State) (h st i g : Nat) (k : Cmd) (hturn : Turn s u (.station h st i) 0xA3 k)
    (hgen : ((u.sec h).barriers st (fld (at1 k.word 8) 0 4)).findIdx? (· == i) = some g)
    (hall : ∀ t < (u.sec h).nStations, (u.sec h).barriers t (fld (at1 k.word 8) 0 4) ≠ [] →
      ∃ j, ((u.sec h).barriers t (fld (at1 k.word 8) 0 4))[g]? = some j ∧ u.atBarrier h t j = true
        ∧ ∀ c, u.cmd? (.station h t j) = some c → c.skipped = true ∨ u.time.now < c.reached + 1000000 * (if at2 c.word 12 = 0 then 2000 else at2 c.word 12)) :
    Yields (.barrier (.station h st i)) s fun t => ∀ p < (u.sec h).nStations, ∀ j c, ((u.sec h).barriers p (fld (at1 k.word 8) 0 4))[g]? = some j →
      u.issued? (.station h p j) 0xA3 = some c → c.skipped = false → t.cmd? (.station h p j) = some { c with phase := .written } := by
  have hk := (State.issued?_spec hturn.issued).1
  refine .of_next (exec_barrier hturn (State.barrierMet_of hk hgen hall)) fun p hp j c hj hc hruns => ?_
  obtain ⟨hcmd, -, hphase⟩ := State.issued?_spec hc
  refine State.foldl_passOne _ u hphase hruns (.inl ⟨hcmd, (State.mem_barrierSet hk hgen).2 ⟨p, hp, ?_, ?_⟩⟩)
  · exact List.ne_nil_of_mem (List.mem_of_getElem? hj)
  · rw [List.getD_eq_getElem?_getD, hj, Option.getD_some]

/-! ### Skipped commands -/

/-- A skipped command of the sequencer goes on (R185). -/
theorem exec_skipped {s u : State} {i : Instr} {ref : CmdRef} {op : Nat} {k : Cmd}
    (hi : (i, op) ∈ [(Instr.wait ref, 0xA0), (.patch ref, 0xE0)]
      ∨ ((i, op) ∈ [(Instr.signal ref, 0xA1), (.event ref, 0xA2), (.barrier ref, 0xA3)] ∧ u.earlierDone ref = true))
    (hu : u = s.takeUp ref op) (hk : u.issued? ref op = some k) (hskip : k.skipped = true) : exec i s = .next (u.markWritten ref) := by
  subst hu
  simp only [List.mem_cons, Prod.mk.injEq, List.not_mem_nil, or_false] at hi
  rcases hi with (⟨rfl, rfl⟩ | ⟨rfl, rfl⟩) | ⟨⟨rfl, rfl⟩ | ⟨rfl, rfl⟩ | ⟨rfl, rfl⟩, hdone⟩
  · change execWait ref s = _
    simp only [execWait, hk, hskip, if_true]
  · change execPatch ref s = _
    simp only [execPatch, hk, hskip, if_true]
  · change execSignal ref s = _
    simp only [execSignal, hk, hskip, hdone, if_true]
  · change execEvent ref s = _
    simp only [execEvent, hk, hdone, if_true]
  · change execBarrier ref s = _
    simp only [execBarrier, hk, hskip, hdone, if_true]

/-! ### Wait cycles -/

/-- A lost context keeps its status whatever command fails after it, or the device is lost. -/
theorem LostWith.then_failCmd {s t : State} {c status : Nat} (h : LostWith s t c status) (hmono : s.hub.lost = true → t.hub.lost = true) (ref : CmdRef)
    (status' : Nat) : LostWith s (t.failCmd ref status') c status ∧ (s.hub.lost = true → (t.failCmd ref status').hub.lost = true) := by
  cases hk : t.cmd? ref with
  | none =>
    rw [State.failCmd, hk]
    exact ⟨h, hmono⟩
  | some k =>
    obtain ⟨u, hu, hfail⟩ := State.failCmd_course status' hk
    rw [hfail]
    have hlostU := h.then_course hu hmono
    have hmonoU : s.hub.lost = true → u.hub.lost = true := fun hs => hu.lost (hmono hs)
    by_cases hlive : (u.cx k.ctx).life = .live
    · have hne : c ≠ k.ctx := fun heq => by
        rw [← heq, hlostU.1] at hlive
        exact nomatch hlive
      have hmark : LostWith s (u.markLost k.ctx status') c status := by
        rw [LostWith, State.markLost, State.updCx_ne _ _ _ hne]
        exact hlostU
      have hcourse := State.loseCtx_course (status := status') hlive
      exact ⟨hmark.then_course hcourse hmonoU, fun hs => hcourse.lost (hmonoU hs)⟩
    · rw [State.loseCtx, if_pos (by simpa using hlive)]
      exact ⟨hlostU, hmonoU⟩

theorem LostWith.foldl_failCmd {s t : State} {c status : Nat} (rs : List CmdRef) (status' : Nat) (h : LostWith s t c status)
    (hmono : s.hub.lost = true → t.hub.lost = true) : LostWith s (rs.foldl (fun x w => x.failCmd w status') t) c status := by
  induction rs generalizing t with
  | nil => exact h
  | cons r rs ih =>
    obtain ⟨h', hmono'⟩ := h.then_failCmd hmono r status'
    exact ih h' hmono'

theorem State.foldl_failCmd_kept (rs : List CmdRef) (status : Nat) (s : State) : (rs.foldl (fun x w => x.failCmd w status) s).time = s.time
    ∧ (rs.foldl (fun x w => x.failCmd w status) s).scanSet = s.scanSet :=
  ⟨foldl_keeps State.time (fun s r => s.failCmd_time r status) rs s, foldl_keeps State.scanSet (fun s r => s.failCmd_scanSet r status) rs s⟩

/-- A scan notes what is in a cycle, and fails what was in one before (R391 to R394). -/
theorem exec_waitCycleScan {s u : State} {W V : List CmdRef} {val : CmdRef → Nat} (hready : s.ready = true)
    (hu : u = s.atTime ((s.time.now + 999999) / 1000000 * 1000000)) (hW : W = u.cycleOf u.submitted u.waitTable.length u.waitTable)
    (hval : val = fun w => ((u.cmd? w).bind fun k => (u.fenceSlot (at4 k.word 8)).map fun i => (u.fe i).value).getD 0)
    (hV : V = u.cycleOf u.submitted W.length (W.filter fun w => u.scanSet.contains (w, val w))) :
    exec .waitCycleScan s = .next (V.foldl (fun x w => x.failCmd w 0x0302) { u with scanSet := (W.filter fun w => !V.contains w).map fun w => (w, val w) }) := by
  change execWaitCycleScan s = _
  rw [execWaitCycleScan, hready]
  simp only [Bool.not_true, Bool.false_eq_true, if_false, State.failCycle]
  simp only [hval] at hV ⊢
  rw [← hu, ← hW, ← hV]

theorem waitCycles (s u : State) (W V : List CmdRef) (val : CmdRef → Nat) (hready : s.ready = true)
    (hu : u = s.atTime ((s.time.now + 999999) / 1000000 * 1000000)) (hW : W = u.cycleOf u.submitted u.waitTable.length u.waitTable)
    (hval : val = fun w => ((u.cmd? w).bind fun k => (u.fenceSlot (at4 k.word 8)).map fun i => (u.fe i).value).getD 0)
    (hV : V = u.cycleOf u.submitted W.length (W.filter fun w => u.scanSet.contains (w, val w))) :
    Yields .waitCycleScan s fun t => t.scanSet = (W.filter fun w => !V.contains w).map (fun w => (w, val w)) ∧ t.time = u.time
      ∧ t = V.foldl (fun x w => x.failCmd w 0x0302) { u with scanSet := (W.filter fun w => !V.contains w).map fun w => (w, val w) }
      ∧ ∀ w k, V.head? = some w → u.cmd? w = some k → (u.cx k.ctx).life = .live → LostWith s t k.ctx 0x0302 := by
  refine .of_next (exec_waitCycleScan hready hu hW hval hV) ?_
  have hlost : s.hub.lost = u.hub.lost := by rw [hu, State.atTime_hub]
  generalize (W.filter fun w => !V.contains w).map (fun w => (w, val w)) = scan
  obtain ⟨htime, hscan⟩ := State.foldl_failCmd_kept V 0x0302 { u with scanSet := scan }
  refine ⟨hscan, htime, rfl, fun w k hw hk hlive => ?_⟩
  obtain ⟨rest, rfl⟩ : ∃ rest, V = w :: rest := List.head?_eq_some_iff.1 hw
  have hfirst : LostWith u (State.failCmd { u with scanSet := scan } w 0x0302) k.ctx 0x0302 :=
    State.failCmd_lostWith (s := { u with scanSet := scan }) 0x0302 hk hlive
  have hcourse := (State.failCmd_evolves { u with scanSet := scan } w 0x0302).hub.1 rfl
  have hall := hfirst.foldl_failCmd rest 0x0302 hcourse
  exact ⟨hall.1, hall.2.imp_right fun ⟨hs, ht⟩ => ⟨hlost.trans hs, ht⟩⟩

/-- Settles O47: the synchronising commands row by row; the scan by the waits that it finds in a cycle again. -/
theorem synchronisation : Obligations.Synchronisation := by
  refine ⟨?_, ?_, ?_, ?_, waitExpires, ?_, ?_, ?_, fun s u h st i g k hturn _ => barriersPass s u h st i g k hturn, ?_, waitCycles⟩
  · intro s u ref k v h hright hw
    exact .of_next (exec_wait_reached h hright hw)
      ⟨(State.markWritten_only _ ref) .fences (by decide), State.cmd?_updCmd_markWritten (State.issued?_spec h.issued).1 fun _ => rfl⟩
  · intro s u ref k v h hright hw haccepts
    exact .of_next ((exec_wait_abandoned h hright hw).trans (if_pos haccepts)) (State.cmd?_updCmd_markWritten (State.issued?_spec h.issued).1 fun _ => rfl)
  · intro s u ref k v h hright hw hrefuses hlive
    exact .of_next ((exec_wait_abandoned h hright hw).trans (if_neg (by rw [hrefuses]; decide))) (h.fails hlive 0x0303)
  · exact fun s u ref k h hright hw => exec_wait_pending h hright hw
  · intro s u ref k h hright hdone hremote
    obtain ⟨shown, hexec⟩ := exec_signal h hright hdone hremote
    exact .of_next hexec ⟨(State.markWritten_only _ ref) .fences (by decide), _, State.cmd?_updCmd_markWritten (State.issued?_spec h.issued).1 fun _ => rfl⟩
  · intro s u ref k h hright hlive
    exact .of_next (exec_signal_refused h hright) (h.fails hlive 0x0202)
  · intro s u ref k h hdone
    exact .of_next (exec_event h hdone) (State.cmd?_markWritten_self (State.issued?_spec h.issued).1)
  · intro s u i ref op k hi hu hk hskip
    exact .of_next (exec_skipped hi hu hk hskip) ⟨(u.markWritten_only ref) .fences (by decide), (u.markWritten_only ref) .secs (by decide),
      State.cmd?_markWritten_self (State.issued?_spec hk).1⟩

end Sys2Proof.Machine
end

section
/-! FUNCTIONS (O34). -/

namespace Sys2Proof.Machine

section
variable {s : State} {f : Nat}

theorem exec_negotiate_ready (hf : f < 256) (hready : s.ready = true) (hconfig : s.hub.configReady = true) (hexists : s.funcExists f = true)
    (hoff : (s.fn f).enable = false) (hctxs : s.ctxsOf f = []) : exec (.negotiate f) s = .next (s.settleAhi f) := by
  have hup := hready
  simp only [State.ready, Bool.and_eq_true, Bool.not_eq_true'] at hup
  obtain ⟨⟨hporst, -⟩, hlost⟩ := hup
  change execNegotiate f s = _
  simp only [execNegotiate, if_neg (Nat.not_le.2 hf), hporst, hconfig, hexists, hlost, hoff, hctxs, hready, List.isEmpty_nil, Bool.and_self, Bool.not_true,
    Bool.or_self, Bool.false_eq_true, if_false, if_true]

theorem exec_negotiate_held (hf : f < 256) (hporst : s.pins.porstN = true) (hconfig : s.hub.configReady = true) (hstage : s.hub.stage ≠ 6)
    (hlost : s.hub.lost = false) (hexists : s.funcExists f = true) (hoff : (s.fn f).enable = false) (hctxs : s.ctxsOf f = []) :
    exec (.negotiate f) s = .next (s.updFn f fun g => { g with agree := 1, heldNeg := true }) := by
  have hnot : s.ready = false := by simp [State.ready, hstage]
  change execNegotiate f s = _
  simp only [execNegotiate, if_neg (Nat.not_le.2 hf), hporst, hconfig, hexists, hlost, hoff, hctxs, hnot, List.isEmpty_nil, Bool.and_self, Bool.not_true,
    Bool.or_self, Bool.false_eq_true, if_false]

/-- The agreement that a range of revisions leads to (R318). -/
def Func.negotiated (g : Func) : Func :=
  if g.ahiRange.toNat % 65536 ≤ 0x0100 ∧ 0x0100 ≤ g.ahiRange.toNat / 65536 % 65536
  then { g with chosen := 0x0100, agree := 2, heldNeg := false } else { g with chosen := 0, agree := 3, heldNeg := false }

theorem State.settleAhi_eq (s : State) (f : Nat) : s.settleAhi f = s.updFn f Func.negotiated := by
  rw [State.settleAhi]
  refine congrArg (s.updFn f) (funext fun g => ?_)
  have hlo : fld g.ahiRange.toNat 0 16 = g.ahiRange.toNat % 65536 := by simp [fld]
  have hhi : fld g.ahiRange.toNat 16 16 = g.ahiRange.toNat / 65536 % 65536 := by simp [fld, Nat.shiftRight_eq_div_pow]
  simp only [hlo, hhi, Func.negotiated]

theorem exec_enable (hf : f < 256) (hready : s.ready = true) (hexists : s.funcExists f = true) (hoff : (s.fn f).enable = false) (hok : s.enableOk f = true) :
    exec (.enable f) s = .next (s.updFn f fun g =>
      { g with enable := true, evOn := true, adminHead := 0, adminTail := 0, evSeq := 0, evRead := 0, moder := {} }) := by
  change execEnable f s = _
  simp only [execEnable, if_neg (Nat.not_le.2 hf), hready, hexists, hoff, hok, Bool.not_true, Bool.or_self, Bool.false_eq_true, if_false, if_true]

theorem exec_functionDisable (hf : f < 256) (hready : s.ready = true) (hexists : s.funcExists f = true) :
    exec (.functionDisable f) s = .next (s.updFn f fun g => { g with enable := false }) := by
  change execFunctionDisable f s = _
  simp only [execFunctionDisable, if_neg (Nat.not_le.2 hf), hready, hexists, Bool.not_true, Bool.or_self, Bool.false_eq_true, if_false]
end

/-! ### Configuration requests -/

/-- A function that is there may be asked for its configuration. -/
structure State.Answers (s : State) (f : Nat) : Prop where
  number : f < 256
  porst : s.pins.porstN = true
  present : s.funcExists f = true

section
variable {s : State} {f : Nat}

theorem State.Answers.cfgAnswers (h : s.Answers f) : s.cfgAnswers f = true := by
  rw [State.cfgAnswers, if_neg (by have := h.number; omega), h.present]

theorem exec_configRequest_early (h : s.Answers f) (hconfig : s.hub.configReady = false) (op : ConfigOp) :
    exec (.configRequest f op) s = .next { s with out := s.out ++ [.cfgRetry f] } := by
  change execConfigRequest f op s = _
  simp only [execConfigRequest, if_neg (Nat.not_lt.2 h.number.le), h.porst, h.cfgAnswers, hconfig, Bool.not_true, Bool.not_false, Bool.or_self,
    Bool.false_eq_true, if_false, if_true]
  rfl

theorem exec_configRequest_read (h : s.Answers f) (hconfig : s.hub.configReady = true) (off : Nat) :
    exec (.configRequest f (.read off)) s = .next { s with free := s.free + 1, out := s.out ++ [.cfgData f off (s.cfgRead f off)] } := by
  change execConfigRequest f (.read off) s = _
  simp only [execConfigRequest, if_neg (Nat.not_lt.2 h.number.le), h.porst, h.cfgAnswers, hconfig, Bool.not_true, Bool.or_self, Bool.false_eq_true, if_false]
  rfl

theorem exec_configRequest_field (h : s.Answers f) (hconfig : s.hub.configReady = true) (g : CfgField) :
    exec (.configRequest f (.field g)) s = .next { s with out := s.out ++ [.cfgField f g (s.cfgField f g)] } := by
  change execConfigRequest f (.field g) s = _
  simp only [execConfigRequest, if_neg (Nat.not_lt.2 h.number.le), h.porst, h.cfgAnswers, hconfig, Bool.not_true, Bool.or_self, Bool.false_eq_true, if_false]
  rfl

/-- What R311 fixes of a function. -/
theorem State.cfgField_eq {v : Nat} {g : CfgField} (hf : f < 256)
    (h : (g, v) ∈ [(CfgField.bar0Size, if f = 0 then 2 ^ 20 else 2 ^ 17), (.bar2Size, 2 ^ 23), (.msixSize, if f = 0 then 2048 else 64), (.hasMsix, 1),
        (.hasSriov, if f = 0 then 1 else 0), (.hasAer, 1), (.totalVfs, if f = 0 then 255 else 0), (.firstVfOffset, if f = 0 then 1 else 0),
        (.vfStride, if f = 0 then 1 else 0)]) : s.cfgField f g = v := by
  simp only [List.mem_cons, Prod.mk.injEq, List.not_mem_nil, or_false] at h
  have hvf : ¬ 256 ≤ f := by omega
  rcases h with ⟨rfl, rfl⟩ | ⟨rfl, rfl⟩ | ⟨rfl, rfl⟩ | ⟨rfl, rfl⟩ | ⟨rfl, rfl⟩ | ⟨rfl, rfl⟩ | ⟨rfl, rfl⟩ | ⟨rfl, rfl⟩ | ⟨rfl, rfl⟩
  case inr.inr.inr.inr.inl => cases f <;> simp [State.cfgField, b2n, hvf]
  all_goals simp only [State.cfgField, if_neg hvf, msixSize]
end

/-! ### Messages that masking held back -/

/-- One pending message leaves. -/
def State.sendOne (f : Nat) (s : State) (k : Nat) : State :=
  { s with msix := s.msix.upd {} k fun e => { e with pending := false } }.emit (.msix f (k % 2048))

theorem State.sendOne_pending (f : Nat) (s : State) (j k : Nat) (h : (s.msix.get {} k).pending = false ∨ j = k) :
    ((s.sendOne f j).msix.get {} k).pending = false := by
  change ((s.msix.upd {} j fun e => { e with pending := false }).get {} k).pending = false
  by_cases hjk : k = j
  · subst hjk
    rw [Tbl.get_upd_same]
  · rw [Tbl.get_upd_ne _ _ _ hjk]
    exact h.resolve_right fun h => hjk h.symm

/-- Each of the listed messages leaves, and none is pending then. -/
theorem State.foldl_sendOne (f : Nat) (ks : List Nat) (s : State) : (∃ es, (ks.foldl (State.sendOne f) s).out = s.out ++ es)
    ∧ ∀ k, (k ∈ ks → .msix f (k % 2048) ∈ (ks.foldl (State.sendOne f) s).out)
      ∧ (k ∈ ks ∨ (s.msix.get {} k).pending = false → ((ks.foldl (State.sendOne f) s).msix.get {} k).pending = false) := by
  induction ks generalizing s with
  | nil => exact ⟨⟨[], (List.append_nil _).symm⟩, fun k => ⟨fun h => absurd h List.not_mem_nil, fun h => h.resolve_left List.not_mem_nil⟩⟩
  | cons j ks ih =>
    obtain ⟨⟨es, hout⟩, hall⟩ := ih (s.sendOne f j)
    have hfirst : (s.sendOne f j).out = s.out ++ [.msix f (j % 2048)] := rfl
    refine ⟨⟨.msix f (j % 2048) :: es, ?_⟩, fun k => ⟨fun hk => ?_, fun hk => ?_⟩⟩
    · rw [List.foldl_cons, hout, hfirst, List.append_assoc]
      rfl
    · rw [List.foldl_cons]
      rcases List.mem_cons.1 hk with rfl | hk
      · rw [hout, hfirst]
        simp
      · exact (hall k).1 hk
    · rw [List.foldl_cons]
      rw [List.mem_cons] at hk
      refine (hall k).2 ?_
      by_cases hks : k ∈ ks
      · exact .inl hks
      · refine .inr (State.sendOne_pending f s j k ?_)
        rcases hk with (hkj | hk) | hk
        · exact .inr hkj.symm
        · exact absurd hk hks
        · exact .inl hk

theorem State.foldl_sendOne_masks (f : Nat) (ks : List Nat) (s : State) : (ks.foldl (State.sendOne f) s).msixEnable = s.msixEnable
    ∧ (ks.foldl (State.sendOne f) s).msixMask = s.msixMask :=
  ⟨foldl_keeps State.msixEnable (f := State.sendOne f) (fun _ _ => rfl) ks s, foldl_keeps State.msixMask (f := State.sendOne f) (fun _ _ => rfl) ks s⟩

/-- The entries of a function whose messages masking alone holds back. -/
def State.heldBack (s : State) (f : Nat) : List Nat :=
  s.msix.keysWhere fun k e => k / 2048 == f && decide (k % 2048 < s.ownedVectors f) && e.pending && !e.control.getLsbD 0

theorem State.sendPending_eq (s : State) (f : Nat) : s.sendPending f
    = if !s.msixEnable.get false f || s.msixMask.get false f then s else (s.heldBack f).foldl (State.sendOne f) s := rfl

theorem setsMsix (s : State) (f : Nat) (en masked : Bool) (h : s.Answers f) (hconfig : s.hub.configReady = true) :
    Yields (.configRequest f (.setMsix en masked)) s fun t => t.msixEnable.get false f = en ∧ t.msixMask.get false f = masked
      ∧ (en = true → masked = false → ∀ k, k / 2048 = f → k % 2048 < s.ownedVectors f → (s.msix.get {} k).pending = true → (s.msix.get {} k).control.getLsbD 0 = false →
          (t.msix.get {} k).pending = false ∧ .msix f (k % 2048) ∈ t.out) := by
  have hexec : exec (.configRequest f (.setMsix en masked)) s
      = .next (State.sendPending { s with msixEnable := s.msixEnable.set false f en, msixMask := s.msixMask.set false f masked } f) := by
    change execConfigRequest f (.setMsix en masked) s = _
    simp only [execConfigRequest, if_neg (Nat.not_lt.2 h.number.le), h.porst, h.cfgAnswers, hconfig, Bool.not_true, Bool.or_self, Bool.false_eq_true, if_false,
      if_neg (show ¬ f = 256 from h.number.ne)]
  refine .of_next hexec ?_
  have hen := Tbl.get_set_same false s.msixEnable f en
  have hmask := Tbl.get_set_same false s.msixMask f masked
  generalize hu : ({ s with msixEnable := s.msixEnable.set false f en, msixMask := s.msixMask.set false f masked } : State) = u
  have hmsix : u.msix = s.msix := by rw [← hu]
  have howned : u.ownedVectors f = s.ownedVectors f := by rw [← hu]; rfl
  have henU : u.msixEnable.get false f = en := by rw [← hu]; exact hen
  have hmaskU : u.msixMask.get false f = masked := by rw [← hu]; exact hmask
  obtain ⟨hkeptEn, hkeptMask⟩ := State.foldl_sendOne_masks f (u.heldBack f) u
  rw [State.sendPending_eq]
  split
  next hstay =>
    refine ⟨henU, hmaskU, fun hon hoff => ?_⟩
    rw [henU, hmaskU, hon, hoff] at hstay
    exact absurd hstay (by decide)
  next =>
    refine ⟨by rw [hkeptEn]; exact henU, by rw [hkeptMask]; exact hmaskU, fun _ _ k hkf hk hpending hunmasked => ?_⟩
    have hmem : k ∈ u.heldBack f := Tbl.mem_keysWhere (d := {}) (by simp) (by
      simp only [howned, hmsix, hkf, hk, hpending, hunmasked, BEq.rfl, decide_true, Bool.not_false, Bool.and_self])
    obtain ⟨-, hall⟩ := State.foldl_sendOne f (u.heldBack f) u
    exact ⟨(hall k).2 (.inl hmem), (hall k).1 hmem⟩

theorem setsVfs (s : State) (en : Bool) (n : Nat) (hporst : s.pins.porstN = true) (hconfig : s.hub.configReady = true) (hn : n ≤ 255) :
    Yields (.configRequest 0 (.setVfs en n)) s fun t => t.vfEnable = en ∧ t.numVfs = n := by
  have h : s.Answers 0 := ⟨by decide, hporst, rfl⟩
  have hexec : exec (.configRequest 0 (.setVfs en n)) s = .next (s.setVfs en n) := by
    change execConfigRequest 0 (.setVfs en n) s = _
    simp only [execConfigRequest, if_neg (Nat.not_lt.2 h.number.le), h.porst, h.cfgAnswers, hconfig, Bool.not_true, Bool.or_self, Bool.false_eq_true, if_false,
      true_and, if_pos hn]
  exact .of_next hexec ⟨rfl, rfl⟩

/-- Settles O34: each row of a function's registers and configuration space by its equation. -/
theorem functions : Obligations.Functions := by
  refine ⟨?_, ?_, ?_, ?_, ?_, ?_, ?_, setsVfs, ?_⟩
  · intro s f hf hready hconfig hexists hoff hctxs
    rw [exec_negotiate_ready hf hready hconfig hexists hoff hctxs, State.settleAhi_eq]
    rfl
  · exact fun s f hf hporst hconfig hstage hlost hexists hoff hctxs => exec_negotiate_held hf hporst hconfig hstage hlost hexists hoff hctxs
  · intro s f hf hready hexists hoff hagree hlo hhi helo hehi hvec
    refine exec_enable hf hready hexists hoff ?_
    have hfevt : fld (s.fn f).fevtCfg.toNat 0 5 = (s.fn f).fevtCfg.toNat % 32 := by simp [fld]
    have hadmin : fld (s.fn f).adminCfg.toNat 16 11 = (s.fn f).adminCfg.toNat / 65536 % 2048 := by simp [fld, Nat.shiftRight_eq_div_pow]
    simp [State.enableOk, hfevt, hadmin, hagree, hlo, hhi, helo, hehi, hvec]
  · exact fun s f hf hready hexists => exec_functionDisable hf hready hexists
  · exact fun s f op hf hporst hexists hconfig => exec_configRequest_early ⟨hf, hporst, hexists⟩ hconfig op
  · intro s f hf hporst hexists hconfig
    rw [exec_configRequest_read ⟨hf, hporst, hexists⟩ hconfig, State.cfgRead, if_pos rfl]
  · intro s f v g hf hporst hexists hconfig hg
    rw [exec_configRequest_field ⟨hf, hporst, hexists⟩ hconfig, State.cfgField_eq hf hg]
  · exact fun s f en masked hf hporst hexists hconfig => setsMsix s f en masked ⟨hf, hporst, hexists⟩ hconfig

end Sys2Proof.Machine
end

section
/-! PARTITIONS AND QUOTAS (O35). -/

namespace Sys2Proof.Machine

/-! ### What the masks leave of a partition -/

/-- Marks in every partition's record keep what else is said of each. -/
theorem State.foldl_updPt_keeps {β : Type} (F : Partition → β) (g : State → Nat → Partition → Partition) (hg : ∀ s p x, F (g s p x) = F x) (ps : List Nat)
    (s : State) (q : Nat) : F ((ps.foldl (fun s p => s.updPt p (g s p)) s).pt q) = F (s.pt q) := by
  refine foldl_keeps (fun s => F (s.pt q)) (fun s p => ?_) ps s
  rw [State.updPt_at]
  split
  next h => rw [hg, h]
  next => rfl

theorem pt_of_parts {s t : State} (h : t.parts = s.parts) (p : Nat) : t.pt p = s.pt p := by rw [State.pt, h, State.pt]

theorem State.devChangeAll_pt (s : State) (off p : Nat) : (s.devChangeAll off).pt p = s.pt p := pt_of_parts (s.devChangeAll_only off .parts (by decide)) p

/-- A partition but for BELOW. -/
def Partition.butBelow (p : Partition) : Partition := { p with below := false }

theorem State.refreshBelow_pt (s : State) (p : Nat) : (s.refreshBelow.pt p).butBelow = (s.pt p).butBelow := by
  have hfold := State.foldl_updPt_keeps Partition.butBelow (fun s p q => { q with below := s.isBelow p }) (fun _ _ _ => rfl) (List.range 16) s p
  simp only [State.refreshBelow]
  split
  · exact hfold
  · rw [State.devChangeAll_pt]
    exact hfold

/-- A partition but for OVERSUB. -/
def Partition.butOversub (p : Partition) : Partition := { p with oversub := false }

theorem State.refreshOversub_pt (s : State) (p : Nat) : (s.refreshOversub.pt p).butOversub = (s.pt p).butOversub := by
  have hfold := State.foldl_updPt_keeps Partition.butOversub (fun s p q => { q with oversub := s.isOversub p }) (fun _ _ _ => rfl) (List.range 16) s p
  simp only [State.refreshOversub]
  split
  · exact hfold
  · rw [State.devChangeAll_pt]
    exact hfold

theorem Partition.cfg_of_butBelow {p q : Partition} (h : p.butBelow = q.butBelow) : p.cfg = q.cfg := by
  have hcfg := congrArg Partition.cfg h
  exact hcfg

theorem Partition.rt_of_butBelow {p q : Partition} (h : p.butBelow = q.butBelow) : p.rt = q.rt := by
  have hrt := congrArg Partition.rt h
  exact hrt

theorem Partition.sluice_of_butOversub {p q : Partition} (h : p.butOversub = q.butOversub) (r : SluiceRes) : p.sluice r = q.sluice r := by
  have hr := congrArg (Partition.sluice · r) h
  cases r <;> exact hr

theorem Partition.sluice_setSluice (p : Partition) (w : Word) (r x : SluiceRes) : (p.setSluice w r).sluice x = if x = r then w else p.sluice x := by
  cases r <;> cases x <;> rfl

/-! ### The writes -/

section
variable {s : State} {p v : Nat}

/-- Nothing stands against a write of a partition's set-up. -/
theorem State.unheld (h : ∀ e ∈ s.ctxs, e.2.life ≠ .free → e.2.part ≠ p) : (s.ctxs.any fun e => e.2.life != .free && e.2.part == p) = false := by
  rw [List.any_eq_false]
  intro e he hheld
  rw [Bool.and_eq_true, bne_iff_ne, beq_iff_eq] at hheld
  exact h e he hheld.1 hheld.2

theorem untaken {g : Nat → Nat} (h : ∀ q < 16, q ≠ p → g q = 0) : ((List.range 16).any fun q => q != p && g q != 0) = false := by
  rw [List.any_eq_false]
  intro q hq htaken
  rw [Bool.and_eq_true, bne_iff_ne, bne_iff_ne] at htaken
  exact htaken.2 (h q (List.mem_range.1 hq) htaken.1)

theorem fld_zero (v n : Nat) : fld v 0 n = v % 2 ^ n := by rw [fld, Nat.shiftRight_zero]

theorem exec_hifPartCfgWrite (hp : p < 16) (hready : s.ready = true) (hfree : ∀ e ∈ s.ctxs, e.2.life ≠ .free → e.2.part ≠ p)
    (hothers : ∀ q < 16, q ≠ p → fld v 0 60 &&& (s.pt q).groups = 0) :
    exec (.hifPartCfgWrite p v) s = .next (s.updPt p fun q => { q with cfg := BitVec.ofNat 64 (v % 2 ^ 62) }).refreshBelow := by
  have hgroups : fld (fld v 0 62) 0 60 = fld v 0 60 := by
    rw [fld_zero, fld_zero, fld_zero]
    exact Nat.mod_mod_of_dvd v ⟨4, rfl⟩
  change execHifPartCfgWrite p v s = _
  simp only [execHifPartCfgWrite, if_neg (Nat.not_le.2 hp), hready, State.unheld hfree, hgroups,
    untaken (g := fun q => fld v 0 60 &&& (s.pt q).groups) hothers, Bool.not_true, Bool.or_self, Bool.false_eq_true, if_false]
  rw [fld_zero]

theorem exec_hifPartRegionsWrite (hp : p < 16) (hready : s.ready = true) (hfree : ∀ e ∈ s.ctxs, e.2.life ≠ .free → e.2.part ≠ p)
    (hothers : ∀ q < 16, q ≠ p → fld v 0 40 &&& (s.pt q).regions.toNat = 0) :
    exec (.hifPartRegionsWrite p v) s = .next (s.updPt p fun q => { q with regions := BitVec.ofNat 64 (v % 2 ^ 40) }) := by
  change execHifPartRegionsWrite p v s = _
  simp only [execHifPartRegionsWrite, if_neg (Nat.not_le.2 hp), hready, State.unheld hfree,
    untaken (g := fun q => fld v 0 40 &&& (s.pt q).regions.toNat) hothers, Bool.not_true, Bool.or_self, Bool.false_eq_true, if_false]
  rw [fld_zero]

theorem exec_hifPartRtWrite (hp : p < 16) (hready : s.ready = true) (hheld : s.holdsAdmitted p = false) (hlo : 2 ≤ v % 8) (hhi : v % 8 ≤ 4) :
    exec (.hifPartRtWrite p v) s = .next (s.updPt p fun q => { q with rt := BitVec.ofNat 64 (v % 8 + 2 ^ 8 * fld v 8 12) }).refreshBelow := by
  have hop : fld v 0 3 = v % 8 := fld_zero v 3
  change execHifPartRtWrite p v s = _
  simp only [execHifPartRtWrite, if_neg (Nat.not_le.2 hp), hready, hheld, hop, decide_eq_false (Nat.not_lt.2 hlo), decide_eq_false (Nat.not_lt.2 hhi),
    Bool.not_true, Bool.or_self, Bool.false_eq_true, if_false]

theorem exec_sluiceWrite {r : SluiceRes} {w : Word} (hp : p < 16) (hready : s.ready = true) (hheld : s.holdsAdmitted p = false)
    (hw : w = BitVec.ofNat 64 (fld v 0 25 + 2 ^ 32 * fld v 32 24)) (hlo : sluRate w ≤ sluDepth w) (hhi : sluDepth w ≤ 16 * sluRate w)
    (hsum : (((List.range 16).filter (· != p)).map fun q => sluRate ((s.pt q).sluice r)).sum + sluRate w ≤ s.sluiceG r) :
    exec (.sluiceWrite p r v) s = .next (s.updPt p fun q => q.setSluice w r).refreshOversub := by
  change execSluiceWrite p r v s = _
  simp only [execSluiceWrite, if_neg (Nat.not_le.2 hp), hready, hheld, Bool.not_true, Bool.false_eq_true, if_false, ← hw, and_false, or_false]
  rw [if_neg (by omega)]

theorem Func.quiet_vfCfg (g : Func) : g.quiet.vfCfg = g.vfCfg := rfl

theorem State.devChange_vfCfg (s : State) (off : Nat) (fs : List Nat) (g : Nat) : ((s.devChange off fs).fn g).vfCfg = (s.fn g).vfCfg := by
  refine foldl_keeps (fun s => (s.fn g).vfCfg) (fun s f => ?_) fs s
  have hquiet := congrArg Func.vfCfg (s.funcEvent_quiet f { kind := 5, value := off } g)
  rwa [Func.quiet_vfCfg, Func.quiet_vfCfg] at hquiet

/-- The bits of a VF's vectors are not reserved. -/
theorem fld_vfCfgMask (v : Nat) : fld (vfCfgMask v) 32 7 = fld v 32 7 := by
  have h0 : fld v 0 9 < 2 ^ 9 := Nat.mod_lt _ (by decide)
  have h1 : fld v 16 11 < 2 ^ 11 := Nat.mod_lt _ (by decide)
  have h2 : fld v 32 7 < 2 ^ 7 := Nat.mod_lt _ (by decide)
  rw [vfCfgMask, fld, Nat.shiftRight_eq_div_pow]
  omega

theorem State.dropPending_funcs (s : State) (f : Nat) : (s.dropPending f).funcs = s.funcs := rfl

theorem exec_hifVfCfgWrite (hp : 1 ≤ p ∧ p < 256) (hready : s.ready = true) (hctxs : s.ctxsOf p = [])
    (hrings : ∀ e ∈ s.rings, e.2.live = true → (s.cx e.2.ctx).func ≠ p) (hroom : 2048 - s.ownedVectors 0 - s.vfVectors p + fld v 32 7 ≤ 2048) :
    ∃ u : State, u.funcs = (s.updFn p fun g => { g with vfCfg := BitVec.ofNat 64 (vfCfgMask v) }).funcs
      ∧ exec (.hifVfCfgWrite p v) s = .next (if fld (s.fn p).vfCfg.toNat 32 7 = fld v 32 7
          then (if (s.fn p).vfCfg.toNat = vfCfgMask v then u else u.devChange 0x200 [p])
          else (if (s.fn p).vfCfg.toNat = vfCfgMask v then u else u.devChange 0x200 [p]).devChange 0x200 [0]) := by
  have hnone : (s.rings.any fun e => e.2.live && (s.cx e.2.ctx).func == p) = false := by
    rw [List.any_eq_false]
    intro e he hlive
    rw [Bool.and_eq_true, beq_iff_eq] at hlive
    exact hrings e he hlive.1 hlive.2
  have hfits : decide (2048 < 2048 - s.ownedVectors 0 - s.vfVectors p + fld v 32 7) = false := decide_eq_false (Nat.not_lt.2 hroom)
  have hvf : ¬ (p < 1 ∨ 256 ≤ p) := by omega
  refine ⟨((s.updFn p fun g => { g with vfCfg := BitVec.ofNat 64 (vfCfgMask v) }).dropPending p).dropPending 0,
    ((State.dropPending_funcs _ 0).trans (State.dropPending_funcs _ p)), ?_⟩
  change execHifVfCfgWrite p v s = _
  simp only [execHifVfCfgWrite, if_neg hvf, hready, hctxs, hnone, fld_vfCfgMask, hfits, List.isEmpty_nil, Bool.not_true, Bool.or_self, Bool.false_eq_true,
    if_false]
end

theorem vfConfigured (s : State) (f v : Nat) (hlo : 1 ≤ f) (hf : f < 256) (hready : s.ready = true) (hctxs : s.ctxsOf f = [])
    (hrings : ∀ e ∈ s.rings, e.2.live = true → (s.cx e.2.ctx).func ≠ f) (hroom : 2048 - s.ownedVectors 0 - s.vfVectors f + fld v 32 7 ≤ 2048) :
    Yields (.hifVfCfgWrite f v) s fun t => (t.fn f).vfCfg = BitVec.ofNat 64 (vfCfgMask v) ∧ ∀ g, g ≠ f → (t.fn g).vfCfg = (s.fn g).vfCfg := by
  obtain ⟨u, hu, hexec⟩ := exec_hifVfCfgWrite ⟨hlo, hf⟩ hready hctxs hrings hroom
  refine .of_next hexec ?_
  have hfirst : ∀ g, ((if (s.fn f).vfCfg.toNat = vfCfgMask v then u else u.devChange 0x200 [f]).fn g).vfCfg = (u.fn g).vfCfg := fun g => by
    split
    · rfl
    · exact u.devChange_vfCfg 0x200 [f] g
  generalize (if (s.fn f).vfCfg.toNat = vfCfgMask v then u else u.devChange 0x200 [f]) = w at hfirst
  have hkept : ∀ g, ((if fld (s.fn f).vfCfg.toNat 32 7 = fld v 32 7 then w else w.devChange 0x200 [0]).fn g).vfCfg = (u.fn g).vfCfg := fun g => by
    split
    · exact hfirst g
    · exact (w.devChange_vfCfg 0x200 [0] g).trans (hfirst g)
  refine ⟨?_, fun g hg => ?_⟩
  · rw [hkept, fn_of_funcs hu, State.updFn_same]
  · rw [hkept, fn_of_funcs hu, State.updFn_ne _ _ _ hg]

/-- Settles O35: each set-up register by what stands against its write. -/
theorem partitions : Obligations.Partitions := by
  refine ⟨?_, vfConfigured, ?_, ?_, ?_⟩
  · intro s p v hp hready hfree hothers
    refine .of_next (exec_hifPartCfgWrite hp hready hfree hothers) ⟨?_, fun q hq => ?_⟩
    · rw [Partition.cfg_of_butBelow (State.refreshBelow_pt _ p), State.updPt_same]
    · rw [Partition.cfg_of_butBelow (State.refreshBelow_pt _ q), State.updPt_ne _ _ _ hq]
  · exact fun s p v hp hready hfree hothers => exec_hifPartRegionsWrite hp hready hfree hothers
  · intro s p v hp hready hheld hlo hhi
    have hrt : ((s.updPt p fun q => { q with rt := BitVec.ofNat 64 (v % 8 + 2 ^ 8 * fld v 8 12) }).refreshBelow.pt p).rt
        = BitVec.ofNat 64 (v % 8 + 2 ^ 8 * fld v 8 12) := by
      rw [Partition.rt_of_butBelow (State.refreshBelow_pt _ p), State.updPt_same]
    refine .of_next (exec_hifPartRtWrite hp hready hheld hlo hhi) ⟨?_, hrt⟩
    have hmask : fld v 8 12 < 2 ^ 12 := Nat.mod_lt _ (by decide)
    rw [Partition.admitOp, hrt, fld_zero, BitVec.toNat_ofNat]
    omega
  · intro s p v r w hp hready hheld hw hlo hhi hsum
    refine .of_next (exec_sluiceWrite hp hready hheld hw hlo hhi hsum) ⟨?_, fun q x hqx => ?_⟩
    · rw [Partition.sluice_of_butOversub (State.refreshOversub_pt _ p), State.updPt_same, Partition.sluice_setSluice, if_pos rfl]
    · rw [Partition.sluice_of_butOversub (State.refreshOversub_pt _ q), State.updPt_at]
      split
      next hq => rw [Partition.sluice_setSluice, if_neg (hqx.resolve_left (fun h => h hq)), hq]
      next => rfl

end Sys2Proof.Machine
end

section
/-! THE LOG AND TELEMETRY (O40). -/

namespace Sys2Proof.Machine

/-! ### The first-failure region in the circular region -/

/-- A place where nothing is put keeps its entry. -/
theorem Tbl.get_foldl_put_ne {α β : Type} (d : α) (key : β → Nat) (val : β → α) {xs : List β} {k : Nat} (t : Tbl α) (hk : ∀ x ∈ xs, key x ≠ k) :
    Tbl.get d (xs.foldl (fun t x => Tbl.put t (key x) (val x)) t) k = Tbl.get d t k := by
  induction xs generalizing t with
  | nil => rfl
  | cons x xs ih =>
    rw [List.foldl_cons, ih _ fun y hy => hk y (List.mem_cons_of_mem x hy), Tbl.get_put_ne d t _ (hk x List.mem_cons_self).symm]

/-- Entries put at distinct places stand there. -/
theorem Tbl.get_foldl_put {α β : Type} (d : α) (key : β → Nat) (val : β → α) {xs : List β} (t : Tbl α) (hnd : (xs.map key).Nodup) {x : β} (hx : x ∈ xs) :
    Tbl.get d (xs.foldl (fun t x => Tbl.put t (key x) (val x)) t) (key x) = val x := by
  induction xs generalizing t with
  | nil => cases hx
  | cons y ys ih =>
    rw [List.map_cons, List.nodup_cons] at hnd
    obtain ⟨hy, hnd'⟩ := hnd
    rw [List.foldl_cons]
    rcases List.mem_cons.mp hx with rfl | hys
    · rw [Tbl.get_foldl_put_ne d key val _ fun z hz he => hy (List.mem_map.mpr ⟨z, hz, he⟩), Tbl.get_put_same]
    · exact ih _ hnd' hys

/-- Where CLEAR_FF puts the record of a first-failure slot (R511). -/
def ffPlace (wpos i : Nat) : Nat := (wpos / 1024 + 1 + i / 1024) % 112 * 1024 + i % 1024

theorem ffPlace_inj {w i j : Nat} (hi : i < 16384) (hj : j < 16384) (h : ffPlace w i = ffPlace w j) : i = j := by
  simp only [ffPlace] at h
  omega

/-- The first-failure slots have a place of their own each. -/
theorem nodup_ffPlaces {l : List LogRec} (w : Nat) (hl : l.length ≤ 16384) : (l.zipIdx.map fun e => ffPlace w e.2).Nodup := by
  have hslots : (l.zipIdx.map fun e => ffPlace w e.2) = (List.range l.length).map (ffPlace w) := by
    rw [show (fun e : LogRec × Nat => ffPlace w e.2) = ffPlace w ∘ Prod.snd from rfl, ← List.map_map, List.zipIdx_map_snd, List.range_eq_range']
  rw [hslots]
  refine List.nodup_range.map_on fun i hi j hj h => ffPlace_inj ?_ ?_ h
  · exact (List.mem_range.mp hi).trans_le hl
  · exact (List.mem_range.mp hj).trans_le hl

theorem BitLog.clearFf_circ {l : BitLog} (hlen : l.ff.length ≤ 16384) {i : Nat} {r : LogRec} (hr : l.ff[i]? = some r) :
    l.clearFf.circ.get {} (ffPlace l.wpos i) = r :=
  Tbl.get_foldl_put {} (fun e : LogRec × Nat => ffPlace l.wpos e.2) Prod.fst _ (nodup_ffPlaces l.wpos hlen) (x := (r, i)) (List.mem_zipIdx_iff_getElem?.mpr hr)

/-! ### The coalescing window -/

/-- What sealing and queueing keep of the log. -/
def BitLog.coalescing (l : BitLog) : List CoalKey × Nat := (l.table, l.window)

theorem State.push_coalescing (s : State) (r : LogRec) : (s.push r).log.coalescing = s.log.coalescing := by
  simp only [State.push]
  split
  · rfl
  · split <;> rfl

theorem State.push_time (s : State) (r : LogRec) : (s.push r).time = s.time := by
  simp only [State.push]
  split
  · rfl
  · split <;> rfl

theorem State.flushCoalesced_coalescing (s : State) : s.flushCoalesced.log.coalescing = ([], s.log.window) :=
  foldl_keeps (f := State.push) (fun s => s.log.coalescing) State.push_coalescing _ _

theorem State.flushCoalesced_time (s : State) : s.flushCoalesced.time = s.time := foldl_keeps (f := State.push) State.time State.push_time _ _

/-- The state at the end of the coalescing minute, its number counted on. -/
def State.minuteOver (s : State) (len : Nat) : State :=
  { s.atTime ((s.log.window + 1) * len) with log := { s.log with window := (s.atTime ((s.log.window + 1) * len)).time.now / len } }

theorem exec_coalescingWindowEnd {s : State} (hup : s.hubUp = true) :
    exec .coalescingWindowEnd s = .next (s.minuteOver 60000000000).flushCoalesced := by
  change execCoalescingWindowEnd s = _
  rw [execCoalescingWindowEnd, hup]
  simp only [Bool.not_true, Bool.false_eq_true, if_false, State.endWindow]
  generalize 60000000000 = n
  rfl

theorem coalescingWindow {s : State} (hup : s.hubUp = true) :
    Yields .coalescingWindowEnd s fun t => t.log.table = [] ∧ t.time.now = max s.time.now ((s.log.window + 1) * 60000000000)
      ∧ t.log.window = t.time.now / 60000000000 := by
  have hcoalescing := (s.minuteOver 60000000000).flushCoalesced_coalescing
  have htime := (s.minuteOver 60000000000).flushCoalesced_time
  refine Yields.of_next (exec_coalescingWindowEnd hup) ?_
  generalize (s.minuteOver 60000000000).flushCoalesced = t at hcoalescing htime ⊢
  have htable : t.log.table = [] := congrArg Prod.fst hcoalescing
  have hwindow : t.log.window = (s.minuteOver 60000000000).log.window := congrArg Prod.snd hcoalescing
  rw [htime, hwindow]
  generalize 60000000000 = n
  exact ⟨htable, rfl, rfl⟩

/-! ### The writer and telemetry -/

theorem exec_logWrite {s : State} (hup : s.hubUp = true) {r : LogRec} {q : List LogRec} (hq : s.log.queue = r :: q) (hdropped : s.log.dropped = 0) :
    exec .logWrite s = .next ({ s with log := { s.log with queue := q } }.seal r) := by
  change execLogWrite s = _
  simp only [execLogWrite, hq, hup, Bool.not_true, Bool.false_eq_true, if_false]
  exact if_neg (by rw [show (({ s with log := { s.log with queue := q } } : State).seal r).log.dropped = s.log.dropped from rfl, hdropped]; decide)

/-- A record sealed by the writer stands at the write position with the next sequence number (R508, R509). -/
theorem logWrite {s : State} (hup : s.hubUp = true) {r : LogRec} {q : List LogRec} (hq : s.log.queue = r :: q) (hdropped : s.log.dropped = 0) :
    Yields .logWrite s fun t => t.log.queue = q ∧ t.log.nextSeq = (s.log.nextSeq + 1) % 2 ^ 32 ∧ t.log.wpos = (s.log.wpos + 1) % 114688
      ∧ t.log.circ.get {} s.log.wpos = { r with seq := s.log.nextSeq }
      ∧ t.log.ff = (if 2 ≤ r.cls ∧ s.log.ff.length < 16384 then s.log.ff ++ [{ r with seq := s.log.nextSeq }] else s.log.ff) := by
  refine Yields.of_next (exec_logWrite hup hq hdropped) ⟨rfl, rfl, rfl, Tbl.get_put_same _ _ _ _, ?_⟩
  exact if_congr (by rw [Bool.and_eq_true, decide_eq_true_eq, decide_eq_true_eq]; rfl) rfl rfl

/-- Telemetry with a set-up register of a given number. -/
def Telem.withCfg (t : Telem) (n : Nat) : Telem := { t with cfg := BitVec.ofNat 64 n }

theorem Telem.withCfg_log2 (t : Telem) (v : Nat) : (t.withCfg (v % 2 ^ 31 + 2 ^ 31)).log2 = v % 32 := by
  simp only [Telem.withCfg, Telem.log2, fld, BitVec.toNat_ofNat, Nat.shiftRight_eq_div_pow]
  omega

theorem Telem.withCfg_period (t : Telem) (v : Nat) : (t.withCfg (v % 2 ^ 31 + 2 ^ 31)).period = v / 32 % 2 ^ 14 := by
  simp only [Telem.withCfg, Telem.period, fld, BitVec.toNat_ofNat, Nat.shiftRight_eq_div_pow]
  omega

theorem Telem.withCfg_vector (t : Telem) (v : Nat) : (t.withCfg (v % 2 ^ 31 + 2 ^ 31)).vector = v / 2 ^ 19 % 2 ^ 11 := by
  simp only [Telem.withCfg, Telem.vector, fld, BitVec.toNat_ofNat, Nat.shiftRight_eq_div_pow]
  omega

/-- A telemetry set-up in range (R515). -/
def Telem.inRange (t : Telem) (vectors : Nat) : Prop := 6 ≤ t.log2 ∧ t.log2 ≤ 16 ∧ 1 ≤ t.period ∧ t.period ≤ 10000 ∧ t.vector < vectors

theorem exec_telemetryEnable {s : State} {v n : Nat} (hready : s.ready = true) (hen : s.telem.en = false) (hn : fld v 0 31 + 2 ^ 31 = n)
    (hrange : (s.telem.withCfg n).inRange (s.ownedVectors 0)) :
    exec (.telemetryEnable v) s = .next { s with telem := { s.telem with cfg := BitVec.ofNat 64 n, seq := 0, pos := 0, readPos := 0 } } := by
  change execTelemetryEnable v s = _
  simp only [execTelemetryEnable, hready, hen, hn, Bool.not_true, Bool.or_self, Bool.false_eq_true, if_false]
  exact if_pos hrange

/-- A sample that finds room goes to the next slot of the ring. -/
theorem exec_telemetrySample_of_room {s : State} (hup : s.hubUp = true) (hlost : s.hub.lost = false) (hen : s.telem.en = true)
    (hroom : cdist 32 s.telem.pos s.telem.readPos ≠ 2 ^ s.telem.log2) :
    exec .telemetrySample s = .next { s.postHost 0 0 (s.telem.base.toNat / 4096 * 4096 + 64 * (s.telem.pos % 2 ^ s.telem.log2)) s.sample with
      telem := { s.telem with seq := (s.telem.seq + 1) % 2 ^ 32, pos := (s.telem.pos + 1) % 2 ^ 32 } } := by
  change execTelemetrySample s = _
  simp only [execTelemetrySample, hup, hen, hlost, hroom, false_and, Bool.and_self, Bool.not_true, Bool.or_self, Bool.false_eq_true, if_false]

/-- A sample that finds the ring full is dropped and counted. -/
theorem exec_telemetrySample_of_full {s : State} (hup : s.hubUp = true) (hlost : s.hub.lost = false) (hen : s.telem.en = true)
    (hfull : cdist 32 s.telem.pos s.telem.readPos = 2 ^ s.telem.log2)
    (hstill : cdist 32 s.telem.pos (s.hostMem.rdLE (s.telem.consumed.toNat / 4 * 4) 4) = 2 ^ s.telem.log2) :
    exec .telemetrySample s = .next { s with telem := { s.telem with
      seq := (s.telem.seq + 1) % 2 ^ 32, readPos := s.hostMem.rdLE (s.telem.consumed.toNat / 4 * 4) 4, overrun := satinc 32 s.telem.overrun } } := by
  change execTelemetrySample s = _
  simp only [execTelemetrySample, hup, hen, hlost, hfull, hstill, le_refl, lt_irrefl, and_self, and_false, if_true, Bool.and_self, Bool.not_true, Bool.or_self,
    Bool.false_eq_true, if_false]

/-- Settles O40: the writer by whether the first-failure region has room, CLEAR_FF by its records, a sample by its slot. -/
theorem logAndTelemetry : Obligations.LogAndTelemetry := by
  refine ⟨fun s r q hup => logWrite hup, fun s => coalescingWindow, ?_, ?_, fun s => exec_telemetrySample_of_room, ?_⟩
  · intro s hup hlen
    refine Yields.of_next (show exec .clearFf s = .next { s with log := s.log.clearFf } from if_pos hup) ⟨rfl, rfl, rfl, fun i r hr => ?_⟩
    exact BitLog.clearFf_circ hlen hr
  · intro s v hready hen hlog2 hlog2' hperiod hperiod' hvector
    refine exec_telemetryEnable hready hen (by rw [fld_zero]) ?_
    rw [Telem.inRange, Telem.withCfg_log2, Telem.withCfg_period, Telem.withCfg_vector]
    exact ⟨hlog2, hlog2', hperiod, hperiod', hvector⟩
  · intro s hup hlost hen hfull hstill
    exact Yields.of_next (exec_telemetrySample_of_full hup hlost hen hfull hstill) ⟨rfl, rfl, rfl, rfl⟩

end Sys2Proof.Machine
end

section
/-! EVENT RINGS (O39). -/

namespace Sys2Proof.Machine

/-! ### A record put into a ring with room -/

theorem State.sendMsix_ctxs (s : State) (f v : Nat) : (s.sendMsix f v).ctxs = s.ctxs :=
  (State.sendMsix_ev (k := false) (l := [.msix]) (.refl _ s) rfl).only .ctxs (by decide)

theorem State.putCtx_time (s : State) (c : Nat) (r : EvRec) : (s.putCtx c r).time = s.time :=
  (State.putCtx_ev (k := false) (l := [.msix, .ctxs]) (.refl _ s) rfl).only .time (by decide)

theorem State.putFunc_time (s : State) (f : Nat) (r : EvRec) : (s.putFunc f r).time = s.time :=
  (State.putFunc_ev (k := false) (l := [.funcs, .msix]) (.refl _ s) rfl).only .time (by decide)

/-- The context whose ring took a record. -/
theorem State.putCtx_cx (s : State) (c : Nat) (r : EvRec) :
    (s.putCtx c r).cx c = { s.cx c with
      evSeq := ((s.cx c).evSeq + 1) % 2 ^ 32, moder := ((s.cx c).moder.after (s.cx c).evModer s.time.now r).1, fullSince := none } := by
  rw [State.putCtx, State.ctxGeom]
  generalize (s.cx c).moder.after _ s.time.now r = p
  obtain ⟨m, send⟩ := p
  cases send with
  | false => exact State.updCx_same _ _ _
  | true => exact (cx_of_ctxs (State.sendMsix_ctxs _ _ _) c).trans (State.updCx_same _ _ _)

/-- A message takes back nothing that was sent. -/
theorem State.mem_sendMsix_out {s : State} {e : OutEvent} (h : e ∈ s.out) (f v : Nat) : e ∈ (s.sendMsix f v).out := by
  obtain ⟨es, hes, -⟩ := (State.sendMsix_ev (k := false) (l := [.msix]) (f := f) (v := v) (.refl _ s) rfl).posted
  rw [hes]
  exact List.mem_append_left es h

/-- Bytes 0 to 27 of the record are posted to its slot (R347). -/
theorem State.putCtx_posts (s : State) (c : Nat) (r : EvRec) :
    .hostWrite 0 (s.cx c).func ((s.cx c).evBase + 32 * ((s.cx c).evSeq % 2 ^ (s.cx c).evLog2)) ((r.bytes (s.cx c).evSeq).take 28) ∈ (s.putCtx c r).out := by
  have hposted : .hostWrite 0 (s.cx c).func ((s.cx c).evBase + 32 * ((s.cx c).evSeq % 2 ^ (s.cx c).evLog2)) ((r.bytes (s.cx c).evSeq).take 28)
      ∈ (s.postRecord (s.ctxGeom c) (s.cx c).evSeq r).out := by
    rw [State.postRecord, State.postHost_out, State.postHost_out]
    exact List.mem_append_left _ (List.mem_append_right _ (List.mem_singleton.mpr rfl))
  rw [State.putCtx]
  generalize (s.cx c).moder.after _ s.time.now r = p
  obtain ⟨m, send⟩ := p
  cases send with
  | false => exact hposted
  | true => exact State.mem_sendMsix_out (s := (s.postRecord (s.ctxGeom c) (s.cx c).evSeq r).updCx c _) hposted _ _

/-- A function's waiting records stay when its ring takes a record. -/
theorem State.putFunc_evWait (s : State) (f : Nat) (r : EvRec) : ((s.putFunc f r).fn f).evWait = (s.fn f).evWait := by
  rw [State.putFunc]
  generalize ((s.fn f).moder.after (s.funcGeom f).moder s.time.now r) = p
  obtain ⟨m, send⟩ := p
  have hfn : ∀ m, (((s.postRecord (s.funcGeom f) (s.fn f).evSeq r).updFn f fun d => { d with evSeq := (d.evSeq + 1) % 2 ^ 32, moder := m }).fn f).evWait
      = (s.fn f).evWait := fun m => by
    rw [State.updFn_same, State.postRecord, State.postHost_fn, State.postHost_fn]
  cases send with
  | false => exact hfn m
  | true => exact (congrArg Func.evWait (fn_of_funcs (State.sendMsix_funcs _ f _) f)).trans (hfn m)

/-- The first slot that a function's record takes. -/
theorem State.putFunc_posts (s : State) (f : Nat) (r : EvRec) :
    .hostWrite 0 f ((s.funcGeom f).base + 32 * ((s.fn f).evSeq % 2 ^ (s.funcGeom f).log2)) ((r.bytes (s.fn f).evSeq).take 28) ∈ (s.putFunc f r).out := by
  obtain ⟨b, hb⟩ := s.putFunc_out f r
  rw [hb]
  exact List.mem_append_left _ (List.mem_append_right _ List.mem_cons_self)

/-! ### Rechecks -/

/-- The consumed word read when a context's ring is full (R348). -/
theorem State.refreshCtx_of_full {s : State} {c v : Nat} (hfull : s.ctxFull c = true) (hread : s.readConsumed (s.ctxGeom c) (s.cx c).evSeq = some v) :
    s.refreshCtx c = s.updCx c fun d => { d with evRead := v } := by
  have hfull' : evFull (s.ctxGeom c).log2 (s.cx c).evSeq (s.cx c).evRead = true := hfull
  simp only [State.refreshCtx, hfull', hread, if_true]

/-- A record for which nothing waits wakes nothing. -/
theorem State.wake_none (s : State) {r : EvRec} (hwake : r.wake = none) (hring : r.wakeRing = none) : s.wake r = s := by
  simp only [State.wake, hwake, hring]

/-- The one waiting record of a ring with room is written. -/
theorem State.drainCtx_one {s : State} {c : Nat} {r : EvRec} (hwait : (s.cx c).evWait = [r]) (hroom : s.ctxFull c = false)
    (hwake : r.wake = none) (hring : r.wakeRing = none) :
    s.drainCtx c 1 = (s.putCtx c r).updCx c fun x => { x with evWait := [], fullSince := none } := by
  simp only [State.drainCtx, hwait, hroom, Bool.false_eq_true, if_false, List.isEmpty_nil, if_true, State.wake_none _ hwake hring]

/-- The one waiting record of a function's ring with room is written. -/
theorem State.drainFunc_one {s : State} {f : Nat} {r : EvRec} (hwait : (s.fn f).evWait = [r]) (hroom : s.funcFull f = false) :
    s.drainFunc f 1 = (s.updFn f fun d => { d with evWait := [] }).putFunc f r := by
  simp only [State.drainFunc, hwait, hroom, Bool.false_eq_true, if_false]

theorem exec_eventRingFullRecheck {s : State} {c : Nat} {r : EvRec} (hc : c < 256) (hready : s.ready = true) (hwait : (s.cx c).evWait = [r]) :
    exec (.eventRingFullRecheck c) s
      = .next (((s.atTime (s.time.now + 10000)).refreshCtx c).drainCtx c (((s.atTime (s.time.now + 10000)).refreshCtx c).cx c).evWait.length) := by
  change execEventRingFullRecheck c s = _
  simp only [execEventRingFullRecheck, if_neg (Nat.not_le.2 hc), hwait, hready, List.isEmpty_cons, Bool.not_true, Bool.or_self, Bool.false_eq_true, if_false]

/-- A recheck that finds room for the one record that waits (R348). -/
theorem recheck_ctx {s : State} {c v : Nat} {r : EvRec} (hc : c < 256) (hready : s.ready = true) (hwait : (s.cx c).evWait = [r])
    (hwake : r.wake = none) (hring : r.wakeRing = none) (hfull : s.ctxFull c = true) (hread : s.readConsumed (s.ctxGeom c) (s.cx c).evSeq = some v)
    (hroom : evFull (s.cx c).evLog2 (s.cx c).evSeq v = false) :
    Yields (.eventRingFullRecheck c) s fun t => (t.cx c).evWait = [] ∧ (t.cx c).evSeq = ((s.cx c).evSeq + 1) % 2 ^ 32 ∧ (t.cx c).fullSince = none
      ∧ t.time.now = s.time.now + 10000
      ∧ .hostWrite 0 (s.cx c).func ((s.cx c).evBase + 32 * ((s.cx c).evSeq % 2 ^ (s.cx c).evLog2)) ((r.bytes (s.cx c).evSeq).take 28) ∈ t.out := by
  have hexec := exec_eventRingFullRecheck hc hready hwait
  rw [State.refreshCtx_of_full (s := s.atTime (s.time.now + 10000)) hfull hread] at hexec
  have htime : (s.atTime (s.time.now + 10000)).time.now = s.time.now + 10000 := max_eq_right (Nat.le_add_right _ _)
  have hcx : (s.atTime (s.time.now + 10000)).cx c = s.cx c := rfl
  generalize s.atTime (s.time.now + 10000) = u at hexec htime hcx
  rw [← hcx] at hwait hroom ⊢
  have hself : (u.updCx c fun d => { d with evRead := v }).cx c = { u.cx c with evRead := v } := State.updCx_same _ _ _
  have hwait' : ((u.updCx c fun d => { d with evRead := v }).cx c).evWait = [r] := by rw [hself, hwait]
  have hroom' : (u.updCx c fun d => { d with evRead := v }).ctxFull c = false := by rw [State.ctxFull, hself]; exact hroom
  have hposts := (u.updCx c fun d => { d with evRead := v }).putCtx_posts c r
  have hput := (u.updCx c fun d => { d with evRead := v }).putCtx_cx c r
  rw [hwait', List.length_singleton, State.drainCtx_one hwait' hroom' hwake hring] at hexec
  rw [hself] at hposts hput
  refine Yields.of_next hexec ?_
  rw [State.updCx_same, hput]
  refine ⟨rfl, rfl, rfl, ?_, hposts⟩
  rw [State.updCx_time, State.putCtx_time, State.updCx_time, htime]

theorem State.refreshFunc_of_full {s : State} {f v : Nat} (hfull : s.funcFull f = true) (hread : s.readConsumed (s.funcGeom f) (s.fn f).evSeq = some v) :
    s.refreshFunc f = s.updFn f fun d => { d with evRead := v } := by
  have hfull' : evFull (s.funcGeom f).log2 (s.fn f).evSeq (s.fn f).evRead = true := hfull
  simp only [State.refreshFunc, hfull', hread, if_true]

theorem exec_functionEventRingRecheck {s : State} {f : Nat} {r : EvRec} (hf : f < 256) (hready : s.ready = true) (hon : (s.fn f).evOn = true)
    (hwait : (s.fn f).evWait = [r]) (hlost : (s.fn f).lostNotices = []) (hdev : (s.fn f).devNotices = []) :
    exec (.functionEventRingRecheck f) s = .next (((s.atTime (s.time.now + 10000)).refreshFunc f).drainFunc f 1) := by
  change execFunctionEventRingRecheck f s = _
  simp only [execFunctionEventRingRecheck, if_neg (Nat.not_le.2 hf), hwait, hlost, hdev, hready, hon, List.isEmpty_cons, List.isEmpty_nil, List.length_singleton,
    List.length_nil, Bool.false_and, Bool.not_false, Bool.not_true, Bool.or_true, Bool.or_self, Bool.false_eq_true, if_false, Nat.add_zero]

/-- A recheck that finds room for the one record that waits for a function's ring (R349). -/
theorem recheck_func {s : State} {f v : Nat} {r : EvRec} (hf : f < 256) (hready : s.ready = true) (hon : (s.fn f).evOn = true)
    (hwait : (s.fn f).evWait = [r]) (hlost : (s.fn f).lostNotices = []) (hdev : (s.fn f).devNotices = []) (hfull : s.funcFull f = true)
    (hread : s.readConsumed (s.funcGeom f) (s.fn f).evSeq = some v) (hroom : evFull (s.funcGeom f).log2 (s.fn f).evSeq v = false) :
    Yields (.functionEventRingRecheck f) s fun t => (t.fn f).evWait = [] ∧ (t.fn f).evSeq = ((s.fn f).evSeq + 1) % 2 ^ 32
      ∧ t.time.now = s.time.now + 10000
      ∧ .hostWrite 0 f ((s.funcGeom f).base + 32 * ((s.fn f).evSeq % 2 ^ (s.funcGeom f).log2)) ((r.bytes (s.fn f).evSeq).take 28) ∈ t.out := by
  have hexec := exec_functionEventRingRecheck hf hready hon hwait hlost hdev
  rw [State.refreshFunc_of_full (s := s.atTime (s.time.now + 10000)) hfull hread] at hexec
  have htime : (s.atTime (s.time.now + 10000)).time.now = s.time.now + 10000 := max_eq_right (Nat.le_add_right _ _)
  have hfn : (s.atTime (s.time.now + 10000)).fn f = s.fn f := rfl
  have hgeom : (s.atTime (s.time.now + 10000)).funcGeom f = s.funcGeom f := rfl
  generalize s.atTime (s.time.now + 10000) = u at hexec htime hfn hgeom
  rw [← hfn] at hwait hroom ⊢
  rw [← hgeom] at hroom ⊢
  have hself : (u.updFn f fun d => { d with evRead := v }).fn f = { u.fn f with evRead := v } := State.updFn_same _ _ _
  have hwait' : ((u.updFn f fun d => { d with evRead := v }).fn f).evWait = [r] := by rw [hself, hwait]
  have hgeom' : (u.updFn f fun d => { d with evRead := v }).funcGeom f = u.funcGeom f := State.funcGeom_of_quiet (by rw [hself]; rfl)
  have hroom' : (u.updFn f fun d => { d with evRead := v }).funcFull f = false := by rw [State.funcFull, hself, hgeom']; exact hroom
  rw [State.drainFunc_one hwait' hroom'] at hexec
  have htaken : ((u.updFn f fun d => { d with evRead := v }).updFn f fun d => { d with evWait := [] }).fn f = { u.fn f with evRead := v, evWait := [] } := by
    rw [State.updFn_same, hself]
  have hgeom'' : ((u.updFn f fun d => { d with evRead := v }).updFn f fun d => { d with evWait := [] }).funcGeom f = u.funcGeom f :=
    State.funcGeom_of_quiet (by rw [htaken]; rfl)
  have htime' : ((u.updFn f fun d => { d with evRead := v }).updFn f fun d => { d with evWait := [] }).time = u.time := by
    rw [State.updFn_time, State.updFn_time]
  generalize ((u.updFn f fun d => { d with evRead := v }).updFn f fun d => { d with evWait := [] }) = w at hexec htaken hgeom'' htime'
  have hposts := w.putFunc_posts f r
  rw [htaken, hgeom''] at hposts
  refine Yields.of_next hexec ⟨?_, ?_, ?_, hposts⟩
  · rw [State.putFunc_evWait, htaken]
  · rw [State.putFunc_evSeq, htaken]
  · rw [State.putFunc_time, htime', htime]

/-! ### The timeout of a full ring -/

/-- Records for which nothing waits are dropped without a trace. -/
theorem State.dropWaiting_of_unwoken {s : State} {c : Nat} (h : ∀ r ∈ (s.cx c).evWait, r.wake = none ∧ r.wakeRing = none) :
    s.dropWaiting c = s.updCx c fun x => { x with evWait := [], fullSince := none } := by
  have hall : ∀ (rs : List EvRec) (u : State), (∀ r ∈ rs, r.wake = none ∧ r.wakeRing = none) → rs.foldl State.wake u = u := by
    intro rs
    induction rs with
    | nil => exact fun _ _ => rfl
    | cons r rs ih =>
      intro u hr
      obtain ⟨hwake, hring⟩ := hr r List.mem_cons_self
      rw [List.foldl_cons, State.wake_none u hwake hring]
      exact ih u fun x hx => hr x (List.mem_cons_of_mem r hx)
  exact hall _ _ h

/-- A context whose full ring has fallen silent, its waiting records dropped. -/
def State.silenced (s : State) (c : Nat) : State :=
  (s.updCx c fun x => { x with silent := true }).updCx c fun x => { x with evWait := [], fullSince := none }

theorem State.silenced_cx (s : State) (c : Nat) : (s.silenced c).cx c = { s.cx c with silent := true, evWait := [], fullSince := none } := by
  rw [State.silenced, State.updCx_same, State.updCx_same]

/-- Silence loses no context. -/
theorem State.silenced_course {s0 s : State} {c : Nat} (h : Course s0 s) : Course s0 (s.silenced c) := by
  refine State.updCx_course (State.updCx_course h (fun _ => ⟨rfl, rfl⟩) fun hs => ?_) (fun _ => ⟨rfl, rfl⟩) fun hs => ?_
  · rw [Ctx.hushed, Bool.and_eq_true] at hs
    exact hs.2
  · rw [Ctx.hushed, Bool.and_eq_true] at hs
    exact (Bool.and_true _).trans hs.1

theorem exec_eventRingFullTimeout {s : State} {c t0 : Nat} (hc : c < 256) (hready : s.ready = true) (hsince : (s.cx c).fullSince = some t0)
    (hwait : (s.cx c).evWait ≠ []) (hunwoken : ∀ r ∈ (s.cx c).evWait, r.wake = none ∧ r.wakeRing = none) :
    exec (.eventRingFullTimeout c) s = .next (((s.atTime (t0 + 2000000000)).silenced c).loseCtx c 0x0301) := by
  have hempty : (s.cx c).evWait.isEmpty = false := by simpa using hwait
  change execEventRingFullTimeout c s = _
  simp only [execEventRingFullTimeout, if_neg (Nat.not_le.2 hc), hsince, hempty, hready, Bool.not_true, Bool.or_self, Bool.false_eq_true, if_false]
  rw [State.dropWaiting_of_unwoken, State.silenced]
  rw [State.updCx_same]
  exact hunwoken

theorem State.loseCtx_time (s : State) (c status : Nat) : (s.loseCtx c status).time = s.time :=
  (State.loseCtx_ev (k := false) (l := [.pins, .hub, .funcs, .msix, .windows, .parts, .ctxs, .trans, .tlb, .fences, .fenceFreed, .fenceLower,
    .rings, .objs, .hbm, .chip, .pans, .units, .clusters, .power, .log, .secs, .cmds, .replays, .hzn, .svcs,
    .sessions, .xparts, .invals, .atsInvals]) (.refl _ s) rfl).only .time (by decide)

/-- A ring that stays full loses its context (R348). -/
theorem fullTimeout {s : State} {c t0 : Nat} (hc : c < 256) (hready : s.ready = true) (hlive : (s.cx c).life = .live) (hsince : (s.cx c).fullSince = some t0)
    (hwait : (s.cx c).evWait ≠ []) (hunwoken : ∀ r ∈ (s.cx c).evWait, r.wake = none ∧ r.wakeRing = none) :
    Yields (.eventRingFullTimeout c) s fun t => LostWith s t c 0x0301 ∧ (t.cx c).silent = true ∧ (t.cx c).evWait = []
      ∧ t.time.now = max s.time.now (t0 + 2000000000) := by
  have hexec := exec_eventRingFullTimeout hc hready hsince hwait hunwoken
  have htime : ((s.atTime (t0 + 2000000000)).silenced c).time.now = max s.time.now (t0 + 2000000000) := by
    rw [State.silenced, State.updCx_time, State.updCx_time, State.atTime_now]
  have hcourse : Course s ((s.atTime (t0 + 2000000000)).silenced c) := State.silenced_course (.of_same rfl rfl rfl rfl rfl)
  have hhushed : (((s.atTime (t0 + 2000000000)).silenced c).cx c).hushed = true := by
    rw [State.silenced_cx]
    rfl
  generalize (s.atTime (t0 + 2000000000)).silenced c = u at hexec htime hcourse hhushed
  have hquiet := u.loseCtx_hushed c 0x0301 hhushed
  rw [Ctx.hushed, Bool.and_eq_true, List.isEmpty_iff] at hquiet
  exact Yields.of_next hexec ⟨hcourse.loseCtx_lostWith hlive, hquiet.1, hquiet.2, by rw [State.loseCtx_time, htime]⟩

/-! ### Moderation -/

/-- A message of an owned vector that nothing masks is sent (R312). -/
theorem State.sendMsix_of_unmasked {s : State} {f v : Nat} (howned : v < s.ownedVectors f) (hen : s.msixEnable.get false f = true)
    (hmask : s.msixMask.get false f = false) (hctl : (s.msix.get {} (msixKey f v)).control.getLsbD 0 = false) : s.sendMsix f v = s.emit (.msix f v) := by
  rw [State.sendMsix]
  simp only [if_neg (Nat.not_le.2 howned), hen, hmask, hctl, Bool.not_true, Bool.or_self, Bool.false_eq_true, if_false]

theorem Tbl.filter_put_self {α : Type} (t : Tbl α) (k : Nat) (a : α) :
    (t.put k a).filter (fun e => !decide (e.1 = k)) = t.filter (fun e => !decide (e.1 = k)) := by
  induction t with
  | nil => simp [Tbl.put]
  | cons e t ih =>
    obtain ⟨j, b⟩ := e
    rw [Tbl.put]
    split
    next h => simp [h]
    next h =>
      split
      · simp
      · rw [List.filter_cons, List.filter_cons, ih]

theorem Tbl.filter_upd_self {α : Type} [DecidableEq α] (d : α) (t : Tbl α) (k : Nat) (g : α → α) :
    (t.upd d k g).filter (fun e => !decide (e.1 = k)) = t.filter (fun e => !decide (e.1 = k)) := by
  rw [Tbl.upd, Tbl.set]
  split
  · rw [Tbl.del, List.filter_filter]
    refine List.filter_congr fun e _ => ?_
    simp [bne]
  · exact Tbl.filter_put_self t k _

/-- A function that keeps its set-up keeps its vectors (R312). -/
theorem State.updFn_ownedVectors (s : State) (f : Nat) {g : Func → Func} (hg : ∀ d, (g d).vfCfg = d.vfCfg) : (s.updFn f g).ownedVectors f = s.ownedVectors f := by
  simp only [State.ownedVectors]
  split
  next h =>
    subst h
    rw [show (s.updFn 0 g).funcs = s.funcs.upd {} 0 g from rfl, Tbl.filter_upd_self]
  next => rw [State.vfVectors, State.updFn_same, hg, State.vfVectors]

/-- A ring whose moderation interval has ended, before its message. -/
def State.ctxFired (s : State) (c : Nat) : State :=
  (s.atTime ((s.cx c).moder.last.getD 0 + 1000 * (s.cx c).evModer)).updCx c fun x =>
    { x with moder := (s.cx c).moder.fired (s.atTime ((s.cx c).moder.last.getD 0 + 1000 * (s.cx c).evModer)).time.now }

def State.funcFired (s : State) (f : Nat) : State :=
  (s.atTime ((s.fn f).moder.last.getD 0 + 1000 * (s.funcGeom f).moder)).updFn f fun x =>
    { x with moder := (s.fn f).moder.fired (s.atTime ((s.fn f).moder.last.getD 0 + 1000 * (s.funcGeom f).moder)).time.now }

theorem State.ctxFired_moder (s : State) (c : Nat) : ((s.ctxFired c).cx c).moder = { last := some (s.ctxFired c).time.now, pending := false } := by
  rw [State.ctxFired, State.updCx_same]
  rfl

theorem State.funcFired_moder (s : State) (f : Nat) : ((s.funcFired f).fn f).moder = { last := some (s.funcFired f).time.now, pending := false } := by
  rw [State.funcFired, State.updFn_same, State.updFn_time]
  rfl

theorem State.funcFired_ownedVectors (s : State) (f : Nat) : (s.funcFired f).ownedVectors f = s.ownedVectors f := by
  rw [State.funcFired, State.updFn_ownedVectors]
  · rfl
  · exact fun _ => rfl

theorem moderation_ctx {s : State} {c : Nat} (hc : c < 256) (hready : s.ready = true) (hpending : (s.cx c).moder.pending = true)
    (howned : (s.cx c).evVector < s.ownedVectors (s.cx c).func) (hen : s.msixEnable.get false (s.cx c).func = true)
    (hmask : s.msixMask.get false (s.cx c).func = false) (hctl : (s.msix.get {} (msixKey (s.cx c).func (s.cx c).evVector)).control.getLsbD 0 = false) :
    Yields (.moderationExpiry (.ctx c)) s fun t => t.out = s.out ++ [.msix (s.cx c).func (s.cx c).evVector]
      ∧ (t.cx c).moder = { last := some t.time.now, pending := false }
      ∧ t.time.now = max s.time.now ((s.cx c).moder.last.getD 0 + 1000 * (s.cx c).evModer) := by
  have hexec : exec (.moderationExpiry (.ctx c)) s = .next ((s.ctxFired c).sendMsix (s.cx c).func (s.cx c).evVector) := by
    change execModerationExpiry (.ctx c) s = _
    simp only [execModerationExpiry, if_neg (Nat.not_le.2 hc), hpending, hready, Bool.not_true, Bool.or_self, Bool.false_eq_true, if_false]
    rfl
  rw [State.sendMsix_of_unmasked (s := s.ctxFired c) howned hen hmask hctl] at hexec
  exact Yields.of_next hexec ⟨rfl, s.ctxFired_moder c, rfl⟩

theorem moderation_func {s : State} {f : Nat} (hf : f < 256) (hready : s.ready = true) (hpending : (s.fn f).moder.pending = true)
    (howned : (s.funcGeom f).vector < s.ownedVectors f) (hen : s.msixEnable.get false f = true) (hmask : s.msixMask.get false f = false)
    (hctl : (s.msix.get {} (msixKey f (s.funcGeom f).vector)).control.getLsbD 0 = false) :
    Yields (.moderationExpiry (.func f)) s fun t => t.out = s.out ++ [.msix f (s.funcGeom f).vector]
      ∧ (t.fn f).moder = { last := some t.time.now, pending := false } := by
  have hexec : exec (.moderationExpiry (.func f)) s = .next ((s.funcFired f).sendMsix f (s.funcGeom f).vector) := by
    change execModerationExpiry (.func f) s = _
    simp only [execModerationExpiry, if_neg (Nat.not_le.2 hf), hpending, hready, Bool.not_true, Bool.or_self, Bool.false_eq_true, if_false]
    rfl
  rw [State.sendMsix_of_unmasked (s := s.funcFired f) (by rwa [s.funcFired_ownedVectors f]) hen hmask hctl] at hexec
  exact Yields.of_next hexec ⟨rfl, s.funcFired_moder f⟩

/-- Settles O39: what waited is written as the consumed word shows room; the timeout keeps what a lost context may keep. -/
theorem eventRings : Obligations.EventRings :=
  ⟨fun _ _ _ _ => recheck_ctx, fun _ _ _ => fullTimeout, fun _ _ _ _ => recheck_func, fun _ _ => moderation_ctx, fun _ _ => moderation_func⟩

end Sys2Proof.Machine
end

section
/-! ENGINE RESET (O42). A pan with two entries in the table. -/

namespace Sys2Proof.Machine

/-- Pan 0 stands twice: an idle entry with sequence count 0, which is the one that is read, before a running one. -/
def State.panTwice : State :=
  { pins := { porstN := true }, pans := [(0, { sinceSwap := 0 }), (0, { run := .running })] }

/-- Refutes O42: the reset of the pans leaves nothing of the idle entry, whose canonical form is not listed, and the pan then reads as the entry
that stood behind it, which ramps down. -/
theorem not_engineReset : ¬ Obligations.EngineReset := by
  rintro ⟨hrequest, -⟩
  obtain ⟨-, -, -, -, -, -, -, -, -, -, -, -, -, -, -, hpans⟩ := (hrequest .panTwice 32 0xD9E5 rfl (.inl rfl) (by decide) rfl rfl).nextOr
  obtain ⟨-, -, -, -, hidle⟩ := hpans 0
  have hramps : ((nextOr .panTwice (exec (.engineResetRequest 32 0xD9E5) .panTwice)).pan 0).run = .rampWait := by decide +kernel
  exact absurd (hramps.symm.trans (hidle rfl)) (by decide)

end Sys2Proof.Machine
end

section
/-! CALLS OF A SERVICE PROGRAM (O57). -/

namespace Sys2Proof.Machine

/-! ### Event W of R208 -/

/-- A command that has done its last write. -/
def Cmd.finished (c : Cmd) (a : Acc) (infos : List RecInfo) : Cmd :=
  { c with staged := c.staged ++ a.prod.staged, regWrites := c.regWrites ++ a.prod.regs, descTs := c.descTs ++ a.prod.ts, infos, taken := [], phase := .written }

/-- Besides the command, a section's producers alone change. -/
theorem State.finishWork_only (s : State) (k : Cmd) (a : Acc) (infos : List RecInfo) : ChangesOnly [.secs, .cmds] s (s.finishWork k a infos) :=
  (State.finishWork_ev (k := false) (.refl _ s) rfl).only

theorem State.finishWork_out (s : State) (k : Cmd) (a : Acc) (infos : List RecInfo) : (s.finishWork k a infos).out = s.out := by
  rw [State.finishWork]
  cases k.ref <;> rfl

theorem State.finishWork_cmds (s : State) (k : Cmd) (a : Acc) (infos : List RecInfo) :
    (s.finishWork k a infos).cmds = (s.updCmd k.ref fun c => c.finished a infos).cmds := by
  rw [State.finishWork]
  cases k.ref <;> rfl

theorem State.cmd?_of_cmds {s t : State} (h : t.cmds = s.cmds) (r : CmdRef) : t.cmd? r = s.cmd? r := by rw [State.cmd?, h, State.cmd?]

/-- The command whose work is done. -/
theorem State.cmd?_finishWork {s : State} {k c : Cmd} (hc : s.cmd? k.ref = some c) (a : Acc) (infos : List RecInfo) :
    (s.finishWork k a infos).cmd? k.ref = some (c.finished a infos) := by
  rw [State.cmd?_of_cmds (s.finishWork_cmds k a infos)]
  exact State.cmd?_updCmd_self hc fun _ => rfl

/-! ### The rows of a running program -/

section
variable {s : State} {v e id n : Nat} {w : List Byte}

/-- A service program of the layout. -/
def isService (v : Nat) : Prop := ¬ (v < 1 ∨ 12 < v)

theorem isService_of (h1 : 1 ≤ v) (h12 : v ≤ 12) : isService v := by
  rw [isService]
  omega

theorem exec_svcWait (hv : isService v) (hrun : s.running v = true) {l : List Nat} (hposted : ((s.svc v).ring.keysWhere fun _ q => q.st == 1) = e :: l) :
    exec (.svcWait v) s = .next ((s.updSvc v fun x => { x with ring := x.ring.upd {} e fun q => { q with st := 2 } }).emit (.ecallRet v e)) := by
  change execSvcWait v s = _
  simp only [execSvcWait, if_neg hv, hrun, hposted, Bool.not_true, Bool.false_eq_true, if_false]

theorem exec_svcWait_of_none (hv : isService v) (hrun : s.running v = true) (hposted : ((s.svc v).ring.keysWhere fun _ q => q.st == 1) = []) :
    exec (.svcWait v) s = .next s := by
  change execSvcWait v s = _
  simp only [execSvcWait, if_neg hv, hrun, hposted, Bool.not_true, Bool.false_eq_true, if_false]

/-- The entry that SVC_DONE names is no call of its ID that the program has taken (R428). -/
def Call.misnamed (q : Call) (e id : Nat) : Prop := 64 ≤ e ∨ q.id ≠ id ∨ (q.st ≠ 2 ∧ q.st ≠ 3)

theorem exec_svcDone_of_misnamed (hv : isService v) (hrun : s.running v = true) (hq : ((s.svc v).ring.get {} e).misnamed e id) :
    exec (.svcDone v e id n w) s = .next (s.emit (.ecallRet v 2)) := by
  change execSvcDone v e id n w s = _
  simp only [execSvcDone, if_neg hv, hrun, Bool.not_true, Bool.false_eq_true, if_false]
  exact if_pos hq

theorem exec_svcDone_of_withdrawn (hv : isService v) (hrun : s.running v = true) (he : e < 64) (hid : ((s.svc v).ring.get {} e).id = id)
    (hst : ((s.svc v).ring.get {} e).st = 3) :
    exec (.svcDone v e id n w) s = .next ((s.updSvc v fun x => { x with ring := x.ring.del e }).emit (.ecallRet v 1)) := by
  change execSvcDone v e id n w s = _
  simp only [execSvcDone, if_neg hv, hrun, hid, hst, Nat.not_le.2 he, Bool.not_true, Bool.false_eq_true, if_false, if_true, ne_eq, not_true_eq_false, and_false, or_self]

/-- A taken call: broken off where its count exceeds the window, else done (R428, R429). -/
theorem exec_svcDone_of_taken (hv : isService v) (hrun : s.running v = true) (he : e < 64) (hid : ((s.svc v).ring.get {} e).id = id)
    (hst : ((s.svc v).ring.get {} e).st = 2) :
    exec (.svcDone v e id n w) s = if ((s.svc v).ring.get {} e).outLen < n then .next ((s.breakCall v e).emit (.ecallRet v 0))
      else .next ((s.finishCall v e (w.take n)).emit (.ecallRet v 0)) := by
  change execSvcDone v e id n w s = _
  simp only [execSvcDone, if_neg hv, hrun, hid, hst, Nat.not_le.2 he, Bool.not_true, Bool.false_eq_true, if_false, ne_eq, not_true_eq_false, false_and, or_self,
    Nat.reduceEqDiff]

/-- A call of a command in flight that can write its output. -/
theorem State.finishCall_of_ok {a u : State} {r : CmdRef} {k : Cmd} {p : Made} (href : ((s.svc v).ring.get {} e).ref = some r) (hk : s.cmd? r = some k)
    (ha : a = s.updSvc v fun x => { x with ring := x.ring.del e })
    (hput : ((a.cxOf k).putOutput (at2 k.word 10) (w ++ List.replicate (((s.svc v).ring.get {} e).outLen - w.length) 0)).exec a = (.ok p, u)) :
    s.finishCall v e w = (u.updSvc v fun x => { x with done := satinc 32 x.done }).finishWork k { prod := p } k.infos := by
  have hcmd : a.cmd? r = some k := by rw [ha]; exact hk
  rw [State.finishCall, href, ← ha]
  simp only [Option.bind_some, hcmd, hput]

/-- What SVC_DONE of a call leaves: the call counted, the command's last write done (R428). -/
theorem svcDone_completes {a u : State} {r : CmdRef} {k : Cmd} {p : Made} (h1 : 1 ≤ v) (h12 : v ≤ 12) (hrun : s.running v = true) (he : e < 64)
    (hid : ((s.svc v).ring.get {} e).id = id) (hst : ((s.svc v).ring.get {} e).st = 2) (hn : n ≤ ((s.svc v).ring.get {} e).outLen)
    (href : ((s.svc v).ring.get {} e).ref = some r) (hk : s.cmd? r = some k) (ha : a = s.updSvc v fun x => { x with ring := x.ring.del e })
    (hput : ((a.cxOf k).putOutput (at2 k.word 10) (w.take n ++ List.replicate (((s.svc v).ring.get {} e).outLen - (w.take n).length) 0)).exec a = (.ok p, u)) :
    Yields (.svcDone v e id n w) s fun t => (t.svc v).done = satinc 32 (u.svc v).done
      ∧ (∀ c, u.cmd? r = some c → (t.cmd? r).map (fun d => (d.phase, d.staged)) = some (.written, c.staged ++ p.staged)) ∧ t.out = u.out ++ [.ecallRet v 0] := by
  have hexec := exec_svcDone_of_taken (n := n) (w := w) (isService_of h1 h12) hrun he hid hst
  rw [if_neg (Nat.not_lt.2 hn), State.finishCall_of_ok href hk ha hput] at hexec
  have hr : k.ref = r := State.cmd?_ref hk
  have hdone : ((u.updSvc v fun x => { x with done := satinc 32 x.done }).svc v).done = satinc 32 (u.svc v).done := by rw [State.updSvc_same]
  have hcmd : (u.updSvc v fun x => { x with done := satinc 32 x.done }).cmd? r = u.cmd? r := rfl
  have hout : (u.updSvc v fun x => { x with done := satinc 32 x.done }).out = u.out := rfl
  generalize (u.updSvc v fun x => { x with done := satinc 32 x.done }) = y at hexec hdone hcmd hout
  have hsvcs : (y.finishWork k { prod := p } k.infos).svc v = y.svc v := by
    rw [State.svc, (y.finishWork_only k _ _) .svcs (by decide), State.svc]
  refine .of_next hexec ⟨?_, fun c hc => ?_, ?_⟩
  · rw [State.emit_svc, hsvcs, hdone]
  · rw [← hr] at hc hcmd ⊢
    change ((y.finishWork k { prod := p } k.infos).cmd? k.ref).map _ = _
    rw [State.cmd?_finishWork (hcmd.trans hc)]
    rfl
  · rw [← hout, ← y.finishWork_out k { prod := p } k.infos]
    rfl

/-- A count beyond the window breaks the call off (R429). -/
theorem svcDone_breaks {r : CmdRef} {k : Cmd} (h1 : 1 ≤ v) (h12 : v ≤ 12) (hrun : s.running v = true) (he : e < 64)
    (hid : ((s.svc v).ring.get {} e).id = id) (hst : ((s.svc v).ring.get {} e).st = 2) (hn : ((s.svc v).ring.get {} e).outLen < n)
    (href : ((s.svc v).ring.get {} e).ref = some r) (hk : s.cmd? r = some k) (hlive : (s.cx k.ctx).life = .live) :
    Yields (.svcDone v e id n w) s fun t => (t.svc v).failed = satinc 32 (s.svc v).failed ∧ LostWith s t k.ctx 0x0301 := by
  have hexec := exec_svcDone_of_taken (n := n) (w := w) (isService_of h1 h12) hrun he hid hst
  have hbreak : s.breakCall v e = (s.updSvc v fun x => { x with ring := x.ring.del e, failed := satinc 32 x.failed }).failCmd r 0x0301 := by
    rw [State.breakCall]
    simp only [href]
  rw [if_pos hn, hbreak] at hexec
  have hfailed : ((s.updSvc v fun x => { x with ring := x.ring.del e, failed := satinc 32 x.failed }).svc v).failed = satinc 32 (s.svc v).failed := by
    rw [State.updSvc_same]
  refine .of_next hexec ⟨?_, State.failCmd_lostWith (s := s.updSvc v _) 0x0301 hk hlive⟩
  rw [State.emit_svc, (State.failCmd_counts (s := s.updSvc v _) 0x0301 hk).1 v (by rw [hfailed]; exact satinc_ne_zero _), hfailed]

theorem svcLog {b : List Byte} (h1 : 1 ≤ v) (h12 : v ≤ 12) (hrun : s.running v = true) :
    Yields (.svcLog v b) s fun t => t.svcs = s.svcs ∧ t.out = s.out ++ [.ecallRet v 0] := by
  have hexec : exec (.svcLog v b) s = .next ((s.logCo 0x9001 0 0 v 0 [at8 b 0, at8 b 8, at8 b 16]).emit (.ecallRet v 0)) := by
    change execSvcLog v b s = _
    rw [execSvcLog, if_neg (isService_of h1 h12), if_pos hrun]
  have hlog := State.logCo_ev (k := false) (l := [.pins, .log]) (code := 0x9001) (cls := 0) (kind := 0) (unit := v) (ctx := 0)
    (data := [at8 b 0, at8 b 8, at8 b 16]) (.refl _ s) rfl
  refine .of_next hexec ⟨hlog.only .svcs (by decide), ?_⟩
  rw [← State.logCo_out s 0x9001 0 0 v 0 [at8 b 0, at8 b 8, at8 b 16]]
  rfl

theorem exec_svcTime (hv : isService v) (hrun : s.running v = true) : exec (.svcTime v) s = .next (s.emit (.ecallRet v (s.time.now % 2 ^ 64))) := by
  change execSvcTime v s = _
  rw [execSvcTime, if_neg hv, if_pos hrun]

theorem exec_svcYield (hv : isService v) (hrun : s.running v = true) : exec (.svcYield v) s = .next (s.emit (.ecallRet v 0)) := by
  change execSvcYield v s = _
  rw [execSvcYield, if_neg hv, if_pos hrun]
end

/-- Settles O57: the calls of a service program, SVC_DONE by what it finds of its entry. -/
theorem serviceCalls : Obligations.ServiceCalls := by
  refine ⟨fun s v e l h1 h12 hrun hposted => ?_, fun s v h1 h12 => exec_svcWait_of_none (isService_of h1 h12),
    fun s v e id n w h1 h12 => exec_svcDone_of_misnamed (isService_of h1 h12), fun s v e id n w h1 h12 => exec_svcDone_of_withdrawn (isService_of h1 h12),
    fun _ _ _ _ _ _ _ _ _ _ _ => svcDone_completes, fun _ _ _ _ _ _ _ _ => svcDone_breaks, fun s v h1 h12 => exec_svcTime (isService_of h1 h12), fun _ _ _ => svcLog,
    fun s v h1 h12 => exec_svcYield (isService_of h1 h12)⟩
  refine .of_next (exec_svcWait (isService_of h1 h12) hrun hposted) ⟨?_, rfl⟩
  rw [State.emit_svc, State.updSvc_same, Tbl.get_upd_same]

end Sys2Proof.Machine
end

section
/-! CORE_CALL AND SOFT_CALL (O58). -/

namespace Sys2Proof.Machine

section
variable {s u : State} {ref : CmdRef} {k : Cmd}

/-! ### CORE_CALL -/

/-- The entry that a CORE_CALL posts (R428). -/
def Cmd.posted (k : Cmd) (ref : CmdRef) (id outLen : Nat) (b : List Byte) : Call :=
  { id, ctx := k.ctx, st := 1, func := at2 k.word 14, arg := at8 k.word 16, input := b, outLen, output := List.replicate outLen 0, ref := some ref }

/-- The state with an entry posted for a CORE_CALL. -/
def State.callPosted (s : State) (ref : CmdRef) (v e : Nat) (q : Call) : State :=
  (s.updSvc v fun x => { x with ring := x.ring.put e q, nextId := if x.nextId + 1 < 2 ^ 32 then x.nextId + 1 else 1 }).updCmd ref fun k =>
    { k with phase := .executing, call := some e }

theorem State.callPosted_ring (s : State) (ref : CmdRef) (v e : Nat) (q : Call) : ((s.callPosted ref v e q).svc v).ring.get {} e = q := by
  change ((s.updSvc v fun x => { x with ring := x.ring.put e q, nextId := if x.nextId + 1 < 2 ^ 32 then x.nextId + 1 else 1 }).svc v).ring.get {} e = q
  rw [State.updSvc_same]
  exact Tbl.get_put_same _ _ _ _

theorem exec_coreCall_of_admitted {w : State} {e : Nat} {b : List Byte} (h : Turn s u ref 0xE4 k) (hin : u.framesIn k = true)
    (hadmits : u.svcAdmits (at2 k.word 12) k.ctx = true)
    (hfree : ((List.range 64).find? fun e => ((u.svc (at2 k.word 12)).ring.get {} e).st == 0) = some e)
    (hread : ((u.cxOf k).callInput (at2 k.word 8)).exec u = (.ok b, w)) :
    exec (.coreCall ref) s = .next (w.callPosted ref (at2 k.word 12) e
      (k.posted ref (w.svc (at2 k.word 12)).nextId ((u.cxOf k).callOutput (at2 k.word 10)) b)) := by
  obtain ⟨rfl, hissued, hruns⟩ := h
  change execCoreCall ref s = _
  simp only [execCoreCall, hissued, hin, hruns, hadmits, hfree, hread, Bool.not_true, Bool.false_eq_true, if_false]
  rfl

theorem exec_coreCall_of_barred (h : Turn s u ref 0xE4 k) (hin : u.framesIn k = true) (hbarred : u.svcAdmits (at2 k.word 12) k.ctx = false) :
    exec (.coreCall ref) s = .next (u.failCmd ref 0x0202) := by
  obtain ⟨rfl, hissued, hruns⟩ := h
  change execCoreCall ref s = _
  simp only [execCoreCall, hissued, hin, hruns, hbarred, Bool.not_true, Bool.not_false, Bool.false_eq_true, if_false, if_true]

/-! ### SOFT_CALL -/

/-- A SOFT_CALL whose part can be told (R236). -/
theorem exec_softCall_of_part {p : Nat} (h : Turn s u ref 0xE3 k) (hin : u.framesIn k = true) (hpart : u.callPart k = some p) :
    exec (.softCall ref) s = 
      if u.loadNames p || (u.xp p).st == 2 then .next u
      else if !(u.xp p).softIds.contains ((u.sec ((refSec ref).getD 0)).bind (at2 k.word 12)) then .next (u.failCmd ref stAbsent)
      else if (u.xp p).st != 3 || (u.xp p).clamped then .next u
      else if (u.xp p).call.isSome || ((u.xp p).waiting.head?.any fun r => r != ref) then
        .next (if (u.xp p).waiting.contains ref then u else u.updXp p fun x => { x with waiting := x.waiting ++ [ref] })
      else .next (u.sendCall k p ((u.sec ((refSec ref).getD 0)).bind (at2 k.word 12))) := by
  obtain ⟨rfl, hissued, hruns⟩ := h
  change execSoftCall ref s = _
  simp only [execSoftCall, hissued, hin, hruns, hpart, Bool.not_true, Bool.false_eq_true, if_false]

/-- A part with a call in progress. -/
def XPart.called (x : XPart) (id : Nat) (ref : CmdRef) : XPart :=
  { x with call := some { id, ref }, nextId := if id + 1 < 2 ^ 32 then id + 1 else 1, waiting := x.waiting.filter fun r => r != ref }

/-- A command whose call is in progress. -/
def Cmd.called (k : Cmd) (p id : Nat) (h : List Byte) : Cmd := { k with phase := .executing, call := some id, target := p, acc := h, taken := [] }

/-- The state with a call sent. -/
def State.callSent (s : State) (ref : CmdRef) (p id : Nat) (h b : List Byte) : State :=
  ((s.updXp p fun x => x.called id ref).updCmd ref fun k => k.called p id h).emit (.beats p (h ++ b))

theorem State.callSent_xp (s : State) (ref : CmdRef) (p id : Nat) (h b : List Byte) : (s.callSent ref p id h b).xp p = (s.xp p).called id ref :=
  State.updXp_same s p fun x => x.called id ref

theorem State.cmd?_callSent {s : State} {ref : CmdRef} {c : Cmd} (hc : s.cmd? ref = some c) (p id : Nat) (h b : List Byte) :
    (s.callSent ref p id h b).cmd? ref = some (c.called p id h) :=
  State.cmd?_updCmd_self (s := s.updXp p fun x => x.called id ref) (f := fun k => k.called p id h) hc fun _ => rfl

theorem State.sendCall_of_ok {w : State} {p soft : Nat} {x b : List Byte} (hbeats : ((u.cxOf k).callBeats k (u.xp p).nextId soft).exec u = (.ok (x, b), w)) :
    u.sendCall k p soft = w.callSent k.ref p (u.xp p).nextId x b := by
  rw [State.sendCall]
  simp only [hbeats]
  rfl

theorem softCall_sends {w : State} {h st n p : Nat} {x b : List Byte} (ht : Turn s u (.station h st n) 0xE3 k) (hin : u.framesIn k = true)
    (hpart : u.callPart k = some p) (hload : u.loadNames p = false) (hsoft : (u.xp p).softIds.contains ((u.sec h).bind (at2 k.word 12)) = true)
    (hst : (u.xp p).st = 3) (hopen : (u.xp p).clamped = false) (hcall : (u.xp p).call = none)
    (hfirst : ∀ r, (u.xp p).waiting.head? = some r → r = .station h st n)
    (hbeats : ((u.cxOf k).callBeats k (u.xp p).nextId ((u.sec h).bind (at2 k.word 12))).exec u = (.ok (x, b), w)) :
    Yields (.softCall (.station h st n)) s fun t => (t.xp p).call = some { id := (u.xp p).nextId, ref := .station h st n } ∧ t.out = w.out ++ [.beats p (x ++ b)]
      ∧ ∀ c, w.cmd? (.station h st n) = some c → (t.cmd? (.station h st n)).map (fun d => (d.phase, d.target, d.acc)) = some (.executing, p, x) := by
  have hr : k.ref = .station h st n := State.cmd?_ref (State.issued?_spec ht.issued).1
  have hturn : ((u.xp p).waiting.head?.any fun r => r != .station h st n) = false := by
    cases hw : (u.xp p).waiting.head? with
    | none => rfl
    | some r => rw [hfirst r hw, Option.any_some, bne_self_eq_false]
  have hexec := exec_softCall_of_part ht hin hpart
  have hsec : (refSec (.station h st n)).getD 0 = h := rfl
  rw [hsec] at hexec
  simp only [hload, hsoft, hst, hopen, hcall, hturn, State.sendCall_of_ok hbeats, hr, Nat.reduceBEq, Nat.reduceBNe, Option.isSome_none, Bool.or_self, Bool.not_true,
    Bool.false_eq_true, if_false] at hexec
  refine .of_next hexec ⟨?_, rfl, fun c hc => ?_⟩
  · rw [State.callSent_xp]
    rfl
  · rw [State.cmd?_callSent hc]
    rfl

theorem softCall_waits {h st n p : Nat} {c : XCall} (ht : Turn s u (.station h st n) 0xE3 k) (hin : u.framesIn k = true)
    (hpart : u.callPart k = some p) (hload : u.loadNames p = false) (hsoft : (u.xp p).softIds.contains ((u.sec h).bind (at2 k.word 12)) = true)
    (hst : (u.xp p).st = 3) (hopen : (u.xp p).clamped = false) (hcall : (u.xp p).call = some c) :
    Yields (.softCall (.station h st n)) s fun t => (.station h st n) ∈ (t.xp p).waiting ∧ (t.xp p).call = some c ∧ t.cmds = u.cmds := by
  have hexec := exec_softCall_of_part ht hin hpart
  have hsec : (refSec (.station h st n)).getD 0 = h := rfl
  rw [hsec] at hexec
  simp only [hload, hsoft, hst, hopen, hcall, Nat.reduceBEq, Nat.reduceBNe, Option.isSome_some, Bool.true_or, Bool.or_self, Bool.not_true, Bool.false_eq_true, if_false, if_true] at hexec
  cases hwaits : (u.xp p).waiting.contains (.station h st n) with
  | true =>
    rw [hwaits, if_pos rfl] at hexec
    exact .of_next hexec ⟨List.contains_iff_mem.1 hwaits, hcall, rfl⟩
  | false =>
    rw [hwaits, if_neg Bool.false_ne_true] at hexec
    refine .of_next hexec ?_
    rw [State.updXp_same]
    exact ⟨List.mem_append_right _ (List.mem_singleton.2 rfl), hcall, rfl⟩

theorem exec_softCall_of_absent {h st n : Nat} (ht : Turn s u (.station h st n) 0xE3 k) (hin : u.framesIn k = true)
    (hpart : u.callPart k = none ∨ ∃ p, u.callPart k = some p ∧ u.loadNames p = false ∧ (u.xp p).st ≠ 2
      ∧ (u.xp p).softIds.contains ((u.sec h).bind (at2 k.word 12)) = false) :
    exec (.softCall (.station h st n)) s = .next (u.failCmd (.station h st n) stAbsent) := by
  rcases hpart with hnone | ⟨p, hpart, hload, hst, hsoft⟩
  · obtain ⟨rfl, hissued, hruns⟩ := ht
    change execSoftCall _ s = _
    simp only [execSoftCall, hissued, hin, hruns, hnone, Bool.not_true, Bool.false_eq_true, if_false]
  · have hexec := exec_softCall_of_part ht hin hpart
    have hsec : (refSec (.station h st n)).getD 0 = h := rfl
    have hst' : ((u.xp p).st == 2) = false := beq_eq_false_iff_ne.2 hst
    rw [hsec] at hexec
    simpa only [hload, hsoft, hst', Bool.or_self, Bool.not_false, Bool.false_eq_true, if_false, if_true] using hexec

/-! ### Skipped calls and the end of the window -/

/-- A skipped call does its work without a call (R185). -/
theorem exec_call_of_skipped {i : Instr} {op : Nat} (hi : (i, op) ∈ [(Instr.coreCall ref, 0xE4), (.softCall ref, 0xE3)]) (hu : u = s.takeUp ref op)
    (hissued : u.issued? ref op = some k) (hskipped : k.skipped = true) (hin : u.framesIn k = true) :
    exec i s = .next (u.finishWork k { prod := { frames := (u.cxOf k).emptyFrames k.words } } k.infos) := by
  subst hu
  rcases List.mem_cons.1 hi with hcore | hsoft
  · obtain ⟨rfl, rfl⟩ := Prod.mk.inj hcore
    change execCoreCall ref s = _
    simp only [execCoreCall, hissued, hin, hskipped, Bool.not_true, Bool.false_eq_true, if_false, if_true]
  · obtain ⟨rfl, rfl⟩ := Prod.mk.inj (List.mem_singleton.1 hsoft)
    change execSoftCall ref s = _
    simp only [execSoftCall, hissued, hin, hskipped, Bool.not_true, Bool.false_eq_true, if_false, if_true]

theorem call_skipped {i : Instr} {op : Nat} (hi : (i, op) ∈ [(Instr.coreCall ref, 0xE4), (.softCall ref, 0xE3)]) (hu : u = s.takeUp ref op)
    (hissued : u.issued? ref op = some k) (hskipped : k.skipped = true) (hin : u.framesIn k = true) :
    Yields i s fun t => t.svcs = u.svcs ∧ t.xparts = u.xparts ∧ t.cmd? ref = some { k with taken := [], phase := .written } := by
  have hk := (State.issued?_spec hissued).1
  have honly := u.finishWork_only k { prod := { frames := (u.cxOf k).emptyFrames k.words } } k.infos
  refine .of_next (exec_call_of_skipped hi hu hissued hskipped hin) ⟨honly .svcs (by decide), honly .xparts (by decide), ?_⟩
  have hr : k.ref = ref := State.cmd?_ref hk
  rw [← hr] at hk ⊢
  rw [State.cmd?_finishWork hk, Cmd.finished]
  simp only [List.append_nil]

/-- The state at the end of a CORE_CALL's window, the call counted as failed where it was taken up. -/
def State.windowEnded (s : State) (k : Cmd) : State :=
  if cOp k.word = 0xE4 then (s.atTime (k.reached + timeoutNs (at2 k.word 24))).updSvc (at2 k.word 12) fun v =>
    { v with failed := if k.phase == .executing then satinc 32 v.failed else v.failed }
  else s.atTime (k.reached + timeoutNs (at2 k.word 24))

theorem exec_callTimeout (hk : s.cmd? ref = some k) (hop : cOp k.word = 0xE4 ∨ (cOp k.word = 0xE3 ∧ k.phase = .issued))
    (hphase : k.phase = .issued ∨ k.phase = .executing) (hruns : k.skipped = false) :
    exec (.callTimeout ref) s = .next ((s.windowEnded k).failCmd ref 0x0301) := by
  have hactive : (k.phase != .issued && k.phase != .executing) = false := by rcases hphase with h | h <;> rw [h] <;> rfl
  change execCallTimeout ref s = _
  rcases hop with hop | ⟨hop, hissued⟩
  · simp only [execCallTimeout, hk, hop, hactive, hruns, State.windowEnded, bne_self_eq_false, Bool.and_false, Bool.or_self, Bool.false_eq_true, if_false, if_true,
      Nat.reduceEqDiff]
  · simp only [execCallTimeout, hk, hop, hissued, hruns, State.windowEnded, bne_self_eq_false, Bool.false_and, Bool.or_self, Bool.false_eq_true, if_false, if_true,
      Nat.reduceEqDiff, reduceCtorEq, beq_iff_eq]

theorem callTimeout (hk : s.cmd? ref = some k) (hop : cOp k.word = 0xE4 ∨ (cOp k.word = 0xE3 ∧ k.phase = .issued))
    (hphase : k.phase = .issued ∨ k.phase = .executing) (hruns : k.skipped = false) (hlive : (s.cx k.ctx).life = .live) :
    Yields (.callTimeout ref) s fun t => LostWith s t k.ctx 0x0301
      ∧ t.time.now = max s.time.now (k.reached + 1000000 * (if at2 k.word 24 = 0 then 2000 else at2 k.word 24)) := by
  have hended : (s.windowEnded k).cmd? ref = s.cmd? ref ∧ (s.windowEnded k).cx = s.cx ∧ (s.windowEnded k).hub = s.hub
      ∧ (s.windowEnded k).time.now = max s.time.now (k.reached + timeoutNs (at2 k.word 24)) := by
    rw [State.windowEnded]
    split <;> exact ⟨rfl, rfl, rfl, rfl⟩
  have hexec := exec_callTimeout hk hop hphase hruns
  obtain ⟨hcmd, hcx, hhub, htime⟩ := hended
  generalize s.windowEnded k = v at hexec hcmd hcx hhub htime
  obtain ⟨hlife, hstatus⟩ := State.failCmd_lostWith 0x0301 (hcmd.trans hk) (by rw [hcx]; exact hlive)
  rw [hhub] at hstatus
  exact .of_next hexec ⟨⟨hlife, hstatus⟩, by rw [State.failCmd_time, htime, timeoutNs]⟩

theorem coreCall_posts {w : State} {e : Nat} {b : List Byte} (h : Turn s u ref 0xE4 k) (hin : u.framesIn k = true)
    (hadmits : u.svcAdmits (at2 k.word 12) k.ctx = true)
    (hfree : ((List.range 64).find? fun e => ((u.svc (at2 k.word 12)).ring.get {} e).st == 0) = some e)
    (hread : ((u.cxOf k).callInput (at2 k.word 8)).exec u = (.ok b, w)) :
    Yields (.coreCall ref) s fun t => (∃ q, (t.svc (at2 k.word 12)).ring.get {} e = q ∧ q.st = 1 ∧ q.ctx = k.ctx ∧ q.func = at2 k.word 14 ∧ q.arg = at8 k.word 16 ∧ q.input = b
          ∧ q.id = (w.svc (at2 k.word 12)).nextId ∧ q.ref = some ref)
        ∧ ∀ c, w.cmd? ref = some c → t.cmd? ref = some { c with phase := .executing, call := some e } := by
  refine .of_next (exec_coreCall_of_admitted h hin hadmits hfree hread) ⟨⟨k.posted ref (w.svc (at2 k.word 12)).nextId ((u.cxOf k).callOutput (at2 k.word 10)) b, ?_, rfl, rfl, rfl, rfl, rfl, rfl, rfl⟩,
    fun c hc => ?_⟩
  · exact State.callPosted_ring _ _ _ _ _
  · exact State.cmd?_updCmd_self (s := w.updSvc (at2 k.word 12) _) hc fun _ => rfl
end

/-- Settles O58: a call by its admission, its part's state and its window's end. -/
theorem fabricCalls : Obligations.FabricCalls := by
  refine ⟨fun _ _ _ _ _ _ _ => coreCall_posts, fun s u ref k h hin hbarred hlive => ?_, fun _ _ _ _ _ _ _ _ _ _ => softCall_sends,
    fun _ _ _ _ _ _ _ _ => softCall_waits, fun s u h st n k ht hin hlive hpart => ?_, fun _ _ _ _ _ _ => call_skipped, fun _ _ _ => callTimeout⟩
  · exact .of_next (exec_coreCall_of_barred h hin hbarred) (h.fails hlive _)
  · exact .of_next (exec_softCall_of_absent ht hin hpart) (ht.fails hlive _)

end Sys2Proof.Machine
end

section
/-! REPLIES (O59). -/

namespace Sys2Proof.Machine

section
variable {s : State} {p kind : Nat} {b : List Byte} {last : Bool} {c : XCall} {k : Cmd}

theorem State.partCall.inCall (h : s.partCall p c k) : s.inCall p = some (c, k) := by
  obtain ⟨hcall, hcmd, -⟩ := h
  rw [State.inCall, hcall, Option.bind_some, hcmd, Option.map_some]

/-! ### Breaches -/

/-- A part whose breach of the handshake has been counted. -/
def XPart.breached (x : XPart) (kind : Nat) : XPart :=
  { x with violCount := satinc 32 x.violCount, violKind := kind, call := if kind = 5 then x.call else none }

/-- The state with a breach counted and logged, its call not yet failed. -/
def State.breachNoted (s : State) (p kind : Nat) : State :=
  ((s.updXp p fun x => x.breached kind).logCo 0x8001 1 7 p 0 [0, ((s.updXp p fun x => x.breached kind).xp p).portStat, 0]).emit (.portRst p)

theorem State.breach_of_call (hcall : (s.xp p).call = some c) (hkind : kind ≠ 5) : s.breach p kind = (s.breachNoted p kind).failCmd c.ref 0x0301 := by
  rw [State.breach]
  simp only [hcall, if_neg hkind]
  simp only [State.breachNoted, XPart.breached, if_neg hkind]

theorem State.breachNoted_only (s : State) (p kind : Nat) : ChangesOnly [.pins, .log] (s.updXp p fun x => x.breached kind) (s.breachNoted p kind) :=
  (State.logCo_ev (k := false) (l := [.pins, .log]) (code := 0x8001) (cls := 1) (kind := 7) (unit := p) (ctx := 0)
    (data := [0, ((s.updXp p fun x => x.breached kind).xp p).portStat, 0]) (.refl _ (s.updXp p fun x => x.breached kind)) rfl).only

theorem State.breachNoted_xp (s : State) (p kind : Nat) : (s.breachNoted p kind).xp p = (s.xp p).breached kind := by
  rw [State.xp, s.breachNoted_only p kind .xparts (by decide)]
  exact State.updXp_same s p fun x => x.breached kind

/-- A breach while a call is in progress: counted with its kind, and the call fails (R452). -/
theorem State.breach_spec (h : s.partCall p c k) (hlive : (s.cx k.ctx).life = .live) (hkind : kind ≠ 5) :
    ((s.breach p kind).xp p).violCount = satinc 32 (s.xp p).violCount ∧ ((s.breach p kind).xp p).violKind = kind ∧ ((s.breach p kind).xp p).call = none
      ∧ LostWith s (s.breach p kind) k.ctx 0x0301 := by
  obtain ⟨hcall, hcmd, -⟩ := h
  have hxp := s.breachNoted_xp p kind
  have honly := s.breachNoted_only p kind
  have hcx : (s.breachNoted p kind).ctxs = s.ctxs := honly .ctxs (by decide)
  have hhub : (s.breachNoted p kind).hub = s.hub := honly .hub (by decide)
  have hcmd' : (s.breachNoted p kind).cmd? c.ref = some k := (State.cmd?_of_cmds (honly .cmds (by decide)) c.ref).trans hcmd
  rw [State.breach_of_call hcall hkind]
  generalize s.breachNoted p kind = u at hxp hcx hhub hcmd'
  have hbegun : (u.xp p).begun := .inl (by rw [hxp]; exact satinc_ne_zero _)
  have hstays := u.failCmd_parts c.ref 0x0301 p hbegun
  have hlost := State.failCmd_lostWith 0x0301 hcmd' (by rw [cx_of_ctxs hcx]; exact hlive)
  rw [LostWith, hhub] at hlost
  rw [hstays.count, hstays.kind, hxp]
  exact ⟨rfl, rfl, hstays.call (by rw [hxp]; exact if_neg hkind), hlost⟩

/-! ### Headers -/

/-- The header's fields are the call's (R449). -/
structure XCall.agrees (c : XCall) (k : Cmd) (n : Nat) (b : List Byte) : Prop where
  isReply : at1 b 5 = 2
  id : at4 b 0 = c.id
  soft : at2 b 6 = at2 k.acc 6
  frames : at4 b 28 = n

theorem exec_replyHeader_of_agrees (hp : p < 40) (h : s.partCall p c k) (hfirst : c.header = false) (hb : c.agrees k (s.callDst k).nFrames b)
    (hlast : last = ((s.callDst k).nFrames == 0)) :
    exec (.replyHeader p b last) s = .next (if (s.callDst k).nFrames = 0 then (s.updXp p fun x => { x with call := some { c with header := true } }).endCall p k
      else s.updXp p fun x => { x with call := some { c with header := true } }) := by
  obtain ⟨hreply, hid, hsoft, hframes⟩ := hb
  change execReplyHeader p b last s = _
  simp only [execReplyHeader, if_neg (Nat.not_le.2 hp), h.inCall, hfirst, hreply, hid, hsoft, hframes, hlast, bne_self_eq_false, Bool.or_self, Bool.false_eq_true, if_false]

theorem exec_replyHeader_of_breach (hp : p < 40) (h : s.partCall p c k)
    (hb : (c.header = true ∧ kind = 3) ∨ (c.header = false ∧ (at1 b 5 ≠ 2 ∨ at4 b 0 ≠ c.id) ∧ kind = 2)) :
    exec (.replyHeader p b last) s = .next (s.breach p kind) := by
  change execReplyHeader p b last s = _
  rcases hb with ⟨hopened, rfl⟩ | ⟨hfirst, hother, rfl⟩
  · simp only [execReplyHeader, if_neg (Nat.not_le.2 hp), h.inCall, hopened, if_true]
  · have hdisagrees : (at1 b 5 != 2 || at4 b 0 != c.id) = true := by simpa using hother
    simp only [execReplyHeader, if_neg (Nat.not_le.2 hp), h.inCall, hfirst, hdisagrees, Bool.true_or, Bool.false_eq_true, if_false, if_true]

/-- The end of a call: the part is free, and the command's last write done. -/
theorem State.endCall_spec {d : Cmd} (hd : s.cmd? k.ref = some d) : ((s.endCall p k).xp p).call = none
    ∧ ((s.endCall p k).cmd? k.ref).map (fun d => (d.staged, d.phase)) = some (d.staged, .written) := by
  have hr : d.ref = k.ref := State.cmd?_ref hd
  have hd' : (s.updXp p fun x => { x with call := none }).cmd? d.ref = some d := by rw [hr]; exact hd
  have hfree : ((s.updXp p fun x => { x with call := none }).xp p).call = none := by rw [State.updXp_same]
  rw [← hr] at hd ⊢
  rw [State.endCall, ← hr]
  generalize (s.updXp p fun x => { x with call := none }) = v at hd' hfree
  simp only [hd']
  refine ⟨?_, ?_⟩
  · rw [State.xp, (v.finishWork_only d _ _) .xparts (by decide)]
    exact hfree
  · rw [State.cmd?_finishWork hd', Option.map_some, Cmd.finished]
    simp only [List.append_nil]

/-! ### Frames -/

theorem exec_replyFrame_of_fits {ws : List (Loc × Byte)} {u w : State} (hp : p < 40) (h : s.partCall p c k) (hopened : c.header = true)
    (hfits : (s.callDst k).frameFits (readFrame b (s.callDst k)) c.id c.frames = true)
    (hlen : b.length = frameLen (s.callDst k).fmt (s.callDst k).d.tileRows (s.callDst k).d.tileCols (s.callDst k).d.scaled)
    (hlast : last = (c.frames + 1 == (s.callDst k).nFrames)) (hspace : (s.callDst k).d.space ≠ 3)
    (hu : u = s.updXp p fun x => { x with call := some { c with frames := c.frames + 1 } })
    (hstage : ((u.cxOf k).stageFrame (s.callDst k) (readFrame b (s.callDst k)) c.frames).exec u = (.ok ws, w)) :
    exec (.replyFrame p b last) s = .next (if last then (w.updCmd k.ref fun k => { k with staged := k.staged ++ ws }).endCall p k
      else w.updCmd k.ref fun k => { k with staged := k.staged ++ ws }) := by
  subst hu
  rw [hopened] at hstage
  change execReplyFrame p b last s = _
  simp only [execReplyFrame, if_neg (Nat.not_le.2 hp), h.inCall, hopened, hfits, hlen, ← hlast, bne_self_eq_false, Bool.not_true, Bool.or_self, Bool.false_eq_true,
    if_false, if_neg hspace, hstage]

theorem exec_replyFrame_of_breach (hp : p < 40) (h : s.partCall p c k) (hb : (c.header = false ∧ kind = 2)
      ∨ (c.header = true ∧ (s.callDst k).frameFits (readFrame b (s.callDst k)) c.id c.frames = false ∧ kind = 3)) :
    exec (.replyFrame p b last) s = .next (s.breach p kind) := by
  change execReplyFrame p b last s = _
  rcases hb with ⟨hfirst, rfl⟩ | ⟨hopened, hmisfits, rfl⟩
  · simp only [execReplyFrame, if_neg (Nat.not_le.2 hp), h.inCall, hfirst, Bool.not_false, if_true]
  · simp only [execReplyFrame, if_neg (Nat.not_le.2 hp), h.inCall, hopened, hmisfits, Bool.not_true, Bool.not_false, Bool.false_eq_true, if_false, if_true]

/-- A frame that agrees is staged, and the last one ends the call (R449). -/
theorem replyFrame_staged {ws : List (Loc × Byte)} {u : State} (hp : p < 40) (h : s.partCall p c k) (hopened : c.header = true)
    (hfits : (s.callDst k).frameFits (readFrame b (s.callDst k)) c.id c.frames = true)
    (hlen : b.length = frameLen (s.callDst k).fmt (s.callDst k).d.tileRows (s.callDst k).d.tileCols (s.callDst k).d.scaled)
    (hlast : last = (c.frames + 1 == (s.callDst k).nFrames)) (hspace : (s.callDst k).d.space ≠ 3)
    (hu : u = s.updXp p fun x => { x with call := some { c with frames := c.frames + 1 } })
    (hstage : (((u.cxOf k).stageFrame (s.callDst k) (readFrame b (s.callDst k)) c.frames).exec u).1 = .ok ws)
    (hcmds : (((u.cxOf k).stageFrame (s.callDst k) (readFrame b (s.callDst k)) c.frames).exec u).2.cmds = u.cmds) :
    Yields (.replyFrame p b last) s fun t => (t.cmd? k.ref).map (fun d => (d.staged, d.phase)) = some (k.staged ++ ws, if last then .written else k.phase) := by
  have hrun : ((u.cxOf k).stageFrame (s.callDst k) (readFrame b (s.callDst k)) c.frames).exec u
      = (.ok ws, (((u.cxOf k).stageFrame (s.callDst k) (readFrame b (s.callDst k)) c.frames).exec u).2) := Prod.ext hstage rfl
  have hk : s.cmd? k.ref = some k := by
    obtain ⟨-, hcmd, href⟩ := h
    rw [href]
    exact hcmd
  have hucmds : u.cmds = s.cmds := by rw [hu]; rfl
  generalize (((u.cxOf k).stageFrame (s.callDst k) (readFrame b (s.callDst k)) c.frames).exec u).2 = w at hrun hcmds
  have hexec := exec_replyFrame_of_fits hp h hopened hfits hlen hlast hspace hu hrun
  have hstaged : (w.updCmd k.ref fun k => { k with staged := k.staged ++ ws }).cmd? k.ref = some { k with staged := k.staged ++ ws } :=
    State.cmd?_updCmd_self ((State.cmd?_of_cmds (hcmds.trans hucmds) k.ref).trans hk) fun _ => rfl
  refine .of_next hexec ?_
  cases last with
  | false =>
    change ((w.updCmd k.ref fun k => { k with staged := k.staged ++ ws }).cmd? k.ref).map _ = _
    rw [hstaged]
    rfl
  | true => exact (State.endCall_spec (p := p) hstaged).2
end

/-- Settles O59: a reply by whether it agrees; a breach keeps its count and kind through the failure of its command. -/
theorem replies : Obligations.Replies := by
  refine ⟨?_, ?_, ?_, fun _ _ _ _ _ _ _ _ => replyFrame_staged, ?_⟩
  · intro s p b c k hp h hfirst hreply hid hsoft hframes hsome
    have hexec := exec_replyHeader_of_agrees (last := false) hp h hfirst ⟨hreply, hid, hsoft, hframes⟩ (beq_eq_false_iff_ne.2 hsome).symm
    rw [if_neg hsome] at hexec
    exact .of_next hexec ⟨by rw [State.updXp_same], rfl⟩
  · intro s p b c k hp h hfirst hreply hid hsoft hframes hnone
    have hexec := exec_replyHeader_of_agrees (last := true) hp h hfirst ⟨hreply, hid, hsoft, hframes⟩ (beq_iff_eq.2 hnone).symm
    have hk : s.cmd? k.ref = some k := by
      obtain ⟨-, hcmd, href⟩ := h
      rw [href]
      exact hcmd
    rw [if_pos hnone] at hexec
    obtain ⟨hcall, hwritten⟩ := State.endCall_spec (s := s.updXp p fun x => { x with call := some { c with header := true } }) (p := p) hk
    refine .of_next hexec ⟨hcall, ?_⟩
    have hphase := congrArg (Option.map Prod.snd) hwritten
    rwa [Option.map_map, Option.map_some] at hphase
  · intro s p kind b last c k hp h hlive hb
    have hkind : kind ≠ 5 := by rcases hb with ⟨-, rfl⟩ | ⟨-, -, rfl⟩ <;> decide
    exact .of_next (exec_replyHeader_of_breach hp h hb) (State.breach_spec h hlive hkind)
  · intro s p kind b last c k hp h hlive hb
    have hkind : kind ≠ 5 := by rcases hb with ⟨-, rfl⟩ | ⟨-, -, rfl⟩ <;> decide
    exact .of_next (exec_replyFrame_of_breach hp h hb) (State.breach_spec h hlive hkind)

end Sys2Proof.Machine
end

section
/-! UNIT QUEUES (O44). -/

namespace Sys2Proof.Machine

/-- One entry of unit u's queue filled (R269, R367). -/
def State.fillEntry (s : State) (u : Nat) : Out :=
  if (s.un u).queue.length < 8 then
    match s.pickProgram u false with
    | some b => .next (s.enqueue u b)
    | none => .next s
  else match s.pickProgram u true, s.evict u with
    | some b, some r => .next ((s.updUn u fun q => { q with queue := q.queue.filter fun x => x != r }).enqueue u b)
    | _, _ => .next s

theorem exec_queueAdmission {c : Nat} (hc : c < 480) (x : UnitKind) (s : State) : exec (.queueAdmission c x) s = s.fillEntry (unitNo c x) := by
  change execQueueAdmission c x s = _
  unfold execQueueAdmission
  rw [if_neg (Nat.not_le.2 hc)]
  rfl

theorem State.fillEntry_of_room {s : State} {u : Nat} {b : Nat × Nat} (hroom : (s.un u).queue.length < 8) (hpick : s.pickProgram u false = some b) :
    s.fillEntry u = .next (s.enqueue u b) := by
  simp only [State.fillEntry, if_pos hroom, hpick]

theorem State.fillEntry_of_full {s : State} {u : Nat} {b : Nat × Nat} {q : CmdRef} (hfull : 8 ≤ (s.un u).queue.length)
    (hpick : s.pickProgram u true = some b) (hevict : s.evict u = some q) :
    s.fillEntry u = .next ((s.updUn u fun v => { v with queue := v.queue.filter fun y => y != q }).enqueue u b) := by
  simp only [State.fillEntry, if_neg (Nat.not_lt.2 hfull), hpick, hevict]

/-- A command at the end of a unit's queue, the turn passed on from program i. -/
def State.queued (s : State) (u i : Nat) (r : CmdRef) : State := s.updUn u fun q => { q with queue := q.queue ++ [r], next := (i + 1) % q.binds.length }

/-- The place of a program among a unit's bindings. -/
def State.placeOf (s : State) (u : Nat) (b : Nat × Nat) : Nat := ((s.un u).binds.findIdx? fun x => x == b).getD 0

theorem State.queued_queue (s : State) (u i : Nat) (r : CmdRef) : ((s.queued u i r).un u).queue = (s.un u).queue ++ [r] := by rw [State.queued, State.updUn_same]

theorem State.queued_cmds (s : State) (u i : Nat) (r : CmdRef) : (s.queued u i r).cmds = s.cmds := rfl

/-- A command that went back to its program is queued again. -/
theorem State.enqueue_of_back {s : State} {u : Nat} {b : Nat × Nat} {r : CmdRef} (hnext : s.nextFor u b = some (some r)) :
    s.enqueue u b = s.queued u (s.placeOf u b) r := by
  rw [State.enqueue]
  simp only [hnext]
  rfl

/-- The program's next command is issued and queued. -/
theorem State.enqueue_of_next {s : State} {u : Nat} {b : Nat × Nat} (hnext : s.nextFor u b = some none)
    (hissued : (((s.issue b.1 b.2).takeFrames b.1).cmd? (.station b.1 b.2 ((s.sec b.1).head b.2))).isSome = true) :
    s.enqueue u b = ((s.issue b.1 b.2).takeFrames b.1).queued u (s.placeOf u b) (.station b.1 b.2 ((s.sec b.1).head b.2)) := by
  rw [State.enqueue]
  simp only [hnext, hissued, if_true]
  rfl

/-- Settles O44: the admission by the place that the queue has or the entry that it takes back. -/
theorem unitQueues : Obligations.UnitQueues := by
  refine ⟨fun s c x b r hc hroom hpick hnext => ?_, fun s c x b hc hroom hpick hnext hissued => ?_, fun s c x b q r hc hfull hpick hevict hnext => ?_⟩
  · refine .of_next ((exec_queueAdmission hc x s).trans (State.fillEntry_of_room hroom hpick)) ?_
    rw [State.enqueue_of_back hnext]
    exact ⟨State.queued_queue _ _ _ _, State.queued_cmds _ _ _ _⟩
  · refine .of_next ((exec_queueAdmission hc x s).trans (State.fillEntry_of_room hroom hpick)) ?_
    rw [State.enqueue_of_next hnext hissued]
    exact ⟨State.queued_cmds _ _ _ _, State.queued_queue _ _ _ _⟩
  · refine .of_next ((exec_queueAdmission hc x s).trans (State.fillEntry_of_full hfull hpick hevict)) ?_
    rw [State.enqueue_of_back hnext]
    refine ⟨?_, State.queued_cmds _ _ _ _⟩
    rw [State.queued_queue, State.updUn_same]

end Sys2Proof.Machine
end

section
/-! PATCH, REPLAY, RUNS AND CHAINS (O48). -/

namespace Sys2Proof.Machine

section
variable {s u : State} {ref : CmdRef} {k : Cmd}

/-! ### PATCH and REPLAY -/

/-- A PATCH whose values all pass their checks (R231). -/
theorem exec_patch_of_ok {v : State} {h : Nat} {l : List (Nat × Word)} (ht : Turn s u ref 0xE0 k) (htarget : u.patchTarget k = .ok h)
    (hrests : u.targetRests k h = true) (hvalues : u.patchValues k h = (.ok l, v)) (hchecks : ∀ e ∈ l, v.regCheck h e.1 e.2.toNat = 0) :
    exec (.patch ref) s = .next ((v.updCmd ref fun k => { k with regWrites := l, target := h }).markWritten ref) := by
  have hnone : (l.map fun e => v.regCheck h e.1 e.2.toNat).find? (· != 0) = none := by
    rw [List.find?_eq_none]
    intro n hn
    obtain ⟨e, he, rfl⟩ := List.mem_map.1 hn
    rw [hchecks e he]
    decide
  obtain ⟨rfl, hissued, hruns⟩ := ht
  change execPatch ref s = _
  simp only [execPatch, hissued, hruns, htarget, hrests, hvalues, hnone, Bool.not_true, Bool.false_eq_true, if_false]

theorem exec_patch_of_error {e : Nat} (ht : Turn s u ref 0xE0 k) (htarget : u.patchTarget k = .error e) : exec (.patch ref) s = .next (u.failCmd ref e) := by
  obtain ⟨rfl, hissued, hruns⟩ := ht
  change execPatch ref s = _
  simp only [execPatch, hissued, hruns, htarget, Bool.false_eq_true, if_false]

/-- The REPLAY of a command (R233). -/
def Cmd.replay (k : Cmd) (ref : CmdRef) (h : Nat) : Replay :=
  { ref, ctx := k.ctx, sec := h, left := at4 k.word 16, predReg := if bit (at1 k.word 20) 6 then some (fld (at1 k.word 20) 0 6) else none
    stepReg := if bit (at1 k.word 21) 6 then some (fld (at1 k.word 21) 0 6) else none, stepImm := at8 k.word 24 }

/-- The state with a REPLAY in progress. -/
def State.replaying (s : State) (ref : CmdRef) (h : Nat) (r : Replay) : State :=
  ({ s with replays := s.replays ++ [r] }).updCmd ref fun k => { k with phase := .executing, target := h }

theorem exec_replay {h : Nat} (hissued : s.issued? ref 0xE1 = some k) (htarget : s.patchTarget k = .ok h) (hrests : s.targetRests k h = true) :
    exec (.replay ref) s = if at4 k.word 16 = 0 then .next (s.markWritten ref)
      else .next (if (s.sec h).lc then (s.replaying ref h (k.replay ref h)).updPt (s.sec h).part fun p => { p with lcWait := p.lcWait ++ [h] }
        else s.replaying ref h (k.replay ref h)) := by
  change execReplay ref s = _
  simp only [execReplay, hissued, htarget, hrests, Bool.not_true, Bool.false_eq_true, if_false]
  rfl

theorem replay_starts {h : Nat} (hissued : s.issued? ref 0xE1 = some k) (htarget : s.patchTarget k = .ok h) (hrests : s.targetRests k h = true)
    (hcount : at4 k.word 16 ≠ 0) :
    Yields (.replay ref) s fun t => t.cmd? ref = some { k with phase := .executing, target := h }
      ∧ ∃ r, t.replays = s.replays ++ [r] ∧ r.ref = ref ∧ r.sec = h ∧ r.left = at4 k.word 16 ∧ r.stepImm = at8 k.word 24 := by
  have hexec := exec_replay hissued htarget hrests
  have hcmd : (s.replaying ref h (k.replay ref h)).cmd? ref = some { k with phase := .executing, target := h } :=
    State.cmd?_updCmd_self (s := { s with replays := s.replays ++ [k.replay ref h] }) (State.issued?_spec hissued).1 fun _ => rfl
  rw [if_neg hcount] at hexec
  refine .of_next hexec ?_
  split <;> exact ⟨hcmd, k.replay ref h, rfl, rfl, rfl, rfl, rfl⟩

/-! ### The start of a run -/

/-- A section whose run begins with fresh formats and route numbers (R268). -/
def Section.started (x : Section) (ring : Option Nat) (now : Nat) : Section :=
  { x with run := some { ring, started := now }, fmts := [], tscales := [], runNo := (x.runNo + 1) % 2 ^ 32 }

def State.runBegun (s : State) (h : Nat) (ring : Option Nat) : State := (s.updSec h fun x => x.started ring s.time.now).clearRegTags h

theorem State.startRun_eq (s : State) (h : Nat) : ∃ ring, s.startRun h = if (s.sec h).lc then
    (s.runBegun h ring).updPt (s.sec h).part fun q => { q with lcRun := some h, lcWait := q.lcWait.drop 1 } else s.runBegun h ring := by
  simp only [State.runBegun, Section.started]
  exact ⟨_, by rw [State.startRun]⟩

theorem State.runBegun_sec (s : State) (h : Nat) (ring : Option Nat) : (s.runBegun h ring).sec h = (s.sec h).started ring s.time.now :=
  State.updSec_same s h fun x => x.started ring s.time.now

theorem runStart {h : Nat} (hmay : s.mayStart h = true) : Yields (.runStart h) s fun t => (∃ g, (t.sec h).run = some { ring := g, started := s.time.now })
    ∧ (t.sec h).fmts = [] ∧ (t.sec h).tscales = [] ∧ (t.sec h).runNo = ((s.sec h).runNo + 1) % 2 ^ 32 ∧ (t.sec h).regs = (s.sec h).regs
    ∧ ((s.sec h).lc = true → (t.pt (s.sec h).part).lcRun = some h ∧ (t.pt (s.sec h).part).lcWait = (s.pt (s.sec h).part).lcWait.drop 1) := by
  have hexec : exec (.runStart h) s = .next (s.startRun h) := by
    change execRunStart h s = _
    rw [execRunStart, if_pos hmay]
  obtain ⟨ring, hstart⟩ := s.startRun_eq h
  have hsec := s.runBegun_sec h ring
  have hpt : (s.runBegun h ring).pt = s.pt := rfl
  rw [hstart] at hexec
  generalize s.runBegun h ring = u at hexec hsec hpt
  have hrun : (∃ g, (u.sec h).run = some { ring := g, started := s.time.now }) ∧ (u.sec h).fmts = [] ∧ (u.sec h).tscales = []
      ∧ (u.sec h).runNo = ((s.sec h).runNo + 1) % 2 ^ 32 ∧ (u.sec h).regs = (s.sec h).regs := by
    rw [hsec]
    exact ⟨⟨ring, rfl⟩, rfl, rfl, rfl, rfl⟩
  obtain ⟨hring, hfmts, htscales, hno, hregs⟩ := hrun
  refine .of_next hexec ?_
  cases hlc : (s.sec h).lc with
  | false => exact ⟨hring, hfmts, htscales, hno, hregs, fun h => absurd h Bool.false_ne_true⟩
  | true =>
    refine ⟨hring, hfmts, htscales, hno, hregs, fun _ => ?_⟩
    rw [if_pos rfl, State.updPt_same, hpt]
    exact ⟨rfl, rfl⟩

/-! ### Chains -/

/-- A chain that is taken up, and the frames of its section with it. -/
def State.chainTaken (s : State) (ref : CmdRef) : State := (refSec ref).elim (s.takeUp ref 0xE2) (s.takeUp ref 0xE2).takeFrames

theorem State.cmd?_occupy (s : State) (k : Cmd) (hold : Bool) (r : CmdRef) : (s.occupy k hold).cmd? r = s.cmd? r :=
  State.cmd?_of_cmds ((State.occupy_ev (k := false) (l := [.units]) (.refl _ s) rfl).only .cmds (by decide)) r

theorem exec_chain_of_ok {v w : State} {c : Cmd} {p : Made} {is : List RecInfo} (hu : u = s.chainTaken ref) (hissued : u.issued? ref 0xE2 = some k)
    (hruns : k.skipped = false) (hrun : u.runnable ref = true) (huse : u.mayUse k = true) (hv : v = u.chargeCmd k) (hc : v.cmd? ref = some c) (hheld : c.held = [])
    (hchain : ((v.cxOf c).runChain c.members (c.infos.drop 1)).exec v = (.ok (p, is), w)) :
    exec (.chain ref) s = .next (((w.vectorBusy c).finishWork c { prod := p } (c.infos.headD {} :: is)).occupy c (!p.frames.isEmpty)) := by
  subst hv
  change execChain ref s = _
  rw [execChain, show (refSec ref).elim (s.takeUp ref 0xE2) (s.takeUp ref 0xE2).takeFrames = u from hu.symm]
  simp only [hissued, hruns, hrun, huse, hc, hheld, hchain, Bool.not_true, Bool.or_self, Bool.false_eq_true, if_false, List.isEmpty_nil]

theorem exec_chain_of_skipped (hu : u = s.chainTaken ref) (hissued : u.issued? ref 0xE2 = some k) (hskipped : k.skipped = true)
    (hrun : u.runnable ref = true) (huse : u.mayUse k = true) :
    exec (.chain ref) s = .next ((u.finishWork k { prod := { frames := (u.cxOf k).emptyFrames k.words } } k.infos).occupy k
      (!((u.cxOf k).emptyFrames k.words).isEmpty)) := by
  change execChain ref s = _
  rw [execChain, show (refSec ref).elim (s.takeUp ref 0xE2) (s.takeUp ref 0xE2).takeFrames = u from hu.symm]
  simp only [hissued, hskipped, hrun, huse, Bool.not_true, Bool.or_self, Bool.false_eq_true, if_false, if_true]

/-- The members' work done (R235). -/
theorem chain_works {v w : State} {c : Cmd} {p : Made} {is : List RecInfo} (hu : u = s.chainTaken ref) (hissued : u.issued? ref 0xE2 = some k)
    (hruns : k.skipped = false) (hrun : u.runnable ref = true) (huse : u.mayUse k = true) (hv : v = u.chargeCmd k) (hc : v.cmd? ref = some c) (hheld : c.held = [])
    (hchain : ((v.cxOf c).runChain c.members (c.infos.drop 1)).exec v = (.ok (p, is), w)) :
    Yields (.chain ref) s fun t => ∀ d, w.cmd? ref = some d → t.cmd? ref = some (d.finished { prod := p } (c.infos.headD {} :: is)) := by
  refine .of_next (exec_chain_of_ok hu hissued hruns hrun huse hv hc hheld hchain) fun d hd => ?_
  have hr : c.ref = ref := State.cmd?_ref hc
  have hbusy : (w.vectorBusy c).cmd? ref = w.cmd? ref :=
    State.cmd?_of_cmds ((State.vectorBusy_ev (k := false) (l := [.msix, .clusters]) (.refl _ w) rfl).only .cmds (by decide)) ref
  rw [← hr] at hd hbusy ⊢
  rw [State.cmd?_occupy, State.cmd?_finishWork (hbusy.trans hd)]

theorem chain_skipped (hu : u = s.chainTaken ref) (hissued : u.issued? ref 0xE2 = some k) (hskipped : k.skipped = true)
    (hrun : u.runnable ref = true) (huse : u.mayUse k = true) :
    Yields (.chain ref) s fun t => t.cmd? ref = some { k with taken := [], phase := .written } ∧ t.hbm = u.hbm ∧ t.chip = u.chip := by
  have hk := (State.issued?_spec hissued).1
  have hr : k.ref = ref := State.cmd?_ref hk
  have honly := (State.occupy_ev (k := false) (l := [.secs, .cmds, .units]) (x1 := k) (hold := !((u.cxOf k).emptyFrames k.words).isEmpty)
    (State.finishWork_ev (x1 := k) (a := { prod := { frames := (u.cxOf k).emptyFrames k.words } }) (infos := k.infos) (.refl _ u) rfl) rfl).only
  refine .of_next (exec_chain_of_skipped hu hissued hskipped hrun huse) ⟨?_, honly .hbm (by decide), honly .chip (by decide)⟩
  rw [← hr] at hk ⊢
  rw [State.cmd?_occupy, State.cmd?_finishWork hk, Cmd.finished]
  simp only [List.append_nil]
end

/-- Settles O48: the rows of PATCH, REPLAY, runs and chains, each by its equation. -/
theorem runControl : Obligations.RunControl := by
  refine ⟨fun s u v ref k h l ht htarget hrests hvalues hchecks => ?_, fun s u ref k e ht htarget hlive => ?_, fun s ref k h hissued htarget hrests hcount => ?_,
    fun _ _ _ _ => replay_starts, fun _ _ => runStart, fun _ _ _ _ _ _ _ _ _ => chain_works, fun _ _ _ _ => chain_skipped⟩
  · refine .of_next (exec_patch_of_ok ht htarget hrests hvalues hchecks) ⟨rfl, fun c hc => ?_⟩
    exact State.cmd?_updCmd_markWritten hc fun _ => rfl
  · exact .of_next (exec_patch_of_error ht htarget) (ht.fails hlive e)
  · have hexec := exec_replay hissued htarget hrests
    rw [if_pos hcount] at hexec
    exact .of_next hexec ⟨rfl, State.cmd?_updCmd_self (State.issued?_spec hissued).1 fun _ => rfl⟩

end Sys2Proof.Machine
end

section
/-! DATA MOVEMENT (O46). -/

namespace Sys2Proof.Machine

/-- Actions in turn that succeed: the first does, and then the second (compare `Calm.bind`). -/
theorem Cm.exec_bind_ok {α β : Type} {x : Cm α} {f : α → Cm β} {s t : State} {b : β} (h : (x >>= f).exec s = (.ok b, t)) :
    ∃ a u, x.exec s = (.ok a, u) ∧ (f a).exec u = (.ok b, t) := by
  change (Bind.bind x f : Cm β) s = _ at h
  simp only [Bind.bind, ExceptT.bind, ExceptT.mk, StateT.bind] at h
  cases hx : x s with
  | mk r u =>
    rw [hx] at h
    cases r with
    | error e => exact nomatch congrArg Prod.fst h
    | ok a => exact ⟨a, u, hx, h⟩

/-! ### Where a command stands -/

/-- A section but for its run. -/
def Section.still (x : Section) : Section := { x with run := none }

theorem Section.unitsOf_still (x : Section) (st : Nat) (w : List Byte) (ms : List (List Byte)) : x.still.unitsOf st w ms = x.unitsOf st w ms := rfl

/-- What the runs hold binds no station anew. -/
def State.Still (s t : State) : Prop := ∀ h, (t.sec h).still = (s.sec h).still

theorem State.Still.of_secs {s t : State} (h : t.secs = s.secs) : s.Still t := fun g => by rw [State.sec, h, State.sec]

theorem State.Still.trans {s t u : State} (h : s.Still t) (j : t.Still u) : s.Still u := fun g => (j g).trans (h g)

theorem State.updRun_still (s : State) (h : Nat) (f : Run → Run) : s.Still (s.updRun h f) := fun g => by
  rw [State.updRun, State.updSec_at]
  split
  next hg => subst hg; rfl
  next => rfl

theorem State.putTile_still (s : State) (ref : CmdRef) (f : SFrame) : s.Still (s.putTile ref f) := by
  cases ref with
  | ring r => exact fun _ => rfl
  | station h st i => exact s.updRun_still h _

theorem State.finishWork_still (s : State) (k : Cmd) (a : Acc) (infos : List RecInfo) : s.Still (s.finishWork k a infos) := by
  rw [State.finishWork]
  cases k.ref with
  | ring r => exact fun _ => rfl
  | station h st i => exact (State.Still.of_secs rfl).trans (State.updRun_still _ h _)

/-- The sender's body changes no section but in its run. -/
theorem bodyMcastSend_still {c : Cx} {w : List Byte} {a b : Acc} {s t : State} (h : (bodyMcastSend c w a).exec s = (.ok b, t)) : s.Still t := by
  rw [bodyMcastSend] at h
  obtain ⟨x, u, hload, h⟩ := Cm.exec_bind_ok h
  obtain ⟨sc, v, hscales, h⟩ := Cm.exec_bind_ok h
  obtain ⟨_, w', hput, h⟩ := Cm.exec_bind_ok h
  have hu : u.secs = s.secs := by
    have hcalm := ((Cx.load_ev (k := false) (l := [.pins, .hub, .funcs, .msix, .ctxs, .tlb, .rings, .hbm, .pans, .clusters, .power, .log, .cmds, .replays,
      .hzn, .xparts, .atsInvals]) (c := c) (chain := a.prod.chain) (x2 := at2 w 8) rfl).run s).only .secs (by decide)
    rwa [hload] at hcalm
  have hv : v.secs = u.secs := by
    have hcalm := ((Cx.elemScales_ev (k := false) (l := [.pins, .hub, .funcs, .msix, .ctxs, .tlb, .rings, .hbm, .pans, .clusters, .power, .log, .cmds, .replays,
      .hzn, .xparts, .atsInvals]) (c := c) (t := c.tref (at2 w 8)) rfl).run u).only .secs (by decide)
    rwa [hscales] at hcalm
  have hw : w' = v.putTile c.ref _ := (congrArg Prod.snd hput).symm
  have ht : t = w' := (congrArg Prod.snd h).symm
  rw [ht, hw]
  exact (State.Still.of_secs (hv.trans hu)).trans (v.putTile_still c.ref _)

/-! ### Units left -/

/-- A unit that has let a command go. -/
def CoreUnit.left (x : CoreUnit) (ref : CmdRef) (cur : Option CmdRef) : Prop := ref ∉ x.queue ∧ x.cur = cur

/-- A command leaves each of the units that it held. -/
theorem State.occupy_left {s : State} {k : Cmd} {u : Nat} (hu : u ∈ s.unitsOf k) (hold : Bool) :
    ((s.occupy k hold).un u).left k.ref (if hold then some k.ref else none) := by
  have hleft : ∀ (us : List Nat) (v : State), (v.un u).left k.ref (if hold then some k.ref else none) ∨ u ∈ us →
      ((us.foldl (fun s u => s.updUn u fun q => { q with queue := q.queue.filter fun x => x != k.ref, cur := if hold then some k.ref else none }) v).un u).left
        k.ref (if hold then some k.ref else none) := by
    intro us
    induction us with
    | nil => exact fun v h => h.resolve_right List.not_mem_nil
    | cons a us ih =>
      intro v h
      refine ih _ ?_
      by_cases ha : u = a
      · subst ha
        refine .inl ?_
        rw [State.updUn_same]
        exact ⟨by simp, rfl⟩
      · rw [State.updUn_ne _ _ _ ha]
        exact h.imp_right fun hm => (List.mem_cons.1 hm).resolve_left ha
  exact hleft _ s (.inr hu)

theorem Section.mem_unitsOf {x : Section} {st u : Nat} {w : List Byte} (hu : x.unitFor st w = some u) (hop : cOp w ≠ 0xE2) (ms : List (List Byte)) :
    u ∈ x.unitsOf st w ms := by
  rw [Section.unitsOf, if_neg hop, hu]
  exact List.mem_append_left _ (List.mem_singleton.2 rfl)

/-! ### The end of a unit's work -/

/-- A unit command executed: its results staged, its units left (R208). -/
def State.unitDone (s : State) (k : Cmd) (a : Acc) : State := ((s.vectorBusy k).finishWork k a [a.info]).occupy k (!a.prod.frames.isEmpty)

theorem State.vectorBusy_only (s : State) (k : Cmd) : ChangesOnly [.msix, .clusters] s (s.vectorBusy k) := (State.vectorBusy_ev (k := false) (.refl _ s) rfl).only

theorem State.sendMsix_hostMem (s : State) (f v : Nat) : (s.sendMsix f v).hostMem = s.hostMem := by
  rw [State.sendMsix]
  split
  · rfl
  · split <;> rfl

theorem State.perf_hostMem (s : State) (c ev n : Nat) : (s.perf c ev n).hostMem = s.hostMem := by
  rw [State.perf]
  dsimp only
  split
  · rfl
  · split
    · exact State.sendMsix_hostMem _ _ _
    · rfl

theorem State.vectorBusy_hostMem (s : State) (k : Cmd) : (s.vectorBusy k).hostMem = s.hostMem := by
  rw [State.vectorBusy]
  split
  · rfl
  · exact State.perf_hostMem _ _ _ _

theorem State.finishWork_hostMem (s : State) (k : Cmd) (a : Acc) (infos : List RecInfo) : (s.finishWork k a infos).hostMem = s.hostMem := by
  rw [State.finishWork]
  cases k.ref <;> rfl

theorem State.occupy_hostMem (s : State) (k : Cmd) (hold : Bool) : (s.occupy k hold).hostMem = s.hostMem :=
  foldl_keeps (f := fun s u => s.updUn u fun q => { q with queue := q.queue.filter fun x => x != k.ref, cur := if hold then some k.ref else none })
    State.hostMem (fun _ _ => rfl) (s.unitsOf k) s

theorem State.unitDone_hostMem (s : State) (k : Cmd) (a : Acc) : (s.unitDone k a).hostMem = s.hostMem := by
  rw [State.unitDone, State.occupy_hostMem, State.finishWork_hostMem, State.vectorBusy_hostMem]

theorem State.unitDone_only (s : State) (k : Cmd) (a : Acc) : ChangesOnly [.msix, .clusters, .secs, .cmds, .units] s (s.unitDone k a) :=
  (State.occupy_ev (k := false) (State.finishWork_ev (State.vectorBusy_ev (.refl _ s) rfl) rfl) rfl).only

theorem State.cmd?_unitDone (s : State) (k : Cmd) (a : Acc) : (s.unitDone k a).cmd? k.ref = (s.cmd? k.ref).map fun d => d.finished a [a.info] := by
  have hcmds : ((s.vectorBusy k).finishWork k a [a.info]).cmd? k.ref = ((s.vectorBusy k).updCmd k.ref fun c => c.finished a [a.info]).cmd? k.ref :=
    State.cmd?_of_cmds (State.finishWork_cmds _ _ _ _) _
  have hbusy : (s.vectorBusy k).cmd? k.ref = s.cmd? k.ref := State.cmd?_of_cmds (s.vectorBusy_only k .cmds (by decide)) _
  rw [State.unitDone, State.cmd?_occupy, hcmds]
  cases hd : s.cmd? k.ref with
  | some d => exact State.cmd?_updCmd_self (hbusy.trans hd) fun _ => rfl
  | none =>
    refine (State.cmd?_updCmd (s.vectorBusy k) k.ref k.ref (f := fun c => c.finished a [a.info]) fun _ => rfl).trans ?_
    rw [hbusy, hd, Option.map_none, Option.map_none]

/-- Event W of R208 for a command that holds unit u. -/
theorem State.unitDone_worked {s : State} {k : Cmd} {a : Acc} {u : Nat} (hu : u ∈ ((s.vectorBusy k).finishWork k a [a.info]).unitsOf k) :
    Worked s (s.unitDone k a) k.ref u a [a.info] := by
  obtain ⟨hqueue, hcur⟩ := State.occupy_left hu (!a.prod.frames.isEmpty)
  have honly := s.unitDone_only k a
  refine ⟨fun d hd => ?_, hqueue, hcur.trans ?_, s.unitDone_hostMem k a, honly .hbm (by decide), honly .chip (by decide)⟩
  · rw [State.cmd?_unitDone, hd]
    rfl
  · cases a.prod.frames.isEmpty <;> rfl

/-! ### A command that its unit may execute -/

section
variable {s : State} {h st n u op : Nat} {k : Cmd}

theorem UnitTurn.unit (ht : UnitTurn s (.station h st n) op u k) : (s.sec h).unitFor st k.word = some u := by
  obtain ⟨h', st', n', href, hunit⟩ := ht.place
  obtain ⟨rfl, rfl, rfl⟩ := CmdRef.station.inj href
  exact hunit

theorem UnitTurn.issued (ht : UnitTurn s (.station h st n) op u k) : s.issued? (.station h st n) op = some k := by
  have hphase : k.phase = .issued := by
    have hmay := ht.may
    simp only [State.mayRun, State.runnable, ht.held, Bool.and_eq_true, beq_iff_eq] at hmay
    tauto
  simp only [State.issued?, ht.held, ht.opcode, hphase, and_self, if_true]

theorem UnitTurn.ref (ht : UnitTurn s (.station h st n) op u k) : k.ref = .station h st n := State.cmd?_ref ht.held

/-! ### MCAST -/

theorem exec_mcast (ht : UnitTurn s (.station h st n) 0x83 u k) (hsend : mcSender k.word = true) (hruns : k.skipped = false) :
    exec (.mcast (.station h st n)) s = .next (if (s.cl ((s.sec h).treeCluster st)).granted == some (.station h st n) then
        (s.runUnit (.station h st n) 0x83 bodyMcastSend).endTree ((s.sec h).treeCluster st) (.station h st n)
      else if (s.cl ((s.sec h).treeCluster st)).trees.contains (.station h st n) then s
      else s.updCl ((s.sec h).treeCluster st) fun c => { c with trees := c.trees ++ [.station h st n] }) := by
  change execMcast (.station h st n) s = _
  simp only [execMcast, ht.issued, hsend, ht.unit, Option.any_some, ht.may, if_true, State.mcastSend, ht.held, hruns, Bool.false_eq_true, if_false]

theorem exec_mcast_of_ungranted (ht : UnitTurn s (.station h st n) 0x83 u k) (hsend : mcSender k.word = true) (hruns : k.skipped = false)
    (hgranted : (s.cl ((s.sec h).treeCluster st)).granted ≠ some (.station h st n)) (hasked : .station h st n ∉ (s.cl ((s.sec h).treeCluster st)).trees) :
    exec (.mcast (.station h st n)) s = .next (s.updCl ((s.sec h).treeCluster st) fun c => { c with trees := c.trees ++ [.station h st n] }) := by
  rw [exec_mcast ht hsend hruns, if_neg (by simpa using hgranted), if_neg (by simpa using hasked)]

/-- A unit command whose body succeeds. -/
theorem State.runUnit_of_ok {s0 s1 s2 : State} {k0 k1 : Cmd} {a : Acc} {body : Body} (h0 : s0 = s.takeFrames h) (ht : UnitTurn s0 (.station h st n) op u k0)
    (hruns : k0.skipped = false) (h1 : s1 = s0.chargeCmd k0) (hk : s1.cmd? (.station h st n) = some k1) (hheld : k1.held = [])
    (hbody : (body (s1.cxOf k1) k1.word { info := k1.infos.headD {} }).exec s1 = (.ok a, s2)) :
    s.runUnit (.station h st n) op body = ((s2.vectorBusy k1).finishWork k1 a [a.info]).occupy k1 (!a.prod.frames.isEmpty) := by
  subst h1
  have hs0 : (refSec (.station h st n)).elim s s.takeFrames = s0 := h0.symm
  unfold State.runUnit
  rw [hs0]
  simp only [ht.held, ht.unit, ht.opcode, ht.may, hruns, hk, hheld, hbody, bne_self_eq_false, Bool.not_true, Bool.or_self, Bool.false_eq_true, if_false, List.isEmpty_nil]

/-- A command that is charged stays where it stands. -/
theorem State.cmd?_chargeCmd {k0 k1 : Cmd} (hk : s.cmd? k0.ref = some k0) (hk1 : (s.chargeCmd k0).cmd? k0.ref = some k1) : k1.word = k0.word := by
  rw [State.chargeCmd] at hk1
  split at hk1
  · obtain rfl := Option.some.inj (hk.symm.trans hk1)
    rfl
  · have hcmd : (s.chargeAll k0.lc (s.tokenCost k0)).2.cmd? k0.ref = some k0 := (State.cmd?_of_cmds
      ((State.chargeAll_ev (k := false) (l := [.msix, .tokens, .clusters]) (.refl _ s) rfl).only .cmds (by decide)) _).trans hk
    generalize s.chargeAll k0.lc (s.tokenCost k0) = r at hk1 hcmd
    obtain ⟨held, v⟩ := r
    have hupd : (v.updCmd k0.ref fun c => { c with step := c.step + 1, held := c.held ++ held }).cmd? k0.ref
        = some { k0 with step := k0.step + 1, held := k0.held ++ held } := State.cmd?_updCmd_self hcmd fun _ => rfl
    obtain rfl := Option.some.inj (hupd.symm.trans hk1)
    rfl

theorem State.chargeCmd_still (s : State) (k : Cmd) : s.Still (s.chargeCmd k) :=
  .of_secs ((State.chargeCmd_ev (k := false) (l := [.pins, .hub, .funcs, .msix, .tokens, .ctxs, .tlb, .rings, .hbm, .pans, .clusters, .power, .log, .cmds,
    .replays, .hzn, .xparts, .atsInvals]) (.refl _ s) rfl).only .secs (by decide))

/-- The end of a grant leaves the work as it is. -/
theorem Worked.endTree {s t : State} {ref : CmdRef} {u : Nat} {a : Acc} {infos : List RecInfo} (hw : Worked s t ref u a infos) (c : Nat) :
    Worked s (t.endTree c ref) ref u a infos := by
  rw [State.endTree]
  split <;> exact hw

/-- A grant ends with the work of its sender, or with the sender (R138). -/
theorem State.endTree_granted {s : State} {ref : CmdRef} (hdone : ∀ d, s.cmd? ref = some d → d.phase ≠ .issued) (c : Nat) :
    ((s.endTree c ref).cl c).granted = none := by
  have hnot : ((s.cmd? ref).any fun q => q.phase == .issued) = false := by
    cases hd : s.cmd? ref with
    | none => rfl
    | some d => exact beq_eq_false_iff_ne.2 (hdone d hd)
  rw [State.endTree, hnot, if_neg Bool.false_ne_true, State.updCl_same]

/-- What a granted sender leaves when its tile is delivered (R138, R208). -/
theorem mcast_delivers {s0 s1 s2 : State} {k0 k1 : Cmd} {a : Acc} (ht : UnitTurn s (.station h st n) 0x83 u k) (hsend : mcSender k.word = true)
    (hskip : k.skipped = false) (hgranted : (s.cl ((s.sec h).treeCluster st)).granted = some (.station h st n)) (h0 : s0 = s.takeFrames h)
    (ht0 : UnitTurn s0 (.station h st n) 0x83 u k0) (hruns : k0.skipped = false) (h1 : s1 = s0.chargeCmd k0) (hk : s1.cmd? (.station h st n) = some k1)
    (hheld : k1.held = []) (hbody : (bodyMcastSend (s1.cxOf k1) k1.word { info := k1.infos.headD {} }).exec s1 = (.ok a, s2)) :
    Yields (.mcast (.station h st n)) s fun t => Worked s2 t (.station h st n) u a [a.info] ∧ (t.cl ((s.sec h).treeCluster st)).granted = none := by
  have hexec := exec_mcast ht hsend hskip
  have hr : k1.ref = .station h st n := State.cmd?_ref hk
  have hstill : s0.Still ((s2.vectorBusy k1).finishWork k1 a [a.info]) :=
    (((h1 ▸ s0.chargeCmd_still k0).trans (bodyMcastSend_still hbody)).trans (.of_secs (s2.vectorBusy_only k1 .secs (by decide)))).trans
      (State.finishWork_still _ k1 a _)
  have hword : k1.word = k0.word := by
    subst h1
    rw [← ht0.ref] at hk
    exact State.cmd?_chargeCmd (by rw [ht0.ref]; exact ht0.held) hk
  have hmem : u ∈ ((s2.vectorBusy k1).finishWork k1 a [a.info]).unitsOf k1 := by
    rw [State.unitsOf, hr]
    change u ∈ (((s2.vectorBusy k1).finishWork k1 a [a.info]).sec h).unitsOf st k1.word k1.members
    rw [← Section.unitsOf_still, hstill h, Section.unitsOf_still]
    exact Section.mem_unitsOf (by rw [hword]; exact ht0.unit) (by rw [hword, ht0.opcode]; decide) _
  rw [hgranted, if_pos (beq_self_eq_true _), State.runUnit_of_ok h0 ht0 hruns h1 hk hheld hbody, ← State.unitDone] at hexec
  have hworked := State.unitDone_worked hmem
  rw [hr] at hworked
  refine .of_next hexec ⟨hworked.endTree _, State.endTree_granted (fun d hd => ?_) _⟩
  rw [← hr, State.cmd?_unitDone] at hd
  obtain ⟨c, -, rfl⟩ := Option.map_eq_some_iff.1 hd
  exact nofun

/-! ### Grants -/

theorem exec_multicastReservationGrant {c : Nat} {r : CmdRef} {l : List CmdRef} (hc : c < 10) (hgranted : (s.cl c).granted = none) (htrees : (s.cl c).trees = r :: l)
    (hk : s.cmd? r = some k) (hsec : refSec r = some h) :
    exec (.multicastReservationGrant c) s = if (s.roomsFor k).all s.roomFree then
        .next ((s.updCl c fun k => { k with trees := l, granted := some r }).updRun h fun q => { q with rooms := q.rooms ++ s.roomsFor k })
      else .next s := by
  change execMulticastReservationGrant c s = _
  simp only [execMulticastReservationGrant, if_neg (Nat.not_le.2 hc), hgranted, htrees, hk, hsec]

/-! ### PREFETCH -/

/-- A set that its pan does not hold yet (R270). -/
theorem exec_prefetch {s1 : State} {w : WSet} (ht : UnitTurn s (.station h st n) 0x84 u k) (htarget : fld (at1 k.word 12) 0 2 ≠ 0) (hruns : k.skipped = false)
    (hload : ((s.cxOf k).prefetchSet k.word).exec s = (.ok w, s1)) :
    exec (.prefetch (.station h st n)) s = .next (
      if hasTag (s1.pan (2 * (u / 5) + u % 5)).active w.tag || hasTag (s1.pan (2 * (u / 5) + u % 5)).background w.tag then (s1.finishWork k {} k.infos).occupy k false
      else if !s1.backgroundFree (2 * (u / 5) + u % 5) then s1
      else ((s1.startLoad (2 * (u / 5) + u % 5) w k.ref).updCmd k.ref fun c => { c with phase := .executing }).occupy k false) := by
  change execPrefetch (.station h st n) s = _
  simp only [execPrefetch, ht.issued, if_neg htarget, ht.unit, State.prefetchSet, ht.ref, ht.may, hruns, hload, Bool.not_true, Bool.false_eq_true, if_false]

theorem State.startLoad_pan (s : State) (p : Nat) (w : WSet) (ref : CmdRef) :
    (s.startLoad p w ref).pan p = { s.pan p with background := none, loading := some w, loadingFor := some ref } := by
  have hpan : ∀ r, (s.prefetched r).pan p = s.pan p := fun r => by
    rw [State.prefetched]
    split
    · split <;> rfl
    · rfl
  rw [State.startLoad, State.updPan_same, hpan]

/-- Every command of a reference after a change of that reference's command. -/
theorem State.of_mem_updCmd {s : State} {r : CmdRef} {f : Cmd → Cmd} {P : Cmd → Prop} (hP : ∀ c, P (f c)) {c : Cmd}
    (hc : c ∈ (s.updCmd r f).cmds) (hr : c.ref = r) : P c := by
  obtain ⟨d, -, rfl⟩ := List.mem_map.1 hc
  by_cases hd : (d.ref == r) = true
  · rw [if_pos hd]
    exact hP d
  · rw [if_neg hd] at hr
    exact absurd (beq_iff_eq.2 hr) hd

theorem prefetch_starts {s1 : State} {w : WSet} (ht : UnitTurn s (.station h st n) 0x84 u k) (htarget : fld (at1 k.word 12) 0 2 ≠ 0) (hruns : k.skipped = false)
    (hload : ((s.cxOf k).prefetchSet k.word).exec s = (.ok w, s1)) (hactive : hasTag (s1.pan (2 * (u / 5) + u % 5)).active w.tag = false)
    (hback : hasTag (s1.pan (2 * (u / 5) + u % 5)).background w.tag = false) (hfree : s1.backgroundFree (2 * (u / 5) + u % 5) = true) :
    Yields (.prefetch (.station h st n)) s fun t =>
      t.pan (2 * (u / 5) + u % 5) = { s1.pan (2 * (u / 5) + u % 5) with background := none, loading := some w, loadingFor := some (.station h st n) }
        ∧ ∀ c ∈ t.cmds, c.ref = .station h st n → c.phase = .executing := by
  have hexec := exec_prefetch ht htarget hruns hload
  rw [hactive, hback, hfree, ht.ref] at hexec
  have hpan := s1.startLoad_pan (2 * (u / 5) + u % 5) w (.station h st n)
  generalize s1.startLoad (2 * (u / 5) + u % 5) w (.station h st n) = v at hexec hpan
  have honly := (State.occupy_ev (k := false) (l := [.units]) (x1 := k) (hold := false)
    (.refl _ (v.updCmd (.station h st n) fun c => { c with phase := .executing })) rfl).only
  refine .of_next hexec ⟨?_, fun c hc => ?_⟩
  · rw [← hpan]
    exact congrArg (fun t => Tbl.get {} t (2 * (u / 5) + u % 5)) (honly .pans (by decide))
  · exact State.of_mem_updCmd (s := v) (f := fun c => { c with phase := .executing }) (P := fun c => c.phase = .executing) (fun _ => rfl)
      ((honly .cmds (by decide) : _ = _) ▸ hc)

theorem prefetch_there {s1 : State} {w : WSet} (ht : UnitTurn s (.station h st n) 0x84 u k) (htarget : fld (at1 k.word 12) 0 2 ≠ 0) (hruns : k.skipped = false)
    (hload : ((s.cxOf k).prefetchSet k.word).exec s = (.ok w, s1))
    (hthere : hasTag (s1.pan (2 * (u / 5) + u % 5)).active w.tag = true ∨ hasTag (s1.pan (2 * (u / 5) + u % 5)).background w.tag = true) :
    Yields (.prefetch (.station h st n)) s fun t => t.pans = s1.pans ∧ ∀ c ∈ t.cmds, c.ref = .station h st n → c.phase = .written := by
  have hexec := exec_prefetch ht htarget hruns hload
  rw [if_pos (Bool.or_eq_true_iff.2 hthere)] at hexec
  have honly := (State.occupy_ev (k := false) (l := [.units]) (x1 := k) (hold := false) (.refl _ (s1.finishWork k {} k.infos)) rfl).only
  have hcmds : ((s1.finishWork k {} k.infos).occupy k false).cmds = (s1.updCmd k.ref fun c => c.finished {} k.infos).cmds :=
    Eq.trans (honly .cmds (by decide)) (s1.finishWork_cmds k {} k.infos)
  refine .of_next hexec ⟨Eq.trans (honly .pans (by decide)) (s1.finishWork_only k {} k.infos .pans (by decide)), fun c hc hcr => ?_⟩
  rw [hcmds] at hc
  exact State.of_mem_updCmd (s := s1) (f := fun c => c.finished {} k.infos) (P := fun c => c.phase = .written) (fun _ => rfl) hc (hcr.trans ht.ref.symm)
end

/-! ### Swaps -/

section
variable {s : State} {ref : CmdRef} {k : Cmd}

theorem State.issued?_of {op : Nat} (hk : s.cmd? ref = some k) (hop : cOp k.word = op) (hphase : k.phase = .issued) : s.issued? ref op = some k := by
  simp only [State.issued?, hk, hop, hphase, and_self, if_true]

/-- A swap waits for the end of the target's run (R385). -/
theorem exec_swap_of_running {i : Instr} {h : Nat}
    (hi : (i = .saveRes ref ∧ cOp k.word = 0x85 ∧ (s.sec h).swapped = false) ∨ (i = .restoreRes ref ∧ cOp k.word = 0x86))
    (hk : s.cmd? ref = some k) (hphase : k.phase = .issued) (hruns : k.skipped = false) (htarget : s.swapTarget k = .ok h) (hrun : s.inRun h = true) :
    exec i s = .next s := by
  rcases hi with ⟨rfl, hop, hswapped⟩ | ⟨rfl, hop⟩
  · change execSaveRes ref s = _
    simp only [execSaveRes, State.issued?_of hk hop hphase, hruns, htarget, hswapped, hrun, Bool.false_eq_true, if_false, if_true]
  · change execRestoreRes ref s = _
    simp only [execRestoreRes, State.issued?_of hk hop hphase, hruns, htarget, hrun, Bool.false_eq_true, if_false, if_true]

/-- A swap of a target that is not the command's fails (R385). -/
theorem exec_swap_of_error {i : Instr} {e : Nat} (hi : (i = .saveRes ref ∧ cOp k.word = 0x85) ∨ (i = .restoreRes ref ∧ cOp k.word = 0x86))
    (hk : s.cmd? ref = some k) (hphase : k.phase = .issued) (hruns : k.skipped = false) (htarget : s.swapTarget k = .error e) :
    exec i s = .next (s.failCmd ref e) := by
  rcases hi with ⟨rfl, hop⟩ | ⟨rfl, hop⟩
  · change execSaveRes ref s = _
    simp only [execSaveRes, State.issued?_of hk hop hphase, hruns, htarget, Bool.false_eq_true, if_false]
  · change execRestoreRes ref s = _
    simp only [execRestoreRes, State.issued?_of hk hop hphase, hruns, htarget, Bool.false_eq_true, if_false]

theorem saveRes_times_out (hk : s.cmd? ref = some k) (hop : cOp k.word = 0x85) (hphase : k.phase = .issued) (hruns : k.skipped = false)
    (hrun : s.inRun (at4 k.word 12) = true) (hlive : (s.cx k.ctx).life = .live) :
    Yields (.saveResTimeout ref) s fun t => LostWith s t k.ctx 0x0301 ∧ t.time.now = max s.time.now (k.reached + 2000000000) := by
  have hexec : exec (.saveResTimeout ref) s = .next ((s.atTime (k.reached + 2000000000)).failCmd ref 0x0301) := by
    change execSaveResTimeout ref s = _
    simp only [execSaveResTimeout, State.issued?_of hk hop hphase, hruns, hrun, Bool.not_false, Bool.and_self, if_true]
  refine .of_next hexec ⟨State.failCmd_lostWith (s := s.atTime (k.reached + 2000000000)) 0x0301 hk hlive, ?_⟩
  rw [State.failCmd_time, State.atTime_now]
end

/-- Settles O46: a granted tree by the first request that every destination has room for, the other rows by their equations. -/
theorem dataMovement : Obligations.DataMovement := by
  refine ⟨fun s h st n u k => exec_mcast_of_ungranted, fun s c h r l k hc hgranted htrees hk hsec hroom => ?_, fun s c h r l k hc hgranted htrees hk hsec hfull => ?_,
    fun _ _ _ _ _ _ _ _ _ _ _ _ => mcast_delivers, fun _ _ _ _ _ _ _ _ => prefetch_starts, fun _ _ _ _ _ _ _ _ => prefetch_there,
    fun _ _ _ _ _ => exec_swap_of_running, fun s i ref k e hi hk hphase hruns htarget hlive => ?_, fun _ _ _ => saveRes_times_out⟩
  · rw [exec_multicastReservationGrant hc hgranted htrees hk hsec, if_pos (List.all_eq_true.2 hroom)]
  · obtain ⟨m, hm, hnot⟩ := hfull
    have hall : (s.roomsFor k).all s.roomFree = false := List.all_eq_false.2 ⟨m, hm, by rw [hnot]; decide⟩
    rw [exec_multicastReservationGrant hc hgranted htrees hk hsec, hall, if_neg Bool.false_ne_true]
  · exact .of_next (exec_swap_of_error hi hk hphase hruns htarget) (State.failCmd_lostWith e hk hlive)

end Sys2Proof.Machine
end

section
/-! PANS (O43). Two commands of one reference. -/

namespace Sys2Proof.Machine

/-- An output-stationary MATMUL of 1 × 1 operands: one pan operation, which names no set. -/
def oneOpMatmul : List Byte := [0x00, 0, 0, 0, 0, 0, 0, 0, 0, 0, 0, 0, 0, 0, 0, 0, 0, 0, 0, 0, 2]

/-- A chain of the MATMUL, which waits for its operation. -/
def Cmd.matmulChain : Cmd := { ref := .station 1 0 0, ctx := 0, word := [0xE2], members := [oneOpMatmul], phase := .issued, totalOps := 1 }

/-- PAN0 of core 0 runs for the chain; a command of another context bears the chain's reference, before it in the list. -/
def State.referenceTwice : State :=
  { pins := { porstN := true }, secs := [(1, { cores := [0] })], cmds := [{ ref := .station 1 0 0, ctx := 1, word := [], phase := .written }, .matmulChain]
    units := [(0, { cur := some (.station 1 0 0) })], pans := [(0, { run := .running })] }

/-- Refutes O43: the pan finds the chain in the list of commands, and the command that its reference stands for is the other one. -/
theorem not_pans : ¬ Obligations.Pans := by
  rintro ⟨-, -, hissue, -⟩
  have hu : ((State.referenceTwice.panQueue 0).filterMap fun k => refSec k.ref).dedup.foldl State.takeFrames .referenceTwice = .referenceTwice := by decide +kernel
  have hissued := (hissue .referenceTwice .referenceTwice 0 0 .matmulChain oneOpMatmul none (by decide) hu.symm (by decide +kernel) (by decide +kernel)
    (.inl (by decide +kernel)) (by decide +kernel)).nextOr
  obtain ⟨⟨l, hcmd⟩, -⟩ := hissued
  have hctx : ((nextOr .referenceTwice (exec (.panOperationIssue 0) .referenceTwice)).cmd? (.station 1 0 0)).map Cmd.ctx = some 1 := by decide +kernel
  rw [show Cmd.matmulChain.ref = .station 1 0 0 from rfl] at hcmd
  rw [hcmd] at hctx
  exact absurd (show some Cmd.matmulChain.ctx = some 1 from hctx) (by decide)

end Sys2Proof.Machine
end

section
/-! PARTS AND THEIR CLOCKS (O33). -/

namespace Sys2Proof.Machine

theorem xp_of_xparts {s t : State} (h : t.xparts = s.xparts) (p : Nat) : t.xp p = s.xp p := by rw [State.xp, h, State.xp]

theorem State.devChangeAll_xp (s : State) (off p : Nat) : (s.devChangeAll off).xp p = s.xp p := xp_of_xparts (s.devChangeAll_only off .xparts (by decide)) p

theorem State.logEv_xp (s : State) (code cls kind unit ctx : Nat) (data : List Nat) (p : Nat) : (s.logEv code cls kind unit ctx data).xp p = s.xp p :=
  xp_of_xparts ((State.logEv_ev (k := false) (l := [.pins, .log]) (.refl _ s) rfl).only .xparts (by decide)) p

/-! ### Breaches with and without a call -/

theorem State.breach_cases (s : State) (p kind : Nat) :
    s.breach p kind = s.breachNoted p kind ∨ ∃ r, s.breach p kind = (s.breachNoted p kind).failCmd r 0x0301 := by
  have hnoted : s.breachNoted p kind = ((s.updXp p fun x => { x with violCount := satinc 32 x.violCount, violKind := kind, call := if kind = 5 then x.call else none }).logCo
      0x8001 1 7 p 0 [0, ((s.updXp p fun x => { x with violCount := satinc 32 x.violCount, violKind := kind, call := if kind = 5 then x.call else none }).xp p).portStat, 0]).emit
      (.portRst p) := rfl
  rw [State.breach, ← hnoted]
  split
  next c _ =>
    split
    · exact .inl rfl
    · exact .inr ⟨c.ref, rfl⟩
  · exact .inl rfl

theorem State.breachNoted_xp_ne (s : State) (p kind : Nat) {q : Nat} (hq : q ≠ p) : (s.breachNoted p kind).xp q = s.xp q := by
  rw [xp_of_xparts (s.breachNoted_only p kind .xparts (by decide)), State.updXp_ne _ _ _ hq]

/-- The part of a breach, but for what the failure of its call changes. -/
theorem State.breach_stays (s : State) (p kind : Nat) : ((s.xp p).breached kind).Stays ((s.breach p kind).xp p) := by
  have hbegun : ((s.breachNoted p kind).xp p).begun := .inl (by rw [s.breachNoted_xp]; exact satinc_ne_zero _)
  rw [← s.breachNoted_xp p kind]
  rcases s.breach_cases p kind with h | ⟨r, h⟩
  · rw [h]
    exact .refl _
  · rw [h]
    exact State.failCmd_parts _ r _ p hbegun

theorem State.breach_stays_ne (s : State) (p kind : Nat) {q : Nat} (hq : q ≠ p) (hbegun : (s.xp q).begun) : (s.xp q).Stays ((s.breach p kind).xp q) := by
  rw [← s.breachNoted_xp_ne p kind hq] at hbegun ⊢
  rcases s.breach_cases p kind with h | ⟨r, h⟩
  · rw [h]
    exact .refl _
  · rw [h]
    exact State.failCmd_parts _ r _ q hbegun

/-- PORT_RST of a breach (R452). -/
theorem State.portRst_mem_breach (s : State) (p kind : Nat) : .portRst p ∈ (s.breach p kind).out := by
  have hnoted : .portRst p ∈ (s.breachNoted p kind).out := by
    rw [State.breachNoted, State.emit_out]
    exact List.mem_append_right _ (List.mem_singleton.2 rfl)
  rcases s.breach_cases p kind with h | ⟨r, h⟩
  · rwa [h]
  · obtain ⟨es, hes, -⟩ := ((s.breachNoted p kind).failCmd_evolves r 0x0301).posted
    rw [h, hes]
    exact List.mem_append_left _ hnoted

/-! ### Trees that stop -/

/-- A part's tree that runs (R454). -/
def XPart.runs (x : XPart) (i : Nat) : Prop := x.loaded = true ∧ (x.tree i).en = true ∧ (x.tree i).stopped = false

/-- A part with a tree that has stopped. -/
def XPart.treeStopped (x : XPart) (i : Nat) : XPart := { x with trees := x.trees.modify i fun t => { t with stopped := true } }

theorem State.stopTree_of_runs {s : State} {n : Nat} (h : (s.xp (n / 2)).runs (n % 2)) : s.stopTree n =
    (((((s.updXp (n / 2) fun x => x.treeStopped (n % 2)).breach (n / 2) 7).logEv 0x8002 1 7 (n / 2) 0
      [0, (((s.updXp (n / 2) fun x => x.treeStopped (n % 2)).breach (n / 2) 7).xp (n / 2)).portStat, 0]).updXp (n / 2) fun x =>
        { x with clamped := true, st := 5 }).devChangeAll (partOff (n / 2))) := by
  obtain ⟨hloaded, hen, hstopped⟩ := h
  rw [State.stopTree]
  simp only [hloaded, hen, hstopped, Bool.not_true, Bool.or_self, Bool.false_eq_true, if_false]
  rfl

theorem State.stopTree_of_not_runs {s : State} {n : Nat} (h : ¬ (s.xp (n / 2)).runs (n % 2)) : s.stopTree n = s := by
  rw [State.stopTree]
  refine if_pos (by_contra fun hruns => h ?_)
  simpa only [XPart.runs, Bool.or_eq_true, not_or, Bool.not_eq_true', Bool.not_eq_false, Bool.not_eq_true, and_assoc] using hruns

/-- The part of a tree that stopped: clamped in STATE 5, its breach of kind 7 counted (R454). -/
theorem State.stopTree_part {s : State} {n : Nat} (h : (s.xp (n / 2)).runs (n % 2)) :
    (((s.xp (n / 2)).treeStopped (n % 2)).breached 7).Stays { (s.stopTree n).xp (n / 2) with clamped := ((s.xp (n / 2)).treeStopped (n % 2)).clamped, st := (s.xp (n / 2)).st }
      ∧ ((s.stopTree n).xp (n / 2)).st = 5 ∧ ((s.stopTree n).xp (n / 2)).clamped = true := by
  have hstays := (s.updXp (n / 2) fun x => x.treeStopped (n % 2)).breach_stays (n / 2) 7
  rw [State.updXp_same] at hstays
  rw [State.stopTree_of_runs h, State.devChangeAll_xp, State.updXp_same, State.logEv_xp]
  exact ⟨⟨hstays.count, hstays.kind, rfl, hstays.trees, id, hstays.call⟩, rfl, rfl⟩

theorem State.stopTree_ne {s : State} {n q : Nat} (hq : q ≠ n / 2) (hbegun : (s.xp q).begun) : (s.xp q).Stays ((s.stopTree n).xp q) := by
  by_cases h : (s.xp (n / 2)).runs (n % 2)
  · rw [State.stopTree_of_runs h, State.devChangeAll_xp, State.updXp_ne _ _ _ hq, State.logEv_xp]
    have hsame : (s.updXp (n / 2) fun x => x.treeStopped (n % 2)).xp q = s.xp q := State.updXp_ne _ _ _ hq
    rw [← hsame] at hbegun ⊢
    exact State.breach_stays_ne _ _ _ hq hbegun
  · rw [State.stopTree_of_not_runs h]
    exact .refl _

theorem State.stopTree_portRst {s : State} {n : Nat} (h : (s.xp (n / 2)).runs (n % 2)) : .portRst (n / 2) ∈ (s.stopTree n).out := by
  have hmem := (s.updXp (n / 2) fun x => x.treeStopped (n % 2)).portRst_mem_breach (n / 2) 7
  rw [State.stopTree_of_runs h]
  generalize (s.updXp (n / 2) fun x => x.treeStopped (n % 2)).breach (n / 2) 7 = v at hmem
  have hlogged : (v.logEv 0x8002 1 7 (n / 2) 0 [0, (v.xp (n / 2)).portStat, 0]).out = v.out := v.logEv_out _ _ _ _ _ _
  generalize v.logEv 0x8002 1 7 (n / 2) 0 [0, (v.xp (n / 2)).portStat, 0] = w at hlogged
  obtain ⟨es, hes, -⟩ := (State.devChangeAll_ev (k := false) (l := [.pins, .funcs, .msix, .log]) (off := partOff (n / 2))
    (.refl _ (w.updXp (n / 2) fun x => { x with clamped := true, st := 5 })) rfl).posted
  rw [hes, State.updXp_out, hlogged]
  exact List.mem_append_left _ hmem

/-! ### A PLL that loses lock -/

/-- What the loss of a PLL does for one tree (R445). -/
def State.pllStep (s : State) (n : Nat) : State := if 4 ≤ ((s.xp (n / 2)).tree (n % 2)).src then s.stopTree n else s

/-- A part that a stopped tree has put in STATE 5. -/
def XPart.halted (x : XPart) : Prop := x.st = 5 ∧ x.clamped = true

/-- A part with a running tree that a PLL feeds. -/
def XPart.fed (x : XPart) (i : Nat) : Prop := x.runs i ∧ 4 ≤ (x.tree i).src

theorem XPart.Stays.halted {x y : XPart} (h : x.Stays y) (hx : x.halted) : y.halted := ⟨h.st.trans hx.1, h.clamped hx.2⟩

theorem XPart.fed_of_trees {x y : XPart} {i : Nat} (hst : y.loaded = x.loaded) (htree : y.tree i = x.tree i) (hx : x.fed i) : y.fed i := by
  rwa [XPart.fed, XPart.runs, hst, htree]

theorem XPart.loaded_begun {x : XPart} (h : x.loaded = true) : x.begun := .inr fun h1 => by
  rw [XPart.loaded, h1] at h
  exact absurd h (by decide)

/-- Another tree of a part stays as it is when one stops. -/
theorem XPart.treeStopped_tree {x : XPart} {i j : Nat} (h : j ≠ i) : (x.treeStopped i).tree j = x.tree j := by
  simp only [XPart.treeStopped, XPart.tree, List.getD_eq_getElem?_getD, List.getElem?_modify_ne _ _ h.symm]

theorem State.pllStep_halted {s : State} {q : Nat} (n : Nat) (h : (s.xp q).halted) : ((s.pllStep n).xp q).halted := by
  rw [State.pllStep]
  split
  · by_cases hq : q = n / 2
    · subst hq
      by_cases hruns : (s.xp (n / 2)).runs (n % 2)
      · exact (State.stopTree_part hruns).2
      · rwa [State.stopTree_of_not_runs hruns]
    · exact (State.stopTree_ne hq (.inr (by rw [h.1]; decide))).halted h
  · exact h

theorem State.pllStep_stops {s : State} {n : Nat} (h : (s.xp (n / 2)).fed (n % 2)) : ((s.pllStep n).xp (n / 2)).halted := by
  rw [State.pllStep, if_pos h.2]
  exact (State.stopTree_part h.1).2

theorem State.pllStep_fed {s : State} {n m : Nat} (hm : n ≠ m) (h : (s.xp (n / 2)).fed (n % 2)) : ((s.pllStep m).xp (n / 2)).fed (n % 2) := by
  rw [State.pllStep]
  split
  · by_cases hq : n / 2 = m / 2
    · by_cases hruns : (s.xp (m / 2)).runs (m % 2)
      · obtain ⟨hstays, hst, -⟩ := State.stopTree_part hruns
        have htrees : ((s.stopTree m).xp (m / 2)).trees = ((s.xp (m / 2)).treeStopped (m % 2)).trees := hstays.trees
        rw [hq] at h ⊢
        refine XPart.fed_of_trees ?_ ?_ h
        · rw [XPart.loaded, hst, hruns.1]
          rfl
        · rw [XPart.tree, htrees]
          exact XPart.treeStopped_tree (by omega)
      · rwa [State.stopTree_of_not_runs hruns]
    · have hstays := State.stopTree_ne hq (XPart.loaded_begun h.1.1)
      refine XPart.fed_of_trees ?_ ?_ h
      · rw [XPart.loaded, hstays.st, XPart.loaded]
      · rw [XPart.tree, hstays.trees, XPart.tree]
  · exact h

theorem State.foldl_pllStep {ns : List Nat} {s : State} {n : Nat} (h : (s.xp (n / 2)).halted ∨ ((s.xp (n / 2)).fed (n % 2) ∧ n ∈ ns)) :
    ((ns.foldl State.pllStep s).xp (n / 2)).halted := by
  induction ns generalizing s with
  | nil => exact h.resolve_right fun h => List.not_mem_nil h.2
  | cons m ns ih =>
    refine ih ?_
    rcases h with hhalted | ⟨hfed, hmem⟩
    · exact .inl (State.pllStep_halted m hhalted)
    · by_cases hnm : n = m
      · subst hnm
        exact .inl (State.pllStep_stops hfed)
      · exact .inr ⟨State.pllStep_fed hnm hfed, (List.mem_cons.1 hmem).resolve_left hnm⟩

theorem exec_pllLossOfLock {s : State} {r : Nat} (hr : r < 10) (hup : s.fabricUp = true) :
    exec (.pllLossOfLock r) s = .next (((List.range 8).map (8 * r + ·)).foldl State.pllStep s) := by
  change execPllLossOfLock r s = _
  simp only [execPllLossOfLock, if_neg (Nat.not_le.2 hr), hup, Bool.not_true, Bool.false_eq_true, if_false]
  rfl

/-! ### Joining -/

/-- A part whose time to assert JOIN is over (R473). -/
def XPart.unjoined (x : XPart) : XPart := { x with st := 4, awaiting := false }

/-- A part whose ports are open (R473). -/
def XPart.joined (x : XPart) : XPart :=
  { x with st := 3, clamped := false, rst := false, awaiting := false, trees := x.trees.map fun t => { t with stopped := false } }

theorem State.joinPart_xp (s : State) (p : Nat) : (s.joinPart p).xp p = (s.xp p).joined := by
  rw [State.joinPart, State.devChangeAll_xp]
  exact State.updXp_same s p fun x => x.joined

section
variable {s : State} {p n : Nat}

theorem exec_join (hp : p < 40) (hup : s.fabricUp = true) (hst : (s.xp p).st = 4 ∨ ((s.xp p).st = 2 ∧ (s.xp p).awaiting = true)) :
    exec (.join p) s = .next ((s.updXp p fun x => { x with join := true }).joinPart p) := by
  have hheld : ¬ ((s.xp p).st = 1 ∨ ((s.xp p).st = 2 ∧ (!(s.xp p).awaiting) = true)) := by
    rcases hst with hst | ⟨hst, hawaits⟩
    · simp [hst]
    · simp [hst, hawaits]
  change execJoin p s = _
  simp only [execJoin, if_neg (Nat.not_le.2 hp), hup, if_neg hheld, Bool.not_true, Bool.false_eq_true, if_false]
  rw [if_pos (hst.symm.imp_left And.left)]

theorem joinTimeout (hp : p < 40) (hst : (s.xp p).st = 2) (hawaits : (s.xp p).awaiting = true) (hjoin : (s.xp p).join = false) :
    Yields (.joinTimeout p) s fun t => (t.xp p).st = 4 ∧ (t.xp p).clamped = (s.xp p).clamped ∧ (t.xp p).awaiting = false
      ∧ t.loader.lastFlags.testBit 20 = true ∧ t.time.now = max s.time.now (s.xp p).joinBy := by
  have hexec : ∃ u : State, u.xp p = (s.xp p).unjoined ∧ u.loader.lastFlags = s.loader.lastFlags ||| 2 ^ 20
      ∧ u.time.now = max s.time.now (s.xp p).joinBy
      ∧ exec (.joinTimeout p) s = .next (((u.logEv 0x6003 1 7 p 0 [0, (u.xp p).portStat, 0]).devChangeAll (partOff p)).devChangeAll 0x1108) := by
    refine ⟨{ (s.atTime (s.xp p).joinBy).updXp p XPart.unjoined with
      loader := { s.loader with lastFlags := s.loader.lastFlags ||| 2 ^ 20 } }, State.updXp_same (s.atTime (s.xp p).joinBy) p XPart.unjoined, rfl, rfl, ?_⟩
    change execJoinTimeout p s = _
    simp only [execJoinTimeout, if_neg (Nat.not_le.2 hp), hst, hawaits, hjoin, bne_self_eq_false, Bool.not_true, Bool.or_self, Bool.false_eq_true, if_false]
    rfl
  obtain ⟨u, hxp, hflags, htime, hexec⟩ := hexec
  have honly := (State.devChangeAll_ev (k := false) (l := [.pins, .funcs, .msix, .log]) (off := 0x1108) (State.devChangeAll_ev (off := partOff p)
    (State.logEv_ev (code := 0x6003) (cls := 1) (kind := 7) (unit := p) (ctx := 0) (data := [0, (u.xp p).portStat, 0]) (.refl _ u) rfl) rfl) rfl).only
  generalize ((u.logEv 0x6003 1 7 p 0 [0, (u.xp p).portStat, 0]).devChangeAll (partOff p)).devChangeAll 0x1108 = t at hexec honly
  have hloader : t.loader = u.loader := honly .loader (by decide)
  have hclock : t.time = u.time := honly .time (by decide)
  refine .of_next hexec ?_
  rw [xp_of_xparts (honly .xparts (by decide)) p, hxp, hloader, hflags, hclock, htime, Nat.testBit_or, Nat.testBit_two_pow_self, Bool.or_true]
  exact ⟨rfl, rfl, rfl, rfl, rfl⟩

theorem clockTreeStop (hn : n < 80) (hup : s.fabricUp = true) (hruns : (s.xp (n / 2)).runs (n % 2)) :
    Yields (.clockTreeStop n) s fun t => (t.xp (n / 2)).st = 5 ∧ (t.xp (n / 2)).clamped = true ∧ (t.xp (n / 2)).violKind = 7
      ∧ (t.xp (n / 2)).violCount = satinc 32 (s.xp (n / 2)).violCount ∧ .portRst (n / 2) ∈ t.out := by
  have hexec : exec (.clockTreeStop n) s = .next (s.stopTree n) := by
    change execClockTreeStop n s = _
    rw [execClockTreeStop, if_neg (Nat.not_le.2 hn), if_pos hup]
  obtain ⟨hstays, hst, hclamped⟩ := State.stopTree_part hruns
  exact .of_next hexec ⟨hst, hclamped, hstays.kind, hstays.count, State.stopTree_portRst hruns⟩

theorem exec_clockSwitch (hn : n < 80) (hup : s.fabricUp = true) (hloaded : (s.xp (n / 2)).loaded = true) (hen : ((s.xp (n / 2)).tree (n % 2)).en = true) :
    exec (.clockSwitch n) s = .next (s.updXp (n / 2) fun x => { x with trees := x.trees.modify (n % 2) fun t => { t with useB := !t.useB } }) := by
  change execClockSwitch n s = _
  simp only [execClockSwitch, if_neg (Nat.not_le.2 hn), hup, hloaded, hen, Bool.not_true, Bool.or_self, Bool.false_eq_true, if_false]

theorem partRejoin (hp : p < 40) (hup : s.fabricUp = true) (hst : (s.xp p).st = 5) (hjoin : (s.xp p).join = true) :
    Yields (.partRejoin p) s fun t => (t.xp p).st = 3 ∧ (t.xp p).clamped = false ∧ .portRst p ∈ t.out ∧ t.time.now = s.time.now + 1000000 := by
  have hexec : exec (.partRejoin p) s = .next (((s.atTime (s.time.now + 1000000)).emit (.portRst p)).joinPart p) := by
    change execPartRejoin p s = _
    simp only [execPartRejoin, if_neg (Nat.not_le.2 hp), hup, hst, hjoin, bne_self_eq_false, Bool.not_true, Bool.or_self, Bool.false_eq_true, if_false]
  have htime : ((s.atTime (s.time.now + 1000000)).emit (.portRst p)).time.now = s.time.now + 1000000 := max_eq_right (Nat.le_add_right _ _)
  have hout : .portRst p ∈ ((s.atTime (s.time.now + 1000000)).emit (.portRst p)).out := List.mem_append_right _ (List.mem_singleton.2 rfl)
  generalize (s.atTime (s.time.now + 1000000)).emit (.portRst p) = u at hexec htime hout
  have hjoined := State.joinPart_ev (k := false) (l := [.pins, .funcs, .msix, .log, .xparts]) (p := p) (.refl _ u) rfl
  obtain ⟨es, hes, -⟩ := hjoined.posted
  refine .of_next hexec ?_
  rw [State.joinPart_xp, hes, show (u.joinPart p).time = u.time from hjoined.only .time (by decide), htime]
  exact ⟨rfl, rfl, List.mem_append_left _ hout, rfl⟩

theorem unsolicited (hp : p < 40) (hup : s.fabricUp = true) (hloaded : (s.xp p).loaded = true) (hopen : (s.xp p).clamped = false) (hcall : (s.xp p).call = none) :
    Yields (.unsolicited p) s fun t => (t.xp p).violCount = satinc 32 (s.xp p).violCount ∧ (t.xp p).violKind = 5 ∧ t.cmds = s.cmds ∧ t.out = s.out ++ [.portRst p] := by
  have hexec : exec (.unsolicited p) s = .next (s.breachNoted p 5) := by
    have hbreach : s.breach p 5 = s.breachNoted p 5 := by
      rw [State.breach, hcall]
      rfl
    change execUnsolicited p s = _
    simp only [execUnsolicited, if_neg (Nat.not_le.2 hp), hup, hloaded, hopen, hcall, Bool.not_false, Option.isNone_none, Bool.and_self, if_true, hbreach]
  refine .of_next hexec ?_
  rw [State.breachNoted_xp]
  refine ⟨rfl, rfl, s.breachNoted_only p 5 .cmds (by decide), ?_⟩
  rw [State.breachNoted, State.emit_out, State.logCo_out, State.updXp_out]
end

/-- Settles O33: a tree that stops by its breach; a PLL's trees one after another, each of which leaves the others' parts as they were. -/
theorem partsAndClocks : Obligations.PartsAndClocks := by
  refine ⟨fun s p hp hup hst => ?_, fun _ _ => joinTimeout, fun s n hn hup hloaded hen hstopped => clockTreeStop hn hup ⟨hloaded, hen, hstopped⟩,
    fun _ _ => exec_clockSwitch, fun s r hr hup => ?_, fun _ _ => partRejoin, fun _ _ => unsolicited⟩
  · refine .of_next (exec_join hp hup hst) ?_
    rw [State.joinPart_xp, State.updXp_same]
    exact ⟨rfl, rfl, rfl, rfl⟩
  · refine .of_next (exec_pllLossOfLock hr hup) fun n hlow hhigh hloaded hen hstopped hsrc => State.foldl_pllStep (.inr ⟨⟨⟨hloaded, hen, hstopped⟩, hsrc⟩, ?_⟩)
    exact List.mem_map.2 ⟨n - 8 * r, List.mem_range.2 (by omega), by omega⟩

end Sys2Proof.Machine
end

section
/-! THE CONFIGURATION PORT AND HOST LOADS (O31). -/

namespace Sys2Proof.Machine

section
variable {s : State} {w : Nat} {b : List Byte}

/-! ### Words of the port -/

theorem exec_load (hport : s.portUp = true) (hstage : s.hub.stage = 6) (hmode : s.loader.mode = .command) (hst : s.loader.st = 0) (hw : isLoad w = true) :
    exec (.load w) s = .next { s with loader := { s.loader with
      st := 1, src := true, bytes := 0, start := s.time.now, window := s.loader.deadline, staging := [], status := 0
      mode := .own, pos := w % 256, isBoot := false, bootWaiting := false } } := by
  have hboot : (s.hub.stage == 4) = false := by rw [hstage]; rfl
  change execLoad w s = _
  simp only [execLoad, hport, hmode, hst, hw, hboot, bne_self_eq_false, Bool.not_true, Bool.false_and, Bool.or_self, Bool.false_eq_true, if_false, fld_zero]
  rfl

theorem exec_invalidCommandWord (hport : s.portUp = true) (hmode : s.loader.mode = .command) (hload : isLoad w = false) (hread : isReadback w = false) (hend : isEnd w = false) :
    exec (.invalidCommandWord w) s = .next { s with loader := { s.loader with violCount := satinc 32 s.loader.violCount } } := by
  have hform : (s.portUp && s.loader.mode == .command && !isLoad w && !isReadback w && !isEnd w) = true := by
    rw [hport, hmode, hload, hread, hend]
    rfl
  change execInvalidCommandWord w s = _
  rw [execInvalidCommandWord, if_pos hform, State.portViol]

/-- The END word is one. -/
theorem isEnd_word : isEnd 0x030C0000 = true := by decide

theorem exec_endWord_of_forward (hport : s.portUp = true) (hmode : s.loader.mode = .forward) :
    exec (.endWord 0x030C0000) s = .next { s with loader := { s.loader with mode := .command }, out := s.out ++ [.chain (leBytes 4 0x030C0000)] } := by
  change execEndWord 0x030C0000 s = _
  simp only [execEndWord, hport, isEnd_word, hmode, Bool.not_true, Bool.or_self, Bool.false_eq_true, if_false]
  rfl

theorem exec_endWord_of_own (hport : s.portUp = true) (hmode : s.loader.mode = .own) (hst : s.loader.st ≠ 0) (hstatus : s.loader.status = 0) :
    exec (.endWord 0x030C0000) s = .next (({ s with loader := { s.loader with mode := .command } } : State).endLoad 0x0501 0) := by
  change execEndWord 0x030C0000 s = _
  simp only [execEndWord, hport, isEnd_word, hmode, if_neg hst, hstatus, Bool.not_true, Bool.or_self, Bool.false_eq_true, if_false, if_true]

theorem exec_chainForward_of_forward (hport : s.portUp = true) (hb : b ≠ []) (hmode : s.loader.mode = .forward) :
    exec (.chainForward b) s = .next { s with out := s.out ++ [.chain b] } := by
  have hsome : b.isEmpty = false := List.isEmpty_eq_false_iff.2 hb
  change execChainForward b s = _
  simp only [execChainForward, hport, hsome, hmode, Bool.not_true, Bool.or_self, Bool.false_eq_true, if_false]
  rfl

theorem exec_chainForward_of_tail (hport : s.portUp = true) (hb : b ≠ []) (hmode : s.loader.mode = .tail) (hpos : s.loader.pos ≠ 63) :
    exec (.chainForward b) s = .next { s with
      loader := { s.loader with mode := .forward }, out := s.out ++ [.chain (leBytes 4 (0x010C0000 + (s.loader.pos + 1)) ++ b)] } := by
  have hsome : b.isEmpty = false := List.isEmpty_eq_false_iff.2 hb
  change execChainForward b s = _
  simp only [execChainForward, hport, hsome, hmode, if_neg hpos, Bool.not_true, Bool.or_self, Bool.false_eq_true, if_false]
  rfl

/-! ### Host loads -/

theorem exec_cfgLoadStart (hready : s.ready = true) (hst : s.loader.st = 0) :
    exec .cfgLoadStart s = .next { s with loader := { s.loader with
      st := 1, src := false, bytes := 0, start := s.time.now, window := s.loader.deadline, staging := [], status := 0, isBoot := false } } := by
  change execCfgLoadStart s = _
  simp only [execCfgLoadStart, hready, hst, bne_self_eq_false, Bool.not_true, Bool.false_eq_true, if_false]

theorem exec_cfgLoadAbort (hready : s.ready = true) (hst : s.loader.st ≠ 0) (happly : s.loader.st ≠ 4) : exec .cfgLoadAbort s = .next (s.endLoad 0x0501 0) := by
  have hloads : (s.loader.st == 0) = false := beq_eq_false_iff_ne.2 hst
  change execCfgLoadAbort s = _
  simp only [execCfgLoadAbort, hready, hloads, if_neg happly, Bool.not_true, Bool.or_self, Bool.false_eq_true, if_false]

/-! ### The end of a load -/

/-- The loader once a load has ended, its result recorded and nothing yet told (R471, R472). -/
def Loader.ended (l : Loader) (status flags : Nat) : Loader :=
  { l with st := 0, staging := [], status := 0, lastStatus := status, lastFlags := l.baseFlags ||| flags, loads := (l.loads + 1) % 2 ^ 32 }

/-- What the end of a boot image's stage leaves of the loader. -/
def Loader.butWaiting (l : Loader) : Loader := { l with bootWaiting := false }

theorem State.bootImageDone_loader (s : State) : s.bootImageDone.loader.butWaiting = s.loader.butWaiting := by
  rw [State.bootImageDone]
  split <;> rfl

theorem State.endLoad_loader (s : State) (status flags : Nat) : (s.endLoad status flags).loader.butWaiting = (s.loader.ended status flags).butWaiting := by
  have hnoted : ∀ u : State, Evolves false [.pins, .funcs, .msix, .log] u ((if status = 0 then u.logEv 0x6001 0 0 0 0 [0, 0, 0]
      else u.logEv 0x6002 1 0 0 0 [status, 0, 0]).devChangeAll 0x1108) := fun u =>
    State.devChangeAll_ev (.ite (State.logEv_ev (.refl _ u) rfl) (State.logEv_ev (.refl _ u) rfl)) rfl
  have hloader : ∀ u v : State, v.loader = u.loader → (if v.loader.isBoot then v.bootImageDone else v).loader.butWaiting = u.loader.butWaiting := fun u v h => by
    split
    · rw [State.bootImageDone_loader, h]
    · rw [h]
  exact hloader { s with loader := s.loader.ended status flags } _ ((hnoted _).only .loader (by decide))

theorem Loader.butWaiting_inj {l m : Loader} (h : l.butWaiting = m.butWaiting) : l.st = m.st ∧ l.staging = m.staging ∧ l.lastStatus = m.lastStatus
    ∧ l.loads = m.loads ∧ l.mode = m.mode := by
  rw [Loader.butWaiting, Loader.butWaiting, Loader.mk.injEq] at h
  simp only [h, and_self]

/-- A load that ends has ended (R471, R472). -/
theorem State.endLoad_ended (s : State) (status flags : Nat) : LoadEnded s (s.endLoad status flags) status ∧ (s.endLoad status flags).loader.mode = s.loader.mode := by
  obtain ⟨hst, hstaging, hlast, hloads, hmode⟩ := Loader.butWaiting_inj (s.endLoad_loader status flags)
  exact ⟨⟨hst, hstaging, hlast, hloads⟩, hmode⟩

/-! ### READBACK -/

/-- The header that READBACK answers for a part (R479). -/
def readbackHeader (p st refused now version : Nat) : List Byte :=
  ascii "OHRB" ++ leBytes 1 p ++ leBytes 1 st ++ leBytes 1 refused ++ leBytes 1 0 ++ leBytes 8 now ++ leBytes 4 version ++ leBytes 44 0

theorem readbackHeader_length (p st refused now version : Nat) : (readbackHeader p st refused now version).length = 64 := by
  simp only [readbackHeader, List.length_append, leBytes_length]
  rfl

theorem freeWords_length (n i : Nat) : (freeWords n i).length = 8 * n := by
  induction n generalizing i with
  | zero => rfl
  | succ n ih =>
    rw [freeWords, List.length_append, leBytes_length, ih]
    omega

theorem exec_readback (hport : s.portUp = true) (hmode : s.loader.mode = .command) (hw : isReadback w = true) (hpart : s.partPresent (w % 256) = true)
    (hloaded : (s.xp (w % 256)).loaded = true) : exec (.readback w) s =
      if !(s.xp (w % 256)).readback then .next (s.emit (.cfgPort (readbackHeader (w % 256) (s.xp (w % 256)).st 1 s.time.now (s.xp (w % 256)).version)))
      else if !(s.xp (w % 256)).trees.any Tree.en then
        .next (s.emit (.cfgPort (readbackHeader (w % 256) (s.xp (w % 256)).st 0 s.time.now (s.xp (w % 256)).version ++ (s.xp (w % 256)).ffInit)))
      else .next (({ s with free := s.free + 192 } : State).emit
        (.cfgPort (readbackHeader (w % 256) (s.xp (w % 256)).st 0 s.time.now (s.xp (w % 256)).version ++ freeWords 192 s.free))) := by
  have hfld : fld w 0 8 = w % 256 := fld_zero w 8
  change execReadback w s = _
  simp only [execReadback, hport, hmode, hw, hfld, hpart, hloaded, State.partState, bne_self_eq_false, Bool.not_true, Bool.false_or, Bool.or_self, Bool.false_eq_true, if_false, if_true]
  cases (s.xp (w % 256)).readback <;> rfl

theorem readback_clocked (hport : s.portUp = true) (hmode : s.loader.mode = .command) (hw : isReadback w = true) (hpart : s.partPresent (w % 256) = true)
    (hloaded : (s.xp (w % 256)).loaded = true) (hpermits : (s.xp (w % 256)).readback = true) (hclocked : ∃ i ∈ (s.xp (w % 256)).trees, i.en = true) :
    Yields (.readback w) s fun t => ∃ b : List Byte, t = { s with free := t.free, out := s.out ++ [.cfgPort b] } ∧ b.length = 64 + 1536
      ∧ b.take 64 = readbackHeader (w % 256) (s.xp (w % 256)).st 0 s.time.now (s.xp (w % 256)).version := by
  have hexec := exec_readback hport hmode hw hpart hloaded
  rw [hpermits, List.any_eq_true.2 hclocked, Bool.not_true, if_neg Bool.false_ne_true, if_neg Bool.false_ne_true] at hexec
  have hlength := readbackHeader_length (w % 256) (s.xp (w % 256)).st 0 s.time.now (s.xp (w % 256)).version
  generalize readbackHeader (w % 256) (s.xp (w % 256)).st 0 s.time.now (s.xp (w % 256)).version = h at hexec hlength ⊢
  refine .of_next hexec ⟨h ++ freeWords 192 s.free, rfl, ?_, ?_⟩
  · rw [List.length_append, hlength, freeWords_length]
  · exact hlength ▸ List.take_left

end

/-- Settles O31: each word by the mode of the port, and the end of a load by what it leaves of the loader. -/
theorem configurationPort : Obligations.ConfigurationPort := by
  refine ⟨fun _ _ => exec_load, fun _ _ => exec_invalidCommandWord, fun _ => exec_endWord_of_forward, fun s hport hmode hst hstatus => ?_,
    fun _ _ => exec_chainForward_of_forward, fun _ _ => exec_chainForward_of_tail, fun _ => exec_cfgLoadStart, fun s hready hst happly => ?_,
    fun s w hport hmode hw hpart hloaded hrefuses => ?_, fun s w hport hmode hw hpart hloaded hpermits hstill => ?_, fun _ _ => readback_clocked⟩
  · exact .of_next (exec_endWord_of_own hport hmode hst hstatus) (State.endLoad_ended { s with loader := { s.loader with mode := .command } } 0x0501 0)
  · exact .of_next (exec_cfgLoadAbort hready hst happly) (s.endLoad_ended 0x0501 0).1
  · have hexec := exec_readback hport hmode hw hpart hloaded
    rw [hrefuses, Bool.not_false, if_pos rfl] at hexec
    exact hexec
  · have hexec := exec_readback hport hmode hw hpart hloaded
    have hnone : (s.xp (w % 256)).trees.any Tree.en = false := List.any_eq_false.2 fun i hi => by rw [hstill i hi]; decide
    rw [hpermits, hnone, Bool.not_true, Bool.not_false, if_neg Bool.false_ne_true, if_pos rfl] at hexec
    exact hexec

end Sys2Proof.Machine
end

section
/-! IMAGES (O32). -/

namespace Sys2Proof.Machine

section
variable {s : State} {b m : List Byte} {e n : Nat}

/-! ### Headers and received sub-images -/

theorem exec_subImageHeader_of_ok (hport : s.portUp = true) (hst : s.loader.st = 1) (hstaging : s.loader.staging = []) (hsrc : s.loader.src = true)
    (hlen : b.length = 128) (hok : s.headerStatus b s.loader.pos = 0) :
    exec (.subImageHeader b) s = .next { s with loader := { s.loader with staging := b, bytes := 128, status := 0 } } := by
  change execSubImageHeader b s = _
  simp only [execSubImageHeader, hport, hst, hstaging, hsrc, hlen, hok, bne_self_eq_false, List.isEmpty_nil, Bool.not_true, Bool.or_self, Bool.and_false,
    Bool.false_eq_true, if_false, if_true, lt_self_iff_false]

/-- A header of the host's image that fails ends the load (R470). -/
theorem exec_subImageHeader_of_error (hport : s.portUp = true) (hst : s.loader.st = 1) (hstaging : s.loader.staging = []) (hsrc : s.loader.src = false)
    (hlen : (s.hostImage 128).length = 128) (hbad : s.headerStatus (s.hostImage 128) 0xFF = e) (he : e ≠ 0) :
    exec (.subImageHeader b) s
      = .next (({ s with loader := { s.loader with staging := s.hostImage 128, bytes := 128, status := e } } : State).endLoad e 0) := by
  change execSubImageHeader b s = _
  simp only [execSubImageHeader, hport, hst, hstaging, hsrc, hlen, hbad, if_neg he, bne_self_eq_false, List.isEmpty_nil, Bool.not_true, Bool.not_false, Bool.or_self,
    Bool.false_and, Bool.false_eq_true, if_false, if_true, lt_self_iff_false]

/-- The state with all bytes of a sub-image received. -/
def State.received (s : State) (b : List Byte) : State := { s with loader := { s.loader with bytes := b.length, mode := .tail } }

/-- A received sub-image whose header passed (R469 step 3). -/
theorem exec_subImageReceived (hport : s.portUp = true) (hst : s.loader.st = 1) (htaken : s.loader.staging = b.take 128) (hstaging : s.loader.staging ≠ [])
    (hsrc : s.loader.src = true) (hlen : b.length = imgTotal s.loader.staging) (hstatus : s.loader.status = 0) : (∀ e, s.imageStatus b = .error e →
      exec (.subImageReceived b) s = .next ((s.received b).endLoad e 0))
    ∧ ∀ m, s.imageStatus b = .ok m →
      exec (.subImageReceived b) s = .next { s with loader := { s.loader with bytes := b.length, mode := .tail, st := 3, staging := m } } := by
  have hsome : s.loader.staging.isEmpty = false := List.isEmpty_eq_false_iff.2 hstaging
  have himage : ∀ l, ({ s with loader := l } : State).imageStatus b = s.imageStatus b := fun _ => rfl
  have htaken' : (b.take 128 != s.loader.staging) = false := by rw [htaken, bne_self_eq_false]
  refine ⟨fun e he => ?_, fun m hm => ?_⟩
  · change execSubImageReceived b s = _
    simp only [execSubImageReceived, State.received, hport, hst, one_ne_zero, false_and, hsome, hsrc, ← hlen, htaken', hstatus, himage, he, bne_self_eq_false,
      Bool.not_true, Bool.or_self, Bool.and_false, Bool.false_eq_true, if_false, if_true, lt_self_iff_false, ne_eq, not_true_eq_false]
  · change execSubImageReceived b s = _
    simp only [execSubImageReceived, hport, hst, one_ne_zero, false_and, hsome, hsrc, ← hlen, htaken', hstatus, himage, hm, bne_self_eq_false, Bool.not_true, Bool.or_self,
      Bool.and_false, Bool.false_eq_true, if_false, if_true, lt_self_iff_false, ne_eq, not_true_eq_false]

theorem State.endLoad_xparts (s : State) (status flags : Nat) : (s.endLoad status flags).xparts = s.xparts :=
  (State.endLoad_ev (k := false) (l := [.pins, .hub, .funcs, .msix, .log, .loader]) (.refl _ s) rfl).only .xparts (by decide)

/-! ### The commit point -/

theorem exec_loadCommit (hport : s.portUp = true) (hst : s.loader.st = 3) (hcalls : ∀ p ∈ imgParts s.loader.staging, (s.xp p).call = none) :
    exec (.loadCommit n) s = if s.loader.start + 1000000 * s.loader.window ≤ max s.time.now n + applyBound s.loader.staging then .next ((s.atTime n).endLoad 0x0504 0)
      else .next ((imgParts s.loader.staging).foldl State.clampPart
        (({ s.atTime n with loader := { s.loader with st := 4, commitAt := max s.time.now n, flags := 0 } } : State).applyCapsule s.loader.staging)) := by
  have hnone : (imgParts s.loader.staging).any (fun p => (s.xp p).call.isSome) = false := List.any_eq_false.2 fun p hp => by rw [hcalls p hp]; decide
  change execLoadCommit n s = _
  simp only [execLoadCommit, hport, hst, hnone, bne_self_eq_false, Bool.not_true, Bool.or_self, Bool.false_eq_true, if_false]
  rfl

/-- A part that is clamped and in reset for a load (R473). -/
def XPart.held (x : XPart) : Prop := x.st = 2 ∧ x.clamped = true ∧ x.rst = true

theorem State.clampPart_held (s : State) (p : Nat) : ((s.clampPart p).xp p).held ∧ .portRst p ∈ (s.clampPart p).out := by
  have hclamped : ((s.updXp p fun x => { x with st := 2, clamped := true, rst := true, join := false, awaiting := false, softIds := [], readback := false }).xp p).held := by
    rw [State.updXp_same]
    exact ⟨rfl, rfl, rfl⟩
  rw [State.clampPart]
  generalize (s.updXp p fun x => { x with st := 2, clamped := true, rst := true, join := false, awaiting := false, softIds := [], readback := false }) = u at hclamped
  obtain ⟨es, hes, -⟩ := (State.devChangeAll_ev (k := false) (l := [.pins, .funcs, .msix, .log]) (off := partOff p) (.refl _ (u.emit (.portRst p))) rfl).posted
  rw [State.devChangeAll_xp, hes, State.emit_out]
  exact ⟨hclamped, List.mem_append_left _ (List.mem_append_right _ (List.mem_singleton.2 rfl))⟩

theorem State.clampPart_keeps {p q : Nat} (h : (s.xp q).held ∧ .portRst q ∈ s.out) : ((s.clampPart p).xp q).held ∧ .portRst q ∈ (s.clampPart p).out := by
  by_cases hq : q = p
  · subst hq
    exact s.clampPart_held q
  · obtain ⟨es, hes, -⟩ := (State.clampPart_ev (k := false) (l := [.pins, .funcs, .msix, .log, .xparts]) (p := p) (.refl _ s) rfl).posted
    refine ⟨?_, by rw [hes]; exact List.mem_append_left _ h.2⟩
    rw [State.clampPart, State.devChangeAll_xp, State.emit_xp, State.updXp_ne _ _ _ hq]
    exact h.1

/-- Every named part is held. -/
theorem State.foldl_clampPart {ps : List Nat} {q : Nat} (h : ((s.xp q).held ∧ .portRst q ∈ s.out) ∨ q ∈ ps) :
    ((ps.foldl State.clampPart s).xp q).held ∧ .portRst q ∈ (ps.foldl State.clampPart s).out := by
  induction ps generalizing s with
  | nil => exact h.resolve_right List.not_mem_nil
  | cons p ps ih =>
    refine ih ?_
    rcases h with h | h
    · exact .inl (State.clampPart_keeps h)
    · rcases List.mem_cons.1 h with rfl | h
      · exact .inl (s.clampPart_held q)
      · exact .inr h

theorem State.clampPart_loader (s : State) (p : Nat) : (s.clampPart p).loader = s.loader :=
  (State.clampPart_ev (k := false) (l := [.pins, .funcs, .msix, .log, .xparts]) (.refl _ s) rfl).only .loader (by decide)

/-- What a capsule leaves of a load in progress. -/
theorem State.applyCapsule_load (s : State) (b : List Byte) : (s.applyCapsule b).loader.st = s.loader.st ∧ (s.applyCapsule b).loader.commitAt = s.loader.commitAt := by
  have hnoted : ∀ u : State, ((u.logEv 0x0006 0 0 0 0 [0, 0, 0]).devChangeAll 0x18).loader = u.loader := fun u =>
    (State.devChangeAll_ev (k := false) (l := [.pins, .funcs, .msix, .log]) (State.logEv_ev (.refl _ u) rfl) rfl).only .loader (by decide)
  rw [State.applyCapsule]
  dsimp only
  split
  · exact ⟨rfl, rfl⟩
  · split
    · exact ⟨rfl, rfl⟩
    · split
      · exact ⟨rfl, rfl⟩
      · rw [hnoted]
        exact ⟨rfl, rfl⟩

/-- At the commit point within the window the named parts are clamped and reset (R469, R473). -/
theorem loadCommit_clamps (hport : s.portUp = true) (hst : s.loader.st = 3) (hcalls : ∀ p ∈ imgParts s.loader.staging, (s.xp p).call = none)
    (hwindow : max s.time.now n + applyBound s.loader.staging < s.loader.start + 1000000 * s.loader.window) :
    Yields (.loadCommit n) s fun t => t.loader.st = 4 ∧ t.loader.commitAt = max s.time.now n
      ∧ ∀ p ∈ imgParts s.loader.staging, (t.xp p).st = 2 ∧ (t.xp p).clamped = true ∧ (t.xp p).rst = true ∧ .portRst p ∈ t.out := by
  have hexec := exec_loadCommit (n := n) hport hst hcalls
  rw [if_neg (Nat.not_le.2 hwindow)] at hexec
  obtain ⟨hst4, hat⟩ := State.applyCapsule_load { s.atTime n with loader := { s.loader with st := 4, commitAt := max s.time.now n, flags := 0 } } s.loader.staging
  generalize ({ s.atTime n with loader := { s.loader with st := 4, commitAt := max s.time.now n, flags := 0 } } : State).applyCapsule s.loader.staging = u at hexec hst4 hat
  have hloader : ((imgParts s.loader.staging).foldl State.clampPart u).loader = u.loader := foldl_keeps (f := State.clampPart) State.loader State.clampPart_loader _ u
  refine .of_next hexec ⟨by rw [hloader, hst4], by rw [hloader, hat], fun p hp => ?_⟩
  obtain ⟨⟨hst2, hclamped, hrst⟩, hout⟩ := State.foldl_clampPart (s := u) (.inr hp)
  exact ⟨hst2, hclamped, hrst, hout⟩

/-! ### Application -/

/-- A part that waits for JOIN with what sub-image b gave it (R473). -/
def XPart.appliedBy (x : XPart) (b : List Byte) (now : Nat) : Prop :=
  x.awaiting = true ∧ x.rev = 0x0100 ∧ x.version = at4 b 28 ∧ x.readback = imgFlag b 1 ∧ x.joinBy = now + 1000000 * imgJoin b

/-- One part's application changes the loader in the frames of its PLLs alone. -/
theorem State.applyPart_eq (s : State) (b : List Byte) (i p : Nat) : ∃ (l : Loader) (f : XPart → XPart), l.loads = s.loader.loads ∧ (∀ x, (f x).appliedBy b s.time.now)
    ∧ s.applyPart b i p = (({ s with loader := l } : State).updXp p f).devChangeAll (partOff p) := by
  rw [State.applyPart]
  dsimp only
  split
  all_goals
    refine ⟨_, _, ?_, ?_, rfl⟩
    · rfl
    · exact fun _ => ⟨rfl, rfl, rfl, rfl, rfl⟩

theorem State.applyPart_kept (s : State) (b : List Byte) (i p : Nat) : (s.applyPart b i p).time = s.time ∧ (s.applyPart b i p).loader.loads = s.loader.loads := by
  obtain ⟨l, f, hloads, -, h⟩ := s.applyPart_eq b i p
  rw [h]
  have honly := (({ s with loader := l } : State).updXp p f).devChangeAll_only (partOff p)
  exact ⟨honly .time (by decide), (congrArg Loader.loads (honly .loader (by decide))).trans hloads⟩

theorem State.applyPart_applied {s : State} {b : List Byte} {q now : Nat} (i p : Nat) (hnow : s.time.now = now) (h : (s.xp q).appliedBy b now ∨ q = p) :
    ((s.applyPart b i p).xp q).appliedBy b now := by
  obtain ⟨l, f, -, happlied, heq⟩ := s.applyPart_eq b i p
  rw [heq, State.devChangeAll_xp, State.updXp_at]
  split
  · exact hnow ▸ happlied _
  next hq => exact h.resolve_right hq

/-- Every named part waits for JOIN. -/
theorem State.foldl_applyPart {b : List Byte} {q now : Nat} {ps : List (Nat × Nat)} {s : State} (hnow : s.time.now = now)
    (h : (s.xp q).appliedBy b now ∨ ∃ i, (q, i) ∈ ps) : ((ps.foldl (fun s (p, n) => s.applyPart b n p) s).xp q).appliedBy b now := by
  induction ps generalizing s with
  | nil => exact h.resolve_right fun ⟨_, hi⟩ => List.not_mem_nil hi
  | cons e ps ih =>
    obtain ⟨p, i⟩ := e
    refine ih (by rw [(s.applyPart_kept b i p).1, hnow]) ?_
    rcases h with h | ⟨j, hj⟩
    · exact .inl (State.applyPart_applied i p hnow (.inl h))
    · rcases List.mem_cons.1 hj with he | hj
      · exact .inl (State.applyPart_applied i p hnow (.inr (Prod.ext_iff.1 he).1))
      · exact .inr ⟨j, hj⟩

theorem exec_applyComplete (hst : s.loader.st = 4) :
    exec .applyComplete s = .next (({ ((imgParts s.loader.staging).zipIdx.foldl (fun u (p, n) => u.applyPart s.loader.staging n p) s).blowFuses s.loader.staging with
      hub := { (((imgParts s.loader.staging).zipIdx.foldl (fun u (p, n) => u.applyPart s.loader.staging n p) s).blowFuses s.loader.staging).hub with
        bootImage := (((imgParts s.loader.staging).zipIdx.foldl (fun u (p, n) => u.applyPart s.loader.staging n p) s).blowFuses s.loader.staging).hub.bootImage
          || s.loader.isBoot } } : State).endLoad 0 s.loader.flags) := by
  change execApplyComplete s = _
  simp only [execApplyComplete, hst, bne_self_eq_false, Bool.false_eq_true, if_false]

/-- Application leaves each named part waiting for JOIN, and the load ends (R471, R473). -/
theorem applyComplete (hst : s.loader.st = 4) : Yields .applyComplete s fun t => LoadEnded s t 0
    ∧ ∀ p ∈ imgParts s.loader.staging, (t.xp p).appliedBy s.loader.staging s.time.now := by
  have hexec := exec_applyComplete hst
  have happlied : ∀ q ∈ imgParts s.loader.staging,
      (((imgParts s.loader.staging).zipIdx.foldl (fun u (p, n) => u.applyPart s.loader.staging n p) s).xp q).appliedBy s.loader.staging s.time.now := fun q hq => by
    obtain ⟨i, hi, rfl⟩ := List.getElem_of_mem hq
    exact State.foldl_applyPart rfl (.inr ⟨i, List.mem_zipIdx_iff_getElem?.2 (List.getElem?_eq_getElem hi)⟩)
  have hloads : ((imgParts s.loader.staging).zipIdx.foldl (fun u (p, n) => u.applyPart s.loader.staging n p) s).loader.loads = s.loader.loads :=
    foldl_keeps (f := fun u (e : Nat × Nat) => u.applyPart s.loader.staging e.2 e.1) (fun u => u.loader.loads) (fun u e => (u.applyPart_kept _ _ _).2) _ s
  generalize (imgParts s.loader.staging).zipIdx.foldl (fun u (p, n) => u.applyPart s.loader.staging n p) s = u at hexec happlied hloads
  have hblown := (State.blowFuses_ev (k := false) (l := [.pins, .funcs, .msix, .log]) (b := s.loader.staging) (.refl _ u) rfl).only
  have hxparts : (u.blowFuses s.loader.staging).xparts = u.xparts := hblown .xparts (by decide)
  have hloader : (u.blowFuses s.loader.staging).loader = u.loader := hblown .loader (by decide)
  generalize u.blowFuses s.loader.staging = v at hexec hxparts hloader
  generalize hw : ({ v with hub := { v.hub with bootImage := v.hub.bootImage || s.loader.isBoot } } : State) = w at hexec
  have hwparts : w.xparts = u.xparts := by rw [← hw, ← hxparts]
  have hwloader : w.loader = u.loader := by rw [← hw, ← hloader]
  obtain ⟨⟨hst', hstaging, hlast, hcount⟩, -⟩ := w.endLoad_ended 0 s.loader.flags
  refine .of_next hexec ⟨⟨hst', hstaging, hlast, by rw [hcount, hwloader, hloads]⟩, fun p hp => ?_⟩
  rw [xp_of_xparts ((w.endLoad_xparts 0 s.loader.flags).trans hwparts) p]
  exact happlied p hp
end

/-- Settles O32: the checks one after another; the named parts by what the first and the later ones of the fold leave. -/
theorem imageLoading : Obligations.ImageLoading := by
  refine ⟨fun _ _ => exec_subImageHeader_of_ok, fun s b e hport hst hstaging hsrc hlen hbad he => ?_,
    fun s b m hport hst htaken hstaging hsrc hlen hstatus hm => (exec_subImageReceived hport hst htaken hstaging hsrc hlen hstatus).2 m hm,
    fun s b e hport hst htaken hstaging hsrc hlen hstatus he => ?_, fun _ _ => loadCommit_clamps, fun s n hport hst hcalls hpast => ?_, fun _ => applyComplete⟩
  · exact .of_next (exec_subImageHeader_of_error hport hst hstaging hsrc hlen hbad he)
      (State.endLoad_ended { s with loader := { s.loader with staging := s.hostImage 128, bytes := 128, status := e } } e 0).1
  · exact .of_next ((exec_subImageReceived hport hst htaken hstaging hsrc hlen hstatus).1 e he)
      ⟨((s.received b).endLoad_ended e 0).1, (s.received b).endLoad_xparts e 0⟩
  · have hexec := exec_loadCommit (n := n) hport hst hcalls
    rw [if_pos hpast] at hexec
    exact .of_next hexec ⟨((s.atTime n).endLoad_ended 0x0504 0).1, (s.atTime n).endLoad_xparts 0x0504 0⟩

end Sys2Proof.Machine
end
